-- ==== Sys2Proof/Word.lean ====
section
/-! DEFINITION. The words of the CGX-W48 and the plainest containers its state is made of. -/

namespace Sys2Proof

/-- A byte of memory (R2). -/
abbrev Byte := BitVec 8

/-- A 64-bit word: a token value, a register, a queue or descriptor word (R2, R102). -/
abbrev W64 := BitVec 64

/-- A 32-bit word: a key, a dif, a round or a batch (R5, R102). -/
abbrev W32 := BitVec 32

/-- A table of values by key, held as plain data; a key that is not listed has the reader's default. -/
abbrev Tbl (κ α : Type) := List (κ × α)

/-- A logical time (R5): a batch and a round, both unsigned. -/
structure Time where
  batch : W32
  round : W32
  deriving DecidableEq, Repr, Inhabited

/-- A core F(fx,fy)C(cx,cy) by field index fy*8 + fx and logical coordinates (R1, R6). Memory cores stand in columns 7, 15, 23 and 31. -/
structure CoreId where
  f  : Nat
  cx : Nat
  cy : Nat
  deriving DecidableEq, Repr, Inhabited

/-- Element e, context k of a core: the place of one node (R31, R60). -/
structure Slot where
  core : CoreId
  e : Nat
  k : Nat
  deriving DecidableEq, Repr, Inhabited

/-- An output of an element: port 4 is X and port 5 is Y, as routing words number them (R56, R106). -/
structure EdgeId where
  core : CoreId
  e : Nat
  port : Nat
  deriving DecidableEq, Repr, Inhabited

/-- An input port of an element: 0 A, 1 B, 2 C, 3 P (R56). -/
structure InPort where
  core : CoreId
  e : Nat
  port : Nat
  deriving DecidableEq, Repr, Inhabited

/-- A token (R102); the parity byte is a function of the other bits (R103) and stands in no field. -/
structure Token where
  val  : W64
  key  : W32
  dif  : W32
  time : Time
  seq  : BitVec 24
  ctx  : BitVec 3
  nul  : Bool
  fin  : Bool
  kv   : Bool
  deriving DecidableEq, Repr, Inhabited

/-- The identity a set pairs by within one context (R111). -/
structure Ident where
  k    : Nat
  time : Time
  seq  : BitVec 24
  deriving DecidableEq, Repr, Inhabited

/-- A complete operand set (R111): the tokens that arrived on ports A, B, C and P, the port whose token completed it (R118), and, for a
history operation, the stream that it read on B (R231). -/
structure OpSet where
  id   : Ident
  a    : Option Token
  b    : Option Token
  c    : Option Token
  p    : Option Token
  port : Nat
  bs   : List Token
  deriving DecidableEq, Repr, Inhabited

/-- A unit that keeps a cycle counter of its own (R20) and injects messages of its own (R312). -/
inductive UnitId where
  | core (c : CoreId)            -- compute core or memory core
  | ic (f n : Nat)               -- interface core n of field f (R7)
  | seqr (f : Nat)               -- field sequencer
  | si (f n : Nat)               -- streamer island
  | mi (f n : Nat)               -- matrix island
  | ftrk (f : Nat)               -- field tracker
  | wtrk                         -- wafer tracker
  | link                         -- wafer link controller
  | port (p : Nat)               -- optical port p (R322)
  | mgmt                         -- management controller
  deriving DecidableEq, Repr, Inhabited

/-- A router of the mesh in global coordinates (R307). -/
structure Router where
  gx : Nat
  gy : Nat
  deriving DecidableEq, Repr, Inhabited

end Sys2Proof
end

