-- ==== Sys2Proof/Syntax.lean ====
section
/-! DEFINITION. The steps of the CGX-W48: one constructor of Instr for each row of the table of operations and events.
A row with a context word (R48) carries the word's fields, a row with a sequencer word (R64) carries that word's fields, and a row
that is a step of some unit, or a thing the outside world does, carries the operands that say which unit, packet or port acts. -/

namespace Sys2Proof

/-- The fields of a context word but its opcode (R48). -/
structure CW where
  fn  : BitVec 4    -- [55:52]
  ty  : BitVec 4    -- [51:48]
  pm  : BitVec 2    -- [47:46]
  xc  : BitVec 3    -- [45:43]
  yc  : BitVec 3    -- [42:40]
  xt  : BitVec 2    -- [39:38]
  yt  : BitVec 2    -- [37:36]
  sa  : BitVec 2    -- [35:34]
  sb  : BitVec 2    -- [33:32]
  sc  : BitVec 2    -- [31:30]
  np  : BitVec 2    -- [29:28]
  dm  : BitVec 2    -- [27:26]
  hd  : BitVec 1    -- [25]
  tb  : BitVec 1    -- [24]
  imm : BitVec 24   -- [23:0]
  deriving DecidableEq, Repr, Inhabited

/-- The fields of a sequencer word but its SOP (R64). -/
structure SW where
  d   : BitVec 4    -- [55:52]
  a   : BitVec 4    -- [51:48]
  b   : BitVec 4    -- [47:44]
  imm : BitVec 44   -- [43:0]
  deriving DecidableEq, Repr, Inhabited

/-- What QUEUE_AGEING raises: a queue, or a resident graph by its place (R100). -/
inductive Sched where
  | queue (q : Nat)
  | graph (g : Nat)
  deriving DecidableEq, Repr, Inhabited

/-- One item of a count message or of a tracker's net change: a signed count at (stage, time) (R213). -/
structure CountItem where
  stage : Nat
  time  : Time
  n     : Int
  deriving DecidableEq, Repr, Inhabited

/-- Where a block decoder's watchdog cuts a unit off (R365): in a stream, or in a load. -/
inductive DecodeSite where
  | stream (f n id : Nat)
  | load (pkt : Nat)
  deriving DecidableEq, Repr, Inhabited

/-- The header flit of a frame (R325); rsv holds the 73 bits that the layout calls zero, from the lowest up. -/
structure FrameHdr where
  kind   : BitVec 8
  ndata  : BitVec 4
  kid    : W32
  ctr    : BitVec 48
  ch     : BitVec 13
  ackctr : BitVec 48
  nak    : Bool
  crch   : BitVec 13
  crn    : BitVec 16
  rsv    : BitVec 73
  deriving DecidableEq, Repr, Inhabited

/-- A frame as it stands on the fibre: header flit in clear, data flits encrypted, tag flit (R325, R327). -/
structure Frame where
  hdr  : FrameHdr
  data : List (BitVec 256)
  tag  : BitVec 256
  deriving DecidableEq, Repr, Inhabited

/-- What a cold reset finds (R429): the fused defect map words, the stage that fails (0 for none) and its code. -/
structure BootFuses where
  defmap  : List W64
  failAt  : Nat
  code    : Byte
  deriving DecidableEq, Repr, Inhabited

/-- One constructor for each row of spec/opcode_table.json. -/
inductive Instr where
  /-- ABS (R150). Element firing that emits the absolute value of A, wrapping or saturating. -/
  | abs (w : CW)
  /-- ACQ (R295). Sends a lock acquire to the lock word's home, which grants the lock or enqueues a waiter. -/
  | acq (w : CW)
  /-- ADD (R150). Element firing that emits a + b, wrapping or saturating under .SAT. -/
  | add (w : CW)
  /-- ALL (R177). Gathers one token from each of n activations in SEQ order and emits the last one's value. -/
  | all (w : CW)
  /-- AND (R153). Element firing that emits the bitwise and of A and B. -/
  | and (w : CW)
  /-- ANDN (R153). Element firing that emits a and not b. -/
  | andn (w : CW)
  /-- ARMP (R255). Sends a request that arms a pane for an engine with an expected byte total. -/
  | armp (w : CW)
  /-- ATOM (R192). Sends an integer read-modify-write request to the address's home. -/
  | atom (w : CW)
  /-- BEND (R279). Starts a walk that declares the halyards of two promise cells equal. -/
  | bend (w : CW)
  /-- BFI (R156). Element firing that inserts a bit field of B into A. -/
  | bfi (w : CW)
  /-- BFX (R156). Element firing that extracts a bit field of A. -/
  | bfx (w : CW)
  /-- BIN (R361). Hands a streamer island a command that sorts rows into classes by their length. -/
  | bin (w : CW)
  /-- CAPA (R210). Advances the input stage's capability to the time in A and records the change. -/
  | capa (w : CW)
  /-- CAPD (R210). Drops the input stage's capability and records the change. -/
  | capd (w : CW)
  /-- CAS (R192). Sends a compare-and-swap request, comparing with the hold register, to the home. -/
  | cas (w : CW)
  /-- CLZ (R155). Element firing that counts leading zero bits of A. -/
  | clz (w : CW)
  /-- CMP (R158). Element firing that compares A with B and emits 1 or 0. -/
  | cmp (w : CW)
  /-- CNT (R176). Counts the tokens of a stream and emits the count at its END. -/
  | cnt (w : CW)
  /-- CONSOL (R185). Merges adjacent equal records of a sorted stream, summing their difs. -/
  | consol (w : CW)
  /-- CONST (R174). Emits the value of B once per set, or once per launch when it has no operand port. -/
  | const (w : CW)
  /-- CPY (R348). Hands a streamer island a one-destination copy command. -/
  | cpy (w : CW)
  /-- CVT (R167). Element firing that converts A between integer and floating types. -/
  | cvt (w : CW)
  /-- DIV (R152). Element firing that divides A by B. -/
  | div (w : CW)
  /-- DSET (R186). Element firing that replaces the dif of the record on A. -/
  | dset (w : CW)
  /-- DUP (R171). Element firing that copies A to X and Y. -/
  | dup (w : CW)
  /-- ENDS (R171). Element firing that emits an END token on X. -/
  | ends (w : CW)
  /-- ENTER (R206). Passes each token arriving on A or B into a loop with its time unchanged. -/
  | enter (w : CW)
  /-- FABS (R160). Element firing that clears the sign bit of A. -/
  | fabs (w : CW)
  /-- FADD (R159). Element firing that emits the rounded sum a + b. -/
  | fadd (w : CW)
  /-- FATOM (R192). Sends a floating add read-modify-write request to the home. -/
  | fatom (w : CW)
  /-- FCLS (R162). Element firing that emits the class mask of A. -/
  | fcls (w : CW)
  /-- FCMP (R161). Element firing that compares two floats and emits 1 or 0. -/
  | fcmp (w : CW)
  /-- FCVT (R166). Element firing that converts A between float and packed formats. -/
  | fcvt (w : CW)
  /-- FEED (R206). Passes a token back round a loop with round raised by one. -/
  | feed (w : CW)
  /-- FILL (R280). Starts a walk that fills a promise cell's halyard with a value. -/
  | fill (w : CW)
  /-- FMA (R159). Element firing that emits a × b + c rounded once. -/
  | fma (w : CW)
  /-- FMAX (R160). Element firing that emits the larger of two floats. -/
  | fmax (w : CW)
  /-- FMIN (R160). Element firing that emits the smaller of two floats. -/
  | fmin (w : CW)
  /-- FMS (R159). Element firing that emits a × b − c rounded once. -/
  | fms (w : CW)
  /-- FMUL (R159). Element firing that emits the rounded product a × b. -/
  | fmul (w : CW)
  /-- FNEG (R160). Element firing that inverts the sign bit of A. -/
  | fneg (w : CW)
  /-- FNMA (R159). Element firing that emits −(a × b) + c rounded once. -/
  | fnma (w : CW)
  /-- FRCP (R165). Element firing that emits the 12-bit reciprocal estimate of A. -/
  | frcp (w : CW)
  /-- FRND (R163). Element firing that rounds A to an integral value. -/
  | frnd (w : CW)
  /-- FRONT (R221). Sends a frontier query for a stage to the wafer tracker. -/
  | front (w : CW)
  /-- FRSQ (R165). Element firing that emits the 12-bit reciprocal square root estimate of A. -/
  | frsq (w : CW)
  /-- FSCL (R164). Element firing that scales A by 2 to the power B. -/
  | fscl (w : CW)
  /-- FSUB (R159). Element firing that emits the rounded difference a − b. -/
  | fsub (w : CW)
  /-- GATE (R172). Passes A to X when P is nonzero and otherwise emits nothing. -/
  | gate (w : CW)
  /-- GBIND (R357). Hands a streamer island a command that binds a gather or scatter window. -/
  | gbind (w : CW)
  /-- GFREE (R360). Unbinds a window once its requests in flight have been answered. -/
  | gfree (w : CW)
  /-- HAPP (R235). Appends a batch to one side of a history without joining it. -/
  | happ (w : CW)
  /-- HCOMP (R242). Compacts both sides of a history behind the frontier of its own stage. -/
  | hcomp (w : CW)
  /-- HJOIN (R236). Joins a batch with the other side of a history, then appends it. -/
  | hjoin (w : CW)
  /-- HMRG (R243). Merges each side of a history into one batch. -/
  | hmrg (w : CW)
  /-- HNEW (R235). Empties both sides of a history and withdraws its pending holds. -/
  | hnew (w : CW)
  /-- HOIST (R260). Sends a request that hoists an EMPTY pane to FULL. -/
  | hoist (w : CW)
  /-- HRED (R237). Appends a batch to a reduction's input side and adds its interesting times as pending entries. -/
  | hred (w : CW)
  /-- HSEEK (R241). Reads the accumulated records of a history side for each query key. -/
  | hseek (w : CW)
  /-- HSTAT (R244). Emits the statistics word of a history. -/
  | hstat (w : CW)
  /-- IDNT (R171). Element firing that copies A to X. -/
  | idnt (w : CW)
  /-- ISECT (R182). One walk step of the intersection of two sorted streams. -/
  | isect (w : CW)
  /-- LANE (R168). Element firing that emits one lane of a packed value widened to F32. -/
  | lane (w : CW)
  /-- LD (R189). Sends a load request to the address's home. -/
  | ld (w : CW)
  /-- LDW (R260). Sends a load that waits until its pane is FULL. -/
  | ldw (w : CW)
  /-- LEAVE (R206). Passes a token out of a loop with round set to 0. -/
  | leave (w : CW)
  /-- MAD (R150). Element firing that emits a × b + c as an integer. -/
  | mad (w : CW)
  /-- MAX (R153). Element firing that emits the larger integer operand. -/
  | max (w : CW)
  /-- MCLR (R390). Commands a matrix island to clear an accumulator plane. -/
  | mclr (w : CW)
  /-- MCPY (R348). Hands a streamer island a multicast copy command. -/
  | mcpy (w : CW)
  /-- MDRAIN (R391). Commands a matrix island to drain accumulator rows to memory. -/
  | mdrain (w : CW)
  /-- MIN (R153). Element firing that emits the smaller integer operand. -/
  | min (w : CW)
  /-- MINUS (R182). One walk step of the difference of two sorted streams. -/
  | minus (w : CW)
  /-- MLOAD (R387). Commands a matrix island to load the shadow weight plane from panes. -/
  | mload (w : CW)
  /-- MMASK (R390). Commands a matrix island to set a plane's K-tile mask. -/
  | mmask (w : CW)
  /-- MOV (R157). Element firing that copies A at TY width. -/
  | mov (w : CW)
  /-- MSTAT (R392). Commands a matrix island to report a plane's status. -/
  | mstat (w : CW)
  /-- MSTRM (R389). Hands a matrix island a run of activation rows to stream past the weights. -/
  | mstrm (w : CW)
  /-- MSWAP (R388). Commands a matrix island to exchange its active and shadow weight planes. -/
  | mswap (w : CW)
  /-- MUL (R150). Element firing that emits a × b as an integer. -/
  | mul (w : CW)
  /-- MULH (R151). Element firing that emits the upper half of the product. -/
  | mulh (w : CW)
  /-- NEG (R150). Element firing that emits −a. -/
  | neg (w : CW)
  /-- NEGD (R186). Element firing that negates the dif of the record on A. -/
  | negd (w : CW)
  /-- NEXTF (R260). Sends a request that yields the oldest FULL unyielded pane of a set. -/
  | nextf (w : CW)
  /-- NOT (R153). Element firing that emits the bitwise complement of A. -/
  | not (w : CW)
  /-- NULL (R171). Element firing that emits a NUL token on X. -/
  | null (w : CW)
  /-- OR (R153). Element firing that emits the bitwise or of A and B. -/
  | or (w : CW)
  /-- PFIND (R281). Walks to a promise cell's root and emits its address and rank. -/
  | pfind (w : CW)
  /-- PHDROP (R293). Drops a phaser membership, counting or withdrawing its signal. -/
  | phdrop (w : CW)
  /-- PHNEW (R289). Rewrites a phaser at phase 0 with a number of signallers. -/
  | phnew (w : CW)
  /-- PHNEXT (R291). Signals a phaser phase and waits for it in one request. -/
  | phnext (w : CW)
  /-- PHQRY (R294). Reads a phaser's counts and phase without waiting. -/
  | phqry (w : CW)
  /-- PHREG (R290). Registers a phaser member and emits its member token. -/
  | phreg (w : CW)
  /-- PHSIG (R291). Signals a phaser phase at its home. -/
  | phsig (w : CW)
  /-- PHWAIT (R292). Waits at a phaser until a target phase is complete. -/
  | phwait (w : CW)
  /-- PNEW (R282). Renews a promise cell as an unset root of rank 0. -/
  | pnew (w : CW)
  /-- POPC (R155). Element firing that counts the one bits of A. -/
  | popc (w : CW)
  /-- PREAD (R281). Reads a halyard's value and state without waiting. -/
  | pread (w : CW)
  /-- PROBE (R220). Takes a token and holds it until the probed frontier has passed its time. -/
  | probe (w : CW)
  /-- PWAIT (R281). Waits until a halyard is filled and emits its value. -/
  | pwait (w : CW)
  /-- QPOST (R355). Has a streamer island post a packet to a queue. -/
  | qpost (w : CW)
  /-- REKEY (R186). Element firing that replaces the key of the record on A. -/
  | rekey (w : CW)
  /-- REL (R295). Releases a lock word, handing it to the first waiter or freeing it. -/
  | rel (w : CW)
  /-- REM (R152). Element firing that emits the remainder of a ÷ b. -/
  | rem (w : CW)
  /-- ROT (R154). Element firing that rotates A left. -/
  | rot (w : CW)
  /-- SCAN (R184). Emits the running sum of a sorted stream, inclusive or exclusive. -/
  | scan (w : CW)
  /-- SEL (R157). Element firing that selects A or B by C. -/
  | sel (w : CW)
  /-- SHARE (R296). Installs a region-to-object binding in the issuing core's share table. -/
  | share (w : CW)
  /-- SHL (R154). Element firing that shifts A left. -/
  | shl (w : CW)
  /-- SHR (R154). Element firing that shifts A right, filling with zeros. -/
  | shr (w : CW)
  /-- SINK (R171). Element firing that consumes its set and emits nothing. -/
  | sink (w : CW)
  /-- SRA (R154). Element firing that shifts A right arithmetically. -/
  | sra (w : CW)
  /-- SRC (R175). Emits one unit token of an armed section, at most one per clk while X has room. -/
  | src (w : CW)
  /-- ST (R189). Sends a store request and emits an issued token. -/
  | st (w : CW)
  /-- STD (R189). Sends a store request whose done token follows the home's acknowledgement. -/
  | std (w : CW)
  /-- STEER (R172). Passes A to X or to Y as P selects. -/
  | steer (w : CW)
  /-- STRIKE (R260). Sends a request that returns a pane to EMPTY. -/
  | strike (w : CW)
  /-- STWAIT (R354). Waits at a word's home until the word reaches a stamp value. -/
  | stwait (w : CW)
  /-- SUB (R150). Element firing that emits a − b. -/
  | sub (w : CW)
  /-- TAGR (R260). Reads a pane's tag word without waiting. -/
  | tagr (w : CW)
  /-- TAKE (R260). Reads a word once its pane is FULL and strikes the pane in the same step. -/
  | take (w : CW)
  /-- TIMEV (R222). Emits the time word of its set. -/
  | timev (w : CW)
  /-- TRED (R177). Folds one value from each of n activations in SEQ order. -/
  | tred (w : CW)
  /-- TSET (R209). Emits A at the time given by B, checked against the stage's capability. -/
  | tset (w : CW)
  /-- UNION (R182). One walk step of the union of two sorted streams under its mode. -/
  | union (w : CW)
  /-- VALK (R186). Element firing that exchanges the key and value of a record. -/
  | valk (w : CW)
  /-- VINS (R169). Element firing that replaces one lane of a packed value. -/
  | vins (w : CW)
  /-- VSUM (R170). Element firing that sums every lane with one rounding. -/
  | vsum (w : CW)
  /-- XOR (R153). Element firing that emits the bitwise exclusive or of A and B. -/
  | xor (w : CW)
  /-- SHARE_REMOVE (R296). SHARE with a length KEY of 0, which removes the binding for that region and object. -/
  | shareRemove (w : CW)
  /-- SLI (R85). Loads a sign-extended immediate into a scalar register. -/
  | sli (w : SW)
  /-- SADD (R85). Scalar add. -/
  | sadd (w : SW)
  /-- SSUB (R85). Scalar subtract. -/
  | ssub (w : SW)
  /-- SMUL (R85). Scalar multiply, low 64 bits. -/
  | smul (w : SW)
  /-- SAND (R85). Scalar bitwise and. -/
  | sand (w : SW)
  /-- SOR (R85). Scalar bitwise or. -/
  | sor (w : SW)
  /-- SXOR (R85). Scalar bitwise exclusive or. -/
  | sxor (w : SW)
  /-- SSHL (R85). Scalar shift left. -/
  | sshl (w : SW)
  /-- SSHR (R85). Scalar logical shift right. -/
  | sshr (w : SW)
  /-- SFADD (R85). Scalar F64 add, with its flags ORed into the field's flag word. -/
  | sfadd (w : SW)
  /-- SLD (R87). Kernel graph load of 8 bytes into a scalar register. -/
  | sld (w : SW)
  /-- SST (R87). Kernel graph store that resumes on the home's acknowledgement. -/
  | sst (w : SW)
  /-- SBR (R86). Unconditional branch of a kernel graph. -/
  | sbr (w : SW)
  /-- SBZ (R86). Branch when a register is zero. -/
  | sbz (w : SW)
  /-- SBNZ (R86). Branch when a register is nonzero. -/
  | sbnz (w : SW)
  /-- SBLT (R86). Branch on signed less than. -/
  | sblt (w : SW)
  /-- SCALL (R86). Call within a kernel graph, saving the return index. -/
  | scall (w : SW)
  /-- SRET (R86). Return to the index held in a register. -/
  | sret (w : SW)
  /-- CFG (R93). Reconfigures this field from an image once the launch's sections in the field have completed. -/
  | cfg (w : SW)
  /-- ARMS (R88). Arms a section with a count of activations. -/
  | arms (w : SW)
  /-- WAITS (R89). Waits until a section's completed count equals its armed count. -/
  | waits (w : SW)
  /-- WSTAMP (R90). Waits until a memory word reaches a value. -/
  | wstamp (w : SW)
  /-- SQPOST (R91). Posts a packet to a queue by fetch-and-add and ordered writes. -/
  | sqpost (w : SW)
  /-- LAUNCH (R92). Kernel graph word that starts a child launch. -/
  | launch (w : SW)
  /-- RECFG (R94). Replaces one switch-table entry once the affected edges have drained. -/
  | recfg (w : SW)
  /-- FWAIT (R95). Waits until a probe's frontier has passed a time. -/
  | fwait (w : SW)
  /-- SFLAGS (R96). Reads this field's flag word of the launch. -/
  | sflags (w : SW)
  /-- SFLAGS_ALL (R96). SFLAGS with IMM bit 0 set, which gathers the OR of every field's flag word of the launch. -/
  | sflagsAll (w : SW)
  /-- SYIELD (R96). Moves the graph behind every other ready graph of its priority. -/
  | syield (w : SW)
  /-- SHALT (R96). Ends the kernel graph in this field. -/
  | shalt (w : SW)
  /-- SVC (R400). Writes a service-call record and waits for ERET. -/
  | svc (w : SW)
  /-- ERET (R400). Resumes the oldest user graph whose service the supervisor has taken. -/
  | eret (w : SW)
  /-- FREC (R417). Takes the next fault record from the ring. -/
  | frec (w : SW)
  /-- FREPLAY (R417). Replays what a fault record names. -/
  | freplay (w : SW)
  /-- FABORT_RECORD (R417). FABORT with m = 0: ends a fault record without replay. -/
  | fabortRecord (w : SW)
  /-- FABORT_LAUNCH (R417). FABORT with m = 1: aborts a launch with a DONE code. -/
  | fabortLaunch (w : SW)
  /-- QUIESCE (R417). Stops acceptance for a context's queues and waits for its launches to settle. -/
  | quiesce (w : SW)
  /-- CSAVE (R411). Saves every field's shadow context to HBM, encrypted. -/
  | csave (w : SW)
  /-- CLOAD (R411). Loads a saved context into an empty shadow. -/
  | cload (w : SW)
  /-- CSWAP (R410). Halts the partition and exchanges its live and shadow contexts. -/
  | cswap (w : SW)
  /-- TLBINV (R414). Drops a context's cached translations over a range. -/
  | tlbinv (w : SW)
  /-- MAPPIN (R417). Writes a page table leaf and drops that page's translations. -/
  | mappin (w : SW)
  /-- KEYLD (R417). Installs an HBM XTS key pair in a context's key slot. -/
  | keyld (w : SW)
  /-- LKEY (R331). Installs a link key and KID in a port direction's key slot. -/
  | lkey (w : SW)
  /-- DEADSET (R337). Sets a wafer's dead-peer bit with its effects. -/
  | deadset (w : SW)
  /-- DEADCLR (R338). Clears a wafer's dead-peer bit and sends the bitmap. -/
  | deadclr (w : SW)
  /-- FREEZE (R405). Freezes a region of a launch. -/
  | freeze (w : SW)
  /-- THAW (R417). Resumes a frozen region, optionally for a count of issues. -/
  | thaw (w : SW)
  /-- SWEEP (R417). Reads and corrects every word of a physical range through its home. -/
  | sweep (w : SW)
  /-- BRKSET (R408). Sets or clears a breakpoint. -/
  | brkset (w : SW)
  /-- QBIND (R98). Binds a queue number to a descriptor and context. -/
  | qbind (w : SW)
  /-- QUNBIND (R98). Stops the monitor of a queue. -/
  | qunbind (w : SW)
  /-- QUEUE_ACCEPT (R74). The sequencer accepts the packet at its read index once its lap stamp has landed. -/
  | queueAccept (f : Nat)
  /-- NOP_PACKET (R77). NOP packet, which completes on acceptance. -/
  | nopPacket (f : Nat) (q : Nat)
  /-- LAUNCH_PACKET (R80). LAUNCH packet, which starts a launch led by the accepting sequencer. -/
  | launchPacket (f : Nat) (q : Nat)
  /-- COPY_PACKET (R346). COPY packet handed to a streamer island as an external copy. -/
  | copyPacket (f : Nat) (q : Nat)
  /-- MCOPY_PACKET (R346). MCOPY packet handed to a streamer island. -/
  | mcopyPacket (f : Nat) (q : Nat)
  /-- GBIND_PACKET (R357). GBIND packet that binds a window. -/
  | gbindPacket (f : Nat) (q : Nat)
  /-- GBIND_UNBIND_PACKET (R357). GBIND packet with N = 0, which unbinds the window at WIN. -/
  | gbindUnbindPacket (f : Nat) (q : Nat)
  /-- BIN_PACKET (R361). BIN packet handed to a streamer island. -/
  | binPacket (f : Nat) (q : Nat)
  /-- STAMP_PACKET (R77). STAMP packet that writes a value once every earlier packet of its queue has completed. -/
  | stampPacket (f : Nat) (q : Nat)
  /-- QUEUE_AGEING (R100). A queue or ready graph left waiting for 4,096 clk rises one priority level. -/
  | queueAgeing (f : Nat) (who : Sched)
  /-- GRAPH_QUANTUM (R99). A graph that has held the sequencer for 64 consecutive words is rotated out. -/
  | graphQuantum (f : Nat)
  /-- GRAPH_RESUME (R69). A waiting sequencer word's condition is met, and its graph becomes ready and resumes. -/
  | graphResume (f : Nat) (g : Nat)
  /-- LAUNCH_PART (R17). A field's sequencer receives its part of an image, validates and loads it, and acknowledges. -/
  | launchPart (f : Nat) (lid : Nat)
  /-- LAUNCH_ACK (R17). An acknowledgement of a part reaches the leading sequencer. -/
  | launchAck (lid : Nat) (f : Nat)
  /-- LAUNCH_START (R81). Once every field has acknowledged, each field starts its kernel graph and the launch's sources may emit. -/
  | launchStart (lid : Nat)
  /-- ARMING_COMPLETE (R84). An arming completes; flags are ORed, counts advance and the section stamp is written. -/
  | armingComplete (lid : Nat) (sect : Nat)
  /-- LAUNCH_COMPLETE (R82). A launch completes; its resources are released and its DONE word is written. -/
  | launchComplete (lid : Nat)
  /-- TOKEN_ARRIVAL (R113). A token is offered at an input port and is accepted, paired in the matching store or refused. -/
  | tokenArrival (edge : EdgeId) (dst : InPort) (bad : Bool)
  /-- TOKEN_RESEND (R121). The sender resends a refused token in the next clk. -/
  | tokenResend (edge : EdgeId) (dst : InPort) (bad : Bool)
  /-- OVERFLOW_READ_DONE (R115). The HBM read of a search that reached the overflow area completes. -/
  | overflowReadDone (core : CoreId)
  /-- COUNT_TABLE_IDLE_FLUSH (R213). After 256 clk without a firing, a core sends its non-empty count table. -/
  | countTableIdleFlush (core : CoreId)
  /-- COUNT_MESSAGE (R214). The field tracker adds a count message to the launch's net counts. -/
  | countMessage (pkt : Nat)
  /-- TRACKER_FORWARD (R214). The field tracker sends its net change to the wafer tracker within 64 clk. -/
  | trackerForward (f : Nat) (lid : Nat)
  /-- TRACKER_PEER_CHANGE (R214). A wafer tracker receives a peer tracker's net changes. -/
  | trackerPeerChange (w : Nat) (lid : Nat) (items : List CountItem)
  /-- FRONTIER_UPDATE (R220). A frontier change reaches a probe's core; registers are written and passed tokens released. -/
  | frontierUpdate (sl : Slot)
  /-- FRONT_ANSWER (R221). The tracker's frontier answer arrives and FRONT emits its elements and END. -/
  | frontAnswer (sl : Slot)
  /-- MEMORY_REQUEST (R188). A load or store request is applied at its home. -/
  | memoryRequest (pkt : Nat)
  /-- ATOMIC_REQUEST (R192). An atomic is applied at its home in one read-modify-write step. -/
  | atomicRequest (pkt : Nat)
  /-- AON_STORE (R193). A .AON store is applied at its home, updating the tile's version and open count. -/
  | aonStore (pkt : Nat)
  /-- AON_LOAD (R194). A .AON load is served at its home once the tile's open count is zero. -/
  | aonLoad (pkt : Nat)
  /-- MEMORY_RESPONSE (R189). A response reaches the issuing element, which emits the X data and Y done tokens. -/
  | memoryResponse (pkt : Nat)
  /-- PRESENCE_REQUEST (R260). A presence request is applied at the pane's home under the state machine. -/
  | presenceRequest (pkt : Nat)
  /-- PANE_ARRIVAL (R257). An engine arrival is judged and written into an armed pane at its home. -/
  | paneArrival (pkt : Nat)
  /-- WAITLIST_RETRY (R263). A request answered with a retry is sent again 64 clk later. -/
  | waitlistRetry (u : UnitId) (n : Nat)
  /-- WALK_STEP (R277). One step of a promise walk applied at a cell's home. -/
  | walkStep (walk : Nat)
  /-- CARRY_APPLY (R278). A carry of waiters and rank is applied at the parent cell. -/
  | carryApply (walk : Nat)
  /-- PHASER_STEP (R291). A phaser request is applied at its home, possibly advancing the phase. -/
  | phaserStep (pkt : Nat)
  /-- LOCK_STEP (R295). An ACQ or REL step is applied at the lock word's home. -/
  | lockStep (pkt : Nat)
  /-- RELEASE_PORT_WAIT (R297). A waiting release leaves the port once every bound earlier write has been acknowledged. -/
  | releasePortWait (core : CoreId) (n : Nat)
  /-- HISTORY_OPERATION (R234). A history operation is applied at its history unit. -/
  | historyOperation (pkt : Nat)
  /-- HISTORY_PENDING_PROCESS (R240). On a frontier change, a history unit processes passed pending entries and emits corrections. -/
  | historyPendingProcess (core : CoreId) (off : Nat)
  /-- STREAM_ACCEPT (R345). A streamer island accepts a command and reads its descriptor. -/
  | streamAccept (f : Nat) (n : Nat)
  /-- STREAM_CHUNK (R341). A running stream reads, transforms and sends one 2 KiB chunk. -/
  | streamChunk (f : Nat) (n : Nat) (id : Nat)
  /-- STREAM_COMPLETE (R348). Once every byte is acknowledged or refused, the stream writes its stamp and emits Y. -/
  | streamComplete (f : Nat) (n : Nat) (id : Nat)
  /-- WINDOW_REQUEST (R358). A request to a bound window is served byte by byte through its index vector. -/
  | windowRequest (pkt : Nat)
  /-- DECODE_LENGTH (R365). The decoder watchdog cuts off a unit that breaks its limits. -/
  | decodeLength (site : DecodeSite) (emitted : Nat)
  /-- MATRIX_ACCEPT (R386). A matrix island judges and accepts a command into its pool or control queue. -/
  | matrixAccept (f : Nat) (n : Nat)
  /-- MATRIX_CONTROL_APPLY (R386). A waiting matrix control command's condition is met and the command is applied. -/
  | matrixControlApply (f : Nat) (n : Nat)
  /-- ROW_PASS (R382). A row pass completes and updates one accumulator row. -/
  | rowPass (f : Nat) (n : Nat)
  /-- FAULT_RECORD_WRITE (R403). A unit writes a held record into the fault ring once it has room. -/
  | faultRecordWrite (p : Nat)
  /-- HANG (R406). The hang interval expires without progress; the region freezes and a report is written. -/
  | hang (f : Nat) (lid : Nat)
  /-- MESH_HOP (R311). A packet crosses one router of the mesh. -/
  | meshHop (pkt : Nat) (bad : Bool)
  /-- BEAT_RESEND (R315). The upstream side resends a refused beat in the next clk. -/
  | beatResend (pkt : Nat) (bad : Bool)
  /-- BUDGET_PERIOD (R312). A traffic budget period ends; counts return to zero and pending writes take effect. -/
  | budgetPeriod (u : UnitId)
  /-- FRAME_SEND (R326). A port sends a frame under a fresh counter. -/
  | frameSend (port : Nat) (ch : Nat)
  /-- FRAME_RECEIVE (R329). A receiver checks and accepts or refuses a data or control frame. -/
  | frameReceive (port : Nat) (fr : Frame)
  /-- KEY_ACK_FRAME (R332). A key acknowledgement frame arrives at the sender. -/
  | keyAckFrame (port : Nat) (fr : Frame)
  /-- KEY_CHANGE (R332). The sender changes to its next key between frames and restarts its counter. -/
  | keyChange (port : Nat)
  /-- LINK_TRAINED (R334). Signal is present and training completes; the port goes to KEYWAIT. -/
  | linkTrained (port : Nat)
  /-- LINK_DOWN (R334). Loss of signal or eight refusals take the port DOWN. -/
  | linkDown (port : Nat)
  /-- SOURCE_TIMEOUT (R336). Traffic to another wafer times out, and the wafer is marked dead. -/
  | sourceTimeout (n : Nat)
  /-- DEAD_BITMAP (R336). A unit receives the new dead-peer bitmap on class 0. -/
  | deadBitmap (u : UnitId)
  /-- HOST_WRITE (R420). A posted host write through a window is applied at its home. -/
  | hostWrite (fn : Nat) (off : Nat) (bytes : List Byte)
  /-- HOST_READ (R421). A host read through a window completes after earlier posted writes. -/
  | hostRead (fn : Nat) (off : Nat) (len : Nat)
  /-- HOST_FETCHADD (R422). A PCIe FetchAdd runs as one step of the home's pipeline. -/
  | hostFetchadd (fn : Nat) (off : Nat) (w : Nat) (v : W64)
  /-- HOST_SWAP (R422). A PCIe Swap runs as one step of the home's pipeline. -/
  | hostSwap (fn : Nat) (off : Nat) (w : Nat) (v : W64)
  /-- HOST_CAS (R422). A PCIe CAS runs as one step of the home's pipeline. -/
  | hostCas (fn : Nat) (off : Nat) (w : Nat) (cmp : W64) (v : W64)
  /-- HWIN_WRITE (R419). A write to a host window register, validated for kind and wafer. -/
  | hwinWrite (fn : Nat) (w : Nat) (v : W64)
  /-- PFORM (R424). Mailbox command that forms this wafer's part of a partition. -/
  | pform (p : Nat) (mask : W64) (wmask : BitVec 16)
  /-- PFREE (R424). Mailbox command that frees this wafer's part of a partition. -/
  | pfree (p : Nat)
  /-- ATTEST (R428). Mailbox command that writes a signed attestation report. -/
  | attest (nonce : List Byte)
  /-- FWLOAD (R426). Mailbox command that checks and stores a firmware image for the next reset. -/
  | fwload (addr : W64) (len : W32)
  /-- POWER_TO_P0 (R432). POWER command to state P0. -/
  | powerToP0 (cap : BitVec 16)
  /-- POWER_TO_P1 (R432). POWER command to state P1, gating unheld fields. -/
  | powerToP1 (cap : BitVec 16)
  /-- POWER_TO_P2 (R432). POWER command to state P2, stopping the wafer's clocks with state kept. -/
  | powerToP2 (cap : BitVec 16)
  /-- POWER_TO_P3 (R432). POWER command to state P3, powering off the wafer. -/
  | powerToP3 (cap : BitVec 16)
  /-- POWER_PERIOD (R430). A power measurement period ends, and fields are throttled while the average exceeds PCAP. -/
  | powerPeriod (avg : Nat)
  /-- THERMAL_THROTTLE (R431). A field's junction sensor reaches 95 °C and the field is throttled. -/
  | thermalThrottle (f : Nat) (temp : BitVec 16)
  /-- THERMAL_TRIP (R431). A sensor reaches 110 °C; every wafer clock stops and TRIP is shown. -/
  | thermalTrip (f : Nat) (temp : BitVec 16)
  /-- COLD_RESET (R429). Cold reset runs the bring-up stages to ready. -/
  | coldReset (fuses : BootFuses)
  /-- CSTAT_WRITE (R110). Supervisor write to CSTAT, clearing sticky flags by writing ones. -/
  | cstatWrite (n : Nat)
  /-- MPER_WRITE (R313). Write to MPER, ignored outside 64 to 65,536 and effective at the next period. -/
  | mperWrite (n : Nat)
  /-- MBUD_WRITE (R312). Write to MBUD, effective at the next period's start. -/
  | mbudWrite (n : Nat)
  /-- LTMO_WRITE (R335). Write to LTMO, ignored outside its range. -/
  | ltmoWrite (n : Nat)
  /-- FRCTL_WRITE (R416). Write to FRCTL, ignored outside 12 to 24. -/
  | frctlWrite (n : Nat)
  /-- HANGIV_WRITE (R416). Write to HANGIV, ignored outside 10 to 40. -/
  | hangivWrite (n : Nat)
  /-- REGISTER_WRITE (R3). A write to any other register; reserved bits are ignored. -/
  | registerWrite (n : Nat)
  /-- EXCHANGE_COMPLETE (R410). The exchange of live and shadow state finishes and the new live context resumes issuing. -/
  | exchangeComplete (p : Nat)
  /-- CSAVE_COMPLETE (R411). A running CSAVE finishes writing every field's shadow and marks the shadow empty. -/
  | csaveComplete (p : Nat)
  /-- CLOAD_COMPLETE (R411). A running CLOAD finishes reading a saved context into the shadow. -/
  | cloadComplete (p : Nat)
  /-- TRANSLATION_WALK_COMPLETE (R414). A field walker finishes a page walk, caches the translation or raises XLAT or PROT, and releases the waiting request. -/
  | translationWalkComplete (f : Nat) (n : Nat) (evict : Nat)
  /-- WEIGHT_LOAD_COMPLETE (R387). MLOAD's last pane read returns; the shadow plane's weights, tag and format are replaced and Y is emitted. -/
  | weightLoadComplete (f : Nat) (n : Nat)
  /-- MDRAIN_COMPLETE (R391). Every byte of a drain has been acknowledged or refused, and the drain emits Y with DEST and its failure code. -/
  | mdrainComplete (f : Nat) (n : Nat)
  /-- THERMAL_THROTTLE_END (R431). A throttled field's junction sensor falls back below 95 °C and the field's thermal throttling ends. -/
  | thermalThrottleEnd (f : Nat) (temp : BitVec 16)
  deriving DecidableEq, Repr, Inhabited

end Sys2Proof
end

