-- ==== Sys2Proof/Machine/State.lean ====
section
/-! DEFINITION. The state of one CGX-W48 module as plain data: everything the manual gives the machine, and the reasons a step can stop.
The execution state that pre-emption exchanges (R410 step 4) is one record, Exec, of which State holds a live and a shadow copy (R8). -/

namespace Sys2Proof.Machine

open Sys2Proof

/-! ## Requests, answers and packets -/

/-- The operators that send a request or a command from a core's memory port (R187, R229, R259, R276, R287, R295, R343, R385). -/
inductive Op where
  | ld | st | std | atom | cas | fatom
  | ldw | take | hoist | armp | strike | tagr | nextf
  | pnew | bend | fill | pwait | pread | pfind
  | phnew | phreg | phdrop | phsig | phwait | phnext | phqry
  | acq | rel
  | hnew | happ | hjoin | hred | hseek | hcomp | hmrg | hstat
  | cpy | mcpy | qpost | gbind | gfree | bin | stwait
  | mload | mswap | mstrm | mdrain | mclr | mmask | mstat
  | mread                        -- a matrix island's read of a pane (R387, R389)
  deriving DecidableEq, Repr, Inhabited

/-- A request of a node: the operator, its context word, the issuing node, the set it consumed, its addresses and its data. -/
structure PortReq where
  rid   : Nat            -- names the request while it is outstanding
  op    : Op
  w     : CW
  wafer : Nat            -- the issuing wafer
  sl    : Slot           -- the issuing node
  lid   : Nat            -- its launch
  ctx   : Nat            -- its context identifier
  set   : OpSet
  va    : Nat            -- the address on A
  va2   : Nat            -- BEND's second address, or a scale address
  val   : W64            -- the data operand
  cmp   : W64            -- CAS: the hold register at issue (R192)
  pa    : Nat            -- the physical address it went to
  cpg   : Bool           -- that address lies on a CMP page
  more  : List Nat       -- further physical addresses: BEND's second cell, NEXTF's panes
  akey  : W32            -- KEY of A
  akv   : Bool           -- KV of A
  toks  : List Token     -- the B stream of a history operation (R231), and in its answer the tokens it sends
  stage : Nat            -- the node's stage, the stages that its X and its Y reach (R212, R240)
  xst   : List Nat
  yst   : List Nat
  deriving DecidableEq, Repr, Inhabited

/-- An answer to a request: the fields of X and Y that the home decides, or the code of a refusal (R188, R263). -/
structure Ans where
  code : Nat             -- 0 when served
  again : Bool           -- without a code the retry of R263; with one, its node parks whatever catch node is declared (R345)
  xval : W64
  xkey : Option W32
  yval : Option W64
  ykey : Option W32
  flags : BitVec 5       -- flags for the issuing context (R144)
  deriving DecidableEq, Repr, Inhabited

/-- Which engine command an arrival belongs to, and which of its destinations (R348, R391). -/
structure ArrSrc where
  wafer : Nat            -- the engine's wafer
  drain : Bool           -- a matrix island's drain, else a stream
  f     : Nat
  n     : Nat            -- island
  id    : Nat            -- stream or command
  dst   : Nat            -- destination index
  deriving DecidableEq, Repr, Inhabited

/-- A cut edge (R62), with the stage of the receiving node of each context (R211). -/
structure Cut where
  pw : Nat
  src : EdgeId
  cw : Nat
  dst : InPort
  vc : Nat
  depth : Nat
  stages : Tbl Nat Nat
  deriving DecidableEq, Repr, Inhabited

/-- What the units of a launch on several wafers tell each other: the leading sequencer's image for another wafer (R17), an
acknowledgement or the word that every wafer has acknowledged (R17, R80), the end of the launch with its code (R82), a tracker's net changes
(R214), a fault token for the catch node (R126, R129), the question whether a section or the launch is at rest there, with its answer
(R82, R84), the cut edges that a wafer with no part of the launch only carries (R324; log 114), a section's counts (R89, R109), that the owner of the history at an address has been replayed (R240), and that nothing of the launch is in flight there any more (R79). -/
inductive PeerMsg where
  | part (part ctx lead prio image param : Nat) (bytes : List Byte)
  | ready
  | ended (code : Nat)
  | change (items : List CountItem)
  | caught (tok : Token)
  | poll (what : Option Nat) (wave : Nat)
  | idle (what : Option Nat) (wave : Nat) (moved : Option Nat)
  | carry (cuts : List Cut)
  | sect (k armed completed : Nat)
  | retry (pa : Nat)
  | finished
  deriving DecidableEq, Repr, Inhabited

/-- What a packet carries (R308). -/
inductive Msg where
  | req (r : PortReq) (pa : Nat) (cmp : Bool)
  | ans (r : PortReq) (a : Ans)
  | counts (lid : Nat) (core : CoreId) (items : List CountItem)
  | arrival (src : ArrSrc) (ctx lid : Nat) (va pa : Nat) (cmp : Bool) (bytes : List Byte)
  | ack (src : ArrSrc) (ctx lid code va pkt : Nat)             -- with the arrival's address and packet
  | pane (r : PortReq) (code : Nat) (bytes : List Byte)
  | peer (wafer lid : Nat) (m : PeerMsg)
  | ask (sl : Slot) (ctx lid rid q : Nat)                      -- FRONT's query of stage q to the wafer tracker (R221)
  | told (sl : Slot) (ctx lid rid : Nat) (els : List Time)     -- and its answer
  | hist (r : PortReq) (port slot : Nat) (tok : Token) (first last : Bool) -- a token that a history unit sends, its kept buffer (R234)
  | flagAsk (lid ctx f place id : Nat)                         -- SFLAGS #1 of field f asks field place % 64 of wafer place / 64 (R96)
  | flagTold (lid ctx f place id : Nat) (v : BitVec 5)         -- and the answer
  | walk (id ctx lid : Nat)                                    -- a promise walk or its carry on its way to the next cell's home (R277, R278)
  deriving DecidableEq, Repr, Inhabited

/-- Where an output of a router leads: to the next router, or to a unit that ejects there (R307, R311). -/
inductive Exit where
  | router (r : Router)
  | unit (u : UnitId)
  deriving DecidableEq, Repr, Inhabited

/-- A packet in flight or waiting at its source's output (R307-R312). -/
structure Packet where
  id    : Nat
  num   : Nat            -- the number by which its source knows it
  cls   : Nat            -- 0 SYNC, 1 REQ, 2 RESP, 3 BULK
  unit  : UnitId         -- its source, on wafer srcW, whose budget it uses
  srcW  : Nat
  to_   : UnitId         -- its destination, on wafer dstW
  dstW  : Nat
  here  : Router         -- the router it stands at
  inj   : Bool           -- has passed its source's budget gate
  out   : Bool           -- has left its last router for the destination
  fails : Nat            -- consecutive CRC failures of its beat on this hop (R315)
  sent  : Nat            -- beats that crossed this hop after a refusal
  beats : Nat
  msg   : Msg
  deriving DecidableEq, Repr, Inhabited

/-! ## Element fabric -/

/-- An occupied slot: its context word, its stage, its launch and context (R60). -/
structure Node where
  word  : W64
  stage : Nat
  lid   : Nat
  ctx   : Nat
  deriving DecidableEq, Repr, Inhabited

/-- A token in an edge buffer, the inputs that have still to accept it, and the consecutive parity failures on each hop (R119-R121). -/
structure BufTok where
  tok  : Token
  todo : List InPort
  bad  : Tbl InPort Nat
  deriving DecidableEq, Repr, Inhabited

/-- A buffer that holds no token yet because the answer to request rid is still to come (R116, R189), or a token that stands behind
such a buffer of its own node and identity (log 16). -/
structure Behind where
  k    : Nat
  time : Time
  seq  : BitVec 24
  rid  : Nat
  tok  : Option Token
  deriving DecidableEq, Repr, Inhabited

/-- An edge buffer (R119): the tokens it offers, first in first out, and the buffers that wait for answers. -/
structure EdgeSt where
  buf  : List BufTok
  wait : List Behind
  deriving DecidableEq, Repr, Inhabited

/-- The running state of CNT, SCAN, CONSOL, TRED or ALL for one identity (R176-R185, R437). -/
structure RunSt where
  count : W64            -- CNT's count or SCAN's sum
  recs  : W32            -- SCAN: records so far
  run   : Option Token   -- CONSOL: the current run
  next  : Nat            -- TRED, ALL: the next SEQ
  acc   : W64
  any   : Bool
  deriving DecidableEq, Repr, Inhabited

/-- What a matching-store entry holds: waiting operands, a state entry, one that an accepted set has claimed and not yet started (R437), or
a token that a PROBE holds (R220). -/
inductive MKind where
  | operands
  | claimed
  | state (st : RunSt)
  | held (tok : Token)
  deriving DecidableEq, Repr, Inhabited

/-- Where an entry is held (R112-R115): a way of its set, a record of the carve-out, or a record of the overflow area. -/
inductive Place where
  | way
  | carve (i : Nat)
  | ovfl (i : Nat)
  deriving DecidableEq, Repr, Inhabited

/-- A matching-store entry (R112-R114). -/
structure MEntry where
  e     : Nat            -- element, 0 to 31
  id    : Ident
  kind  : MKind
  a     : Option Token
  b     : Option Token
  c     : Option Token
  p     : Option Token
  place : Place
  ord   : W32            -- allocation order within the cluster
  done  : Option Nat     -- complete, and kept here while its node is parked (R125): the order of completion
  raw   : Tbl Nat Byte   -- bytes that software has stored over its record, by offset (R306)
  deriving DecidableEq, Repr, Inhabited

/-- A set in an issue queue; replay marks a parked set that FREPLAY returned (R125), and broke one that a breakpoint has already stopped
for (R408), so that THAW lets it issue. clk is its core's counter when it entered (R118). -/
structure QSet where
  set    : OpSet
  replay : Bool
  broke  : Bool
  clk    : W64
  deriving DecidableEq, Repr, Inhabited

/-- A parked set, its fault code and the record that reported it (R125). -/
structure Parked where
  set  : OpSet
  code : Nat
  rec_ : Nat
  deriving DecidableEq, Repr, Inhabited

/-- The walk of UNION, ISECT or MINUS: the identity it reads, the two stream heads and the predicate's (R180-R182); broke says that a
breakpoint has stopped the step that comes next, of such a walk or of a SRC (R408). -/
structure WalkSt where
  id : Option Ident
  ha : Option Token
  hb : Option Token
  hp : Option Token
  broke : Bool
  deriving DecidableEq, Repr, Inhabited

/-- A walk that reads nothing. -/
def WalkSt.none_ : WalkSt := ⟨none, none, none, none, false⟩

/-- The B stream a history node is reading for its current handle token (R231). -/
structure HStr where
  handle : Option Token
  toks   : List Token
  asked  : Nat                   -- records that a history of another wafer has been told of
  sent   : Bool                  -- what it read so far went to the history unit, whose free slots it exceeds (R232)
  deriving DecidableEq, Repr, Inhabited

/-- An operation that waits at its history unit: its packet's number, its request, and its history's offset (R234). -/
structure HOp where
  id  : Nat
  req : PortReq
  off : Nat
  deriving DecidableEq, Repr, Inhabited

/-- A token that a history unit has still to send: the request whose node it goes to, the output, whether it is the operation's first or
last. -/
structure HTok where
  req   : PortReq
  port  : Nat
  tok   : Token
  first : Bool
  last  : Bool
  deriving DecidableEq, Repr, Inhabited

/-- The operation that a history unit has in progress (R234, R245): its number, request and history's offset; the tokens it has still to
send; and what happens at its end: bytes written, counts, flags of the owner, the codes with which its node and the owner park, and whether
the operations set aside return. proc marks the processing of a pending entry. -/
structure HBusy where
  id    : Nat
  req   : PortReq
  off   : Nat
  out   : List HTok
  wr    : List (Nat × List Byte)
  items : List CountItem
  flags : BitVec 5
  code  : Nat
  stall : Nat
  stallT : Time                  -- the time of the pending entry that the owner parks for
  aside : Bool
  proc  : Bool
  deriving DecidableEq, Repr, Inhabited

/-- A search of a carve-out record in the overflow area that waits for HBM (R115). -/
structure OvSearch where
  edge : EdgeId
  dst  : InPort
  done : Bool
  deriving DecidableEq, Repr, Inhabited

/-- One entry of a count table (R213), with the launch it belongs to. -/
structure CEntry where
  lid   : Nat
  item  : CountItem
  deriving DecidableEq, Repr, Inhabited

/-- The frontier registers of a probe (R217). -/
structure Frn where
  elems  : List Time     -- FRN0 on; at most 64
  merged : Bool
  deriving DecidableEq, Repr, Inhabited

/-- A set about to be judged: its slot, the node there, the set, whether it is a replay, and the hold register it reads (R52). -/
structure Firing where
  sl     : Slot
  node   : Node
  set    : OpSet
  replay : Bool
  hold   : W64
  deriving DecidableEq, Repr, Inhabited

/-- What a set puts out: the tokens of X and Y, the flags it raises, the count items beyond its consumption and its tokens (R212), and
whether it executes, so that HD may write the hold register (R52). -/
structure Emit where
  x     : List Token
  y     : List Token
  flags : BitVec 5
  items : List CountItem
  exec_ : Bool
  deriving DecidableEq, Repr, Inhabited

/-- What a physical address names (R12). -/
inductive Tgt where
  | hbm (stack off : Nat)
  | win (stack n off : Nat)
  | spad (core : CoreId) (byte : Nat)
  | sram (core : CoreId) (byte : Nat)
  | reg (f off : Nat)
  deriving DecidableEq, Repr, Inhabited

/-! ## Presence -/

/-- TAG of a pane (R253). -/
inductive PaneTag where
  | empty | armed | full
  deriving DecidableEq, Repr, Inhabited

/-- The tag word of a pane (R253). -/
structure PTag where
  stamp : W32
  yld   : Bool
  fail  : Bool
  own   : Bool
  tag   : PaneTag
  exp   : BitVec 12
  cnt   : BitVec 12
  deriving DecidableEq, Repr, Inhabited

/-- Pane n of a core (R14). -/
structure PaneId where
  core : CoreId
  n    : Nat
  deriving DecidableEq, Repr, Inhabited

/-- A request that waits at a home for a pane or a stamp (R263, R354). -/
structure WaitE where
  req : PortReq
  pa  : Nat
  cmp : Bool
  deriving DecidableEq, Repr, Inhabited

/-- A request answered with a retry, and the source's counter when the retry reached it (R263). -/
structure Retry where
  req : PortReq
  since : W64
  deriving DecidableEq, Repr, Inhabited

/-- A write a memory port has issued and not yet seen acknowledged; code is that of a refusal (R297, R320). -/
structure OutW where
  id   : Nat
  ctx  : Nat
  va   : Nat
  len  : Nat
  node : Slot
  ident : Ident          -- of the set that wrote
  code : Nat
  told : List (Slot × Ident)  -- the releases that have parked for it
  deriving DecidableEq, Repr, Inhabited

/-- A release that waits at its port for the writes it counts (R297). -/
structure RelW where
  req    : PortReq
  waits  : List Nat
  deriving DecidableEq, Repr, Inhabited

/-! ## Promise cells, phasers, locks -/

/-- Where a promise walk stands (R277-R281): x is the cell the next step reads; second tells BEND's second find. -/
inductive WPhase where
  | find (x : Nat)
  | parent (x : Nat) (w : W64) (p : Nat)
  | halve (x : Nat) (w : W64) (pp : Nat)
  | act
  | carry (dst head tail rank : Nat)
  | heldCarry (dst head tail rank : Nat)
  | done (a : Ans)       -- over: the answer is on its way to the core that runs the walk
  deriving DecidableEq, Repr, Inhabited

/-- A promise walk in progress. -/
structure PWalk where
  id     : Nat
  req    : PortReq
  pa     : Nat
  pa2    : Nat
  phase  : WPhase
  second : Bool
  ra     : Nat
  wa     : W64
  va_    : W64           -- word1 of ra when filled
  rb     : Nat
  wb     : W64
  vb_    : W64
  steps  : Nat
  at_    : CoreId        -- the memory core at which it stands
  deriving DecidableEq, Repr, Inhabited

/-- A waiter record (R274). -/
structure WRec where
  kind   : Nat           -- 0 free, 1 PWAIT, 2 PHWAIT, 3 PHNEXT, 4 held PHSIG, 5 ACQ
  next   : Nat
  tail   : Nat
  req    : PortReq
  target : W32
  held3  : Bool          -- a held KIND 4 record whose request is PHNEXT
  raw    : Tbl Nat Byte  -- bytes that software has stored over it, by offset (R306)
  deriving DecidableEq, Repr, Inhabited

/-- A membership entry (R286): mode 0 SIG, 1 WAIT, 2 SIGWAIT. -/
structure Member where
  addr : Nat
  lid  : Nat
  mode : Nat
  next : W32
  deriving DecidableEq, Repr, Inhabited

/-- A share-table entry (R296). -/
structure Share where
  ctx  : Nat
  lid  : Nat
  base : Nat
  len  : Nat
  obj  : Nat
  deriving DecidableEq, Repr, Inhabited

/-! ## Sequencer -/

/-- What a waiting sequencer word waits for (R69). -/
inductive Wait where
  | access                       -- SLD, SST: the answer has come
  | load (d : BitVec 4) (va : Nat)  -- SLD of another wafer's memory: the answer is to come
  | store (va : Nat) (v : W64)      -- SST there
  | launch (va : Nat)            -- LAUNCH of a descriptor there
  | regw (n : Nat)               -- SST to a register: the write has been applied
  | arms (s : Nat) (n : Nat)
  | waits (s : Nat)
  | wstamp (va pa : Nat) (cmp : Bool) (v : W64)
  | sqpost (src desc : Nat) (claimed : Option W64)
  | recfg (core : CoreId) (e : Nat) (word : W32)
  | fwait (sl : Slot) (t : Time)
  | cfg (image : Nat)
  | svc
  | flagsAll (d id : Nat) (left : List Nat) (acc : BitVec 5)  -- the places that have still to answer
  | frec (d a : Nat)
  | quiesce (d ctx : Nat)
  | ctxop (d : Nat)              -- CSAVE, CLOAD, CSWAP
  | tlbinv (lo len ctx : Nat)
  deriving DecidableEq, Repr, Inhabited

/-- A resident kernel graph, or the supervisor graph (R68, R399). -/
structure Graph where
  lid    : Nat
  ctx    : Nat
  sup    : Bool
  pc     : Nat
  regs   : List W64              -- S0 to S15
  words  : List W64
  wait   : Option Wait
  park   : Option Nat            -- record of the fault that parked it (R97)
  ended  : Bool
  prio   : Nat
  boost  : Nat
  since  : W64                   -- sequencer's counter when it became ready or last rose
  seat   : Nat                   -- its place in the rotation (R99)
  deriving DecidableEq, Repr, Inhabited

/-- An accepted packet that has not completed (R77). -/
structure QPkt where
  idx     : W64
  bytes   : List Byte
  started : Bool
  lid     : Nat
  deriving DecidableEq, Repr, Inhabited

/-- A bound queue with its latched values (R72). -/
structure Queue where
  desc   : Nat
  ring   : Nat
  size   : Nat
  prio   : Nat
  ctx    : Nat
  i      : W64
  halted : Bool
  quiet  : Bool                  -- stopped by QUIESCE or P2 (R417, R432)
  boost  : Nat
  since  : Option W64            -- sequencer's counter when the head became acceptable or last rose (R100)
  pkts   : List QPkt
  deriving DecidableEq, Repr, Inhabited

/-- Sequencer bookkeeping of a field: who was chosen last (R99) and for how many words. -/
structure Seqr where
  sup    : Option Graph
  lastQ  : Nat
  lastG  : Nat
  run    : Nat
  deriving DecidableEq, Repr, Inhabited

/-- A section of a launch (R83, R84, R88). -/
structure Sect where
  field     : Nat
  srcs      : List Slot
  nodes     : List Slot
  armed     : Nat
  completed : Nat
  cur       : Option Nat
  emitted   : Tbl Slot Nat
  deriving DecidableEq, Repr, Inhabited

/-- A path summary (R215). -/
inductive Summ where
  | leave | ident | round1
  deriving DecidableEq, Repr, Inhabited

/-- A declared object (R61): kind 1 phaser, 2 cells, 3 history, 4 lock word. -/
structure Obj where
  kind  : Nat
  core  : CoreId
  off   : Nat
  count : Nat
  scope : Nat
  deriving DecidableEq, Repr, Inhabited

/-- A leading sequencer's question to the launch's other wafers whether a section, or the launch as a whole, is at rest there (R82, R84): its
wave, the counts of tokens brought that the wave has collected, and those of the wave before. -/
structure Poll where
  wave   : Nat
  got    : Tbl Nat (Option Nat)
  before : Option (Tbl Nat (Option Nat))
  deriving DecidableEq, Repr, Inhabited

/-- How far a launch has come (R80-R82): waiting says that a child launch waits for what it names (R80 step 3, R92). -/
inductive LStat where
  | waiting | loading | running | ended
  deriving DecidableEq, Repr, Inhabited

/-- A launch on this wafer. -/
structure Launch where
  part    : Nat
  ctx     : Nat
  lead    : Nat
  queue   : Option (Nat × Nat)
  prio    : Nat
  idx     : W64
  image   : Nat
  bytes   : List Byte            -- the image as the leading sequencer read it (R17, R80)
  param   : Nat
  done    : Nat
  fields  : List Nat
  wafers  : List Nat
  loaded  : List Nat             -- fields that have loaded their part
  acks    : List Nat             -- fields whose acknowledgement has arrived
  stat    : LStat
  code    : Nat                  -- fault code of an abort, 0 for none
  catch_  : Option (Nat × Slot)
  catchQ  : List Token
  catchBad : Nat                 -- consecutive parity failures of the first fault token (R121)
  nsect   : Nat
  sstamp  : Nat
  waiters : Nat
  secs    : Tbl Nat Sect
  counts  : List CountItem       -- net counts at the wafer tracker (R214)
  sigma   : Tbl (Nat × Nat) Summ
  inputs  : List Nat             -- input stages (R207)
  caps    : Tbl Nat Time         -- capability of an input stage; unlisted: none
  probes  : Tbl Slot Nat
  objs    : List Obj
  cuts    : List Cut
  islands : List (Nat × Nat)     -- what it holds (R80 step 3, R377): islands, slots, panes, ranges of memory cores
  slots   : List Slot
  panes   : List PaneId
  ranges  : List (CoreId × Nat × Nat)
  pool    : Tbl Nat WRec         -- waiter records (R274)
  root    : Option Nat           -- for a child launch: the launch at the head of its line (R92)
  from_   : Option Nat           -- the wafer that leads it, where that is another one (R17)
  heads   : Tbl Nat Nat          -- the leading sequencers on other wafers that this one speaks to: wafer and field (R17)
  carriers : List Nat            -- wafers that hold no part of it and carry its cut edges (R324)
  catchG  : Option Nat           -- the stage of a catch node that stands on another wafer (R212)
  peers   : Tbl Nat Nat          -- the leading sequencers of all its other wafers
  reach   : Tbl Nat (List Slot)  -- the node sets of its sections on this wafer (R84)
  moved   : Nat                  -- tokens that links have brought it here
  unfin   : List Nat             -- wafers that have its image and have not said that nothing of it is in flight there (R79)
  farSecs : Tbl Nat (Nat × Nat)  -- the armed and completed counts of sections of other wafers (R89)
  polls   : Tbl (Option Nat) Poll -- by section, none for the launch as a whole
  deriving DecidableEq, Repr, Inhabited

/-! ## Streamer islands -/

/-- A pinned page (R366, R391, R415): context, base, size in bits, and the leaf that was found when it was pinned. -/
structure Pin where
  ctx  : Nat
  page : Nat
  size : Nat
  leaf : Nat
  deriving DecidableEq, Repr, Inhabited

/-- A destination of a stream (R348-R350, R368). -/
structure Dst where
  i      : Nat
  va     : Nat
  code   : Nat                   -- code of its failure, 0 for none
  spill  : List (Nat × List Byte)
  spillR : Option Nat            -- record of the page fault that diverted it
  held   : List (Nat × List Byte) -- arrivals that wait at the island: for room in the spill buffer, or for a saved-out context (R267, R368)
  out    : Nat                   -- arrivals sent and not yet answered
  deriving DecidableEq, Repr, Inhabited

/-- What a stream does. -/
inductive SKind where
  | copy (xf w k rows cols : Nat) (src len : Nat)
  | gbind (es : Nat) (scatter : Bool) (n base idx win : Nat)
  | unbind (win : Nat)
  | gfree (win : Nat)
  | bin (ncls nrows rp out cnta bnda : Nat)
  | qpost (src desc : Nat) (claimed : Option W64)
  deriving DecidableEq, Repr, Inhabited

/-- An accepted streamer command (R341, R345). -/
structure Stream where
  id      : Nat
  req     : Option PortReq       -- the node's request; none for a packet
  pkt     : Option (Nat × Nat × W64) -- field, queue and index of a packet
  ext     : Bool                 -- external (R366)
  ctx     : Nat
  lid     : Nat
  kind    : SKind
  stamp   : Nat
  sval    : W64
  dsts    : List Dst
  mask    : W64
  off     : Nat                  -- offset reached (source bytes for a transpose, rows for BIN, output bytes otherwise)
  buf     : List Byte            -- source bytes read and not yet sent
  cnts    : List Nat             -- BIN: class counts so far
  out     : Nat                  -- arrivals sent and not yet answered
  parked  : Option Nat           -- record of a source page fault (R367)
  pins    : List Pin
  err     : Nat                  -- first failure's code
  started : Bool
  deriving DecidableEq, Repr, Inhabited

/-- A streamer island (R341). -/
structure Si where
  streams : List Stream
  nextId  : Nat
  turn    : Nat
  desc    : Option (Nat × List Byte)         -- the descriptor of the command being accepted, by its request, read before its DLIST (R345)
  deriving DecidableEq, Repr, Inhabited

/-- A bound window (R357): element size 2^es, direction, count, table, index vector and binding context. -/
structure Win where
  es : Nat
  scatter : Bool
  n : Nat
  base : Nat
  idx : Nat
  ctx : Nat
  lid : Nat
  deriving DecidableEq, Repr, Inhabited

/-! ## Matrix islands -/

/-- A weight plane (R376). -/
structure Plane where
  wk     : Option Nat
  fmt    : Nat
  sparse : Bool
  data   : List Byte
  meta_  : List Byte
  scale  : List Byte
  deriving DecidableEq, Repr, Inhabited

/-- An accumulator plane (R376): its words by row and column, kind, mask and next K-tile of each row; unlisted words are 0. -/
structure AccPlane where
  acc   : Tbl (Nat × Nat) W32
  kind  : Nat                    -- 0 none, 1 F32, 2 S32
  mask  : W64
  nextk : Tbl Nat Nat
  nk0   : Nat                    -- NEXTK of an unlisted row
  deriving DecidableEq, Repr, Inhabited

/-- An accepted matrix command (R386). -/
structure MCmd where
  id     : Nat
  req    : PortReq
  fmt    : Nat
  m24    : Bool
  panes  : List Nat              -- physical addresses of the weight or activation panes, then the metadata panes
  scale  : Option Nat            -- the scale pane's physical address
  got    : Tbl Nat (List Byte)   -- panes read so far, by their number in reading order
  kseq   : Nat
  plane  : Nat
  row0   : Nat
  rows   : Nat
  done   : Nat                   -- rows applied, or rows a drain has sent
  going  : Bool                  -- MLOAD has begun to read its panes; MDRAIN has begun to send
  buf    : List (Nat × List Byte) -- MDRAIN: arrivals of the row begun that have still to leave
  dest   : Nat                   -- MDRAIN: destination virtual address
  ofmt   : Nat
  out    : Nat                   -- arrivals not yet answered
  err    : Nat                   -- code of its failure, 0 for none
  before : List Nat              -- commands accepted before it that it waits for
  pins   : List Pin
  deriving DecidableEq, Repr, Inhabited

/-- A matrix island (R376). -/
structure Mi where
  active : Plane
  shadow : Plane
  acc    : Tbl Nat AccPlane
  ctrl   : List MCmd
  pool   : List MCmd
  nextId : Nat
  deriving DecidableEq, Repr, Inhabited

/-! ## The execution state that is exchanged (R410 step 4) -/

/-- One copy of the execution state. -/
structure Exec where
  nodes   : Tbl Slot Node
  hold    : Tbl Slot W64
  flags   : Tbl Slot (BitVec 5)
  park    : Tbl Slot (List Parked)
  heldq   : Tbl Slot (List OpSet)            -- sets taken out of the queue when their node parked (R125)
  edges   : Tbl EdgeId EdgeSt
  mstore  : Tbl CoreId (List MEntry)
  mord    : Tbl (CoreId × Nat) W32           -- next allocation order of a cluster
  iq      : Tbl (CoreId × Nat) (List QSet)
  walks   : Tbl Slot WalkSt
  hstr    : Tbl Slot HStr
  osearch : Tbl CoreId (List OvSearch)
  ctab    : Tbl CoreId (List CEntry)
  frn     : Tbl Slot Frn
  frontQ  : List (Slot × OpSet)              -- FRONT queries not yet answered
  routes  : Tbl CoreId (Tbl Nat W32)
  carve   : Tbl CoreId Nat                   -- CARVE of a core (R60)
  grants  : Tbl PaneId Nat                   -- launch that holds the pane
  ptag    : Tbl PaneId PTag
  hctr    : Tbl CoreId W32
  waitl   : Tbl UnitId (List WaitE)
  retry   : Tbl UnitId (List Retry)
  late    : List Msg                         -- answers that their endpoint took and has still to finish (R310)
  outw    : Tbl CoreId (List OutW)
  relw    : Tbl CoreId (List RelW)
  pwalks  : List PWalk
  members : Tbl CoreId (Tbl Nat Member)
  hown    : Tbl (CoreId × Nat) PortReq       -- the last HRED served for a history's owner (R237)
  hset    : Tbl (CoreId × Nat) (List HOp)    -- history operations set aside (R232)
  hpark   : Tbl (CoreId × Nat) PortReq       -- the parked batch's operation (R232)
  hstop   : Tbl (CoreId × Nat) (Nat × Nat)   -- processing stopped for a code until this record is replayed (R240)
  hq      : Tbl CoreId (List HOp)            -- operations that wait at a history unit
  hbusy   : Tbl CoreId HBusy                 -- the operation in progress there
  graphs  : Tbl Nat (List Graph)
  flagw   : Tbl (Nat × Nat) (BitVec 5)       -- launch flag word by (launch, field) (R143)
  mis     : Tbl (Nat × Nat) Mi
  deriving DecidableEq, Repr, Inhabited

/-! ## Wafer-level state -/

/-- A formed partition's part on this wafer (R424). -/
structure Part where
  fields : List Nat
  wmask  : BitVec 16
  deriving DecidableEq, Repr, Inhabited

/-- CTXSTAT and the context operation in progress (R410, R411, R416): step 0 idle, 1 halting, 2 exchanging, 3 saving or loading. -/
structure CtxSt where
  step  : Nat
  live  : Option Nat
  shad  : Option Nat
  load  : Option (Nat × List W64)            -- CLOAD in progress: the context being read back, and the bases it reads
  deriving DecidableEq, Repr, Inhabited

/-- A translation held by a core (R414). -/
structure TlbE where
  ctx   : Nat
  page  : Nat
  size  : Nat
  leaf  : W64
  deriving DecidableEq, Repr, Inhabited

/-- A walk at a field's walker, the request of the set that waits for it (R414), and the code of its fault, 0 until it has one. -/
structure Walk where
  core : CoreId
  req  : PortReq
  va   : Nat
  code : Nat
  deriving DecidableEq, Repr, Inhabited

/-- A traffic budget (R312, R313): register values, values written and not yet in force, use, and error counts. -/
structure Budget where
  period  : Nat
  bud     : W64
  nperiod : Option Nat
  nbud    : Option W64
  used    : List Nat
  since   : W64
  corr    : W32
  hopr    : W32
  turn    : Tbl Exit Nat                     -- a core's router: the class of 1 to 3 served last at each output (R311)
  deriving DecidableEq, Repr, Inhabited

/-- The ECC state of a stored word that is not sound (R316). -/
inductive Ecc where
  | single | double
  deriving DecidableEq, Repr, Inhabited

/-- An AON side-table entry (R193) and the requests held there. -/
structure Aon where
  v    : W32
  o    : BitVec 8
  deriving DecidableEq, Repr, Inhabited

/-- A link key: its 256 bits and its KID (R331). -/
structure LKey where
  key : BitVec 256
  kid : W32
  deriving DecidableEq, Repr, Inhabited

/-- State of a port (R334, R335). -/
inductive PState where
  | down | keywait | up | keystall
  deriving DecidableEq, Repr, Inhabited

/-- What a port has to send on a channel: a cut-edge token or a piece of a mesh packet (R326). -/
structure Outgoing where
  ch    : Nat
  flits : List (BitVec 256)
  timer : Option Nat                         -- the timer of a cut-edge token (R336)
  dst   : Nat                                -- the wafer it is for
  begun : Bool                               -- some of it has entered the link
  deriving DecidableEq, Repr, Inhabited

/-- A frame sent and not yet acknowledged (R329): its counter, what it carried (no flits for a control frame or a key acknowledgement), its
timer, the credits that its header returned, with their channel, its key and the wafer it is for. -/
structure Unack where
  ctr   : BitVec 48
  ch    : Nat
  flits : List (BitVec 256)
  timer : Option Nat
  cred  : Nat × Nat
  kid   : W32                                -- the key under which it was sent
  dst   : Nat
  deriving DecidableEq, Repr, Inhabited

/-- An optical port (R331-R335). -/
structure LPort where
  st     : PState
  txCur  : Option LKey
  txNext : Option LKey
  rxCur  : Option LKey
  rxNext : Option LKey
  ackd   : Option W32                        -- KID the receiver has acknowledged
  txctr  : BitVec 48
  rxctr  : BitVec 48
  due    : Bool
  retry  : W32
  authf  : W32
  refus  : Nat                               -- consecutive refusals
  outq   : List Outgoing                     -- not yet sent
  redo   : Nat                               -- how many of them, at the front, are sent again (R329)
  unack  : List Unack                        -- oldest first
  part_  : Tbl Nat (List (BitVec 256))       -- flits of packets being received, by channel
  acked  : BitVec 48                         -- CTR to return in ACKCTR
  nakd   : Bool                              -- NAK to return
  nakAt  : Option (BitVec 48)                -- the frame that returned NAK; what it asked for again has still to come (R329)
  rxany  : Bool                              -- a frame has been accepted under the current receive key
  ackAt  : Option (W32 × BitVec 48)          -- the key and the counter of the last frame that the peer has acknowledged
  timing : Tbl Nat Nat                       -- the timers of cut-edge tokens that wait for their turn on a channel (R336)
  sent   : Tbl Nat Nat                       -- tokens of a cut edge sent and not yet accepted by their consumer, by channel (R339)
  uncred : Tbl Nat Nat                       -- tokens of a cut edge received and not yet credited, by channel
  back   : Tbl Nat Nat                       -- credits that came back for a channel carried from here, to be passed on
  served : List Nat                          -- channels that have had their turn, beside class 0 (R326)
  deriving DecidableEq, Repr, Inhabited

/-- What is timed: a core's request, an island's arrival and its address, a unit's own access, a token of a cut edge or of the fault network. -/
inductive RemWhat where
  | req (r : PortReq)
  | arrival (src : ArrSrc) (ctx lid va : Nat)
  | access (tag lid : Nat)
  | token
  deriving DecidableEq, Repr, Inhabited

/-- Traffic to another wafer that is timed (R336): a request until its answer, or a cut-edge token until its frame is acknowledged. -/
structure Remote where
  n     : Nat
  unit  : UnitId
  wafer : Nat
  what  : RemWhat
  since : W64
  deriving DecidableEq, Repr, Inhabited

/-- The request that is timed, if it is one. -/
def Remote.req (m : Remote) : Option PortReq :=
  match m.what with
  | .req r => some r
  | _ => none

/-- What FREPLAY of a record does (R417). -/
inductive RecAct where
  | none_
  | node (sl : Slot)
  | graph (f lid : Nat)
  | stream (f n id : Nat)
  | spill (f n id dst : Nat)
  | hist (core : CoreId) (off : Nat) (owner : Slot)
  | carry (walk : Nat) (sl : Slot)
  | owner (wafer pa : Nat) (sl : Slot)       -- the owner of a history of another wafer (R240)
  deriving DecidableEq, Repr, Inhabited

/-- A fault record, held by its unit or written (R401, R403). -/
structure FRec where
  rid   : Nat
  part  : Nat
  unit  : UnitId
  code  : Nat
  kind  : Nat
  cls   : Nat
  ctx   : Nat
  field : Nat
  node  : W32
  unitw : BitVec 16
  lid   : Nat
  addr  : Nat
  time  : Time
  seq   : BitVec 24
  aux   : W64
  trunc : Bool
  act   : RecAct
  deriving DecidableEq, Repr, Inhabited

/-- A save area in HBM: its base, the step of the CSAVE that wrote it, and the bytes stored over it since, the latest first (R411; log 22). -/
structure SaveArea where
  base  : Nat
  stamp : Nat
  cells : List Host.Cell
  deriving DecidableEq, Repr, Inhabited

/-- A context saved out to HBM (R411); its bases also stand here while a CSAVE of it runs. replays are the records that FREPLAY has named
since, whose replay waits (R418). -/
structure Saved where
  stamp   : Nat                  -- the step at which it was saved
  part    : Nat
  exec    : Exec
  cells   : List Host.Cell
  ecc     : Tbl Nat Ecc
  aon     : Tbl Nat Aon
  bases   : List W64
  replays : List FRec
  deriving DecidableEq, Repr, Inhabited

/-- A record in the ring, as FREPLAY and FABORT find it by its index. -/
structure RecInfo where
  rec_     : FRec
  resolved : Bool
  deriving DecidableEq, Repr, Inhabited

/-- A service call (R400): the record's index once written, whether FREC has taken it, and the graph. -/
structure Svc where
  rid   : Nat
  idx   : Option W64
  taken : Bool
  f     : Nat
  lid   : Nat
  deriving DecidableEq, Repr, Inhabited

/-- Supervisor registers of a field (R416). -/
structure SupR where
  frbase  : W64
  frlog2  : Nat
  frwr    : W64
  frrd    : W64
  ctxbase : W64
  hangiv  : Nat
  hrep    : W64
  trbase  : W64
  trlost  : W32
  trpos   : Nat
  deriving DecidableEq, Repr, Inhabited

/-- A breakpoint (R408, R417). -/
structure Brk where
  kind  : Nat
  tgt   : W64
  mtime : Option Time
  mseq  : Option (BitVec 24)
  deriving DecidableEq, Repr, Inhabited

/-- The damaged entry that a parity or ECC freeze leaves in place (R405): the unit that read it, what its record says, and the 8-byte words that
cannot be read. -/
structure Hurt where
  unit  : UnitId
  code  : Nat
  node  : Option Slot
  addr  : Nat
  time  : Time
  seq   : BitVec 24
  words : List Nat
  deriving DecidableEq, Repr, Inhabited

/-- A frozen region (R405); left counts the issues THAW allowed before it freezes again. -/
structure Frozen where
  f      : Nat
  lid    : Nat
  byUser : Bool                              -- by BREAK or FREEZE (R418)
  left   : Option Nat                        -- some n: thawed for n more issues
  hurt   : Option Hurt
  deriving DecidableEq, Repr, Inhabited

/-- An HBM key slot: 512 bits of key, and the number by which stored sectors name that key (R425). -/
structure XKey where
  key    : List Byte
  serial : Nat
  deriving DecidableEq, Repr, Inhabited

/-- A register write on its way to its unit (R110, R3). -/
structure RegW where
  n   : Nat
  pa  : Nat
  v   : W64
  deriving DecidableEq, Repr, Inhabited

/-- The host side (R419-R432). -/
structure HostSt where
  hwin    : Tbl (Nat × Nat) W64
  mbox    : List Byte                        -- status in byte 1, results from byte 8
  lastRd  : List Byte                        -- bytes of the last host read, all ones on Unsupported Request
  ur      : Bool                             -- the last host access completed with Unsupported Request
  msix    : List (Nat × Nat)                 -- vectors raised: function and vector
  msixT   : Tbl (Nat × Nat) W64              -- words of the MSI-X tables that differ from their reset value: function and word (log 140)
  pend    : List (Nat × Nat)                 -- vectors raised while masked: the pending bits
  stage   : Nat                              -- BAR0 + 0 bits [3:0]
  scode   : Byte                             -- bits [15:8]
  trip    : Bool                             -- bit 4
  recov   : Bool                             -- RECOVERY (R426)
  defmap  : Tbl Nat W64
  pcap    : BitVec 16
  pstate  : Nat
  hotf    : Nat
  temp    : BitVec 16
  thrm    : BitVec 16
  temps   : Tbl Nat (BitVec 16)              -- the latest reading of a field's sensor (R431)
  hot     : List Nat                         -- fields throttled for heat
  pthrot  : Bool                             -- throttled for power
  psince  : W64
  fw      : List Byte                        -- running firmware image
  fwNext  : Option (List Byte)
  secver  : W64
  deriving DecidableEq, Repr, Inhabited

/-- A soft error: of a stored word of memory, of one of the shadow, or of a unit header, which ECC can correct or only detect (R316, R362); of
a token that stands in a node's matching store, carve-out, issue queue or input edge (R121); or of logic that computes a value, whose
result stands in memory or on an edge with fresh check bits (R317). -/
inductive Upset where
  | word (a : Nat) (e : Ecc)
  | shadow (a : Nat) (e : Ecc)
  | header (a : Nat) (e : Ecc)
  | token (sl : Slot)
  | value (a : Nat) (v : W64)
  | result (g : EdgeId) (n : Nat) (v : W64)
  deriving DecidableEq, Repr, Inhabited

/-- What a step of the model is a step of (log 3). -/
inductive Act where
  | fire (sl : Slot)                         -- the element of this slot issues
  | word (f : Nat)                           -- the sequencer of this field issues a word
  | event (i : Instr)                        -- a step with no word
  | upset (u : Upset)                        -- a soft error (log 104)
  deriving DecidableEq, Repr, Inhabited

/-- The clk each unit's counter advances by, and then the step that happens. -/
structure Happening where
  ticks : Tbl UnitId W64
  act   : Act
  deriving DecidableEq, Repr, Inhabited

/-- Whose step is being run. -/
inductive Focus where
  | none_
  | slot (sl : Slot)
  | seq (f : Nat) (g : Option Nat)           -- a resident graph by its place, or the supervisor graph
  deriving DecidableEq, Repr, Inhabited

/-- The state of one module. -/
structure State where
  x       : Exec
  sh      : Exec
  mem     : List Host.Cell                   -- physical memory by physical address
  smem    : List Host.Cell                   -- shadow scratchpad and SRAM
  ecc     : Tbl Nat Ecc                      -- by word address
  secc    : Tbl Nat Ecc                      -- of the shadow scratchpad and SRAM
  xts     : Tbl Nat Nat                      -- key serial of an HBM sector; unlisted: never written by a context
  units   : Tbl Nat W64                      -- unit headers of CMP pages by unit address (R362)
  uecc    : Tbl Nat Ecc                      -- of those headers, by unit address
  aon     : Tbl Nat Aon                      -- by tile
  saon    : Tbl Nat Aon                      -- of the shadow scratchpad and SRAM
  lateAck : List Msg                         -- acknowledgements that their engine took and has still to finish (R310)
  wins    : Tbl (Nat × Nat) Win
  net     : List Packet
  budgets : Tbl UnitId Budget
  tlbs    : Tbl CoreId (List TlbE)
  twalks  : Tbl Nat (List Walk)
  shares  : Tbl CoreId (List Share)
  movp    : Tbl CoreId W64
  movl    : Tbl CoreId W32                   -- CAP
  parcnt  : Tbl CoreId W32
  lastF   : Tbl CoreId W64                   -- core's counter at its last firing (R213)
  queues  : Tbl (Nat × Nat) Queue
  seqrs   : Tbl Nat Seqr
  launches : Tbl Nat Launch
  ftrk    : Tbl (Nat × Nat) (List CountItem)  -- field tracker's net change by (field, launch)
  fspb    : Tbl Nat W64
  sis     : Tbl (Nat × Nat) Si
  dead    : BitVec 16
  deadU   : Tbl UnitId (BitVec 16)            -- units whose copy of the bitmap differs from dead
  ltmo    : Nat
  wafno   : Nat
  ports   : Tbl Nat LPort
  remotes : List Remote
  carried : Tbl (Nat × Nat) (List Cut)        -- cut edges that cross this wafer, by leading wafer and launch (R324)
  parts   : Tbl Nat Part
  ctxs    : Tbl Nat CtxSt
  saved   : Tbl Nat Saved
  areas   : List SaveArea                    -- newest first
  keys    : Tbl Nat XKey
  supr    : Tbl Nat SupR
  brks    : Tbl (Nat × Nat) Brk
  recQ    : List FRec                         -- records held by their units
  recs    : Tbl (Nat × W64) RecInfo
  svcs    : List Svc
  frozen  : List Frozen
  prog    : Tbl (Nat × Nat) W64               -- home counter at the last progress of (field, launch) (R406)
  regw    : List RegW
  host    : HostSt
  ctrs    : Tbl UnitId W64
  serial  : Nat                               -- the model's supply of fresh identifiers
  agenda  : List Happening
  tick    : Nat
  focus   : Focus
  swapped : Option Nat                        -- within a step: the context whose copy stands in x for the moment
  deriving DecidableEq, Repr, Inhabited

/-! ## Reset -/

/-- An execution state that holds nothing. -/
def Exec.empty : Exec where
  nodes := []
  hold := []
  flags := []
  park := []
  heldq := []
  edges := []
  mstore := []
  mord := []
  iq := []
  walks := []
  hstr := []
  osearch := []
  ctab := []
  frn := []
  frontQ := []
  routes := []
  carve := []
  grants := []
  ptag := []
  hctr := []
  waitl := []
  retry := []
  late := []
  outw := []
  relw := []
  pwalks := []
  members := []
  hown := []
  hset := []
  hpark := []
  hstop := []
  hq := []
  hbusy := []
  graphs := []
  flagw := []
  mis := []

/-- The host side after a cold reset that reached stage 6 (R429): PCAP 20,000 and P0 (R431), every window invalid (R419). -/
def HostSt.reset : HostSt where
  hwin := []
  mbox := []
  lastRd := []
  ur := false
  msix := []
  msixT := []
  pend := []
  stage := 6
  scode := 0
  trip := false
  recov := false
  defmap := []
  pcap := 20000
  pstate := 0
  hotf := 0
  temp := 0
  thrm := 0
  temps := []
  hot := []
  pthrot := false
  psince := 0
  fw := []
  fwNext := none
  secver := 0

/-- The module right after a cold reset that reached stage 6 (R429): HBM zero-filled, no partition formed, every key slot empty,
every register at the reset value its table gives; unlisted table entries read as the reset value (log 1, log 5). -/
def State.reset : State where
  x := Exec.empty
  sh := Exec.empty
  mem := []
  smem := []
  ecc := []
  secc := []
  xts := []
  units := []
  uecc := []
  aon := []
  saon := []
  lateAck := []
  wins := []
  net := []
  budgets := []
  tlbs := []
  twalks := []
  shares := []
  movp := []
  movl := []
  parcnt := []
  lastF := []
  queues := []
  seqrs := []
  launches := []
  ftrk := []
  fspb := []
  sis := []
  dead := 0
  deadU := []
  ltmo := 200
  wafno := 0
  ports := []
  remotes := []
  carried := []
  parts := []
  ctxs := []
  saved := []
  areas := []
  keys := []
  supr := []
  brks := []
  recQ := []
  recs := []
  svcs := []
  frozen := []
  prog := []
  regw := []
  host := HostSt.reset
  ctrs := []
  serial := 0
  agenda := []
  tick := 0
  focus := .none_
  swapped := none

/-! ## Why a step can stop -/

/-- A stop of the machine. The manual lets no step stop the whole machine without a next state: a fault parks a node, freezes a region
or aborts a launch (R404), and each of those is a next state. -/
inductive Fault where
  /-- Raised by step when a slot or a kernel graph holds a word that the loader would have refused (R63), so that the manual gives
  no meaning to running it. Safe: no launched image holds such a word. -/
  | illegalWord
  deriving DecidableEq, Repr, Inhabited

/-- A refusal of the model. -/
inductive Refusal where
  /-- Raised by exec's arm of an instruction that has no meaning yet. Safe. -/
  | notModelled (mnemonic : String)
  /-- Raised by step when the agenda names, as a step with no word, an instruction that has one: it is run only from its slot or
  its graph. Safe: nothing runs. -/
  | notAnEvent
  deriving DecidableEq, Repr, Inhabited

end Sys2Proof.Machine
end

