-- ==== Sys2Proof/Config.lean ====
section
/-! DEFINITION. What the manual leaves open: the order of steps of different units, and the cryptographic functions it names without
defining. Each is a constant with no body, so that nothing can be proved about its value. -/

namespace Sys2Proof.Config

open Sys2Proof Sys2Proof.Machine

/-- Which step of the module comes next, and how far each unit's counter has run by then, when the agenda lists nothing (R15, R20; log 3). -/
opaque schedule : Nat → Happening

/-- A byte of an HBM sector decrypted under another key than it was stored under (R425): by the reader's key serial, the writer's, the
sector's bytes as the writer sees them, and the physical address (log 11). -/
opaque wrongKey : Nat → Nat → List Byte → Nat → Byte

/-- A byte of another wafer's memory that an engine or a sequencer of this one reads: by the step and the physical address (log 9). -/
opaque remoteByte : Nat → Nat → Byte

/-- A value that the manual does not state, by a name of the case and its operands (log 17). -/
opaque openValue : Nat → List Nat → W64

/-- The physical address at which the supervisor places a launch's pool of waiter records (R274; log 29): by the launch. -/
opaque poolBase : Nat → Nat

/-- The AES-256-GCM ciphertext and tag of a frame (R327): key, nonce, header flit, data flits (log 10). -/
opaque gcmSeal : BitVec 256 → BitVec 96 → BitVec 256 → List (BitVec 256) → List (BitVec 256) × BitVec 128

/-- The data flits of a frame whose tag agrees (R327, R329): key, nonce, header flit, ciphertext, tag; none when it does not (log 10). -/
opaque gcmOpen : BitVec 256 → BitVec 96 → BitVec 256 → List (BitVec 256) → BitVec 128 → Option (List (BitVec 256))

/-- A data flit of a mesh packet that leaves the wafer, by its number (R326; log 10). -/
opaque packetFlit : Packet → Nat → BitVec 256

/-- The mesh packet that a list of flits carries (R326; log 10). -/
opaque flitsPacket : List (BitVec 256) → Option Packet

/-- The execution state and the scratchpad and SRAM cells that CLOAD reads from areas to which this context was not last saved: by the step,
the context and the bases (R411; log 36). -/
opaque areaExec : Nat → Nat → List W64 → Exec
opaque areaCells : Nat → Nat → List W64 → List Host.Cell

/-- A byte of a save area as CSAVE writes it, by the step of the save and the address: neither its layout nor its cipher text is given (R411;
log 22). -/
opaque areaByte : Nat → Nat → Byte

/-- Whether a firmware image's key and signature pass R426's first two checks (log 10). -/
opaque signatureOk : List Byte → Bool

/-- The security version that a firmware image names (R426; log 10). -/
opaque fwVersion : List Byte → W64

/-- The firmware image at the address and of the length that FWLOAD names, by the step (R424; log 41). -/
opaque fwBytes : Nat → W64 → W32 → List Byte

/-- The words of the supervisor graph that a firmware image loads for a partition (R399, R424; log 41). -/
opaque supGraph : List Byte → Nat → List W64

/-- SM3 (R426, R428; log 10). -/
opaque sm3 : List Byte → BitVec 256

/-- The part's public identity key (R427, R428). -/
opaque identityKey : BitVec 512

/-- The SM2 signature of some bytes under the identity key, at a step (R428; log 10). -/
opaque sm2Sign : Nat → List Byte → BitVec 512

/-- What the reset sequence finds when the wafer is powered on again, by the step (R429, R432). -/
opaque bootAgain : Nat → BootFuses

end Sys2Proof.Config
end

