-- ==== Sys2Proof/WellFormed.lean ====
section
/-! DEFINITION. The rows of the opcode map (R66, R67) and of the sequencer words (R65), and which field values a word may hold (R49 to R55, R64).
A breach is what the loader refuses with CFG_FIELD (R63); the rules that need more than one word are the loader's (Machine/Loader). -/

namespace Sys2Proof

/-- How a row takes an operand (R50). -/
inductive Operand where
  | absent                      -- not taken: encoded 11
  | req                         -- taken: 00, 01 or 10
  | opt                         -- optional: any source
  | ctrl (lo hi : Nat)          -- control operand "=n": 01, IMM from lo to hi
  deriving DecidableEq, Repr

/-- FN classes (R54). -/
inductive FnClass where
  | zero | r | rs | s | c | q | m | union
  | l (n : Nat)                 -- class L with the codes 0 to n - 1
  deriving DecidableEq, Repr

/-- Type classes (R53); f32 is "F32 only" and i4 the four types of ATOM and CAS (R191). -/
inductive TyClass where
  | i | s | z | n | f | w | v | x | untyped | f32 | i4
  deriving DecidableEq, Repr

/-- A row of the complete list (R67). -/
structure Row where
  op : BitVec 8
  fn : FnClass
  a  : Operand
  b  : Operand
  c  : Operand
  ty : TyClass
  deriving DecidableEq, Repr

/-- How a sequencer word uses IMM (R64, R85 to R98, R417). -/
inductive ImmUse where
  | unused | all | alu | target
  | low (n : Nat)               -- bits n and above are zero
  | eq (n : Nat)                -- exactly this value: a form of its own
  deriving DecidableEq, Repr

/-- A row of the sequencer words (R65): which of D, A and B the word uses. -/
structure SRow where
  sop : BitVec 8
  d   : Bool
  a   : Bool
  b   : Bool
  imm : ImmUse
  deriving DecidableEq, Repr

/-- The opcode-map row of an element instruction, with its context word; none for every other row of the table. -/
def Instr.row : Instr → Option (Row × CW)
  | .abs w => some (⟨0x08#8, .s, .req, .absent, .absent, .s⟩, w)
  | .acq w => some (⟨0x9E#8, .q, .req, .absent, .req, .untyped⟩, w)
  | .add w => some (⟨0x00#8, .s, .req, .req, .absent, .i⟩, w)
  | .all w => some (⟨0x5A#8, .zero, .req, .ctrl 1 16777215, .absent, .x⟩, w)
  | .and w => some (⟨0x0B#8, .zero, .req, .req, .absent, .i⟩, w)
  | .andn w => some (⟨0x0C#8, .zero, .req, .req, .absent, .i⟩, w)
  | .armp w => some (⟨0x96#8, .zero, .req, .ctrl 1 2048, .req, .untyped⟩, w)
  | .atom w => some (⟨0x9A#8, .l 8, .req, .req, .req, .i4⟩, w)
  | .bend w => some (⟨0xB1#8, .zero, .req, .req, .req, .untyped⟩, w)
  | .bfi w => some (⟨0x17#8, .zero, .req, .req, .req, .i⟩, w)
  | .bfx w => some (⟨0x16#8, .zero, .req, .req, .absent, .i⟩, w)
  | .bin w => some (⟨0xD5#8, .zero, .req, .absent, .req, .untyped⟩, w)
  | .capa w => some (⟨0x77#8, .zero, .req, .absent, .absent, .untyped⟩, w)
  | .capd w => some (⟨0x78#8, .zero, .req, .absent, .absent, .untyped⟩, w)
  | .cas w => some (⟨0x9B#8, .zero, .req, .req, .req, .i4⟩, w)
  | .clz w => some (⟨0x14#8, .zero, .req, .absent, .absent, .i⟩, w)
  | .cmp w => some (⟨0x19#8, .c, .req, .req, .absent, .i⟩, w)
  | .cnt w => some (⟨0x58#8, .zero, .req, .absent, .absent, .z⟩, w)
  | .consol w => some (⟨0x64#8, .zero, .req, .absent, .absent, .x⟩, w)
  | .const w => some (⟨0x53#8, .zero, .req, .req, .absent, .x⟩, w)
  | .cpy w => some (⟨0xD0#8, .l 4, .req, .absent, .req, .untyped⟩, w)
  | .cvt w => some (⟨0x41#8, .rs, .req, .ctrl 0 9, .absent, .n⟩, w)
  | .div w => some (⟨0x05#8, .zero, .req, .req, .absent, .i⟩, w)
  | .dset w => some (⟨0x67#8, .zero, .req, .req, .absent, .x⟩, w)
  | .dup w => some (⟨0x52#8, .zero, .req, .absent, .absent, .x⟩, w)
  | .ends w => some (⟨0x57#8, .zero, .req, .absent, .absent, .x⟩, w)
  | .enter w => some (⟨0x70#8, .zero, .req, .opt, .absent, .x⟩, w)
  | .fabs w => some (⟨0x38#8, .zero, .req, .absent, .absent, .w⟩, w)
  | .fadd w => some (⟨0x30#8, .r, .req, .req, .absent, .w⟩, w)
  | .fatom w => some (⟨0x9C#8, .l 1, .req, .req, .req, .f⟩, w)
  | .fcls w => some (⟨0x3F#8, .zero, .req, .absent, .absent, .f⟩, w)
  | .fcmp w => some (⟨0x3A#8, .c, .req, .req, .absent, .f⟩, w)
  | .fcvt w => some (⟨0x40#8, .rs, .req, .ctrl 8 15, .absent, .w⟩, w)
  | .feed w => some (⟨0x71#8, .zero, .req, .absent, .absent, .x⟩, w)
  | .fill w => some (⟨0xB2#8, .zero, .req, .req, .req, .x⟩, w)
  | .fma w => some (⟨0x33#8, .r, .req, .req, .req, .w⟩, w)
  | .fmax w => some (⟨0x37#8, .zero, .req, .req, .absent, .w⟩, w)
  | .fmin w => some (⟨0x36#8, .zero, .req, .req, .absent, .w⟩, w)
  | .fms w => some (⟨0x34#8, .r, .req, .req, .req, .w⟩, w)
  | .fmul w => some (⟨0x32#8, .r, .req, .req, .absent, .w⟩, w)
  | .fneg w => some (⟨0x39#8, .zero, .req, .absent, .absent, .w⟩, w)
  | .fnma w => some (⟨0x35#8, .r, .req, .req, .req, .w⟩, w)
  | .frcp w => some (⟨0x3C#8, .zero, .req, .absent, .absent, .f32⟩, w)
  | .frnd w => some (⟨0x3E#8, .r, .req, .absent, .absent, .f⟩, w)
  | .front w => some (⟨0x76#8, .zero, .req, .absent, .absent, .untyped⟩, w)
  | .frsq w => some (⟨0x3B#8, .zero, .req, .absent, .absent, .f32⟩, w)
  | .fscl w => some (⟨0x3D#8, .r, .req, .req, .absent, .f⟩, w)
  | .fsub w => some (⟨0x31#8, .r, .req, .req, .absent, .w⟩, w)
  | .gate w => some (⟨0x51#8, .zero, .req, .absent, .absent, .x⟩, w)
  | .gbind w => some (⟨0xD3#8, .zero, .req, .absent, .req, .untyped⟩, w)
  | .gfree w => some (⟨0xD4#8, .zero, .req, .absent, .req, .untyped⟩, w)
  | .happ w => some (⟨0x81#8, .zero, .req, .req, .absent, .untyped⟩, w)
  | .hcomp w => some (⟨0x85#8, .zero, .req, .absent, .absent, .untyped⟩, w)
  | .hjoin w => some (⟨0x82#8, .zero, .req, .req, .absent, .untyped⟩, w)
  | .hmrg w => some (⟨0x86#8, .zero, .req, .absent, .absent, .untyped⟩, w)
  | .hnew w => some (⟨0x80#8, .zero, .req, .absent, .absent, .untyped⟩, w)
  | .hoist w => some (⟨0x95#8, .zero, .req, .absent, .req, .untyped⟩, w)
  | .hred w => some (⟨0x83#8, .l 5, .req, .req, .absent, .n⟩, w)
  | .hseek w => some (⟨0x84#8, .zero, .req, .req, .absent, .untyped⟩, w)
  | .hstat w => some (⟨0x87#8, .zero, .req, .absent, .absent, .untyped⟩, w)
  | .idnt w => some (⟨0x55#8, .zero, .req, .absent, .absent, .x⟩, w)
  | .isect w => some (⟨0x61#8, .zero, .req, .req, .absent, .x⟩, w)
  | .lane w => some (⟨0x42#8, .zero, .req, .req, .absent, .v⟩, w)
  | .ld w => some (⟨0x90#8, .m, .req, .absent, .req, .x⟩, w)
  | .ldw w => some (⟨0x93#8, .zero, .req, .absent, .req, .x⟩, w)
  | .leave w => some (⟨0x72#8, .zero, .req, .absent, .absent, .x⟩, w)
  | .mad w => some (⟨0x04#8, .s, .req, .req, .req, .i⟩, w)
  | .max w => some (⟨0x0A#8, .zero, .req, .req, .absent, .i⟩, w)
  | .mclr w => some (⟨0xC4#8, .zero, .req, .absent, .req, .untyped⟩, w)
  | .mcpy w => some (⟨0xD1#8, .l 4, .req, .req, .req, .untyped⟩, w)
  | .mdrain w => some (⟨0xC3#8, .zero, .req, .req, .req, .untyped⟩, w)
  | .min w => some (⟨0x09#8, .zero, .req, .req, .absent, .i⟩, w)
  | .minus w => some (⟨0x62#8, .zero, .req, .req, .absent, .x⟩, w)
  | .mload w => some (⟨0xC0#8, .l 2, .req, .req, .req, .untyped⟩, w)
  | .mmask w => some (⟨0xC5#8, .zero, .req, .req, .req, .untyped⟩, w)
  | .mov w => some (⟨0x1A#8, .zero, .req, .absent, .absent, .x⟩, w)
  | .mstat w => some (⟨0xC6#8, .zero, .req, .absent, .req, .untyped⟩, w)
  | .mstrm w => some (⟨0xC2#8, .zero, .req, .req, .req, .untyped⟩, w)
  | .mswap w => some (⟨0xC1#8, .zero, .req, .absent, .req, .untyped⟩, w)
  | .mul w => some (⟨0x02#8, .s, .req, .req, .absent, .i⟩, w)
  | .mulh w => some (⟨0x03#8, .zero, .req, .req, .absent, .i⟩, w)
  | .neg w => some (⟨0x07#8, .s, .req, .absent, .absent, .s⟩, w)
  | .negd w => some (⟨0x68#8, .zero, .req, .absent, .absent, .x⟩, w)
  | .nextf w => some (⟨0x99#8, .zero, .req, .absent, .req, .untyped⟩, w)
  | .not w => some (⟨0x0F#8, .zero, .req, .absent, .absent, .i⟩, w)
  | .null w => some (⟨0x56#8, .zero, .req, .absent, .absent, .x⟩, w)
  | .or w => some (⟨0x0D#8, .zero, .req, .req, .absent, .i⟩, w)
  | .pfind w => some (⟨0xB5#8, .zero, .req, .absent, .req, .untyped⟩, w)
  | .phdrop w => some (⟨0xBA#8, .zero, .req, .absent, .req, .untyped⟩, w)
  | .phnew w => some (⟨0xB8#8, .q, .req, .ctrl 0 16777215, .req, .untyped⟩, w)
  | .phnext w => some (⟨0xBD#8, .q, .req, .absent, .req, .untyped⟩, w)
  | .phqry w => some (⟨0xBE#8, .zero, .req, .absent, .req, .untyped⟩, w)
  | .phreg w => some (⟨0xB9#8, .l 3, .req, .absent, .req, .untyped⟩, w)
  | .phsig w => some (⟨0xBB#8, .q, .req, .absent, .req, .untyped⟩, w)
  | .phwait w => some (⟨0xBC#8, .q, .req, .absent, .req, .untyped⟩, w)
  | .pnew w => some (⟨0xB0#8, .zero, .req, .absent, .req, .untyped⟩, w)
  | .popc w => some (⟨0x15#8, .zero, .req, .absent, .absent, .i⟩, w)
  | .pread w => some (⟨0xB4#8, .zero, .req, .absent, .req, .x⟩, w)
  | .probe w => some (⟨0x75#8, .zero, .req, .absent, .absent, .x⟩, w)
  | .pwait w => some (⟨0xB3#8, .zero, .req, .absent, .req, .x⟩, w)
  | .qpost w => some (⟨0xD2#8, .zero, .req, .absent, .req, .untyped⟩, w)
  | .rekey w => some (⟨0x65#8, .zero, .req, .req, .absent, .x⟩, w)
  | .rel w => some (⟨0x9F#8, .q, .req, .absent, .req, .untyped⟩, w)
  | .rem w => some (⟨0x06#8, .zero, .req, .req, .absent, .i⟩, w)
  | .rot w => some (⟨0x13#8, .zero, .req, .req, .absent, .i⟩, w)
  | .scan w => some (⟨0x63#8, .l 2, .req, .absent, .absent, .i⟩, w)
  | .sel w => some (⟨0x18#8, .zero, .req, .req, .req, .x⟩, w)
  | .share w => some (⟨0x9D#8, .q, .req, .req, .req, .untyped⟩, w)
  | .shl w => some (⟨0x10#8, .s, .req, .req, .absent, .i⟩, w)
  | .shr w => some (⟨0x11#8, .zero, .req, .req, .absent, .i⟩, w)
  | .sink w => some (⟨0x54#8, .zero, .req, .absent, .absent, .untyped⟩, w)
  | .sra w => some (⟨0x12#8, .zero, .req, .req, .absent, .s⟩, w)
  | .src w => some (⟨0x59#8, .zero, .absent, .absent, .absent, .z⟩, w)
  | .st w => some (⟨0x91#8, .m, .req, .req, .req, .x⟩, w)
  | .std w => some (⟨0x92#8, .m, .req, .req, .req, .x⟩, w)
  | .steer w => some (⟨0x50#8, .zero, .req, .absent, .absent, .x⟩, w)
  | .strike w => some (⟨0x97#8, .zero, .req, .absent, .req, .untyped⟩, w)
  | .stwait w => some (⟨0xD6#8, .zero, .req, .req, .req, .untyped⟩, w)
  | .sub w => some (⟨0x01#8, .s, .req, .req, .absent, .i⟩, w)
  | .tagr w => some (⟨0x98#8, .zero, .req, .absent, .req, .untyped⟩, w)
  | .take w => some (⟨0x94#8, .zero, .req, .absent, .req, .x⟩, w)
  | .timev w => some (⟨0x74#8, .zero, .req, .absent, .absent, .untyped⟩, w)
  | .tred w => some (⟨0x5B#8, .l 6, .req, .ctrl 1 16777215, .absent, .n⟩, w)
  | .tset w => some (⟨0x73#8, .zero, .req, .req, .absent, .x⟩, w)
  | .union w => some (⟨0x60#8, .union, .req, .req, .absent, .n⟩, w)
  | .valk w => some (⟨0x66#8, .zero, .req, .absent, .absent, .x⟩, w)
  | .vins w => some (⟨0x43#8, .zero, .req, .req, .req, .v⟩, w)
  | .vsum w => some (⟨0x44#8, .r, .req, .absent, .absent, .v⟩, w)
  | .xor w => some (⟨0x0E#8, .zero, .req, .req, .absent, .i⟩, w)
  | .shareRemove w => some (⟨0x9D#8, .q, .req, .req, .req, .untyped⟩, w)
  | .sli _ => none
  | .sadd _ => none
  | .ssub _ => none
  | .smul _ => none
  | .sand _ => none
  | .sor _ => none
  | .sxor _ => none
  | .sshl _ => none
  | .sshr _ => none
  | .sfadd _ => none
  | .sld _ => none
  | .sst _ => none
  | .sbr _ => none
  | .sbz _ => none
  | .sbnz _ => none
  | .sblt _ => none
  | .scall _ => none
  | .sret _ => none
  | .cfg _ => none
  | .arms _ => none
  | .waits _ => none
  | .wstamp _ => none
  | .sqpost _ => none
  | .launch _ => none
  | .recfg _ => none
  | .fwait _ => none
  | .sflags _ => none
  | .sflagsAll _ => none
  | .syield _ => none
  | .shalt _ => none
  | .svc _ => none
  | .eret _ => none
  | .frec _ => none
  | .freplay _ => none
  | .fabortRecord _ => none
  | .fabortLaunch _ => none
  | .quiesce _ => none
  | .csave _ => none
  | .cload _ => none
  | .cswap _ => none
  | .tlbinv _ => none
  | .mappin _ => none
  | .keyld _ => none
  | .lkey _ => none
  | .deadset _ => none
  | .deadclr _ => none
  | .freeze _ => none
  | .thaw _ => none
  | .sweep _ => none
  | .brkset _ => none
  | .qbind _ => none
  | .qunbind _ => none
  | .queueAccept _ => none
  | .nopPacket _ _ => none
  | .launchPacket _ _ => none
  | .copyPacket _ _ => none
  | .mcopyPacket _ _ => none
  | .gbindPacket _ _ => none
  | .gbindUnbindPacket _ _ => none
  | .binPacket _ _ => none
  | .stampPacket _ _ => none
  | .queueAgeing _ _ => none
  | .graphQuantum _ => none
  | .graphResume _ _ => none
  | .launchPart _ _ => none
  | .launchAck _ _ => none
  | .launchStart _ => none
  | .armingComplete _ _ => none
  | .launchComplete _ => none
  | .tokenArrival _ _ _ => none
  | .tokenResend _ _ _ => none
  | .overflowReadDone _ => none
  | .countTableIdleFlush _ => none
  | .countMessage _ => none
  | .trackerForward _ _ => none
  | .trackerPeerChange _ _ _ => none
  | .frontierUpdate _ => none
  | .frontAnswer _ => none
  | .memoryRequest _ => none
  | .atomicRequest _ => none
  | .aonStore _ => none
  | .aonLoad _ => none
  | .memoryResponse _ => none
  | .presenceRequest _ => none
  | .paneArrival _ => none
  | .waitlistRetry _ _ => none
  | .walkStep _ => none
  | .carryApply _ => none
  | .phaserStep _ => none
  | .lockStep _ => none
  | .releasePortWait _ _ => none
  | .historyOperation _ => none
  | .historyPendingProcess _ _ => none
  | .streamAccept _ _ => none
  | .streamChunk _ _ _ => none
  | .streamComplete _ _ _ => none
  | .windowRequest _ => none
  | .decodeLength _ _ => none
  | .matrixAccept _ _ => none
  | .matrixControlApply _ _ => none
  | .rowPass _ _ => none
  | .faultRecordWrite _ => none
  | .hang _ _ => none
  | .meshHop _ _ => none
  | .beatResend _ _ => none
  | .budgetPeriod _ => none
  | .frameSend _ _ => none
  | .frameReceive _ _ => none
  | .keyAckFrame _ _ => none
  | .keyChange _ => none
  | .linkTrained _ => none
  | .linkDown _ => none
  | .sourceTimeout _ => none
  | .deadBitmap _ => none
  | .hostWrite _ _ _ => none
  | .hostRead _ _ _ => none
  | .hostFetchadd _ _ _ _ => none
  | .hostSwap _ _ _ _ => none
  | .hostCas _ _ _ _ _ => none
  | .hwinWrite _ _ _ => none
  | .pform _ _ _ => none
  | .pfree _ => none
  | .attest _ => none
  | .fwload _ _ => none
  | .powerToP0 _ => none
  | .powerToP1 _ => none
  | .powerToP2 _ => none
  | .powerToP3 _ => none
  | .powerPeriod _ => none
  | .thermalThrottle _ _ => none
  | .thermalTrip _ _ => none
  | .coldReset _ => none
  | .cstatWrite _ => none
  | .mperWrite _ => none
  | .mbudWrite _ => none
  | .ltmoWrite _ => none
  | .frctlWrite _ => none
  | .hangivWrite _ => none
  | .registerWrite _ => none
  | .exchangeComplete _ => none
  | .csaveComplete _ => none
  | .cloadComplete _ => none
  | .translationWalkComplete _ _ _ => none
  | .weightLoadComplete _ _ => none
  | .mdrainComplete _ _ => none
  | .thermalThrottleEnd _ _ => none

/-- The row of a sequencer word, with its fields; none for every other row of the table. -/
def Instr.srow : Instr → Option (SRow × SW)
  | .abs _ => none
  | .acq _ => none
  | .add _ => none
  | .all _ => none
  | .and _ => none
  | .andn _ => none
  | .armp _ => none
  | .atom _ => none
  | .bend _ => none
  | .bfi _ => none
  | .bfx _ => none
  | .bin _ => none
  | .capa _ => none
  | .capd _ => none
  | .cas _ => none
  | .clz _ => none
  | .cmp _ => none
  | .cnt _ => none
  | .consol _ => none
  | .const _ => none
  | .cpy _ => none
  | .cvt _ => none
  | .div _ => none
  | .dset _ => none
  | .dup _ => none
  | .ends _ => none
  | .enter _ => none
  | .fabs _ => none
  | .fadd _ => none
  | .fatom _ => none
  | .fcls _ => none
  | .fcmp _ => none
  | .fcvt _ => none
  | .feed _ => none
  | .fill _ => none
  | .fma _ => none
  | .fmax _ => none
  | .fmin _ => none
  | .fms _ => none
  | .fmul _ => none
  | .fneg _ => none
  | .fnma _ => none
  | .frcp _ => none
  | .frnd _ => none
  | .front _ => none
  | .frsq _ => none
  | .fscl _ => none
  | .fsub _ => none
  | .gate _ => none
  | .gbind _ => none
  | .gfree _ => none
  | .happ _ => none
  | .hcomp _ => none
  | .hjoin _ => none
  | .hmrg _ => none
  | .hnew _ => none
  | .hoist _ => none
  | .hred _ => none
  | .hseek _ => none
  | .hstat _ => none
  | .idnt _ => none
  | .isect _ => none
  | .lane _ => none
  | .ld _ => none
  | .ldw _ => none
  | .leave _ => none
  | .mad _ => none
  | .max _ => none
  | .mclr _ => none
  | .mcpy _ => none
  | .mdrain _ => none
  | .min _ => none
  | .minus _ => none
  | .mload _ => none
  | .mmask _ => none
  | .mov _ => none
  | .mstat _ => none
  | .mstrm _ => none
  | .mswap _ => none
  | .mul _ => none
  | .mulh _ => none
  | .neg _ => none
  | .negd _ => none
  | .nextf _ => none
  | .not _ => none
  | .null _ => none
  | .or _ => none
  | .pfind _ => none
  | .phdrop _ => none
  | .phnew _ => none
  | .phnext _ => none
  | .phqry _ => none
  | .phreg _ => none
  | .phsig _ => none
  | .phwait _ => none
  | .pnew _ => none
  | .popc _ => none
  | .pread _ => none
  | .probe _ => none
  | .pwait _ => none
  | .qpost _ => none
  | .rekey _ => none
  | .rel _ => none
  | .rem _ => none
  | .rot _ => none
  | .scan _ => none
  | .sel _ => none
  | .share _ => none
  | .shl _ => none
  | .shr _ => none
  | .sink _ => none
  | .sra _ => none
  | .src _ => none
  | .st _ => none
  | .std _ => none
  | .steer _ => none
  | .strike _ => none
  | .stwait _ => none
  | .sub _ => none
  | .tagr _ => none
  | .take _ => none
  | .timev _ => none
  | .tred _ => none
  | .tset _ => none
  | .union _ => none
  | .valk _ => none
  | .vins _ => none
  | .vsum _ => none
  | .xor _ => none
  | .shareRemove _ => none
  | .sli w => some (⟨0x01#8, true, false, false, .all⟩, w)
  | .sadd w => some (⟨0x02#8, true, true, true, .alu⟩, w)
  | .ssub w => some (⟨0x03#8, true, true, true, .alu⟩, w)
  | .smul w => some (⟨0x04#8, true, true, true, .alu⟩, w)
  | .sand w => some (⟨0x05#8, true, true, true, .alu⟩, w)
  | .sor w => some (⟨0x06#8, true, true, true, .alu⟩, w)
  | .sxor w => some (⟨0x07#8, true, true, true, .alu⟩, w)
  | .sshl w => some (⟨0x08#8, true, true, true, .alu⟩, w)
  | .sshr w => some (⟨0x09#8, true, true, true, .alu⟩, w)
  | .sfadd w => some (⟨0x0A#8, true, true, true, .alu⟩, w)
  | .sld w => some (⟨0x10#8, true, true, false, .all⟩, w)
  | .sst w => some (⟨0x11#8, true, true, false, .all⟩, w)
  | .sbr w => some (⟨0x18#8, false, false, false, .target⟩, w)
  | .sbz w => some (⟨0x19#8, false, true, false, .target⟩, w)
  | .sbnz w => some (⟨0x1A#8, false, true, false, .target⟩, w)
  | .sblt w => some (⟨0x1B#8, false, true, true, .target⟩, w)
  | .scall w => some (⟨0x1C#8, true, false, false, .target⟩, w)
  | .sret w => some (⟨0x1D#8, false, true, false, .unused⟩, w)
  | .cfg w => some (⟨0x20#8, false, true, false, .unused⟩, w)
  | .arms w => some (⟨0x21#8, true, false, false, .low 8⟩, w)
  | .waits w => some (⟨0x22#8, false, false, false, .low 8⟩, w)
  | .wstamp w => some (⟨0x23#8, false, true, true, .unused⟩, w)
  | .sqpost w => some (⟨0x24#8, false, true, true, .unused⟩, w)
  | .launch w => some (⟨0x25#8, false, true, false, .unused⟩, w)
  | .recfg w => some (⟨0x26#8, false, true, true, .low 8⟩, w)
  | .fwait w => some (⟨0x27#8, false, true, false, .low 18⟩, w)
  | .sflags w => some (⟨0x28#8, true, false, false, .eq 0⟩, w)
  | .sflagsAll w => some (⟨0x28#8, true, false, false, .eq 1⟩, w)
  | .syield w => some (⟨0x29#8, false, false, false, .unused⟩, w)
  | .shalt w => some (⟨0x2A#8, false, false, false, .unused⟩, w)
  | .svc w => some (⟨0x30#8, false, false, false, .low 16⟩, w)
  | .eret w => some (⟨0xE0#8, false, false, false, .unused⟩, w)
  | .frec w => some (⟨0xE1#8, true, true, false, .unused⟩, w)
  | .freplay w => some (⟨0xE2#8, true, true, false, .unused⟩, w)
  | .fabortRecord w => some (⟨0xE3#8, true, true, true, .eq 0⟩, w)
  | .fabortLaunch w => some (⟨0xE3#8, true, true, true, .eq 1⟩, w)
  | .quiesce w => some (⟨0xE4#8, true, false, false, .low 9⟩, w)
  | .csave w => some (⟨0xE5#8, true, true, false, .unused⟩, w)
  | .cload w => some (⟨0xE6#8, true, true, false, .low 9⟩, w)
  | .cswap w => some (⟨0xE7#8, true, false, false, .unused⟩, w)
  | .tlbinv w => some (⟨0xE8#8, false, true, true, .low 9⟩, w)
  | .mappin w => some (⟨0xE9#8, true, true, true, .low 11⟩, w)
  | .keyld w => some (⟨0xEA#8, true, true, false, .low 9⟩, w)
  | .lkey w => some (⟨0xEB#8, true, true, false, .low 8⟩, w)
  | .deadset w => some (⟨0xEC#8, false, true, false, .unused⟩, w)
  | .deadclr w => some (⟨0xED#8, false, true, false, .unused⟩, w)
  | .freeze w => some (⟨0xEE#8, false, true, false, .unused⟩, w)
  | .thaw w => some (⟨0xEF#8, false, true, false, .low 20⟩, w)
  | .sweep w => some (⟨0xF0#8, true, true, true, .unused⟩, w)
  | .brkset w => some (⟨0xF1#8, false, true, true, .low 30⟩, w)
  | .qbind w => some (⟨0xF2#8, false, true, true, .low 4⟩, w)
  | .qunbind w => some (⟨0xF3#8, false, false, false, .low 4⟩, w)
  | .queueAccept _ => none
  | .nopPacket _ _ => none
  | .launchPacket _ _ => none
  | .copyPacket _ _ => none
  | .mcopyPacket _ _ => none
  | .gbindPacket _ _ => none
  | .gbindUnbindPacket _ _ => none
  | .binPacket _ _ => none
  | .stampPacket _ _ => none
  | .queueAgeing _ _ => none
  | .graphQuantum _ => none
  | .graphResume _ _ => none
  | .launchPart _ _ => none
  | .launchAck _ _ => none
  | .launchStart _ => none
  | .armingComplete _ _ => none
  | .launchComplete _ => none
  | .tokenArrival _ _ _ => none
  | .tokenResend _ _ _ => none
  | .overflowReadDone _ => none
  | .countTableIdleFlush _ => none
  | .countMessage _ => none
  | .trackerForward _ _ => none
  | .trackerPeerChange _ _ _ => none
  | .frontierUpdate _ => none
  | .frontAnswer _ => none
  | .memoryRequest _ => none
  | .atomicRequest _ => none
  | .aonStore _ => none
  | .aonLoad _ => none
  | .memoryResponse _ => none
  | .presenceRequest _ => none
  | .paneArrival _ => none
  | .waitlistRetry _ _ => none
  | .walkStep _ => none
  | .carryApply _ => none
  | .phaserStep _ => none
  | .lockStep _ => none
  | .releasePortWait _ _ => none
  | .historyOperation _ => none
  | .historyPendingProcess _ _ => none
  | .streamAccept _ _ => none
  | .streamChunk _ _ _ => none
  | .streamComplete _ _ _ => none
  | .windowRequest _ => none
  | .decodeLength _ _ => none
  | .matrixAccept _ _ => none
  | .matrixControlApply _ _ => none
  | .rowPass _ _ => none
  | .faultRecordWrite _ => none
  | .hang _ _ => none
  | .meshHop _ _ => none
  | .beatResend _ _ => none
  | .budgetPeriod _ => none
  | .frameSend _ _ => none
  | .frameReceive _ _ => none
  | .keyAckFrame _ _ => none
  | .keyChange _ => none
  | .linkTrained _ => none
  | .linkDown _ => none
  | .sourceTimeout _ => none
  | .deadBitmap _ => none
  | .hostWrite _ _ _ => none
  | .hostRead _ _ _ => none
  | .hostFetchadd _ _ _ _ => none
  | .hostSwap _ _ _ _ => none
  | .hostCas _ _ _ _ _ => none
  | .hwinWrite _ _ _ => none
  | .pform _ _ _ => none
  | .pfree _ => none
  | .attest _ => none
  | .fwload _ _ => none
  | .powerToP0 _ => none
  | .powerToP1 _ => none
  | .powerToP2 _ => none
  | .powerToP3 _ => none
  | .powerPeriod _ => none
  | .thermalThrottle _ _ => none
  | .thermalTrip _ _ => none
  | .coldReset _ => none
  | .cstatWrite _ => none
  | .mperWrite _ => none
  | .mbudWrite _ => none
  | .ltmoWrite _ => none
  | .frctlWrite _ => none
  | .hangivWrite _ => none
  | .registerWrite _ => none
  | .exchangeComplete _ => none
  | .csaveComplete _ => none
  | .cloadComplete _ => none
  | .translationWalkComplete _ _ _ => none
  | .weightLoadComplete _ _ => none
  | .mdrainComplete _ _ => none
  | .thermalThrottleEnd _ _ => none

/-- FN holds a value its class lists (R54). -/
def FnClass.ok (c : FnClass) (fn : BitVec 4) : Bool :=
  match c with
  | .zero => fn.toNat == 0
  | .r => fn.toNat < 4
  | .rs => fn.toNat < 8
  | .s => fn.toNat < 2
  | .c => fn.toNat < 6
  | .q => fn.toNat < 6
  | .m => fn.toNat < 2
  | .l n => fn.toNat < n
  | .union => fn.toNat < 5 || (9 ≤ fn.toNat && fn.toNat < 12)

/-- TY is of the row's class (R53). -/
def TyClass.ok (c : TyClass) (ty : BitVec 4) : Bool :=
  match c with
  | .i => ty.toNat < 8
  | .s => ty.toNat < 4
  | .z => 4 ≤ ty.toNat && ty.toNat < 8
  | .n => ty.toNat < 10
  | .f => ty.toNat == 8 || ty.toNat == 9
  | .w => 8 ≤ ty.toNat
  | .v => 10 ≤ ty.toNat
  | .x => true
  | .untyped => ty.toNat == 0
  | .f32 => ty.toNat == 8
  | .i4 => ty.toNat == 2 || ty.toNat == 3 || ty.toNat == 6 || ty.toNat == 7

/-- An operand's source is one its row admits (R50). -/
def Operand.ok (o : Operand) (src : BitVec 2) (imm : BitVec 24) : Bool :=
  match o with
  | .absent => src == 3
  | .req => src != 3
  | .opt => true
  | .ctrl lo hi => src == 1 && lo ≤ imm.toNat && imm.toNat ≤ hi

/-- The operand is a control operand. -/
def Operand.isCtrl : Operand → Bool
  | .ctrl _ _ => true
  | _ => false

/-- At most one of SA, SB and SC is the immediate (R50). -/
def CW.oneImm (w : CW) : Bool :=
  (cond (w.sa == 1) 1 0) + (cond (w.sb == 1) 1 0) + (cond (w.sc == 1) 1 0) ≤ 1

/-- Operand A is an address, always read as a full 64-bit integer (R51): the memory, history, presence, promise, phaser, lock, share,
streamer and matrix instructions. -/
def Row.addrA (r : Row) : Bool := 0x80 ≤ r.op.toNat

/-- Operand B is an address (R51): BEND. -/
def Row.addrB (r : Row) : Bool := r.op == 0xB1#8

/-- IMM is a value the row's use of it admits (R51): a control value, a section or stage number, an immediate operand, or zero. A value
immediate on a packed type is refused. -/
def CW.immOk (r : Row) (w : CW) : Bool :=
  if r.op == 0x59#8 then w.imm.toNat < 256
  else if r.op == 0x75#8 || r.op == 0x76#8 then w.imm.toNat < 64
  else if r.a.isCtrl || r.b.isCtrl || r.c.isCtrl then true
  else if w.sa == 1 then r.addrA || w.ty.toNat < 10
  else if w.sb == 1 then r.addrB || w.ty.toNat < 10
  else if w.sc == 1 then w.ty.toNat < 10
  else w.imm == 0

/-- The instruction names an identity value, so that NP may be 10 (R124, R147). -/
def Row.hasIdentity (r : Row) : Bool :=
  r.op.toNat ∈ [0x00, 0x01, 0x02, 0x04, 0x09, 0x0A, 0x0B, 0x0C, 0x0D, 0x0E, 0x10, 0x11, 0x12, 0x13, 0x30, 0x31, 0x32, 0x33, 0x34, 0x35, 0x36, 0x37]

/-- The field values that single instructions forbid: R50 (STEER, GATE), R175 (SRC), R177, R178 (TRED, ALL), R185 (CONSOL), R186 (DSET, NEGD),
R206 (ENTER, FEED, LEAVE), R209 (TSET), R210 (CAPA, CAPD), R220 (PROBE), R230, R237 (histories), R342 (streamer nodes), R384 (matrix nodes). -/
def CW.specialOk (r : Row) (w : CW) : Bool :=
  let op := r.op.toNat
  let pm0 := w.pm == 0
  let np0 := w.np == 0
  let dm0 := w.dm == 0
  let hd0 := w.hd == 0
  let xt0 := w.xt == 0
  let yt0 := w.yt == 0
  if op == 0x50 || op == 0x51 then pm0
  else if op == 0x59 then dm0 && np0 && hd0 && pm0
  else if op == 0x5B then dm0 && np0 && (w.fn.toNat < 3 || w.ty.toNat < 8)
  else if op == 0x5A then dm0 && np0
  else if op == 0x64 || op == 0x67 || op == 0x68 then dm0
  else if op == 0x70 then np0 && hd0 && xt0 && pm0 && w.sa == 0 && (w.sb == 0 || w.sb == 3)
  else if op == 0x71 then np0 && hd0 && w.xt == 1 && w.sa == 0
  else if op == 0x72 then np0 && hd0 && w.xt == 2 && w.sa == 0
  else if op == 0x73 then xt0 && yt0 && np0 && hd0
  else if op == 0x75 || op == 0x77 || op == 0x78 then pm0 && np0 && dm0 && hd0 && xt0 && yt0
  else if 0x80 ≤ op && op < 0x88 then
    pm0 && np0 && dm0 && xt0 && yt0 && hd0 && w.sa == 0 && w.sb != 1 && w.sb != 2
      && (op != 0x83 || w.fn.toNat != 1 || w.ty.toNat < 8)
  else if 0xC0 ≤ op && op < 0xD0 then xt0 && yt0 && w.sa != 1 && w.sb != 1 && w.sc != 1
  else if 0xD0 ≤ op then xt0 && yt0 && w.sb != 1
  else true

/-- A context word that the loader's word checks accept (R63): every field holds a value that R49 to R55 and the instruction's chapter admit. -/
def CW.ok (r : Row) (w : CW) : Bool :=
  r.fn.ok w.fn && r.ty.ok w.ty && w.xt != 3 && w.yt != 3
    && r.a.ok w.sa w.imm && r.b.ok w.sb w.imm && r.c.ok w.sc w.imm && w.oneImm
    && (w.np != 2 || r.hasIdentity) && w.immOk r && w.specialOk r

/-- A sequencer word whose unused fields are zero (R64). -/
def SW.ok (r : SRow) (w : SW) : Bool :=
  (r.d || w.d == 0) && (r.a || w.a == 0) && (r.b || w.b == 0) &&
  (match r.imm with
   | .unused => w.imm == 0
   | .all => true
   | .target => true
   | .alu => if w.imm.getLsbD 43 then w.b == 0 else w.imm == 0
   | .low n => w.imm.toNat < 2 ^ n
   | .eq n => w.imm.toNat == n)

/-- An instruction whose word the loader's word checks accept; a row without a word is well formed as it stands. -/
def Instr.wf (i : Instr) : Bool :=
  match i.row with
  | some (r, w) => w.ok r
  | none =>
    match i.srow with
    | some (r, w) => w.ok r
    | none => true

/-- The row is a step with no word (see Machine/Step): it has neither a context word nor a sequencer word. -/
def Instr.isEvent (i : Instr) : Bool := i.row.isNone && i.srow.isNone

end Sys2Proof
end

