-- ==== Sys2Proof/Decode.lean ====
section
/-! DEFINITION. Decoding of context words (R48) and sequencer words (R64), rejecting by name, and the encoder. -/

namespace Sys2Proof

/-- Why a word is no instruction (R63): an unassigned opcode or SOP (CFG_OPCODE), a supervisor word in a user graph (PRIV), or a field
value that is not assigned (CFG_FIELD). -/
inductive Reject where
  | cfgOpcode | priv | cfgField
  deriving DecidableEq, Repr

/-- The fields of a context word (R48). -/
def CW.unpack (v : W64) : CW where
  fn := v.extractLsb' 52 4
  ty := v.extractLsb' 48 4
  pm := v.extractLsb' 46 2
  xc := v.extractLsb' 43 3
  yc := v.extractLsb' 40 3
  xt := v.extractLsb' 38 2
  yt := v.extractLsb' 36 2
  sa := v.extractLsb' 34 2
  sb := v.extractLsb' 32 2
  sc := v.extractLsb' 30 2
  np := v.extractLsb' 28 2
  dm := v.extractLsb' 26 2
  hd := v.extractLsb' 25 1
  tb := v.extractLsb' 24 1
  imm := v.extractLsb' 0 24

/-- A context word from its opcode and fields (R48). -/
def CW.pack (op : BitVec 8) (w : CW) : W64 :=
  op ++ w.fn ++ w.ty ++ w.pm ++ w.xc ++ w.yc ++ w.xt ++ w.yt ++ w.sa ++ w.sb ++ w.sc ++ w.np ++ w.dm ++ w.hd ++ w.tb ++ w.imm

/-- The fields of a sequencer word (R64). -/
def SW.unpack (v : W64) : SW where
  d := v.extractLsb' 52 4
  a := v.extractLsb' 48 4
  b := v.extractLsb' 44 4
  imm := v.extractLsb' 0 44

/-- A sequencer word from its SOP and fields (R64). -/
def SW.pack (sop : BitVec 8) (w : SW) : W64 :=
  sop ++ w.d ++ w.a ++ w.b ++ w.imm

/-- The element instruction of an opcode (R66, R67); none for an unassigned opcode. SHARE_REMOVE is SHARE's word: which of the two steps
a firing is, its KEY decides (R296). -/
def ofOpcode (op : Nat) (w : CW) : Option Instr :=
  match op with
  | 0x00 => some (.add w)
  | 0x01 => some (.sub w)
  | 0x02 => some (.mul w)
  | 0x03 => some (.mulh w)
  | 0x04 => some (.mad w)
  | 0x05 => some (.div w)
  | 0x06 => some (.rem w)
  | 0x07 => some (.neg w)
  | 0x08 => some (.abs w)
  | 0x09 => some (.min w)
  | 0x0A => some (.max w)
  | 0x0B => some (.and w)
  | 0x0C => some (.andn w)
  | 0x0D => some (.or w)
  | 0x0E => some (.xor w)
  | 0x0F => some (.not w)
  | 0x10 => some (.shl w)
  | 0x11 => some (.shr w)
  | 0x12 => some (.sra w)
  | 0x13 => some (.rot w)
  | 0x14 => some (.clz w)
  | 0x15 => some (.popc w)
  | 0x16 => some (.bfx w)
  | 0x17 => some (.bfi w)
  | 0x18 => some (.sel w)
  | 0x19 => some (.cmp w)
  | 0x1A => some (.mov w)
  | 0x30 => some (.fadd w)
  | 0x31 => some (.fsub w)
  | 0x32 => some (.fmul w)
  | 0x33 => some (.fma w)
  | 0x34 => some (.fms w)
  | 0x35 => some (.fnma w)
  | 0x36 => some (.fmin w)
  | 0x37 => some (.fmax w)
  | 0x38 => some (.fabs w)
  | 0x39 => some (.fneg w)
  | 0x3A => some (.fcmp w)
  | 0x3B => some (.frsq w)
  | 0x3C => some (.frcp w)
  | 0x3D => some (.fscl w)
  | 0x3E => some (.frnd w)
  | 0x3F => some (.fcls w)
  | 0x40 => some (.fcvt w)
  | 0x41 => some (.cvt w)
  | 0x42 => some (.lane w)
  | 0x43 => some (.vins w)
  | 0x44 => some (.vsum w)
  | 0x50 => some (.steer w)
  | 0x51 => some (.gate w)
  | 0x52 => some (.dup w)
  | 0x53 => some (.const w)
  | 0x54 => some (.sink w)
  | 0x55 => some (.idnt w)
  | 0x56 => some (.null w)
  | 0x57 => some (.ends w)
  | 0x58 => some (.cnt w)
  | 0x59 => some (.src w)
  | 0x5A => some (.all w)
  | 0x5B => some (.tred w)
  | 0x60 => some (.union w)
  | 0x61 => some (.isect w)
  | 0x62 => some (.minus w)
  | 0x63 => some (.scan w)
  | 0x64 => some (.consol w)
  | 0x65 => some (.rekey w)
  | 0x66 => some (.valk w)
  | 0x67 => some (.dset w)
  | 0x68 => some (.negd w)
  | 0x70 => some (.enter w)
  | 0x71 => some (.feed w)
  | 0x72 => some (.leave w)
  | 0x73 => some (.tset w)
  | 0x74 => some (.timev w)
  | 0x75 => some (.probe w)
  | 0x76 => some (.front w)
  | 0x77 => some (.capa w)
  | 0x78 => some (.capd w)
  | 0x80 => some (.hnew w)
  | 0x81 => some (.happ w)
  | 0x82 => some (.hjoin w)
  | 0x83 => some (.hred w)
  | 0x84 => some (.hseek w)
  | 0x85 => some (.hcomp w)
  | 0x86 => some (.hmrg w)
  | 0x87 => some (.hstat w)
  | 0x90 => some (.ld w)
  | 0x91 => some (.st w)
  | 0x92 => some (.std w)
  | 0x93 => some (.ldw w)
  | 0x94 => some (.take w)
  | 0x95 => some (.hoist w)
  | 0x96 => some (.armp w)
  | 0x97 => some (.strike w)
  | 0x98 => some (.tagr w)
  | 0x99 => some (.nextf w)
  | 0x9A => some (.atom w)
  | 0x9B => some (.cas w)
  | 0x9C => some (.fatom w)
  | 0x9D => some (.share w)
  | 0x9E => some (.acq w)
  | 0x9F => some (.rel w)
  | 0xB0 => some (.pnew w)
  | 0xB1 => some (.bend w)
  | 0xB2 => some (.fill w)
  | 0xB3 => some (.pwait w)
  | 0xB4 => some (.pread w)
  | 0xB5 => some (.pfind w)
  | 0xB8 => some (.phnew w)
  | 0xB9 => some (.phreg w)
  | 0xBA => some (.phdrop w)
  | 0xBB => some (.phsig w)
  | 0xBC => some (.phwait w)
  | 0xBD => some (.phnext w)
  | 0xBE => some (.phqry w)
  | 0xC0 => some (.mload w)
  | 0xC1 => some (.mswap w)
  | 0xC2 => some (.mstrm w)
  | 0xC3 => some (.mdrain w)
  | 0xC4 => some (.mclr w)
  | 0xC5 => some (.mmask w)
  | 0xC6 => some (.mstat w)
  | 0xD0 => some (.cpy w)
  | 0xD1 => some (.mcpy w)
  | 0xD2 => some (.qpost w)
  | 0xD3 => some (.gbind w)
  | 0xD4 => some (.gfree w)
  | 0xD5 => some (.bin w)
  | 0xD6 => some (.stwait w)
  | _ => none

/-- The instruction of a SOP (R65); SFLAGS and FABORT have two forms each, told apart by IMM (R96, R417). none for an unassigned SOP. -/
def ofSop (sop : Nat) (w : SW) : Option Instr :=
  match sop with
  | 0x01 => some (.sli w)
  | 0x02 => some (.sadd w)
  | 0x03 => some (.ssub w)
  | 0x04 => some (.smul w)
  | 0x05 => some (.sand w)
  | 0x06 => some (.sor w)
  | 0x07 => some (.sxor w)
  | 0x08 => some (.sshl w)
  | 0x09 => some (.sshr w)
  | 0x0A => some (.sfadd w)
  | 0x10 => some (.sld w)
  | 0x11 => some (.sst w)
  | 0x18 => some (.sbr w)
  | 0x19 => some (.sbz w)
  | 0x1A => some (.sbnz w)
  | 0x1B => some (.sblt w)
  | 0x1C => some (.scall w)
  | 0x1D => some (.sret w)
  | 0x20 => some (.cfg w)
  | 0x21 => some (.arms w)
  | 0x22 => some (.waits w)
  | 0x23 => some (.wstamp w)
  | 0x24 => some (.sqpost w)
  | 0x25 => some (.launch w)
  | 0x26 => some (.recfg w)
  | 0x27 => some (.fwait w)
  | 0x28 => some (if w.imm.toNat == 1 then .sflagsAll w else .sflags w)
  | 0x29 => some (.syield w)
  | 0x2A => some (.shalt w)
  | 0x30 => some (.svc w)
  | 0xE0 => some (.eret w)
  | 0xE1 => some (.frec w)
  | 0xE2 => some (.freplay w)
  | 0xE3 => some (if w.imm.toNat == 1 then .fabortLaunch w else .fabortRecord w)
  | 0xE4 => some (.quiesce w)
  | 0xE5 => some (.csave w)
  | 0xE6 => some (.cload w)
  | 0xE7 => some (.cswap w)
  | 0xE8 => some (.tlbinv w)
  | 0xE9 => some (.mappin w)
  | 0xEA => some (.keyld w)
  | 0xEB => some (.lkey w)
  | 0xEC => some (.deadset w)
  | 0xED => some (.deadclr w)
  | 0xEE => some (.freeze w)
  | 0xEF => some (.thaw w)
  | 0xF0 => some (.sweep w)
  | 0xF1 => some (.brkset w)
  | 0xF2 => some (.qbind w)
  | 0xF3 => some (.qunbind w)
  | _ => none

/-- Decodes a context word: the opcode is judged first, then the fields (R63). -/
def decodeCtx (v : W64) : Except Reject Instr :=
  match ofOpcode (v.extractLsb' 56 8).toNat (CW.unpack v) with
  | none => .error .cfgOpcode
  | some i => if i.wf then .ok i else .error .cfgField

/-- Decodes a sequencer word: the SOP first, then the privilege, then the fields (R63, R65). sup says that the word stands in a
supervisor graph. -/
def decodeSeq (sup : Bool) (v : W64) : Except Reject Instr :=
  match ofSop (v.extractLsb' 56 8).toNat (SW.unpack v) with
  | none => .error .cfgOpcode
  | some i =>
    if 0xE0 ≤ (v.extractLsb' 56 8).toNat && !sup then .error .priv
    else if i.wf then .ok i else .error .cfgField

/-- The word stored little-endian in eight bytes, the first at the lowest address (R2); none unless there are eight. -/
def wordOfBytes : List Byte → Option W64
  | [b0, b1, b2, b3, b4, b5, b6, b7] => some (b7 ++ b6 ++ b5 ++ b4 ++ b3 ++ b2 ++ b1 ++ b0)
  | _ => none

/-- The eight bytes of a word, little-endian (R2). -/
def bytesOfWord (v : W64) : List Byte :=
  [v.extractLsb' 0 8, v.extractLsb' 8 8, v.extractLsb' 16 8, v.extractLsb' 24 8,
   v.extractLsb' 32 8, v.extractLsb' 40 8, v.extractLsb' 48 8, v.extractLsb' 56 8]

/-- Decodes the context word at the head of a byte list and gives the rest of the list; fewer than eight bytes are no word. -/
def decodeCtxBytes (bs : List Byte) : Except Reject (Instr × List Byte) :=
  match wordOfBytes (bs.take 8) with
  | none => .error .cfgOpcode
  | some v => (decodeCtx v).map fun i => (i, bs.drop 8)

/-- Decodes the sequencer word at the head of a byte list and gives the rest of the list. -/
def decodeSeqBytes (sup : Bool) (bs : List Byte) : Except Reject (Instr × List Byte) :=
  match wordOfBytes (bs.take 8) with
  | none => .error .cfgOpcode
  | some v => (decodeSeq sup v).map fun i => (i, bs.drop 8)

/-- The word of an instruction that has one (R48, R64); a row without a word encodes as no word. -/
def encode (i : Instr) : Option W64 :=
  match i.row with
  | some (r, w) => some (CW.pack r.op w)
  | none =>
    match i.srow with
    | some (r, w) => some (SW.pack r.sop w)
    | none => none

/-- The instruction the decoder reads from a table row's bits. Context words and sequencer words are two code spaces of the same width,
and which one a word belongs to the image's record says, not the word (R60, R62): a word that is an acceptable context word is read as
one, and every other word as a sequencer word of a supervisor graph (log 8). -/
def decodeTableWord (nbits w : Nat) : Option Instr :=
  if nbits ≤ 64 && w < 2 ^ 64 then
    match decodeCtx (BitVec.ofNat 64 w) with
    | .ok i => some i
    | .error _ =>
      match decodeSeq true (BitVec.ofNat 64 w) with
      | .ok i => some i
      | .error _ => none
  else none

end Sys2Proof
end

