-- ==== Sys2Proof/Machine/Ops.lean ====
section
/-! DEFINITION. The shared operations over tables, memory, registers and edges, and taking a fault: the record, parking a set, delivery to
the catch node, freezing a region, and the replay that returns from it. -/

namespace Sys2Proof.Machine

open Sys2Proof

/-! ## Tables -/

/-- The value of a key, if the table lists it. -/
def tget {κ α : Type} [DecidableEq κ] : Tbl κ α → κ → Option α
  | [], _ => none
  | (k, v) :: t, x => if k = x then some v else tget t x

/-- The value of a key, or the default of an unlisted one. -/
def tgetD {κ α : Type} [DecidableEq κ] (t : Tbl κ α) (k : κ) (d : α) : α := (tget t k).getD d

/-- The table with a key's value replaced, or added at the end. -/
def tset {κ α : Type} [DecidableEq κ] : Tbl κ α → κ → α → Tbl κ α
  | [], x, y => [(x, y)]
  | (k, v) :: t, x, y => if k = x then (k, y) :: t else (k, v) :: tset t x y

/-- The table without a key. -/
def tdel {κ α : Type} [DecidableEq κ] (t : Tbl κ α) (k : κ) : Tbl κ α := t.filter fun p => !decide (p.1 = k)

/-- The table with a key's value changed by a function of its old value. -/
def tmod {κ α : Type} [DecidableEq κ] (t : Tbl κ α) (k : κ) (d : α) (f : α → α) : Tbl κ α := tset t k (f (tgetD t k d))

/-- The first element of a list that satisfies a test. -/
def first? {α : Type} (p : α → Bool) : List α → Option α
  | [] => none
  | a :: l => if p a then some a else first? p l

/-- The list with its element n replaced. -/
def setAt {α : Type} : List α → Nat → α → List α
  | [], _, _ => []
  | _ :: l, 0, x => x :: l
  | a :: l, n + 1, x => a :: setAt l n x

/-- The list without its first element that satisfies a test. -/
def dropFirst {α : Type} (p : α → Bool) : List α → List α
  | [] => []
  | a :: l => if p a then l else a :: dropFirst p l

/-- A number inserted into an ascending list. -/
def insNat (n : Nat) : List Nat → List Nat
  | [] => [n]
  | a :: l => if n ≤ a then n :: a :: l else a :: insNat n l

/-- The list with its first element that satisfies a test changed. -/
def mapFirst {α : Type} (p : α → Bool) (f : α → α) : List α → List α
  | [] => []
  | a :: l => if p a then f a :: l else a :: mapFirst p f l

/-- The list with every element that satisfies a test changed. -/
def mapIf {α : Type} (p : α → Bool) (f : α → α) (l : List α) : List α := l.map fun a => if p a then f a else a

/-! ## Bytes and words -/

/-- The number that bytes make, the first the least significant (R2). -/
def leNat : List Byte → Nat
  | [] => 0
  | b :: l => b.toNat + 256 * leNat l

/-- The n low bytes of a number, the least significant first (R2). -/
def leBytes : Nat → Nat → List Byte
  | 0, _ => []
  | n + 1, v => BitVec.ofNat 8 v :: leBytes n (v / 256)

/-- Bits [h:l] of a number. -/
def bits (v h l : Nat) : Nat := (v / 2 ^ l) % 2 ^ (h + 1 - l)

/-- Bit i of a number. -/
def bit (v i : Nat) : Bool := (v / 2 ^ i) % 2 == 1

/-- The two's complement integer of the low w bits of a number. -/
def sint (w v : Nat) : Int :=
  let m := v % 2 ^ w
  if w != 0 && 2 ^ (w - 1) ≤ m then (m : Int) - (2 : Int) ^ w else m

/-- The low w bits of an integer. -/
def wrap (w : Nat) (x : Int) : Nat := (x % (2 : Int) ^ w).toNat

/-- The number of significant bits of n, by halving; fuel bounds it. -/
def bitLen : Nat → Nat → Nat
  | 0, _ => 0
  | f + 1, n => if n = 0 then 0 else bitLen f (n / 2) + 1

/-- Rounds n up to a multiple of m. -/
def alignUp (n m : Nat) : Nat := (n + m - 1) / m * m

/-! ## Memory: canonical lists of cells -/

/-- A byte of memory; an unlisted address reads as zero (log 2). -/
def cellGet : List Host.Cell → Nat → Byte
  | [], _ => 0
  | (k, v) :: t, a => if k = a then v else cellGet t a

/-- Memory with one byte written: addresses stay strictly rising and no zero byte is listed. -/
def cellSet : List Host.Cell → Nat → Byte → List Host.Cell
  | [], a, b => if b = 0 then [] else [(a, b)]
  | (k, v) :: t, a, b =>
    if a < k then (if b = 0 then (k, v) :: t else (a, b) :: (k, v) :: t)
    else if a = k then (if b = 0 then t else (a, b) :: t)
    else (k, v) :: cellSet t a b

/-- Addresses above lo, strictly rising, and no zero byte. -/
def cellsFrom : Nat → List Host.Cell → Bool
  | _, [] => true
  | lo, (k, v) :: t => decide (lo ≤ k) && v != 0 && cellsFrom (k + 1) t

/-- The canonical form of memory. -/
def Memory.wf (m : List Host.Cell) : Bool := cellsFrom 0 m

/-- n bytes from an address. -/
def cellsRead (m : List Host.Cell) : Nat → Nat → List Byte
  | _, 0 => []
  | a, n + 1 => cellGet m a :: cellsRead m (a + 1) n

/-- Memory with bytes written from an address on. -/
def cellsWrite : List Host.Cell → Nat → List Byte → List Host.Cell
  | m, _, [] => m
  | m, a, b :: l => cellsWrite (cellSet m a b) (a + 1) l

/-- Memory with [lo, hi) zero. -/
def cellsZero (m : List Host.Cell) (lo hi : Nat) : List Host.Cell := m.filter fun c => c.1 < lo || hi ≤ c.1

/-- The little-endian value of n bytes of physical memory. -/
def memNat (s : State) (pa n : Nat) : Nat := leNat (cellsRead s.mem pa n)

/-- Physical memory with the n low bytes of a value written. -/
def memPut (s : State) (pa n v : Nat) : State := { s with mem := cellsWrite s.mem pa (leBytes n v) }

/-- Physical memory with bytes written. -/
def memWrite (s : State) (pa : Nat) (bs : List Byte) : State := { s with mem := cellsWrite s.mem pa bs }

/-- Bytes written as whole words, whose check bits are then fresh (R316). -/
def freshWrite (s : State) (pa : Nat) (bs : List Byte) : State :=
  { memWrite s pa bs with ecc := s.ecc.filter fun q => !(pa ≤ q.1 * 8 && q.1 * 8 < pa + bs.length) }

/-! ## Physical addresses (R12, R13, R14) -/

/-- The column holds memory cores (R6). -/
def memCol (cx : Nat) : Bool := cx % 8 == 7

/-- The core is a compute core of the wafer. -/
def isCompute (c : CoreId) : Bool := c.f < 48 && c.cx < 32 && c.cy < 24 && !memCol c.cx

/-- The core is a memory core of the wafer. -/
def isMem (c : CoreId) : Bool := c.f < 48 && c.cx < 32 && c.cy < 24 && memCol c.cx

/-- The scratchpad address of a core's byte (R12). -/
def spadPA (waf : Nat) (c : CoreId) (byte : Nat) : Nat :=
  waf * 2 ^ 48 + 1 * 2 ^ 46 + c.f * 2 ^ 40 + c.cx * 2 ^ 35 + c.cy * 2 ^ 30 + byte

/-- The SRAM address of a memory core's byte (R12). -/
def sramPA (waf : Nat) (c : CoreId) (byte : Nat) : Nat :=
  waf * 2 ^ 48 + 2 * 2 ^ 46 + c.f * 2 ^ 40 + c.cx * 2 ^ 35 + c.cy * 2 ^ 30 + byte

/-- The wafer of a physical address (R12). -/
def paWafer (pa : Nat) : Nat := bits pa 51 48

/-- What a physical address of this wafer names, none when no unit populates it (R12). -/
def decodePA (s : State) (pa : Nat) : Option Tgt :=
  let core : CoreId := ⟨bits pa 45 40, bits pa 39 35, bits pa 34 30⟩
  match bits pa 47 46 with
  | 0 =>
    let stack := bits pa 42 36
    if 96 ≤ stack then none
    else if bits pa 45 43 == 0 then some (.hbm stack (bits pa 35 0))
    else if bits pa 45 43 == 1 then
      match tget s.wins (stack, bits pa 35 30) with
      | some _ => some (.win stack (bits pa 35 30) (bits pa 29 0))
      | none => none
    else none
  | 1 => if isCompute core && bits pa 29 19 == 0 && bits pa 18 0 < 0x60000 then some (.spad core (bits pa 18 0)) else none
  | 2 => if isMem core && bits pa 29 21 == 0 then some (.sram core (bits pa 20 0)) else none
  | _ => some (.reg (bits pa 45 40) (bits pa 39 0))

/-- The field a target lies in (R13). -/
def Tgt.field : Tgt → Nat
  | .hbm st _ => st / 2
  | .win st _ _ => st / 2
  | .spad c _ => c.f
  | .sram c _ => c.f
  | .reg f _ => f

/-- The unit whose register block holds an offset of a field's register space (R110, R302, R307, R313, R341). -/
def regUnit (f off : Nat) : UnitId :=
  if f = 63 then .link
  else if off < 0x4000000 then .core ⟨f, off / 0x200000, off / 0x10000 % 32⟩
  else if 0x5000000 ≤ off && off < 0x5100000 then .ic f ((off - 0x5000000) / 0x10000)
  else if 0x6000000 ≤ off && off < 0x6040000 then .si f ((off - 0x6000000) / 0x10000)
  else .seqr f

/-- The unit that homes a target (R13, R15, R302). -/
def Tgt.home : Tgt → UnitId
  | .hbm st off => .ic (st / 2) (st % 2 * 8 + bits off 11 9)
  | .win st _ off => .ic (st / 2) (st % 2 * 8 + bits off 11 9)
  | .spad c _ => .core c
  | .sram c _ => .core c
  | .reg f off => regUnit f off

/-! ## Counters, partitions, contexts -/

/-- A unit's cycle counter (R20). -/
def ctr (s : State) (u : UnitId) : W64 := tgetD s.ctrs u 0

/-- The partition that owns a field. -/
def partOfField (s : State) (f : Nat) : Option Nat :=
  (first? (fun p => p.2.fields.contains f) s.parts).map Prod.fst

/-- The partition that owns a context: partition p owns contexts 32(p mod 16) on (R424). -/
def partOfCtx (s : State) (c : Nat) : Option Nat :=
  (first? (fun p => p.1 % 16 == c / 32) s.parts).map Prod.fst

/-- The lowest of a list of numbers, and n if there is none below it. -/
def lowest : Nat → List Nat → Nat
  | n, [] => n
  | n, a :: l => lowest (if a < n then a else n) l

/-- A partition's home field (R399). -/
def homeField (s : State) (p : Nat) : Nat :=
  match tget s.parts p with
  | some q => lowest 48 q.fields
  | none => 48

/-- The registers of R416 at a field's reset values. -/
def SupR.reset : SupR where
  frbase := 0
  frlog2 := 12
  frwr := 0
  frrd := 0
  ctxbase := 0
  hangiv := 20
  hrep := 0
  trbase := 0
  trlost := 0
  trpos := 0

/-- The supervisor registers of a field (R416). -/
def supr (s : State) (f : Nat) : SupR := tgetD s.supr f SupR.reset

/-- CTXSTAT of a partition (R416). -/
def ctxStat (s : State) (p : Nat) : CtxSt := tgetD s.ctxs p ⟨0, none, none, none⟩

/-- The context is live in its partition. -/
def ctxLive (s : State) (c : Nat) : Bool :=
  match partOfCtx s c with
  | some p => (ctxStat s p).live == some c
  | none => false

/-- The context whose execution state stands in x for a field: the live one, or within a step the one whose copy has been exchanged for it. -/
def ctxHere (s : State) (f : Nat) : Option Nat :=
  (partOfField s f).bind fun p => match s.swapped with
    | some c => if partOfCtx s c == some p then some c else (ctxStat s p).live
    | none => (ctxStat s p).live

/-- A launch on this wafer. -/
def launch? (s : State) (lid : Nat) : Option Launch := tget s.launches lid

/-- The state with a launch changed. -/
def modLaunch (s : State) (lid : Nat) (f : Launch → Launch) : State :=
  match tget s.launches lid with
  | some l => { s with launches := tset s.launches lid (f l) }
  | none => s

/-! ## Nodes and registers of a slot -/

/-- The node of a slot. -/
def node? (s : State) (sl : Slot) : Option Node := tget s.x.nodes sl

/-- The hold register of a slot (R108). -/
def holdOf (s : State) (sl : Slot) : W64 := tgetD s.x.hold sl 0

/-- The sticky flags of a context (R109). -/
def flagsOf (s : State) (sl : Slot) : BitVec 5 := tgetD s.x.flags sl 0

/-- ORs raised flags into a context (R109). -/
def orFlags (s : State) (sl : Slot) (fl : BitVec 5) : State :=
  if fl = 0 then s else { s with x := { s.x with flags := tset s.x.flags sl (flagsOf s sl ||| fl) } }

/-- ORs the flags of an engine or of FATOM into the flag word of the issuing launch in the issuing field (R143, R144, R192). -/
def orWord (s : State) (lid f : Nat) (fl : BitVec 5) : State :=
  if fl = 0 then s else { s with x := { s.x with flagw := tset s.x.flagw (lid, f) (tgetD s.x.flagw (lid, f) 0 ||| fl) } }

/-- The parked sets of a slot, oldest first (R125). -/
def parkedOf (s : State) (sl : Slot) : List Parked := tgetD s.x.park sl []

/-- The NODE layout of a slot (R128): KEY without its code. -/
def nodeKey (sl : Slot) : Nat :=
  sl.e * 2 ^ 8 + sl.k * 2 ^ 13 + sl.core.cx * 2 ^ 16 + sl.core.cy * 2 ^ 21 + sl.core.f * 2 ^ 26

/-- The NODE of a fault's record: the whole of R128's KEY, with the fault's code (R401). -/
def nodeWord (sl : Slot) (code : Nat) : BitVec 32 := BitVec.ofNat 32 (nodeKey sl + code)

/-- The slot that a NODE word names (R128). -/
def keySlot (k : Nat) : Slot := ⟨⟨bits k 31 26, bits k 20 16, bits k 25 21⟩, bits k 12 8, bits k 15 13⟩

/-- The time word of a time (R203). -/
def timeWord (t : Time) : W64 := t.batch ++ t.round

/-- The time of a time word (R203). -/
def timeOf (v : W64) : Time := ⟨v.extractLsb' 32 32, v.extractLsb' 0 32⟩

/-- The product order of times (R5). -/
def tle (t u : Time) : Bool := t.batch.toNat ≤ u.batch.toNat && t.round.toNat ≤ u.round.toNat

/-- The join of two times (R5). -/
def tjoin (t u : Time) : Time :=
  ⟨if t.batch.toNat ≤ u.batch.toNat then u.batch else t.batch, if t.round.toNat ≤ u.round.toNat then u.round else t.round⟩

/-- The meet of two times (R5). -/
def tmeet (t u : Time) : Time :=
  ⟨if t.batch.toNat ≤ u.batch.toNat then t.batch else u.batch, if t.round.toNat ≤ u.round.toNat then t.round else u.round⟩

/-- Time (0,0). -/
def t00 : Time := ⟨0, 0⟩

/-- A time action (R49); none where a round would pass 2^32 - 1 (R205). -/
def act (xt : BitVec 2) (t : Time) : Option Time :=
  if xt = 1 then (if t.round.toNat = 2 ^ 32 - 1 then none else some ⟨t.batch, t.round + 1⟩)
  else if xt = 2 then some ⟨t.batch, 0⟩
  else some t

/-! ## Circuits (R56, R57) -/

/-- The kind of a routing word (R56). -/
def rKind (w : W32) : Nat := bits w.toNat 31 30

/-- The routing words of a core. -/
def routesOf (s : State) (c : CoreId) : List W32 := (tgetD s.x.routes c []).map Prod.snd

/-- The core L cores away on a side: 0 north, 1 east, 2 south, 3 west; none past the wafer's edge (R57). -/
def coreAway (c : CoreId) (side len : Nat) : Option CoreId :=
  let gx := c.f % 8 * 32 + c.cx
  let gy := c.f / 8 * 24 + c.cy
  let r : Option (Nat × Nat) :=
    match side with
    | 0 => if len ≤ gy then some (gx, gy - len) else none
    | 1 => if gx + len < 256 then some (gx + len, gy) else none
    | 2 => if gy + len < 144 then some (gx, gy + len) else none
    | _ => if len ≤ gx then some (gx - len, gy) else none
  r.map fun p => ⟨p.2 / 24 * 8 + p.1 / 32, p.1 % 32, p.2 % 24⟩

/-- The length of a segment class (R56). -/
def segLen (cls : Nat) : Nat := if cls == 0 then 1 else if cls == 1 then 4 else 16

/-- The input ports that a line (cls = 3, t = line) or an arriving segment (side, cls, t) of a core reaches. -/
def reach (s : State) : Nat → CoreId → Nat → Nat → Nat → List InPort
  | 0, _, _, _, _ => []
  | fuel + 1, c, side, cls, t =>
    let ws := routesOf s c
    let ports := if cls == 3 then
      ws.filterMap fun w =>
        let v := w.toNat
        if rKind w == 1 && bits v 24 22 < 4 && bits v 21 17 == t then some ⟨c, bits v 29 25, bits v 24 22⟩ else none
      else []
    ports ++ ws.flatMap fun w =>
      let v := w.toNat
      if rKind w == 2 && bits v 27 26 == cls && bits v 25 21 == t && (cls == 3 || bits v 29 28 == side) then
        if bits v 18 17 == 3 then reach s fuel c 0 3 (bits v 16 12)
        else match coreAway c (bits v 20 19) (segLen (bits v 18 17)) with
          | some d => reach s fuel d ((bits v 20 19 + 2) % 4) (bits v 18 17) (bits v 16 12)
          | none => []
      else []

/-- How many switch boxes a circuit is followed through: the 32 lines and the 4 · 3 · 32 arriving segments of each of 36,864 cores, none of
which a circuit enters twice where each has one driver (R58). DESIGN CHOICE (log 131): where two switch boxes drive one line, which R58 does not
refuse, an input that a circuit reaches by two paths is listed once for each, and a loop is followed so far and no further. -/
def routeFuel : Nat := 36864 * 416

/-- The binding word of an element's port: line and depth (R56). -/
def binding (s : State) (c : CoreId) (e port : Nat) : Option (Nat × Nat) :=
  (first? (fun w : W32 => rKind w == 1 && bits w.toNat 29 25 == e && bits w.toNat 24 22 == port) (routesOf s c)).map
    fun w => (bits w.toNat 21 17, bits w.toNat 16 11 + 1)

/-- The cut edge of an output that leaves this wafer (R62), of a launch whose context stands in x. -/
def cutOf (s : State) (g : EdgeId) : Option Cut :=
  s.launches.findSome? fun p =>
    if ctxHere s g.core.f == some p.2.ctx then first? (fun c => c.pw == s.wafno && c.src == g) p.2.cuts else none

/-- The depth of an output's edge buffer, none for an unbound output (R119). -/
def depthOf (s : State) (g : EdgeId) : Option Nat :=
  match binding s g.core g.e g.port with
  | some (_, d) => some d
  | none => (cutOf s g).map Cut.depth

/-- The inputs that an output's circuit reaches. A cut edge's one target stands on the other wafer. -/
def targets (s : State) (g : EdgeId) : List InPort :=
  match binding s g.core g.e g.port with
  | some (l, _) => reach s routeFuel g.core 0 3 l
  | none => match cutOf s g with
    | some c => [c.dst]
    | none => []

/-- The stages of the receiving ports of a token (R211, R212). -/
def targetStages (s : State) (g : EdgeId) (ctx : Nat) : List Nat :=
  match binding s g.core g.e g.port with
  | some (l, _) => (reach s routeFuel g.core 0 3 l).filterMap fun p => (node? s ⟨p.core, p.e, ctx⟩).map Node.stage
  | none => match cutOf s g with
    | some c => (tget c.stages ctx).toList
    | none => []

/-! ## Edge buffers (R116, R119) -/

/-- The contents of an edge buffer. -/
def edgeOf (s : State) (g : EdgeId) : EdgeSt := tgetD s.x.edges g ⟨[], []⟩

/-- The state with an edge buffer replaced. -/
def setEdge (s : State) (g : EdgeId) (b : EdgeSt) : State := { s with x := { s.x with edges := tset s.x.edges g b } }

/-- Room on an output for n tokens of one firing (R116): an unbound output takes any number (R33), and a firing that puts out more tokens
than the edge is deep finds room in the empty buffer (log 18). -/
def roomFor (s : State) (g : EdgeId) (n : Nat) : Bool :=
  match depthOf s g with
  | none => true
  | some d => n == 0 || (edgeOf s g).buf.length + (edgeOf s g).wait.length + (if n ≤ d then n else d) ≤ d

/-- The token as an edge buffer holds it, with every input of the circuit still to accept it. -/
def bufTok (s : State) (g : EdgeId) (t : Token) : BufTok := ⟨t, targets s g, []⟩

/-- Puts a token of node k into an output's edge buffer, behind the awaited answers of its node and identity; an unbound output discards
it (R33, R434). -/
def putTok (s : State) (sl : Slot) (port : Nat) (t : Token) : State :=
  let g : EdgeId := ⟨sl.core, sl.e, port⟩
  if (targets s g).isEmpty then s
  else
    let b := edgeOf s g
    if b.wait.any fun h => h.k == sl.k && h.time == t.time && h.seq == t.seq
    then setEdge s g { b with wait := b.wait ++ [⟨sl.k, t.time, t.seq, 0, some t⟩] }
    else setEdge s g { b with buf := b.buf ++ [bufTok s g t] }

/-- Puts tokens into an output's edge buffer in order. -/
def putToks (s : State) (sl : Slot) (port : Nat) : List Token → State
  | [] => s
  | t :: l => putToks (putTok s sl port t) sl port l

/-- Reserves a buffer on a bound output for the answer of a request (R116, R189). -/
def reserve (s : State) (sl : Slot) (port rid : Nat) (time : Time) (seq : BitVec 24) : State :=
  let g : EdgeId := ⟨sl.core, sl.e, port⟩
  if (targets s g).isEmpty then s
  else setEdge s g { edgeOf s g with wait := (edgeOf s g).wait ++ [⟨sl.k, time, seq, rid, none⟩] }

/-- The tokens that no longer stand behind an awaited answer, and the buffers that still wait. -/
def unblock : List Behind → List Behind → List Token × List Behind
  | kept, [] => ([], kept)
  | kept, h :: l =>
    match h.tok with
    | some t =>
      if kept.any fun j => j.k == h.k && j.time == h.time && j.seq == h.seq then unblock (kept ++ [h]) l
      else let r := unblock kept l; (t :: r.1, r.2)
    | none => unblock (kept ++ [h]) l

/-- Fills the buffer that a request reserved with its tokens, or gives it back when there is none, and lets the tokens behind it follow. -/
def settle (s : State) (sl : Slot) (port rid : Nat) (toks : List Token) : State :=
  let g : EdgeId := ⟨sl.core, sl.e, port⟩
  if (targets s g).isEmpty then s
  else
    let b := edgeOf s g
    let w := b.wait.flatMap fun h =>
      if h.tok.isNone && h.rid == rid then toks.map fun t => { h with tok := some t } else [h]
    let r := unblock [] w
    setEdge s g ⟨b.buf ++ r.1.map (bufTok s g), r.2⟩

/-! ## The matching store (R112, R113) -/

/-- The matching-store entries of a core. -/
def mstoreOf (s : State) (c : CoreId) : List MEntry := tgetD s.x.mstore c []

/-- The state with a core's matching-store entries replaced. -/
def setMstore (s : State) (c : CoreId) (l : List MEntry) : State := { s with x := { s.x with mstore := tset s.x.mstore c l } }

/-- The waiting operands of an entry as a set. -/
def entrySet (m : MEntry) : OpSet := ⟨m.id, m.a, m.b, m.c, m.p, 0, []⟩

/-! ## Issue queues (R117, R118) -/

/-- The issue queue of an element. -/
def iqOf (s : State) (c : CoreId) (e : Nat) : List QSet := tgetD s.x.iq (c, e) []

/-- The state with an element's issue queue replaced. -/
def setIq (s : State) (c : CoreId) (e : Nat) (q : List QSet) : State := { s with x := { s.x with iq := tset s.x.iq (c, e) q } }

/-- The places of an element's issue queue in use; a replayed set issues from its park register and takes none (R117, R125). -/
def queuedIn (s : State) (c : CoreId) (e : Nat) : Nat := (iqOf s c e).countP fun q => !q.replay

/-- A set enters an issue queue: of sets that enter in one clk the lower context goes first, then the one completed on port A, B, C, P
(R118). -/
def enter (x : QSet) : List QSet → List QSet
  | [] => [x]
  | y :: l =>
    if y.clk == x.clk && !y.replay && (x.set.id.k < y.set.id.k || (x.set.id.k == y.set.id.k && x.set.port < y.set.port)) then x :: y :: l
    else y :: enter x l

/-- A set as it enters its element's queue now. -/
def newSet (s : State) (c : CoreId) (o : OpSet) : QSet := ⟨o, false, false, ctr s (.core c)⟩

/-- A set that was kept back enters an issue queue: of sets that enter in one clk the lower context goes first, and those of one context keep
their order (R118, R125). -/
def enterKept (x : QSet) : List QSet → List QSet
  | [] => [x]
  | y :: l => if y.clk == x.clk && !y.replay && x.set.id.k < y.set.id.k then x :: y :: l else y :: enterKept x l

/-- A kept set as it enters its element's queue now. -/
def keptSet (s : State) (c : CoreId) (o : OpSet) : QSet := newSet s c { o with port := 0 }

/-- Removes the set at the head of an element's issue queue. -/
def popIq (s : State) (sl : Slot) : State := setIq s sl.core sl.e (iqOf s sl.core sl.e).tail

/-! ## Count tables (R212, R213) -/

/-- A fresh identifier of the model. -/
def fresh (s : State) : Nat × State := (s.serial, { s with serial := s.serial + 1 })

/-- The router of a core (R307). -/
def coreRouter (c : CoreId) : Router := ⟨c.f % 8 * 32 + c.cx, c.f / 8 * 24 + c.cy⟩

/-- Adds an item to a list of net counts; an item that comes to zero is dropped. -/
def addItem : List CountItem → CountItem → List CountItem
  | [], i => if i.n = 0 then [] else [i]
  | j :: l, i =>
    if j.stage = i.stage ∧ j.time = i.time then (if j.n + i.n = 0 then l else { j with n := j.n + i.n } :: l) else j :: addItem l i

/-- Adds items one by one. -/
def addItems : List CountItem → List CountItem → List CountItem
  | l, [] => l
  | l, i :: is => addItems (addItem l i) is

/-- The items of one launch in a count table. -/
def ctItems (t : List CEntry) (lid : Nat) : List CountItem := t.filterMap fun e => if e.lid == lid then some e.item else none

/-- The count table of a core. -/
def ctabOf (s : State) (c : CoreId) : List CEntry := tgetD s.x.ctab c []

/-- The launches that a count table names, each once. -/
def ctLids : List CEntry → List Nat
  | [] => []
  | e :: l => if (ctLids l).contains e.lid then ctLids l else e.lid :: ctLids l

/-- The router at which a unit injects and ejects (R307). -/
def unitRouter : UnitId → Router
  | .core c => coreRouter c
  | .ic f n => coreRouter ⟨f, if n < 8 then 0 else 31, 3 * (n % 8) + 1⟩
  | .seqr f => coreRouter ⟨f, 15, 11⟩
  | .ftrk f => coreRouter ⟨f, 15, 11⟩
  | .si f n => coreRouter ⟨f, if n < 2 then 0 else 31, if n % 2 == 0 then 5 else 17⟩
  | .mi f n => coreRouter ⟨f, 8 * (n % 4) + 3, if n < 4 then 0 else 23⟩
  | .wtrk => ⟨128, 72⟩
  | .link => ⟨128, 72⟩
  | .mgmt => ⟨128, 72⟩
  | .port p => let e := p / 16; let j := p % 16
    if e == 0 then ⟨16 * j + 5, 0⟩ else if e == 1 then ⟨255, 9 * j + 4⟩ else if e == 2 then ⟨16 * j + 5, 143⟩ else ⟨0, 9 * j + 4⟩

/-! ## The span (R322 to R324) -/

/-- The port by which traffic for a unit at a router of wafer dw leaves wafer w: in wafer X first, then in wafer Y; none on that wafer. -/
def exitPort (w dw : Nat) (d : Router) : Option Nat :=
  if w % 4 < dw % 4 then some (16 + d.gy / 9)
  else if dw % 4 < w % 4 then some (48 + d.gy / 9)
  else if w / 4 < dw / 4 then some (32 + d.gx / 16)
  else if dw / 4 < w / 4 then some (d.gx / 16)
  else none

/-- The port of the neighbouring wafer to which a port links (R323). -/
def linkedPort (p : Nat) : Nat := (p / 16 + 2) % 4 * 16 + p % 16

/-- The neighbouring wafer to which a port leads (R323). -/
def nextWafer (w p : Nat) : Nat :=
  match p / 16 with
  | 0 => w - 4
  | 1 => w + 1
  | 2 => w + 4
  | _ => w - 1

/-- The wafers that a path leaves, each with the port it leaves by; fuel bounds the crossings, of which there are at most six. -/
def hopsFrom (dw : Nat) (d : Router) : Nat → Nat → List (Nat × Nat)
  | 0, _ => []
  | k + 1, w => match exitPort w dw d with
    | some p => (w, p) :: hopsFrom dw d k (nextWafer w p)
    | none => []

/-- The path of a cut edge. -/
def Cut.hops (c : Cut) : List (Nat × Nat) := hopsFrom c.cw (coreRouter c.dst.core) 7 c.pw

/-- The port by which a cut edge leaves a wafer on its path. -/
def Cut.outPort (c : Cut) (w : Nat) : Option Nat := tget c.hops w

/-- The port by which a cut edge enters a wafer on its path. -/
def Cut.inPort (c : Cut) (w : Nat) : Option Nat := c.hops.findSome? fun h => if nextWafer h.1 h.2 == w then some (linkedPort h.2) else none

/-- The wafers between a cut edge's ends. -/
def Cut.between (c : Cut) : List Nat := ((c.hops.map Prod.fst).drop 1)

/-- The beats of a packet (R311). -/
def beatsOf (payload : Nat) : Nat := (32 + payload + 127) / 128

/-- A packet as its source hands it to its output. -/
def newPkt (s : State) (id : Nat) (u : UnitId) (cls : Nat) (to_ : UnitId) (dstW payload : Nat) (m : Msg) : Packet :=
  ⟨id, id, cls, u, s.wafno, to_, dstW, unitRouter u, false, false, 0, 0, beatsOf payload, m⟩

/-- Sends a packet from a unit toward a unit of a wafer. -/
def sendPkt (s : State) (u : UnitId) (cls : Nat) (to_ : UnitId) (dstW payload : Nat) (m : Msg) : State :=
  let (i, s) := fresh s
  { s with net := s.net ++ [newPkt s i u cls to_ dstW payload m] }

/-- The state without a packet. -/
def dropPkt (s : State) (id : Nat) : State := { s with net := s.net.filter fun p => p.id != id }

/-- A packet by its identifier. -/
def pkt? (s : State) (id : Nat) : Option Packet := first? (fun p => p.id == id) s.net

/-- Two packets of one flow: from one source to one destination on one network, in the order in which they were sent (R309). -/
def sameFlow (p q : Packet) : Bool := q.cls == p.cls && q.unit == p.unit && q.srcW == p.srcW && q.to_ == p.to_ && q.dstW == p.dstW

/-- The packet has left its last router for its destination on this wafer. -/
def isHere (s : State) (p : Packet) : Bool := p.inj && p.out && p.dstW == s.wafno

/-- The packet has arrived, and is the first of its flow (R309). -/
def arrived (s : State) (p : Packet) : Bool := isHere s p && (first? (sameFlow p) s.net).map Packet.id == some p.id

/-- A traffic budget at reset (R313). -/
def Budget.reset : Budget where
  period := 1024
  bud := 0x0100018001000080#64
  nperiod := none
  nbud := none
  used := [0, 0, 0, 0]
  since := 0
  corr := 0
  hopr := 0
  turn := []

/-- The traffic budget of a unit. -/
def budgetOf (s : State) (u : UnitId) : Budget := tgetD s.budgets u Budget.reset

/-- The unit limits what it injects (R312). -/
def hasBudget : UnitId → Bool
  | .core _ => true
  | .ic .. => true
  | _ => false

/-- BUDc of MBUD: beats per period of a class, 0 for no limit (R312, R313). -/
def budOf (b : Budget) (cls : Nat) : Nat := bits b.bud.toNat (16 * cls + 15) (16 * cls)

/-- A unit may inject on a class in its current period (R312). -/
def underBudget (s : State) (u : UnitId) (cls : Nat) : Bool :=
  !hasBudget u || (let b := budgetOf s u; budOf b cls == 0 || (b.used[cls]?).getD 0 < budOf b cls)

/-- Beats that a unit injects on a class, counted in its current period; a count stays within its 16 bits (R312, R313). -/
def spend (s : State) (u : UnitId) (cls beats : Nat) : State :=
  if hasBudget u then
    let b := budgetOf s u
    { s with budgets := tset s.budgets u { b with used := setAt b.used cls (min ((b.used[cls]?).getD 0 + beats) 65535) } }
  else s

/-- Sends a core's whole count table to its field tracker, one message on class 0 for each launch, and clears it (R213, R308). -/
def flushCounts (s : State) (c : CoreId) : State :=
  let t := ctabOf s c
  let s := (ctLids t).foldl (fun s lid =>
    let is := ctItems t lid
    sendPkt s (.core c) 0 (.ftrk c.f) s.wafno (16 * is.length) (.counts lid c is)) s
  { s with x := { s.x with ctab := tset s.x.ctab c [] } }

/-- A table with a launch's items replaced. -/
def ctPut (t : List CEntry) (lid : Nat) (is : List CountItem) : List CEntry :=
  (t.filter fun e => e.lid != lid) ++ is.map fun i => ⟨lid, i⟩

/-- Records the items of one firing as one unit, sending the table before it where they do not fit or a count would reach 2^30, and after
it when asked (R213), or where the context is not live, so that the table of a context in the shadow is empty (R224). -/
def record (s : State) (c : CoreId) (lid : Nat) (is : List CountItem) (after : Bool) : State :=
  let t := ctabOf s c
  let n := addItems (ctItems t lid) is
  let fits := (ctPut t lid n).length ≤ 64 && n.all fun i => i.n.natAbs < 2 ^ 30
  let s := if fits then s else flushCounts s c
  let t := ctabOf s c
  let s := { s with x := { s.x with ctab := tset s.x.ctab c (ctPut t lid (addItems (ctItems t lid) is)) } }
  if after || s.swapped.isSome then flushCounts s c else s

/-- The consumption of a set: -1 at the node's stage for each token that arrived on a port (R212). -/
def consumed (n : Node) (o : OpSet) : List CountItem :=
  let k : Int := ([o.a, o.b, o.c, o.p].filter Option.isSome).length + o.bs.length
  if k = 0 then [] else [⟨n.stage, o.id.time, -k⟩]

/-- The production of a token: +1 at the stage of each receiving port (R212). -/
def produced (s : State) (sl : Slot) (port : Nat) (t : Token) : List CountItem :=
  (targetStages s ⟨sl.core, sl.e, port⟩ t.ctx.toNat).map fun st => ⟨st, t.time, 1⟩

/-! ## Progress, tracing -/

/-- Notes progress in a region (R406). -/
def progress (s : State) (f lid : Nat) : State :=
  match partOfField s f with
  | some p => { s with prog := tset s.prog (f, lid) (ctr s (.seqr (homeField s p))) }
  | none => s

/-- Where the next trace record of a field's partition goes: none without a partition, without a ring or while the ring is full (R409). -/
def traceSlot (s : State) (f : Nat) : Option Nat :=
  match partOfField s f with
  | none => none
  | some p =>
    let r := supr s (homeField s p)
    if r.trpos + 32 ≤ bits r.trbase.toNat 15 0 * 2 ^ 16 then some (bits r.trbase.toNat 51 16 * 2 ^ 16 + r.trpos) else none

/-- The 32 bytes of a trace record (R409): NODE, counter, time word, the set's SEQ and CTX, and X's VAL. -/
def traceBytes (s : State) (sl : Slot) (o : OpSet) (xval : W64) : List Byte :=
  leBytes 4 (nodeKey sl) ++ leBytes 8 (ctr s (.core sl.core)).toNat ++ leBytes 8 (timeWord o.id.time).toNat ++ leBytes 3 o.id.seq.toNat
    ++ leBytes 1 o.id.k ++ leBytes 8 xval.toNat

/-- Writes a trace record of a firing (R409); a full ring drops it and counts it. -/
def trace (s : State) (sl : Slot) (o : OpSet) (xval : W64) : State :=
  match partOfField s sl.core.f with
  | none => s
  | some p =>
    let h := homeField s p
    let r := supr s h
    if bits r.trbase.toNat 15 0 = 0 then s
    else match traceSlot s sl.core.f with
      | some a => { freshWrite s a (traceBytes s sl o xval) with supr := tset s.supr h { r with trpos := r.trpos + 32 } }
      | none => { s with supr := tset s.supr h { r with trlost := if r.trlost = 0xFFFFFFFF#32 then r.trlost else r.trlost + 1 } }

/-! ## Frozen regions (R405) -/

/-- The region of a launch in a field is frozen. -/
def isFrozen (s : State) (f lid : Nat) : Bool :=
  s.frozen.any fun z => z.f == f && z.lid == lid && z.left.isNone

/-- Freezes a region; byUser says by BREAK or FREEZE (R418). -/
def freeze (s : State) (f lid : Nat) (byUser : Bool) : State :=
  let mine (z : Frozen) : Bool := z.f == f && z.lid == lid
  { s with frozen := (s.frozen.filter fun z => !mine z) ++ [⟨f, lid, byUser, none, (first? mine s.frozen).bind Frozen.hurt⟩] }

/-- Counts an issue in a region that THAW released for a number of issues, and freezes it again after the last (R417). -/
def countIssue (s : State) (f lid : Nat) : State :=
  { s with frozen := s.frozen.map fun z =>
      if z.f == f && z.lid == lid then
        match z.left with
        | some n => { z with left := if n ≤ 1 then none else some (n - 1) }
        | none => z
      else z }

/-! ## Taking a fault -/

/-- A unit holds a record that has not been written, so that it does nothing that could raise another (R403). -/
def unitHolds (s : State) (u : UnitId) : Bool := s.recQ.any fun r => r.unit == u


/-- The fault codes of the manual's tables. -/
def Code.cfgOpcode : Nat := 0x01
def Code.cfgField : Nat := 0x02
def Code.cfgRoute : Nat := 0x03
def Code.cfgPool : Nat := 0x04
def Code.launchRange : Nat := 0x08
def Code.queueFormat : Nat := 0x09
def Code.queuePacket : Nat := 0x0A
def Code.xlat : Nat := 0x10
def Code.prot : Nat := 0x11
def Code.align : Nat := 0x12
def Code.atomicTarget : Nat := 0x13
def Code.paneState : Nat := 0x14
def Code.paneOwner : Nat := 0x15
def Code.waiterPool : Nat := 0x16
def Code.foul : Nat := 0x18
def Code.cellFormat : Nat := 0x19
def Code.phaserState : Nat := 0x1A
def Code.shareFull : Nat := 0x1B
def Code.lockState : Nat := 0x1C
def Code.difOverflow : Nat := 0x20
def Code.timeOverflow : Nat := 0x21
def Code.timeCap : Nat := 0x22
def Code.histFull : Nat := 0x23
def Code.histOrder : Nat := 0x24
def Code.nullOperand : Nat := 0x25
def Code.seqRange : Nat := 0x26
def Code.histHandle : Nat := 0x27
def Code.decodeLength : Nat := 0x28
def Code.window : Nat := 0x29
def Code.matrixFormat : Nat := 0x2A
def Code.descFormat : Nat := 0x2B
def Code.matrixOrder : Nat := 0x2C
def Code.peerDead : Nat := 0x30
def Code.linkKey : Nat := 0x31
def Code.linkDown : Nat := 0x32
def Code.rekeyDue : Nat := 0x33
def Code.parityHard : Nat := 0x38
def Code.eccUncorr : Nat := 0x39
def Code.hang : Nat := 0x40
def Code.matchOverflow : Nat := 0x41
def Code.priv : Nat := 0x48
def Code.break_ : Nat := 0x49

/-- The faults that a catch node receives (R126). -/
def catchable (code : Nat) : Bool := code ∈ [Code.foul, Code.paneState, Code.peerDead, Code.decodeLength]

/-- A record with the fields that most faults leave at zero. -/
def recBase (u : UnitId) (code kind cls ctx f lid : Nat) : FRec where
  rid := 0
  part := 0
  unit := u
  code := code
  kind := kind
  cls := cls
  ctx := ctx
  field := f
  node := 0
  unitw := 0
  lid := lid
  addr := 0
  time := t00
  seq := 0
  aux := 0
  trunc := false
  act := .none_

/-- UNIT of a record (R401). -/
def unitWord : UnitId → Nat
  | .core c => (if memCol c.cx then 4 else 0) * 4096 + c.cx * 24 + c.cy
  | .ic _ n => 3 * 4096 + n
  | .seqr _ => 6 * 4096
  | .si _ n => 1 * 4096 + n
  | .mi _ n => 2 * 4096 + n
  | .ftrk _ => 7 * 4096
  | .wtrk => 7 * 4096 + 1
  | .link => 5 * 4096    -- the manual names no kind for it (log 117)
  | .port p => 5 * 4096 + p
  | .mgmt => 6 * 4096

/-- Whether a breakpoint of the partition is set on a target (R408, R417). -/
def brkHit (s : State) (p kind tgt : Nat) (t : Time) (seq : BitVec 24) : Bool :=
  s.brks.any fun b => b.1.1 == p && b.2.kind == kind && b.2.tgt.toNat == tgt
    && (match b.2.mtime with | none => true | some u => u == t)
    && (match b.2.mseq with | none => true | some q => q == seq)

/-- Hands a record to its unit, which holds it until the ring has room (R403). The record carries the identifier that was fresh; what
belongs to no partition leaves none (R401). -/
def report (s : State) (r : FRec) : Nat × State :=
  let (i, s) := fresh s
  match (partOfField s r.field).orElse fun _ => partOfCtx s r.ctx with
  | none => (i, s)
  | some p => (i, { s with recQ := s.recQ ++ [{ r with rid := i, part := p, unitw := BitVec.ofNat 16 (unitWord r.unit) }] })

/-- Freezes the region of a launch with BREAK and a record of KIND 2 where a breakpoint of the kind stands on the target (R408); sl is the
NODE word of the node concerned, 0 for none. -/
def breakAt (s : State) (u : UnitId) (kind tgt f lid ctx : Nat) (sl : Nat) (t : Time) (seq : BitVec 24) : State :=
  match partOfField s f with
  | none => s
  | some p =>
    if brkHit s p kind tgt t seq then
      let w := if sl = 0 then 0 else sl / 256 * 256 + Code.break_
      (report (freeze s f lid true) { recBase u Code.break_ 2 1 ctx f lid with node := BitVec.ofNat 32 w, time := t, seq := seq }).2
    else s

/-- Reports a fault and then freezes the launch's region where a breakpoint stands on its code (R408). -/
def reportFault (s : State) (r : FRec) : Nat × State :=
  let (i, s) := report s r
  (i, breakAt s r.unit 5 r.code r.field r.lid r.ctx r.node.toNat r.time r.seq)

/-- The launch's catch node, when this node's fault goes there: not for the catch node itself (R126, R129). -/
def catchFor (s : State) (lid : Nat) (sl : Slot) (code : Nat) : Option (Nat × Slot) :=
  if catchable code then
    match launch? s lid with
    | some l => match l.catch_ with
      | some c => if c == (s.wafno, sl) then none else some c
      | none => none
    | none => none
  else none

/-- Whether a fault that goes to the catch node has to wait at its firing (R129): 64 fault tokens are queued. -/
def catchFull (s : State) (lid : Nat) : Bool :=
  match launch? s lid with
  | some l => 64 ≤ l.catchQ.length
  | none => false

/-- The fault token of R128. -/
def faultToken (sl : Slot) (ctx : Nat) (o : OpSet) (code addr : Nat) : Token where
  val := BitVec.ofNat 64 addr
  key := BitVec.ofNat 32 (nodeKey sl + code)
  dif := 1
  time := o.id.time
  seq := o.id.seq
  ctx := BitVec.ofNat 3 ctx
  nul := false
  fin := false
  kv := true

/-- Queues a fault token for the launch's catch node, counted at that node's stage in the same unit as the firing's items (R128, R212); it
travels on class 0 (R129, R308), one to another wafer from the link. -/
def toCatch (s : State) (lid : Nat) (c : Nat × Slot) (sl : Slot) (o : OpSet) (code addr : Nat) : State × List CountItem :=
  let t := faultToken sl c.2.k o code addr
  let st := if c.1 == s.wafno then (node? s c.2).map Node.stage else (launch? s lid).bind Launch.catchG
  (modLaunch (spend s (.core sl.core) 0 (beatsOf 32)) lid fun l => { l with catchQ := l.catchQ ++ [t] },
   match st with
   | some g => [⟨g, o.id.time, 1⟩]
   | none => [])

/-- Moves the queued sets of a node out of its element's issue queue, to be held while it is parked (R125). -/
def holdSets (s : State) (sl : Slot) : State :=
  let q := iqOf s sl.core sl.e
  let mine := q.filter fun x => x.set.id.k == sl.k && !x.replay
  if mine.isEmpty then s
  else
    let s := setIq s sl.core sl.e (q.filter fun x => !(x.set.id.k == sl.k && !x.replay))
    { s with x := { s.x with heldq := tset s.x.heldq sl (mine.map QSet.set ++ tgetD s.x.heldq sl []) } }

/-- A node-precise fault (R125): the record of the fault, the set in the slot's park register, the node's other sets held. -/
def parkSet (s : State) (sl : Slot) (n : Node) (o : OpSet) (code addr : Nat) (u : UnitId) : State :=
  let (i, s) := reportFault s { recBase u code 0 0 n.ctx sl.core.f n.lid with
    node := nodeWord sl code, addr := addr, time := o.id.time, seq := o.id.seq, act := .node sl }
  holdSets { s with x := { s.x with park := tset s.x.park sl (parkedOf s sl ++ [⟨o, code, i⟩]) } } sl

/-- A fault that only leaves a record (R404, CLASS 3). -/
def recordOnly (s : State) (u : UnitId) (code ctx f lid : Nat) (sl : Option Slot) (addr : Nat) (t : Time) (seq : BitVec 24) : State :=
  (reportFault s { recBase u code 0 3 ctx f lid with
    node := match sl with
      | some x => nodeWord x code
      | none => 0
    addr := addr, time := t, seq := seq }).2

/-- Marks a frozen region with the damaged entry that its freeze leaves in place (R405). -/
def markHurt (s : State) (f lid : Nat) (h : Hurt) : State :=
  { s with frozen := mapIf (fun z => z.f == f && z.lid == lid) (fun z => { z with hurt := some h }) s.frozen }

/-- A region-freezing fault of a damaged entry (R404, R405, CLASS 1). -/
def freezeHurt (s : State) (ctx f lid : Nat) (h : Hurt) : State :=
  (reportFault (markHurt (freeze s f lid false) f lid h) { recBase h.unit h.code 0 1 ctx f lid with
    node := match h.node with
      | some x => nodeWord x h.code
      | none => 0
    addr := h.addr, time := h.time, seq := h.seq }).2

/-- A parity failure of a token or a packet, with the time and SEQ of its set. -/
def freezeParity (s : State) (u : UnitId) (ctx f lid : Nat) (sl : Option Slot) (t : Time) (seq : BitVec 24) : State :=
  freezeHurt s ctx f lid ⟨u, Code.parityHard, sl, 0, t, seq, []⟩

/-- Words of some bytes that cannot be read. -/
def deadWords (s : State) (pa n : Nat) : List Nat :=
  (s.ecc.filter fun q => q.2 == .double && pa < 8 * q.1 + 8 && 8 * q.1 < pa + n).map Prod.fst

/-- Moves the sets that a node's parking took out of the queue back into it, in order, as far as there is room (R117, R125). -/
def letHeld (s : State) (sl : Slot) : State :=
  let h := tgetD s.x.heldq sl []
  let n := 16 - queuedIn s sl.core sl.e
  let s := { s with x := { s.x with heldq := if n < h.length then tset s.x.heldq sl (h.drop n) else tdel s.x.heldq sl } }
  setIq s sl.core sl.e ((h.take n).foldl (fun q o => enterKept (keptSet s sl.core o) q) (iqOf s sl.core sl.e))

/-- The set of a node that completed earliest of those the matching store keeps for a parked node (R125). -/
def nextDone (s : State) (sl : Slot) : Option MEntry :=
  (mstoreOf s sl.core).foldl (fun r m =>
    match m.done with
    | none => r
    | some d =>
      if m.e == sl.e && m.id.k == sl.k then
        match r.bind MEntry.done with
        | some b => if d < b then some m else r
        | none => some m
      else r) none

/-- Moves the sets that the matching store keeps for a node into its queue, in the order in which they completed, while there is room
(R117, R125). -/
def letDone : Nat → State → Slot → State
  | 0, s, _ => s
  | n + 1, s, sl =>
    if 16 ≤ queuedIn s sl.core sl.e then s
    else match nextDone s sl with
      | none => s
      | some m =>
        let s := setMstore s sl.core ((mstoreOf s sl.core).filter fun x => !(x.e == m.e && x.ord == m.ord))
        letDone n (setIq s sl.core sl.e (enterKept (keptSet s sl.core (entrySet m)) (iqOf s sl.core sl.e))) sl

/-- The slots with sets that were kept out of the queue, lowest context first (R118). -/
def heldSlots (s : State) : List Slot :=
  let l : List Slot := (s.x.heldq.filterMap fun q => if q.2.isEmpty then none else some q.1)
    ++ s.x.mstore.flatMap fun q => q.2.filterMap fun m => if m.done.isSome then some ⟨q.1, m.e, m.id.k⟩ else none
  (List.range 8).flatMap fun k => l.filter fun sl => sl.k == k

/-- The sets that were kept back for nodes that are no longer parked follow into their queues (R125). -/
def letKept (s : State) : State :=
  (heldSlots s).foldl (fun s sl => if (parkedOf s sl).isEmpty then letDone 16 (letHeld s sl) sl else s) s

/-- Returning from a parked set (R125, R417): the record's set leaves the park register and stands at the head of its element's issue
queue, ahead of any held set; the held sets follow once no parked set of the node remains, as far as the queue has room (R117). A walk that
parked with its heads in place, and a node that parked for a token it could not hold, have no set to put back. -/
def replaySet (s : State) (sl : Slot) (rid : Nat) : State :=
  match first? (fun p => p.rec_ == rid) (parkedOf s sl) with
  | none => s
  | some p =>
    let rest := dropFirst (fun q => q.rec_ == rid) (parkedOf s sl)
    let s := { s with x := { s.x with park := tset s.x.park sl rest } }
    let bare := p.set.a.isNone && p.set.b.isNone && p.set.c.isNone && p.set.p.isNone
    let s := if bare then s else setIq s sl.core sl.e (⟨p.set, true, false, ctr s (.core sl.core)⟩ :: iqOf s sl.core sl.e)
    if rest.isEmpty then letHeld s sl else s

end Sys2Proof.Machine
end

