-- ==== Sys2Proof/Machine/Flags.lean ====
section
/-! DEFINITION. Number formats, the single rounding, and every computation of a sticky flag (R134 to R170). A result is a bit pattern with
the flags it raises: NV 1, DZ 2, OF 4, UF 8, NX 16 (R109). -/

namespace Sys2Proof.Machine

open Sys2Proof

def NV : BitVec 5 := 1
def DZ : BitVec 5 := 2
def OF : BitVec 5 := 4
def UF : BitVec 5 := 8
def NX : BitVec 5 := 16

/-! ## Formats (R136) -/

/-- Which special values a format has: IEEE-like, E4M3 (one NaN pattern of each sign, no infinity), or E2M1 (numbers only). -/
inductive Spec where
  | ieee | e4m3 | e2m1
  deriving DecidableEq, Repr

/-- A floating-point format: width, fraction bits, bias and special values. -/
structure Fmt where
  w    : Nat
  fb   : Nat
  bias : Nat
  spec : Spec
  deriving DecidableEq, Repr

def F64 : Fmt := ⟨64, 52, 1023, .ieee⟩
def F32 : Fmt := ⟨32, 23, 127, .ieee⟩
def F16 : Fmt := ⟨16, 10, 15, .ieee⟩
def B16 : Fmt := ⟨16, 7, 127, .ieee⟩
def E5M2 : Fmt := ⟨8, 2, 15, .ieee⟩
def E4M3 : Fmt := ⟨8, 3, 7, .e4m3⟩
def E2M1 : Fmt := ⟨4, 1, 1, .e2m1⟩

/-- The exponent field of a format with every bit set. -/
def expMax (f : Fmt) : Nat := 2 ^ (f.w - 1 - f.fb) - 1

/-- The pattern of the largest finite magnitude (R136). -/
def maxFinite (f : Fmt) : Nat :=
  match f.spec with
  | .ieee => expMax f * 2 ^ f.fb - 1
  | .e4m3 => 0x7E
  | .e2m1 => 0x7

/-- The pattern of +infinity in a format that has one. -/
def infPat (f : Fmt) : Nat := expMax f * 2 ^ f.fb

/-- The default NaN (R136); E2M1 has none and delivers +0 (R141). -/
def defaultNaN (f : Fmt) : Nat :=
  match f.spec with
  | .ieee => expMax f * 2 ^ f.fb + 2 ^ (f.fb - 1)
  | .e4m3 => 0x7F
  | .e2m1 => 0

/-- The sign bit of a format. -/
def signBit (f : Fmt) (neg : Bool) : Nat := if neg then 2 ^ (f.w - 1) else 0

/-- A decoded value: a NaN with its sign, fraction and fraction width and whether it signals; an infinity; or (-1)^neg times m times 2^e. -/
inductive FV where
  | nan (neg : Bool) (fr fb : Nat) (sig : Bool)
  | inf (neg : Bool)
  | num (neg : Bool) (m : Nat) (e : Int)
  deriving DecidableEq, Repr

/-- The value of a pattern (R136). -/
def fdec (f : Fmt) (v : Nat) : FV :=
  let neg := bit v (f.w - 1)
  let ex := bits v (f.w - 2) f.fb
  let fr := v % 2 ^ f.fb
  let n : FV := if ex = 0 then .num neg fr (1 - (f.bias : Int) - f.fb)
    else .num neg (fr + 2 ^ f.fb) ((ex : Int) - f.bias - f.fb)
  match f.spec with
  | .ieee => if ex = expMax f then (if fr = 0 then .inf neg else .nan neg fr f.fb (!(bit fr (f.fb - 1)))) else n
  | .e4m3 => if v % 128 = 0x7F then .nan neg fr f.fb false else n
  | .e2m1 => n

def FV.isNaN : FV → Bool
  | .nan .. => true
  | _ => false

def FV.isSNaN : FV → Bool
  | .nan _ _ _ s => s
  | _ => false

/-- The value with its sign inverted; a NaN keeps its sign. -/
def FV.negate : FV → FV
  | .nan n fr fb s => .nan n fr fb s
  | .inf n => .inf (!n)
  | .num n m e => .num (!n) m e

/-! ## Rounding (R139, R140) -/

/-- m times 2^e in units of 2^q, rounded under the mode (0 RNE, 1 RTZ, 2 RUP, 3 RDN), and whether that was inexact. -/
def roundTo (neg : Bool) (m : Nat) (e q : Int) (mode : Nat) : Nat × Bool :=
  if q ≤ e then (m * 2 ^ (e - q).toNat, false)
  else
    let d := (q - e).toNat
    let l := bitLen 8192 m
    let quo := if l < d then 0 else m / 2 ^ d
    let exact := if l < d then m = 0 else m % 2 ^ d = 0
    let up : Bool :=
      if exact then false
      else match mode with
        | 0 => if l < d then false else 2 ^ d < 2 * (m % 2 ^ d) || (2 ^ d == 2 * (m % 2 ^ d) && quo % 2 == 1)
        | 1 => false
        | 2 => !neg
        | _ => neg
    (if up then quo + 1 else quo, !exact)

/-- What an overflow delivers (R140). -/
def overflowPat (f : Fmt) (neg : Bool) (mode : Nat) (sat : Bool) : Nat :=
  signBit f neg +
  (if f.spec != .ieee || sat then maxFinite f
   else match mode with
    | 0 => infPat f
    | 1 => maxFinite f
    | 2 => if neg then maxFinite f else infPat f
    | _ => if neg then infPat f else maxFinite f)

/-- The single rounding of an exact value (R139, R140): rnd(x, fmt, mode); a zero keeps the sign it is given. -/
def rnd (f : Fmt) (neg : Bool) (m : Nat) (e : Int) (mode : Nat) (sat : Bool) : Nat × BitVec 5 :=
  if m = 0 then (signBit f neg, 0)
  else
    let top : Int := e + bitLen 8192 m - 1
    let emin : Int := 1 - (f.bias : Int)
    let qu := top - f.fb
    let ru := roundTo neg m e qu mode
    let topU := if ru.1 = 2 ^ (f.fb + 1) then top + 1 else top
    let q := if qu < emin - f.fb then emin - f.fb else qu
    let r := roundTo neg m e q mode
    let code := ((q + f.bias + f.fb) * 2 ^ f.fb + r.1 - 2 ^ f.fb).toNat
    let codeU := ((qu + f.bias + f.fb) * 2 ^ f.fb + ru.1 - 2 ^ f.fb).toNat
    if emin ≤ topU && maxFinite f < codeU then (overflowPat f neg mode sat, OF ||| NX)
    else (signBit f neg + code, if r.2 then (if topU < emin then UF ||| NX else NX) else 0)

/-- A NaN delivered in a format (R141): quiet, with its sign and the top fraction bits that fit. -/
def nanTo (f : Fmt) (neg : Bool) (fr fb : Nat) : Nat × BitVec 5 :=
  match f.spec with
  | .ieee =>
    let g := if f.fb ≤ fb then fr / 2 ^ (fb - f.fb) else fr * 2 ^ (f.fb - fb)
    let g := if bit g (f.fb - 1) then g else g + 2 ^ (f.fb - 1)
    (signBit f neg + expMax f * 2 ^ f.fb + g, 0)
  | .e4m3 => (signBit f neg + 0x7F, 0)
  | .e2m1 => (0, NV)

/-- An infinity delivered in a format (R140, R141). -/
def infTo (f : Fmt) (neg sat : Bool) : Nat × BitVec 5 :=
  if f.spec != .ieee || sat then (signBit f neg + maxFinite f, OF) else (signBit f neg + infPat f, 0)

/-- An invalid operation (R141): the default NaN, which E2M1 holds as +0. -/
def invalid (f : Fmt) : Nat × BitVec 5 := (defaultNaN f, NV)

/-- A decoded value delivered in a format, rounded once. -/
def deliver (f : Fmt) (x : FV) (mode : Nat) (sat : Bool) : Nat × BitVec 5 :=
  match x with
  | .nan n fr fb s => let r := nanTo f n fr fb; (r.1, if s then r.2 ||| NV else r.2)
  | .inf n => infTo f n sat
  | .num n m e => rnd f n m e mode sat

/-! ## Sums and products (R159) -/

/-- The signed integer of a number in units of 2^e0, for e0 at most its exponent. -/
def atExp (neg : Bool) (m : Nat) (e e0 : Int) : Int :=
  let v : Int := (m : Int) * 2 ^ (e - e0).toNat
  if neg then -v else v

/-- The sign of an exact zero sum (R140): two -0 operands give -0; otherwise -0 under RDN alone. -/
def zeroSign (n1 n2 z1 z2 : Bool) (mode : Nat) : Bool := (n1 && n2 && z1 && z2) || mode == 3

/-- The rounded sum of two values that are no NaN. -/
def addFV (f : Fmt) (x y : FV) (mode : Nat) : Nat × BitVec 5 :=
  match x, y with
  | .inf a, .inf b => if a = b then infTo f a false else invalid f
  | .inf a, _ => infTo f a false
  | _, .inf b => infTo f b false
  | .num n1 m1 e1, .num n2 m2 e2 =>
    let e0 := if e1 ≤ e2 then e1 else e2
    let v := atExp n1 m1 e1 e0 + atExp n2 m2 e2 e0
    if v = 0 then (signBit f (zeroSign n1 n2 (m1 = 0) (m2 = 0) mode), 0)
    else rnd f (v < 0) v.natAbs e0 mode false
  | _, _ => invalid f

/-- The exact product of two values that are no NaN; none for 0 times infinity. -/
def mulFV (x y : FV) : Option FV :=
  match x, y with
  | .num n1 m1 e1, .num n2 m2 e2 => some (.num (n1 != n2) (m1 * m2) (e1 + e2))
  | .inf a, .inf b => some (.inf (a != b))
  | .inf a, .num n m _ => if m = 0 then none else some (.inf (a != n))
  | .num n m _, .inf b => if m = 0 then none else some (.inf (n != b))
  | _, _ => none

/-- The first NaN of a list of operands, made quiet in a format, with NV for any signalling one (R141). -/
def nanOf (f : Fmt) (l : List FV) : Option (Nat × BitVec 5) :=
  match first? FV.isNaN l with
  | some (.nan n fr fb _) =>
    let r := nanTo f n fr fb
    some (r.1, if l.any FV.isSNaN then r.2 ||| NV else r.2)
  | _ => none

/-- The floating sums and products: 0 a+b, 1 a-b, 2 a*b, 3 a*b+c, 4 a*b-c, 5 -(a*b)+c (R159). -/
def farith (op : Nat) (f : Fmt) (mode : Nat) (a b c : Nat) : Nat × BitVec 5 :=
  let x := fdec f a
  let y := fdec f b
  let z := fdec f c
  if op < 2 then
    match nanOf f [x, y] with
    | some r => r
    | none => addFV f x (if op = 1 then y.negate else y) mode
  else if op = 2 then
    match nanOf f [x, y] with
    | some r => r
    | none => match mulFV x y with
      | some p => deliver f p mode false
      | none => invalid f
  else if x.isNaN || y.isNaN then (nanOf f [x, y, z]).getD (invalid f)
  else match mulFV x y with
    | none => invalid f
    | some p =>
      match nanOf f [z] with
      | some r => r
      | none => addFV f (if op = 5 then p.negate else p) (if op = 4 then z.negate else z) mode

/-! ## Comparison (R160, R161) -/

/-- x < y for values that are no NaN; -0 below +0 where zeros are ordered. -/
def fvLt (orderZeros : Bool) (x y : FV) : Bool :=
  match x, y with
  | .inf a, .inf b => a && !b
  | .inf a, _ => a
  | _, .inf b => !b
  | .num n1 m1 e1, .num n2 m2 e2 =>
    let e0 := if e1 ≤ e2 then e1 else e2
    let u := atExp n1 m1 e1 e0
    let v := atExp n2 m2 e2 e0
    u < v || (orderZeros && m1 == 0 && m2 == 0 && n1 && !n2)
  | _, _ => false

/-- FMIN and FMAX (R160). -/
def fminmax (mx : Bool) (f : Fmt) (a b : Nat) : Nat × BitVec 5 :=
  let x := fdec f a
  let y := fdec f b
  let fl : BitVec 5 := if x.isSNaN || y.isSNaN then NV else 0
  match x.isNaN, y.isNaN with
  | true, true => ((nanOf f [x]).map Prod.fst |>.getD 0, fl)
  | true, false => (b, fl)
  | false, true => (a, fl)
  | false, false => (if mx then (if fvLt true x y then b else a) else (if fvLt true y x then b else a), fl)

/-- A comparison of R158's codes: 0 EQ, 1 NE, 2 LT, 3 LE, 4 GT, 5 GE, from less and equal. -/
def relation (cc : Nat) (lt eq : Bool) : Bool :=
  match cc with
  | 0 => eq
  | 1 => !eq
  | 2 => lt
  | 3 => lt || eq
  | 4 => !(lt || eq)
  | _ => !lt

/-- FCMP (R161). -/
def fcmpOp (cc : Nat) (f : Fmt) (a b : Nat) : Nat × BitVec 5 :=
  let x := fdec f a
  let y := fdec f b
  if x.isNaN || y.isNaN then
    if cc < 2 then (cc, if x.isSNaN || y.isSNaN then NV else 0) else (0, NV)
  else
    let lt := fvLt false x y
    let eq := !lt && !fvLt false y x
    (if relation cc lt eq then 1 else 0, 0)

/-- FCLS (R162). -/
def fclsOp (f : Fmt) (a : Nat) : Nat :=
  match fdec f a with
  | .nan _ _ _ s => if s then 2 ^ 8 else 2 ^ 9
  | .inf n => if n then 2 ^ 0 else 2 ^ 7
  | .num n m _ =>
    if m = 0 then (if n then 2 ^ 3 else 2 ^ 4)
    else if m < 2 ^ f.fb then (if n then 2 ^ 2 else 2 ^ 5)
    else if n then 2 ^ 1 else 2 ^ 6

/-- FRND (R163). -/
def frndOp (f : Fmt) (mode a : Nat) : Nat × BitVec 5 :=
  match fdec f a with
  | .nan n fr fb s => let r := nanTo f n fr fb; (r.1, if s then NV else 0)
  | .inf n => infTo f n false
  | .num n m e =>
    if 0 ≤ e || m = 0 then (a, 0)
    else
      let r := roundTo n m e 0 mode
      ((rnd f n r.1 0 0 false).1, if r.2 then NX else 0)

/-- FSCL (R164). -/
def fsclOp (f : Fmt) (mode a : Nat) (n : Int) : Nat × BitVec 5 :=
  match fdec f a with
  | .nan s fr fb sg => let r := nanTo f s fr fb; (r.1, if sg then NV else 0)
  | .inf s => infTo f s false
  | .num s m e => rnd f s m (e + n) mode false

/-! ## Estimates (R165) -/

/-- The greatest n below 2^k, from the bits given, with (2n - 1)^2 d at most 2^37. -/
def sqrtSearch (d : Nat) : Nat → Nat → Nat
  | 0, n => n
  | k + 1, n => if (2 * (n + 2 ^ k) - 1) ^ 2 * d ≤ 2 ^ 37 then sqrtSearch d k (n + 2 ^ k) else sqrtSearch d k n

/-- A nonzero F32 magnitude as a 24-bit significand M and exponent E: M times 2^(E - 23). -/
def norm24 (m : Nat) (e : Int) : Nat × Int :=
  let l := bitLen 64 m
  (m * 2 ^ (24 - l), e + l - 1)

/-- FRSQ (R165). -/
def frsqOp (a : Nat) : Nat × BitVec 5 :=
  match fdec F32 a with
  | .nan s fr fb sg => let r := nanTo F32 s fr fb; (r.1, if sg then NV else 0)
  | .inf s => if s then (0x7FC00000, NV) else (0, 0)
  | .num s m e =>
    if m = 0 then (signBit F32 s + infPat F32, DZ)
    else if s then (0x7FC00000, NV)
    else
      let (mm, ee) := norm24 m e
      let odd := ee % 2 ≠ 0
      let t := if odd then mm / 2 ^ 12 else mm / 2 ^ 13
      let e2 := if odd then ee - 1 else ee
      let q := sqrtSearch (2 * t + 1) 13 0
      ((rnd F32 false q (-12 - e2 / 2) 0 false).1, 0)

/-- FRCP (R165). -/
def frcpOp (a : Nat) : Nat × BitVec 5 :=
  match fdec F32 a with
  | .nan s fr fb sg => let r := nanTo F32 s fr fb; (r.1, if sg then NV else 0)
  | .inf s => (signBit F32 s, 0)
  | .num s m e =>
    if m = 0 then (signBit F32 s + infPat F32, DZ)
    else
      let (mm, ee) := norm24 m e
      let d := 2 * (mm / 2 ^ 13) + 1
      let q := (2 ^ 24 + d) / (2 * d)
      if ee ≤ -129 then (signBit F32 s + infPat F32, OF ||| NX)
      else ((rnd F32 s q (-12 - ee) 0 false).1, 0)

/-! ## Packed types (R137) -/

/-- The format of a floating or packed type code (R53). -/
def fmtOf (ty : Nat) : Fmt :=
  match ty with
  | 9 => F64
  | 11 => B16
  | 12 => F16
  | 13 => E4M3
  | 14 => E5M2
  | 15 => E2M1
  | _ => F32

/-- The lane count of a type code (R137); scalars have one. -/
def lanesOf (ty : Nat) : Nat :=
  match ty with
  | 10 => 2
  | 11 => 4
  | 12 => 4
  | 13 => 8
  | 14 => 8
  | 15 => 16
  | _ => 1

/-- Lane i of a value in lanes of w bits. -/
def laneOf (w i v : Nat) : Nat := (v / 2 ^ (w * i)) % 2 ^ w

/-- The lanes of a result put together, lane 0 lowest, with all their flags. -/
def joinLanes (w : Nat) : List (Nat × BitVec 5) → Nat × BitVec 5
  | [] => (0, 0)
  | r :: l => let t := joinLanes w l; (r.1 % 2 ^ w + 2 ^ w * t.1, r.2 ||| t.2)

/-- A lane operation applied to each lane of a class W type (R159). -/
def lanewise (ty : Nat) (op : Fmt → Nat → Nat → Nat → Nat × BitVec 5) (a b c : Nat) : Nat × BitVec 5 :=
  let f := fmtOf ty
  joinLanes f.w ((List.range (lanesOf ty)).map fun i => op f (laneOf f.w i a) (laneOf f.w i b) (laneOf f.w i c))

/-! ## Conversions (R166, R167) -/

/-- A value converted from one format to another (R145, R166): the same type copies, quieting a signalling NaN and saturating an infinity
under .SAT. -/
def fcvtLane (g f : Fmt) (mode : Nat) (sat : Bool) (v : Nat) : Nat × BitVec 5 :=
  if g = f then
    match fdec f v with
    | .nan n fr fb true => ((nanTo f n fr fb).1, NV)
    | .nan _ _ _ false => (v, 0)
    | .inf n => infTo f n sat
    | .num .. => (v, 0)
  else deliver f (fdec g v) mode sat

/-- FCVT (R166). -/
def fcvtOp (src ty mode : Nat) (sat : Bool) (a : Nat) : Nat × BitVec 5 :=
  let g := fmtOf src
  let f := fmtOf ty
  let l := if lanesOf src ≤ lanesOf ty then lanesOf src else lanesOf ty
  joinLanes f.w ((List.range l).map fun i => fcvtLane g f mode sat (laneOf g.w i a))

/-- The width of an integer type code (R135). -/
def widthOf (ty : Nat) : Nat :=
  match ty % 4 with
  | 0 => 8
  | 1 => 16
  | 2 => 32
  | _ => 64

/-- An integer operand at its type's width (R134, R150): signed for S types, unsigned for Z types. -/
def readInt (ty v : Nat) : Int := if ty < 4 then sint (widthOf ty) v else ((v % 2 ^ widthOf ty : Nat) : Int)

/-- The least value of an integer type (R135). -/
def tyMin (ty : Nat) : Int := if ty < 4 then -(2 ^ (widthOf ty - 1) : Int) else 0

/-- The greatest value of an integer type (R135). -/
def tyMax (ty : Nat) : Int := if ty < 4 then (2 ^ (widthOf ty - 1) : Int) - 1 else (2 ^ widthOf ty : Int) - 1

/-- A result as VAL holds it (R134): S types sign-extended, Z types zero-extended, F32 in the low half, the others whole. -/
def extend (ty : Nat) (v : Int) : W64 :=
  if ty < 4 then BitVec.ofInt 64 (sint (widthOf ty) (wrap (widthOf ty) v))
  else if ty < 8 then BitVec.ofNat 64 (wrap (widthOf ty) v)
  else if ty = 8 then BitVec.ofNat 64 (wrap 32 v)
  else BitVec.ofNat 64 (wrap 64 v)

/-- An exact integer result clamped to its type under .SAT, with OF when it clamps, or wrapped (R150). -/
def clampInt (ty : Nat) (sat : Bool) (x : Int) : Int × BitVec 5 :=
  if sat then
    if x < tyMin ty then (tyMin ty, OF) else if tyMax ty < x then (tyMax ty, OF) else (x, 0)
  else (x, 0)

/-- A float rounded to an integer type (R167). -/
def floatToInt (ty : Nat) (mode : Nat) (sat : Bool) (x : FV) : Int × BitVec 5 :=
  let out (neg : Bool) : Int := if sat then (if neg then tyMin ty else tyMax ty) else (if ty < 4 then tyMin ty else tyMax ty)
  match x with
  | .nan .. => (if sat then 0 else out false, NV)
  | .inf n => (out n, NV)
  | .num n m e =>
    if 128 < e + bitLen 8192 m && m != 0 then (out n, NV)
    else
      let r := roundTo n m e 0 mode
      let v : Int := if n then -(r.1 : Int) else r.1
      if v < tyMin ty then (out true, NV)
      else if tyMax ty < v then (out false, NV)
      else (v, if r.2 then NX else 0)

/-- CVT (R167). -/
def cvtOp (src ty mode : Nat) (sat : Bool) (a : Nat) : W64 × BitVec 5 :=
  if src < 8 then
    let x := readInt src a
    if ty < 8 then let r := clampInt ty sat x; (extend ty r.1, r.2)
    else let r := rnd (fmtOf ty) (x < 0) x.natAbs 0 mode sat; (extend ty r.1, r.2)
  else if ty < 8 then let r := floatToInt ty mode sat (fdec (fmtOf src) a); (extend ty r.1, r.2)
  else let r := fcvtOp src ty mode sat a; (extend ty r.1, r.2)

/-! ## Lanes (R168 to R170) -/

/-- LANE (R168): lane i widened to F32. -/
def laneOp (ty a i : Nat) : Nat × BitVec 5 :=
  let f := fmtOf ty
  let v := laneOf f.w (i % lanesOf ty) a
  match fdec f v with
  | .nan n fr fb s => ((nanTo F32 n fr fb).1, if s then NV else 0)
  | x => ((deliver F32 x 0 false).1, 0)

/-- VINS (R169): lane i replaced by the F32 value of b, rounded to nearest even; V2F32 takes its bits unchanged. -/
def vinsOp (ty a b i : Nat) : Nat × BitVec 5 :=
  let f := fmtOf ty
  let k := i % lanesOf ty
  let r : Nat × BitVec 5 := if ty = 10 then (b % 2 ^ 32, 0) else deliver f (fdec F32 (b % 2 ^ 32)) 0 false
  let v := joinLanes f.w ((List.range (lanesOf ty)).map fun j => (if j = k then r.1 else laneOf f.w j a, 0))
  (v.1, r.2)

/-- The exact sum of numbers: its integer in units of the least exponent met, and whether every one is a -0. -/
def sumNums : List FV → Int × Int × Bool
  | [] => (0, 0, true)
  | .num n m e :: l =>
    let (v, e2, z) := sumNums l
    let e0 := if l.isEmpty then e else if e ≤ e2 then e else e2
    ((if l.isEmpty then 0 else v * 2 ^ (e2 - e0).toNat) + atExp n m e e0, e0, z && n && m == 0)
  | _ :: l => sumNums l

/-- VSUM (R170): one rounding of the exact sum of every lane. -/
def vsumOp (ty mode a : Nat) : Nat × BitVec 5 :=
  let f := fmtOf ty
  let l := (List.range (lanesOf ty)).map fun i => fdec f (laneOf f.w i a)
  match nanOf F32 l with
  | some r => r
  | none =>
    let pos := l.any fun x => x == .inf false
    let neg := l.any fun x => x == .inf true
    if pos && neg then invalid F32
    else if pos then infTo F32 false false
    else if neg then infTo F32 true false
    else
      let (v, e, z) := sumNums l
      if v = 0 then (signBit F32 (z || mode == 3), 0)
      else rnd F32 (v < 0) v.natAbs e mode false

/-! ## Integer results and their flags (R150 to R158) -/

/-- The exact results of R150: 0 ADD, 1 SUB, 2 MUL, 3 MAD, 4 NEG, 5 ABS. -/
def exactInt (op : Nat) (a b c : Int) : Int :=
  match op with
  | 0 => a + b
  | 1 => a - b
  | 2 => a * b
  | 3 => a * b + c
  | 4 => -a
  | _ => (a.natAbs : Int)

/-- ADD, SUB, MUL, MAD, NEG and ABS (R150). -/
def intArith (op ty : Nat) (sat : Bool) (a b c : Nat) : W64 × BitVec 5 :=
  let r := clampInt ty sat (exactInt op (readInt ty a) (readInt ty b) (readInt ty c))
  (extend ty r.1, r.2)

/-- MULH (R151). -/
def mulhOp (ty a b : Nat) : W64 := extend ty ((readInt ty a * readInt ty b) / 2 ^ widthOf ty)

/-- DIV (R152). -/
def divOp (ty a b : Nat) : W64 × BitVec 5 :=
  let y := readInt ty b
  if y = 0 then (extend ty (-1), DZ) else (extend ty ((readInt ty a).tdiv y), 0)

/-- REM (R152). -/
def remOp (ty a b : Nat) : W64 × BitVec 5 :=
  let y := readInt ty b
  if y = 0 then (extend ty (readInt ty a), DZ) else (extend ty ((readInt ty a).tmod y), 0)

/-- MIN and MAX (R153). -/
def intMinMax (mx : Bool) (ty a b : Nat) : W64 :=
  let x := readInt ty a
  let y := readInt ty b
  extend ty (if mx then (if x < y then y else x) else (if y < x then y else x))

/-- SHL (R154); the count is the whole of B. -/
def shlOp (ty : Nat) (sat : Bool) (a n : Nat) : W64 × BitVec 5 :=
  let w := widthOf ty
  let k := if n < w then n else w
  let x := readInt ty a * 2 ^ k
  if sat then let r := clampInt ty true x; (extend ty r.1, r.2) else (extend ty x, 0)

/-- SHR (R154). -/
def shrOp (ty a n : Nat) : W64 :=
  let w := widthOf ty
  extend ty (if n < w then ((a % 2 ^ w / 2 ^ n : Nat) : Int) else 0)

/-- SRA (R154). -/
def sraOp (ty a n : Nat) : W64 :=
  let w := widthOf ty
  extend ty (readInt ty a / 2 ^ (if n < w then n else w))

/-- ROT (R154). -/
def rotOp (ty a n : Nat) : W64 :=
  let w := widthOf ty
  let k := n % w
  let v := a % 2 ^ w
  extend ty ((v * 2 ^ k + v / 2 ^ (w - k) : Nat) : Int)

/-- CLZ (R155). -/
def clzOp (ty a : Nat) : W64 := let w := widthOf ty; extend ty ((w - bitLen 64 (a % 2 ^ w) : Nat) : Int)

/-- The one bits among the k low bits. -/
def popBits : Nat → Nat → Nat
  | 0, _ => 0
  | k + 1, v => v % 2 + popBits k (v / 2)

/-- POPC (R155). -/
def popcOp (ty a : Nat) : W64 := extend ty ((popBits (widthOf ty) a : Nat) : Int)

/-- The length a field descriptor gives (R156). -/
def bfEff (w d : Nat) : Nat :=
  let lo := d % 64
  let len := bits d 12 6
  if len ≤ w - lo then len else w - lo

/-- BFX (R156). -/
def bfxOp (ty a d : Nat) : W64 :=
  let w := widthOf ty
  let eff := bfEff w d
  let fld := (a % 2 ^ w / 2 ^ (d % 64)) % 2 ^ eff
  extend ty (if eff = 0 then 0 else if ty < 4 then sint eff fld else (fld : Int))

/-- BFI (R156). -/
def bfiOp (ty a b d : Nat) : W64 :=
  let w := widthOf ty
  let eff := bfEff w d
  let lo := d % 64
  let v := a % 2 ^ w
  let hole := (v / 2 ^ lo) % 2 ^ eff
  extend ty ((v - hole * 2 ^ lo + (b % 2 ^ eff) * 2 ^ lo : Nat) : Int)

/-- CMP (R158). -/
def cmpOp (cc ty a b : Nat) : W64 :=
  let x := readInt ty a
  let y := readInt ty b
  if relation cc (x < y) (x = y) then 1 else 0

/-- The bitwise operations at the type's width (R153). -/
def bitwiseOp (op : W64 → W64 → W64) (ty a b : Nat) : W64 :=
  extend ty ((op (BitVec.ofNat 64 a) (BitVec.ofNat 64 b)).toNat : Int)

/-- A lanewise result as VAL holds it. -/
def packed (ty : Nat) (r : Nat × BitVec 5) : W64 × BitVec 5 := (extend ty r.1, r.2)

end Sys2Proof.Machine
end

