-- ==== Sys2Proof/Machine/Operands.lean ====
section
/-! DEFINITION. How a firing reads its operands, how an issuing set is judged, the tokens it puts out, and how a firing ends
(R50 to R52, R104, R105, R111, R116, R122 to R126, R212). -/

namespace Sys2Proof.Machine

open Sys2Proof

/-! ## The firing that the focus names -/

/-- The wafer clocks run: the module is ready, in P0 or P1, and has not tripped (R429, R431, R432). -/
def clocksRun (s : State) : Bool := s.host.stage == 6 && s.host.pstate < 2 && !s.host.trip

/-- A unit of the field may start work of a context: the clocks run, the context is live and its partition is not halted (R410). -/
def ctxRuns (s : State) (ctx : Nat) : Bool :=
  clocksRun s && ctxLive s ctx && (match partOfCtx s ctx with
    | some p => let st := (ctxStat s p).step; st == 0 || st == 3
    | none => false)

/-- The element holds a record that has not been written; one that names no node is its core's, and holds every element there (R403). -/
def holdsRecord (s : State) (sl : Slot) : Bool :=
  s.recQ.any fun r => r.unit == .core sl.core && (r.node == 0 || bits r.node.toNat 12 8 == sl.e)

/-- A node's element may issue a set of it now. -/
def mayIssue (s : State) (sl : Slot) (n : Node) : Bool :=
  ctxRuns s n.ctx && !isFrozen s sl.core.f n.lid && !holdsRecord s sl

/-- The set at the head of the focused element's queue, when it belongs to the focused slot and may issue (R118). -/
def firing (s : State) : Option Firing :=
  match s.focus with
  | .slot sl =>
    match node? s sl, iqOf s sl.core sl.e with
    | some n, q :: _ =>
      if q.set.id.k == sl.k && mayIssue s sl n then some ⟨sl, n, q.set, q.replay, holdOf s sl⟩ else none
    | _, _ => none
  | _ => none

/-- The focused slot as a firing of no set, for nodes that have no operand port (R175) or take their tokens one by one. -/
def bareFiring (s : State) (id : Ident) : Option Firing :=
  match s.focus with
  | .slot sl =>
    match node? s sl with
    | some n => if mayIssue s sl n then some ⟨sl, n, ⟨id, none, none, none, none, 0, []⟩, false, holdOf s sl⟩ else none
    | none => none
  | _ => none

/-- The opcode of a context word (R48). -/
def opOf (w : W64) : Nat := (w.extractLsb' 56 8).toNat

/-! ## Reading operands (R50, R51, R134) -/

/-- The immediate as a value (R51): addr says that the operand is an address. -/
def immVal (w : CW) (addr : Bool) : W64 :=
  if w.ty.toNat < 4 then w.imm.signExtend 64
  else if addr || w.ty.toNat < 8 then w.imm.zeroExtend 64
  else if w.ty.toNat = 8 then BitVec.ofNat 64 (w.imm.toNat * 256)
  else BitVec.ofNat 64 (deliver F64 (fdec F32 (w.imm.toNat * 256)) 0 false).1

/-- The value of an operand from its source: a port's token, the immediate, the hold register, or none. -/
def opVal (w : CW) (fr : Firing) (src : BitVec 2) (t : Option Token) (addr : Bool) : W64 :=
  if src = 0 then (t.map Token.val).getD 0
  else if src = 1 then immVal w addr
  else if src = 2 then fr.hold
  else 0

/-- Operand A of a firing. -/
def valA (w : CW) (fr : Firing) : W64 := opVal w fr w.sa fr.set.a false

/-- Operand A as an address (R51). -/
def addrA (w : CW) (fr : Firing) : W64 := opVal w fr w.sa fr.set.a true

/-- A is an address: of the memory operators and of every history, presence, promise, phaser, lock, share, streamer and matrix instruction
(R51). -/
def takesAddr (op : Nat) : Bool := 0x80 ≤ op && op < 0xE0

/-- Operand A's 64 bits, an immediate address as an integer (R51). -/
def bitsA (w : CW) (fr : Firing) : W64 := opVal w fr w.sa fr.set.a (takesAddr (opOf fr.node.word))

/-- Operand B of a firing. -/
def valB (w : CW) (fr : Firing) : W64 := opVal w fr w.sb fr.set.b false

/-- Operand C of a firing. -/
def valC (w : CW) (fr : Firing) : W64 := opVal w fr w.sc fr.set.c false

/-- KEY of operand A: that of its token, 0 from an immediate or the hold register (R104). -/
def keyA (w : CW) (o : OpSet) : W32 := if w.sa = 0 then (o.a.map Token.key).getD 0 else 0

/-- KV of operand A (R104). -/
def kvA (w : CW) (o : OpSet) : Bool := w.sa == 0 && (o.a.map Token.kv).getD false

/-- The dif of an operand: its token's, +1 from an immediate or the hold register (R105). -/
def difOf (src : BitVec 2) (t : Option Token) : Int := if src = 0 then ((t.map fun x => x.dif.toInt).getD 1) else 1

/-- The output dif under DM (R105), before its range check; P takes no part. -/
def difOut (w : CW) (o : OpSet) : Int :=
  if w.dm = 0 then difOf w.sa o.a * difOf w.sb o.b * difOf w.sc o.c
  else if w.dm = 1 then difOf w.sa o.a
  else if w.dm = 2 then -(difOf w.sa o.a)
  else 1

/-! ## Tokens of a firing (R104, R123) -/

/-- A token on port X (4) or Y (5) of a firing: DIF_OVERFLOW outside 32 bits (R105), TIME_OVERFLOW past the last round (R205), CTX and
time action of the port, the set's SEQ. -/
def outTok (w : CW) (fr : Firing) (port : Nat) (val : W64) (key : W32) (kv : Bool) (dif : Int) (nul fin : Bool) : Except Nat Token :=
  if dif < -(2 ^ 31 : Int) || (2 ^ 31 : Int) ≤ dif then .error Code.difOverflow
  else match act (if port = 4 then w.xt else w.yt) fr.set.id.time with
    | none => .error Code.timeOverflow
    | some t => .ok ⟨val, key, BitVec.ofInt 32 dif, t, fr.set.id.seq, if port = 4 then w.xc else w.yc, nul, fin, kv⟩

/-- A token of a firing with the fields of R104. -/
def resTok (w : CW) (fr : Firing) (port : Nat) (val : W64) : Except Nat Token :=
  outTok w fr port val (keyA w fr.set) (kvA w fr.set) (difOut w fr.set) false false

/-- A NUL token of a firing (R123). -/
def nulTok (w : CW) (fr : Firing) (port : Nat) : Except Nat Token := outTok w fr port 0 0 false 0 true false

/-- An END token of a firing (R123). -/
def endTok (w : CW) (fr : Firing) (port : Nat) : Except Nat Token := outTok w fr port 0 0 false 0 false true

/-- What a firing puts out when it puts out nothing. -/
def noEmit (ex : Bool) : Emit := ⟨[], [], 0, [], ex⟩

/-- One special token on each output that the instruction can drive (R122, R434). -/
def both (w : CW) (fr : Firing) (drvX drvY : Bool) (mk : CW → Firing → Nat → Except Nat Token) : Except Nat Emit := do
  let x ← if drvX then (mk w fr 4).map fun t => [t] else .ok []
  let y ← if drvY then (mk w fr 5).map fun t => [t] else .ok []
  return ⟨x, y, 0, [], false⟩

/-! ## Judging a set (R122, R124) -/

/-- What decides an issuing set. -/
inductive Verdict where
  | fin | skip | absorb | pass | fault | go (o : OpSet)
  deriving DecidableEq, Repr

/-- A token is present and holds END. -/
def isEnd (t : Option Token) : Bool := (t.map Token.fin).getD false

/-- A token is present and holds NUL. -/
def isNul (t : Option Token) : Bool := (t.map Token.nul).getD false

/-- P matches PM: a NUL P matches only PM = 11 (R122). -/
def pMatches (w : CW) (p : Option Token) : Bool :=
  if w.pm = 0 then true
  else if w.pm = 1 then !isNul p && ((p.map Token.val).getD 0 != 0)
  else if w.pm = 2 then !isNul p && ((p.map Token.val).getD 0 == 0)
  else isNul p

/-- A NUL operand replaced by an identity value, which counts +1 in the dif product (R124). -/
def substId (t : Option Token) (v : Nat) : Option Token :=
  t.map fun x => if x.nul then { x with val := BitVec.ofNat 64 v, dif := 1, nul := false } else x

/-- Judges an issuing set under R122 to R124. mem says that C is an ordering operand, which is never judged (R123); ids gives the
identity value of each port (R147). -/
def judge (w : CW) (mem : Bool) (ids : Nat → Nat) (o : OpSet) : Verdict :=
  if isEnd o.a || isEnd o.b || (!mem && isEnd o.c) || isEnd o.p then .fin
  else if !pMatches w o.p then .skip
  else if isNul o.a || isNul o.b || (!mem && isNul o.c) then
    if w.np = 0 then .absorb
    else if w.np = 1 then .pass
    else if w.np = 2 then
      .go { o with a := substId o.a (ids 0), b := substId o.b (ids 1), c := if mem then o.c else substId o.c (ids 2) }
    else .fault
  else .go o

/-- A value in every lane of a class W type. -/
def splat (ty v : Nat) : Nat := (joinLanes (fmtOf ty).w ((List.range (lanesOf ty)).map fun _ => (v, 0))).1

/-- The identity values of R147: by opcode, type and port. -/
def identity (op ty port : Nat) : Nat :=
  let f := fmtOf ty
  let one := splat ty (f.bias * 2 ^ f.fb)
  let nzero := splat ty (signBit f true)
  let big (neg : Bool) := splat ty (if f.spec = .ieee then signBit f neg + infPat f else signBit f neg + maxFinite f)
  let ones := 2 ^ 64 - 1
  match op with
  | 0x02 => 1
  | 0x04 => if port = 2 then 0 else 1
  | 0x09 => (extend ty (tyMax ty)).toNat
  | 0x0A => (extend ty (tyMin ty)).toNat
  | 0x0B => ones
  | 0x0C => if port = 0 then ones else 0
  | 0x30 => nzero
  | 0x31 => 0
  | 0x32 => one
  | 0x33 => if port = 2 then nzero else one
  | 0x34 => if port = 2 then 0 else one
  | 0x35 => if port = 2 then nzero else one
  | 0x36 => big false
  | 0x37 => big true
  | _ => 0

/-! ## How a firing ends -/

/-- The last firing of a core, on its counter (R213). -/
def noteFiring (s : State) (c : CoreId) : State := { s with lastF := tset s.lastF c (ctr s (.core c)) }

/-- Whether the count table is sent after a firing: it consumed or emitted an END token, or applied action 01 or 10 (R213). -/
def flushAfter (w : CW) (o : OpSet) (e : Emit) : Bool :=
  isEnd o.a || isEnd o.b || isEnd o.c || isEnd o.p || !o.bs.isEmpty || e.x.any Token.fin || e.y.any Token.fin
    || (!e.x.isEmpty && w.xt != 0) || (!e.y.isEmpty && w.yt != 0)

/-- The set at the head of the queue with the mark that a breakpoint has stopped for it. -/
def markBroke (s : State) (sl : Slot) : State :=
  match iqOf s sl.core sl.e with
  | q :: l => setIq s sl.core sl.e ({ q with broke := true } :: l)
  | [] => s

/-- The head of the element's queue has already stopped at a breakpoint. -/
def alreadyBroke (s : State) (sl : Slot) : Bool :=
  match iqOf s sl.core sl.e with
  | q :: _ => q.broke
  | [] => false

/-- A breakpoint stands on the node and matches the set (R408). -/
def nodeBreak (s : State) (fr : Firing) : Bool :=
  match partOfField s fr.sl.core.f with
  | some p => !alreadyBroke s fr.sl && brkHit s p 1 (nodeKey fr.sl) fr.set.id.time fr.set.id.seq
  | none => false

/-- The hold register written under HD (R52): A's 64 bits. -/
def setHold (s : State) (w : CW) (fr : Firing) : State :=
  if w.hd = 1 then { s with x := { s.x with hold := tset s.x.hold fr.sl (bitsA w fr) } } else s

/-- A set issues: the region's issue count (R417), its progress (R406) and the core's last firing (R213). -/
def noteIssue (s : State) (fr : Firing) : State :=
  noteFiring (progress (countIssue s fr.sl.core.f fr.node.lid) fr.sl.core.f fr.node.lid) fr.sl.core

/-- The parts of a firing that every commit shares: flags, hold register, tokens, counts, the region's issue count, progress and trace. -/
def apply (s : State) (w : CW) (fr : Firing) (e : Emit) (its : List CountItem) (after : Bool) : State :=
  let sl := fr.sl
  let prod := (e.x.flatMap fun t => produced s sl 4 t) ++ e.y.flatMap fun t => produced s sl 5 t
  let s := orFlags s sl e.flags
  let s := if e.exec_ then setHold s w fr else s
  let s := putToks s sl 4 e.x
  let s := putToks s sl 5 e.y
  let s := record s sl.core fr.node.lid (its ++ prod ++ e.items) after
  let s := noteIssue s fr
  if w.tb = 1 then trace s sl fr.set ((e.x.head?.map Token.val).getD 0) else s

/-- Room for what a firing puts out (R116). -/
def hasRoom (s : State) (sl : Slot) (e : Emit) : Bool :=
  roomFor s ⟨sl.core, sl.e, 4⟩ e.x.length && roomFor s ⟨sl.core, sl.e, 5⟩ e.y.length

/-- A firing consumes the set at the head of its element's queue and puts out its tokens, or issues nothing while an output it drives has
no room (R116). -/
def commit (s : State) (w : CW) (fr : Firing) (e : Emit) : State :=
  if hasRoom s fr.sl e then apply (popIq s fr.sl) w fr e (consumed fr.node fr.set) (flushAfter w fr.set e) else s

/-- A firing that faults at issue: the set parks (R125), or, for a fault that goes to the catch node, the firing ends as a skip would and
a fault token is queued, once there is room for it (R126, R129). -/
def faultFiring (s : State) (w : CW) (fr : Firing) (drvX drvY : Bool) (code addr : Nat) : State :=
  match catchFor s fr.node.lid fr.sl code with
  | some c =>
    if catchFull s fr.node.lid then s
    else match both w fr drvX drvY nulTok with
      | .error c2 => parkSet (popIq s fr.sl) fr.sl fr.node fr.set c2 addr (.core fr.sl.core)
      | .ok e =>
        if hasRoom s fr.sl e then
          let (s, its) := toCatch s fr.node.lid c fr.sl fr.set code addr
          let (_, s) := reportFault s { recBase (.core fr.sl.core) code 0 5 fr.node.ctx fr.sl.core.f fr.node.lid with
            node := nodeWord fr.sl code, addr := addr, time := fr.set.id.time, seq := fr.set.id.seq }
          commit s w fr { e with items := its }
        else s
  | none => parkSet (popIq s fr.sl) fr.sl fr.node fr.set code addr (.core fr.sl.core)

/-- Ends a firing with what it puts out, or with the code of its fault. -/
def conclude (s : State) (w : CW) (fr : Firing) (drvX drvY : Bool) (addr : Nat) (r : Except Nat Emit) : State :=
  match r with
  | .ok e => commit s w fr e
  | .error code => faultFiring s w fr drvX drvY code addr

/-- The region freezes at a node's breakpoint before a set of it issues (R408). -/
def breakSet (s : State) (fr : Firing) : State :=
  breakAt s (.core fr.sl.core) 1 (nodeKey fr.sl) fr.sl.core.f fr.node.lid fr.node.ctx (nodeKey fr.sl + Code.break_) fr.set.id.time fr.set.id.seq

/-- Runs the focused slot's set under R122 to R124 and hands a set that executes to body; a breakpoint on the node stops before it. -/
def fireSet (s : State) (w : CW) (mem drvX drvY : Bool) (ids : Nat → Nat) (body : Firing → State) : State :=
  match firing s with
  | none => s
  | some fr =>
    if nodeBreak s fr then breakSet (markBroke s fr.sl) fr
    else match judge w mem ids fr.set with
      | .fin => conclude s w fr drvX drvY 0 (both w fr drvX drvY endTok)
      | .skip => conclude s w fr drvX drvY 0 (both w fr drvX drvY nulTok)
      | .absorb => commit s w fr (noEmit false)
      | .pass => conclude s w fr drvX drvY 0 (both w fr drvX drvY nulTok)
      | .fault => faultFiring s w fr drvX drvY Code.nullOperand 0
      | .go o => body { fr with set := o }

/-- Runs the focused slot's set under its instruction's own rule. -/
def fireOwn (s : State) (body : Firing → State) : State :=
  match firing s with
  | none => s
  | some fr =>
    if nodeBreak s fr then breakSet (markBroke s fr.sl) fr
    else body fr

/-- An arithmetic firing: the value on X under R104, a NUL token on Y (R149), and the flags. -/
def fireAlu (s : State) (w : CW) (op : Nat) (f : Nat → Nat → Nat → W64 × BitVec 5) : State :=
  fireSet s w false true true (identity op w.ty.toNat) fun fr =>
    let r := f (valA w fr).toNat (valB w fr).toNat (valC w fr).toNat
    conclude s w fr true true 0 (do
      let x ← resTok w fr 4 r.1
      let y ← nulTok w fr 5
      return ⟨[x], [y], r.2, [], true⟩)

end Sys2Proof.Machine
end

