-- ==== Sys2Proof/Machine/Frontier.lean ====
section
/-! DEFINITION. Summaries of paths, the frontier of a stage, and when a probe may let a token go (R203, R215 to R220). -/

namespace Sys2Proof.Machine

open Sys2Proof

/-- Summaries compose along a path: leave if any step is leave, otherwise round+1 if any is, otherwise identity (R215). -/
def Summ.comp : Summ → Summ → Summ
  | .leave, _ => .leave
  | _, .leave => .leave
  | .round1, _ => .round1
  | _, .round1 => .round1
  | .ident, .ident => .ident

/-- leave ≤ identity ≤ round+1 (R215). -/
def Summ.rank : Summ → Nat
  | .leave => 0
  | .ident => 1
  | .round1 => 2

/-- A summary applied to a time (R215); the last round stays where round+1 would pass it, since no token's round does (R205). -/
def Summ.on (m : Summ) (t : Time) : Time :=
  match m with
  | .leave => ⟨t.batch, 0⟩
  | .ident => t
  | .round1 => if t.round.toNat = 2 ^ 32 - 1 then t else ⟨t.batch, t.round + 1⟩

/-- The least summary from a stage to a stage; identity from a stage to itself (R215). -/
def sigma (l : Launch) (a q : Nat) : Option Summ := if a = q then some .ident else tget l.sigma (a, q)

/-- Inserts a time in ascending batch, then round. -/
def insTime (t : Time) : List Time → List Time
  | [] => [t]
  | u :: l => if t.batch.toNat < u.batch.toNat || (t.batch == u.batch && t.round.toNat ≤ u.round.toNat) then t :: u :: l
    else u :: insTime t l

/-- The minimal elements of a list of times, each once, in ascending batch (R216). -/
def minimal (l : List Time) : List Time :=
  (l.foldl (fun acc t => if acc.contains t then acc else insTime t acc) []).filter fun t => !(l.any fun u => u != t && tle u t)

/-- The frontier of a stage from the wafer tracker's counts (R214, R216). -/
def frontier (l : Launch) (q : Nat) : List Time :=
  minimal (l.counts.filterMap fun i => if i.n = 0 then none else (sigma l i.stage q).map fun m => m.on i.time)

/-- The frontier as the registers hold it: beyond 64 elements, the last ones are replaced by their meet (R218). -/
def frontierRegs (l : Launch) (q : Nat) : Frn :=
  let f := frontier l q
  if f.length ≤ 64 then ⟨f, false⟩
  else match f.drop 63 with
    | [] => ⟨f, false⟩
    | t :: r => ⟨f.take 63 ++ [r.foldl tmeet t], true⟩

/-- No element of a frontier is at or below a time. -/
def passed (f : List Time) (t : Time) : Bool := !(f.any fun u => tle u t)

/-- The frontier registers of a probe (R217). -/
def frnOf (s : State) (sl : Slot) : Frn := tgetD s.x.frn sl ⟨[], false⟩

/-- A probe may let a time go: its registers and the wafer tracker's frontier have both passed it (R220; log 34). -/
def probePassed (s : State) (w : CW) (fr : Firing) (t : Time) : Bool :=
  passed (frnOf s fr.sl).elems t && (match launch? s fr.node.lid with
    | some l => passed (frontierRegs l (w.imm.toNat % 64)).elems t
    | none => true)

end Sys2Proof.Machine
end

