-- ==== Sys2Proof/Machine/Fabric.lean ====
section
/-! DEFINITION. The token network: what an input accepts, the matching store with its carve-out and overflow area, parity refusals, and the
idle flush of a count table (R106, R107, R111 to R121, R213). -/

namespace Sys2Proof.Machine

open Sys2Proof

/-- The operand ports of a context word (R111): A, B, C from a port, and P under a predicate or on STEER and GATE. -/
def operandPorts (w : W64) : List Nat :=
  let c := CW.unpack w
  (if c.sa = 0 then [0] else []) ++ (if c.sb = 0 then [1] else []) ++ (if c.sc = 0 then [2] else [])
    ++ (if c.pm ≠ 0 || opOf w == 0x50 || opOf w == 0x51 then [3] else [])

/-- The set index of an identity (R112). -/
def setIndex (e : Nat) (id : Ident) : Nat :=
  (id.seq.toNat % 128) ^^^ (id.time.round.toNat % 128) ^^^ (id.time.batch.toNat % 128) ^^^ (e % 8 * 16 + id.k * 2)

/-- Two entries share a set of one cluster (R112). -/
def sameSet (e : Nat) (id : Ident) (m : MEntry) : Bool := m.e / 8 == e / 8 && setIndex m.e m.id == setIndex e id

def isWay (m : MEntry) : Bool := m.place == .way
def isCarve (m : MEntry) : Bool := match m.place with
  | .carve _ => true
  | _ => false
def isOvfl (m : MEntry) : Bool := match m.place with
  | .ovfl _ => true
  | _ => false

/-- The entry of least allocation order, compared modulo 2^32 as distances from the next order (R114). -/
def earliest (next : W32) : List MEntry → Option MEntry
  | [] => none
  | m :: l => match earliest next l with
    | none => some m
    | some n => if (next - n.ord).toNat < (next - m.ord).toNat then some m else some n

/-- The lowest record index, from 0, that a list does not use. -/
def freeIndex (used : List Nat) : Nat → Nat → Nat
  | 0, n => n
  | k + 1, n => if used.contains n then freeIndex used k (n + 1) else n

/-- The index of a carve-out or overflow record. -/
def placeIx (m : MEntry) : Nat := match m.place with
  | .carve i => i
  | .ovfl i => i
  | .way => 0

/-- The entries with one moved to another place. -/
def movePlace (l : List MEntry) (m : MEntry) (p : Place) : List MEntry :=
  l.map fun x => if x.e == m.e && x.id == m.id && x.ord == m.ord then { x with place := p, raw := [] } else x

/-- Makes room for one new entry of an identity (R114, R115): the earliest entry of a full set moves to the carve-out, the earliest record
of a full carve-out to the overflow area; none when the overflow area is full or disabled. -/
def makeWay (s : State) (c : CoreId) (e : Nat) (id : Ident) : Option (List MEntry) :=
  let l := mstoreOf s c
  let next := tgetD s.x.mord (c, e / 8) 0
  let ways := l.filter fun m => isWay m && sameSet e id m
  if ways.length < 8 then some l
  else
    let carved := l.filter isCarve
    let cap := 16 * tgetD s.x.carve c 0
    let l1 : Option (List MEntry) :=
      if carved.length < cap then some l
      else
        let ovl := l.filter isOvfl
        if ovl.length < (tgetD s.movl c 0).toNat then
          match earliest next carved with
          | some m => some (movePlace l m (.ovfl (freeIndex (ovl.map placeIx) ovl.length 0)))
          | none => some l
        else none
    l1.bind fun l =>
      let carved := l.filter isCarve
      match earliest next ways with
      | none => some l
      | some m =>
        if carved.length < cap then some (movePlace l m (.carve (freeIndex (carved.map placeIx) carved.length 0)))
        else
          let ovl := l.filter isOvfl
          some (movePlace l m (.ovfl (freeIndex (ovl.map placeIx) ovl.length 0)))

/-- Allocates an entry (R113, R114, R437); none for MATCH_OVERFLOW (R115). -/
def allocEntry (s : State) (c : CoreId) (e : Nat) (id : Ident) (kind : MKind) (a b d p : Option Token) : Option State :=
  (makeWay s c e id).map fun l =>
    let o := tgetD s.x.mord (c, e / 8) 0
    let s := setMstore s c (l ++ [⟨e, id, kind, a, b, d, p, .way, o, none, []⟩])
    { s with x := { s.x with mord := tset s.x.mord (c, e / 8) (o + 1) } }

/-- The state entry of an identity (R437). -/
def stateEntry (s : State) (c : CoreId) (e : Nat) (id : Ident) : Option RunSt :=
  (mstoreOf s c).findSome? fun m =>
    if m.e == e && m.id == id then (match m.kind with
      | .state r => some r
      | _ => none) else none

/-- The entry is the state entry of an identity. -/
def isStateOf (e : Nat) (id : Ident) (m : MEntry) : Bool :=
  m.e == e && m.id == id && (match m.kind with
    | .state _ => true
    | _ => false)

/-- The entry holds waiting operands of an identity. -/
def isOperandsOf (e : Nat) (id : Ident) (m : MEntry) : Bool := m.e == e && m.id == id && m.kind == .operands

/-- The entry is a state entry that an accepted set of the identity has claimed. -/
def isClaimOf (e : Nat) (id : Ident) (m : MEntry) : Bool := m.e == e && m.id == id && m.kind == .claimed

/-- The entry holds a token of a PROBE of a slot, of a time. -/
def isHeldOf (e k : Nat) (t : Time) (m : MEntry) : Bool :=
  m.e == e && m.id.k == k && m.id.time == t && (match m.kind with
    | .held _ => true
    | _ => false)

/-- The tokens of a time that a PROBE holds, in the order in which they arrived. -/
def heldToks (s : State) (sl : Slot) (t : Time) : List Token :=
  (mstoreOf s sl.core).filterMap fun m => if isHeldOf sl.e sl.k t m then (match m.kind with
    | .held x => some x
    | _ => none) else none

/-- The state with a state entry's value replaced. -/
def setState (s : State) (c : CoreId) (e : Nat) (id : Ident) (r : RunSt) : State :=
  setMstore s c (mapIf (isStateOf e id) (fun m => { m with kind := .state r }) (mstoreOf s c))

/-- The identity of a token at its context (R111). -/
def identOf (t : Token) : Ident := ⟨t.ctx.toNat, t.time, t.seq⟩

/-- A set with a token put on one port. -/
def withPort (o : OpSet) (port : Nat) (t : Token) : OpSet :=
  match port with
  | 0 => { o with a := some t, port := 0 }
  | 1 => { o with b := some t, port := 1 }
  | 2 => { o with c := some t, port := 2 }
  | _ => { o with p := some t, port := 3 }

/-- The token on a port of a set. -/
def onPort (o : OpSet) (port : Nat) : Option Token :=
  match port with
  | 0 => o.a
  | 1 => o.b
  | 2 => o.c
  | _ => o.p

/-- A complete set joins its element's issue queue (R117, R118); none while the queue is full. -/
def enqueue (s : State) (sl : Slot) (o : OpSet) : Option State :=
  if 16 ≤ queuedIn s sl.core sl.e then none
  else some (setIq s sl.core sl.e (enter (newSet s sl.core o) (iqOf s sl.core sl.e)))

/-- What an input answers to a token: accepted with the new state, not accepted, or a search of the overflow area to wait for (R115). -/
inductive Acc where
  | yes (s : State)
  | no
  | search
  | overflow
  deriving DecidableEq, Repr

/-- A node raises MATCH_OVERFLOW for a token it cannot hold (R115): it parks, and the token stays in its sender's buffer. -/
def overflowPark (s : State) (sl : Slot) (n : Node) (id : Ident) : State :=
  if (parkedOf s sl).any fun p => p.code == Code.matchOverflow && p.set.id == id then s
  else parkSet s sl n ⟨id, none, none, none, none, 0, []⟩ Code.matchOverflow 0 (.core sl.core)

/-- The state that TRED and ALL keep for a set's time: the next SEQ (R177). -/
def foldNext (s : State) (sl : Slot) (id : Ident) : Nat :=
  match stateEntry s sl.core sl.e { id with seq := 0 } with
  | some r => r.next
  | none => 0

/-- A complete set of TRED or ALL that is ahead of its turn (R177). -/
def foldWaits (s : State) (sl : Slot) (n : Node) (o : OpSet) : Bool :=
  let op := opOf n.word
  (op == 0x5A || op == 0x5B) && decide (foldNext s sl o.id < o.id.seq.toNat) && decide (o.id.seq.toNat < (CW.unpack n.word).imm.toNat)

/-- The identity of the state entry that a complete set will use: CNT, SCAN and CONSOL for a record or an END, TRED and ALL for a token that
they fold (R176, R177, R184, R185, R437). -/
def stateRef (n : Node) (o : OpSet) : Option Ident :=
  let op := opOf n.word
  let w := CW.unpack n.word
  if op == 0x58 || op == 0x63 || op == 0x64 then
    if !(isEnd o.a || isEnd o.p) && (isNul o.a || !pMatches w o.p) then none else some o.id
  else if op == 0x5A || op == 0x5B then
    if w.imm.toNat ≤ o.id.seq.toNat || (!isEnd o.a && !pMatches w o.p) then none else some { o.id with seq := 0 }
  else none

/-- The identity of the state entry that a complete set needs: an END of a stream uses one and needs none (R176, R437). -/
def stateId (n : Node) (o : OpSet) : Option Ident :=
  let op := opOf n.word
  if (op == 0x58 || op == 0x63 || op == 0x64) && (isEnd o.a || isEnd o.p) then none else stateRef n o

/-- A set that is accepted behind the head of its element's queue, or that the matching store keeps for its node, needs the state entry of an
identity. -/
def needsLater (s : State) (c : CoreId) (e : Nat) (id : Ident) : Bool :=
  match node? s ⟨c, e, id.k⟩ with
  | none => false
  | some n =>
    (iqOf s c e).tail.any (fun q => q.set.id.k == id.k && stateId n q.set == some id)
      || (mstoreOf s c).any fun m => m.e == e && m.done.isSome && m.id.k == id.k && stateId n (entrySet m) == some id

/-- The state without a state entry; its place stays claimed for a set of the identity that has been accepted since (R437). -/
def freeState (s : State) (c : CoreId) (e : Nat) (id : Ident) : State :=
  setMstore s c (if needsLater s c e id then mapIf (isStateOf e id) (fun m => { m with kind := .claimed }) (mstoreOf s c)
    else (mstoreOf s c).filter fun m => !isStateOf e id m)

/-- The set's operands stand in an entry of the matching store, which is allocated where the identity has none (R113). -/
def keepSet (s : State) (sl : Slot) (o : OpSet) : Option State :=
  if (mstoreOf s sl.core).any (isOperandsOf sl.e o.id) then
    some (setMstore s sl.core (mapIf (isOperandsOf sl.e o.id) (fun x => { x with a := o.a, b := o.b, c := o.c, p := o.p })
      (mstoreOf s sl.core)))
  else allocEntry s sl.core sl.e o.id .operands o.a o.b o.c o.p

/-- Marks the entry of an identity complete, to follow into the issue queue (R125, R177). -/
def markDone (s : State) (sl : Slot) (id : Ident) : State :=
  { setMstore s sl.core (mapIf (isOperandsOf sl.e id) (fun x => { x with done := some s.serial }) (mstoreOf s sl.core)) with
    serial := s.serial + 1 }

/-- The state without an identity's waiting operands. -/
def freeOperands (s : State) (sl : Slot) (id : Ident) : State :=
  setMstore s sl.core ((mstoreOf s sl.core).filter fun x => !isOperandsOf sl.e id x)

/-- Whether a set's records in the overflow area have still to be searched (R115). -/
def unsearched (s : State) (sl : Slot) (id : Ident) (searched : Bool) : Bool :=
  !searched && (mstoreOf s sl.core).any fun m => isOvfl m && sameSet sl.e id m

/-- The state entry that a complete set will use has still to be found in the overflow area (R115, R437). -/
def stateAway (s : State) (sl : Slot) (n : Node) (o : OpSet) (searched : Bool) : Bool :=
  match stateRef n o with
  | none => false
  | some id => match first? (fun m => isStateOf sl.e id m || isClaimOf sl.e id m) (mstoreOf s sl.core) with
    | some m => isOvfl m && !searched
    | none => unsearched s sl id searched

/-- The entry that a complete set will need is claimed as the set is accepted (R437): a state entry that is found or allocated, or the entry of
a token that a PROBE will hold (R220). -/
def claimState (s : State) (sl : Slot) (n : Node) (o : OpSet) (searched : Bool) : Acc :=
  let take (id : Ident) : Acc :=
    match allocEntry s sl.core sl.e id .claimed none none none none with
    | some s => .yes s
    | none => .overflow
  if opOf n.word == 0x75 then
    if (heldToks s sl o.id.time).isEmpty && probePassed s (CW.unpack n.word) ⟨sl, n, o, false, 0⟩ o.id.time then .yes s
    else if unsearched s sl o.id searched then .search
    else take o.id
  else match stateId n o with
    | none => .yes s
    | some id => if (mstoreOf s sl.core).any fun m => isStateOf sl.e id m || isClaimOf sl.e id m then .yes s else take id

/-- A complete set is accepted (R117, R125, R177, R437): into the issue queue; into the matching store while its node is parked, or while a
fold waits for an earlier token. Nothing that would complete a set is accepted while the queue is full. -/
def completeSet (s : State) (sl : Slot) (n : Node) (o : OpSet) (searched : Bool) : Acc :=
  if stateAway s sl n o searched then .search
  else if foldWaits s sl n o then
    match keepSet s sl o with
    | some s => .yes s
    | none => .overflow
  else if 16 ≤ queuedIn s sl.core sl.e then .no
  else if (parkedOf s sl).isEmpty then
    match claimState (freeOperands s sl o.id) sl n o searched with
    | .yes s => (match enqueue s sl o with
      | some s => .yes s
      | none => .no)
    | r => r
  else
    match claimState s sl n o searched with
    | .yes s => (match keepSet s sl o with
      | some s => .yes (markDone s sl o.id)
      | none => .overflow)
    | r => r

/-- Accepts a token on a port of a node that pairs under R111: one operand port completes at once, unless its set has to wait in the store;
otherwise the matching store pairs it (R113). -/
def acceptPaired (s : State) (sl : Slot) (n : Node) (port : Nat) (t : Token) (searched : Bool) : Acc :=
  let id := identOf t
  let ports := operandPorts n.word
  let fresh : OpSet := withPort ⟨id, none, none, none, none, port, []⟩ port t
  let full (o : OpSet) : Bool := ports.all fun p => (onPort o p).isSome
  if ports.length ≤ 1 && (parkedOf s sl).isEmpty && !foldWaits s sl n fresh then completeSet s sl n fresh searched
  else match first? (isOperandsOf sl.e id) (mstoreOf s sl.core) with
    | some m =>
      if isOvfl m && !searched then .search
      else if (onPort (entrySet m) port).isSome then .no
      else
        let o := withPort (entrySet m) port t
        if full o then completeSet s sl n o searched
        else (match keepSet s sl o with
          | some s => .yes s
          | none => .overflow)
    | none =>
      if unsearched s sl id searched then .search
      else if full fresh then completeSet s sl n fresh searched
      else (match keepSet s sl fresh with
        | some s => .yes s
        | none => .overflow)

/-- Accepts a token of ENTER (R206): each token on A or B is a set by itself. While its node is parked a token waits behind one of its own
identity that the store keeps (log 19). -/
def acceptAlone (s : State) (sl : Slot) (n : Node) (port : Nat) (t : Token) (searched : Bool) : Acc :=
  let o : OpSet := withPort ⟨identOf t, none, none, none, none, port, []⟩ port t
  if (parkedOf s sl).isEmpty then completeSet s sl n o searched
  else if (mstoreOf s sl.core).any (isOperandsOf sl.e o.id) then .no
  else if unsearched s sl o.id searched then .search
  else completeSet s sl n o searched

/-- The walk of a UNION, ISECT or MINUS node. -/
def walkOf (s : State) (sl : Slot) : WalkSt := tgetD s.x.walks sl WalkSt.none_

/-- The state with a walk replaced. -/
def setWalk (s : State) (sl : Slot) (w : WalkSt) : State := { s with x := { s.x with walks := tset s.x.walks sl w } }

/-- Accepts a stream token of UNION, ISECT or MINUS (R180): A's first token names the identity, and each side, P under a predicate among them,
offers one head at a time. -/
def acceptWalk (s : State) (sl : Slot) (port : Nat) (t : Token) : Acc :=
  let w := walkOf s sl
  let mine : Bool := w.id == some (identOf t)
  if port = 0 then
    if w.ha.isNone && (w.id.isNone || mine) then .yes (setWalk s sl { w with id := some (identOf t), ha := some t }) else .no
  else if port = 1 then if mine && w.hb.isNone then .yes (setWalk s sl { w with hb := some t }) else .no
  else if port = 3 then if mine && w.hp.isNone then .yes (setWalk s sl { w with hp := some t }) else .no
  else .no

/-- The B stream that a history node is reading (R231). -/
def hstrOf (s : State) (sl : Slot) : HStr := tgetD s.x.hstr sl ⟨none, [], 0, false⟩

/-- The state with a history node's stream replaced. -/
def setHstr (s : State) (sl : Slot) (h : HStr) : State := { s with x := { s.x with hstr := tset s.x.hstr sl h } }

/-- Accepts a token of a history node that reads a stream on B (R231): the handle on A, then the records of its identity up to END, which
completes the set. -/
def acceptHist (s : State) (sl : Slot) (port : Nat) (t : Token) : Acc :=
  let h := hstrOf s sl
  if port = 0 then
    match h.handle with
    | none => .yes (setHstr s sl { h with handle := some t })
    | some _ => .no
  else
    match h.handle with
    | none => .no
    | some a =>
      if h.sent || identOf a != identOf t then .no
      else if t.fin then
        let o : OpSet := ⟨identOf a, some a, none, none, none, 0, h.toks ++ [t]⟩
        if 16 ≤ queuedIn s sl.core sl.e then .no
        else
          let s := { s with x := { s.x with hstr := tdel s.x.hstr sl } }
          if (parkedOf s sl).isEmpty then
            match enqueue s sl o with
            | some s => .yes s
            | none => .no
          else .yes { s with x := { s.x with heldq := tset s.x.heldq sl (tgetD s.x.heldq sl [] ++ [o]) } }
      else .yes (setHstr s sl { h with toks := h.toks ++ [t] })

/-- Accepts a token at a port of a node. -/
def acceptTok (s : State) (sl : Slot) (n : Node) (port : Nat) (t : Token) (searched : Bool) : Acc :=
  let op := opOf n.word
  if op == 0x60 || op == 0x61 || op == 0x62 then acceptWalk s sl port t
  else if op == 0x70 then acceptAlone s sl n port t searched
  else if 0x80 ≤ op && op < 0x88 && (operandPorts n.word).contains 1 then acceptHist s sl port t
  else acceptPaired s sl n port t searched

/-- The first token of a buffer that an input has still to accept (R119). -/
def nextFor (b : EdgeSt) (d : InPort) : Option BufTok := first? (fun x => x.todo.contains d) b.buf

/-- The buffer after an input has accepted its next token; a token that every input has accepted leaves it (R119). -/
def accepted (d : InPort) : List BufTok → List BufTok
  | [] => []
  | x :: l =>
    if x.todo.contains d then
      let y := { x with todo := x.todo.filter fun i => !(i == d), bad := tdel x.bad d }
      if y.todo.isEmpty then l else y :: l
    else x :: accepted d l

/-- The launch whose catch node is on an element and that has a fault token waiting (R129). -/
def catchLaunch (s : State) (c : CoreId) (e : Nat) : Option (Nat × Launch) :=
  first? (fun p => match p.2.catch_ with
    | some (w, sl) => w == s.wafno && sl.core == c && sl.e == e && !p.2.catchQ.isEmpty
    | none => false) s.launches

/-- The token that an edge offers to an input: of an edge buffer, of a cut edge's receive buffer (port 8 + p), or of the fault network
(port 6). -/
def offered (s : State) (g : EdgeId) (d : InPort) : Option Token :=
  if g.port == 6 then
    if d == ⟨g.core, g.e, 0⟩ then (catchLaunch s g.core g.e).bind fun p => p.2.catchQ.head? else none
  else (nextFor (edgeOf s g) d).map BufTok.tok

/-- Removes an accepted token from where it was offered. -/
def takeOffered (s : State) (g : EdgeId) (d : InPort) : State :=
  if g.port == 6 then
    match catchLaunch s g.core g.e with
    | some p => modLaunch s p.1 fun l => { l with catchQ := l.catchQ.tail, catchBad := 0 }
    | none => s
  else setEdge s g { edgeOf s g with buf := accepted d ((edgeOf s g).buf) }

/-- The consecutive parity failures of the next token toward an input (R121). -/
def failsOf (s : State) (g : EdgeId) (d : InPort) : Nat :=
  if g.port == 6 then ((catchLaunch s g.core g.e).map fun p => p.2.catchBad).getD 0
  else ((nextFor (edgeOf s g) d).map fun b => tgetD b.bad d 0).getD 0

/-- A refused send (R121): PARCNT rises, and the eighth consecutive failure on the hop raises PARITY_HARD at the receiving core,
which waits for its record's place (R403). -/
def refuseTok (s : State) (g : EdgeId) (d : InPort) (sl : Slot) (n : Node) : State :=
  let r := tgetD s.parcnt d.core 0
  if 8 ≤ failsOf s g d + 1 && unitHolds s (.core d.core) then s else
  let s := { s with parcnt := tset s.parcnt d.core (if r = 0xFFFFFFFF#32 then r else r + 1) }
  let k := failsOf s g d + 1
  let b := edgeOf s g
  let rec note : List BufTok → List BufTok
    | [] => []
    | x :: l => if x.todo.contains d then { x with bad := tset x.bad d k } :: l else x :: note l
  let s := if g.port == 6 then
      (match catchLaunch s g.core g.e with
      | some p => modLaunch s p.1 fun l => { l with catchBad := k }
      | none => s)
    else setEdge s g { b with buf := note b.buf }
  let id := ((offered s g d).map identOf).getD ⟨0, t00, 0⟩
  if 8 ≤ k then freezeParity s (.core d.core) n.ctx d.core.f n.lid (some sl) id.time id.seq else s

/-- A record has moved to the core's overflow area, which is traffic of class 3 from the core (R115, R308). -/
def spilled (s t : State) (c : CoreId) : Bool := decide ((mstoreOf s c).countP isOvfl < (mstoreOf t c).countP isOvfl)

/-- One offer of a token at an input port (R113, R119 to R121); spills and searches of the overflow area wait for the core's budget (R312). -/
def offerTok (s : State) (g : EdgeId) (d : InPort) (bad : Bool) : State :=
  match offered s g d with
  | none => s
  | some t =>
    let sl : Slot := ⟨d.core, d.e, t.ctx.toNat⟩
    match node? s sl with
    | none => s
    | some n =>
      if !ctxRuns s n.ctx || isFrozen s d.core.f n.lid then s
      else if bad then refuseTok s g d sl n
      else
        let ss := tgetD s.x.osearch d.core []
        let done := ss.any fun o => o.edge == g && o.dst == d && o.done
        let wipe (s : State) : State :=
          { s with x := { s.x with osearch := tset s.x.osearch d.core (ss.filter fun o => !(o.edge == g && o.dst == d)) } }
        match acceptTok s sl n d.port t done with
        | .yes s2 =>
          let moved := spilled s s2 d.core
          if moved && !underBudget s (.core d.core) 3 then s
          else
            let s3 := if moved then spend s2 (.core d.core) 3 (beatsOf 128) else s2
            takeOffered (if done then { s3 with x := { s3.x with osearch := (wipe s).x.osearch } } else s3) g d
        | .no => s
        | .search =>
          if ss.any (fun o => o.edge == g && o.dst == d) || !underBudget s (.core d.core) 3 then s
          else { spend s (.core d.core) 3 (beatsOf 0) with x := { s.x with osearch := tset s.x.osearch d.core (ss ++ [⟨g, d, false⟩]) } }
        | .overflow => overflowPark (if done then wipe s else s) sl n (identOf t)

/-- The output goes to another wafer, so that no input of this one accepts from it. -/
def isCut (s : State) (g : EdgeId) : Bool := (cutOf s g).isSome

/-- TOKEN_ARRIVAL (R113): a token is offered at an input port for the first time, or again after the input could not store it. -/
def execTokenArrival (edge : EdgeId) (dst : InPort) (bad : Bool) (s : State) : Host.Outcome State Fault Refusal :=
  .next (if failsOf s edge dst = 0 && !isCut s edge then offerTok s edge dst bad else s)

/-- TOKEN_RESEND (R121): the sender sends again a token that failed its parity check. -/
def execTokenResend (edge : EdgeId) (dst : InPort) (bad : Bool) (s : State) : Host.Outcome State Fault Refusal :=
  .next (if 0 < failsOf s edge dst && !isCut s edge then offerTok s edge dst bad else s)

/-- COUNT_TABLE_IDLE_FLUSH (R213): after 256 clk without a firing, a core sends its count table while it holds an entry. -/
def execCountTableIdleFlush (core : CoreId) (s : State) : Host.Outcome State Fault Refusal :=
  .next (if !(ctabOf s core).isEmpty && 256 ≤ (ctr s (.core core) - tgetD s.lastF core 0).toNat then flushCounts s core else s)

end Sys2Proof.Machine
end

