-- ==== Sys2Proof/Machine/Copies.lean ====
section
/-! DEFINITION. The two copies of the execution state and the saved ones: the exchange of a partition's part (R410 step 4), and applying an
effect to whichever copy holds a context (R144, R196, R267). -/

namespace Sys2Proof.Machine

open Sys2Proof

/-- The field a unit belongs to; 48 for the units of the wafer. -/
def unitField : UnitId → Nat
  | .core c => c.f
  | .ic f _ => f
  | .seqr f => f
  | .si f _ => f
  | .mi f _ => f
  | .ftrk f => f
  | _ => 48

/-- The entries of a table that lie in given fields, from one table, with the others of another. -/
def mixT {κ α : Type} (fs : List Nat) (fld : κ → Nat) (keep take : Tbl κ α) : Tbl κ α :=
  (keep.filter fun p => !fs.contains (fld p.1)) ++ take.filter fun p => fs.contains (fld p.1)

/-- The field of the node that a late answer is for. -/
def lateField : Msg → Nat
  | .ans r _ => r.sl.core.f
  | .hist r .. => r.sl.core.f
  | _ => 48

/-- The field of a promise walk: that of its first cell's home. -/
def walkField (w : PWalk) : Nat := bits w.pa 45 40

/-- An execution state with the parts of some fields taken from another. -/
def mixExec (fs : List Nat) (a b : Exec) : Exec where
  nodes := mixT fs (fun k : Slot => k.core.f) a.nodes b.nodes
  hold := mixT fs (fun k : Slot => k.core.f) a.hold b.hold
  flags := mixT fs (fun k : Slot => k.core.f) a.flags b.flags
  park := mixT fs (fun k : Slot => k.core.f) a.park b.park
  heldq := mixT fs (fun k : Slot => k.core.f) a.heldq b.heldq
  edges := mixT fs (fun k : EdgeId => k.core.f) a.edges b.edges
  mstore := mixT fs (fun k : CoreId => k.f) a.mstore b.mstore
  mord := mixT fs (fun k : CoreId × Nat => k.1.f) a.mord b.mord
  iq := mixT fs (fun k : CoreId × Nat => k.1.f) a.iq b.iq
  walks := mixT fs (fun k : Slot => k.core.f) a.walks b.walks
  hstr := mixT fs (fun k : Slot => k.core.f) a.hstr b.hstr
  osearch := mixT fs (fun k : CoreId => k.f) a.osearch b.osearch
  ctab := mixT fs (fun k : CoreId => k.f) a.ctab b.ctab
  frn := mixT fs (fun k : Slot => k.core.f) a.frn b.frn
  frontQ := mixT fs (fun k : Slot => k.core.f) a.frontQ b.frontQ
  routes := mixT fs (fun k : CoreId => k.f) a.routes b.routes
  carve := mixT fs (fun k : CoreId => k.f) a.carve b.carve
  grants := mixT fs (fun k : PaneId => k.core.f) a.grants b.grants
  ptag := mixT fs (fun k : PaneId => k.core.f) a.ptag b.ptag
  hctr := mixT fs (fun k : CoreId => k.f) a.hctr b.hctr
  waitl := mixT fs (unitField) a.waitl b.waitl
  retry := mixT fs (unitField) a.retry b.retry
  late := (a.late.filter fun q => !fs.contains (lateField q)) ++ b.late.filter fun q => fs.contains (lateField q)
  outw := mixT fs (fun k : CoreId => k.f) a.outw b.outw
  relw := mixT fs (fun k : CoreId => k.f) a.relw b.relw
  members := mixT fs (fun k : CoreId => k.f) a.members b.members
  hown := mixT fs (fun k : CoreId × Nat => k.1.f) a.hown b.hown
  hset := mixT fs (fun k : CoreId × Nat => k.1.f) a.hset b.hset
  hpark := mixT fs (fun k : CoreId × Nat => k.1.f) a.hpark b.hpark
  hstop := mixT fs (fun k : CoreId × Nat => k.1.f) a.hstop b.hstop
  hq := mixT fs (fun k : CoreId => k.f) a.hq b.hq
  hbusy := mixT fs (fun k : CoreId => k.f) a.hbusy b.hbusy
  graphs := mixT fs (fun k : Nat => k) a.graphs b.graphs
  flagw := mixT fs (fun k : Nat × Nat => k.2) a.flagw b.flagw
  mis := mixT fs (fun k : Nat × Nat => k.1) a.mis b.mis
  pwalks := (a.pwalks.filter fun w => !fs.contains (walkField w)) ++ b.pwalks.filter fun w => fs.contains (walkField w)

/-- The cell lies in a scratchpad or an SRAM of one of the fields (R12). -/
def cellIn (fs : List Nat) (c : Host.Cell) : Bool :=
  (bits c.1 47 46 == 1 || bits c.1 47 46 == 2) && fs.contains (bits c.1 45 40)

/-- Cells with the scratchpad and SRAM of some fields taken from another list. -/
def mixCells (fs : List Nat) (a b : List Host.Cell) : List Host.Cell :=
  (b.filter (cellIn fs)).foldl (fun m c => cellSet m c.1 c.2) (a.filter fun c => !cellIn fs c)

/-- Check-bit marks with those of the scratchpad and SRAM of some fields taken from another list (R316). -/
def mixEcc (fs : List Nat) (a b : Tbl Nat Ecc) : Tbl Nat Ecc :=
  (a.filter fun q => !cellIn fs (8 * q.1, 0)) ++ b.filter fun q => cellIn fs (8 * q.1, 0)

/-- Side-table entries with those of the scratchpad and SRAM tiles of some fields taken from another table (R193; log 132). -/
def mixAon (fs : List Nat) (a b : Tbl Nat Aon) : Tbl Nat Aon :=
  (a.filter fun q => !cellIn fs (512 * q.1, 0)) ++ b.filter fun q => cellIn fs (512 * q.1, 0)

/-- The fields of a partition (R424). -/
def partFields (s : State) (p : Nat) : List Nat := ((tget s.parts p).map Part.fields).getD []

/-- The execution state that holds a context: live, in the shadow, or saved out. -/
def execOf (s : State) (ctx : Nat) : Exec :=
  match partOfCtx s ctx with
  | none => s.x
  | some p =>
    if (ctxStat s p).shad == some ctx then s.sh
    else if (ctxStat s p).live == some ctx then s.x
    else ((tget s.saved ctx).map Saved.exec).getD s.x

/-- Exchanges the live and shadow copies of some fields (R410 step 4). -/
def exchange (s : State) (fs : List Nat) : State :=
  { s with
    x := mixExec fs s.x s.sh
    sh := mixExec fs s.sh s.x
    mem := mixCells fs s.mem s.smem
    smem := mixCells fs s.smem s.mem
    ecc := mixEcc fs s.ecc s.secc
    secc := mixEcc fs s.secc s.ecc
    aon := mixAon fs s.aon s.saon
    saon := mixAon fs s.saon s.aon }

/-- Applies an effect to the copy that holds a context: live, in the shadow, or saved out (R144, R196, R267). Within such an effect the copy
already stands in x. -/
def onCopy (s : State) (ctx : Nat) (f : State → State) : State :=
  if s.swapped.isSome then f s
  else match partOfCtx s ctx with
  | none => f s
  | some p =>
    let fs := partFields s p
    if (ctxStat s p).shad == some ctx then
      { exchange (f { exchange s fs with swapped := some ctx }) fs with swapped := none }
    else if (ctxStat s p).live == some ctx then f s
    else match tget s.saved ctx with
      | some v =>
        let s1 := { s with
          x := mixExec fs s.x v.exec
          mem := mixCells fs s.mem v.cells
          ecc := mixEcc fs s.ecc v.ecc
          aon := mixAon fs s.aon v.aon
          swapped := some ctx }
        let s2 := f s1
        { s2 with
            x := mixExec fs s2.x s.x
            mem := mixCells fs s2.mem s.mem
            ecc := mixEcc fs s2.ecc s.ecc
            aon := mixAon fs s2.aon s.aon
            saved := tset s2.saved ctx { v with
              exec := mixExec fs Exec.empty s2.x
              cells := s2.mem.filter (cellIn fs)
              ecc := mixEcc fs [] s2.ecc
              aon := mixAon fs [] s2.aon }
            swapped := none }
      | none => f s

end Sys2Proof.Machine
end

