-- ==== Sys2Proof/Machine/Flow.lean ====
section
/-! DEFINITION. The flow instructions (R171 to R175) and the record instructions (R186). -/

namespace Sys2Proof.Machine

open Sys2Proof

/-- STEER and GATE under their own rule (R172): the token, special or not, goes out where P selects. -/
def steerGate (s : State) (w : CW) (gate : Bool) : State :=
  fireOwn s fun fr =>
    if isEnd fr.set.a || isEnd fr.set.p then conclude s w fr true true 0 (both w fr true true endTok)
    else if isNul fr.set.p then conclude s w fr true true 0 (both w fr true true nulTok)
    else
      let yes := (fr.set.p.map Token.val).getD 0 != 0
      let nul := isNul fr.set.a
      let port := if yes then 4 else 5
      if gate && !yes then commit s w fr (noEmit (!nul))
      else conclude s w fr true true 0 (do
        let t ← if nul then nulTok w fr port else resTok w fr port (valA w fr)
        return ⟨if yes then [t] else [], if yes then [] else [t], 0, [], !nul⟩)

/-- STEER (R171, R172): A on X when P is nonzero, on Y when it is zero. -/
def execSteer (w : CW) (s : State) : Host.Outcome State Fault Refusal := .next (steerGate s w false)

/-- GATE (R171, R172): A on X when P is nonzero, nothing when it is zero. -/
def execGate (w : CW) (s : State) : Host.Outcome State Fault Refusal := .next (steerGate s w true)

/-- A firing that puts one token on X and nothing on Y. -/
def emitX (s : State) (w : CW) (fr : Firing) (x : Except Nat Token) : State :=
  conclude s w fr true true 0 (x.map fun t => ⟨[t], [], 0, [], true⟩)

/-- DUP (R171): A on X and on Y. -/
def execDup (w : CW) (s : State) : Host.Outcome State Fault Refusal :=
  .next (fireSet s w false true true (identity 0x52 w.ty.toNat) fun fr =>
    conclude s w fr true true 0 (do
      let x ← resTok w fr 4 (valA w fr)
      let y ← resTok w fr 5 (valA w fr)
      return ⟨[x], [y], 0, [], true⟩))

/-- IDNT (R171): A on X. -/
def execIdnt (w : CW) (s : State) : Host.Outcome State Fault Refusal :=
  .next (fireSet s w false true true (identity 0x55 w.ty.toNat) fun fr => emitX s w fr (resTok w fr 4 (valA w fr)))

/-- NULL (R171): a NUL token on X. -/
def execNull (w : CW) (s : State) : Host.Outcome State Fault Refusal :=
  .next (fireSet s w false true true (identity 0x56 w.ty.toNat) fun fr => emitX s w fr (nulTok w fr 4))

/-- ENDS (R171): an END token on X. -/
def execEnds (w : CW) (s : State) : Host.Outcome State Fault Refusal :=
  .next (fireSet s w false true true (identity 0x57 w.ty.toNat) fun fr => emitX s w fr (endTok w fr 4))

/-- SINK (R171, R173): consumes its set; the END and NUL tokens of R122 are discarded too. -/
def execSink (w : CW) (s : State) : Host.Outcome State Fault Refusal :=
  .next (fireSet s w false false false (identity 0x54 w.ty.toNat) fun fr => commit s w fr (noEmit true))

/-- CONST (R171, R174): B's value at TY width, once per set, or once per launch with DIF +1 where it has no operand port. -/
def execConst (w : CW) (s : State) : Host.Outcome State Fault Refusal :=
  .next (fireSet s w false true true (identity 0x53 w.ty.toNat) fun fr =>
    let v := extend w.ty.toNat (valB w fr).toNat
    emitX s w fr (if fr.set.a.isNone && fr.set.b.isNone && fr.set.p.isNone then outTok w fr 4 v 0 false 1 false false
      else resTok w fr 4 v))

/-- The section that holds a source, of the slot's launch (R175). -/
def sectOf (s : State) (lid sect : Nat) : Option Sect := (launch? s lid).bind fun l => tget l.secs sect

/-- The launch is running, so that its sources may emit (R17, R81). -/
def running (s : State) (lid : Nat) : Bool :=
  match launch? s lid with
  | some l => l.stat == .running
  | none => false

/-- A breakpoint stands on a node that issues without a set of its queue, a SRC or a walk, and has not stopped this step yet (R408). -/
def bareBreak (s : State) (fr : Firing) : Bool :=
  match partOfField s fr.sl.core.f with
  | some p => !(walkOf s fr.sl).broke && brkHit s p 1 (nodeKey fr.sl) fr.set.id.time fr.set.id.seq
  | none => false

/-- The slot with the mark that a breakpoint has stopped its step. -/
def markBare (s : State) (sl : Slot) : State := setWalk s sl { walkOf s sl with broke := true }

/-- The slot without that mark. -/
def clearBare (s : State) (sl : Slot) : State := if (walkOf s sl).broke then setWalk s sl { walkOf s sl with broke := false } else s

/-- SRC (R175): emits the next unit token of its section's arming, with VAL and SEQ the token's number, at time (0,0); the firing that
emits the last one records the -1 of R212. -/
def execSrc (w : CW) (s : State) : Host.Outcome State Fault Refusal :=
  .next (match bareFiring s ⟨0, t00, 0⟩ with
    | none => s
    | some fr =>
      let lid := fr.node.lid
      let sec := w.imm.toNat
      match sectOf s lid sec with
      | none => s
      | some z =>
        match z.cur with
        | none => s
        | some n =>
          let i := tgetD z.emitted fr.sl 0
          if i < n && running s lid then
            let fr := { fr with set := { fr.set with id := ⟨fr.sl.k, t00, BitVec.ofNat 24 i⟩ } }
            if bareBreak s fr then breakSet (markBare s fr.sl) fr
            else match outTok w fr 4 (extend w.ty.toNat (i : Int)) 0 false 1 false false with
            | .error code => parkSet s fr.sl fr.node fr.set code 0 (.core fr.sl.core)
            | .ok t =>
              let e : Emit := ⟨[t], [], 0, if i + 1 = n then [⟨fr.node.stage, t00, -1⟩] else [], true⟩
              if hasRoom s fr.sl e then
                let s := modLaunch (clearBare s fr.sl) lid fun l => { l with secs := tset l.secs sec { z with emitted := tset z.emitted fr.sl (i + 1) } }
                apply s w fr e [] (flushAfter w fr.set e)
              else s
          else s)

/-- REKEY (R186): A with KEY from B and KV set. -/
def execRekey (w : CW) (s : State) : Host.Outcome State Fault Refusal :=
  .next (fireSet s w false true true (identity 0x65 w.ty.toNat) fun fr =>
    emitX s w fr (outTok w fr 4 (valA w fr) ((valB w fr).setWidth 32) true (difOut w fr.set) false false))

/-- VALK (R186): KEY and VAL exchanged, KV set. -/
def execValk (w : CW) (s : State) : Host.Outcome State Fault Refusal :=
  .next (fireSet s w false true true (identity 0x66 w.ty.toNat) fun fr =>
    emitX s w fr (outTok w fr 4 ((keyA w fr.set).setWidth 64) ((valA w fr).setWidth 32) true (difOut w fr.set) false false))

/-- DSET (R186): A with DIF from B's low 32 bits. -/
def execDset (w : CW) (s : State) : Host.Outcome State Fault Refusal :=
  .next (fireSet s w false true true (identity 0x67 w.ty.toNat) fun fr =>
    emitX s w fr (outTok w fr 4 (valA w fr) (keyA w fr.set) (kvA w fr.set) (sint 32 (valB w fr).toNat) false false))

/-- NEGD (R186): A with its dif negated; -2^31 raises DIF_OVERFLOW. -/
def execNegd (w : CW) (s : State) : Host.Outcome State Fault Refusal :=
  .next (fireSet s w false true true (identity 0x68 w.ty.toNat) fun fr =>
    emitX s w fr (outTok w fr 4 (valA w fr) (keyA w fr.set) (kvA w fr.set) (-(difOf w.sa fr.set.a)) false false))

end Sys2Proof.Machine
end

