-- ==== Sys2Proof/Machine/Streams.lean ====
section
/-! DEFINITION. Counting, folding and sorted streams (R176 to R185, R437). -/

namespace Sys2Proof.Machine

open Sys2Proof

/-- A running state that has seen nothing. -/
def RunSt.start : RunSt := ⟨0, 0, none, 0, 0, false⟩

/-- The state entry of a firing's identity, and whether the firing starts it: the one that was claimed as the set was accepted, else one
allocated now; none where no entry can be had (R437; log 116). -/
def openState (s : State) (sl : Slot) (id : Ident) : Option (RunSt × Bool × State) :=
  match stateEntry s sl.core sl.e id with
  | some r => some (r, false, s)
  | none =>
    if (mstoreOf s sl.core).any (isClaimOf sl.e id) then
      some (RunSt.start, true, setMstore s sl.core (mapIf (isClaimOf sl.e id) (fun m => { m with kind := .state RunSt.start }) (mstoreOf s sl.core)))
    else (allocEntry s sl.core sl.e id (.state RunSt.start) none none none none).map fun s => (RunSt.start, true, s)

/-- The count item of allocating (+1) or freeing (-1) state at a firing's time (R212). -/
def stateItem (fr : Firing) (n : Int) : CountItem := ⟨fr.node.stage, fr.set.id.time, n⟩

/-- A stream firing under its own rule: an END of A or P, a predicate that does not match (the set skips as under R122; log 20), a NUL on A,
or a record. -/
def streamFire (s : State) (w : CW) (onEnd onRec : Firing → RunSt → Bool → State → State) : State :=
  fireOwn s fun fr =>
    let fin := isEnd fr.set.a || isEnd fr.set.p
    if !fin && !pMatches w fr.set.p then conclude s w fr true false 0 (both w fr true false nulTok)
    else if !fin && isNul fr.set.a then commit s w fr (noEmit false)
    else if fin then
      match stateEntry s fr.sl.core fr.sl.e fr.set.id with
      | some r => onEnd fr r true s
      | none => onEnd fr RunSt.start false s
    else
      match openState s fr.sl fr.set.id with
      | none => faultFiring s w fr true false Code.matchOverflow 0
      | some (r, new, s2) => onRec fr r new s2

/-- The commit of a firing that has already changed the matching store: s2 holds the changes, which stand only if there is room. -/
def commitFrom (s s2 : State) (w : CW) (fr : Firing) (r : Except Nat Emit) : State :=
  match r with
  | .error code => faultFiring s w fr true false code 0
  | .ok e => if hasRoom s fr.sl e then commit s2 w fr e else s

/-- CNT (R176): counts a stream's tokens; at its END the count and an END on X. -/
def execCnt (w : CW) (s : State) : Host.Outcome State Fault Refusal :=
  .next (streamFire s w
    (fun fr r had s2 =>
      commitFrom s (freeState s2 fr.sl.core fr.sl.e fr.set.id) w fr (do
        let c ← outTok w fr 4 (extend w.ty.toNat r.count.toNat) 0 false 1 false false
        let e ← endTok w fr 4
        return ⟨[c, e], [], 0, if had then [stateItem fr (-1)] else [], false⟩))
    (fun fr r new s2 =>
      commitFrom s (setState s2 fr.sl.core fr.sl.e fr.set.id { r with count := r.count + 1 }) w fr
        (.ok ⟨[], [], 0, if new then [stateItem fr 1] else [], true⟩)))

/-- SCAN (R184): the running sum of a sorted stream, inclusive or exclusive. -/
def execScan (w : CW) (s : State) : Host.Outcome State Fault Refusal :=
  .next (streamFire s w
    (fun fr r had s2 =>
      commitFrom s (freeState s2 fr.sl.core fr.sl.e fr.set.id) w fr (do
        let l ← if w.fn = 1 then (outTok w fr 4 (extend w.ty.toNat r.count.toNat) r.recs true 1 false false).map fun t => [t] else .ok []
        let e ← endTok w fr 4
        return ⟨l ++ [e], [], 0, if had then [stateItem fr (-1)] else [], false⟩))
    (fun fr r new s2 =>
      let sum := r.count + valA w fr
      let out := extend w.ty.toNat (if w.fn = 1 then r.count else sum).toNat
      commitFrom s (setState s2 fr.sl.core fr.sl.e fr.set.id { r with count := sum, recs := r.recs + 1 }) w fr (do
        let t ← outTok w fr 4 out (keyA w fr.set) (kvA w fr.set) (difOf w.sa fr.set.a) false false
        return ⟨[t], [], 0, if new then [stateItem fr 1] else [], true⟩)))

/-- The width in bits at which a type's values are compared bit for bit (R185). -/
def valWidth (ty : Nat) : Nat := if ty < 8 then widthOf ty else if ty = 8 then 32 else 64

/-- The record that a flush of CONSOL's run emits, if its dif is not zero (R185). -/
def flushRun (w : CW) (fr : Firing) (r : RunSt) : Except Nat (List Token) :=
  match r.run with
  | none => .ok []
  | some t => if t.dif = 0 then .ok [] else (outTok w fr 4 t.val t.key t.kv t.dif.toInt false false).map fun x => [x]

/-- CONSOL (R185): adjacent records equal in KEY and VAL merge, their difs summed exactly. -/
def execConsol (w : CW) (s : State) : Host.Outcome State Fault Refusal :=
  .next (streamFire s w
    (fun fr r had s2 =>
      commitFrom s (freeState s2 fr.sl.core fr.sl.e fr.set.id) w fr (do
        let l ← flushRun w fr r
        let e ← endTok w fr 4
        return ⟨l ++ [e], [], 0, if had then [stateItem fr (-1)] else [], false⟩))
    (fun fr r new s2 =>
      let rec_ : Token := { (fr.set.a.getD default) with val := valA w fr }
      let n := 2 ^ valWidth w.ty.toNat
      let items := if new then [stateItem fr 1] else []
      match r.run with
      | some t =>
        if t.key = rec_.key && t.val.toNat % n = rec_.val.toNat % n then
          let d := t.dif.toInt + rec_.dif.toInt
          if d < -(2 ^ 31 : Int) || (2 ^ 31 : Int) ≤ d then faultFiring s w fr true false Code.difOverflow 0
          else commitFrom s (setState s2 fr.sl.core fr.sl.e fr.set.id { r with run := some { t with dif := BitVec.ofInt 32 d } }) w fr
            (.ok ⟨[], [], 0, items, true⟩)
        else
          commitFrom s (setState s2 fr.sl.core fr.sl.e fr.set.id { r with run := some rec_ }) w fr
            ((flushRun w fr r).map fun l => ⟨l, [], 0, items, true⟩)
      | none =>
        commitFrom s (setState s2 fr.sl.core fr.sl.e fr.set.id { r with run := some rec_ }) w fr (.ok ⟨[], [], 0, items, true⟩)))

/-- One step of TRED's fold (R178): rounded at each step under RNE, its flags to the context. -/
def foldOp (fn ty : Nat) (acc v : W64) : W64 × BitVec 5 :=
  let a := acc.toNat
  let b := v.toNat
  if ty < 8 then
    match fn with
    | 0 => intArith 0 ty false a b 0
    | 1 => (intMinMax false ty a b, 0)
    | 2 => (intMinMax true ty a b, 0)
    | 3 => (bitwiseOp (fun x y => x &&& y) ty a b, 0)
    | 4 => (bitwiseOp (fun x y => x ||| y) ty a b, 0)
    | _ => (bitwiseOp (fun x y => x ^^^ y) ty a b, 0)
  else
    let f := fmtOf ty
    let a := a % 2 ^ f.w
    let b := b % 2 ^ f.w
    packed ty (match fn with
      | 0 => farith 0 f 0 a b 0
      | 1 => fminmax false f a b
      | _ => fminmax true f a b)

/-- A set of TRED or ALL that waited becomes the next one and follows into the issue queue (R177). -/
def promote (s : State) (sl : Slot) (n : Node) (id : Ident) : State :=
  match first? (isOperandsOf sl.e id) (mstoreOf s sl.core) with
  | none => s
  | some m => if (operandPorts n.word).all fun p => (onPort (entrySet m) p).isSome then markDone s sl id else s

/-- TRED and ALL (R177): the token of SEQ next is folded or gathered; the last of n emits and frees the state; a SEQ at or beyond n, or
below next, raises SEQ_RANGE. -/
def foldFire (s : State) (w : CW) (all : Bool) : State :=
  fireOwn s fun fr =>
    let n := w.imm.toNat
    let sid : Ident := { fr.set.id with seq := 0 }
    let q := fr.set.id.seq.toNat
    let cur := (stateEntry s fr.sl.core fr.sl.e sid).getD RunSt.start
    if n ≤ q || q < cur.next then faultFiring s w fr true false Code.seqRange 0
    else if !isEnd fr.set.a && !pMatches w fr.set.p then conclude s w fr true false 0 (both w fr true false nulTok)
    else if cur.next < q then
      match allocEntry s fr.sl.core fr.sl.e fr.set.id .operands fr.set.a none none fr.set.p with
      | some s2 => noteIssue (popIq s2 fr.sl) fr
      | none => faultFiring s w fr true false Code.matchOverflow 0
    else match openState s fr.sl sid with
      | none => faultFiring s w fr true false Code.matchOverflow 0
      | some (r, new, s2) =>
        let live := !isNul fr.set.a && !isEnd fr.set.a
        let step : W64 × BitVec 5 := if all || !r.any then (valA w fr, 0) else foldOp w.fn.toNat w.ty.toNat r.acc (valA w fr)
        let r2 : RunSt := { r with
          next := r.next + 1
          acc := if all then valA w fr else if live then step.1 else r.acc
          any := r.any || live }
        let fl : BitVec 5 := if live && !all then step.2 else 0
        let out : Firing := { fr with set := { fr.set with id := sid } }
        if r2.next = n then
          commitFrom s (freeState s2 fr.sl.core fr.sl.e sid) w fr (do
            let t ← if all then outTok w out 4 r2.acc 0 false 1 false false
              else if r2.any then outTok w out 4 (extend w.ty.toNat r2.acc.toNat) 0 false 1 false false
              else nulTok w out 4
            return ⟨[t], [], fl, if new then [] else [stateItem fr (-1)], live⟩)
        else
          let s3 := setState s2 fr.sl.core fr.sl.e sid r2
          let s4 := commitFrom s s3 w fr (.ok ⟨[], [], fl, if new then [stateItem fr 1] else [], live⟩)
          promote s4 fr.sl fr.node { fr.set.id with seq := BitVec.ofNat 24 r2.next }

/-- TRED (R177, R178). -/
def execTred (w : CW) (s : State) : Host.Outcome State Fault Refusal := .next (foldFire s w false)

/-- ALL (R177). -/
def execAll (w : CW) (s : State) : Host.Outcome State Fault Refusal := .next (foldFire s w true)

/-! ## Sorted streams -/

/-- The dif of a record from one side alone (R182). -/
def oneSide (w : CW) (t : Token) : Int := if w.dm = 2 then -t.dif.toInt else if w.dm = 3 then 1 else t.dif.toInt

/-- The dif of a record from both sides (R105, R182). -/
def twoSides (w : CW) (a b : Token) : Int :=
  if w.dm = 0 then a.dif.toInt * b.dif.toInt else if w.dm = 1 then a.dif.toInt else if w.dm = 2 then -a.dif.toInt else 1

/-- A record a walk step emits: KEY with KV set (R182). -/
def walkRec (w : CW) (fr : Firing) (port : Nat) (t : Token) (val : W64) (dif : Int) : Except Nat Token :=
  outTok w fr port val t.key true dif false false

/-- The three walk instructions. -/
inductive WalkOp where
  | union | isect | minus
  deriving DecidableEq, Repr

/-- What a step on equal keys emits: UNION by its mode, ISECT both records, MINUS nothing (R182, R183). -/
def walkBoth (op : WalkOp) (w : CW) (fr : Firing) (a b : Token) : Except Nat Emit :=
  match op with
  | .minus => .ok (noEmit true)
  | .isect => do
    let x ← walkRec w fr 4 a a.val (twoSides w a b)
    let y ← walkRec w fr 5 b b.val (twoSides w a b)
    return ⟨[x], [y], 0, [], true⟩
  | .union =>
    let mode := w.fn.toNat % 8
    if mode = 0 then do
      let x ← walkRec w fr 4 a a.val (oneSide w a)
      let y ← walkRec w fr 4 b b.val (oneSide w b)
      return ⟨[x, y], [], 0, [], true⟩
    else if mode = 4 then do
      let x ← walkRec w fr 4 a a.val (oneSide w a)
      return ⟨[x], [], 0, [], true⟩
    else do
      let ty := w.ty.toNat
      let r := foldOp (mode - 1) ty a.val b.val
      let zero := if ty < 8 then r.1.toNat % 2 ^ widthOf ty == 0 else r.1.toNat % 2 ^ ((fmtOf ty).w - 1) == 0
      let x ← walkRec w fr 4 a r.1 (twoSides w a b)
      return ⟨if w.fn.getLsbD 3 && zero then [] else [x], [], r.2, [], true⟩

/-- What one walk step emits (R182). A NUL head is consumed without effect (R179). -/
def walkStep (op : WalkOp) (w : CW) (fr : Firing) (a b : Token) : Except Nat Emit :=
  if a.nul || b.nul then .ok (noEmit false)
  else if a.fin && b.fin then do
    let x ← endTok w fr 4
    let y ← if op == .isect then (endTok w fr 5).map fun t => [t] else .ok []
    return ⟨[x], y, 0, [], false⟩
  else if !b.fin && (a.fin || b.key.toNat < a.key.toNat) then do
    let x ← if op == .union then (walkRec w fr 4 b b.val (oneSide w b)).map fun t => [t] else .ok []
    return ⟨x, [], 0, [], true⟩
  else if b.fin || a.key.toNat < b.key.toNat then do
    let x ← if op == .isect then .ok [] else (walkRec w fr 4 a a.val (oneSide w a)).map fun t => [t]
    return ⟨x, [], 0, [], true⟩
  else walkBoth op w fr a b

/-- The heads that a walk step consumes (R179, R182). -/
def walkTakes (a b : Token) : Bool × Bool :=
  if a.nul then (true, false)
  else if b.nul then (false, true)
  else if a.fin && b.fin then (true, true)
  else if !b.fin && (a.fin || b.key.toNat < a.key.toNat) then (false, true)
  else if b.fin || a.key.toNat < b.key.toNat then (true, false)
  else (true, true)

/-- Whether a walk's predicate matches, none while its token has not come: one token on P stands for the whole walk (R27; log 20). -/
def walkPred (w : CW) (hp : Option Token) : Option Bool := if w.pm = 0 then some true else hp.map fun p => !p.fin && pMatches w (some p)

/-- What a walk step puts out: its records, or, where the predicate does not match, a NUL for the records that it consumes. -/
def walkOut (op : WalkOp) (w : CW) (fr : Firing) (a b : Token) (ok : Bool) : Except Nat Emit :=
  if ok || a.nul || b.nul || (a.fin && b.fin) then walkStep op w fr a b
  else both w fr true (op == .isect) nulTok

/-- A firing of UNION, ISECT or MINUS: one walk step once both streams, and P under a predicate, offer a head; the step consumes its heads and
puts out its records, or the
node parks with its walk intact (R180 to R182). DESIGN CHOICE (log 143): a NUL head too waits until the other stream offers a head. -/
def walkFire (s : State) (w : CW) (op : WalkOp) : State :=
  match s.focus with
  | .slot sl =>
    let wk := walkOf s sl
    match wk.id, wk.ha, wk.hb with
    | some id, some a, some b =>
      match bareFiring s id, walkPred w wk.hp with
      | some fr, some ok =>
        if !(parkedOf s sl).isEmpty then s
        else if bareBreak s fr then breakSet (markBare s sl) fr
        else match walkOut op w fr a b ok with
          | .error code => parkSet s sl fr.node fr.set code 0 (.core sl.core)
          | .ok e =>
            let c := walkTakes a b
            let last := a.fin && b.fin && c.1 && c.2
            let fr := { fr with set := { fr.set with
              a := if c.1 then some a else none, b := if c.2 then some b else none, p := if last then wk.hp else none } }
            if hasRoom s sl e then
              let s := setWalk s sl (if last then WalkSt.none_
                else ⟨some id, if c.1 then none else some a, if c.2 then none else some b, wk.hp, false⟩)
              apply s w fr e (consumed fr.node fr.set) (flushAfter w fr.set e)
            else s
      | _, _ => s
    | _, _, _ => s
  | _ => s

/-- UNION (R182, R183). -/
def execUnion (w : CW) (s : State) : Host.Outcome State Fault Refusal := .next (walkFire s w .union)

/-- ISECT (R182). -/
def execIsect (w : CW) (s : State) : Host.Outcome State Fault Refusal := .next (walkFire s w .isect)

/-- MINUS (R182). -/
def execMinus (w : CW) (s : State) : Host.Outcome State Fault Refusal := .next (walkFire s w .minus)

end Sys2Proof.Machine
end

