-- ==== Sys2Proof/Machine/TimeOps.lean ====
section
/-! DEFINITION. Loop and time instructions, capabilities, probes and the trackers (R203 to R214, R217 to R224). -/

namespace Sys2Proof.Machine

open Sys2Proof

/-! ## Loop instructions (R206) -/

/-- ENTER (R206): each token of A or B passes with its time unchanged; a NUL on B ends here. -/
def execEnter (w : CW) (s : State) : Host.Outcome State Fault Refusal :=
  .next (fireOwn s fun fr =>
    match fr.set.a, fr.set.b with
    | none, none => commit s w fr (noEmit false)
    | some u, _ =>
      conclude s w fr true false 0 (do
        let t ← outTok w fr 4 u.val u.key u.kv (if w.dm = 2 then -u.dif.toInt else if w.dm = 3 then 1 else u.dif.toInt) u.nul u.fin
        return ⟨[t], [], 0, [], false⟩)
    | none, some u =>
      if u.nul then commit s w fr (noEmit false)
      else conclude s w fr true false 0 (do
        let t ← outTok w fr 4 u.val u.key u.kv (if w.dm = 2 then -u.dif.toInt else if w.dm = 3 then 1 else u.dif.toInt) u.nul u.fin
        return ⟨[t], [], 0, [], false⟩))

/-- FEED and LEAVE (R206): A with the output's time action, as an END, a NUL or itself. -/
def loopBack (s : State) (w : CW) : State :=
  fireOwn s fun fr =>
    conclude s w fr true false 0 (do
      let t ← if isEnd fr.set.a then endTok w fr 4
        else if !pMatches w fr.set.p then nulTok w fr 4
        else if isNul fr.set.a then nulTok w fr 4
        else outTok w fr 4 (valA w fr) (keyA w fr.set) (kvA w fr.set) (difOut w fr.set) false false
      return ⟨[t], [], 0, [], false⟩)

/-- FEED (R206): round raised by one, TIME_OVERFLOW past the last round. -/
def execFeed (w : CW) (s : State) : Host.Outcome State Fault Refusal := .next (loopBack s w)

/-- LEAVE (R206): round set to 0. -/
def execLeave (w : CW) (s : State) : Host.Outcome State Fault Refusal := .next (loopBack s w)

/-! ## Capabilities (R207 to R210) -/

/-- The capability of an input stage of a launch (R207). -/
def capOf (s : State) (lid stage : Nat) : Option Time := (launch? s lid).bind fun l => tget l.caps stage

/-- A set's firing with its time replaced. -/
def atTime (fr : Firing) (t : Time) : Firing := { fr with set := { fr.set with id := { fr.set.id with time := t } } }

/-- A firing that emits at a time of its own: the tokens are built at that time, the consumption is recorded at the set's. -/
def emitAt (s : State) (w : CW) (fr : Firing) (x : Except Nat Token) (items : List CountItem) (ex : Bool) : State :=
  conclude s w fr true false 0 (x.map fun t => ⟨[t], [], 0, items, ex⟩)

/-- TSET (R209): A's token at the time in B, which the stage's capability must allow. -/
def execTset (w : CW) (s : State) : Host.Outcome State Fault Refusal :=
  .next (fireOwn s fun fr =>
    if isNul fr.set.b || isEnd fr.set.b then commit s w fr (noEmit false)
    else
      let t := timeOf (valB w fr)
      match capOf s fr.node.lid fr.node.stage with
      | none => faultFiring s w fr true false Code.timeCap 0
      | some c =>
        if tle c t then
          let at_ := atTime fr t
          let go := !isEnd fr.set.a && pMatches w fr.set.p && !isNul fr.set.a
          emitAt s w fr (if isEnd fr.set.a then endTok w at_ 4
            else if go then outTok w at_ 4 (valA w fr) (keyA w fr.set) (kvA w fr.set) (difOut w fr.set) false false
            else nulTok w at_ 4) [] go
        else faultFiring s w fr true false Code.timeCap 0)

/-- TIMEV (R222): the time word of the set's time. -/
def execTimev (w : CW) (s : State) : Host.Outcome State Fault Refusal :=
  .next (fireSet s w false true false (fun _ => 0) fun fr =>
    conclude s w fr true false 0 ((resTok w fr 4 (timeWord fr.set.id.time)).map fun t => ⟨[t], [], 0, [], true⟩))

/-- A capability change with its counts, sent at once (R208, R210, R213). -/
def capChange (s : State) (w : CW) (fr : Firing) (old : Time) (new : Option Time) (out : Time) : State :=
  let st := fr.node.stage
  let items : List CountItem := ⟨st, old, -1⟩ :: (match new with
    | some t => [⟨st, t, 1⟩]
    | none => [])
  match outTok w (atTime fr out) 4 (timeWord out) 0 false 1 false false with
  | .error code => faultFiring s w fr true false code 0
  | .ok t =>
    let e : Emit := ⟨[t], [], 0, items, true⟩
    if hasRoom s fr.sl e then
      let s2 := modLaunch (popIq s fr.sl) fr.node.lid fun l =>
        { l with caps := match new with
          | some n => tset l.caps st n
          | none => tdel l.caps st }
      apply s2 w fr e (consumed fr.node fr.set) true
    else s

/-- A set of CAPA or CAPD that changes nothing; the count table is sent after it as after every firing of these (R210, R213). -/
def capNone (s : State) (w : CW) (fr : Firing) : State := apply (popIq s fr.sl) w fr (noEmit false) (consumed fr.node fr.set) true

/-- CAPA (R210): the stage's capability advances to the time in A. -/
def execCapa (w : CW) (s : State) : Host.Outcome State Fault Refusal :=
  .next (fireOwn s fun fr =>
    if isEnd fr.set.a || isNul fr.set.a then capNone s w fr
    else
      let t := timeOf (valA w fr)
      match capOf s fr.node.lid fr.node.stage with
      | none => faultFiring s w fr true false Code.timeCap 0
      | some c => if tle c t then capChange s w fr c (some t) t else faultFiring s w fr true false Code.timeCap 0)

/-- CAPD (R210): the stage's capability is dropped. -/
def execCapd (w : CW) (s : State) : Host.Outcome State Fault Refusal :=
  .next (fireOwn s fun fr =>
    if isEnd fr.set.a || isNul fr.set.a then capNone s w fr
    else match capOf s fr.node.lid fr.node.stage with
      | none => faultFiring s w fr true false Code.timeCap 0
      | some c => capChange s w fr c none c)

/-! ## PROBE and FRONT -/

/-- A released token leaves on X unchanged but for its CTX, and its consumption is recorded (R212, R220). -/
def releaseTok (s : State) (w : CW) (fr : Firing) (t : Token) : State :=
  let e : Emit := ⟨[{ t with ctx := w.xc }], [], 0, [], true⟩
  apply s w fr e (consumed fr.node fr.set) (flushAfter w fr.set e)

/-- The state without one claimed entry of an identity. -/
def dropClaim (s : State) (sl : Slot) (id : Ident) : State :=
  if (mstoreOf s sl.core).any (isClaimOf sl.e id) then setMstore s sl.core (dropFirst (isClaimOf sl.e id) (mstoreOf s sl.core)) else s

/-- A PROBE's token takes the entry that was claimed as it was accepted, or one allocated now (R220; log 116). -/
def holdTok (s : State) (sl : Slot) (id : Ident) (t : Token) : Option State :=
  if (mstoreOf s sl.core).any (isClaimOf sl.e id) then
    some (setMstore s sl.core (mapFirst (isClaimOf sl.e id) (fun m => { m with kind := .held t }) (mstoreOf s sl.core)))
  else allocEntry s sl.core sl.e id (.held t) none none none none

/-- PROBE (R220): takes a token; it leaves at once when its time has passed and none of its time is held, otherwise it is held in an entry of
its own. -/
def execProbe (w : CW) (s : State) : Host.Outcome State Fault Refusal :=
  .next (fireOwn s fun fr =>
    match fr.set.a with
    | none => s
    | some t =>
      if (heldToks s fr.sl t.time).isEmpty && probePassed s w fr t.time then
        if roomFor s ⟨fr.sl.core, fr.sl.e, 4⟩ 1 then releaseTok (dropClaim (popIq s fr.sl) fr.sl fr.set.id) w fr t else s
      else match holdTok s fr.sl fr.set.id t with
        | some s2 => noteIssue (popIq s2 fr.sl) fr
        | none => faultFiring s w fr true false Code.matchOverflow 0)

/-- Releases the held tokens of a probe whose time has passed, in the order in which they arrived, while X has room. -/
def releaseHeld (s : State) (sl : Slot) (n : Node) : List MEntry → State
  | [] => s
  | m :: l =>
    match m.kind with
    | .held t =>
      if m.e == sl.e && m.id.k == sl.k && passed (frnOf s sl).elems m.id.time && roomFor s ⟨sl.core, sl.e, 4⟩ 1 then
        let s := releaseTok s (CW.unpack n.word) ⟨sl, n, withPort ⟨m.id, none, none, none, none, 0, []⟩ 0 t, false, 0⟩ t
        releaseHeld (setMstore s sl.core ((mstoreOf s sl.core).filter fun x => !(x.e == m.e && x.ord == m.ord))) sl n l
      else releaseHeld s sl n l
    | _ => releaseHeld s sl n l

/-- Writes the spill block of a probe: elements 4 on at byte 8i (R218). -/
def spillFrontier (s : State) (f probe : Nat) (l : List Time) : State :=
  let base := bits (tgetD s.fspb f 0).toNat 55 16 * 2 ^ 16
  if base = 0 then s
  else
    let rec go (s : State) (i : Nat) : List Time → State
      | [] => s
      | t :: r => go (freshWrite s (base + 512 * probe + 8 * i) (leBytes 8 (timeWord t).toNat)) (i + 1) r
    go s 4 (l.drop 4)

/-- The tracker's frontier reaches the registers of one launch's probe at a slot, and the tokens it has passed leave (R217, R218, R220). -/
def frontierTo (sl : Slot) (s : State) (lid : Nat) : State :=
  match launch? s lid, node? s sl with
  | some l, some n =>
    if n.lid != lid then s
    else
      let r := frontierRegs l ((CW.unpack n.word).imm.toNat % 64)
      let changed := frnOf s sl != r
      let s := spillFrontier s sl.core.f (tgetD l.probes sl 0) r.elems
      let s := { s with x := { s.x with frn := tset s.x.frn sl r } }
      let s := if changed then breakAt s .wtrk 4 (nodeKey sl) sl.core.f lid n.ctx (nodeKey sl + Code.break_) t00 0 else s
      if ctxRuns s n.ctx && !isFrozen s sl.core.f n.lid && (parkedOf s sl).isEmpty then releaseHeld s sl n (mstoreOf s sl.core) else s
  | _, _ => s

/-- FRONTIER_UPDATE (R217, R218, R220, R224): the tracker's frontier reaches the registers of every probe at a slot, in whichever copy holds
them; a tracker that holds a record does not go on (R403). -/
def execFrontierUpdate (sl : Slot) (s : State) : Host.Outcome State Fault Refusal :=
  .next (
    if unitHolds s .wtrk then s
    else (s.launches.filter fun p => p.2.probes.any fun q => q.1 == sl).foldl (fun s p => onCopy s p.2.ctx fun s => frontierTo sl s p.1) s)

/-- FRONT (R221): a query that executes waits for the wafer tracker's answer; its output buffer is reserved (R116). -/
def execFront (w : CW) (s : State) : Host.Outcome State Fault Refusal :=
  .next (fireSet s w false true false (fun _ => 0) fun fr =>
    if roomFor s ⟨fr.sl.core, fr.sl.e, 4⟩ 1 then
      let (i, s) := fresh (setHold (popIq s fr.sl) w fr)
      let t := (act w.xt fr.set.id.time).getD fr.set.id.time
      let s := noteIssue (reserve s fr.sl 4 i t fr.set.id.seq) fr
      let s := { s with x := { s.x with frontQ := s.x.frontQ ++ [(fr.sl, { fr.set with port := i })] } }
      sendPkt s (.core fr.sl.core) 0 .wtrk s.wafno 8 (.ask fr.sl fr.node.ctx fr.node.lid i (w.imm.toNat % 64))
    else s)

/-- FRONT's tokens: one for each element of the frontier, in ascending batch, and an END (R221). -/
def frontToks (w : CW) (fr : Firing) (i : Nat) : List Time → Except Nat (List Token)
  | [] => (endTok w fr 4).map fun t => [t]
  | t :: r => do
    let x ← outTok w fr 4 (timeWord t) (BitVec.ofNat 32 i) true 1 false false
    let xs ← frontToks w fr (i + 1) r
    return x :: xs

/-- The tracker's answer at its node: the tokens fill the reserved buffer, and the query's consumption is recorded with them. -/
def frontTold (s : State) (sl : Slot) (rid : Nat) (els : List Time) : State :=
  match first? (fun q : Slot × OpSet => q.1 == sl && q.2.port == rid) s.x.frontQ, node? s sl with
  | some (_, o), some n =>
    let w := CW.unpack n.word
    let s := { s with x := { s.x with frontQ := dropFirst (fun q => q.1 == sl && q.2.port == rid) s.x.frontQ } }
    match frontToks w ⟨sl, n, o, false, 0⟩ 0 els with
    | .error code => parkSet (settle s sl 4 rid []) sl n { o with port := 0 } code 0 (.core sl.core)
    | .ok toks =>
      let its := consumed n o ++ toks.flatMap fun t => produced s sl 4 t
      let s := settle s sl 4 rid toks
      let s := noteFiring (progress (record s sl.core n.lid its true) sl.core.f n.lid) sl.core
      if w.tb = 1 then trace s sl o ((toks.head?.map Token.val).getD 0) else s
  | _, _ => s

/-- A query that has arrived at the wafer tracker, asked by a node of this slot. -/
def askHere (s : State) (sl : Slot) : Option Packet :=
  first? (fun p => arrived s p && (match p.msg with
    | .ask x .. => x == sl
    | _ => false)) s.net

/-- An answer that has arrived at the core of this slot. -/
def toldHere (s : State) (sl : Slot) : Option (Nat × Nat × Nat × List Time) :=
  s.net.findSome? fun p => match p.msg with
    | .told q ctx _ rid els => if q == sl && arrived s p then some (p.id, ctx, rid, els) else none
    | _ => none

/-- The wafer tracker answers a query with the frontier of its stage. -/
def frontAsked (s : State) (p : Packet) : State :=
  match p.msg with
  | .ask sl ctx lid rid q =>
    let els := ((launch? s lid).map fun l => (frontierRegs l q).elems).getD []
    sendPkt (dropPkt s p.id) .wtrk 0 (.core sl.core) s.wafno (8 * els.length) (.told sl ctx lid rid els)
  | _ => s

/-- FRONT_ANSWER (R221): the tracker's answer reaches the node of a slot; where none has come yet, a query that has arrived at the tracker
is answered. -/
def execFrontAnswer (sl : Slot) (s : State) : Host.Outcome State Fault Refusal :=
  .next (match toldHere s sl with
    | some (k, ctx, rid, els) => onCopy (dropPkt s k) ctx fun s => frontTold s sl rid els
    | none => match askHere s sl with
      | some p => frontAsked s p
      | none => s)

/-! ## Trackers (R214) -/

/-- COUNT_MESSAGE (R214): a message that has arrived at its field tracker is added to its launch's net change. -/
def execCountMessage (pkt : Nat) (s : State) : Host.Outcome State Fault Refusal :=
  .next (match pkt? s pkt with
    | none => s
    | some p => match p.msg with
      | .counts lid c items =>
        if arrived s p then
          { dropPkt s pkt with ftrk := tmod s.ftrk (c.f, lid) [] fun l => addItems l items }
        else s
      | _ => s)

/-- TRACKER_PEER_CHANGE (R214): a peer's net changes are added to the launch's counts; a wafer marked dead keeps its last changes (R224). -/
def execTrackerPeerChange (w lid : Nat) (items : List CountItem) (s : State) : Host.Outcome State Fault Refusal :=
  .next (match launch? s lid with
    | none => s
    | some l =>
      if l.wafers.contains w && w != s.wafno && !s.dead.getLsbD w then
        modLaunch s lid fun l => { l with counts := addItems l.counts items }
      else s)

end Sys2Proof.Machine
end

