-- ==== Sys2Proof/Machine/Codec.lean ====
section
/-! DEFINITION. The block codec of compressed pages (R362 to R364) and the stored bytes of HBM under context keys (R425). -/

namespace Sys2Proof.Machine

open Sys2Proof

/-! ## Units (R362, R363) -/

/-- The mode of sub-block i in a unit header: 0 ZERO, 1 CONST, 2 DELTA, 3 RAW. -/
def hdrMode (h i : Nat) : Nat := bits h (2 * i + 1) (2 * i)

/-- The width of sub-block i. -/
def hdrWid (h i : Nat) : Nat := bits h (20 + 5 * i) (16 + 5 * i)

/-- The stored sectors of a unit. -/
def hdrSect (h : Nat) : Nat := bits h 60 56 + 1

/-- The payload bytes of a sub-block. -/
def subLen (h i : Nat) : Nat :=
  match hdrMode h i with
  | 0 => 0
  | 1 => 4
  | 2 => 4 + 8 * hdrWid h i
  | _ => 256

/-- The payload bytes of a unit. -/
def payLen (h : Nat) : Nat := ((List.range 8).map (subLen h)).foldl (· + ·) 0

/-- A header is well formed (R363). -/
def hdrOk (h : Nat) : Bool :=
  h < 2 ^ 61 && ((List.range 8).all fun i => if hdrMode h i == 2 then 1 ≤ hdrWid h i else hdrWid h i == 0)
    && (let p := payLen h; (p + 63) / 64 == hdrSect h || (p == 0 && hdrSect h == 1))

/-- The 64 words of a sub-block as bytes. -/
def wordsBytes (l : List Nat) : List Byte := l.flatMap (leBytes 4)

/-- The bytes of a sub-block from its payload (R363). -/
def decodeSub (h i : Nat) (p : List Byte) : List Byte :=
  match hdrMode h i with
  | 0 => List.replicate 256 0
  | 1 => wordsBytes (List.replicate 64 (leNat (p.take 4)))
  | 2 =>
    let b := leNat (p.take 4)
    let w := hdrWid h i
    let v := leNat ((p.drop 4).take (8 * w))
    wordsBytes ((List.range 64).map fun j => wrap 32 ((b : Int) + sint w (v / 2 ^ (w * j))))
  | _ => p.take 256

/-- The sub-blocks from i on, i counting down from 8 by fuel. -/
def decodeSubs (h : Nat) : Nat → Nat → List Byte → List Byte
  | 0, _, _ => []
  | k + 1, i, p => decodeSub h i p ++ decodeSubs h k (i + 1) (p.drop (subLen h i))

/-- A unit decoded, none when its header is not well formed (R363, R365). -/
def decodeUnit (h : Nat) (p : List Byte) : Option (List Byte) := if hdrOk h then some (decodeSubs h 8 0 p) else none

/-- The 64 words of 256 bytes. -/
def subWords : Nat → List Byte → List Nat
  | 0, _ => []
  | k + 1, b => leNat (b.take 4) :: subWords k (b.drop 4)

/-- The least width from 1 that holds every difference, by fuel; 0 when none up to 31 does (R364). -/
def deltaWid (d : List Int) : Nat → Nat → Nat
  | 0, _ => 0
  | k + 1, w => if d.all fun x => -(2 ^ (w - 1) : Int) ≤ x && x < (2 ^ (w - 1) : Int) then w else deltaWid d k (w + 1)

/-- The bit string of differences at a width, as a number. -/
def packDeltas (w : Nat) : List Int → Nat
  | [] => 0
  | x :: l => wrap w x + 2 ^ w * packDeltas w l

/-- The mode, width and payload the encoder chooses for a sub-block (R364). -/
def encodeSub (b : List Byte) : Nat × Nat × List Byte :=
  let ws := subWords 64 b
  let w0 := ws.headD 0
  if ws.all fun x => x == 0 then (0, 0, [])
  else if ws.all fun x => x == w0 then (1, 0, leBytes 4 w0)
  else
    let d := ws.map fun (x : Nat) => sint 32 (wrap 32 ((x : Int) - (w0 : Int)))
    let w := deltaWid d 31 1
    if w = 0 then (3, 0, b) else (2, w, leBytes 4 w0 ++ leBytes (8 * w) (packDeltas w d))

/-- A unit encoded: header and payload (R364). -/
def encodeSubs : Nat → Nat → List Byte → Nat × List Byte
  | 0, _, _ => (0, [])
  | k + 1, i, b =>
    let (m, w, p) := encodeSub (b.take 256)
    let (h, q) := encodeSubs k (i + 1) (b.drop 256)
    (m * 2 ^ (2 * i) + w * 2 ^ (16 + 5 * i) + h, p ++ q)

/-- A unit's header, with NSECT, and its payload. -/
def encodeUnit (b : List Byte) : Nat × List Byte :=
  let (h, p) := encodeSubs 8 0 b
  (h + (if p.isEmpty then 0 else ((p.length + 63) / 64 - 1) * 2 ^ 56), p)

/-! ## HBM under keys (R425) -/

/-- The key serial of a context's slot; none while the slot is empty. -/
def keySerial (s : State) (ctx : Nat) : Option Nat := (tget s.keys ctx).map XKey.serial

/-- A stored byte of HBM as a key sees it; key 0 stands for accesses that carry no context and see the bytes as their writer does (log 11). -/
def keyByte (s : State) (key pa : Nat) : Byte :=
  let sec := pa / 64
  match tget s.xts sec with
  | none => cellGet s.mem pa
  | some k => if key = 0 || key = k then cellGet s.mem pa else Config.wrongKey key k (cellsRead s.mem (sec * 64) 64) pa

/-- n stored bytes of HBM as a key sees them. -/
def keyRead (s : State) (key pa n : Nat) : List Byte := (List.range n).map fun i => keyByte s key (pa + i)

/-- A sector re-encrypted whole under a key: the bytes that key sees become the stored ones. -/
def rekeySector (s : State) (key sec : Nat) : State :=
  if key = 0 then s
  else if tget s.xts sec = some key then s
  else
    let bs := keyRead s key (sec * 64) 64
    { s with mem := cellsWrite s.mem (sec * 64) bs, xts := tset s.xts sec key }

/-- The sectors that a range touches. -/
def sectorsOf (pa n : Nat) : List Nat := (List.range ((pa + n + 63) / 64 - pa / 64)).map fun i => pa / 64 + i

/-- Bytes stored in HBM under a key. -/
def keyWrite (s : State) (key pa : Nat) (bs : List Byte) : State :=
  memWrite ((sectorsOf pa bs.length).foldl (fun s x => rekeySector s key x) s) pa bs

/-- The bytes of a CMP unit; none for DECODE_LENGTH (R365). -/
def unitRead (s : State) (key unit : Nat) : Option (List Byte) :=
  let h := (tgetD s.units unit 0).toNat
  let n := if payLen h = 0 then 0 else hdrSect h * 64
  decodeUnit h (keyRead s key unit n)

/-- A CMP unit written whole (R364). -/
def unitWrite (s : State) (key unit : Nat) (bs : List Byte) : State :=
  let (h, p) := encodeUnit bs
  let s := { s with units := tset s.units unit (BitVec.ofNat 64 h) }
  if p.isEmpty then s else keyWrite s key unit (p ++ List.replicate (alignUp p.length 64 - p.length) 0)

/-- The units that a range touches. -/
def unitsOf (pa n : Nat) : List Nat := (List.range ((pa + n + 2047) / 2048 - pa / 2048)).map fun i => (pa / 2048 + i) * 2048

/-- A range of a CMP page read through the decoder (R362). -/
def cmpRead (s : State) (key pa n : Nat) : Option (List Byte) :=
  ((unitsOf pa n).mapM fun u => unitRead s key u).map fun l => (l.flatten.drop (pa % 2048)).take n

/-- A range of a CMP page written: a whole unit is encoded directly, a part of one is decoded, changed and encoded again in one step
(R364). -/
def cmpWrite (s : State) (key pa : Nat) (bs : List Byte) : Option State :=
  (unitsOf pa bs.length).foldlM (fun s u =>
    let lo := if u < pa then pa - u else 0
    let from_ := u + lo - pa
    let part := (bs.drop from_).take (2048 - lo)
    if part.length = 2048 then some (unitWrite s key u part)
    else (unitRead s key u).map fun old => unitWrite s key u (old.take lo ++ part ++ old.drop (lo + part.length))) s

end Sys2Proof.Machine
end

