-- ==== Sys2Proof/Machine/Translate.lean ====
section
/-! DEFINITION. What each request needs (R187, R189, R438), address translation (R412 to R414), and what a home does with stored words:
grants, ECC, keys and the codec (R251, R316, R362, R425). -/

namespace Sys2Proof.Machine

open Sys2Proof

/-! ## Requests by operator -/

/-- The leaf rights of a request: read, write (R438). -/
def opRights : Op → Bool × Bool
  | .ld | .ldw | .tagr | .pwait | .pread | .pfind | .phwait | .phqry | .hseek | .hstat | .stwait => (true, false)
  | .st | .std | .hoist | .armp | .strike | .pnew | .bend | .fill | .phnew | .phreg | .phdrop | .phsig | .acq | .rel => (false, true)
  | .atom | .cas | .fatom | .take | .nextf | .phnext | .hnew | .happ | .hjoin | .hred | .hcomp | .hmrg => (true, true)
  | .cpy | .mcpy | .qpost | .gbind | .bin | .mload | .mstrm | .mdrain | .mread => (true, false)
  | .gfree | .mswap | .mclr | .mmask | .mstat => (false, false)

/-- The access width of a type: 1, 2, 4 or 8 bytes (R67). -/
def tyBytes (ty : Nat) : Nat := if ty < 8 then widthOf ty / 8 else if ty = 8 then 4 else 8

/-- The access width that a request's address is checked against (R187, R229, R259, R276, R287, R295, R343, R385). -/
def opWidth (o : Op) (ty : Nat) : Nat :=
  match o with
  | .ld | .st | .std | .atom | .cas | .fatom | .ldw | .take => tyBytes ty
  | .hoist | .armp | .strike | .tagr | .nextf => 2048
  | .pnew | .bend | .fill | .pwait | .pread | .pfind => 16
  | .phnew | .phreg | .phdrop | .phsig | .phwait | .phnext | .phqry => 32
  | .acq | .rel | .stwait | .gfree => 8
  | .hnew | .happ | .hjoin | .hred | .hseek | .hcomp | .hmrg | .hstat => 8
  | .cpy | .mcpy | .qpost | .gbind | .bin => 64
  | .mload | .mstrm | .mread => 2048
  | .mdrain => 128
  | .mswap | .mclr | .mmask | .mstat => 1

/-- The operators of presence (R259). -/
def isPresence : Op → Bool
  | .ldw | .take | .hoist | .armp | .strike | .tagr | .nextf => true
  | _ => false

/-- The operators on objects in memory-core SRAM (R276, R287, R295). -/
def isObject : Op → Bool
  | .pnew | .bend | .fill | .pwait | .pread | .pfind | .phnew | .phreg | .phdrop | .phsig | .phwait | .phnext | .phqry | .acq | .rel => true
  | _ => false

/-- The history operators (R229). -/
def isHist : Op → Bool
  | .hnew | .happ | .hjoin | .hred | .hseek | .hcomp | .hmrg | .hstat => true
  | _ => false

/-- The streamer operators (R342). -/
def isStreamer : Op → Bool
  | .cpy | .mcpy | .qpost | .gbind | .gfree | .bin => true
  | _ => false

/-- The matrix operators (R384). -/
def isMatrix : Op → Bool
  | .mload | .mswap | .mstrm | .mdrain | .mclr | .mmask | .mstat => true
  | _ => false

/-- The plain accesses. -/
def isPlain : Op → Bool
  | .ld | .st | .std => true
  | _ => false

/-- The atomics. -/
def isAtomic : Op → Bool
  | .atom | .cas | .fatom => true
  | _ => false

/-- The requests that write memory and that a release can count (R297). -/
def isWrite : Op → Bool
  | .st | .std | .atom | .cas | .fatom => true
  | _ => false

/-- A load or store under .AON (R193, R194). -/
def isAon (r : PortReq) : Bool := isPlain r.op && r.w.fn == 1

/-- The releases (R297). -/
def isRelease : Op → Bool
  | .fill | .bend | .phsig | .phnext | .rel | .hoist => true
  | _ => false

/-- The network class of a request (R308). -/
def opClass (o : Op) : Nat := if isObject o then 0 else 1

/-- Which outputs an operator can drive: X and Y (R189, R230, R258, R275, R287, R295, R342, R384). -/
def opDrives : Op → Bool × Bool
  | .ld | .atom | .cas | .fatom | .ldw | .take | .tagr | .nextf | .pwait | .pread | .pfind | .phreg | .phqry | .mstat => (true, true)
  | .st | .std | .acq | .rel => (true, true)
  | .hjoin | .hred => (true, true)
  | .hnew | .happ | .hseek | .hcomp | .hmrg | .hstat => (true, false)
  | _ => (false, true)

/-- Whether an operator emits a token on X when it executes. -/
def opEmitsX : Op → Bool
  | .ld | .atom | .cas | .fatom | .ldw | .take | .tagr | .nextf | .pwait | .pread | .pfind | .phreg | .phqry | .mstat => true
  | _ => false

/-! ## Stored words (R316) -/

/-- The words that a range touches, by word address. -/
def wordsOf (pa n : Nat) : List Nat := (List.range ((pa + n + 7) / 8 - pa / 8)).map fun i => pa / 8 + i

/-- A count one higher, saturating at 2^32 - 1. -/
def satInc (v : W32) : W32 := if v = 0xFFFFFFFF#32 then v else v + 1

/-- CORR of a unit one higher (R313). -/
def bumpCorr (s : State) (u : UnitId) : State :=
  let b := budgetOf s u
  { s with budgets := tset s.budgets u { b with corr := satInc b.corr } }

/-- The words of a range read and corrected (R316); none when one is uncorrectable. -/
def eccRead (s : State) (u : UnitId) : List Nat → Option State
  | [] => some s
  | w :: l =>
    match tget s.ecc w with
    | some .double => none
    | some .single => eccRead (bumpCorr { s with ecc := tdel s.ecc w } u) u l
    | none => eccRead s u l

/-- A write of a range: whole words get fresh check bits, and a word written in part is read first (R304, R316). -/
def eccWrite (s : State) (u : UnitId) (pa n : Nat) : List Nat → Option State
  | [] => some s
  | w :: l =>
    if pa ≤ w * 8 && w * 8 + 8 ≤ pa + n then eccWrite { s with ecc := tdel s.ecc w } u pa n l
    else match eccRead s u [w] with
      | some s => eccWrite s u pa n l
      | none => none

/-! ## Translation (R412, R413) -/

/-- The physical address lies on another wafer, or in a field of the partition (R413). -/
def inPartition (s : State) (p pa : Nat) : Bool :=
  paWafer pa != s.wafno ||
    (let f := if bits pa 47 46 == 0 then bits pa 42 36 / 2 else bits pa 45 40
     (partFields s p).contains f)

/-- Page size at a level, in bits (R412). -/
def levelBits (l : Nat) : Nat := if l = 1 then 34 else if l = 2 then 25 else 16

/-- The index of an address at a level (R412). -/
def levelIx (l va : Nat) : Nat :=
  if l = 0 then bits va 55 45 else if l = 1 then bits va 44 34 else if l = 2 then bits va 33 25 else bits va 24 16

/-- A table word read through its HBM home, none where its read fails (R316, R414). -/
def tableWord (s : State) (a : Nat) : Option Nat :=
  if tget s.ecc (a / 8) = some .double then none else some (memNat s a 8)

/-- The walk from a table at a level: the leaf and its page size in bits, or XLAT (R413). -/
def walkFrom (s : State) (va : Nat) : Nat → Nat → Nat → Except Nat (Nat × Nat)
  | 0, _, _ => .error Code.xlat
  | fuel + 1, l, table =>
    match tableWord s (table + 8 * levelIx l va) with
    | none => .error Code.eccUncorr
    | some e =>
      if !bit e 0 || bits e 63 52 != 0 || bits e 15 6 != 0 then .error Code.xlat
      else if bit e 1 then
        if l = 0 || bits e 51 16 * 2 ^ 16 % 2 ^ levelBits l != 0 then .error Code.xlat else .ok (e, levelBits l)
      else if l = 3 || bits e 5 2 != 0 then .error Code.xlat
      else walkFrom s va fuel (l + 1) (bits e 51 16 * 2 ^ 16)

/-- The walk of an address in a context (R412): through the context table of the partition that owns it. -/
def walkTable (s : State) (ctx va : Nat) : Except Nat (Nat × Nat) :=
  match partOfCtx s ctx with
  | none => .error Code.xlat
  | some p =>
    let base := bits (supr s (homeField s p)).ctxbase.toNat 51 15 * 2 ^ 15
    match tableWord s (base + 64 * ctx) with
    | none => .error Code.eccUncorr
    | some d => if bit d 0 then walkFrom s va 4 0 (bits d 51 16 * 2 ^ 16) else .error Code.xlat

/-- The words that a walk from a table reads, by word address. -/
def walkReads (s : State) (va : Nat) : Nat → Nat → Nat → List Nat
  | 0, _, _ => []
  | fuel + 1, l, table =>
    let a := table + 8 * levelIx l va
    let e := memNat s a 8
    a / 8 :: (if !bit e 0 || bit e 1 || l = 3 then [] else walkReads s va fuel (l + 1) (bits e 51 16 * 2 ^ 16))

/-- A word with a single-bit error is corrected where it stands, and its home counts it (R316). -/
def correctWord (s : State) (w : Nat) : State :=
  if tget s.ecc w = some .single then bumpCorr { s with ecc := tdel s.ecc w } (((decodePA s (8 * w)).map Tgt.home).getD .link) else s

/-- The words that the walk of an address reads, by word address: the context's entry, then at most four of its tables (R412, R414). -/
def walkWords (s : State) (ctx va : Nat) : List Nat :=
  match partOfCtx s ctx with
  | none => []
  | some p =>
    let a := bits (supr s (homeField s p)).ctxbase.toNat 51 15 * 2 ^ 15 + 64 * ctx
    a / 8 :: walkReads s va 4 0 (bits (memNat s a 8) 51 16 * 2 ^ 16)

/-- The words that the walk of an address reads are corrected where they stand (R316). -/
def walkFix (s : State) (ctx va : Nat) : State := (walkWords s ctx va).foldl correctWord s

/-- The homes of the words that a walk reads. -/
def walkHomes (s : State) (ctx va : Nat) : List UnitId :=
  (walkWords s ctx va).map fun w => ((decodePA s (8 * w)).map Tgt.home).getD .link

/-- The PROT cases of a leaf (R413), then R12's XLAT of an unpopulated address: the physical address and CMP. -/
def leafPA (s : State) (ctx va leaf size : Nat) (rights : Bool × Bool) : Except Nat (Nat × Bool) :=
  let pa := bits leaf 51 16 * 2 ^ 16 + va % 2 ^ size
  let cmp := bit leaf 4
  let p := (partOfCtx s ctx).getD 48
  if (rights.1 && !bit leaf 2) || (rights.2 && !bit leaf 3) then .error Code.prot
  else if cmp && bits pa 47 46 != 0 then .error Code.prot
  else if !inPartition s p pa then .error Code.prot
  else if paWafer pa == s.wafno && (decodePA s pa).isNone then .error Code.xlat
  else .ok (pa, cmp)

/-- The pages that an execution state's drains pin. -/
def pinsIn (x : Exec) : List Pin := x.mis.flatMap fun q => (q.2.ctrl ++ q.2.pool).flatMap MCmd.pins

/-- Every pinned page (R415). -/
def pinsOf (s : State) : List Pin :=
  (s.sis.flatMap fun q => q.2.streams.flatMap Stream.pins) ++ pinsIn s.x ++ pinsIn s.sh ++ s.saved.flatMap fun q => pinsIn q.2.exec

/-- The leaf of an address: of a pinned page as it was when it was pinned, else by a walk. -/
def leafOf (s : State) (ctx va : Nat) : Except Nat (Nat × Nat) :=
  match first? (fun p : Pin => p.ctx == ctx && p.page ≤ va && va < p.page + 2 ^ p.size) (pinsOf s) with
  | some p => .ok (p.leaf, p.size)
  | none => walkTable s ctx va

/-- Translation as engines and sequencers ask for it. -/
def translate (s : State) (ctx va : Nat) (rights : Bool × Bool) : Except Nat (Nat × Bool) :=
  if 2 ^ 56 ≤ va then .error Code.xlat
  else match leafOf s ctx va with
    | .error c => .error c
    | .ok (leaf, size) => leafPA s ctx va leaf size rights

/-- A page translated and pinned (R366, R391). -/
def pinPage (s : State) (ctx va : Nat) (rights : Bool × Bool) : Except Nat Pin :=
  match translate s ctx va rights, leafOf s ctx va with
  | .ok _, .ok (leaf, size) => .ok ⟨ctx, va / 2 ^ size * 2 ^ size, size, leaf⟩
  | .error c, _ => .error c
  | _, .error c => .error c

/-- A translation that a core caches for an address (R414). -/
def tlbFind (s : State) (c : CoreId) (ctx va : Nat) : Option TlbE :=
  first? (fun t => t.ctx == ctx && t.page ≤ va && va < t.page + 2 ^ t.size) (tgetD s.tlbs c [])

/-- A translation added to a core's cache of 64; when it is full, the entry numbered evict makes room (R414). -/
def tlbAdd (s : State) (c : CoreId) (t : TlbE) (evict : Nat) : State :=
  let l := tgetD s.tlbs c []
  let l := if 64 ≤ l.length then l.eraseIdx (evict % l.length) else l
  { s with tlbs := tset s.tlbs c (l ++ [t]) }

/-! ## The bytes of the carve-out (R114) -/

/-- What a carve-out record holds for an operand port: VAL, KEY and DIF; of an absent operand they are open (log 28). -/
def portBytes (m : MEntry) (port : Nat) (t : Option Token) : List Byte :=
  match t with
  | some t => leBytes 8 t.val.toNat ++ leBytes 4 t.key.toNat ++ leBytes 4 t.dif.toNat
  | none => leBytes 8 (Config.openValue 3 [m.ord.toNat, port, 0]).toNat ++ leBytes 8 (Config.openValue 3 [m.ord.toNat, port, 1]).toNat

/-- The flag byte of an operand in a record: NUL, END and KV. -/
def flagByte (m : MEntry) (port : Nat) (t : Option Token) : List Byte :=
  leBytes 1 (match t with
    | some t => t.nul.toNat + 2 * t.fin.toNat + 4 * t.kv.toNat
    | none => (Config.openValue 3 [m.ord.toNat, port, 2]).toNat % 8)

/-- The token whose fields stand in the record as operand A's where no operand waits: one that a PROBE holds (log 28). -/
def recordA (m : MEntry) : Option Token :=
  match m.kind with
  | .held t => some t
  | _ => m.a

/-- The ports that a record names present. The table names operands alone: for an entry without any they are open (log 28). -/
def presentByte (m : MEntry) : Nat :=
  match m.kind with
  | .operands => m.a.isSome.toNat + 2 * m.b.isSome.toNat + 4 * m.c.isSome.toNat + 8 * m.p.isSome.toNat
  | _ => (Config.openValue 4 [m.ord.toNat]).toNat % 16

/-- The 128 bytes of a record as the machine lays it out (R114). A state entry's value has no place in the table: it stands somewhere in the
bytes of the operands, which are open (R437; log 28). -/
def recordBase (m : MEntry) : List Byte :=
  leBytes 4 m.id.time.round.toNat ++ leBytes 4 m.id.time.batch.toNat ++ leBytes 3 m.id.seq.toNat ++ leBytes 1 (m.id.k + 8 * m.e)
    ++ leBytes 1 (presentByte m) ++ leBytes 1 1 ++ leBytes 2 0
    ++ portBytes m 0 (recordA m) ++ portBytes m 1 m.b ++ portBytes m 2 m.c ++ portBytes m 3 m.p
    ++ flagByte m 0 (recordA m) ++ flagByte m 1 m.b ++ flagByte m 2 m.c ++ flagByte m 3 m.p
    ++ leBytes 4 m.ord.toNat ++ leBytes 40 0

/-- Bytes with those that software has stored over them (R306). -/
def withRaw (raw : Tbl Nat Byte) (bs : List Byte) : List Byte := bs.zipIdx.map fun q => tgetD raw q.2 q.1

/-- The 128 bytes of a record. -/
def recordBytes (m : MEntry) : List Byte := withRaw m.raw (recordBase m)

/-- The bytes of a store that fall on a record of n bytes, added to those stored over it before. -/
def rawAdd (raw : Tbl Nat Byte) (base n pa : Nat) (bs : List Byte) : Tbl Nat Byte :=
  bs.zipIdx.foldl (fun r q => if base ≤ pa + q.2 && pa + q.2 < base + n then tset r (pa + q.2 - base) q.1 else r) raw

/-- A store touches the n bytes from base on. -/
def touches (base n pa len : Nat) : Bool := base < pa + len && pa < base + n

/-- The value of some bytes of a record. -/
def bytesAt (b : List Byte) (off n : Nat) : Nat := leNat ((b.drop off).take n)

/-- The token that a record holds on a port. -/
def recordTok (b : List Byte) (id : Ident) (port : Nat) : Token where
  val := BitVec.ofNat 64 (bytesAt b (16 + 16 * port) 8)
  key := BitVec.ofNat 32 (bytesAt b (24 + 16 * port) 4)
  dif := BitVec.ofNat 32 (bytesAt b (28 + 16 * port) 4)
  time := id.time
  seq := id.seq
  ctx := BitVec.ofNat 3 id.k
  nul := bit (bytesAt b (80 + port) 1) 0
  fin := bit (bytesAt b (80 + port) 1) 1
  kv := bit (bytesAt b (80 + port) 1) 2

/-- The entry that a record's bytes make of one that software has stored over (R114, R306): none once its valid bit is 0. The value of a state
entry, whose bytes the table does not lay out, stays (log 28). -/
def ofRecord (m : MEntry) : Option MEntry :=
  let b := recordBytes m
  if !bit (bytesAt b 13 1) 0 then none
  else
    let id : Ident := ⟨bytesAt b 11 1 % 8, ⟨BitVec.ofNat 32 (bytesAt b 4 4), BitVec.ofNat 32 (bytesAt b 0 4)⟩, BitVec.ofNat 24 (bytesAt b 8 3)⟩
    let m := { m with e := bytesAt b 11 1 / 8, id := id, ord := BitVec.ofNat 32 (bytesAt b 84 4) }
    let tok (i : Nat) : Option Token := if bit (bytesAt b 12 1) i then some (recordTok b id i) else none
    some (match m.kind with
      | .operands => { m with a := tok 0, b := tok 1, c := tok 2, p := tok 3 }
      | .held _ => { m with kind := .held (recordTok b id 0) }
      | _ => m)

/-- An entry after a store over the record that stands at an address. -/
def overEntry (base pa : Nat) (bs : List Byte) (m : MEntry) : Option MEntry :=
  if touches base 128 pa bs.length then ofRecord { m with raw := rawAdd m.raw base 128 pa bs } else some m

/-- The byte of a record in the carve-out, the top CARVE panes of its core (R60, R114); none where no record lies. -/
def carveByte (s : State) (c : CoreId) (byte : Nat) : Option Byte :=
  let base := 2048 * (192 - tgetD s.x.carve c 0)
  if byte < base then none
  else (first? (fun m : MEntry => m.place == .carve ((byte - base) / 128)) (mstoreOf s c)).bind fun m => (recordBytes m)[(byte - base) % 128]?

/-- A store over the carve-out of a core reaches the records that stand there (R306). -/
def overCarve (s : State) (c : CoreId) (byte : Nat) (bs : List Byte) : State :=
  if tgetD s.x.carve c 0 = 0 then s
  else setMstore s c ((mstoreOf s c).filterMap fun m => match m.place with
    | .carve i => overEntry (2048 * (192 - tgetD s.x.carve c 0) + 128 * i) byte bs m
    | _ => some m)

/-- Scratchpad bytes as they are read: records of the carve-out where there are any. -/
def spadRead (s : State) (c : CoreId) (byte pa n : Nat) : List Byte :=
  if tgetD s.x.carve c 0 = 0 then cellsRead s.mem pa n
  else (List.range n).map fun k => (carveByte s c (byte + k)).getD (cellGet s.mem (pa + k))

/-! ## Records that stand in HBM (R115, R274) -/

/-- Where a record of a core's overflow area stands: at MOVP, in the context of the record's node (R115). -/
def ovflAddr (s : State) (x : Exec) (c : CoreId) (m : MEntry) : Option Nat :=
  match m.place, tget x.nodes ⟨c, m.e, m.id.k⟩ with
  | .ovfl i, some n =>
    match translate s n.ctx (bits (tgetD s.movp c 0).toNat 55 16 * 2 ^ 16 + 128 * i) (false, false) with
    | .ok (a, _) => some a
    | .error _ => none
  | _, _ => none

/-- The byte of a record that an execution state keeps in a core's overflow area. -/
def ovflByte (s : State) (x : Exec) (pa : Nat) : Option Byte :=
  x.mstore.findSome? fun q => q.2.findSome? fun m =>
    (ovflAddr s x q.1 m).bind fun a => if a ≤ pa then (recordBytes m)[pa - a]? else none

/-- An execution state after a store over the records of its overflow areas (R306). -/
def overOvfl (s : State) (pa : Nat) (bs : List Byte) (x : Exec) : Exec :=
  { x with mstore := x.mstore.map fun q => (q.1, q.2.filterMap fun m => match ovflAddr s x q.1 m with
      | some a => overEntry a pa bs m
      | none => some m) }

/-- The 32 bytes of a waiter record (R274), a free one zero. The manual does not lay out the requester's 8 bytes (log 29). -/
def WRec.bytes (r : Option WRec) : List Byte :=
  match r with
  | none => List.replicate 32 0
  | some r => withRaw r.raw <| leBytes 7 r.next ++ leBytes 1 r.kind ++ leBytes 8 r.tail
      ++ leBytes 8 (Config.openValue 5 [r.req.wafer, nodeKey r.req.sl, r.req.set.id.seq.toNat, (timeWord r.req.set.id.time).toNat]).toNat
      ++ leBytes 8 (if 2 ≤ r.kind && r.kind ≤ 4 then r.target.toNat else 0)

/-- The byte of a launch's pool of waiter records. -/
def poolByte (s : State) (pa : Nat) : Option Byte :=
  s.launches.findSome? fun q =>
    if q.2.waiters = 0 then none
    else
      let b := Config.poolBase q.1
      if b ≤ pa && pa < b + 32 * q.2.waiters then (WRec.bytes (tget q.2.pool ((pa - b) / 32)))[(pa - b) % 32]? else none

/-- A waiter record after a store over it (R274, R306): none once its KIND is 0. The requester, whose bytes the manual does not lay out, stays
(log 29). -/
def overRec (base pa : Nat) (bs : List Byte) (r : WRec) : Option WRec :=
  if touches base 32 pa bs.length then
    let r := { r with raw := rawAdd r.raw base 32 pa bs }
    let b := WRec.bytes (some r)
    let kind := bytesAt b 7 1
    if kind = 0 then none
    else some { r with
      next := bytesAt b 0 7
      kind := kind
      tail := bytesAt b 8 8
      target := if 2 ≤ kind && kind ≤ 4 then BitVec.ofNat 32 (bytesAt b 24 4) else r.target }
  else some r

/-- A launch after a store over its pool of waiter records. -/
def overPool (pa : Nat) (bs : List Byte) (lid : Nat) (l : Launch) : Launch :=
  if touches (Config.poolBase lid) (32 * l.waiters) pa bs.length then
    { l with pool := l.pool.filterMap fun q => (overRec (Config.poolBase lid + 32 * q.1) pa bs q.2).map fun r => (q.1, r) }
  else l

/-- Bytes of a save area (R411). -/
def saveSize : Nat := 0x1C800000

/-- The byte of a save area at an address: as CSAVE wrote it, or as it has been stored over since (R411; log 22). -/
def areaByte (s : State) (pa : Nat) : Option Byte :=
  (first? (fun a : SaveArea => a.base ≤ pa && pa < a.base + saveSize) s.areas).map fun a =>
    ((a.cells.find? fun c => c.1 == pa).map fun c => c.2).getD (Config.areaByte a.stamp pa)

/-- A save area after a store over it. -/
def overArea (pa : Nat) (bs : List Byte) (a : SaveArea) : SaveArea :=
  if touches a.base saveSize pa bs.length then { a with cells := bs.zipIdx.map (fun q => (pa + q.2, q.1)) ++ a.cells } else a

/-- No record and no save area stands in HBM. -/
def bareHbm (s : State) : Bool :=
  s.areas.isEmpty && s.launches.all (fun q => q.2.waiters == 0) && (s.x.mstore ++ s.sh.mstore).all fun q => q.2.all fun m => match m.place with
    | .ovfl _ => false
    | _ => true

/-- Bytes read from HBM, with those of the records and save areas that stand there. -/
def hbmOver (s : State) (pa : Nat) (bs : List Byte) : List Byte :=
  if bareHbm s then bs
  else bs.zipIdx.map fun q => ((ovflByte s s.x (pa + q.2)).orElse fun _ => (ovflByte s s.sh (pa + q.2)).orElse fun _ =>
    (poolByte s (pa + q.2)).orElse fun _ => areaByte s (pa + q.2)).getD q.1

/-- A store to HBM reaches the records and save areas that stand there (R306). -/
def overHbm (s : State) (pa : Nat) (bs : List Byte) : State :=
  if bareHbm s then s
  else { s with
    x := overOvfl s pa bs s.x
    sh := overOvfl s pa bs s.sh
    areas := s.areas.map (overArea pa bs)
    launches := s.launches.map fun q => (q.1, overPool pa bs q.1 q.2) }

/-! ## The read of an overflow area (R115, R316) -/

/-- The records that a search for a set of an element reads in the overflow area, by address. -/
def searchAddrs (s : State) (c : CoreId) (e : Nat) (id : Ident) : List Nat :=
  (mstoreOf s c).filterMap fun m => if sameSet e id m then ovflAddr s s.x c m else none

/-- The unit that homes an address of this wafer. -/
def homeUnit (s : State) (pa : Nat) : UnitId := ((decodePA s pa).map Tgt.home).getD .link

/-- A record of the overflow area is read through its home: corrected, or its region freezes in the field of the word (R316, R404). -/
def readOvfl (s : State) (sl : Slot) (n : Node) (id : Ident) (a : Nat) : State × Bool :=
  let u := homeUnit s a
  let s := spend s u 3 (beatsOf 128)
  match eccRead s u (wordsOf a 128) with
  | some s => (s, true)
  | none =>
    let f := ((decodePA s a).map Tgt.field).getD sl.core.f
    (if isFrozen s f n.lid then s else freezeHurt s n.ctx f n.lid ⟨u, Code.eccUncorr, some sl, a, id.time, id.seq, deadWords s a 128⟩, false)

/-- The oldest search that still waits is done. -/
def markSearched : List OvSearch → List OvSearch
  | [] => []
  | o :: l => if o.done then o :: markSearched l else { o with done := true } :: l

/-- OVERFLOW_READ_DONE (R115): the HBM read of the core's oldest search of the overflow area completes; it waits for the budgets of the homes,
and an uncorrectable record keeps it from completing (R312, R316). -/
def execOverflowReadDone (core : CoreId) (s : State) : Host.Outcome State Fault Refusal :=
  .next (match first? (fun o : OvSearch => !o.done) (tgetD s.x.osearch core []) with
    | none => s
    | some o =>
      let done (s : State) : State := { s with x := { s.x with osearch := tmod s.x.osearch core [] markSearched } }
      match offered s o.edge o.dst with
      | none => done s
      | some t =>
        let sl : Slot := ⟨core, o.dst.e, t.ctx.toNat⟩
        match node? s sl with
        | none => done s
        | some n =>
          let l := searchAddrs s core o.dst.e (identOf t)
          if l.any fun a => !underBudget s (homeUnit s a) 3 || unitHolds s (homeUnit s a) then s
          else
            let r := l.foldl (fun r a => if r.2 then readOvfl r.1 sl n (identOf t) a else r) (s, true)
            if r.2 then done r.1 else r.1)

/-! ## Home accesses -/

/-- The tag word of a pane. -/
def ptagOf (s : State) (p : PaneId) : PTag := tgetD s.x.ptag p ⟨0, false, false, false, .empty, 0, 0⟩

/-- The pane of a scratchpad byte (R14). -/
def paneAt (c : CoreId) (byte : Nat) : PaneId := ⟨c, byte / 2048⟩

/-- The pane lies in its core's matching-store carve-out (R60, R251). -/
def inCarve (s : State) (p : PaneId) : Bool := 192 ≤ p.n + tgetD s.x.carve p.core 0

/-- The launch holds the grant of the pane, which lies outside the carve-out (R251). -/
def granted (s : State) (p : PaneId) (lid : Nat) : Bool := tget s.x.grants p == some lid && !inCarve s p

/-- The key an access uses: a context's slot, whose emptiness is PROT (R425), or none for an access without context. -/
def keyOf (s : State) (ctx : Option Nat) : Except Nat Nat :=
  match ctx with
  | none => .ok 0
  | some c => match keySerial s c with
    | some k => .ok k
    | none => .error Code.prot

/-- The words of a CMP unit's stored sectors (R362). -/
def unitWords (s : State) (unit : Nat) : List Nat :=
  let h := (tgetD s.units unit 0).toNat
  if payLen h = 0 then [] else wordsOf unit (64 * hdrSect h)

/-- A CMP unit's header and stored sectors read and corrected (R316, R362). -/
def eccUnit (u : UnitId) (s : State) (unit : Nat) : Option State :=
  match tget s.uecc unit with
  | some .double => none
  | some .single => eccRead (bumpCorr { s with uecc := tdel s.uecc unit } u) u (unitWords s unit)
  | none => eccRead s u (unitWords s unit)

/-- What a read of a range reads is checked and corrected. -/
def eccIn (s : State) (t : Tgt) (pa n : Nat) (cmp : Bool) : Option State :=
  match t, cmp with
  | .hbm .., true => (unitsOf pa n).foldlM (eccUnit t.home) s
  | _, _ => eccRead s t.home (wordsOf pa n)

/-- What a write of a range has to read is checked and corrected: units and words written in part. -/
def eccOut (s : State) (t : Tgt) (pa n : Nat) (cmp : Bool) : Option State :=
  match t, cmp with
  | .hbm .., true => ((unitsOf pa n).filter fun u => u < pa || pa + n < u + 2048).foldlM (eccUnit t.home) s
  | _, _ => eccWrite s t.home pa n (wordsOf pa n)

/-- A CMP unit that was just written stands under fresh check bits. -/
def freshUnit (s : State) (unit : Nat) : State :=
  { s with uecc := tdel s.uecc unit, ecc := (unitWords s unit).foldl (fun t w => tdel t w) s.ecc }

/-- n bytes read at their home, as a context or without one: ECC, key and codec; no bytes are no access. -/
def homeRead (s : State) (ctx : Option Nat) (pa n : Nat) (cmp : Bool) : Except Nat (State × List Byte) :=
  if n = 0 then .ok (s, []) else
  match decodePA s pa with
  | none => .error Code.xlat
  | some t =>
    match eccIn s t pa n cmp with
    | none => .error Code.eccUncorr
    | some s =>
      match t with
      | .hbm .. =>
        match keyOf s ctx with
        | .error c => .error c
        | .ok k =>
          if cmp then (match cmpRead s k pa n with
            | some b => .ok (s, b)
            | none => .error Code.decodeLength)
          else .ok (s, hbmOver s pa (keyRead s k pa n))
      | .spad c byte => .ok (s, spadRead s c byte pa n)
      | _ => .ok (s, cellsRead s.mem pa n)

/-- Bytes written at their home. -/
def homeWrite (s : State) (ctx : Option Nat) (pa : Nat) (bs : List Byte) (cmp : Bool) : Except Nat State :=
  if bs.isEmpty then .ok s else
  match decodePA s pa with
  | none => .error Code.xlat
  | some t =>
    match eccOut s t pa bs.length cmp with
    | none => .error Code.eccUncorr
    | some s =>
      match t with
      | .hbm .. =>
        match keyOf s ctx with
        | .error c => .error c
        | .ok k =>
          if cmp then (match cmpWrite s k pa bs with
            | some s => .ok ((unitsOf pa bs.length).foldl freshUnit s)
            | none => .error Code.decodeLength)
          else .ok (overHbm (keyWrite s k pa bs) pa bs)
      | .spad c byte => .ok (overCarve (memWrite s pa bs) c byte bs)
      | _ => .ok (memWrite s pa bs)

/-- A little-endian value read at its home. -/
def homeNat (s : State) (ctx : Option Nat) (pa n : Nat) (cmp : Bool) : Except Nat (State × Nat) :=
  match homeRead s ctx pa n cmp with
  | .error c => .error c
  | .ok (s, b) => .ok (s, leNat b)

/-- The checks a home applies before any other (R251), and the partition check of a request from another wafer (R413). -/
def homeGuard (s : State) (r : PortReq) (pa : Nat) : Except Nat Unit :=
  if r.wafer != s.wafno && !inPartition s ((partOfCtx s r.ctx).getD 48) pa then .error Code.prot
  else match decodePA s pa with
    | none => .error Code.xlat
    | some (.spad c b) => if granted s (paneAt c b) r.lid then .ok () else .error Code.prot
    | some (.reg ..) => .error Code.prot
    | some _ => .ok ()

/-- The unit that homes a physical address, also on another wafer, whose windows are homed as its stacks are (R13, R303, R356). -/
def paUnit (pa : Nat) : UnitId :=
  match bits pa 47 46 with
  | 0 => let st := bits pa 42 36; .ic (st / 2) (st % 2 * 8 + bits pa 11 9)
  | 3 => regUnit (bits pa 45 40) (bits pa 39 0)
  | _ => .core ⟨bits pa 45 40, bits pa 39 35, bits pa 34 30⟩

/-- A unit's copy of the dead-peer bitmap (R336). -/
def deadFor (s : State) (u : UnitId) : BitVec 16 := tgetD s.deadU u s.dead

/-- The matrix island of a core (R377). -/
def miOf (c : CoreId) : UnitId := .mi c.f (c.cx / 8 + 4 * (c.cy / 12))

/-- Bytes of an answer's payload: X's value, or nothing. -/
def ansPayload (r : PortReq) : Nat := if opEmitsX r.op then 8 else 0

/-- Answers a request: RESP for a REQ request, class 0 for an object step (R308); an island's read is answered to the island. -/
def sendAns (s : State) (home : UnitId) (r : PortReq) (a : Ans) : State :=
  if r.op == .mread then (if a.again then sendPkt s home 2 (miOf r.sl.core) r.wafer 0 (.ans r a) else sendPkt s home 3 (miOf r.sl.core) r.wafer 0 (.pane r a.code []))
  else sendPkt s home (if isObject r.op then 0 else 2) (.core r.sl.core) r.wafer (ansPayload r) (.ans r a)

/-- Answers a request that has waited for a pane: a presence wake travels on class 0 (R308). -/
def sendWake (s : State) (home : UnitId) (r : PortReq) (a : Ans) : State :=
  if r.op == .mread then sendAns s home r a else sendPkt s home 0 (.core r.sl.core) r.wafer (ansPayload r) (.ans r a)

/-- An answer that serves a request with X's value. -/
def ansVal (v : W64) : Ans := ⟨0, false, v, none, none, none, 0⟩

/-- An answer that carries nothing. -/
def ansDone : Ans := ⟨0, false, 0, none, none, none, 0⟩

/-- A refusal. -/
def ansCode (c : Nat) : Ans := ⟨c, false, 0, none, none, none, 0⟩

/-- The retry of R263. -/
def ansRetry : Ans := ⟨0, true, 0, none, none, none, 0⟩

/-- The wait list of a home. -/
def waitlOf (s : State) (u : UnitId) : List WaitE := tgetD s.x.waitl u []

/-- The state with a home's wait list replaced. -/
def setWaitl (s : State) (u : UnitId) (l : List WaitE) : State := { s with x := { s.x with waitl := tset s.x.waitl u l } }

/-- A request that must wait takes the next entry of its home's list of 64, or is answered with a retry (R263). -/
def waitOrRetry (s : State) (u : UnitId) (r : PortReq) (pa : Nat) (cmp : Bool) : State :=
  if ((waitlOf s u).filter fun e => !isAon e.req).length < 64 then setWaitl s u (waitlOf s u ++ [⟨r, pa, cmp⟩]) else sendAns s u r ansRetry

/-- A WSTAMP of a graph waits for a word that a write has touched, and its condition holds (R90). -/
def stampMet (s : State) (pa n : Nat) (g : Graph) : Bool :=
  match g.wait with
  | some (.wstamp _ w cmp v) => w < pa + n && pa < w + 8 && (match homeNat s (some g.ctx) w 8 cmp with
    | .ok (_, x) => v.toNat ≤ x
    | .error _ => false)
  | _ => false

/-- The kernel graphs of an execution state, those whose WSTAMP a write satisfies being ready (R90). -/
def latchGraphs (s : State) (pa n : Nat) (x : Exec) : Exec :=
  { x with graphs := x.graphs.map fun q => (q.1, mapIf (stampMet s pa n) (fun g => { g with wait := some .access }) q.2) }

/-- Some graph of an execution state has a WSTAMP that the write satisfies. -/
def anyStamp (s : State) (pa n : Nat) (x : Exec) : Bool := x.graphs.any fun q => q.2.any (stampMet s pa n)

/-- The monitor's report of a write to the graphs that wait for it (R90): of the copy that holds a scratchpad or an SRAM, of every copy for
HBM. -/
def latchStamps (s : State) (pa n : Nat) : State :=
  if bits pa 47 46 == 0 then
    if anyStamp s pa n s.x || anyStamp s pa n s.sh || s.saved.any fun q => anyStamp s pa n q.2.exec then
      { s with
        x := latchGraphs s pa n s.x
        sh := latchGraphs s pa n s.sh
        saved := s.saved.map fun q => (q.1, { q.2 with exec := latchGraphs s pa n q.2.exec }) }
    else s
  else if anyStamp s pa n s.x then { s with x := latchGraphs s pa n s.x }
  else s

/-- The contexts whose requests wait at a home in a copy that is not live. -/
def waitingAway (s : State) (u : UnitId) : List Nat :=
  ((tgetD s.sh.waitl u [] ++ s.saved.flatMap fun q => tgetD q.2.exec.waitl u []).map fun e => e.req.ctx).eraseDups

/-- Applies an effect on the requests that wait at a home to every copy that holds some: a home of HBM serves them all (R196). A scratchpad or
an SRAM belongs to the copy that stands in x. -/
def eachCopy (s : State) (u : UnitId) (pa : Nat) (f : State → State) : State :=
  if s.swapped.isSome || bits pa 47 46 != 0 then f s else (waitingAway s u).foldl (fun s c => onCopy s c f) (f s)

/-- The value that lets a STWAIT entry go on whose word a write has touched (R354). -/
def stwaitVal (s : State) (pa n : Nat) (e : WaitE) : Option W64 :=
  if e.req.op == .stwait && e.pa < pa + n && pa < e.pa + 8 then
    match homeNat s (some e.req.ctx) e.pa 8 e.cmp with
    | .ok (_, v) => if e.req.val.toNat ≤ v then some (BitVec.ofNat 64 v) else none
    | .error _ => none
  else none

/-- Serves the STWAIT entries of a home whose word a write has changed (R354). -/
def serveStwaits (u : UnitId) (pa n : Nat) (s : State) : State :=
  let l := waitlOf s u
  l.foldl (fun s e => match stwaitVal s pa n e with
    | some v => sendAns s u e.req ⟨0, false, 0, none, some v, some 0, 0⟩
    | none => s) (setWaitl s u (l.filter fun e => (stwaitVal s pa n e).isNone))

/-- Whoever waits for a word that a write has changed: STWAIT (R354) and WSTAMP (R90). -/
def wakeStwait (s : State) (pa n : Nat) : State :=
  let s := latchStamps s pa n
  match decodePA s pa with
  | none => s
  | some t => eachCopy s t.home pa (serveStwaits t.home pa n)

end Sys2Proof.Machine
end

