-- ==== Sys2Proof/Machine/Port.lean ====
section
/-! DEFINITION. A core's memory port: issuing a request (R116, R187, R189), the walker that serves its misses (R414), the wait of a release
(R297, R320), and the answer that comes back (R189, R196, R263). -/

namespace Sys2Proof.Machine

open Sys2Proof

/-! ## Tokens of a request -/

/-- The request as a firing of its set, for the tokens it puts out. -/
def reqFiring (r : PortReq) : Firing := ⟨r.sl, ⟨0, 0, 0, 0⟩, r.set, false, 0⟩

/-- DIF of X: +1 for PHQRY and MSTAT (R294, R392), R105 otherwise. -/
def xDif (r : PortReq) : Int := if r.op == .phqry || r.op == .mstat then 1 else difOut r.w r.set

/-- The tokens of X and Y for an answer (R189, R261): KEY and KV are A's where the answer names none, and Y's VAL is the address. -/
def ansToks (r : PortReq) (a : Ans) : Except Nat (List Token × List Token) := do
  let fr := reqFiring r
  let x ← if opEmitsX r.op then
      (outTok r.w fr 4 a.xval (a.xkey.getD (keyA r.w r.set)) (a.xkey.isSome || kvA r.w r.set) (xDif r) false false).map fun t => [t]
    else .ok []
  let y ← (outTok r.w fr 5 (a.yval.getD (BitVec.ofNat 64 r.va)) (a.ykey.getD (keyA r.w r.set)) (a.ykey.isSome || kvA r.w r.set)
    (difOut r.w r.set) false false).map fun t => [t]
  return (x, y)

/-! ## Checks at the port -/

/-- The address that an operator names on A (R187, R229, R385). -/
def portAddr (op : Op) (a : Nat) : Nat :=
  if isHist op then a / 2 * 2
  else match op with
    | .mload | .mstrm => a / 2048 * 2048
    | _ => a

/-- The operators whose A is no address (R385). -/
def noAddr : Op → Bool
  | .mswap | .mclr | .mmask | .mstat => true
  | _ => false

/-- A virtual address at a core's port: cached, to be walked for, or refused (R414). -/
inductive Xl where
  | hit (pa : Nat) (cmp : Bool)
  | miss
  | bad (code : Nat)
  deriving DecidableEq, Repr

/-- Translation at a core's port. -/
def portXlat (s : State) (c : CoreId) (ctx va : Nat) (rights : Bool × Bool) : Xl :=
  match tlbFind s c ctx va with
  | none => .miss
  | some t => match leafPA s ctx va t.leaf.toNat t.size rights with
    | .error code => .bad code
    | .ok (pa, cmp) => .hit pa cmp

/-- The kind of a physical address (R12). -/
def paKind (pa : Nat) : Nat := bits pa 47 46

/-- The address names a pane of this core that is ARMED (R187 step 7). -/
def ownArmed (s : State) (c : CoreId) (pa : Nat) : Bool :=
  match decodePA s pa with
  | some (.spad d b) => paWafer pa == s.wafno && d == c && (ptagOf s (paneAt d b)).tag == .armed
  | _ => false

/-- The checks of a translated address, in the order of R187 steps 4 to 7, with those of R229, R259, R276 and R287. -/
def portCheck (s : State) (r : PortReq) (pa : Nat) : Option Nat :=
  let k := paKind pa
  if k == 3 then some Code.prot
  else if isAtomic r.op && k == 1 then some Code.atomicTarget
  else if isPresence r.op && k != 1 then some Code.prot
  else if isObject r.op && k != 2 then some Code.prot
  else if paWafer pa != s.wafno && (deadFor s (.core r.sl.core)).getLsbD (paWafer pa) then some Code.peerDead
  else if isHist r.op && r.va % 2048 != 0 then some Code.align
  else if isHist r.op && k != 2 then some Code.prot
  else if isPlain r.op && ownArmed s r.sl.core pa then some Code.paneOwner
  else none

/-- GFREE's A names a place of the window aperture, bound or not, which its island judges (R360): its physical address. -/
def freesWindow (s : State) (r : PortReq) : Option Nat :=
  match walkTable s r.ctx r.va with
  | .error _ => none
  | .ok (leaf, size) =>
    let pa := bits leaf 51 16 * 2 ^ 16 + r.va % 2 ^ size
    if r.op == .gfree && paWafer pa == s.wafno && bits pa 47 43 == 1 then some pa else none

/-- What the port makes of a request. -/
inductive PortSt where
  | go (r : PortReq)
  | miss (va : Nat)
  | bad (code : Nat)
  deriving DecidableEq, Repr

/-- The panes of a NEXTF's set, which must lie in one core (R259): PROT for a page without the rights (R187), PANE_STATE otherwise. -/
def nextfPanes (s : State) (r : PortReq) (pa : Nat) : Except Nat (List Nat) :=
  let m := r.akey.toNat
  if !r.akv || m = 0 || 192 < m then .error Code.paneState
  else (List.range m).mapM fun i =>
    match (if i = 0 then .ok (pa, false) else translate s r.ctx (r.va + 2048 * i) (opRights .nextf)) with
    | .ok (q, _) => if paKind q == 1 && q / 2 ^ 30 == pa / 2 ^ 30 then .ok q else .error Code.paneState
    | .error code => .error (if code = Code.prot then Code.prot else Code.paneState)

/-- Every check that a request meets before it leaves the port (R187, R259, R276). -/
def resolve (s : State) (r : PortReq) : PortSt :=
  if noAddr r.op then .go r
  else if 2 ^ 56 ≤ r.va then .bad Code.xlat
  else if r.va % opWidth r.op r.w.ty.toNat != 0 then .bad Code.align
  else match portXlat s r.sl.core r.ctx r.va (opRights r.op) with
    | .miss => .miss r.va
    | .bad code => (match (if code = Code.xlat then freesWindow s r else none) with
      | some pa => .go { r with pa := pa }
      | none => .bad code)
    | .hit pa cmp =>
      match portCheck s r pa with
      | some code => .bad code
      | none =>
        let r := { r with pa := pa, cpg := cmp }
        if r.op == .bend then
          if 2 ^ 56 ≤ r.va2 then .bad Code.xlat
          else if r.va2 % 16 != 0 then .bad Code.align
          else match portXlat s r.sl.core r.ctx r.va2 (opRights .bend) with
            | .miss => .miss r.va2
            | .bad code => .bad code
            | .hit pb _ =>
              match portCheck s r pb with
              | some code => .bad code
              | none => if paWafer pa == paWafer pb then .go { r with more := [pb] } else .bad Code.prot
        else if r.op == .nextf then
          match nextfPanes s r pa with
          | .ok l => .go { r with more := l }
          | .error code => .bad code
        else .go r

/-! ## Leaving the port -/

/-- The streamer island of a core (R340). -/
def siOf (c : CoreId) : UnitId := .si c.f (2 * (c.cx / 16) + c.cy / 12)

/-- The history's home on this wafer takes requests at its router; an engine's command goes to the island of the core. -/
def reqDest (s : State) (r : PortReq) : UnitId × Nat :=
  if isStreamer r.op then (siOf r.sl.core, s.wafno)
  else if isMatrix r.op then (miOf r.sl.core, s.wafno)
  else (paUnit r.pa, paWafer r.pa)

/-- The share-table regions of a context bound to one of some objects hold this range (R296, R297). -/
def boundTo (s : State) (c : CoreId) (ctx : Nat) (objs : List Nat) (va len : Nat) : Bool :=
  (tgetD s.shares c []).any fun e => e.ctx == ctx && objs.contains e.obj && e.base < va + len && va < e.base + e.len

/-- The share-table regions of a context hold this range, whatever the object. -/
def boundAny (s : State) (c : CoreId) (ctx va len : Nat) : Bool :=
  (tgetD s.shares c []).any fun e => e.ctx == ctx && e.base < va + len && va < e.base + e.len

/-- The writes of a port that have not been acknowledged. -/
def outwOf (s : State) (c : CoreId) : List OutW := tgetD s.x.outw c []

/-- The state with a port's outstanding writes replaced. -/
def setOutw (s : State) (c : CoreId) (l : List OutW) : State := { s with x := { s.x with outw := tset s.x.outw c l } }

/-- The objects that a release names (R297). -/
def releaseObjs (r : PortReq) : List Nat := if r.op == .bend then [r.va, r.va2] else [r.va]

/-- The release has not parked yet for this write's refusal (R320). -/
def untold (r : PortReq) (o : OutW) : Bool := !o.told.contains (r.sl, r.set.id)

/-- The writes a release waits for, or whose refusal keeps it at the port (R297, R320). -/
def releaseWaits (s : State) (r : PortReq) : List OutW :=
  if isRelease r.op then
    (outwOf s r.sl.core).filter fun o => o.ctx == r.ctx && boundTo s r.sl.core r.ctx (releaseObjs r) o.va o.len && untold r o
  else []

/-- Of the writes a release counts, one that its home refused. -/
def refusedOf (l : List OutW) : Option OutW := first? (fun o : OutW => o.code != 0) l

/-- The refused writes among some now know the release that parks for them: a replay of the release alone leaves without them (R320). -/
def tellRefused (s : State) (r : PortReq) (l : List OutW) : State :=
  setOutw s r.sl.core (mapIf (fun o : OutW => o.code != 0 && l.any fun y => y.id == o.id) (fun o => { o with told := o.told ++ [(r.sl, r.set.id)] })
    (outwOf s r.sl.core))

/-- A write leaves its port: it is outstanding, and the refusal that it replays counts no longer (R297, R320). -/
def noteWrite (s : State) (r : PortReq) : State :=
  setOutw s r.sl.core (((outwOf s r.sl.core).filter fun o => !(o.code != 0 && o.node == r.sl && o.ident == r.set.id))
    ++ [⟨r.rid, r.ctx, r.va, tyBytes r.w.ty.toNat, r.sl, r.set.id, 0, []⟩])

/-- Bytes of a request's payload: its data, or nothing. -/
def reqPayload (r : PortReq) : Nat := 24 * r.toks.length + 8

/-- Sends a request from its port (R188, R308); one for another wafer is timed from here (R336). -/
def sendReq (s : State) (r : PortReq) : State :=
  if r.op == .mread then sendPkt s (miOf r.sl.core) 3 (paUnit r.pa) s.wafno 0 (.req r r.pa false) else
  let (dst, w) := reqDest s r
  let u : UnitId := .core r.sl.core
  let s := sendPkt s u (opClass r.op) dst w (reqPayload r) (.req r r.pa r.cpg)
  if w == s.wafno then s else { s with remotes := s.remotes ++ [⟨r.rid, u, w, .req r, ctr s u⟩] }

/-- Counts and progress of the tokens a request puts out once it ends. -/
def finishReq (s : State) (r : PortReq) (n : Node) (xs ys : List Token) (items : List CountItem) : State :=
  let s := settle s r.sl 4 r.rid xs
  let s := settle s r.sl 5 r.rid ys
  let prod := (xs.flatMap fun t => produced s r.sl 4 t) ++ ys.flatMap fun t => produced s r.sl 5 t
  let s := record s r.sl.core n.lid (consumed n r.set ++ prod ++ items) (flushAfter r.w r.set ⟨xs, ys, 0, [], false⟩)
  let s := progress s r.sl.core.f n.lid
  if r.w.tb = 1 then trace s r.sl r.set ((xs.head?.map Token.val).getD 0) else s

/-- The node that issued a request, while its launch still holds the slot. -/
def reqNode (s : State) (r : PortReq) : Option Node :=
  match node? s r.sl with
  | some n => if n.lid == r.lid then some n else none
  | none => none

/-- A request that ends in a fault after it left its firing (R188, R320): its reserved buffers come back, and its node parks, or the fault
goes to the catch node and the set ends as a skip would (R126). -/
def failReq (s : State) (r : PortReq) (code addr : Nat) : State :=
  match reqNode s r with
  | none => s
  | some n =>
    let bare := settle (settle s r.sl 4 r.rid []) r.sl 5 r.rid []
    match catchFor s r.lid r.sl code with
    | none => parkSet bare r.sl n r.set code addr (.core r.sl.core)
    | some c =>
      match both r.w (reqFiring r) (opDrives r.op).1 (opDrives r.op).2 nulTok with
      | .error c2 => parkSet bare r.sl n r.set c2 addr (.core r.sl.core)
      | .ok e =>
        let (s, its) := toCatch s r.lid c r.sl r.set code addr
        let (_, s) := reportFault s { recBase (.core r.sl.core) code 0 5 r.ctx r.sl.core.f r.lid with
          node := nodeWord r.sl code, addr := addr, time := r.set.id.time, seq := r.set.id.seq }
        if opEmitsX r.op then finishReq s r n e.x e.y its
        else if isHist r.op then
          finishReq (putToks (putToks s r.sl 4 e.x) r.sl 5 e.y) r n [] []
            (its ++ (e.x.flatMap fun t => produced s r.sl 4 t) ++ e.y.flatMap fun t => produced s r.sl 5 t)
        else finishReq (putToks s r.sl 4 e.x) r n [] e.y (its ++ e.x.flatMap fun t => produced s r.sl 4 t)

/-- A fault that has to wait, because the catch queue is full (R129) or X has no room for the NUL that no buffer is reserved for. -/
def failWaits (s : State) (r : PortReq) (code : Nat) : Bool :=
  (catchFor s r.lid r.sl code).isSome &&
    (catchFull s r.lid || (!opEmitsX r.op && (opDrives r.op).1 && !roomFor s ⟨r.sl.core, r.sl.e, 4⟩ 1)
      || (isHist r.op && (opDrives r.op).2 && !roomFor s ⟨r.sl.core, r.sl.e, 5⟩ 1))

/-- The address a fault of a request names: the unit's for DECODE_LENGTH (R365), else the request's. -/
def faultAddr (r : PortReq) (code : Nat) : Nat := if code = Code.decodeLength then r.va / 2048 * 2048 else r.va

/-- ST's issued token leaves with the request (R189). -/
def issuedTok (s : State) (r : PortReq) (n : Node) : State :=
  match ansToks r ⟨0, false, 0, none, none, none, 0⟩ with
  | .ok (_, ys) => finishReq s r n [] ys []
  | .error code => parkSet (settle s r.sl 5 r.rid []) r.sl n r.set code r.va (.core r.sl.core)

/-- A request whose checks have passed leaves its port, unless it is a release that waits (R297) or one of whose writes was refused
(R320). -/
def leavePort (s : State) (r : PortReq) : State :=
  match reqNode s r with
  | none => s
  | some n =>
    let ws := releaseWaits s r
    match refusedOf ws with
    | some o => failReq (tellRefused s r ws) r o.code r.va
    | none =>
      if ws.isEmpty then
        let s := sendReq (if isWrite r.op then noteWrite s r else s) r
        if r.op == .st then issuedTok s r n else s
      else { s with x := { s.x with relw := tmod s.x.relw r.sl.core [] fun l => l ++ [⟨r, ws.map OutW.id⟩] } }

/-! ## Issue (R116, R187, R189) -/

/-- The request of a set that executes. -/
def mkReq (s : State) (op : Op) (w : CW) (fr : Firing) : PortReq where
  rid := s.serial
  op := op
  w := w
  wafer := s.wafno
  sl := fr.sl
  lid := fr.node.lid
  ctx := fr.node.ctx
  set := fr.set
  va := portAddr op (addrA w fr).toNat
  va2 := (opVal w fr w.sb fr.set.b true).toNat
  val := valB w fr
  cmp := fr.hold
  pa := 0
  cpg := false
  more := []
  akey := keyA w fr.set
  akv := kvA w fr.set
  toks := fr.set.bs
  stage := fr.node.stage
  xst := targetStages s ⟨fr.sl.core, fr.sl.e, 4⟩ w.xc.toNat
  yst := targetStages s ⟨fr.sl.core, fr.sl.e, 5⟩ w.yc.toNat

/-- Reserves the buffers of the outputs that the set will drive, and writes the hold register under HD (R52, R116). -/
def reserveReq (s : State) (w : CW) (fr : Firing) (r : PortReq) : State :=
  let s := (fresh s).2
  let tx := (act w.xt fr.set.id.time).getD fr.set.id.time
  let ty := (act w.yt fr.set.id.time).getD fr.set.id.time
  let s := setHold (popIq s fr.sl) w fr
  let s := if opEmitsX r.op then reserve s fr.sl 4 r.rid tx fr.set.id.seq else s
  let s := if isHist r.op then s else reserve s fr.sl 5 r.rid ty fr.set.id.seq
  noteIssue s fr

/-- The contexts and 64 KiB pages that a field's walks in progress walk for, each once: misses to one page share a walk (R414). -/
def walkPages (s : State) (f : Nat) : List (Nat × Nat) :=
  ((tgetD s.twalks f []).filterMap fun v => if v.code = 0 then some (v.req.ctx, v.va / 2 ^ 16) else none).eraseDups

/-- The field's walker takes a miss: it joins a walk in progress, or there is room for one more (R414). -/
def walkRoom (s : State) (f ctx va : Nat) : Bool := (walkPages s f).contains (ctx, va / 2 ^ 16) || (walkPages s f).length < 256

/-- The walk that a firing's set waits for at its port, ended or not. -/
def walkFor (s : State) (fr : Firing) (va : Nat) : Option Walk :=
  first? (fun v : Walk => v.req.sl == fr.sl && v.req.set.id == fr.set.id && v.req.ctx == fr.node.ctx && v.va == va) (tgetD s.twalks fr.sl.core.f [])

/-- The set at its element's head waits for the field's walker: it starts its walk with a message of class 1 (R308), waits for it, or faults
with what the walk found. A page
fault strikes at the source port, before the set has issued (R187, R414). -/
def awaitWalk (s : State) (op : Op) (w : CW) (fr : Firing) (r : PortReq) (va : Nat) : State :=
  let f := fr.sl.core.f
  match walkFor s fr va with
  | some v =>
    if v.code = 0 then s
    else faultFiring { s with twalks := tmod s.twalks f [] fun l => l.filter fun x => x != v } w fr (opDrives op).1 (opDrives op).2 v.code va
  | none =>
    if walkRoom s f r.ctx va && underBudget s (.core fr.sl.core) 1 then
      { spend s (.core fr.sl.core) 1 (beatsOf 0) with twalks := tmod s.twalks f [] fun l => l ++ [⟨fr.sl.core, r, va, 0⟩] }
    else s

/-- Issues the request of a set that executes: outputs must have room, a fault of its tokens or of its checks parks the set. The outputs of a history operation are the
history unit's to fill (R234). DESIGN CHOICE (log 142): the tokens are judged before the port's checks of R187. -/
def issueReq (s : State) (op : Op) (w : CW) (fr : Firing) : State :=
  let d := opDrives op
  let r := mkReq s op w fr
  let room := isHist op || (!opEmitsX op || roomFor s ⟨fr.sl.core, fr.sl.e, 4⟩ 1) && roomFor s ⟨fr.sl.core, fr.sl.e, 5⟩ 1
  if !room then s
  else match ansToks r ⟨0, false, 0, none, none, none, 0⟩ with
    | .error code => faultFiring s w fr d.1 d.2 code r.va
    | .ok _ =>
      match resolve s r with
      | .bad code => faultFiring s w fr d.1 d.2 code (faultAddr r code)
      | .miss va => awaitWalk s op w fr r va
      | .go q =>
        if ((refusedOf (releaseWaits s q)).map OutW.code).any (failWaits s q) then s else leavePort (reserveReq s w fr r) q

/-- A firing of an operator that sends a request from the port. -/
def firePort (s : State) (op : Op) (w : CW) : State :=
  fireSet s w true (opDrives op).1 (opDrives op).2 (fun _ => 0) fun fr => issueReq s op w fr

/-! ## Walks (R414) -/

/-- The requests of a field's walker that a finished walk serves: same context, same page. -/
def sameWalk (w v : Walk) (size : Nat) : Bool := v.code == 0 && v.req.ctx == w.req.ctx && v.va / 2 ^ size == w.va / 2 ^ size

/-- The homes of a walk's words answer on class 2 (R308). -/
def spendWalk (s : State) (ctx va : Nat) : State := (walkHomes s ctx va).foldl (fun s u => spend s u 2 (beatsOf 8)) s

/-- TRANSLATION_WALK_COMPLETE (R414): walk n of the field ends; its translation is cached at each core that waits for the page, or each set
that waits learns its fault, and nothing is cached. The walk waits for the budgets of the homes that it reads through (R312). -/
def execTranslationWalkComplete (f n evict : Nat) (s : State) : Host.Outcome State Fault Refusal :=
  .next (match (tgetD s.twalks f [])[n]? with
    | none => s
    | some w =>
      if w.code != 0 || (walkHomes s w.req.ctx w.va).any fun u => !underBudget s u 2 then s
      else
        let s := walkFix (spendWalk s w.req.ctx w.va) w.req.ctx w.va
        match walkTable s w.req.ctx w.va with
        | .error code => { s with twalks := tmod s.twalks f [] fun l => l.map fun v => if sameWalk w v 16 then { v with code := code } else v }
        | .ok (leaf, b) =>
          let served := (tgetD s.twalks f []).filter fun v => sameWalk w v b
          let s := { s with twalks := tmod s.twalks f [] fun l => l.filter fun v => !sameWalk w v b }
          served.foldl (fun s v => if (tlbFind s v.core v.req.ctx v.va).isSome then s
            else tlbAdd s v.core ⟨v.req.ctx, v.va / 2 ^ b * 2 ^ b, b, leaf⟩ evict) s)

/-! ## Releases that wait (R297, R320) -/

/-- RELEASE_PORT_WAIT (R297): release n of a port leaves once no write it counts is outstanding, or parks with a refused write's code. -/
def execReleasePortWait (core : CoreId) (n : Nat) (s : State) : Host.Outcome State Fault Refusal :=
  .next (match (tgetD s.x.relw core [])[n]? with
    | none => s
    | some w =>
      let ws := (outwOf s core).filter fun o => w.waits.contains o.id && untold w.req o
      let gone (s : State) : State := { s with x := { s.x with relw := tmod s.x.relw core [] fun l => l.eraseIdx n } }
      match refusedOf ws with
      | some o => if failWaits s w.req o.code then s else failReq (tellRefused (gone s) w.req ws) w.req o.code w.req.va
      | none => if ws.isEmpty then sendReq (gone s) w.req else s)

/-! ## Answers -/

/-- A write's acknowledgement or refusal reaches its port; a refusal is kept while a share-table region binds the write (R318, R320). -/
def ackWrite (s : State) (r : PortReq) (code : Nat) : State :=
  let l := outwOf s r.sl.core
  if code = 0 || !boundAny s r.sl.core r.ctx r.va (tyBytes r.w.ty.toNat) then setOutw s r.sl.core (l.filter fun o => o.id != r.rid)
  else setOutw s r.sl.core (mapIf (fun o : OutW => o.id == r.rid) (fun o => { o with code := code }) l)

/-- A correction that a history unit sends to its owner, which answers no request (R240). -/
def isCorrection (r : PortReq) : Bool := r.op == .hred && r.set.a.isNone

/-- A history node goes on reading the stream whose records have found free slots so far (R232). -/
def readOn (s : State) (sl : Slot) : State :=
  match tget s.x.hstr sl with
  | some h => setHstr s sl { h with sent := false }
  | none => s

/-- A write whose refusal goes to the catch node: a release behind it leaves without it (R126, R338). -/
def lostWrite (s : State) (r : PortReq) (a : Ans) : Bool := r.op != .st && !a.again && (catchFor s r.lid r.sl a.code).isSome

/-- The owner of a history of another wafer parks for what the history's unit found (R240). -/
def parkOwner (s : State) (r : PortReq) (code : Nat) : State :=
  match reqNode s r with
  | none => s
  | some n =>
    let (i, s) := reportFault s { recBase (.core r.sl.core) code 0 0 n.ctx r.sl.core.f r.lid with
      node := nodeWord r.sl code, addr := r.va, time := r.set.id.time, act := .owner (paWafer r.pa) r.pa r.sl }
    holdSets { s with x := { s.x with park := tset s.x.park r.sl (parkedOf s r.sl ++ [⟨r.set, code, i⟩]) } } r.sl

/-- An answer at its port (R189, R196, R263). -/
def deliverAns (s : State) (r : PortReq) (a : Ans) : State :=
  if isCorrection r then (if a.code = 0 then orWord s r.lid r.sl.core.f a.flags else parkOwner s r a.code)
  else match reqNode s r with
  | none => s
  | some n =>
      let s := if isWrite r.op then ackWrite s r (if lostWrite s r a then 0 else a.code) else s
      if r.op == .st then s
      else if a.code != 0 && a.again then
        parkSet (settle (settle s r.sl 4 r.rid []) r.sl 5 r.rid []) r.sl n r.set a.code (faultAddr r a.code) (.core r.sl.core)
      else if a.code != 0 then failReq s r a.code (faultAddr r a.code)
      else if isHist r.op then readOn s r.sl
      else match ansToks r a with
        | .ok (xs, ys) => finishReq (orWord s r.lid r.sl.core.f a.flags) r n xs ys []
        | .error code => parkSet (settle (settle s r.sl 4 r.rid []) r.sl 5 r.rid []) r.sl n r.set code r.va (.core r.sl.core)

/-- The request is timed no longer (R336). -/
def dropRemote (s : State) (rid : Nat) : State := { s with remotes := s.remotes.filter fun m => m.n != rid }

/-- The answer to a request to another wafer is discarded once the request was answered locally (R337). -/
def staleAns (s : State) (r : PortReq) : Bool :=
  !isCorrection r && (reqDest s r).2 != s.wafno && !(s.remotes.any fun m => m.n == r.rid)

/-- A buffer is reserved on an output of a node for what a name stands for. -/
def reserved (s : State) (sl : Slot) (port rid : Nat) : Bool :=
  (edgeOf s ⟨sl.core, sl.e, port⟩).wait.any fun h => h.tok.isNone && h.rid == rid

/-- A token that a history unit sends reaches its node (R234): it fills the buffer that was kept for it, or takes one. -/
def deliverHist (s : State) (r : PortReq) (port slot : Nat) (t : Token) (first : Bool) : State :=
  match reqNode s r with
  | none => s
  | some _ =>
    let s := if reserved s r.sl port slot then settle s r.sl port slot [t] else putTok s r.sl port t
    if r.w.tb = 1 && first && !isCorrection r then trace s r.sl r.set (if port = 4 then t.val else 0) else s

/-- Whether an answer finds its endpoint able to finish it: a fault may have to wait for the catch queue, and a history's token for a
buffer that could not be kept for it on another wafer. -/
def answerWaits (s : State) : Msg → Bool
  | .ans r a => r.op != .st && a.code != 0 && !a.again && (reqNode s r).isSome && failWaits s r a.code
  | .hist r port slot .. => (reqNode s r).isSome && !reserved s r.sl port slot && !roomFor s ⟨r.sl.core, r.sl.e, port⟩ 1
  | _ => false

/-- A history's token behind another of its node. -/
def lateBehind (r : PortReq) (port : Nat) : Msg → Bool
  | .hist q p .. => q.sl == r.sl && p == port
  | _ => false

/-- An answer at its endpoint, which takes it without delay (R310): it is finished at once, or as soon as it can be. -/
def takeAns (s : State) (m : Msg) : State :=
  match m with
  | .ans r a =>
    if a.again && a.code = 0 then
      let u : UnitId := if r.op == .mread then miOf r.sl.core else .core r.sl.core
      { s with x := { s.x with retry := tmod s.x.retry u [] fun l => l ++ [⟨r, ctr s u⟩] } }
    else if answerWaits s m then { s with x := { s.x with late := s.x.late ++ [m] } }
    else deliverAns s r a
  | .hist r port slot t first _ =>
    if answerWaits s m || s.x.late.any (lateBehind r port) then { s with x := { s.x with late := s.x.late ++ [m] } }
    else deliverHist s r port slot t first
  | _ => s

/-- The late answers that can be finished are, in the order in which they came (R310). -/
def letLate (s : State) : State :=
  s.x.late.foldl takeAns { s with x := { s.x with late := [] } }

/-- The message completes the answer to its request: all but the last token of a history operation leave more to come. -/
def completes : Msg → Bool
  | .hist _ _ _ _ _ last => last
  | _ => true

/-- An answer that has arrived is taken, in whichever copy holds its context. -/
def answerStep (s : State) (p : Packet) (r : PortReq) : State :=
  if !arrived s p then s
  else if staleAns s r then dropPkt s p.id
  else onCopy s r.ctx fun s =>
    let s := dropPkt s p.id
    takeAns (if completes p.msg then dropRemote s r.rid else s) p.msg

/-- A presence request that waits at a home, and whose node has been frozen since. -/
def frozenWait (s : State) (e : WaitE) : Bool :=
  (e.req.op == .ldw || e.req.op == .take || e.req.op == .nextf) && e.req.wafer == s.wafno && isFrozen s e.req.sl.core.f e.req.lid

/-- The wait lists without the presence requests of frozen nodes, which stand at their ports until their region is thawed (R268; log 43). -/
def unlistFrozen (s : State) (x : Exec) : Exec :=
  let gone := (x.waitl.flatMap Prod.snd).filter (frozenWait s)
  if gone.isEmpty then x
  else { x with
    waitl := x.waitl.map fun q => (q.1, q.2.filter fun e => !frozenWait s e)
    retry := gone.foldl (fun t e => tmod t (.core e.req.sl.core) [] fun l => l ++ [⟨e.req, ctr s (.core e.req.sl.core)⟩]) x.retry }

/-- After a step, the presence requests of frozen nodes leave the wait lists of every copy without being served (R268). -/
def letFrozen (s : State) : State :=
  if s.frozen.isEmpty then s
  else { s with
    x := unlistFrozen s s.x
    sh := unlistFrozen s s.sh
    saved := s.saved.map fun q => (q.1, { q.2 with exec := unlistFrozen s q.2.exec }) }

/-- WAITLIST_RETRY (R263): request n of a source's retries is sent again 64 clk after the retry reached it. -/
def execWaitlistRetry (u : UnitId) (n : Nat) (s : State) : Host.Outcome State Fault Refusal :=
  .next (match (tgetD s.x.retry u [])[n]? with
    | none => s
    | some y =>
      if (ctr s u - y.since).toNat < 64 || isFrozen s y.req.sl.core.f y.req.lid then s
      else sendReq { s with x := { s.x with retry := tmod s.x.retry u [] fun l => l.eraseIdx n } } y.req)

end Sys2Proof.Machine
end

