-- ==== Sys2Proof/Machine/Memory.lean ====
section
/-! DEFINITION. Loads, stores and atomics at the issuing element and at their homes (R187 to R196), and the mesh that carries them (R307 to
R315). -/

namespace Sys2Proof.Machine

open Sys2Proof

/-! ## Issue -/

/-- LD (R189). -/
def execLd (w : CW) (s : State) : Host.Outcome State Fault Refusal := .next (firePort s .ld w)

/-- ST (R189). -/
def execSt (w : CW) (s : State) : Host.Outcome State Fault Refusal := .next (firePort s .st w)

/-- STD (R189). -/
def execStd (w : CW) (s : State) : Host.Outcome State Fault Refusal := .next (firePort s .std w)

/-- ATOM (R192). -/
def execAtom (w : CW) (s : State) : Host.Outcome State Fault Refusal := .next (firePort s .atom w)

/-- CAS (R192): the compare value is the hold register at issue. -/
def execCas (w : CW) (s : State) : Host.Outcome State Fault Refusal := .next (firePort s .cas w)

/-- FATOM (R192). -/
def execFatom (w : CW) (s : State) : Host.Outcome State Fault Refusal := .next (firePort s .fatom w)

/-! ## At the home -/

/-- A request that has arrived at its home: the request, its physical address and whether the page carries CMP. -/
def reqHere (s : State) (pkt : Nat) : Option (PortReq × Nat × Bool) :=
  match pkt? s pkt with
  | some p => match p.msg with
    | .req r pa cmp => if arrived s p then some (r, pa, cmp) else none
    | _ => none
  | none => none

/-- The context is saved out to HBM. -/
def ctxAway (s : State) (c : Nat) : Bool :=
  match partOfCtx s c with
  | some p => (ctxStat s p).live != some c && (ctxStat s p).shad != some c && (tget s.saved c).isSome
  | none => false

/-- Applies a step at the home of an address for a context: scratchpad and SRAM belong to the context's copy, and wait while the context is
saved out (R267, R298). -/
def atHome (s : State) (ctx pa : Nat) (f : State → State) : State :=
  if paKind pa == 1 || paKind pa == 2 then (if ctxAway s ctx then s else onCopy s ctx f) else f s

/-- A home refuses a request (R188): a plain ST leaves a record; the others learn from the answer. -/
def refuse (s : State) (r : PortReq) (pa code : Nat) : State :=
  let u := homeUnit s pa
  let s := if r.op == .st then recordOnly s u code r.ctx r.sl.core.f r.lid (some r.sl) r.va r.set.id.time r.set.id.seq else s
  sendAns s u r (ansCode code)

/-- A pane that its home finds ARMED (R188, R254). -/
def armedAt (s : State) (pa : Nat) : Bool :=
  match decodePA s pa with
  | some (.spad c b) => (ptagOf s (paneAt c b)).tag == .armed
  | _ => false

/-- A plain load applied at its home: the bytes read, at TY width (R134, R188). -/
def serveLoad (s : State) (r : PortReq) (pa : Nat) (cmp : Bool) (key : Option W32) : State :=
  match homeRead s (some r.ctx) pa (tyBytes r.w.ty.toNat) cmp with
  | .error code => refuse s r pa code
  | .ok (s, b) => sendAns s (homeUnit s pa) r ⟨0, false, extend r.w.ty.toNat (leNat b), key, none, none, 0⟩

/-- A plain store applied at its home (R188). -/
def serveStore (s : State) (r : PortReq) (pa : Nat) (cmp : Bool) : State :=
  let bs := leBytes (tyBytes r.w.ty.toNat) r.val.toNat
  match homeWrite s (some r.ctx) pa bs cmp with
  | .error code => refuse s r pa code
  | .ok s => sendAns (wakeStwait s pa bs.length) (homeUnit s pa) r ansDone

/-- STWAIT at its word's home (R354): answered at once when the word has reached the value, kept in the wait list otherwise. -/
def serveStwait (s : State) (r : PortReq) (pa : Nat) (cmp : Bool) : State :=
  match homeNat s (some r.ctx) pa 8 cmp with
  | .error code => refuse s r pa code
  | .ok (s, v) =>
    if r.val.toNat ≤ v then sendAns s (homeUnit s pa) r ⟨0, false, 0, none, some (BitVec.ofNat 64 v), some 0, 0⟩
    else waitOrRetry s (homeUnit s pa) r pa cmp

/-- The checks of a home before a plain access (R188, R251). -/
def plainGuard (s : State) (r : PortReq) (pa : Nat) : Except Nat Unit :=
  match homeGuard s r pa with
  | .error code => .error code
  | .ok () => if isPlain r.op && armedAt s pa then .error Code.paneOwner else .ok ()

/-- The address lies in a bound window or in the aperture (R356). -/
def inAperture (pa : Nat) : Bool := paKind pa == 0 && bits pa 45 43 == 1

/-- The declared history that starts at an offset of a memory core: its COUNT. -/
def histCount (s : State) (lid : Nat) (core : CoreId) (off : Nat) : Option Nat :=
  (launch? s lid).bind fun l => (first? (fun o : Obj => o.kind == 3 && o.core == core && o.off == off) l.objs).map Obj.count

/-- An operation is in progress on the history whose extent holds an address (R228). -/
def histInUse (s : State) (pa : Nat) : Bool :=
  match decodePA s pa with
  | some (.sram core b) => (tget s.x.hbusy core).any fun h =>
      (histCount s h.req.lid core h.off).any fun n => h.off ≤ b && b < h.off + 2048 * n
  | _ => false

/-- A plain load, store or STWAIT applied at its home. -/
def plainStep (s : State) (pkt : Nat) : State :=
  match reqHere s pkt with
  | some (r, pa, cmp) =>
    if (isPlain r.op || r.op == .stwait) && !isAon r && !inAperture pa && !(r.op == .st && unitHolds s (homeUnit s pa)) then
      atHome s r.ctx pa fun s =>
        if histInUse s pa then s
        else
        let s := dropPkt s pkt
        match plainGuard s r pa with
        | .error code => refuse s r pa code
        | .ok () =>
          if r.op == .ld then serveLoad s r pa cmp none
          else if r.op == .stwait then serveStwait s r pa cmp
          else serveStore s r pa cmp
    else s
  | none => s

/-- The new value of an atomic and the flags of FATOM (R192). -/
def atomNew (r : PortReq) (old : Nat) : Nat × BitVec 5 :=
  let ty := r.w.ty.toNat
  let n := 8 * tyBytes ty
  let b := r.val.toNat % 2 ^ n
  match r.op with
  | .cas => (if old = r.cmp.toNat % 2 ^ n then b else old, 0)
  | .fatom => farith 0 (fmtOf ty) 0 old b 0
  | _ =>
    match r.w.fn.toNat with
    | 0 => ((old + b) % 2 ^ n, 0)
    | 1 => ((old + 2 ^ n - b) % 2 ^ n, 0)
    | 2 => (old &&& b, 0)
    | 3 => (old ||| b, 0)
    | 4 => (old ^^^ b, 0)
    | 5 => (if readInt ty old ≤ readInt ty b then old else b, 0)
    | 6 => (if readInt ty old ≤ readInt ty b then b else old, 0)
    | _ => (b, 0)

/-- ATOMIC_REQUEST (R192): read, modify and write in one step of the home; the old value comes back. -/
def execAtomicRequest (pkt : Nat) (s : State) : Host.Outcome State Fault Refusal :=
  .next (match reqHere s pkt with
    | some (r, pa, cmp) =>
      if isAtomic r.op && !inAperture pa then
        atHome s r.ctx pa fun s =>
          let s := dropPkt s pkt
          let n := tyBytes r.w.ty.toNat
          match homeGuard s r pa with
          | .error code => refuse s r pa code
          | .ok () =>
            if paKind pa == 1 then refuse s r pa Code.atomicTarget
            else match homeNat s (some r.ctx) pa n cmp with
              | .error code => refuse s r pa code
              | .ok (s, old) =>
                let v := atomNew r old
                match homeWrite s (some r.ctx) pa (leBytes n v.1) cmp with
                | .error code => refuse s r pa code
                | .ok s => sendAns (wakeStwait s pa n) (homeUnit s pa) r
                    ⟨0, false, extend r.w.ty.toNat old, none, none, none, v.2⟩
      else s
    | none => s)

/-! ## All-or-nothing tiles (R193, R194) -/

/-- The side-table entry of a tile. DESIGN CHOICE (log 132): those of scratchpad and SRAM tiles are exchanged with the context. -/
def aonOf (s : State) (pa : Nat) : Aon := tgetD s.aon (pa / 512) ⟨0, 0⟩

/-- The mark of an .AON store: 1 first, 0 middle, 2 last, 3 only (R193). -/
def aonMark (r : PortReq) : Nat := if r.akv then r.akey.toNat % 4 else 3

/-- Two .AON stores that one core's port sent to one tile, which share one path and take effect in the order of their sending (R195). -/
def samePath (r q : PortReq) : Bool := q.op != .ld && q.wafer == r.wafer && q.sl.core == r.sl.core

/-- An .AON request that has to wait at the home, behind those of its list: a load while the tile is open, an opening store at the 255th
opening, and a store behind one of its own port's (R193 to R195). -/
def aonHeld (s : State) (l : List WaitE) (r : PortReq) (pa : Nat) : Bool :=
  if r.op == .ld then (aonOf s pa).o != 0
  else aonMark r % 2 == 1 && (aonOf s pa).o == 255#8 || l.any fun e => isAon e.req && e.pa / 512 == pa / 512 && samePath r e.req

/-- The tile's entry after the opening and the closing of a store. -/
def aonAfter (a : Aon) (mark : Nat) : Aon :=
  let a := if mark % 2 == 1 then ⟨if a.o = 0 then a.v + 1 else a.v, a.o + 1⟩ else a
  if 2 ≤ mark && a.o != 0 then ⟨if a.o = 1 then a.v + 1 else a.v, a.o - 1⟩ else a

end Sys2Proof.Machine
end

