-- ==== Sys2Proof/Machine/Mesh.lean ====
section
/-! DEFINITION. The mesh: a packet's way from router to router, the budget gate, refused beats (R307 to R315). -/

namespace Sys2Proof.Machine

open Sys2Proof

/-- The packet may pass its source's budget gate (R312); one from another wafer has passed its own there. -/
def gateOpen (s : State) (p : Packet) : Bool := p.srcW != s.wafno || underBudget s p.unit p.cls

/-- The packet's beats counted in its source's period. -/
def useBudget (s : State) (p : Packet) : State := if p.srcW = s.wafno then spend s p.unit p.cls p.beats else s

/-- The router a packet makes for on this wafer: its destination, or the exit of R324, with the port it leaves by. -/
def goalOf (s : State) (p : Packet) : Router × Option Nat :=
  match exitPort s.wafno p.dstW (unitRouter p.to_) with
  | some q => (unitRouter (.port q), some q)
  | none => (unitRouter p.to_, none)

/-- The next router toward a goal: first in X, then in Y (R307). -/
def nextRouter (h g : Router) : Router :=
  if h.gx < g.gx then ⟨h.gx + 1, h.gy⟩
  else if g.gx < h.gx then ⟨h.gx - 1, h.gy⟩
  else if h.gy < g.gy then ⟨h.gx, h.gy + 1⟩
  else if g.gy < h.gy then ⟨h.gx, h.gy - 1⟩
  else h

/-- The core of a router (R307). -/
def routerCore (r : Router) : CoreId := ⟨r.gy / 24 * 8 + r.gx / 32, r.gx % 32, r.gy % 24⟩

/-- The output that a packet makes for at the router where it stands: to the next router, to its destination, or to a port. -/
def exitOf (s : State) (p : Packet) : Exit :=
  let g := goalOf s p
  if p.here == g.1 then .unit ((g.2.map UnitId.port).getD p.to_) else .router (nextRouter p.here g.1)

/-- An earlier packet of the same flow stands at the same router, or has not been injected either (R309). -/
def behind (s : State) (p : Packet) : Bool :=
  match first? (fun q : Packet => sameFlow p q && !q.out && (if p.inj then q.inj && q.here == p.here else !q.inj)) s.net with
  | some q => q.id != p.id
  | none => false

/-- How far a class of 1 to 3 stands in the rotation behind the class served last (R311). -/
def turnOf (last cls : Nat) : Nat := (cls + 5 - last) % 3

/-- The class of 1 to 3 that a router served last at an output; at first the rotation begins at class 1 (log 105). -/
def lastTurn (s : State) (here : Router) (to_ : Exit) : Nat := tgetD (budgetOf s (.core (routerCore here))).turn to_ 3

/-- Another packet goes before this one at its output: one of class 0, or one whose class comes first in the rotation (R311). -/
def outranked (s : State) (p : Packet) : Bool :=
  let out := exitOf s p
  p.cls != 0 && s.net.any fun q =>
    q.inj && !q.out && q.here == p.here && exitOf s q == out && !behind s q
      && (q.cls == 0 || turnOf (lastTurn s p.here out) q.cls < turnOf (lastTurn s p.here out) p.cls)

/-- The output has served a packet of a class. -/
def takeTurn (s : State) (p : Packet) (to_ : Exit) : State :=
  if p.cls = 0 then s
  else
    let u : UnitId := .core (routerCore p.here)
    let b := budgetOf s u
    { s with budgets := tset s.budgets u { b with turn := tset b.turn to_ p.cls } }

/-- The state with a packet changed. -/
def setPkt (s : State) (id : Nat) (f : Packet → Packet) : State := { s with net := mapIf (fun p => p.id == id) f s.net }

/-- The launch a message belongs to. -/
def msgLid : Msg → Nat
  | .req r _ _ => r.lid
  | .ans r _ => r.lid
  | .counts lid _ _ => lid
  | .arrival _ _ lid _ _ _ _ => lid
  | .ack _ _ lid .. => lid
  | .pane r _ _ => r.lid
  | .peer _ lid _ => lid
  | .ask _ _ lid _ _ => lid
  | .told _ _ lid _ _ => lid
  | .hist r .. => r.lid
  | .walk _ _ lid => lid
  | .flagAsk lid .. => lid
  | .flagTold lid .. => lid

/-- The context a message belongs to: its own, or that of its launch. -/
def msgCtx (s : State) : Msg → Nat
  | .req r _ _ => r.ctx
  | .ans r _ => r.ctx
  | .arrival _ ctx _ _ _ _ _ => ctx
  | .ack _ ctx .. => ctx
  | .pane r _ _ => r.ctx
  | .ask _ ctx _ _ _ => ctx
  | .told _ ctx _ _ _ => ctx
  | .hist r .. => r.ctx
  | .walk _ ctx _ => ctx
  | .flagAsk _ ctx .. => ctx
  | .flagTold _ ctx .. => ctx
  | .counts lid _ _ => ((launch? s lid).map Launch.ctx).getD 0
  | .peer _ lid _ => ((launch? s lid).map Launch.ctx).getD 0

/-- The set that a message belongs to; a bare identity where it belongs to none. -/
def msgSet : Msg → Ident
  | .req r _ _ => r.set.id
  | .ans r _ => r.set.id
  | .pane r _ _ => r.set.id
  | .hist r .. => r.set.id
  | _ => ⟨0, t00, 0⟩

/-- The field in which a unit's region lies: its own, or for a unit of the wafer that of its router (R307). -/
def regionField (u : UnitId) : Nat := (routerCore (unitRouter u)).f

/-- A beat refused at the input of a router or of an endpoint (R315): HOPR rises there, and the eighth failure of one beat on one hop raises
PARITY_HARD at the receiver, which waits for its record's place (R403). -/
def hopRefused (s : State) (p : Packet) (u : UnitId) : State :=
  if 8 ≤ p.fails + 1 && unitHolds s u then s else
  let b := budgetOf s u
  let s := { s with budgets := tset s.budgets u { b with hopr := satInc b.hopr } }
  let s := setPkt s p.id fun q => { q with fails := q.fails + 1 }
  if 8 ≤ p.fails + 1 then freezeParity s u (msgCtx s p.msg) (regionField u) (msgLid p.msg) none (msgSet p.msg).time (msgSet p.msg).seq else s

/-- What follows once beats of a packet have crossed a hop: the beat refused before has now crossed, and with the last one the packet
itself; without a refusal all its beats cross together. -/
def crossed (s : State) (p : Packet) (done : State → State) : State :=
  if p.fails = 0 || p.beats ≤ p.sent + 1 then done s else setPkt s p.id fun q => { q with fails := 0, sent := q.sent + 1 }

/-- The unit at the far end of an output. -/
def Exit.far : Exit → UnitId
  | .router r => .core (routerCore r)
  | .unit u => u

/-- A packet has crossed an output: it stands at the next router, or has left the last one for its destination. -/
def Exit.move (e : Exit) (q : Packet) : Packet :=
  match e with
  | .router r => { q with here := r, fails := 0, sent := 0 }
  | .unit _ => { q with out := true, fails := 0, sent := 0 }

/-- An arrival for scratchpad or SRAM of a context that is saved out waits at its engine (R267, R369). -/
def arrivalAway (s : State) (p : Packet) : Bool :=
  match p.msg with
  | .arrival _ ctx _ _ pa .. => p.srcW == s.wafno && p.dstW == s.wafno && (paKind pa == 1 || paKind pa == 2) && ctxAway s ctx
  | _ => false

/-- One hop of a packet: through its source's budget gate, or from the port by which it came (R324), into a router; then from router to
router, and at the last one to its destination, or to a port, where it waits for its turn on the link (R326). -/
def hop (s : State) (p : Packet) (bad : Bool) : State :=
  if p.out || behind s p then s
  else if !p.inj then
    if gateOpen s p && !arrivalAway s p then
      if bad then hopRefused s p (.core (routerCore p.here))
      else crossed s p fun s => setPkt (useBudget s p) p.id fun q => { q with inj := true, fails := 0, sent := 0 }
    else s
  else
    let e := exitOf s p
    if outranked s p then s
    else if bad then hopRefused s p e.far
    else crossed s p fun s => setPkt (takeTurn s p e) p.id e.move

/-- MESH_HOP (R311): a packet crosses one router. -/
def execMeshHop (pkt : Nat) (bad : Bool) (s : State) : Host.Outcome State Fault Refusal :=
  .next (match pkt? s pkt with
    | some p => if p.fails = 0 then hop s p bad else s
    | none => s)

/-- BEAT_RESEND (R315): the upstream side sends a refused beat again. -/
def execBeatResend (pkt : Nat) (bad : Bool) (s : State) : Host.Outcome State Fault Refusal :=
  .next (match pkt? s pkt with
    | some p => if 0 < p.fails then hop s p bad else s
    | none => s)

/-- BUDGET_PERIOD (R312): the unit's period has passed; counts return to zero and written values take effect. -/
def execBudgetPeriod (u : UnitId) (s : State) : Host.Outcome State Fault Refusal :=
  .next (
    let b := budgetOf s u
    if hasBudget u && b.period ≤ (ctr s u - b.since).toNat then
      { s with budgets := tset s.budgets u { b with
          period := b.nperiod.getD b.period
          bud := b.nbud.getD b.bud
          nperiod := none
          nbud := none
          used := [0, 0, 0, 0]
          since := ctr s u } }
    else s)

end Sys2Proof.Machine
end

