-- ==== Sys2Proof/Machine/Presence.lean ====
section
/-! DEFINITION. Panes: the tag word, the state machine, the seven presence instructions, the wait list and the arrivals of engines (R250 to
R271). -/

namespace Sys2Proof.Machine

open Sys2Proof

/-! ## Issue -/

/-- LDW (R260). -/
def execLdw (w : CW) (s : State) : Host.Outcome State Fault Refusal := .next (firePort s .ldw w)

/-- TAKE (R260). -/
def execTake (w : CW) (s : State) : Host.Outcome State Fault Refusal := .next (firePort s .take w)

/-- HOIST (R260). -/
def execHoist (w : CW) (s : State) : Host.Outcome State Fault Refusal := .next (firePort s .hoist w)

/-- ARMP (R255). -/
def execArmp (w : CW) (s : State) : Host.Outcome State Fault Refusal := .next (firePort s .armp w)

/-- STRIKE (R260). -/
def execStrike (w : CW) (s : State) : Host.Outcome State Fault Refusal := .next (firePort s .strike w)

/-- TAGR (R260). -/
def execTagr (w : CW) (s : State) : Host.Outcome State Fault Refusal := .next (firePort s .tagr w)

/-- NEXTF (R260). -/
def execNextf (w : CW) (s : State) : Host.Outcome State Fault Refusal := .next (firePort s .nextf w)

/-! ## The tag word (R253) -/

/-- The bits of TAG. -/
def PaneTag.code : PaneTag → Nat
  | .empty => 0
  | .armed => 1
  | .full => 2

/-- PTAG as a word. -/
def ptagWord (t : PTag) : W64 :=
  BitVec.ofNat 64 (t.stamp.toNat * 2 ^ 32 + t.yld.toNat * 2 ^ 31 + t.fail.toNat * 2 ^ 30 + t.own.toNat * 2 ^ 29 + t.tag.code * 2 ^ 26
    + t.exp.toNat * 2 ^ 12 + t.cnt.toNat)

/-- The state with a pane's tag word replaced. -/
def setPtag (s : State) (p : PaneId) (t : PTag) : State := { s with x := { s.x with ptag := tset s.x.ptag p t } }

/-- The pane that a physical scratchpad address names. -/
def paneOf (s : State) (pa : Nat) : Option PaneId :=
  match decodePA s pa with
  | some (.spad c b) => some (paneAt c b)
  | _ => none

/-- Stamp a is older than stamp b (R260). -/
def older (a b : W32) : Bool := let d := (b - a).toNat; 1 ≤ d && d ≤ 2 ^ 31 - 1

/-- Strikes a pane (R255): its bytes stay. -/
def strikePane (s : State) (p : PaneId) : State :=
  let t := ptagOf s p
  setPtag s p { t with tag := .empty, own := false, cnt := 0, exp := 0, yld := false, fail := false }

/-! ## Waiters (R264) -/

/-- The index of a pane in a NEXTF's set. -/
def setIx (s : State) (p : PaneId) : List Nat → Nat → Option Nat
  | [], _ => none
  | a :: l, i => if paneOf s a == some p then some i else setIx s p l (i + 1)

/-- NEXTF's answer for pane i of its set (R261). -/
def nextfAns (r : PortReq) (i : Nat) : Ans := ⟨0, false, BitVec.ofNat 64 (r.va + 2048 * i), some (BitVec.ofNat 32 i), none, none, 0⟩

/-- Reads the word of an LDW or a TAKE and answers it, a waiting one with a wake (R308); says whether it was read. -/
def readAns (s : State) (r : PortReq) (pa : Nat) (wake : Bool) : State × Bool :=
  match homeRead s (some r.ctx) pa (tyBytes r.w.ty.toNat) false with
  | .error code => (refuse s r pa code, false)
  | .ok (s, b) => ((if wake then sendWake else sendAns) s (homeUnit s pa) r (ansVal (extend r.w.ty.toNat (leNat b))), true)

/-- An island's read of a whole pane, which leaves the pane as it is (R387). -/
def islandRead (s : State) (r : PortReq) (pa : Nat) : State :=
  match homeRead s (some r.ctx) pa 2048 false with
  | .error code => refuse s r pa code
  | .ok (s, b) => sendPkt s (homeUnit s pa) 3 (miOf r.sl.core) r.wafer 2048 (.pane r 0 b)

/-- The pass over the wait list when a pane hoists (R264): the entries that stay, in order. -/
def servePass (p : PaneId) : State → List WaitE → State × List WaitE
  | s, [] => (s, [])
  | s, e :: l =>
    let keep := let r := servePass p s l; (r.1, e :: r.2)
    match e.req.op with
    | .ldw => if paneOf s e.pa == some p then servePass p (progress (readAns s e.req e.pa true).1 e.req.sl.core.f e.req.lid) l else keep
    | .mread => if paneOf s e.pa == some p then servePass p (progress (islandRead s e.req e.pa) e.req.sl.core.f e.req.lid) l else keep
    | .take =>
      if paneOf s e.pa == some p then
        let r := readAns s e.req e.pa true
        let s := progress r.1 e.req.sl.core.f e.req.lid
        if r.2 then (strikePane s p, l) else servePass p s l
      else keep
    | .nextf =>
      match setIx s p e.req.more 0 with
      | some i =>
        let t := ptagOf s p
        if t.yld then keep
        else servePass p (progress (sendWake (setPtag s p { t with yld := true }) (.core p.core) e.req (nextfAns e.req i))
          e.req.sl.core.f e.req.lid) l
      | none => keep
    | _ => keep

/-- Hoists a pane (R255): FULL, the core's count, the stamp, the waiters, and then a breakpoint on the hoist (R408). -/
def hoistPane (s : State) (p : PaneId) (lid : Nat) : State :=
  let n := tgetD s.x.hctr p.core 0 + 1
  let t := ptagOf s p
  let s := { s with x := { s.x with hctr := tset s.x.hctr p.core n } }
  let s := setPtag s p { t with tag := .full, own := false, stamp := n, yld := false }
  let r := servePass p s (waitlOf s (.core p.core))
  let s := setWaitl r.1 (.core p.core) r.2
  let ctx := ((launch? s lid).map Launch.ctx).getD 0
  breakAt s (.core p.core) 2 (spadPA s.wafno p.core (2048 * p.n)) p.core.f lid ctx 0 t00 0

/-! ## Requests (R255, R256, R260) -/

/-- The pane of a NEXTF's set that it would yield: FULL, not yielded, the oldest stamp. -/
def nextfPick (s : State) (l : List Nat) : Option (PaneId × Nat) :=
  let cands := l.zipIdx.filterMap fun q => (paneOf s q.1).bind fun p =>
    let t := ptagOf s p
    if t.tag == .full && !t.yld then some (p, q.2, t.stamp) else none
  let best := cands.foldl (fun acc q => match acc with
    | none => some q
    | some a => if older q.2.2 a.2.2 then some q else some a) (none : Option (PaneId × Nat × W32))
  best.map fun a => (a.1, a.2.1)

/-- A presence request applied to its pane, whose grant has been checked. -/
def presenceStep (s : State) (r : PortReq) (pa : Nat) (p : PaneId) : State :=
  let u : UnitId := .core p.core
  let t := ptagOf s p
  let bad := refuse s r pa Code.paneState
  match r.op with
  | .armp =>
    if t.tag == .empty || (t.tag == .armed && t.fail) then
      sendAns (setPtag s p { t with tag := .armed, own := true, exp := BitVec.ofNat 12 (r.val.toNat % 2 ^ 24), cnt := 0, fail := false }) u r ansDone
    else bad
  | .hoist => if t.tag == .empty then sendAns (hoistPane s p r.lid) u r ansDone else bad
  | .strike => if t.tag == .full || (t.tag == .armed && t.fail) then sendAns (strikePane s p) u r ansDone else bad
  | .ldw => if t.tag == .full then (readAns s r pa false).1 else waitOrRetry s u r pa false
  | .mread => if t.tag == .full then islandRead s r pa else waitOrRetry s u r pa false
  | .take =>
    if t.tag == .full then let q := readAns s r pa false; if q.2 then strikePane q.1 p else q.1
    else waitOrRetry s u r pa false
  | .nextf =>
    match nextfPick s r.more with
    | some (q, i) => sendAns (setPtag s q { ptagOf s q with yld := true }) u r (nextfAns r i)
    | none => waitOrRetry s u r pa false
  | _ => sendAns s u r (ansVal (ptagWord t))

/-- Every pane that a request names is granted to its launch (R251). -/
def panesGranted (s : State) (r : PortReq) (pa : Nat) : Except Nat Unit :=
  (if r.op == .nextf then r.more else [pa]).forM fun a => homeGuard s r a

/-- PRESENCE_REQUEST (R260): a presence request, or an island's read, is applied at the pane's home. -/
def execPresenceRequest (pkt : Nat) (s : State) : Host.Outcome State Fault Refusal :=
  .next (match reqHere s pkt with
    | some (r, pa, _) =>
      if (isPresence r.op || r.op == .mread) && !(r.op == .hoist && unitHolds s (homeUnit s pa)) then
        atHome s r.ctx pa fun s =>
          let s := progress (dropPkt s pkt) r.sl.core.f r.lid
          match panesGranted s r pa, paneOf s pa with
          | .ok (), some p => presenceStep s r pa p
          | .error code, _ => refuse s r pa code
          | .ok (), none => refuse s r pa Code.prot
      else s
    | none => s)

end Sys2Proof.Machine
end

