-- ==== Sys2Proof/Machine/Engines.lean ====
section
/-! DEFINITION. What the engines share: their reads and writes of memory (R347, R349), windows (R356 to R360), arrivals and their
acknowledgements (R257, R341, R350). -/

namespace Sys2Proof.Machine

open Sys2Proof

/-- The launch number of work that belongs to no launch: commands of queue packets (R340). -/
def noLid : Nat := 4096

/-- The little-endian value of n bytes of a list, from a position. -/
def leAt (b : List Byte) (i n : Nat) : Nat := leNat ((b.drop i).take n)

/-! ## Reads and writes of an engine -/

/-- The panes that a range of a core's scratchpad touches. -/
def panesOf (c : CoreId) (byte n : Nat) : List PaneId :=
  (List.range ((byte + n + 2047) / 2048 - byte / 2048)).map fun i => ⟨c, byte / 2048 + i⟩

/-- R251 and R347 for a range of scratchpad: every pane granted to the launch, none ARMED. DESIGN CHOICE (log 133): R87 names PANE_OWNER for SLD
and SST; what WSTAMP, SQPOST, LAUNCH and CFG read or write in an ARMED pane raises it too. -/
def spadGuard (s : State) (lid : Nat) (c : CoreId) (byte n : Nat) : Except Nat Unit :=
  if (panesOf c byte n).any fun p => !granted s p lid then .error Code.prot
  else if (panesOf c byte n).any fun p => (ptagOf s p).tag == .armed then .error Code.paneOwner
  else .ok ()

/-- Bytes of another wafer's memory (log 9). -/
def remoteRead (s : State) (pa n : Nat) : List Byte := (List.range n).map fun i => Config.remoteByte s.tick (pa + i)

/-- Bytes read from a place that is no window. -/
def baseRead (s : State) (ctx lid pa n : Nat) (cmp : Bool) : Except Nat (State × List Byte) :=
  if paKind pa == 3 then .error Code.prot
  else if paWafer pa != s.wafno then
    if s.dead.getLsbD (paWafer pa) then .error Code.peerDead else .ok (s, remoteRead s pa n)
  else match decodePA s pa with
    | none => .error Code.xlat
    | some (.reg ..) => .error Code.prot
    | some (.win ..) => .error Code.window
    | some (.spad c b) => match spadGuard s lid c b n with
      | .error code => .error code
      | .ok () => homeRead s (some ctx) pa n cmp
    | some _ => homeRead s (some ctx) pa n cmp

/-- Bytes written, as a plain store writes them, to a place that is no window. -/
def baseWrite (s : State) (ctx lid pa : Nat) (bs : List Byte) (cmp : Bool) : Except Nat State :=
  if paKind pa == 3 then .error Code.prot
  else if paWafer pa != s.wafno then
    if s.dead.getLsbD (paWafer pa) then .error Code.peerDead else .ok s
  else match decodePA s pa with
    | none => .error Code.xlat
    | some (.reg ..) => .error Code.prot
    | some (.win ..) => .error Code.window
    | some (.spad c b) => match spadGuard s lid c b bs.length with
      | .error code => .error code
      | .ok () => (homeWrite s (some ctx) pa bs cmp).map fun s => wakeStwait s pa bs.length
    | some _ => (homeWrite s (some ctx) pa bs cmp).map fun s => wakeStwait s pa bs.length

/-- The code for a page of a window that its context cannot reach: PROT where it lacks a right (R438), WINDOW otherwise (R358). -/
def windowCode (code : Nat) : Nat := if code = Code.prot then code else Code.window

/-- The address of element i of a window, through its index vector, in the binding context (R358). -/
def windowElem (s : State) (w : Win) (i : Nat) (rights : Bool × Bool) : Except Nat (State × Nat × Bool) :=
  match translate s w.ctx (w.idx + 4 * i) (true, false) with
  | .error code => .error (windowCode code)
  | .ok (ipa, icmp) =>
    match baseRead s w.ctx w.lid ipa 4 icmp with
    | .error code => .error (if code = Code.eccUncorr then code else Code.window)
    | .ok (s, b) =>
      match translate s w.ctx (w.base + 2 ^ w.es * leNat b) rights with
      | .error code => .error (windowCode code)
      | .ok (pa, cmp) => .ok (s, pa, cmp)

/-- A window read byte by byte in ascending offset (R358). -/
def windowRead (w : Win) (lid : Nat) : State → Nat → Nat → Except Nat (State × List Byte)
  | s, _, 0 => .ok (s, [])
  | s, o, n + 1 =>
    if w.scatter || w.n * 2 ^ w.es ≤ o then .error Code.window
    else do
      let (s, pa, cmp) ← windowElem s w (o / 2 ^ w.es) (true, false)
      let (s, b) ← baseRead s w.ctx lid (pa + o % 2 ^ w.es) 1 cmp
      let (s, l) ← windowRead w lid s (o + 1) n
      return (s, b ++ l)

/-- A window written byte by byte in ascending offset (R358, R359), each byte as put writes one at a physical address. -/
def windowPut {ε : Type} (bad : Nat → ε) (put : State → Nat → List Byte → Bool → Except ε State) (w : Win) :
    State → Nat → List Byte → Except ε State
  | s, _, [] => .ok s
  | s, o, b :: l =>
    if !w.scatter || w.n * 2 ^ w.es ≤ o then .error (bad Code.window)
    else match windowElem s w (o / 2 ^ w.es) (false, true) with
      | .error code => .error (bad code)
      | .ok (s, pa, cmp) => match put s (pa + o % 2 ^ w.es) [b] cmp with
        | .error e => .error e
        | .ok s => windowPut bad put w s (o + 1) l

/-- A window written as a plain store writes. -/
def windowWrite (w : Win) (lid : Nat) (s : State) (o : Nat) (bs : List Byte) : Except Nat State :=
  windowPut id (fun s pa b cmp => baseWrite s w.ctx lid pa b cmp) w s o bs

/-- Bytes read at a physical address, through a window where one stands there. -/
def pieceRead (s : State) (ctx lid pa n : Nat) (cmp : Bool) : Except Nat (State × List Byte) :=
  match (if paWafer pa == s.wafno then decodePA s pa else none) with
  | some (.win st k o) => match tget s.wins (st, k) with
    | some w => windowRead w lid s o n
    | none => .error Code.xlat
  | _ => baseRead s ctx lid pa n cmp

/-- Bytes written at a physical address, through a window where one stands there. -/
def pieceWrite (s : State) (ctx lid pa : Nat) (bs : List Byte) (cmp : Bool) : Except Nat State :=
  match (if paWafer pa == s.wafno then decodePA s pa else none) with
  | some (.win st k o) => match tget s.wins (st, k) with
    | some w => windowWrite w lid s o bs
    | none => .error Code.xlat
  | _ => baseWrite s ctx lid pa bs cmp

/-! ## Writes of an engine (R254, R255, R257, R371) -/

/-- An engine writes bytes of one pane, which it may do only while the pane is ARMED: they count toward its total, and reaching it hoists the
pane. A refusal names the pane whose FAIL it sets (R257). -/
def panePut (s : State) (ctx lid : Nat) (p : PaneId) (pa : Nat) (bs : List Byte) (cmp : Bool) : Except (Nat × Option PaneId) State :=
  let t := ptagOf s p
  let n := t.cnt.toNat + bs.length
  if !granted s p lid then .error (Code.prot, none)
  else if t.tag != .armed then .error (Code.paneState, none)
  else if t.exp.toNat < n then .error (Code.paneState, some p)
  else match homeWrite s (some ctx) pa bs cmp with
    | .error code => .error (code, none)
    | .ok s =>
      let s := setPtag (wakeStwait s pa bs.length) p { t with cnt := BitVec.ofNat 12 n }
      .ok (if n = t.exp.toNat then hoistPane s p lid else s)

/-- An engine's write to a place that is no window. -/
def enginePut (ctx lid : Nat) (s : State) (pa : Nat) (bs : List Byte) (cmp : Bool) : Except (Nat × Option PaneId) State :=
  match (if paWafer pa == s.wafno then paneOf s pa else none) with
  | some p => panePut s ctx lid p pa bs cmp
  | none => (baseWrite s ctx lid pa bs cmp).mapError fun code => (code, none)

/-- An engine's write, through a window where one stands there: whole, or refused with a code (0 for none). -/
def engineStore (s : State) (ctx lid pa : Nat) (bs : List Byte) (cmp : Bool) : State × Nat :=
  match (match (if paWafer pa == s.wafno then decodePA s pa else none) with
    | some (.win st k o) => match tget s.wins (st, k) with
      | some w => windowPut (fun code => (code, none)) (enginePut w.ctx lid) w s o bs
      | none => .error (Code.xlat, none)
    | _ => enginePut ctx lid s pa bs cmp) with
  | .ok s => (s, 0)
  | .error (code, some p) => (setPtag s p { ptagOf s p with fail := true }, code)
  | .error (code, none) => (s, code)

/-- The bytes left on the 64 KiB page of an address. -/
def pageRoom (va : Nat) : Nat := 65536 - va % 65536

/-- An engine's read of a virtual range, page by page; a failure names its code and its address. fuel bounds the pages. -/
def engineRead (ctx lid : Nat) : Nat → State → Nat → Nat → Except (Nat × Nat) (State × List Byte)
  | 0, s, _, _ => .ok (s, [])
  | k + 1, s, va, n =>
    if n = 0 then .ok (s, [])
    else
      let m := min n (pageRoom va)
      match translate s ctx va (true, false) with
      | .error code => .error (code, va)
      | .ok (pa, cmp) =>
        match pieceRead (walkFix s ctx va) ctx lid pa m cmp with
        | .error code => .error (code, va)
        | .ok (s, b) => match engineRead ctx lid k s (va + m) (n - m) with
          | .error e => .error e
          | .ok (s, l) => .ok (s, b ++ l)

/-- A range read at once. -/
def readAt (s : State) (ctx lid va n : Nat) : Except (Nat × Nat) (State × List Byte) := engineRead ctx lid (n / 65536 + 2) s va n

/-- A sequencer's write of a few bytes that lie on one page, as one step, as a plain store writes them. -/
def writeAt (s : State) (ctx lid va : Nat) (bs : List Byte) : Except Nat State :=
  match translate s ctx va (false, true) with
  | .error code => .error code
  | .ok (pa, cmp) => pieceWrite (walkFix s ctx va) ctx lid pa bs cmp

/-- An engine's write of a few bytes that lie on one page (stamps, counts, slots of a ring): the code of its refusal, 0 for none. -/
def engineAt (s : State) (ctx lid va : Nat) (bs : List Byte) : State × Nat :=
  match translate s ctx va (false, true) with
  | .error code => (s, code)
  | .ok (pa, cmp) => engineStore (walkFix s ctx va) ctx lid pa bs cmp

/-- A step on a virtual address that lies in scratchpad or SRAM of a context waits while that context is saved out (R267, R369). -/
def awayFor (s : State) (ctx va : Nat) (rights : Bool × Bool) : Bool :=
  ctxAway s ctx && (match translate s ctx va rights with
    | .ok (pa, _) => paKind pa == 1 || paKind pa == 2
    | .error _ => false)

/-! ## Accesses to other wafers (R336) -/

/-- The wafer of an address, where it is another one than this. -/
def farWafer (s : State) (ctx va : Nat) (rights : Bool × Bool) : Option Nat :=
  match translate s ctx va rights with
  | .ok (pa, _) => if paWafer pa == s.wafno then none else some (paWafer pa)
  | .error _ => none

/-- The timer of a unit's own access to another wafer; tag tells the accesses of a unit apart. -/
def farTimer (u : UnitId) (tag w : Nat) (m : Remote) : Bool :=
  m.unit == u && m.wafer == w && (match m.what with
    | .access t _ => t == tag
    | _ => false)

/-- A unit's own access to another wafer has still to be sent: the wafer is not known dead, and the access is not under way. -/
def farNew (s : State) (u : UnitId) (tag : Nat) : Option Nat → Bool
  | none => false
  | some w => !(deadFor s u).getLsbD w && !(s.remotes.any (farTimer u tag w))

/-- The access is under way. -/
def farAsked (s : State) (u : UnitId) (tag : Nat) (w : Option Nat) : Bool := w.any fun w => s.remotes.any (farTimer u tag w)

/-- The access is sent, for a launch, and timed. -/
def farSend (s : State) (u : UnitId) (tag lid w : Nat) : State :=
  { (fresh s).2 with remotes := s.remotes ++ [⟨(fresh s).1, u, w, .access tag lid, ctr s u⟩] }

/-- The answer of the access has come, and its timer stops. -/
def farGot (s : State) (u : UnitId) (tag : Nat) : Option Nat → State
  | none => s
  | some w => { s with remotes := dropFirst (farTimer u tag w) s.remotes }

/-- Accesses of a unit to several other wafers at once. -/
def farAll (s : State) (u : UnitId) (tag lid : Nat) (ws : List Nat) (k : State → State) : State :=
  let new := ws.filter fun w => farNew s u tag (some w)
  if new.isEmpty then k (ws.foldl (fun s w => farGot s u tag (some w)) s) else new.foldl (fun s w => farSend s u tag lid w) s

/-- A unit's own access to another wafer: it is sent in one step, timed, and ends in a later step as its answer comes, unless the wafer is
dead (R336, R337; log 9). -/
def farAccess (s : State) (u : UnitId) (tag lid : Nat) (w : Option Nat) (k : State → State) : State :=
  if farNew s u tag w then farSend s u tag lid (w.getD 0) else k (farGot s u tag w)

/-! ## Arrivals (R255, R257, R341) -/

/-- Output bytes cut into arrivals of at most 64 bytes that cross no 64-byte boundary of the destination (R341); fuel bounds them. -/
def chop : Nat → Nat → List Byte → List (Nat × List Byte)
  | 0, _, _ => []
  | _ + 1, _, [] => []
  | k + 1, va, bs =>
    let m := 64 - va % 64
    (va, bs.take m) :: chop k (va + m) (bs.drop m)

/-- An arrival judged and written at its home: the code of its refusal, 0 when it is written. -/
def arrive (s : State) (src : ArrSrc) (ctx lid pa : Nat) (cmp : Bool) (bs : List Byte) : State × Nat :=
  if src.wafer != s.wafno && !inPartition s ((partOfCtx s ctx).getD 48) pa then (s, Code.prot)
  else match decodePA s pa with
    | none => (s, Code.xlat)
    | some _ => engineStore s ctx lid pa bs cmp

/-- The engine that an arrival belongs to. -/
def srcUnit (a : ArrSrc) : UnitId := if a.drain then .mi a.f a.n else .si a.f a.n

/-- An earlier arrival for the same destination of the same command has still to be applied, at another home: arrivals are applied in the order
of their offsets (R341, R359). -/
def outrun (s : State) (p : Packet) (src : ArrSrc) : Bool :=
  (s.net.takeWhile fun q => q.id != p.id).any fun q => match q.msg with
    | .arrival a .. => a == src
    | _ => false

/-- An arrival acknowledged or refused to its engine. -/
def ackArrival (s : State) (src : ArrSrc) (ctx lid pa va pkt code : Nat) : State :=
  progress (sendPkt s (homeUnit s pa) 2 (srcUnit src) src.wafer 0 (.ack src ctx lid code va pkt)) src.f lid

/-! ## Windows and the copies of the execution state (R196, R267, R369) -/

/-- The physical addresses that an access of n bytes through a window touches: of its indices, then of its elements. -/
def windowTouched (s : State) (w : Win) (o n : Nat) : List Nat :=
  let z := 2 ^ w.es
  (List.range ((o + n + z - 1) / z - o / z)).flatMap fun j =>
    match translate s w.ctx (w.idx + 4 * (o / z + j)) (true, false) with
    | .error _ => []
    | .ok (ipa, icmp) => ipa :: (match baseRead s w.ctx w.lid ipa 4 icmp with
      | .error _ => []
      | .ok (_, b) => match translate s w.ctx (w.base + z * leNat b) (false, false) with
        | .ok (pa, _) => [pa]
        | .error _ => [])

/-- Scratchpad or SRAM of this wafer, which belongs to a copy of the execution state. -/
def onChip (s : State) (pa : Nat) : Bool := paWafer pa == s.wafno && (paKind pa == 1 || paKind pa == 2)

/-- The physical addresses that an access of n bytes touches, through a window where one stands there. -/
def touchedAt (s : State) (pa n : Nat) : List Nat :=
  match decodePA s pa with
  | some (.win st k o) => ((tget s.wins (st, k)).map fun w => windowTouched s w o n).getD []
  | _ => [pa]

/-- An access of n bytes of this wafer touches a history that an operation is changing (R228). -/
def placeInUse (s : State) (pa n : Nat) : Bool := (touchedAt s pa n).any fun q => paWafer q == s.wafno && histInUse s q

/-- A write of n bytes may hoist a pane whose core holds a record, so that it waits (R403, R408). -/
def paneHolds (s : State) (pa n : Nat) : Bool :=
  (touchedAt s pa n).any fun q => paWafer q == s.wafno && (paneOf s q).isSome && unitHolds s (homeUnit s q)

/-- An access through a window is applied in the copy that holds the window's context, whose scratchpad and SRAM it may touch; it waits while
that context is saved out (R267). -/
def atWindow (s : State) (w : Win) (o n : Nat) (f : State → State) : State :=
  if ctxAway s w.ctx && (windowTouched s w o n).any (onChip s) then s
  else onCopy s w.ctx f

/-- An access of n bytes at its home: of a window through it, else in the copy that holds the context; it waits while a history that it touches
is being changed (R228). -/
def atTarget (s : State) (ctx pa n : Nat) (f : State → State) : State :=
  match decodePA s pa with
  | some (.win st k o) => match tget s.wins (st, k) with
    | some w => atWindow s w o n fun t => if placeInUse t pa n then t else f t
    | none => f s
  | _ => atHome s ctx pa fun t => if placeInUse t pa n then t else f t

/-- A stream writes every byte of the CMP unit at a virtual address: that unit lies within one destination of a copy (R364). -/
def wholeUnit (s : State) (src : ArrSrc) (va : Nat) : Bool :=
  let u := va / 2048 * 2048
  !src.drain && src.wafer == s.wafno && (match tget s.sis (src.f, src.n) with
    | none => false
    | some i => i.streams.any fun x => x.id == src.id && (match x.kind with
      | .copy _ _ _ _ _ _ len => x.dsts.any fun d => d.i == src.dst && d.va ≤ u && u + 2048 ≤ d.va + len
      | _ => false))

/-- Nothing that stood in a unit is needed where a stream writes it whole (R364): what cannot be decoded or corrected of it is taken as zero,
until the stream's own bytes come. DESIGN CHOICE (log 141). -/
def readyUnit (s : State) (src : ArrSrc) (ctx va pa : Nat) (cmp : Bool) : State :=
  let u := pa / 2048 * 2048
  if !cmp || inAperture pa || paWafer pa != s.wafno || !wholeUnit s src va then s
  else match keyOf s (some ctx) with
    | .error _ => s
    | .ok k =>
      if tget s.uecc u == some .double || (unitWords s u).any (fun w => tget s.ecc w == some .double) || (unitRead s k u).isNone then
        freshUnit (unitWrite s k u (List.replicate 2048 0)) u
      else freshUnit s u

/-- An arrived arrival is applied at its home and acknowledged or refused. -/
def arrivalStep (s : State) (pkt : Nat) (want : Tgt → Bool) : State :=
  match pkt? s pkt with
  | some p => match p.msg with
    | .arrival src ctx lid va pa cmp bs =>
      if arrived s p && !outrun s p src && ((decodePA s pa).map want).getD (want (.reg 0 0)) then
        atTarget s ctx pa bs.length fun s =>
          if paneHolds s pa bs.length then s else
          let r := arrive (readyUnit (dropPkt s pkt) src ctx va pa cmp) src ctx lid pa cmp bs
          ackArrival r.1 src ctx lid pa va p.num r.2
      else s
    | _ => s
  | none => s

/-- PANE_ARRIVAL (R257): an engine's arrival is judged by its pane's tag. -/
def execPaneArrival (pkt : Nat) (s : State) : Host.Outcome State Fault Refusal :=
  .next (arrivalStep s pkt fun t => match t with
    | .spad .. => true
    | _ => false)

/-- MEMORY_REQUEST (R188, R349): a plain load or store, or an engine's arrival for memory-core SRAM or HBM, is applied at its home. -/
def execMemoryRequest (pkt : Nat) (s : State) : Host.Outcome State Fault Refusal :=
  .next (match (pkt? s pkt).map Packet.msg with
    | some (.arrival ..) => arrivalStep s pkt fun t => match t with
      | .spad .. => false
      | .win .. => false
      | _ => true
    | _ => plainStep s pkt)

/-- The bytes that a plain access reads at its home, through a window where one stands there (R358). -/
def plainRead (s : State) (r : PortReq) (pa n : Nat) (cmp : Bool) : Except Nat (State × List Byte) :=
  match decodePA s pa with
  | some (.win st k o) => match tget s.wins (st, k) with
    | some w => windowRead w r.lid s o n
    | none => .error Code.xlat
  | _ => homeRead s (some r.ctx) pa n cmp

/-- The bytes that a plain access writes at its home, through a window where one stands there, with those whom the write wakes. -/
def plainWrite (s : State) (r : PortReq) (pa : Nat) (bs : List Byte) (cmp : Bool) : Except Nat State :=
  match decodePA s pa with
  | some (.win st k o) => match tget s.wins (st, k) with
    | some w => windowWrite w r.lid s o bs
    | none => .error Code.xlat
  | _ => (homeWrite s (some r.ctx) pa bs cmp).map fun s => wakeStwait s pa bs.length

/-- A request to a window (R358): loads and stores go byte by byte through the index vector, an atomic is refused. -/
def windowServe (s : State) (r : PortReq) (pa : Nat) : State :=
  if r.op == .ld then
    match plainRead s r pa (tyBytes r.w.ty.toNat) false with
    | .error code => refuse s r pa code
    | .ok (s, b) => sendAns s (homeUnit s pa) r (ansVal (extend r.w.ty.toNat (leNat b)))
  else if r.op == .st || r.op == .std then
    match plainWrite s r pa (leBytes (tyBytes r.w.ty.toNat) r.val.toNat) false with
    | .error code => refuse s r pa code
    | .ok s => sendAns s (homeUnit s pa) r ansDone
  else if r.op == .stwait then
    match plainRead s r pa 8 false with
    | .error code => refuse s r pa code
    | .ok (s, b) =>
      if r.val.toNat ≤ leNat b then sendAns s (homeUnit s pa) r ⟨0, false, 0, none, some (BitVec.ofNat 64 (leNat b)), some 0, 0⟩
      else waitOrRetry s (homeUnit s pa) r pa false
  else refuse s r pa Code.window

/-- WINDOW_REQUEST (R358): a request or an arrival for a bound window is served through its index vector. -/
def execWindowRequest (pkt : Nat) (s : State) : Host.Outcome State Fault Refusal :=
  .next (match (pkt? s pkt).map Packet.msg with
    | some (.arrival ..) => arrivalStep s pkt fun t => match t with
      | .win .. => true
      | _ => false
    | _ => match reqHere s pkt with
      | some (r, pa, _) =>
        if inAperture pa && (isPlain r.op || isAtomic r.op || r.op == .stwait) && !isAon r && !(r.op == .st && unitHolds s (homeUnit s pa)) then
          atTarget s r.ctx pa (opWidth r.op r.w.ty.toNat) fun s => windowServe (dropPkt s pkt) r pa
        else s
      | none => s)

/-- The value that lets a STWAIT entry go on whose word lies in a gather window (R354, R358). -/
def windowVal (s : State) (e : WaitE) : Option W64 :=
  if e.req.op == .stwait && inAperture e.pa then
    match plainRead s e.req e.pa 8 false with
    | .ok (_, b) => if e.req.val.toNat ≤ leNat b then some (BitVec.ofNat 64 (leNat b)) else none
    | .error _ => none
  else none

/-- Serves the STWAIT entries of a home whose word, seen through its window, has reached the value (R354). -/
def serveWindows (u : UnitId) (s : State) : State :=
  let l := waitlOf s u
  l.foldl (fun s e => match windowVal s e with
    | some v => sendAns s u e.req ⟨0, false, 0, none, some v, some 0, 0⟩
    | none => s) (setWaitl s u (l.filter fun e => (windowVal s e).isNone))

/-- The homes at which a STWAIT waits for a word of a window. -/
def windowHomes (s : State) : List UnitId :=
  ((s.x.waitl ++ s.sh.waitl ++ s.saved.flatMap fun q => q.2.exec.waitl).filterMap fun q =>
    if q.2.any fun e => e.req.op == .stwait && inAperture e.pa then some q.1 else none).eraseDups

/-- After a step, every STWAIT whose word of a window has reached its value is served (R354): a write to any element may have done it. -/
def letWindows (s : State) : State := (windowHomes s).foldl (fun s u => eachCopy s u 0 (serveWindows u)) s

/-! ## All-or-nothing tiles (R193 to R196) -/

/-- An .AON request served at its home: a store marks, writes and closes; a load returns V in KEY. A refused store leaves the entry. -/
def aonServe (s : State) (r : PortReq) (pa : Nat) (cmp : Bool) : State :=
  match plainGuard s r pa with
  | .error code => refuse s r pa code
  | .ok () =>
    if r.op == .ld then
      match plainRead s r pa (tyBytes r.w.ty.toNat) cmp with
      | .error code => refuse s r pa code
      | .ok (s, b) => sendAns s (homeUnit s pa) r ⟨0, false, extend r.w.ty.toNat (leNat b), some (aonOf s pa).v, none, none, 0⟩
    else
      match plainWrite s r pa (leBytes (tyBytes r.w.ty.toNat) r.val.toNat) cmp with
      | .error code => refuse s r pa code
      | .ok s => sendAns { s with aon := tset s.aon (pa / 512) (aonAfter (aonOf s pa) (aonMark r)) } (homeUnit s pa) r ansDone

/-- The first held .AON request of a tile that need wait no longer, in a wait list read from its front. -/
def aonNext (s : State) (tile : Nat) : List WaitE → List WaitE → Option WaitE
  | _, [] => none
  | front, e :: l => if isAon e.req && e.pa / 512 == tile && !aonHeld s front e.req e.pa then some e else aonNext s tile (front ++ [e]) l

/-- Serves the held .AON requests of a tile that need wait no longer, oldest first; fuel bounds the passes. -/
def aonDrain (u : UnitId) (tile : Nat) : Nat → State → State
  | 0, s => s
  | k + 1, s =>
    match aonNext s tile [] (waitlOf s u) with
    | none => s
    | some e => aonDrain u tile k (aonServe (setWaitl s u (dropFirst (fun x => x == e) (waitlOf s u))) e.req e.pa e.cmp)

/-- The same in every copy of the execution state where a request waits at the home (R196). -/
def aonDrains (s : State) (u : UnitId) (pa : Nat) : State :=
  eachCopy s u pa fun s => aonDrain u (pa / 512) (waitlOf s u).length s

/-- An .AON request taken at its home: held behind those of its list, or served. -/
def aonTake (s : State) (pkt : Nat) (r : PortReq) (pa : Nat) (cmp : Bool) : State :=
  let u := homeUnit s pa
  let s := dropPkt s pkt
  if aonHeld s (waitlOf s u) r pa then setWaitl s u (waitlOf s u ++ [⟨r, pa, cmp⟩]) else aonServe s r pa cmp

/-- An arrived .AON request: held, or served with those that it lets go on. A tile of HBM serves the requests of every copy, each in the list of
the copy that holds its context (R195, R196). -/
def aonStep (s : State) (pkt : Nat) (load : Bool) : State :=
  match reqHere s pkt with
  | some (r, pa, cmp) =>
    if isAon r && (r.op == .ld) == load && !(r.op == .st && unitHolds s (homeUnit s pa)) then
      if onChip s pa then atHome s r.ctx pa fun s => aonDrains (aonTake s pkt r pa cmp) (homeUnit s pa) pa
      else aonDrains (onCopy s r.ctx fun s => aonTake s pkt r pa cmp) (homeUnit s pa) pa
    else s
  | none => s

/-- AON_STORE (R193). -/
def execAonStore (pkt : Nat) (s : State) : Host.Outcome State Fault Refusal := .next (aonStep s pkt false)

/-- AON_LOAD (R194). -/
def execAonLoad (pkt : Nat) (s : State) : Host.Outcome State Fault Refusal := .next (aonStep s pkt true)

/-! ## Faults of an engine after acceptance (R350) -/

/-- Sends a catch token for a fault of an accepted command, with its count (R126, R128, R350). -/
def engineCatch (s : State) (r : PortReq) (c : Nat × Slot) (code addr : Nat) : State :=
  let q := toCatch s r.lid c r.sl r.set code addr
  record q.1 r.sl.core r.lid q.2 true

/-- The record of a fault after acceptance, with its catch token of value va where a catch node is declared (R350). The node that issued the
command is named; a packet's command has none. -/
def engineFault (s : State) (u : UnitId) (req : Option PortReq) (ctx f code addr va aux : Nat) : State :=
  match req with
  | none => (reportFault s { recBase u code 0 3 ctx f noLid with addr := addr, aux := BitVec.ofNat 64 aux }).2
  | some r =>
    let cls := if (catchFor s r.lid r.sl code).isSome then 5 else 3
    let s := (reportFault s { recBase u code 0 cls r.ctx r.sl.core.f r.lid with
      node := nodeWord r.sl code, addr := addr, time := r.set.id.time, seq := r.set.id.seq, aux := BitVec.ofNat 64 aux }).2
    match catchFor s r.lid r.sl code with
    | some c => onCopy s r.ctx fun s => engineCatch s r c code va
    | none => s

/-- The catch queue has no room for an engine's token (R129). -/
def engineWaits (s : State) (req : Option PortReq) (code : Nat) : Bool :=
  match req with
  | some r => (catchFor s r.lid r.sl code).isSome && catchFull s r.lid
  | none => false

/-- FAIL set on the ARMED panes of a destination that cannot complete (R257). -/
def failPanes (s : State) (ctx lid va len : Nat) : State :=
  onCopy s ctx fun s => (List.range ((va + len + 2047) / 2048 - va / 2048)).foldl (fun s i =>
    match translate s ctx ((va / 2048 + i) * 2048) (false, false) with
    | .ok (pa, _) =>
      if paWafer pa != s.wafno then s
      else match paneOf s pa with
        | some p => if (ptagOf s p).tag == .armed && granted s p lid then setPtag s p { ptagOf s p with fail := true } else s
        | none => s
    | .error _ => s) s

end Sys2Proof.Machine
end

