-- ==== Sys2Proof/Machine/Objects.lean ====
section
/-! DEFINITION. Waiter records, promise walks, phasers, lock words and the share table (R272 to R298). -/

namespace Sys2Proof.Machine

open Sys2Proof

/-! ## Issue -/

/-- PNEW (R282). -/
def execPnew (w : CW) (s : State) : Host.Outcome State Fault Refusal := .next (firePort s .pnew w)

/-- BEND (R279). -/
def execBend (w : CW) (s : State) : Host.Outcome State Fault Refusal := .next (firePort s .bend w)

/-- FILL (R280). -/
def execFill (w : CW) (s : State) : Host.Outcome State Fault Refusal := .next (firePort s .fill w)

/-- PWAIT (R281). -/
def execPwait (w : CW) (s : State) : Host.Outcome State Fault Refusal := .next (firePort s .pwait w)

/-- PREAD (R281). -/
def execPread (w : CW) (s : State) : Host.Outcome State Fault Refusal := .next (firePort s .pread w)

/-- PFIND (R281). -/
def execPfind (w : CW) (s : State) : Host.Outcome State Fault Refusal := .next (firePort s .pfind w)

/-- PHNEW (R289). -/
def execPhnew (w : CW) (s : State) : Host.Outcome State Fault Refusal := .next (firePort s .phnew w)

/-- PHREG (R290). -/
def execPhreg (w : CW) (s : State) : Host.Outcome State Fault Refusal := .next (firePort s .phreg w)

/-- PHDROP (R293). -/
def execPhdrop (w : CW) (s : State) : Host.Outcome State Fault Refusal := .next (firePort s .phdrop w)

/-- PHSIG (R291). -/
def execPhsig (w : CW) (s : State) : Host.Outcome State Fault Refusal := .next (firePort s .phsig w)

/-- PHWAIT (R292). -/
def execPhwait (w : CW) (s : State) : Host.Outcome State Fault Refusal := .next (firePort s .phwait w)

/-- PHNEXT (R291). -/
def execPhnext (w : CW) (s : State) : Host.Outcome State Fault Refusal := .next (firePort s .phnext w)

/-- PHQRY (R294). -/
def execPhqry (w : CW) (s : State) : Host.Outcome State Fault Refusal := .next (firePort s .phqry w)

/-- ACQ (R295). -/
def execAcq (w : CW) (s : State) : Host.Outcome State Fault Refusal := .next (firePort s .acq w)

/-- REL (R295). -/
def execRel (w : CW) (s : State) : Host.Outcome State Fault Refusal := .next (firePort s .rel w)

/-! ## Waiter records (R274) -/

/-- The waiter records of a launch that are in use. -/
def poolOf (s : State) (lid : Nat) : Tbl Nat WRec := ((launch? s lid).map Launch.pool).getD []

/-- WAITERS of a launch. -/
def waitersOf (s : State) (lid : Nat) : Nat := ((launch? s lid).map Launch.waiters).getD 0

/-- The state with a launch's waiter records replaced. -/
def setPool (s : State) (lid : Nat) (p : Tbl Nat WRec) : State := modLaunch s lid fun l => { l with pool := p }

/-- The lowest free record, none when every record is in use. -/
def freeRec (s : State) (lid : Nat) : Option Nat :=
  let used := (poolOf s lid).map Prod.fst
  let i := freeIndex used used.length 0
  if i < waitersOf s lid then some i else none

/-- A list's first record is in use and of a right KIND, or the list is empty (R273, R285). -/
def headOk (s : State) (lid head : Nat) (kinds : List Nat) : Bool :=
  head = 0 || (head - 1 < waitersOf s lid && (match tget (poolOf s lid) (head - 1) with
    | some r => kinds.contains r.kind
    | none => false))

/-- The records of a list, by index, from its head; fuel bounds it. -/
def listFrom (p : Tbl Nat WRec) : Nat → Nat → List Nat
  | 0, _ => []
  | k + 1, h =>
    if h = 0 then []
    else match tget p (h - 1) with
      | some r => (h - 1) :: listFrom p k r.next
      | none => []

/-- The list that starts at a head. -/
def recList (s : State) (lid head : Nat) : List Nat := listFrom (poolOf s lid) (waitersOf s lid) head

/-- The words of a pool's record in HBM. -/
def recWords (lid i : Nat) : List Nat := wordsOf (Config.poolBase lid + 32 * i) 32

/-- Waiter records read and corrected, each by its own home (R316): ECC_UNCORR for one that cannot be read. -/
def readRecs (s : State) (lid : Nat) : List Nat → Except Nat State
  | [] => .ok s
  | i :: l => match eccRead s (homeUnit s (Config.poolBase lid + 32 * i)) (recWords lid i) with
    | some s => readRecs s lid l
    | none => .error Code.eccUncorr

/-- The bytes of SRAM that an object takes. -/
def objSize (o : Obj) : Nat :=
  match o.kind with
  | 1 => 32
  | 2 => 16 * o.count
  | 3 => 2048 * o.count
  | _ => 8

/-- The launch of a context that declared the object at an address of a memory core. -/
def declarer (s : State) (ctx pa : Nat) : Option Nat :=
  (first? (fun q : Nat × Launch => q.2.ctx == ctx && q.2.objs.any fun o =>
    let base := sramPA s.wafno o.core o.off
    base ≤ pa && pa < base + objSize o) s.launches).map Prod.fst

/-- The launch whose waiter records stand in an object's list (log 111): the one that declared it, or the requester's own. -/
def poolLid (s : State) (r : PortReq) (pa : Nat) : Nat := (declarer s r.ctx pa).getD r.lid

/-- The records that wait at an object. -/
def objRecs (s : State) (lid pa : Nat) : List Nat := ((poolOf s lid).filter fun q => q.2.req.pa == pa).map Prod.fst

/-- The records linked in this order, with TAIL in the first; the new head. -/
def relink (p : Tbl Nat WRec) (l : List Nat) : Tbl Nat WRec × Nat :=
  match l with
  | [] => (p, 0)
  | i :: _ =>
    let last := l.getLast?.getD i
    let p := (l.zip (l.drop 1 |>.map (· + 1) |>.append [0])).foldl (fun p q =>
      match tget p q.1 with
      | some r => tset p q.1 { r with next := q.2 }
      | none => p) p
    ((match tget p i with
      | some r => tset p i { r with tail := last + 1 }
      | none => p), i + 1)

/-- A new record put at the end of a list (R274); the new head. -/
def pushRec (s : State) (lid head : Nat) (i kind : Nat) (r : PortReq) (target : W32) (nx : Bool) : State × Nat :=
  let q := relink (tset (poolOf s lid) i ⟨kind, 0, 0, r, target, nx, []⟩) (recList s lid head ++ [i])
  (setPool { s with ecc := (recWords lid i).foldl (fun t w => tdel t w) s.ecc } lid q.1, q.2)

/-- The record returns to the pool. -/
def dropRec (s : State) (lid i : Nat) : State := setPool s lid (tdel (poolOf s lid) i)

/-! ## Cells (R272, R273) -/

/-- The state bits of a cell's word0. -/
def cellState (w : Nat) : Nat := bits w 63 62

/-- HEAD of an unset root. -/
def cellHead (w : Nat) : Nat := bits w 55 0

/-- RANK of an unset root. -/
def cellRank (w : Nat) : Nat := bits w 61 56

/-- PARENT of a linked cell, on this wafer. -/
def cellParent (s : State) (w : Nat) : Nat := s.wafno * 2 ^ 48 + bits w 47 0

/-- The word of a cell linked to a parent. -/
def linkedTo (p : Nat) : Nat := 2 ^ 62 + bits p 47 0

/-- The address is that of a promise cell that the launch declared on this wafer (R61 KIND 2, R273). -/
def declaredCell (s : State) (lid pa : Nat) : Bool :=
  match launch? s lid with
  | none => false
  | some l => l.objs.any fun o =>
      let base := sramPA s.wafno o.core o.off
      o.kind == 2 && base ≤ pa && pa < base + 16 * o.count && (pa - base) % 16 == 0

/-- A cell read at its home: word0 and word1, or the code of R272 or R273, which speak of the cells and the pool of the launch that declared it
(log 111). -/
def readCell (s : State) (r : PortReq) (pa : Nat) : Except Nat (State × Nat × Nat) :=
  match homeNat s (some r.ctx) pa 8 false with
  | .error c => .error c
  | .ok (s, w) =>
    match homeNat s (some r.ctx) (pa + 8) 8 false with
    | .error c => .error c
    | .ok (s, v) =>
      let o := poolLid s r pa
      if cellState w = 3 then .error Code.cellFormat
      else if cellState w = 1 && !(cellParent s w % 16 == 0 && declaredCell s o (cellParent s w)) then .error Code.cellFormat
      else if cellState w = 0 && !headOk s o (cellHead w) [1] then .error Code.cellFormat
      else (readRecs s o (if cellState w = 0 then recList s o (cellHead w) else [])).map fun s => (s, w, v)

/-- A cell's two words written in one step. -/
def writeCell (s : State) (r : PortReq) (pa w v : Nat) : Except Nat State :=
  (homeWrite s (some r.ctx) pa (leBytes 8 w ++ leBytes 8 v) false).map fun s => wakeStwait s pa 16

/-- Wakes every record of a list with a value (R278, R280): each PWAIT gets it at its own TY width. -/
def wakeList (s : State) (home : UnitId) (lid v : Nat) : List Nat → State
  | [] => s
  | i :: l =>
    match tget (poolOf s lid) i with
    | some r =>
      let s := sendAns (dropRec s lid i) home r.req (ansVal (extend r.req.w.ty.toNat v))
      wakeList (progress s r.req.sl.core.f r.req.lid) home lid v l
    | none => wakeList s home lid v l

/-! ## Walks (R277 to R281) -/

/-- The state with a walk replaced. -/
def setWalkP (s : State) (w : PWalk) : State := { s with x := { s.x with pwalks := mapIf (fun x => x.id == w.id) (fun _ => w) s.x.pwalks } }

/-- The memory core of an SRAM address. -/
def sramCore (pa : Nat) : CoreId := ⟨bits pa 45 40, bits pa 39 35, bits pa 34 30⟩

/-- A walk is over: its answer goes to its node from the core that ran it. -/
def closeWalk (s : State) (w : PWalk) (a : Ans) : State :=
  let s := { s with x := { s.x with pwalks := s.x.pwalks.filter fun x => x.id != w.id } }
  progress (sendAns s (homeUnit s w.pa) w.req a) w.req.sl.core.f w.req.lid

/-- A walk ends with an answer to its node, which the core that runs it learns from the step's own answer (R277). -/
def endWalk (s : State) (w : PWalk) (a : Ans) : State :=
  if w.at_ == sramCore w.pa then closeWalk s w a else setWalkP s { w with phase := .done a }

/-- A walk starts again from its first cell. -/
def restartWalk (s : State) (w : PWalk) : State := setWalkP s { w with phase := .find w.pa, second := false, steps := 0 }

/-- What a walk does with a root it has found: word0 and word1 as read in the step that found it. -/
def foundRoot (s : State) (w : PWalk) (x w0 w1 : Nat) : State :=
  let r := w.req
  match r.op with
  | .pread =>
    endWalk s w (if cellState w0 = 2 then ⟨0, false, extend r.w.ty.toNat w1, some 1, none, none, 0⟩ else ⟨0, false, 0, some 0, none, none, 0⟩)
  | .pfind =>
    endWalk s w ⟨0, false, BitVec.ofNat 64 x,
      some (if cellState w0 = 2 then 2#32 else BitVec.ofNat 32 (cellRank w0 * 256)), none, none, 0⟩
  | .pwait =>
    if cellState w0 = 2 then endWalk s w (ansVal (extend r.w.ty.toNat w1))
    else setWalkP s { w with phase := .act, ra := x, wa := BitVec.ofNat 64 w0 }
  | .fill =>
    if cellState w0 = 2 then
      endWalk s w (if w1 = (extend r.w.ty.toNat r.val.toNat).toNat then ansDone else ansCode Code.foul)
    else setWalkP s { w with phase := .act, ra := x, wa := BitVec.ofNat 64 w0 }
  | _ =>
    if !w.second then
      setWalkP s { w with phase := .find w.pa2, second := true, steps := 0, ra := x, wa := BitVec.ofNat 64 w0, va_ := BitVec.ofNat 64 w1 }
    else if x = w.ra then endWalk s w ansDone
    else if cellState w.wa.toNat = 2 && cellState w0 = 2 then
      endWalk s w (if w.va_ = BitVec.ofNat 64 w1 then ansDone else ansCode Code.foul)
    else
      setWalkP s { w with phase := .act, rb := x, wb := BitVec.ofNat 64 w0, vb_ := BitVec.ofNat 64 w1 }

/-- A filled root's cell is written and its waiters are woken; then a breakpoint on the cell (R280, R408). -/
def fillRoot (s : State) (w : PWalk) (pa old v : Nat) : State :=
  match writeCell s w.req pa (2 ^ 63) v with
  | .error c => endWalk s w (ansCode c)
  | .ok s =>
    let o := poolLid s w.req pa
    let s := wakeList s (homeUnit s pa) o v (recList s o (cellHead old))
    let s := endWalk s w ansDone
    breakAt s (homeUnit s pa) 3 pa (bits pa 45 40) w.req.lid w.req.ctx (nodeKey w.req.sl + Code.break_) w.req.set.id.time w.req.set.id.seq

/-- The step that a walk takes at a root it has chosen (R278 to R281). -/
def actStep (s : State) (w : PWalk) : State :=
  let r := w.req
  match r.op with
  | .pwait =>
    match readCell s r w.ra with
    | .error c => endWalk s w (ansCode c)
    | .ok (s, w0, w1) =>
      if cellState w0 = 0 then
        match freeRec s (poolLid s r w.ra) with
        | none => endWalk s w (ansCode Code.waiterPool)
        | some i =>
          let q := pushRec s (poolLid s r w.ra) (cellHead w0) i 1 r 0 false
          match writeCell q.1 r w.ra (cellRank w0 * 2 ^ 56 + q.2) w1 with
          | .error c => endWalk s w (ansCode c)
          | .ok s => { s with x := { s.x with pwalks := s.x.pwalks.filter fun x => x.id != w.id } }
      else if cellState w0 = 2 then endWalk s w (ansVal (extend r.w.ty.toNat w1))
      else restartWalk s w
  | .fill =>
    match readCell s r w.ra with
    | .error c => endWalk s w (ansCode c)
    | .ok (s, w0, _) =>
      if BitVec.ofNat 64 w0 = w.wa then fillRoot s w w.ra w0 (extend r.w.ty.toNat r.val.toNat).toNat else restartWalk s w
  | _ =>
    let fa := cellState w.wa.toNat == 2
    let fb := cellState w.wb.toNat == 2
    if fa || fb then
      let u := if fa then w.rb else w.ra
      let wu := if fa then w.wb else w.wa
      match readCell s r u with
      | .error c => endWalk s w (ansCode c)
      | .ok (s, w0, _) =>
        if BitVec.ofNat 64 w0 = wu then fillRoot s w u w0 (if fa then w.va_ else w.vb_).toNat else restartWalk s w
    else
      let ka := cellRank w.wa.toNat
      let kb := cellRank w.wb.toNat
      let aChild := ka < kb || (ka == kb && w.rb < w.ra)
      let child := if aChild then w.ra else w.rb
      let parent := if aChild then w.rb else w.ra
      let wc := if aChild then w.wa else w.wb
      match readCell s r child with
      | .error c => endWalk s w (ansCode c)
      | .ok (s, w0, w1) =>
        let o := poolLid s r child
        if o != poolLid s r parent then endWalk s w (ansCode Code.cellFormat)
        else if BitVec.ofNat 64 w0 = wc then
          match writeCell s r child (linkedTo parent) w1 with
          | .error c => endWalk s w (ansCode c)
          | .ok s =>
            let tail := match tget (poolOf s o) (cellHead w0 - 1) with
              | some q => if cellHead w0 = 0 then 0 else q.tail
              | none => 0
            setWalkP s { w with phase := .carry parent (cellHead w0) tail (cellRank w0) }
        else restartWalk s w

/-- One step of a walk (R277): the read of a cell, of its parent, the halving, or the step at the root. -/
def walkOne (s : State) (w : PWalk) : State :=
  let r := w.req
  match w.phase with
  | .find x =>
    match readCell s r x with
    | .error c => endWalk s w (ansCode c)
    | .ok (s, w0, w1) =>
      if cellState w0 = 1 then
        if 64 ≤ w.steps then endWalk s w (ansCode Code.cellFormat)
        else setWalkP s { w with phase := .parent x (BitVec.ofNat 64 w0) (cellParent s w0), steps := w.steps + 1 }
      else foundRoot s w x w0 w1
  | .parent x wx p =>
    match readCell s r p with
    | .error c => endWalk s w (ansCode c)
    | .ok (s, w0, w1) =>
      if cellState w0 = 1 then
        if 64 ≤ w.steps then endWalk s w (ansCode Code.cellFormat)
        else setWalkP s { w with phase := .halve x wx (cellParent s w0), steps := w.steps + 1 }
      else foundRoot s w p w0 w1
  | .halve x wx pp =>
    match homeNat s (some r.ctx) x 8 false with
    | .error c => endWalk s w (ansCode c)
    | .ok (s, w0) =>
      let s2 := if BitVec.ofNat 64 w0 = wx then
          match homeWrite s (some r.ctx) x (leBytes 8 (linkedTo pp)) false with
          | .ok s2 => wakeStwait s2 x 8
          | .error _ => s
        else s
      setWalkP s2 { w with phase := .find pp }
  | .act => actStep s w
  | .carry .. => s
  | .heldCarry .. => s
  | .done a => if w.at_ == sramCore w.pa then closeWalk s w a else s

/-- The cell that a walk's next step concerns (R277 to R281). -/
def walkCell (w : PWalk) : Nat :=
  match w.phase with
  | .find x => x
  | .parent _ _ p => p
  | .halve x _ _ => x
  | .carry dst .. => dst
  | .heldCarry dst .. => dst
  | .done _ => w.pa
  | .act =>
    if w.req.op != .bend then w.ra
    else if cellState w.wa.toNat == 2 then w.rb
    else if cellState w.wb.toNat == 2 then w.ra
    else
      let ka := cellRank w.wa.toNat
      let kb := cellRank w.wb.toNat
      if ka < kb || (ka == kb && w.rb < w.ra) then w.ra else w.rb

/-- The core to which a walk's next message goes (R277, R278): a carry travels from cell to cell; a step goes out from the core that runs the
walk, and its answer comes back there. -/
def walkNext (w : PWalk) : CoreId :=
  match w.phase with
  | .carry dst .. => sramCore dst
  | .heldCarry dst .. => sramCore dst
  | _ => if w.at_ == sramCore w.pa then sramCore (walkCell w) else sramCore w.pa

/-- A walk that has to go on at another core is sent there on class 0 (R277, R278, R308). -/
def sendWalk (id : Nat) (s : State) : State :=
  match first? (fun w : PWalk => w.id == id) s.x.pwalks with
  | none => s
  | some w =>
    if walkNext w == w.at_ then s
    else sendPkt s (.core w.at_) 0 (.core (walkNext w)) s.wafno 16 (.walk id w.req.ctx w.req.lid)

/-- The packet in which a walk travels. -/
def walkPkt (s : State) (id : Nat) : Option Packet :=
  first? (fun p => match p.msg with
    | .walk n .. => n == id
    | _ => false) s.net

/-- A walk at the core where it stands, or that it has just reached; none while it is on its way. -/
def walkStands (s : State) (w : PWalk) : Option (State × PWalk) :=
  match walkPkt s w.id with
  | none => some (s, w)
  | some p =>
    if arrived s p then
      match p.to_ with
      | .core c => let v := { w with at_ := c }; some (setWalkP (dropPkt s p.id) v, v)
      | _ => none
    else none

/-- A walk that stands at a core takes the step that is due there, or goes on from it. -/
def walkTurn (s : State) (w : PWalk) : State := sendWalk w.id (if sramCore (walkCell w) == w.at_ then walkOne s w else s)

/-- PNEW's one step (R282): an unset root of rank 0, which keeps its HEAD when it was one. -/
def pnewStep (s : State) (r : PortReq) (pa : Nat) : State :=
  match homeNat s (some r.ctx) pa 8 false with
  | .error c => refuse s r pa c
  | .ok (s, w0) =>
    match writeCell s r pa (if cellState w0 = 0 then cellHead w0 else 0) 0 with
    | .error c => refuse s r pa c
    | .ok s => progress (sendAns s (homeUnit s pa) r ansDone) r.sl.core.f r.lid

/-- The promise operators (R275). -/
def isPromise : Op → Bool
  | .pnew | .bend | .fill | .pwait | .pread | .pfind => true
  | _ => false

/-- The phaser operators (R287). -/
def isPhaser : Op → Bool
  | .phnew | .phreg | .phdrop | .phsig | .phwait | .phnext | .phqry => true
  | _ => false

/-- The held carry whose node's replay sends this request again, from another wafer (R278). -/
def heldFor (s : State) (r : PortReq) : Option PWalk :=
  first? (fun w : PWalk => r.op == .bend && r.wafer != s.wafno && w.req.wafer == r.wafer && w.req.sl == r.sl && w.req.lid == r.lid
    && w.req.set.id == r.set.id && (match w.phase with
      | .heldCarry .. => true
      | _ => false)) s.x.pwalks

/-- A held carry is applied again for the request that replays it. -/
def goOn (s : State) (w : PWalk) (r : PortReq) : State :=
  match w.phase with
  | .heldCarry d h t k => setWalkP s { w with req := r, phase := .carry d h t k }
  | _ => s

/-- WALK_STEP (R277): a request that has arrived at its first cell's home starts its walk there; a walk in progress takes its next step. A core that
holds a record takes none, since a fill may raise BREAK (R403). -/
def execWalkStep (walk : Nat) (s : State) : Host.Outcome State Fault Refusal :=
  .next (match first? (fun w : PWalk => w.id == walk) s.x.pwalks with
    | some w =>
      if ctxRuns s w.req.ctx then
        match walkStands s w with
        | some (t, v) => if unitHolds s (.core v.at_) then s else walkTurn t v
        | none => s
      else s
    | none => match reqHere s walk with
      | some (r, pa, _) =>
        if isPromise r.op && !unitHolds s (homeUnit s pa) then
          atHome s r.ctx pa fun s =>
            let s := dropPkt s walk
            match homeGuard s r pa with
            | .error c => refuse s r pa c
            | .ok () =>
              if r.op == .pnew then pnewStep s r pa
              else match heldFor s r with
                | some w => goOn s w r
                | none =>
                  let w : PWalk := ⟨walk, r, pa, r.more.headD pa, .find pa, false, 0, 0, 0, 0, 0, 0, 0, sramCore pa⟩
                  walkTurn { s with x := { s.x with pwalks := s.x.pwalks ++ [w] } } w
        else s
      | none => s)

/-- A carry that cannot be applied is held at the cell, and its node parks with the code (R278); a node of another wafer learns it from an
answer. -/
def holdCarry (s : State) (w : PWalk) (dst head tail rank code : Nat) : State :=
  let r := w.req
  let s := setWalkP s { w with phase := .heldCarry dst head tail rank }
  if r.wafer != s.wafno then sendAns s (homeUnit s dst) r (ansCode code) else
  match reqNode s r with
  | none => s
  | some n =>
    let (i, s) := reportFault s { recBase (.core r.sl.core) code 0 0 n.ctx r.sl.core.f n.lid with
      node := nodeWord r.sl code, addr := r.va, time := r.set.id.time, seq := r.set.id.seq, act := .carry w.id r.sl }
    holdSets { s with x := { s.x with park := tset s.x.park r.sl (parkedOf s r.sl ++ [⟨r.set, code, i⟩]) } } r.sl

/-- A carry applied at a cell in one step (R278). A cell or a carried record that cannot be read or written holds it there, as a cell in a wrong
form does (log 110). -/
def applyCarry (s : State) (w : PWalk) (dst head tail rank : Nat) : State :=
  let r := w.req
  let o := poolLid s r dst
  match readCell s r dst with
  | .error c => holdCarry s w dst head tail rank c
  | .ok (s, w0, w1) =>
    if cellState w0 = 1 then setWalkP s { w with phase := .carry (cellParent s w0) head tail rank }
    else match readRecs s o (recList s o head) with
      | .error c => holdCarry s w dst head tail rank c
      | .ok s =>
        if cellState w0 = 2 then endWalk (wakeList s (homeUnit s dst) o w1 (recList s o head)) w ansDone
        else
          let q := if head = 0 then (poolOf s o, cellHead w0)
            else relink (poolOf s o) (recList s o (cellHead w0) ++ recList s o head)
          let rk := if cellRank w0 = rank && cellRank w0 < 63 then cellRank w0 + 1 else cellRank w0
          match writeCell s r dst (rk * 2 ^ 56 + q.2) w1 with
          | .error c => holdCarry s w dst head tail rank c
          | .ok s => endWalk (setPool s o q.1) w ansDone

/-- CARRY_APPLY (R278): a carry reaches the cell it travels to. -/
def execCarryApply (walk : Nat) (s : State) : Host.Outcome State Fault Refusal :=
  .next (match first? (fun w : PWalk => w.id == walk) s.x.pwalks with
    | some w => match w.phase with
      | .carry dst head tail rank =>
        if ctxRuns s w.req.ctx then
          match walkStands s w with
          | some (t, v) =>
            if unitHolds s (.core w.req.sl.core) then s
            else sendWalk walk (if sramCore dst == v.at_ then applyCarry t v dst head tail rank else t)
          | none => s
        else s
      | _ => s
    | none => s)

/-- FREPLAY of a held carry's record (R278, R417): the carry is applied again at its cell, and the node's other sets go on. -/
def replayCarry (s : State) (walk : Nat) (sl : Slot) (rid : Nat) : State :=
  let rest := (parkedOf s sl).filter fun p => p.rec_ != rid
  let s := { s with x := { s.x with park := tset s.x.park sl rest } }
  let s := if rest.isEmpty then letHeld s sl else s
  { s with x := { s.x with pwalks := s.x.pwalks.map fun w =>
      if w.id == walk then (match w.phase with
        | .heldCarry d h t k => { w with phase := .carry d h t k }
        | _ => w) else w } }

/-! ## Scopes (R11, R288) -/

/-- The launch at the head of a launch's line of parents (R92). -/
def rootOf (s : State) (lid : Nat) : Nat := ((launch? s lid).bind Launch.root).getD lid

/-- A launch's part of this wafer, which no scope of its nodes passes: its fields, and no object of a launch that is no parent, child or
sibling of it (R11). -/
def insideLaunch (s : State) (r : PortReq) (home : CoreId) (pa : Nat) : Bool :=
  (match launch? s r.lid with
    | some l => l.fields.contains home.f
    | none => false)
    && (match declarer s r.ctx pa with
      | some o => rootOf s o == rootOf s r.lid
      | none => true)

/-- The home core lies in the issuing node's unit of a tier (R9, R11). -/
def insideUnit (tier : Nat) (r : PortReq) (wafno : Nat) (home : CoreId) : Bool :=
  match tier with
  | 0 => false
  | 1 => false
  | 2 => r.wafer == wafno && r.sl.core.f == home.f && r.sl.core.cx / 8 == home.cx / 8 && r.sl.core.cy == home.cy
  | 3 => r.wafer == wafno && r.sl.core.f == home.f
  | 4 => r.wafer == wafno
  | _ => true

/-- An object's home lies within the scope of a tier around the issuing node (R11, R288). -/
def inScope (s : State) (tier : Nat) (r : PortReq) (home : CoreId) (pa : Nat) : Bool :=
  insideUnit tier r s.wafno home && insideLaunch s r home pa

/-! ## Phasers (R285 to R294) -/

/-- A phaser's fields. -/
structure Ph where
  scope : Nat
  phase : W32
  reg   : W32
  sig   : W32
  early : W32
  pend  : W32
  head  : Nat
  deriving DecidableEq, Repr

/-- Phase p is complete (R285). -/
def phDone (phase p : W32) : Bool := let d := (phase - p).toNat; 1 ≤ d && d ≤ 2 ^ 31 - 1

/-- The membership entries of a memory core. -/
def membersOf (s : State) (c : CoreId) : Tbl Nat Member := tgetD s.x.members c []

/-- The state with a memory core's membership entries replaced. -/
def setMembers (s : State) (c : CoreId) (m : Tbl Nat Member) : State := { s with x := { s.x with members := tset s.x.members c m } }

/-- A phaser's words, or none where one of them cannot be read. -/
def readPh (s : State) (ctx pa : Nat) : Except Nat (State × Nat × Ph) :=
  match homeRead s (some ctx) pa 32 false with
  | .error c => .error c
  | .ok (s, b) =>
    .ok (s, leAt b 0 8, ⟨bits (leAt b 0 8) 61 59, BitVec.ofNat 32 (leAt b 0 4), BitVec.ofNat 32 (leAt b 12 4), BitVec.ofNat 32 (leAt b 8 4),
      BitVec.ofNat 32 (leAt b 20 4), BitVec.ofNat 32 (leAt b 16 4), bits (leAt b 24 8) 55 0⟩)

/-- A phaser's words written; word0's other bits stay as given. -/
def writePh (s : State) (ctx pa w0 : Nat) (p : Ph) : Except Nat State :=
  (homeWrite s (some ctx) pa (leBytes 8 (w0 / 2 ^ 32 * 2 ^ 32 + p.phase.toNat) ++ leBytes 4 p.sig.toNat ++ leBytes 4 p.reg.toNat
    ++ leBytes 4 p.pend.toNat ++ leBytes 4 p.early.toNat ++ leBytes 8 p.head) false).map fun s => wakeStwait s pa 32

/-- PHSIG's and PHNEXT's answer for a phase (R291). -/
def phAns (p : W32) : Ans := ⟨0, false, 0, none, none, some p, 0⟩

/-- A phaser being served: the state, its fields and the records still in its list. -/
structure PhRun where
  s  : State
  p  : Ph
  l  : List Nat

/-- The member entry that a request acts for (R286): none for an anonymous one. -/
def memberOf (s : State) (c : CoreId) (r : PortReq) (pa : Nat) : Except Nat (Option (Nat × Member)) :=
  if !r.akv then .ok none
  else match tget (membersOf s c) r.akey.toNat with
    | some m => if m.addr == pa && m.lid == r.lid then .ok (some (r.akey.toNat, m)) else .error Code.phaserState
    | none => .error Code.phaserState

/-- A member's signal at its home (R291): the phase it counts for, or none while it runs ahead of the phaser. A member that has fallen behind
the phaser counts nothing (log 33). -/
def memberSignal (p : Ph) (next : W32) : Option Ph :=
  if next = p.phase then some { p with sig := p.sig + 1 }
  else if next = p.phase + 1 then some { p with early := p.early + 1 }
  else if phDone p.phase next then some p
  else none

/-- The record of a launch's pool. -/
def rec? (s : State) (lid i : Nat) : Option WRec := tget (poolOf s lid) i

/-- Serves the records of a list in order: waits whose target is complete, and held signals that the phase admits, by the step of a signal: their
entry must still be in use and of a mode that signals (R286, R291). -/
def phPass (c : CoreId) (lid : Nat) : PhRun → List Nat → PhRun
  | q, [] => q
  | q, i :: l =>
    match rec? q.s lid i with
    | none => phPass c lid q l
    | some r =>
      let home : UnitId := .core c
      let prog (s : State) : State := progress s r.req.sl.core.f r.req.lid
      if r.kind = 4 then
        match memberOf q.s c r.req r.req.pa with
        | .error code => phPass c lid { q with s := prog (sendAns (dropRec q.s lid i) home r.req (ansCode code)) } l
        | .ok none => phPass c lid { q with s := dropRec q.s lid i } l
        | .ok (some (k, m)) =>
          if m.mode = 1 then phPass c lid { q with s := prog (sendAns (dropRec q.s lid i) home r.req (ansCode Code.phaserState)) } l
          else match memberSignal q.p m.next with
          | none => phPass c lid { q with l := q.l ++ [i] } l
          | some p =>
            let s := setMembers q.s c (tset (membersOf q.s c) k { m with next := m.next + 1 })
            if r.held3 && !phDone p.phase m.next then
              phPass c lid ⟨setPool s lid (tset (poolOf s lid) i { r with kind := 3, target := m.next }), p, q.l ++ [i]⟩ l
            else phPass c lid ⟨prog (sendAns (dropRec s lid i) home r.req (phAns m.next)), p, q.l⟩ l
      else if phDone q.p.phase r.target then
        phPass c lid { q with s := prog (sendAns (dropRec q.s lid i) home r.req (phAns r.target)) } l
      else phPass c lid { q with l := q.l ++ [i] } l

/-- Advances a phaser while its signals reach its registration (R291); fuel bounds the advances. -/
def phAdvance (c : CoreId) (lid : Nat) : Nat → PhRun → PhRun
  | 0, q => q
  | k + 1, q =>
    if q.p.reg ≠ 0 && q.p.reg.toNat ≤ q.p.sig.toNat then
      let p := { q.p with phase := q.p.phase + 1, reg := q.p.reg + q.p.pend, pend := 0, sig := q.p.early, early := 0 }
      phAdvance c lid k (phPass c lid ⟨q.s, p, []⟩ q.l)
    else q

/-- The end of a phaser step: its advances, its list, its words. -/
def phFinish (s : State) (c : CoreId) (r : PortReq) (pa w0 : Nat) (p : Ph) (l : List Nat) : Except Nat State :=
  let o := poolLid s r pa
  let q := phAdvance c o (l.length + 3) ⟨s, p, l⟩
  let k := relink (poolOf q.s o) q.l
  writePh (setPool q.s o k.1) r.ctx pa w0 { q.p with head := k.2 }

/-- A signal, from PHSIG or PHNEXT (R291). -/
def phSignal (s : State) (c : CoreId) (r : PortReq) (pa w0 : Nat) (p : Ph) : Except Nat State := do
  let o := poolLid s r pa
  let l := recList s o p.head
  let nx := r.op == .phnext
  match ← memberOf s c r pa with
  | some (k, m) =>
    if m.mode = 1 then .error Code.phaserState
    else match memberSignal p m.next with
      | none =>
        match freeRec s o with
        | none => .error Code.waiterPool
        | some i =>
          let q := pushRec s o p.head i 4 r m.next nx
          writePh q.1 r.ctx pa w0 { p with head := q.2 }
      | some p2 =>
        let s := setMembers s c (tset (membersOf s c) k { m with next := m.next + 1 })
        finish s l nx p2 m.next
  | none => if p.reg = 0 then .error Code.phaserState else finish s l nx { p with sig := p.sig + 1 } p.phase
where
  /-- Advances and answers, or waits for the phase in a KIND 3 record that must be free beforehand (R274). -/
  finish (s : State) (l : List Nat) (nx : Bool) (p2 : Ph) (t : W32) : Except Nat State := do
    let o := poolLid s r pa
    let after := phAdvance c o (l.length + 3) ⟨s, p2, l⟩
    if nx && !phDone after.p.phase t then
      match freeRec s o with
      | none => .error Code.waiterPool
      | some i =>
        let pool := tset (poolOf after.s o) i ⟨3, 0, 0, r, t, false, []⟩
        let k := relink pool (after.l ++ [i])
        writePh (setPool after.s o k.1) r.ctx pa w0 { after.p with head := k.2 }
    else
      let s ← phFinish s c r pa w0 p2 l
      return sendAns s (.core c) r (phAns t)

/-- PHWAIT (R292). -/
def phWait (s : State) (c : CoreId) (r : PortReq) (pa w0 : Nat) (p : Ph) : Except Nat State := do
  let m ← memberOf s c r pa
  let ckey := if r.w.sc = 0 then r.set.c.bind fun t => if t.kv then some t.key else none else none
  let (t, s2) := match ckey with
    | some k => (k, s)
    | none => match m with
      | some (k, e) => if e.mode = 1 then (e.next, setMembers s c (tset (membersOf s c) k { e with next := e.next + 1 })) else (e.next - 1, s)
      | none => (p.phase, s)
  if phDone p.phase t then return sendAns s2 (.core c) r (phAns t)
  else match freeRec s2 (poolLid s r pa) with
    | none => .error Code.waiterPool
    | some i =>
      let q := pushRec s2 (poolLid s r pa) p.head i 2 r t false
      writePh q.1 r.ctx pa w0 { p with head := q.2 }

/-- PHREG (R290). -/
def phReg (s : State) (c : CoreId) (r : PortReq) (pa w0 : Nat) (p : Ph) : Except Nat State := do
  let used := (membersOf s c).map Prod.fst
  let i := freeIndex used used.length 0
  if 256 ≤ i then .error Code.phaserState
  else
    let mode := r.w.fn.toNat
    let (p2, next) :=
      if mode = 1 then (p, p.phase)
      else if p.reg = 0 then ({ p with reg := 1 }, p.phase)
      else ({ p with pend := p.pend + 1 }, p.phase + 1)
    let s ← writePh (setMembers s c (tset (membersOf s c) i ⟨pa, r.lid, mode, next⟩)) r.ctx pa w0 p2
    return sendAns s (.core c) r ⟨0, false, BitVec.ofNat 64 r.va, some (BitVec.ofNat 32 i), none, none, 0⟩

/-- The step of R293 for a membership entry. -/
def phDropStep (s : State) (c : CoreId) (r : PortReq) (pa w0 : Nat) (p : Ph) (k : Nat) (m : Member) : Except Nat State :=
  let s := setMembers s c (tdel (membersOf s c) k)
  if m.mode = 1 then .ok s
  else
    let p := if m.next = p.phase then { p with sig := p.sig + 1 }
      else if m.next = p.phase + 2 then { p with early := p.early - 1 }
      else p
    phFinish s c r pa w0 { p with pend := p.pend - 1 } (recList s (poolLid s r pa) p.head)

/-- PHDROP (R293). -/
def phDrop (s : State) (c : CoreId) (r : PortReq) (pa w0 : Nat) (p : Ph) : Except Nat State := do
  match ← memberOf s c r pa with
  | none => .error Code.phaserState
  | some (k, m) =>
    let s ← phDropStep s c r pa w0 p k m
    return sendAns s (.core c) r ansDone

/-- A phaser request applied at its home (R285 to R294). -/
def phStep (s : State) (c : CoreId) (r : PortReq) (pa : Nat) : Except Nat State := do
  let (s, w0, p) ← readPh s r.ctx pa
  let sc := r.w.fn.toNat % 8
  let _ ← memberOf s c r pa
  if r.op == .phnew then
    if p.head != 0 || !inScope s sc r c pa || ((membersOf s c).any fun m => m.2.addr == pa) then .error Code.phaserState
    else
      let s ← writePh s r.ctx pa (sc * 2 ^ 59) ⟨sc, 0, BitVec.ofNat 32 (r.val.toNat % 2 ^ 24), 0, 0, 0, 0⟩
      return sendAns s (.core c) r ansDone
  else if bits w0 63 62 != 0 || 6 ≤ p.scope || !headOk s (poolLid s r pa) p.head [2, 3, 4] then .error Code.phaserState
  else if r.op == .phreg || r.op == .phdrop || r.op == .phqry then
    if !inScope s p.scope r c pa then .error Code.phaserState
    else if r.op == .phreg then phReg s c r pa w0 p
    else if r.op == .phdrop then phDrop s c r pa w0 p
    else
      let a : Ans := ⟨0, false, BitVec.ofNat 64 (p.reg.toNat * 2 ^ 32 + p.sig.toNat), some p.phase, none, none, 0⟩
      return sendAns s (.core c) r a
  else if sc < p.scope || !inScope s sc r c pa then .error Code.phaserState
  else if r.op == .phwait then phWait s c r pa w0 p
  else phSignal s c r pa w0 p

/-- A request of an object applied at its home by a step that may refuse. -/
def objectStep (s : State) (pkt : Nat) (want : Op → Bool) (step : State → CoreId → PortReq → Nat → Except Nat State) : State :=
  match reqHere s pkt with
  | some (r, pa, _) =>
    if want r.op then
      atHome s r.ctx pa fun s =>
        let s := progress (dropPkt s pkt) r.sl.core.f r.lid
        match homeGuard s r pa with
        | .error c => refuse s r pa c
        | .ok () => match (readRecs s (poolLid s r pa) (objRecs s (poolLid s r pa) pa)).bind fun s => step s (sramCore pa) r pa with
          | .error c => refuse s r pa c
          | .ok s => s
    else s
  | none => s

/-- PHASER_STEP (R291): a phaser request is applied at its home. -/
def execPhaserStep (pkt : Nat) (s : State) : Host.Outcome State Fault Refusal := .next (objectStep s pkt isPhaser phStep)

/-! ## Lock words (R295) -/

/-- The word of a held lock, with its acquirer. -/
def lockWord (r : PortReq) : Nat :=
  2 ^ 63 + r.wafer * 2 ^ 59 + r.sl.core.f * 2 ^ 53 + r.sl.core.cx * 2 ^ 48 + r.sl.core.cy * 2 ^ 43 + r.sl.e * 2 ^ 38 + r.sl.k * 2 ^ 35
    + r.set.id.seq.toNat

/-- A KIND 5 record that waits for a lock word. -/
def lockRec (pa : Nat) (r : WRec) : Bool := r.kind == 5 && r.req.pa == pa

/-- The head of a lock word's list: its record that no other one's NEXT names. The word itself has no HEAD (R295). -/
def lockHead (p : Tbl Nat WRec) (pa : Nat) : Nat :=
  match first? (fun q : Nat × WRec => lockRec pa q.2 && !(p.any fun x => lockRec pa x.2 && x.2.next == q.1 + 1)) p with
  | some q => q.1 + 1
  | none => 0

/-- The records of a lock word's list, in the order in which they entered. -/
def lockList (s : State) (lid pa : Nat) : List Nat := recList s lid (lockHead (poolOf s lid) pa)

/-- The word of a lock written. -/
def writeLock (s : State) (ctx pa v : Nat) : Except Nat State :=
  (homeWrite s (some ctx) pa (leBytes 8 v) false).map fun s => wakeStwait s pa 8

/-- An ACQ or a REL applied at the lock word's home. -/
def lockOne (s : State) (c : CoreId) (r : PortReq) (pa : Nat) : Except Nat State := do
  let o := poolLid s r pa
  if !inScope s (r.w.fn.toNat % 8) r c pa then .error Code.lockState
  else
    let (s, v) ← homeNat s (some r.ctx) pa 8 false
    if r.op == .acq then
      if !bit v 63 then
        let s ← writeLock s r.ctx pa (lockWord r)
        return sendAns s (.core c) r ansDone
      else match freeRec s o with
        | none => .error Code.waiterPool
        | some i => return (pushRec s o (lockHead (poolOf s o) pa) i 5 r 0 false).1
    else if !bit v 63 then .error Code.lockState
    else match (lockList s o pa).head?.bind fun i => (tget (poolOf s o) i).map fun q => (i, q) with
      | some (i, q) =>
        let s ← writeLock s r.ctx pa (lockWord q.req)
        let left := relink (tdel (poolOf s o) i) (lockList s o pa).tail
        let s := progress (sendAns (setPool s o left.1) (.core c) q.req ansDone) q.req.sl.core.f q.req.lid
        return sendAns s (.core c) r ansDone
      | none =>
        let s ← writeLock s r.ctx pa (v % 2 ^ 63)
        return sendAns s (.core c) r ansDone

/-- LOCK_STEP (R295): an ACQ or a REL is applied at the lock word's home. -/
def execLockStep (pkt : Nat) (s : State) : Host.Outcome State Fault Refusal :=
  .next (objectStep s pkt (fun o => o == .acq || o == .rel) lockOne)

/-! ## The share table (R296) -/

/-- The share-table entries of a core. -/
def sharesOf (s : State) (c : CoreId) : List Share := tgetD s.shares c []

/-- A share operation: removal for a length of 0, otherwise an entry that is not present yet. -/
def shareOp (s : State) (w : CW) (fr : Firing) : Except Nat State :=
  let base := (addrA w fr).toNat
  let len := (keyA w fr.set).toNat
  let obj := (opVal w fr w.sb fr.set.b true).toNat
  let l := sharesOf s fr.sl.core
  let e : Share := ⟨fr.node.ctx, fr.node.lid, base, len, obj⟩
  if base % 64 != 0 || len % 64 != 0 || !kvA w fr.set then .error Code.align
  else if len = 0 then
    .ok { s with shares := tset s.shares fr.sl.core (l.filter fun x => !(x.ctx == e.ctx && x.base == base && x.obj == obj)) }
  else if l.any fun x => x.ctx == e.ctx && x.base == base && x.len == len && x.obj == obj then .ok s
  else if 16 ≤ l.length then .error Code.shareFull
  else .ok { s with shares := tset s.shares fr.sl.core (l ++ [e]) }

/-- SHARE and its removing form act at the issuing core alone; Y is a done token (R296). -/
def fireShare (s : State) (w : CW) : State :=
  fireSet s w true true true (fun _ => 0) fun fr =>
    match resTok w fr 5 (addrA w fr) with
    | .error c => faultFiring s w fr true true c (addrA w fr).toNat
    | .ok y =>
      let e : Emit := ⟨[], [y], 0, [], true⟩
      if !hasRoom s fr.sl e then s
      else match shareOp s w fr with
        | .error c => faultFiring s w fr true true c (addrA w fr).toNat
        | .ok s2 => commit s2 w fr e

/-- SHARE (R296). -/
def execShare (w : CW) (s : State) : Host.Outcome State Fault Refusal := .next (fireShare s w)

/-- SHARE_REMOVE (R296): a length KEY of 0 removes the binding of the region and object. -/
def execShareRemove (w : CW) (s : State) : Host.Outcome State Fault Refusal := .next (fireShare s w)

/-! ## The end of a launch (R293) -/

/-- A launch's records taken out of one list in another launch's pool: of a phaser, whose HEAD follows, or of a lock word. -/
def unlinkAt (s : State) (lid ctx o pa : Nat) : State :=
  let mine (i : Nat) : Bool := match tget (poolOf s o) i with
    | some r => r.req.lid == lid
    | none => false
  let cut (l : List Nat) : Tbl Nat WRec × Nat := relink ((poolOf s o).filter fun q => !(q.2.req.lid == lid && q.2.req.pa == pa)) (l.filter fun i => !mine i)
  if (poolOf s o).any fun q => lockRec pa q.2 then setPool s o (cut (lockList s o pa)).1
  else match readPh s ctx pa with
    | .error _ => s
    | .ok (s, w0, p) =>
      let k := cut (recList s o p.head)
      match writePh (setPool s o k.1) ctx pa w0 { p with head := k.2 } with
      | .ok s => s
      | .error _ => setPool s o k.1

/-- The promise cells that a launch declared on this wafer, by address. -/
def cellsOf (s : State) (lid : Nat) : List Nat :=
  match launch? s lid with
  | none => []
  | some l => l.objs.flatMap fun o => if o.kind = 2 then (List.range o.count).map fun i => sramPA s.wafno o.core o.off + 16 * i else []

/-- The list of a root cell without a launch's records. -/
def unlinkCell (s : State) (lid ctx o pa : Nat) : State :=
  let mine (i : Nat) : Bool := (rec? s o i).any fun r => r.req.lid == lid
  match homeNat s (some ctx) pa 8 false with
  | .error _ => s
  | .ok (s, w) =>
    let l := recList s o (cellHead w)
    if cellState w = 0 && l.any mine then
      let k := relink (poolOf s o) (l.filter fun i => !mine i)
      match homeWrite (setPool s o k.1) (some ctx) pa (leBytes 8 (cellRank w * 2 ^ 56 + k.2)) false with
      | .ok s => s
      | .error _ => setPool s o k.1
    else s

/-- A carry without a launch's records. -/
def unlinkCarry (s : State) (lid o : Nat) (w : PWalk) : State :=
  let cut (h : Nat) : Tbl Nat WRec × Nat := relink (poolOf s o) ((recList s o h).filter fun i => !((rec? s o i).any fun r => r.req.lid == lid))
  let tail (k : Tbl Nat WRec × Nat) : Nat := ((tget k.1 (k.2 - 1)).map WRec.tail).getD 0
  match w.phase with
  | .carry d h _ rk => if poolLid s w.req d = o then let k := cut h; setWalkP (setPool s o k.1) { w with phase := .carry d k.2 (tail k) rk } else s
  | .heldCarry d h _ rk => if poolLid s w.req d = o then let k := cut h; setWalkP (setPool s o k.1) { w with phase := .heldCarry d k.2 (tail k) rk } else s
  | _ => s

/-- A launch's records that wait at the cells of another taken out of their lists, wherever those stand, and freed. -/
def unlinkCells (s : State) (lid ctx o : Nat) : State :=
  let s := (cellsOf s o).foldl (fun s pa => unlinkCell s lid ctx o pa) s
  let s := s.x.pwalks.foldl (fun s w => unlinkCarry s lid o w) s
  setPool s o ((poolOf s o).filter fun q => !(q.2.req.lid == lid && q.2.kind == 1))

/-- A launch's records in the pools of its line freed. -/
def unlinkWaits (s : State) (lid ctx : Nat) : State :=
  s.launches.foldl (fun s q =>
    if q.1 == lid then s
    else
      let s := ((q.2.pool.filter fun x => x.2.req.lid == lid && x.2.kind != 1).map fun x => x.2.req.pa).eraseDups.foldl
        (fun s pa => unlinkAt s lid ctx q.1 pa) s
      if q.2.pool.any fun x => x.2.req.lid == lid && x.2.kind == 1 then unlinkCells s lid ctx q.1 else s) s

/-- A membership entry, if it is a launch's, dropped by R293's step as it stands when its turn comes. -/
def dropMember (s : State) (lid ctx : Nat) (c : CoreId) (k : Nat) : State :=
  match tget (membersOf s c) k with
  | none => s
  | some m =>
    if m.lid != lid then s
    else match readPh s ctx m.addr with
      | .error _ => setMembers s c (tdel (membersOf s c) k)
      | .ok (s, w0, p) =>
        let r : PortReq := { (default : PortReq) with lid := lid, ctx := ctx, wafer := s.wafno }
        match phDropStep s c r m.addr w0 p k m with
        | .ok s => s
        | .error _ => setMembers s c (tdel (membersOf s c) k)

/-- Every membership entry of a launch dropped by R293's step, its waiter records freed, what its histories hold and its share-table
entries removed. -/
def dropObjects (s : State) (lid : Nat) : State :=
  let ctx := ((launch? s lid).map Launch.ctx).getD 0
  let s := s.x.members.foldl (fun s t => t.2.foldl (fun s e => dropMember s lid ctx t.1 e.1) s) s
  let s := setPool (unlinkWaits s lid ctx) lid []
  let theirs {α : Type} (q : (CoreId × Nat) × α) : Bool :=
    ((launch? s lid).map fun l => l.objs.any fun o => o.kind == 3 && o.core == q.1.1 && o.off == q.1.2).getD false
  let s := { s with x := { s.x with
    hown := s.x.hown.filter fun q => !theirs q
    hset := s.x.hset.filter fun q => !theirs q
    hpark := s.x.hpark.filter fun q => !theirs q
    hstop := s.x.hstop.filter fun q => !theirs q } }
  { s with shares := s.shares.map fun q => (q.1, q.2.filter fun e => e.lid != lid) }

end Sys2Proof.Machine
end

