-- ==== Sys2Proof/Machine/History.lean ====
section
/-! DEFINITION. Histories: the eight instructions, the history unit's operations and the processing of pending times (R225 to R246). -/

namespace Sys2Proof.Machine

open Sys2Proof

/-! ## Issue (R229, R231) -/

/-- A history node's firing: a NUL or END handle leaves the history untouched and ends as END tokens; any other sends its request. -/
def fireHist (s : State) (op : Op) (w : CW) : State :=
  fireOwn s fun fr =>
    let d := opDrives op
    if isNul fr.set.a || isEnd fr.set.a then conclude s w fr d.1 d.2 0 (both w fr d.1 d.2 endTok)
    else issueReq s op w fr

/-- HNEW (R235). -/
def execHnew (w : CW) (s : State) : Host.Outcome State Fault Refusal := .next (fireHist s .hnew w)

/-- HAPP (R235). -/
def execHapp (w : CW) (s : State) : Host.Outcome State Fault Refusal := .next (fireHist s .happ w)

/-- HJOIN (R236). -/
def execHjoin (w : CW) (s : State) : Host.Outcome State Fault Refusal := .next (fireHist s .hjoin w)

/-- HRED (R237). -/
def execHred (w : CW) (s : State) : Host.Outcome State Fault Refusal := .next (fireHist s .hred w)

/-- HSEEK (R241). -/
def execHseek (w : CW) (s : State) : Host.Outcome State Fault Refusal := .next (fireHist s .hseek w)

/-- HCOMP (R242). -/
def execHcomp (w : CW) (s : State) : Host.Outcome State Fault Refusal := .next (fireHist s .hcomp w)

/-- HMRG (R243). -/
def execHmrg (w : CW) (s : State) : Host.Outcome State Fault Refusal := .next (fireHist s .hmrg w)

/-- HSTAT (R244). -/
def execHstat (w : CW) (s : State) : Host.Outcome State Fault Refusal := .next (fireHist s .hstat w)

/-! ## The directory and its records (R226 to R228) -/

/-- A record (R227); a dif is kept exact until it is checked. -/
structure HRec where
  key  : W32
  dif  : Int
  val  : W64
  time : Time
  deriving DecidableEq, Repr

/-- A history as its extent holds it: NB0 and NB1, batches in the order of the table, each with its side, the parked batch, pending entries in
the order in which they were added, OWNER. -/
structure Hist where
  base    : Nat
  cap     : Nat
  nb0     : Nat
  nb1     : Nat
  batches : List (Bool × List HRec)
  park    : List HRec
  pend    : List HRec
  owner   : Nat
  ownerw  : Nat
  deriving DecidableEq, Repr

/-- CAP of an extent of COUNT blocks (R226). -/
def histCap (count : Nat) : Nat := (2048 * count - 512) / 24

/-- Records in batches. -/
def Hist.held (h : Hist) : Nat := (h.batches.map fun b => b.2.length).foldl (· + ·) 0

/-- USED. -/
def Hist.used (h : Hist) : Nat := h.held + h.park.length + h.pend.length

/-- Free slots. -/
def Hist.free (h : Hist) : Nat := h.cap - h.used

/-- The records of one side, oldest batch first. -/
def Hist.side (h : Hist) (sd : Bool) : List HRec := (h.batches.filter fun b => b.1 == sd).flatMap Prod.snd

/-- The record of slot i of some bytes. -/
def recAt (b : List Byte) (i : Nat) : HRec :=
  ⟨BitVec.ofNat 32 (leAt b (24 * i) 4), sint 32 (leAt b (24 * i + 4) 4), BitVec.ofNat 64 (leAt b (24 * i + 8) 8),
   timeOf (BitVec.ofNat 64 (leAt b (24 * i + 16) 8))⟩

/-- The 24 bytes of a record. -/
def recBytes (r : HRec) : List Byte :=
  leBytes 4 r.key.toNat ++ leBytes 4 (wrap 32 r.dif) ++ leBytes 8 r.val.toNat ++ leBytes 8 (timeWord r.time).toNat

/-- The slot after the last valid batch entry, none where an entry is empty, out of place or runs past CAP (R228). -/
def batchEnd (cap : Nat) : Nat → List Nat → Option Nat
  | n, [] => some n
  | n, e :: l => if bits e 31 0 = 0 || bits e 62 32 != n || cap < n + bits e 31 0 then none else batchEnd cap (n + bits e 31 0) l

/-- The batches that entries name, from the bytes of the record area. -/
def batchesOf (b : List Byte) (es : List Nat) : List (Bool × List HRec) :=
  es.map fun e => (bit e 63, (List.range (bits e 31 0)).map fun i => recAt b (bits e 62 32 + i))

/-- A history read from its extent: HIST_HANDLE for a malformed directory (R228), ECC_UNCORR for a word that cannot be read (R246). -/
def histLoad (s : State) (ctx base count : Nat) : Except Nat (State × Hist) := do
  let (s, d) ← homeRead s (some ctx) base 512 false
  let cap := histCap count
  let n := leAt d 0 4 + leAt d 4 4
  if 60 < n || leAt d 12 4 != cap || cap < leAt d 8 4 then .error Code.histHandle
  else
    let es := (List.range n).map fun i => leAt d (32 + 8 * i) 8
    let npend := leAt d 16 4
    let npark := leAt d 20 4
    match batchEnd cap 0 es with
    | none => .error Code.histHandle
    | some e =>
      if leAt d 8 4 != e + npark + npend then .error Code.histHandle
      else do
        let (s, lo) ← homeRead s (some ctx) (base + 512) (24 * (e + npark)) false
        let (s, hi) ← homeRead s (some ctx) (base + 512 + 24 * (cap - npend)) (24 * npend) false
        let park := (List.range npark).map fun i => recAt lo (e + i)
        let pend := ((List.range npend).map fun i => recAt hi i).reverse
        return (s, ⟨base, cap, leAt d 0 4, leAt d 4 4, batchesOf lo es, park, pend, leAt d 24 4, leAt d 28 4⟩)

/-- The batch entries of the table, packed from slot 0. -/
def batchEntries : Nat → List (Bool × List HRec) → List Byte
  | _, [] => []
  | n, b :: l => leBytes 8 (b.1.toNat * 2 ^ 63 + n * 2 ^ 32 + b.2.length) ++ batchEntries (n + b.2.length) l

/-- The directory's bytes up to its last valid batch entry; an operation leaves the entries beyond as they are (log 112). -/
def Hist.dir (h : Hist) : List Byte :=
  let n (sd : Bool) : Nat := (h.batches.filter fun b => b.1 == sd).length
  leBytes 4 (n false) ++ leBytes 4 (n true) ++ leBytes 4 h.used ++ leBytes 4 h.cap ++ leBytes 4 h.pend.length ++ leBytes 4 h.park.length
    ++ leBytes 4 h.owner ++ leBytes 4 h.ownerw ++ batchEntries 0 h.batches

/-- Bytes of an extent written at their home. -/
def extentPut (s : State) (ctx a : Nat) (b : List Byte) : State :=
  match homeWrite s (some ctx) a b false with
  | .ok s => wakeStwait s a b.length
  | .error _ => s

/-- The bytes of a history in its extent, by address: directory, batches and parked batch upward, pending entries downward (R227). -/
def Hist.bytes (h : Hist) : List (Nat × List Byte) :=
  [(h.base, h.dir), (h.base + 512, ((h.batches.flatMap Prod.snd) ++ h.park).flatMap recBytes),
   (h.base + 512 + 24 * (h.cap - h.pend.length), h.pend.reverse.flatMap recBytes)]

/-- Bytes of a history written back. -/
def histPut (s : State) (ctx : Nat) (l : List (Nat × List Byte)) : State := l.foldl (fun s q => extentPut s ctx q.1 q.2) s

/-! ## Batches (R232, R233) -/

/-- The order of records: KEY, VAL, then the time word, unsigned. -/
def HRec.ord (r : HRec) : Nat := r.key.toNat * 2 ^ 128 + r.val.toNat * 2 ^ 64 + (timeWord r.time).toNat

/-- A dif within 32 bits. -/
def dif32 (d : Int) : Bool := -(2 ^ 31 : Int) ≤ d && d < (2 ^ 31 : Int)

/-- A record put into its place; one with an equal triple takes the sum of the difs. -/
def insRec (r : HRec) : List HRec → List HRec
  | [] => [r]
  | a :: l => if r.ord < a.ord then r :: a :: l else if r.ord = a.ord then { a with dif := a.dif + r.dif } :: l else a :: insRec r l

/-- Records in order, equal triples summed and zero sums dropped; none where a sum lies outside 32 bits. -/
def mergeRecs (l : List HRec) : Option (List HRec) :=
  let m := l.foldl (fun acc r => insRec r acc) []
  if m.all fun r => dif32 r.dif then some (m.filter fun r => r.dif != 0) else none

/-- The last two batches of a side, by their places in the table. -/
def lastTwo (h : Hist) (sd : Bool) : Option (Nat × List HRec × Nat × List HRec) :=
  match (h.batches.zipIdx.filter fun p => p.1.1 == sd).reverse with
  | b :: a :: _ => some (a.2, a.1.2, b.2, b.1.2)
  | _ => none

/-- The merges that an append triggers (R233): while the newest batch has more than half the records of the one before it. -/
def mergeTail (sd : Bool) : Nat → Hist → Hist
  | 0, h => h
  | k + 1, h =>
    match lastTwo h sd with
    | none => h
    | some (i, a, j, b) =>
      if 2 * b.length ≤ a.length || h.free < min a.length b.length then h
      else match mergeRecs (a ++ b) with
        | none => h
        | some m =>
          let bs := h.batches.eraseIdx j
          mergeTail sd k { h with batches := if m.isEmpty then bs.eraseIdx i else setAt bs i (sd, m) }

/-- A consolidated batch appended to a side; HIST_FULL where the table has no entry free once the merges have run (R232 check 4). -/
def appendBatch (h : Hist) (sd : Bool) (b : List HRec) : Except Nat Hist :=
  if b.isEmpty then .ok h
  else
    let g := mergeTail sd 61 { h with batches := h.batches ++ [(sd, b)] }
    if 60 < g.batches.length then .error Code.histFull else .ok g

/-- Each side merged into one batch that takes the entry of its oldest, with every record changed first (R242, R243). -/
def mergeSides (h : Hist) (g : HRec → HRec) : Option Hist := do
  let m0 ← mergeRecs ((h.side false).map g)
  let m1 ← mergeRecs ((h.side true).map g)
  let rec go (seen : List Bool) : List (Bool × List HRec) → List (Bool × List HRec)
    | [] => []
    | b :: l => if seen.contains b.1 then go seen l
      else let m := if b.1 then m1 else m0
        (if m.isEmpty then [] else [(b.1, m)]) ++ go (b.1 :: seen) l
  return { h with batches := go [] h.batches }

/-- The records of a batch as they arrive, each at the batch's time. -/
def rawBatch (r : PortReq) : List HRec :=
  (r.set.bs.filter fun t => !t.nul && !t.fin).map fun t => ⟨t.key, t.dif.toInt, t.val, r.set.id.time⟩

/-- Every record's (KEY, VAL) is at least its predecessor's (R232 check 1). -/
def inOrder : List HRec → Bool
  | a :: b :: l => decide (a.ord ≤ b.ord) && inOrder (b :: l)
  | _ => true

/-- R232's checks 1 and 2: the consolidated batch. -/
def consolidate (l : List HRec) : Except Nat (List HRec) :=
  if inOrder l then (match mergeRecs l with
    | some m => .ok m
    | none => .error Code.difOverflow)
  else .error Code.histOrder

/-! ## Tokens -/

/-- The request's firing at a time of its own. -/
def histFiring (r : PortReq) (t : Time) : Firing := atTime (reqFiring r) t

/-- A record token: KEY with KV set. -/
def histTok (r : PortReq) (port : Nat) (t : Time) (k : W32) (v : W64) (d : Int) : Except Nat Token :=
  outTok r.w (histFiring r t) port v k true d false false

/-- A completion token (R231). -/
def completion (r : PortReq) (port : Nat) (v : W64) : Except Nat Token :=
  outTok r.w (reqFiring r) port v 0 false 1 false false

/-- A's VAL. -/
def handleVal (r : PortReq) : W64 := (r.set.a.map Token.val).getD 0

/-- The side that a handle names (R229). -/
def handleSide (r : PortReq) : Bool := (handleVal r).getLsbD 0

/-! ## Reduction (R238 to R240) -/

/-- Sums by value in ascending VAL, with one more term. -/
def accVal (v : W64) (d : Int) : List (W64 × Int) → List (W64 × Int)
  | [] => [(v, d)]
  | (u, e) :: l => if v.toNat < u.toNat then (v, d) :: (u, e) :: l else if v = u then (u, e + d) :: l else (u, e) :: accVal v d l

/-- c or o of R238: the sums of a side's difs for a key up to a time. -/
def sumsAt (h : Hist) (sd : Bool) (k : W32) (t : Time) : List (W64 × Int) :=
  (((h.side sd).filter fun r => r.key == k && tle r.time t).foldl (fun acc r => accVal r.val r.dif acc) [])

/-- A float value times an exact count. -/
def scaleFV (x : FV) (c : Int) : FV :=
  match x with
  | .num n m e => .num (n != (c < 0)) (m * c.natAbs) e
  | .inf n => .inf (n != (c < 0))
  | y => y

/-- The exact sum of v times c(v) in a float type, rounded once (R238). -/
def floatSum (ty : Nat) (l : List (W64 × Int)) : Nat × BitVec 5 :=
  let f := fmtOf ty
  let xs := l.map fun p => scaleFV (fdec f (p.1.toNat % 2 ^ f.w)) p.2
  match nanOf f xs with
  | some r => r
  | none =>
    let pos := xs.any fun x => x == .inf false
    let neg := xs.any fun x => x == .inf true
    if pos && neg then invalid f
    else if pos then infTo f false false
    else if neg then infTo f true false
    else
      let (v, e, z) := sumNums xs
      if v = 0 then (signBit f z, 0) else rnd f (v < 0) v.natAbs e 0 false

/-- The desired collection g of R238 from c, with the flags it raises. -/
def desired (fn ty : Nat) (c : List (W64 × Int)) : List (W64 × Int) × BitVec 5 :=
  let live := c.filter fun p => p.2 != 0
  let pos := c.filter fun p => 0 < p.2
  match fn with
  | 0 => (pos.map fun p => (p.1, 1), 0)
  | 1 =>
    let n := wrap (widthOf ty) ((live.map Prod.snd).foldl (· + ·) 0)
    (if n = 0 then [] else [(extend ty n, 1)], 0)
  | 2 =>
    if live.isEmpty then ([], 0)
    else if ty < 8 then ([(extend ty ((live.map fun p => readInt ty p.1.toNat * p.2).foldl (· + ·) 0), 1)], 0)
    else
      let r := floatSum ty live
      ([(extend ty r.1, 1)], r.2)
  | _ =>
    match pos with
    | [] => ([], 0)
    | p :: l =>
      let r := l.foldl (fun (a : W64 × BitVec 5) q => let x := foldOp (fn - 2) ty a.1 q.1; (x.1, a.2 ||| x.2)) (extend ty (p.1.toNat : Int), 0)
      ([(r.1, 1)], r.2)

/-- The correction at (k, t): each value whose desired count differs from what was emitted, in ascending VAL. -/
def correction (h : Hist) (fn ty : Nat) (k : W32) (t : Time) : List (W64 × Int) × BitVec 5 :=
  let g := desired fn ty (sumsAt h false k t)
  ((((sumsAt h true k t).foldl (fun acc p => accVal p.1 (-p.2) acc) g.1).filter fun p => p.2 != 0), g.2)

/-- Pending entries in the order of processing: ascending key, then ascending time word. -/
def pendOrd (p : HRec) : Nat := p.key.toNat * 2 ^ 64 + (timeWord p.time).toNat

/-- The least pending entry that a frontier has passed. -/
def leastPassed (F : List Time) : List HRec → Option HRec
  | [] => none
  | p :: l =>
    match leastPassed F l with
    | none => if passed F p.time then some p else none
    | some q => if passed F p.time && pendOrd p < pendOrd q then some p else some q

/-- The stages that an owner's X reaches, each once (R240). -/
def holdStages (o : PortReq) : List Nat := o.xst.eraseDups

/-- Counts of some times at the held stages. -/
def holdItems (o : PortReq) (n : Int) (ts : List Time) : List CountItem := ts.flatMap fun t => (holdStages o).map fun q => ⟨q, t, n⟩

/-- What processing pending entries does: the history after it, the tokens of X, the counts of its end, the flags. -/
structure Done where
  h     : Hist
  x     : List Token
  items : List CountItem
  flags : BitVec 5
  deriving DecidableEq, Repr

/-- An owner's request for a correction at a time: the bare identity of time t and SEQ 0 (R240). -/
def atPending (o : PortReq) (t : Time) : PortReq := { o with set := ⟨⟨o.set.id.k, t, 0⟩, none, none, none, none, 0, []⟩ }

/-- Processes one pending entry of an owner (R240). -/
def processEntry (h : Hist) (o : PortReq) (p : HRec) : Except Nat Done := do
  let c := correction h (bits h.owner 7 4) (bits h.owner 3 0) p.key p.time
  let x ← c.1.mapM fun v => histTok (atPending o p.time) 4 p.time p.key v.1 v.2
  if h.free < c.1.length then .error Code.histFull
  else do
    let g ← appendBatch h true (c.1.map fun v => ⟨p.key, v.2, v.1, p.time⟩)
    let rest := g.pend.erase p
    let gone := if rest.any fun q => q.time == p.time then [] else [p.time]
    return ⟨{ g with pend := rest }, x, holdItems o (-1) gone, c.2⟩

/-- Processes every pending entry that a frontier has passed, up to one that cannot be (R242 step 1): what was done, and that one's code and time. -/
def processAll (o : PortReq) (F : List Time) : Nat → Done → Done × Nat × Time
  | 0, d => (d, 0, t00)
  | n + 1, d =>
    match leastPassed F d.h.pend with
    | none => (d, 0, t00)
    | some p => match processEntry d.h o p with
      | .error code => (d, code, p.time)
      | .ok e => processAll o F n ⟨e.h, d.x ++ e.x, d.items ++ e.items, d.flags ||| e.flags⟩

/-- The interesting times that a batch adds (R239), keys and times ascending, those already pending left out. -/
def interesting (h : Hist) (t : Time) (b : List HRec) : List HRec :=
  ((b.map HRec.key).eraseDups).flatMap fun k =>
    let hs := (t :: ((h.batches.flatMap Prod.snd).filter fun r => r.key == k).map HRec.time).eraseDups
    let ts := (hs.flatMap fun u => hs.map fun w => tjoin t (tjoin u w)).eraseDups.foldl (fun acc u => insTime u acc) []
    (ts.filter fun u => !(h.pend.any fun p => p.key == k && p.time == u)).map fun u => ⟨k, 0, 0, u⟩

/-! ## The operations (R235 to R244) -/

/-- What an operation ends as: its history, its tokens in the order in which they are sent, each with its output, and counts beyond its
consumption and its tokens. -/
structure HOut where
  h     : Hist
  out   : List (Nat × Token)
  items : List CountItem
  deriving DecidableEq, Repr

/-- A time moved up to a frontier (R242): the meet over f of join(t, f). -/
def compactTime (F : List Time) (t : Time) : Time :=
  match F.map fun f => tjoin t f with
  | [] => t
  | x :: l => l.foldl tmeet x

/-- HCOMP's steps 2 and 3, and HMRG (R242, R243). -/
def compactAll (h : Hist) (g : HRec → HRec) : Except Nat Hist :=
  if h.free < max (h.side false).length (h.side true).length then .error Code.histFull
  else match mergeSides h g with
    | some m => .ok m
    | none => .error Code.difOverflow

/-- The tokens of a join's pairs (R236), in order. -/
def joinPairs (h : Hist) (r : PortReq) (b : List HRec) : Except Nat (List (List (Nat × Token))) :=
  let sd := handleSide r
  (b.flatMap fun a => ((h.side (!sd)).filter fun c => c.key == a.key).map fun c => (a, c)).mapM fun p => do
    let t := tjoin p.1.time p.2.time
    let d := p.1.dif * p.2.dif
    let x ← histTok r 4 t p.1.key (if sd then p.2.val else p.1.val) d
    let y ← histTok r 5 t p.1.key (if sd then p.1.val else p.2.val) d
    return [(4, x), (5, y)]

/-- OWNER's word for an HRED (R226). -/
def ownerWord (r : PortReq) : Nat :=
  r.sl.core.f * 2 ^ 26 + r.sl.core.cx * 2 ^ 21 + r.sl.core.cy * 2 ^ 16 + r.sl.e * 2 ^ 11 + r.sl.k * 2 ^ 8 + r.w.fn.toNat * 16 + r.w.ty.toNat

/-- HRED's owner check (R237). -/
def ownerOk (h : Hist) (r : PortReq) : Bool := h.owner == 0xFFFFFFFF || (h.owner == ownerWord r && h.ownerw % 16 == r.wafer)

/-- HSEEK's tokens for one query (R241). -/
def seekToks (h : Hist) (r : PortReq) (k : W32) : Except Nat (List Token) :=
  ((sumsAt h (handleSide r) k r.set.id.time).filter fun p => p.2 != 0).mapM fun p => histTok r 4 r.set.id.time k p.1 p.2

/-- HSTAT's word (R244). -/
def statWord (h : Hist) : W64 := BitVec.ofNat 64 (h.used * 2 ^ 46 + h.cap * 2 ^ 29 + h.nb0 * 2 ^ 23 + h.nb1 * 2 ^ 17 + h.pend.length)

/-- An operation whose batch has been accepted, on its history. own is the last HRED of the owner, F the frontier of the node's stage. -/
def histDo (h : Hist) (r : PortReq) (own : Option PortReq) (F : List Time) : Except Nat HOut := do
  match r.op with
  | .hnew =>
    let x ← completion r 4 (handleVal r)
    let items := match own with
      | some o => holdItems o (-1) (h.pend.map HRec.time).eraseDups
      | none => []
    return ⟨{ h with batches := [], park := [], pend := [], owner := 0xFFFFFFFF }, [(4, x)], items⟩
  | .happ =>
    let b ← consolidate (rawBatch r)
    let g ← appendBatch h (handleSide r) b
    let x ← completion r 4 (handleVal r)
    return ⟨g, [(4, x)], []⟩
  | .hjoin =>
    let b ← consolidate (rawBatch r)
    let ps ← joinPairs h r b
    let g ← appendBatch h (handleSide r) b
    let x ← endTok r.w (reqFiring r) 4
    let y ← endTok r.w (reqFiring r) 5
    return ⟨g, ps.flatten ++ [(4, x), (5, y)], []⟩
  | .hred =>
    let b ← consolidate (rawBatch r)
    let g ← appendBatch h false b
    let new := if b.isEmpty then [] else interesting g r.set.id.time b
    let y ← completion r 5 (handleVal r)
    if g.free < new.length then .error Code.histFull
    else
      let ts := ((new.map HRec.time).eraseDups).filter fun t => !(h.pend.any fun p => p.time == t)
      return ⟨{ g with pend := g.pend ++ new, owner := ownerWord r, ownerw := r.wafer }, [(5, y)], holdItems r 1 ts⟩
  | .hseek =>
    let ls ← (rawBatch r).mapM fun q => seekToks h r q.key
    let e ← endTok r.w (reqFiring r) 4
    return ⟨h, (ls.flatten ++ [e]).map fun t => (4, t), []⟩
  | .hcomp =>
    let g ← compactAll h fun q => { q with time := compactTime F q.time }
    let x ← completion r 4 (handleVal r)
    return ⟨g, [(4, x)], []⟩
  | .hmrg =>
    let g ← compactAll h id
    let x ← completion r 4 (handleVal r)
    return ⟨g, [(4, x)], []⟩
  | _ =>
    let x ← completion r 4 (statWord h)
    return ⟨h, [(4, x)], []⟩

/-! ## The history unit (R232, R234, R240) -/

/-- Two requests of one set: a replay of the other (R232). -/
def sameOp (a b : PortReq) : Bool := a.wafer == b.wafer && a.sl == b.sl && a.lid == b.lid && a.op == b.op && a.set.id == b.set.id

/-- The operations that a parked batch sets aside (R232). -/
def takesAside (o : Op) : Bool := o == .hnew || o == .happ || o == .hjoin || o == .hred

/-- The operations that accept a batch into slots (R232). -/
def takesBatch (o : Op) : Bool := o == .happ || o == .hjoin || o == .hred

/-- The operations that write no byte of the extent (R241, R244). -/
def readsOnly (o : Op) : Bool := o == .hseek || o == .hstat

/-- The stream of a batch has not reached its END yet (R232). -/
def partBatch (r : PortReq) : Bool := takesBatch r.op && !(r.set.bs.any Token.fin)

/-- The operations set aside for a parked batch return to the head of the unit's arrivals, in their order (R232). -/
def releaseAside (s : State) (core : CoreId) (off : Nat) : State :=
  let l := tgetD s.x.hset (core, off) []
  { s with x := { s.x with
      hpark := tdel s.x.hpark (core, off)
      hset := tdel s.x.hset (core, off)
      hq := tmod s.x.hq core [] fun q => l ++ q } }

/-- The owner parks for the processing of a pending entry of time t, which stops until the record is replayed (R240). An owner on another wafer
is told, parks there with a record of that wafer, and its replay is told here (log 9). -/
def stallOwner (s : State) (core : CoreId) (off : Nat) (o : PortReq) (code : Nat) (t : Time) : State :=
  if o.wafer != s.wafno then
    sendAns { s with x := { s.x with hstop := tset s.x.hstop (core, off) (0, code) } } (.core core) (atPending o t) (ansCode code)
  else
    let (i, s) := reportFault s { recBase (.core core) code 0 0 o.ctx o.sl.core.f o.lid with
      node := nodeWord o.sl code, addr := o.va, time := t, act := .hist core off o.sl }
    let s := { s with x := { s.x with hstop := tset s.x.hstop (core, off) (i, code) } }
    if (reqNode s o).isNone then s
    else holdSets { s with x := { s.x with park := tset s.x.park o.sl (parkedOf s o.sl ++ [⟨(atPending o t).set, code, i⟩]) } } o.sl

/-- FREPLAY of a stopped history's record (R240, R417): the owner goes on, and so does the processing. -/
def resumeHist (s : State) (core : CoreId) (off : Nat) (owner : Slot) (rid : Nat) : State :=
  let s := replaySet s owner rid
  if (tget s.x.hstop (core, off)).map Prod.fst = some rid then { s with x := { s.x with hstop := tdel s.x.hstop (core, off) } } else s

/-- The owner of a history here, on another wafer, has been replayed: the processing goes on (R240). -/
def retryHist (s : State) (lid pa : Nat) : State :=
  match launch? s lid, decodePA s pa with
  | some l, some (.sram core off) => onCopy s l.ctx fun s => { s with x := { s.x with hstop := tdel s.x.hstop (core, off) } }
  | _, _ => s

/-- The replay of an owner is told to the wafer of its history. -/
def tellRetry (s : State) (w pa : Nat) (sl : Slot) (lid : Nat) : State :=
  sendPkt s (.core sl.core) 0 (.seqr (bits pa 45 40)) w 0 (.peer s.wafno lid (.retry pa))

/-- The frontier of a stage of a launch, as the wafer tracker holds it. -/
def stageFront (s : State) (lid q : Nat) : List Time := ((launch? s lid).map fun l => frontier l q).getD []

/-- The consumption of an operation's handle token and B tokens (R234). -/
def eaten (r : PortReq) : CountItem := ⟨r.stage, r.set.id.time, -(1 + (r.set.bs.length : Int))⟩

/-- An operation's own tokens, its first and its last marked. -/
def ownToks (r : PortReq) (l : List (Nat × Token)) : List HTok :=
  l.zipIdx.map fun q => ⟨r, q.1.1, q.1.2, q.2 == 0, q.2 + 1 == l.length⟩

/-- The tokens of corrections on their way to an owner's X. -/
def corrToks (o : PortReq) (x : List Token) : List HTok := x.map fun t => ⟨atPending o t.time, 4, t, false, false⟩

/-- The unit puts an operation in progress (R234). -/
def setBusy (s : State) (core : CoreId) (b : HBusy) : State := { s with x := { s.x with hbusy := tset s.x.hbusy core b } }

/-- Room at its node for a token that the unit has to send (R234). Whether a node of another wafer has room now is not seen here: it is open (log
9). -/
def tokRoom (s : State) (t : HTok) : Bool :=
  if t.req.wafer != s.wafno then (Config.openValue 7 [s.tick, s.serial, t.req.rid, t.port]).getLsbD 0
  else (reqNode s t.req).isNone || roomFor s ⟨t.req.sl.core, t.req.sl.e, t.port⟩ 1

/-- A token leaves the unit: its buffer is kept, its counts are recorded (R234). -/
def sendTok (s : State) (core : CoreId) (t : HTok) : State :=
  let (i, s) := fresh s
  let s := if t.req.wafer == s.wafno && (reqNode s t.req).isSome then reserve s t.req.sl t.port i t.tok.time t.tok.seq else s
  let s := record s core t.req.lid ((if t.port = 4 then t.req.xst else t.req.yst).map fun q => ⟨q, t.tok.time, 1⟩) false
  sendPkt s (.core core) 2 (.core t.req.sl.core) t.req.wafer 32 (.hist t.req t.port i t.tok t.first t.last)

/-- The tokens that find room leave, in order; those that do not stay. -/
def sendToks (core : CoreId) : State → List HTok → State × List HTok
  | s, [] => (s, [])
  | s, t :: l => if tokRoom s t then sendToks core (sendTok s core t) l else (s, t :: l)

/-- The last HRED of a history, as its owner. -/
def ownerOf (s : State) (core : CoreId) (off : Nat) : Option PortReq := tget s.x.hown (core, off)

/-- The owner's flags (R144, R238): at their word on this wafer, or on their way to another. -/
def ownerFlags (s : State) (core : CoreId) (o : PortReq) (fl : BitVec 5) : State :=
  if fl = 0 then s
  else if o.wafer == s.wafno then orWord s o.lid o.sl.core.f fl
  else sendAns s (.core core) (atPending o t00) { ansDone with flags := fl }

/-- An operation that completed makes its node the owner, or leaves the history without one (R226, R235, R237). -/
def setOwner (s : State) (core : CoreId) (b : HBusy) : State :=
  if b.proc || b.code != 0 then s
  else if b.req.op == .hred then { s with x := { s.x with hown := tset s.x.hown (core, b.off) b.req } }
  else if b.req.op == .hnew then { s with x := { s.x with hown := tdel s.x.hown (core, b.off) } }
  else s

/-- An operation ends: the directory and the records change, its counts are recorded, its node or the owner parks for a code (R234, R240). -/
def histEnd (s : State) (core : CoreId) (b : HBusy) : State :=
  let s := { s with x := { s.x with hbusy := tdel s.x.hbusy core } }
  let s := histPut s b.req.ctx b.wr
  let s := record s core b.req.lid b.items (!b.proc && !b.req.set.bs.isEmpty)
  let s := match ownerOf s core b.off with
    | some o => if b.stall = 0 then ownerFlags s core o b.flags else stallOwner (ownerFlags s core o b.flags) core b.off o b.stall b.stallT
    | none => s
  let s := setOwner s core b
  let s := if b.code = 0 then s else sendAns s (.core core) b.req (ansCode b.code)
  noteFiring (if b.aside then releaseAside s core b.off else s) core

/-- The operation in progress goes on: it sends what its nodes have room for, and ends once all is sent. -/
def histGo (s : State) (core : CoreId) : State :=
  match tget s.x.hbusy core with
  | none => s
  | some b =>
    if !ctxRuns s b.req.ctx || unitHolds s (.core core) || isFrozen s core.f b.req.lid then s
    else
      let q := sendToks core s b.out
      let s := if b.req.wafer == s.wafno then progress q.1 b.req.sl.core.f b.req.lid else q.1
      if q.2.isEmpty then histEnd s core b else setBusy s core { b with out := q.2 }

/-- An operation whose batch is accepted, on its history: refused without effect, or begun. F is the frontier read now; HCOMP first processes
every entry that F has passed (R242). -/
def histRun (s : State) (core : CoreId) (op : HOp) (h : Hist) (mine : Bool) : State :=
  let r := op.req
  let F := stageFront s r.lid r.stage
  let own := ownerOf s core op.off
  let d : Done × Nat × Time := match r.op, own with
    | .hcomp, some o => processAll o F h.pend.length ⟨h, [], [], 0⟩
    | _, _ => (⟨h, [], [], 0⟩, 0, t00)
  let stopped : Nat := if r.op == .hcomp && (own.bind fun _ => leastPassed F h.pend).isSome then ((tget s.x.hstop (core, op.off)).map Prod.snd).getD 0 else 0
  let corr := own.toList.flatMap fun o => corrToks o d.1.x
  let base : HBusy := ⟨op.id, r, op.off, corr, if d.1.h = h then [] else d.1.h.bytes, d.1.items, d.1.flags, 0, 0, t00, mine, false⟩
  if stopped != 0 then sendAns s (.core core) r (ansCode stopped)
  else if d.2.1 != 0 then histGo (setBusy s core { base with code := d.2.1, stall := d.2.1, stallT := d.2.2 }) core
  else match histDo d.1.h r own F with
    | .error code =>
      if d.1.h = h && !mine then sendAns s (.core core) r (ansCode code)
      else histGo (setBusy s core { base with wr := d.1.h.bytes, code := code }) core
    | .ok o => histGo (setBusy s core { base with
        out := corr ++ ownToks r o.out
        wr := if readsOnly r.op then [] else o.h.bytes
        items := eaten r :: (d.1.items ++ o.items) }) core

/-- An operation that takes its turn: set aside for a parked batch; parked with the records that found slots; told to read on where its
stream has not ended; or run (R232, R234). -/
def histBegin (s : State) (core : CoreId) (op : HOp) (h : Hist) : State :=
  let r := op.req
  let refuseIt (s : State) (code : Nat) : State := sendAns s (.core core) r (ansCode code)
  let mine := match tget s.x.hpark (core, op.off) with
    | some q => sameOp q r
    | none => false
  let g := if mine then { h with park := [] } else h
  let recs := rawBatch r
  if r.op == .hred && !ownerOk g r then refuseIt s Code.histHandle
  else if takesBatch r.op && g.free < recs.length then
    refuseIt (histPut { s with x := { s.x with hpark := tset s.x.hpark (core, op.off) r } } r.ctx { g with park := recs.take g.free }.bytes) Code.histFull
  else if partBatch r then sendAns (if mine then histPut s r.ctx { g with park := recs }.bytes else s) (.core core) r ansDone
  else histRun s core op g mine

/-- A history whose words cannot be read freezes the region of the launch (R246). -/
def freezeHist (s : State) (core : CoreId) (off count : Nat) (r : PortReq) (t : Time) (seq : BitVec 24) : State :=
  freezeHurt s r.ctx core.f r.lid ⟨.core core, Code.eccUncorr, some r.sl, r.va, t, seq, deadWords s (sramPA s.wafno core off) (2048 * count)⟩

/-- The next operation at a unit takes its turn, where none is in progress (R234): the first whose region in the memory core's field is not
frozen (R246). -/
def histNext (s : State) (core : CoreId) : State :=
  match first? (fun o : HOp => !isFrozen s core.f o.req.lid) (tgetD s.x.hq core []) with
  | none => s
  | some op =>
    let r := op.req
    let pa := sramPA s.wafno core op.off
    let gone (s : State) : State := { s with x := { s.x with hq := tmod s.x.hq core [] fun l => l.filter fun o => o.id != op.id } }
    if (tget s.x.hbusy core).isSome || unitHolds s (.core core) || !ctxRuns s r.ctx then s
    else match homeGuard s r pa with
      | .error code => refuse (gone s) r pa code
      | .ok () => match histCount s r.lid core op.off with
        | none => refuse (gone s) r pa Code.histHandle
        | some count =>
          if takesAside r.op && (tget s.x.hpark (core, op.off)).any (fun q => !sameOp q r) then
            let s := gone s
            { s with x := { s.x with hset := tmod s.x.hset (core, op.off) [] fun l => l ++ [op] } }
          else match histLoad s r.ctx pa count with
            | .error code =>
              if code = Code.eccUncorr then freezeHist s core op.off count r r.set.id.time r.set.id.seq
              else sendAns (gone s) (.core core) r (ansCode code)
            | .ok (s, h) => histBegin (gone s) core op h

/-- A history operation that has arrived joins its unit's queue, in the copy that holds its context (R234, R245). -/
def histArrive (s : State) (pkt : Nat) : State :=
  match reqHere s pkt with
  | none => s
  | some (r, pa, _) =>
    if !isHist r.op then s
    else match decodePA s pa with
      | some (.sram core off) =>
        let s := onCopy s r.ctx fun s =>
          let s := dropPkt s pkt
          { s with x := { s.x with hq := tmod s.x.hq core [] fun l => l ++ [⟨pkt, r, off⟩] } }
        if ctxRuns s r.ctx then histNext s core else s
      | _ => refuse (dropPkt s pkt) r pa Code.prot

/-- HISTORY_OPERATION (R234): an operation that has reached its history unit takes its turn there, or the one in progress goes on. -/
def execHistoryOperation (pkt : Nat) (s : State) : Host.Outcome State Fault Refusal :=
  .next (match first? (fun q : CoreId × HBusy => q.2.id == pkt) s.x.hbusy with
    | some q => histGo s q.1
    | none => match first? (fun q : CoreId × List HOp => q.2.any fun o => o.id == pkt) s.x.hq with
      | some q => histNext s q.1
      | none => histArrive s pkt)

/-- The processing of a history's pending entries begins with the least that the frontier of the owner's stage has passed (R240). -/
def pendNext (s : State) (core : CoreId) (off : Nat) (o : PortReq) : State :=
  let base := sramPA s.wafno core off
  match histCount s o.lid core off with
  | none => s
  | some count =>
    if !ctxRuns s o.ctx || unitHolds s (.core core) || isFrozen s core.f o.lid || (tget s.x.hstop (core, off)).isSome then s
    else match histLoad s o.ctx base count with
      | .error code =>
        if code = Code.eccUncorr then freezeHist s core off count o t00 0
        else if memNat s (base + 16) 4 = 0 then s
        else stallOwner s core off o code t00
      | .ok (s, h) =>
        if h.owner == 0xFFFFFFFF then s
        else match leastPassed (stageFront s o.lid o.stage) h.pend with
          | none => s
          | some p => match processEntry h o p with
            | .error code => stallOwner s core off o code p.time
            | .ok d =>
              let (i, s) := fresh s
              histGo (setBusy s core ⟨i, o, off, corrToks o d.x, d.h.bytes, d.items, d.flags, 0, 0, t00, false, true⟩) core

/-- HISTORY_PENDING_PROCESS (R240): the least pending entry of a history that the frontier of its owner's stage has passed is processed,
between two operations. -/
def execHistoryPendingProcess (core : CoreId) (off : Nat) (s : State) : Host.Outcome State Fault Refusal :=
  .next (match tget s.x.hbusy core with
    | some b => if b.proc && b.off == off then histGo s core else s
    | none => match ownerOf s core off with
      | none => s
      | some o => pendNext s core off o)

/-! ## Records that find no slot before END (R232) -/

/-- The free slots of a history as its directory counts them, the parked batch's own counted free for its operation. -/
def slotsFor (s : State) (base : Nat) (mine : Bool) : Nat := memNat s (base + 12) 4 - (memNat s (base + 8) 4 - (if mine then memNat s (base + 20) 4 else 0))

/-- The record stream that a node reads has outrun the free slots of the history that its handle names. A unit of another wafer is told of every
record as it comes, since its slots are not seen here (log 9). -/
def outruns (s : State) (sl : Slot) (n : Node) (h : HStr) (a : Token) : Bool :=
  match walkTable s n.ctx (a.val.toNat / 2 * 2) with
  | .error _ => false
  | .ok (leaf, b) =>
    match (leafPA s n.ctx (a.val.toNat / 2 * 2) leaf b (false, false)).toOption.bind fun q => decodePA s q.1 with
    | some (.sram core off) =>
      (histCount s n.lid core off).isSome
        && slotsFor s (sramPA s.wafno core off) ((tget s.x.hpark (core, off)).any fun q => q.sl == sl && q.set.id == identOf a)
            < (h.toks.filter fun t => !t.nul).length
    | _ => (farWafer s n.ctx (a.val.toNat / 2 * 2) (false, false)).isSome && h.asked < (h.toks.filter fun t => !t.nul).length

/-- What a node has read of a stream so far goes to the history unit when it outruns the free slots (R232). -/
def askSlots (s : State) (sl : Slot) (h : HStr) : State :=
  match h.handle, node? s sl with
  | some a, some n =>
    if h.sent || a.nul || a.fin || !(parkedOf s sl).isEmpty || 16 ≤ queuedIn s sl.core sl.e || opOf n.word == 0x84 || !outruns s sl n h a then s
    else match enqueue (setHstr s sl { h with sent := true, asked := (h.toks.filter fun t => !t.nul).length }) sl ⟨identOf a, some a, none, none, none, 0, h.toks⟩ with
      | some s => s
      | none => s
  | _, _ => s

/-- The replays of owners on other wafers that have arrived are taken. -/
def letRetries (s : State) : State :=
  s.net.foldl (fun t p => match p.msg with
    | .peer _ lid (.retry pa) => if arrived t p then retryHist (dropPkt t p.id) lid pa else t
    | _ => t) s

/-- Every node that reads a stream asks for the slots that it lacks. -/
def letStreams (s : State) : State := s.x.hstr.foldl (fun s q => askSlots s q.1 q.2) s

end Sys2Proof.Machine
end

