-- ==== Sys2Proof/Machine/Streamer.lean ====
section
/-! DEFINITION. Streamer islands: the nodes, acceptance of commands, chunks, spills, completion, windows and binning (R340 to R372). -/

namespace Sys2Proof.Machine

open Sys2Proof

/-! ## Issue -/

/-- CPY (R348). -/
def execCpy (w : CW) (s : State) : Host.Outcome State Fault Refusal := .next (firePort s .cpy w)

/-- MCPY (R348). -/
def execMcpy (w : CW) (s : State) : Host.Outcome State Fault Refusal := .next (firePort s .mcpy w)

/-- QPOST (R355). -/
def execQpost (w : CW) (s : State) : Host.Outcome State Fault Refusal := .next (firePort s .qpost w)

/-- GBIND (R357). -/
def execGbind (w : CW) (s : State) : Host.Outcome State Fault Refusal := .next (firePort s .gbind w)

/-- GFREE (R360). -/
def execGfree (w : CW) (s : State) : Host.Outcome State Fault Refusal := .next (firePort s .gfree w)

/-- BIN (R361). -/
def execBin (w : CW) (s : State) : Host.Outcome State Fault Refusal := .next (firePort s .bin w)

/-- STWAIT (R354). -/
def execStwait (w : CW) (s : State) : Host.Outcome State Fault Refusal := .next (firePort s .stwait w)

/-! ## Descriptors (R346, R357, R361) -/

/-- Every byte from i to j of a block is zero. -/
def zeros (b : List Byte) (i j : Nat) : Bool := ((b.drop i).take (j + 1 - i)).all fun x => x == 0

/-- A COPY or MCOPY descriptor keeps its layout (R346); fn is a node's FN, none for a packet. -/
def copyOk (b : List Byte) (fn : Option Nat) : Bool :=
  let mc := leAt b 0 1 == 3
  let xf := leAt b 2 1
  let pl := leAt b 3 1
  let rows := leAt b 4 2
  let cols := leAt b 6 2
  let len := leAt b 24 4
  let rect := xf == 1 || xf == 2
  xf < 4 && (match fn with
      | some f => xf == f
      | none => true)
    && (if xf == 3 then 2 ≤ pl % 16 && pl % 16 ≤ 8 && 1 ≤ pl / 16 && pl / 16 ≤ pl % 16 else pl == 0)
    && (if rect then 1 ≤ rows && rows ≤ 256 && 1 ≤ cols && cols ≤ 256 && len == xf * (rows * cols) else rows == 0 && cols == 0)
    && (xf != 3 || len % 512 == 0)
    && leAt b 8 8 % 8 == 0 && leAt b 16 8 % 8 == 0 && len % 8 == 0 && 8 ≤ len && zeros b 28 31
    && leAt b 32 8 % 8 == 0 && (mc || leAt b 48 8 == 0)

/-- A GBIND descriptor keeps its layout (R357); a packet's N may be 0. -/
def gbindOk (b : List Byte) (packet : Bool) : Bool :=
  let es := leAt b 2 1 % 4
  leAt b 2 1 < 8 && zeros b 3 3 && (if packet then true else 1 ≤ leAt b 4 4) && leAt b 4 4 ≤ 2 ^ 24
    && leAt b 8 8 % 2 ^ es == 0 && leAt b 16 8 % 4 == 0 && leAt b 32 8 % 8 == 0 && zeros b 48 55

/-- A BIN descriptor keeps its layout (R361). -/
def binOk (b : List Byte) : Bool :=
  let nc := leAt b 2 1
  1 ≤ nc && nc ≤ 8 && zeros b 3 3 && 1 ≤ leAt b 4 4 && leAt b 4 4 < 2 ^ 24 && leAt b 8 8 % 8 == 0 && leAt b 16 8 % 4 == 0
    && leAt b 24 8 % 8 == 0 && leAt b 32 8 % 8 == 0 && (nc == 1 || leAt b 48 8 % 4 == 0)

/-! ## The island -/

/-- A streamer island. -/
def siGet (s : State) (f n : Nat) : Si := tgetD s.sis (f, n) ⟨[], 0, 0, none⟩

/-- The state with an island replaced. -/
def setSi (s : State) (f n : Nat) (i : Si) : State := { s with sis := tset s.sis (f, n) i }

/-- Starts commands in the order they were accepted while fewer than 16 streams run (R341). -/
def startStreams : Nat → List Stream → List Stream
  | _, [] => []
  | n, x :: l => if x.started then x :: startStreams n l else if n < 16 then { x with started := true } :: startStreams (n + 1) l
    else x :: startStreams n l

/-- Running streams. -/
def runningN (i : Si) : Nat := (i.streams.filter fun x => x.started).length

/-- Accepted commands that have not started. -/
def queued (i : Si) : Nat := (i.streams.filter fun x => !x.started).length

/-- The island accepts one more command. -/
def addStream (s : State) (f n : Nat) (x : Stream) : State :=
  let i := siGet s f n
  let l := i.streams ++ [{ x with id := i.nextId }]
  setSi s f n { i with streams := startStreams (runningN i) l, nextId := i.nextId + 1 }

/-- A stream of an island. -/
def stream? (s : State) (f n id : Nat) : Option Stream := first? (fun x => x.id == id) (siGet s f n).streams

/-- The state with a stream changed. -/
def modStream (s : State) (f n id : Nat) (g : Stream → Stream) : State :=
  let i := siGet s f n
  setSi s f n { i with streams := mapIf (fun x => x.id == id) g i.streams }

/-- A stream ends: its place goes to the next command. -/
def endStream (s : State) (f n id : Nat) : State :=
  let i := siGet s f n
  let l := i.streams.filter fun x => x.id != id
  setSi s f n { i with streams := startStreams ((l.filter fun x => x.started).length) l }

/-- Bytes held in an island's spill buffer (R341, R368). -/
def spillBytes (i : Si) : Nat :=
  (i.streams.map fun x => (x.dsts.map fun d => (d.spill.map fun q => q.2.length).sum).sum).sum

/-- Streams parked on a source page (R341). -/
def parkedStreams (i : Si) : Nat := (i.streams.filter fun x => x.parked.isSome).length

/-- The island's status register (R341). -/
def siStatus (i : Si) : W64 :=
  BitVec.ofNat 64 (spillBytes i * 2 ^ 32 + queued i * 2 ^ 16 + runningN i * 2 ^ 8 + parkedStreams i)

/-! ## Acceptance (R345, R366) -/

/-- The destinations that a mask selects, with their addresses (R348): for an MCOPY the DLIST entries. -/
def readDsts (ctx lid dlist : Nat) (mask : W64) : Nat → State → Except Nat (State × List Dst)
  | 0, s => .ok (s, [])
  | k + 1, s =>
    match readDsts ctx lid dlist mask k s with
    | .error c => .error c
    | .ok (s, l) =>
      if mask.getLsbD k then
        match readAt s ctx lid (dlist + 8 * k) 8 with
        | .error e => .error e.1
        | .ok (s, b) => if leNat b % 8 = 0 then .ok (s, l ++ [⟨k, leNat b, 0, [], none, [], 0⟩]) else .error Code.descFormat
      else .ok (s, l)

/-- The 64 KiB pages of a range. -/
def pagesOf (va len : Nat) : List Nat := (List.range ((va + len + 65535) / 65536 - va / 65536)).map fun i => (va / 65536 + i) * 65536

/-- Translates every page of a range; the first failure's code (R366). -/
def pinRange (s : State) (ctx va len : Nat) (rights : Bool × Bool) : Except Nat (List Pin) :=
  (pagesOf va len).mapM fun p => pinPage s ctx (if p < va then va else p) rights

/-- The source of a copy lies on another wafer (R366). -/
def srcAway (s : State) (ctx va : Nat) : Bool :=
  match translate s ctx va (true, false) with
  | .ok (pa, _) => paWafer pa != s.wafno
  | .error _ => false

/-- Source bytes of a copy of len output bytes (R346, R352). -/
def srcLen (xf w len : Nat) : Nat := if xf = 3 then len / 512 * 64 * w else len

/-- The stream of a copy descriptor, its destinations read and its pages pinned where it is external. -/
def mkCopy (s : State) (req : Option PortReq) (pkt : Option (Nat × Nat × W64)) (ctx lid : Nat) (b : List Byte) (mask : W64) :
    Except Nat (State × Stream) := do
  let mc := leAt b 0 1 == 3
  let xf := leAt b 2 1
  let w := leAt b 3 1 % 16
  let len := leAt b 24 4
  let src := leAt b 8 8
  let stamp := leAt b 32 8
  let (s, dsts) ← if mc then readDsts ctx lid (leAt b 16 8) mask 64 s
    else .ok (s, if mask.getLsbD 0 then [⟨0, leAt b 16 8, 0, [], none, [], 0⟩] else [])
  let ext := req.isNone || srcAway s ctx src
  let pins ← if ext then do
      let p1 ← pinRange s ctx src (srcLen xf w len) (true, false)
      let p2 ← dsts.mapM fun d => pinRange s ctx d.va len (false, true)
      let p3 ← if stamp = 0 then .ok [] else pinRange s ctx stamp 8 (false, true)
      .ok (p1 ++ p2.flatten ++ p3)
    else .ok []
  return (s, ⟨0, req, pkt, ext, ctx, lid, .copy xf w (leAt b 3 1 / 16) (leAt b 4 2) (leAt b 6 2) src len, stamp,
    BitVec.ofNat 64 (leAt b 40 8), dsts, mask, 0, [], [], 0, none, pins, 0, false⟩)

/-- The window that an address names the start of, whether it is bound or not (R356, R357). -/
def windowAt (s : State) (ctx va : Nat) (rights : Bool × Bool) : Except Nat (Nat × Nat) :=
  match walkTable s ctx va with
  | .error _ => .error Code.window
  | .ok (leaf, size) =>
    let pa := bits leaf 51 16 * 2 ^ 16 + va % 2 ^ size
    if (rights.1 && !bit leaf 2) || (rights.2 && !bit leaf 3) then .error Code.prot
    else if 2 ^ 56 ≤ va || paWafer pa != s.wafno || !inAperture pa || bits pa 29 0 != 0 || 96 ≤ bits pa 42 36 then .error Code.window
    else if !inPartition s ((partOfCtx s ctx).getD 48) pa then .error Code.prot
    else .ok (bits pa 42 36, bits pa 35 30)

/-- A window bound by another launch (R357, R360). -/
def boundElsewhere (s : State) (k : Nat × Nat) (lid : Nat) : Bool :=
  match tget s.wins k with
  | some w => w.lid != lid
  | none => false

/-- The stream of a GBIND descriptor (R357). -/
def mkGbind (s : State) (req : Option PortReq) (pkt : Option (Nat × Nat × W64)) (ctx lid : Nat) (b : List Byte) : Except Nat Stream := do
  let sc := bit (leAt b 2 1) 2
  let k ← windowAt s ctx (leAt b 24 8) (!sc, sc)
  if boundElsewhere s k lid then .error Code.window
  else
    let kind : SKind := if leAt b 4 4 = 0 then .unbind (leAt b 24 8)
      else .gbind (leAt b 2 1 % 4) sc (leAt b 4 4) (leAt b 8 8) (leAt b 16 8) (leAt b 24 8)
    return ⟨0, req, pkt, false, ctx, lid, kind, leAt b 32 8, BitVec.ofNat 64 (leAt b 40 8), [], 0, 0, [], [], 0, none, [], 0, false⟩

/-- The stream of a BIN descriptor (R361); its one destination is the class lists. -/
def mkBin (req : Option PortReq) (pkt : Option (Nat × Nat × W64)) (ctx lid : Nat) (b : List Byte) : Stream :=
  ⟨0, req, pkt, true, ctx, lid, .bin (leAt b 2 1) (leAt b 4 4) (leAt b 8 8) (leAt b 16 8) (leAt b 24 8) (leAt b 48 8),
    leAt b 32 8, BitVec.ofNat 64 (leAt b 40 8), [⟨0, leAt b 16 8, 0, [], none, [], 0⟩], 1, 0, [],
    List.replicate (leAt b 2 1) 0, 0, none, [], 0, false⟩

/-- The streamer operators whose A is a descriptor, with the TYPE required (R345). -/
def descType : Op → Nat
  | .cpy => 2
  | .mcpy => 3
  | .gbind => 4
  | _ => 5

/-- GFREE judged at acceptance (R360). -/
def judgeGfree (s : State) (r : PortReq) : Except Nat (State × Stream) :=
  match windowAt s r.ctx r.va (false, false) with
  | .error _ => .error Code.window
  | .ok k =>
    if (tget s.wins k).isNone || boundElsewhere s k r.lid then .error Code.window
    else .ok (s, ⟨0, some r, none, false, r.ctx, r.lid, .gfree r.va, 0, 0, [], 0, 0, [], [], 0, none, [], 0, false⟩)

/-- A node's command judged at acceptance by its descriptor: the stream, or the code with which its node parks (R345, R355, R357, R361). -/
def judgeDesc (s : State) (r : PortReq) (b : List Byte) : Except Nat (State × Stream) :=
  if r.op == .qpost then
    if leAt b 56 8 % 64 != 0 then .error Code.descFormat
    else .ok (s, ⟨0, some r, none, false, r.ctx, r.lid, .qpost r.va (leAt b 56 8) none, 0, 0, [], 0, 0, b, [], 0, none, [], 0, false⟩)
  else if leAt b 0 1 != descType r.op || leAt b 1 1 != 0 then .error Code.descFormat
  else match r.op with
    | .cpy => if copyOk b (some r.w.fn.toNat) then mkCopy s (some r) none r.ctx r.lid b 1 else .error Code.descFormat
    | .mcpy => if copyOk b (some r.w.fn.toNat) then mkCopy s (some r) none r.ctx r.lid b r.val else .error Code.descFormat
    | .gbind => if gbindOk b false then (mkGbind s (some r) none r.ctx r.lid b).map fun x => (s, x) else .error Code.descFormat
    | _ => if binOk b then .ok (s, mkBin (some r) none r.ctx r.lid b) else .error Code.descFormat

/-- The other wafers on which the DLIST entries lie that a mask selects (R345, R348). -/
def dlistFar (s : State) (ctx : Nat) (b : List Byte) (mask : W64) : List Nat :=
  if leAt b 0 1 != 3 then []
  else (((List.range 64).filter mask.getLsbD).filterMap fun i => farWafer s ctx (leAt b 16 8 + 8 * i) (true, false)).eraseDups

/-- The tags of an island's reads at acceptance on other wafers: the descriptor or the route table, and next the DLIST. -/
def acceptTag : Nat := 2 ^ 32

/-- The oldest command that has arrived at an island (R341). -/
def arrivedCmd (s : State) (want : PortReq → Bool) : Option (Packet × PortReq) :=
  s.net.findSome? fun p => match p.msg with
    | .req r _ _ => if want r && arrived s p then some (p, r) else none
    | _ => none

/-- A command's end at acceptance: it joins the island's streams, or its node parks for the code; a code of R126 that the descriptor's own read
meets, and DECODE_LENGTH wherever it is met, goes as every fault of a node goes (R126, R345). -/
def acceptEnd (s : State) (f n pkt : Nat) (r : PortReq) (own : Bool) (q : Except Nat (State × Stream)) : State :=
  match q with
  | .error c =>
    sendPkt (dropPkt s pkt) (.si f n) 2 (.core r.sl.core) s.wafno 0
      (.ans r { ansCode c with again := !(catchable c && (own || c == Code.decodeLength)) })
  | .ok (s, x) => addStream (dropPkt s pkt) f n x

/-- A command is judged by its descriptor, once what its DLIST entries say has come from other wafers. -/
def acceptDesc (s : State) (f n pkt : Nat) (r : PortReq) (b : List Byte) : State :=
  let far := if r.op == .mcpy then dlistFar s r.ctx b r.val else []
  let i := siGet s f n
  farAll (setSi s f n { i with desc := some (r.rid, b) }) (.si f n) (acceptTag + 1) r.lid far fun s =>
    let s := setSi s f n { siGet s f n with desc := none }
    acceptEnd s f n pkt r false (judgeDesc s r b)

/-- STREAM_ACCEPT (R345): the island accepts its oldest waiting command while it has room: its descriptor is read, then its DLIST, and a command
refused parks its node. Reads on another wafer are sent, timed, and end in a later step (R21, R336). -/
def execStreamAccept (f n : Nat) (s : State) : Host.Outcome State Fault Refusal :=
  .next (match arrivedCmd s fun r => isStreamer r.op && siOf r.sl.core == .si f n with
    | none => s
    | some (p, r) =>
      if 64 ≤ queued (siGet s f n) || awayFor s r.ctx r.va (true, false) then s
      else onCopy s r.ctx fun s =>
        if r.op == .gfree then acceptEnd s f n p.id r false (judgeGfree s r)
        else match (siGet s f n).desc with
          | some (k, b) => if k = r.rid then acceptDesc s f n p.id r b else readDesc s f n p.id r
          | none => readDesc s f n p.id r)
where
  /-- The descriptor is read. -/
  readDesc (s : State) (f n pkt : Nat) (r : PortReq) : State :=
    farAccess s (.si f n) acceptTag r.lid (if paWafer r.pa == s.wafno then none else some (paWafer r.pa)) fun s =>
      match pieceRead s r.ctx r.lid r.pa 64 r.cpg with
      | .error c => acceptEnd s f n pkt r true (.error c)
      | .ok (s, b) => acceptDesc s f n pkt r b

/-! ## Sending to destinations (R349, R350, R368) -/

/-- Source bytes, or rows for BIN, that a stream has still to read; 1 for a QPOST that has still to claim its index. -/
def leftOf (x : Stream) : Nat :=
  match x.kind with
  | .copy _ _ _ _ _ _ len => len - x.off
  | .bin _ nrows .. => nrows - x.off
  | .qpost _ _ c => if c.isNone && x.err = 0 then 1 else 0
  | _ => 0

/-- The mask of destinations whose every byte has been acknowledged (R348). -/
def delivered (x : Stream) : W64 :=
  BitVec.ofNat 64 ((x.dsts.filter fun d => d.code = 0 && leftOf x = 0 && d.out = 0 && d.spillR.isNone && d.held.isEmpty).map fun d => 2 ^ d.i).sum

/-- A stream with destination i changed. -/
def Stream.modDst (i : Nat) (g : Dst → Dst) (x : Stream) : Stream := { x with dsts := mapIf (fun e => e.i == i) g x.dsts }

/-- A destination fails: its code, its record with the mask delivered so far, its catch token of value va, FAIL on its panes; nothing more is
sent to it (R257, R350, R365). -/
def failDst (s : State) (f n : Nat) (x : Stream) (i code va : Nat) : State :=
  match (stream? s f n x.id).bind fun y => first? (fun d : Dst => d.i == i) y.dsts with
  | none => s
  | some d =>
    if d.code != 0 then s
    else
      let len := match x.kind with
        | .copy _ _ _ _ _ _ len => len
        | _ => 0
      let s := modStream s f n x.id fun y => { y.modDst i (fun e => { e with code := code, spill := [], spillR := none, held := [] }) with
        err := if y.err = 0 then code else y.err }
      let s := engineFault s (.si f n) x.req x.ctx f code d.va va (delivered ((stream? s f n x.id).getD x)).toNat
      if len = 0 then s else failPanes s x.ctx x.lid d.va len

/-- Every destination fails; its token's value is the address va, where one is given, else its own address. -/
def failAll (s : State) (f n : Nat) (x : Stream) (code : Nat) (va : Option Nat) : State :=
  x.dsts.foldl (fun s d => failDst s f n x d.i code (va.getD d.va)) s

/-- The record of a stream's page fault, on its source or at a destination, with the identity of its node's set (R367, R368, R401). -/
def pageRecord (s : State) (f n : Nat) (x : Stream) (va aux : Nat) (act : RecAct) : Nat × State :=
  reportFault s { recBase (.si f n) Code.xlat 0 4 x.ctx ((x.req.map fun r => r.sl.core.f).getD f) x.lid with
    node := match x.req with
      | some r => nodeWord r.sl Code.xlat
      | none => 0
    time := (x.req.map fun r => r.set.id.time).getD t00
    seq := (x.req.map fun r => r.set.id.seq).getD 0
    addr := va
    aux := BitVec.ofNat 64 aux
    act := act }

/-- A destination's page does not translate: a record is written and its bytes are diverted (R368). -/
def divert (s : State) (f n : Nat) (x : Stream) (d : Dst) (va : Nat) : State :=
  let q := pageRecord s f n x va (delivered x).toNat (.spill f n x.id d.i)
  modStream q.2 f n x.id (Stream.modDst d.i fun e => { e with spillR := some q.1 })

/-- The bytes that an island's spill buffer holds at most (R368). -/
def spillMax : Nat := 262144

/-- An arrival leaves the island for its home; toward another wafer it is timed (R336). -/
def sendArrival (s : State) (f n : Nat) (x : Stream) (i : Nat) (a : Nat × List Byte) (pa : Nat) (cmp : Bool) : State :=
  let src : ArrSrc := ⟨s.wafno, false, f, n, x.id, i⟩
  let (k, s) := fresh s
  let s := { s with net := s.net ++ [newPkt s k (.si f n) 3 (paUnit pa) (paWafer pa) a.2.length (.arrival src x.ctx x.lid a.1 pa cmp a.2)] }
  let s := if paWafer pa == s.wafno then s
    else { s with remotes := s.remotes ++ [⟨k, .si f n, paWafer pa, .arrival src x.ctx x.lid a.1, ctr s (.si f n)⟩] }
  modStream s f n x.id fun y => { y.modDst i (fun e => { e with out := e.out + 1 }) with out := y.out + 1 }

/-- Sends arrivals to one destination in order (R341), diverting them from the first page that does not translate as far as the spill buffer
has room (R368); what finds none, and what is for the memory of a saved-out context (R267), waits at the island. -/
def sendTo (f n id i : Nat) : State → List (Nat × List Byte) → State
  | s, [] => s
  | s, a :: l =>
    match stream? s f n id with
    | none => s
    | some x =>
      match first? (fun d : Dst => d.i == i) x.dsts with
      | none => s
      | some d =>
        let spill (s : State) : State :=
          if spillBytes (siGet s f n) + a.2.length ≤ spillMax then
            sendTo f n id i (modStream s f n id (Stream.modDst i fun e => { e with spill := e.spill ++ [a] })) l
          else modStream s f n id (Stream.modDst i fun e => { e with held := a :: l })
        if d.code != 0 then s
        else if d.spillR.isSome then spill s
        else match translate s x.ctx a.1 (false, true) with
          | .error c => if c = Code.xlat && !x.ext then spill (divert s f n x d a.1) else failDst s f n x i c d.va
          | .ok (pa, cmp) =>
            if paWafer pa != s.wafno && (deadFor s (.si f n)).getLsbD (paWafer pa) then failDst s f n x i Code.peerDead d.va
            else if awayFor s x.ctx a.1 (false, true) then modStream s f n id (Stream.modDst i fun e => { e with held := a :: l })
            else sendTo f n id i (sendArrival s f n x i a pa cmp) l

/-- Sends output bytes, which begin at an output offset, to every destination that has not failed. -/
def sendOut (s : State) (f n : Nat) (x : Stream) (off : Nat) (bs : List Byte) : State :=
  x.dsts.foldl (fun s d => sendTo f n x.id d.i s (chop (bs.length + 1) (d.va + off) bs)) s

/-! ## Chunks (R341, R351, R352, R361) -/

/-- The transpose of a matrix of s-byte elements stored row by row (R351). -/
def transpose (sz rows cols : Nat) (b : List Byte) : List Byte :=
  (List.range cols).flatMap fun c => (List.range rows).flatMap fun r => (b.drop ((r * cols + c) * sz)).take sz

/-- Element i of a bit-plane group from its first k planes, as a byte (R138, R352). -/
def bpElem (k : Nat) (planes : List Byte) (i : Nat) : Byte :=
  let v := (List.range k).foldl (fun acc j => acc * 2 + (((planes[64 * j + i / 8]?).getD 0).toNat / 2 ^ (i % 8)) % 2) 0
  BitVec.ofInt 8 (sint k v)

/-- The 512 bytes of a bit-plane group (R352). -/
def bpGroup (k : Nat) (planes : List Byte) : List Byte := (List.range 512).map (bpElem k planes)

/-- A source read that failed (R350, R367): an internal copy parks at its resume offset on a page fault, any other failure fails every
destination. -/
def srcFailed (s : State) (f n : Nat) (x : Stream) (code va resume : Nat) : State :=
  if code = Code.xlat && !x.ext then
    let q := pageRecord s f n x va resume (.stream f n x.id)
    modStream q.2 f n x.id fun y => { y with parked := some q.1 }
  else failAll s f n x code (if code = Code.decodeLength then some (va / 2048 * 2048) else none)

/-- Bytes read up to the first that cannot be: what was read, and the failure's code and address. -/
def readUpTo (s : State) (ctx lid va n : Nat) : State × List Byte × Option (Nat × Nat) :=
  match readAt s ctx lid va n with
  | .ok (s, b) => (s, b, none)
  | .error e => match readAt s ctx lid va (e.2 - va) with
    | .ok (s, b) => (s, b, some e)
    | .error e => (s, [], some e)

/-- Bit-plane groups read and expanded one by one: the output, the bytes of a group that was read in part, and its failure. pre are the bytes
of group g that were read before. -/
def bpRead (ctx lid src w k : Nat) : Nat → State → Nat → List Byte → State × List Byte × List Byte × Option (Nat × Nat)
  | 0, s, _, pre => (s, [], pre, none)
  | m + 1, s, g, pre =>
    match readUpTo s ctx lid (src + 64 * w * g + pre.length) (64 * k - pre.length) with
    | (s, b, some e) => (s, [], pre ++ b, some e)
    | (s, b, none) =>
      let r := bpRead ctx lid src w k m s (g + 1) []
      (r.1, bpGroup k (pre ++ b) ++ r.2.1, r.2.2)

/-- The stream parks or fails where a read of its source failed. -/
def afterRead (s : State) (f n : Nat) (x : Stream) (src : Nat) (e : Option (Nat × Nat)) : State :=
  match e with
  | none => s
  | some e => srcFailed s f n x e.1 e.2 (e.2 - src)

/-- The bytes of a plain copy's next chunk: 2 KiB, on a CMP page up to the end of its unit, so that a chunk takes whole units (R341, R367). -/
def chunkLen (s : State) (x : Stream) (src len : Nat) : Nat :=
  let unit := match translate s x.ctx (src + x.off) (true, false) with
    | .ok (_, true) => 2048 - (src + x.off) % 2048
    | _ => 2048
  min unit (len - x.off)

/-- One chunk of a copy (R341, R346, R351, R352): what was read is sent, or kept for the transpose, and a failed read parks or fails the
stream behind it. -/
def copyChunk (s : State) (f n : Nat) (x : Stream) (xf w k rows cols src len : Nat) : State :=
  if xf = 3 then
    let m := min 2048 (len - x.off)
    let r := bpRead x.ctx x.lid src w k (m / 512) s (x.off / 512) x.buf
    let s := sendOut (modStream r.1 f n x.id fun y => { y with off := y.off + r.2.1.length, buf := r.2.2.1 }) f n x x.off r.2.1
    afterRead s f n x src r.2.2.2
  else
    let r := readUpTo s x.ctx x.lid (src + x.off) (chunkLen s x src len)
    if xf = 0 then
      afterRead (sendOut (modStream r.1 f n x.id fun y => { y with off := y.off + r.2.1.length }) f n x x.off r.2.1) f n x src r.2.2
    else
      let all := x.buf ++ r.2.1
      let s := modStream r.1 f n x.id fun y => { y with off := y.off + r.2.1.length, buf := if all.length = len then [] else all }
      afterRead (if all.length = len then sendOut s f n x 0 (transpose xf rows cols all) else s) f n x src r.2.2

/-- The class of a row length (R361): the least class whose bound is not below it. -/
def binClass (len : Nat) : List Nat → Nat → Nat
  | [], c => c
  | b :: l, c => if len ≤ b then c else binClass len l (c + 1)

/-- The class-list entries of a run of rows, from their lengths (R361). -/
def binRows (nrows out : Nat) (bnds : List Nat) : List Nat → Nat → List Nat → List (Nat × List Byte) × List Nat
  | [], _, cnts => ([], cnts)
  | len :: l, i, cnts =>
    let c := binClass len bnds 0
    let r := binRows nrows out bnds l (i + 1) (setAt cnts c ((cnts[c]?).getD 0 + 1))
    ((out + 4 * (nrows * c + (cnts[c]?).getD 0), leBytes 4 i) :: r.1, r.2)

/-- One chunk of BIN: 256 rows. The bounds and the last row pointer of the chunk before stand in the stream's buffer, so that every word is
read once (R372). -/
def binChunk (s : State) (f n : Nat) (x : Stream) (ncls nrows rp out bnda : Nat) : State :=
  let m := min 256 (nrows - x.off)
  let nb := 4 * (ncls - 1)
  match (if x.off != 0 || ncls = 1 then .ok (s, x.buf.take nb) else readAt s x.ctx x.lid bnda nb) with
  | .error e => failAll s f n x e.1 (some e.2)
  | .ok (s, bb) =>
    match (if x.off = 0 then readAt s x.ctx x.lid rp (8 * (m + 1))
        else (readAt s x.ctx x.lid (rp + 8 * (x.off + 1)) (8 * m)).map fun q => (q.1, x.buf.drop nb ++ q.2)) with
    | .error e => failAll s f n x e.1 (some e.2)
    | .ok (s, b) =>
      let lens := (List.range m).map fun i => (leAt b (8 * (i + 1)) 8 + 2 ^ 64 - leAt b (8 * i) 8) % 2 ^ 64
      let r := binRows nrows out ((List.range (ncls - 1)).map fun i => leAt bb (4 * i) 4) lens x.off x.cnts
      sendTo f n x.id 0 (modStream s f n x.id fun y => { y with off := y.off + m, cnts := r.2, buf := bb ++ b.drop (8 * m) }) r.1

/-- A claim is an atomic of a descriptor: not of scratchpad or of a window (R73, R192, R358). -/
def claimCode (pa : Nat) : Option Nat :=
  if paKind pa == 1 then some Code.atomicTarget else if inAperture pa then some Code.window else none

/-- QPOST claims its index (R73, R355). -/
def qpostClaim (s : State) (f n : Nat) (x : Stream) (desc : Nat) : State :=
  match translate s x.ctx (desc + 16) (true, true) with
  | .error c => modStream s f n x.id fun y => { y with err := c }
  | .ok (pa, cmp) =>
    match (match claimCode pa with
      | some c => Except.error c
      | none => pieceRead s x.ctx x.lid pa 8 cmp) with
    | .error c => modStream s f n x.id fun y => { y with err := c }
    | .ok (s, b) =>
      match pieceWrite s x.ctx x.lid pa (leBytes 8 (leNat b + 1)) cmp with
      | .error c => modStream s f n x.id fun y => { y with err := c }
      | .ok s => modStream s f n x.id fun y => { y with kind := match y.kind with
          | .qpost a d _ => .qpost a d (some (BitVec.ofNat 64 (leNat b)))
          | k => k }

/-- Every destination of a stream has failed. -/
def allFailed (x : Stream) : Bool := x.dsts.all fun d => d.code != 0

/-- A stream may read another chunk: it runs, is not parked, has bytes left for a live destination, and the spill buffer has room. -/
def chunkReady (i : Si) (x : Stream) : Bool :=
  x.started && x.parked.isNone && leftOf x != 0 && (match x.kind with
      | .copy .. => x.mask != 0 && !allFailed x
      | .bin .. => !allFailed x
      | _ => true)
    && (x.dsts.all fun d => d.held.isEmpty) && (!(x.dsts.any fun d => d.spillR.isSome) || spillBytes i < spillMax)

/-- The address the next chunk reads first. -/
def nextSrc (x : Stream) : Nat :=
  match x.kind with
  | .copy xf w _ _ _ src _ => if xf = 3 then src + x.off / 512 * 64 * w else src + x.off
  | .bin _ _ rp .. => rp + 8 * x.off
  | .qpost _ d _ => d
  | _ => 0

/-- It is the stream's turn among those that are ready (R341). -/
def itsTurn (i : Si) (id : Nat) : Bool :=
  let ready := (i.streams.filter (chunkReady i)).map Stream.id
  match first? (fun k => i.turn < k) ready with
  | some k => k == id
  | none => ready.head? == some id

/-- The state after a chunk of a stream. -/
def chunkOf (s : State) (f n : Nat) (x : Stream) : State :=
  match x.kind with
  | .copy xf w k rows cols src len => copyChunk s f n x xf w k rows cols src len
  | .bin ncls nrows rp out _ bnda => binChunk s f n x ncls nrows rp out bnda
  | .qpost _ desc _ => qpostClaim s f n x desc
  | _ => s

/-- The home from which a stream reads its next chunk, as BULK traffic of that home (R308, R312); the island itself where it is on another wafer
or cannot be read. -/
def srcHome (s : State) (x : Stream) : UnitId :=
  match translate s x.ctx (nextSrc x) (true, false) with
  | .ok (pa, _) => if paWafer pa == s.wafno then homeUnit s pa else .link
  | .error _ => .link

/-- What waits at the island for a stream's destinations is sent as far as it can be. -/
def flushHeld (s : State) (f n : Nat) (x : Stream) : State :=
  x.dsts.foldl (fun s d => if d.held.isEmpty then s
    else sendTo f n x.id d.i (modStream s f n x.id (Stream.modDst d.i fun e => { e with held := [] })) d.held) s

/-- STREAM_CHUNK (R341): the stream whose turn it is reads, transforms and sends one chunk; what waits for its destinations goes first. -/
def execStreamChunk (f n id : Nat) (s : State) : Host.Outcome State Fault Refusal :=
  .next (match stream? s f n id with
    | none => s
    | some x =>
      let i := siGet s f n
      if x.dsts.any fun d => !d.held.isEmpty then (if unitHolds s (.si f n) || catchStalled s x then s else onCopy s x.ctx fun s => flushHeld s f n x)
      else if chunkReady i x && itsTurn i id && !unitHolds s (.si f n) && !awayFor s x.ctx (nextSrc x) (true, false) && !(catchStalled s x)
          && underBudget s (srcHome s x) 3 then
        farAccess s (.si f n) id x.lid (farWafer s x.ctx (nextSrc x) (true, false)) fun s =>
          setTurn (onCopy (spend s (srcHome s x) 3 (beatsOf 2048)) x.ctx fun s => chunkOf s f n x) f n id
      else s)
where
  /-- The launch's catch queue is full, so that a failure could not be told (R129). -/
  catchStalled (s : State) (x : Stream) : Bool := engineWaits s x.req Code.paneState
  /-- Notes whose chunk was last. -/
  setTurn (s : State) (f n id : Nat) : State := setSi s f n { siGet s f n with turn := id }

/-! ## Completion (R348, R353) -/

/-- Requests and arrivals for a window are still in flight (R357, R360). -/
def windowBusy (s : State) (k : Nat × Nat) : Bool :=
  let inWin (pa : Nat) : Bool := paWafer pa == s.wafno && inAperture pa && (bits pa 42 36, bits pa 35 30) == k
  s.net.any (fun p => match p.msg with
    | .req r pa _ => !isStreamer r.op && inWin pa
    | .ans r _ => !isStreamer r.op && inWin r.pa
    | .arrival _ _ _ _ pa _ _ => inWin pa
    | _ => false)
  || s.x.waitl.any (fun w => w.2.any fun e => inWin e.pa)

/-- An accepted packet of a queue completes (R77); one of an unbound queue goes with its last packet (R98). -/
def pktDone (s : State) (q : Option (Nat × Nat)) (idx : W64) : State :=
  match q with
  | none => s
  | some k => match tget s.queues k with
    | some z =>
      let l := z.pkts.filter fun p => p.idx != idx
      { s with queues := if 16 ≤ k.2 && l.isEmpty then tdel s.queues k else tset s.queues k { z with pkts := l } }
    | none => s

/-- The end of a stream: its node's Y (R344), or the completion of its packet. -/
def finishStream (s : State) (f n : Nat) (x : Stream) (val key : Nat) : State :=
  let s := endStream s f n x.id
  match x.req, x.pkt with
  | some r, _ => sendPkt s (.si f n) 2 (.core r.sl.core) s.wafno 0
      (.ans r ⟨0, false, 0, none, some (BitVec.ofNat 64 val), some (BitVec.ofNat 32 key), 0⟩)
  | none, some (pf, q, i) => pktDone s (some (pf, q)) i
  | none, none => s

/-- The failure of an engine's last write told (R353), with the mask delivered. -/
def lastFault (s : State) (f n : Nat) (x : Stream) (code va : Nat) : State :=
  engineFault s (.si f n) x.req x.ctx f code va va (delivered x).toNat

/-- An address lies in scratchpad, where no stamp can stand (R353). -/
def inSpad (s : State) (ctx va : Nat) : Bool :=
  match translate s ctx va (false, true) with
  | .ok (pa, _) => paKind pa == 1
  | .error _ => false

/-- Writes a stream's stamp (R353): the code of its failure, 0 when it is written or there is none. -/
def writeStamp (s : State) (f n : Nat) (x : Stream) : State × Nat :=
  if x.stamp = 0 then (s, 0)
  else
    let r := if inSpad s x.ctx x.stamp then (s, Code.prot) else engineAt s x.ctx x.lid x.stamp (leBytes 8 x.sval.toNat)
    if r.2 = 0 then r else (lastFault r.1 f n x r.2 x.stamp, r.2)

/-- Counts written one after the other, up to the first refusal: its code, 0 for none (R361). -/
def writeCounts (ctx lid : Nat) : State → Nat → List Nat → State × Nat
  | s, _, [] => (s, 0)
  | s, va, c :: l =>
    let r := engineAt s ctx lid va (leBytes 8 c)
    if r.2 = 0 then writeCounts ctx lid r.1 (va + 8) l else r

/-- BIN's end (R361): the counts, then the stamp. -/
def finishBin (s : State) (f n : Nat) (x : Stream) (nrows cnta : Nat) : State :=
  if x.err != 0 then finishStream s f n x nrows x.err
  else
    let c := writeCounts x.ctx x.lid s cnta x.cnts
    if c.2 = 0 then (let r := writeStamp c.1 f n x; finishStream r.1 f n x nrows r.2)
    else finishStream (lastFault c.1 f n x c.2 cnta) f n x nrows c.2

/-- QPOST's end (R73, R91, R355): once the ring has room, the body and last the lap stamp are written. -/
def finishQpost (s : State) (f n : Nat) (x : Stream) (desc : Nat) (j : W64) : State :=
  let fail (s : State) (c : Nat) : State := finishStream (lastFault s f n x c desc) f n x j.toNat c
  match readAt s x.ctx x.lid desc 64 with
  | .error e => fail s e.1
  | .ok (s, d) =>
    let slots := leAt d 8 4 / 64
    if slots = 0 || slots ≤ (j.toNat + 2 ^ 64 - leAt d 24 8) % 2 ^ 64 then s
    else
      let slot := leAt d 0 8 + 64 * (j.toNat % slots)
      let b := engineAt s x.ctx x.lid slot (x.buf.take 56)
      if b.2 != 0 then fail b.1 b.2
      else
        let e := engineAt b.1 x.ctx x.lid (slot + 56) (leBytes 8 (j.toNat / slots + 1))
        if e.2 != 0 then fail e.1 e.2 else finishStream e.1 f n x j.toNat 0

/-- A bind, a rebind or an unbinding takes effect once the window is idle (R357, R360). -/
def bindWindow (s : State) (f n : Nat) (x : Stream) (va : Nat) (w : Option Win) : State :=
  match windowAt s x.ctx va (false, false) with
  | .error c => finishStream (lastFault s f n x c va) f n x va c
  | .ok k =>
    if windowBusy s k then s
    else
      let s := { s with wins := match w with
        | some w => tset s.wins k w
        | none => tdel s.wins k }
      let r := writeStamp s f n x
      finishStream r.1 f n x va r.2

/-- The work of a stream is done, so that it may complete: nothing left to read, nothing sent and not answered, nothing spilled. -/
def streamDone (x : Stream) : Bool :=
  x.started && x.parked.isNone && x.out = 0 && (x.dsts.all fun d => d.spillR.isNone && d.held.isEmpty) && (match x.kind with
    | .copy .. => leftOf x = 0 || x.mask = 0 || allFailed x
    | .bin .. => leftOf x = 0 || allFailed x
    | .qpost _ _ c => c.isSome || x.err != 0
    | _ => true)

/-- The address that a stream writes or reads last, where it may lie on another wafer. -/
def lastVa (x : Stream) : Nat :=
  match x.kind with
  | .bin _ _ _ _ cnta _ => cnta
  | .qpost _ desc _ => desc
  | _ => x.stamp

/-- The last write of a stream may hoist a pane whose core holds a record (R403). -/
def lastHolds (s : State) (x : Stream) : Bool :=
  match translate s x.ctx (lastVa x) (false, true) with
  | .ok (pa, _) => lastVa x != 0 && paWafer pa == s.wafno && paneHolds s pa 8
  | .error _ => false

/-- STREAM_COMPLETE (R348): every byte acknowledged or refused, the stream writes its stamp and its node's Y is sent. -/
def execStreamComplete (f n id : Nat) (s : State) : Host.Outcome State Fault Refusal :=
  .next (match stream? s f n id with
    | none => s
    | some x =>
      if !streamDone x || unitHolds s (.si f n) || lastHolds s x || awayFor s x.ctx x.stamp (false, true) || awayFor s x.ctx (lastVa x) (false, true) then s
      else farAccess s (.si f n) id x.lid (if lastVa x = 0 then none else farWafer s x.ctx (lastVa x) (false, true)) fun s => onCopy s x.ctx fun s =>
        match x.kind with
        | .copy .. =>
          let d := delivered x
          let r := if d = x.mask then writeStamp s f n x else (s, 0)
          finishStream r.1 f n x d.toNat (if x.err = 0 then r.2 else x.err)
        | .gbind es sc m base idx win => bindWindow s f n x win (some ⟨es, sc, m, base, idx, x.ctx, x.lid⟩)
        | .unbind win => bindWindow s f n x win none
        | .gfree win => bindWindow s f n x win none
        | .bin _ nrows _ _ cnta _ => finishBin s f n x nrows cnta
        | .qpost _ desc c => match c with
          | some j => finishQpost s f n x desc j
          | none => finishStream (lastFault s f n x x.err desc) f n x 0 x.err)

/-- The acknowledgement or refusal of an arrival reaches its stream (R348, R350); the token for a refusing pane carries its address (R257). -/
def streamAck (s : State) (src : ArrSrc) (code va : Nat) : State :=
  match stream? s src.f src.n src.id with
  | none => s
  | some x =>
    let s := modStream s src.f src.n src.id fun y => { y.modDst src.dst (fun e => { e with out := e.out - 1 }) with out := y.out - 1 }
    let own := ((first? (fun d : Dst => d.i == src.dst) x.dsts).map Dst.va).getD 0
    if code = 0 then s else failDst s src.f src.n x src.dst code (if code = Code.paneState then va / 2048 * 2048 else own)

/-! ## Replay of a stream's records (R367, R368, R417) -/

/-- A parked stream reads on at its resume offset. -/
def resumeStream (s : State) (f n id : Nat) : State := modStream s f n id fun y => { y with parked := none }

/-- A spilled destination is written from the buffer in order and then directly. -/
def replaySpill (s : State) (f n id i : Nat) : State :=
  match stream? s f n id with
  | none => s
  | some x => match first? (fun d : Dst => d.i == i) x.dsts with
    | none => s
    | some d =>
      sendTo f n id i (modStream s f n id (Stream.modDst i fun e => { e with spill := [], spillR := none, held := [] })) (d.spill ++ d.held)

/-- FABORT of a parked stream's record: every destination fails with XLAT. -/
def abortStream (s : State) (f n id : Nat) : State :=
  match stream? s f n id with
  | none => s
  | some x => failAll (resumeStream s f n id) f n x Code.xlat none

/-- FABORT of a spill record: the destination fails and its buffered bytes are discarded. -/
def abortSpill (s : State) (f n id i : Nat) : State :=
  match stream? s f n id with
  | none => s
  | some x => failDst s f n x i Code.xlat (((first? (fun d : Dst => d.i == i) x.dsts).map Dst.va).getD 0)

/-- The watchdog cuts off the unit that a stream reads next: what the decoder emitted of it is delivered by a plain copy, and every destination
fails with the unit's address (R365). -/
def cutStream (s : State) (f n : Nat) (x : Stream) (emitted : Nat) : State :=
  let va := nextSrc x
  let unit := va / 2048 * 2048
  let fail (s : State) : State := failAll s f n ((stream? s f n x.id).getD x) Code.decodeLength (some unit)
  match x.kind with
  | .copy 0 _ _ _ _ _ len =>
    let r := readUpTo s x.ctx x.lid va (min (min emitted 2047 - va % 2048) (len - x.off))
    match r.2.2 with
    | some e => srcFailed s f n x e.1 e.2 x.off
    | none => fail (sendOut (modStream r.1 f n x.id fun y => { y with off := y.off + r.2.1.length }) f n x x.off r.2.1)
  | _ => fail s

/-- The watchdog cuts off the unit that a request or an arrival decodes at its home: it is refused (R364, R365). -/
def cutHome (s : State) (pkt : Nat) : State :=
  match pkt? s pkt with
  | none => s
  | some p => match p.msg with
    | .req r pa true =>
      if arrived s p && (isPlain r.op || isAtomic r.op || r.op == .stwait) then refuse (dropPkt s pkt) r pa Code.decodeLength else s
    | .arrival src ctx lid va pa true bs =>
      if arrived s p && !outrun s p src && bs.length < 2048 then ackArrival (dropPkt s pkt) src ctx lid pa va p.num Code.decodeLength else s
    | _ => s

/-- DECODE_LENGTH (R365): the watchdog of a decoder cuts a unit off: in an island, for a stream that reads a CMP page, or in an interface
core. -/
def execDecodeLength (site : DecodeSite) (emitted : Nat) (s : State) : Host.Outcome State Fault Refusal :=
  .next (match site with
    | .stream f n id =>
      match stream? s f n id with
      | none => s
      | some x =>
        match translate s x.ctx (nextSrc x) (true, false) with
        | .ok (_, true) =>
          if !chunkReady (siGet s f n) x || unitHolds s (.si f n) || engineWaits s x.req Code.decodeLength then s
          else onCopy s x.ctx fun s => cutStream s f n x emitted
        | _ => s
    | .load pkt => cutHome s pkt)

end Sys2Proof.Machine
end

