-- ==== Sys2Proof/Machine/Matrix.lean ====
section
/-! DEFINITION. Matrix islands: the seven instructions, acceptance, the control queue, row passes, loads and drains (R376 to R396). -/

namespace Sys2Proof.Machine

open Sys2Proof

/-! ## Issue -/

/-- MLOAD (R387). -/
def execMload (w : CW) (s : State) : Host.Outcome State Fault Refusal := .next (firePort s .mload w)

/-- MSWAP (R388). -/
def execMswap (w : CW) (s : State) : Host.Outcome State Fault Refusal := .next (firePort s .mswap w)

/-- MSTRM (R389). -/
def execMstrm (w : CW) (s : State) : Host.Outcome State Fault Refusal := .next (firePort s .mstrm w)

/-- MDRAIN (R391). -/
def execMdrain (w : CW) (s : State) : Host.Outcome State Fault Refusal := .next (firePort s .mdrain w)

/-- MCLR (R390). -/
def execMclr (w : CW) (s : State) : Host.Outcome State Fault Refusal := .next (firePort s .mclr w)

/-- MMASK (R390). -/
def execMmask (w : CW) (s : State) : Host.Outcome State Fault Refusal := .next (firePort s .mmask w)

/-- MSTAT (R392). -/
def execMstat (w : CW) (s : State) : Host.Outcome State Fault Refusal := .next (firePort s .mstat w)

/-! ## The island (R376) -/

/-- A weight plane after grant. -/
def Plane.reset : Plane := ⟨none, 0, false, [], [], []⟩

/-- An accumulator plane after grant. -/
def AccPlane.reset : AccPlane := ⟨[], 0, 1, [], 0⟩

/-- An island after grant. -/
def Mi.reset : Mi := ⟨Plane.reset, Plane.reset, [], [], [], 0⟩

/-- An island. -/
def miGet (s : State) (f n : Nat) : Mi := tgetD s.x.mis (f, n) Mi.reset

/-- The state with an island replaced. -/
def setMi (s : State) (f n : Nat) (m : Mi) : State := { s with x := { s.x with mis := tset s.x.mis (f, n) m } }

/-- An accumulator plane of an island. -/
def accGet (m : Mi) (p : Nat) : AccPlane := tgetD m.acc p AccPlane.reset

/-- NEXTK of a row. -/
def nextkOf (a : AccPlane) (r : Nat) : Nat := tgetD a.nextk r a.nk0

/-- The least bit of a mask from k on, or 64 (R383). -/
def nextSet (m : W64) : Nat → Nat → Nat
  | 0, _ => 64
  | fuel + 1, k => if 64 ≤ k then 64 else if m.getLsbD k then k else nextSet m fuel (k + 1)

/-- NEXTK of every row after MCLR or MMASK (R383). -/
def resetNextk (a : AccPlane) : AccPlane := { a with nextk := [], nk0 := nextSet a.mask 64 0 }

/-! ## Formats and layouts (R378 to R381) -/

/-- The format code is defined. -/
def fmtOk (c : Nat) : Bool := c ≤ 6 || (8 ≤ c && c ≤ 12)

/-- Bits of an element. -/
def fmtBits (c : Nat) : Nat :=
  match c % 8 with
  | 1 => 4
  | 4 => 4
  | 5 => 16
  | 6 => 16
  | _ => 8

/-- The format carries a scale pane. -/
def fmtScaled (c : Nat) : Bool := 8 ≤ c

/-- The format is of the integer class. -/
def fmtInt (c : Nat) : Bool := c < 2

/-- The raw code of element i of some bytes (R379). -/
def rawElem (w : Nat) (b : List Byte) (i : Nat) : Nat :=
  if w = 16 then leAt b (2 * i) 2
  else if w = 8 then leAt b i 1
  else bits (leAt b (i / 2) 1) (4 * (i % 2) + 3) (4 * (i % 2))

/-- An element's integer value in the integer class. -/
def elemInt (c raw : Nat) : Int := sint (fmtBits c) raw

/-- An element's value in its format. -/
def elemFV (c raw : Nat) : FV :=
  match c % 8 with
  | 2 => fdec E4M3 raw
  | 3 => fdec E5M2 raw
  | 4 => fdec E2M1 raw
  | 5 => fdec B16 raw
  | 6 => fdec F16 raw
  | _ => let v := elemInt c raw; .num (v < 0) v.natAbs 0

/-- A value under an E8M0 scale byte (R380). -/
def scaled (e : Nat) (x : FV) : FV :=
  if e = 255 then .nan false 0 1 false
  else match x with
    | .num n m k => .num n m (k + e - 127)
    | y => y

/-- The positions of a sparse group's kept values: the item of group g of column n (R381). -/
def metaItem (p : Plane) (g n : Nat) : Nat := rawElem 4 p.meta_ (256 * g + n)

/-- The index of weight (k, n) in the plane's image; none where a sparse group keeps no value there. -/
def weightIx (p : Plane) (k n : Nat) : Option Nat :=
  if p.sparse then
    let m := metaItem p (k / 4) n
    if k % 4 = m % 4 then some (256 * (2 * (k / 4)) + n)
    else if k % 4 = m / 4 then some (256 * (2 * (k / 4) + 1) + n)
    else none
  else some (256 * k + n)

/-- Every sparse group's positions ascend (R381). -/
def metaOk (p : Plane) : Bool :=
  (List.range 64).all fun g => (List.range 256).all fun n => metaItem p g n % 4 < metaItem p g n / 4

/-! ## The row pass (R382) -/

/-- The exact integer dot product of an activation row and column n. -/
def dotInt (p : Plane) (fmt : Nat) (row : List Byte) (n : Nat) : Int :=
  ((List.range 256).map fun k => match weightIx p k n with
    | some i => elemInt fmt (rawElem (fmtBits fmt) row k) * elemInt p.fmt (rawElem (fmtBits p.fmt) p.data i)
    | none => 0).foldl (· + ·) 0

/-- The operand pairs of column n whose products exist, scales applied; block b of row j is byte 8j + b of the run's scale pane. -/
def pairsOf (p : Plane) (fmt : Nat) (row sc : List Byte) (j n : Nat) : List (FV × FV) :=
  (List.range 256).filterMap fun k => (weightIx p k n).map fun i =>
    let a := elemFV fmt (rawElem (fmtBits fmt) row k)
    let w := elemFV p.fmt (rawElem (fmtBits p.fmt) p.data i)
    (if fmtScaled fmt then scaled (leAt sc (8 * j + k / 32) 1) a else a,
     if fmtScaled p.fmt then scaled (leAt p.scale (8 * n + k / 32) 1) w else w)

/-- The one rounding of a column's exact sum (R382). -/
def dotFloat (l : List (FV × FV)) : Nat × BitVec 5 :=
  let real := l.filter fun q => !q.1.isNaN && !q.2.isNaN
  let ts := real.map fun q => mulFV q.1 q.2
  let terms := ts.filterMap id
  let pos := terms.any fun x => x == .inf false
  let neg := terms.any fun x => x == .inf true
  if (ts.any Option.isNone) || (pos && neg) || (l.any fun q => q.1.isSNaN || q.2.isSNaN) then (0x7FC00000, NV)
  else if l.any fun q => q.1.isNaN || q.2.isNaN then (0x7FC00000, 0)
  else if pos then infTo F32 false false
  else if neg then infTo F32 true false
  else
    let (v, e, z) := sumNums terms
    if v = 0 then (signBit F32 (z && !terms.isEmpty), 0) else rnd F32 (v < 0) v.natAbs e 0 false

/-- One column of an accumulator row after a row pass, with its flags. -/
def column (p : Plane) (a : AccPlane) (fmt : Nat) (row sc : List Byte) (j r n : Nat) : W32 × BitVec 5 :=
  let old := tgetD a.acc (r, n) 0
  if fmtInt fmt then (old + BitVec.ofInt 32 (dotInt p fmt row n), 0)
  else
    let t := dotFloat (pairsOf p fmt row sc j n)
    let v := farith 0 F32 0 old.toNat t.1 0
    (BitVec.ofNat 32 v.1, t.2 ||| v.2)

/-- An accumulator row updated: the plane and the flags raised. -/
def rowUpdate (p : Plane) (a : AccPlane) (fmt : Nat) (row sc : List Byte) (j r : Nat) : AccPlane × BitVec 5 :=
  (List.range 256).foldl (fun (q : AccPlane × BitVec 5) n =>
    let c := column p a fmt row sc j r n
    ({ q.1 with acc := tset q.1.acc (r, n) c.1 }, q.2 ||| c.2)) ({ a with kind := if fmtInt fmt then 2 else 1 }, 0)

/-- The classes agree (R382): of the two operands, and of the plane's ACCK. -/
def classOk (p : Plane) (a : AccPlane) (fmt : Nat) : Bool :=
  fmtInt fmt == fmtInt p.fmt && (a.kind == 0 || a.kind == (if fmtInt fmt then 2 else 1))

/-! ## Acceptance (R385, R386) -/

/-- A's VAL as the node read it. -/
def aVal (r : PortReq) : W64 := if r.w.sa = 0 then (r.set.a.map Token.val).getD 0 else r.cmp

/-- A command with nothing in it but its fields. -/
def cmdOf (id : Nat) (r : PortReq) : MCmd where
  id := id
  req := r
  fmt := bits (aVal r).toNat 3 0
  m24 := r.op == .mload && r.w.fn == 1
  panes := []
  scale := none
  got := []
  kseq := bits r.akey.toNat 21 16
  plane := bits r.akey.toNat 23 22
  row0 := bits r.akey.toNat 15 8
  rows := bits r.akey.toNat 7 0 + 1
  done := 0
  going := false
  buf := []
  dest := 0
  ofmt := 0
  out := 0
  err := 0
  before := []
  pins := []

/-- The panes of a tile or a run, with the metadata panes (R379, R381). -/
def paneCount (c : MCmd) : Nat :=
  if c.req.op == .mload then (if c.m24 then 2 * fmtBits c.fmt + 4 else 4 * fmtBits c.fmt)
  else (c.rows * 32 * fmtBits c.fmt + 2047) / 2048

/-- The reserved fields and ranges of R385. -/
def fieldsOk (c : MCmd) : Bool :=
  let v := (aVal c.req).toNat
  let k := c.req.akey.toNat
  match c.req.op with
  | .mload => bits v 63 56 = 0 && bits v 10 4 = 0 && fmtOk c.fmt && bits k 15 0 = 0 && bits k 31 22 = 0
      && fmtScaled c.fmt == (c.req.val != 0)
  | .mstrm => bits v 63 56 = 0 && bits v 10 4 = 0 && fmtOk c.fmt && bits k 31 24 = 0 && c.row0 + c.rows ≤ 256
      && fmtScaled c.fmt == (c.req.val != 0)
  | .mdrain => bits k 21 16 = 0 && bits k 31 24 = 0 && c.row0 + c.rows ≤ 256
  | .mswap => true
  | _ => bits k 21 0 = 0 && bits k 31 24 = 0

/-- The core and number of a pane of this wafer that a matrix island may read (R379). -/
def matrixPane (s : State) (pa : Nat) : Option PaneId :=
  if paWafer pa != s.wafno then none
  else match paneOf s pa with
    | some p => if p.n < 192 then some p else none
    | none => none

/-- The panes of a command, translated and checked (R379, R386 steps 1 and 2): placement of those that translate comes first. -/
def judgePanes (s : State) (c : MCmd) : Except Nat MCmd :=
  let r := c.req
  let vas := ((List.range (paneCount c)).map fun i => r.va + 2048 * i) ++ (if fmtScaled c.fmt then [r.val.toNat] else [])
  let xs := vas.map fun va => translate s r.ctx va (true, false)
  let oks := xs.filterMap fun x => match x with
    | .ok (pa, _) => some pa
    | .error _ => none
  let panes := oks.map (matrixPane s)
  if fmtScaled c.fmt && r.val.toNat % 2048 != 0 then .error Code.align
  else if panes.any Option.isNone || ((panes.filterMap id).map PaneId.core).eraseDups.length > 1 then .error Code.matrixFormat
  else match xs.findSome? fun x => match x with
      | .error code => some code
      | .ok _ => none with
    | some code => .error code
    | none =>
      if (panes.filterMap id).any fun p => !granted s p r.lid then .error Code.prot
      else .ok { c with panes := oks.take (paneCount c), scale := if fmtScaled c.fmt then oks.getLast? else none }

/-- R386 step 3: a row that a set K-tile bit has already passed, or a held command of the same plane and K-tile with overlapping rows. -/
def orderOk (m : Mi) (c : MCmd) : Bool :=
  let a := accGet m c.plane
  !(a.mask.getLsbD c.kseq && (List.range c.rows).any fun j => c.kseq < nextkOf a (c.row0 + j))
    && !(m.pool.any fun d => d.plane == c.plane && d.kseq == c.kseq && c.row0 < d.row0 + d.rows && d.row0 < c.row0 + c.rows)

/-- Bytes of a drained row (R391). -/
def drainRow (ofmt : Nat) : Nat := if ofmt = 0 then 1024 else 512

/-- What a destination page is, none where a drain may not write there: a core for scratchpad, or other memory (R391). -/
def drainKind (pa : Nat) : Option (Option Nat) :=
  if paKind pa == 1 then some (some (pa / 2 ^ 30))
  else if paKind pa == 2 then some none
  else if paKind pa == 0 && !inAperture pa then some none
  else none

/-- MDRAIN at acceptance: its route word, and its destination pages translated and pinned (R391). -/
def judgeDrain (s : State) (c : MCmd) : Except Nat (State × MCmd) :=
  let r := c.req
  match readAt s r.ctx r.lid r.va 128 with
  | .error e => .error e.1
  | .ok (s, b) =>
    let w := leAt b (8 * bits r.val.toNat 3 0) 8
    if bits w 63 56 != 0 || bits w 5 4 != 0 || 2 < bits w 3 0 then .error Code.matrixFormat
    else
      let dest := bits w 55 6 * 64
      let len := c.rows * drainRow (bits w 3 0)
      let pages := (List.range ((dest + len + 65535) / 65536 - dest / 65536)).map fun i => (dest / 65536 + i) * 65536
      match pages.mapM fun va => translate s r.ctx va (false, true) with
      | .error code => .error code
      | .ok l =>
        let kinds := (l.map fun q => drainKind q.1).eraseDups
        if kinds.contains none || (1 < kinds.length && kinds.any fun k => (k.bind id).isSome) then .error Code.matrixFormat
        else .ok (s, { c with dest := dest, ofmt := bits w 3 0, pins := pages.filterMap fun va => (pinPage s r.ctx va (false, true)).toOption })

/-- A command judged at acceptance, or the code with which its node parks (R386). -/
def judgeMatrix (s : State) (m : Mi) (r : PortReq) : Except Nat (State × MCmd) :=
  let c := cmdOf m.nextId r
  if !fieldsOk c then .error Code.matrixFormat
  else match r.op with
    | .mload => (judgePanes s c).map fun c => (s, c)
    | .mstrm => match judgePanes s c with
      | .error code => .error code
      | .ok c => if orderOk m c then .ok (s, c) else .error Code.matrixOrder
    | .mdrain => judgeDrain s c
    | _ => .ok (s, c)

/-- Asks for pane i of a command through its home (R387, R389): tile or run, then metadata, then scale, each once the one before has come. -/
def askPane (s : State) (f n : Nat) (c : MCmd) (i : Nat) : State :=
  match (c.panes ++ c.scale.toList)[i]? with
  | none => s
  | some pa => sendPkt s (.mi f n) 3 (paUnit pa) s.wafno 0 (.req { c.req with op := .mread, rid := c.id, pa := pa, more := [i] } pa false)

/-- Y of a command (R393), with X's value for MSTAT. -/
def matrixAns (s : State) (f n : Nat) (c : MCmd) (val : W64) (key : Nat) (x : W64) : State :=
  progress (sendAns s (.mi f n) c.req ⟨0, false, x, if c.req.op == .mstat then some 0 else none, some val, some (BitVec.ofNat 32 key), 0⟩)
    c.req.sl.core.f c.req.lid

/-- Accepted: into the stream pool or the control queue, with the commands accepted before it that its rule names (R386, R388 to R390); a
stream command whose mask bit is clear retires at once (R383). -/
def acceptCmd (s : State) (f n : Nat) (c : MCmd) : State :=
  let m := miGet s f n
  if c.req.op == .mstrm then
    if !(accGet m c.plane).mask.getLsbD c.kseq then matrixAns (setMi s f n { m with nextId := m.nextId + 1 }) f n c (aVal c.req) 0 0
    else
      let gate := m.ctrl.filter fun d => d.plane == c.plane && (d.req.op == .mclr || d.req.op == .mmask || d.req.op == .mdrain)
      let c := { c with before := gate.map MCmd.id }
      askPane (setMi s f n { m with nextId := m.nextId + 1, pool := m.pool ++ [c] }) f n c 0
  else
    let wait := if c.req.op == .mswap then m.pool else m.pool.filter fun d => d.plane == c.plane
    setMi s f n { m with nextId := m.nextId + 1, ctrl := m.ctrl ++ [{ c with before := wait.map MCmd.id }] }

/-- The pool or the queue has room for a command (R376). -/
def matrixRoom (m : Mi) (o : Op) : Bool := if o == .mstrm then m.pool.length < 16 else m.ctrl.length < 16

/-- MATRIX_ACCEPT (R386): the island judges and accepts the oldest command for which it has room; one refused parks its node, but for DECODE_LENGTH (R126). A
route table on another wafer is asked for, timed, and judged in a later step (R21, R336). -/
def execMatrixAccept (f n : Nat) (s : State) : Host.Outcome State Fault Refusal :=
  .next (match arrivedCmd s fun r => isMatrix r.op && miOf r.sl.core == .mi f n && ctxRuns s r.ctx && matrixRoom (miGet s f n) r.op with
    | none => s
    | some (p, r) =>
      farAccess s (.mi f n) acceptTag r.lid (if r.op == .mdrain then farWafer s r.ctx r.va (true, false) else none) fun s =>
        let s := dropPkt s p.id
        match judgeMatrix s (miGet s f n) r with
        | .error code => sendAns s (.mi f n) r { ansCode code with again := code != Code.decodeLength }
        | .ok (s, c) => acceptCmd s f n c)

/-! ## Control commands (R387 to R392) -/

/-- The head of the control queue leaves it. -/
def popCtrl (s : State) (f n : Nat) : State := let m := miGet s f n; setMi s f n { m with ctrl := m.ctrl.tail }

/-- The status word of R392. -/
def statusWord (m : Mi) (p : Nat) : W64 :=
  let a := accGet m p
  let nk := (List.range 256).foldl (fun acc r => min acc (nextkOf a r)) 64
  BitVec.ofNat 64 (nk * 2 ^ 57 + a.kind * 2 ^ 55 + m.active.wk.getD 0 * 2 ^ 49 + m.shadow.wk.getD 0 * 2 ^ 43 + m.pool.length * 2 ^ 38
    + (m.ctrl.length - 1) * 2 ^ 33 + m.active.wk.isSome.toNat * 2 ^ 32 + m.shadow.wk.isSome.toNat * 2 ^ 31)

/-- One drained element (R391): the word as held, or its value rounded once. -/
def drainElem (a : AccPlane) (ofmt r n : Nat) : List Byte × BitVec 5 :=
  let w := (tgetD a.acc (r, n) 0)
  if ofmt = 0 then (leBytes 4 w.toNat, 0)
  else
    let x : FV := if a.kind = 2 then .num (w.toInt < 0) w.toInt.natAbs 0 else fdec F32 w.toNat
    let q := deliver (if ofmt = 1 then B16 else F16) x 0 false
    (leBytes 2 q.1, q.2)

/-- The state with the command at the head of the control queue changed. -/
def modHead (s : State) (f n : Nat) (g : MCmd → MCmd) : State :=
  let m := miGet s f n
  match m.ctrl with
  | c :: l => setMi s f n { m with ctrl := g c :: l }
  | [] => s

/-- A drain's destination fails (R350): its code, its record, its catch token of value va (R257), FAIL on its panes; nothing more is sent. -/
def failDrain (s : State) (f n : Nat) (c : MCmd) (code va : Nat) : State :=
  if c.err != 0 then s
  else
    let s := modHead s f n fun d => { d with err := code, buf := [] }
    failPanes (engineFault s (.mi f n) (some c.req) c.req.ctx f code c.dest va 0) c.req.ctx c.req.lid c.dest (c.rows * drainRow c.ofmt)

/-- A drain sends its next arrival, in ascending address (R391); toward another wafer it is timed (R336), and for the memory of a saved-out
context it waits (R267). -/
def drainSend (s : State) (f n : Nat) (c : MCmd) : State :=
  match c.buf with
  | [] => s
  | a :: l =>
    match translate s c.req.ctx a.1 (false, true) with
    | .error code => failDrain s f n c code c.dest
    | .ok (pa, cmp) =>
      if paWafer pa != s.wafno && (deadFor s (.mi f n)).getLsbD (paWafer pa) then failDrain s f n c Code.peerDead c.dest
      else if awayFor s c.req.ctx a.1 (false, true) then s
      else
        let src : ArrSrc := ⟨s.wafno, true, f, n, c.id, 0⟩
        let (k, s) := fresh s
        let s := { s with net := s.net ++ [newPkt s k (.mi f n) 3 (paUnit pa) (paWafer pa) a.2.length
          (.arrival src c.req.ctx c.req.lid a.1 pa cmp a.2)] }
        let s := if paWafer pa == s.wafno then s
          else { s with remotes := s.remotes ++ [⟨k, .mi f n, paWafer pa, .arrival src c.req.ctx c.req.lid a.1, ctr s (.mi f n)⟩] }
        modHead s f n fun d => { d with out := d.out + 1, buf := l }

/-- A drain goes on by one arrival; the next row is read, and its flags raised, once the one before has left (R391, R394). -/
def drainStep (s : State) (f n : Nat) (m : Mi) (c : MCmd) : State :=
  if c.err != 0 || engineWaits s (some c.req) Code.paneState then s
  else if !c.buf.isEmpty then drainSend s f n c
  else if c.done < c.rows then
    let es := (List.range 256).map fun k => drainElem (accGet m c.plane) c.ofmt (c.row0 + c.done) k
    let bs := es.flatMap Prod.fst
    let s := orWord s c.req.lid c.req.sl.core.f ((es.map Prod.snd).foldl (· ||| ·) 0)
    let d := { c with done := c.done + 1, going := true, buf := chop (bs.length + 1) (c.dest + c.done * drainRow c.ofmt) bs }
    drainSend (modHead s f n fun _ => d) f n d
  else s

/-- The head of the control queue, where its condition is met (R387 to R392). -/
def applyHead (s : State) (f n : Nat) (m : Mi) (c : MCmd) : State :=
  let held (p : MCmd → Bool) : Bool := m.pool.any fun d => c.before.contains d.id && p d
  match c.req.op with
  | .mload => if c.going then s else modHead (askPane s f n c 0) f n fun d => { d with going := true }
  | .mswap =>
    if (match m.active.wk with
      | some k => held fun d => d.kseq == k
      | none => false) then s
    else
      let s := setMi s f n { m with active := m.shadow, shadow := m.active }
      matrixAns (popCtrl s f n) f n c (BitVec.ofNat 64 (m.shadow.wk.getD 64)) 0 0
  | .mclr =>
    if held fun _ => true then s
    else
      let a := { accGet m c.plane with acc := [], kind := 0 }
      matrixAns (popCtrl (setMi s f n { m with acc := tset m.acc c.plane (resetNextk a) }) f n) f n c (aVal c.req) 0 0
  | .mmask =>
    if held fun _ => true then s
    else
      let a := { accGet m c.plane with mask := c.req.val }
      matrixAns (popCtrl (setMi s f n { m with acc := tset m.acc c.plane (resetNextk a) }) f n) f n c (aVal c.req) 0 0
  | .mstat => matrixAns (popCtrl s f n) f n c (aVal c.req) 0 (statusWord m c.plane)
  | _ =>
    if c.going || (List.range c.rows).all fun j => nextkOf (accGet m c.plane) (c.row0 + j) == 64 then drainStep s f n m c else s

/-- MATRIX_CONTROL_APPLY (R386): the command at the head of the control queue is applied, or a drain in progress sends its next arrival. -/
def execMatrixControlApply (f n : Nat) (s : State) : Host.Outcome State Fault Refusal :=
  .next (
    let m := miGet s f n
    match m.ctrl with
    | c :: _ => if ctxRuns s c.req.ctx && !isFrozen s f c.req.lid && !unitHolds s (.mi f n) then applyHead s f n m c else s
    | [] => s)

/-- WEIGHT_LOAD_COMPLETE (R387): every pane of the MLOAD at the head has been read; the shadow plane is replaced, or the command ends with
the code of a failed read or of a sparse group out of order. -/
def execWeightLoadComplete (f n : Nat) (s : State) : Host.Outcome State Fault Refusal :=
  .next (
    let m := miGet s f n
    match m.ctrl with
    | [] => s
    | c :: _ =>
      let total := c.panes.length + c.scale.toList.length
      if c.req.op == .mload && c.going && (c.err != 0 || c.got.length = total) && ctxRuns s c.req.ctx && !unitHolds s (.mi f n) then
        let pane (i : Nat) : List Byte := tgetD c.got i []
        let nw := if c.m24 then c.panes.length - 4 else c.panes.length
        let p : Plane := ⟨some c.kseq, c.fmt, c.m24, (List.range nw).flatMap pane,
          if c.m24 then (List.range 4).flatMap fun i => pane (nw + i) else [],
          if c.scale.isSome then pane c.panes.length else []⟩
        let code := if c.err != 0 then c.err else if c.m24 && !metaOk p then Code.matrixFormat else 0
        if code = 0 then matrixAns (popCtrl (setMi s f n { m with shadow := p }) f n) f n c (aVal c.req) 0 0
        else matrixAns (engineFault (popCtrl s f n) (.mi f n) (some c.req) c.req.ctx f code c.req.va c.req.va 0) f n c (aVal c.req) code 0
      else s)

/-- MDRAIN_COMPLETE (R391): every byte has been acknowledged or refused. -/
def execMdrainComplete (f n : Nat) (s : State) : Host.Outcome State Fault Refusal :=
  .next (
    let m := miGet s f n
    match m.ctrl with
    | [] => s
    | c :: _ =>
      if c.req.op == .mdrain && c.going && ((c.done = c.rows && c.buf.isEmpty) || c.err != 0) && c.out = 0 && ctxRuns s c.req.ctx then
        matrixAns (popCtrl s f n) f n c (BitVec.ofNat 64 c.dest) c.err 0
      else s)

/-! ## Row passes (R383, R389) -/

/-- The pane that holds the next row of a run, and the bytes of the row. -/
def nextRow (c : MCmd) : Option (List Byte) :=
  let rb := 32 * fmtBits c.fmt
  (tget c.got (c.done * rb / 2048)).map fun b => (b.drop (c.done * rb % 2048)).take rb

/-- The scale bytes of a run, where its format needs them. -/
def runScale (c : MCmd) : Option (List Byte) := if c.scale.isSome then tget c.got c.panes.length else some []

/-- A held command's next row is ready, and its bytes have been read (R383, R389). -/
def rowReady (m : Mi) (c : MCmd) : Bool :=
  c.done < c.rows && nextkOf (accGet m c.plane) (c.row0 + c.done) == c.kseq && m.active.wk == some c.kseq
    && !(m.ctrl.any fun d => c.before.contains d.id) && (nextRow c).isSome && (runScale c).isSome

/-- A stream command leaves the pool with Y (R389). -/
def retireStream (s : State) (f n : Nat) (c : MCmd) (code : Nat) : State :=
  let m := miGet s f n
  let s := setMi s f n { m with pool := m.pool.filter fun d => d.id != c.id }
  let s := if code = 0 then s else engineFault s (.mi f n) (some c.req) c.req.ctx f code c.req.va c.req.va 0
  matrixAns s f n c (aVal c.req) code 0

/-- ROW_PASS (R382, R383): the oldest held command whose next row is ready applies it; a class that does not fit stops the command. -/
def execRowPass (f n : Nat) (s : State) : Host.Outcome State Fault Refusal :=
  .next (
    let m := miGet s f n
    match first? (fun c => rowReady m c && ctxRuns s c.req.ctx && !isFrozen s f c.req.lid && !unitHolds s (.mi f n)) m.pool with
    | none => s
    | some c =>
      let a := accGet m c.plane
      if !classOk m.active a c.fmt then retireStream s f n c Code.matrixFormat
      else
        let r := c.row0 + c.done
        let u := rowUpdate m.active a c.fmt ((nextRow c).getD []) ((runScale c).getD []) c.done r
        let b := { u.1 with nextk := tset u.1.nextk r (nextSet a.mask 64 (c.kseq + 1)) }
        let s := setMi s f n { m with
          acc := tset m.acc c.plane b
          pool := mapIf (fun d => d.id == c.id) (fun d => { d with done := d.done + 1 }) m.pool }
        let s := progress (orWord s c.req.lid c.req.sl.core.f u.2) c.req.sl.core.f c.req.lid
        if c.done + 1 = c.rows then retireStream s f n c 0 else s)

/-! ## What comes back to an island -/

/-- A pane that an island asked for has come back (R387, R389): it is kept for its command, which asks for the next; a failed read ends the
command. -/
def matrixPaneBack (s : State) (r : PortReq) (code : Nat) (b : List Byte) : State :=
  match miOf r.sl.core with
  | .mi f n =>
    let m := miGet s f n
    let ix := r.more.headD 0
    let mine (c : MCmd) : Bool := c.id == r.rid && c.req.lid == r.lid
    let keep (c : MCmd) : MCmd := { c with got := tset c.got ix b, err := if c.err = 0 then code else c.err }
    let s := setMi s f n { m with
      pool := mapIf mine keep m.pool
      ctrl := mapIf (fun c => mine c && c.req.op == .mload) keep m.ctrl }
    match first? mine (miGet s f n).pool, first? mine (miGet s f n).ctrl with
    | some c, _ => if code = 0 then askPane s f n c (ix + 1) else retireStream s f n c code
    | none, some c => if code = 0 then askPane s f n c (ix + 1) else s
    | none, none => s
  | _ => s

/-- The acknowledgement or refusal of a drain's arrival (R391), in the launch that sent it; the token for a refusing pane carries its address
(R257). -/
def drainAck (s : State) (src : ArrSrc) (lid code va : Nat) : State :=
  match (miGet s src.f src.n).ctrl with
  | c :: _ =>
    if c.id = src.id && c.req.lid = lid && c.req.op == .mdrain then
      let s := modHead s src.f src.n fun d => { d with out := d.out - 1 }
      if code = 0 then s else failDrain s src.f src.n c code (if code = Code.paneState then va / 2048 * 2048 else c.dest)
    else s
  | [] => s

end Sys2Proof.Machine
end

