-- ==== Sys2Proof/Machine/Answers.lean ====
section
/-! DEFINITION. What returns to an issuing element or to an engine: responses, acknowledgements of arrivals, panes that an island asked for
(R189, R350, R391). -/

namespace Sys2Proof.Machine

open Sys2Proof

/-- The request of the command that an arrival belongs to. -/
def ackReq (s : State) (src : ArrSrc) : Option PortReq :=
  if src.drain then ((miGet s src.f src.n).ctrl.head?).map MCmd.req else (stream? s src.f src.n src.id).bind Stream.req

/-- An acknowledgement from another wafer whose arrival was answered here before (R337). -/
def staleAck (s : State) (p : Packet) (k : Nat) : Bool := p.srcW != s.wafno && !(s.remotes.any fun m => m.n == k)

/-- The engine cannot finish an acknowledgement yet: a refusal waits while the catch queue is full (R129) or the engine holds a record (R403), and
every acknowledgement behind one that waits. -/
def ackWaits (s : State) (src : ArrSrc) (code : Nat) : Bool :=
  (code != 0 && (engineWaits s (ackReq s src) code || unitHolds s (srcUnit src))) || s.lateAck.any fun m => match m with
    | .ack a .. => srcUnit a == srcUnit src
    | _ => false

/-- An engine finishes an acknowledgement that it has taken, or keeps it. -/
def finishAck (s : State) (m : Msg) : State :=
  match m with
  | .ack src ctx lid code va _ => onCopy s ctx fun s =>
    if ackWaits s src code then { s with lateAck := s.lateAck ++ [m] }
    else if src.drain then drainAck s src lid code va
    else streamAck s src code va
  | _ => s

/-- The acknowledgements that an engine has taken and can finish now are finished, in the order in which they came. -/
def letAcks (s : State) : State := s.lateAck.foldl finishAck { s with lateAck := [] }

/-- An acknowledgement of arrival k reaches its engine, which takes it without delay (R310), in whichever copy holds the context. -/
def ackStep (s : State) (p : Packet) (k : Nat) : State :=
  if !arrived s p then s
  else if staleAck s p k then dropPkt s p.id
  else finishAck (dropRemote (dropPkt s p.id) k) p.msg

/-- MEMORY_RESPONSE (R189): a response reaches the issuing element, which emits its tokens, or the engine that waits for it. -/
def execMemoryResponse (pkt : Nat) (s : State) : Host.Outcome State Fault Refusal :=
  .next (match pkt? s pkt with
    | none => s
    | some p => match p.msg with
      | .ans r _ => answerStep s p r
      | .hist r .. => answerStep s p r
      | .ack _ _ _ _ _ k => ackStep s p k
      | .pane r code b => if arrived s p then onCopy s r.ctx fun s => matrixPaneBack (dropPkt s pkt) r code b else s
      | _ => s)

end Sys2Proof.Machine
end

