-- ==== Sys2Proof/Machine/Arith.lean ====
section
/-! DEFINITION. The integer, logic, floating, conversion and lane instructions (R134 to R170): each hands its result to the shared
arithmetic firing, which puts it on X and a NUL token on Y. -/

namespace Sys2Proof.Machine

open Sys2Proof

/-- ADD (R150): a + b, wrapped or clamped under .SAT. -/
def execAdd (w : CW) (s : State) : Host.Outcome State Fault Refusal :=
  .next (fireAlu s w 0x00 fun a b c => intArith 0 w.ty.toNat (w.fn.getLsbD 0) a b c)

/-- SUB (R150): a - b, wrapped or clamped under .SAT. -/
def execSub (w : CW) (s : State) : Host.Outcome State Fault Refusal :=
  .next (fireAlu s w 0x01 fun a b c => intArith 1 w.ty.toNat (w.fn.getLsbD 0) a b c)

/-- MUL (R150): a * b, wrapped or clamped under .SAT. -/
def execMul (w : CW) (s : State) : Host.Outcome State Fault Refusal :=
  .next (fireAlu s w 0x02 fun a b c => intArith 2 w.ty.toNat (w.fn.getLsbD 0) a b c)

/-- MAD (R150): a * b + c, wrapped or clamped under .SAT. -/
def execMad (w : CW) (s : State) : Host.Outcome State Fault Refusal :=
  .next (fireAlu s w 0x04 fun a b c => intArith 3 w.ty.toNat (w.fn.getLsbD 0) a b c)

/-- NEG (R150): -a, wrapped or clamped under .SAT. -/
def execNeg (w : CW) (s : State) : Host.Outcome State Fault Refusal :=
  .next (fireAlu s w 0x07 fun a b c => intArith 4 w.ty.toNat (w.fn.getLsbD 0) a b c)

/-- ABS (R150): the magnitude of a, wrapped or clamped under .SAT. -/
def execAbs (w : CW) (s : State) : Host.Outcome State Fault Refusal :=
  .next (fireAlu s w 0x08 fun a b c => intArith 5 w.ty.toNat (w.fn.getLsbD 0) a b c)

/-- MULH (R151): the upper half of the product. -/
def execMulh (w : CW) (s : State) : Host.Outcome State Fault Refusal :=
  .next (fireAlu s w 0x03 fun a b _ => (mulhOp w.ty.toNat a b, 0))

/-- DIV (R152): a divided by b, truncating; DZ for b = 0. -/
def execDiv (w : CW) (s : State) : Host.Outcome State Fault Refusal :=
  .next (fireAlu s w 0x05 fun a b _ => divOp w.ty.toNat a b)

/-- REM (R152): the remainder with the sign of a; DZ for b = 0. -/
def execRem (w : CW) (s : State) : Host.Outcome State Fault Refusal :=
  .next (fireAlu s w 0x06 fun a b _ => remOp w.ty.toNat a b)

/-- MIN (R153): the smaller operand. -/
def execMin (w : CW) (s : State) : Host.Outcome State Fault Refusal :=
  .next (fireAlu s w 0x09 fun a b _ => (intMinMax false w.ty.toNat a b, 0))

/-- MAX (R153): the larger operand. -/
def execMax (w : CW) (s : State) : Host.Outcome State Fault Refusal :=
  .next (fireAlu s w 0x0A fun a b _ => (intMinMax true w.ty.toNat a b, 0))

/-- AND (R153): bitwise at the type's width. -/
def execAnd (w : CW) (s : State) : Host.Outcome State Fault Refusal :=
  .next (fireAlu s w 0x0B fun a b _ => (bitwiseOp (fun x y => x &&& y) w.ty.toNat a b, 0))

/-- ANDN (R153): bitwise at the type's width. -/
def execAndn (w : CW) (s : State) : Host.Outcome State Fault Refusal :=
  .next (fireAlu s w 0x0C fun a b _ => (bitwiseOp (fun x y => x &&& ~~~y) w.ty.toNat a b, 0))

/-- OR (R153): bitwise at the type's width. -/
def execOr (w : CW) (s : State) : Host.Outcome State Fault Refusal :=
  .next (fireAlu s w 0x0D fun a b _ => (bitwiseOp (fun x y => x ||| y) w.ty.toNat a b, 0))

/-- XOR (R153): bitwise at the type's width. -/
def execXor (w : CW) (s : State) : Host.Outcome State Fault Refusal :=
  .next (fireAlu s w 0x0E fun a b _ => (bitwiseOp (fun x y => x ^^^ y) w.ty.toNat a b, 0))

/-- NOT (R153): the bitwise complement. -/
def execNot (w : CW) (s : State) : Host.Outcome State Fault Refusal :=
  .next (fireAlu s w 0x0F fun a _ _ => (bitwiseOp (fun x _ => ~~~x) w.ty.toNat a 0, 0))

/-- SHL (R154): a shifted left by the whole of B. -/
def execShl (w : CW) (s : State) : Host.Outcome State Fault Refusal :=
  .next (fireAlu s w 0x10 fun a b _ => shlOp w.ty.toNat (w.fn.getLsbD 0) a b)

/-- SHR (R154): a shifted right, zeros in. -/
def execShr (w : CW) (s : State) : Host.Outcome State Fault Refusal :=
  .next (fireAlu s w 0x11 fun a b _ => (shrOp w.ty.toNat a b, 0))

/-- SRA (R154): a shifted right, sign in. -/
def execSra (w : CW) (s : State) : Host.Outcome State Fault Refusal :=
  .next (fireAlu s w 0x12 fun a b _ => (sraOp w.ty.toNat a b, 0))

/-- ROT (R154): a rotated left. -/
def execRot (w : CW) (s : State) : Host.Outcome State Fault Refusal :=
  .next (fireAlu s w 0x13 fun a b _ => (rotOp w.ty.toNat a b, 0))

/-- CLZ (R155): leading zero bits. -/
def execClz (w : CW) (s : State) : Host.Outcome State Fault Refusal :=
  .next (fireAlu s w 0x14 fun a _ _ => (clzOp w.ty.toNat a, 0))

/-- POPC (R155): one bits. -/
def execPopc (w : CW) (s : State) : Host.Outcome State Fault Refusal :=
  .next (fireAlu s w 0x15 fun a _ _ => (popcOp w.ty.toNat a, 0))

/-- BFX (R156): the bit field that B describes. -/
def execBfx (w : CW) (s : State) : Host.Outcome State Fault Refusal :=
  .next (fireAlu s w 0x16 fun a b _ => (bfxOp w.ty.toNat a b, 0))

/-- BFI (R156): the bit field that C describes replaced from B. -/
def execBfi (w : CW) (s : State) : Host.Outcome State Fault Refusal :=
  .next (fireAlu s w 0x17 fun a b c => (bfiOp w.ty.toNat a b c, 0))

/-- CMP (R158): 1 when the relation holds, else 0. -/
def execCmp (w : CW) (s : State) : Host.Outcome State Fault Refusal :=
  .next (fireAlu s w 0x19 fun a b _ => (cmpOp w.fn.toNat w.ty.toNat a b, 0))

/-- MOV (R157): a at TY width. -/
def execMov (w : CW) (s : State) : Host.Outcome State Fault Refusal :=
  .next (fireAlu s w 0x1A fun a _ _ => (extend w.ty.toNat a, 0))

/-- SEL (R157): A when C's 64 bits are nonzero, else B, at TY width, with KEY and KV of the selected operand. -/
def execSel (w : CW) (s : State) : Host.Outcome State Fault Refusal :=
  .next (fireSet s w false true true (identity 0x18 w.ty.toNat) fun fr =>
    let pickA := valC w fr != 0
    let v := if pickA then valA w fr else valB w fr
    let src := if pickA then w.sa else w.sb
    let t := if pickA then fr.set.a else fr.set.b
    let key : W32 := if src = 0 then (t.map Token.key).getD 0 else 0
    let kv := src == 0 && (t.map Token.kv).getD false
    conclude s w fr true true 0 (do
      let x ← outTok w fr 4 (extend w.ty.toNat v.toNat) key kv (difOut w fr.set) false false
      let y ← nulTok w fr 5
      return ⟨[x], [y], 0, [], true⟩))

/-- FADD (R159): a + b, rounded once in each lane. -/
def execFadd (w : CW) (s : State) : Host.Outcome State Fault Refusal :=
  .next (fireAlu s w 0x30 fun a b _ => packed w.ty.toNat (lanewise w.ty.toNat (fun f a b c => farith 0 f (w.fn.toNat % 4) a b c) a b 0))

/-- FSUB (R159): a - b, rounded once in each lane. -/
def execFsub (w : CW) (s : State) : Host.Outcome State Fault Refusal :=
  .next (fireAlu s w 0x31 fun a b _ => packed w.ty.toNat (lanewise w.ty.toNat (fun f a b c => farith 1 f (w.fn.toNat % 4) a b c) a b 0))

/-- FMUL (R159): a * b, rounded once in each lane. -/
def execFmul (w : CW) (s : State) : Host.Outcome State Fault Refusal :=
  .next (fireAlu s w 0x32 fun a b _ => packed w.ty.toNat (lanewise w.ty.toNat (fun f a b c => farith 2 f (w.fn.toNat % 4) a b c) a b 0))

/-- FMA (R159): a * b + c, rounded once in each lane. -/
def execFma (w : CW) (s : State) : Host.Outcome State Fault Refusal :=
  .next (fireAlu s w 0x33 fun a b c => packed w.ty.toNat (lanewise w.ty.toNat (fun f a b c => farith 3 f (w.fn.toNat % 4) a b c) a b c))

/-- FMS (R159): a * b - c, rounded once in each lane. -/
def execFms (w : CW) (s : State) : Host.Outcome State Fault Refusal :=
  .next (fireAlu s w 0x34 fun a b c => packed w.ty.toNat (lanewise w.ty.toNat (fun f a b c => farith 4 f (w.fn.toNat % 4) a b c) a b c))

/-- FNMA (R159): -(a * b) + c, rounded once in each lane. -/
def execFnma (w : CW) (s : State) : Host.Outcome State Fault Refusal :=
  .next (fireAlu s w 0x35 fun a b c => packed w.ty.toNat (lanewise w.ty.toNat (fun f a b c => farith 5 f (w.fn.toNat % 4) a b c) a b c))

/-- FMIN (R160): the smaller operand of each lane. -/
def execFmin (w : CW) (s : State) : Host.Outcome State Fault Refusal :=
  .next (fireAlu s w 0x36 fun a b _ => packed w.ty.toNat (lanewise w.ty.toNat (fun f a b _ => fminmax false f a b) a b 0))

/-- FMAX (R160): the larger operand of each lane. -/
def execFmax (w : CW) (s : State) : Host.Outcome State Fault Refusal :=
  .next (fireAlu s w 0x37 fun a b _ => packed w.ty.toNat (lanewise w.ty.toNat (fun f a b _ => fminmax true f a b) a b 0))

/-- FABS (R160): the sign bit of each lane cleared. -/
def execFabs (w : CW) (s : State) : Host.Outcome State Fault Refusal :=
  .next (fireAlu s w 0x38 fun a _ _ => packed w.ty.toNat (lanewise w.ty.toNat (fun f a _ _ => (a % 2 ^ (f.w - 1), 0)) a 0 0))

/-- FNEG (R160): the sign bit of each lane inverted. -/
def execFneg (w : CW) (s : State) : Host.Outcome State Fault Refusal :=
  .next (fireAlu s w 0x39 fun a _ _ => packed w.ty.toNat (lanewise w.ty.toNat (fun f a _ _ => (if bit a (f.w - 1) then a - 2 ^ (f.w - 1) else a + 2 ^ (f.w - 1), 0)) a 0 0))

/-- FCMP (R161): 1 when the relation holds, else 0. -/
def execFcmp (w : CW) (s : State) : Host.Outcome State Fault Refusal :=
  .next (fireAlu s w 0x3A fun a b _ =>
    let f := fmtOf w.ty.toNat
    let r := fcmpOp w.fn.toNat f (a % 2 ^ f.w) (b % 2 ^ f.w)
    (BitVec.ofNat 64 r.1, r.2))

/-- FRSQ (R165): the reciprocal square root estimate. -/
def execFrsq (w : CW) (s : State) : Host.Outcome State Fault Refusal :=
  .next (fireAlu s w 0x3B fun a _ _ => packed 8 (frsqOp (a % 2 ^ 32)))

/-- FRCP (R165): the reciprocal estimate. -/
def execFrcp (w : CW) (s : State) : Host.Outcome State Fault Refusal :=
  .next (fireAlu s w 0x3C fun a _ _ => packed 8 (frcpOp (a % 2 ^ 32)))

/-- FSCL (R164): a times 2 to the power B. -/
def execFscl (w : CW) (s : State) : Host.Outcome State Fault Refusal :=
  .next (fireAlu s w 0x3D fun a b _ =>
    let f := fmtOf w.ty.toNat
    packed w.ty.toNat (fsclOp f (w.fn.toNat % 4) (a % 2 ^ f.w) (sint 32 b)))

/-- FRND (R163): a rounded to an integral value. -/
def execFrnd (w : CW) (s : State) : Host.Outcome State Fault Refusal :=
  .next (fireAlu s w 0x3E fun a _ _ =>
    let f := fmtOf w.ty.toNat
    packed w.ty.toNat (frndOp f (w.fn.toNat % 4) (a % 2 ^ f.w)))

/-- FCLS (R162): the class mask of a. -/
def execFcls (w : CW) (s : State) : Host.Outcome State Fault Refusal :=
  .next (fireAlu s w 0x3F fun a _ _ =>
    let f := fmtOf w.ty.toNat
    (BitVec.ofNat 64 (fclsOp f (a % 2 ^ f.w)), 0))

/-- FCVT (R166): a converted from the packed or floating type in IMM. -/
def execFcvt (w : CW) (s : State) : Host.Outcome State Fault Refusal :=
  .next (fireAlu s w 0x40 fun a _ _ => packed w.ty.toNat (fcvtOp w.imm.toNat w.ty.toNat (w.fn.toNat % 4) (w.fn.getLsbD 2) a))

/-- CVT (R167): a converted from the scalar type in IMM. -/
def execCvt (w : CW) (s : State) : Host.Outcome State Fault Refusal :=
  .next (fireAlu s w 0x41 fun a _ _ => cvtOp w.imm.toNat w.ty.toNat (w.fn.toNat % 4) (w.fn.getLsbD 2) a)

/-- LANE (R168): one lane widened to F32. -/
def execLane (w : CW) (s : State) : Host.Outcome State Fault Refusal :=
  .next (fireAlu s w 0x42 fun a b _ => packed 8 (laneOp w.ty.toNat a b))

/-- VINS (R169): a with one lane replaced by the F32 value of B. -/
def execVins (w : CW) (s : State) : Host.Outcome State Fault Refusal :=
  .next (fireAlu s w 0x43 fun a b c => packed w.ty.toNat (vinsOp w.ty.toNat a b c))

/-- VSUM (R170): the sum of every lane rounded once to F32. -/
def execVsum (w : CW) (s : State) : Host.Outcome State Fault Refusal :=
  .next (fireAlu s w 0x44 fun a _ _ => packed 8 (vsumOp w.ty.toNat (w.fn.toNat % 4) a))

end Sys2Proof.Machine
end

