-- ==== Sys2Proof/Machine/Retire.lean ====
section
/-! DEFINITION. What a launch or a section still holds, the end of a launch and its DONE word, and the end of a section's arming
(R79, R82, R84, R89, R109, R293, R360, R369). -/

namespace Sys2Proof.Machine

open Sys2Proof

/-! ## What a set of nodes holds (R82, R84) -/

/-- A node of the element satisfies a test. -/
def elemHas (p : Slot → Bool) (c : CoreId) (e : Nat) : Bool := (List.range 8).any fun k => p ⟨c, e, k⟩

/-- A buffered token is on its way to a node of the set, or stands in a node's output to another wafer, or in one whose circuit has been left
with no input (R94). -/
def bufHas (s : State) (p : Slot → Bool) (g : EdgeId) (b : BufTok) : Bool :=
  b.todo.any (fun d => p ⟨d.core, d.e, b.tok.ctx.toNat⟩) || ((isCut s g || b.todo.isEmpty) && elemHas p g.core g.e)

/-- A matching-store entry holds a token: waiting operands or a held token; a running state is none. -/
def entryHolds (m : MEntry) : Bool :=
  match m.kind with
  | .state _ => false
  | .claimed => false
  | _ => true

/-- Some node of the set holds a token that is not in a park register: in a buffer, a matching store, an issue queue or a stream head. -/
def holdsLive (s : State) (p : Slot → Bool) : Bool :=
  s.x.edges.any (fun q => q.2.buf.any (bufHas s p q.1) || q.2.wait.any fun h => p ⟨q.1.core, q.1.e, h.k⟩)
  || s.x.mstore.any (fun q => q.2.any fun m => entryHolds m && p ⟨q.1, m.e, m.id.k⟩)
  || s.x.iq.any (fun q => q.2.any fun o => p ⟨q.1.1, q.1.2, o.set.id.k⟩)
  || s.x.heldq.any (fun q => p q.1 && !q.2.isEmpty)
  || s.x.walks.any (fun q => p q.1 && (q.2.ha.isSome || q.2.hb.isSome))
  || s.x.hstr.any (fun q => p q.1)
  || s.x.frontQ.any (fun q => p q.1)
  || s.launches.any (fun l => !l.2.catchQ.isEmpty && (match l.2.catch_ with
      | some c => c.1 == s.wafno && p c.2
      | none => false))

/-- Some node of the set holds a token, parked sets among them. -/
def holdsToken (s : State) (p : Slot → Bool) : Bool := holdsLive s p || s.x.park.any fun q => p q.1 && !q.2.isEmpty

/-- A message is a request that satisfies a test, or its answer. -/
def msgReq (m : Msg) (p : PortReq → Bool) : Bool :=
  match m with
  | .req r _ _ => p r
  | .ans r _ => p r
  | .pane r _ _ => p r
  | .hist r .. => p r
  | _ => false

/-- A request of the set is on its way, waits at a home or a port, or is an accepted command of an engine. -/
def outstanding (s : State) (lid : Nat) (p : Slot → Bool) : Bool :=
  let mine (r : PortReq) : Bool := r.lid == lid && p r.sl
  s.net.any (fun k => msgReq k.msg mine)
  || s.x.waitl.any (fun q => q.2.any fun e => mine e.req)
  || s.x.retry.any (fun q => q.2.any fun e => mine e.req)
  || s.x.relw.any (fun q => q.2.any fun e => mine e.req)
  || s.x.outw.any (fun q => q.2.any fun o => o.code = 0 && p o.node)
  || s.twalks.any (fun q => q.2.any fun e => mine e.req)
  || s.x.pwalks.any (fun w => mine w.req)
  || s.launches.any (fun l => l.2.pool.any fun q => mine q.2.req)
  || s.x.hset.any (fun q => q.2.any fun o => mine o.req)
  || s.x.hq.any (fun q => q.2.any fun o => mine o.req)
  || s.x.hbusy.any (fun q => mine q.2.req || q.2.out.any fun t => mine t.req)
  || s.x.late.any (msgReq · mine)
  || s.remotes.any (fun m => m.req.any mine)
  || s.sis.any (fun q => q.2.streams.any fun x => x.req.any mine)
  || s.x.mis.any (fun q => (q.2.ctrl ++ q.2.pool).any fun c => mine c.req)

/-- The slot holds a node of the launch. -/
def ofLaunch (s : State) (lid : Nat) (sl : Slot) : Bool := (node? s sl).any fun n => n.lid == lid

/-! ## Flags (R109, R143) -/

/-- The flags of some slots ORed into the launch's flag words of their fields and cleared. -/
def gatherFlags (s : State) (lid : Nat) (l : List Slot) : State :=
  l.foldl (fun s sl =>
    let s := orWord s lid sl.core.f (flagsOf s sl)
    { s with x := { s.x with flags := tdel s.x.flags sl } }) s

/-! ## The end of a launch (R82, R293, R360, R369) -/

/-- A packet belongs to the launch. -/
def pktOf (lid : Nat) (k : Packet) : Bool :=
  match k.msg with
  | .peer .. => false
  | m => msgLid m == lid

/-- A packet that ends with its launch: counts, a command that no engine has accepted, an island's read, an arrival that has not left its
island (R369, R394), a query or a walk. -/
def pktEnds (me lid : Nat) (k : Packet) : Bool :=
  match k.msg with
  | .req r _ _ => r.lid == lid && (isStreamer r.op || isMatrix r.op || r.op == .mread)
  | .counts l _ _ => l == lid
  | .pane r _ _ => r.lid == lid
  | .arrival _ _ l .. => l == lid && !k.inj && k.srcW == me
  | .ask _ _ l _ _ => l == lid
  | .told _ _ l _ _ => l == lid
  | .walk _ _ l => l == lid
  | _ => false

/-- The execution state without what a launch holds in it. -/
def dropExec (s : State) (lid : Nat) (islands : List (Nat × Nat)) : Exec :=
  let p := ofLaunch s lid
  let x := s.x
  { x with
    nodes := x.nodes.filter fun q => q.2.lid != lid
    hold := x.hold.filter fun q => !p q.1
    flags := x.flags.filter fun q => !p q.1
    park := x.park.filter fun q => !p q.1
    heldq := x.heldq.filter fun q => !p q.1
    walks := x.walks.filter fun q => !p q.1
    hstr := x.hstr.filter fun q => !p q.1
    frn := x.frn.filter fun q => !p q.1
    frontQ := x.frontQ.filter fun q => !p q.1
    edges := x.edges.map fun q =>
      (q.1, ⟨q.2.buf.filter fun b => !bufHas s p q.1 b, q.2.wait.filter fun h => !p ⟨q.1.core, q.1.e, h.k⟩⟩)
    mstore := x.mstore.map fun q => (q.1, q.2.filter fun m => !p ⟨q.1, m.e, m.id.k⟩)
    iq := x.iq.map fun q => (q.1, q.2.filter fun o => !p ⟨q.1.1, q.1.2, o.set.id.k⟩)
    osearch := x.osearch.map fun q => (q.1, q.2.filter fun o =>
      !((offered s o.edge o.dst).any fun t => p ⟨o.dst.core, o.dst.e, t.ctx.toNat⟩))
    ctab := x.ctab.map fun q => (q.1, q.2.filter fun e => e.lid != lid)
    grants := x.grants.filter fun q => q.2 != lid
    waitl := x.waitl.map fun q => (q.1, q.2.filter fun e => e.req.lid != lid)
    retry := x.retry.map fun q => (q.1, q.2.filter fun e => e.req.lid != lid)
    relw := x.relw.map fun q => (q.1, q.2.filter fun e => e.req.lid != lid)
    outw := x.outw.map fun q => (q.1, q.2.filter fun o => !p o.node)
    pwalks := x.pwalks.filter fun w => w.req.lid != lid
    hq := x.hq.map fun q => (q.1, q.2.filter fun o => o.req.lid != lid)
    hbusy := x.hbusy.filter fun q => q.2.req.lid != lid
    late := x.late.filter fun m => msgLid m != lid
    graphs := x.graphs.map fun q => (q.1, q.2.filter fun g => g.lid != lid)
    mis := x.mis.filter fun q => !islands.contains q.1 }

/-- A streamer island without a launch's streams, whose places go to the commands that wait. -/
def siWithout (lid : Nat) (i : Si) : Si :=
  let l := i.streams.filter fun x => x.lid != lid
  { i with streams := startStreams ((l.filter fun x => x.started).length) l }

/-- Everything that a launch holds is released: its objects first, then slots, panes, islands, streams with their spills and pins, its counts
and its marks. Its windows are freed once the requests in flight to them are answered (R360). -/
def releaseAll (s : State) (lid : Nat) (l : Launch) : State :=
  let s := dropObjects (gatherFlags s lid (((s.x.nodes.filter fun q => q.2.lid == lid).map Prod.fst))) lid
  { s with
    x := dropExec s lid l.islands
    net := s.net.filter fun k => !pktEnds s.wafno lid k
    sis := s.sis.map fun q => (q.1, siWithout lid q.2)
    twalks := s.twalks.map fun q => (q.1, q.2.filter fun w => w.req.lid != lid)
    ftrk := s.ftrk.filter fun q => q.1.2 != lid
    frozen := s.frozen.filter fun z => z.lid != lid
    prog := s.prog.filter fun q => q.1.2 != lid
    svcs := s.svcs.filter fun v => v.lid != lid }

/-- A launch as it stands once all it held is released. -/
def ended (code : Nat) (l : Launch) : Launch :=
  { l with
    stat := .ended
    code := code
    catchQ := []
    counts := []
    caps := []
    pool := []
    objs := []
    secs := []
    probes := []
    cuts := []
    bytes := [] }

/-- The leading sequencer of a launch on this wafer tells those that it speaks to on other wafers (R17; log 9). -/
def tellHeads (s : State) (lid : Nat) (l : Launch) (m : PeerMsg) : State :=
  l.heads.foldl (fun s q => sendPkt s (.seqr l.lead) 1 (.seqr q.2) q.1 0 (.peer s.wafno lid m)) s

/-- A leading sequencer's message to that of another wafer of the launch. -/
def tellPeer (s : State) (lid : Nat) (l : Launch) (w : Nat) (m : PeerMsg) : State :=
  match tget l.peers w with
  | some f => sendPkt s (.seqr l.lead) 1 (.seqr f) w 0 (.peer s.wafno lid m)
  | none => s

/-- The wafers that only carry a launch's cut edges are told of them, or of none as it ends (R324; log 114). -/
def tellCarriers (s : State) (lid : Nat) (l : Launch) (cs : List Cut) : State :=
  l.carriers.foldl (fun s w => sendPkt s (.seqr l.lead) 1 .link w 0 (.peer s.wafno lid (.carry cs))) s

/-- A port without what stands there for a channel of cut edges: counts, tokens that have still to be sent, frames to be sent again. -/
def LPort.forget (l : LPort) (vc : Nat) : LPort :=
  let kept (q : List Outgoing) : List Outgoing := q.filter fun o => o.ch != vc
  { l with
    outq := kept l.outq
    redo := (kept (l.outq.take l.redo)).length
    unack := mapIf (fun u => u.ch == vc) (fun u => { u with flits := [], timer := none }) l.unack
    sent := tdel l.sent vc
    uncred := tdel l.uncred vc
    back := tdel l.back vc
    timing := tdel l.timing vc }

/-- The timers that a port keeps for a channel of cut edges. -/
def LPort.timersOf (l : LPort) (vc : Nat) : List Nat :=
  ((l.outq.filter fun o => o.ch == vc).filterMap Outgoing.timer) ++ ((l.unack.filter fun u => u.ch == vc).filterMap Unack.timer)
    ++ (tget l.timing vc).toList

/-- A cut edge is no longer used at the ports of this wafer by which it leaves and enters, so that a later launch finds its channel as new. -/
def forgetCut (s : State) (c : Cut) : State :=
  ((c.outPort s.wafno).toList ++ (c.inPort s.wafno).toList).foldl (fun s p => match tget s.ports p with
    | none => s
    | some l => { s with
        ports := tset s.ports p (l.forget c.vc)
        remotes := s.remotes.filter fun m => !(l.timersOf c.vc).contains m.n }) s

/-- A launch ends with a code, 0 when it completed: what it holds is released, its other wafers are told, and its DONE word is still to be
written. -/
def retire (s : State) (lid code : Nat) : State :=
  match launch? s lid with
  | none => s
  | some l =>
    if l.stat == .ended then s
    else
      let s := onCopy (l.cuts.foldl forgetCut s) l.ctx fun s => releaseAll s lid l
      modLaunch (tellCarriers (tellHeads s lid l (.ended code)) lid l []) lid (ended code)

/-- The DONE word of a launch (R79). -/
def doneVal (l : Launch) : Nat := l.code * 2 ^ 56 + (if l.queue.isSome then l.idx.toNat % 2 ^ 56 else 0)

/-- The tag of a sequencer's accesses for a launch it leads, to other wafers. -/
def leadTag (lid : Nat) : Nat := 2 ^ 16 + lid

/-- Traffic of a launch's nodes and engines to another wafer that has not been answered. -/
def remOf (lid : Nat) (m : Remote) : Bool :=
  match m.what with
  | .req r => r.lid == lid
  | .arrival _ _ l _ => l == lid
  | _ => false

/-- An access to another wafer of a graph or a stream of the launch, or its image on the way there, that has not been answered. -/
def orphanOf (lid : Nat) (m : Remote) : Bool :=
  match m.what with
  | .access t l => l == lid && t != leadTag lid
  | _ => false

/-- A launch's windows that no request in flight still needs are freed (R360). -/
def freeWindows (s : State) (lid : Nat) : State :=
  { s with wins := s.wins.filter fun q => q.2.lid != lid || windowBusy s q.1 }

/-- The wafer of a word that a sequencer writes, where it is another one than this; none for no word. -/
def farWord? (s : State) (ctx va : Nat) : Option Nat := if va = 0 then none else farWafer s ctx va (false, true)

/-- Something of an ended launch is still in flight, from this wafer or from another that has its image and is not dead, or a window of it
stands (R79, R360). -/
def inFlight (s : State) (lid : Nat) (l : Launch) : Bool :=
  s.net.any (pktOf lid) || s.lateAck.any (fun m => msgLid m == lid) || s.remotes.any (remOf lid) || s.wins.any (fun q => q.2.lid == lid)
    || l.unfin.any fun w => !s.dead.getLsbD w

/-- A wafer that another leads says that nothing of the launch is in flight here any more. -/
def tellFinished (s : State) (lid : Nat) (l : Launch) : State :=
  match l.from_ with
  | some w => tellPeer s lid l w .finished
  | none => s

/-- The DONE word is written once nothing of the launch is in flight, here or to another wafer, and its windows are freed; its packet completes,
and its LID is free again (R79, R82, R360). An access whose graph or stream is gone is answered in a step before (log 9). DESIGN CHOICE (log
135): a DONE write that faults leaves a record, and the launch ends all the same. -/
def finishLaunch (s : State) (lid : Nat) (l : Launch) : State :=
  let s := freeWindows s lid
  if s.remotes.any (orphanOf lid) then { s with remotes := dropFirst (orphanOf lid) s.remotes }
  else if inFlight s lid l || (l.done != 0 && awayFor s l.ctx l.done (false, true)) then s
  else farAccess s (.seqr l.lead) (leadTag lid) lid (farWord? s l.ctx l.done) fun s =>
    let s := if l.done = 0 then s else onCopy s l.ctx fun s =>
      match writeAt s l.ctx lid l.done (leBytes 8 (doneVal l)) with
      | .ok s => s
      | .error code => recordOnly s (.seqr l.lead) code l.ctx l.lead lid none l.done t00 0
    pktDone { tellFinished s lid l with launches := tdel s.launches lid } l.queue l.idx

/-- Every arming of every section has completed. -/
def armingsDone (l : Launch) : Bool := l.secs.all fun q => q.2.armed == q.2.completed

/-- A fault token of the launch waits to leave for a catch node on another wafer, or has come here and is on its way to it. -/
def awayCatch (s : State) (lid : Nat) (l : Launch) : Bool :=
  (!l.catchQ.isEmpty && l.catch_.any fun c => c.1 != s.wafno) || s.net.any fun p => match p.msg with
    | .peer _ n (.caught _) => n == lid
    | _ => false

/-- R82's conditions for the part of a running launch on this wafer, in the copy that holds its context. -/
def launchDone (s : State) (lid : Nat) (l : Launch) : Bool :=
  l.stat == .running && armingsDone l && !awayCatch s lid l && (s.x.graphs.all fun q => q.2.all fun g => g.lid != lid || g.ended)
    && !holdsToken s (ofLaunch s lid) && !outstanding s lid (fun _ => true)

/-- The word that a launch has ended, from a leading sequencer of another wafer: its packet, the wafer and the code. -/
def endWord (s : State) (lid : Nat) (l : Launch) : Option (Nat × Nat × Nat) :=
  s.net.findSome? fun p => match p.msg with
    | .peer w n (.ended code) => if n == lid && (tget l.heads w).isSome && arrived s p then some (p.id, w, code) else none
    | _ => none

/-- A launch ends because another wafer says so; the others are told (R17 step 5). -/
def endedAway (s : State) (lid : Nat) (q : Nat × Nat × Nat) : State :=
  retire (modLaunch (dropPkt s q.1) lid fun l => { l with heads := tdel l.heads q.2.1 }) lid q.2.2

/-! ## Rest on the other wafers of a launch (R82, R84; log 113) -/

/-- The section's part on this wafer is at rest: no node of its set holds a token or waits for an acknowledgement (R84). -/
def sectQuiet (s : State) (lid : Nat) (p : Slot → Bool) : Bool := !holdsToken s p && !outstanding s lid p

/-- What a question asks of this wafer. -/
def atRest (s : State) (lid : Nat) (l : Launch) : Option Nat → Bool
  | none => launchDone s lid l
  | some k => sectQuiet s lid (tgetD l.reach k []).contains

/-- The questions of other wafers that have arrived are answered. -/
def answerPolls (s : State) (lid : Nat) (l : Launch) : State :=
  s.net.foldl (fun t p => match p.msg with
    | .peer w n (.poll what wave) =>
      if n == lid && arrived s p then tellPeer (dropPkt t p.id) lid l w (.idle what wave (if atRest s lid l what then some l.moved else none)) else t
    | _ => t) s

/-- The answers to one question that have arrived are collected. -/
def takeIdles (s : State) (lid : Nat) (what : Option Nat) : State :=
  s.net.foldl (fun t p => match p.msg with
    | .peer w n (.idle k wave m) =>
      if n == lid && k == what && arrived s p then
        modLaunch (dropPkt t p.id) lid fun l => match tget l.polls what with
          | some q => if q.wave = wave then { l with polls := tset l.polls what { q with got := tset q.got w m } } else l
          | none => l
      else t
    | _ => t) s

/-- A new wave of a question goes to every other wafer. -/
def askWave (s : State) (lid : Nat) (l : Launch) (what : Option Nat) (before : Option (Tbl Nat (Option Nat))) : State :=
  let (n, s) := fresh s
  l.peers.foldl (fun s q => tellPeer s lid l q.1 (.poll what n)) (modLaunch s lid fun l => { l with polls := tset l.polls what ⟨n, [], before⟩ })

/-- What a wave found once every wafer has answered: the counts of tokens brought, this wafer's too; none while an answer is missing. -/
def Poll.full (q : Poll) (me : Nat) (l : Launch) : Option (Tbl Nat (Option Nat)) :=
  if l.peers.all fun w => (tget q.got w.1).isSome then some ((me, some l.moved) :: l.peers.map fun w => (w.1, tgetD q.got w.1 none)) else none

/-- Whether what a question asks about is at rest on every wafer: two waves in a row found rest and the same counts, so that no token moved
between them. What is at rest here is ok. -/
def restAll (s : State) (lid : Nat) (what : Option Nat) (ok : Bool) : State × Bool :=
  let s := takeIdles s lid what
  match launch? s lid with
  | none => (s, false)
  | some l =>
    if l.peers.isEmpty then (s, ok)
    else if !ok then (modLaunch s lid fun l => { l with polls := tdel l.polls what }, false)
    else match tget l.polls what with
      | none => (askWave s lid l what none, false)
      | some q => match q.full s.wafno l with
        | none => (s, false)
        | some g =>
          if (g.all fun x => x.2.isSome) && q.before == some g then (modLaunch s lid fun l => { l with polls := tdel l.polls what }, true)
          else (askWave s lid l what (some g), false)

/-- LAUNCH_COMPLETE (R82): a launch whose conditions hold on every wafer completes, one that another wafer ends does too, and an ended one has
its DONE word written. -/
def execLaunchComplete (lid : Nat) (s : State) : Host.Outcome State Fault Refusal :=
  .next (match launch? s lid with
    | none => s
    | some l =>
      if l.stat == .ended then finishLaunch s lid l
      else match endWord s lid l with
      | some q => endedAway s lid q
      | none =>
        let s := onCopy s l.ctx fun s =>
          let s := answerPolls s lid l
          if l.from_.isSome then s
          else
            let r := restAll s lid none (launchDone s lid l)
            if r.2 then retire r.1 lid 0 else r.1
        match launch? s lid with
        | some l => if l.stat == .ended then finishLaunch s lid l else s
        | none => s)

/-! ## Peer trackers (R214) -/

/-- The wafer tracker's net change goes to every peer tracker of the launch (R214). -/
def tellTrackers (s : State) (lid : Nat) (items : List CountItem) : State :=
  match launch? s lid with
  | some l => if items.isEmpty then s else l.wafers.foldl (fun s w => sendPkt s .wtrk 0 .wtrk w 0 (.peer s.wafno lid (.change items))) s
  | none => s

/-- TRACKER_FORWARD (R214): the field tracker's net change reaches the wafer tracker as one message, and from there its peers. -/
def execTrackerForward (f lid : Nat) (s : State) : Host.Outcome State Fault Refusal :=
  .next (
    let items := tgetD s.ftrk (f, lid) []
    let s := { s with ftrk := tdel s.ftrk (f, lid) }
    tellTrackers (modLaunch s lid fun l => { l with counts := addItems l.counts items }) lid items)

/-! ## The end of an arming (R84, R89, R109) -/

/-- The section's stamp is written by the sequencer of its field; a stamp that faults leaves a record and holds nothing back (R89). -/
def sectStamp (s : State) (lid : Nat) (l : Launch) (sect : Nat) (z : Sect) : State :=
  if l.sstamp = 0 then s
  else
    let va := l.sstamp + 8 * sect
    match writeAt s l.ctx lid va (leBytes 8 z.completed) with
    | .ok s => s
    | .error code => recordOnly s (.seqr z.field) code l.ctx z.field lid none va t00 0

/-- The launch's other wafers hear of a section's counts: WAITS reads them there, and an arming's end gathers the flags of the section's nodes
there (R89, R109; log 113). -/
def tellSect (s : State) (lid : Nat) (l : Launch) (sect : Nat) (z : Sect) : State :=
  l.peers.foldl (fun s q => tellPeer s lid l q.1 (.sect sect z.armed z.completed)) s

/-- The counts of another wafer's section arrive. -/
def takeSect (s : State) (lid k a c : Nat) : State :=
  match launch? s lid with
  | none => s
  | some l =>
    let s := if (tgetD l.farSecs k (0, 0)).2 < c then onCopy s l.ctx fun s => gatherFlags s lid (tgetD l.reach k []) else s
    modLaunch s lid fun l => { l with farSecs := tset l.farSecs k (a, c) }

/-- What a launch's peers say of its sections and of what is in flight there, once it has arrived, is taken. -/
def letSects (s : State) : State :=
  s.net.foldl (fun t p => match p.msg with
    | .peer _ lid (.sect k a c) => if arrived t p then takeSect (dropPkt t p.id) lid k a c else t
    | .peer w lid .finished => if arrived t p then modLaunch (dropPkt t p.id) lid (fun l => { l with unfin := l.unfin.erase w }) else t
    | _ => t) s

/-- An arming of a section ends: the flags of its node set are gathered, the completed count advances and the stamp is written. -/
def endArming (s : State) (lid : Nat) (l : Launch) (sect : Nat) (z : Sect) : State :=
  let z := { z with completed := z.completed + 1, cur := none, emitted := [] }
  let s := gatherFlags s lid z.nodes
  sectStamp (tellSect (modLaunch s lid fun l => { l with secs := tset l.secs sect z }) lid l sect z) lid l sect z

/-- R84's conditions for the arming in progress, as this wafer sees them. -/
def armingDone (s : State) (lid : Nat) (z : Sect) : Bool :=
  match z.cur with
  | none => false
  | some n =>
    z.srcs.all (fun sl => tgetD z.emitted sl 0 == n) && sectQuiet s lid z.nodes.contains

/-- ARMING_COMPLETE (R84): the arming in progress of a section completes. -/
def execArmingComplete (lid sect : Nat) (s : State) : Host.Outcome State Fault Refusal :=
  .next (match launch? s lid with
    | none => s
    | some l => match tget l.secs sect with
      | none => s
      | some z =>
        if l.sstamp != 0 && awayFor s l.ctx (l.sstamp + 8 * sect) (false, true) then s
        else onCopy s l.ctx fun s =>
          let to_ := if l.sstamp = 0 then none else farWord? s l.ctx (l.sstamp + 8 * sect)
          let r := if farAsked s (.seqr z.field) (leadTag lid) to_ then (s, true) else restAll s lid (some sect) (armingDone s lid z)
          match launch? r.1 lid with
          | some l => if r.2 then farAccess r.1 (.seqr z.field) (leadTag lid) lid to_ fun s => endArming s lid l sect z else r.1
          | none => r.1)

end Sys2Proof.Machine
end

