-- ==== Sys2Proof/Machine/Graphs.lean ====
section
/-! DEFINITION. Kernel graphs: the graph that the focus names, its registers, faults of its words (R97), the scalar words and branches (R85,
R86), and which graph issues next (R69, R99, R100, R399). -/

namespace Sys2Proof.Machine

open Sys2Proof

/-! ## The focused graph -/

/-- The resident graphs of a field. -/
def graphsOf (s : State) (f : Nat) : List Graph := tgetD s.x.graphs f []

/-- The sequencer bookkeeping of a field. -/
def seqrOf (s : State) (f : Nat) : Seqr := tgetD s.seqrs f ⟨none, 0, 0, 0⟩

/-- The graph whose word is being run, with its field: a resident graph or the supervisor graph. -/
def curGraph (s : State) : Option (Nat × Graph) :=
  match s.focus with
  | .seq f (some i) => (graphsOf s f)[i]?.map fun g => (f, g)
  | .seq f none => (seqrOf s f).sup.map fun g => (f, g)
  | _ => none

/-- The state with the focused graph replaced. -/
def putGraph (s : State) (g : Graph) : State :=
  match s.focus with
  | .seq f (some i) => { s with x := { s.x with graphs := tset s.x.graphs f (setAt (graphsOf s f) i g) } }
  | .seq f none => { s with seqrs := tset s.seqrs f { seqrOf s f with sup := some g } }
  | _ => s

/-- A word of the focused graph. -/
def seqWord (s : State) (k : Nat → Graph → State) : State :=
  match curGraph s with
  | some (f, g) => k f g
  | none => s

/-- A scalar register. -/
def Graph.reg (g : Graph) (r : BitVec 4) : W64 := (g.regs[r.toNat]?).getD 0

/-- The graph with a scalar register written. -/
def Graph.setReg (g : Graph) (r : BitVec 4) (v : W64) : Graph := { g with regs := setAt g.regs r.toNat v }

/-- The graph at its next word. -/
def Graph.next (g : Graph) : Graph := { g with pc := g.pc + 1, wait := none }

/-- The word waits, and the graph gives up the sequencer (R69). -/
def waitFor (s : State) (g : Graph) (w : Wait) : State := putGraph s { g with wait := some w }

/-- The second operand of a scalar word (R64, R85). -/
def opndOf (w : SW) (g : Graph) : W64 := if w.imm.getLsbD 43 then (w.imm.extractLsb' 0 43).signExtend 64 else g.reg w.b

/-! ## Faults of a word (R97) -/

/-- The configuration faults, which abort the launch (R97). -/
def cfgCode (code : Nat) : Bool := code ∈ [Code.cfgOpcode, Code.cfgField, Code.cfgRoute, Code.cfgPool, Code.priv]

/-- A fault raised by a word: a configuration fault aborts the graph's launch; any other parks the graph at the word. -/
def graphFault (s : State) (f : Nat) (g : Graph) (code addr : Nat) : State :=
  if cfgCode code && !g.sup then
    retire (reportFault s { recBase (.seqr f) code 0 2 g.ctx f g.lid with addr := addr }).2 g.lid code
  else
    let (i, s) := reportFault s { recBase (.seqr f) code 0 0 g.ctx f g.lid with
      addr := addr
      act := if g.sup then .none_ else .graph f g.lid }
    putGraph s { g with park := some i, wait := none }

/-- FREPLAY of a parked graph: it executes its word again (R97, R417). -/
def replayGraph (s : State) (f lid rid : Nat) : State :=
  let l := mapIf (fun g : Graph => g.lid == lid && g.park == some rid) (fun g => { g with park := none, since := ctr s (.seqr f) }) (graphsOf s f)
  { s with x := { s.x with graphs := tset s.x.graphs f l } }

/-- The graph is parked with this record. -/
def graphParked (s : State) (f lid rid : Nat) : Bool := (graphsOf s f).any fun g => g.lid == lid && g.park == some rid

/-! ## Scalar words (R85) -/

/-- A scalar word that writes S[D] and goes on. -/
def scalar (s : State) (w : SW) (v : Graph → W64) : State := seqWord s fun _ g => putGraph s (g.setReg w.d (v g)).next

/-- SLI (R85). -/
def execSli (w : SW) (s : State) : Host.Outcome State Fault Refusal := .next (scalar s w fun _ => w.imm.signExtend 64)

/-- SADD (R85). -/
def execSadd (w : SW) (s : State) : Host.Outcome State Fault Refusal := .next (scalar s w fun g => g.reg w.a + opndOf w g)

/-- SSUB (R85). -/
def execSsub (w : SW) (s : State) : Host.Outcome State Fault Refusal := .next (scalar s w fun g => g.reg w.a - opndOf w g)

/-- SMUL (R85). -/
def execSmul (w : SW) (s : State) : Host.Outcome State Fault Refusal := .next (scalar s w fun g => g.reg w.a * opndOf w g)

/-- SAND (R85). -/
def execSand (w : SW) (s : State) : Host.Outcome State Fault Refusal := .next (scalar s w fun g => g.reg w.a &&& opndOf w g)

/-- SOR (R85). -/
def execSor (w : SW) (s : State) : Host.Outcome State Fault Refusal := .next (scalar s w fun g => g.reg w.a ||| opndOf w g)

/-- SXOR (R85). -/
def execSxor (w : SW) (s : State) : Host.Outcome State Fault Refusal := .next (scalar s w fun g => g.reg w.a ^^^ opndOf w g)

/-- SSHL (R85): by opnd[5:0]. -/
def execSshl (w : SW) (s : State) : Host.Outcome State Fault Refusal := .next (scalar s w fun g => g.reg w.a <<< ((opndOf w g).toNat % 64))

/-- SSHR (R85): by opnd[5:0], zero-filled. -/
def execSshr (w : SW) (s : State) : Host.Outcome State Fault Refusal := .next (scalar s w fun g => g.reg w.a >>> ((opndOf w g).toNat % 64))

/-- The second operand of SFADD as an F64 word: an immediate is converted, which is exact (R85). -/
def sfaddOpnd (w : SW) (g : Graph) : Nat :=
  if w.imm.getLsbD 43 then
    let v := (w.imm.extractLsb' 0 43).toInt
    if v = 0 then 0 else (rnd F64 (v < 0) v.natAbs 0 0 false).1
  else (g.reg w.b).toNat

/-- The sum of SFADD and the flags it raises (R85): to nearest even, a NaN result the default NaN. -/
def sfaddOf (w : SW) (g : Graph) : Nat × BitVec 5 :=
  let r := farith 0 F64 0 (g.reg w.a).toNat (sfaddOpnd w g) 0
  (if (fdec F64 r.1).isNaN then 0x7FF8000000000000 else r.1, r.2)

/-- SFADD (R85): the sum to S[D], the flags into the launch's flag word of this field (R143). -/
def execSfadd (w : SW) (s : State) : Host.Outcome State Fault Refusal :=
  .next (seqWord s fun f g =>
    let r := sfaddOf w g
    let s := if g.sup then s else orWord s g.lid f r.2
    putGraph s (g.setReg w.d (BitVec.ofNat 64 r.1)).next)

/-! ## Branches and calls (R86) -/

/-- A branch: to the target where the condition holds, else to the next word. -/
def branch (s : State) (w : SW) (c : Graph → Bool) : State :=
  seqWord s fun _ g => putGraph s { g with pc := if c g then w.imm.toNat else g.pc + 1 }

/-- SBR (R86). -/
def execSbr (w : SW) (s : State) : Host.Outcome State Fault Refusal := .next (branch s w fun _ => true)

/-- SBZ (R86). -/
def execSbz (w : SW) (s : State) : Host.Outcome State Fault Refusal := .next (branch s w fun g => g.reg w.a == 0)

/-- SBNZ (R86). -/
def execSbnz (w : SW) (s : State) : Host.Outcome State Fault Refusal := .next (branch s w fun g => g.reg w.a != 0)

/-- SBLT (R86): signed. -/
def execSblt (w : SW) (s : State) : Host.Outcome State Fault Refusal := .next (branch s w fun g => (g.reg w.a).slt (g.reg w.b))

/-- SCALL (R86): the return index to S[D], then the target. -/
def execScall (w : SW) (s : State) : Host.Outcome State Fault Refusal :=
  .next (seqWord s fun _ g => putGraph s { g.setReg w.d (BitVec.ofNat 64 (g.pc + 1)) with pc := w.imm.toNat })

/-- SRET (R86): to the index in S[A]; one outside the graph aborts the launch. -/
def execSret (w : SW) (s : State) : Host.Outcome State Fault Refusal :=
  .next (seqWord s fun f g =>
    if g.words.length ≤ (g.reg w.a).toNat then graphFault s f g Code.cfgField 0 else putGraph s { g with pc := (g.reg w.a).toNat })

/-! ## SYIELD and SHALT (R96) -/

/-- The rotation of a field's sequencer moves on from the graph chosen last (R99). -/
def rotate (s : State) (f : Nat) : State := { s with seqrs := tset s.seqrs f { seqrOf s f with run := 0 } }

/-- SYIELD (R96): behind every other ready graph of its priority. -/
def execSyield (_ : SW) (s : State) : Host.Outcome State Fault Refusal :=
  .next (seqWord s fun f g => let s := putGraph s g.next; if g.sup then s else rotate s f)

/-- SHALT (R96): the graph ends in this field. -/
def execShalt (_ : SW) (s : State) : Host.Outcome State Fault Refusal := .next (seqWord s fun _ g => putGraph s { g with ended := true })

/-! ## Which graph issues (R69, R97, R99, R100, R399, R405) -/

/-- A record of the field's sequencer waits for room in the ring (R403). -/
def seqrHolds (s : State) (f : Nat) : Bool := unitHolds s (.seqr f)

/-- The graph waits for nothing and is not parked or ended. -/
def Graph.idle (g : Graph) : Bool := !g.ended && g.wait.isNone && g.park.isNone

/-- A user graph is ready to issue: its context is live, its region is not frozen, its launch runs, its sequencer holds no record. -/
def graphReady (s : State) (f : Nat) (g : Graph) : Bool :=
  g.idle && ctxRuns s g.ctx && !isFrozen s f g.lid && !seqrHolds s f && running s g.lid

/-- The effective priority (R100). -/
def Graph.eff (g : Graph) : Nat := min 3 (g.prio + g.boost)

/-- The ready graphs of a field of the highest effective priority, each with its place in the rotation and in the field's list; the list keeps
the order of the rotation. -/
def topGraphs (s : State) (f : Nat) : List (Nat × Nat) :=
  let l := (graphsOf s f).zipIdx.filter fun q => graphReady s f q.1
  let top := l.foldl (fun m q => max m q.1.eff) 0
  (l.filter fun q => q.1.eff == top).map fun q => (q.1.seat, q.2)

/-- The next number of an ascending list after a, round robin. -/
def nextAfter (a : Nat) (l : List Nat) : Option Nat := (first? (fun i => a < i) l).orElse fun _ => l.head?

/-- The graph that issues next: the supervisor graph first, then the graph chosen last for up to 64 words, then the next in rotation; none
while a graph that has had its 64 words has still to be rotated out (R99). -/
def pickGraph (s : State) (f : Nat) : Option (Option Nat) :=
  let q := seqrOf s f
  if q.sup.any Graph.idle then some none
  else
    let l := topGraphs s f
    match (if q.run = 0 then none else tget l q.lastG) with
    | some i => if q.run < 64 then some (some i) else none
    | none => ((nextAfter q.lastG (l.map Prod.fst)).bind (tget l)).map some

/-- The state in which a picked graph is in focus and counted as chosen. -/
def chooseGraph (s : State) (f : Nat) (i : Option Nat) : State :=
  let s := { s with focus := .seq f i }
  match i with
  | none => s
  | some n =>
    let q := seqrOf s f
    match (graphsOf s f)[n]? with
    | some g =>
      let s := { s with seqrs := tset s.seqrs f { q with lastG := g.seat, run := if q.lastG = g.seat && q.run != 0 then q.run + 1 else 1 } }
      putGraph s { g with boost := 0, since := ctr s (.seqr f) }
    | none => s

/-- GRAPH_QUANTUM (R99): the graph that has had 64 consecutive words is rotated out. -/
def execGraphQuantum (f : Nat) (s : State) : Host.Outcome State Fault Refusal := .next (if 64 ≤ (seqrOf s f).run then rotate s f else s)

end Sys2Proof.Machine
end

