-- ==== Sys2Proof/Machine/Image.lean ====
section
/-! DEFINITION. The configuration image: its records (R59 to R62), and the checks of the loader in image order, then across the image (R56, R58,
R63, R83, R95, R107, R127, R204, R207, R211, R215, R219, R220). -/

namespace Sys2Proof.Machine

open Sys2Proof

/-! ## Records (R59 to R62) -/

/-- A core record (R60); ok says that its reserved bits are zero. -/
structure CoreR where
  off    : Nat
  core   : CoreId
  waf    : Nat
  carve  : Nat
  nword  : Nat
  nroute : Nat
  grant  : List Nat
  slots  : List Nat
  words  : List W64
  stages : List Nat
  routes : List W32
  ok     : Bool
  deriving DecidableEq, Repr, Inhabited

/-- An object record (R61). -/
structure ObjR where
  off  : Nat
  obj  : Obj
  waf  : Nat
  len  : Nat
  base : Nat
  targ : Nat
  ok   : Bool
  deriving DecidableEq, Repr, Inhabited

/-- A data record (R61). -/
structure DataR where
  off  : Nat
  kind : Nat
  core : CoreId
  waf  : Nat
  byte : Nat
  data : List Byte
  ok   : Bool
  deriving DecidableEq, Repr, Inhabited

/-- A kernel record (R62). -/
structure KernR where
  off   : Nat
  f     : Nat
  waf   : Nat
  words : List W64
  ok    : Bool
  deriving DecidableEq, Repr, Inhabited

/-- A record of an image. -/
inductive Rec where
  | core (r : CoreR)
  | obj (r : ObjR)
  | data (r : DataR)
  | kern (r : KernR)
  | cut (off : Nat) (c : Cut) (ok : Bool)
  deriving DecidableEq, Repr, Inhabited

/-- An image: its header's 64 bytes, its records, and the offset of the first record that does not lie wholly within it. -/
structure Img where
  hdr  : List Byte
  recs : List Rec
  torn : Option Nat
  deriving DecidableEq, Repr, Inhabited

/-- Rounds up to a multiple of 8. -/
def pad8 (n : Nat) : Nat := alignUp n 8

/-- The little-endian values of n items of w bytes from an offset. -/
def itemsAt (b : List Byte) (i w : Nat) : Nat → List Nat
  | 0 => []
  | n + 1 => leAt b i w :: itemsAt b (i + w) w n

/-- The set bits of a bitmap of n bits. -/
def setBits (v n : Nat) : List Nat := (List.range n).filter fun i => bit v i

/-- A core record with its length (R60). -/
def parseCore (b : List Byte) (o : Nat) : CoreR × Nat :=
  let nw := leAt b (o + 4) 2
  let nr := leAt b (o + 6) 2 % 512
  let st := o + 64 + 8 * nw
  let rt := st + pad8 nw
  (⟨o, ⟨leAt b o 1, leAt b (o + 1) 1, leAt b (o + 2) 1⟩, leAt b (o + 6) 2 / 4096, leAt b (o + 3) 1, nw, nr, setBits (leAt b (o + 8) 24) 192,
    setBits (leAt b (o + 32) 32) 256, (itemsAt b (o + 64) 8 nw).map (BitVec.ofNat 64), itemsAt b st 1 nw,
    (itemsAt b rt 4 nr).map (BitVec.ofNat 32), leAt b (o + 6) 2 / 512 % 8 == 0⟩, 64 + 8 * nw + pad8 nw + pad8 (4 * nr))

/-- An object record (R61). -/
def parseObj (b : List Byte) (o : Nat) : ObjR :=
  let k := leAt b o 1
  if k = 5 then ⟨o, ⟨5, ⟨leAt b (o + 1) 1, 0, 0⟩, 0, 0, 0⟩, leAt b (o + 2) 1, leAt b (o + 4) 4, leAt b (o + 8) 8, leAt b (o + 16) 8,
    leAt b (o + 3) 1 == 0 && zeros b (o + 24) (o + 31)⟩
  else ⟨o, ⟨k, ⟨leAt b (o + 1) 1, leAt b (o + 2) 1, leAt b (o + 3) 1⟩, leAt b (o + 4) 4, leAt b (o + 8) 4, leAt b (o + 12) 1⟩, leAt b (o + 13) 1,
    0, 0, 0, zeros b (o + 14) (o + 31)⟩

/-- A data record with its length (R61). -/
def parseData (b : List Byte) (o : Nat) : DataR × Nat :=
  let n := leAt b (o + 8) 4
  (⟨o, leAt b o 1, ⟨leAt b (o + 1) 1, leAt b (o + 2) 1, leAt b (o + 3) 1⟩, leAt b (o + 12) 1, leAt b (o + 4) 4, (b.drop (o + 16)).take n,
    zeros b (o + 13) (o + 15) && n % 8 == 0⟩, 16 + pad8 n)

/-- A kernel record with its length (R62). -/
def parseKern (b : List Byte) (o : Nat) : KernR × Nat :=
  let n := leAt b (o + 4) 4
  (⟨o, leAt b o 1, leAt b (o + 1) 1, (itemsAt b (o + 8) 8 (min n 65536)).map (BitVec.ofNat 64), zeros b (o + 2) (o + 3) && 1 ≤ n && n ≤ 65536⟩,
    8 + 8 * n)

/-- A cut-edge record (R62). -/
def parseCut (b : List Byte) (o : Nat) : Cut × Bool :=
  (⟨leAt b o 1, ⟨⟨leAt b (o + 1) 1, leAt b (o + 2) 1, leAt b (o + 3) 1⟩, leAt b (o + 4) 1, leAt b (o + 5) 1⟩, leAt b (o + 6) 1,
    ⟨⟨leAt b (o + 7) 1, leAt b (o + 8) 1, leAt b (o + 9) 1⟩, leAt b (o + 10) 1, leAt b (o + 11) 1⟩, leAt b (o + 12) 2, leAt b (o + 14) 1 + 1, []⟩,
   leAt b (o + 15) 1 == 0)

/-- Records still to come: core, object, data, kernel, cut-edge. -/
structure Counts where
  core : Nat
  obj  : Nat
  data : Nat
  kern : Nat
  cut  : Nat
  deriving DecidableEq, Repr

/-- The records from an offset on, and the offset of the first that passes the image's end; fuel bounds them. -/
def parseRecs (b : List Byte) : Nat → Nat → Counts → List Rec × Option Nat
  | 0, o, c => ([], if c = ⟨0, 0, 0, 0, 0⟩ then none else some o)
  | k + 1, o, c =>
    let go (r : Rec) (n : Nat) (c : Counts) : List Rec × Option Nat :=
      if b.length < o + n then ([], some o) else let q := parseRecs b k (o + n) c; (r :: q.1, q.2)
    if c.core != 0 then let p := parseCore b o; go (.core p.1) p.2 { c with core := c.core - 1 }
    else if c.obj != 0 then go (.obj (parseObj b o)) 32 { c with obj := c.obj - 1 }
    else if c.data != 0 then let p := parseData b o; go (.data p.1) p.2 { c with data := c.data - 1 }
    else if c.kern != 0 then let p := parseKern b o; go (.kern p.1) p.2 { c with kern := c.kern - 1 }
    else if c.cut != 0 then let p := parseCut b o; go (.cut o p.1 p.2) 16 { c with cut := c.cut - 1 }
    else ([], none)

/-- An image read from its bytes. -/
def parseImg (b : List Byte) : Img :=
  let r := parseRecs b (b.length / 8) 64 ⟨leAt b 8 4, leAt b 12 4, leAt b 16 4, leAt b 20 4, leAt b 24 4⟩
  ⟨b.take 64, r.1, r.2⟩

/-! ## The header (R59) -/

def Img.span (i : Img) : Bool := bit (leAt i.hdr 6 2) 1
def Img.hasCatch (i : Img) : Bool := bit (leAt i.hdr 6 2) 0
def Img.nsect (i : Img) : Nat := leAt i.hdr 44 4
def Img.waiters (i : Img) : Nat := leAt i.hdr 40 4
def Img.sstamp (i : Img) : Nat := leAt i.hdr 48 8

/-- CATCH: the wafer and slot it names. -/
def Img.catchSlot (i : Img) : Nat × Slot :=
  let v := leAt i.hdr 36 4
  (bits v 7 4, ⟨⟨bits v 31 26, bits v 25 21, bits v 20 16⟩, bits v 15 11, bits v 10 8⟩)

/-- LENGTH of a header. -/
def hdrLen (h : List Byte) : Nat := leAt h 28 4

/-- The fields of a header that can be judged without the records (R59, R274). -/
def hdrGood (h : List Byte) : Bool :=
  leAt h 0 4 == 0x58434731 && leAt h 4 2 == 1 && leAt h 6 2 < 4 && 1 ≤ leAt h 8 4 && hdrLen h % 64 == 0 && 64 ≤ hdrLen h
    && leAt h 32 4 % 8 == 0 && leAt h 32 4 ≤ 65536 && leAt h 36 4 % 16 == 0 && leAt h 40 4 ≤ 2 ^ 24 && leAt h 44 4 ≤ 256 && leAt h 48 8 % 8 == 0
    && zeros h 56 63 && (bit (leAt h 6 2) 1 || (leAt h 24 4 == 0 && bits (leAt h 36 4) 7 4 == 0))

def Img.cores (i : Img) : List CoreR := i.recs.filterMap fun r => match r with
  | .core c => some c
  | _ => none
def Img.objects (i : Img) : List ObjR := i.recs.filterMap fun r => match r with
  | .obj c => some c
  | _ => none
def Img.datas (i : Img) : List DataR := i.recs.filterMap fun r => match r with
  | .data c => some c
  | _ => none
def Img.kerns (i : Img) : List KernR := i.recs.filterMap fun r => match r with
  | .kern c => some c
  | _ => none
def Img.cutRecs (i : Img) : List Cut := i.recs.filterMap fun r => match r with
  | .cut _ c _ => some c
  | _ => none

/-- With SPAN clear every record describes the wafer that accepted the launch (R59). -/
def onWafer (span : Bool) (me w : Nat) : Bool := !span || w == me

/-! ## Nodes of an image -/

/-- A node as the image places it: its word's offset, wafer, slot, word and stage. -/
structure INode where
  off   : Nat
  waf   : Nat
  sl    : Slot
  word  : W64
  stage : Nat
  deriving DecidableEq, Repr, Inhabited

/-- The nodes of a core record. -/
def CoreR.nodes (r : CoreR) (waf : Nat) : List INode :=
  ((r.slots.zip (r.words.zip r.stages)).zipIdx).map fun q => ⟨r.off + 64 + 8 * q.2, waf, ⟨r.core, q.1.1 / 8, q.1.1 % 8⟩, q.1.2.1, q.1.2.2⟩

/-- The wafer a record lies on. -/
def wafOf (span : Bool) (me w : Nat) : Nat := if span then w else me

/-- Every node of an image, in image order. -/
def Img.nodes (i : Img) (me : Nat) : List INode := i.cores.flatMap fun r => r.nodes (wafOf i.span me r.waf)

/-- The cut edges of an image, with wafers as they are. -/
def Img.cutEdges (i : Img) : List Cut := i.cutRecs

/-! ## Switch tables (R56, R58, R173, R181, R206, R230, R258, R275, R342, R384, R434) -/

/-- A routing word keeps R56's layout. -/
def routeOk (w : W32) : Bool :=
  let v := w.toNat
  match rKind w with
  | 0 => v == 0
  | 1 => bits v 24 22 < 6 && bits v 10 0 == 0 && (4 ≤ bits v 24 22 || bits v 16 11 == 0)
  | 2 => bits v 11 0 == 0 && !(bits v 27 26 == 3 && bits v 29 28 != 0) && !(bits v 18 17 == 3 && bits v 20 19 != 0)
      && !(bits v 27 26 == 3 && bits v 18 17 == 3)
  | _ => false

/-- The instruction refuses a binding on X or Y, which it never drives (R173, R206, R230, R258, R275, R287, R342, R384). -/
def refusesPort (op port : Nat) : Bool :=
  if port == 4 then
    op == 0x54 || (0x95 ≤ op && op ≤ 0x97) || (0xB0 ≤ op && op ≤ 0xB2) || op == 0xB8 || (0xBA ≤ op && op ≤ 0xBD) || (0xC0 ≤ op && op ≤ 0xC5)
      || (0xD0 ≤ op && op ≤ 0xD6)
  else op == 0x54 || (0x70 ≤ op && op ≤ 0x72) || (0x80 ≤ op && op < 0x88 && op != 0x82 && op != 0x83)

/-- The instruction can place a token on X or Y: of the sorted streams, folds and counts only ISECT drives Y (R175 to R185, R209, R210, R220
to R222). -/
def drivesPort (op port : Nat) : Bool :=
  !refusesPort op port &&
    (if port == 4 then op ∉ [0x9D, 0x9E, 0x9F]
    else op ∉ [0x58, 0x59, 0x5A, 0x5B, 0x60, 0x62, 0x63, 0x64, 0x73, 0x74, 0x75, 0x76, 0x77, 0x78])

/-- A context word can place a token on X or Y: a CONST without operand ports fires once, on X alone (R174). -/
def wordDrives (w : W64) (port : Nat) : Bool :=
  drivesPort (opOf w) port && !(port == 5 && opOf w == 0x53 && (operandPorts w).isEmpty)

/-- A binding word's element, port and line. -/
def bindsOf (ws : List W32) : List (Nat × Nat × Nat) :=
  ws.filterMap fun w => if rKind w == 1 then some (bits w.toNat 29 25, bits w.toNat 24 22, bits w.toNat 21 17) else none

/-- The switch-box words. -/
def boxesOf (ws : List W32) : List Nat := ws.filterMap fun w => if rKind w == 2 then some w.toNat else none

/-- An element of a list occurs in it again later. -/
def twice {α : Type} [DecidableEq α] : List α → Bool
  | [] => false
  | a :: l => l.contains a || twice l

/-- UNION, ISECT and MINUS, each of which occupies an intersection unit of its cluster (R181). -/
def isWalker (w : W64) : Bool := 0x60 ≤ opOf w && opOf w ≤ 0x62

/-- The inputs of a core, as element and port, that cut edges feed. -/
def cutIns (cuts : List Cut) (waf : Nat) (c : CoreId) : List (Nat × Nat) :=
  (cuts.filter fun u => u.cw == waf && u.dst.core == c).map fun u => (u.dst.e, u.dst.port)

/-- The buffers that the outputs of a core that carry cut edges draw from its pool (R62, R119, R339). -/
def cutPool (cuts : List Cut) (waf : Nat) (c : CoreId) : Nat :=
  ((cuts.filter fun u => u.pw == waf && u.src.core == c).map Cut.depth).sum

/-- The code that a core's switch table is refused with (R58, R173 and its like, R181, then the pools), none when it stands. nodes are the
core's nodes by element and word, held those of other launches; cutIn its inputs that cut edges feed, and pool the buffers of its cut edges;
inPart says that a field is in the partition. A P port counts as bound for every node of its element (R106; log 107). -/
def routesBad (c : CoreId) (nodes held : List (Nat × W64)) (cutIn : List (Nat × Nat)) (pool : Nat) (ws : List W32) (inPart : Nat → Bool) :
    Option Nat :=
  let bs := bindsOf ws
  let ins := bs.filter fun b => b.2.1 < 4
  let outs := bs.filter fun b => 4 ≤ b.2.1
  let boxes := boxesOf ws
  let drivers := (outs.map fun b => b.2.2) ++ (boxes.filterMap fun v => if bits v 18 17 == 3 then some (bits v 16 12) else none)
  let segs := boxes.filterMap fun v => if bits v 18 17 != 3 then some (bits v 20 12) else none
  let at_ (e : Nat) : List W64 := (nodes.filter fun n => n.1 == e).map Prod.snd
  let all_ (e : Nat) : List W64 := ((nodes ++ held).filter fun n => n.1 == e).map Prod.snd
  let wantsP (w : W64) : Bool := (operandPorts w).contains 3
  let outDriven (line : Nat) : Bool := drivers.contains line
  let lineOuts := twice (outs.map fun b => b.2.2)
  let lineMix := outs.any fun b => boxes.any fun v => bits v 18 17 == 3 && bits v 16 12 == b.2.2
  let leaves := segs.any fun v => match coreAway c (bits v 8 7) (segLen (bits v 6 5)) with
    | some d => !inPart d.f
    | none => true
  let pBad := (List.range 32).any fun e =>
    let bound := ins.any fun b => b.1 == e && b.2.1 == 3
    let want := (at_ e).any wantsP
    (bound && !(all_ e).any wantsP) || (want && !bound && !cutIn.contains (e, 3))
  let abcBad := ins.any fun b => b.2.1 < 3 && !((all_ b.1).any fun w => (operandPorts w).contains b.2.1)
  let never := outs.any fun b => ((at_ b.1).any fun w => refusesPort (opOf w) b.2.1) && !((all_ b.1).any fun w => wordDrives w b.2.1)
  if twice (ins.map fun b => (b.1, b.2.1)) || lineOuts || lineMix || twice segs || (ins.any fun b => !outDriven b.2.2) || leaves || pBad || abcBad
    || never then some Code.cfgRoute
  else if 2048 < pool + ((ws.filterMap fun w => if rKind w == 1 && 4 ≤ bits w.toNat 24 22 then some (bits w.toNat 16 11 + 1) else none).sum)
    || (List.range 4).any (fun q => (nodes.any fun n => n.1 / 8 == q && isWalker n.2)
      && 2 < ((nodes ++ held).filter fun n => n.1 / 8 == q && isWalker n.2).length) then some Code.cfgPool
  else none

/-! ## Checks in image order (R16, R59 to R63) -/

/-- What the checks of a record need to know: the machine, the launch, whether SPAN is set, the records of the whole image, and under CFG the
launch's cut edges, which the image does not hold. -/
structure Chk where
  s    : State
  lid  : Nat
  l    : Launch
  span : Bool
  img  : Img
  old  : List Cut

/-- The launch's partition. -/
def Chk.part (k : Chk) : Nat := k.l.part

/-- The copy of the execution state that holds a context: the shadow, or else the live one. -/
def copyOf (s : State) (ctx : Nat) : Exec :=
  match partOfCtx s ctx with
  | some p => if (ctxStat s p).shad == some ctx then s.sh else s.x
  | none => s.x

/-- The nodes of other launches on a core. -/
def Chk.held (k : Chk) (c : CoreId) : List (Nat × W64) :=
  ((copyOf k.s k.l.ctx).nodes.filter fun q => q.1.core == c && q.2.lid != k.lid).map fun q => (q.1.e, q.2.word)

/-- A place that a record names lies in the launch's partition (R16, R59). -/
def Chk.place (k : Chk) (w f : Nat) : Bool :=
  f < 48 && (if k.span && w != k.s.wafno then w < 16 && ((tget k.s.parts k.part).any fun p => p.wmask.getLsbD w)
    else (k.span || w == 0) && (partFields k.s k.part).contains f)

/-- A field is in the partition, as far as this wafer knows. -/
def Chk.inPart (k : Chk) (w f : Nat) : Bool := (k.span && w != k.s.wafno) || (partFields k.s k.part).contains f

/-- The code of a decoder's refusal (R63). -/
def Reject.code : Reject → Nat
  | .cfgOpcode => Code.cfgOpcode
  | .priv => Code.priv
  | .cfgField => Code.cfgField

/-- The first word of a list that is refused, with its code and offset. -/
def firstBad (f : W64 → Option Nat) : List W64 → Nat → Option (Nat × Nat)
  | [], _ => none
  | w :: l, o => match f w with
    | some c => some (c, o)
    | none => firstBad f l (o + 8)

/-- A core record's checks (R60, R63): its head, its words, its stages, its routing words, then its routes and pools. -/
def checkCore (k : Chk) (seen : List (Nat × CoreId)) (r : CoreR) : Option (Nat × Nat) :=
  let me := wafOf k.span k.s.wafno r.waf
  if !(r.ok && k.place r.waf r.core.f && isCompute r.core && r.carve ≤ 64 && 1 ≤ r.nword && r.nword ≤ 256 && r.slots.length == r.nword
      && r.nroute ≤ 256 && !seen.contains (me, r.core)) then some (Code.cfgField, r.off)
  else match firstBad (fun w => match decodeCtx w with
      | .ok _ => none
      | .error e => some (Reject.code e)) r.words (r.off + 64) with
    | some b => some b
    | none =>
      if r.stages.any fun g => 63 < g then some (Code.cfgField, r.off)
      else
        let rt := r.off + 64 + 8 * r.nword + pad8 r.nword
        match first? (fun q : W32 × Nat => !routeOk q.1) r.routes.zipIdx with
        | some q => some (Code.cfgField, rt + 4 * q.2)
        | none =>
          let nodes := (r.nodes me).map fun n => (n.sl.e, n.word)
          let cuts := k.img.cutEdges ++ k.old
          let both := (bindsOf r.routes).any fun b => k.old.any fun u => (u.pw == me && u.src == ⟨r.core, b.1, b.2.1⟩)
            || (u.cw == me && u.dst == ⟨r.core, b.1, b.2.1⟩)
          if both then some (Code.cfgRoute, r.off)
          else match routesBad r.core nodes (k.held r.core) (cutIns cuts me r.core) (cutPool cuts me r.core) r.routes (k.inPart r.waf) with
          | some c => some (c, r.off)
          | none => if r.grant.any fun g => 192 - r.carve ≤ g then some (Code.cfgPool, r.off) else none

/-- The entries of a core's share table with those of some share records, each once (R296). -/
def sharesWith (k : Chk) (c : CoreId) (l : List ObjR) : Nat :=
  let has (o : ObjR) : Bool := (sharesOf k.s c).any fun h => h.ctx == k.l.ctx && h.base == o.base && h.len == o.len && h.obj == o.targ
  ((l.filter fun o => !has o).map fun o => (o.base, o.len, o.targ)).eraseDups.length + (sharesOf k.s c).length

/-- The compute cores of the launch in a field of this wafer: those of the image, and those that it has already (R61). -/
def Img.launchCores (i : Img) (me : Nat) (l : Launch) (f : Nat) : List CoreId :=
  (((i.cores.filter fun r => onWafer i.span me r.waf).map CoreR.core ++ l.slots.map Slot.core).filter fun c => c.f == f).eraseDups

/-- An object record's checks (R61, R225, R296). -/
def checkObj (k : Chk) (before : List ObjR) (r : ObjR) : Option (Nat × Nat) :=
  let o := r.obj
  if o.kind = 5 then
    if !(r.ok && k.place r.waf o.core.f && r.len % 64 == 0 && 64 ≤ r.len && r.base % 64 == 0) then some (Code.cfgField, r.off)
    else
      let mine := (before ++ [r]).filter fun x => x.obj.kind == 5 && x.obj.core.f == o.core.f && x.waf == r.waf
      let here := k.img.launchCores k.s.wafno k.l o.core.f
      if onWafer k.span k.s.wafno r.waf && here.any (fun c => 16 < sharesWith k c mine) then some (Code.cfgPool, r.off) else none
  else
    let al := match o.kind with
      | 1 => 32
      | 2 => 16
      | 3 => 2048
      | _ => 8
    if r.ok && 1 ≤ o.kind && o.kind ≤ 4 && k.place r.waf o.core.f && isMem o.core && o.off % al == 0 && o.off + objSize o ≤ 2 ^ 21
        && (if o.kind = 1 then o.scope < 6 else o.scope == 0) && (o.kind != 3 || (1 ≤ o.count && o.count ≤ 1024)) then none
    else some (Code.cfgField, r.off)

/-- A data record's checks (R61): its target lies wholly within panes granted in its core's record, or within memory-core SRAM. -/
def checkData (k : Chk) (r : DataR) : Option (Nat × Nat) :=
  let good :=
    if r.kind = 1 then
      match first? (fun c : CoreR => c.core == r.core && c.waf == r.waf) k.img.cores with
      | some c => (panesOf r.core r.byte r.data.length).all fun p => p.n < 192 && c.grant.contains p.n
      | none => false
    else r.kind == 2 && isMem r.core && r.byte + r.data.length ≤ 2 ^ 21
  if r.ok && k.place r.waf r.core.f && good then none else some (Code.cfgField, r.off)

/-- The target of a branch or a call, where a sequencer word has one (R64). -/
def branchTarget (w : W64) : Option Nat :=
  let sop := (w.extractLsb' 56 8).toNat
  if 0x18 ≤ sop && sop ≤ 0x1C then some (w.extractLsb' 0 44).toNat else none

/-- A sequencer word of a user graph of n words is refused with this code (R63 to R65, R86). -/
def seqBad (n : Nat) (w : W64) : Option Nat :=
  match decodeSeq false w with
  | .error e => some (Reject.code e)
  | .ok _ => match branchTarget w with
    | some t => if t < n then none else some Code.cfgField
    | none => none

/-- A kernel record's checks (R62, R63, R68). -/
def checkKern (k : Chk) (seen : List (Nat × Nat)) (r : KernR) : Option (Nat × Nat) :=
  if !(r.ok && k.place r.waf r.f && !seen.contains (r.waf, r.f)) then some (Code.cfgField, r.off)
  else firstBad (seqBad r.words.length) r.words (r.off + 8)

/-- A cut-edge record's checks (R62). -/
def checkCut (k : Chk) (off : Nat) (c : Cut) (ok : Bool) : Option (Nat × Nat) :=
  if !(ok && k.place c.pw c.src.core.f && k.place c.cw c.dst.core.f && isCompute c.src.core && isCompute c.dst.core && c.src.e < 32 && c.dst.e < 32
      && (c.src.port == 4 || c.src.port == 5) && c.dst.port < 4 && c.vc < 4096) then some (Code.cfgField, off)
  else if k.img.cores.any (fun r => (bindsOf r.routes).any fun b =>
      (r.waf == c.pw && r.core == c.src.core && b.1 == c.src.e && b.2.1 == c.src.port)
        || (r.waf == c.cw && r.core == c.dst.core && b.1 == c.dst.e && b.2.1 == c.dst.port)) then some (Code.cfgRoute, off)
  else none

/-- What the checks have met so far. -/
structure Seen where
  cores : List (Nat × CoreId)
  objs  : List ObjR
  kerns : List (Nat × Nat)

/-- The records' checks in image order. -/
def checkRecs (k : Chk) : Seen → List Rec → Option (Nat × Nat)
  | _, [] => none
  | q, r :: l =>
    let next (bad : Option (Nat × Nat)) (q : Seen) : Option (Nat × Nat) := match bad with
      | some b => some b
      | none => checkRecs k q l
    match r with
    | .core c => next (checkCore k q.cores c) { q with cores := q.cores ++ [(wafOf k.span k.s.wafno c.waf, c.core)] }
    | .obj o => next (checkObj k q.objs o) { q with objs := q.objs ++ [o] }
    | .data d => next (checkData k d) q
    | .kern n => next (checkKern k q.kerns n) { q with kerns := q.kerns ++ [(n.waf, n.f)] }
    | .cut o c ok => next (checkCut k o c ok) q

/-- The header's checks, with the occupancy of the catch node (R59). -/
def checkHdr (k : Chk) : Option (Nat × Nat) :=
  let i := k.img
  let c := i.catchSlot
  if hdrGood i.hdr && (!i.hasCatch || (i.nodes k.s.wafno).any fun n => n.waf == wafOf i.span k.s.wafno c.1 && n.sl == c.2) then none
  else some (Code.cfgField, 0)

/-! ## Checks across the image (R63) -/

/-- A graph of nodes: the nodes in image order, the switch tables by wafer and core, the cut edges, the catch node, NSECT, and the probes
that FWAIT words name, with the words' offsets. -/
structure GraphIn where
  me     : Nat
  nodes  : List INode
  routes : Tbl (Nat × CoreId) (List W32)
  cuts   : List Cut
  catch_ : Option (Nat × Slot)
  nsect  : Nat
  fwaits : List (Nat × Slot × Nat)

/-- Where an output leads: the inputs that its circuit reaches, with their wafer. -/
def GraphIn.targets (g : GraphIn) (waf : Nat) (e : EdgeId) : List (Nat × InPort) :=
  let rt : Tbl CoreId (Tbl Nat W32) := (g.routes.filter fun q => q.1.1 == waf).map fun q => (q.1.2, q.2.zipIdx.map fun p => (p.2, p.1))
  let t : State := { State.reset with x := { Exec.empty with routes := rt } }
  match binding t e.core e.e e.port with
  | some (l, _) => (reach t routeFuel e.core 0 3 l).map fun d => (waf, d)
  | none => (g.cuts.filter fun c => c.pw == waf && c.src == e).map fun c => (c.cw, c.dst)

/-- The node at a place. -/
def GraphIn.node? (g : GraphIn) (waf : Nat) (sl : Slot) : Option INode := first? (fun n => n.waf == waf && n.sl == sl) g.nodes

/-- An arrow of the graph: from a node, through an output with its time action, to a node, if the place holds one that reads the port. -/
structure Arrow where
  src : INode
  act : Nat
  dst : Option INode
  deriving DecidableEq, Repr, Inhabited

/-- The arrows that leave a node. -/
def GraphIn.arrowsOf (g : GraphIn) (n : INode) : List Arrow :=
  let w := CW.unpack n.word
  [4, 5].flatMap fun p =>
    if wordDrives n.word p then
      (g.targets n.waf ⟨n.sl.core, n.sl.e, p⟩).map fun t =>
        let k := (if p == 4 then w.xc else w.yc).toNat
        let d := (g.node? t.1 ⟨t.2.core, t.2.e, k⟩).filter fun m => (operandPorts m.word).contains t.2.port
        ⟨n, (if p == 4 then w.xt else w.yt).toNat, d⟩
    else []

/-- Every arrow of the graph. -/
def GraphIn.arrows (g : GraphIn) : List Arrow := g.nodes.flatMap g.arrowsOf

/-- The nodes that can be reached from some nodes along arrows that pass a test; fuel bounds the rounds. -/
def reachN (as_ : List Arrow) (ok : Arrow → Bool) : Nat → List INode → List INode → List INode
  | 0, _, seen => seen
  | k + 1, new, seen =>
    let nxt := ((as_.filter fun a => ok a && new.contains a.src).filterMap Arrow.dst).eraseDups.filter fun n => !seen.contains n
    if nxt.isEmpty then seen else reachN as_ ok k nxt (seen ++ nxt)

/-- The nodes reached from a node by at least one arrow. -/
def GraphIn.after (g : GraphIn) (as_ : List Arrow) (ok : Arrow → Bool) (n : INode) : List INode := reachN as_ ok (g.nodes.length + 1) [n] []

/-- The input stages (R207). -/
def GraphIn.inputs (g : GraphIn) : List Nat := ((g.nodes.filter fun n => opOf n.word == 0x73).map INode.stage).eraseDups

/-- The section number of an SRC node. -/
def srcSect (n : INode) : Nat := n.word.toNat % 256

/-- The SRC nodes of the graph. -/
def GraphIn.srcs (g : GraphIn) : List INode := g.nodes.filter fun n => opOf n.word == 0x59

/-- The summary of a time action (R215). -/
def Summ.ofAct (a : Nat) : Summ := if a == 1 then .round1 else if a == 2 then .leave else .ident

/-- One round of following paths: each node with the summary of a path to it, and the least summary seen for each stage. -/
def sigmaRounds (as_ : List Arrow) (inputs : List Nat) : Nat → List (INode × Summ) → List (INode × Summ) → Tbl Nat Summ → Tbl Nat Summ
  | 0, _, _, acc => acc
  | k + 1, new, seen, acc =>
    let step := new.flatMap fun q => (as_.filter fun a => a.src == q.1).filterMap fun a => a.dst.map fun d => (d, Summ.comp q.2 (Summ.ofAct a.act))
    let acc := step.foldl (fun acc q => match tget acc q.1.stage with
      | some m => if Summ.rank q.2 < Summ.rank m then tset acc q.1.stage q.2 else acc
      | none => tset acc q.1.stage q.2) acc
    let nxt := step.eraseDups.filter fun q => !inputs.contains q.1.stage && !seen.contains q
    if nxt.isEmpty then acc else sigmaRounds as_ inputs k nxt (seen ++ nxt) acc

/-- σ of every pair of stages but a stage and itself (R215). -/
def GraphIn.sigma (g : GraphIn) (as_ : List Arrow) : Tbl (Nat × Nat) Summ :=
  ((g.nodes.map INode.stage).eraseDups).flatMap fun st =>
    let start := (g.nodes.filter fun n => n.stage == st).map fun n => (n, Summ.ident)
    (sigmaRounds as_ g.inputs (3 * g.nodes.length + 1) start start []).map fun q => ((st, q.1), q.2)

/-- The least offset of two nodes. -/
def minOff (n : INode) (d : Option INode) : Nat := match d with
  | some m => min n.off m.off
  | none => n.off

/-- R83: a section number at or above NSECT, or sources of one section in different fields. -/
def badSrc (g : GraphIn) : Option Nat :=
  (first? (fun n : INode => g.nsect ≤ srcSect n || (g.srcs.any fun m => srcSect m == srcSect n && (m.waf, m.sl.core.f) != (n.waf, n.sl.core.f)))
    g.srcs).map INode.off

/-- R127: the catch node's form, then a binding on its port A. -/
def badCatch (g : GraphIn) : Option (Nat × Nat) :=
  g.catch_.bind fun c => (g.node? c.1 c.2).bind fun n =>
    let w := CW.unpack n.word
    if !(w.sa == 0 && w.sb != 0 && w.sc != 0 && w.pm == 0) then some (Code.cfgField, n.off)
    else if (bindsOf (tgetD g.routes (c.1, c.2.core) [])).any fun b => b.1 == c.2.e && b.2.1 == 0 then some (Code.cfgRoute, n.off)
    else none

/-- The node at a target that an arrow's circuit reaches, whatever ports it reads, for R107's offset. -/
def badCircuit (g : GraphIn) (as_ : List Arrow) : Option Nat :=
  (first? (fun a : Arrow => a.dst.isNone) as_).map fun a => minOff a.src (g.nodes.find? fun n => n.off < a.src.off && (
    let w := CW.unpack a.src.word
    [4, 5].any fun p => wordDrives a.src.word p && (g.targets a.src.waf ⟨a.src.sl.core, a.src.sl.e, p⟩).any fun t =>
      n.waf == t.1 && n.sl == ⟨t.2.core, t.2.e, (if p == 4 then w.xc else w.yc).toNat⟩ && !(operandPorts n.word).contains t.2.port))

/-- R207: the first word that a breach of the rules of input stages involves; of a stage that spans two cores, that is its first. DESIGN CHOICE
(log 139): R63 does not list the words that such a breach involves; here it is the node that does not belong. -/
def badInput (g : GraphIn) : Option Nat :=
  (first? (fun n : INode =>
    let op := opOf n.word
    if g.inputs.contains n.stage then
      !(op == 0x73 || op == 0x77 || op == 0x78)
        || g.nodes.any fun m => m.stage == n.stage && (m.waf, m.sl.core) != (n.waf, n.sl.core)
    else op == 0x77 || op == 0x78) g.nodes).map INode.off

/-- R204: the first word on a cycle without action 01 or with action 10. -/
def badCycle (g : GraphIn) (as_ : List Arrow) : Option Nat :=
  let leaves := as_.filter fun a => a.act == 2
  let any_ (_ : Arrow) : Bool := true
  (first? (fun n : INode =>
    (g.after as_ (fun a => a.act == 0) n).contains n
      || leaves.any fun a => match a.dst with
        | some d => (d == n || (g.after as_ any_ d).contains n) && (a.src == n || (g.after as_ any_ n).contains a.src)
        | none => false) g.nodes).map INode.off

/-- R211: the first word one of whose outputs reaches more than 16 stages. DESIGN CHOICE (log 139): of the words that R63 does not list for this
breach, that of the driver. -/
def badFan (g : GraphIn) : Option Nat :=
  (first? (fun n : INode =>
    let w := CW.unpack n.word
    [4, 5].any fun p => wordDrives n.word p &&
      16 < (((g.targets n.waf ⟨n.sl.core, n.sl.e, p⟩).filterMap fun t =>
        (g.node? t.1 ⟨t.2.core, t.2.e, (if p == 4 then w.xc else w.yc).toNat⟩).map INode.stage).eraseDups).length) g.nodes).map INode.off

/-- The probes of a field, in the order that numbers them (R219). -/
def GraphIn.probesIn (g : GraphIn) (waf f : Nat) : List INode := g.nodes.filter fun n => opOf n.word == 0x75 && n.waf == waf && n.sl.core.f == f

/-- R219: a field with more than 256 probes; the first of them is named. -/
def badProbes (g : GraphIn) : Option Nat :=
  (first? (fun n : INode => opOf n.word == 0x75 && 256 < (g.probesIn n.waf n.sl.core.f).length) g.nodes).map INode.off

/-- R95 and R220: an FWAIT that names no probe, or a probe whose own stage is, or reaches, the stage it probes. DESIGN CHOICE (log 139): the words
involved, which R63 does not list, are the FWAIT or the probe alone. -/
def badProbe (g : GraphIn) (as_ : List Arrow) : Option Nat :=
  let sg := g.sigma as_
  match (first? (fun q : Nat × Slot × Nat => !((g.node? q.1 q.2.1).any fun n => opOf n.word == 0x75)) g.fwaits).map (fun q => q.2.2),
    (first? (fun n : INode => opOf n.word == 0x75 && (n.stage == n.word.toNat % 64 || (tget sg (n.stage, n.word.toNat % 64)).isSome)) g.nodes).map
      INode.off with
  | some a, some b => some (min a b)
  | a, b => a.orElse fun _ => b

/-- The checks across a graph in R63's order: the code and the offset of the first breach. The image holds no record of subgraphs, so that
R10 leaves nothing to check in it (log 35). -/
def checkGraph (g : GraphIn) : Option (Nat × Nat) :=
  let as_ := g.arrows
  let fld (o : Option Nat) : Option (Nat × Nat) := o.map fun x => (Code.cfgField, x)
  (fld (badSrc g)).orElse fun _ => (badCatch g).orElse fun _ => ((badCircuit g as_).map fun x => (Code.cfgRoute, x)).orElse fun _ =>
    (fld (badInput g)).orElse fun _ => (fld (badCycle g as_)).orElse fun _ => (fld (badFan g)).orElse fun _ =>
      ((badProbes g).map fun x => (Code.cfgPool, x)).orElse fun _ => fld (badProbe g as_)

/-- The FWAIT words of a kernel record (R95). -/
def fwaitsOf (r : KernR) (waf : Nat) : List (Nat × Slot × Nat) :=
  r.words.zipIdx.filterMap fun q =>
    let v := q.1.toNat
    if bits v 63 56 == 0x27 then some (waf, ⟨⟨r.f, bits v 17 13, bits v 12 8⟩, bits v 7 3, bits v 2 0⟩, r.off + 8 + 8 * q.2) else none

/-- The graph of an image. -/
def Img.graph (i : Img) (me : Nat) : GraphIn where
  me := me
  nodes := i.nodes me
  routes := i.cores.map fun r => ((wafOf i.span me r.waf, r.core), r.routes)
  cuts := i.cutEdges
  catch_ := if i.hasCatch then some (wafOf i.span me i.catchSlot.1, i.catchSlot.2) else none
  nsect := i.nsect
  fwaits := i.kerns.flatMap fun r => fwaitsOf r (wafOf i.span me r.waf)

/-- The first violation of an image (R63), whose graph is given, with the cut edges that the launch already has: its code and byte offset. -/
def violationIn (s : State) (lid : Nat) (l : Launch) (i : Img) (g : GraphIn) (old : List Cut) : Option (Nat × Nat) :=
  let k : Chk := ⟨s, lid, l, i.span, i, old⟩
  (checkHdr k).orElse fun _ => (checkRecs k ⟨[], [], []⟩ i.recs).orElse fun _ =>
    (i.torn.map fun o => (Code.cfgField, o)).orElse fun _ => checkGraph g

/-- The first violation of a launch's image. -/
def violation (s : State) (lid : Nat) (l : Launch) (i : Img) : Option (Nat × Nat) := violationIn s lid l i (i.graph s.wafno) []

end Sys2Proof.Machine
end

