-- ==== Sys2Proof/Machine/Launch.lean ====
section
/-! DEFINITION. Launches: what an image claims, its start, the loading of each field's part, the acknowledgements, the moment at which its
graphs and sources may run, and reconfiguration (R17, R60 to R63, R80 to R84, R92, R93, R174, R217, R226). -/

namespace Sys2Proof.Machine

open Sys2Proof

/-! ## What an image names (R17, R80) -/

/-- The core records of this wafer. -/
def Img.coresOn (i : Img) (me : Nat) : List CoreR := i.cores.filter fun r => onWafer i.span me r.waf

/-- The object records of this wafer, share records too. -/
def Img.objsOn (i : Img) (me : Nat) : List ObjR := i.objects.filter fun r => onWafer i.span me r.waf

/-- The data records of this wafer. -/
def Img.datasOn (i : Img) (me : Nat) : List DataR := i.datas.filter fun r => onWafer i.span me r.waf

/-- The kernel records of this wafer. -/
def Img.kernsOn (i : Img) (me : Nat) : List KernR := i.kerns.filter fun r => onWafer i.span me r.waf

/-- The nodes of this wafer. -/
def Img.nodesOn (i : Img) (me : Nat) : List INode := (i.nodes me).filter fun n => n.waf == me

/-- The fields of this wafer that the image's core, object, data and kernel records name (R80). -/
def Img.fieldsOn (i : Img) (me : Nat) : List Nat :=
  ((i.coresOn me).map (fun r => r.core.f) ++ (i.objsOn me).map (fun r => r.obj.core.f) ++ (i.datasOn me).map (fun r => r.core.f)
    ++ (i.kernsOn me).map (fun r => r.f)).eraseDups

/-- The other wafers that the image names. -/
def Img.wafersOff (i : Img) (me : Nat) : List Nat :=
  if i.span then (i.cores.map (fun r => r.waf) ++ i.objects.map (fun r => r.waf) ++ i.datas.map (fun r => r.waf)
    ++ i.kerns.map (fun r => r.waf)).eraseDups.filter fun w => w != me
  else []

/-- The matrix islands that the nodes name (R377). -/
def Img.islandsOn (i : Img) (me : Nat) : List (Nat × Nat) :=
  (((i.nodesOn me).filter fun n => 0xC0 ≤ opOf n.word && opOf n.word ≤ 0xC6).filterMap fun n => match miOf n.sl.core with
    | .mi f n => some (f, n)
    | _ => none).eraseDups

/-- The ranges of memory-core SRAM that the image names. -/
def Img.rangesOn (i : Img) (me : Nat) : List (CoreId × Nat × Nat) :=
  ((i.objsOn me).filter fun r => r.obj.kind != 5).map (fun r => (r.obj.core, r.obj.off, objSize r.obj))
    ++ ((i.datasOn me).filter fun r => r.kind == 2).map fun r => (r.core, r.byte, r.data.length)

/-- The panes that the image names. -/
def Img.panesOn (i : Img) (me : Nat) : List PaneId := (i.coresOn me).flatMap fun r => r.grant.map fun n => ⟨r.core, n⟩

/-- The field whose sequencer leads on a wafer that does not lead the launch: the lowest that the image names there (R17; log 9). -/
def Img.headOn (i : Img) (w : Nat) : Nat := lowest 48 (i.fieldsOn w)

/-- A launch with everything that its image claims. -/
def Launch.claim (l : Launch) (i : Img) (me : Nat) : Launch :=
  { l with
    fields := i.fieldsOn me
    wafers := i.wafersOff me
    heads := (i.wafersOff me).map fun w => (w, i.headOn w)
    peers := (i.wafersOff me).map fun w => (w, i.headOn w)
    carriers := ((i.graph me).cuts.flatMap Cut.between).eraseDups.filter fun w => w != me && !(i.wafersOff me).contains w
    islands := i.islandsOn me
    slots := (i.nodesOn me).map INode.sl
    panes := i.panesOn me
    ranges := i.rangesOn me }

/-- Two ranges of memory cores meet. -/
def meets (a b : CoreId × Nat × Nat) : Bool := a.1 == b.1 && a.2.1 < b.2.1 + b.2.2 && b.2.1 < a.2.1 + a.2.2

/-- Two launches claim something in common. -/
def Launch.clash (l m : Launch) : Bool :=
  l.slots.any m.slots.contains || l.panes.any m.panes.contains || l.islands.any m.islands.contains
    || l.ranges.any fun a => m.ranges.any (meets a)

/-- The launches of a context that hold what they claim. -/
def holders (s : State) (ctx : Nat) : List (Nat × Launch) :=
  s.launches.filter fun q => q.2.ctx == ctx && (q.2.stat == .loading || q.2.stat == .running)

/-- Graphs resident in a field, or to be started there by a launch that is still loading (R68). -/
def residentN (s : State) (ctx f : Nat) : Nat :=
  ((holders s ctx).filter fun q =>
    if q.2.stat == .loading then ((parseImg q.2.bytes).kernsOn s.wafno).any fun r => r.f == f
    else (graphsOf s f).any fun g => g.lid == q.1 && !g.ended).length

/-- The launch has to wait (R68, R80 step 3). -/
def launchBusy (s : State) (l : Launch) (i : Img) : Bool :=
  (holders s l.ctx).any (fun q => l.clash q.2) || (i.kernsOn s.wafno).any fun r => 16 ≤ residentN s l.ctx r.f

/-- A wafer that must acknowledge is dead (R80 step 4). -/
def launchDead (s : State) (l : Launch) : Bool := l.wafers.any fun w => s.dead.getLsbD w

/-! ## The start (R80, R92) -/

/-- A launch before its image is read. -/
def Launch.start (part ctx lead : Nat) (queue : Option (Nat × Nat)) (prio : Nat) (idx : W64) (image param done : Nat) : Launch where
  part := part
  ctx := ctx
  lead := lead
  queue := queue
  prio := prio
  idx := idx
  image := image
  bytes := []
  param := param
  done := done
  fields := []
  wafers := []
  loaded := []
  acks := []
  stat := .loading
  code := 0
  catch_ := none
  catchQ := []
  catchBad := 0
  nsect := 0
  sstamp := 0
  waiters := 0
  secs := []
  counts := []
  sigma := []
  inputs := []
  caps := []
  probes := []
  objs := []
  cuts := []
  islands := []
  slots := []
  panes := []
  ranges := []
  pool := []
  root := none
  from_ := none
  heads := []
  carriers := []
  catchG := none
  peers := []
  reach := []
  moved := 0
  unfin := []
  farSecs := []
  polls := []

/-- The lowest launch number not in use, from 1 (log 13). -/
def freeLid (s : State) : Nat := freeIndex (s.launches.map Prod.fst) s.launches.length 1

/-- The record of a launch that aborts, and the abort. -/
def abortLaunch (s : State) (lid f ctx code addr off : Nat) : State :=
  retire (reportFault s { recBase (.seqr f) code 0 2 ctx f lid with addr := addr, aux := BitVec.ofNat 64 off }).2 lid code

/-- A launch is entered in the table, its flag words clear (R143). -/
def addLaunch (s : State) (lid : Nat) (l : Launch) : State :=
  onCopy { s with launches := tset s.launches lid l } l.ctx fun s =>
    { s with x := { s.x with flagw := s.x.flagw.filter fun q => q.1.1 != lid } }

/-- An image as a sequencer reads it: its header, then LENGTH bytes. A failure names its code, the address and the offset in the image. -/
def readImage (s : State) (ctx rl image : Nat) : Except (Nat × Nat × Nat) (State × List Byte) :=
  match readAt s ctx rl image 64 with
  | .error e => .error (e.1, e.2, 0)
  | .ok (s, h) =>
    if !hdrGood h then .error (Code.cfgField, 0, 0)
    else match readAt s ctx rl image (hdrLen h) with
      | .error e => .error (e.1, e.2, e.2 - image)
      | .ok r => .ok r

/-- The tag of a launch's image on its way to another wafer, which is timed until that wafer acknowledges (R17, R336). -/
def partTag (lid : Nat) : Nat := 2 ^ 19 + lid

/-- The image goes to the leading sequencers of the launch's other wafers (R17 step 1), and its cut edges to the wafers that carry them. -/
def sendParts (s : State) (lid : Nat) : State :=
  match launch? s lid with
  | some l =>
    let s := l.wafers.foldl (fun s w => farSend s (.seqr l.lead) (partTag lid) lid w) (modLaunch s lid fun l => { l with unfin := l.wafers })
    tellCarriers (tellHeads s lid l (.part l.part l.ctx l.lead l.prio l.image l.param l.bytes)) lid l ((parseImg l.bytes).graph s.wafno).cuts
  | none => s

/-- The leading sequencer starts a launch (R80): rl is the launch that reads, child says that a LAUNCH word started it. None while it waits
at the head of its queue; a child that must wait stands in the table. -/
def beginLaunch (s : State) (l : Launch) (rl : Nat) (child : Bool) : Option State :=
  let lid := freeLid s
  match readImage s l.ctx rl l.image with
  | .error e => some (abortLaunch (addLaunch s lid l) lid l.lead l.ctx e.1 e.2.1 e.2.2)
  | .ok (s, b) =>
    let i := parseImg b
    let l := { l with bytes := b }.claim i s.wafno
    if launchBusy s l i then (if child then some (addLaunch s lid { l with stat := .waiting }) else none)
    else
      let s := addLaunch s lid l
      some (if launchDead s l then abortLaunch s lid l.lead l.ctx Code.peerDead 0 0 else sendParts s lid)

/-- The LAUNCH body keeps its layout (R78). -/
def launchBodyOk (b : List Byte) : Bool :=
  zeros b 2 7 && leAt b 8 8 % 64 == 0 && leAt b 16 8 % 8 == 0 && leAt b 24 8 % 8 == 0 && zeros b 32 55

/-! ## Loading a field's part (R17, R60, R61, R226, R251, R296) -/

/-- Bytes of the loader written to physical memory, whose check bits are fresh. -/
def loadBytes (s : State) (pa : Nat) (bs : List Byte) : State :=
  freshWrite s pa bs

/-- A range of memory zero-filled by the loader. -/
def loadZero (s : State) (pa n : Nat) : State :=
  { s with
    mem := cellsZero s.mem pa (pa + n)
    ecc := s.ecc.filter fun q => !(pa ≤ q.1 * 8 && q.1 * 8 < pa + n)
    aon := s.aon.filter fun q => !(pa ≤ q.1 * 512 && q.1 * 512 < pa + n) }

/-- A pane granted to a launch, zero-filled and EMPTY (R17, R251). -/
def grantPane (s : State) (lid : Nat) (p : PaneId) : State :=
  let s := loadZero s (spadPA s.wafno p.core (2048 * p.n)) 2048
  { s with x := { s.x with grants := tset s.x.grants p lid, ptag := tdel s.x.ptag p } }

/-- A node placed by the loader: its hold register and flags are zero. -/
def placeNode (s : State) (lid ctx : Nat) (n : INode) : State :=
  { s with x := { s.x with
      nodes := tset s.x.nodes n.sl ⟨n.word, n.stage, lid, ctx⟩
      hold := tdel s.x.hold n.sl
      flags := tdel s.x.flags n.sl } }

/-- A core's switch table and carve-out as its record gives them (R60); on a core that another launch uses too, the carve-out is the larger of
the two (log 108). -/
def loadTables (s : State) (lid : Nat) (r : CoreR) : State :=
  let t : Tbl Nat W32 := (r.routes.zipIdx.filter fun q => rKind q.1 != 0).map fun q => (q.2, q.1)
  let shared := s.x.nodes.any fun q => q.1.core == r.core && q.2.lid != lid
  { s with x := { s.x with
      routes := tset s.x.routes r.core t
      carve := tset s.x.carve r.core (if shared then max r.carve (tgetD s.x.carve r.core 0) else r.carve) } }

/-- The initial contents of an object (R226, R272, R285, R295). -/
def objBytes (o : Obj) : List Byte :=
  match o.kind with
  | 1 => leBytes 8 (o.scope * 2 ^ 59) ++ leBytes 4 0 ++ leBytes 4 o.count
  | 3 => leBytes 12 0 ++ leBytes 4 ((2048 * o.count - 512) / 24) ++ leBytes 8 0 ++ leBytes 4 0xFFFFFFFF
  | _ => []

/-- An object initialised. -/
def loadObj (s : State) (o : Obj) : State :=
  let pa := sramPA s.wafno o.core o.off
  loadBytes (loadZero s pa (objSize o)) pa (objBytes o)

/-- A data record applied. -/
def loadData (s : State) (r : DataR) : State :=
  loadBytes s (if r.kind = 1 then spadPA s.wafno r.core r.byte else sramPA s.wafno r.core r.byte) r.data

/-- A share record installed in some cores (R296). -/
def loadShare (s : State) (ctx lid : Nat) (r : ObjR) (cs : List CoreId) : State :=
  cs.foldl (fun s c =>
    let l := sharesOf s c
    if l.any fun h => h.ctx == ctx && h.base == r.base && h.len == r.len && h.obj == r.targ then s
    else { s with shares := tset s.shares c (l ++ [⟨ctx, lid, r.base, r.len, r.targ⟩]) }) s

/-- The loader's writes for one field of an image, in R60's and R61's order: core records, then objects, data records and share records. -/
def loadField (s : State) (lid ctx f : Nat) (i : Img) (grant : State → CoreR → State) : State :=
  let me := s.wafno
  let cs := (i.coresOn me).filter fun r => r.core.f == f
  let s := cs.foldl (fun s r => grant (loadTables ((r.nodes me).foldl (fun s n => placeNode s lid ctx n) s) lid r) r) s
  let os := (i.objsOn me).filter fun r => r.obj.core.f == f
  let s := os.foldl (fun s r => if r.obj.kind = 5 then s else loadObj s r.obj) s
  let s := ((i.datasOn me).filter fun r => r.core.f == f).foldl loadData s
  let all := match launch? s lid with
    | some l => i.launchCores me l f
    | none => cs.map CoreR.core
  os.foldl (fun s r => if r.obj.kind = 5 then loadShare s ctx lid r all else s) s

/-- The panes of a core record granted, each new. -/
def grantAll (lid : Nat) (s : State) (r : CoreR) : State := r.grant.foldl (fun s n => grantPane s lid ⟨r.core, n⟩) s

/-- The field that an offset of an image belongs to: that of the last record that begins at or before it. -/
def fieldAt (i : Img) (lead off : Nat) : Nat :=
  i.recs.foldl (fun f r => match r with
    | .core c => if c.off ≤ off then c.core.f else f
    | .obj c => if c.off ≤ off then c.obj.core.f else f
    | .data c => if c.off ≤ off then c.core.f else f
    | .kern c => if c.off ≤ off then c.f else f
    | .cut o c _ => if o ≤ off then c.src.core.f else f) lead

/-- A child launch that waited starts to load once nothing that it claims is held (R80, R92). -/
def promoteChild (s : State) (lid : Nat) (l : Launch) : State :=
  if launchBusy s l (parseImg l.bytes) then s
  else
    let s := modLaunch s lid fun l => { l with stat := .loading }
    if launchDead s l then abortLaunch s lid l.lead l.ctx Code.peerDead 0 0 else sendParts s lid

/-- A field validates its part and loads it; a violation aborts the launch on every field (R17, R63). -/
def loadPart (s : State) (f lid : Nat) (l : Launch) : State :=
  let i := parseImg l.bytes
  match violation s lid l i with
  | some (code, off) => abortLaunch s lid (fieldAt i l.lead off) l.ctx code 0 off
  | none =>
    let s := onCopy s l.ctx fun s =>
      let s := loadField s lid l.ctx f i (grantAll lid)
      let mis := (l.islands.filter fun n => n.1 == f).foldl (fun t n => tset t n Mi.reset) s.x.mis
      { s with x := { s.x with mis := mis } }
    modLaunch s lid fun l => { l with loaded := f :: l.loaded, objs := l.objs ++ ((i.objsOn s.wafno).filter fun r =>
      r.obj.core.f == f && r.obj.kind != 5).map ObjR.obj }

/-- The image of a launch that another wafer leads, arrived at a field's sequencer: its packet and the launch. -/
def partFor (s : State) (f lid : Nat) : Option (Nat × Launch) :=
  s.net.findSome? fun p => match p.msg with
    | .peer w n (.part m ctx lead prio image param b) =>
      if n == lid && p.to_ == .seqr f && arrived s p then
        let l := { Launch.start m ctx f none prio 0 image param 0 with bytes := b }.claim (parseImg b) s.wafno
        some (p.id, { l with from_ := some w, carriers := [], heads := [(w, lead)], peers := tset l.peers w lead })
      else none
    | _ => none

/-- This wafer takes up its part of a launch that another leads; it waits while what it claims is held, or its LID is in use here (log 9). -/
def takePart (s : State) (f lid : Nat) : State :=
  match partFor s f lid with
  | none => s
  | some (k, l) => if launchBusy s l (parseImg l.bytes) || !l.fields.contains f then s else loadPart (addLaunch (dropPkt s k) lid l) f lid l

/-- LAUNCH_PART (R17): a field loads its part of a launch; a child launch that waits first begins. -/
def execLaunchPart (f lid : Nat) (s : State) : Host.Outcome State Fault Refusal :=
  .next (match launch? s lid with
    | none => if unitHolds s (.seqr f) then s else takePart s f lid
    | some l =>
      if unitHolds s (.seqr f) then s
      else if l.stat == .waiting then promoteChild s lid l
      else if l.stat == .loading && l.fields.contains f && !l.loaded.contains f && !(l.acks.contains f) then loadPart s f lid l
      else s)

/-- The acknowledgements that a launch here waits for beside those of its fields: the other wafers', as 48 + w, or the leading wafer's word that
every wafer has acknowledged (R17; log 9). -/
def Launch.awaits (l : Launch) : List Nat := match l.from_ with
  | some w => [48 + w]
  | none => l.wafers.map fun w => 48 + w

/-- Where another wafer leads, it is told once every field here has acknowledged (R17 step 3). -/
def ackLead (s : State) (lid : Nat) : State :=
  match launch? s lid with
  | some l => if l.from_.isSome && l.fields.all l.acks.contains then tellHeads s lid l .ready else s
  | none => s

/-- LAUNCH_ACK (R17, R80): the acknowledgement of a field, or of wafer w's leading sequencer as 48 + w, reaches the leading sequencer; a wafer
found dead aborts the launch. -/
def execLaunchAck (lid f : Nat) (s : State) : Host.Outcome State Fault Refusal :=
  .next (match launch? s lid with
    | none => s
    | some l =>
      if !(l.stat == .loading) || l.acks.contains f then s
      else if launchDead s l then (if unitHolds s (.seqr l.lead) then s else abortLaunch s lid l.lead l.ctx Code.peerDead 0 0)
      else if f < 48 && l.loaded.contains f then ackLead (modLaunch s lid fun l => { l with acks := f :: l.acks }) lid
      else if l.awaits.contains f then
        modLaunch (farGot s (.seqr l.lead) (partTag lid) (some (f - 48))) lid fun l => { l with acks := f :: l.acks }
      else s)

/-! ## The moment of R17 step 4 -/

/-- The sections of a launch that this wafer arms, with their sources and their node sets here (R83, R84). -/
def sectsOf (g : GraphIn) (as_ : List Arrow) (n : Nat) : Tbl Nat Sect :=
  (List.range n).filterMap fun k =>
    let all := g.srcs.filter fun m => srcSect m == k
    let here (l : List INode) : List Slot := (l.filter fun m => m.waf == g.me).map INode.sl
    match first? (fun m : INode => m.waf == g.me) all with
    | none => none
    | some m => some (k, ⟨m.sl.core.f, here all, here (reachN as_ (fun _ => true) (g.nodes.length + 1) all all), 0, 0, none, []⟩)

/-- The node sets on this wafer of a launch's sections, wherever they are armed (R84). -/
def reachOf (g : GraphIn) (as_ : List Arrow) (n : Nat) : Tbl Nat (List Slot) :=
  (List.range n).map fun k =>
    let all := g.srcs.filter fun m => srcSect m == k
    (k, ((reachN as_ (fun _ => true) (g.nodes.length + 1) all all).filter fun m => m.waf == g.me).map INode.sl)

/-- The number of each probe in its field (R219). -/
def probesOf (g : GraphIn) : Tbl Slot Nat :=
  (List.range 48).flatMap fun f => (g.probesIn g.me f).zipIdx.map fun q => (q.1.sl, q.2)

/-- The cut edges with the stages of their receiving nodes (R211). -/
def cutsOf (g : GraphIn) : List Cut :=
  g.cuts.map fun c => { c with stages := (List.range 8).filterMap fun k => (g.node? c.cw ⟨c.dst.core, c.dst.e, k⟩).map fun n => (k, n.stage) }

/-- CONST whose A and B both have sources 01 or 10 fires once in a launch (R174). -/
def isBareConst (n : INode) : Bool := opOf n.word == 0x53 && (operandPorts n.word).isEmpty

/-- The one set of a CONST that has no operand port (R174). -/
def seedConst (s : State) (n : INode) : State :=
  setIq s n.sl.core n.sl.e (iqOf s n.sl.core n.sl.e ++ [newSet s n.sl.core ⟨⟨n.sl.k, t00, 0⟩, none, none, none, none, 0, []⟩])

/-- The registers of some probes as the tracker has them, their spill blocks first (R217, R218). -/
def setProbes (s : State) (l : Launch) (ps : List INode) : State :=
  ps.foldl (fun s n =>
    let r := frontierRegs l (n.word.toNat % 64)
    let s := spillFrontier s n.sl.core.f (tgetD l.probes n.sl 0) r.elems
    { s with x := { s.x with frn := tset s.x.frn n.sl r } }) s

/-- A kernel graph at its first word (R81). -/
def newGraph (s : State) (lid : Nat) (l : Launch) (r : KernR) : Graph where
  lid := lid
  ctx := l.ctx
  sup := false
  pc := 0
  regs := BitVec.ofNat 64 l.param :: List.replicate 15 0
  words := r.words
  wait := none
  park := none
  ended := false
  prio := l.prio
  boost := 0
  since := ctr s (.seqr r.f)
  seat := s.serial

/-- The graphs of a launch started in their fields. -/
def startGraphs (s : State) (lid : Nat) (l : Launch) (i : Img) : State :=
  (i.kernsOn s.wafno).foldl (fun s r =>
    (fresh { s with x := { s.x with graphs := tset s.x.graphs r.f (graphsOf s r.f ++ [newGraph s lid l r]) } }).2) s

/-- What the loader computes of a launch's graph (R84, R204 to R219). -/
def Launch.graphed (l : Launch) (g : GraphIn) : Launch :=
  let as_ := g.arrows
  { l with
    catch_ := g.catch_
    catchG := g.catch_.bind fun c => if c.1 == g.me then none else (g.node? c.1 c.2).map INode.stage
    nsect := g.nsect
    secs := sectsOf g as_ g.nsect
    reach := reachOf g as_ g.nsect
    sigma := g.sigma as_
    inputs := g.inputs
    caps := g.inputs.map fun q => (q, t00)
    counts := addItems l.counts (g.inputs.map fun q => ⟨q, t00, 1⟩)
    probes := probesOf g
    cuts := cutsOf g }

/-- LAUNCH_START (R17 step 4, R81): every field and wafer has acknowledged, so that graphs, sources and the launch's CONST nodes may run. -/
def execLaunchStart (lid : Nat) (s : State) : Host.Outcome State Fault Refusal :=
  .next (match launch? s lid with
    | none => s
    | some l =>
      if !(l.stat == .loading) || !(l.fields.all l.acks.contains) || !(l.awaits.all l.acks.contains) then s
      else
        let i := parseImg l.bytes
        let g := i.graph s.wafno
        let l := { l with stat := .running, sstamp := i.sstamp, waiters := i.waiters }.graphed g
        let s := { s with launches := tset s.launches lid l }
        let s := if l.from_.isSome then s else tellHeads s lid l .ready
        let s := onCopy s l.ctx fun s =>
          let here := g.nodes.filter fun n => n.waf == s.wafno
          let s := startGraphs s lid l i
          let s := setProbes s l (here.filter fun n => opOf n.word == 0x75)
          (here.filter isBareConst).foldl seedConst s
        l.fields.foldl (fun s f => progress s f lid) s)

/-! ## Reconfiguration (R93) -/

/-- The image of a CFG keeps R93's form: records of this field alone, of three kinds. -/
def cfgForm (i : Img) (me f : Nat) : Bool :=
  leAt i.hdr 20 4 == 0 && leAt i.hdr 24 4 == 0 && i.nsect == 0 && (i.wafersOff me).isEmpty
    && i.recs.all fun r => match r with
      | .core c => c.core.f == f
      | .obj c => c.obj.core.f == f
      | .data c => c.core.f == f
      | _ => false

/-- The nodes of a launch that stand on cores a CFG does not name: they come after every word of its image (log 109). -/
def otherNodes (s : State) (lid : Nat) (cs : List CoreId) : List INode :=
  (s.x.nodes.filter fun q => q.2.lid == lid && !cs.contains q.1.core).map fun q => ⟨2 ^ 40, s.wafno, q.1, q.2.word, q.2.stage⟩

/-- The launch's graph as a CFG's image would leave it; its part on other wafers is as the launch's own image has it (log 109). -/
def cfgGraph (s : State) (lid : Nat) (l : Launch) (i : Img) : GraphIn :=
  let cs := i.cores.map CoreR.core
  let old := otherNodes s lid cs
  let far := (parseImg l.bytes).graph s.wafno
  { me := s.wafno
    nodes := i.nodes s.wafno ++ old ++ (far.nodes.filter fun n => n.waf != s.wafno).map fun n => { n with off := 2 ^ 40 + n.off }
    routes := i.cores.map (fun r => ((s.wafno, r.core), r.routes))
      ++ ((old.map fun n => n.sl.core).eraseDups.map fun c => ((s.wafno, c), routesOf s c)) ++ far.routes.filter fun q => q.1.1 != s.wafno
    cuts := l.cuts
    catch_ := l.catch_
    nsect := l.nsect
    fwaits := [] }

/-- A slot or pane of the image belongs to another launch. -/
def cfgForeign (s : State) (lid : Nat) (i : Img) : Bool :=
  (i.nodesOn s.wafno).any (fun n => (node? s n.sl).any fun m => m.lid != lid)
    || (i.panesOn s.wafno).any fun p => (tget s.x.grants p).any fun g => g != lid

/-- A core record of a CFG applied to the grants: panes kept, new and released (R93 step 4). -/
def regrant (lid : Nat) (s : State) (r : CoreR) : State :=
  let held (p : PaneId) : Bool := p.core == r.core && !r.grant.contains p.n
  let s := { s with x := { s.x with
    grants := s.x.grants.filter fun q => !(q.2 == lid && held q.1)
    ptag := s.x.ptag.filter fun q => !(tget s.x.grants q.1 == some lid && held q.1) } }
  r.grant.foldl (fun s n => if granted s ⟨r.core, n⟩ lid then s else grantPane s lid ⟨r.core, n⟩) s

/-- The launch's nodes that a CFG's image replaces and does not keep leave their slots, their flags gathered (R93 step 3, R109). -/
def dropNodes (s : State) (lid : Nat) (i : Img) : State :=
  let cs := i.cores.map CoreR.core
  let keep := (i.nodes s.wafno).map INode.sl
  let gone := (s.x.nodes.filter fun q => q.2.lid == lid && cs.contains q.1.core && !keep.contains q.1).map Prod.fst
  let s := gatherFlags s lid gone
  { s with x := { s.x with
      nodes := s.x.nodes.filter fun q => !gone.contains q.1
      hold := s.x.hold.filter fun q => !gone.contains q.1
      frn := s.x.frn.filter fun q => !gone.contains q.1 } }

/-- The input stages that a CFG adds. -/
def Launch.newInputs (l : Launch) (g : GraphIn) : List Nat := g.inputs.filter fun q => !l.inputs.contains q

/-- The launch after a CFG: its graph computed anew; armings, counts and capabilities go on, and a new input stage has the capability (0,0). -/
def Launch.regraphed (l : Launch) (g : GraphIn) (i : Img) (me f : Nat) (cs : List CoreId) : Launch :=
  let new := l.graphed g
  let fresh := l.newInputs g
  let objs := ((i.objsOn me).filter fun r => r.obj.kind != 5).map ObjR.obj
  let isl := i.islandsOn me
  { new with
    secs := new.secs.map fun q => (q.1, match tget l.secs q.1 with
      | some z => { q.2 with armed := z.armed, completed := z.completed, cur := z.cur, emitted := z.emitted }
      | none => q.2)
    caps := l.caps ++ fresh.map fun q => (q, t00)
    counts := addItems l.counts (fresh.map fun q => ⟨q, t00, 1⟩)
    cuts := l.cuts
    catchG := l.catchG
    fields := if l.fields.contains f then l.fields else f :: l.fields
    objs := (l.objs.filter fun o => !objs.any fun p => p.core == o.core && p.off == o.off) ++ objs
    islands := l.islands ++ isl.filter fun n => !l.islands.contains n
    slots := (l.slots.filter fun x => !cs.contains x.core) ++ (i.nodesOn me).map INode.sl
    panes := (l.panes.filter fun x => !cs.contains x.core) ++ i.panesOn me
    ranges := l.ranges ++ i.rangesOn me }

/-- A valid image of a CFG loaded into this field. A slot that keeps its word keeps its hold register (R108); DESIGN CHOICE (log 134): a slot that
holds a node before and after keeps its flags, whatever its word. -/
def cfgLoad (s : State) (lid f : Nat) (l : Launch) (i : Img) (g : GraphIn) : State :=
  let cs := i.cores.map CoreR.core
  let was := s.x.nodes
  let s := dropNodes s lid i
  let kept := (i.nodes s.wafno).filter fun n => (tget was n.sl).isSome
  let holds := kept.map fun n => (n.sl, if (tget was n.sl).map Node.word == some n.word then holdOf s n.sl else 0, flagsOf s n.sl)
  let s := loadField s lid l.ctx f i (regrant lid)
  let s := holds.foldl (fun s h => { s with x := { s.x with hold := tset s.x.hold h.1 h.2.1, flags := tset s.x.flags h.1 h.2.2 } }) s
  let items := (l.newInputs g).map fun q => ⟨q, t00, 1⟩
  let l := l.regraphed g i s.wafno f cs
  let s := tellTrackers { s with launches := tset s.launches lid l } lid items
  let mis := ((i.islandsOn s.wafno).filter fun n => (tget s.x.mis n).isNone).foldl (fun t n => tset t n Mi.reset) s.x.mis
  let s := { s with x := { s.x with mis := mis } }
  let new := (i.nodes s.wafno).filter fun n => (tget was n.sl).map Node.word != some n.word
  let s := setProbes s l (new.filter fun n => opOf n.word == 0x75)
  (new.filter isBareConst).foldl seedConst s

/-- Every section of the launch in this field has completed (R93 step 2). -/
def fieldQuiet (l : Launch) (f : Nat) : Bool := l.secs.all fun q => q.2.field != f || q.2.armed == q.2.completed

/-- CFG once it need not wait: the new state of its graph, whatever comes of the image (R93). -/
def cfgApply (s : State) (f : Nat) (g : Graph) (image : Nat) : State :=
  match launch? s g.lid with
  | none => s
  | some l =>
    match readImage s g.ctx g.lid image with
    | .error e => if e.1 = Code.cfgField then abortLaunch s g.lid f g.ctx e.1 0 e.2.2 else graphFault s f g e.1 e.2.1
    | .ok (s, b) =>
      let i := parseImg b
      if !cfgForm i s.wafno f then abortLaunch s g.lid f g.ctx Code.cfgField 0 0
      else
        let gr := cfgGraph s g.lid l i
        match violationIn s g.lid l i gr l.cuts with
        | some (code, off) => abortLaunch s g.lid f g.ctx code 0 off
        | none => if cfgForeign s g.lid i then graphFault s f g Code.prot image else putGraph (cfgLoad s g.lid f l i gr) g.next

end Sys2Proof.Machine
end

