-- ==== Sys2Proof/Machine/Registers.lean ====
section
/-! DEFINITION. Register space: which addresses a unit populates, the value of every register, and the steps that apply a supervisor's write
(R3, R110, R217, R219, R253, R313, R335, R341, R416). -/

namespace Sys2Proof.Machine

open Sys2Proof

/-! ## Which register an address names -/

/-- A register block of this wafer with the offset in it. -/
inductive RegAt where
  | core (c : CoreId) (o : Nat)          -- R110
  | fspb (f : Nat)                       -- R219
  | icore (f n o : Nat)                  -- R313
  | island (f n o : Nat)                 -- R341
  | sup (f o : Nat)                      -- R416
  | link (o : Nat)                       -- R335
  | port (p o : Nat)                     -- R335
  deriving DecidableEq, Repr

/-- The block that a field index and an offset name; none where no unit populates the address. -/
def regAt (f o : Nat) : Option RegAt :=
  if f = 63 then
    if 0x100000 ≤ o && o < 0x100018 then some (.link (o - 0x100000))
    else if 0x101000 ≤ o && o < 0x102000 then some (.port ((o - 0x101000) / 64) ((o - 0x101000) % 64))
    else none
  else if 48 ≤ f then none
  else if o < 0x4000000 then
    let c : CoreId := ⟨f, o / 0x200000, o / 0x10000 % 32⟩
    if c.cy < 24 then some (.core c (o % 0x10000)) else none
  else if 0x4000000 ≤ o && o < 0x4000008 then some (.fspb f)
  else if 0x5000000 ≤ o && o < 0x5100000 then some (.icore f ((o - 0x5000000) / 0x10000) (o % 0x10000))
  else if 0x6000000 ≤ o && o < 0x6040000 then some (.island f ((o - 0x6000000) / 0x10000) (o % 0x10000))
  else if 0x7000000 ≤ o && o < 0x7000050 then some (.sup f (o - 0x7000000))
  else none

/-- Bits [h:l] of a written value, in place. -/
def field (v : W64) (h l : Nat) : W64 := BitVec.ofNat 64 (bits v.toNat h l * 2 ^ l)

/-- A word of two halves. -/
def halves (hi lo : W32) : W64 := hi ++ lo

/-! ## Reads -/

/-- CSTAT (R110). -/
def cstatOf (s : State) (sl : Slot) : W64 :=
  BitVec.ofNat 64 ((match parkedOf s sl with
    | [] => 0
    | p :: _ => p.code * 2 ^ 24 + 256) + (flagsOf s sl).toNat)

/-- The slot of a number 8e + k. -/
def slotAt (c : CoreId) (i : Nat) : Slot := ⟨c, i / 8, i % 8⟩

/-- FSTAT (R217). -/
def fstatOf (s : State) (sl : Slot) (n : Node) : W64 :=
  let r := frnOf s sl
  let held := (mstoreOf s sl.core).any fun m => m.e == sl.e && m.id.k == sl.k && (match m.kind with
    | .held _ => true
    | _ => false)
  BitVec.ofNat 64 (r.elems.length * 2 ^ 24 + n.word.toNat % 64 * 2 ^ 16 + r.merged.toNat * 2 ^ 9 + (decide (4 < r.elems.length)).toNat * 2 ^ 8
    + held.toNat)

/-- A frontier register of a slot, zero where no PROBE stands (R217). -/
def frnReg (s : State) (sl : Slot) (i : Nat) : W64 :=
  match node? s sl with
  | none => 0
  | some n =>
    if opOf n.word != 0x75 then 0
    else if i < 4 then (((frnOf s sl).elems[i]?).map timeWord).getD 0
    else if i = 4 then fstatOf s sl n
    else 0

/-- MPER, MBUD, MUSE and MERR of a unit (R313); a value written stands in its register before it is in force. -/
def budReg (s : State) (u : UnitId) (o : Nat) : W64 :=
  let b := budgetOf s u
  match o with
  | 0x7000 => BitVec.ofNat 64 (b.nperiod.getD b.period)
  | 0x7008 => b.nbud.getD b.bud
  | 0x7010 => BitVec.ofNat 64 (((List.range 4).map fun i => min ((b.used[i]?).getD 0) 65535 * 2 ^ (16 * i)).sum)
  | 0x7018 => halves b.corr b.hopr
  | _ => 0

/-- A register of a core's block (R110, R217, R253, R313). -/
def coreReg (s : State) (c : CoreId) (o : Nat) : W64 :=
  if 0x7000 ≤ o then budReg s (.core c) o
  else if memCol c.cx then 0
  else if o < 0x1000 then
    let sl := slotAt c (o / 16)
    if o % 16 = 0 then holdOf s sl else if o % 16 = 8 then cstatOf s sl else 0
  else if o = 0x1000 then tgetD s.movp c 0
  else if o = 0x1008 then halves (BitVec.ofNat 32 ((mstoreOf s c).filter isOvfl).length) (tgetD s.movl c 0)
  else if o = 0x1010 then halves 0 (tgetD s.parcnt c 0)
  else if 0x2000 ≤ o && o < 0x6000 then frnReg s (slotAt c ((o - 0x2000) / 64)) (o % 64 / 8)
  else if 0x6000 ≤ o && o < 0x6600 then ptagWord (ptagOf s ⟨c, (o - 0x6000) / 8⟩)
  else if o = 0x6600 then halves 0 (tgetD s.x.hctr c 0)
  else if o = 0x6608 then BitVec.ofNat 64 ((waitlOf s (.core c)).filter fun e => !isAon e.req).length
  else 0

/-- CTXSTAT of the partition whose home field this is (R416). -/
def ctxstatReg (s : State) (f : Nat) : W64 :=
  match partOfField s f with
  | none => 0
  | some p =>
    if homeField s p != f then 0
    else
      let c := ctxStat s p
      BitVec.ofNat 64 (c.step * 2 ^ 32 + (match c.shad with
          | some x => 2 ^ 25 + x * 2 ^ 16
          | none => 0) + (match c.live with
          | some x => 2 ^ 9 + x
          | none => 0))

/-- A supervisor register (R416). -/
def supReg (s : State) (f o : Nat) : W64 :=
  let r := supr s f
  match o with
  | 0x00 => r.frbase
  | 0x08 => BitVec.ofNat 64 r.frlog2
  | 0x10 => r.frwr
  | 0x18 => r.frrd
  | 0x20 => r.ctxbase
  | 0x28 => BitVec.ofNat 64 r.hangiv
  | 0x30 => r.hrep
  | 0x38 => r.trbase
  | 0x40 => halves 0 r.trlost
  | 0x48 => ctxstatReg s f
  | _ => 0

/-- A port of the link controller at reset: DOWN, no key, counters zero (R331, R334, R335). ACKCTR names no frame before one is accepted
(log 115). -/
def LPort.reset : LPort where
  st := .down
  txCur := none
  txNext := none
  rxCur := none
  rxNext := none
  ackd := none
  txctr := 0
  rxctr := 0
  due := false
  retry := 0
  authf := 0
  refus := 0
  outq := []
  redo := 0
  unack := []
  part_ := []
  acked := BitVec.allOnes 48
  nakd := false
  nakAt := none
  rxany := false
  ackAt := none
  timing := []
  sent := []
  uncred := []
  back := []
  served := []

/-- A port. -/
def lportOf (s : State) (p : Nat) : LPort := tgetD s.ports p LPort.reset

/-- STATE of PSTAT (R335). -/
def PState.code : PState → Nat
  | .down => 0
  | .keywait => 1
  | .up => 2
  | .keystall => 3

/-- A register of a port (R335). -/
def portReg (s : State) (p o : Nat) : W64 :=
  let l := lportOf s p
  match o with
  | 0 => halves ((l.txCur.map LKey.kid).getD 0) (BitVec.ofNat 32 (l.due.toNat * 16 + l.txNext.isSome.toNat * 8 + l.st.code))
  | 8 => l.txctr.setWidth 64
  | 16 => l.rxctr.setWidth 64
  | 24 => halves l.retry l.authf
  | _ => 0

/-- A register's value. -/
def regVal (s : State) : RegAt → W64
  | .core c o => coreReg s c o
  | .fspb f => tgetD s.fspb f 0
  | .icore f n o => budReg s (.ic f n) o
  | .island f n o => if o = 0 then siStatus (siGet s f n) else 0
  | .sup f o => supReg s f o
  | .link o => if o = 0 then s.dead.setWidth 64 else if o = 8 then BitVec.ofNat 64 s.ltmo else if o = 16 then BitVec.ofNat 64 s.wafno else 0
  | .port p o => portReg s p o

/-! ## Writes -/

/-- A write of a unit's budget registers: MPER outside its range is ignored, MBUD and MPER wait for the next period (R312, R313). -/
def budWrite (s : State) (u : UnitId) (o : Nat) (v : W64) : State :=
  let b := budgetOf s u
  let put (b : Budget) : State := { s with budgets := tset s.budgets u b }
  match o with
  | 0x7000 =>
    let p := bits v.toNat 16 0
    if 64 ≤ p && p ≤ 65536 then put { b with nperiod := some p } else s
  | 0x7008 => put { b with nbud := some v }
  | 0x7018 => put { b with corr := v.extractLsb' 32 32, hopr := v.extractLsb' 0 32 }
  | _ => s

/-- A write of a core's block: HOLD, CSTAT's flags by ones, MOVP, MOVL's CAP, PARCNT and the budget registers (R110, R313). -/
def coreWrite (s : State) (c : CoreId) (o : Nat) (v : W64) : State :=
  if 0x7000 ≤ o then budWrite s (.core c) o v
  else if memCol c.cx then s
  else if o < 0x1000 then
    let sl := slotAt c (o / 16)
    if o % 16 = 0 then { s with x := { s.x with hold := tset s.x.hold sl v } }
    else if o % 16 = 8 then { s with x := { s.x with flags := tset s.x.flags sl (flagsOf s sl &&& ~~~(v.extractLsb' 0 5)) } }
    else s
  else if o = 0x1000 then { s with movp := tset s.movp c (field v 55 16) }
  else if o = 0x1008 then { s with movl := tset s.movl c (v.extractLsb' 0 32) }
  else if o = 0x1010 then { s with parcnt := tset s.parcnt c (v.extractLsb' 0 32) }
  else s

/-- A write of a supervisor register (R416). A write of TRBASE begins the trace ring again. -/
def supWrite (s : State) (f o : Nat) (v : W64) : State :=
  let r := supr s f
  let put (r : SupR) : State := { s with supr := tset s.supr f r }
  match o with
  | 0x00 => put { r with frbase := field v 51 12 }
  | 0x08 => let n := bits v.toNat 4 0; if 12 ≤ n && n ≤ 24 then put { r with frlog2 := n } else s
  | 0x18 => put { r with frrd := v }
  | 0x20 => put { r with ctxbase := field v 51 15 }
  | 0x28 => let n := bits v.toNat 5 0; if 10 ≤ n && n ≤ 40 then put { r with hangiv := n } else s
  | 0x30 => put { r with hrep := field v 51 0 }
  | 0x38 => put { r with trbase := field v 51 0, trpos := 0 }
  | 0x40 => put { r with trlost := v.extractLsb' 0 32 }
  | _ => s

/-- A register write applied at its unit (R3): reserved bits and read-only registers are not written. -/
def regPut (s : State) (r : RegAt) (v : W64) : State :=
  match r with
  | .core c o => coreWrite s c o v
  | .fspb f => { s with fspb := tset s.fspb f (field v 55 16) }
  | .icore f n o => budWrite s (.ic f n) o v
  | .island .. => s
  | .sup f o => supWrite s f o v
  | .link o =>
    let n := bits v.toNat 19 0
    if o = 8 && 1 ≤ n && n ≤ 1000000 then { s with ltmo := n } else s
  | .port p o =>
    if o = 24 then { s with ports := tset s.ports p { lportOf s p with retry := v.extractLsb' 32 32, authf := v.extractLsb' 0 32 } } else s

/-- The register that a physical address names. -/
def regOf (pa : Nat) : Option RegAt := regAt (bits pa 45 40) (bits pa 39 0)

/-- Which step applies a write to a register. -/
inductive RegStep where
  | cstat | mper | mbud | ltmo | frctl | hangiv | other
  deriving DecidableEq, Repr

/-- The step that a register's write is. -/
def RegAt.step : RegAt → RegStep
  | .core c o =>
    if o = 0x7000 then .mper else if o = 0x7008 then .mbud else if o < 0x1000 && o % 16 = 8 && !memCol c.cx then .cstat else .other
  | .icore _ _ o => if o = 0x7000 then .mper else if o = 0x7008 then .mbud else .other
  | .link o => if o = 8 then .ltmo else .other
  | .sup _ o => if o = 0x08 then .frctl else if o = 0x28 then .hangiv else .other
  | _ => .other

/-- A register write that has reached its unit is applied, if it is of the step's kind. -/
def applyRegw (s : State) (n : Nat) (k : RegStep) : State :=
  match first? (fun w : RegW => w.n == n) s.regw with
  | none => s
  | some w =>
    match regOf w.pa with
    | none => s
    | some r => if r.step = k then regPut { s with regw := dropFirst (fun w => w.n == n) s.regw } r w.v else s

/-- CSTAT_WRITE (R110): FLAGS cleared where a one is written. -/
def execCstatWrite (n : Nat) (s : State) : Host.Outcome State Fault Refusal := .next (applyRegw s n .cstat)

/-- MPER_WRITE (R312, R313). -/
def execMperWrite (n : Nat) (s : State) : Host.Outcome State Fault Refusal := .next (applyRegw s n .mper)

/-- MBUD_WRITE (R312, R313). -/
def execMbudWrite (n : Nat) (s : State) : Host.Outcome State Fault Refusal := .next (applyRegw s n .mbud)

/-- LTMO_WRITE (R335). -/
def execLtmoWrite (n : Nat) (s : State) : Host.Outcome State Fault Refusal := .next (applyRegw s n .ltmo)

/-- FRCTL_WRITE (R416). -/
def execFrctlWrite (n : Nat) (s : State) : Host.Outcome State Fault Refusal := .next (applyRegw s n .frctl)

/-- HANGIV_WRITE (R416). -/
def execHangivWrite (n : Nat) (s : State) : Host.Outcome State Fault Refusal := .next (applyRegw s n .hangiv)

/-- REGISTER_WRITE (R3): any other register. -/
def execRegisterWrite (n : Nat) (s : State) : Host.Outcome State Fault Refusal := .next (applyRegw s n .other)

end Sys2Proof.Machine
end

