-- ==== Sys2Proof/Machine/Sequencer.lean ====
section
/-! DEFINITION. The sequencer words of a user graph that read or write more than scalar registers, and what each waits for (R69, R87 to R96,
R399): a word acts at once where its condition holds, and else waits until GRAPH_RESUME finds that it does. -/

namespace Sys2Proof.Machine

open Sys2Proof

/-! ## SLD and SST of a user graph (R87) -/

/-- The address of SLD and SST. -/
def ldstAddr (w : SW) (g : Graph) : Nat := (g.reg w.a + w.imm.signExtend 64).toNat

/-- The 8 bytes that a user graph reads at a virtual address. -/
def seqRead (s : State) (g : Graph) (va : Nat) : Except Nat (State × W64) :=
  match translate s g.ctx va (true, false) with
  | .error c => .error c
  | .ok (pa, cmp) => (pieceRead (walkFix s g.ctx va) g.ctx g.lid pa 8 cmp).map fun q => (q.1, BitVec.ofNat 64 (leNat q.2))

/-- The tag of a graph's accesses to other wafers. -/
def Graph.tag (g : Graph) : Nat := if g.sup then 0 else g.lid + 1

/-- A word's access: one to another wafer is sent and timed, and the word waits for its answer (R69, R336). -/
def farWord (s : State) (f : Nat) (g : Graph) (to_ : Option Nat) (w : Wait) (k : State → State) : State :=
  if farNew s (.seqr f) g.tag to_ then waitFor (farSend s (.seqr f) g.tag g.lid (to_.getD 0)) g w else k (farGot s (.seqr f) g.tag to_)

/-- An access of a sequencer to a history of this wafer that an operation is changing waits at the home (R228). -/
def histHolds (s : State) (ctx va : Nat) (rights : Bool × Bool) : Bool :=
  match translate s ctx va rights with
  | .ok (pa, _) => paWafer pa == s.wafno && placeInUse s pa 8
  | .error _ => false

/-- SLD's effect: the word as its home gives it; k says how the graph goes on. -/
def loadWord (s : State) (f : Nat) (g : Graph) (d : BitVec 4) (va : Nat) (k : State → Graph → State) : State :=
  match seqRead s g va with
  | .error c => graphFault s f g c va
  | .ok (s, v) => k s (g.setReg d v)

/-- SST's effect. -/
def storeWord (s : State) (f : Nat) (g : Graph) (va : Nat) (v : W64) (k : State → Graph → State) : State :=
  match writeAt s g.ctx g.lid va (leBytes 8 v.toNat) with
  | .error c => graphFault s f g c va
  | .ok s => k s g

/-- The graph resumes when its answer has come. -/
def answered (s : State) (g : Graph) : State := waitFor s g .access

/-- The graph goes on at its next word. -/
def goesOn (s : State) (g : Graph) : State := putGraph s g.next

/-- SLD in a launch's context: the word as its home gives it now; the graph resumes when the answer has come. -/
def userLoad (s : State) (w : SW) (f : Nat) (g : Graph) : State :=
  let va := ldstAddr w g
  if va % 8 ≠ 0 then graphFault s f g Code.align va
  else farWord s f g (farWafer s g.ctx va (true, false)) (.load w.d va) fun s =>
    if histHolds s g.ctx va (true, false) then waitFor s g (.load w.d va) else loadWord s f g w.d va answered

/-- SST in a launch's context. -/
def userStore (s : State) (w : SW) (f : Nat) (g : Graph) : State :=
  let va := ldstAddr w g
  if va % 8 ≠ 0 then graphFault s f g Code.align va
  else farWord s f g (farWafer s g.ctx va (false, true)) (.store va (g.reg w.d)) fun s =>
    if histHolds s g.ctx va (false, true) then waitFor s g (.store va (g.reg w.d)) else storeWord s f g va (g.reg w.d) answered

/-! ## SLD and SST of the supervisor graph (R399) -/

/-- A record of class 3 for an access to an address that no unit populates. -/
def supMiss (s : State) (f : Nat) (g : Graph) (pa : Nat) : State := recordOnly s (.seqr f) Code.xlat g.ctx f g.lid none pa t00 0

/-- What a physical address names to the supervisor: a register, other memory of this wafer, another wafer, or nothing. -/
inductive SupAt where
  | reg (r : RegAt)
  | mem (t : Tgt)
  | away
  | none_
  deriving DecidableEq, Repr

/-- The place of a physical address, of 52 bits. -/
def supAt (s : State) (pa : Nat) : SupAt :=
  if 2 ^ 52 ≤ pa then .none_
  else if paWafer pa != s.wafno then .away
  else match decodePA s pa with
    | none => .none_
    | some (.reg f o) => match regAt f o with
      | some r => .reg r
      | none => .none_
    | some t => .mem t

/-- Bytes of memory that the supervisor reads at a physical address: no grant, no key (R399; log 11). -/
def supRead (s : State) (pa n : Nat) (t : Tgt) : Except Nat (State × List Byte) :=
  match t with
  | .win st k o => match tget s.wins (st, k) with
    | some w => windowRead w w.lid s o n
    | none => .error Code.xlat
  | _ => if armedAt s pa then .error Code.paneOwner else homeRead s none pa n false

/-- Bytes of memory that the supervisor writes at a physical address. -/
def supPut (s : State) (pa : Nat) (bs : List Byte) (t : Tgt) : Except Nat State :=
  match t with
  | .win st k o => match tget s.wins (st, k) with
    | some w => windowWrite w w.lid s o bs
    | none => .error Code.xlat
  | _ => if armedAt s pa then .error Code.paneOwner else (homeWrite s none pa bs false).map fun s => wakeStwait s pa bs.length

/-- A supervisor's access to another wafer at its end: the bytes to a register, or a write, which leaves no trace here (log 9). -/
def supFar (s : State) (f : Nat) (g : Graph) (pa : Nat) (d : Option (BitVec 4)) (k : State → Graph → State) : State :=
  if s.dead.getLsbD (paWafer pa) then graphFault s f g Code.peerDead pa
  else k s (match d with
    | some d => g.setReg d (BitVec.ofNat 64 (leNat (remoteRead s pa 8)))
    | none => g)

/-- The supervisor's access to memory of this wafer waits at the home of a history that an operation is changing (R228). -/
def supHolds (s : State) (pa : Nat) : Bool := paWafer pa == s.wafno && placeInUse s pa 8

/-- SLD of the supervisor graph from memory of this wafer. -/
def supGet (s : State) (f : Nat) (g : Graph) (d : BitVec 4) (pa : Nat) (t : Tgt) (k : State → Graph → State) : State :=
  match supRead s pa 8 t with
  | .error c => graphFault s f g c pa
  | .ok (s, b) => k s (g.setReg d (BitVec.ofNat 64 (leNat b)))

/-- SST of the supervisor graph to memory of this wafer. -/
def supSet (s : State) (f : Nat) (g : Graph) (pa : Nat) (v : W64) (t : Tgt) (k : State → Graph → State) : State :=
  match supPut s pa (leBytes 8 v.toNat) t with
  | .error c => graphFault s f g c pa
  | .ok s => k s g

/-- SLD of the supervisor graph. -/
def supLoad (s : State) (w : SW) (f : Nat) (g : Graph) : State :=
  let pa := ldstAddr w g
  if pa % 8 ≠ 0 then graphFault s f g Code.align pa
  else match supAt s pa with
    | .none_ => putGraph (supMiss s f g pa) (g.setReg w.d (BitVec.allOnes 64)).next
    | .reg r => waitFor s (g.setReg w.d (regVal s r)) .access
    | .away => farWord s f g (some (paWafer pa)) (.load w.d pa) fun s => supFar s f g pa (some w.d) answered
    | .mem t => if supHolds s pa then waitFor s g (.load w.d pa) else supGet s f g w.d pa t answered

/-- SST of the supervisor graph; a register's unit applies the write in a step of its own. -/
def supStore (s : State) (w : SW) (f : Nat) (g : Graph) : State :=
  let pa := ldstAddr w g
  if pa % 8 ≠ 0 then graphFault s f g Code.align pa
  else match supAt s pa with
    | .none_ => putGraph (supMiss s f g pa) g.next
    | .reg _ =>
      let (n, s) := fresh s
      waitFor { s with regw := s.regw ++ [⟨n, pa, g.reg w.d⟩] } g (.regw n)
    | .away => farWord s f g (some (paWafer pa)) (.store pa (g.reg w.d)) fun s => supFar s f g pa none answered
    | .mem t => if supHolds s pa then waitFor s g (.store pa (g.reg w.d)) else supSet s f g pa (g.reg w.d) t answered

/-- SLD (R87, R399). -/
def execSld (w : SW) (s : State) : Host.Outcome State Fault Refusal :=
  .next (seqWord s fun f g => if g.sup then supLoad s w f g else userLoad s w f g)

/-- SST (R87, R399). -/
def execSst (w : SW) (s : State) : Host.Outcome State Fault Refusal :=
  .next (seqWord s fun f g => if g.sup then supStore s w f g else userStore s w f g)

/-! ## ARMS and WAITS (R88, R89) -/

/-- The +1 of ARMS for each source of a section (R212). -/
def armItems (s : State) (z : Sect) : List CountItem :=
  z.srcs.map fun sl => ⟨((node? s sl).map Node.stage).getD 0, t00, 1⟩

/-- A section armed with n: armed rises, and either the arming completes at once or its sources may emit, and the peer trackers hear of the
counts of its sources (R212, R214). -/
def armSect (s : State) (lid : Nat) (l : Launch) (k n : Nat) (z : Sect) : State :=
  let z := { z with armed := z.armed + 1 }
  if n = 0 then endArming s lid l k z
  else tellSect (tellTrackers (modLaunch s lid fun l => { l with
    secs := tset l.secs k { z with cur := some n, emitted := [] }
    counts := addItems l.counts (armItems s z) }) lid (armItems s z)) lid l k z

/-- ARMS: none while an earlier arming of the section runs. -/
def tryArms (s : State) (f : Nat) (g : Graph) (k n : Nat) : Option State :=
  match (launch? s g.lid).bind fun l => (tget l.secs k).map fun z => (l, z) with
  | none => some (graphFault s f g Code.launchRange 0)
  | some (l, z) =>
    if z.field != f || z.srcs.isEmpty || 2 ^ 24 ≤ n then some (graphFault s f g Code.launchRange 0)
    else if z.armed != z.completed then none
    else some (putGraph (armSect s g.lid l k n z) g.next)

/-- Every arming of a section so far has completed, of another wafer's section as far as this wafer has heard; one never armed satisfies this
(R89; log 113). -/
def sectIdle (s : State) (lid k : Nat) : Bool :=
  match sectOf s lid k with
  | some z => z.armed == z.completed
  | none => match (launch? s lid).bind fun l => tget l.farSecs k with
    | some c => c.1 == c.2
    | none => true

/-- WAITS. -/
def tryWaits (s : State) (g : Graph) (k : Nat) : Option State := if sectIdle s g.lid k then some (putGraph s g.next) else none

/-! ## WSTAMP (R90) -/

/-- The wafer of a physical address, where it is another one than this. -/
def paAway (s : State) (pa : Nat) : Option Nat := if paWafer pa == s.wafno then none else some (paWafer pa)

/-- A step of a waiting word: where its access to another wafer has still to be sent, it is, and the word waits on; one that finds its
condition false there asks again. -/
def farTry (s : State) (f : Nat) (g : Graph) (to_ : Option Nat) (w : Wait) (k : State → Option State) : Option State :=
  if farNew s (.seqr f) g.tag to_ then some (waitFor (farSend s (.seqr f) g.tag g.lid (to_.getD 0)) g w)
  else
    let t := farGot s (.seqr f) g.tag to_
    match k t with
    | some u => some u
    | none => if to_.isSome then some (waitFor t g w) else none

/-- WSTAMP: none while the word is below the operand. -/
def tryStamp (s : State) (f : Nat) (g : Graph) (va pa : Nat) (cmp : Bool) (v : W64) : Option State :=
  farTry s f g (paAway s pa) (.wstamp va pa cmp v) fun s => match pieceRead s g.ctx g.lid pa 8 cmp with
  | .error c => some (graphFault s f g c va)
  | .ok (s, b) => if v.toNat ≤ leNat b then some (putGraph s g.next) else none

/-! ## SQPOST (R73, R91) -/

/-- SQPOST's claim: one fetch-and-add on WRIDX. DESIGN CHOICE (log 136): it is done wherever the descriptor lies, in scratchpad or a window too,
where QPOST would fault. -/
def postClaim (s : State) (g : Graph) (desc : Nat) : Except Nat (State × W64) :=
  match translate s g.ctx (desc + 16) (true, true) with
  | .error c => .error c
  | .ok (pa, cmp) => match pieceRead (walkFix s g.ctx (desc + 16)) g.ctx g.lid pa 8 cmp with
    | .error c => .error c
    | .ok (s, b) => (pieceWrite s g.ctx g.lid pa (leBytes 8 (leNat b + 1)) cmp).map fun s => (s, BitVec.ofNat 64 (leNat b))

/-- The post of a claimed index: none while the ring has no room, else the body and last the lap stamp. DESIGN CHOICE (log 137): a ring of fewer
than 64 bytes never has room. -/
def tryPost (s : State) (f : Nat) (g : Graph) (src desc : Nat) (j : W64) : Option State :=
  farTry s f g (farWafer s g.ctx desc (true, true)) (.sqpost src desc (some j)) fun s => match readAt s g.ctx g.lid desc 64 with
  | .error e => some (graphFault s f g e.1 e.2)
  | .ok (s1, d) =>
    let n := leAt d 8 4 / 64
    if n = 0 || n ≤ (j.toNat + 2 ^ 64 - leAt d 24 8) % 2 ^ 64 then none
    else
      let slot := leAt d 0 8 + 64 * (j.toNat % n)
      some (match readAt s1 g.ctx g.lid src 56 with
        | .error e => graphFault s f g e.1 e.2
        | .ok (s2, b) => match writeAt s2 g.ctx g.lid slot b with
          | .error c => graphFault s f g c slot
          | .ok s3 => match writeAt s3 g.ctx g.lid (slot + 56) (leBytes 8 (j.toNat / n + 1)) with
            | .error c => graphFault s f g c slot
            | .ok s4 => putGraph s4 { g with wait := some .access })

/-- The index is claimed, and the post goes on or waits for room. -/
def claimPost (s : State) (f : Nat) (g : Graph) (src desc : Nat) : State :=
  match postClaim s g desc with
  | .error c => graphFault s f g c desc
  | .ok (s, j) => (tryPost s f g src desc j).getD (waitFor s g (.sqpost src desc (some j)))

/-! ## LAUNCH (R92) -/

/-- A LAUNCH word's descriptor read, and the child launch begun: it belongs to the line of its parent's root. DESIGN CHOICE (log 138): a descriptor
that breaks R78's layout elsewhere than in TYPE is refused with QUEUE_PACKET too. -/
def childLaunch (s : State) (f : Nat) (g : Graph) (va : Nat) : State :=
  match readAt s g.ctx g.lid va 64 with
  | .error e => graphFault s f g e.1 e.2
  | .ok (s, b) =>
    if leAt b 0 1 != 1 || 2 ≤ leAt b 1 1 || !launchBodyOk b then graphFault s f g Code.queuePacket va
    else
      let l := { Launch.start ((partOfCtx s g.ctx).getD 0) g.ctx f none g.prio 0 (leAt b 8 8) (leAt b 16 8) (leAt b 24 8) with
        root := if g.sup then none else some (rootOf s g.lid) }
      putGraph ((beginLaunch s l g.lid true).getD s) g.next

/-! ## RECFG (R94) -/

/-- The lines of a core that a routing word touches. -/
def linesOf (w : W32) : List Nat :=
  let v := w.toNat
  match rKind w with
  | 1 => [bits v 21 17]
  | 2 => (if bits v 27 26 == 3 then [bits v 25 21] else []) ++ (if bits v 18 17 == 3 then [bits v 16 12] else [])
  | _ => []

/-- Every edge buffer of an output on one of some lines of a core is empty; a buffer that is only reserved holds no token. -/
def linesEmpty (s : State) (c : CoreId) (ls : List Nat) : Bool :=
  (bindsOf (routesOf s c)).all fun b => b.2.1 < 4 || !ls.contains b.2.2 || 
    ((edgeOf s ⟨c, b.1, b.2.1⟩).buf.isEmpty && (edgeOf s ⟨c, b.1, b.2.1⟩).wait.all fun h => h.tok.isNone)

/-- A core's table with one entry replaced, an empty word removing it. -/
def withEntry (s : State) (c : CoreId) (e : Nat) (w : W32) : State :=
  let t := tgetD s.x.routes c []
  { s with x := { s.x with routes := tset s.x.routes c (if rKind w = 0 then tdel t e else tset t e w) } }

/-- A token of an edge under a new table goes on to the new inputs that it has not reached before; one that every new input has accepted
leaves, and one whose circuit is left with no input stays where it stands (R120; log 106). -/
def reroute (old new : List InPort) (b : BufTok) : Option BufTok :=
  let todo := new.filter fun d => b.todo.contains d || !old.contains d
  if todo.isEmpty && !new.isEmpty then none else some { b with todo := todo }

/-- Every edge buffer follows the new tables (R94 step 4). -/
def rerouteAll (old s : State) : State :=
  let l : Tbl EdgeId EdgeSt := s.x.edges.map fun q =>
    let a := targets old q.1
    let b := targets s q.1
    if a = b then q else (q.1, { q.2 with buf := q.2.buf.filterMap (reroute a b) })
  { s with x := { s.x with edges := l } }

/-- The code with which a core's table is refused after a replacement. -/
def recfgBad (s : State) (lid : Nat) (c : CoreId) (w : W32) (new : List W32) : Option Nat :=
  let on (mine : Bool) := (s.x.nodes.filter fun q => q.1.core == c && (q.2.lid == lid) == mine).map fun q => (q.1.e, q.2.word)
  let cuts := ((launch? s lid).map Launch.cuts).getD []
  let part := ((launch? s lid).map Launch.part).getD 48
  if !routeOk w then some Code.cfgField else routesBad c (on true) (on false) (cutIns cuts s.wafno c) (cutPool cuts s.wafno c) new fun f => (partFields s part).contains f

/-- RECFG once it need not wait. -/
def recfgApply (s : State) (f : Nat) (g : Graph) (c : CoreId) (e : Nat) (w : W32) : State :=
  let t := withEntry s c e w
  match recfgBad s g.lid c w (routesOf t c) with
  | some code => graphFault s f g code 0
  | none => putGraph (rerouteAll s t) g.next

/-- RECFG: none while an output on a line that either entry touches holds a token. -/
def tryRecfg (s : State) (f : Nat) (g : Graph) (c : CoreId) (e : Nat) (w : W32) : Option State :=
  let old := tgetD (tgetD s.x.routes c []) e 0
  if linesEmpty s c (linesOf old ++ linesOf w) then some (recfgApply s f g c e w) else none

/-! ## FWAIT, CFG, SFLAGS (R93, R95, R96) -/

/-- FWAIT: none while the frontier has an element at or below the time. -/
def tryFwait (s : State) (f : Nat) (g : Graph) (sl : Slot) (t : Time) : Option State :=
  match launch? s g.lid, node? s sl with
  | some l, some n =>
    if n.lid != g.lid || opOf n.word != 0x75 then some (graphFault s f g Code.cfgField 0)
    else if passed (frontierRegs l (n.word.toNat % 64)).elems t then some (putGraph s g.next)
    else none
  | _, _ => some (graphFault s f g Code.cfgField 0)

/-- CFG: none while a section of the launch in this field runs. -/
def tryCfg (s : State) (f : Nat) (g : Graph) (image : Nat) : Option State :=
  match launch? s g.lid with
  | none => some (graphFault s f g Code.prot image)
  | some l =>
    if fieldQuiet l f then farTry s f g (farWafer s g.ctx image (true, false)) (.cfg image) fun s => some (cfgApply s f g image) else none

/-- The fields of a launch on every wafer, field f of wafer w as 64·w + f. -/
def flagPlaces (s : State) (lid : Nat) : List Nat :=
  match launch? s lid with
  | some l => (l.fields.map fun f => 64 * s.wafno + f) ++ l.wafers.flatMap fun w => ((parseImg l.bytes).fieldsOn w).map fun f => 64 * w + f
  | none => []

/-- The tag of a question for a flag word of another wafer. -/
def flagTag (g : Graph) (q : Nat) : Nat := 2 ^ 20 * (q + 1) + g.tag

/-- One field's sequencer is asked for its flag word, over class 0, and the question to another wafer is timed (R96, R336). -/
def askFlag (f : Nat) (g : Graph) (id : Nat) (s : State) (q : Nat) : State :=
  let s := sendPkt s (.seqr f) 0 (.seqr (q % 64)) (q / 64) 0 (.flagAsk g.lid g.ctx f q id)
  if q / 64 = s.wafno then s else farSend s (.seqr f) (flagTag g q) g.lid (q / 64)

/-- Every field of the launch is asked whose wafer is not dead, and the word waits for every answer. -/
def askFlags (s : State) (f : Nat) (g : Graph) (d : Nat) : State :=
  let l := flagPlaces s g.lid
  let (id, s) := fresh s
  waitFor ((l.filter fun q => !s.dead.getLsbD (q / 64)).foldl (askFlag f g id) s) g (.flagsAll d id l 0)

/-- An answer taken by the word that waits for it. -/
def flagIn (s : State) (f lid q id : Nat) (v : BitVec 5) : State :=
  let l := (graphsOf s f).map fun g => match g.wait with
    | some (.flagsAll d i left acc) =>
      if g.lid == lid && i = id && left.contains q then { g with wait := some (.flagsAll d i (left.erase q) (acc ||| v)) } else g
    | _ => g
  { s with x := { s.x with graphs := tset s.x.graphs f l } }

/-- One question or answer of SFLAGS that has arrived: the field's word as it stands now goes back, an answer is gathered (R96, R310). -/
def flagStep (s : State) (p : Packet) : State :=
  match p.msg with
  | .flagAsk lid ctx f q id =>
    if arrived s p then
      sendPkt (dropPkt s p.id) (.seqr (q % 64)) 0 (.seqr f) p.srcW 0 (.flagTold lid ctx f q id (tgetD (execOf s ctx).flagw (lid, q % 64) 0))
    else s
  | .flagTold lid ctx f q id v =>
    if arrived s p then
      let t := { dropPkt s p.id with remotes := s.remotes.filter fun m =>
        !(m.unit == .seqr f && m.what == .access (2 ^ 20 * (q + 1) + (lid + 1)) lid) }
      onCopy t ctx fun s => flagIn s f lid q id v
    else s
  | _ => s

/-- After a step, the questions and answers of SFLAGS that have arrived are taken. -/
def letFlags (s : State) : State := s.net.foldl flagStep s

/-- SFLAGS with IMM[0] = 1 is done once every answer has come; a wafer found dead gives none (R337). -/
def stepFlags (s : State) (f : Nat) (g : Graph) (d : Nat) (left : List Nat) (acc : BitVec 5) : Option State :=
  if left.isEmpty then some (putGraph s (g.setReg (BitVec.ofNat 4 d) (acc.setWidth 64)).next)
  else if left.any fun q => s.dead.getLsbD (q / 64) then some (graphFault s f g Code.peerDead 0)
  else none

/-! ## The words -/

/-- A word acts where its condition holds, and else waits. -/
def orWait (s : State) (g : Graph) (w : Wait) (r : Option State) : State := r.getD (waitFor s g w)

/-- CFG (R93). -/
def execCfg (w : SW) (s : State) : Host.Outcome State Fault Refusal :=
  .next (seqWord s fun f g =>
    let va := (g.reg w.a).toNat
    if va % 64 ≠ 0 then graphFault s f g Code.align va else orWait s g (.cfg va) (tryCfg s f g va))

/-- ARMS (R88). -/
def execArms (w : SW) (s : State) : Host.Outcome State Fault Refusal :=
  .next (seqWord s fun f g =>
    let k := w.imm.toNat % 256
    let n := (g.reg w.d).toNat
    orWait s g (.arms k n) (tryArms s f g k n))

/-- WAITS (R89). -/
def execWaits (w : SW) (s : State) : Host.Outcome State Fault Refusal :=
  .next (seqWord s fun _ g => let k := w.imm.toNat % 256; orWait s g (.waits k) (tryWaits s g k))

/-- WSTAMP (R90). -/
def execWstamp (w : SW) (s : State) : Host.Outcome State Fault Refusal :=
  .next (seqWord s fun f g =>
    let va := (g.reg w.a).toNat
    let v := g.reg w.b
    if va % 8 ≠ 0 then graphFault s f g Code.align va
    else match translate s g.ctx va (true, false) with
      | .error c => graphFault s f g c va
      | .ok (pa, cmp) => orWait s g (.wstamp va pa cmp v) (tryStamp s f g va pa cmp v))

/-- SQPOST (R91): the index is claimed when the word issues. -/
def execSqpost (w : SW) (s : State) : Host.Outcome State Fault Refusal :=
  .next (seqWord s fun f g =>
    let src := (g.reg w.a).toNat
    let desc := (g.reg w.b).toNat
    if src % 64 ≠ 0 then graphFault s f g Code.align src
    else if desc % 64 ≠ 0 then graphFault s f g Code.align desc
    else match translate s g.ctx src (true, false) with
      | .error c => graphFault s f g c src
      | .ok _ => farWord s f g (farWafer s g.ctx desc (true, true)) (.sqpost src desc none) fun s => claimPost s f g src desc)

/-- LAUNCH (R92): a child launch in the parent's context, partition and priority. -/
def execLaunch (w : SW) (s : State) : Host.Outcome State Fault Refusal :=
  .next (seqWord s fun f g =>
    let va := (g.reg w.a).toNat
    if va % 64 ≠ 0 then graphFault s f g Code.align va
    else farWord s f g (farWafer s g.ctx va (true, false)) (.launch va) fun s => childLaunch s f g va)

/-- RECFG (R94). -/
def execRecfg (w : SW) (s : State) : Host.Outcome State Fault Refusal :=
  .next (seqWord s fun f g =>
    let a := (g.reg w.a).toNat
    let c : CoreId := ⟨f, bits a 9 5, bits a 4 0⟩
    let e := w.imm.toNat % 256
    let r : W32 := (g.reg w.b).extractLsb' 0 32
    if 1024 ≤ a || !isCompute c then graphFault s f g Code.cfgField 0
    else if !(s.x.nodes.any fun q => q.1.core == c && q.2.lid == g.lid) then graphFault s f g Code.prot 0
    else orWait s g (.recfg c e r) (tryRecfg s f g c e r))

/-- FWAIT (R95). -/
def execFwait (w : SW) (s : State) : Host.Outcome State Fault Refusal :=
  .next (seqWord s fun f g =>
    let i := w.imm.toNat
    let sl : Slot := ⟨⟨f, bits i 17 13, bits i 12 8⟩, bits i 7 3, bits i 2 0⟩
    let t := timeOf (g.reg w.a)
    orWait s g (.fwait sl t) (tryFwait s f g sl t))

/-- SFLAGS of this field (R96). -/
def execSflags (w : SW) (s : State) : Host.Outcome State Fault Refusal :=
  .next (seqWord s fun f g => putGraph s (g.setReg w.d ((tgetD s.x.flagw (g.lid, f) 0).setWidth 64)).next)

/-- SFLAGS of every field and wafer of the launch (R96). -/
def execSflagsAll (w : SW) (s : State) : Host.Outcome State Fault Refusal :=
  .next (seqWord s fun f g => askFlags s f g w.d.toNat)

/-- SVC (R96, R400): a record of KIND 1, and the graph waits for ERET. -/
def execSvc (w : SW) (s : State) : Host.Outcome State Fault Refusal :=
  .next (seqWord s fun f g =>
    let (i, s) := report s { recBase (.seqr f) 0 1 3 g.ctx f g.lid with aux := BitVec.ofNat 64 (w.imm.toNat % 65536) }
    waitFor { s with svcs := s.svcs ++ [⟨i, none, false, f, g.lid⟩] } g .svc)

/-- A user graph's wait looked at again: its new state where it goes on, none where it still waits. -/
def resumeUser (s : State) (f : Nat) (g : Graph) : Wait → Option State
  | .access => some (putGraph s g.next)
  | .load d va =>
    if g.sup then match supAt s va with
      | .mem t => if supHolds s va then none else some (supGet s f g d va t goesOn)
      | _ => some (supFar (farGot s (.seqr f) 0 (some (paWafer va))) f g va (some d) goesOn)
    else if histHolds s g.ctx va (true, false) then none
    else some (loadWord (farGot s (.seqr f) g.tag (farWafer s g.ctx va (true, false))) f g d va goesOn)
  | .store va v =>
    if g.sup then match supAt s va with
      | .mem t => if supHolds s va then none else some (supSet s f g va v t goesOn)
      | _ => some (supFar (farGot s (.seqr f) 0 (some (paWafer va))) f g va none goesOn)
    else if histHolds s g.ctx va (false, true) then none
    else some (storeWord (farGot s (.seqr f) g.tag (farWafer s g.ctx va (false, true))) f g va v goesOn)
  | .launch va => some (childLaunch (farGot s (.seqr f) g.tag (farWafer s g.ctx va (true, false))) f g va)
  | .sqpost src desc none => some (claimPost (farGot s (.seqr f) g.tag (farWafer s g.ctx desc (true, true))) f g src desc)
  | .regw n => if s.regw.any fun w => w.n == n then none else some (putGraph s g.next)
  | .arms k n => tryArms s f g k n
  | .waits k => tryWaits s g k
  | .wstamp va pa cmp v => tryStamp s f g va pa cmp v
  | .sqpost src desc (some j) => tryPost s f g src desc j
  | .recfg c e w => tryRecfg s f g c e w
  | .fwait sl t => tryFwait s f g sl t
  | .cfg image => tryCfg s f g image
  | .flagsAll d _ left acc => stepFlags s f g d left acc
  | _ => none

end Sys2Proof.Machine
end

