-- ==== Sys2Proof/Machine/Queues.lean ====
section
/-! DEFINITION. User-mode queues: binding, acceptance by lap stamp, packets, and the ageing of priorities (R70 to R78, R98 to R100, R340, R345). -/

namespace Sys2Proof.Machine

open Sys2Proof

/-! ## Binding (R71, R72, R98) -/

/-- A page lies in stack storage of HBM, this wafer's or another's, as the context may read it (R12). -/
def hbmPage (s : State) (ctx va : Nat) : Bool :=
  match translate s ctx va (true, false) with
  | .ok (pa, _) => match decodePA s pa with
    | some (.hbm ..) => true
    | _ => false
  | .error _ => false

/-- SIZE is a power of two from 64 to 16,777,216. -/
def sizeOk (n : Nat) : Bool := (List.range 19).any fun i => n == 2 ^ (i + 6)

/-- A queue descriptor keeps R70 and R71. -/
def descOk (s : State) (ctx : Nat) (b : List Byte) : Bool :=
  let ring := leAt b 0 8
  let size := leAt b 8 4
  sizeOk size && ring % size == 0 && leAt b 12 1 ≤ 3 && zeros b 13 15 && zeros b 32 63 && (pagesOf ring size).all (hbmPage s ctx)

/-- The queue that a descriptor binds; none where it is refused. -/
def bindQueue (s : State) (ctx desc : Nat) : Option (State × Queue) :=
  if desc % 64 ≠ 0 || !hbmPage s ctx desc then none
  else match readAt s ctx noLid desc 64 with
    | .error _ => none
    | .ok (s, b) =>
      if descOk s ctx b then
        some (s, ⟨desc, leAt b 0 8, leAt b 8 4, leAt b 12 1, ctx, BitVec.ofNat 64 (leAt b 24 8), false, false, 0, none, []⟩)
      else none

/-- What names a queue's packets by its number names them by another. -/
def renameQueue (s : State) (f q n : Nat) : State :=
  { s with
    launches := s.launches.map fun l => (l.1, if l.2.queue = some (f, q) then { l.2 with queue := some (f, n) } else l.2)
    sis := s.sis.map fun i => (i.1, { i.2 with streams := i.2.streams.map fun x =>
      match x.pkt with
      | some (a, b, j) => if a = f && b = q then { x with pkt := some (f, n, j) } else x
      | none => x }) }

/-- The numbers under which packets of a queue stand that it accepted before it was unbound, oldest first: q + 16, q + 32 and so on. -/
def olderOf (s : State) (f q : Nat) : List Nat :=
  ((s.queues.filter fun k => k.1.1 == f && 16 ≤ k.1.2 && k.1.2 % 16 == q % 16).map fun k => k.1.2).foldl (fun l n => insNat n l) []

/-- QUNBIND of a queue (R98): its monitor stops; packets that it accepted run on, under a number above the queues' own. -/
def unbindQueue (s : State) (f q : Nat) : State :=
  match tget s.queues (f, q) with
  | none => s
  | some z =>
    let s := { s with queues := tdel s.queues (f, q) }
    if z.pkts.isEmpty then s
    else
      let n := (olderOf s f q).getLast?.getD q + 16
      renameQueue { s with queues := tset s.queues (f, n) { z with halted := true } } f q n

/-- QBIND (R98). -/
def execQbind (w : SW) (s : State) : Host.Outcome State Fault Refusal :=
  .next (seqWord s fun f g =>
    let q := w.imm.toNat % 16
    let c := (g.reg w.b).toNat
    let s := unbindQueue s f q
    if 512 ≤ c then graphFault s f g Code.queueFormat (g.reg w.a).toNat
    else farAccess s (.seqr f) g.tag g.lid (farWafer s c (g.reg w.a).toNat (true, false)) fun s => match bindQueue s c (g.reg w.a).toNat with
      | none => graphFault s f g Code.queueFormat (g.reg w.a).toNat
      | some (s, z) => putGraph { s with queues := tset s.queues (f, q) z } g.next)

/-- QUNBIND (R98). -/
def execQunbind (w : SW) (s : State) : Host.Outcome State Fault Refusal :=
  .next (seqWord s fun f g => putGraph (unbindQueue s f (w.imm.toNat % 16)) g.next)

/-! ## Acceptance (R74, R76, R77, R99, R100) -/

/-- The packet keeps the layout of its type (R77, R78, R346, R357, R361). -/
def packetOk (b : List Byte) : Bool :=
  leAt b 1 1 < 2 && (match leAt b 0 1 with
    | 0 => zeros b 2 55
    | 1 => launchBodyOk b
    | 2 => copyOk b none
    | 3 => copyOk b none
    | 4 => gbindOk b true
    | 5 => binOk b
    | 6 => zeros b 2 7 && zeros b 24 55 && leAt b 8 8 % 8 == 0
    | _ => false)

/-- The virtual address of the slot at a queue's read index (R73). -/
def slotOf (z : Queue) : Nat := z.ring + 64 * (z.i.toNat % (z.size / 64))

/-- The lap stamp of the packet at a queue's read index (R73). -/
def lapOf (z : Queue) : Nat := (z.i.toNat / (z.size / 64) + 1) % 2 ^ 64

/-- The context of a queue is live, or may become so: its partition has no live context and it is neither the shadow nor saved out (log 12). -/
def queueCtx (s : State) (c : Nat) : Bool :=
  clocksRun s && (match partOfCtx s c with
    | none => false
    | some p =>
      let t := ctxStat s p
      (t.step == 0 || t.step == 3) && (t.live == some c || (t.live.isNone && t.shad != some c && (tget s.saved c).isNone)))

/-- The packet at a queue's read index, where the queue can accept it now: its stamp has landed and every packet before it has started. -/
def acceptable (s : State) (f : Nat) (q : Nat) (z : Queue) : Option (State × List Byte) :=
  if 16 ≤ q || z.halted || z.quiet || seqrHolds s f || !queueCtx s z.ctx || (z.pkts.any fun p => !p.started) then none
  else match readAt s z.ctx noLid (slotOf z) 64 with
    | .error _ => none
    | .ok (t, b) => if leAt b 56 8 = lapOf z then some (t, b) else none

/-- The effective priority of a queue (R100). -/
def Queue.eff (z : Queue) : Nat := min 3 (z.prio + z.boost)

/-- The queue of a field that is accepted from next: of the highest effective priority, in rotation from the one chosen last (R99). -/
def pickQueue (s : State) (f : Nat) : Option Nat :=
  let l := (List.range 16).filterMap fun q => (tget s.queues (f, q)).bind fun z => if (acceptable s f q z).isSome then some (q, z.eff) else none
  let top := l.foldl (fun m q => max m q.2) 0
  nextAfter (seqrOf s f).lastQ ((l.filter fun q => q.2 == top).map Prod.fst)

/-- The context of an accepted packet is live (log 12). -/
def makeLive (s : State) (c : Nat) : State :=
  match partOfCtx s c with
  | none => s
  | some p => let t := ctxStat s p; if t.live.isNone then { s with ctxs := tset s.ctxs p { t with live := some c } } else s

/-- A queue accepts the packet at its read index, or halts there (R74, R76). -/
def acceptPacket (s : State) (f q : Nat) (z : Queue) (b : List Byte) : State :=
  if !packetOk b then
    recordOnly { s with queues := tset s.queues (f, q) { z with halted := true } } (.seqr f) Code.queuePacket z.ctx f noLid none (slotOf z) t00 0
  else
    match writeAt s z.ctx noLid (z.desc + 24) (leBytes 8 (z.i + 1).toNat) with
    | .error _ => s
    | .ok s =>
      let z := { z with i := z.i + 1, boost := 0, since := none, pkts := z.pkts ++ [⟨z.i, b, false, 0⟩] }
      makeLive { s with queues := tset s.queues (f, q) z, seqrs := tset s.seqrs f { seqrOf s f with lastQ := q } } z.ctx

/-- The tag of the read of a queue's slot on another wafer. -/
def slotTag (q : Nat) : Nat := 2 ^ 17 + q

/-- The wafer on which the slot at a queue's read index lies, where it is another one. -/
def slotFar (s : State) (z : Queue) : Option Nat := farWafer s z.ctx (slotOf z) (true, false)

/-- A queue whose slot on another wafer is being read. -/
def readingQueue (s : State) (f : Nat) : Option Nat :=
  first? (fun q => (tget s.queues (f, q)).any fun z => farAsked s (.seqr f) (slotTag q) (slotFar s z)) (List.range 16)

/-- QUEUE_ACCEPT (R74): the field's sequencer accepts one packet. -/
def execQueueAccept (f : Nat) (s : State) : Host.Outcome State Fault Refusal :=
  .next (match (readingQueue s f).orElse fun _ => pickQueue s f with
    | none => s
    | some q => match tget s.queues (f, q) with
      | none => s
      | some z => farAccess s (.seqr f) (slotTag q) noLid (slotFar s z) fun s => match acceptable s f q z with
        | none => s
        | some (t, b) => acceptPacket t f q z b)

/-! ## Packets (R77) -/

/-- The packets of a queue number that were accepted before those under number q (R77, R98). -/
def earlier (s : State) (f q : Nat) : List QPkt :=
  ((olderOf s f q).filter fun n => q < 16 || n < q).flatMap fun n => ((tget s.queues (f, n)).map Queue.pkts).getD []

/-- The packet of a queue that starts next, of some types: its context is live, every packet before it has started, and, with BARRIER or as
a STAMP, has completed. -/
def startable (s : State) (f q : Nat) (ty : Nat) : Option (Queue × QPkt) :=
  match tget s.queues (f, q) with
  | none => none
  | some z =>
    let old := earlier s f q
    match if old.all QPkt.started then first? (fun p : QPkt => !p.started) z.pkts else none with
    | none => none
    | some p =>
      let alone := old.isEmpty && z.pkts.head? == some p
      if leAt p.bytes 0 1 == ty && ctxRuns s z.ctx && !seqrHolds s f && (alone || !(bit (leAt p.bytes 1 1) 0 || ty == 6)) then some (z, p) else none

/-- The packet has started. -/
def markStarted (s : State) (f q : Nat) (idx : W64) : State :=
  match tget s.queues (f, q) with
  | some z => { s with queues := tset s.queues (f, q) { z with pkts := mapIf (fun p : QPkt => p.idx == idx) (fun p => { p with started := true }) z.pkts } }
  | none => s

/-- The tag of a packet's access to another wafer. -/
def packetTag (q : Nat) : Nat := 2 ^ 18 + q

/-- NOP_PACKET (R77): it completes. -/
def execNopPacket (f q : Nat) (s : State) : Host.Outcome State Fault Refusal :=
  .next (match startable s f q 0 with
    | some (_, p) => pktDone s (some (f, q)) p.idx
    | none => s)

/-- LAUNCH_PACKET (R78, R80): the accepting sequencer leads the launch, which waits while what it names is held. -/
def execLaunchPacket (f q : Nat) (s : State) : Host.Outcome State Fault Refusal :=
  .next (match startable s f q 1 with
    | none => s
    | some (z, p) =>
      let l := Launch.start ((partOfCtx s z.ctx).getD 0) z.ctx f (some (f, q)) z.prio p.idx (leAt p.bytes 8 8) (leAt p.bytes 16 8) (leAt p.bytes 24 8)
      farAccess s (.seqr f) (packetTag q) noLid (farWafer s z.ctx l.image (true, false)) fun s => match beginLaunch s l noLid false with
      | none => s
      | some s => markStarted s f q p.idx)

/-- An accepted packet turns out to break its layout as its island reads the rest of it (R345, R346): its queue halts at its slot (R76). -/
def haltAt (s : State) (f q : Nat) (z : Queue) (p : QPkt) : State :=
  let s := recordOnly s (.seqr f) Code.queuePacket z.ctx f noLid none (slotOf { z with i := p.idx }) t00 0
  if 16 ≤ q then pktDone s (some (f, q)) p.idx
  else
    let s := { s with queues := tset s.queues (f, q) { z with halted := true, i := p.idx, pkts := z.pkts.filter fun x => x.idx != p.idx } }
    match writeAt s z.ctx noLid (z.desc + 24) (leBytes 8 p.idx.toNat) with
    | .ok s => s
    | .error _ => s

/-- A packet handed to the streamer island of its queue's number modulo 4 (R340): it starts once the island has room. One that breaks its
layout halts its queue; one that is refused otherwise completes with a record (R345). -/
def handStream (s : State) (f q ty : Nat) (ok : List Byte → Bool) (mk : State → Queue → QPkt → Except Nat (State × Stream)) : State :=
  match startable s f q ty with
  | none => s
  | some (z, p) =>
    let n := q % 4
    if !ok p.bytes || 64 ≤ queued (siGet s f n) || unitHolds s (.si f n) then s
    else farAll s (.si f n) (acceptTag + 1) noLid (if ty = 3 then dlistFar s z.ctx p.bytes (BitVec.ofNat 64 (leAt p.bytes 48 8)) else []) fun s =>
      match mk s z p with
      | .error c => if c = Code.descFormat then haltAt s f q z p else pktDone (recordOnly s (.si f n) c z.ctx f noLid none 0 t00 0) (some (f, q)) p.idx
      | .ok (s, x) => markStarted (addStream s f n x) f q p.idx

/-- COPY_PACKET (R346, R366). -/
def execCopyPacket (f q : Nat) (s : State) : Host.Outcome State Fault Refusal :=
  .next (handStream s f q 2 (fun _ => true) fun s z p => mkCopy s none (some (f, q, p.idx)) z.ctx noLid p.bytes 1)

/-- MCOPY_PACKET (R346, R348): its mask stands in the packet. -/
def execMcopyPacket (f q : Nat) (s : State) : Host.Outcome State Fault Refusal :=
  .next (handStream s f q 3 (fun _ => true) fun s z p =>
    mkCopy s none (some (f, q, p.idx)) z.ctx noLid p.bytes (BitVec.ofNat 64 (leAt p.bytes 48 8)))

/-- GBIND_PACKET (R357). -/
def execGbindPacket (f q : Nat) (s : State) : Host.Outcome State Fault Refusal :=
  .next (handStream s f q 4 (fun b => leAt b 4 4 != 0) fun s z p =>
    (mkGbind s none (some (f, q, p.idx)) z.ctx noLid p.bytes).map fun x => (s, x))

/-- GBIND_UNBIND_PACKET (R357): N = 0 unbinds the window at WIN. -/
def execGbindUnbindPacket (f q : Nat) (s : State) : Host.Outcome State Fault Refusal :=
  .next (handStream s f q 4 (fun b => leAt b 4 4 == 0) fun s z p =>
    (mkGbind s none (some (f, q, p.idx)) z.ctx noLid p.bytes).map fun x => (s, x))

/-- BIN_PACKET (R361). -/
def execBinPacket (f q : Nat) (s : State) : Host.Outcome State Fault Refusal :=
  .next (handStream s f q 5 (fun _ => true) fun s z p => .ok (s, mkBin none (some (f, q, p.idx)) z.ctx noLid p.bytes))

/-- STAMP_PACKET (R77): VALUE written to ADDR once every earlier packet has completed; one that faults leaves a record. -/
def execStampPacket (f q : Nat) (s : State) : Host.Outcome State Fault Refusal :=
  .next (match startable s f q 6 with
    | none => s
    | some (z, p) =>
      let va := leAt p.bytes 8 8
      farAccess s (.seqr f) (packetTag q) noLid (farWafer s z.ctx va (false, true)) fun s =>
        let s := match writeAt s z.ctx noLid va (leBytes 8 (leAt p.bytes 16 8)) with
          | .ok s => s
          | .error c => recordOnly s (.seqr f) c z.ctx f noLid none va t00 0
        pktDone s (some (f, q)) p.idx)

/-! ## Ageing (R100) -/

/-- QUEUE_AGEING (R100): a queue with an acceptable head, or a ready graph, left waiting for 4,096 clk rises one level. -/
def execQueueAgeing (f : Nat) (who : Sched) (s : State) : Host.Outcome State Fault Refusal :=
  .next (match who with
    | .queue q => match tget s.queues (f, q) with
      | none => s
      | some z =>
        if (acceptable s f q z).isSome && (z.since.any fun c => 4096 ≤ (ctr s (.seqr f) - c).toNat) && z.eff < 3 then
          { s with queues := tset s.queues (f, q) { z with boost := z.boost + 1, since := some (ctr s (.seqr f)) } }
        else s
    | .graph n => match (graphsOf s f)[n]? with
      | none => s
      | some g =>
        if graphReady s f g && 4096 ≤ (ctr s (.seqr f) - g.since).toNat && g.eff < 3 then
          let l := setAt (graphsOf s f) n { g with boost := g.boost + 1, since := ctr s (.seqr f) }
          { s with x := { s.x with graphs := tset s.x.graphs f l } }
        else s)

/-- When a queue's head became acceptable, kept until it is accepted or is acceptable no more. -/
def noteHead (s : State) (k : Nat × Nat) (z : Queue) : Queue :=
  { z with since := if (acceptable s k.1 k.2 z).isSome then z.since.orElse fun _ => some (ctr s (.seqr k.1)) else none }

/-- A graph that is not ready has not been ready for any time (R100). -/
def noteReady (s : State) (q : Nat × List Graph) : Nat × List Graph :=
  (q.1, q.2.map fun g => if graphReady s q.1 g then g else { g with since := ctr s (.seqr q.1) })

/-- After a step, every user graph that is not ready is noted, in the live copy and in the shadow: readiness counts from when it becomes so, be
it by resuming, by THAW, by CSWAP or by the writing of a held record (R100). -/
def letReady (s : State) : State :=
  { s with
    x := { s.x with graphs := s.x.graphs.map (noteReady s) }
    sh := { s.sh with graphs := s.sh.graphs.map (noteReady s) } }

/-- After a step, every queue notes whether its head is acceptable (R100). -/
def letQueues (s : State) : State := { s with queues := s.queues.map fun q => (q.1, noteHead s q.1 q.2) }

end Sys2Proof.Machine
end

