-- ==== Sys2Proof/Machine/Links.lean ====
section
/-! DEFINITION. Optical ports: frames, keys and counters, port states, cut edges, and dead peers (R102, R103, R322 to R339). -/

namespace Sys2Proof.Machine

open Sys2Proof

/-! ## The token as a flit (R102, R103, R326) -/

/-- The parity of the low n bits of a number. -/
def parity : Nat → Nat → Nat
  | 0, _ => 0
  | n + 1, v => (v % 2 + parity n (v / 2)) % 2

/-- A token's 256 bits without PAR. -/
def tokenBits (t : Token) : Nat :=
  t.val.toNat + t.key.toNat * 2 ^ 64 + t.dif.toNat * 2 ^ 96 + t.time.round.toNat * 2 ^ 128 + t.time.batch.toNat * 2 ^ 160 + t.seq.toNat * 2 ^ 192
    + t.ctx.toNat * 2 ^ 216 + t.nul.toNat * 2 ^ 219 + t.fin.toNat * 2 ^ 220 + t.kv.toNat * 2 ^ 221

/-- PAR of a token (R103). -/
def parOf (v : Nat) : Nat :=
  let p := ((List.range 7).map fun j => parity 32 (bits v (32 * j + 31) (32 * j)) * 2 ^ j).sum
  p + parity 7 p * 2 ^ 7

/-- A token as it stands on a circuit or a fibre. -/
def tokenFlit (t : Token) : BitVec 256 := BitVec.ofNat 256 (tokenBits t + parOf (tokenBits t) * 2 ^ 224)

/-- The token of a flit. -/
def flitToken (f : BitVec 256) : Token where
  val := f.extractLsb' 0 64
  key := f.extractLsb' 64 32
  dif := f.extractLsb' 96 32
  time := ⟨f.extractLsb' 160 32, f.extractLsb' 128 32⟩
  seq := f.extractLsb' 192 24
  ctx := f.extractLsb' 216 3
  nul := f.getLsbD 219
  fin := f.getLsbD 220
  kv := f.getLsbD 221

/-! ## Dead peers (R336 to R338) -/

/-- The units that have sent, or may send, traffic to other wafers, so that the new bitmap has to reach them. -/
def senders (s : State) : List UnitId :=
  let cs : List UnitId := (s.x.nodes ++ s.sh.nodes).map fun q => UnitId.core q.1.core
  let ss : List UnitId := s.sis.map fun q => UnitId.si q.1.1 q.1.2
  let ms : List UnitId := s.x.mis.map fun q => UnitId.mi q.1.1 q.1.2
  let gs : List UnitId := s.seqrs.map fun q => UnitId.seqr q.1
  (cs ++ ss ++ ms ++ gs).eraseDups

/-- The controller's bitmap changes, and is sent to every unit; a unit goes by the old one until it has come. -/
def setDead (s : State) (b : BitVec 16) : State :=
  let old := (senders s).foldl (fun t u => tset t u (deadFor s u)) ([] : Tbl UnitId (BitVec 16))
  { s with dead := b, deadU := old.filter fun q => q.2 != b }

/-- The controller answers a request to a dead wafer on RESP, wherever it was issued; a plain ST leaves a record (R337). -/
def answerDead (s : State) (r : PortReq) : State :=
  let s := if r.op == .st then recordOnly s .link Code.peerDead r.ctx r.sl.core.f r.lid (some r.sl) r.va r.set.id.time r.set.id.seq else s
  sendPkt s .link 2 (.core r.sl.core) r.wafer 0 (.ans r (ansCode Code.peerDead))

/-- The controller answers an arrival for a dead wafer in the same way; num is the number by which its engine knows it. -/
def refuseDead (s : State) (src : ArrSrc) (ctx lid va num : Nat) : State :=
  sendPkt s .link 2 (srcUnit src) src.wafer 0 (.ack src ctx lid Code.peerDead va num)

/-- A request or an arrival of this wafer for another that has not left yet. -/
def isReqTo (me w : Nat) (p : Packet) : Bool :=
  p.dstW == w && p.srcW == me && (match p.msg with
    | .req .. => true
    | .arrival .. => true
    | _ => false)

/-- What was timed toward a wafer found dead is answered here. -/
def deadAnswer (s : State) (m : Remote) : State :=
  match m.what with
  | .req r => answerDead s r
  | .arrival src ctx lid va => refuseDead s src ctx lid va m.n
  | _ => s

/-- A timer that ends as its wafer is found dead: a request and an arrival are timed until the answer that is given here. -/
def Remote.waits (w : Nat) (m : Remote) : Bool :=
  m.wafer != w || (match m.what with
    | .req _ => true
    | .arrival .. => true
    | _ => false)

/-- The queue of a port without what is for a wafer and has not begun to enter the link: a token of a cut edge stands in its producer's buffer
still, unsent (R337). -/
def LPort.without (l : LPort) (w : Nat) : LPort :=
  let mine (o : Outgoing) : Bool := o.dst == w && !o.begun
  let back := (l.outq.filter fun o => mine o && o.timer.isSome).map Outgoing.ch
  { l with
    outq := l.outq.filter fun o => !mine o
    sent := back.foldl (fun t ch => tset t ch (tgetD t ch 0 - 1)) l.sent }

/-- DEAD is set for a wafer (R336, R337): everything outstanding toward it is answered here, and nothing enters a link for it any more. -/
def markDead (s : State) (w : Nat) : State :=
  if s.dead.getLsbD w then s
  else
    let rs := s.remotes.filter fun m => m.wafer == w
    let s := setDead { s with
        net := s.net.filter fun p => !isReqTo s.wafno w p
        remotes := s.remotes.filter (Remote.waits w)
        ports := s.ports.map fun q => (q.1, q.2.without w) } (s.dead ||| BitVec.ofNat 16 (2 ^ w))
    rs.foldl deadAnswer s

/-- DEAD is cleared for a wafer (R338). -/
def clearDead (s : State) (w : Nat) : State := setDead s (s.dead &&& ~~~(BitVec.ofNat 16 (2 ^ w)))

/-- DEADSET (R337). -/
def execDeadset (w : SW) (s : State) : Host.Outcome State Fault Refusal :=
  .next (seqWord s fun _ g => putGraph (markDead s ((g.reg w.a).toNat % 16)) g.next)

/-- DEADCLR (R338). -/
def execDeadclr (w : SW) (s : State) : Host.Outcome State Fault Refusal :=
  .next (seqWord s fun _ g => putGraph (clearDead s ((g.reg w.a).toNat % 16)) g.next)

/-- DEAD_BITMAP (R336): a unit receives the controller's bitmap. -/
def execDeadBitmap (u : UnitId) (s : State) : Host.Outcome State Fault Refusal := .next { s with deadU := tdel s.deadU u }

/-- SOURCE_TIMEOUT (R336): traffic to another wafer has waited TMO × 1,400 clk on its unit's counter, and its wafer is marked dead. -/
def execSourceTimeout (n : Nat) (s : State) : Host.Outcome State Fault Refusal :=
  .next (match first? (fun m : Remote => m.n == n) s.remotes with
    | none => s
    | some m => if s.ltmo * 1400 ≤ (ctr s m.unit - m.since).toNat then markDead s m.wafer else s)

/-! ## Port states (R333, R334) -/

/-- The state with a port replaced. -/
def setPort (s : State) (p : Nat) (l : LPort) : State := { s with ports := tset s.ports p l }

/-- The field of a port (R322). -/
def portField (p : Nat) : Nat := (routerCore (unitRouter (.port p))).f

/-- An event of a port told to the supervisor; no node parks (R329, R333, R334). -/
def portEvent (s : State) (p code : Nat) : State := (reportFault s { recBase (.port p) code 2 3 512 (portField p) noLid with aux := 0 }).2

/-- A count raised by n, saturating at 2^32 - 1. -/
def satAdd (v : W32) (n : Nat) : W32 := BitVec.ofNat 32 (min (v.toNat + n) (2 ^ 32 - 1))

/-- Credits counted on a channel of a port: owed again, or handed to a header. -/
def addCred (t : Tbl Nat Nat) (c : Nat × Nat) : Tbl Nat Nat := if c.2 = 0 then t else tset t c.1 (tgetD t c.1 0 + c.2)
def subCred (t : Tbl Nat Nat) (c : Nat × Nat) : Tbl Nat Nat := if c.2 = 0 then t else tset t c.1 (tgetD t c.1 0 - c.2)

/-- Every unacknowledged frame that carried data waits to be sent again, before anything else and in order; the credits that their headers
returned are owed again. -/
def LPort.again (l : LPort) : LPort :=
  let d := l.unack.filter fun u => !u.flits.isEmpty
  let cs := l.unack.map Unack.cred
  { l with
    outq := d.map (fun u => ⟨u.ch, u.flits, u.timer, u.dst, true⟩) ++ l.outq
    redo := d.length + l.redo
    unack := []
    retry := satAdd l.retry d.length
    uncred := cs.foldl addCred l.uncred
    back := cs.foldl addCred l.back }

/-- A port goes DOWN; its unacknowledged frames are held (R334). -/
def portDown (s : State) (p : Nat) (l : LPort) : State :=
  portEvent (setPort s p { l with st := .down, refus := 0, nakd := false, nakAt := none }) p Code.linkDown

/-- The receiver has acknowledged the transmit key in use, and a receive key stands (R334). -/
def LPort.keyed (l : LPort) : Bool := l.rxCur.isSome && (match l.txCur with
  | some k => l.ackd == some k.kid
  | none => false)

/-- A port that waits for its keys and has them goes UP; what it holds is sent again (R334). -/
def LPort.upIfKeyed (l : LPort) : LPort := if l.st == .keywait && l.keyed then { l.again with st := .up } else l

/-- The change of R332 can take place: a next key stands and has been acknowledged. -/
def LPort.mayChange (l : LPort) : Bool := match l.txNext with
  | some k => l.ackd == some k.kid
  | none => false

/-- LINK_TRAINED (R334). -/
def execLinkTrained (port : Nat) (s : State) : Host.Outcome State Fault Refusal :=
  .next (let l := lportOf s port; if l.st == .down && port < 64 then setPort s port { l with st := .keywait } else s)

/-- LINK_DOWN (R334): loss of signal. -/
def execLinkDown (port : Nat) (s : State) : Host.Outcome State Fault Refusal :=
  .next (let l := lportOf s port; if l.st == .down then s else portDown s port l)

/-- KEY_CHANGE (R332): between two frames, next becomes current, CTR restarts at 0 and DUE clears. -/
def execKeyChange (port : Nat) (s : State) : Host.Outcome State Fault Refusal :=
  .next (
    let l := lportOf s port
    if (l.st == .up || l.st == .keystall) && l.mayChange then
      setPort s port { l with txCur := l.txNext, txNext := none, txctr := 0, due := false, st := .up }
    else s)

/-! ## Sending (R324 to R328, R333) -/

/-- The channel of control frames and that of key acknowledgements, as FRAME_SEND names them; neither is a channel of R325. -/
def ctlCh : Nat := 0x2000
def ackCh : Nat := 0x2001

/-- The cut edges of the launches of this wafer, each with its launch and context. -/
def allCuts (s : State) : List (Nat × Nat × Cut) := s.launches.flatMap fun q => q.2.cuts.map fun c => (q.1, q.2.ctx, c)

/-- The cut edge that this wafer sends on a channel of a port, with its launch and context. -/
def cutFrom (s : State) (port ch : Nat) : Option (Nat × Nat × Cut) :=
  first? (fun q => q.2.2.vc == ch && q.2.2.pw == s.wafno && q.2.2.outPort s.wafno == some port) (allCuts s)

/-- The cut edge whose consumer stands here and that enters by a channel of a port, with its launch and context. DESIGN CHOICE (log 130): of two
launches on the wafer whose cut edges use one channel of one port, which R62 and R325 do not tell apart, the first of the table takes the frame. -/
def cutInto (s : State) (port ch : Nat) : Option (Nat × Nat × Cut) :=
  first? (fun q => q.2.2.vc == ch && q.2.2.cw == s.wafno && q.2.2.inPort s.wafno == some port) (allCuts s)

/-- The cut edges that this wafer carries between two others: those of its launches, and those it has been told of (log 114). -/
def carriedCuts (s : State) : List Cut :=
  (((allCuts s).map fun q => q.2.2) ++ s.carried.flatMap Prod.snd).filter fun c => c.between.contains s.wafno

/-- The receive buffer of a cut edge (R339). -/
def Cut.inEdge (c : Cut) : EdgeId := ⟨c.dst.core, c.dst.e, 8 + c.dst.port⟩

/-- The next token of a cut edge that has not been sent: its context runs, the consumer's wafer is not dead, and its buffer has room for it
(R18, R337, R339, R410). -/
def cutToken (s : State) (l : LPort) (ctx : Nat) (c : Cut) : Option Token :=
  let n := tgetD l.sent c.vc 0
  if s.dead.getLsbD c.cw || c.depth ≤ n || !ctxRuns s ctx then none else ((edgeOf s c.src).buf[n]?).map BufTok.tok

/-- The packet of a class that leaves next by a port (R309, R324): one that has come to it from its router. -/
def exitPacket (s : State) (port cls : Nat) : Option Packet :=
  first? (fun p => p.cls == cls && p.inj && p.out && goalOf s p == (p.here, some port)) s.net

/-- A fault token that leaves next by a port for a catch node of another wafer, with its launch, in a packet of class 0 (R129). -/
def exitCatch (s : State) (port : Nat) : Option (Nat × Packet) :=
  s.launches.findSome? fun q => match q.2.catch_, q.2.catchQ with
    | some (w, sl), t :: _ =>
      let p := newPkt s 0 .link 0 (.core sl.core) w 32 (.peer s.wafno q.1 (.caught t))
      if w != s.wafno && (goalOf s p).2 == some port then some (q.1, { p with inj := true }) else none
    | _, _ => none

/-- A packet that would leave for a dead wafer faults at the exit router (R337). -/
def deadExit (s : State) (p : Packet) : State :=
  let s := dropPkt s p.id
  match p.msg with
  | .req r _ _ => answerDead s r
  | .arrival src ctx lid va .. => refuseDead s src ctx lid va p.num
  | _ => s

/-- The data flits of a mesh packet: four to a beat (R326). -/
def packetFlits (p : Packet) : List (BitVec 256) := (List.range (4 * p.beats)).map (Config.packetFlit p)

/-- The timer of the cut-edge token that comes next on a channel of a port, as its core began to time it, or begins to now (R336). -/
def timeToken (s : State) (port : Nat) (c : Cut) : Nat × State :=
  let l := lportOf s port
  match (tget l.timing c.vc).bind fun n => first? (fun m : Remote => m.n == n) s.remotes with
  | some m => (m.n, s)
  | none =>
    let (n, s) := fresh s
    let u : UnitId := .core c.src.core
    (n, setPort { s with remotes := s.remotes ++ [⟨n, u, c.cw, .token, ctr s u⟩] } port { l with timing := tset l.timing c.vc n })

/-- The token of a cut edge that has room at its consumer is timed from when it waits for its port, whatever the port's state; one that may not
leave is not (R336). -/
def timeCut (s : State) (q : Nat × Nat × Cut) : State :=
  match q.2.2.outPort s.wafno with
  | none => s
  | some p =>
    let l := lportOf s p
    if q.2.2.pw != s.wafno then s
    else if (cutToken s l q.2.1 q.2.2).isSome then (timeToken s p q.2.2).2
    else match tget l.timing q.2.2.vc with
      | none => s
      | some n => setPort { s with remotes := s.remotes.filter fun m => m.n != n } p { l with timing := tdel l.timing q.2.2.vc }

/-- The tokens of every cut edge of this wafer are timed. -/
def letTimers (s : State) : State := (allCuts s).foldl timeCut s

/-- Packets that have come to their exit router for a wafer found dead fault there, whatever the state of the port (R337). -/
def letDead (s : State) : State :=
  if s.dead = 0 then s
  else (s.net.filter fun p => p.inj && p.dstW != s.wafno && s.dead.getLsbD p.dstW && (goalOf s p).1 == p.here).foldl deadExit s

/-- Fault tokens that have reached their catch node's core join its launch's queue while it has room (R129). -/
def letCaught (s : State) : State :=
  s.net.foldl (fun t p => match p.msg with
    | .peer _ lid (.caught tok) =>
      if !arrived t p then t
      else match launch? t lid with
        | none => dropPkt t p.id
        | some l =>
          if l.stat == .ended then dropPkt t p.id
          else if 64 ≤ l.catchQ.length then t
          else modLaunch (dropPkt t p.id) lid fun l => { l with catchQ := l.catchQ ++ [tok], moved := l.moved + 1 }
    | _ => t) s

/-- What a channel has to send is put in the port's queue: the rest of what it has begun, a token, or a packet. -/
def pull (s : State) (port ch : Nat) : State :=
  let l := lportOf s port
  if l.outq.any fun o => o.ch == ch then s
  else if ch < 0x1000 then
    match cutFrom s port ch with
    | none => s
    | some (_, ctx, c) => match cutToken s l ctx c with
      | none => s
      | some t =>
        let (n, s) := timeToken s port c
        let l := lportOf s port
        setPort s port { l with
          outq := l.outq ++ [⟨ch, [tokenFlit t], some n, c.cw, false⟩]
          sent := tset l.sent ch (tgetD l.sent ch 0 + 1)
          timing := tdel l.timing ch }
  else if ch < 0x1004 then
    match exitPacket s port (ch - 0x1000) with
    | none => match (if ch = 0x1000 then exitCatch s port else none) with
      | none => s
      | some (lid, p) =>
        let s := modLaunch s lid fun l => { l with catchQ := l.catchQ.tail }
        if s.dead.getLsbD p.dstW then s else setPort s port { l with outq := l.outq ++ [⟨ch, packetFlits p, none, p.dstW, false⟩] }
    | some p =>
      if s.dead.getLsbD p.dstW then deadExit s p
      else setPort (dropPkt s p.id) port { l with outq := l.outq ++ [⟨ch, packetFlits p, none, p.dstW, false⟩] }
  else s

/-- Class 0 has something to send, and goes first (R326). -/
def class0First (s : State) (port ch : Nat) : Bool :=
  ch < 0x1004 && ch != 0x1000 && (((lportOf s port).outq.any fun o => o.ch == 0x1000) || (exitPacket s port 0).isSome || (exitCatch s port).isSome)

/-- The channels beside class 0 that have something to send on a port. -/
def readyChs (s : State) (port : Nat) : List Nat :=
  let l := lportOf s port
  ((l.outq.map Outgoing.ch) ++ ((allCuts s).filter fun q => q.2.2.pw == s.wafno && q.2.2.outPort s.wafno == some port && (cutToken s l q.2.1 q.2.2).isSome).map
      (fun q => q.2.2.vc)
    ++ [0x1001, 0x1002, 0x1003].filter fun ch => (exitPacket s port (ch - 0x1000)).isSome).filter fun ch => ch != 0x1000

/-- A channel has had its turn and another has not (R326). -/
def outOfTurn (s : State) (port ch : Nat) : Bool :=
  let l := lportOf s port
  ch != 0x1000 && l.served.contains ch && (readyChs s port).any fun c => !l.served.contains c

/-- A channel takes its turn; where it had its turn before, a new round begins. -/
def LPort.turnTaken (l : LPort) (ch : Nat) : List Nat :=
  if ch = 0x1000 then l.served else if l.served.contains ch then [ch] else ch :: l.served

/-- The credits owed on the channel of a cut edge whose consumer stands here (R339): tokens received, accepted by it, and not yet credited. -/
def owedOn (s : State) (l : LPort) (ctx : Nat) (c : Cut) : Nat :=
  tgetD l.uncred c.vc 0 - (tgetD (execOf s ctx).edges c.inEdge ⟨[], []⟩).buf.length

/-- A channel with credits to return by a port, and how many: of a consumer here, or passed on for a cut edge that this wafer carries. -/
def owedNext (s : State) (port : Nat) (l : LPort) : Nat × Nat :=
  match first? (fun q : Nat × Nat × Cut => q.2.2.cw == s.wafno && q.2.2.inPort s.wafno == some port && 0 < owedOn s l q.2.1 q.2.2) (allCuts s) with
  | some q => (q.2.2.vc, min (owedOn s l q.2.1 q.2.2) 65535)
  | none => match first? (fun c : Cut => c.inPort s.wafno == some port && 0 < tgetD l.back c.vc 0) (carriedCuts s) with
    | some c => (c.vc, min (tgetD l.back c.vc 0) 65535)
    | none => (0, 0)

/-- The header of the next frame of a port (R325). -/
def hdrFor (s : State) (port : Nat) (l : LPort) (kind n ch : Nat) (kid : W32) : FrameHdr :=
  let o := owedNext s port l
  ⟨BitVec.ofNat 8 kind, BitVec.ofNat 4 n, kid, l.txctr, BitVec.ofNat 13 ch, l.acked, l.nakd, BitVec.ofNat 13 o.1, BitVec.ofNat 16 o.2, 0⟩

/-- The counter of a port passes a frame of n data flits (R328); where it first reaches 2^48 - 2^32, REKEY_DUE is raised (R333). -/
def passCounter (s : State) (port : Nat) (l : LPort) (n : Nat) : State :=
  let next := l.txctr.toNat + n + 2
  let due := 0xFFFF00000000 ≤ next && !l.due
  let s := setPort s port { l with txctr := BitVec.ofNat 48 next, due := l.due || due }
  if due then portEvent s port Code.rekeyDue else s

/-- KID of the transmit key in use, 0 for none (R335). -/
def LPort.kid (l : LPort) : W32 := (l.txCur.map LKey.kid).getD 0

/-- The counter that comes next is that of a frame sent under an earlier key, the last that the peer has acknowledged or one that it has not:
ACKCTR, which names no key, would not tell them apart (R325; log 115). -/
def LPort.clash (l : LPort) : Bool :=
  (l.unack.any fun u => u.ctr == l.txctr && u.kid != l.kid) || l.ackAt.any fun a => a.2 == l.txctr && a.1 != l.kid

/-- A data or control frame leaves under a fresh counter, and is held until it is acknowledged; what it returned is returned. -/
def sendFrame (s : State) (port : Nat) (l : LPort) (ch : Nat) (flits : List (BitVec 256)) (timer : Option Nat) (dst : Nat) : State :=
  let o := owedNext s port l
  passCounter s port { l with
    nakAt := if l.nakd then some l.txctr else l.nakAt
    nakd := false
    unack := l.unack ++ [⟨l.txctr, ch, flits, timer, o, l.kid, dst⟩]
    uncred := subCred l.uncred o
    back := subCred l.back o } flits.length

/-- A frame of n data flits still has a counter below 2^48 - 1 (R333). -/
def counterLeft (l : LPort) (n : Nat) : Bool := l.txctr.toNat + n + 1 < 2 ^ 48 - 1

/-- The port has no counter left and no key to change to: KEYSTALL, with LINK_KEY. -/
def stall (s : State) (port : Nat) (l : LPort) : State :=
  if l.mayChange then s else portEvent (setPort s port { l with st := .keystall }) port Code.linkKey

/-- The first piece of a channel in the queue, of at most 8 flits, and the queue without it. -/
def cutPiece (ch : Nat) : List Outgoing → Option (Outgoing × List Outgoing)
  | [] => none
  | o :: l =>
    if o.ch = ch then
      let rest := o.flits.drop 8
      some ({ o with flits := o.flits.take 8 }, if rest.isEmpty then l else { o with flits := rest, begun := true } :: l)
    else (cutPiece ch l).map fun q => (q.1, o :: q.2)

/-- A data frame of a channel is sent; where no counter is left for it the port stalls, and what it would have taken up stays where it was
(R333). -/
def sendData (s : State) (port ch : Nat) : State :=
  let t := pull s port ch
  let l := lportOf t port
  match cutPiece ch l.outq with
  | none => t
  | some (o, rest) =>
    if counterLeft l o.flits.length then
      sendFrame t port { l with outq := rest, redo := l.redo - 1, served := l.turnTaken ch } ch o.flits o.timer o.dst
    else stall s port (lportOf s port)

/-- A channel may not send now: what is sent again goes first and in order (R329); else class 0 goes first, and the others take turns (R326). -/
def waitsTurn (s : State) (port ch : Nat) : Bool :=
  let l := lportOf s port
  if 0 < l.redo then (l.outq.head?).any fun o => o.ch != ch else class0First s port ch || outOfTurn s port ch

/-- A key acknowledgement leaves (R332): it returns ACKCTR alone (log 115). -/
def sendKeyAck (s : State) (port : Nat) (l : LPort) : State :=
  passCounter s port (if l.clash then l else { l with unack := l.unack ++ [⟨l.txctr, ackCh, [], none, (0, 0), l.kid, s.wafno⟩] }) 0

/-- FRAME_SEND (R326): a port sends one frame of a channel; control frames and key acknowledgements have channels of their own here. A key
acknowledgement may use the counters that remain (R333), the last of which is never passed (R328). -/
def execFrameSend (port : Nat) (ch : Nat) (s : State) : Host.Outcome State Fault Refusal :=
  .next (
    let l := lportOf s port
    if l.txCur.isNone || 64 ≤ port then s
    else if ch = ackCh then
      if l.st == .down || l.rxCur.isNone || 2 ^ 48 ≤ l.txctr.toNat + 2 then s else sendKeyAck s port l
    else if l.st != .up then s
    else if ch = ctlCh then
      if !counterLeft l 0 then stall s port l
      else if l.clash && !l.unack.isEmpty then s
      else sendFrame s port l ctlCh [] none s.wafno
    else if l.clash || waitsTurn s port ch then s
    else sendData s port ch)

/-! ## Frames as flits (R325, R327) -/

/-- A header as its flit (R325). -/
def hdrFlit (h : FrameHdr) : BitVec 256 :=
  let r (hi lo : Nat) : Nat := bits h.rsv.toNat hi lo
  BitVec.ofNat 256 (h.kind.toNat + h.ndata.toNat * 2 ^ 8 + r 19 0 * 2 ^ 12 + h.kid.toNat * 2 ^ 32 + h.ctr.toNat * 2 ^ 64 + h.ch.toNat * 2 ^ 112
    + r 22 20 * 2 ^ 125 + h.ackctr.toNat * 2 ^ 128 + h.nak.toNat * 2 ^ 176 + r 37 23 * 2 ^ 177 + h.crch.toNat * 2 ^ 192 + r 40 38 * 2 ^ 205
    + h.crn.toNat * 2 ^ 208 + r 72 41 * 2 ^ 224)

/-- The header of a flit (R325). -/
def flitHdr (f : BitVec 256) : FrameHdr where
  kind := f.extractLsb' 0 8
  ndata := f.extractLsb' 8 4
  kid := f.extractLsb' 32 32
  ctr := f.extractLsb' 64 48
  ch := f.extractLsb' 112 13
  ackctr := f.extractLsb' 128 48
  nak := f.getLsbD 176
  crch := f.extractLsb' 192 13
  crn := f.extractLsb' 208 16
  rsv := f.extractLsb' 224 32 ++ f.extractLsb' 205 3 ++ f.extractLsb' 177 15 ++ f.extractLsb' 125 3 ++ f.extractLsb' 12 20

/-- A frame as its flits: header, data, tag (R325). -/
def frameFlits (fr : Frame) : List (BitVec 256) := hdrFlit fr.hdr :: fr.data ++ [fr.tag]

/-- The nonce of a frame that port p of wafer w sends under a key (R327). -/
def nonceOf (kid : W32) (w p : Nat) (c : BitVec 48) : BitVec 96 :=
  kid ++ BitVec.ofNat 4 w ++ BitVec.ofNat 2 (p / 16) ++ BitVec.ofNat 4 (p % 16) ++ (0 : BitVec 6) ++ c

/-- A frame sealed under a key (R327). -/
def sealFrame (k : LKey) (w p : Nat) (h : FrameHdr) (d : List (BitVec 256)) : Frame :=
  let r := Config.gcmSeal k.key (nonceOf k.kid w p h.ctr) (hdrFlit h) d
  ⟨h, r.1, r.2.setWidth 256⟩

/-- The frame that FRAME_SEND puts on the fibre: header in clear, data encrypted under the port's transmit key (R325, R327). -/
def frameOf (s : State) (port ch : Nat) : Option Frame :=
  let l := lportOf s port
  match l.txCur with
  | none => none
  | some k =>
    let mk (s : State) (l : LPort) (kind c : Nat) (kid : W32) (fl : List (BitVec 256)) : Frame :=
      sealFrame k s.wafno port (hdrFor s port l kind fl.length c kid) fl
    if ch = ackCh then (l.rxNext.orElse fun _ => l.rxCur).map fun r =>
      sealFrame k s.wafno port { hdrFor s port l 3 0 0 r.kid with nak := false, crch := 0, crn := 0 } []
    else if ch = ctlCh then some (mk s l 2 0 k.kid [])
    else
      let t := pull s port ch
      (cutPiece ch (lportOf t port).outq).map fun q => mk t (lportOf t port) 1 ch k.kid q.1.flits

/-! ## Receiving (R329, R332, R339) -/

/-- The header has no reserved value (R325). -/
def hdrOkay (h : FrameHdr) : Bool :=
  let k := h.kind.toNat
  h.rsv == 0 && 1 ≤ k && k ≤ 3 && h.ndata.toNat ≤ 8 && (k == 1 || h.ndata == 0) && h.ch.toNat ≤ 0x1003

/-- The flits that a frame from port p of wafer w opens to under a key, where its tag verifies and the rest of its tag flit is zero (R325,
R327). -/
def unsealed (k : LKey) (w p : Nat) (fr : Frame) : Option (List (BitVec 256)) :=
  if fr.tag.extractLsb' 128 128 = 0 then Config.gcmOpen k.key (nonceOf k.kid w p fr.hdr.ctr) (hdrFlit fr.hdr) fr.data (fr.tag.extractLsb' 0 128)
  else none

/-- Whether a frame on a port of a wafer opens under the next receive key, and the flits it opens to; none when it fails a check (R329). A
key acknowledgement names in KID the key that it acknowledges, and stands under either receive key. -/
def openFrame (me port : Nat) (l : LPort) (fr : Frame) : Option (Bool × List (BitVec 256)) :=
  let h := fr.hdr
  let try_ (k : Option LKey) (next : Bool) : Option (Bool × List (BitVec 256)) :=
    match k with
    | none => none
    | some k =>
      if (h.kind != 3 && k.kid != h.kid) || (!next && l.rxany && h.ctr.toNat ≤ l.rxctr.toNat) then none
      else (unsealed k (nextWafer me port) (linkedPort port) fr).map fun d => (next, d)
  if hdrOkay h && fr.data.length == h.ndata.toNat then (try_ l.rxCur false).orElse fun _ => try_ l.rxNext true else none

/-- A refused frame (R329): AUTHF rises, NAK is returned, and the eighth refusal of one frame takes the port DOWN; what comes before the NAK
has left is another frame. -/
def refuseFrame (s : State) (port : Nat) (l : LPort) : State :=
  let l := { l with authf := satAdd l.authf 1, nakd := true, refus := if l.nakd then l.refus else l.refus + 1 }
  if 8 ≤ l.refus then portDown s port l else setPort s port l

/-- The unacknowledged frames split at the one that a counter names: those up to it, and those after it. -/
def ackSplit (c : BitVec 48) (l : List Unack) : List Unack × List Unack :=
  if l.any fun u => u.ctr == c then
    let before := l.takeWhile fun u => u.ctr != c
    (l.take (before.length + 1), l.drop (before.length + 1))
  else ([], l)

/-- Credits that come back for a cut edge: the credited tokens leave their producer's buffer, or the credits are passed on (R339). More than were
sent are those of a launch that has ended. -/
def takeCredits (s : State) (port ch n : Nat) : State :=
  match cutFrom s port ch with
  | some (_, ctx, c) =>
    let l := lportOf s port
    let n := min n (tgetD l.sent ch 0)
    onCopy (setPort s port { l with sent := tset l.sent ch (tgetD l.sent ch 0 - n) }) ctx fun s =>
      setEdge s c.src { edgeOf s c.src with buf := (edgeOf s c.src).buf.drop n }
  | none => match (first? (fun c : Cut => c.vc == ch && c.outPort s.wafno == some port) (carriedCuts s)).bind fun c => c.inPort s.wafno with
    | some p => setPort s p { lportOf s p with back := addCred (lportOf s p).back (ch, n) }
    | none => s

/-- What the peer says of the frames it has had (R329). Where it asks for frames again, they wait to be sent, and so does a NAK that one of
them carried. -/
def takeAck (s : State) (port : Nat) (h : FrameHdr) : State :=
  let l := lportOf s port
  let q := ackSplit h.ackctr l.unack
  let gone := q.1.filterMap Unack.timer
  let l1 := { l with unack := q.2, ackAt := (q.1.getLast?.map fun u => (u.kid, u.ctr)).orElse fun _ => l.ackAt }
  let lost := l1.nakAt.any fun c => q.2.any fun u => u.ctr == c
  let l2 := if h.nak then { l1.again with nakd := l1.nakd || lost } else l1
  setPort { s with remotes := s.remotes.filter fun m => !gone.contains m.n } port l2

/-- What the peer says of the frames it has had, and the credits it returns (R329, R339). -/
def takeReturns (s : State) (port : Nat) (h : FrameHdr) : State :=
  let s := takeAck s port h
  if h.crn = 0 then s else takeCredits s port h.crch.toNat h.crn.toNat

/-- A token that a cut edge brings: to its consumer's receive buffer, in whichever copy holds its context, or on to the next wafer (R324,
R339). -/
def tokenIn (s : State) (port ch : Nat) (f : BitVec 256) : State :=
  match cutInto s port ch with
  | some (lid, ctx, c) =>
    let l := lportOf s port
    let s := setPort s port { l with uncred := addCred l.uncred (ch, 1) }
    onCopy (modLaunch s lid fun l => { l with moved := l.moved + 1 }) ctx fun s =>
      setEdge s c.inEdge { edgeOf s c.inEdge with buf := (edgeOf s c.inEdge).buf ++ [⟨flitToken f, [c.dst], []⟩] }
  | none => match first? (fun c : Cut => c.vc == ch && c.inPort s.wafno == some port) (carriedCuts s) with
    | none => s
    | some c => match c.outPort s.wafno with
      | some p => let l := lportOf s p; setPort s p { l with outq := l.outq ++ [⟨ch, [f], none, c.cw, false⟩] }
      | none => s

/-- A response from a wafer that is dead is discarded (R337). -/
def fromDead (s : State) (p : Packet) : Bool :=
  p.dstW == s.wafno && s.dead.getLsbD p.srcW && (match p.msg with
    | .ans .. => true
    | .ack .. => true
    | .pane .. => true
    | .hist .. => true
    | _ => false)

/-- What a launch's peer says on arrival at this wafer: the cut edges that this wafer carries are noted, and a fault token goes on to the core of
its catch node (R129); acknowledgements and changes act through LAUNCH_ACK and TRACKER_PEER_CHANGE, and what concerns no launch of this
wafer ends here (log 9). None for a packet that goes on. -/
def peerIn (s : State) (p : Packet) : Option State :=
  let unknown (lid : Nat) : Bool := !((launch? s lid).any fun l => l.stat != .ended)
  if p.dstW != s.wafno then none
  else match p.msg with
  | .peer _ _ .ready => some s
  | .peer _ _ (.change _) => some s
  | .peer w lid (.carry cs) => some (if cs.isEmpty then (tgetD s.carried (w, lid) []).foldl forgetCut { s with carried := tdel s.carried (w, lid) }
    else { s with carried := tset s.carried (w, lid) cs })
  | .peer _ lid .finished => if (launch? s lid).isNone then some s else none
  | .peer _ lid (.sect ..) => if unknown lid then some s else none
  | .peer _ lid (.retry _) => if unknown lid then some s else none
  | .peer _ lid (.caught _) => if unknown lid then some s else none
  | .peer _ lid (.ended _) => if unknown lid then some s else none
  | .peer _ lid (.poll ..) => if unknown lid then some s else none
  | .peer _ lid (.idle ..) => if unknown lid then some s else none
  | _ => none

/-- Flits of a mesh packet: they are gathered until the packet is whole, and it enters the port's router, whose input checks it (R315, R324). -/
def meshIn (s : State) (port ch : Nat) (d : List (BitVec 256)) : State :=
  let l := lportOf s port
  let all := tgetD l.part_ ch [] ++ d
  match Config.flitsPacket all with
  | none => setPort s port { l with part_ := tset l.part_ ch all }
  | some p =>
    let s := setPort s port { l with part_ := tdel l.part_ ch }
    if fromDead s p then s
    else match peerIn s p with
    | some s => s
    | none =>
      let (i, s) := fresh s
      { s with net := s.net ++ [{ p with id := i, cls := ch - 0x1000, here := unitRouter (.port port), inj := false, out := false, fails := 0, sent := 0 }] }

/-- A frame has come under the current or the next receive key, which is then the current one (R329, R332). -/
def LPort.heard (l : LPort) (fr : Frame) (next : Bool) : LPort :=
  { l with rxctr := fr.hdr.ctr, rxany := true, rxCur := if next then l.rxNext else l.rxCur, rxNext := if next then none else l.rxNext }

/-- A data or control frame accepted under the current or the next receive key (R329, R332). -/
def acceptFrame (s : State) (port : Nat) (l : LPort) (fr : Frame) (next : Bool) : State :=
  takeReturns (setPort s port { l.heard fr next with acked := fr.hdr.ctr, nakAt := none, refus := 0 }) port fr.hdr

/-- A frame sent before the peer saw the NAK that this port returned, or has still to return: what it asked for has to come first, and the
frame is sent again after it (R329). -/
def tooEarly (l : LPort) (h : FrameHdr) : Bool :=
  l.nakd || l.nakAt.any fun c => (ackSplit h.ackctr l.unack).2.any fun u => u.ctr == c

/-- Such a frame is left; where it carries a NAK that crossed this port's own, neither end can tell what the other has seen: both ask again,
and the eighth time takes the port DOWN, from where both begin again at what each has accepted (log 115). -/
def leaveFrame (s : State) (port : Nat) (h : FrameHdr) : State :=
  if !h.nak then s
  else
    let s := takeAck s port h
    let l := lportOf s port
    let l := { l with nakd := true, refus := l.refus + 1 }
    if 8 ≤ l.refus then portDown s port l else setPort s port l

/-- FRAME_RECEIVE (R329): a data or control frame is checked and accepted, or refused. -/
def execFrameReceive (port : Nat) (fr : Frame) (s : State) : Host.Outcome State Fault Refusal :=
  .next (
    let l := lportOf s port
    if l.st == .down || fr.hdr.kind = 3 then s
    else match openFrame s.wafno port l fr with
      | none => refuseFrame s port l
      | some (next, d) =>
        if tooEarly l fr.hdr then leaveFrame s port fr.hdr else
        let s := acceptFrame s port l fr next
        let ch := fr.hdr.ch.toNat
        if fr.hdr.kind != 1 then s
        else if ch < 0x1000 then d.foldl (fun s f => tokenIn s port ch f) s
        else meshIn s port ch d)

/-- KEY_ACK_FRAME (R332, R334): the peer has a key installed; a port that waited for it goes UP. The frame is the last accepted (R325), unless
frames before it have still to come again (log 115). -/
def execKeyAckFrame (port : Nat) (fr : Frame) (s : State) : Host.Outcome State Fault Refusal :=
  .next (
    let l := lportOf s port
    if l.st == .down || fr.hdr.kind != 3 then s
    else match openFrame s.wafno port l fr with
      | none => refuseFrame s port l
      | some (next, _) =>
        let s := takeAck (setPort s port { l.heard fr next with
          ackd := some fr.hdr.kid
          acked := if tooEarly l fr.hdr then l.acked else fr.hdr.ctr }) port fr.hdr
        setPort s port (lportOf s port).upIfKeyed)

/-! ## LKEY (R331, R417) -/

/-- A key in a slot of a direction of a port; none where its KID is the direction's current one. -/
def LPort.install (l : LPort) (rx next : Bool) (k : LKey) : Option LPort :=
  let cur := if rx then l.rxCur else l.txCur
  if (cur.map LKey.kid) == some k.kid then none
  else some (match rx, next with
    | false, false => { l with txCur := some k }
    | false, true => { l with txNext := some k }
    | true, false => { l with rxCur := some k, rxany := false }
    | true, true => { l with rxNext := some k })

/-- LKEY (R331, R417): the 32-byte key and the KID behind it are installed, and the block is zeroed. A port that waited for
this key goes UP (R334). -/
def execLkey (w : SW) (s : State) : Host.Outcome State Fault Refusal :=
  .next (seqWord s fun _ g =>
    let pa := (g.reg w.a).toNat
    let i := w.imm.toNat
    let p := i % 64
    let done (s : State) (c : Nat) : State := putGraph s (g.setReg w.d (BitVec.ofNat 64 c)).next
    match supAt s pa with
    | .mem t => match supRead s pa 36 t with
      | .error c => done s c
      | .ok (s1, b) =>
        match (lportOf s p).install (bit i 6) (bit i 7) ⟨BitVec.ofNat 256 (leAt b 0 32), BitVec.ofNat 32 (leAt b 32 4)⟩ with
        | none => done s Code.linkKey
        | some l => match supPut s1 pa (List.replicate 36 0) t with
          | .error c => done s c
          | .ok s2 => done (setPort s2 p l.upIfKeyed) 0
    | _ => done s Code.xlat)

end Sys2Proof.Machine
end

