-- ==== Sys2Proof/Machine/Supervisor.lean ====
section
/-! DEFINITION. The supervisor: the fault ring and the service calls, replay and abort of records, the hang monitor, pre-emption, translation
maintenance, keys, freezing and breakpoints (R399 to R418), and the step that resumes a waiting graph (R69). -/

namespace Sys2Proof.Machine

open Sys2Proof

/-! ## The ring (R401, R403, R423) -/

/-- Slots of a ring. -/
def SupR.ringN (q : SupR) : Nat := 2 ^ q.frlog2 / 64

/-- The physical address of the slot of an index. -/
def SupR.slot (q : SupR) (j : W64) : Nat := q.frbase.toNat + 64 * (j.toNat % q.ringN)

/-- The lap stamp of an index. -/
def SupR.lap (q : SupR) (j : W64) : Nat := (j.toNat / q.ringN + 1) % 2 ^ 64

/-- A record that FREPLAY can replay. -/
def FRec.again (r : FRec) : Bool := r.act != .none_

/-- FLAGS of a record (R401). -/
def FRec.flags (r : FRec) (resolved : Bool) : Nat := resolved.toNat + r.again.toNat * 2 + r.trunc.toNat * 4

/-- The 64 bytes of a record (R401), its lap stamp last. -/
def frecBytes (s : State) (r : FRec) (lap : Nat) : List Byte :=
  leBytes 1 r.code ++ leBytes 1 r.kind ++ leBytes 1 r.cls ++ leBytes 1 (r.flags false) ++ leBytes 2 (r.ctx % 512) ++ leBytes 1 s.wafno
    ++ leBytes 1 (regionField r.unit) ++ leBytes 4 r.node.toNat ++ leBytes 2 r.unitw.toNat ++ leBytes 2 (r.lid % 4096) ++ leBytes 8 r.addr
    ++ leBytes 8 (timeWord r.time).toNat ++ leBytes 4 r.seq.toNat ++ leBytes 4 0 ++ leBytes 8 (ctr s r.unit).toNat ++ leBytes 8 r.aux.toNat
    ++ leBytes 8 lap

/-- A word of a function's MSI-X table: two for each vector, the second with the vector's mask in bit 32, set at reset (R419; log 140). -/
def msixWord (s : State) (fn i : Nat) : W64 := tgetD s.host.msixT (fn, i) (if i % 2 = 1 then 0x0000000100000000#64 else 0)

/-- A vector of a function is masked. -/
def msixMasked (s : State) (fn v : Nat) : Bool := (msixWord s fn (2 * v + 1)).getLsbD 32

/-- MSI-X vector p of a function (R423); the manual does not say of which. One that is masked is pending too (log 140). -/
def raiseMsix (s : State) (p : Nat) : State :=
  let fn := (Config.openValue 2 [s.tick, p]).toNat % 2
  { s with host := { s.host with
      msix := s.host.msix ++ [(fn, p)]
      pend := if msixMasked s fn p && !s.host.pend.contains (fn, p) then s.host.pend ++ [(fn, p)] else s.host.pend } }

/-- The oldest held record of a partition written into its ring, where the ring has room. -/
def writeRecord (s : State) (p : Nat) (r : FRec) : State :=
  let h := homeField s p
  let q := supr s h
  let j := q.frwr
  if (j - q.frrd).toNat = q.ringN then s
  else match homeWrite s none (q.slot j) (frecBytes s r (q.lap j)) false with
    | .error _ => s
    | .ok s =>
      let s := { s with
        supr := tset s.supr h { q with frwr := j + 1 }
        recQ := dropFirst (fun x => x.rid == r.rid) s.recQ
        recs := tset s.recs (p, j) ⟨r, false⟩
        svcs := mapIf (fun v : Svc => v.rid == r.rid) (fun v => { v with idx := some j }) s.svcs }
      let s := wakeStwait s (q.slot j) 64
      if r.kind = 0 || r.kind = 3 then raiseMsix s p else s

/-- FAULT_RECORD_WRITE (R403). -/
def execFaultRecordWrite (p : Nat) (s : State) : Host.Outcome State Fault Refusal :=
  .next (match tget s.parts p, first? (fun r : FRec => r.part == p) s.recQ with
    | some _, some r => writeRecord s p r
    | _, _ => s)

/-- The partition of a sequencer's field. -/
def ownPart (s : State) (f : Nat) : Nat := (partOfField s f).getD 48

/-- A record is resolved: in the list of records, and by its flag where it still stands in its slot (R401). -/
def markResolved (s : State) (p : Nat) (j : W64) (r : FRec) : State :=
  let q := supr s (homeField s p)
  let s := { s with recs := tset s.recs (p, j) ⟨r, true⟩ }
  if memNat s (q.slot j + 56) 8 = q.lap j then wakeStwait (memPut s (q.slot j + 3) 1 (r.flags true)) (q.slot j + 3) 1 else s

/-! ## FREC and ERET (R400, R417) -/

/-- FREC has taken the record of an index: its service, if it is one, stands behind those taken before. -/
def takeSvc (s : State) (p : Nat) (j : W64) : State :=
  match (tget s.recs (p, j)).bind fun i => first? (fun v : Svc => v.rid == i.rec_.rid && !v.taken) s.svcs with
  | some v => { s with svcs := (dropFirst (fun x => x.rid == v.rid) s.svcs) ++ [{ v with taken := true }] }
  | none => s

/-- FREC's copy of a record to a physical address. -/
def frecCopy (s : State) (f : Nat) (g : Graph) (pa : Nat) (b : List Byte) : State :=
  match supAt s pa with
  | .mem t => match supPut s pa b t with
    | .ok s => s
    | .error c => recordOnly s (.seqr f) c g.ctx f g.lid none pa t00 0
  | .away => s
  | _ => supMiss s f g pa

/-- FREC: none while the slot at RIDX lacks its lap stamp. -/
def tryFrec (s : State) (f : Nat) (g : Graph) (d a : Nat) : Option State :=
  let q := supr s f
  let j := q.frrd
  match homeRead s none (q.slot j) 64 false with
  | .error _ => none
  | .ok (s, b) =>
    if leAt b 56 8 ≠ q.lap j then none
    else
      let s := frecCopy s f g ((g.reg (BitVec.ofNat 4 a)).toNat / 64 * 64) b
      let s := takeSvc { s with supr := tset s.supr f { q with frrd := j + 1 } } (ownPart s f) j
      some (putGraph s (g.setReg (BitVec.ofNat 4 d) j).next)

/-- FREC. -/
def execFrec (w : SW) (s : State) : Host.Outcome State Fault Refusal :=
  .next (seqWord s fun f g => orWait s g (.frec w.d.toNat w.a.toNat) (tryFrec s f g w.d.toNat w.a.toNat))

/-- The graph of a service call goes on at its next word, with the supervisor's S1. -/
def answerSvc (s : State) (v : Svc) (s1 : W64) : State :=
  let go (s : State) : State :=
    let l := mapIf (fun g : Graph => g.lid == v.lid && g.wait == some .svc)
      (fun g => { (g.setReg 1 s1).next with since := ctr s (.seqr v.f) }) (graphsOf s v.f)
    { s with x := { s.x with graphs := tset s.x.graphs v.f l } }
  match launch? s v.lid with
  | some l => onCopy s l.ctx go
  | none => s

/-- ERET (R400). -/
def execEret (_ : SW) (s : State) : Host.Outcome State Fault Refusal :=
  .next (seqWord s fun f g =>
    let s := putGraph s g.next
    match first? (fun v : Svc => v.taken && partOfField s v.f == partOfField s f) s.svcs with
    | none => s
    | some v => answerSvc { s with svcs := dropFirst (fun x => x.rid == v.rid) s.svcs } v (g.reg 1))

/-! ## FREPLAY and FABORT (R417, R418) -/

/-- What the record parked still stands parked for it. -/
def stillParked (s : State) (r : FRec) : Bool :=
  match r.act with
  | .none_ => false
  | .node sl => (parkedOf s sl).any fun p => p.rec_ == r.rid
  | .graph f lid => graphParked s f lid r.rid
  | .stream f n id => (stream? s f n id).any fun x => x.parked == some r.rid
  | .spill f n id i => (stream? s f n id).any fun x => x.dsts.any fun d => d.i == i && d.spillR == some r.rid
  | .hist core off _ => (tget s.x.hstop (core, off)).map Prod.fst == some r.rid
  | .carry _ sl => (parkedOf s sl).any fun p => p.rec_ == r.rid
  | .owner _ _ sl => (parkedOf s sl).any fun p => p.rec_ == r.rid

/-- The return from a fault: what its record parked goes on. -/
def returnFrom (s : State) (r : FRec) : State :=
  match r.act with
  | .none_ => s
  | .node sl => replaySet s sl r.rid
  | .graph f lid => replayGraph s f lid r.rid
  | .stream f n id => resumeStream s f n id
  | .spill f n id i => replaySpill s f n id i
  | .hist core off owner => resumeHist s core off owner r.rid
  | .carry walk sl => replayCarry s walk sl r.rid
  | .owner w pa sl => tellRetry (replaySet s sl r.rid) w pa sl r.lid

/-- The end of a fault without replay. -/
def endFault (s : State) (r : FRec) : State :=
  match r.act with
  | .none_ => s
  | .stream f n id => abortStream s f n id
  | .spill f n id i => abortSpill s f n id i
  | _ => retire s r.lid r.code

/-- An unresolved record of a partition by its index. -/
def openRec (s : State) (p : Nat) (j : W64) : Option FRec :=
  (tget s.recs (p, j)).bind fun i => if i.resolved then none else some i.rec_

/-- FREPLAY of a record, with its status: in the copy that holds its context, or once a context saved out is back. -/
def replayRec (s : State) (p : Nat) (j : W64) : State × Nat :=
  match openRec s p j with
  | none => (s, 1)
  | some r =>
    if !r.again then (s, 1)
    else if ctxAway s r.ctx then
      let s := markResolved s p j r
      match tget s.saved r.ctx with
      | some v => ({ s with saved := tset s.saved r.ctx { v with replays := v.replays ++ [r] } }, 0)
      | none => (s, 0)
    else
      let t := onCopy s r.ctx fun s => if stillParked s r then returnFrom (markResolved s p j r) r else s
      if (openRec t p j).isSome then (s, 1) else (t, 0)

/-- FREPLAY. -/
def execFreplay (w : SW) (s : State) : Host.Outcome State Fault Refusal :=
  .next (seqWord s fun f g =>
    let r := replayRec s (ownPart s f) (g.reg w.a)
    putGraph r.1 (g.setReg w.d (BitVec.ofNat 64 r.2)).next)

/-- FABORT of a record (m = 0). -/
def execFabortRecord (w : SW) (s : State) : Host.Outcome State Fault Refusal :=
  .next (seqWord s fun f g =>
    let p := ownPart s f
    let j := g.reg w.a
    match openRec s p j with
    | none => putGraph s (g.setReg w.d 1).next
    | some r =>
      let s := onCopy (markResolved s p j r) r.ctx fun s => if stillParked s r then endFault s r else s
      putGraph s (g.setReg w.d 0).next)

/-- A launch of the supervisor's partition that has not ended. -/
def liveLaunch (s : State) (p lid : Nat) : Bool := (launch? s lid).any fun l => l.part == p && l.stat != .ended

/-- FABORT of a launch (m = 1). -/
def execFabortLaunch (w : SW) (s : State) : Host.Outcome State Fault Refusal :=
  .next (seqWord s fun f g =>
    let lid := (g.reg w.a).toNat % 4096
    if liveLaunch s (ownPart s f) lid then putGraph (retire s lid ((g.reg w.b).toNat % 256)) (g.setReg w.d 0).next
    else putGraph s (g.setReg w.d 1).next)

/-! ## QUIESCE (R417) -/

/-- A copy of the execution state holds a parked node or graph of a launch. -/
def parkedIn (x : Exec) (lid : Nat) : Bool :=
  (x.park.any fun q => !q.2.isEmpty && (tget x.nodes q.1).any fun n => n.lid == lid)
    || x.graphs.any fun q => q.2.any fun g => g.lid == lid && g.park.isSome

/-- A launch holds a parked or frozen part. -/
def heldUp (s : State) (lid : Nat) : Bool :=
  (s.frozen.any fun z => z.lid == lid && z.left.isNone) || parkedIn s.x lid || parkedIn s.sh lid || (s.saved.any fun q => parkedIn q.2.exec lid)
    || s.sis.any fun q => q.2.streams.any fun x => x.lid == lid && (x.parked.isSome || x.dsts.any fun d => d.spillR.isSome)

/-- QUIESCE: none while a launch of the context runs on. -/
def tryQuiesce (s : State) (g : Graph) (d c : Nat) : Option State :=
  let l := s.launches.filter fun q => q.2.ctx == c
  if l.all fun q => heldUp s q.1 then some (putGraph s (g.setReg (BitVec.ofNat 4 d) (BitVec.ofNat 64 l.length)).next) else none

/-- QUIESCE. -/
def execQuiesce (w : SW) (s : State) : Host.Outcome State Fault Refusal :=
  .next (seqWord s fun _ g =>
    let c := w.imm.toNat % 512
    let s := { s with queues := s.queues.map fun q => (q.1, if q.2.ctx = c then { q.2 with quiet := true } else q.2) }
    orWait s g (.quiesce w.d.toNat c) (tryQuiesce s g w.d.toNat c))

/-! ## Pre-emption (R410, R411) -/

/-- The state with a partition's CTXSTAT replaced. -/
def setCtx (s : State) (p : Nat) (t : CtxSt) : State := { s with ctxs := tset s.ctxs p t }

/-- Each core of some fields sends its count table (R224, R410 step 3). -/
def flushFields (s : State) (fs : List Nat) : State :=
  (s.x.ctab.filter fun q => fs.contains q.1.f && !q.2.isEmpty).foldl (fun s q => flushCounts s q.1) s

/-- The hang counts of a partition's regions begin again (R406). -/
def restartCounts (s : State) (p : Nat) (fs : List Nat) : State :=
  let now := ctr s (.seqr (homeField s p))
  { s with prog := s.prog.map fun q => (q.1, if fs.contains q.1.1 then now else q.2) }

/-- CSWAP (R410): the request; the word waits while a CSAVE or a CLOAD runs, and then for the exchange. -/
def execCswap (w : SW) (s : State) : Host.Outcome State Fault Refusal :=
  .next (seqWord s fun f g =>
    let p := ownPart s f
    let t := ctxStat s p
    if t.step != 0 then s else waitFor (setCtx s p { t with step := 1 }) (g.setReg w.d 0) (.ctxop w.d.toNat))

/-- EXCHANGE_COMPLETE (R410 steps 3 to 5): counts sent, the live and the shadow state trade places. CTXSTAT shows 2 from when the home field's
sequencer, looking at the waiting word, finds the partition halted (R416; log 96). -/
def execExchangeComplete (p : Nat) (s : State) : Host.Outcome State Fault Refusal :=
  .next (
    let t := ctxStat s p
    if t.step != 1 && t.step != 2 then s
    else
      let fs := partFields s p
      let s := exchange (flushFields s fs) fs
      restartCounts (setCtx s p { t with step := 0, live := t.shad, shad := t.live }) p fs)

/-- The code of a save area at a base for a field (R411, R417). -/
def areaBad (s : State) (f base : Nat) : Option Nat :=
  if base % 65536 ≠ 0 then some Code.align
  else if paWafer base != s.wafno || 2 ^ 52 ≤ base || bits base 47 43 != 0 || bits base 42 37 != f || 2 ^ 37 < base % 2 ^ 37 + saveSize then some Code.prot
  else none

/-- The 48 save-area bases at a physical address. -/
def readBases (s : State) (pa : Nat) : Except Nat (State × List W64) :=
  match supAt s pa with
  | .mem t => (supRead s pa 384 t).map fun q => (q.1, (List.range 48).map fun i => BitVec.ofNat 64 (leAt q.2 (8 * i) 8))
  | _ => .error Code.xlat

/-- The bases of a partition's own fields. -/
def ownBases (s : State) (p : Nat) (b : List W64) : List W64 := (partFields s p).map fun f => (b[f]?).getD 0

/-- CSAVE's judgement of its areas. -/
def judgeAreas (s : State) (p : Nat) (b : List W64) : Option Nat :=
  (partFields s p).findSome? fun f => areaBad s f ((b[f]?).getD 0).toNat

/-- A supervisor word that ends with a status. -/
def supDone (s : State) (g : Graph) (d : BitVec 4) (c : Nat) : State := putGraph s (g.setReg d (BitVec.ofNat 64 c)).next

/-- CSAVE (R411): judged when it issues; the fields then save on their own. -/
def execCsave (w : SW) (s : State) : Host.Outcome State Fault Refusal :=
  .next (seqWord s fun f g =>
    let p := ownPart s f
    let t := ctxStat s p
    if t.step != 0 then s
    else match t.shad with
      | none => supDone s g w.d 0
      | some c => match readBases s (g.reg w.a).toNat with
        | .error e => supDone s g w.d e
        | .ok (s1, b) => match judgeAreas s p b with
          | some e => supDone s g w.d e
          | none =>
            let s := setCtx s1 p { t with step := 3 }
            supDone { s with saved := tset s.saved c ⟨0, p, Exec.empty, [], [], [], ownBases s p b, []⟩ } g w.d 0)

/-- An arrival for scratchpad or SRAM of a context has left its engine and is not applied yet (R267). -/
def arrivalBound (s : State) (c : Nat) : Bool :=
  s.net.any fun p => match p.msg with
    | .arrival _ ctx _ _ pa .. => ctx == c && p.inj && p.srcW == s.wafno && onChip s pa
    | _ => false

/-- A partition's save areas written (R411; log 22): what stood there is gone. -/
def writeAreas (s : State) (b : List W64) : State :=
  let bs := b.map BitVec.toNat
  let inOne (a : Nat) : Bool := bs.any fun m => m ≤ a && a < m + saveSize
  { s with
    areas := (bs.map fun m => ⟨m, s.tick, []⟩) ++ s.areas.filter fun a => !bs.contains a.base
    ecc := s.ecc.filter fun q => !inOne (8 * q.1) }

/-- CSAVE_COMPLETE (R411): the shadow is saved out, and empty; arrivals under way to it are applied first (R267). -/
def execCsaveComplete (p : Nat) (s : State) : Host.Outcome State Fault Refusal :=
  .next (
    let t := ctxStat s p
    let fs := partFields s p
    match t.step == 3 && t.load.isNone, t.shad with
    | true, some c =>
      if arrivalBound s c then s else
      let b := ((tget s.saved c).map Saved.bases).getD []
      let v : Saved := ⟨s.tick, p, mixExec fs Exec.empty s.sh, s.smem.filter (cellIn fs), mixEcc fs [] s.secc, mixAon fs [] s.saon, b, []⟩
      let s := setCtx (writeAreas s b) p { t with step := 0, shad := none }
      { s with
        sh := mixExec fs s.sh Exec.empty
        smem := mixCells fs s.smem []
        secc := mixEcc fs s.secc []
        saon := mixAon fs s.saon []
        saved := tset s.saved c v }
    | _, _ => s)

/-- CLOAD (R411): into an empty shadow, as a context that is not live. -/
def execCload (w : SW) (s : State) : Host.Outcome State Fault Refusal :=
  .next (seqWord s fun f g =>
    let p := ownPart s f
    let t := ctxStat s p
    let c := w.imm.toNat % 512
    if t.step != 0 then s
    else if t.shad.isSome || t.live == some c || partOfCtx s c != some p then supDone s g w.d Code.prot
    else match readBases s (g.reg w.a).toNat with
      | .error e => supDone s g w.d e
      | .ok (s, b) => supDone (setCtx s p { t with step := 3, load := some (c, ownBases s p b) }) g w.d 0)

/-- A save area holds every byte as a CSAVE left it. -/
def areaWhole (s : State) (stamp : Nat) (m : W64) : Bool :=
  (first? (fun a : SaveArea => touches a.base saveSize m.toNat saveSize) s.areas) == some ⟨m.toNat, stamp, []⟩

/-- What CLOAD brings back: the context as it was saved, where the areas are those it was saved to and hold every byte as they did then; else
what the areas give is not known (log 22, 36). -/
def loadedCopy (s : State) (p c : Nat) (b : List W64) : Saved :=
  let open_ : Saved := ⟨0, p, Config.areaExec s.tick c b, Config.areaCells s.tick c b, [], [], b, []⟩
  match tget s.saved c with
  | some v => if v.bases = b && b.all (areaWhole s v.stamp) then v else { open_ with replays := v.replays }
  | none => open_

/-- CLOAD_COMPLETE (R411, R418): the context stands in the shadow, and the replays that waited for it are applied there. -/
def execCloadComplete (p : Nat) (s : State) : Host.Outcome State Fault Refusal :=
  .next (
    let t := ctxStat s p
    match t.step == 3, t.load with
    | true, some (c, b) =>
      let fs := partFields s p
      let v := loadedCopy s p c b
      let s := setCtx s p { t with step := 0, shad := some c, load := none }
      let s := { s with
        sh := mixExec fs s.sh v.exec
        smem := mixCells fs s.smem v.cells
        secc := mixEcc fs s.secc v.ecc
        saon := mixAon fs s.saon v.aon
        saved := tdel s.saved c }
      v.replays.foldl (fun s r => onCopy s c fun s => if stillParked s r then returnFrom s r else s) s
    | _, _ => s)

/-! ## Translation maintenance (R414, R415, R417) -/

/-- A page meets the range of TLBINV; a length of zero names every page. -/
def inRange (lo len page size : Nat) : Bool := len == 0 || (page < lo + len && lo < page + 2 ^ size)

/-- A pinned page keeps TLBINV waiting. -/
def pinBlocks (s : State) (c lo len : Nat) : Bool := (pinsOf s).any fun q => q.ctx == c && inRange lo len q.page q.size

/-- A context's translations of a range dropped in every core of a partition. -/
def dropTlbs (s : State) (p c lo len : Nat) : State :=
  let fs := partFields s p
  { s with tlbs := s.tlbs.map fun q =>
      (q.1, if fs.contains q.1.f then q.2.filter fun e => !(e.ctx == c && inRange lo len e.page e.size) else q.2) }

/-- TLBINV, and the end of MAPPIN: none while a pin holds it. -/
def tryTlbinv (s : State) (f : Nat) (g : Graph) (lo len c : Nat) : Option State :=
  if pinBlocks s c lo len then none else some (putGraph (dropTlbs s (ownPart s f) c lo len) g.next)

/-- TLBINV (R414). -/
def execTlbinv (w : SW) (s : State) : Host.Outcome State Fault Refusal :=
  .next (seqWord s fun f g =>
    let lo := (g.reg w.a).toNat
    let len := (g.reg w.b).toNat
    let c := w.imm.toNat % 512
    orWait s g (.tlbinv lo len c) (tryTlbinv s f g lo len c))

/-- The table that holds the entry of a level for an address: none where an upper table is missing (R412). -/
def tableAt (s : State) (va : Nat) : Nat → Nat → Nat → Option Nat
  | 0, _, table => some table
  | n + 1, l, table =>
    match tableWord s (table + 8 * levelIx l va) with
    | some e => if bit e 0 && !bit e 1 then tableAt s va n (l + 1) (bits e 51 16 * 2 ^ 16) else none
    | none => none

/-- The entry of a level for an address in a context. -/
def entryAt (s : State) (ctx va level : Nat) : Option Nat :=
  match partOfCtx s ctx with
  | none => none
  | some p =>
    match tableWord s (bits (supr s (homeField s p)).ctxbase.toNat 51 15 * 2 ^ 15 + 64 * ctx) with
    | some d => if bit d 0 then (tableAt s va level 0 (bits d 51 16 * 2 ^ 16)).map fun t => t + 8 * levelIx level va else none
    | none => none

/-- The words that MAPPIN reads: the context's entry, then one of each table down to its level. -/
def entryWords (s : State) (ctx va level : Nat) : List Nat :=
  match partOfCtx s ctx with
  | none => []
  | some p => (bits (supr s (homeField s p)).ctxbase.toNat 51 15 * 2 ^ 15 + 64 * ctx) / 8 ::
      (List.range (level + 1)).filterMap fun l => (entryAt s ctx va l).map (· / 8)

/-- A leaf of R413 at a level; an entry with V clear removes a mapping and has nothing to keep. -/
def leafOk (leaf level : Nat) : Bool :=
  !bit leaf 0 || (bit leaf 1 && bits leaf 63 52 == 0 && bits leaf 15 6 == 0 && bits leaf 51 16 * 2 ^ 16 % 2 ^ levelBits level == 0)

/-- MAPPIN's PROT cases (R413, R415). -/
def mapProt (s : State) (ctx old leaf : Nat) : Bool :=
  let pa := bits leaf 51 16 * 2 ^ 16
  (bit old 0 && bit old 1 && bit old 5 && bits old 51 16 != bits leaf 51 16)
    || (bit leaf 0 && ((bit leaf 4 && bits pa 47 46 != 0) || !inPartition s ((partOfCtx s ctx).getD 48) pa))

/-- MAPPIN's write, the words read corrected (R316), or its code. -/
def mapLeaf (s : State) (ctx va leaf level : Nat) : Except Nat State :=
  if level = 0 || !leafOk leaf level then .error Code.cfgField
  else match entryAt s ctx va level with
    | none => .error Code.xlat
    | some a => match tableWord s a with
      | none => .error Code.eccUncorr
      | some old => if mapProt s ctx old leaf then .error Code.prot
        else (homeWrite ((entryWords s ctx va level).foldl correctWord s) none a (leBytes 8 leaf) false).map fun s => wakeStwait s a 8

/-- MAPPIN (R417): the leaf is written, and the page's translations are then dropped as TLBINV drops them. -/
def execMappin (w : SW) (s : State) : Host.Outcome State Fault Refusal :=
  .next (seqWord s fun f g =>
    let c := w.imm.toNat % 512
    let level := bits w.imm.toNat 10 9
    let va := (g.reg w.a).toNat
    match mapLeaf s c va (g.reg w.b).toNat level with
    | .error e => supDone s g w.d e
    | .ok s =>
      let size := levelBits level
      let lo := va / 2 ^ size * 2 ^ size
      let g := g.setReg w.d 0
      orWait s g (.tlbinv lo (2 ^ size) c) (tryTlbinv s f g lo (2 ^ size) c))

/-! ## Keys and sweeping (R316, R417, R425) -/

/-- A key with the number by which sectors name it: equal keys have equal numbers. -/
def xkeyOf (b : List Byte) : XKey := ⟨b, leNat b + 1⟩

/-- KEYLD (R417): the 64-byte key pair is installed in the context's slot, and its block is zeroed. -/
def execKeyld (w : SW) (s : State) : Host.Outcome State Fault Refusal :=
  .next (seqWord s fun _ g =>
    let c := w.imm.toNat % 512
    let pa := (g.reg w.a).toNat
    let t := ((partOfCtx s c).map (ctxStat s)).getD ⟨0, none, none, none⟩
    if t.live == some c || t.shad == some c || (tget s.saved c).isSome then supDone s g w.d Code.prot
    else match supAt s pa with
      | .mem t => match supRead s pa 64 t with
        | .error e => supDone s g w.d e
        | .ok (s1, b) => match supPut s1 pa (List.replicate 64 0) t with
          | .error e => supDone s g w.d e
          | .ok s2 => supDone { s2 with keys := tset s2.keys c (xkeyOf b) } g w.d 0
      | _ => supDone s g w.d Code.xlat)

/-- The words with a bit wrong that a physical range of the partition touches, in ascending order. -/
def badWords (s : State) (p lo len : Nat) : List Nat :=
  (s.ecc.filter fun q => lo < q.1 * 8 + 8 && q.1 * 8 < lo + len && paWafer (q.1 * 8) == s.wafno && inPartition s p (q.1 * 8)
    && (decodePA s (q.1 * 8)).isSome).foldl (fun l q => insNat q.1 l) []

/-- SWEEP of one word: corrected, or a record of class 3 and a count. -/
def sweepWord (ctx : Nat) (a : State × Nat) (w : Nat) : State × Nat :=
  let u := ((decodePA a.1 (w * 8)).map Tgt.home).getD .link
  match eccRead a.1 u [w] with
  | some s => (s, a.2)
  | none => (recordOnly a.1 u Code.eccUncorr ctx (unitField u) noLid none (w * 8) t00 0, a.2 + 1)

/-- SWEEP (R417). -/
def execSweep (w : SW) (s : State) : Host.Outcome State Fault Refusal :=
  .next (seqWord s fun f g =>
    let r := (badWords s (ownPart s f) (g.reg w.a).toNat (g.reg w.b).toNat).foldl (sweepWord g.ctx) (s, 0)
    supDone r.1 g w.d r.2)

/-! ## Freezing and breakpoints (R402, R405, R408, R417) -/

/-- The launch and the fields that a region operand names (R402); none where the launch has no part there or is another partition's. -/
def regionOf (s : State) (p : Nat) (v : Nat) : Nat × List Nat :=
  let lid := v % 4096
  match launch? s lid with
  | some l => (lid, if l.part != p || l.stat == .ended then [] else if bit v 18 then l.fields else l.fields.filter fun f => f == bits v 17 12)
  | none => (lid, [])

/-- FREEZE (R417): the region halts, and a record of KIND 2 follows. -/
def execFreeze (w : SW) (s : State) : Host.Outcome State Fault Refusal :=
  .next (seqWord s fun f g =>
    let r := regionOf s (ownPart s f) (g.reg w.a).toNat
    let ctx := ((launch? s r.1).map Launch.ctx).getD 0
    let s := r.2.foldl (fun s f => (report (freeze s f r.1 true) (recBase (.seqr f) 0 2 1 ctx f r.1)).2) s
    putGraph s g.next)

/-- The damaged entry that froze a region still reads as damaged: a token does, and a word of memory until it is written again (R316, R405). -/
def stillHurt (s : State) (h : Hurt) : Bool := h.code == Code.parityHard || h.words.any fun w => tget s.ecc w == some .double

/-- A region thawed; with n, it freezes again after n issues. The entry that a parity or ECC freeze left in place is read again, and freezes
the region again (R405, R417). -/
def thaw (s : State) (lid n : Nat) (f : Nat) : State :=
  let mine (z : Frozen) : Bool := z.f == f && z.lid == lid
  let by_ := s.frozen.any fun z => mine z && z.byUser
  let rest := s.frozen.filter fun z => !mine z
  let t := progress { s with frozen := if n = 0 then rest else rest ++ [⟨f, lid, by_, some n, none⟩] } f lid
  match (first? mine s.frozen).bind Frozen.hurt with
  | some h => if stillHurt s h then freezeHurt t (((launch? s lid).map Launch.ctx).getD 0) f lid h else t
  | none => t

/-- THAW (R417). -/
def execThaw (w : SW) (s : State) : Host.Outcome State Fault Refusal :=
  .next (seqWord s fun f g =>
    let r := regionOf s (ownPart s f) (g.reg w.a).toNat
    putGraph (r.2.foldl (fun s f => thaw s r.1 (w.imm.toNat % 2 ^ 20) f) s) g.next)

/-- A breakpoint's target as its kind names it: a slot, a pane, a cell, or a code. -/
def brkTarget (kind v : Nat) : W64 :=
  BitVec.ofNat 64 (match kind with
    | 1 | 4 => bits v 31 8 * 256
    | 2 => bits v 51 11 * 2048
    | 3 => bits v 51 0
    | _ => v)

/-- BRKSET (R417). -/
def execBrkset (w : SW) (s : State) : Host.Outcome State Fault Refusal :=
  .next (seqWord s fun f g =>
    let i := w.imm.toNat
    let v := (g.reg w.a).toNat
    let kind := bits v 63 60
    let k := (ownPart s f, i % 16)
    let b : Brk := ⟨kind, brkTarget kind (bits v 59 0), if bit i 4 then some (timeOf (g.reg w.b)) else none,
      if bit i 5 then some (BitVec.ofNat 24 (bits i 29 6)) else none⟩
    putGraph { s with brks := if kind = 0 then tdel s.brks k else tset s.brks k b } g.next)

/-! ## The hang monitor (R406, R407) -/

/-- Waiting requests of the region: at a home, at a port after a retry, in a pool record of whatever launch, at a history, or a release
(R265). -/
def waitingReqs (s : State) (lid f : Nat) : List PortReq :=
  ((s.x.waitl.flatMap fun q => q.2.map WaitE.req) ++ (s.x.retry.flatMap fun q => q.2.map Retry.req)
    ++ (s.launches.flatMap fun q => q.2.pool.map fun w => w.2.req) ++ (s.x.relw.flatMap fun q => q.2.map RelW.req) ++ (s.x.hset.flatMap fun q => q.2.map HOp.req)
    ++ (s.x.hq.flatMap fun q => q.2.map HOp.req) ++ s.x.hbusy.map fun q => q.2.req).filter
    fun r => r.lid == lid && r.sl.core.f == f && r.wafer == s.wafno

/-- Accepted engine commands of the region. -/
def engineReqs (s : State) (lid f : Nat) : List PortReq :=
  ((s.sis.flatMap fun q => q.2.streams.filterMap Stream.req) ++ (s.x.mis.flatMap fun q => (q.2.ctrl ++ q.2.pool).map MCmd.req)).filter
    fun r => r.lid == lid && r.sl.core.f == f

/-- An entry of a hang report (R407). -/
def hangEntry (c : CoreId) (e kind b5 n : Nat) (t : Time) (seq : BitVec 24) (ctx v : Nat) : List Byte :=
  leBytes 1 c.f ++ leBytes 1 c.cx ++ leBytes 1 c.cy ++ leBytes 1 e ++ leBytes 1 kind ++ leBytes 1 b5 ++ leBytes 2 n ++ leBytes 8 (timeWord t).toNat
    ++ leBytes 3 seq.toNat ++ leBytes 1 ctx ++ leBytes 4 0 ++ leBytes 8 v

/-- The entries of a region's edge buffers. -/
def edgeEntries (s : State) (p : Slot → Bool) : List (List Byte) :=
  s.x.edges.filterMap fun q =>
    let l := q.2.buf.filter (bufHas s p q.1)
    match l with
    | [] => none
    | b :: _ => some (hangEntry q.1.core q.1.e 1 q.1.port l.length b.tok.time b.tok.seq b.tok.ctx.toNat 0)

/-- The entries of a region's matching stores and carve-outs. -/
def storeEntries (s : State) (p : Slot → Bool) : List (List Byte) :=
  s.x.mstore.flatMap fun q => q.2.filterMap fun m =>
    if entryHolds m && p ⟨q.1, m.e, m.id.k⟩ then
      some (hangEntry q.1 m.e 2 (m.a.isSome.toNat * 8 + m.b.isSome.toNat * 4 + m.c.isSome.toNat * 2 + m.p.isSome.toNat) 1 m.id.time m.id.seq m.id.k 0)
    else none

/-- The entry of a waiting request, with the address waited on, or of an engine command, with its token's VAL. -/
def reqEntry (kind v : Nat) (r : PortReq) : List Byte := hangEntry r.sl.core r.sl.e kind 0 1 r.set.id.time r.set.id.seq r.sl.k v

/-- Every entry of a region's report. -/
def hangEntries (s : State) (lid f : Nat) : List (List Byte) :=
  let p (sl : Slot) : Bool := sl.core.f == f && ofLaunch s lid sl
  edgeEntries s p ++ storeEntries s p ++ ((waitingReqs s lid f).map fun r => reqEntry 3 r.va r)
    ++ (engineReqs s lid f).map fun r => reqEntry 4 (aVal r).toNat r

/-- The region is frozen with HANG, and its report and record are written. -/
def raiseHang (s : State) (h f lid ctx : Nat) : State :=
  let r := supr s h
  let base := bits r.hrep.toNat 51 16 * 2 ^ 16
  let room := bits r.hrep.toNat 15 0 * 2048
  let all := hangEntries s lid f
  let es := all.take room
  let s := freeze s f lid false
  let s := match homeWrite s none base es.flatten false with
    | .ok t => if es.isEmpty then s else wakeStwait t base (32 * es.length)
    | .error _ => s
  (reportFault s { recBase (.seqr h) Code.hang 3 1 ctx h lid with
    addr := base
    aux := BitVec.ofNat 64 es.length
    trunc := decide (room < all.length) }).2

/-- The region has gone 2^HANGIV clk of its home field's counter without progress. -/
def stalled (s : State) (h f lid : Nat) : Bool :=
  match tget s.prog (f, lid) with
  | some c => 2 ^ (supr s h).hangiv ≤ (ctr s (.seqr h) - c).toNat
  | none => false

/-- The region holds a token that is not parked, a waiting request or an accepted engine command (R406). -/
def holdsWork (s : State) (lid f : Nat) : Bool :=
  holdsLive s (fun sl => sl.core.f == f && ofLaunch s lid sl) || !(waitingReqs s lid f).isEmpty || !(engineReqs s lid f).isEmpty

/-- HANG (R406). -/
def execHang (f : Nat) (lid : Nat) (s : State) : Host.Outcome State Fault Refusal :=
  .next (match launch? s lid, partOfField s f with
    | some l, some p =>
      let h := homeField s p
      if l.stat == .running && l.fields.contains f && ctxRuns s l.ctx && !isFrozen s f lid && !seqrHolds s h && stalled s h f lid && holdsWork s lid f then
        raiseHang s h f lid l.ctx
      else s
    | _, _ => s)

/-! ## GRAPH_RESUME (R69) -/

/-- The supervisor graph's wait looked at again. -/
def resumeSup (s : State) (f : Nat) (g : Graph) : Wait → Option State
  | .frec d a => tryFrec s f g d a
  | .quiesce d c => tryQuiesce s g d c
  | .ctxop _ =>
    let p := ownPart s f
    let t := ctxStat s p
    if t.step = 0 then some (putGraph s g.next)
    else if t.step = 1 then some (setCtx (flushFields s (partFields s p)) p { t with step := 2 })
    else none
  | .tlbinv lo len c => tryTlbinv s f g lo len c
  | w => resumeUser s f g w

/-- A user graph may go on: its context is live, its region is not frozen, its launch runs, its sequencer holds no record. -/
def mayResume (s : State) (f : Nat) (g : Graph) : Bool := ctxRuns s g.ctx && !isFrozen s f g.lid && !seqrHolds s f && running s g.lid

/-- The user graph in place n of a field resumed. -/
def resumeAt (s : State) (f n : Nat) (g : Graph) : State :=
  match g.wait with
  | none => s
  | some w =>
    if !mayResume s f g then s
    else match resumeUser { s with focus := .seq f (some n) } f g w with
      | none => s
      | some t => { t with focus := s.focus }

/-- The supervisor graph of a field resumed. -/
def resumeSupAt (s : State) (f : Nat) : State :=
  match (seqrOf s f).sup with
  | none => s
  | some g => match g.wait with
    | none => s
    | some w => match resumeSup { s with focus := .seq f none } f g w with
      | none => s
      | some t => { t with focus := s.focus }

/-- GRAPH_RESUME (R69): graph g of a field, or beyond the resident ones the supervisor graph. -/
def execGraphResume (f : Nat) (g : Nat) (s : State) : Host.Outcome State Fault Refusal :=
  .next (match (graphsOf s f)[g]? with
    | some x => resumeAt s f g x
    | none => resumeSupAt s f)

end Sys2Proof.Machine
end

