-- ==== Sys2Proof/Machine/Host.lean ====
section
/-! DEFINITION. The host and the management controller: host windows and AtomicOps, the mailbox, firmware and attestation, power states,
heat, and reset (R419 to R432). -/

namespace Sys2Proof.Machine

open Sys2Proof

/-! ## Windows (R419, R420) -/

/-- The register of window w of a function. -/
def hwin (s : State) (fn w : Nat) : W64 := tgetD s.host.hwin (fn, w) 0

/-- A window's partition: that of its CTX. -/
def winPart (s : State) (h : W64) : Option Nat := partOfCtx s (bits h.toNat 60 52)

/-- Where an access of n bytes at a BAR2 offset goes: the context and the physical address, none for Unsupported Request. -/
def hostAt (s : State) (fn off n : Nat) : Option (Nat × Nat × Tgt) :=
  let h := hwin s fn (off / 2 ^ 34)
  let pa := bits h.toNat 51 34 * 2 ^ 34 + off % 2 ^ 34
  if !clocksRun s || 2 ≤ fn || 16 ≤ off / 2 ^ 34 || !h.getLsbD 63 || 2 ^ 34 < off % 2 ^ 34 + n || n = 0 then none
  else match winPart s h, decodePA s pa with
    | some p, some t => if paWafer pa == s.wafno && inPartition s p pa then some (bits h.toNat 60 52, pa, t) else none
    | _, _ => none

/-- The last access of the host completes with some bytes. -/
def hostDone (s : State) (b : List Byte) : State := { s with host := { s.host with lastRd := b, ur := false } }

/-- The last access of the host completes with Unsupported Request. -/
def hostUr (s : State) (n : Nat) : State := { s with host := { s.host with lastRd := List.replicate n 0xFF, ur := true } }

/-- A refused access leaves a record at its home, which raises it for the context (R425, R316). -/
def hostRefused (s : State) (t : Tgt) (ctx code pa : Nat) : State := recordOnly s t.home code ctx t.field noLid none pa t00 0

/-- Bytes read at a window's target. -/
def hostGet (s : State) (ctx pa n : Nat) (t : Tgt) : Except Nat (State × List Byte) :=
  match t with
  | .win st k o => match tget s.wins (st, k) with
    | some w => windowRead w w.lid s o n
    | none => .error Code.xlat
  | _ => homeRead s (some ctx) pa n false

/-- Bytes written at a window's target. -/
def hostPut (s : State) (ctx pa : Nat) (b : List Byte) (t : Tgt) : Except Nat State :=
  match t with
  | .win st k o => match tget s.wins (st, k) with
    | some w => windowWrite w w.lid s o b
    | none => .error Code.xlat
  | _ => (homeWrite s (some ctx) pa b false).map fun s => wakeStwait s pa b.length

/-! ## The management registers (R419, R424, R429, R431) -/

/-- In a host access, offsets from here on are BAR0's: BAR2 ends here (log 140). -/
def bar0 : Nat := 2 ^ 38

/-- The status word (R429, R431). -/
def statusReg (s : State) : W64 := BitVec.ofNat 64 (s.host.stage + s.host.trip.toNat * 16 + s.host.scode.toNat * 256)

/-- PWRCTL (R431). -/
def pwrctlReg (s : State) : W64 := BitVec.ofNat 64 (s.host.pcap.toNat * 2 ^ 32 + s.host.pstate)

/-- THERM (R431). -/
def thermReg (s : State) : W64 := BitVec.ofNat 64 (s.host.hotf * 2 ^ 32 + s.host.temp.toNat * 2 ^ 16 + s.host.thrm.toNat)

/-- The pending bits of a function's MSI-X vectors. -/
def pbaReg (s : State) (fn : Nat) : W64 := BitVec.ofNat 64 (((List.range 64).map fun v => if s.host.pend.contains (fn, v) then 2 ^ v else 0).sum)

/-- What stands at a word of BAR0 of a function. -/
inductive Bar0At where
  | status
  | hwin (w : Nat)
  | defmap (f : Nat)
  | pwrctl
  | therm
  | mbox (i : Nat)
  | msix (i : Nat)
  | pba
  | none_
  deriving DecidableEq, Repr

/-- The register at an offset of BAR0 that is a multiple of 8; the pending bits follow the MSI-X table (log 140). -/
def bar0At (o : Nat) : Bar0At :=
  if o = 0 then .status
  else if 0x100000 ≤ o && o < 0x100080 then .hwin ((o - 0x100000) / 8)
  else if 0x200000 ≤ o && o < 0x200180 then .defmap ((o - 0x200000) / 8)
  else if o = 0x300000 then .pwrctl
  else if o = 0x300008 then .therm
  else if 0x400000 ≤ o && o < 0x401000 then .mbox (o - 0x400000)
  else if 0x1000000 ≤ o && o < 0x1000400 then .msix ((o - 0x1000000) / 8)
  else if o = 0x1000400 then .pba
  else .none_

/-- The value read at a word of BAR0; an unlisted one reads as zero. -/
def bar0Get (s : State) (fn o : Nat) : W64 :=
  match bar0At o with
  | .status => statusReg s
  | .hwin w => hwin s fn w
  | .defmap f => tgetD s.host.defmap f 0
  | .pwrctl => pwrctlReg s
  | .therm => thermReg s
  | .mbox i => BitVec.ofNat 64 (leNat ((s.host.mbox.drop i).take 8))
  | .msix i => msixWord s fn i
  | .pba => pbaReg s fn
  | .none_ => 0

/-- A window register written: a write that names another kind or wafer leaves V at 0 (R419). -/
def hwinPut (s : State) (fn w : Nat) (v : W64) : State :=
  let ok := v.getLsbD 63 && bits v.toNat 47 46 == 0 && bits v.toNat 51 48 == s.wafno
  let h : W64 := field v 60 52 ||| field v 51 34 ||| (if ok then 0x8000000000000000#64 else 0)
  { s with host := { s.host with hwin := tset s.host.hwin (fn, w) h } }

/-- A word of BAR0 written: window registers, the mailbox and the MSI-X table keep it, a vector unmasked is no longer pending; the others are
read-only. -/
def bar0Put (s : State) (fn o : Nat) (v : W64) : State :=
  match bar0At o with
  | .hwin w => hwinPut s fn w v
  | .mbox i =>
    let b := s.host.mbox ++ List.replicate (i + 8 - s.host.mbox.length) 0
    { s with host := { s.host with mbox := b.take i ++ leBytes 8 v.toNat ++ b.drop (i + 8) } }
  | .msix i =>
    let s := { s with host := { s.host with msixT := tset s.host.msixT (fn, i) v } }
    if i % 2 = 1 && !v.getLsbD 32 then { s with host := { s.host with pend := s.host.pend.filter fun q => q != (fn, i / 2) } } else s
  | _ => s

/-- Bytes read from BAR0. -/
def bar0Read (s : State) (fn o n : Nat) : List Byte :=
  (List.range n).map fun k => BitVec.ofNat 8 (bits (bar0Get s fn ((o + k) / 8 * 8)).toNat (8 * ((o + k) % 8) + 7) (8 * ((o + k) % 8)))

/-- Bytes written to BAR0: each word that they touch is written once, with its other bytes as they read. -/
def bar0Write (s : State) (fn o : Nat) (bs : List Byte) : State :=
  ((List.range ((o + bs.length + 7) / 8 - o / 8)).map fun i => (o / 8 + i) * 8).foldl (fun s a =>
    let old := leBytes 8 (bar0Get s fn a).toNat
    let new := old.zipIdx.map fun q => if o ≤ a + q.2 && a + q.2 < o + bs.length then (bs[a + q.2 - o]?).getD q.1 else q.1
    bar0Put s fn a (BitVec.ofNat 64 (leNat new))) s

/-- An access to BAR0 lies within it. -/
def inBar0 (fn off n : Nat) : Bool := bar0 ≤ off && fn < 2 && off - bar0 + n ≤ 2 ^ 25

/-! ## Host accesses (R420, R421) -/

/-- HOST_WRITE (R419 to R421): a posted write of at most 512 bytes is applied at its home, or at BAR0's registers. -/
def execHostWrite (fn : Nat) (off : Nat) (bytes : List Byte) (s : State) : Host.Outcome State Fault Refusal :=
  .next (if 512 < bytes.length then hostUr s 0
    else if inBar0 fn off bytes.length then hostDone (bar0Write s fn (off - bar0) bytes) []
    else match hostAt s fn off bytes.length with
      | none => hostUr s 0
      | some (c, pa, t) => match hostPut s c pa bytes t with
        | .error e => hostDone (hostRefused s t c e pa) []
        | .ok s => hostDone s [])

/-- HOST_READ (R419, R421): a read of at most 4,096 bytes, after every earlier posted write of its function, of memory or of BAR0. -/
def execHostRead (fn : Nat) (off : Nat) (len : Nat) (s : State) : Host.Outcome State Fault Refusal :=
  .next (if 4096 < len then hostUr s 0
    else if inBar0 fn off len then hostDone s (bar0Read s fn (off - bar0) len)
    else match hostAt s fn off len with
      | none => hostUr s len
      | some (c, pa, t) => match hostGet s c pa len t with
        | .error e => hostUr (hostRefused s t c e pa) len
        | .ok (s, b) => hostDone s b)

/-! ## AtomicOps (R422) -/

/-- An AtomicOp of w bytes: the new value by a function of the old one, in one step of the home; the old value is returned. -/
def hostAtomic (s : State) (fn off w : Nat) (f : Nat → Nat) : State :=
  if !(w == 4 || w == 8) || off % w ≠ 0 then hostUr s w
  else match hostAt s fn off w with
    | some (c, pa, .hbm ..) => match homeNat s (some c) pa w false with
      | .error _ => hostUr s w
      | .ok (s1, v) => match homeWrite s1 (some c) pa (leBytes w (f v)) false with
        | .error _ => hostUr s w
        | .ok s2 => hostDone (wakeStwait s2 pa w) (leBytes w v)
    | _ => hostUr s w

/-- HOST_FETCHADD (R422). -/
def execHostFetchadd (fn : Nat) (off : Nat) (w : Nat) (v : W64) (s : State) : Host.Outcome State Fault Refusal :=
  .next (hostAtomic s fn off w fun x => x + v.toNat)

/-- HOST_SWAP (R422). -/
def execHostSwap (fn : Nat) (off : Nat) (w : Nat) (v : W64) (s : State) : Host.Outcome State Fault Refusal :=
  .next (hostAtomic s fn off w fun _ => v.toNat)

/-- HOST_CAS (R422). -/
def execHostCas (fn : Nat) (off : Nat) (w : Nat) (cmp : W64) (v : W64) (s : State) : Host.Outcome State Fault Refusal :=
  .next (hostAtomic s fn off w fun x => if x = cmp.toNat % 2 ^ (8 * w) then v.toNat else x)

/-- HWIN_WRITE (R419): a write that names another kind or wafer leaves V at 0. -/
def execHwinWrite (fn : Nat) (w : Nat) (v : W64) (s : State) : Host.Outcome State Fault Refusal :=
  .next (if 2 ≤ fn || 16 ≤ w then s else hwinPut s fn w v)

/-! ## The mailbox (R424) -/

/-- The mailbox block after a command: code, status, byte 2, and what follows from byte 8. -/
def mailed (s : State) (code status b2 : Nat) (rest : List Byte) : State :=
  { s with host := { s.host with mbox := leBytes 1 code ++ leBytes 1 status ++ leBytes 1 b2 ++ List.replicate 5 0 ++ rest } }

/-- PFORM and PFREE are served: the module is ready and its wafer runs. -/
def mailServes (s : State) : Bool := clocksRun s

/-- The fields of a mask. -/
def maskFields (m : W64) : List Nat := (List.range 48).filter fun f => m.getLsbD f

/-- The memory-core SRAM of some fields zero-filled, in both copies. -/
def zeroSram (s : State) (fs : List Nat) : State :=
  let inside (a : Nat) : Bool := bits a 47 46 == 2 && fs.contains (bits a 45 40)
  { s with
    mem := s.mem.filter fun c => !inside c.1
    smem := s.smem.filter fun c => !inside c.1
    ecc := s.ecc.filter fun q => !inside (q.1 * 8) }

/-- The supervisor graph of a partition as its firmware loads it (R399). -/
def supFresh (s : State) (p : Nat) : Graph where
  lid := noLid
  ctx := 512
  sup := true
  pc := 0
  regs := List.replicate 16 0
  words := Config.supGraph s.host.fw p
  wait := none
  park := none
  ended := false
  prio := 3
  boost := 0
  since := 0
  seat := 0

/-- PFORM's refusals: a number, field or context range that is taken or does not exist, a mask that omits this wafer, a gated field. -/
def pformBad (s : State) (p : Nat) (mask : W64) (wmask : BitVec 16) : Bool :=
  !mailServes s || 48 ≤ p || mask = 0 || bits mask.toNat 63 48 != 0 || (s.parts.any fun q => q.1 % 16 == p % 16)
    || (maskFields mask).any (fun f => (partOfField s f).isSome) || (wmask != 0 && !wmask.getLsbD s.wafno) || s.host.pstate == 1

/-- PFORM (R424). -/
def execPform (p : Nat) (mask : W64) (wmask : BitVec 16) (s : State) : Host.Outcome State Fault Refusal :=
  .next (
    let ops := leBytes 8 mask.toNat ++ leBytes 2 wmask.toNat
    if pformBad s p mask wmask then mailed s 1 1 p ops
    else
      let fs := maskFields mask
      let s := zeroSram { s with parts := tset s.parts p ⟨fs, wmask⟩, ctxs := tdel s.ctxs p } fs
      let h := lowest 48 fs
      mailed { s with seqrs := tset s.seqrs h { seqrOf s h with sup := some (supFresh s p) } } 1 0 p ops)

/-- What belongs to a partition goes with it: its key slots, SRAM, saved contexts, queues, records and breakpoints. -/
def freePart (s : State) (p : Nat) : State :=
  let fs := partFields s p
  let mine (c : Nat) : Bool := c / 32 == p % 16
  let h := homeField s p
  zeroSram { s with
    parts := tdel s.parts p
    ctxs := tdel s.ctxs p
    keys := s.keys.filter fun q => !mine q.1
    saved := s.saved.filter fun q => q.2.part != p
    queues := s.queues.filter fun q => !fs.contains q.1.1
    seqrs := tset s.seqrs h { seqrOf s h with sup := none }
    recQ := s.recQ.filter fun r => r.part != p
    recs := s.recs.filter fun q => q.1.1 != p
    svcs := s.svcs.filter fun v => !fs.contains v.f
    brks := s.brks.filter fun q => q.1.1 != p
    tlbs := s.tlbs.map fun q => (q.1, q.2.filter fun e => !mine e.ctx) } fs

/-- PFREE (R424): a partition that is not formed has no part here to free. -/
def execPfree (p : Nat) (s : State) : Host.Outcome State Fault Refusal :=
  .next (
    if !mailServes s || s.launches.any fun q => q.2.part == p then mailed s 2 1 p []
    else mailed (if (tget s.parts p).isSome then freePart s p else s) 2 0 p [])

/-! ## Firmware and attestation (R426 to R428) -/

/-- The 48 words of the defect map. -/
def defWords (s : State) : List Byte := (List.range 48).flatMap fun f => leBytes 8 (tgetD s.host.defmap f 0).toNat

/-- Bytes 0 to 223 of an attestation report. -/
def reportBody (s : State) (nonce : List Byte) : List Byte :=
  leBytes 4 0x58434154 ++ leBytes 4 1 ++ nonce ++ leBytes 32 (Config.sm3 s.host.fw).toNat ++ leBytes 32 (Config.sm3 (defWords s)).toNat
    ++ leBytes 8 s.host.secver.toNat ++ leBytes 64 Config.identityKey.toNat
    ++ (List.range 48).flatMap fun f => leBytes 1 ((partOfField s f).getD 255)

/-- ATTEST (R428): the report stands at byte 64 of the mailbox. -/
def execAttest (nonce : List Byte) (s : State) : Host.Outcome State Fault Refusal :=
  .next (
    if s.host.stage != 6 then s
    else
      let n := (nonce ++ List.replicate 32 0).take 32
      let b := reportBody s n
      mailed s 3 0 0 (n ++ List.replicate 24 0 ++ b ++ leBytes 64 (Config.sm2Sign s.tick b).toNat))

/-- R426's checks. -/
def imageOk (s : State) (b : List Byte) : Bool := Config.signatureOk b && s.host.secver.toNat ≤ (Config.fwVersion b).toNat

/-- FWLOAD (R424, R426): an image that passes is stored for the next reset; it is served in RECOVERY too. -/
def execFwload (addr : W64) (len : W32) (s : State) : Host.Outcome State Fault Refusal :=
  .next (
    if s.host.stage != 6 && !s.host.recov then s
    else
      let b := Config.fwBytes s.tick addr len
      let ops := leBytes 8 addr.toNat ++ leBytes 4 len.toNat
      if imageOk s b then mailed { s with host := { s.host with fwNext := some b } } 4 0 0 ops else mailed s 4 2 0 ops)

/-! ## Reset (R429) -/

/-- The image that the boot ROM checks: the one stored for this reset, else the one in use. -/
def bootImage (s : State) : List Byte := s.host.fwNext.getD s.host.fw

/-- The stage at which the reset sequence stops, 0 for none: an earlier stage that fails hides a later one, and stage 3 fails whenever the
image fails a check of R426 (R429). Out of P3 it begins at stage 2 (R432). -/
def bootStop (s : State) (z : BootFuses) (cold : Bool) : Nat :=
  if (cold && z.failAt = 1) || z.failAt = 2 then z.failAt
  else if z.failAt = 3 || !imageOk s (bootImage s) then 3
  else if 4 ≤ z.failAt && z.failAt ≤ 6 then z.failAt
  else 0

/-- The module after the reset sequence from stage 2, or from 1, with what the fuses say; a stage that fails stops there. The controller
keeps its fuses, the stored image and, from P3, its counter. -/
def boot (s : State) (z : BootFuses) (cold : Bool) : State :=
  let r := State.reset
  let img := bootImage s
  let k := bootStop s z cold
  let past3 := k = 0 || 3 < k
  { r with
    wafno := s.wafno
    ctrs := if cold then [] else s.ctrs.filter fun q => q.1 == .mgmt
    serial := s.serial
    agenda := s.agenda
    tick := s.tick
    host := { r.host with
      stage := if k = 0 then 6 else k
      scode := if k = 0 then 0 else z.code
      recov := k == 3
      defmap := if cold then (z.defmap.take 48).zipIdx.map fun q => (q.2, q.1 &&& 0x3F3F#64) else s.host.defmap
      fw := if past3 then img else s.host.fw
      fwNext := if past3 then none else s.host.fwNext
      secver := if past3 && s.host.secver.toNat < (Config.fwVersion img).toNat then Config.fwVersion img else s.host.secver
      pcap := if cold then r.host.pcap else s.host.pcap
      mbox := if cold then [] else s.host.mbox
      psince := if cold then 0 else s.host.psince } }

/-- COLD_RESET (R429). -/
def execColdReset (fuses : BootFuses) (s : State) : Host.Outcome State Fault Refusal := .next (boot s fuses true)

/-! ## Power (R430, R432) -/

/-- A POWER command ends: refused with status 1, or in its new state with its cap. -/
def powerDone (s : State) (st : Nat) (cap : BitVec 16) (ok : Bool) (k : State → State) : State :=
  if ok && 5000 ≤ cap.toNat && cap.toNat ≤ 20000 && s.host.stage == 6 && !s.host.trip then
    let s := k s
    mailed { s with host := { s.host with pstate := st, pcap := cap } } 5 0 st (leBytes 2 cap.toNat)
  else mailed s 5 1 st (leBytes 2 cap.toNat)

/-- No launch runs on the wafer and no stream or drain is active. -/
def waferQuiet (s : State) : Bool :=
  s.launches.isEmpty && (s.sis.all fun q => q.2.streams.isEmpty) && s.x.mis.all fun q => q.2.ctrl.isEmpty

/-- POWER_TO_P0 (R432): from P1 and P2 the clocks restart; from P3 the reset sequence runs from stage 2. -/
def execPowerToP0 (cap : BitVec 16) (s : State) : Host.Outcome State Fault Refusal :=
  .next (powerDone s 0 cap (1 ≤ s.host.pstate && s.host.pstate ≤ 3) fun s => if s.host.pstate = 3 then boot s (Config.bootAgain s.tick) false else s)

/-- POWER_TO_P1 (R432). -/
def execPowerToP1 (cap : BitVec 16) (s : State) : Host.Outcome State Fault Refusal :=
  .next (powerDone s 1 cap (s.host.pstate == 0) id)

/-- POWER_TO_P2 (R432). -/
def execPowerToP2 (cap : BitVec 16) (s : State) : Host.Outcome State Fault Refusal :=
  .next (powerDone s 2 cap (s.host.pstate < 2 && waferQuiet s) id)

/-- The module without its wafer's state; the controller's own state stays. -/
def waferLost (s : State) : State :=
  { State.reset with
    wafno := s.wafno
    ctrs := s.ctrs.filter fun q => q.1 == .mgmt
    serial := s.serial
    agenda := s.agenda
    tick := s.tick
    host := s.host }

/-- POWER_TO_P3 (R432). -/
def execPowerToP3 (cap : BitVec 16) (s : State) : Host.Outcome State Fault Refusal :=
  .next (powerDone s 3 cap (s.host.pstate < 3 && s.parts.isEmpty) waferLost)

/-- THRM one higher, saturating. -/
def thrmUp (v : BitVec 16) : BitVec 16 := if v = 0xFFFF#16 then v else v + 1

/-- POWER_PERIOD (R430): a period of the controller's counter ends, and fields are throttled while its average exceeds PCAP. -/
def execPowerPeriod (avg : Nat) (s : State) : Host.Outcome State Fault Refusal :=
  .next (
    if 2 ≤ s.host.pstate || (ctr s .mgmt - s.host.psince).toNat < 1400000 then s
    else
      let high := s.host.pcap.toNat < avg
      { s with host := { s.host with
          psince := s.host.psince + 1400000
          pthrot := high
          thrm := if high || !s.host.hot.isEmpty then thrmUp s.host.thrm else s.host.thrm } })

/-! ## Heat (R431) -/

/-- The field with the highest reading and that reading. -/
def hottest : List (Nat × BitVec 16) → Nat × BitVec 16
  | [] => (0, 0)
  | q :: l => let r := hottest l; if r.2.toNat < q.2.toNat then q else r

/-- A field's sensor reads a temperature, in sixteenths of a degree. -/
def sense (h : HostSt) (f : Nat) (temp : BitVec 16) : HostSt :=
  let l := tset h.temps f temp
  { h with temps := l, hotf := (hottest l).1, temp := (hottest l).2 }

/-- At 110 °C every clock of the wafer stops, its state is lost, and TRIP is shown until the module is reset. -/
def tripAt (s : State) (f : Nat) (temp : BitVec 16) : State :=
  let s := waferLost s
  { s with host := { sense s.host f temp with trip := true } }

/-- THERMAL_THROTTLE (R431): at 95 °C a field is throttled; a reading of 110 °C trips. -/
def execThermalThrottle (f : Nat) (temp : BitVec 16) (s : State) : Host.Outcome State Fault Refusal :=
  .next (
    if 48 ≤ f || temp.toNat < 1520 then s
    else if 1760 ≤ temp.toNat then tripAt s f temp
    else
      let h := sense s.host f temp
      { s with host := { h with hot := if h.hot.contains f then h.hot else h.hot ++ [f] } })

/-- THERMAL_THROTTLE_END (R431): below 95 °C the throttling ends. -/
def execThermalThrottleEnd (f : Nat) (temp : BitVec 16) (s : State) : Host.Outcome State Fault Refusal :=
  .next (
    if 48 ≤ f || 1520 ≤ temp.toNat then s
    else
      let h := sense s.host f temp
      { s with host := { h with hot := h.hot.filter fun g => g != f } })

/-- THERMAL_TRIP (R431). -/
def execThermalTrip (f : Nat) (temp : BitVec 16) (s : State) : Host.Outcome State Fault Refusal :=
  .next (
    if 48 ≤ f || temp.toNat < 1760 then s else tripAt s f temp)

end Sys2Proof.Machine
end

