-- ==== Sys2Proof/Machine/Dispatch.lean ====
section
/-! DEFINITION. One arm for each instruction. -/

namespace Sys2Proof.Machine

open Sys2Proof

/-- What an instruction does in a state. -/
def exec (i : Instr) (s : State) : Host.Outcome State Fault Refusal :=
  match i with
  | .abs w => Sys2Proof.Machine.execAbs w s
  | .acq w => Sys2Proof.Machine.execAcq w s
  | .add w => Sys2Proof.Machine.execAdd w s
  | .all w => Sys2Proof.Machine.execAll w s
  | .and w => Sys2Proof.Machine.execAnd w s
  | .andn w => Sys2Proof.Machine.execAndn w s
  | .armp w => Sys2Proof.Machine.execArmp w s
  | .atom w => Sys2Proof.Machine.execAtom w s
  | .bend w => Sys2Proof.Machine.execBend w s
  | .bfi w => Sys2Proof.Machine.execBfi w s
  | .bfx w => Sys2Proof.Machine.execBfx w s
  | .bin w => Sys2Proof.Machine.execBin w s
  | .capa w => Sys2Proof.Machine.execCapa w s
  | .capd w => Sys2Proof.Machine.execCapd w s
  | .cas w => Sys2Proof.Machine.execCas w s
  | .clz w => Sys2Proof.Machine.execClz w s
  | .cmp w => Sys2Proof.Machine.execCmp w s
  | .cnt w => Sys2Proof.Machine.execCnt w s
  | .consol w => Sys2Proof.Machine.execConsol w s
  | .const w => Sys2Proof.Machine.execConst w s
  | .cpy w => Sys2Proof.Machine.execCpy w s
  | .cvt w => Sys2Proof.Machine.execCvt w s
  | .div w => Sys2Proof.Machine.execDiv w s
  | .dset w => Sys2Proof.Machine.execDset w s
  | .dup w => Sys2Proof.Machine.execDup w s
  | .ends w => Sys2Proof.Machine.execEnds w s
  | .enter w => Sys2Proof.Machine.execEnter w s
  | .fabs w => Sys2Proof.Machine.execFabs w s
  | .fadd w => Sys2Proof.Machine.execFadd w s
  | .fatom w => Sys2Proof.Machine.execFatom w s
  | .fcls w => Sys2Proof.Machine.execFcls w s
  | .fcmp w => Sys2Proof.Machine.execFcmp w s
  | .fcvt w => Sys2Proof.Machine.execFcvt w s
  | .feed w => Sys2Proof.Machine.execFeed w s
  | .fill w => Sys2Proof.Machine.execFill w s
  | .fma w => Sys2Proof.Machine.execFma w s
  | .fmax w => Sys2Proof.Machine.execFmax w s
  | .fmin w => Sys2Proof.Machine.execFmin w s
  | .fms w => Sys2Proof.Machine.execFms w s
  | .fmul w => Sys2Proof.Machine.execFmul w s
  | .fneg w => Sys2Proof.Machine.execFneg w s
  | .fnma w => Sys2Proof.Machine.execFnma w s
  | .frcp w => Sys2Proof.Machine.execFrcp w s
  | .frnd w => Sys2Proof.Machine.execFrnd w s
  | .front w => Sys2Proof.Machine.execFront w s
  | .frsq w => Sys2Proof.Machine.execFrsq w s
  | .fscl w => Sys2Proof.Machine.execFscl w s
  | .fsub w => Sys2Proof.Machine.execFsub w s
  | .gate w => Sys2Proof.Machine.execGate w s
  | .gbind w => Sys2Proof.Machine.execGbind w s
  | .gfree w => Sys2Proof.Machine.execGfree w s
  | .happ w => Sys2Proof.Machine.execHapp w s
  | .hcomp w => Sys2Proof.Machine.execHcomp w s
  | .hjoin w => Sys2Proof.Machine.execHjoin w s
  | .hmrg w => Sys2Proof.Machine.execHmrg w s
  | .hnew w => Sys2Proof.Machine.execHnew w s
  | .hoist w => Sys2Proof.Machine.execHoist w s
  | .hred w => Sys2Proof.Machine.execHred w s
  | .hseek w => Sys2Proof.Machine.execHseek w s
  | .hstat w => Sys2Proof.Machine.execHstat w s
  | .idnt w => Sys2Proof.Machine.execIdnt w s
  | .isect w => Sys2Proof.Machine.execIsect w s
  | .lane w => Sys2Proof.Machine.execLane w s
  | .ld w => Sys2Proof.Machine.execLd w s
  | .ldw w => Sys2Proof.Machine.execLdw w s
  | .leave w => Sys2Proof.Machine.execLeave w s
  | .mad w => Sys2Proof.Machine.execMad w s
  | .max w => Sys2Proof.Machine.execMax w s
  | .mclr w => Sys2Proof.Machine.execMclr w s
  | .mcpy w => Sys2Proof.Machine.execMcpy w s
  | .mdrain w => Sys2Proof.Machine.execMdrain w s
  | .min w => Sys2Proof.Machine.execMin w s
  | .minus w => Sys2Proof.Machine.execMinus w s
  | .mload w => Sys2Proof.Machine.execMload w s
  | .mmask w => Sys2Proof.Machine.execMmask w s
  | .mov w => Sys2Proof.Machine.execMov w s
  | .mstat w => Sys2Proof.Machine.execMstat w s
  | .mstrm w => Sys2Proof.Machine.execMstrm w s
  | .mswap w => Sys2Proof.Machine.execMswap w s
  | .mul w => Sys2Proof.Machine.execMul w s
  | .mulh w => Sys2Proof.Machine.execMulh w s
  | .neg w => Sys2Proof.Machine.execNeg w s
  | .negd w => Sys2Proof.Machine.execNegd w s
  | .nextf w => Sys2Proof.Machine.execNextf w s
  | .not w => Sys2Proof.Machine.execNot w s
  | .null w => Sys2Proof.Machine.execNull w s
  | .or w => Sys2Proof.Machine.execOr w s
  | .pfind w => Sys2Proof.Machine.execPfind w s
  | .phdrop w => Sys2Proof.Machine.execPhdrop w s
  | .phnew w => Sys2Proof.Machine.execPhnew w s
  | .phnext w => Sys2Proof.Machine.execPhnext w s
  | .phqry w => Sys2Proof.Machine.execPhqry w s
  | .phreg w => Sys2Proof.Machine.execPhreg w s
  | .phsig w => Sys2Proof.Machine.execPhsig w s
  | .phwait w => Sys2Proof.Machine.execPhwait w s
  | .pnew w => Sys2Proof.Machine.execPnew w s
  | .popc w => Sys2Proof.Machine.execPopc w s
  | .pread w => Sys2Proof.Machine.execPread w s
  | .probe w => Sys2Proof.Machine.execProbe w s
  | .pwait w => Sys2Proof.Machine.execPwait w s
  | .qpost w => Sys2Proof.Machine.execQpost w s
  | .rekey w => Sys2Proof.Machine.execRekey w s
  | .rel w => Sys2Proof.Machine.execRel w s
  | .rem w => Sys2Proof.Machine.execRem w s
  | .rot w => Sys2Proof.Machine.execRot w s
  | .scan w => Sys2Proof.Machine.execScan w s
  | .sel w => Sys2Proof.Machine.execSel w s
  | .share w => Sys2Proof.Machine.execShare w s
  | .shl w => Sys2Proof.Machine.execShl w s
  | .shr w => Sys2Proof.Machine.execShr w s
  | .sink w => Sys2Proof.Machine.execSink w s
  | .sra w => Sys2Proof.Machine.execSra w s
  | .src w => Sys2Proof.Machine.execSrc w s
  | .st w => Sys2Proof.Machine.execSt w s
  | .std w => Sys2Proof.Machine.execStd w s
  | .steer w => Sys2Proof.Machine.execSteer w s
  | .strike w => Sys2Proof.Machine.execStrike w s
  | .stwait w => Sys2Proof.Machine.execStwait w s
  | .sub w => Sys2Proof.Machine.execSub w s
  | .tagr w => Sys2Proof.Machine.execTagr w s
  | .take w => Sys2Proof.Machine.execTake w s
  | .timev w => Sys2Proof.Machine.execTimev w s
  | .tred w => Sys2Proof.Machine.execTred w s
  | .tset w => Sys2Proof.Machine.execTset w s
  | .union w => Sys2Proof.Machine.execUnion w s
  | .valk w => Sys2Proof.Machine.execValk w s
  | .vins w => Sys2Proof.Machine.execVins w s
  | .vsum w => Sys2Proof.Machine.execVsum w s
  | .xor w => Sys2Proof.Machine.execXor w s
  | .shareRemove w => Sys2Proof.Machine.execShareRemove w s
  | .sli w => Sys2Proof.Machine.execSli w s
  | .sadd w => Sys2Proof.Machine.execSadd w s
  | .ssub w => Sys2Proof.Machine.execSsub w s
  | .smul w => Sys2Proof.Machine.execSmul w s
  | .sand w => Sys2Proof.Machine.execSand w s
  | .sor w => Sys2Proof.Machine.execSor w s
  | .sxor w => Sys2Proof.Machine.execSxor w s
  | .sshl w => Sys2Proof.Machine.execSshl w s
  | .sshr w => Sys2Proof.Machine.execSshr w s
  | .sfadd w => Sys2Proof.Machine.execSfadd w s
  | .sld w => Sys2Proof.Machine.execSld w s
  | .sst w => Sys2Proof.Machine.execSst w s
  | .sbr w => Sys2Proof.Machine.execSbr w s
  | .sbz w => Sys2Proof.Machine.execSbz w s
  | .sbnz w => Sys2Proof.Machine.execSbnz w s
  | .sblt w => Sys2Proof.Machine.execSblt w s
  | .scall w => Sys2Proof.Machine.execScall w s
  | .sret w => Sys2Proof.Machine.execSret w s
  | .cfg w => Sys2Proof.Machine.execCfg w s
  | .arms w => Sys2Proof.Machine.execArms w s
  | .waits w => Sys2Proof.Machine.execWaits w s
  | .wstamp w => Sys2Proof.Machine.execWstamp w s
  | .sqpost w => Sys2Proof.Machine.execSqpost w s
  | .launch w => Sys2Proof.Machine.execLaunch w s
  | .recfg w => Sys2Proof.Machine.execRecfg w s
  | .fwait w => Sys2Proof.Machine.execFwait w s
  | .sflags w => Sys2Proof.Machine.execSflags w s
  | .sflagsAll w => Sys2Proof.Machine.execSflagsAll w s
  | .syield w => Sys2Proof.Machine.execSyield w s
  | .shalt w => Sys2Proof.Machine.execShalt w s
  | .svc w => Sys2Proof.Machine.execSvc w s
  | .eret w => Sys2Proof.Machine.execEret w s
  | .frec w => Sys2Proof.Machine.execFrec w s
  | .freplay w => Sys2Proof.Machine.execFreplay w s
  | .fabortRecord w => Sys2Proof.Machine.execFabortRecord w s
  | .fabortLaunch w => Sys2Proof.Machine.execFabortLaunch w s
  | .quiesce w => Sys2Proof.Machine.execQuiesce w s
  | .csave w => Sys2Proof.Machine.execCsave w s
  | .cload w => Sys2Proof.Machine.execCload w s
  | .cswap w => Sys2Proof.Machine.execCswap w s
  | .tlbinv w => Sys2Proof.Machine.execTlbinv w s
  | .mappin w => Sys2Proof.Machine.execMappin w s
  | .keyld w => Sys2Proof.Machine.execKeyld w s
  | .lkey w => Sys2Proof.Machine.execLkey w s
  | .deadset w => Sys2Proof.Machine.execDeadset w s
  | .deadclr w => Sys2Proof.Machine.execDeadclr w s
  | .freeze w => Sys2Proof.Machine.execFreeze w s
  | .thaw w => Sys2Proof.Machine.execThaw w s
  | .sweep w => Sys2Proof.Machine.execSweep w s
  | .brkset w => Sys2Proof.Machine.execBrkset w s
  | .qbind w => Sys2Proof.Machine.execQbind w s
  | .qunbind w => Sys2Proof.Machine.execQunbind w s
  | .queueAccept f => Sys2Proof.Machine.execQueueAccept f s
  | .nopPacket f q => Sys2Proof.Machine.execNopPacket f q s
  | .launchPacket f q => Sys2Proof.Machine.execLaunchPacket f q s
  | .copyPacket f q => Sys2Proof.Machine.execCopyPacket f q s
  | .mcopyPacket f q => Sys2Proof.Machine.execMcopyPacket f q s
  | .gbindPacket f q => Sys2Proof.Machine.execGbindPacket f q s
  | .gbindUnbindPacket f q => Sys2Proof.Machine.execGbindUnbindPacket f q s
  | .binPacket f q => Sys2Proof.Machine.execBinPacket f q s
  | .stampPacket f q => Sys2Proof.Machine.execStampPacket f q s
  | .queueAgeing f who => Sys2Proof.Machine.execQueueAgeing f who s
  | .graphQuantum f => Sys2Proof.Machine.execGraphQuantum f s
  | .graphResume f g => Sys2Proof.Machine.execGraphResume f g s
  | .launchPart f lid => Sys2Proof.Machine.execLaunchPart f lid s
  | .launchAck lid f => Sys2Proof.Machine.execLaunchAck lid f s
  | .launchStart lid => Sys2Proof.Machine.execLaunchStart lid s
  | .armingComplete lid sect => Sys2Proof.Machine.execArmingComplete lid sect s
  | .launchComplete lid => Sys2Proof.Machine.execLaunchComplete lid s
  | .tokenArrival edge dst bad => Sys2Proof.Machine.execTokenArrival edge dst bad s
  | .tokenResend edge dst bad => Sys2Proof.Machine.execTokenResend edge dst bad s
  | .overflowReadDone core => Sys2Proof.Machine.execOverflowReadDone core s
  | .countTableIdleFlush core => Sys2Proof.Machine.execCountTableIdleFlush core s
  | .countMessage pkt => Sys2Proof.Machine.execCountMessage pkt s
  | .trackerForward f lid => Sys2Proof.Machine.execTrackerForward f lid s
  | .trackerPeerChange w lid items => Sys2Proof.Machine.execTrackerPeerChange w lid items s
  | .frontierUpdate sl => Sys2Proof.Machine.execFrontierUpdate sl s
  | .frontAnswer sl => Sys2Proof.Machine.execFrontAnswer sl s
  | .memoryRequest pkt => Sys2Proof.Machine.execMemoryRequest pkt s
  | .atomicRequest pkt => Sys2Proof.Machine.execAtomicRequest pkt s
  | .aonStore pkt => Sys2Proof.Machine.execAonStore pkt s
  | .aonLoad pkt => Sys2Proof.Machine.execAonLoad pkt s
  | .memoryResponse pkt => Sys2Proof.Machine.execMemoryResponse pkt s
  | .presenceRequest pkt => Sys2Proof.Machine.execPresenceRequest pkt s
  | .paneArrival pkt => Sys2Proof.Machine.execPaneArrival pkt s
  | .waitlistRetry u n => Sys2Proof.Machine.execWaitlistRetry u n s
  | .walkStep walk => Sys2Proof.Machine.execWalkStep walk s
  | .carryApply walk => Sys2Proof.Machine.execCarryApply walk s
  | .phaserStep pkt => Sys2Proof.Machine.execPhaserStep pkt s
  | .lockStep pkt => Sys2Proof.Machine.execLockStep pkt s
  | .releasePortWait core n => Sys2Proof.Machine.execReleasePortWait core n s
  | .historyOperation pkt => Sys2Proof.Machine.execHistoryOperation pkt s
  | .historyPendingProcess core off => Sys2Proof.Machine.execHistoryPendingProcess core off s
  | .streamAccept f n => Sys2Proof.Machine.execStreamAccept f n s
  | .streamChunk f n id => Sys2Proof.Machine.execStreamChunk f n id s
  | .streamComplete f n id => Sys2Proof.Machine.execStreamComplete f n id s
  | .windowRequest pkt => Sys2Proof.Machine.execWindowRequest pkt s
  | .decodeLength site emitted => Sys2Proof.Machine.execDecodeLength site emitted s
  | .matrixAccept f n => Sys2Proof.Machine.execMatrixAccept f n s
  | .matrixControlApply f n => Sys2Proof.Machine.execMatrixControlApply f n s
  | .rowPass f n => Sys2Proof.Machine.execRowPass f n s
  | .faultRecordWrite p => Sys2Proof.Machine.execFaultRecordWrite p s
  | .hang f lid => Sys2Proof.Machine.execHang f lid s
  | .meshHop pkt bad => Sys2Proof.Machine.execMeshHop pkt bad s
  | .beatResend pkt bad => Sys2Proof.Machine.execBeatResend pkt bad s
  | .budgetPeriod u => Sys2Proof.Machine.execBudgetPeriod u s
  | .frameSend port ch => Sys2Proof.Machine.execFrameSend port ch s
  | .frameReceive port fr => Sys2Proof.Machine.execFrameReceive port fr s
  | .keyAckFrame port fr => Sys2Proof.Machine.execKeyAckFrame port fr s
  | .keyChange port => Sys2Proof.Machine.execKeyChange port s
  | .linkTrained port => Sys2Proof.Machine.execLinkTrained port s
  | .linkDown port => Sys2Proof.Machine.execLinkDown port s
  | .sourceTimeout n => Sys2Proof.Machine.execSourceTimeout n s
  | .deadBitmap u => Sys2Proof.Machine.execDeadBitmap u s
  | .hostWrite fn off bytes => Sys2Proof.Machine.execHostWrite fn off bytes s
  | .hostRead fn off len => Sys2Proof.Machine.execHostRead fn off len s
  | .hostFetchadd fn off w v => Sys2Proof.Machine.execHostFetchadd fn off w v s
  | .hostSwap fn off w v => Sys2Proof.Machine.execHostSwap fn off w v s
  | .hostCas fn off w cmp v => Sys2Proof.Machine.execHostCas fn off w cmp v s
  | .hwinWrite fn w v => Sys2Proof.Machine.execHwinWrite fn w v s
  | .pform p mask wmask => Sys2Proof.Machine.execPform p mask wmask s
  | .pfree p => Sys2Proof.Machine.execPfree p s
  | .attest nonce => Sys2Proof.Machine.execAttest nonce s
  | .fwload addr len => Sys2Proof.Machine.execFwload addr len s
  | .powerToP0 cap => Sys2Proof.Machine.execPowerToP0 cap s
  | .powerToP1 cap => Sys2Proof.Machine.execPowerToP1 cap s
  | .powerToP2 cap => Sys2Proof.Machine.execPowerToP2 cap s
  | .powerToP3 cap => Sys2Proof.Machine.execPowerToP3 cap s
  | .powerPeriod avg => Sys2Proof.Machine.execPowerPeriod avg s
  | .thermalThrottle f temp => Sys2Proof.Machine.execThermalThrottle f temp s
  | .thermalTrip f temp => Sys2Proof.Machine.execThermalTrip f temp s
  | .coldReset fuses => Sys2Proof.Machine.execColdReset fuses s
  | .cstatWrite n => Sys2Proof.Machine.execCstatWrite n s
  | .mperWrite n => Sys2Proof.Machine.execMperWrite n s
  | .mbudWrite n => Sys2Proof.Machine.execMbudWrite n s
  | .ltmoWrite n => Sys2Proof.Machine.execLtmoWrite n s
  | .frctlWrite n => Sys2Proof.Machine.execFrctlWrite n s
  | .hangivWrite n => Sys2Proof.Machine.execHangivWrite n s
  | .registerWrite n => Sys2Proof.Machine.execRegisterWrite n s
  | .exchangeComplete p => Sys2Proof.Machine.execExchangeComplete p s
  | .csaveComplete p => Sys2Proof.Machine.execCsaveComplete p s
  | .cloadComplete p => Sys2Proof.Machine.execCloadComplete p s
  | .translationWalkComplete f n evict => Sys2Proof.Machine.execTranslationWalkComplete f n evict s
  | .weightLoadComplete f n => Sys2Proof.Machine.execWeightLoadComplete f n s
  | .mdrainComplete f n => Sys2Proof.Machine.execMdrainComplete f n s
  | .thermalThrottleEnd f temp => Sys2Proof.Machine.execThermalThrottleEnd f temp s

end Sys2Proof.Machine
end

