-- ==== Sys2Proof/Machine/Run.lean ====
section
/-! DEFINITION. Fetching and running one instruction: the word of a slot, the word of a kernel graph, or a step that has no word; and how far
the cycle counters run (R20, R48, R64, R69, R118). -/

namespace Sys2Proof.Machine

open Sys2Proof

/-- The word that a slot's element issues from, fetched and decoded. -/
def fetchSlot (s : State) (sl : Slot) : Option (Except Reject Instr) := (node? s sl).map fun n => decodeCtx n.word

/-- The word at a graph's index, fetched and decoded; none past its end. -/
def fetchSeq (g : Graph) : Option (Except Reject Instr) := (g.words[g.pc]?).map (decodeSeq g.sup)

/-- A slot issues. -/
def runFire (s : State) (sl : Slot) : Host.Outcome State Fault Refusal :=
  match fetchSlot s sl with
  | none => .next s
  | some (.error _) => .fault .illegalWord
  | some (.ok i) => exec i { s with focus := .slot sl }

/-- A chosen graph issues the word at its index; past its end there is none, which is CFG_FIELD as for a target outside the graph (R86). -/
def runGraph (s : State) : Host.Outcome State Fault Refusal :=
  match curGraph s with
  | none => .next s
  | some (f, g) =>
    match fetchSeq g with
    | none => .next (graphFault s f g Code.cfgField 0)
    | some (.error _) => .fault .illegalWord
    | some (.ok i) => exec i s

/-- A field's sequencer issues a word of the graph that it chooses (R99, R399). -/
def runWord (s : State) (f : Nat) : Host.Outcome State Fault Refusal :=
  if !clocksRun s then .next s
  else match pickGraph s f with
    | none => .next s
    | some i => runGraph (chooseGraph s f i)

/-- The steps that the wafer's clocks do not drive: the host's accesses, the mailbox, power, heat and reset. -/
def offWafer (i : Instr) : Bool :=
  match i with
  | .hostWrite .. | .hostRead .. | .hostFetchadd .. | .hostSwap .. | .hostCas .. | .hwinWrite .. | .pform .. | .pfree .. | .attest ..
  | .fwload .. | .powerToP0 .. | .powerToP1 .. | .powerToP2 .. | .powerToP3 .. | .powerPeriod .. | .thermalThrottle .. | .thermalThrottleEnd ..
  | .thermalTrip .. | .coldReset .. => true
  | _ => false

/-- A step that has no word. -/
def runEvent (s : State) (i : Instr) : Host.Outcome State Fault Refusal :=
  if !i.isEvent then .refused .notAnEvent
  else if clocksRun s || offWafer i then exec i s
  else .next s

/-- A token on its way to a node stands in its matching store or carve-out, its issue queue or an edge buffer, or in a set that was kept out
of the queue. -/
def storesToken (s : State) (sl : Slot) : Bool :=
  s.x.edges.any (fun q => q.2.buf.any (fun b => b.todo.any fun d => d.core == sl.core && d.e == sl.e && b.tok.ctx.toNat == sl.k)
      || q.2.wait.any fun h => h.tok.any fun t => t.ctx.toNat == sl.k && (targets s q.1).any fun d => d.core == sl.core && d.e == sl.e)
    || !(tgetD s.x.heldq sl []).isEmpty
    || (mstoreOf s sl.core).any (fun m => entryHolds m && m.e == sl.e && m.id.k == sl.k)
    || (iqOf s sl.core sl.e).any fun o => o.set.id.k == sl.k

/-- A word that memory stores stands at this address. -/
def storedWord (s : State) (pa : Nat) : Bool :=
  match decodePA s pa with
  | some (.reg ..) | some (.win ..) | none => false
  | some _ => true

/-- A mark that a further error leaves: what was uncorrectable stays so (R316). -/
def worsen (t : Tbl Nat Ecc) (a : Nat) (e : Ecc) : Tbl Nat Ecc := if tget t a = some .double then t else tset t a e

/-- A soft error (R121, R316, R317; log 104): a stored word holds one bit or more that its check bits find wrong; a stored token that fails its
check when it is read freezes its node's region with PARITY_HARD; a computed value is wrong, and nothing finds it so. -/
def runUpset (s : State) (u : Upset) : State :=
  if !clocksRun s then s
  else match u with
  | .word a e => if storedWord s (8 * a) then { s with ecc := worsen s.ecc a e } else s
  | .shadow a e => if storedWord s (8 * a) && (paKind (8 * a) == 1 || paKind (8 * a) == 2) then { s with secc := worsen s.secc a e } else s
  | .header a e => if (tget s.units a).isSome then { s with uecc := worsen s.uecc a e } else s
  | .value a v => if storedWord s (8 * a) then freshWrite s (8 * a) (leBytes 8 v.toNat) else s
  | .result g n v => setEdge s g { edgeOf s g with buf := (edgeOf s g).buf.modify n fun b => { b with tok := { b.tok with val := v } } }
  | .token sl =>
    match node? s sl with
    | none => s
    | some n =>
      if ctxRuns s n.ctx && !isFrozen s sl.core.f n.lid && storesToken s sl then
        freezeParity s (.core sl.core) n.ctx sl.core.f n.lid (some sl) t00 0
      else s

/-- A step of any kind. -/
def runAct (s : State) : Act → Host.Outcome State Fault Refusal
  | .fire sl => runFire s sl
  | .word f => runWord s f
  | .event i => runEvent s i
  | .upset u => .next (runUpset s u)

/-- A unit's counter runs: the controller's always, those of the wafer with its clocks, those of a gated field not (R430, R432). -/
def counts (s : State) (u : UnitId) : Bool :=
  u == .mgmt || (clocksRun s && (s.host.pstate == 0 || unitField u == 48 || (partOfField s (unitField u)).isSome))

/-- The counters run on by the clk that a happening names (R20). -/
def tickAll (s : State) (l : Tbl UnitId W64) : State :=
  { s with ctrs := l.foldl (fun c q => if counts s q.1 then tset c q.1 (tgetD c q.1 0 + q.2) else c) s.ctrs }

/-- What follows a step at once, wherever it has become possible: sets kept back enter their queues (R117, R125), late answers are finished
(R310), what peers and sequencers ask each other is taken (R89, R96), fault tokens reach their queue (R129), packets for a dead wafer fault at their exit (R337), tokens of cut edges are timed (R336), waits
for words of windows are served (R354), streams that a history reads go on (R232), presence requests of frozen nodes leave
their wait lists (R268), and queues and graphs note whether they may go on (R100). -/
def followUp (s : State) : State := letReady (letQueues (letTimers (letDead (letFrozen (letStreams (letWindows (letAcks (letLate (letFlags (letSects (letRetries (letCaught (letKept s)))))))))))))

/-- Between steps no word is in progress, and while the clocks run what follows a step has followed. -/
def rest (s : State) : State := { (if clocksRun s then followUp s else s) with focus := .none_, swapped := none }

/-- A step's outcome, with no word in progress. -/
def restOut : Host.Outcome State Fault Refusal → Host.Outcome State Fault Refusal
  | .next s => .next (rest s)
  | .fault r => .fault r
  | .refused r => .refused r

/-- A happening runs: the counters, then its step. -/
def runHappening (s : State) (h : Happening) : Host.Outcome State Fault Refusal := restOut (runAct (rest (tickAll s h.ticks)) h.act)

/-- The happening that comes next, and the state without it: the head of the agenda, else what the schedule names (log 3). -/
def nextHappening (s : State) : Happening × State :=
  match s.agenda with
  | h :: l => (h, { s with agenda := l, tick := s.tick + 1 })
  | [] => (Config.schedule s.tick, { s with tick := s.tick + 1 })

/-! ## A word placed where it runs next (log 4) -/

/-- The slot in which a placed context word stands: C(0,0) of field 0, element 0, context 0. -/
def demoSlot : Slot := ⟨⟨0, 0, 0⟩, 0, 0⟩

/-- A unit token of time (0,0). -/
def demoTok (v : W64) : Token := ⟨v, 0, 1, t00, 0, 0, false, false, false⟩

/-- The set that a placed context word issues: one token on each port that it reads (R111). -/
def demoSet (v : W64) : OpSet :=
  let on (p : Nat) : Option Token := if (operandPorts v).contains p then some (demoTok 0) else none
  ⟨⟨0, t00, 0⟩, on 0, on 1, on 2, on 3, 0, []⟩

/-- The launch of a placed word, running in field 0; a placed SRC finds its section armed with one. -/
def demoLaunch (v : W64) : Launch :=
  { Launch.start 0 0 0 none 0 0 0 0 0 with
    stat := .running
    fields := [0]
    slots := [demoSlot]
    secs := [((CW.unpack v).imm.toNat, ⟨0, [demoSlot], [demoSlot], 1, 0, some 1, []⟩)] }

/-- A placed kernel graph of one word. -/
def demoGraph (v : W64) (sup : Bool) : Graph where
  lid := if sup then noLid else 1
  ctx := if sup then 512 else 0
  sup := sup
  pc := 0
  regs := List.replicate 16 0
  words := [v]
  wait := none
  park := none
  ended := false
  prio := 0
  boost := 0
  since := 0
  seat := 0

/-- Partition 0 on field 0, with context 0 live, and a launch of it. -/
def demoGround (s : State) (v : W64) (a : Act) : State :=
  { s with
    parts := [(0, ⟨[0], 0⟩)]
    ctxs := [(0, ⟨0, some 0, none, none⟩)]
    launches := [(1, demoLaunch v)]
    frozen := []
    recQ := []
    agenda := [⟨[], a⟩] }

/-- A context word placed in its slot, with its set at the head of the issue queue. -/
def placeCtx (s : State) (v : W64) : State :=
  let s := demoGround s v (.fire demoSlot)
  { s with x := { s.x with
      nodes := tset s.x.nodes demoSlot ⟨v, 0, 1, 0⟩
      park := tdel s.x.park demoSlot
      iq := tset s.x.iq (demoSlot.core, 0) [⟨demoSet v, false, false, 0⟩] } }

/-- A sequencer word placed in a graph of field 0: a user graph, or the supervisor graph for a supervisor word. -/
def placeSeq (s : State) (v : W64) : State :=
  let s := demoGround s v (.word 0)
  if 0xE0 ≤ (v.extractLsb' 56 8).toNat then { s with seqrs := tset s.seqrs 0 { seqrOf s 0 with sup := some (demoGraph v true) } }
  else { s with seqrs := tset s.seqrs 0 ⟨none, 0, 0, 0⟩, x := { s.x with graphs := tset s.x.graphs 0 [demoGraph v false] } }

/-- A word placed where the next step fetches: an acceptable context word in a slot, any other word in a graph. -/
def placeWord (s : State) (v : W64) : State :=
  match decodeCtx v with
  | .ok _ => placeCtx s v
  | .error _ => placeSeq s v

end Sys2Proof.Machine
end

