-- ==== Sys2Proof/Machine/Step.lean ====
section
/-! DEFINITION. One step of the module, and placing an instruction where the next step fetches it. -/

namespace Sys2Proof.Machine

open Sys2Proof

/-- One step: the happening that comes next runs. -/
def step (s : State) : Host.Outcome State Fault Refusal :=
  let q := nextHappening s
  runHappening q.2 q.1

/-- s with the instruction of a table row's bits where step fetches its next instruction, so that the very next step runs it (log 4). -/
def State.withFetchWord (s : State) (_nbits w : Nat) : State := placeWord s (BitVec.ofNat 64 w)

end Sys2Proof.Machine
end

