-- ==== Sys2Proof/Safety.lean ====
section
/-! DEFINITION. What a state and a step must keep to, in the terms that claims use. -/

namespace Sys2Proof.Safety

open Sys2Proof Sys2Proof.Machine

/-- Physical memory and its shadow copy are in canonical form. -/
def MemOk (s : State) : Prop := Memory.wf s.mem = true ∧ Memory.wf s.smem = true

/-- No word is in progress: the state stands between two steps. -/
def AtRest (s : State) : Prop := s.focus = .none_ ∧ s.swapped = none

/-- A run of some steps that neither faults nor is refused ends in a state with a property. -/
def RunsTo (p : State → Prop) : Nat → State → Prop
  | 0, s => p s
  | k + 1, s => ∃ t, step s = .next t ∧ RunsTo p k t

/-- A step that does not stop the machine. -/
def Goes (s : State) : Prop := ∃ t, step s = .next t

/-- The copy of the execution state that holds a context is the one in place: the context is live, and not the shadow too (R8, R410). -/
def InPlace (s : State) (ctx : Nat) : Prop :=
  ctxLive s ctx = true ∧ ∀ p, partOfCtx s ctx = some p → (ctxStat s p).shad ≠ some ctx

/-- A step at the home of an address acts on the state as it stands: the address is no scratchpad and no SRAM, or its context is in place. -/
def HomeInPlace (s : State) (ctx pa : Nat) : Prop := (paKind pa ≠ 1 ∧ paKind pa ≠ 2) ∨ InPlace s ctx

/-! ## Firings -/

/-- A set of the focused slot stands at the head of its element's queue and may issue, and no breakpoint stands on its node (R118, R408). -/
def Issues (s : State) (fr : Firing) : Prop := firing s = some fr ∧ nodeBreak s fr = false

/-- The number fits in a dif (R105). -/
def FitsDif (d : Int) : Prop := -(2 ^ 31 : Int) ≤ d ∧ d < (2 ^ 31 : Int)

/-- A value token on X of a set (R104): time tx, the set's SEQ, XC. -/
def xTok (w : CW) (o : OpSet) (tx : Time) (val : W64) (key : W32) (kv : Bool) (dif : Int) : Token :=
  ⟨val, key, BitVec.ofInt 32 dif, tx, o.id.seq, w.xc, false, false, kv⟩

/-- A special token of a set on X or Y (R123): NUL or END. -/
def specTok (ctx : BitVec 3) (o : OpSet) (t : Time) (nul fin : Bool) : Token := ⟨0, 0, 0, t, o.id.seq, ctx, nul, fin, false⟩

/-- The state after a firing that consumes its set and puts out its tokens (R52, R104, R116, R212). -/
def fired (s : State) (w : CW) (fr : Firing) (e : Emit) : State :=
  apply (popIq s fr.sl) w fr e (consumed fr.node fr.set) (flushAfter w fr.set e)

/-- A launch without what an element's firing may touch of it: its capabilities, its fault tokens and its armings (R129, R175, R210). -/
def launchFrame (l : Launch) : Launch := { l with caps := [], catchQ := [], secs := [] }

/-- The machine without what an element's firing may touch: registers of slots, edges, issue queues, matching stores, counts, records held by
their units, the freezing of regions, messages, and what supports them. Memory, its check bits and the trace ring's registers are left out
here too, and are spoken of apart. -/
def elemFrame (s : State) : State :=
  { s with
    x := { s.x with
      hold := [], flags := [], park := [], heldq := [], edges := [], mstore := [], mord := [], iq := [], walks := [], ctab := []
      frontQ := [], outw := [], relw := [] }
    launches := s.launches.map fun p => (p.1, launchFrame p.2)
    mem := [], ecc := [], net := [], budgets := [], twalks := [], remotes := [], recQ := [], frozen := [], prog := [], lastF := [], supr := [], serial := 0 }

/-- What a firing of a slot leaves alone: everything outside elemFrame's list, the registers of every other slot, the edges, issue queues,
matching stores and count tables of every other element or core, and each sticky flag that was set. -/
structure Local (sl : Slot) (s t : State) : Prop where
  frame  : elemFrame t = elemFrame s
  hold   : ∀ z, z ≠ sl → holdOf t z = holdOf s z
  flags  : ∀ z, z ≠ sl → flagsOf t z = flagsOf s z
  sticky : flagsOf s sl ||| flagsOf t sl = flagsOf t sl
  park   : ∀ z, z ≠ sl → parkedOf t z = parkedOf s z
  walks  : ∀ z, z ≠ sl → walkOf t z = walkOf s z
  edges  : ∀ g : EdgeId, g.core ≠ sl.core ∨ g.e ≠ sl.e → edgeOf t g = edgeOf s g
  iq     : ∀ c e, c ≠ sl.core ∨ e ≠ sl.e → iqOf t c e = iqOf s c e
  mstore : ∀ c, c ≠ sl.core → mstoreOf t c = mstoreOf s c
  ctab   : ∀ c, c ≠ sl.core → ctabOf t c = ctabOf s c

/-- Memory after a firing: unchanged, or with one trace record in the slot of the field's ring, whose check bits are fresh (R316, R409). -/
def MemKept (sl : Slot) (s t : State) : Prop :=
  (t.mem = s.mem ∧ t.ecc = s.ecc) ∨ ∃ a bs, traceSlot s sl.core.f = some a ∧ bs.length = 32 ∧ t.mem = cellsWrite s.mem a bs
    ∧ t.ecc = s.ecc.filter fun q => !(a ≤ q.1 * 8 && q.1 * 8 < a + 32)

/-- The set that issues, as it is judged: a set to execute, with the times of the outputs (R49, R122). -/
structure Executes (s : State) (fr : Firing) (w : CW) (mem : Bool) (ids : Nat → Nat) (o : OpSet) (tx ty : Time) : Prop where
  issues : Issues s fr
  judged : judge w mem ids fr.set = .go o
  xtime  : act w.xt fr.set.id.time = some tx
  ytime  : act w.yt fr.set.id.time = some ty

/-- What an arithmetic firing puts out: the value on X with the fields of R104, a NUL token on Y (R149), and its flags. -/
def aluEmit (w : CW) (o : OpSet) (tx ty : Time) (v : W64) (fl : BitVec 5) : Emit :=
  ⟨[xTok w o tx v (keyA w o) (kvA w o) (difOut w o)], [specTok w.yc o ty true false], fl, [], true⟩

/-- The instructions whose sets R122 judges and that drive both outputs: arithmetic, DUP, CONST, IDNT, NULL, ENDS and the record
instructions. -/
def drivesBoth (op : BitVec 8) : Bool :=
  op.toNat < 0x50 || op == 0x52#8 || op == 0x53#8 || op == 0x55#8 || op == 0x56#8 || op == 0x57#8 || (0x65 ≤ op.toNat && op.toNat < 0x69)

/-! ## Flow and record instructions (R171 to R174, R186) -/

/-- A value token on Y of a set (R104). -/
def yTok (w : CW) (o : OpSet) (ty : Time) (val : W64) (key : W32) (kv : Bool) (dif : Int) : Token :=
  ⟨val, key, BitVec.ofInt 32 dif, ty, o.id.seq, w.yc, false, false, kv⟩

/-- The set has no operand: its node has no operand port. -/
def bareSet (o : OpSet) : Bool := o.a.isNone && o.b.isNone && o.p.isNone

/-- What a flow or record instruction puts out for a set that executes: its context word, the dif that has to fit 32 bits, and the tokens. -/
def flowRule (i : Instr) (fr : Firing) (tx ty : Time) : Option (CW × Int × Emit) :=
  let o := fr.set
  let x1 (_ : CW) (t : Token) : Emit := ⟨[t], [], 0, [], true⟩
  match i with
  | .dup w => some (w, difOut w o, ⟨[xTok w o tx (valA w fr) (keyA w o) (kvA w o) (difOut w o)],
      [yTok w o ty (valA w fr) (keyA w o) (kvA w o) (difOut w o)], 0, [], true⟩)
  | .idnt w => some (w, difOut w o, x1 w (xTok w o tx (valA w fr) (keyA w o) (kvA w o) (difOut w o)))
  | .null w => some (w, 0, x1 w (specTok w.xc o tx true false))
  | .ends w => some (w, 0, x1 w (specTok w.xc o tx false true))
  | .sink w => some (w, 0, ⟨[], [], 0, [], true⟩)
  | .const w =>
    let v := extend w.ty.toNat (valB w fr).toNat
    if bareSet o then some (w, 1, x1 w (xTok w o tx v 0 false 1))
    else some (w, difOut w o, x1 w (xTok w o tx v (keyA w o) (kvA w o) (difOut w o)))
  | .rekey w => some (w, difOut w o, x1 w (xTok w o tx (valA w fr) ((valB w fr).setWidth 32) true (difOut w o)))
  | .valk w => some (w, difOut w o, x1 w (xTok w o tx ((keyA w o).setWidth 64) ((valA w fr).setWidth 32) true (difOut w o)))
  | .dset w => some (w, ((valB w fr).setWidth 32).toInt,
      x1 w (xTok w o tx (valA w fr) (keyA w o) (kvA w o) ((valB w fr).setWidth 32).toInt))
  | .negd w => some (w, -(difOf w.sa o.a), x1 w (xTok w o tx (valA w fr) (keyA w o) (kvA w o) (-(difOf w.sa o.a))))
  | _ => none

/-! ## Requests -/

/-- The operator that an instruction sends from its port, and its context word: memory, presence, promises, phasers, locks, the streamer and
the matrix (R187, R259, R276, R287, R295, R342, R384, R385). -/
def portOp : Instr → Option (Op × CW)
  | .ld w => some (.ld, w)
  | .st w => some (.st, w)
  | .std w => some (.std, w)
  | .atom w => some (.atom, w)
  | .cas w => some (.cas, w)
  | .fatom w => some (.fatom, w)
  | .ldw w => some (.ldw, w)
  | .take w => some (.take, w)
  | .hoist w => some (.hoist, w)
  | .armp w => some (.armp, w)
  | .strike w => some (.strike, w)
  | .tagr w => some (.tagr, w)
  | .nextf w => some (.nextf, w)
  | .pnew w => some (.pnew, w)
  | .bend w => some (.bend, w)
  | .fill w => some (.fill, w)
  | .pwait w => some (.pwait, w)
  | .pread w => some (.pread, w)
  | .pfind w => some (.pfind, w)
  | .phnew w => some (.phnew, w)
  | .phreg w => some (.phreg, w)
  | .phdrop w => some (.phdrop, w)
  | .phsig w => some (.phsig, w)
  | .phwait w => some (.phwait, w)
  | .phnext w => some (.phnext, w)
  | .phqry w => some (.phqry, w)
  | .acq w => some (.acq, w)
  | .rel w => some (.rel, w)
  | .cpy w => some (.cpy, w)
  | .mcpy w => some (.mcpy, w)
  | .qpost w => some (.qpost, w)
  | .gbind w => some (.gbind, w)
  | .gfree w => some (.gfree, w)
  | .bin w => some (.bin, w)
  | .stwait w => some (.stwait, w)
  | .mload w => some (.mload, w)
  | .mswap w => some (.mswap, w)
  | .mstrm w => some (.mstrm, w)
  | .mdrain w => some (.mdrain, w)
  | .mclr w => some (.mclr, w)
  | .mmask w => some (.mmask, w)
  | .mstat w => some (.mstat, w)
  | _ => none

/-- The same for the history instructions, which judge their sets under their own rule (R229, R230). -/
def histOp : Instr → Option (Op × CW)
  | .hnew w => some (.hnew, w)
  | .happ w => some (.happ, w)
  | .hjoin w => some (.hjoin, w)
  | .hred w => some (.hred, w)
  | .hseek w => some (.hseek, w)
  | .hcomp w => some (.hcomp, w)
  | .hmrg w => some (.hmrg, w)
  | .hstat w => some (.hstat, w)
  | _ => none

/-- Room for the answer on each output that a request reserves (R116, R189); a history's outputs are its unit's to fill (R234). -/
def portRoom (s : State) (sl : Slot) (op : Op) : Bool :=
  isHist op || ((!opEmitsX op || roomFor s ⟨sl.core, sl.e, 4⟩ 1) && roomFor s ⟨sl.core, sl.e, 5⟩ 1)

/-- A request that has left its port: its set is consumed, A is in the hold register under HD, and a packet carries it to its home (R52, R187,
R189, R308). -/
structure Sent (s t : State) (w : CW) (fr : Firing) (q : PortReq) : Prop where
  queue  : iqOf t fr.sl.core fr.sl.e = (iqOf s fr.sl.core fr.sl.e).tail
  hold   : holdOf t fr.sl = if w.hd = 1 then bitsA w fr else holdOf s fr.sl
  packet : ∃ p ∈ t.net, p.msg = .req q q.pa q.cpg ∧ p.cls = opClass q.op ∧ (p.to_, p.dstW) = reqDest s q ∧ p.unit = .core fr.sl.core

/-! ## Graphs -/

/-- A word of a graph that touches nothing but its own graph: the focused graph is now g', and every other graph, and the rest of the
machine, is as before. -/
structure OnlyGraph (s t : State) (f : Nat) (g' : Graph) : Prop where
  cur    : curGraph t = some (f, g')
  rest   : { t with x := { t.x with graphs := [] }, seqrs := [] } = { s with x := { s.x with graphs := [] }, seqrs := [] }
  others : ∀ h, h ≠ f → graphsOf t h = graphsOf s h ∧ seqrOf t h = seqrOf s h
  beside : ∀ j, s.focus ≠ .seq f (some j) → (graphsOf t f)[j]? = (graphsOf s f)[j]?

/-- The value that a scalar word writes to S[D], from S[A] and the second operand (R85); SLI's comes from its word alone. -/
def scalarRule (i : Instr) : Option (SW × (W64 → W64 → W64)) :=
  match i with
  | .sli w => some (w, fun _ _ => w.imm.signExtend 64)
  | .sadd w => some (w, fun a b => a + b)
  | .ssub w => some (w, fun a b => a - b)
  | .smul w => some (w, fun a b => a * b)
  | .sand w => some (w, fun a b => a &&& b)
  | .sor w => some (w, fun a b => a ||| b)
  | .sxor w => some (w, fun a b => a ^^^ b)
  | .sshl w => some (w, fun a b => a <<< (b.toNat % 64))
  | .sshr w => some (w, fun a b => a >>> (b.toNat % 64))
  | _ => none

/-- Where a branch goes, from its graph (R86). -/
def branchRule (i : Instr) (g : Graph) : Option Nat :=
  match i with
  | .sbr w => some w.imm.toNat
  | .sbz w => some (if g.reg w.a = 0 then w.imm.toNat else g.pc + 1)
  | .sbnz w => some (if g.reg w.a ≠ 0 then w.imm.toNat else g.pc + 1)
  | .sblt w => some (if (g.reg w.a).toInt < (g.reg w.b).toInt then w.imm.toNat else g.pc + 1)
  | .sret w => if (g.reg w.a).toNat < g.words.length then some (g.reg w.a).toNat else none
  | _ => none

/-! ## The integer instructions, said over bit vectors (R134, R150 to R158)

These restate the rules apart from the model's own arithmetic, so that claims about results compare two readings. -/

/-- An operand as an integer at its type's width: signed for S types, unsigned for Z types (R134, R150). -/
def intIn (ty : Nat) (v : W64) : Int :=
  if ty < 4 then (v.setWidth (widthOf ty)).toInt else ((v.setWidth (widthOf ty)).toNat : Int)

/-- A result of the type's width as VAL holds it: sign-extended for S types, zero-extended for Z types (R134). -/
def bitsOut (ty : Nat) (v : BitVec (widthOf ty)) : W64 := if ty < 4 then v.signExtend 64 else v.setWidth 64

/-- An integer result, wrapped to the type's width (R134, R150). -/
def intOut (ty : Nat) (x : Int) : W64 := bitsOut ty (BitVec.ofInt (widthOf ty) x)

/-- An exact result under .SAT or wrapped (R150): clamping raises OF, bit 2. -/
def satOut (ty : Nat) (sat : Bool) (x : Int) : W64 × BitVec 5 :=
  let lo : Int := if ty < 4 then -(2 ^ (widthOf ty - 1) : Int) else 0
  let hi : Int := if ty < 4 then (2 ^ (widthOf ty - 1) : Int) - 1 else (2 ^ widthOf ty : Int) - 1
  if sat && decide (x < lo) then (intOut ty lo, 4#5)
  else if sat && decide (hi < x) then (intOut ty hi, 4#5)
  else (intOut ty x, 0)

/-- A field's length in effect (R156). -/
def fieldLen (w : Nat) (f : W64) : Nat := min (f.toNat / 64 % 128) (w - f.toNat % 64)

/-- The value and the flags of an integer instruction, from the 64 bits of A, B and C. -/
def intRule (i : Instr) : Option (CW × (W64 → W64 → W64 → W64 × BitVec 5)) :=
  let ty (w : CW) : Nat := w.ty.toNat
  let wd (w : CW) : Nat := widthOf (ty w)
  let lo (w : CW) (v : W64) : BitVec (wd w) := v.setWidth (wd w)
  match i with
  | .add w => some (w, fun a b _ => satOut (ty w) (w.fn == 1) (intIn (ty w) a + intIn (ty w) b))
  | .sub w => some (w, fun a b _ => satOut (ty w) (w.fn == 1) (intIn (ty w) a - intIn (ty w) b))
  | .mul w => some (w, fun a b _ => satOut (ty w) (w.fn == 1) (intIn (ty w) a * intIn (ty w) b))
  | .mad w => some (w, fun a b c => satOut (ty w) (w.fn == 1) (intIn (ty w) a * intIn (ty w) b + intIn (ty w) c))
  | .neg w => some (w, fun a _ _ => satOut (ty w) (w.fn == 1) (-intIn (ty w) a))
  | .abs w => some (w, fun a _ _ => satOut (ty w) (w.fn == 1) (intIn (ty w) a).natAbs)
  | .mulh w => some (w, fun a b _ => (intOut (ty w) ((intIn (ty w) a * intIn (ty w) b).fdiv (2 ^ wd w)), 0))
  | .div w => some (w, fun a b _ =>
      if intIn (ty w) b = 0 then (intOut (ty w) (-1), 2#5) else (intOut (ty w) ((intIn (ty w) a).tdiv (intIn (ty w) b)), 0))
  | .rem w => some (w, fun a b _ =>
      if intIn (ty w) b = 0 then (bitsOut (ty w) (lo w a), 2#5) else (intOut (ty w) ((intIn (ty w) a).tmod (intIn (ty w) b)), 0))
  | .min w => some (w, fun a b _ => (intOut (ty w) (min (intIn (ty w) a) (intIn (ty w) b)), 0))
  | .max w => some (w, fun a b _ => (intOut (ty w) (max (intIn (ty w) a) (intIn (ty w) b)), 0))
  | .and w => some (w, fun a b _ => (bitsOut (ty w) (lo w a &&& lo w b), 0))
  | .andn w => some (w, fun a b _ => (bitsOut (ty w) (lo w a &&& ~~~(lo w b)), 0))
  | .or w => some (w, fun a b _ => (bitsOut (ty w) (lo w a ||| lo w b), 0))
  | .xor w => some (w, fun a b _ => (bitsOut (ty w) (lo w a ^^^ lo w b), 0))
  | .not w => some (w, fun a _ _ => (bitsOut (ty w) (~~~(lo w a)), 0))
  | .shl w => some (w, fun a b _ =>
      if w.fn == 1 then satOut (ty w) true (intIn (ty w) a * 2 ^ b.toNat) else (bitsOut (ty w) (lo w a <<< b.toNat), 0))
  | .shr w => some (w, fun a b _ => (bitsOut (ty w) (lo w a >>> b.toNat), 0))
  | .sra w => some (w, fun a b _ => (bitsOut (ty w) ((lo w a).sshiftRight b.toNat), 0))
  | .rot w => some (w, fun a b _ => (bitsOut (ty w) ((lo w a).rotateLeft b.toNat), 0))
  | .clz w => some (w, fun a _ _ => (intOut (ty w) ((List.range (wd w)).takeWhile fun j => !a.getLsbD (wd w - 1 - j)).length, 0))
  | .popc w => some (w, fun a _ _ => (intOut (ty w) ((List.range (wd w)).filter fun j => a.getLsbD j).length, 0))
  | .bfx w => some (w, fun a b _ =>
      let f : BitVec (fieldLen (wd w) b) := (lo w a >>> (b.toNat % 64)).setWidth _
      (intOut (ty w) (if ty w < 4 then f.toInt else (f.toNat : Int)), 0))
  | .bfi w => some (w, fun a b c =>
      let m : BitVec (wd w) := BitVec.ofNat _ (2 ^ fieldLen (wd w) c - 1) <<< (c.toNat % 64)
      (bitsOut (ty w) ((lo w a &&& ~~~m) ||| ((lo w b <<< (c.toNat % 64)) &&& m)), 0))
  | .cmp w => some (w, fun a b _ =>
      let x := intIn (ty w) a
      let y := intIn (ty w) b
      let holds : Bool := match w.fn.toNat with
        | 0 => x == y
        | 1 => x != y
        | 2 => decide (x < y)
        | 3 => decide (x ≤ y)
        | 4 => decide (y < x)
        | _ => decide (y ≤ x)
      (if holds then 1 else 0, 0))
  | .mov w => some (w, fun a _ _ =>
      (if ty w < 8 then bitsOut (ty w) (lo w a) else if ty w = 8 then (a.setWidth 32).setWidth 64 else a, 0))
  | _ => none

/-! ## The floating, conversion and lane instructions, said over the rationals (R136 to R141, R159 to R170)

These restate the rules apart from the model's own arithmetic: what a pattern stands for, what the exact result is, and which pattern and
flags a single rounding of it gives. -/

/-- The format of a floating type, and of the lanes of a packed one: the table of R136, and the types of R53 and R137. -/
def fmtAt (ty : Nat) : Fmt :=
  if ty = 9 then ⟨64, 52, 1023, .ieee⟩ else if ty = 11 then ⟨16, 7, 127, .ieee⟩ else if ty = 12 then ⟨16, 10, 15, .ieee⟩
  else if ty = 13 then ⟨8, 3, 7, .e4m3⟩ else if ty = 14 then ⟨8, 2, 15, .ieee⟩ else if ty = 15 then ⟨4, 1, 1, .e2m1⟩
  else ⟨32, 23, 127, .ieee⟩

/-- How many lanes a type has: a packed type fills the 64 bits of VAL (R137). -/
def lanesAt (ty : Nat) : Nat := if ty < 10 then 1 else 64 / (fmtAt ty).w

/-- Lane j of a word (R137). -/
def laneAt (f : Fmt) (v : W64) (j : Nat) : Nat := v.toNat / 2 ^ (f.w * j) % 2 ^ f.w

/-- The fields of a pattern (R136): the sign, the exponent, the fraction. -/
def signOf (f : Fmt) (p : Nat) : Bool := p / 2 ^ (f.w - 1) % 2 == 1
def expOf (f : Fmt) (p : Nat) : Nat := p / 2 ^ f.fb % 2 ^ (f.w - 1 - f.fb)
def fracOf (f : Fmt) (p : Nat) : Nat := p % 2 ^ f.fb

/-- The exponent field is all ones, in a format that keeps it for infinities and NaNs (R136). -/
def isSpecial (f : Fmt) (p : Nat) : Bool := f.spec == .ieee && expOf f p + 1 == 2 ^ (f.w - 1 - f.fb)
def isInf (f : Fmt) (p : Nat) : Bool := isSpecial f p && fracOf f p == 0
def isNaN (f : Fmt) (p : Nat) : Bool := (isSpecial f p && fracOf f p != 0) || (f.spec == .e4m3 && p % 128 == 127)
def isSNaN (f : Fmt) (p : Nat) : Bool := isSpecial f p && fracOf f p != 0 && decide (fracOf f p < 2 ^ (f.fb - 1))

/-- The number that a pattern of no infinity and no NaN stands for (R136). -/
def ratOf (f : Fmt) (p : Nat) : ℚ :=
  (if signOf f p then -1 else 1) *
    (if expOf f p = 0 then (fracOf f p : ℚ) * 2 ^ (1 - (f.bias : Int) - f.fb)
     else ((2 ^ f.fb + fracOf f p : Nat) : ℚ) * 2 ^ ((expOf f p : Int) - f.bias - f.fb))

/-- The largest finite number of a format (R136). -/
def maxRat (f : Fmt) : ℚ :=
  match f.spec with
  | .ieee => (2 - 2 ^ (-(f.fb : Int))) * 2 ^ (f.bias : Int)
  | .e4m3 => 448
  | .e2m1 => 6

/-- An exact result: a number with a sign, which a zero has too, or an infinity (R139). -/
inductive Exact where
  | num (neg : Bool) (x : ℚ)
  | inf (neg : Bool)

/-- What a pattern that is no NaN stands for. -/
def exactOf (f : Fmt) (p : Nat) : Exact := if isInf f p then .inf (signOf f p) else .num (signOf f p) (ratOf f p)

def Exact.neg : Exact → Exact
  | .num s x => .num (!s) (-x)
  | .inf s => .inf !s

/-- An exact sum, a zero with the sign of R140; none is an invalid operation (R141). -/
def Exact.add (mode : Nat) : Exact → Exact → Option Exact
  | .inf s, .inf t => if s = t then some (.inf s) else none
  | .inf s, .num .. => some (.inf s)
  | .num .., .inf t => some (.inf t)
  | .num s x, .num t y => some (.num (if x + y = 0 then (s && t && decide (x = 0)) || mode == 3 else decide (x + y < 0)) (x + y))

/-- An exact product; none for 0 times an infinity (R140, R141). -/
def Exact.mul : Exact → Exact → Option Exact
  | .inf s, .inf t => some (.inf (s != t))
  | .inf s, .num t y => if y = 0 then none else some (.inf (s != t))
  | .num s x, .inf t => if x = 0 then none else some (.inf (s != t))
  | .num s x, .num t y => some (.num (s != t) (x * y))

/-- Order of exact values; zeros: -0 is below +0 (R160), else they are equal (R161). -/
def Exact.lt (zeros : Bool) : Exact → Exact → Bool
  | .inf s, .inf t => s && !t
  | .inf s, .num .. => s
  | .num .., .inf t => !t
  | .num s x, .num t y => decide (x < y) || (zeros && decide (x = 0) && decide (y = 0) && s && !t)

/-- A magnitude rounded to an integer under a mode, for a value of a given sign (R139). -/
def roundInt (neg : Bool) (y : ℚ) (mode : Nat) : Int :=
  let n : Int := ⌊y⌋
  if mode = 0 then (if y - n < 1 / 2 then n else if 1 / 2 < y - n then n + 1 else if n % 2 = 0 then n else n + 1)
  else if mode = 1 then n
  else if mode = 2 then (if neg then n else ⌈y⌉)
  else if neg then ⌈y⌉ else n

/-- The pattern of a number of a given sign and magnitude (R136). -/
def IsNum (f : Fmt) (p : Nat) (neg : Bool) (m : ℚ) : Prop :=
  isInf f p = false ∧ isNaN f p = false ∧ signOf f p = neg ∧ ratOf f p = if neg then -m else m

/-- The pattern of an infinity. -/
def IsInf (f : Fmt) (p : Nat) (neg : Bool) : Prop := isInf f p = true ∧ signOf f p = neg

/-- The default NaN of a format (R136). -/
def defaultNaNAt (f : Fmt) : Nat := match f.spec with
  | .ieee => 2 ^ (f.w - 1) - 2 ^ (f.fb - 1)
  | _ => 127

/-- One rounding of a number of a given sign to a format: the pattern and the flags (R139, R140). u counts the units of 2^(k-fb) that the
number rounds to as if the exponent range were unbounded; a number below the smallest normal is rounded in the units of the subnormals. -/
def Rounds (f : Fmt) (mode : Nat) (sat neg : Bool) (x : ℚ) (p : Nat) (fl : BitVec 5) : Prop :=
  (x = 0 → IsNum f p neg 0 ∧ fl = 0) ∧
  ∀ k : Int, (2 : ℚ) ^ k ≤ |x| → |x| < (2 : ℚ) ^ (k + 1) →
    let emin : Int := 1 - f.bias
    let at_ (q : Int) : ℚ := roundInt neg (|x| / 2 ^ (q - f.fb)) mode * 2 ^ (q - f.fb)
    let toInf : Bool := f.spec == .ieee && !sat && (mode == 0 || (mode == 2 && !neg) || (mode == 3 && neg))
    if maxRat f < at_ k then (if toInf then IsInf f p neg else IsNum f p neg (maxRat f)) ∧ fl = 20#5
    else IsNum f p neg (at_ (max k emin)) ∧ fl = if at_ (max k emin) = |x| then 0 else if at_ k < 2 ^ emin then 24#5 else 16#5

/-- An exact result delivered in a format (R140, R141): an infinity as itself, or, under .SAT and where there is none, as the largest finite
number, raising OF. -/
def Delivers (f : Fmt) (mode : Nat) (sat : Bool) (e : Exact) (p : Nat) (fl : BitVec 5) : Prop :=
  match e with
  | .num s x => Rounds f mode sat s x p fl
  | .inf s => if f.spec == .ieee && !sat then IsInf f p s ∧ fl = 0 else IsNum f p s (maxRat f) ∧ fl = 4#5

/-- A NaN of format g delivered in format f: its sign and the top fraction bits that fit, quiet; E2M1 holds none and delivers +0, raising
NV (R141). -/
def NaNTo (g f : Fmt) (q p : Nat) : Prop :=
  match f.spec with
  | .ieee => isNaN f p = true ∧ signOf f p = signOf g q ∧
      fracOf f p = (if f.fb ≤ g.fb then fracOf g q / 2 ^ (g.fb - f.fb) else fracOf g q * 2 ^ (f.fb - g.fb)) ||| 2 ^ (f.fb - 1)
  | .e4m3 => p % 128 = 127 ∧ signOf f p = signOf g q
  | .e2m1 => p = 0

/-- A signalling NaN among operands raises NV, bit 0 (R141). -/
def nvOf (f : Fmt) (l : List Nat) : BitVec 5 := if l.any (isSNaN f) then 1 else 0

/-- A pattern of one format converted to another (R166). -/
def Converts (g f : Fmt) (mode : Nat) (sat : Bool) (q p : Nat) (fl : BitVec 5) : Prop :=
  if isNaN g q then NaNTo g f q p ∧ fl = (if f.spec == .e2m1 then 1#5 else nvOf g [q]) else Delivers f mode sat (exactOf g q) p fl

/-- A sum or product of one lane (R159): op 0 is a+b, 1 a-b, 2 a×b, 3 a×b+c, 4 a×b-c, 5 -(a×b)+c. -/
def Arith (op : Nat) (f : Fmt) (mode : Nat) (a b c p : Nat) (fl : BitVec 5) : Prop :=
  let quiet (q : Nat) (l : List Nat) : Prop := NaNTo f f q p ∧ fl = nvOf f l
  let ends (e : Option Exact) : Prop := match e with
    | none => p = defaultNaNAt f ∧ fl = 1#5
    | some e => Delivers f mode false e p fl
  let x := exactOf f a
  let y := exactOf f b
  let z := exactOf f c
  if isNaN f a then quiet a (if op < 3 then [a, b] else [a, b, c])
  else if isNaN f b then quiet b (if op < 3 then [a, b] else [a, b, c])
  else if op < 2 then ends (x.add mode (if op = 1 then y.neg else y))
  else match x.mul y with
    | none => p = defaultNaNAt f ∧ fl = 1#5
    | some m =>
      if op = 2 then ends (some m)
      else if isNaN f c then quiet c [c]
      else ends ((if op = 5 then m.neg else m).add mode (if op = 4 then z.neg else z))

/-- FMIN and FMAX of one lane (R160). -/
def Extreme (mx : Bool) (f : Fmt) (a b p : Nat) (fl : BitVec 5) : Prop :=
  fl = nvOf f [a, b] ∧
  if isNaN f a && isNaN f b then NaNTo f f a p
  else if isNaN f a then p = b
  else if isNaN f b then p = a
  else
    let x := exactOf f a
    let y := exactOf f b
    p = if (if mx then x.lt true y else y.lt true x) then b else a

/-- The class of a pattern, as a bit of FCLS's mask (R162). -/
def classOf (f : Fmt) (p : Nat) : Nat :=
  let s := signOf f p
  if isNaN f p then (if isSNaN f p then 8 else 9)
  else if isInf f p then (if s then 0 else 7)
  else if expOf f p = 0 then (if fracOf f p = 0 then (if s then 3 else 4) else if s then 2 else 5)
  else if s then 1 else 6

/-- FRND (R163): an integral value in its own format. -/
def ToIntegral (f : Fmt) (mode a p : Nat) (fl : BitVec 5) : Prop :=
  if isNaN f a then NaNTo f f a p ∧ fl = nvOf f [a]
  else if isInf f a then p = a ∧ fl = 0
  else
    let n := roundInt (signOf f a) |ratOf f a| mode
    IsNum f p (signOf f a) n ∧ fl = if (n : ℚ) = |ratOf f a| then 0 else 16#5

/-- FSCL (R164): a × 2^n, rounded once. -/
def Scales (f : Fmt) (mode a : Nat) (n : Int) (p : Nat) (fl : BitVec 5) : Prop :=
  if isNaN f a then NaNTo f f a p ∧ fl = nvOf f [a]
  else if isInf f a || decide (ratOf f a = 0) then p = a ∧ fl = 0
  else Rounds f mode false (signOf f a) (ratOf f a * 2 ^ n) p fl

/-- The middle of the step of 2^-10 that holds a significand (R165). -/
def midStep (m : ℚ) : ℚ := (⌊m * 2 ^ 10⌋ : ℚ) / 2 ^ 10 + 1 / 2 ^ 11

/-- FRSQ (R165): n × 2^-12 is the nearest 12-bit number to 1 / √m_c. -/
def RootEstimate (a p : Nat) (fl : BitVec 5) : Prop :=
  let f := fmtAt 8
  let x := ratOf f a
  if isNaN f a then NaNTo f f a p ∧ fl = nvOf f [a]
  else if isInf f a then (if signOf f a then p = defaultNaNAt f ∧ fl = 1#5 else IsNum f p false 0 ∧ fl = 0)
  else if x = 0 then IsInf f p (signOf f a) ∧ fl = 2#5
  else if x < 0 then p = defaultNaNAt f ∧ fl = 1#5
  else fl = 0 ∧ ∃ (m : ℚ) (e : Int) (n : Nat), x = m * 2 ^ (2 * e) ∧ 1 ≤ m ∧ m < 4 ∧
    (2 * n - 1 : ℚ) ^ 2 * midStep m < 2 ^ 26 ∧ 2 ^ 26 < (2 * n + 1 : ℚ) ^ 2 * midStep m ∧ IsNum f p false ((n : ℚ) * 2 ^ (-12 - e))

/-- FRCP (R165): n × 2^-12 is the nearest 12-bit number to 1 / m_c. -/
def ReciprocalEstimate (a p : Nat) (fl : BitVec 5) : Prop :=
  let f := fmtAt 8
  let x := ratOf f a
  let s := signOf f a
  if isNaN f a then NaNTo f f a p ∧ fl = nvOf f [a]
  else if isInf f a then IsNum f p s 0 ∧ fl = 0
  else if x = 0 then IsInf f p s ∧ fl = 2#5
  else ∃ (m : ℚ) (e : Int) (n : Nat), |x| = m * 2 ^ e ∧ 1 ≤ m ∧ m < 2 ∧
    (2 * n - 1 : ℚ) * midStep m < 2 ^ 13 ∧ 2 ^ 13 < (2 * n + 1 : ℚ) * midStep m ∧
    if e ≤ -129 then IsInf f p s ∧ fl = 20#5 else IsNum f p s ((n : ℚ) * 2 ^ (-12 - e)) ∧ fl = 0

/-- FCMP's relation (R161). -/
def Compares (f : Fmt) (cc a b : Nat) (v : W64) (fl : BitVec 5) : Prop :=
  if isNaN f a || isNaN f b then v = (if cc = 1 then 1 else 0) ∧ fl = if cc < 2 then nvOf f [a, b] else 1#5
  else
    let lt := (exactOf f a).lt false (exactOf f b)
    let gt := (exactOf f b).lt false (exactOf f a)
    let holds : Bool := match cc with
      | 0 => !lt && !gt
      | 1 => lt || gt
      | 2 => lt
      | 3 => !gt
      | 4 => gt
      | _ => !lt
    v = (if holds then 1 else 0) ∧ fl = 0

/-- A float rounded to an integer type (R167): NV alone where the rounded value does not fit. -/
def ToInt (f : Fmt) (ty mode : Nat) (sat : Bool) (a : Nat) (v : W64) (fl : BitVec 5) : Prop :=
  let lo : Int := if ty < 4 then -(2 ^ (widthOf ty - 1) : Int) else 0
  let hi : Int := if ty < 4 then (2 ^ (widthOf ty - 1) : Int) - 1 else (2 ^ widthOf ty : Int) - 1
  let bad (neg : Bool) : Prop := v = intOut ty (if sat then (if neg then lo else hi) else if ty < 4 then lo else hi) ∧ fl = 1#5
  if isNaN f a then v = intOut ty (if sat then 0 else if ty < 4 then lo else hi) ∧ fl = 1#5
  else if isInf f a then bad (signOf f a)
  else
    let x := ratOf f a
    let n : Int := if x < 0 then -(roundInt true |x| mode) else roundInt false |x| mode
    if n < lo then bad true else if hi < n then bad false else v = intOut ty n ∧ fl = if (n : ℚ) = x then 0 else 16#5

/-- VSUM (R170): one rounding of the whole sum. -/
def Sums (f : Fmt) (mode : Nat) (l : List Nat) (p : Nat) (fl : BitVec 5) : Prop :=
  let g := fmtAt 8
  match l.find? (isNaN f) with
  | some q => NaNTo f g q p ∧ fl = nvOf f l
  | none =>
    let inf (s : Bool) : Bool := l.any fun q => isInf f q && signOf f q == s
    let x := (l.map (ratOf f)).sum
    if inf false && inf true then p = defaultNaNAt g ∧ fl = 1#5
    else if inf false || inf true then IsInf g p (inf true) ∧ fl = 0
    else Rounds g mode false (if x = 0 then (l.all fun q => decide (ratOf f q = 0) && signOf f q) || mode == 3 else decide (x < 0)) x p fl

/-- A word whose first n lanes each meet a law, with the flags of all of them, and whose bits above those lanes are zero (R134, R137). -/
def EachLane (f : Fmt) (n : Nat) (law : Nat → Nat → BitVec 5 → Prop) (v : W64) (fl : BitVec 5) : Prop :=
  ∃ fs : Nat → BitVec 5, (∀ j < n, law j (laneAt f v j) (fs j)) ∧ (∀ j, f.w * n ≤ j → v.getLsbD j = false) ∧
    fl = ((List.range n).map fs).foldr (· ||| ·) 0

/-- FCVT (R166). -/
def ConvertsLanes (src ty mode : Nat) (sat : Bool) (a v : W64) (fl : BitVec 5) : Prop :=
  EachLane (fmtAt ty) (min (lanesAt src) (lanesAt ty)) (fun j => Converts (fmtAt src) (fmtAt ty) mode sat (laneAt (fmtAt src) a j)) v fl

/-- A step of TRED's fold, and UNION's value on equal keys (R178, R183): 0 adds, 1 takes the smaller, 2 the larger, 3 to 5 join the bits. -/
def FoldRule (fn ty : Nat) (a b v : W64) (fl : BitVec 5) : Prop :=
  let lo (v : W64) : BitVec (widthOf ty) := v.setWidth (widthOf ty)
  if ty < 8 then (v, fl) = match fn with
    | 0 => satOut ty false (intIn ty a + intIn ty b)
    | 1 => (intOut ty (min (intIn ty a) (intIn ty b)), 0)
    | 2 => (intOut ty (max (intIn ty a) (intIn ty b)), 0)
    | 3 => (bitsOut ty (lo a &&& lo b), 0)
    | 4 => (bitsOut ty (lo a ||| lo b), 0)
    | _ => (bitsOut ty (lo a ^^^ lo b), 0)
  else
    let f := fmtAt ty
    EachLane f 1 (fun j p fl => match fn with
      | 0 => Arith 0 f 0 (laneAt f a j) (laneAt f b j) 0 p fl
      | 1 => Extreme false f (laneAt f a j) (laneAt f b j) p fl
      | _ => Extreme true f (laneAt f a j) (laneAt f b j) p fl) v fl

/-- The rule of a floating, conversion or lane instruction (R159 to R170): how the 64 bits of A, B and C fix its value and its flags. -/
def floatRule (i : Instr) : Option (CW × (W64 → W64 → W64 → W64 → BitVec 5 → Prop)) :=
  let ty (w : CW) : Nat := w.ty.toNat
  let md (w : CW) : Nat := w.fn.toNat % 4
  let each (w : CW) (law : Fmt → Nat → Nat → Nat → Nat → BitVec 5 → Prop) (a b c v : W64) (fl : BitVec 5) : Prop :=
    let f := fmtAt (ty w)
    EachLane f (lanesAt (ty w)) (fun j => law f (laneAt f a j) (laneAt f b j) (laneAt f c j)) v fl
  let one (w : CW) (a : W64) : Nat := laneAt (fmtAt (ty w)) a 0
  match i with
  | .fadd w => some (w, each w fun f => Arith 0 f (md w))
  | .fsub w => some (w, each w fun f => Arith 1 f (md w))
  | .fmul w => some (w, each w fun f => Arith 2 f (md w))
  | .fma w => some (w, each w fun f => Arith 3 f (md w))
  | .fms w => some (w, each w fun f => Arith 4 f (md w))
  | .fnma w => some (w, each w fun f => Arith 5 f (md w))
  | .fmin w => some (w, each w fun f a b _ => Extreme false f a b)
  | .fmax w => some (w, each w fun f a b _ => Extreme true f a b)
  | .fabs w => some (w, each w fun f a _ _ p fl => p = a &&& (2 ^ (f.w - 1) - 1) ∧ fl = 0)
  | .fneg w => some (w, each w fun f a _ _ p fl => p = a ^^^ 2 ^ (f.w - 1) ∧ fl = 0)
  | .fcmp w => some (w, fun a b _ => Compares (fmtAt (ty w)) w.fn.toNat (one w a) (one w b))
  | .frsq w => some (w, fun a _ _ v fl => v.toNat < 2 ^ 32 ∧ RootEstimate (a.toNat % 2 ^ 32) v.toNat fl)
  | .frcp w => some (w, fun a _ _ v fl => v.toNat < 2 ^ 32 ∧ ReciprocalEstimate (a.toNat % 2 ^ 32) v.toNat fl)
  | .fscl w => some (w, fun a b _ => EachLane (fmtAt (ty w)) 1 fun _ => Scales (fmtAt (ty w)) (md w) (one w a) (b.setWidth 32).toInt)
  | .frnd w => some (w, fun a _ _ => EachLane (fmtAt (ty w)) 1 fun _ => ToIntegral (fmtAt (ty w)) (md w) (one w a))
  | .fcls w => some (w, fun a _ _ v fl => v = 1#64 <<< classOf (fmtAt (ty w)) (one w a) ∧ fl = 0)
  | .fcvt w => some (w, fun a _ _ => ConvertsLanes w.imm.toNat (ty w) (md w) (w.fn.getLsbD 2) a)
  | .cvt w => some (w, fun a _ _ v fl =>
      let src := w.imm.toNat
      let sat := w.fn.getLsbD 2
      if src < 8 then
        (if ty w < 8 then (v, fl) = satOut (ty w) sat (intIn src a)
         else EachLane (fmtAt (ty w)) 1 (fun _ => Rounds (fmtAt (ty w)) (md w) sat (decide (intIn src a < 0)) (intIn src a)) v fl)
      else if ty w < 8 then ToInt (fmtAt src) (ty w) (md w) sat (laneAt (fmtAt src) a 0) v fl
      else ConvertsLanes src (ty w) (md w) sat a v fl)
  | .lane w => some (w, fun a b _ v fl =>
      let f := fmtAt (ty w)
      v.toNat < 2 ^ 32 ∧ Converts f (fmtAt 8) 0 false (laneAt f a (b.toNat % lanesAt (ty w))) v.toNat fl)
  | .vins w => some (w, fun a b c v fl =>
      let f := fmtAt (ty w)
      let k := c.toNat % lanesAt (ty w)
      (∀ j < lanesAt (ty w), j ≠ k → laneAt f v j = laneAt f a j) ∧
      if ty w = 10 then laneAt f v k = b.toNat % 2 ^ 32 ∧ fl = 0
      else Converts (fmtAt 8) f 0 false (b.toNat % 2 ^ 32) (laneAt f v k) fl)
  | .vsum w => some (w, fun a _ _ v fl =>
      let f := fmtAt (ty w)
      v.toNat < 2 ^ 32 ∧ Sums f (md w) ((List.range (lanesAt (ty w))).map (laneAt f a)) v.toNat fl)
  | _ => none

end Sys2Proof.Safety
end

