-- ==== Sys2Proof/Certificates/Slice0/Obligations.lean ====
section
/-! DEFINITION. The statements for the provers, each with the rules of the manual that it formalises. -/

open Sys2Proof Sys2Proof.Machine Sys2Proof.Safety

/-! ## Words -/

/-- O1. Every well-formed element instruction's word decodes to it, every operand field at every value; SHARE_REMOVE's word is SHARE's
(R48, R66, R67, R296). -/
def Obligations.DecodeEncodeContext : Prop :=
  ∀ (i : Instr) (r : Row) (w : CW), i.row = some (r, w) → i.wf = true →
    ∃ v, encode i = some v ∧ decodeCtx v = .ok (if i = .shareRemove w then .share w else i)

/-- O2. Every well-formed sequencer instruction's word decodes to it in a supervisor graph, and in a user graph too where its SOP is below
0xE0; a supervisor word in a user graph is PRIV (R64, R65). -/
def Obligations.DecodeEncodeSequencer : Prop :=
  ∀ (i : Instr) (r : SRow) (w : SW), i.srow = some (r, w) → i.wf = true →
    ∃ v, encode i = some v ∧ decodeSeq true v = .ok i ∧
      decodeSeq false v = if r.sop.toNat < 0xE0 then .ok i else .error .priv

/-- O3. A word that either decoder accepts is the word of the instruction it gives: no two words share a meaning, and no bit is ignored
(R48, R63, R64). -/
def Obligations.EncodeDecode : Prop :=
  (∀ (v : W64) (i : Instr), decodeCtx v = .ok i → encode i = some v ∧ i.wf = true) ∧
  (∀ (sup : Bool) (v : W64) (i : Instr), decodeSeq sup v = .ok i → encode i = some v ∧ i.wf = true)

/-- O4. Words written out from the manual's encodings decode to what they stand for, and what is refused is refused by name (R48, R63, R64):
the worked word of the operand chapter, an ADD, an SBNZ and an ERET; an unassigned opcode or SOP is CFG_OPCODE, a field value that is not
assigned CFG_FIELD. -/
def Obligations.WordsAreReadAndRefused : Prop :=
  (decodeCtx 0x3318_1842_603F_C000#64 = .ok (.fma ⟨1, 8, 0, 3, 0, 1, 0, 0, 2, 1, 2, 0, 0, 0, 0x3FC000⟩) ∧
    decodeCtx 0x0002_0000_C000_0000#64 = .ok (.add ⟨0, 2, 0, 0, 0, 0, 0, 0, 0, 3, 0, 0, 0, 0, 0⟩) ∧
    decodeSeq false 0x1A03_0000_0000_0007#64 = .ok (.sbnz ⟨0, 3, 0, 7⟩) ∧
    decodeSeq true 0xE000_0000_0000_0000#64 = .ok (.eret ⟨0, 0, 0, 0⟩)) ∧
  (∀ v : W64, ofOpcode (v.extractLsb' 56 8).toNat (CW.unpack v) = none → decodeCtx v = .error .cfgOpcode) ∧
  (∀ (v : W64) (i : Instr), ofOpcode (v.extractLsb' 56 8).toNat (CW.unpack v) = some i →
    decodeCtx v = if i.wf then .ok i else .error .cfgField) ∧
  (∀ op, op < 256 → (∀ w, ofOpcode op w = none) ∨
    ∀ w, ∃ i r, ofOpcode op w = some i ∧ i.row = some (r, w) ∧ r.op.toNat = op)

/-! ## A step -/

/-- O5. A step runs the decoded instruction: the word of the slot that fires, the word at the index of the graph that its field's sequencer
chooses, or the happening itself where it has no word. Around it the counters run on and no word stays in progress (R20, R48, R64, R69). That steps are ordered by
an agenda of happenings is the model's frame (log 3), and soft errors are happenings of their own (log 104). -/
def Obligations.StepRunsDecoded : Prop :=
  ∀ (s q p : State) (h : Happening), nextHappening s = (h, q) → p = rest (tickAll q h.ticks) →
    (∀ sl n i, h.act = .fire sl → node? q sl = some n → decodeCtx n.word = .ok i → step s = restOut (exec i { p with focus := .slot sl })) ∧
    (∀ f k g v i, h.act = .word f → clocksRun p = true → pickGraph p f = some k → curGraph (chooseGraph p f k) = some (f, g) →
      g.words[g.pc]? = some v → decodeSeq g.sup v = .ok i → step s = restOut (exec i (chooseGraph p f k))) ∧
    (∀ i, h.act = .event i → i.isEvent = true → clocksRun p = true ∨ offWafer i = true → step s = restOut (exec i p)) ∧
    (∀ u, h.act = .upset u → step s = .next (rest (runUpset p u)))

/-- O6. How a step ends. No instruction stops the machine, and a step stops it only at a word that the loader would have refused, or where the
agenda names, as a step without a word, an instruction that has one (R63, R404; log 3, 7). A step that goes on leaves no word in progress and no
copy of a context exchanged for another, which is the model's own bookkeeping (log 3, 36). -/
def Obligations.StepsEnd : Prop :=
  (∀ i s, ∃ t, exec i s = .next t) ∧
  (∀ s r, step s = .fault r → r = .illegalWord ∧ ∃ h q, nextHappening s = (h, q) ∧
    ((∃ sl n e, h.act = .fire sl ∧ node? q sl = some n ∧ decodeCtx n.word = .error e) ∨
     ∃ f k g v e, h.act = .word f ∧ pickGraph (rest (tickAll q h.ticks)) f = some k ∧
       curGraph (chooseGraph (rest (tickAll q h.ticks)) f k) = some (f, g) ∧ g.words[g.pc]? = some v ∧ decodeSeq g.sup v = .error e)) ∧
  (∀ s r, step s = .refused r → r = .notAnEvent ∧ ∃ h q i, nextHappening s = (h, q) ∧ h.act = .event i ∧ i.isEvent = false) ∧
  (∀ s t, step s = .next t → AtRest t)

/-- O7. Every step keeps memory and its shadow copy in canonical form, from any state that has it: addresses rising, and no byte listed that
reads as an unlisted one does, so that equal memories are equal data (R12, R410; log 2). -/
def Obligations.MemoryStaysCanonical : Prop := ∀ s t, MemOk s → step s = .next t → MemOk t

/-- O8. Right after reset: no word is in progress, memory is canonical and reads 0, no partition is formed, no context is live, no queue is
bound, registers read what their tables give, and no fault or flag is recorded (R20, R109, R313, R416, R424, R429, R431). That State.reset is the
module as the reset sequence leaves it at stage 6, that memory nothing has written reads 0, and the values the manual does not give are the
model's (log 1, 2, 5). -/
def Obligations.ResetState : Prop :=
  AtRest State.reset ∧ MemOk State.reset ∧ (∀ a, cellGet State.reset.mem a = 0) ∧ State.reset.parts = [] ∧
  (∀ c, ctxLive State.reset c = false) ∧ State.reset.queues = [] ∧ (∀ u, ctr State.reset u = 0) ∧
  (∀ sl, flagsOf State.reset sl = 0) ∧ State.reset.recQ = [] ∧ (∀ f, (supr State.reset f).frlog2 = 12 ∧ (supr State.reset f).hangiv = 20) ∧
  (∀ u, (budgetOf State.reset u).period = 1024) ∧ State.reset.ltmo = 200 ∧ State.reset.host.pcap = 20000 ∧ State.reset.host.pstate = 0

/-- O9. While the module is not ready, or stands in P2 or P3, or has tripped, a step that the host side does not make changes nothing: not
a register, not a byte, not a token, and no counter but the controller's (R429, R430, R432). -/
def Obligations.StoppedClocksStopTheWafer : Prop :=
  ∀ (s t : State) (h : Happening) (q : State), clocksRun s = false → nextHappening s = (h, q) →
    (∀ i, h.act = .event i → offWafer i = false) → step s = .next t →
    t = { s with ctrs := t.ctrs, agenda := q.agenda, tick := q.tick, focus := .none_, swapped := none } ∧
    ∀ u, u ≠ .mgmt → ctr t u = ctr s u

/-! ## Firings -/

/-- O10. The frame of every element instruction, in every form and outcome: outside its own slot, element and core nothing changes but
messages, records and counts; sticky flags are only raised; of the share tables SHARE alone writes; and every byte of memory reads as before,
but for the 32 bytes of a trace record, which only a node with TB writes (R52, R104, R109, R125, R212, R296, R409). -/
def Obligations.ElementFrame : Prop :=
  ∀ (i : Instr) (r : Row) (w : CW) (s t : State) (sl : Slot), i.row = some (r, w) → s.focus = .slot sl → exec i s = .next t →
    Local sl { s with shares := t.shares } t ∧ (r.op ≠ 0x9D#8 → t.shares = s.shares) ∧
    ∀ a, (w.tb = 0 ∨ ∀ b, traceSlot s sl.core.f = some b → a < b ∨ b + 32 ≤ a) → cellGet t.mem a = cellGet s.mem a

/-- O11. An element issues nothing for a node in a frozen region, of a context that is not live or is halted, or while it holds a record
that has not been written (R403, R405, R410). Which records an element holds is the model's reading (log 40). -/
def Obligations.NothingIssuesThatMayNot : Prop :=
  ∀ (i : Instr) (r : Row) (w : CW) (s : State) (sl : Slot) (n : Node), i.row = some (r, w) → s.focus = .slot sl → node? s sl = some n →
    (isFrozen s sl.core.f n.lid = true ∨ ctxLive s n.ctx = false ∨ holdsRecord s sl = true) → exec i s = .next s

/-- O12. What a firing leaves: its set is gone from the queue's head, its flags are ORed in, A is in the hold register under HD where the set
executed, and its tokens stand at the ends of the edge buffers of the outputs that reach an input (R52, R104, R109, R118, R119). -/
def Obligations.FiringEffects : Prop :=
  ∀ (s : State) (w : CW) (fr : Firing) (e : Emit), let t := fired s w fr e; let sl := fr.sl
    iqOf t sl.core sl.e = (iqOf s sl.core sl.e).tail ∧ flagsOf t sl = flagsOf s sl ||| e.flags ∧
    holdOf t sl = (if w.hd = 1 ∧ e.exec_ = true then bitsA w fr else holdOf s sl) ∧
    (let g : EdgeId := ⟨sl.core, sl.e, 4⟩
     targets s g ≠ [] → (edgeOf s g).wait = [] → edgeOf t g = ⟨(edgeOf s g).buf ++ e.x.map (bufTok s g), []⟩) ∧
    (let g : EdgeId := ⟨sl.core, sl.e, 5⟩
     targets s g ≠ [] → (edgeOf s g).wait = [] → edgeOf t g = ⟨(edgeOf s g).buf ++ e.y.map (bufTok s g), []⟩) ∧
    (∀ p, targets s ⟨sl.core, sl.e, p⟩ = [] → edgeOf t ⟨sl.core, sl.e, p⟩ = edgeOf s ⟨sl.core, sl.e, p⟩)

/-- O13. A set judged END, skipped, absorbed, passed or faulted by a NUL (R122 to R124), for the instructions that R122 judges and that drive
both outputs: an END or NUL token on X and on Y, nothing, or the node parked with NULL_OPERAND. -/
def Obligations.JudgedSets : Prop :=
  ∀ (i : Instr) (r : Row) (w : CW) (s : State) (fr : Firing) (tx ty : Time), i.row = some (r, w) → drivesBoth r.op = true → Issues s fr →
    act w.xt fr.set.id.time = some tx → act w.yt fr.set.id.time = some ty →
    let o := fr.set
    let both (nul fin : Bool) : Emit := ⟨[specTok w.xc o tx nul fin], [specTok w.yc o ty nul fin], 0, [], false⟩
    let quiet : Bool := !(isEnd o.a || isEnd o.b || isEnd o.c || isEnd o.p) && pMatches w o.p && (isNul o.a || isNul o.b || isNul o.c)
    ((isEnd o.a || isEnd o.b || isEnd o.c || isEnd o.p) = true → hasRoom s fr.sl (both false true) = true →
      exec i s = .next (fired s w fr (both false true))) ∧
    ((isEnd o.a || isEnd o.b || isEnd o.c || isEnd o.p) = false → pMatches w o.p = false → hasRoom s fr.sl (both true false) = true →
      exec i s = .next (fired s w fr (both true false))) ∧
    (quiet = true → w.np = 0 → exec i s = .next (fired s w fr (noEmit false))) ∧
    (quiet = true → w.np = 1 → hasRoom s fr.sl (both true false) = true → exec i s = .next (fired s w fr (both true false))) ∧
    (quiet = true → w.np = 3 →
      exec i s = .next (parkSet (popIq s fr.sl) fr.sl fr.node o Code.nullOperand 0 (.core fr.sl.core)))

/-- O14. What parking leaves (R125, R401): the set with its code and its record in the slot's park register, behind older ones, the node's
other sets out of the queue and held (log 19), and a record of the fault at its unit. -/
def Obligations.ParkedSets : Prop :=
  ∀ (s : State) (sl : Slot) (n : Node) (o : OpSet) (code addr p : Nat), partOfField s sl.core.f = some p →
    let t := parkSet s sl n o code addr (.core sl.core)
    let mine (x : QSet) : Bool := x.set.id.k == sl.k && !x.replay
    parkedOf t sl = parkedOf s sl ++ [⟨o, code, s.serial⟩] ∧
    iqOf t sl.core sl.e = (iqOf s sl.core sl.e).filter (fun x => !mine x) ∧
    tgetD t.x.heldq sl [] = ((iqOf s sl.core sl.e).filter mine).map QSet.set ++ tgetD s.x.heldq sl [] ∧
    ∃ r ∈ t.recQ, r.rid = s.serial ∧ r.part = p ∧ r.code = code ∧ r.kind = 0 ∧ r.cls = 0 ∧ r.node = nodeWord sl code ∧ r.addr = addr ∧
      r.time = o.id.time ∧ r.seq = o.id.seq ∧ r.lid = n.lid ∧ r.ctx = n.ctx

/-- O15. A replay returns the parked set to the head of its element's queue, ahead of every held set; when it was the node's last parked set,
the held sets follow, as far as the queue's 16 places go, and the others stay held (R117, R125, R417). That they follow in that way, and where
sets of one clk and several contexts stand, is the model's reading (log 19, 51). -/
def Obligations.ReplayReturnsTheSet : Prop :=
  (∀ (s : State) (sl : Slot) (o : OpSet) (code rid : Nat) (rest : List Parked), parkedOf s sl = ⟨o, code, rid⟩ :: rest →
    (o.a.isSome || o.b.isSome || o.c.isSome || o.p.isSome) = true →
    let t := replaySet s sl rid; let now := ctr s (.core sl.core); let held := tgetD s.x.heldq sl []
    let n := 16 - ((iqOf s sl.core sl.e).filter fun q => !q.replay).length
    parkedOf t sl = rest ∧
    (rest = [] → tgetD t.x.heldq sl [] = held.drop n ∧ iqOf t sl.core sl.e =
      (held.take n).foldl (fun q x => enterKept ⟨{ x with port := 0 }, false, false, now⟩ q) (⟨o, true, false, now⟩ :: iqOf s sl.core sl.e)) ∧
    (rest ≠ [] → tgetD t.x.heldq sl [] = held ∧ iqOf t sl.core sl.e = ⟨o, true, false, now⟩ :: iqOf s sl.core sl.e)) ∧
  (∀ (x : QSet) (l : List QSet), (∀ y ∈ l, y.clk ≠ x.clk ∨ y.replay = true ∨ y.set.id.k ≤ x.set.id.k) → enterKept x l = l ++ [x]) ∧
  (∀ (x y : QSet) (l m : List QSet), (∀ z ∈ l, z.clk ≠ x.clk ∨ z.replay = true ∨ z.set.id.k ≤ x.set.id.k) →
    y.clk = x.clk → y.replay = false → x.set.id.k < y.set.id.k → enterKept x (l ++ y :: m) = l ++ x :: y :: m)

/-! ## Results -/

/-- O16. The integer instructions (R134, R150 to R158): a set that executes puts the value of the rule on X, with the fields of R104 and the
dif of R105, a NUL token on Y (R149), and raises the rule's flags. The rules are restated over bit vectors in Safety; that a BFX
or BFI descriptor is read from the whole VAL is log 121. -/
def Obligations.IntegerResults : Prop :=
  ∀ (i : Instr) (r : Row) (w : CW) (f : W64 → W64 → W64 → W64 × BitVec 5) (s : State) (fr : Firing) (o : OpSet) (tx ty : Time),
    i.wf = true → i.row = some (r, w) → intRule i = some (w, f) → Executes s fr w false (identity r.op.toNat w.ty.toNat) o tx ty →
    FitsDif (difOut w o) → let fr' := { fr with set := o }; let v := f (valA w fr') (valB w fr') (valC w fr')
    hasRoom s fr.sl (aluEmit w o tx ty v.1 v.2) = true → exec i s = .next (fired s w fr' (aluEmit w o tx ty v.1 v.2))

/-- O17. SEL and MOV (R157): SEL puts out A where C's 64 bits are nonzero and B otherwise, at TY width, with the KEY and KV of the operand it
selects; MOV puts out A at TY width, all 64 bits of a Z64 or a packed type. -/
def Obligations.SelectAndMove : Prop :=
  (∀ (w : CW) (s : State) (fr : Firing) (o : OpSet) (tx ty : Time), Executes s fr w false (identity 0x18 w.ty.toNat) o tx ty →
    FitsDif (difOut w o) → let fr' := { fr with set := o }
    let src := if valC w fr' ≠ 0 then w.sa else w.sb
    let t := if valC w fr' ≠ 0 then o.a else o.b
    let v := extend w.ty.toNat (if valC w fr' ≠ 0 then valA w fr' else valB w fr').toNat
    let e : Emit := ⟨[xTok w o tx v (if src = 0 then (t.map Token.key).getD 0 else 0) (src == 0 && (t.map Token.kv).getD false) (difOut w o)],
      [specTok w.yc o ty true false], 0, [], true⟩
    hasRoom s fr.sl e = true → exec (.sel w) s = .next (fired s w fr' e)) ∧
  (∀ (w : CW) (s : State) (fr : Firing) (o : OpSet) (tx ty : Time), Executes s fr w false (identity 0x1A w.ty.toNat) o tx ty →
    FitsDif (difOut w o) → let fr' := { fr with set := o }
    let e := aluEmit w o tx ty (extend w.ty.toNat (valA w fr').toNat) 0
    hasRoom s fr.sl e = true → exec (.mov w) s = .next (fired s w fr' e)) ∧
  (∀ v : W64, extend 7 v.toNat = v ∧ ∀ ty, 9 ≤ ty → extend ty v.toNat = v) ∧
  (∀ v : W64, extend 0 v.toNat = (v.setWidth 8).signExtend 64 ∧ extend 1 v.toNat = (v.setWidth 16).signExtend 64 ∧
    extend 2 v.toNat = (v.setWidth 32).signExtend 64 ∧ extend 3 v.toNat = v ∧ extend 4 v.toNat = (v.setWidth 8).setWidth 64 ∧
    extend 5 v.toNat = (v.setWidth 16).setWidth 64 ∧ extend 6 v.toNat = (v.setWidth 32).setWidth 64 ∧
    extend 8 v.toNat = (v.setWidth 32).setWidth 64)

/-- O18. The floating, conversion and lane instructions (R137, R139 to R141, R159 to R170): a set that executes puts the rule's value on X, a
NUL token on Y, and raises the rule's flags; on a packed type each lane by itself, the flags of all lanes together. The rules are restated in
Safety apart from the model's arithmetic, over the rationals: the exact result, rounded once, with its flags, and the special cases. -/
def Obligations.FloatResults : Prop :=
  ∀ (i : Instr) (r : Row) (w : CW) (law : W64 → W64 → W64 → W64 → BitVec 5 → Prop) (s : State) (fr : Firing) (o : OpSet) (tx ty : Time),
    i.wf = true → i.row = some (r, w) → floatRule i = some (w, law) → Executes s fr w false (identity r.op.toNat w.ty.toNat) o tx ty →
    FitsDif (difOut w o) → let fr' := { fr with set := o }
    ∃ v fl, law (valA w fr') (valB w fr') (valC w fr') v fl ∧
      (hasRoom s fr.sl (aluEmit w o tx ty v fl) = true → exec i s = .next (fired s w fr' (aluEmit w o tx ty v fl)))

/-- O19. The single rounding leaves every number that a format holds as it is, in every mode, with no flag (R136, R139, R140). -/
def Obligations.RoundingIsExactOnTheFormat : Prop :=
  ∀ (f : Fmt) (p m mode : Nat) (e : Int) (neg sat : Bool), f ∈ [F64, F32, F16, B16, E5M2, E4M3, E2M1] → p < 2 ^ f.w →
    fdec f p = .num neg m e → rnd f neg m e mode sat = (p, 0)

/-- O20. The flow and record instructions (R171, R173, R174, R186): what each puts out for a set that executes. That a bare CONST's token has the time
action applied to (0,0) is the model's choice (log 124). -/
def Obligations.FlowResults : Prop :=
  ∀ (i : Instr) (r : Row) (w : CW) (s : State) (fr : Firing) (o : OpSet) (tx ty : Time) (d : Int) (e : Emit), i.row = some (r, w) →
    Executes s fr w false (identity r.op.toNat w.ty.toNat) o tx ty → flowRule i { fr with set := o } tx ty = some (w, d, e) → FitsDif d →
    hasRoom s fr.sl e = true → exec i s = .next (fired s w { fr with set := o } e)

/-- O21. STEER and GATE (R172): A, from its port, an immediate or the hold register, goes out on X where P is nonzero; where it is zero STEER
puts it on Y and GATE puts out nothing. A NUL on A is steered as it stands, a NUL on P puts a NUL on both outputs, an END on A or P an END on
both. -/
def Obligations.SteerAndGate : Prop :=
  ∀ (i : Instr) (w : CW) (s : State) (fr : Firing) (tx ty : Time) (p : Token), i = .steer w ∨ i = .gate w → Issues s fr →
    fr.set.p = some p → act w.xt fr.set.id.time = some tx → act w.yt fr.set.id.time = some ty →
    FitsDif (difOut w fr.set) → let o := fr.set; let d := difOut w o; let nul := isNul o.a; let stop := isEnd o.a || p.fin
    let all (nul fin : Bool) : Emit := ⟨[specTok w.xc o tx nul fin], [specTok w.yc o ty nul fin], 0, [], false⟩
    let toX : Emit := ⟨[if nul then specTok w.xc o tx true false else xTok w o tx (valA w fr) (keyA w o) (kvA w o) d], [], 0, [], !nul⟩
    let toY : Emit := ⟨[], [if nul then specTok w.yc o ty true false else yTok w o ty (valA w fr) (keyA w o) (kvA w o) d], 0, [], !nul⟩
    (stop = true → hasRoom s fr.sl (all false true) = true → exec i s = .next (fired s w fr (all false true))) ∧
    (stop = false → p.nul = true → hasRoom s fr.sl (all true false) = true → exec i s = .next (fired s w fr (all true false))) ∧
    ((stop || p.nul) = false → p.val ≠ 0 → hasRoom s fr.sl toX = true → exec i s = .next (fired s w fr toX)) ∧
    ((stop || p.nul) = false → p.val = 0 → i = .steer w → hasRoom s fr.sl toY = true → exec i s = .next (fired s w fr toY)) ∧
    ((stop || p.nul) = false → p.val = 0 → i = .gate w → exec i s = .next (fired s w fr ⟨[], [], 0, [], !nul⟩))

/-- O22. SRC (R175, R212): while its section's arming has numbers left, a source of a running launch puts out a unit token with the next number
as VAL and SEQ; the last one records a count of -1. That its time (0,0) goes through the output's time action, as every time on an output does,
is the model's choice (log 124). -/
def Obligations.SourcesEmit : Prop :=
  ∀ (w : CW) (s : State) (fr : Firing) (z : Sect) (n : Nat) (tx : Time), bareFiring s ⟨0, t00, 0⟩ = some fr →
    sectOf s fr.node.lid w.imm.toNat = some z → z.cur = some n → tgetD z.emitted fr.sl 0 < n → running s fr.node.lid = true →
    act w.xt t00 = some tx →
    let k := tgetD z.emitted fr.sl 0
    let o : OpSet := { fr.set with id := ⟨fr.sl.k, t00, BitVec.ofNat 24 k⟩ }
    let e : Emit := ⟨[xTok w o tx (extend w.ty.toNat k) 0 false 1], [], 0, if k + 1 = n then [⟨fr.node.stage, t00, -1⟩] else [], true⟩
    let u := modLaunch (clearBare s fr.sl) fr.node.lid fun l =>
      { l with secs := tset l.secs w.imm.toNat { z with emitted := tset z.emitted fr.sl (k + 1) } }
    bareBreak s { fr with set := o } = false → hasRoom s fr.sl e = true →
      exec (.src w) s = .next (apply u w { fr with set := o } e [] (flushAfter w o e))

/-! ## Streams -/

/-- O23. CNT, SCAN and CONSOL on a record (R176, R184, R185): the state entry of the set's identity, allocated where there is none, takes the
count, the running sum, or the run; SCAN puts out the inclusive or the exclusive sum, CONSOL the run that the record ends. -/
def Obligations.StreamRecords : Prop :=
  ∀ (w : CW) (s s2 : State) (fr : Firing) (r : RunSt) (new : Bool) (tx : Time), Issues s fr →
    (isEnd fr.set.a || isEnd fr.set.p || isNul fr.set.a) = false → pMatches w fr.set.p = true →
    openState s fr.sl fr.set.id = some (r, new, s2) → act w.xt fr.set.id.time = some tx →
    let o := fr.set; let items : List CountItem := if new then [⟨fr.node.stage, o.id.time, 1⟩] else []
    let keep (q : RunSt) : State := setState s2 fr.sl.core fr.sl.e o.id q
    exec (.cnt w) s = .next (fired (keep { r with count := r.count + 1 }) w fr ⟨[], [], 0, items, true⟩) ∧
    (let out := extend w.ty.toNat (if w.fn = 1 then r.count else r.count + valA w fr).toNat
     let e : Emit := ⟨[xTok w o tx out (keyA w o) (kvA w o) (difOf w.sa o.a)], [], 0, items, true⟩
     FitsDif (difOf w.sa o.a) → hasRoom s fr.sl e = true →
       exec (.scan w) s = .next (fired (keep { r with count := r.count + valA w fr, recs := r.recs + 1 }) w fr e)) ∧
    (∀ a, o.a = some a → let rec_ := { a with val := valA w fr }
      let same (t : Token) : Bool := t.key == rec_.key && t.val.toNat % 2 ^ valWidth w.ty.toNat == rec_.val.toNat % 2 ^ valWidth w.ty.toNat
      (r.run = none → exec (.consol w) s = .next (fired (keep { r with run := some rec_ }) w fr ⟨[], [], 0, items, true⟩)) ∧
      (∀ t, r.run = some t → same t = true → FitsDif (t.dif.toInt + a.dif.toInt) →
        exec (.consol w) s =
          .next (fired (keep { r with run := some { t with dif := BitVec.ofInt 32 (t.dif.toInt + a.dif.toInt) } }) w fr ⟨[], [], 0, items, true⟩)) ∧
      (∀ t, r.run = some t → same t = false →
        let e : Emit := ⟨if t.dif = 0 then [] else [xTok w o tx t.val t.key t.kv t.dif.toInt], [], 0, items, true⟩
        hasRoom s fr.sl e = true → exec (.consol w) s = .next (fired (keep { r with run := some rec_ }) w fr e)))

/-- O24. CNT, SCAN and CONSOL at the stream's END (R176, R184, R185): the state entry is freed and its -1 recorded; CNT puts out the count and
the END, SCAN the END, after the last exclusive sum in its .X form, CONSOL the last run and the END. A stream that begins with its END has no
entry, and ends as one of no records. That an END on P ends the stream is the model's reading (log 20). -/
def Obligations.StreamEnds : Prop :=
  ∀ (w : CW) (s : State) (fr : Firing) (r : RunSt) (had : Bool) (tx : Time), Issues s fr → (isEnd fr.set.a || isEnd fr.set.p) = true →
    (had = true ∧ stateEntry s fr.sl.core fr.sl.e fr.set.id = some r) ∨
      (had = false ∧ stateEntry s fr.sl.core fr.sl.e fr.set.id = none ∧ r = RunSt.start) → act w.xt fr.set.id.time = some tx →
    let o := fr.set; let items : List CountItem := if had then [⟨fr.node.stage, o.id.time, -1⟩] else []
    let u := freeState s fr.sl.core fr.sl.e o.id
    let fin := specTok w.xc o tx false true
    (let e : Emit := ⟨[xTok w o tx (extend w.ty.toNat r.count.toNat) 0 false 1, fin], [], 0, items, false⟩
     hasRoom s fr.sl e = true → exec (.cnt w) s = .next (fired u w fr e)) ∧
    (let e : Emit := ⟨(if w.fn = 1 then [xTok w o tx (extend w.ty.toNat r.count.toNat) r.recs true 1] else []) ++ [fin], [], 0, items, false⟩
     hasRoom s fr.sl e = true → exec (.scan w) s = .next (fired u w fr e)) ∧
    (let e : Emit := ⟨(match r.run with
        | some t => if t.dif = 0 then [] else [xTok w o tx t.val t.key t.kv t.dif.toInt]
        | none => []) ++ [fin], [], 0, items, false⟩
     hasRoom s fr.sl e = true → exec (.consol w) s = .next (fired u w fr e))

/-- O25. TRED and ALL (R177, R178): a token of the next SEQ is folded in, or gathered, a NUL or an END counting without a value; before the last
one nothing goes out, at the last one the result goes out at SEQ 0, a NUL where TRED had no value, and the state entry is freed; a SEQ above the
next waits in the store; a SEQ beyond n or already folded parks the node with SEQ_RANGE; the fold is FoldRule's. That a token whose predicate does
not match leaves the fold untouched and puts out a NUL is the model's reading (log 20). -/
def Obligations.FoldsAndGathers : Prop :=
  (∀ (w : CW) (s : State) (fr : Firing) (tx : Time), Issues s fr → act w.xt fr.set.id.time = some tx →
    let o := fr.set; let n := w.imm.toNat; let q := o.id.seq.toNat; let id : Ident := { o.id with seq := 0 }
    let cur := (stateEntry s fr.sl.core fr.sl.e id).getD RunSt.start
    let live := !(isNul o.a || isEnd o.a)
    let taken : Prop := isEnd o.a = true ∨ pMatches w o.p = true
    (n ≤ q ∨ q < cur.next → ∀ i, i = .tred w ∨ i = .all w →
      exec i s = .next (parkSet (popIq s fr.sl) fr.sl fr.node o Code.seqRange 0 (.core fr.sl.core))) ∧
    (q < n → cur.next ≤ q → ¬ taken → let e : Emit := ⟨[specTok w.xc o tx true false], [], 0, [], false⟩;
      hasRoom s fr.sl e = true → ∀ i, i = .tred w ∨ i = .all w → exec i s = .next (fired s w fr e)) ∧
    (∀ s2, q < n → cur.next < q → taken → allocEntry s fr.sl.core fr.sl.e o.id .operands o.a none none o.p = some s2 →
      ∀ i, i = .tred w ∨ i = .all w → exec i s = .next (noteIssue (popIq s2 fr.sl) fr)) ∧
    (∀ r new s2, q < n → q = cur.next → taken → openState s fr.sl id = some (r, new, s2) → r.next = q →
      let v : W64 × BitVec 5 := if !live then (r.acc, 0) else if r.any then foldOp w.fn.toNat w.ty.toNat r.acc (valA w fr) else (valA w fr, 0)
      let any := r.any || live
      (r.next + 1 < n → ∃ t, exec (.all w) s = .next t ∧
        (∃ u, t = promote u fr.sl fr.node { o.id with seq := BitVec.ofNat 24 (r.next + 1) } ∧
          u = fired (setState s2 fr.sl.core fr.sl.e id ⟨r.count, r.recs, r.run, r.next + 1, valA w fr, any⟩) w fr
            ⟨[], [], 0, if new then [⟨fr.node.stage, o.id.time, 1⟩] else [], live⟩)) ∧
      (r.next + 1 < n → ∃ t, exec (.tred w) s = .next t ∧
        (∃ u, t = promote u fr.sl fr.node { o.id with seq := BitVec.ofNat 24 (r.next + 1) } ∧
          u = fired (setState s2 fr.sl.core fr.sl.e id ⟨r.count, r.recs, r.run, r.next + 1, v.1, any⟩) w fr
            ⟨[], [], v.2, if new then [⟨fr.node.stage, o.id.time, 1⟩] else [], live⟩)) ∧
      (let e : Emit := ⟨[xTok w { o with id := id } tx (valA w fr) 0 false 1], [], 0,
          if new then [] else [⟨fr.node.stage, o.id.time, -1⟩], live⟩
       r.next + 1 = n → hasRoom s fr.sl e = true → exec (.all w) s = .next (fired (freeState s2 fr.sl.core fr.sl.e id) w fr e)) ∧
      (let out := if any then xTok w { o with id := id } tx (extend w.ty.toNat v.1.toNat) 0 false 1 else specTok w.xc { o with id := id } tx true false
       let e : Emit := ⟨[out], [], v.2, if new then [] else [⟨fr.node.stage, o.id.time, -1⟩], live⟩
       r.next + 1 = n → hasRoom s fr.sl e = true → exec (.tred w) s = .next (fired (freeState s2 fr.sl.core fr.sl.e id) w fr e)))) ∧
  (∀ (w : CW) (acc v : W64), (Instr.tred w).wf = true →
    FoldRule w.fn.toNat w.ty.toNat acc v (foldOp w.fn.toNat w.ty.toNat acc v).1 (foldOp w.fn.toNat w.ty.toNat acc v).2)

/-- O26. UNION, ISECT and MINUS walk two sorted streams (R27, R179 to R183): the smaller key is consumed first, or the stream that has not ended,
and goes out from UNION, and from MINUS where it is A's; on equal keys both heads are consumed, ISECT puts out both records, MINUS nothing, UNION
what its mode says, .ADD, .MIN and .MAX one record of FoldRule's value, which .DZ drops where it is zero; at both ENDs an END goes out and the walk
is over; a NUL head is consumed without effect. The heads stand in registers of the unit (log 15); one token on P stands for the whole walk, and
where it does not match the records go by as NULs (log 20); HD takes 0 where a step consumes no A (log 118). -/
def Obligations.SortedWalks : Prop :=
  (∀ (w : CW) (s : State) (fr : Firing) (id : Ident) (a b : Token) (hp : Option Token) (br : Bool) (tx ty : Time), bareFiring s id = some fr →
    walkOf s fr.sl = ⟨some id, some a, some b, hp, br⟩ → parkedOf s fr.sl = [] → bareBreak s fr = false →
    act w.xt id.time = some tx → act w.yt id.time = some ty →
    let o := fr.set
    let one (t : Token) : Int := if w.dm = 2 then -t.dif.toInt else if w.dm = 3 then 1 else t.dif.toInt
    let two : Int := if w.dm = 0 then a.dif.toInt * b.dif.toInt else if w.dm = 1 then a.dif.toInt else if w.dm = 2 then -a.dif.toInt else 1
    let step (i : Instr) (e : Emit) (ca cb last : Bool) : Prop :=
      let fr' := { fr with set := { o with a := if ca then some a else none, b := if cb then some b else none, p := if last then hp else none } }
      let u := setWalk s fr.sl (if last then ⟨none, none, none, none, false⟩
        else ⟨some id, if ca then none else some a, if cb then none else some b, hp, false⟩)
      hasRoom s fr.sl e = true → exec i s = .next (apply u w fr' e (consumed fr.node fr'.set) (flushAfter w fr'.set e))
    let x (t : Token) (v : W64) (d : Int) : Token := xTok w o tx v t.key true d
    let y (t : Token) (d : Int) : Token := yTok w o ty t.val t.key true d
    let fin := specTok w.xc o tx false true
    let silent : Emit := ⟨[], [], 0, [], false⟩
    let none_ : Emit := ⟨[], [], 0, [], true⟩
    let nulX : Emit := ⟨[specTok w.xc o tx true false], [], 0, [], false⟩
    let nulXY : Emit := ⟨[specTok w.xc o tx true false], [specTok w.yc o ty true false], 0, [], false⟩
    let matched : Prop := w.pm = 0 ∨ ∃ p, hp = some p ∧ p.fin = false ∧ pMatches w hp = true
    let unmatched : Prop := w.pm ≠ 0 ∧ ∃ p, hp = some p ∧ (p.fin = true ∨ pMatches w hp = false)
    let live : Prop := a.nul = false ∧ b.nul = false
    let right : Prop := b.fin = false ∧ (a.fin = true ∨ b.key.toNat < a.key.toNat)
    let left : Prop := a.fin = false ∧ (b.fin = true ∨ a.key.toNat < b.key.toNat)
    let same : Prop := a.fin = false ∧ b.fin = false ∧ a.key = b.key
    (matched ∨ unmatched → ∀ i, i = .union w ∨ i = .isect w ∨ i = .minus w →
      (a.nul = true → step i silent true false false) ∧ (a.nul = false → b.nul = true → step i silent false true false)) ∧
    (matched → live → right → FitsDif (one b) → step (.union w) ⟨[x b b.val (one b)], [], 0, [], true⟩ false true false) ∧
    (matched → live → right → step (.isect w) none_ false true false ∧ step (.minus w) none_ false true false) ∧
    (matched → live → left → FitsDif (one a) → step (.union w) ⟨[x a a.val (one a)], [], 0, [], true⟩ true false false ∧
      step (.minus w) ⟨[x a a.val (one a)], [], 0, [], true⟩ true false false) ∧
    (matched → live → left → step (.isect w) none_ true false false) ∧
    (matched → live → same →
      (w.fn.toNat % 8 = 0 → FitsDif (one a) → FitsDif (one b) →
        step (.union w) ⟨[x a a.val (one a), x b b.val (one b)], [], 0, [], true⟩ true true false) ∧
      (w.fn.toNat % 8 = 4 → FitsDif (one a) → step (.union w) ⟨[x a a.val (one a)], [], 0, [], true⟩ true true false) ∧
      (1 ≤ w.fn.toNat % 8 → w.fn.toNat % 8 ≤ 3 → (Instr.union w).wf = true → FitsDif two →
        ∃ v fl, FoldRule (w.fn.toNat % 8 - 1) w.ty.toNat a.val b.val v fl ∧
          let zero : Bool := v.toNat % 2 ^ (if w.ty.toNat < 8 then widthOf w.ty.toNat else (fmtAt w.ty.toNat).w - 1) == 0
          step (.union w) ⟨if w.fn.getLsbD 3 && zero then [] else [x a v two], [], fl, [], true⟩ true true false) ∧
      (FitsDif two → step (.isect w) ⟨[x a a.val two], [y b two], 0, [], true⟩ true true false) ∧ step (.minus w) none_ true true false) ∧
    (matched ∨ unmatched → live → a.fin = true → b.fin = true →
      step (.union w) ⟨[fin], [], 0, [], false⟩ true true true ∧
      step (.isect w) ⟨[fin], [specTok w.yc o ty false true], 0, [], false⟩ true true true ∧
      step (.minus w) ⟨[fin], [], 0, [], false⟩ true true true) ∧
    (unmatched → live → let go (ca cb : Bool) : Prop := step (.union w) nulX ca cb false ∧ step (.isect w) nulXY ca cb false ∧ step (.minus w) nulX ca cb false;
      (right → go false true) ∧ (left → go true false) ∧ (same → go true true)) ∧
    (w.pm ≠ 0 → hp = none → ∀ i, i = .union w ∨ i = .isect w ∨ i = .minus w → exec i s = .next s))

/-! ## Time -/

/-- O27. ENTER, FEED, LEAVE and TIMEV (R206, R222): ENTER passes each token with its time unchanged and ends a NUL on B; FEED raises the round
by one, LEAVE sets it to 0, both by the output's time action; TIMEV puts out the time word of the set's time. -/
def Obligations.LoopTimes : Prop :=
  ∀ (w : CW) (s : State) (fr : Firing) (tx : Time), Issues s fr → act w.xt fr.set.id.time = some tx →
    let o := fr.set
    (∀ u, o.a = some u ∨ (o.a = none ∧ o.b = some u ∧ u.nul = false) →
      let d : Int := if w.dm = 2 then -u.dif.toInt else if w.dm = 3 then 1 else u.dif.toInt
      let e : Emit := ⟨[⟨u.val, u.key, BitVec.ofInt 32 d, tx, o.id.seq, w.xc, u.nul, u.fin, u.kv⟩], [], 0, [], false⟩
      FitsDif d → hasRoom s fr.sl e = true → exec (.enter w) s = .next (fired s w fr e)) ∧
    (∀ u, o.a = none → o.b = some u → u.nul = true → exec (.enter w) s = .next (fired s w fr (noEmit false))) ∧
    (∀ i, i = .feed w ∨ i = .leave w → FitsDif (difOut w o) →
      let t := if isEnd o.a then specTok w.xc o tx false true else if !pMatches w o.p || isNul o.a then specTok w.xc o tx true false
        else xTok w o tx (valA w fr) (keyA w o) (kvA w o) (difOut w o)
      let e : Emit := ⟨[t], [], 0, [], false⟩
      hasRoom s fr.sl e = true → exec i s = .next (fired s w fr e)) ∧
    (∀ z ty, Executes s fr w false (fun _ => 0) z tx ty → FitsDif (difOut w z) →
      let e : Emit := ⟨[xTok w z tx (o.id.time.batch ++ o.id.time.round) (keyA w z) (kvA w z) (difOut w z)], [], 0, [], true⟩
      hasRoom s fr.sl e = true → exec (.timev w) s = .next (fired s w { fr with set := z } e)) ∧
    (∀ t : Time, (w.xt = 1 → act w.xt t = if t.round.toNat = 2 ^ 32 - 1 then none else some ⟨t.batch, t.round + 1⟩) ∧
      (w.xt = 2 → act w.xt t = some ⟨t.batch, 0⟩))

/-- O28. TSET (R209): A's token goes out at the time in B where the stage's capability allows it; an earlier time, or a stage that holds no
capability, parks the node with TIME_CAP. -/
def Obligations.TimesAreSet : Prop :=
  ∀ (w : CW) (s : State) (fr : Firing) (tx : Time), Issues s fr → (isNul fr.set.b || isEnd fr.set.b) = false →
    let v := valB w fr; let t : Time := ⟨v.extractLsb' 32 32, v.extractLsb' 0 32⟩; let cap := capOf s fr.node.lid fr.node.stage
    let o : OpSet := { fr.set with id := { fr.set.id with time := t } }
    (∀ c, cap = some c → tle c t = true → (isEnd fr.set.a || isNul fr.set.a) = false → pMatches w fr.set.p = true → act w.xt t = some tx →
      FitsDif (difOut w fr.set) →
      let e : Emit := ⟨[xTok w o tx (valA w fr) (keyA w fr.set) (kvA w fr.set) (difOut w fr.set)], [], 0, [], true⟩
      hasRoom s fr.sl e = true → exec (.tset w) s = .next (fired s w fr e)) ∧
    (cap = none ∨ (∃ c, cap = some c ∧ tle c t = false) →
      exec (.tset w) s = .next (parkSet (popIq s fr.sl) fr.sl fr.node fr.set Code.timeCap 0 (.core fr.sl.core)))

/-- O29. CAPA advances its stage's capability to the time in A where that is not earlier, CAPD drops it; each puts out the time as a unit
token and records the change of the counts with its firing; a NUL or an END on A changes nothing; the count table is sent after every such
firing (R208, R210, R213). -/
def Obligations.CapabilitiesChange : Prop :=
  (∀ (i : Instr) (w : CW) (s : State) (fr : Firing), i = .capa w ∨ i = .capd w → Issues s fr → (isEnd fr.set.a || isNul fr.set.a) = true →
    exec i s = .next (apply (popIq s fr.sl) w fr (noEmit false) (consumed fr.node fr.set) true)) ∧
  (∀ (s : State) (c : CoreId) (lid : Nat) (l : List CountItem), ctabOf (record s c lid l true) c = []) ∧
  ∀ (w : CW) (s : State) (fr : Firing) (tx : Time) (c : Time), Issues s fr → (isEnd fr.set.a || isNul fr.set.a) = false →
    capOf s fr.node.lid fr.node.stage = some c →
    let st := fr.node.stage
    let out (t : Time) (its : List CountItem) : Emit :=
      ⟨[xTok w { fr.set with id := { fr.set.id with time := t } } tx (t.batch ++ t.round) 0 false 1], [], 0, its, true⟩
    let done (t : Time) (its : List CountItem) (f : Launch → Launch) : State :=
      apply (modLaunch (popIq s fr.sl) fr.node.lid f) w fr (out t its) (consumed fr.node fr.set) true
    (let v := valA w fr; let t : Time := ⟨v.extractLsb' 32 32, v.extractLsb' 0 32⟩
     let its : List CountItem := [⟨st, c, -1⟩, ⟨st, t, 1⟩]
     tle c t = true → act w.xt t = some tx → hasRoom s fr.sl (out t its) = true →
       exec (.capa w) s = .next (done t its fun l => { l with caps := tset l.caps st t })) ∧
    (let v := valA w fr; let t : Time := ⟨v.extractLsb' 32 32, v.extractLsb' 0 32⟩
     tle c t = false → exec (.capa w) s = .next (parkSet (popIq s fr.sl) fr.sl fr.node fr.set Code.timeCap 0 (.core fr.sl.core))) ∧
    (act w.xt c = some tx → hasRoom s fr.sl (out c [⟨st, c, -1⟩]) = true →
       exec (.capd w) s = .next (done c [⟨st, c, -1⟩] fun l => { l with caps := tdel l.caps st }))

/-- O30. PROBE and FRONT (R220, R221): where no token of its time is held, a token whose time the frontier has passed leaves at once, its CTX
alone changed; another is held in an entry of the matching store. A FRONT query goes to the wafer tracker and waits for its answer behind a
reserved buffer. That both the probe's registers and the tracker must have passed a time, and that each held token has an entry of its own, is
the model's reading (log 34, 116). -/
def Obligations.ProbesAndQueries : Prop :=
  ∀ (w : CW) (s : State) (fr : Firing), Issues s fr →
    (∀ a, fr.set.a = some a → heldToks s fr.sl a.time = [] → probePassed s w fr a.time = true →
      roomFor s ⟨fr.sl.core, fr.sl.e, 4⟩ 1 = true →
      exec (.probe w) s = .next (fired (dropClaim s fr.sl fr.set.id) w fr ⟨[{ a with ctx := w.xc }], [], 0, [], true⟩)) ∧
    (∀ a s2, fr.set.a = some a → heldToks s fr.sl a.time ≠ [] ∨ probePassed s w fr a.time = false →
      holdTok s fr.sl fr.set.id a = some s2 → ∃ t, exec (.probe w) s = .next t ∧ t = noteIssue (popIq s2 fr.sl) fr ∧
      tget t.lastF fr.sl.core = some (ctr s (.core fr.sl.core)) ∧
      ∃ m ∈ mstoreOf t fr.sl.core, m.kind = .held a ∧ m.e = fr.sl.e ∧ m.id = fr.set.id) ∧
    (let mine := isClaimOf fr.sl.e fr.set.id
     (∀ x ∈ mstoreOf s fr.sl.core, mine x = false) → dropClaim s fr.sl fr.set.id = s) ∧
    (∀ x, x ∉ mstoreOf s fr.sl.core → x ∉ mstoreOf (dropClaim s fr.sl fr.set.id) fr.sl.core) ∧
    (∀ z, judge w false (fun _ => 0) fr.set = .go z → roomFor s ⟨fr.sl.core, fr.sl.e, 4⟩ 1 = true → ∃ t, exec (.front w) s = .next t ∧
      iqOf t fr.sl.core fr.sl.e = (iqOf s fr.sl.core fr.sl.e).tail ∧ t.x.frontQ = s.x.frontQ ++ [(fr.sl, { z with port := s.serial })] ∧
      ∃ p ∈ t.net, p.to_ = .wtrk ∧ p.cls = 0 ∧ p.msg = .ask fr.sl fr.node.ctx fr.node.lid s.serial (w.imm.toNat % 64))

/-! ## Requests -/

/-- O31. The instructions that send a request (R116, R187, R189, R230, R259, R276, R287, R295, R342, R384): a set that executes, with room for
what it will drive and an address that passes every check, leaves the queue, writes the hold register under HD, and a packet carries the
request to its home, to its streamer island or to its matrix island; no write that a release counts is still out. -/
def Obligations.RequestsAreSent : Prop :=
  ∀ (i : Instr) (op : Op) (w : CW) (s : State) (fr : Firing) (o : OpSet) (l : List Token × List Token) (q : PortReq), Issues s fr →
    ((portOp i = some (op, w) ∧ judge w true (fun _ => 0) fr.set = .go o) ∨
     (histOp i = some (op, w) ∧ (isNul fr.set.a || isEnd fr.set.a) = false ∧ o = fr.set)) →
    let fr' := { fr with set := o }
    portRoom s fr.sl op = true → ansToks (mkReq s op w fr') ⟨0, false, 0, none, none, none, 0⟩ = .ok l →
    resolve s (mkReq s op w fr') = .go q → releaseWaits s q = [] → ∃ t, exec i s = .next t ∧ Sent s t w fr' q

/-- O32. A request that its port refuses parks its set with the check's code before anything leaves (R125, R187): an address at or above 2^56
is XLAT, one that its operator's width does not divide ALIGN, whatever else is wrong. -/
def Obligations.PortsRefuse : Prop :=
  (∀ (i : Instr) (op : Op) (w : CW) (s : State) (fr : Firing) (o : OpSet) (l : List Token × List Token) (code : Nat), Issues s fr →
    ((portOp i = some (op, w) ∧ judge w true (fun _ => 0) fr.set = .go o) ∨
     (histOp i = some (op, w) ∧ (isNul fr.set.a || isEnd fr.set.a) = false ∧ o = fr.set)) →
    let fr' := { fr with set := o }
    portRoom s fr.sl op = true → ansToks (mkReq s op w fr') ⟨0, false, 0, none, none, none, 0⟩ = .ok l →
    resolve s (mkReq s op w fr') = .bad code → catchFor s fr.node.lid fr.sl code = none →
    exec i s = .next (parkSet (popIq s fr.sl) fr.sl fr.node o code (faultAddr (mkReq s op w fr') code) (.core fr.sl.core))) ∧
  (∀ (s : State) (r : PortReq), noAddr r.op = false →
    (2 ^ 56 ≤ r.va → resolve s r = .bad Code.xlat) ∧
    (r.va < 2 ^ 56 → r.va % opWidth r.op r.w.ty.toNat ≠ 0 → resolve s r = .bad Code.align))

/-- O33. SHARE binds a region to an object in its core's share table, once, and puts A out on Y as a done token; with a length of 0 it removes
the binding; a seventeenth binding parks the node with SHARE_FULL, and a region not on 64-byte bounds with ALIGN (R296). -/
def Obligations.SharesAreBound : Prop :=
  ∀ (i : Instr) (w : CW) (s : State) (fr : Firing) (o : OpSet) (tx ty : Time), i = .share w ∨ i = .shareRemove w →
    Executes s fr w true (fun _ => 0) o tx ty → FitsDif (difOut w o) →
    let fr' := { fr with set := o }
    let base := (addrA w fr').toNat; let len := (keyA w o).toNat; let obj := (opVal w fr' w.sb o.b true).toNat
    let l := sharesOf s fr.sl.core
    let e : Emit := ⟨[], [yTok w o ty (addrA w fr') (keyA w o) (kvA w o) (difOut w o)], 0, [], true⟩
    let new : Share := ⟨fr.node.ctx, fr.node.lid, base, len, obj⟩
    let listed : Bool := l.any fun x => x.ctx == fr.node.ctx && x.base == base && x.len == len && x.obj == obj
    hasRoom s fr.sl e = true →
    (kvA w o = true → base % 64 = 0 → len % 64 = 0 →
      (let rest := l.filter fun x => !(x.ctx == fr.node.ctx && x.base == base && x.obj == obj)
       len = 0 → exec i s = .next (fired { s with shares := tset s.shares fr.sl.core rest } w fr' e)) ∧
      (len ≠ 0 → listed = false → l.length < 16 →
        exec i s = .next (fired { s with shares := tset s.shares fr.sl.core (l ++ [new]) } w fr' e)) ∧
      (len ≠ 0 → listed = true → exec i s = .next (fired s w fr' e)) ∧
      (len ≠ 0 → listed = false → 16 ≤ l.length →
        exec i s = .next (parkSet (popIq s fr.sl) fr.sl fr.node o Code.shareFull base (.core fr.sl.core)))) ∧
    (kvA w o = false ∨ base % 64 ≠ 0 ∨ len % 64 ≠ 0 →
      exec i s = .next (parkSet (popIq s fr.sl) fr.sl fr.node o Code.align base (.core fr.sl.core)))

/-! ## Kernel graphs -/

/-- O34. Scalar words (R85): S[D] takes the value of the rule from S[A] and the second operand, the graph goes on at its next word, and
nothing else changes; SFADD's flags are ORed into the launch's flag word of the field (R143). -/
def Obligations.ScalarWords : Prop :=
  (∀ (i : Instr) (w : SW) (op : W64 → W64 → W64) (s : State) (f : Nat) (g : Graph), scalarRule i = some (w, op) → curGraph s = some (f, g) →
    let b := if w.imm.getLsbD 43 then (w.imm.extractLsb' 0 43).signExtend 64 else g.reg w.b;
    ∃ t, exec i s = .next t ∧
      OnlyGraph s t f { g with regs := setAt g.regs w.d.toNat (op (g.reg w.a) b), pc := g.pc + 1, wait := none }) ∧
  (∀ (w : SW) (s : State) (f : Nat) (g : Graph), curGraph s = some (f, g) → let r := sfaddOf w g;
    ∃ t, exec (.sfadd w) s = .next t ∧
      OnlyGraph (if g.sup then s else orWord s g.lid f r.2) t f
        { g with regs := setAt g.regs w.d.toNat (BitVec.ofNat 64 r.1), pc := g.pc + 1, wait := none } ∧
      (g.sup = false → tgetD t.x.flagw (g.lid, f) 0 = tgetD s.x.flagw (g.lid, f) 0 ||| r.2))

/-- O35. Branches, calls and ends (R86, R96, R99): where the graph goes, and that nothing else changes; a return outside the graph is
CFG_FIELD; SYIELD and the 64th word in a row end the graph's turn. -/
def Obligations.BranchesAndEnds : Prop :=
  (∀ (i : Instr) (s : State) (f n : Nat) (g : Graph), curGraph s = some (f, g) → branchRule i g = some n →
    ∃ t, exec i s = .next t ∧ OnlyGraph s t f { g with pc := n }) ∧
  (∀ (w : SW) (s : State) (f : Nat) (g : Graph), curGraph s = some (f, g) →
    (∃ t, exec (.scall w) s = .next t ∧
      OnlyGraph s t f { g with regs := setAt g.regs w.d.toNat (BitVec.ofNat 64 (g.pc + 1)), pc := w.imm.toNat }) ∧
    (g.words.length ≤ (g.reg w.a).toNat → exec (.sret w) s = .next (graphFault s f g Code.cfgField 0)) ∧
    (∃ t, exec (.syield w) s = .next t ∧ OnlyGraph s t f { g with pc := g.pc + 1, wait := none } ∧
      (g.sup = false → (seqrOf t f).run = 0)) ∧
    (∃ t, exec (.shalt w) s = .next t ∧ OnlyGraph s t f { g with ended := true })) ∧
  (∀ (s : State) (f : Nat), 64 ≤ (seqrOf s f).run → ∃ t, exec (.graphQuantum f) s = .next t ∧ (seqrOf t f).run = 0 ∧
    t = { s with seqrs := t.seqrs } ∧ ∀ h, h ≠ f → seqrOf t h = seqrOf s h)

/-- O36. What a fault of a word does (R97, R401): it parks the graph at the word with a record of it, or, a configuration fault of a user graph,
aborts the launch; an address that a word's width does not divide is ALIGN. -/
def Obligations.GraphFaults : Prop :=
  (∀ (s : State) (f p code addr : Nat) (g : Graph), curGraph s = some (f, g) → partOfField s f = some p →
    g.sup = true ∨ cfgCode code = false → let t := graphFault s f g code addr;
    curGraph t = some (f, { g with park := some s.serial, wait := none }) ∧ t.mem = s.mem ∧
    ∃ r ∈ t.recQ, r.rid = s.serial ∧ r.part = p ∧ r.unit = .seqr f ∧ r.code = code ∧ r.kind = 0 ∧ r.cls = 0 ∧ r.lid = g.lid ∧
      r.addr = addr ∧ r.act = if g.sup then .none_ else .graph f g.lid) ∧
  (∀ (s : State) (f code addr : Nat) (g : Graph), g.sup = false → cfgCode code = true →
    graphFault s f g code addr =
      retire (reportFault s { recBase (.seqr f) code 0 2 g.ctx f g.lid with addr := addr }).2 g.lid code) ∧
  (∀ (w : SW) (s : State) (f : Nat) (g : Graph), curGraph s = some (f, g) →
    let at_ (i : Instr) (va n : Nat) : Prop := va % n ≠ 0 → exec i s = .next (graphFault s f g Code.align va);
    at_ (.sld w) (g.reg w.a + w.imm.signExtend 64).toNat 8 ∧ at_ (.sst w) (g.reg w.a + w.imm.signExtend 64).toNat 8 ∧
    at_ (.wstamp w) (g.reg w.a).toNat 8 ∧ at_ (.cfg w) (g.reg w.a).toNat 64 ∧ at_ (.launch w) (g.reg w.a).toNat 64 ∧
    at_ (.sqpost w) (g.reg w.a).toNat 64)

/-- O37. SLD and SST (R87, R336, R399): a user graph reads or writes 8 bytes at a virtual address, the supervisor a register or 8 bytes at a
physical one; an access to another wafer is first sent and timed; one of a history that an operation is changing waits (R228); the graph waits
for the answer, and goes on at its next word when it has come. The far access in two steps is the model's (log 9). -/
def Obligations.GraphsLoadAndStore : Prop :=
  (∀ (w : SW) (s : State) (f : Nat) (g : Graph), curGraph s = some (f, g) → let va := (g.reg w.a + w.imm.signExtend 64).toNat;
    va % 8 = 0 →
    (g.sup = false →
      (let to_ := farWafer s g.ctx va (true, false); let u := farGot s (.seqr f) g.tag to_;
        (farNew s (.seqr f) g.tag to_ = true →
          exec (.sld w) s = .next (putGraph (farSend s (.seqr f) g.tag g.lid (to_.getD 0)) { g with wait := some (.load w.d va) })) ∧
        (farNew s (.seqr f) g.tag to_ = false → histHolds u g.ctx va (true, false) = true →
          exec (.sld w) s = .next (putGraph u { g with wait := some (.load w.d va) })) ∧
        (farNew s (.seqr f) g.tag to_ = false → histHolds u g.ctx va (true, false) = false →
          (∀ s1 v, seqRead u g va = .ok (s1, v) →
            exec (.sld w) s = .next (putGraph s1 { g with regs := setAt g.regs w.d.toNat v, wait := some .access })) ∧
          (∀ c, seqRead u g va = .error c → exec (.sld w) s = .next (graphFault u f g c va)))) ∧
      (let to_ := farWafer s g.ctx va (false, true); let u := farGot s (.seqr f) g.tag to_;
        (farNew s (.seqr f) g.tag to_ = true →
          exec (.sst w) s = .next (putGraph (farSend s (.seqr f) g.tag g.lid (to_.getD 0)) { g with wait := some (.store va (g.reg w.d)) })) ∧
        (farNew s (.seqr f) g.tag to_ = false → histHolds u g.ctx va (false, true) = true →
          exec (.sst w) s = .next (putGraph u { g with wait := some (.store va (g.reg w.d)) })) ∧
        (farNew s (.seqr f) g.tag to_ = false → histHolds u g.ctx va (false, true) = false →
          (∀ s1, writeAt u g.ctx g.lid va (leBytes 8 (g.reg w.d).toNat) = .ok s1 →
            exec (.sst w) s = .next (putGraph s1 { g with wait := some .access })) ∧
          (∀ c, writeAt u g.ctx g.lid va (leBytes 8 (g.reg w.d).toNat) = .error c →
            exec (.sst w) s = .next (graphFault u f g c va))))) ∧
    (g.sup = true →
      (supAt s va = .away → let to_ := some (paWafer va); let u := farGot s (.seqr f) g.tag to_;
        (farNew s (.seqr f) g.tag to_ = true →
          exec (.sld w) s = .next (putGraph (farSend s (.seqr f) g.tag g.lid (paWafer va)) { g with wait := some (.load w.d va) }) ∧
          exec (.sst w) s = .next (putGraph (farSend s (.seqr f) g.tag g.lid (paWafer va)) { g with wait := some (.store va (g.reg w.d)) })) ∧
        (farNew s (.seqr f) g.tag to_ = false → u.dead.getLsbD (paWafer va) = false →
          exec (.sst w) s = .next (putGraph u { g with wait := some .access })) ∧
        (farNew s (.seqr f) g.tag to_ = false → u.dead.getLsbD (paWafer va) = true →
          exec (.sld w) s = .next (graphFault u f g Code.peerDead va) ∧ exec (.sst w) s = .next (graphFault u f g Code.peerDead va))) ∧
      (∀ r, supAt s va = .reg r →
        exec (.sld w) s = .next (putGraph s { g with regs := setAt g.regs w.d.toNat (regVal s r), wait := some .access }) ∧
        ∃ t, exec (.sst w) s = .next t ∧ t.regw = s.regw ++ [⟨s.serial, va, g.reg w.d⟩] ∧
          curGraph t = some (f, { g with wait := some (.regw s.serial) })) ∧
      (∀ t, supAt s va = .mem t → supHolds s va = true →
        exec (.sld w) s = .next (putGraph s { g with wait := some (.load w.d va) }) ∧
        exec (.sst w) s = .next (putGraph s { g with wait := some (.store va (g.reg w.d)) })) ∧
      (∀ t s1 b, supAt s va = .mem t → supHolds s va = false → supRead s va 8 t = .ok (s1, b) →
        exec (.sld w) s = .next (putGraph s1 { g with regs := setAt g.regs w.d.toNat (BitVec.ofNat 64 (leNat b)), wait := some .access })) ∧
      (∀ t s1, supAt s va = .mem t → supHolds s va = false → supPut s va (leBytes 8 (g.reg w.d).toNat) t = .ok s1 →
        exec (.sst w) s = .next (putGraph s1 { g with wait := some .access })) ∧
      (supAt s va = .none_ →
        exec (.sld w) s = .next (putGraph (supMiss s f g va)
          { g with regs := setAt g.regs w.d.toNat (BitVec.allOnes 64), pc := g.pc + 1, wait := none }) ∧
        exec (.sst w) s = .next (putGraph (supMiss s f g va) { g with pc := g.pc + 1, wait := none })))) ∧
  (∀ (s s1 : State) (ctx lid va pa st o : Nat) (v : W64), MemOk s → translate s ctx va (false, true) = .ok (pa, false) → paWafer pa = s.wafno →
    decodePA s pa = some (.hbm st o) → keySerial s ctx = some (tgetD s.xts (pa / 64) 0) → pa % 8 = 0 → tgetD s.xts (pa / 64) 0 ≠ 0 →
    waitingAway s (homeUnit s pa) = [] → writeAt s ctx lid va (leBytes 8 v.toNat) = .ok s1 →
    leNat (cellsRead s1.mem pa 8) = v.toNat ∧ ∀ a, a < pa ∨ pa + 8 ≤ a → cellGet s1.mem a = cellGet s.mem a) ∧
  (∀ (s : State) (f n : Nat) (g : Graph), (graphsOf s f)[n]? = some g → g.wait = some .access → mayResume s f g = true →
    ∃ t, exec (.graphResume f n) s = .next t ∧ t.mem = s.mem ∧ t.focus = s.focus ∧
      (graphsOf t f)[n]? = some { g with pc := g.pc + 1, wait := none })

/-- O38. The words that wait (R69, R88 to R90, R93 to R95): each acts at once where its condition holds, and otherwise waits, to be looked at
again until it does; ARMS faults on a section without a source in its field, and on a count of 2^24 or more. That ARMS counts at the tracker with
its word is log 58, tokens under a changed circuit log 106, accesses to other wafers in two steps log 9, and that the other wafers of the launch
hear of an arming log 113. -/
def Obligations.WordsThatWait : Prop :=
  (∀ (w : SW) (s : State) (f : Nat) (g : Graph), curGraph s = some (f, g) →
    let go (u : State) : State := putGraph u { g with pc := g.pc + 1, wait := none };
    let waits (i : Instr) (v : Wait) : Prop := exec i s = .next (putGraph s { g with wait := some v });
    let k := w.imm.toNat % 256; let n := (g.reg w.d).toNat; let va := (g.reg w.a).toNat; let tm := timeOf (g.reg w.a);
    (∀ l z, launch? s g.lid = some l → tget l.secs k = some z → z.field = f → z.srcs ≠ [] → n < 2 ^ 24 →
      (z.armed ≠ z.completed → waits (.arms w) (.arms k n)) ∧
      (z.armed = z.completed → n ≠ 0 → let y : Sect := { z with armed := z.armed + 1, cur := some n, emitted := [] };
        let its := armItems s { z with armed := z.armed + 1 };
        exec (.arms w) s = .next (go (tellSect (tellTrackers
          (modLaunch s g.lid fun l => { l with secs := tset l.secs k y, counts := addItems l.counts its }) g.lid its) g.lid l k
          { z with armed := z.armed + 1 }))) ∧
      (z.armed = z.completed → n = 0 →
        exec (.arms w) s = .next (go (endArming s g.lid l k { z with armed := z.armed + 1 })))) ∧
    (∀ l z, launch? s g.lid = some l → tget l.secs k = some z → z.field ≠ f ∨ z.srcs = [] ∨ 2 ^ 24 ≤ n →
      exec (.arms w) s = .next (graphFault s f g Code.launchRange 0)) ∧
    (((launch? s g.lid).bind fun l => tget l.secs k) = none → exec (.arms w) s = .next (graphFault s f g Code.launchRange 0)) ∧
    (sectIdle s g.lid k = true → exec (.waits w) s = .next (go s)) ∧
    (sectIdle s g.lid k = false → waits (.waits w) (.waits k)) ∧
    (∀ pa cmp, va % 8 = 0 → translate s g.ctx va (true, false) = .ok (pa, cmp) → let to_ := paAway s pa; let v := Wait.wstamp va pa cmp (g.reg w.b);
      (farNew s (.seqr f) g.tag to_ = true →
        exec (.wstamp w) s = .next (putGraph (farSend s (.seqr f) g.tag g.lid (to_.getD 0)) { g with wait := some v })) ∧
      (∀ s1 b, let t := farGot s (.seqr f) g.tag to_;
        farNew s (.seqr f) g.tag to_ = false → pieceRead t g.ctx g.lid pa 8 cmp = .ok (s1, b) →
        ((g.reg w.b).toNat ≤ leNat b → exec (.wstamp w) s = .next (go s1)) ∧
        (leNat b < (g.reg w.b).toNat → exec (.wstamp w) s = .next (putGraph t { g with wait := some v })))) ∧
    (∀ l m, let j := w.imm.toNat; let sl : Slot := ⟨⟨f, bits j 17 13, bits j 12 8⟩, bits j 7 3, bits j 2 0⟩;
      launch? s g.lid = some l → node? s sl = some m → m.lid = g.lid → opOf m.word = 0x75 →
      let fr := (frontierRegs l (m.word.toNat % 64)).elems;
      ((∀ u ∈ fr, tle u tm = false) → exec (.fwait w) s = .next (go s)) ∧
      ((∃ u ∈ fr, tle u tm = true) → waits (.fwait w) (.fwait sl tm))) ∧
    (∀ l, va % 64 = 0 → launch? s g.lid = some l →
      (fieldQuiet l f = false → waits (.cfg w) (.cfg va)) ∧
      (fieldQuiet l f = true → let to_ := farWafer s g.ctx va (true, false);
        (farNew s (.seqr f) g.tag to_ = true →
          exec (.cfg w) s = .next (putGraph (farSend s (.seqr f) g.tag g.lid (to_.getD 0)) { g with wait := some (.cfg va) })) ∧
        (farNew s (.seqr f) g.tag to_ = false →
          exec (.cfg w) s = .next (cfgApply (farGot s (.seqr f) g.tag to_) f g va)))) ∧
    (let c : CoreId := ⟨f, bits va 9 5, bits va 4 0⟩; let e := w.imm.toNat % 256; let r : W32 := (g.reg w.b).extractLsb' 0 32;
      let old := tgetD (tgetD s.x.routes c []) e 0; let free := linesEmpty s c (linesOf old ++ linesOf r);
      va < 1024 → isCompute c = true → (s.x.nodes.any fun q => q.1.core == c && q.2.lid == g.lid) = true →
      (free = false → waits (.recfg w) (.recfg c e r)) ∧
      (free = true → recfgBad s g.lid c r (routesOf (withEntry s c e r) c) = none →
        exec (.recfg w) s = .next (go (rerouteAll s (withEntry s c e r)))) ∧
      (∀ code, free = true → recfgBad s g.lid c r (routesOf (withEntry s c e r) c) = some code →
        exec (.recfg w) s = .next (graphFault s f g code 0)))) ∧
  (∀ (s : State) (f n : Nat) (g : Graph) (v : Wait), (graphsOf s f)[n]? = some g → g.wait = some v → mayResume s f g = true →
    (∀ u, resumeUser { s with focus := .seq f (some n) } f g v = some u →
      exec (.graphResume f n) s = .next { u with focus := s.focus }) ∧
    (resumeUser { s with focus := .seq f (some n) } f g v = none → exec (.graphResume f n) s = .next s))

/-- O39. SQPOST, LAUNCH and the flag words (R73, R91, R92, R96, R336): SQPOST claims its index when it issues, waits while the ring has no room,
and else writes the body and last the lap stamp; LAUNCH begins a child launch from the packet that its operand names; an access of either to
another wafer is first sent and timed; SFLAGS reads the launch's flag word of this field; SFLAGS_ALL asks every field and wafer of the launch over
class 0, each answers with its word as it stands, and the word goes on with the OR of them when every answer has come. The far access in two steps
and the free values of another wafer are log 9; a child that must wait stands in the launch table (log 71). -/
def Obligations.GraphsPostAndLaunch : Prop :=
  ∀ (w : SW) (s : State) (f : Nat) (g : Graph), curGraph s = some (f, g) → let a := (g.reg w.a).toNat; let d := (g.reg w.b).toNat;
    (a % 64 = 0 → d % 64 = 0 → ∀ q, translate s g.ctx a (true, false) = .ok q → let to_ := farWafer s g.ctx d (true, true);
      (farNew s (.seqr f) g.tag to_ = true →
        exec (.sqpost w) s = .next (putGraph (farSend s (.seqr f) g.tag g.lid (to_.getD 0)) { g with wait := some (.sqpost a d none) })) ∧
      (farNew s (.seqr f) g.tag to_ = false →
        exec (.sqpost w) s = .next (claimPost (farGot s (.seqr f) g.tag to_) f g a d)) ∧
      (∀ pa cmp s1 b1 s2 s3 c, to_ = none → translate s g.ctx (d + 16) (true, true) = .ok (pa, cmp) →
        pieceRead (walkFix s g.ctx (d + 16)) g.ctx g.lid pa 8 cmp = .ok (s1, b1) → pieceWrite s1 g.ctx g.lid pa (leBytes 8 (leNat b1 + 1)) cmp = .ok s2 →
        farWafer s2 g.ctx d (true, true) = none → readAt s2 g.ctx g.lid d 64 = .ok (s3, c) →
        let j : W64 := BitVec.ofNat 64 (leNat b1); let n := leAt c 8 4 / 64; let used := (j.toNat + 2 ^ 64 - leAt c 24 8) % 2 ^ 64;
        let slot := leAt c 0 8 + 64 * (j.toNat % n);
        (n = 0 ∨ n ≤ used → exec (.sqpost w) s = .next (putGraph s2 { g with wait := some (.sqpost a d (some j)) })) ∧
        (∀ s4 b s5 s6, n ≠ 0 → used < n → readAt s3 g.ctx g.lid a 56 = .ok (s4, b) → writeAt s4 g.ctx g.lid slot b = .ok s5 →
          writeAt s5 g.ctx g.lid (slot + 56) (leBytes 8 (j.toNat / n + 1)) = .ok s6 →
          exec (.sqpost w) s = .next (putGraph s6 { g with wait := some .access })))) ∧
    (a % 64 = 0 → let to_ := farWafer s g.ctx a (true, false);
      (farNew s (.seqr f) g.tag to_ = true →
        exec (.launch w) s = .next (putGraph (farSend s (.seqr f) g.tag g.lid (to_.getD 0)) { g with wait := some (.launch a) })) ∧
      (∀ s1 b, farNew s (.seqr f) g.tag to_ = false → readAt (farGot s (.seqr f) g.tag to_) g.ctx g.lid a 64 = .ok (s1, b) →
        leAt b 0 1 = 1 → leAt b 1 1 < 2 → launchBodyOk b = true →
        let l := { Launch.start ((partOfCtx s1 g.ctx).getD 0) g.ctx f none g.prio 0 (leAt b 8 8) (leAt b 16 8) (leAt b 24 8) with
          root := if g.sup then none else some (rootOf s1 g.lid) };
        ∃ u, beginLaunch s1 l g.lid true = some u ∧ exec (.launch w) s = .next (putGraph u { g with pc := g.pc + 1, wait := none }))) ∧
    (∃ t, exec (.sflags w) s = .next t ∧ OnlyGraph s t f
      { g with regs := setAt g.regs w.d.toNat ((tgetD s.x.flagw (g.lid, f) 0).setWidth 64), pc := g.pc + 1, wait := none }) ∧
    (∃ t, exec (.sflagsAll w) s = .next t ∧ t.mem = s.mem ∧
      curGraph t = some (f, { g with wait := some (.flagsAll w.d.toNat s.serial (flagPlaces s g.lid) 0) }) ∧
      ∀ q ∈ flagPlaces s g.lid, s.dead.getLsbD (q / 64) = false →
        ∃ p ∈ t.net, p.cls = 0 ∧ p.dstW = q / 64 ∧ p.to_ = .seqr (q % 64) ∧ p.msg = .flagAsk g.lid g.ctx f q s.serial) ∧
    (∀ p lid ctx h q id, p.msg = .flagAsk lid ctx h q id → arrived s p = true →
      flagStep s p = sendPkt (dropPkt s p.id) (.seqr (q % 64)) 0 (.seqr h) p.srcW 0
        (.flagTold lid ctx h q id (tgetD (execOf s ctx).flagw (lid, q % 64) 0))) ∧
    (∀ p lid ctx h q id v (n : Nat) (k : Graph) j left acc, p.msg = .flagTold lid ctx h q id v → arrived s p = true → InPlace s ctx → s.swapped = none →
      (graphsOf s h)[n]? = some k → k.wait = some (.flagsAll j id left acc) → k.lid = lid → q ∈ left →
      (graphsOf (flagStep s p) h)[n]? = some { k with wait := some (.flagsAll j id (left.erase q) (acc ||| v)) }) ∧
    (∀ k acc, ∃ t, stepFlags s f g k [] acc = some t ∧ OnlyGraph s t f
      { g with regs := setAt g.regs (BitVec.ofNat 4 k).toNat (acc.setWidth 64), pc := g.pc + 1, wait := none }) ∧
    (∀ k q l acc, (∀ x ∈ q :: l, s.dead.getLsbD (x / 64) = false) → stepFlags s f g k (q :: l) acc = none) ∧
    (∀ k l acc, (∃ x ∈ l, s.dead.getLsbD (x / 64) = true) → stepFlags s f g k l acc = some (graphFault s f g Code.peerDead 0))

/-- O40. Service calls (R400): SVC hands a record of KIND 1 with IMM[15:0] to its sequencer and waits; ERET lets the first call that FREC has
taken go on at its next word, with the supervisor's S1 in its S1. -/
def Obligations.ServiceCalls : Prop :=
  (∀ (w : SW) (s : State) (f p : Nat) (g : Graph), curGraph s = some (f, g) → partOfField s f = some p → ∃ t, exec (.svc w) s = .next t ∧
    curGraph t = some (f, { g with wait := some .svc }) ∧ t.svcs = s.svcs ++ [⟨s.serial, none, false, f, g.lid⟩] ∧ t.mem = s.mem ∧
    ∃ r ∈ t.recQ, r.rid = s.serial ∧ r.part = p ∧ r.kind = 1 ∧ r.code = 0 ∧ r.lid = g.lid ∧ r.ctx = g.ctx ∧
      r.aux = BitVec.ofNat 64 (w.imm.toNat % 65536)) ∧
  (∀ (w : SW) (s : State) (f : Nat) (g : Graph), curGraph s = some (f, g) → let u := putGraph s { g with pc := g.pc + 1, wait := none };
    let mine (v : Svc) : Bool := v.taken && partOfField u v.f == partOfField u f;
    (first? mine u.svcs = none → exec (.eret w) s = .next u) ∧
    (∀ v, first? mine u.svcs = some v →
      exec (.eret w) s = .next (answerSvc { u with svcs := dropFirst (fun x => x.rid == v.rid) u.svcs } v (g.reg 1)))) ∧
  (∀ (s : State) (v : Svc) (s1 : W64) (l : Launch) (n : Nat) (g : Graph), launch? s v.lid = some l → InPlace s l.ctx →
    (graphsOf s v.f)[n]? = some g → g.lid = v.lid → g.wait = some .svc →
    (graphsOf (answerSvc s v s1) v.f)[n]? =
      some { g with regs := setAt g.regs 1 s1, pc := g.pc + 1, wait := none, since := ctr s (.seqr v.f) })

/-! ## The supervisor -/

/-- O41. FREC, FREPLAY and FABORT (R401, R417): FREC takes the record at RIDX once its lap stamp stands there, and else waits; FREPLAY and FABORT
of a record that is not open answer 1 and do nothing; a parked node's record that FREPLAY names is resolved and its set returned, or, while its
context is saved out, once that is back. FREC takes the record also where its copy meets a fault (log 81). -/
def Obligations.RecordsAreTaken : Prop :=
  ∀ (w : SW) (s : State) (f : Nat) (g : Graph), curGraph s = some (f, g) → let q := supr s f; let p := ownPart s f; let j := g.reg w.a;
    let done (u : State) (v : W64) : State := putGraph u { g with regs := setAt g.regs w.d.toNat v, pc := g.pc + 1, wait := none };
    (∀ s1 b, homeRead s none (q.slot q.frrd) 64 false = .ok (s1, b) →
      (leAt b 56 8 ≠ q.lap q.frrd → exec (.frec w) s = .next (putGraph s { g with wait := some (.frec w.d.toNat w.a.toNat) })) ∧
      (leAt b 56 8 = q.lap q.frrd → let u := frecCopy s1 f g (j.toNat / 64 * 64) b;
        exec (.frec w) s = .next (done (takeSvc { u with supr := tset u.supr f { q with frrd := q.frrd + 1 } } (ownPart u f) q.frrd) q.frrd))) ∧
    (openRec s p j = none → exec (.freplay w) s = .next (done s 1) ∧ exec (.fabortRecord w) s = .next (done s 1)) ∧
    (∀ r, openRec s p j = some r → r.act = .none_ → exec (.freplay w) s = .next (done s 1)) ∧
    (∀ r, openRec s p j = some r →
      exec (.fabortRecord w) s = .next (done (onCopy (markResolved s p j r) r.ctx fun u => if stillParked u r then endFault u r else u) 0)) ∧
    (∀ r sl, openRec s p j = some r → r.act = .node sl → InPlace s r.ctx →
      (parkedOf s sl).any (fun x => x.rec_ == r.rid) = true →
      exec (.freplay w) s = .next (done (replaySet (markResolved s p j r) sl r.rid) 0)) ∧
    (∀ r v, openRec s p j = some r → r.again = true → ctxAway s r.ctx = true → let u := markResolved s p j r; tget u.saved r.ctx = some v →
      exec (.freplay w) s = .next (done { u with saved := tset u.saved r.ctx { v with replays := v.replays ++ [r] } } 0)) ∧
    (let lid := j.toNat % 4096;
      (liveLaunch s p lid = true → exec (.fabortLaunch w) s = .next (done (retire s lid ((g.reg w.b).toNat % 256)) 0)) ∧
      (liveLaunch s p lid = false → exec (.fabortLaunch w) s = .next (done s 1)))

/-- O42. Pre-emption (R410, R411, R416, R417): QUIESCE stops a context's queues and answers the number of its launches once each is held up; CSWAP
asks for the exchange, in which the live and the shadow state of the partition's fields trade places; CSAVE and CLOAD move the shadow out and
in, CSAVE overwriting its save areas and no other byte of memory. The areas' bytes are log 22, that CSAVE and CLOAD answer once
they have been judged log 23, CLOAD's PROT cases log 24, when QUIESCE answers log 92, that STEP shows 2 when the waiting word finds the partition
halted log 96, and that the counts of .AON tiles go with their scratchpads and SRAMs log 132. -/
def Obligations.ContextsAreExchanged : Prop :=
  (∀ (w : SW) (s : State) (f : Nat) (g : Graph), curGraph s = some (f, g) → let p := ownPart s f; let t := ctxStat s p;
    let done (u : State) (v : Nat) : State :=
      putGraph u { g with regs := setAt g.regs w.d.toNat (BitVec.ofNat 64 v), pc := g.pc + 1, wait := none }
    let c := w.imm.toNat % 512;
    (let u := { s with queues := s.queues.map fun q => (q.1, if q.2.ctx = c then { q.2 with quiet := true } else q.2) };
      let l := s.launches.filter fun q => q.2.ctx == c;
      ((∀ q ∈ l, heldUp u q.1 = true) → exec (.quiesce w) s = .next (done u l.length)) ∧
      ((∃ q ∈ l, heldUp u q.1 = false) → exec (.quiesce w) s = .next (putGraph u { g with wait := some (.quiesce w.d.toNat c) }))) ∧
    (t.step = 0 → exec (.cswap w) s = .next (putGraph { s with ctxs := tset s.ctxs p { t with step := 1 } }
      { g with regs := setAt g.regs w.d.toNat 0, wait := some (.ctxop w.d.toNat) })) ∧
    (t.step ≠ 0 → exec (.cswap w) s = .next s ∧ exec (.csave w) s = .next s ∧ exec (.cload w) s = .next s) ∧
    (t.step = 0 → t.shad = none → exec (.csave w) s = .next (done s 0)) ∧
    (∀ k s1 b, t.step = 0 → t.shad = some k → readBases s (g.reg w.a).toNat = .ok (s1, b) → judgeAreas s p b = none →
      let u := { s1 with ctxs := tset s1.ctxs p { t with step := 3 } };
      exec (.csave w) s = .next (done { u with saved := tset u.saved k ⟨0, p, Exec.empty, [], [], [], ownBases u p b, []⟩ } 0)) ∧
    (∀ s1 b, t.step = 0 → t.shad = none → t.live ≠ some c → partOfCtx s c = some p → readBases s (g.reg w.a).toNat = .ok (s1, b) →
      exec (.cload w) s = .next (done { s1 with ctxs := tset s1.ctxs p { t with step := 3, load := some (c, ownBases s1 p b) } } 0)) ∧
    (∀ h m, (graphsOf s h)[m]? = none → (seqrOf s h).sup = some g → g.wait = some (.ctxop w.d.toNat) → let t := ctxStat s (ownPart s h);
      ∃ z, exec (.graphResume h m) s = .next z ∧ z.mem = s.mem ∧ z.focus = s.focus ∧
        (t.step = 1 → ctxStat z (ownPart s h) = { t with step := 2 } ∧ (seqrOf z h).sup = some g) ∧
        (t.step = 0 → (seqrOf z h).sup = some { g with pc := g.pc + 1, wait := none }))) ∧
  (∀ (s : State) (p : Nat), let t := ctxStat s p; let fs := partFields s p;
    (t.step = 1 ∨ t.step = 2 → let u := flushFields s fs;
      ∃ z, exec (.exchangeComplete p) s = .next z ∧ ctxStat z p = { t with step := 0, live := t.shad, shad := t.live } ∧
        z.x = mixExec fs u.x u.sh ∧ z.sh = mixExec fs u.sh u.x ∧ z.mem = mixCells fs s.mem s.smem ∧ z.smem = mixCells fs s.smem s.mem ∧
        z.aon = mixAon fs s.aon s.saon ∧ z.saon = mixAon fs s.saon s.aon) ∧
    (∀ c, t.step = 3 → t.load = none → t.shad = some c → arrivalBound s c = true → exec (.csaveComplete p) s = .next s) ∧
    (∀ c, t.step = 3 → t.load = none → t.shad = some c → arrivalBound s c = false →
      let bs := (((tget s.saved c).map Saved.bases).getD []).map BitVec.toNat;
      ∃ z, exec (.csaveComplete p) s = .next z ∧ ctxStat z p = { t with step := 0, shad := none } ∧ z.x = s.x ∧
        z.sh = mixExec fs s.sh Exec.empty ∧ z.smem = mixCells fs s.smem [] ∧ z.saon = mixAon fs s.saon [] ∧
        (tget z.saved c).map (fun v => (v.exec, v.cells, v.aon)) =
          some (mixExec fs Exec.empty s.sh, s.smem.filter (cellIn fs), mixAon fs [] s.saon) ∧
        (∀ a, (∃ m ∈ bs, m ≤ a ∧ a < m + saveSize) → areaByte z a = some (Config.areaByte s.tick a)) ∧
        (∀ a, (∀ m ∈ bs, a < m ∨ m + saveSize ≤ a) → areaByte z a = areaByte s a ∧ cellGet z.mem a = cellGet s.mem a)) ∧
    (∀ c b, t.step = 3 → t.load = some (c, b) → (loadedCopy s p c b).replays = [] → let v := loadedCopy s p c b;
      ∃ z, exec (.cloadComplete p) s = .next z ∧ ctxStat z p = { t with step := 0, shad := some c, load := none } ∧ z.mem = s.mem ∧ z.x = s.x ∧
        z.sh = mixExec fs s.sh v.exec ∧ z.smem = mixCells fs s.smem v.cells ∧ z.secc = mixEcc fs s.secc v.ecc ∧
        z.saon = mixAon fs s.saon v.aon ∧ tget z.saved c = none) ∧
    (∀ c b v, tget s.saved c = some v → v.bases = b → (∀ m ∈ b, areaWhole s v.stamp m = true) → loadedCopy s p c b = v))

/-- O43. Translations, keys and sweeping (R331, R414 to R417, R425): TLBINV drops a range in every core of the partition, once no pin is in it;
MAPPIN writes a leaf and drops its page; KEYLD and LKEY install a key and zero its block, LKEY taking a port that waited for it UP (R334); SWEEP
counts the words beyond correction. That LKEY zeroes 36 bytes is log 85, MAPPIN
of a removed mapping log 93, and SWEEP in one step log 94. -/
def Obligations.TranslationsAndKeys : Prop :=
  ∀ (w : SW) (s : State) (f : Nat) (g : Graph), curGraph s = some (f, g) → let p := ownPart s f;
    let done (u : State) (v : Nat) : State :=
      putGraph u { g with regs := setAt g.regs w.d.toNat (BitVec.ofNat 64 v), pc := g.pc + 1, wait := none }
    let c := w.imm.toNat % 512; let a := (g.reg w.a).toNat; let n := (g.reg w.b).toNat;
    (pinBlocks s c a n = false → exec (.tlbinv w) s = .next (putGraph (dropTlbs s p c a n) { g with pc := g.pc + 1, wait := none })) ∧
    (pinBlocks s c a n = true → exec (.tlbinv w) s = .next (putGraph s { g with wait := some (.tlbinv a n c) })) ∧
    (∀ core e, (partFields s p).contains core.f = true → e ∈ tgetD (dropTlbs s p c a n).tlbs core [] → e.ctx = c →
      n ≠ 0 ∧ (a + n ≤ e.page ∨ e.page + 2 ^ e.size ≤ a)) ∧
    (let lv := bits w.imm.toNat 10 9; let size := levelBits lv; let lo := a / 2 ^ size * 2 ^ size;
      (∀ e, mapLeaf s c a n lv = .error e → exec (.mappin w) s = .next (done s e)) ∧
      (∀ u, mapLeaf s c a n lv = .ok u → pinBlocks u c lo (2 ^ size) = false →
        exec (.mappin w) s = .next (done (dropTlbs u (ownPart u f) c lo (2 ^ size)) 0))) ∧
    (∀ t s1 b s2, let z := ((partOfCtx s c).map (ctxStat s)).getD ⟨0, none, none, none⟩;
      z.live ≠ some c → z.shad ≠ some c → tget s.saved c = none → supAt s a = .mem t → supRead s a 64 t = .ok (s1, b) →
      supPut s1 a (List.replicate 64 0) t = .ok s2 →
      exec (.keyld w) s = .next (done { s2 with keys := tset s2.keys c (xkeyOf b) } 0)) ∧
    (∀ t s1 b s2 l, let i := w.imm.toNat;
      supAt s a = .mem t → supRead s a 36 t = .ok (s1, b) →
      (lportOf s1 (i % 64)).install (bit i 6) (bit i 7) ⟨BitVec.ofNat 256 (leAt b 0 32), BitVec.ofNat 32 (leAt b 32 4)⟩ = some l →
      supPut s1 a (List.replicate 36 0) t = .ok s2 →
      ∃ m, exec (.lkey w) s = .next (done { s2 with ports := tset s2.ports (i % 64) m } 0) ∧
        let keyed : Prop := l.st = .keywait ∧ l.rxCur.isSome = true ∧ ∃ k, l.txCur = some k ∧ l.ackd = some k.kid
        (¬ keyed → m = l) ∧
        (keyed → m.st = .up ∧ m.unack = [] ∧ m.txCur = l.txCur ∧ m.rxCur = l.rxCur ∧ m.outq =
          ((l.unack.filter fun u => !u.flits.isEmpty).map fun u => ⟨u.ch, u.flits, u.timer, u.dst, true⟩) ++ l.outq)) ∧
    (let r := (badWords s p a n).foldl (sweepWord g.ctx) (s, 0);
      exec (.sweep w) s = .next (done r.1 r.2)) ∧
    ((∀ q ∈ s.ecc, q.2 = .single) → ((badWords s p a n).foldl (sweepWord g.ctx) (s, 0)).2 = 0)

/-- O44. Freezing, breakpoints and dead peers (R336 to R338, R402, R405, R408, R417): FREEZE halts a region with a record of KIND 2, THAW lets it
go on unless the damaged entry that froze it still reads so, BRKSET sets or clears a breakpoint, DEADSET and DEADCLR change the bitmap, which each
unit goes by once it has come, and a timer that has run out marks its wafer dead. THAW's count is log 26, when a unit hears of the bitmap log 86,
a BRKSET KIND above 5 log 95, and FREEZE of every field of a launch log 129. -/
def Obligations.RegionsAndPeers : Prop :=
  (∀ (w : SW) (s : State) (f : Nat) (g : Graph), curGraph s = some (f, g) → let p := ownPart s f;
    let go (u : State) : State := putGraph u { g with pc := g.pc + 1, wait := none };
    let r := regionOf s p (g.reg w.a).toNat; let n := w.imm.toNat % 2 ^ 20;
    (∃ t, exec (.freeze w) s = .next t ∧ t.mem = s.mem ∧ (∀ h, isFrozen t h r.1 = (isFrozen s h r.1 || r.2.contains h)) ∧
      ∀ h ∈ r.2, (partOfField s h).isSome = true → ∃ x ∈ t.recQ, x.kind = 2 ∧ x.lid = r.1 ∧ x.unit = .seqr h) ∧
    (∃ t, exec (.thaw w) s = .next t ∧ t.mem = s.mem ∧ t = go (r.2.foldl (fun s h => thaw s r.1 n h) s) ∧
      ((∀ z ∈ s.frozen, z.lid = r.1 → r.2.contains z.f = true → z.hurt = none) →
        ∀ h, isFrozen t h r.1 = (isFrozen s h r.1 && !r.2.contains h))) ∧
    (∀ h z u, first? (fun z : Frozen => z.f == h && z.lid == r.1) s.frozen = some z → z.hurt = some u →
      u.code = Code.parityHard ∨ (∃ x ∈ u.words, tget s.ecc x = some .double) → isFrozen (thaw s r.1 n h) h r.1 = true) ∧
    (let i := w.imm.toNat; let v := (g.reg w.a).toNat; let kind := bits v 63 60; let k := (p, i % 16);
      let b : Brk := ⟨kind, brkTarget kind (bits v 59 0), if bit i 4 then some (timeOf (g.reg w.b)) else none,
        if bit i 5 then some (BitVec.ofNat 24 (bits i 29 6)) else none⟩
      exec (.brkset w) s = .next (go { s with brks := if kind = 0 then tdel s.brks k else tset s.brks k b })) ∧
    (let v := (g.reg w.a).toNat % 16;
      exec (.deadset w) s = .next (go (markDead s v)) ∧ exec (.deadclr w) s = .next (go (clearDead s v)) ∧
      (markDead s v).dead = s.dead ||| BitVec.ofNat 16 (2 ^ v) ∧ (clearDead s v).dead = s.dead &&& ~~~(BitVec.ofNat 16 (2 ^ v)))) ∧
  (∀ (s : State) (u : UnitId), ∃ t, exec (.deadBitmap u) s = .next t ∧ deadFor t u = s.dead ∧ t = { s with deadU := t.deadU } ∧
    ∀ v, v ≠ u → deadFor t v = deadFor s v) ∧
  (∀ (s : State) (n : Nat) (m : Remote), first? (fun m : Remote => m.n == n) s.remotes = some m →
    (s.ltmo * 1400 ≤ (ctr s m.unit - m.since).toNat → exec (.sourceTimeout n) s = .next (markDead s m.wafer)) ∧
    ((ctr s m.unit - m.since).toNat < s.ltmo * 1400 → exec (.sourceTimeout n) s = .next s))

/-! ## Queues and launches -/

/-- O45. Queues (R71 to R76, R98, R100, R336): QBIND latches a descriptor's values, QUNBIND leaves the number unbound, an accepted packet advances
the read index by one and stands last in the queue, a malformed one halts it, a descriptor or a packet on another wafer is first asked for (log 9),
and a head that has been acceptable for 4,096 clk rises one level. A context goes live at its first
acceptance by log 12, one packet is accepted ahead by log 73, and where a queue may stand is log 76, what ageing measures log 77. -/
def Obligations.QueuesAccept : Prop :=
  (∀ (w : SW) (s : State) (f : Nat) (g : Graph), curGraph s = some (f, g) → let q := w.imm.toNat % 16; let u := unbindQueue s f q;
    let a := (g.reg w.a).toNat; let c := (g.reg w.b).toNat; let go (u : State) : State := putGraph u { g with pc := g.pc + 1, wait := none };
    let to_ := farWafer u c a (true, false); let v := farGot u (.seqr f) g.tag to_;
    (c < 512 → farNew u (.seqr f) g.tag to_ = true → exec (.qbind w) s = .next (farSend u (.seqr f) g.tag g.lid (to_.getD 0))) ∧
    (∀ s1 b, c < 512 → farNew u (.seqr f) g.tag to_ = false → a % 64 = 0 → hbmPage v c a = true → readAt v c noLid a 64 = .ok (s1, b) →
      descOk s1 c b = true →
      let z : Queue := ⟨a, leAt b 0 8, leAt b 8 4, leAt b 12 1, c, BitVec.ofNat 64 (leAt b 24 8), false, false, 0, none, []⟩;
      exec (.qbind w) s = .next (go { s1 with queues := tset s1.queues (f, q) z })) ∧
    (512 ≤ c → exec (.qbind w) s = .next (graphFault u f g Code.queueFormat a)) ∧
    (c < 512 → farNew u (.seqr f) g.tag to_ = false → bindQueue v c a = none →
      exec (.qbind w) s = .next (graphFault v f g Code.queueFormat a)) ∧
    exec (.qunbind w) s = .next (go u) ∧ tget u.queues (f, q) = none) ∧
  (∀ (s : State) (f q : Nat) (z : Queue), ((readingQueue s f).orElse fun _ => pickQueue s f) = some q → tget s.queues (f, q) = some z →
    farNew s (.seqr f) (slotTag q) (slotFar s z) = true →
    exec (.queueAccept f) s = .next (farSend s (.seqr f) (slotTag q) noLid ((slotFar s z).getD 0))) ∧
  (∀ (s u : State) (f q : Nat) (z : Queue) (b : List Byte), ((readingQueue s f).orElse fun _ => pickQueue s f) = some q →
    tget s.queues (f, q) = some z → farNew s (.seqr f) (slotTag q) (slotFar s z) = false →
    acceptable (farGot s (.seqr f) (slotTag q) (slotFar s z)) f q z = some (u, b) →
    (packetOk b = false → ∃ t, exec (.queueAccept f) s = .next t ∧ tget t.queues (f, q) = some { z with halted := true } ∧ t.mem = u.mem) ∧
    (∀ v, packetOk b = true → writeAt u z.ctx noLid (z.desc + 24) (leBytes 8 (z.i + 1).toNat) = .ok v →
      ∃ t, exec (.queueAccept f) s = .next t ∧ t.mem = v.mem ∧ (seqrOf t f).lastQ = q ∧ tget t.queues (f, q) =
        some { z with i := z.i + 1, boost := 0, since := none, pkts := z.pkts ++ [⟨z.i, b, false, 0⟩] })) ∧
  (∀ (s : State) (f n : Nat), let now := ctr s (.seqr f);
    (∀ z c, tget s.queues (f, n) = some z → (acceptable s f n z).isSome = true → z.since = some c → 4096 ≤ (now - c).toNat → z.eff < 3 →
      exec (.queueAgeing f (.queue n)) s =
        .next { s with queues := tset s.queues (f, n) { z with boost := z.boost + 1, since := some now } }) ∧
    (∀ z, (acceptable s f n z).isSome = true → z.since = none → noteHead s (f, n) z = { z with since := some now }) ∧
    (∀ z, acceptable s f n z = none → noteHead s (f, n) z = { z with since := none }) ∧
    (∀ g, (graphsOf s f)[n]? = some g → graphReady s f g = true → 4096 ≤ (now - g.since).toNat → g.eff < 3 →
      exec (.queueAgeing f (.graph n)) s =
        .next { s with x := { s.x with
          graphs := tset s.x.graphs f (setAt (graphsOf s f) n { g with boost := g.boost + 1, since := now }) } }))

/-- O46. Packets (R76 to R78, R336, R340, R345): the packet of a queue that starts next. NOP completes, STAMP writes its value and completes,
LAUNCH begins a launch, each with its access to another wafer sent and timed first; the others become a stream of the island of the queue's number
modulo 4, halt their queue where they break their layout, or complete with a record. -/
def Obligations.PacketsRun : Prop :=
  ∀ (s : State) (f q : Nat) (z : Queue) (p : QPkt),
    let done (u : State) : State := pktDone u (some (f, q)) p.idx;
    let ready (ty : Nat) : Prop := startable s f q ty = some (z, p);
    let isl : UnitId := .si f (q % 4);
    let island (i : Instr) (fars : List Nat) (mk : State → Except Nat (State × Stream)) : Prop :=
      queued (siGet s f (q % 4)) < 64 → unitHolds s isl = false →
      (∀ w ∈ fars, farNew s isl (acceptTag + 1) (some w) = true → ∃ t, exec i s = .next t ∧ t = { s with remotes := t.remotes, serial := t.serial } ∧
        ∃ m ∈ t.remotes, m.unit = isl ∧ m.wafer = w ∧ m.what = .access (acceptTag + 1) noLid ∧ m.since = ctr s isl) ∧
      ((∀ w ∈ fars, farNew s isl (acceptTag + 1) (some w) = false) →
        let v := fars.foldl (fun s w => farGot s isl (acceptTag + 1) (some w)) s;
        (∀ u x, mk v = .ok (u, x) → exec i s = .next (markStarted (addStream u f (q % 4) x) f q p.idx)) ∧
        (mk v = .error Code.descFormat → exec i s = .next (haltAt v f q z p)) ∧
        (∀ c, mk v = .error c → c ≠ Code.descFormat → exec i s = .next (done (recordOnly v isl c z.ctx f noLid none 0 t00 0))));
    let sends (i : Instr) (to_ : Option Nat) : Prop :=
      farNew s (.seqr f) (packetTag q) to_ = true → exec i s = .next (farSend s (.seqr f) (packetTag q) noLid (to_.getD 0));
    let pk := some (f, q, p.idx);
    (ready 0 → exec (.nopPacket f q) s = .next (done s)) ∧
    (ready 1 → let m := (partOfCtx s z.ctx).getD 0;
      let l := Launch.start m z.ctx f (some (f, q)) z.prio p.idx (leAt p.bytes 8 8) (leAt p.bytes 16 8) (leAt p.bytes 24 8);
      let to_ := farWafer s z.ctx l.image (true, false); let v := farGot s (.seqr f) (packetTag q) to_;
      sends (.launchPacket f q) to_ ∧
      (farNew s (.seqr f) (packetTag q) to_ = false →
        (∀ u, beginLaunch v l noLid false = some u → exec (.launchPacket f q) s = .next (markStarted u f q p.idx)) ∧
        (beginLaunch v l noLid false = none → exec (.launchPacket f q) s = .next v))) ∧
    (ready 2 → island (.copyPacket f q) [] (fun v => mkCopy v none pk z.ctx noLid p.bytes 1)) ∧
    (ready 3 → let mask := BitVec.ofNat 64 (leAt p.bytes 48 8);
      island (.mcopyPacket f q) (dlistFar s z.ctx p.bytes mask) (fun v => mkCopy v none pk z.ctx noLid p.bytes mask)) ∧
    (ready 4 → leAt p.bytes 4 4 ≠ 0 → island (.gbindPacket f q) [] (fun v => (mkGbind v none pk z.ctx noLid p.bytes).map fun x => (v, x))) ∧
    (ready 4 → leAt p.bytes 4 4 = 0 → island (.gbindUnbindPacket f q) [] (fun v => (mkGbind v none pk z.ctx noLid p.bytes).map fun x => (v, x))) ∧
    (ready 5 → island (.binPacket f q) [] (fun v => .ok (v, mkBin none pk z.ctx noLid p.bytes))) ∧
    (ready 6 → let va := leAt p.bytes 8 8; let to_ := farWafer s z.ctx va (false, true); let v := farGot s (.seqr f) (packetTag q) to_;
      let r := writeAt v z.ctx noLid va (leBytes 8 (leAt p.bytes 16 8));
      sends (.stampPacket f q) to_ ∧
      (∀ u, farNew s (.seqr f) (packetTag q) to_ = false → r = .ok u → exec (.stampPacket f q) s = .next (done u)) ∧
      (∀ c, farNew s (.seqr f) (packetTag q) to_ = false → r = .error c →
        exec (.stampPacket f q) s = .next (done (recordOnly v (.seqr f) c z.ctx f noLid none va t00 0)))) ∧
    (∀ z', tget (done s).queues (f, q) = some z' → ∀ x ∈ z'.pkts, x.idx ≠ p.idx)

/-- O47. The life of a launch (R17, R63, R79 to R84, R89, R92): a field loads its part or aborts the launch, also one that another wafer leads; an
acknowledgement is counted once; when all have come the launch runs with what the loader computed of its graph; an arming and a launch end when
their conditions hold on every wafer, the launch with its DONE word once nothing of it is in flight. The waves of questions by which the wafers
agree are the model's (log 113), and so are the steps of its accesses to other wafers (log 9), what the DONE word waits for (log 68), a
child that waits in the launch table (log 71), and a DONE write that faults (log 135). -/
def Obligations.LaunchesRun : Prop :=
  (∀ (s : State) (f lid k : Nat) (l : Launch), launch? s lid = none → partFor s f lid = some (k, l) → l.fields.contains f = true →
    unitHolds s (.seqr f) = false →
    (launchBusy s l (parseImg l.bytes) = true → exec (.launchPart f lid) s = .next s) ∧
    (launchBusy s l (parseImg l.bytes) = false → exec (.launchPart f lid) s = .next (loadPart (addLaunch (dropPkt s k) lid l) f lid l))) ∧
  ∀ (s : State) (lid : Nat) (l : Launch), launch? s lid = some l →
    (∀ f, l.stat = .waiting → unitHolds s (.seqr f) = false → exec (.launchPart f lid) s = .next (promoteChild s lid l)) ∧
    (∀ f, l.stat = .loading → l.fields.contains f = true → l.loaded.contains f = false → l.acks.contains f = false →
      unitHolds s (.seqr f) = false → exec (.launchPart f lid) s = .next (loadPart s f lid l) ∧
      ∀ code off, violation s lid l (parseImg l.bytes) = some (code, off) →
        loadPart s f lid l = abortLaunch s lid (fieldAt (parseImg l.bytes) l.lead off) l.ctx code 0 off) ∧
    (∀ f, l.stat = .loading → l.acks.contains f = false → launchDead s l = false →
      ((f < 48 ∧ l.loaded.contains f = true) ∨ (48 ≤ f ∧ l.awaits.contains f = true)) →
      ∃ t, exec (.launchAck lid f) s = .next t ∧ launch? t lid = some { l with acks := f :: l.acks } ∧
        t = { s with launches := t.launches, net := t.net, serial := t.serial, remotes := t.remotes } ∧
        (l.from_ = none ∨ 48 ≤ f → t.net = s.net ∧ t.serial = s.serial) ∧
        t.remotes = if f < 48 then s.remotes else dropFirst (farTimer (.seqr l.lead) (partTag lid) (f - 48)) s.remotes) ∧
    (∀ f, l.stat = .loading → l.acks.contains f = false → launchDead s l = true → unitHolds s (.seqr l.lead) = false →
      exec (.launchAck lid f) s = .next (abortLaunch s lid l.lead l.ctx Code.peerDead 0 0)) ∧
    (l.stat = .loading → (∀ f ∈ l.fields, f ∈ l.acks) → (∀ w ∈ l.awaits, w ∈ l.acks) →
      let i := parseImg l.bytes;
      ∃ t, exec (.launchStart lid) s = .next t ∧
        launch? t lid = some ({ l with stat := .running, sstamp := i.sstamp, waiters := i.waiters }.graphed (i.graph s.wafno)) ∧
        ∀ m, m ≠ lid → launch? t m = launch? s m) ∧
    (∀ k z u m, tget l.secs k = some z → InPlace s l.ctx →
      (l.sstamp = 0 ∨ awayFor s l.ctx (l.sstamp + 8 * k) (false, true) = false) →
      let to_ := if l.sstamp = 0 then none else farWord? s l.ctx (l.sstamp + 8 * k);
      (farAsked s (.seqr z.field) (leadTag lid) to_ = true →
        exec (.armingComplete lid k) s = .next (endArming (farGot s (.seqr z.field) (leadTag lid) to_) lid l k z)) ∧
      (farAsked s (.seqr z.field) (leadTag lid) to_ = false → restAll s lid (some k) (armingDone s lid z) = (u, true) → launch? u lid = some m →
      (farNew u (.seqr z.field) (leadTag lid) to_ = false →
        exec (.armingComplete lid k) s = .next (endArming (farGot u (.seqr z.field) (leadTag lid) to_) lid m k z)) ∧
      (farNew u (.seqr z.field) (leadTag lid) to_ = true →
        exec (.armingComplete lid k) s = .next (farSend u (.seqr z.field) (leadTag lid) lid (to_.getD 0))))) ∧
    (∀ k z, l.sstamp = 0 → launch? (endArming s lid l k z) lid =
      some { l with secs := tset l.secs k { z with completed := z.completed + 1, cur := none, emitted := [] } }) ∧
    (∀ what ok, l.peers = [] → (∀ p ∈ s.net, ∀ w n k v m, p.msg ≠ .peer w n (.idle k v m)) → restAll s lid what ok = (s, ok)) ∧
    ((∀ p ∈ s.net, ∀ w n k v, p.msg ≠ .peer w n (.poll k v)) → answerPolls s lid l = s) ∧
    (∀ q, l.stat ≠ .ended → endWord s lid l = some q → exec (.launchComplete lid) s = .next (endedAway s lid q)) ∧
    (∀ u m, l.stat ≠ .ended → endWord s lid l = none → InPlace s l.ctx → l.from_ = none → let a := answerPolls s lid l;
      restAll a lid none (launchDone a lid l) = (u, true) → launch? (retire u lid 0) lid = some m → m.stat = .ended →
      exec (.launchComplete lid) s = .next (finishLaunch (retire u lid 0) lid m)) ∧
    (l.stat = .ended → exec (.launchComplete lid) s = .next (finishLaunch s lid l)) ∧
    (let u := freeWindows s lid;
      (u.remotes.any (orphanOf lid) = true → finishLaunch s lid l = { u with remotes := dropFirst (orphanOf lid) u.remotes }) ∧
      (u.remotes.any (orphanOf lid) = false →
        u.net.any (pktOf lid) = true ∨ (u.lateAck.any fun m => msgLid m == lid) = true ∨ u.remotes.any (remOf lid) = true ∨
          (u.wins.any fun q => q.2.lid == lid) = true ∨ (∃ w ∈ l.unfin, u.dead.getLsbD w = false) → finishLaunch s lid l = u) ∧
      (u.remotes.any (orphanOf lid) = false → inFlight u lid l = false → InPlace s l.ctx →
        (l.done = 0 → finishLaunch s lid l = pktDone { tellFinished u lid l with launches := tdel u.launches lid } l.queue l.idx) ∧
        (l.done ≠ 0 → awayFor u l.ctx l.done (false, true) = false → let to_ := farWord? u l.ctx l.done;
          (farNew u (.seqr l.lead) (leadTag lid) to_ = true →
            finishLaunch s lid l = farSend u (.seqr l.lead) (leadTag lid) lid (to_.getD 0)) ∧
          ∀ x, farNew u (.seqr l.lead) (leadTag lid) to_ = false →
            writeAt (farGot u (.seqr l.lead) (leadTag lid) to_) l.ctx lid l.done (leBytes 8 (doneVal l)) = .ok x →
            finishLaunch s lid l = pktDone { tellFinished x lid l with launches := tdel x.launches lid } l.queue l.idx)))

/-! ## Tokens and counts -/

/-- O48. Tokens at an input (R103, R113, R115, R117, R119 to R121): a token that its node's input can store leaves its sender for that input; one that it
cannot store stays; one with a parity error is refused and counted, and the eighth in a row on a hop freezes the
region; a search of the overflow area completes once its records have been read and corrected; a stored token that fails its
check freezes the region, a happening of the model's own (log 104). -/
def Obligations.TokensAreAccepted : Prop :=
  (∀ (s : State) (g : EdgeId) (d : InPort) (t : Token) (n : Node) (i : Bool → Instr), let sl : Slot := ⟨d.core, d.e, t.ctx.toNat⟩;
    offered s g d = some t → node? s sl = some n → ctxRuns s n.ctx = true → isFrozen s d.core.f n.lid = false → isCut s g = false →
    (i = (fun bad => .tokenArrival g d bad) ∧ failsOf s g d = 0) ∨ (i = (fun bad => .tokenResend g d bad) ∧ 0 < failsOf s g d) →
    (∀ u, tgetD s.x.osearch d.core [] = [] → acceptTok s sl n d.port t false = .yes u →
      (spilled s u d.core = false → exec (i false) s = .next (takeOffered u g d)) ∧
      (spilled s u d.core = true → underBudget s (.core d.core) 3 = false → exec (i false) s = .next s) ∧
      (spilled s u d.core = true → underBudget s (.core d.core) 3 = true →
        exec (i false) s = .next (takeOffered (spend u (.core d.core) 3 (beatsOf 128)) g d))) ∧
    (tgetD s.x.osearch d.core [] = [] → acceptTok s sl n d.port t false = .no → exec (i false) s = .next s) ∧
    (tgetD s.x.osearch d.core [] = [] → acceptTok s sl n d.port t false = .search →
      (underBudget s (.core d.core) 3 = false → exec (i false) s = .next s) ∧
      (underBudget s (.core d.core) 3 = true → ∃ u, exec (i false) s = .next u ∧ tgetD u.x.osearch d.core [] = [⟨g, d, false⟩])) ∧
    (tgetD s.x.osearch d.core [] = [] → acceptTok s sl n d.port t false = .overflow →
      exec (i false) s = .next (overflowPark s sl n (identOf t))) ∧
    ((g.port = 6 → ∀ p, catchLaunch s g.core g.e = some p → launch? s p.1 = some p.2) →
      failsOf s g d < 7 ∨ unitHolds s (.core d.core) = false → ∃ u, exec (i true) s = .next u ∧ failsOf u g d = failsOf s g d + 1 ∧
      tgetD u.parcnt d.core 0 = satInc (tgetD s.parcnt d.core 0) ∧ (failsOf s g d = 7 → isFrozen u d.core.f n.lid = true))) ∧
  (∀ (s : State) (sl : Slot) (n : Node) (t : Token) (p : Nat), operandPorts n.word = [p] ∨ opOf n.word = 0x70 → p < 3 →
    (opOf n.word < 0x60 ∨ (0x64 < opOf n.word ∧ opOf n.word < 0x80) ∨ 0x88 ≤ opOf n.word) → opOf n.word ∉ [0x58, 0x5A, 0x5B, 0x75] →
    parkedOf s sl = [] →
    (16 ≤ queuedIn s sl.core sl.e → acceptTok s sl n p t false = .no) ∧
    (queuedIn s sl.core sl.e < 16 → let o : OpSet :=
        ⟨identOf t, if p = 0 then some t else none, if p = 1 then some t else none, if p = 2 then some t else none, none, p, []⟩;
      acceptTok s sl n p t false = .yes (setIq (freeOperands s sl (identOf t)) sl.core sl.e
        (enter ⟨o, false, false, ctr s (.core sl.core)⟩ (iqOf s sl.core sl.e))))) ∧
  (∀ (s : State) (c : CoreId), let done (u : State) : State := { u with x := { u.x with osearch := tmod u.x.osearch c [] markSearched } };
    ((∀ o ∈ tgetD s.x.osearch c [], o.done = true) → exec (.overflowReadDone c) s = .next s) ∧
    ∀ o, first? (fun o : OvSearch => !o.done) (tgetD s.x.osearch c []) = some o →
      (offered s o.edge o.dst = none → exec (.overflowReadDone c) s = .next (done s)) ∧
      ∀ t n, offered s o.edge o.dst = some t → let sl : Slot := ⟨c, o.dst.e, t.ctx.toNat⟩; node? s sl = some n →
        let l := searchAddrs s c o.dst.e (identOf t);
        ((∃ a ∈ l, underBudget s (homeUnit s a) 3 = false ∨ unitHolds s (homeUnit s a) = true) → exec (.overflowReadDone c) s = .next s) ∧
        ((∀ a ∈ l, underBudget s (homeUnit s a) 3 = true ∧ unitHolds s (homeUnit s a) = false) →
          ((∀ a ∈ l, ∀ x ∈ wordsOf a 128, tget s.ecc x = none) →
            ∃ z, exec (.overflowReadDone c) s = .next (done z) ∧ z = { s with budgets := z.budgets }) ∧
          (∀ a x f, l = [a] → x ∈ wordsOf a 128 → tget s.ecc x = some .double → (decodePA s a).map Tgt.field = some f →
            ∃ z, exec (.overflowReadDone c) s = .next z ∧ z.x.osearch = s.x.osearch ∧ z.mem = s.mem ∧ isFrozen z f n.lid = true))) ∧
  (∀ (a b : List OvSearch) (o : OvSearch), (∀ x ∈ a, x.done = true) → o.done = false →
    markSearched (a ++ o :: b) = a ++ { o with done := true } :: b) ∧
  (∀ (s : State) (sl : Slot) (n : Node), node? s sl = some n → ctxRuns s n.ctx = true → storesToken s sl = true →
    isFrozen (runUpset s (.token sl)) sl.core.f n.lid = true ∧ (runUpset s (.token sl)).mem = s.mem)

/-- O49. Counts and frontiers (R212 to R224): a core's table goes to its field tracker, from there to the wafer tracker and every peer, whose changes
come in too; the registers of every probe take the frontier of its stage; a FRONT query that has arrived is answered by the tracker, and the answer puts out
one token for each element and an END. A peer is what its frames say (log 9), a field
tracker's change and a probe's frontier are no packets (log 14), and a query counts as consumed with its answer (log 39). -/
def Obligations.CountsAndFrontiers : Prop :=
  (∀ (s : State) (c : CoreId), ctabOf s c ≠ [] → 256 ≤ (ctr s (.core c) - tgetD s.lastF c 0).toNat →
    ∃ t, exec (.countTableIdleFlush c) s = .next t ∧ ctabOf t c = [] ∧ (∀ d, d ≠ c → ctabOf t d = ctabOf s d) ∧ t.mem = s.mem ∧
      ∀ lid ∈ ctLids (ctabOf s c), ∃ p ∈ t.net, p.msg = .counts lid c (ctItems (ctabOf s c) lid) ∧ p.cls = 0) ∧
  (∀ (s : State) (k lid : Nat) (p : Packet) (c : CoreId) (l : List CountItem), pkt? s k = some p → p.msg = .counts lid c l →
    arrived s p = true → exec (.countMessage k) s =
      .next { s with net := s.net.filter (fun x => x.id != k), ftrk := tset s.ftrk (c.f, lid) (addItems (tgetD s.ftrk (c.f, lid) []) l) }) ∧
  (∀ (s : State) (f lid : Nat) (l : Launch), launch? s lid = some l →
    let its := tgetD s.ftrk (f, lid) [];
    (∃ t, exec (.trackerForward f lid) s = .next t ∧ t = { s with
        ftrk := tdel s.ftrk (f, lid)
        launches := tset s.launches lid { l with counts := addItems l.counts its }
        net := t.net
        serial := t.serial } ∧
      (its ≠ [] → ∀ w ∈ l.wafers, ∃ p ∈ t.net, p.dstW = w ∧ p.cls = 0 ∧ p.msg = .peer s.wafno lid (.change its)) ∧
      (l.wafers = [] → t.net = s.net ∧ t.serial = s.serial)) ∧
    ∀ w its, l.wafers.contains w = true → w ≠ s.wafno → s.dead.getLsbD w = false →
      exec (.trackerPeerChange w lid its) s =
        .next { s with launches := tset s.launches lid { l with counts := addItems l.counts its } }) ∧
  (∀ (s : State) (sl : Slot), let ls := s.launches.filter fun p => p.2.probes.any fun q => q.1 == sl;
    (unitHolds s .wtrk = true → exec (.frontierUpdate sl) s = .next s) ∧
    (unitHolds s .wtrk = false →
      exec (.frontierUpdate sl) s = .next (ls.foldl (fun s p => onCopy s p.2.ctx fun s => frontierTo sl s p.1) s))) ∧
  (∀ (s : State) (sl : Slot) (n : Node) (l : Launch), node? s sl = some n → launch? s n.lid = some l →
    let r := frontierRegs l ((CW.unpack n.word).imm.toNat % 64); let t := frontierTo sl s n.lid; frnOf t sl = r ∧
    (frnOf s sl = r → ctxRuns s n.ctx = true → isFrozen s sl.core.f n.lid = false → parkedOf s sl = [] → (∀ m ∈ mstoreOf s sl.core, entryHolds m = false) →
      tgetD s.fspb sl.core.f 0 = 0 ∨ r.elems.length ≤ 4 → t = { s with x := { s.x with frn := tset s.x.frn sl r } }) ∧
    ∀ k, k ≠ n.lid → frontierTo sl s k = s) ∧
  (∀ (s : State) (sl : Slot) (k ctx rid : Nat) (els : List Time), toldHere s sl = some (k, ctx, rid, els) → InPlace s ctx →
    exec (.frontAnswer sl) s = .next (frontTold (dropPkt s k) sl rid els)) ∧
  (∀ (s : State) (sl : Slot) (n : Node) (o : OpSet) (rid : Nat) (els : List Time) (tx : Time), let w := CW.unpack n.word;
    node? s sl = some n → first? (fun q : Slot × OpSet => q.1 == sl && q.2.port == rid) s.x.frontQ = some (sl, o) → act w.xt o.id.time = some tx →
    let u := { s with x := { s.x with frontQ := dropFirst (fun q => q.1 == sl && q.2.port == rid) s.x.frontQ } };
    let toks := els.zipIdx.map (fun q => xTok w o tx (timeWord q.1) (BitVec.ofNat 32 q.2) true 1) ++ [specTok w.xc o tx false true];
    let t := noteFiring (progress (record (settle u sl 4 rid toks) sl.core n.lid
      (consumed n o ++ toks.flatMap fun t => produced u sl 4 t) true) sl.core.f n.lid) sl.core;
    frontTold s sl rid els = if w.tb = 1 then trace t sl o ((toks.head?.map Token.val).getD 0) else t) ∧
  (∀ (s : State) (sl : Slot) (p : Packet) (ctx lid rid q : Nat) (l : Launch), toldHere s sl = none → askHere s sl = some p →
    p.msg = .ask sl ctx lid rid q → launch? s lid = some l → let els := (frontierRegs l q).elems;
    exec (.frontAnswer sl) s =
      .next (sendPkt (dropPkt s p.id) .wtrk 0 (.core sl.core) s.wafno (8 * els.length) (.told sl ctx lid rid els)))

/-! ## Homes -/

/-- O50. Memory at its home (R188, R192 to R194, R354, R358): a load answers the bytes at TY width, a store writes them, an atomic answers the old
value and writes the new one in one step; an .AON request waits for its tile or is served with those that it lets go on; a window goes through
its index vector; what the home refuses is answered with the code. The order of .AON requests that
no path orders is log 127. -/
def Obligations.HomesServeMemory : Prop :=
  ∀ (s : State) (k : Nat) (r : PortReq) (pa : Nat) (cmp : Bool), reqHere s k = some (r, pa, cmp) →
    (∀ p, pkt? s k = some p → ∃ q a c, p.msg = .req q a c) → HomeInPlace s r.ctx pa →
    let u := dropPkt s k; let ty := r.w.ty.toNat; let n := tyBytes ty;
    (inAperture pa = false → isAon r = false → histInUse s pa = false → plainGuard u r pa = .ok () →
      (r.op = .ld → (∀ v b, homeRead u (some r.ctx) pa n cmp = .ok (v, b) →
          exec (.memoryRequest k) s = .next (sendAns v (homeUnit v pa) r (ansVal (extend ty (leNat b))))) ∧
        ∀ c, homeRead u (some r.ctx) pa n cmp = .error c → exec (.memoryRequest k) s = .next (refuse u r pa c)) ∧
      ((r.op = .st ∧ unitHolds s (homeUnit s pa) = false) ∨ r.op = .std →
        (∀ v, homeWrite u (some r.ctx) pa (leBytes n r.val.toNat) cmp = .ok v →
          exec (.memoryRequest k) s = .next (sendAns (wakeStwait v pa n) (homeUnit (wakeStwait v pa n) pa) r ansDone)) ∧
        ∀ c, homeWrite u (some r.ctx) pa (leBytes n r.val.toNat) cmp = .error c → exec (.memoryRequest k) s = .next (refuse u r pa c))) ∧
    (inAperture pa = false → isAtomic r.op = true → homeGuard u r pa = .ok () →
      (paKind pa = 1 → exec (.atomicRequest k) s = .next (refuse u r pa Code.atomicTarget)) ∧
      (∀ v old v2, paKind pa ≠ 1 → homeNat u (some r.ctx) pa n cmp = .ok (v, old) →
        homeWrite v (some r.ctx) pa (leBytes n (atomNew r old).1) cmp = .ok v2 →
        exec (.atomicRequest k) s = .next (sendAns (wakeStwait v2 pa n) (homeUnit (wakeStwait v2 pa n) pa) r
          ⟨0, false, extend ty old, none, none, none, (atomNew r old).2⟩))) ∧
    (isAon r = true → let h := homeUnit s pa; (r.op = .st → unitHolds s h = false) →
      let i : Instr := if r.op = .ld then .aonLoad k else .aonStore k;
      InPlace s r.ctx →
      (aonHeld u (waitlOf u h) r pa = true → exec i s = .next (aonDrains (setWaitl u h (waitlOf u h ++ [⟨r, pa, cmp⟩])) h pa)) ∧
      (aonHeld u (waitlOf u h) r pa = false → exec i s = .next (aonDrains (aonServe u r pa cmp) h pa))) ∧
    (∀ st m o w, inAperture pa = true → isAon r = false → decodePA u pa = some (.win st m o) → tget u.wins (st, m) = some w →
      InPlace s w.ctx → placeInUse s pa n = false →
      (∀ v b, r.op = .ld → windowRead w r.lid u o n = .ok (v, b) →
        exec (.windowRequest k) s = .next (sendAns v (homeUnit v pa) r (ansVal (extend ty (leNat b))))) ∧
      (∀ v, (r.op = .st ∧ unitHolds s (homeUnit s pa) = false) ∨ r.op = .std → windowWrite w r.lid u o (leBytes n r.val.toNat) = .ok v →
        exec (.windowRequest k) s = .next (sendAns v (homeUnit v pa) r ansDone)) ∧
      (isAtomic r.op = true → exec (.windowRequest k) s = .next (refuse u r pa Code.window))) ∧
    (∀ h, waitingAway u h = [] → (waitlOf u h = [] → aonDrains u h pa = u) ∧
      ∀ e, waitlOf u h = [e] → (isAon e.req = true → e.pa / 512 = pa / 512 → aonHeld u [] e.req e.pa = false →
          aonDrains u h pa = aonServe (setWaitl u h []) e.req e.pa e.cmp) ∧
        (aonHeld u [] e.req e.pa = true → aonDrains u h pa = u)) ∧
    (∀ c, inAperture pa = false → isPlain r.op = true → isAon r = false → histInUse s pa = false →
      (r.op = .st → unitHolds s (homeUnit s pa) = false) → plainGuard u r pa = .error c →
      exec (.memoryRequest k) s = .next (refuse u r pa c))

/-- O51. Panes (R254 to R261, R263, R264): ARMP arms an EMPTY or failed pane, HOIST fills an EMPTY one, STRIKE empties a FULL one, LDW and TAKE read a FULL one and
wait for any other, NEXTF yields the oldest FULL pane of its set, TAGR answers the tag word; a pane in another state is PANE_STATE. A hoist counts,
stamps the pane and serves those who wait for it, oldest first. An arrival within an ARMED pane's expected bytes is written
and counted, and the last one hoists the pane; one beyond them marks it failed. A retry of a frozen region stands at its port (log 43). -/
def Obligations.PanesKeepTheirTags : Prop :=
  (∀ (s : State) (k : Nat) (r : PortReq) (pa : Nat) (cmp : Bool) (p : PaneId), reqHere s k = some (r, pa, cmp) → HomeInPlace s r.ctx pa →
    isPresence r.op = true → let u := progress (dropPkt s k) r.sl.core.f r.lid;
    panesGranted u r pa = .ok () → paneOf u pa = some p →
    let t := ptagOf u p; let h : UnitId := .core p.core;
    let ends (v : State) : Prop := (r.op = .hoist → unitHolds s (homeUnit s pa) = false) → exec (.presenceRequest k) s = .next v;
    (r.op = .armp → t.tag = .empty ∨ (t.tag = .armed ∧ t.fail = true) →
      ends (sendAns (setPtag u p { t with tag := .armed, own := true, exp := BitVec.ofNat 12 (r.val.toNat % 2 ^ 24), cnt := 0, fail := false })
        h r ansDone)) ∧
    (r.op = .hoist → t.tag = .empty → ends (sendAns (hoistPane u p r.lid) h r ansDone)) ∧
    (r.op = .strike → t.tag = .full ∨ (t.tag = .armed ∧ t.fail = true) → ends (sendAns
      (setPtag u p { t with tag := .empty, own := false, cnt := 0, exp := 0, yld := false, fail := false }) h r ansDone)) ∧
    (r.op = .tagr → ends (sendAns u h r (ansVal (ptagWord t)))) ∧
    (∀ v b, r.op = .ldw → t.tag = .full → homeRead u (some r.ctx) pa (tyBytes r.w.ty.toNat) false = .ok (v, b) →
      ends (sendAns v (homeUnit v pa) r (ansVal (extend r.w.ty.toNat (leNat b))))) ∧
    (∀ v b, r.op = .take → t.tag = .full → homeRead u (some r.ctx) pa (tyBytes r.w.ty.toNat) false = .ok (v, b) →
      ends (strikePane (sendAns v (homeUnit v pa) r (ansVal (extend r.w.ty.toNat (leNat b)))) p)) ∧
    (∀ q i, r.op = .nextf → nextfPick u r.more = some (q, i) → ends (sendAns (setPtag u q { ptagOf u q with yld := true }) h r
      ⟨0, false, BitVec.ofNat 64 (r.va + 2048 * i), some (BitVec.ofNat 32 i), none, none, 0⟩)) ∧
    (r.op = .nextf → nextfPick u r.more = none → ends (waitOrRetry u h r pa false)) ∧
    (r.op = .ldw ∨ r.op = .take → t.tag ≠ .full → ends (waitOrRetry u h r pa false)) ∧
    ((r.op = .hoist ∧ t.tag ≠ .empty) ∨ (r.op = .armp ∧ (t.tag = .full ∨ (t.tag = .armed ∧ t.fail = false))) ∨
      (r.op = .strike ∧ (t.tag = .empty ∨ (t.tag = .armed ∧ t.fail = false))) → ends (refuse u r pa Code.paneState))) ∧
  (∀ (s : State) (l : List Nat), let cand (p : PaneId) : Prop := (∃ a ∈ l, paneOf s a = some p) ∧ (ptagOf s p).tag = .full ∧ (ptagOf s p).yld = false;
    (nextfPick s l = none → ∀ p, ¬ cand p) ∧
    ∀ p i, nextfPick s l = some (p, i) → cand p ∧ (∃ a, l[i]? = some a ∧ paneOf s a = some p) ∧
      ∀ b : W32, (∀ q, cand q → ((ptagOf s q).stamp - b).toNat < 2 ^ 31) → ∀ q, cand q → ((ptagOf s p).stamp - b).toNat ≤ ((ptagOf s q).stamp - b).toNat) ∧
  (∀ (s : State) (p : PaneId) (lid : Nat), let n := tgetD s.x.hctr p.core 0 + 1;
    let u := setPtag { s with x := { s.x with hctr := tset s.x.hctr p.core n } } p
      { ptagOf s p with tag := .full, own := false, stamp := n, yld := false };
    let r := servePass p u (waitlOf u (.core p.core)); let z := hoistPane s p lid;
    tgetD z.x.hctr p.core 0 = n ∧ waitlOf z (.core p.core) = r.2 ∧ z.net = r.1.net ∧ z.mem = r.1.mem ∧ ptagOf z p = ptagOf r.1 p) ∧
  (∀ (s : State) (p : PaneId) (e : WaitE) (l : List WaitE),
    let done (u : State) : State := progress u e.req.sl.core.f e.req.lid; let kept := servePass p s l;
    (∀ v b, paneOf s e.pa = some p → homeRead s (some e.req.ctx) e.pa (tyBytes e.req.w.ty.toNat) false = .ok (v, b) →
      let x := done (sendWake v (homeUnit v e.pa) e.req (ansVal (extend e.req.w.ty.toNat (leNat b))));
      (e.req.op = .ldw → servePass p s (e :: l) = servePass p x l) ∧ (e.req.op = .take → servePass p s (e :: l) = (strikePane x p, l))) ∧
    (∀ i, e.req.op = .nextf → setIx s p e.req.more 0 = some i → (ptagOf s p).yld = false → servePass p s (e :: l) =
      servePass p (done (sendWake (setPtag s p { ptagOf s p with yld := true }) (.core p.core) e.req
        ⟨0, false, BitVec.ofNat 64 (e.req.va + 2048 * i), some (BitVec.ofNat 32 i), none, none, 0⟩)) l) ∧
    (e.req.op = .nextf → setIx s p e.req.more 0 = none ∨ (ptagOf s p).yld = true → servePass p s (e :: l) = (kept.1, e :: kept.2)) ∧
    (e.req.op ≠ .nextf → (e.req.op ∉ [Op.ldw, .take, .mread] ∨ paneOf s e.pa ≠ some p) → servePass p s (e :: l) = (kept.1, e :: kept.2)) ∧
    servePass p s [] = (s, [])) ∧
  (∀ (s : State) (p : PaneId) (l : List Nat) (i : Nat), setIx s p l 0 = some i → ∃ a, l[i]? = some a ∧ paneOf s a = some p) ∧
  (∀ (s : State) (k : Nat) (q : Packet) (src : ArrSrc) (ctx lid va pa : Nat) (cmp : Bool) (bs : List Byte), pkt? s k = some q →
    q.msg = .arrival src ctx lid va pa cmp bs → arrived s q = true → outrun s q src = false → HomeInPlace s ctx pa →
    placeInUse s pa bs.length = false → paneHolds s pa bs.length = false →
    let u := arrive (readyUnit (dropPkt s k) src ctx va pa cmp) src ctx lid pa cmp bs; let t := ackArrival u.1 src ctx lid pa va q.num u.2;
    (∀ c b, decodePA s pa = some (.spad c b) → exec (.paneArrival k) s = .next t) ∧
    (∀ a b, decodePA s pa = some (.hbm a b) → exec (.memoryRequest k) s = .next t) ∧
    (∀ c b, decodePA s pa = some (.sram c b) → exec (.memoryRequest k) s = .next t) ∧
    (∀ a b c w, decodePA s pa = some (.win a b c) → tget s.wins (a, b) = some w → InPlace s w.ctx → exec (.windowRequest k) s = .next t) ∧
    (cmp = false ∨ inAperture pa = true → readyUnit (dropPkt s k) src ctx va pa cmp = dropPkt s k)) ∧
  (∀ (s : State) (src : ArrSrc) (ctx lid pa b : Nat) (cmp : Bool) (bs : List Byte) (c : CoreId), src.wafer = s.wafno →
    paWafer pa = s.wafno → decodePA s pa = some (.spad c b) → let p := paneAt c b; let t := ptagOf s p;
    (granted s p lid = false → arrive s src ctx lid pa cmp bs = (s, Code.prot)) ∧
    (granted s p lid = true → t.tag ≠ .armed → arrive s src ctx lid pa cmp bs = (s, Code.paneState)) ∧
    (granted s p lid = true → t.tag = .armed → t.exp.toNat < t.cnt.toNat + bs.length →
      arrive s src ctx lid pa cmp bs = (setPtag s p { t with fail := true }, Code.paneState)) ∧
    (∀ v, granted s p lid = true → t.tag = .armed → t.cnt.toNat + bs.length ≤ t.exp.toNat → homeWrite s (some ctx) pa bs cmp = .ok v →
      let z := setPtag (wakeStwait v pa bs.length) p { t with cnt := t.cnt + BitVec.ofNat 12 bs.length };
      arrive s src ctx lid pa cmp bs = (if t.cnt.toNat + bs.length = t.exp.toNat then hoistPane z p lid else z, 0))) ∧
  (∀ (s : State) (c : UnitId) (n : Nat) (y : Retry), (tgetD s.x.retry c [])[n]? = some y →
    (64 ≤ (ctr s c - y.since).toNat → isFrozen s y.req.sl.core.f y.req.lid = false → ∃ t, exec (.waitlistRetry c n) s = .next t ∧
      tgetD t.x.retry c [] = (tgetD s.x.retry c []).eraseIdx n ∧ ∃ p ∈ t.net, p.msg = .req y.req y.req.pa (y.req.cpg && y.req.op != .mread)) ∧
    ((ctr s c - y.since).toNat < 64 ∨ isFrozen s y.req.sl.core.f y.req.lid = true → exec (.waitlistRetry c n) s = .next s))

/-- O52. Promises, phasers, locks and waiting releases (R272 to R282, R285, R289 to R295, R297, R320): a walk takes one step at a time, its messages
going out from its first cell's core and back, a carry from cell to cell; each request of a phaser or a lock takes one step at its home; a release
leaves once no write that it counts is out. The records that wait stand by log 29 in the pool of the launch that log 111 names; a carry at a cell
that cannot be read is held by log 110, and a member that has fallen behind signals nothing by log 33. -/
def Obligations.ObjectsStep : Prop :=
  (∀ (s : State) (k : Nat) (w : PWalk), first? (fun w : PWalk => w.id == k) s.x.pwalks = some w → ctxRuns s w.req.ctx = true →
    (walkPkt s k = none → walkStands s w = some (s, w)) ∧
    (∀ p c, walkPkt s k = some p → p.to_ = .core c → walkStands s w =
      if arrived s p = true then some (setWalkP (dropPkt s p.id) { w with at_ := c }, { w with at_ := c }) else none) ∧
    (walkStands s w = none → exec (.walkStep k) s = .next s) ∧
    ∀ s1 w1, walkStands s w = some (s1, w1) →
      (unitHolds s (.core w1.at_) = true → exec (.walkStep k) s = .next s) ∧
      (unitHolds s (.core w1.at_) = false → (sramCore (walkCell w1) = w1.at_ → exec (.walkStep k) s = .next (sendWalk k (walkOne s1 w1))) ∧
        (sramCore (walkCell w1) ≠ w1.at_ → exec (.walkStep k) s = .next (sendWalk k s1))) ∧
      ∀ d h t n, w.phase = .carry d h t n →
        (unitHolds s (.core w.req.sl.core) = true → exec (.carryApply k) s = .next s) ∧
        (unitHolds s (.core w.req.sl.core) = false →
          (sramCore d = w1.at_ → exec (.carryApply k) s = .next (sendWalk k (applyCarry s1 w1 d h t n))) ∧
          (sramCore d ≠ w1.at_ → exec (.carryApply k) s = .next (sendWalk k s1)))) ∧
  (∀ (s : State) (k : Nat) (w : PWalk), (first? (fun w : PWalk => w.id == k) s.x.pwalks = none → sendWalk k s = s) ∧
    (first? (fun w : PWalk => w.id == k) s.x.pwalks = some w → (walkNext w = w.at_ → sendWalk k s = s) ∧
      (walkNext w ≠ w.at_ → sendWalk k s = sendPkt s (.core w.at_) 0 (.core (walkNext w)) s.wafno 16 (.walk k w.req.ctx w.req.lid))) ∧
    (∀ d h t n, w.phase = .carry d h t n → walkNext w = sramCore d) ∧
    ((∀ d h t n, w.phase ≠ .carry d h t n ∧ w.phase ≠ .heldCarry d h t n) →
      walkNext w = if w.at_ = sramCore w.pa then sramCore (walkCell w) else sramCore w.pa)) ∧
  (∀ (s : State) (w : PWalk) (a : Ans), (w.at_ = sramCore w.pa →
      let u := { s with x := { s.x with pwalks := s.x.pwalks.filter fun x => x.id != w.id } };
      endWalk s w a = progress (sendAns u (homeUnit u w.pa) w.req a) w.req.sl.core.f w.req.lid) ∧
    (w.at_ ≠ sramCore w.pa → endWalk s w a = setWalkP s { w with phase := .done a }) ∧
    (w.phase = .done a → w.at_ = sramCore w.pa → walkOne s w = endWalk s w a)) ∧
  (∀ (s s1 : State) (r : PortReq) (pa w0 w1 : Nat), readCell s r pa = .ok (s1, w0, w1) → cellState w0 < 3 ∧
    ∃ a b, homeNat s (some r.ctx) pa 8 false = .ok (a, w0) ∧ homeNat a (some r.ctx) (pa + 8) 8 false = .ok (b, w1)) ∧
  (∀ (s s1 : State) (w : PWalk) (x w0 w1 : Nat), w.phase = .find x ∨ (∃ y wx, w.phase = .parent y wx x) → readCell s w.req x = .ok (s1, w0, w1) →
    let r := w.req; let ty := r.w.ty.toNat; let ends (a : Ans) : Prop := walkOne s w = endWalk s1 w a;
    let goes (q : PWalk) : Prop := walkOne s w = setWalkP s1 q;
    (cellState w0 = 1 → (64 ≤ w.steps → ends (ansCode Code.cellFormat)) ∧ (w.steps < 64 →
      (w.phase = .find x → goes { w with phase := .parent x (BitVec.ofNat 64 w0) (cellParent s1 w0), steps := w.steps + 1 }) ∧
      ∀ y wx, w.phase = .parent y wx x → goes { w with phase := .halve y wx (cellParent s1 w0), steps := w.steps + 1 })) ∧
    (cellState w0 = 2 → (r.op = .pread → ends ⟨0, false, extend ty w1, some 1, none, none, 0⟩) ∧
      (r.op = .pfind → ends ⟨0, false, BitVec.ofNat 64 x, some 2, none, none, 0⟩) ∧ (r.op = .pwait → ends (ansVal (extend ty w1))) ∧
      (r.op = .fill → ends (if w1 = (extend ty r.val.toNat).toNat then ansDone else ansCode Code.foul))) ∧
    (cellState w0 = 0 → (r.op = .pread → ends ⟨0, false, 0, some 0, none, none, 0⟩) ∧
      (r.op = .pfind → ends ⟨0, false, BitVec.ofNat 64 x, some (BitVec.ofNat 32 (cellRank w0 * 256)), none, none, 0⟩) ∧
      (r.op = .pwait ∨ r.op = .fill → goes { w with phase := .act, ra := x, wa := BitVec.ofNat 64 w0 })) ∧
    (cellState w0 ≠ 1 → r.op = .bend →
      (w.second = false → goes { w with
        phase := .find w.pa2, second := true, steps := 0, ra := x, wa := BitVec.ofNat 64 w0, va_ := BitVec.ofNat 64 w1 }) ∧
      (w.second = true → (x = w.ra → ends ansDone) ∧ (x ≠ w.ra →
        (cellState w.wa.toNat = 2 → cellState w0 = 2 → ends (if w.va_ = BitVec.ofNat 64 w1 then ansDone else ansCode Code.foul)) ∧
        (cellState w.wa.toNat ≠ 2 ∨ cellState w0 ≠ 2 →
          goes { w with phase := .act, rb := x, wb := BitVec.ofNat 64 w0, vb_ := BitVec.ofNat 64 w1 }))))) ∧
  (∀ (s s1 : State) (w : PWalk) (x p w0 : Nat) (wx : W64), w.phase = .halve x wx p → homeNat s (some w.req.ctx) x 8 false = .ok (s1, w0) →
    (BitVec.ofNat 64 w0 ≠ wx → walkOne s w = setWalkP s1 { w with phase := .find p }) ∧
    ∀ z, BitVec.ofNat 64 w0 = wx → homeWrite s1 (some w.req.ctx) x (leBytes 8 (linkedTo p)) false = .ok z →
      walkOne s w = setWalkP (wakeStwait z x 8) { w with phase := .find p }) ∧
  (∀ (s s1 : State) (w : PWalk) (w0 w1 : Nat), w.phase = .act → let r := w.req; let put (u : State) (pa a b : Nat) := homeWrite u (some r.ctx) pa (leBytes 8 a ++ leBytes 8 b) false;
    let again : State := setWalkP s1 { w with phase := .find w.pa, second := false, steps := 0 };
    (r.op = .pwait → readCell s r w.ra = .ok (s1, w0, w1) → let o := poolLid s1 r w.ra;
      (cellState w0 = 2 → walkOne s w = endWalk s1 w (ansVal (extend r.w.ty.toNat w1))) ∧ (cellState w0 = 1 → walkOne s w = again) ∧
      (cellState w0 = 0 → (freeRec s1 o = none → walkOne s w = endWalk s1 w (ansCode Code.waiterPool)) ∧
        ∀ i z, freeRec s1 o = some i → let q := pushRec s1 o (cellHead w0) i 1 r 0 false; put q.1 w.ra (cellRank w0 * 2 ^ 56 + q.2) w1 = .ok z →
          let y := wakeStwait z w.ra 16; walkOne s w = { y with x := { y.x with pwalks := y.x.pwalks.filter fun x => x.id != w.id } })) ∧
    (r.op = .fill → readCell s r w.ra = .ok (s1, w0, w1) → walkOne s w =
      if BitVec.ofNat 64 w0 = w.wa then fillRoot s1 w w.ra w0 (extend r.w.ty.toNat r.val.toNat).toNat else again) ∧
    (r.op = .bend → cellState w.wa.toNat = 2 → readCell s r w.rb = .ok (s1, w0, w1) →
      walkOne s w = if BitVec.ofNat 64 w0 = w.wb then fillRoot s1 w w.rb w0 w.va_.toNat else again) ∧
    (r.op = .bend → cellState w.wa.toNat ≠ 2 → cellState w.wb.toNat = 2 → readCell s r w.ra = .ok (s1, w0, w1) →
      walkOne s w = if BitVec.ofNat 64 w0 = w.wa then fillRoot s1 w w.ra w0 w.vb_.toNat else again) ∧
    (r.op = .bend → cellState w.wa.toNat ≠ 2 → cellState w.wb.toNat ≠ 2 →
      let aChild : Prop := cellRank w.wa.toNat < cellRank w.wb.toNat ∨ (cellRank w.wa.toNat = cellRank w.wb.toNat ∧ w.rb < w.ra);
      ∀ ch pa wc, (aChild ∧ ch = w.ra ∧ pa = w.rb ∧ wc = w.wa) ∨ (¬ aChild ∧ ch = w.rb ∧ pa = w.ra ∧ wc = w.wb) →
        readCell s r ch = .ok (s1, w0, w1) → poolLid s1 r ch = poolLid s1 r pa → (BitVec.ofNat 64 w0 ≠ wc → walkOne s w = again) ∧
        ∀ z, BitVec.ofNat 64 w0 = wc → put s1 ch (linkedTo pa) w1 = .ok z →
          ∃ tail, walkOne s w = setWalkP (wakeStwait z ch 16) { w with phase := .carry pa (cellHead w0) tail (cellRank w0) })) ∧
  (∀ (s z : State) (w : PWalk) (pa old v : Nat), homeWrite s (some w.req.ctx) pa (leBytes 8 (2 ^ 63) ++ leBytes 8 v) false = .ok z →
    let y := wakeStwait z pa 16; let o := poolLid y w.req pa; let u := endWalk (wakeList y (homeUnit y pa) o v (recList y o (cellHead old))) w ansDone;
    let t := fillRoot s w pa old v; t.net = u.net ∧ t.mem = u.mem ∧ t.launches = u.launches ∧ t.x = u.x) ∧
  (∀ (s : State) (h : UnitId) (lid v i : Nat) (l : List Nat), (tget (poolOf s lid) i = none → wakeList s h lid v (i :: l) = wakeList s h lid v l) ∧
    (∀ q, tget (poolOf s lid) i = some q → wakeList s h lid v (i :: l) = wakeList (progress (sendAns (setPool s lid (tdel (poolOf s lid) i)) h q.req
      (ansVal (extend q.req.w.ty.toNat v))) q.req.sl.core.f q.req.lid) h lid v l) ∧ wakeList s h lid v [] = s) ∧
  (∀ (s s1 : State) (w : PWalk) (dst head tail rank w0 w1 : Nat), readCell s w.req dst = .ok (s1, w0, w1) → let o := poolLid s w.req dst;
    let t := applyCarry s w dst head tail rank; (cellState w0 = 1 → t = setWalkP s1 { w with phase := .carry (cellParent s1 w0) head tail rank }) ∧
    ∀ s2, readRecs s1 o (recList s1 o head) = .ok s2 →
      (cellState w0 = 2 → t = endWalk (wakeList s2 (homeUnit s2 dst) o w1 (recList s2 o head)) w ansDone) ∧
      (cellState w0 = 0 → let q := if head = 0 then (poolOf s2 o, cellHead w0) else relink (poolOf s2 o) (recList s2 o (cellHead w0) ++ recList s2 o head);
        let rk := if cellRank w0 = rank ∧ cellRank w0 < 63 then cellRank w0 + 1 else cellRank w0;
        ∀ z, homeWrite s2 (some w.req.ctx) dst (leBytes 8 (rk * 2 ^ 56 + q.2) ++ leBytes 8 w1) false = .ok z →
          t = endWalk (setPool (wakeStwait z dst 16) o q.1) w ansDone)) ∧
  (∀ (s : State) (k : Nat) (r : PortReq) (pa : Nat) (cmp : Bool), reqHere s k = some (r, pa, cmp) → HomeInPlace s r.ctx pa →
    let u := dropPkt s k; let v := progress u r.sl.core.f r.lid;
    (first? (fun w : PWalk => w.id == k) s.x.pwalks = none → unitHolds s (homeUnit s pa) = false → homeGuard u r pa = .ok () →
      (∀ a w0 z, r.op = .pnew → homeNat u (some r.ctx) pa 8 false = .ok (a, w0) →
        homeWrite a (some r.ctx) pa (leBytes 8 (if cellState w0 = 0 then cellHead w0 else 0) ++ leBytes 8 0) false = .ok z → let y := wakeStwait z pa 16;
        exec (.walkStep k) s = .next (progress (sendAns y (homeUnit y pa) r ansDone) r.sl.core.f r.lid)) ∧
      (isPromise r.op = true → r.op ≠ .pnew → heldFor u r = none →
        let w : PWalk := ⟨k, r, pa, r.more.headD pa, .find pa, false, 0, 0, 0, 0, 0, 0, 0, sramCore pa⟩;
        exec (.walkStep k) s = .next (sendWalk k (walkOne { u with x := { u.x with pwalks := u.x.pwalks ++ [w] } } w))) ∧
      (∀ w d h t n, r.op = .bend → heldFor u r = some w → w.phase = .heldCarry d h t n →
        exec (.walkStep k) s = .next (setWalkP u { w with req := r, phase := .carry d h t n }))) ∧
    (homeGuard v r pa = .ok () → let o := poolLid v r pa;
      let y := (readRecs v o (objRecs v o pa)).bind fun s => if isPhaser r.op then phStep s (sramCore pa) r pa else lockOne s (sramCore pa) r pa;
      (isPhaser r.op = true → (∀ z, y = .ok z → exec (.phaserStep k) s = .next z) ∧
        ∀ c, y = .error c → exec (.phaserStep k) s = .next (refuse v r pa c)) ∧
      (∀ z, r.op = .acq ∨ r.op = .rel → y = .ok z → exec (.lockStep k) s = .next z) ∧
      (∀ c, r.op = .acq ∨ r.op = .rel → y = .error c → exec (.lockStep k) s = .next (refuse v r pa c)) ∧
      (∀ v1 v2 x, readRecs v o (objRecs v o pa) = .ok v1 → inScope v1 (r.w.fn.toNat % 8) r (sramCore pa) pa = true →
        homeNat v1 (some r.ctx) pa 8 false = .ok (v2, x) →
        (∀ z, r.op = .acq → bit x 63 = false → writeLock v2 r.ctx pa (lockWord r) = .ok z →
          exec (.lockStep k) s = .next (sendAns z (.core (sramCore pa)) r ansDone)) ∧
        (r.op = .rel → bit x 63 = false → exec (.lockStep k) s = .next (refuse v r pa Code.lockState)) ∧
        (∀ z, r.op = .rel → bit x 63 = true → lockList v2 (poolLid v1 r pa) pa = [] → writeLock v2 r.ctx pa (x % 2 ^ 63) = .ok z →
          exec (.lockStep k) s = .next (sendAns z (.core (sramCore pa)) r ansDone)) ∧
        let p := poolLid v1 r pa;
        (r.op = .acq → bit x 63 = true → (freeRec v2 p = none → exec (.lockStep k) s = .next (refuse v r pa Code.waiterPool)) ∧
          ∀ i, freeRec v2 p = some i → exec (.lockStep k) s = .next (pushRec v2 p (lockHead (poolOf v2 p) pa) i 5 r 0 false).1) ∧
        ∀ i l q z, r.op = .rel → bit x 63 = true → lockList v2 p pa = i :: l → tget (poolOf v2 p) i = some q →
          writeLock v2 r.ctx pa (lockWord q.req) = .ok z → exec (.lockStep k) s = .next (sendAns
            (progress (sendAns (setPool z p (relink (tdel (poolOf z p) i) (lockList z p pa).tail).1) (.core (sramCore pa)) q.req ansDone)
              q.req.sl.core.f q.req.lid) (.core (sramCore pa)) r ansDone)))) ∧
  (∀ (s s1 : State) (c : CoreId) (r : PortReq) (pa w0 : Nat) (p : Ph), readPh s r.ctx pa = .ok (s1, w0, p) →
    let o := poolLid s1 r pa; let l := recList s1 o p.head; let sc := r.w.fn.toNat % 8; let t := phStep s c r pa;
    let ends (u : State) (w : Nat) (q : Ph) (a : Ans) : Prop := t = (phFinish u c r pa w q l).map fun z => sendAns z (.core c) r a;
    let waits (u : State) (kind : Nat) (tgt : W32) (nx : Bool) : Prop :=
      (freeRec u o = none → t = .error Code.waiterPool) ∧ ∀ i, freeRec u o = some i → let q := pushRec u o p.head i kind r tgt nx;
        t = writePh q.1 r.ctx pa w0 { p with head := q.2 };
    (r.op = .phnew → r.akv = false → t = if p.head = 0 ∧ inScope s1 sc r c pa = true ∧ ((membersOf s1 c).any fun m => m.2.addr == pa) = false then
        (writePh s1 r.ctx pa (sc * 2 ^ 59) ⟨sc, 0, BitVec.ofNat 32 (r.val.toNat % 2 ^ 24), 0, 0, 0, 0⟩).map fun z => sendAns z (.core c) r ansDone
      else .error Code.phaserState) ∧
    (bits w0 63 62 = 0 → p.scope < 6 → headOk s1 o p.head [2, 3, 4] = true →
      (inScope s1 p.scope r c pa = true → (r.op = .phqry → r.akv = false →
          t = .ok (sendAns s1 (.core c) r ⟨0, false, BitVec.ofNat 64 (p.reg.toNat * 2 ^ 32 + p.sig.toNat), some p.phase, none, none, 0⟩)) ∧
        (r.op = .phdrop → r.akv = false → t = .error Code.phaserState) ∧
        ∀ m, tget (membersOf s1 c) r.akey.toNat = some m → m.addr = pa → m.lid = r.lid → r.akv = true → r.op = .phdrop →
          let u := setMembers s1 c (tdel (membersOf s1 c) r.akey.toNat);
          (m.mode = 1 → t = .ok (sendAns u (.core c) r ansDone)) ∧
          (m.mode ≠ 1 → let q := { p with pend := p.pend - 1 }; (m.next = p.phase → ends u w0 { q with sig := p.sig + 1 } ansDone) ∧
            (m.next ≠ p.phase → m.next = p.phase + 2 → ends u w0 { q with early := p.early - 1 } ansDone) ∧
            (m.next ≠ p.phase → m.next ≠ p.phase + 2 → ends u w0 q ansDone))) ∧
      (p.scope ≤ sc → inScope s1 sc r c pa = true →
        (r.akv = false → (r.op = .phsig → (p.reg = 0 → t = .error Code.phaserState) ∧ (p.reg ≠ 0 → ends s1 w0 { p with sig := p.sig + 1 } (phAns p.phase))) ∧
          (r.op = .phnext → p.reg ≠ 0 → p.sig.toNat + 1 < p.reg.toNat → ∀ i, freeRec s1 o = some i →
            let k := relink (tset (poolOf s1 o) i ⟨3, 0, 0, r, p.phase, false, []⟩) (l ++ [i]);
            t = writePh (setPool s1 o k.1) r.ctx pa w0 { p with sig := p.sig + 1, head := k.2 })) ∧
        ∀ m, tget (membersOf s1 c) r.akey.toNat = some m → m.addr = pa → m.lid = r.lid → r.akv = true →
          let u := setMembers s1 c (tset (membersOf s1 c) r.akey.toNat { m with next := m.next + 1 });
          (r.op = .phsig ∨ r.op = .phnext → (m.mode = 1 → t = .error Code.phaserState) ∧
            (m.mode ≠ 1 → memberSignal p m.next = none → waits s1 4 m.next (r.op == .phnext)) ∧
            ∀ q, m.mode ≠ 1 → memberSignal p m.next = some q → r.op = .phsig ∨ phDone (phAdvance c o (l.length + 3) ⟨u, q, l⟩).p.phase m.next = true →
              ends u w0 q (phAns m.next)) ∧
          (r.op = .phwait → ¬ (r.w.sc = 0 ∧ ∃ x, r.set.c = some x ∧ x.kv = true) → let tgt := if m.mode = 1 then m.next else m.next - 1;
            let u := if m.mode = 1 then u else s1; (phDone p.phase tgt = true → t = .ok (sendAns u (.core c) r (phAns tgt))) ∧
            (phDone p.phase tgt = false → waits u 2 tgt false))))) ∧
  (∀ (p : Ph) (n : W32), (n = p.phase → memberSignal p n = some { p with sig := p.sig + 1 }) ∧
    (n = p.phase + 1 → memberSignal p n = some { p with early := p.early + 1 }) ∧ (n = p.phase + 2 → memberSignal p n = none)) ∧
  (∀ (s : State) (c : CoreId) (lid n : Nat) (p : Ph) (l : List Nat),
    (p.reg = 0 ∨ p.sig.toNat < p.reg.toNat → phAdvance c lid n ⟨s, p, l⟩ = ⟨s, p, l⟩) ∧
    (p.reg ≠ 0 → p.reg.toNat ≤ p.sig.toNat → phAdvance c lid (n + 1) ⟨s, p, l⟩ = phAdvance c lid n
      (phPass c lid ⟨s, { p with phase := p.phase + 1, reg := p.reg + p.pend, pend := 0, sig := p.early, early := 0 }, []⟩ l)) ∧
    ∀ i r out, tget (poolOf s lid) i = some r → r.kind ≠ 4 →
      (phDone p.phase r.target = false → phPass c lid ⟨s, p, out⟩ (i :: l) = phPass c lid ⟨s, p, out ++ [i]⟩ l) ∧
      (phDone p.phase r.target = true → phPass c lid ⟨s, p, out⟩ (i :: l) = phPass c lid ⟨progress
        (sendAns (setPool s lid (tdel (poolOf s lid) i)) (.core c) r.req (phAns r.target)) r.req.sl.core.f r.req.lid, p, out⟩ l)) ∧
  (∀ (s : State) (c : CoreId) (n : Nat) (w : RelW), (tgetD s.x.relw c [])[n]? = some w →
    let out := (outwOf s c).filter fun o => w.waits.contains o.id && untold w.req o;
    (out = [] → ∃ t, exec (.releasePortWait c n) s = .next t ∧ tgetD t.x.relw c [] = (tgetD s.x.relw c []).eraseIdx n ∧
      ∃ p ∈ t.net, p.msg = .req w.req w.req.pa (w.req.cpg && w.req.op != .mread)) ∧
    (out ≠ [] → (∀ o ∈ out, o.code = 0) → exec (.releasePortWait c n) s = .next s) ∧
    (∀ o, refusedOf out = some o → failWaits s w.req o.code = true → exec (.releasePortWait c n) s = .next s) ∧
    (∀ o, refusedOf out = some o → failWaits s w.req o.code = false →
      let gone := { s with x := { s.x with relw := tset s.x.relw c ((tgetD s.x.relw c []).eraseIdx n) } };
      exec (.releasePortWait c n) s = .next (failReq (tellRefused gone w.req out) w.req o.code w.req.va)))

/-- O53. Histories (R228, R232 to R242, R246): an operation that has arrived joins its unit's queue and takes its turn, with nothing else in progress
there; one on a history that is not declared is HIST_HANDLE; one that runs puts out its tokens as its nodes have room, and its effects stand at its
end; so does the processing of the least pending entry that the frontier has passed, and an entry that cannot be processed parks the owner. What each
operation leaves and puts out: HNEW an empty history, HAPP its batch, HJOIN the pairs, HRED the interesting times, HSEEK the sums, HCOMP and HMRG
one batch a side, a pending entry its correction. The inner order of equal work is log 55, the directory's other entries log 112, how a batch
travels log 126. -/
def Obligations.HistoriesRun : Prop :=
  (∀ (s : State) (k : Nat) (r : PortReq) (pa : Nat) (cmp : Bool) (core : CoreId) (off : Nat), reqHere s k = some (r, pa, cmp) →
    isHist r.op = true → decodePA s pa = some (.sram core off) → InPlace s r.ctx →
    first? (fun q : CoreId × HBusy => q.2.id == k) s.x.hbusy = none →
    first? (fun q : CoreId × List HOp => q.2.any fun o => o.id == k) s.x.hq = none →
    let u := dropPkt s k; let v := { u with x := { u.x with hq := tset u.x.hq core (tgetD u.x.hq core [] ++ [⟨k, r, off⟩]) } };
    exec (.historyOperation k) s = .next (if ctxRuns v r.ctx then histNext v core else v)) ∧
  (∀ (s : State) (k : Nat) (core : CoreId) (b : HBusy), first? (fun q : CoreId × HBusy => q.2.id == k) s.x.hbusy = some (core, b) →
    exec (.historyOperation k) s = .next (histGo s core)) ∧
  (∀ (s : State) (k : Nat) (core : CoreId) (l : List HOp), first? (fun q : CoreId × HBusy => q.2.id == k) s.x.hbusy = none →
    first? (fun q : CoreId × List HOp => q.2.any fun o => o.id == k) s.x.hq = some (core, l) →
    exec (.historyOperation k) s = .next (histNext s core)) ∧
  (∀ (s : State) (core : CoreId) (op : HOp), first? (fun o : HOp => !isFrozen s core.f o.req.lid) (tgetD s.x.hq core []) = some op →
    let r := op.req; let pa := sramPA s.wafno core op.off;
    let gone (s : State) : State := { s with x := { s.x with hq := tset s.x.hq core ((tgetD s.x.hq core []).filter fun o => o.id != op.id) } };
    (tget s.x.hbusy core ≠ none ∨ unitHolds s (.core core) = true ∨ ctxRuns s r.ctx = false → histNext s core = s) ∧
    (tget s.x.hbusy core = none → unitHolds s (.core core) = false → ctxRuns s r.ctx = true → homeGuard s r pa = .ok () →
      (histCount s r.lid core op.off = none → histNext s core = refuse (gone s) r pa Code.histHandle) ∧
      (∀ n u h, histCount s r.lid core op.off = some n → tget s.x.hpark (core, op.off) = none → histLoad s r.ctx pa n = .ok (u, h) →
        tget u.x.hpark (core, op.off) = none → (r.op = .hred → ownerOk h r = true) → partBatch r = false →
        (takesBatch r.op = true → (rawBatch r).length ≤ h.free) → histNext s core = histRun (gone u) core op h false))) ∧
  (∀ (s : State) (core : CoreId) (op : HOp) (h : Hist), let r := op.req; let F := stageFront s r.lid r.stage; let own := ownerOf s core op.off;
    (r.op ≠ .hcomp ∨ own = none ∨ leastPassed F h.pend = none → let d := histDo h r own F;
      (∀ o, d = .ok o → histRun s core op h false = histGo (setBusy s core
        ⟨op.id, r, op.off, ownToks r o.out, if readsOnly r.op then [] else o.h.bytes, eaten r :: o.items, 0, 0, 0, t00, false, false⟩) core) ∧
      ∀ c, d = .error c → histRun s core op h false = sendAns s (.core core) r (ansCode c)) ∧
    ∀ w, r.op = .hcomp → own = some w → leastPassed F h.pend ≠ none →
      (∀ i c, tget s.x.hstop (core, op.off) = some (i, c) → c ≠ 0 → histRun s core op h false = sendAns s (.core core) r (ansCode c)) ∧
      (tget s.x.hstop (core, op.off) = none → ∀ z, (∀ t, processAll w F h.pend.length ⟨h, [], [], 0⟩ = (z, 0, t) → ∀ o, histDo z.h r own F = .ok o →
          histRun s core op h false = histGo (setBusy s core ⟨op.id, r, op.off, corrToks w z.x ++ ownToks r o.out, o.h.bytes,
            eaten r :: (z.items ++ o.items), z.flags, 0, 0, t00, false, false⟩) core) ∧
        ∀ c t, processAll w F h.pend.length ⟨h, [], [], 0⟩ = (z, c, t) → c ≠ 0 → histRun s core op h false = histGo (setBusy s core
          ⟨op.id, r, op.off, corrToks w z.x, if z.h = h then [] else z.h.bytes, z.items, z.flags, c, c, t, false, false⟩) core)) ∧
  (∀ (h : Hist) (r : PortReq) (own : Option PortReq) (F : List Time), let t := r.set.id.time; let sd := handleSide r; let done := completion r;
    let grown (k : Hist → List HRec → Prop) : Prop := (∀ c, consolidate (rawBatch r) = .error c → histDo h r own F = .error c) ∧
      ∀ b, consolidate (rawBatch r) = .ok b → ∀ g, appendBatch h (if r.op = .hred then false else sd) b = .ok g → k g b;
    (∀ x, r.op = .hnew → done 4 (handleVal r) = .ok x → ∃ i, histDo h r own F =
      .ok ⟨{ h with batches := [], park := [], pend := [], owner := 0xFFFFFFFF }, [(4, x)], i⟩ ∧ (own = none → i = [])) ∧
    (r.op = .happ → grown fun g _ => ∀ x, done 4 (handleVal r) = .ok x → histDo h r own F = .ok ⟨g, [(4, x)], []⟩) ∧
    (r.op = .hjoin → grown fun g b => ∀ ps x y, joinPairs h r b = .ok ps → endTok r.w (reqFiring r) 4 = .ok x → endTok r.w (reqFiring r) 5 = .ok y →
      histDo h r own F = .ok ⟨g, ps.flatten ++ [(4, x), (5, y)], []⟩) ∧
    (r.op = .hred → grown fun g b => let new := if b = [] then [] else interesting g t b; ∀ y, done 5 (handleVal r) = .ok y →
      (g.free < new.length → histDo h r own F = .error Code.histFull) ∧
      (new.length ≤ g.free → ∃ i, histDo h r own F = .ok ⟨{ g with pend := g.pend ++ new, owner := ownerWord r, ownerw := r.wafer }, [(5, y)], i⟩ ∧
        ∀ q u, (∃ n, ⟨q, u, n⟩ ∈ i) ↔ q ∈ r.xst ∧ (∃ p ∈ new, p.time = u) ∧ ∀ p ∈ h.pend, p.time ≠ u)) ∧
    (∀ ls e, r.op = .hseek → (rawBatch r).mapM (fun q => seekToks h r q.key) = .ok ls → endTok r.w (reqFiring r) 4 = .ok e →
      histDo h r own F = .ok ⟨h, (ls.flatten ++ [e]).map fun t => (4, t), []⟩) ∧
    (r.op = .hcomp ∨ r.op = .hmrg → let c := compactAll h (if r.op = .hcomp then fun q => { q with time := compactTime F q.time } else id);
      (∀ e, c = .error e → histDo h r own F = .error e) ∧
      ∀ g x, c = .ok g → done 4 (handleVal r) = .ok x → histDo h r own F = .ok ⟨g, [(4, x)], []⟩) ∧
    (∀ x, r.op = .hstat → done 4 (statWord h) = .ok x → histDo h r own F = .ok ⟨h, [(4, x)], []⟩) ∧
    (∀ b ps, joinPairs h r b = .ok ps → List.Forall₂ (fun p q => ∃ x y, q = [(4, x), (5, y)] ∧ let u := tjoin p.1.time p.2.time;
        histTok r 4 u p.1.key (if sd then p.2.val else p.1.val) (p.1.dif * p.2.dif) = .ok x ∧
        histTok r 5 u p.1.key (if sd then p.1.val else p.2.val) (p.1.dif * p.2.dif) = .ok y)
      (b.flatMap fun a => ((h.side (!sd)).filter fun c => c.key == a.key).map fun c => (a, c)) ps) ∧
    (∀ k ts, seekToks h r k = .ok ts → List.Forall₂ (fun p x => histTok r 4 t k p.1 p.2 = .ok x) ((sumsAt h sd k t).filter fun p => p.2 != 0) ts)) ∧
  (let tot (l : List HRec) (k : W32) (v : W64) (t : Time) : Int := ((l.filter fun r => r.key == k && r.val == v && r.time == t).map HRec.dif).sum;
   (∀ l m, mergeRecs l = some m → m.Pairwise (fun a b => a.ord < b.ord) ∧ (∀ r ∈ m, r.dif ≠ 0 ∧ dif32 r.dif = true) ∧ ∀ k v t, tot m k v t = tot l k v t) ∧
   (∀ l, (inOrder l = false → consolidate l = .error Code.histOrder) ∧ (inOrder l = true → mergeRecs l = none → consolidate l = .error Code.difOverflow) ∧
     ∀ m, inOrder l = true → mergeRecs l = some m → consolidate l = .ok m) ∧
   (∀ h sd b g, appendBatch h sd b = .ok g → (b = [] → g = h) ∧ (∀ k v t, tot (g.side sd) k v t = tot (h.side sd) k v t + tot b k v t) ∧
     g.side (!sd) = h.side (!sd) ∧ g.batches.length ≤ max 60 h.batches.length ∧ g = { h with batches := g.batches }) ∧
   (∀ h sd b i a j c, b ≠ [] → h.batches.length < 60 → lastTwo { h with batches := h.batches ++ [(sd, b)] } sd = some (i, a, j, c) →
     2 * b.length ≤ a.length → appendBatch h sd b = .ok { h with batches := h.batches ++ [(sd, b)] }) ∧
   (∀ h g z, compactAll h g = .ok z → (∀ sd, (∀ k v t, tot (z.side sd) k v t = tot ((h.side sd).map g) k v t) ∧
     (z.batches.filter fun b => b.1 == sd).length ≤ 1) ∧ z = { h with batches := z.batches }) ∧
   (∀ h g, h.free < max (h.side false).length (h.side true).length → compactAll h g = .error Code.histFull)) ∧
  (∀ (F : List Time) (t : Time), (F = [] → compactTime F t = t) ∧ (F ≠ [] → (∀ f ∈ F, tle (compactTime F t) (tjoin t f) = true) ∧
    ∀ u, (∀ f ∈ F, tle u (tjoin t f) = true) → tle u (compactTime F t) = true)) ∧
  (∀ (h : Hist) (t : Time) (b : List HRec) (p : HRec), let at_ (u : Time) : Prop := u = t ∨ ∃ q ∈ h.batches.flatMap Prod.snd, q.key = p.key ∧ q.time = u;
    p ∈ interesting h t b ↔ p.dif = 0 ∧ p.val = 0 ∧ (∃ q ∈ b, q.key = p.key) ∧ (∃ u w, at_ u ∧ at_ w ∧ p.time = tjoin t (tjoin u w)) ∧
      ∀ q ∈ h.pend, ¬ (q.key = p.key ∧ q.time = p.time)) ∧
  (let cnt (l : List (W64 × Int)) (v : W64) : Int := ((l.filter fun p => p.1 == v).map Prod.snd).sum;
   let up (l : List (W64 × Int)) : Prop := l.Pairwise fun a b => a.1.toNat < b.1.toNat;
   (∀ (h : Hist) sd k t, up (sumsAt h sd k t) ∧ ∀ v, cnt (sumsAt h sd k t) v =
     (((h.side sd).filter fun r => r.key == k && tle r.time t && r.val == v).map HRec.dif).sum) ∧
   (∀ (h : Hist) fn ty k t, fn < 5 → let c := (correction h fn ty k t).1; up c ∧ (∀ p ∈ c, p.2 ≠ 0) ∧
     ∀ v, cnt c v = cnt (desired fn ty (sumsAt h false k t)).1 v - cnt (sumsAt h true k t) v) ∧
   (∀ ty (c : List (W64 × Int)), up c → (∀ v, cnt (desired 0 ty c).1 v = if 0 < cnt c v then 1 else 0) ∧
     (desired 1 ty c).1 = (let n := wrap (widthOf ty) (c.map Prod.snd).sum; if n = 0 then [] else [(extend ty n, 1)]) ∧
     (ty < 8 → (desired 2 ty c).1 = (if ∀ p ∈ c, p.2 = 0 then [] else [(extend ty (c.map fun p => readInt ty p.1.toNat * p.2).sum, 1)]) ∧
       ∀ fn, fn = 3 ∨ fn = 4 → ((∀ p ∈ c, p.2 ≤ 0) → (desired fn ty c).1 = []) ∧ ((∃ p ∈ c, 0 < p.2) → ∃ p ∈ c, 0 < p.2 ∧
         (desired fn ty c).1 = [(extend ty (readInt ty p.1.toNat), 1)] ∧ ∀ q ∈ c, 0 < q.2 →
           if fn = 3 then readInt ty p.1.toNat ≤ readInt ty q.1.toNat else readInt ty q.1.toNat ≤ readInt ty p.1.toNat)))) ∧
  (∀ (h : Hist) (o : PortReq) (p : HRec) (x : List Token), let c := correction h (bits h.owner 7 4) (bits h.owner 3 0) p.key p.time;
    c.1.mapM (fun v => histTok (atPending o p.time) 4 p.time p.key v.1 v.2) = .ok x →
    (h.free < c.1.length → processEntry h o p = .error Code.histFull) ∧
    ∀ g, c.1.length ≤ h.free → appendBatch h true (c.1.map fun v => ⟨p.key, v.2, v.1, p.time⟩) = .ok g → ∃ i,
      processEntry h o p = .ok ⟨{ g with pend := g.pend.erase p }, x, i, c.2⟩ ∧
      ((∃ q ∈ g.pend.erase p, q.time = p.time) → i = []) ∧ ((∀ q ∈ g.pend.erase p, q.time ≠ p.time) →
        i = o.xst.eraseDups.map fun q => ⟨q, p.time, -1⟩)) ∧
  (∀ (o : PortReq) (F : List Time) (n : Nat) (d : Done), (leastPassed F d.h.pend = none → processAll o F n d = (d, 0, t00)) ∧
    ∀ p, leastPassed F d.h.pend = some p → (∀ c, processEntry d.h o p = .error c → processAll o F (n + 1) d = (d, c, p.time)) ∧
      ∀ e, processEntry d.h o p = .ok e → processAll o F (n + 1) d = processAll o F n ⟨e.h, d.x ++ e.x, d.items ++ e.items, d.flags ||| e.flags⟩) ∧
  (∀ (F : List Time) (l : List HRec), (leastPassed F l = none ↔ ∀ p ∈ l, passed F p.time = false) ∧
    ∀ p, leastPassed F l = some p → p ∈ l ∧ passed F p.time = true ∧ ∀ q ∈ l, passed F q.time = true → pendOrd p ≤ pendOrd q) ∧
  (∀ (l : List HRec) (i : Nat) (r : HRec), l[i]? = some r → dif32 r.dif = true → recAt (l.flatMap recBytes) i = r) ∧
  (∀ (s : State) (core : CoreId) (b : HBusy), let u := { s with x := { s.x with hbusy := tdel s.x.hbusy core } };
    let t := histEnd s core b; tget t.x.hbusy core = none ∧ t.mem = (histPut u b.req.ctx b.wr).mem ∧
    (b.proc = false → b.code = 0 → (b.req.op = .hred → tget t.x.hown (core, b.off) = some b.req) ∧
      (b.req.op = .hnew → tget t.x.hown (core, b.off) = none))) ∧
  (∀ (s : State) (core : CoreId) (b : HBusy), tget s.x.hbusy core = some b → ctxRuns s b.req.ctx = true → unitHolds s (.core core) = false →
    isFrozen s core.f b.req.lid = false → let q := sendToks core s b.out;
    let v := if b.req.wafer = s.wafno then progress q.1 b.req.sl.core.f b.req.lid else q.1;
    (q.2 = [] → histGo s core = histEnd v core b) ∧ (q.2 ≠ [] → histGo s core = setBusy v core { b with out := q.2 })) ∧
  (∀ (s u : State) (core : CoreId) (off n : Nat) (o : PortReq) (h : Hist) (p : HRec), tget s.x.hbusy core = none →
    ownerOf s core off = some o → histCount s o.lid core off = some n → ctxRuns s o.ctx = true → unitHolds s (.core core) = false →
    isFrozen s core.f o.lid = false → tget s.x.hstop (core, off) = none → histLoad s o.ctx (sramPA s.wafno core off) n = .ok (u, h) →
    h.owner ≠ 0xFFFFFFFF → leastPassed (stageFront u o.lid o.stage) h.pend = some p →
    (∀ d, processEntry h o p = .ok d → let v := fresh u;
      exec (.historyPendingProcess core off) s = .next (histGo
        (setBusy v.2 core ⟨v.1, o, off, corrToks o d.x, d.h.bytes, d.items, d.flags, 0, 0, t00, false, true⟩) core)) ∧
    (∀ c, processEntry h o p = .error c → exec (.historyPendingProcess core off) s = .next (stallOwner u core off o c p.time))) ∧
  (∀ (s : State) (core : CoreId) (b : HBusy), tget s.x.hbusy core = some b → b.proc = true →
    exec (.historyPendingProcess core b.off) s = .next (histGo s core))

/-- O54. What comes back (R189, R196, R263, R350, R414): an answer that serves its request reaches its node, which emits its tokens; a retry is
set aside for its time; an acknowledgement reaches its engine; a finished walk gives its translation to every core that waits for the page, or its fault to every set. An answer or an acknowledgement that cannot be finished yet is kept at its
end (log 126 for the records of a batch); a set waits for its translation before it issues (log 21). -/
def Obligations.AnswersReturn : Prop :=
  (∀ (s : State) (k : Nat) (p : Packet), pkt? s k = some p → arrived s p = true →
    (∀ r a n xs ys, p.msg = .ans r a → InPlace s r.ctx → staleAns s r = false → isHist r.op = false → let u := dropRemote (dropPkt s p.id) r.rid;
      reqNode u r = some n → a.again = false → a.code = 0 → r.op ≠ .st → ansToks r a = .ok (xs, ys) →
      let v := if isWrite r.op then ackWrite u r 0 else u;
      exec (.memoryResponse k) s = .next (finishReq (orWord v r.lid r.sl.core.f a.flags) r n xs ys [])) ∧
    (∀ r a, p.msg = .ans r a → InPlace s r.ctx → staleAns s r = false → a.again = true → a.code = 0 → let u := dropRemote (dropPkt s p.id) r.rid;
      let c : UnitId := if r.op = .mread then miOf r.sl.core else .core r.sl.core;
      exec (.memoryResponse k) s = .next { u with x := { u.x with retry := tset u.x.retry c (tgetD u.x.retry c [] ++ [⟨r, ctr u c⟩]) } }) ∧
    (∀ r a n, p.msg = .ans r a → InPlace s r.ctx → staleAns s r = false → isHist r.op = true → isCorrection r = false →
      let u := dropRemote (dropPkt s p.id) r.rid;
      reqNode u r = some n → a.again = false → a.code = 0 → exec (.memoryResponse k) s = .next (readOn u r.sl)) ∧
    (∀ r port slot t first last, p.msg = .hist r port slot t first last → InPlace s r.ctx → staleAns s r = false →
      let u := if last then dropRemote (dropPkt s p.id) r.rid else dropPkt s p.id;
      answerWaits u p.msg = false → u.x.late.any (lateBehind r port) = false →
      exec (.memoryResponse k) s = .next (deliverHist u r port slot t first)) ∧
    (∀ r a, p.msg = .ans r a → InPlace s r.ctx → staleAns s r = false → a.code ≠ 0 → let u := dropRemote (dropPkt s p.id) r.rid;
      (answerWaits u p.msg = true → exec (.memoryResponse k) s = .next { u with x := { u.x with late := u.x.late ++ [p.msg] } }) ∧
      (answerWaits u p.msg = false → ∀ n, isCorrection r = false → isWrite r.op = false → r.op ≠ .st → reqNode u r = some n → a.again = false →
        exec (.memoryResponse k) s = .next (failReq u r a.code (faultAddr r a.code)))) ∧
    (∀ r a, p.msg = .ans r a → staleAns s r = true → exec (.memoryResponse k) s = .next (dropPkt s p.id)) ∧
    (∀ src ctx lid code va n, p.msg = .ack src ctx lid code va n → (staleAck s p n = true → exec (.memoryResponse k) s = .next (dropPkt s p.id)) ∧
      (InPlace s ctx → staleAck s p n = false → let u := dropRemote (dropPkt s p.id) n;
        (ackWaits u src code = true → exec (.memoryResponse k) s = .next { u with lateAck := u.lateAck ++ [p.msg] }) ∧
        (ackWaits u src code = false → exec (.memoryResponse k) s = .next (if src.drain then drainAck u src lid code va else streamAck u src code va))))) ∧
  (∀ (s : State) (src : ArrSrc), (∀ m ∈ s.lateAck, ∀ a c l d v n, m = .ack a c l d v n → srcUnit a ≠ srcUnit src) → ackWaits s src 0 = false) ∧
  (∀ (s : State) (f n ev : Nat) (w : Walk), (tgetD s.twalks f [])[n]? = some w → w.code = 0 →
    (∀ x ∈ walkHomes s w.req.ctx w.va, underBudget s x 2 = true) → let u := walkFix (spendWalk s w.req.ctx w.va) w.req.ctx w.va;
    (∀ c, walkTable u w.req.ctx w.va = .error c → exec (.translationWalkComplete f n ev) s = .next { u with
      twalks := tset u.twalks f ((tgetD u.twalks f []).map fun v => if sameWalk w v 16 then { v with code := c } else v) }) ∧
    (∀ leaf b, walkTable u w.req.ctx w.va = .ok (leaf, b) → ∃ t, exec (.translationWalkComplete f n ev) s = .next t ∧
      tgetD t.twalks f [] = (tgetD s.twalks f []).filter (fun v => !sameWalk w v b) ∧ t.mem = s.mem ∧
      (tgetD s.tlbs w.core [] = [] → ((tgetD s.twalks f []).filter fun v => sameWalk w v b) = [w] →
        tgetD t.tlbs w.core [] = [⟨w.req.ctx, w.va / 2 ^ b * 2 ^ b, b, BitVec.ofNat 64 leaf⟩])))

/-! ## Engines -/

/-- O55. Streamer islands (R336, R341, R345, R348 to R353, R357, R361, R365): the oldest command that has arrived is accepted, or answered with its
code; a stream whose turn it is sends its next chunk, after what waits for its destinations; a stream whose work is done writes its stamp and
answers; an access to another wafer is first sent and timed; a unit that decodes too long faults every destination with the unit's address, or
the access. That accesses to other wafers take steps of their own is log 9, what a node learns of a unit that decodes too long log 48, and how long a
chunk is log 50. -/
def Obligations.StreamsRun : Prop :=
  (∀ (s : State) (f n : Nat) (p : Packet) (r : PortReq), arrivedCmd s (fun r => isStreamer r.op && siOf r.sl.core == .si f n) = some (p, r) →
    queued (siGet s f n) < 64 → InPlace s r.ctx → awayFor s r.ctx r.va (true, false) = false → let i : UnitId := .si f n;
    let refused (u : State) (c : Nat) (again : Bool) : Prop := exec (.streamAccept f n) s =
      .next (sendPkt (dropPkt u p.id) i 2 (.core r.sl.core) u.wafno 0 (.ans r { ansCode c with again := again }));
    let taken (u : State) (x : Stream) : Prop := exec (.streamAccept f n) s = .next (addStream (dropPkt u p.id) f n x);
    let judged (u : State) (b : List Byte) : Prop := let fars := if r.op = .mcpy then dlistFar u r.ctx b r.val else [];
      let kept := setSi u f n { siGet u f n with desc := some (r.rid, b) };
      (∀ w ∈ fars, farNew kept i (acceptTag + 1) (some w) = true → ∃ t, exec (.streamAccept f n) s = .next t ∧ (siGet t f n).desc = some (r.rid, b) ∧
        t.net = u.net ∧ ∃ m ∈ t.remotes, m.unit = i ∧ m.wafer = w ∧ m.what = .access (acceptTag + 1) r.lid ∧ m.since = ctr u i) ∧
      ((∀ w ∈ fars, farNew kept i (acceptTag + 1) (some w) = false) → let v := fars.foldl (fun s w => farGot s i (acceptTag + 1) (some w)) kept;
        let z := setSi v f n { siGet v f n with desc := none };
        (∀ c, judgeDesc z r b = .error c → refused z c (!(catchable c && c == Code.decodeLength))) ∧ ∀ y x, judgeDesc z r b = .ok (y, x) → taken y x);
    (r.op = .gfree → (∀ c, judgeGfree s r = .error c → refused s c (!(catchable c && c == Code.decodeLength))) ∧
      ∀ u x, judgeGfree s r = .ok (u, x) → taken u x) ∧
    (∀ b, r.op ≠ .gfree → (siGet s f n).desc = some (r.rid, b) → judged s b) ∧
    (r.op ≠ .gfree → (∀ b, (siGet s f n).desc ≠ some (r.rid, b)) →
      let to_ := if paWafer r.pa = s.wafno then none else some (paWafer r.pa); let v := farGot s i acceptTag to_;
      (farNew s i acceptTag to_ = true → exec (.streamAccept f n) s = .next (farSend s i acceptTag r.lid (paWafer r.pa))) ∧
      (farNew s i acceptTag to_ = false → (∀ c, pieceRead v r.ctx r.lid r.pa 64 r.cpg = .error c → refused v c (!catchable c)) ∧
        ∀ u b, pieceRead v r.ctx r.lid r.pa 64 r.cpg = .ok (u, b) → judged u b))) ∧
  (∀ (s : State) (f n id : Nat) (x : Stream), stream? s f n id = some x → InPlace s x.ctx → unitHolds s (.si f n) = false →
    ((x.dsts.any fun d => !d.held.isEmpty) = true → engineWaits s x.req Code.paneState = false →
      exec (.streamChunk f n id) s = .next (flushHeld s f n x)) ∧
    (chunkReady (siGet s f n) x = true → itsTurn (siGet s f n) id = true → engineWaits s x.req Code.paneState = false →
      awayFor s x.ctx (nextSrc x) (true, false) = false → let to_ := farWafer s x.ctx (nextSrc x) (true, false);
      (underBudget s (srcHome s x) 3 = false → exec (.streamChunk f n id) s = .next s) ∧
      (underBudget s (srcHome s x) 3 = true → farNew s (.si f n) id to_ = true →
        exec (.streamChunk f n id) s = .next (farSend s (.si f n) id x.lid (to_.getD 0))) ∧
      (underBudget s (srcHome s x) 3 = true → farNew s (.si f n) id to_ = false → let v := farGot s (.si f n) id to_;
        let u := chunkOf (spend v (srcHome v x) 3 (beatsOf 2048)) f n x;
        exec (.streamChunk f n id) s = .next (setSi u f n { siGet u f n with turn := id }))) ∧
    (streamDone x = true → lastHolds s x = true → exec (.streamComplete f n id) s = .next s) ∧
    (streamDone x = true → lastHolds s x = false → awayFor s x.ctx x.stamp (false, true) = false → awayFor s x.ctx (lastVa x) (false, true) = false →
      let to_ := if lastVa x = 0 then none else farWafer s x.ctx (lastVa x) (false, true);
      farNew s (.si f n) id to_ = true → exec (.streamComplete f n id) s = .next (farSend s (.si f n) id x.lid (to_.getD 0))) ∧
    (streamDone x = true → lastHolds s x = false → awayFor s x.ctx x.stamp (false, true) = false → awayFor s x.ctx (lastVa x) (false, true) = false →
      let to_ := if lastVa x = 0 then none else farWafer s x.ctx (lastVa x) (false, true);
      farNew s (.si f n) id to_ = false → let v := farGot s (.si f n) id to_;
      (∀ xf w k rows cols src len, x.kind = .copy xf w k rows cols src len → let d := delivered x;
        let r := if d = x.mask then writeStamp v f n x else (v, 0);
        exec (.streamComplete f n id) s = .next (finishStream r.1 f n x d.toNat (if x.err = 0 then r.2 else x.err))) ∧
      (∀ es sc m base idx win, x.kind = .gbind es sc m base idx win →
        exec (.streamComplete f n id) s = .next (bindWindow v f n x win (some ⟨es, sc, m, base, idx, x.ctx, x.lid⟩))) ∧
      (∀ win, x.kind = .unbind win ∨ x.kind = .gfree win → exec (.streamComplete f n id) s = .next (bindWindow v f n x win none)) ∧
      (∀ ncls nrows rp out cnta bnda, x.kind = .bin ncls nrows rp out cnta bnda →
        exec (.streamComplete f n id) s = .next (finishBin v f n x nrows cnta)) ∧
      (∀ src desc j, x.kind = .qpost src desc (some j) → exec (.streamComplete f n id) s = .next (finishQpost v f n x desc j)))) ∧
  (∀ (s : State) (k pa e : Nat) (r : PortReq), reqHere s k = some (r, pa, true) → (isPlain r.op || isAtomic r.op || r.op == .stwait) = true →
    exec (.decodeLength (.load k) e) s = .next (refuse (dropPkt s k) r pa Code.decodeLength)) ∧
  (∀ (s : State) (f n id pa e : Nat) (x : Stream), stream? s f n id = some x → let va := nextSrc x;
    translate s x.ctx va (true, false) = .ok (pa, true) → InPlace s x.ctx → chunkReady (siGet s f n) x = true → unitHolds s (.si f n) = false →
    engineWaits s x.req Code.decodeLength = false → let unit := va / 2048 * 2048;
    ((∀ w k rows cols src len, x.kind ≠ .copy 0 w k rows cols src len) →
      exec (.decodeLength (.stream f n id) e) s = .next (failAll s f n ((stream? s f n x.id).getD x) Code.decodeLength (some unit))) ∧
    (∀ w k rows cols src len, x.kind = .copy 0 w k rows cols src len →
      let r := readUpTo s x.ctx x.lid va (min (min e 2047 - va % 2048) (len - x.off));
      let v := sendOut (modStream r.1 f n x.id fun y => { y with off := y.off + r.2.1.length }) f n x x.off r.2.1;
      r.2.2 = none →
      exec (.decodeLength (.stream f n id) e) s = .next (failAll v f n ((stream? v f n x.id).getD x) Code.decodeLength (some unit))))

/-- O56. Matrix islands (R376 to R393): a command is accepted or answered with its code; the head of the control queue takes effect once the commands
before it that it waits for are gone; a finished load replaces the shadow plane; the oldest held command whose next row is ready applies that row to
its accumulator row; a drain whose every byte is answered ends. Which row passes first is the model's (log 56), and a
frozen region's commands halt. -/
def Obligations.MatrixIslandsRun : Prop :=
  (∀ (s : State) (f n : Nat) (p : Packet) (r : PortReq),
    arrivedCmd s (fun r => isMatrix r.op && miOf r.sl.core == .mi f n && ctxRuns s r.ctx && matrixRoom (miGet s f n) r.op) = some (p, r) →
    let to_ := if r.op = .mdrain then farWafer s r.ctx r.va (true, false) else none; let i : UnitId := .mi f n;
    (farNew s i acceptTag to_ = true → exec (.matrixAccept f n) s = .next (farSend s i acceptTag r.lid (to_.getD 0))) ∧
    (farNew s i acceptTag to_ = false → let u := dropPkt (farGot s i acceptTag to_) p.id;
     (∀ c, judgeMatrix u (miGet u f n) r = .error c →
       exec (.matrixAccept f n) s = .next (sendAns u i r { ansCode c with again := c != Code.decodeLength })) ∧
     (∀ v c, judgeMatrix u (miGet u f n) r = .ok (v, c) → exec (.matrixAccept f n) s = .next (acceptCmd v f n c)))) ∧
  (∀ (s : State) (f n : Nat) (c : MCmd) (l : List MCmd), let m := miGet s f n;
    m.ctrl = c :: l → ctxRuns s c.req.ctx = true → unitHolds s (.mi f n) = false →
    let free := m.pool.all fun d => !c.before.contains d.id;
    let gone (m' : Mi) : State := setMi s f n { m' with ctrl := l };
    let ends (u : State) (v : W64) (x : W64) : Prop := exec (.matrixControlApply f n) s = .next (matrixAns u f n c v 0 x);
    (isFrozen s f c.req.lid = true → exec (.matrixControlApply f n) s = .next s) ∧ (isFrozen s f c.req.lid = false →
    (c.req.op = .mswap → free = true →
      ends (gone { m with active := m.shadow, shadow := m.active }) (BitVec.ofNat 64 (m.shadow.wk.getD 64)) 0) ∧
    (c.req.op = .mclr → free = true →
      ends (gone { m with acc := tset m.acc c.plane (resetNextk { accGet m c.plane with acc := [], kind := 0 }) }) (aVal c.req) 0) ∧
    (c.req.op = .mmask → free = true →
      ends (gone { m with acc := tset m.acc c.plane (resetNextk { accGet m c.plane with mask := c.req.val }) }) (aVal c.req) 0) ∧
    (c.req.op = .mclr ∨ c.req.op = .mmask → free = false → exec (.matrixControlApply f n) s = .next s) ∧
    (c.req.op = .mstat → ends (gone m) (aVal c.req) (statusWord m c.plane)) ∧
    (c.req.op = .mload → c.going = false → exec (.matrixControlApply f n) s =
      .next (modHead (askPane s f n c 0) f n fun d => { d with going := true })) ∧
    (c.req.op = .mdrain → c.going = true ∨ (∀ j, j < c.rows → nextkOf (accGet m c.plane) (c.row0 + j) = 64) →
      exec (.matrixControlApply f n) s = .next (drainStep s f n m c))) ∧
    (c.req.op = .mload → c.going = true → c.got.length = c.panes.length + c.scale.toList.length → c.err = 0 → c.m24 = false →
      let pane (i : Nat) : List Byte := tgetD c.got i [];
      let z : Plane := ⟨some c.kseq, c.fmt, false, (List.range c.panes.length).flatMap pane, [],
        if c.scale.isSome then pane c.panes.length else []⟩;
      exec (.weightLoadComplete f n) s = .next (matrixAns (gone { m with shadow := z }) f n c (aVal c.req) 0 0)) ∧
    (c.req.op = .mdrain → c.going = true → (c.done = c.rows ∧ c.buf = []) ∨ c.err ≠ 0 → c.out = 0 →
      exec (.mdrainComplete f n) s = .next (matrixAns (gone m) f n c (BitVec.ofNat 64 c.dest) c.err 0))) ∧
  (∀ (s : State) (f n : Nat) (c : MCmd), let m := miGet s f n; let a := accGet m c.plane; let r := c.row0 + c.done;
    first? (fun c => rowReady m c && ctxRuns s c.req.ctx && !isFrozen s f c.req.lid && !unitHolds s (.mi f n)) m.pool = some c →
    (classOk m.active a c.fmt = false → exec (.rowPass f n) s = .next (retireStream s f n c Code.matrixFormat)) ∧
    (classOk m.active a c.fmt = true → c.done + 1 < c.rows → ∃ t, exec (.rowPass f n) s = .next t ∧ t.mem = s.mem ∧
      let u := rowUpdate m.active a c.fmt ((nextRow c).getD []) ((runScale c).getD []) c.done r;
      let b := accGet (miGet t f n) c.plane;
      b.acc = u.1.acc ∧ nextkOf b r = nextSet a.mask 64 (c.kseq + 1) ∧ (∀ k, k ≠ r → nextkOf b k = nextkOf a k) ∧
      ∀ q, q ≠ c.plane → accGet (miGet t f n) q = accGet m q))

/-! ## Records, packets, links -/

/-- O57. Fault records, hangs and the mesh (R307, R311 to R315, R401, R403, R406): a partition's oldest held record is written with its lap stamp
and WRIDX advances; a region that has stood still with work in it is frozen with HANG; a packet passes its source's budget, then one router a hop, X
before Y, and at the last one leaves for its destination, class 0 and its class's turn first; a refused beat is counted where it was refused, and the
eighth freezes the region there; a budget's period ends. The order of records is log 87, a hang's entries log 91, whose turn it is at an output
log 105. -/
def Obligations.RecordsAndMesh : Prop :=
  (∀ (s u : State) (p : Nat) (z : Part) (r : FRec), tget s.parts p = some z → first? (fun r : FRec => r.part == p) s.recQ = some r →
    let q := supr s (homeField s p);
    (q.frwr - q.frrd).toNat ≠ q.ringN → homeWrite s none (q.slot q.frwr) (frecBytes s r (q.lap q.frwr)) false = .ok u →
    waitingAway u (homeUnit u (q.slot q.frwr)) = [] →
    ∃ t, exec (.faultRecordWrite p) s = .next t ∧ t.mem = u.mem ∧ supr t (homeField s p) = { q with frwr := q.frwr + 1 } ∧
      t.recQ = dropFirst (fun x => x.rid == r.rid) s.recQ ∧ tget t.recs (p, q.frwr) = some ⟨r, false⟩) ∧
  (∀ (s : State) (p : Nat) (z : Part) (r : FRec), tget s.parts p = some z → first? (fun r : FRec => r.part == p) s.recQ = some r →
    let q := supr s (homeField s p);
    (q.frwr - q.frrd).toNat = q.ringN → exec (.faultRecordWrite p) s = .next s) ∧
  (∀ (s : State) (f lid p : Nat) (l : Launch), launch? s lid = some l → partOfField s f = some p →
    (partOfField s (homeField s p)).isSome = true → l.stat = .running →
    l.fields.contains f = true → ctxRuns s l.ctx = true → isFrozen s f lid = false → seqrHolds s (homeField s p) = false →
    stalled s (homeField s p) f lid = true → holdsWork s lid f = true →
    ∃ t, exec (.hang f lid) s = .next t ∧ isFrozen t f lid = true ∧
      ∃ r ∈ t.recQ, r.code = Code.hang ∧ r.kind = 3 ∧ r.cls = 1 ∧ r.lid = lid ∧ r.unit = .seqr (homeField s p)) ∧
  (∀ (s : State) (k : Nat) (p : Packet) (i : Bool → Instr), pkt? s k = some p → p.id = k →
    (i = (fun bad => .meshHop k bad) ∧ p.fails = 0) ∨ (i = (fun bad => .beatResend k bad) ∧ 0 < p.fails) →
    let stays : Prop := ∀ bad, exec (i bad) s = .next s;
    let refused (u : UnitId) : Prop := p.fails < 7 ∨ unitHolds s u = false → ∃ t, exec (i true) s = .next t ∧ (budgetOf t u).hopr = satInc (budgetOf s u).hopr ∧
      (p.fails = 7 → isFrozen t (regionField u) (msgLid p.msg) = true);
    let e := exitOf s p;
    (p.out = true ∨ behind s p = true → stays) ∧
    (p.out = false → behind s p = false → p.inj = false →
      (gateOpen s p = false ∨ arrivalAway s p = true → stays) ∧
      (gateOpen s p = true → arrivalAway s p = false → refused (.core (routerCore p.here)) ∧ exec (i false) s =
        .next (crossed s p fun s => setPkt (useBudget s p) k fun q => { q with inj := true, fails := 0, sent := 0 }))) ∧
    (p.out = false → behind s p = false → p.inj = true →
      (outranked s p = true → stays) ∧
      (outranked s p = false →
        refused e.far ∧ exec (i false) s = .next (crossed s p fun s => setPkt (takeTurn s p e) k e.move)))) ∧
  (∀ (s : State) (p : Packet), let g := goalOf s p;
    (p.here ≠ g.1 → exitOf s p = .router (nextRouter p.here g.1)) ∧ (p.here = g.1 → exitOf s p = .unit ((g.2.map UnitId.port).getD p.to_)) ∧
    ∀ f : State → State, (p.fails = 0 ∨ p.beats ≤ p.sent + 1 → crossed s p f = f s) ∧
      (p.fails ≠ 0 → p.sent + 1 < p.beats → crossed s p f = setPkt s p.id fun q => { q with fails := 0, sent := q.sent + 1 })) ∧
  (∀ h g : Router, h.gx ≠ g.gx → (nextRouter h g).gy = h.gy) ∧
  (∀ (s : State) (u : UnitId), hasBudget u = true → let b := budgetOf s u;
    (b.period ≤ (ctr s u - b.since).toNat → ∃ t, exec (.budgetPeriod u) s = .next t ∧ t = { s with budgets := t.budgets } ∧
      budgetOf t u = ⟨b.nperiod.getD b.period, b.nbud.getD b.bud, none, none, [0, 0, 0, 0], ctr s u, b.corr, b.hopr, b.turn⟩) ∧
    ((ctr s u - b.since).toNat < b.period → exec (.budgetPeriod u) s = .next s))

/-- O58. Optical ports (R324 to R335, R339): a trained port waits for its keys, a lost signal takes it DOWN with its frames held; a key that the peer
has acknowledged replaces the current one with CTR 0; a data frame leaves under a fresh counter and is held; a frame that fails a check is counted
and NAKed, and the eighth refusal of one frame takes the port DOWN; a frame that must come again after one that was refused is left (log 115); what a key acknowledgement names is log 83; an
acknowledgement of the key in use takes a waiting port UP. -/
def Obligations.LinksRun : Prop :=
  ∀ (s : State) (p : Nat), let l := lportOf s p; let put (q : LPort) : State := { s with ports := tset s.ports p q };
    (l.st = .down → p < 64 → exec (.linkTrained p) s = .next (put { l with st := .keywait })) ∧
    (l.st ≠ .down → ∃ t, exec (.linkDown p) s = .next t ∧ (lportOf t p).st = .down ∧ (lportOf t p).unack = l.unack ∧
      (lportOf t p).outq = l.outq ∧ t.mem = s.mem) ∧
    (∀ k, l.st = .up ∨ l.st = .keystall → l.txNext = some k → l.ackd = some k.kid →
      exec (.keyChange p) s = .next (put { l with txCur := some k, txNext := none, txctr := 0, due := false, st := .up })) ∧
    (∀ k ch o rest, p < 64 → l.st = .up → l.txCur = some k → ch < 0x2000 → l.clash = false → waitsTurn s p ch = false →
      let u := pull s p ch; let m := lportOf u p;
      cutPiece ch m.outq = some (o, rest) → (2 ^ 48 - 1 ≤ m.txctr.toNat + o.flits.length + 1 → (l.mayChange = true → exec (.frameSend p ch) s = .next s) ∧
        (l.mayChange = false → ∃ t, exec (.frameSend p ch) s = .next t ∧ (lportOf t p).st = .keystall ∧ (lportOf t p).outq = l.outq ∧
          ((partOfField s (portField p)).isSome = true → ∃ r ∈ t.recQ, r.code = Code.linkKey ∧ r.unit = .port p))) ∧
      (m.txctr.toNat + o.flits.length + 1 < 2 ^ 48 - 1 → ∃ t, exec (.frameSend p ch) s = .next t ∧ t.mem = u.mem ∧
        (lportOf t p).txctr = BitVec.ofNat 48 (m.txctr.toNat + o.flits.length + 2) ∧ (lportOf t p).outq = rest ∧
        (lportOf t p).unack = m.unack ++ [⟨m.txctr, ch, o.flits, o.timer, owedNext u p m, m.kid, o.dst⟩] ∧
        (lportOf t p).served = m.turnTaken ch)) ∧
    (∀ ch, (l.redo = 0 → waitsTurn s p ch = (class0First s p ch || outOfTurn s p ch)) ∧ (∀ o os, 0 < l.redo → l.outq = o :: os → waitsTurn s p ch = (o.ch != ch))) ∧
    (∀ ch, ch < 0x2000 → l.clash = true ∨ waitsTurn s p ch = true → exec (.frameSend p ch) s = .next s) ∧
    (∀ fr, l.st ≠ .down → fr.hdr.kind ≠ 3 → openFrame s.wafno p l fr = none →
      let n := if l.nakd then l.refus else l.refus + 1;
      (n < 8 → exec (.frameReceive p fr) s = .next (put { l with authf := satAdd l.authf 1, nakd := true, refus := n })) ∧
      (8 ≤ n → ∃ t, exec (.frameReceive p fr) s = .next t ∧ (lportOf t p).st = .down ∧ (lportOf t p).authf = satAdd l.authf 1)) ∧
    (∀ fr next d, l.st ≠ .down → fr.hdr.kind ≠ 3 → openFrame s.wafno p l fr = some (next, d) → tooEarly l fr.hdr = true →
      exec (.frameReceive p fr) s = .next (leaveFrame s p fr.hdr) ∧ (fr.hdr.nak = false → leaveFrame s p fr.hdr = s)) ∧
    (∀ fr next d, l.st ≠ .down → fr.hdr.kind = 2 → openFrame s.wafno p l fr = some (next, d) →
      tooEarly l fr.hdr = false →
      exec (.frameReceive p fr) s = .next (acceptFrame s p l fr next)) ∧
    (∀ fr next d, l.st ≠ .down → fr.hdr.kind = 1 → openFrame s.wafno p l fr = some (next, d) →
      tooEarly l fr.hdr = false → let u := acceptFrame s p l fr next;
      (fr.hdr.ch.toNat < 0x1000 → exec (.frameReceive p fr) s = .next (d.foldl (fun s f => tokenIn s p fr.hdr.ch.toNat f) u)) ∧
      (0x1000 ≤ fr.hdr.ch.toNat → exec (.frameReceive p fr) s = .next (meshIn u p fr.hdr.ch.toNat d))) ∧
    (∀ fr next d k, l.st = .keywait → fr.hdr.kind = 3 → openFrame s.wafno p l fr = some (next, d) →
      l.txCur = some k → k.kid = fr.hdr.kid → l.rxCur.isSome = true → next = false →
      ∃ t, exec (.keyAckFrame p fr) s = .next t ∧ (lportOf t p).st = .up ∧ (lportOf t p).ackd = some fr.hdr.kid) ∧
    (∀ t : Token, flitToken (tokenFlit t) = t)

/-! ## The host side -/

/-- O59. Register writes and host accesses (R3, R110, R312, R313, R335, R416, R419 to R422): a register write that has reached its unit is applied
there, reserved bits and values out of range left out; a host access goes to its window's target or completes with Unsupported Request; an AtomicOp
answers the old value. That a host access names BAR0 by offsets from 2^38 is log 140. -/
def Obligations.RegistersAndHost : Prop :=
  (∀ (s : State) (n : Nat) (w : RegW) (r : RegAt), first? (fun w : RegW => w.n == n) s.regw = some w → regOf w.pa = some r →
    let u := { s with regw := dropFirst (fun w => w.n == n) s.regw };
    exec (match r.step with
      | .cstat => .cstatWrite n
      | .mper => .mperWrite n
      | .mbud => .mbudWrite n
      | .ltmo => .ltmoWrite n
      | .frctl => .frctlWrite n
      | .hangiv => .hangivWrite n
      | .other => .registerWrite n) s = .next (regPut u r w.v)) ∧
  (∀ (s : State) (c : CoreId) (i : Nat) (v : W64), memCol c.cx = false → i < 256 → let sl : Slot := ⟨c, i / 8, i % 8⟩;
    flagsOf (regPut s (.core c (16 * i + 8)) v) sl = flagsOf s sl &&& ~~~(v.extractLsb' 0 5) ∧
    holdOf (regPut s (.core c (16 * i)) v) sl = v) ∧
  (∀ (s : State) (c : CoreId) (v : W64), let n := bits v.toNat 16 0; let b := budgetOf s (.core c); let t := regPut s (.core c 0x7000) v;
    (64 ≤ n → n ≤ 65536 → budgetOf t (.core c) = { b with nperiod := some n }) ∧ (n < 64 ∨ 65536 < n → t = s) ∧
    budgetOf (regPut s (.core c 0x7008) v) (.core c) = { b with nbud := some v }) ∧
  (∀ (s : State) (f : Nat) (v : W64), let n := bits v.toNat 19 0; let k := bits v.toNat 4 0; let h := bits v.toNat 5 0;
    (1 ≤ n → n ≤ 1000000 → (regPut s (.link 8) v).ltmo = n) ∧ (n < 1 ∨ 1000000 < n → regPut s (.link 8) v = s) ∧
    (12 ≤ k → k ≤ 24 → supr (regPut s (.sup f 0x08) v) f = { supr s f with frlog2 := k }) ∧ (k < 12 ∨ 24 < k → regPut s (.sup f 0x08) v = s) ∧
    (10 ≤ h → h ≤ 40 → supr (regPut s (.sup f 0x28) v) f = { supr s f with hangiv := h }) ∧
    (h < 10 ∨ 40 < h → regPut s (.sup f 0x28) v = s)) ∧
  (∀ (s : State) (fn off c pa : Nat) (t : Tgt), let ur (n : Nat) : State := { s with host := { s.host with lastRd := List.replicate n 0xFF, ur := true } };
    let got (u : State) (b : List Byte) : State := { u with host := { u.host with lastRd := b, ur := false } };
    (∀ bs, bs.length ≤ 512 → inBar0 fn off bs.length = true → exec (.hostWrite fn off bs) s = .next (got (bar0Write s fn (off - 2 ^ 38) bs) [])) ∧
    (∀ n, n ≤ 4096 → inBar0 fn off n = true → exec (.hostRead fn off n) s = .next (got s (bar0Read s fn (off - 2 ^ 38) n))) ∧
    (∀ o, o % 8 = 0 → (bar0Read s fn o 8 = leBytes 8 (bar0Get s fn o).toNat) ∧
      (∀ v, bar0Write s fn o (leBytes 8 v) = bar0Put s fn o (BitVec.ofNat 64 v)) ∧
      (∀ k v, fn < 2 → k < 16 → o = 0x100000 + 8 * k → bar0Get s fn o = hwin s fn k ∧ exec (.hwinWrite fn k v) s = .next (bar0Put s fn o v)) ∧
      (∀ k v, k < 0x1000 → o = 0x400000 + k → bar0Get (bar0Put s fn o v) fn o = v) ∧
      (∀ v, o = 0 ∨ o = 0x300000 ∨ o = 0x300008 ∨ (0x200000 ≤ o ∧ o < 0x200180) → bar0Put s fn o v = s)) ∧
    (∀ bs, bs.length ≤ 512 → inBar0 fn off bs.length = false → (hostAt s fn off bs.length = none → exec (.hostWrite fn off bs) s = .next (ur 0)) ∧
      (∀ u, hostAt s fn off bs.length = some (c, pa, t) → hostPut s c pa bs t = .ok u → exec (.hostWrite fn off bs) s = .next (got u []))) ∧
    (∀ n, n ≤ 4096 → inBar0 fn off n = false → (hostAt s fn off n = none → exec (.hostRead fn off n) s = .next (ur n)) ∧
      (∀ u b, hostAt s fn off n = some (c, pa, t) → hostGet s c pa n t = .ok (u, b) → exec (.hostRead fn off n) s = .next (got u b))) ∧
    (∀ n st o u x, n = 4 ∨ n = 8 → off % n = 0 → hostAt s fn off n = some (c, pa, .hbm st o) → homeNat s (some c) pa n false = .ok (u, x) →
      let puts (i : Instr) (y : Nat) : Prop := ∀ v, homeWrite u (some c) pa (leBytes n y) false = .ok v →
        exec i s = .next (got (wakeStwait v pa n) (leBytes n x));
      (∀ v, puts (.hostFetchadd fn off n v) (x + v.toNat) ∧ puts (.hostSwap fn off n v) v.toNat) ∧
      ∀ k v, puts (.hostCas fn off n k v) (if x = k.toNat % 2 ^ (8 * n) then v.toNat else x)) ∧
    (∀ k v, fn < 2 → k < 16 → ∃ z, exec (.hwinWrite fn k v) s = .next z ∧ z.mem = s.mem ∧
      (hwin z fn k).getLsbD 63 = (v.getLsbD 63 && bits v.toNat 47 46 == 0 && bits v.toNat 51 48 == s.wafno) ∧
      bits (hwin z fn k).toNat 60 52 = bits v.toNat 60 52 ∧ bits (hwin z fn k).toNat 51 34 = bits v.toNat 51 34))

/-- O60. The management controller (R424 to R432): PFORM forms a partition with its SRAM zero and its supervisor graph at word 0, PFREE frees one that no
launch stands in; FWLOAD stores an image that passes; the POWER commands change the state and the cap where they may, P3 losing the wafer's state; a
period and a sensor's reading set the throttling, 110 °C trips the module; a cold reset that no other stage stops
leaves the reset state at stage 6 where the image passes R426's checks, and at stage 3 in recovery where it does not. -/
def Obligations.ControllerServes : Prop :=
  (∀ (s : State) (p : Nat) (mask : W64) (wm : BitVec 16),
    (pformBad s p mask wm = true → ∃ t, exec (.pform p mask wm) s = .next t ∧ t = { s with host := t.host } ∧ (t.host.mbox[1]?) = some 1) ∧
    (pformBad s p mask wm = false → ∃ t, exec (.pform p mask wm) s = .next t ∧ (t.host.mbox[1]?) = some 0 ∧
      tget t.parts p = some ⟨maskFields mask, wm⟩ ∧ (∀ q, q ≠ p → tget t.parts q = tget s.parts q) ∧
      (seqrOf t (lowest 48 (maskFields mask))).sup = some (supFresh s p) ∧ ctxStat t p = ⟨0, none, none, none⟩ ∧
      ∀ a, bits a 47 46 = 2 → (maskFields mask).contains (bits a 45 40) = true → cellGet t.mem a = 0)) ∧
  (∀ (s : State) (p : Nat),
    ((mailServes s = false ∨ s.launches.any (fun q => q.2.part == p) = true) →
      ∃ t, exec (.pfree p) s = .next t ∧ t = { s with host := t.host } ∧ (t.host.mbox[1]?) = some 1) ∧
    (mailServes s = true → s.launches.any (fun q => q.2.part == p) = false → tget s.parts p = none →
      ∃ t, exec (.pfree p) s = .next t ∧ t = { s with host := t.host } ∧ (t.host.mbox[1]?) = some 0) ∧
    (mailServes s = true → s.launches.any (fun q => q.2.part == p) = false → (tget s.parts p).isSome = true →
      ∃ t, exec (.pfree p) s = .next t ∧ (t.host.mbox[1]?) = some 0 ∧
      tget t.parts p = none ∧ (∀ c, c / 32 = p % 16 → tget t.keys c = none) ∧ ∀ j, tget t.recs (p, j) = none)) ∧
  (∀ (s : State) (nonce : List Byte), s.host.stage = 6 → let n := (nonce ++ List.replicate 32 0).take 32;
    ∃ t, exec (.attest nonce) s = .next t ∧ t = { s with host := t.host } ∧ (t.host.mbox.drop 64).take 224 = reportBody s n) ∧
  (∀ (s : State) (a : W64) (n : W32), s.host.stage = 6 ∨ s.host.recov = true → let b := Config.fwBytes s.tick a n;
    ∃ t, exec (.fwload a n) s = .next t ∧ t = { s with host := t.host } ∧
      t.host.fwNext = (if imageOk s b then some b else s.host.fwNext) ∧ (t.host.mbox[1]?) = some (if imageOk s b then 0 else 2)) ∧
  (∀ (s : State) (cap : BitVec 16), let ok := decide (5000 ≤ cap.toNat) && decide (cap.toNat ≤ 20000) && s.host.stage == 6 && !s.host.trip;
    let goes (i : Instr) (st : Nat) (may : Bool) (k : State → State) : Prop :=
      ∃ t, exec i s = .next t ∧ (ok = true → may = true → t = { k s with host := t.host } ∧ t.host.pstate = st ∧ t.host.pcap = cap ∧
          (t.host.mbox[1]?) = some 0) ∧
        (ok = false ∨ may = false → t = { s with host := t.host } ∧ t.host.pstate = s.host.pstate ∧ t.host.pcap = s.host.pcap ∧
          (t.host.mbox[1]?) = some 1);
    goes (.powerToP1 cap) 1 (s.host.pstate == 0) id ∧ goes (.powerToP2 cap) 2 (decide (s.host.pstate < 2) && waferQuiet s) id ∧
    goes (.powerToP3 cap) 3 (decide (s.host.pstate < 3) && s.parts.isEmpty) waferLost ∧
    goes (.powerToP0 cap) 0 (decide (1 ≤ s.host.pstate) && decide (s.host.pstate ≤ 3))
      fun s => if s.host.pstate = 3 then boot s (Config.bootAgain s.tick) false else s) ∧
  (∀ (s : State) (cap : BitVec 16), s.host.pstate = 3 → ∃ t, exec (.powerToP0 cap) s = .next t ∧ t.host.defmap = s.host.defmap) ∧
  (∀ (s : State) (avg : Nat), s.host.pstate < 2 → 1400000 ≤ (ctr s .mgmt - s.host.psince).toNat →
    ∃ t, exec (.powerPeriod avg) s = .next t ∧ t = { s with host := t.host } ∧ t.host.pthrot = decide (s.host.pcap.toNat < avg) ∧
      t.host.psince = s.host.psince + 1400000) ∧
  (∀ (s : State) (f : Nat) (temp : BitVec 16), f < 48 →
    (1520 ≤ temp.toNat → temp.toNat < 1760 → ∃ t, exec (.thermalThrottle f temp) s = .next t ∧ t = { s with host := t.host } ∧ f ∈ t.host.hot) ∧
    (temp.toNat < 1520 → ∃ t, exec (.thermalThrottleEnd f temp) s = .next t ∧ t = { s with host := t.host } ∧ f ∉ t.host.hot) ∧
    (1760 ≤ temp.toNat → exec (.thermalThrottle f temp) s = exec (.thermalTrip f temp) s ∧ ∃ t, exec (.thermalTrip f temp) s = .next t ∧ t.host.trip = true ∧ clocksRun t = false ∧
      t.mem = [] ∧ t.parts = [] ∧ t.launches = [])) ∧
  (∀ (s : State) (z : BootFuses), z.failAt = 0 → ∃ t, exec (.coldReset z) s = .next t ∧ MemOk t ∧ t.mem = [] ∧ t.parts = [] ∧ t.ctrs = [] ∧
    t.host.pcap = 20000 ∧ t.host.pstate = 0 ∧
    t.host.stage = (if imageOk s (bootImage s) then 6 else 3) ∧ t.host.recov = !imageOk s (bootImage s) ∧
    t.host.fw = (if imageOk s (bootImage s) then bootImage s else s.host.fw) ∧ t.host.scode = if imageOk s (bootImage s) then 0 else z.code)
end

