-- ==== Sys2Proof/Laws/Decode.lean ====
section
/-! SUPPORT. Packing the fields of a word and taking them apart again. -/

namespace Sys2Proof

/-- The bits of an append: the low part's below its width, the high part's above. -/
theorem bit_append {m n : Nat} (x : BitVec m) (y : BitVec n) (i : Nat) :
    (x ++ y).getLsbD i = if i < n then y.getLsbD i else x.getLsbD (i - n) := by
  rw [BitVec.getLsbD_append]

/-- A field taken from above an append's low part. -/
theorem extract_append_above {m n : Nat} (x : BitVec m) (y : BitVec n) (k l : Nat) (h : n ≤ k) :
    (x ++ y).extractLsb' k l = x.extractLsb' (k - n) l := by
  apply BitVec.eq_of_getLsbD_eq; intro i hi
  simp only [BitVec.getLsbD_extractLsb', bit_append, hi, decide_true, Bool.true_and]
  rw [if_neg (by omega)]; congr 1; omega

/-- The low part of an append. -/
theorem extract_append_low {m n : Nat} (x : BitVec m) (y : BitVec n) : (x ++ y).extractLsb' 0 n = y := by
  apply BitVec.eq_of_getLsbD_eq; intro i hi
  simp [bit_append, hi]

/-- Two neighbouring fields put together. -/
theorem extract_append_extract {n : Nat} (v : BitVec n) {k c a b : Nat} (h : c = k + b) :
    v.extractLsb' c a ++ v.extractLsb' k b = v.extractLsb' k (a + b) := by
  apply BitVec.eq_of_getLsbD_eq; intro i hi
  simp only [bit_append, BitVec.getLsbD_extractLsb']
  split
  · next h => simp [h, hi]
  · next h =>
    have h2 : i - b < a := by omega
    simp only [h2, hi, decide_true, Bool.true_and]; congr 1; omega

theorem extract_pack (op : BitVec 8) (w : CW) (k l : Nat) : (CW.pack op w).extractLsb' k l =
    BitVec.extractLsb' (n := 8 + 4 + 4 + 2 + 3 + 3 + 2 + 2 + 2 + 2 + 2 + 2 + 2 + 1 + 1 + 24) k l
      (op ++ w.fn ++ w.ty ++ w.pm ++ w.xc ++ w.yc ++ w.xt ++ w.yt ++ w.sa ++ w.sb ++ w.sc ++ w.np ++ w.dm ++ w.hd ++ w.tb ++ w.imm) :=
  rfl

theorem extract_spack (op : BitVec 8) (w : SW) (k l : Nat) : (SW.pack op w).extractLsb' k l =
    BitVec.extractLsb' (n := 8 + 4 + 4 + 4 + 44) k l (op ++ w.d ++ w.a ++ w.b ++ w.imm) := rfl

/-- Taking a packed word apart gives its fields back. -/
theorem unpack_pack (op : BitVec 8) (w : CW) : CW.unpack (CW.pack op w) = w := by
  simp only [CW.unpack, extract_pack]
  cases w
  congr 1 <;> (repeat rw [extract_append_above _ _ _ _ (by decide)]) <;> exact extract_append_low _ _

theorem opcode_pack (op : BitVec 8) (w : CW) : (CW.pack op w).extractLsb' 56 8 = op := by
  rw [extract_pack]
  repeat rw [extract_append_above _ _ _ _ (by decide)]
  exact BitVec.extractLsb'_eq_self

theorem sunpack_pack (sop : BitVec 8) (w : SW) : SW.unpack (SW.pack sop w) = w := by
  simp only [SW.unpack, extract_spack]
  cases w
  congr 1 <;> (repeat rw [extract_append_above _ _ _ _ (by decide)]) <;> exact extract_append_low _ _

theorem sop_pack (sop : BitVec 8) (w : SW) : (SW.pack sop w).extractLsb' 56 8 = sop := by
  rw [extract_spack]
  repeat rw [extract_append_above _ _ _ _ (by decide)]
  exact BitVec.extractLsb'_eq_self

/-- A word is its opcode and its fields. -/
theorem pack_unpack (v : W64) : CW.pack (v.extractLsb' 56 8) (CW.unpack v) = v := by
  simp only [CW.pack, CW.unpack]
  repeat rw [extract_append_extract v (by rfl)]
  exact BitVec.extractLsb'_eq_self

theorem spack_unpack (v : W64) : SW.pack (v.extractLsb' 56 8) (SW.unpack v) = v := by
  simp only [SW.pack, SW.unpack]
  repeat rw [extract_append_extract v (by rfl)]
  exact BitVec.extractLsb'_eq_self

end Sys2Proof
end

