-- ==== Sys2Proof/Laws/Memory.lean ====
section
/-! SUPPORT. Memory: reading a byte after a write, and the canonical form, which every operation on memory keeps. -/

namespace Sys2Proof.Machine

open Sys2Proof

/-! ## The canonical form -/

theorem cellsFrom_mono {m : List Host.Cell} {lo hi : Nat} (h : lo ≤ hi) (w : cellsFrom hi m = true) : cellsFrom lo m = true := by
  cases m with
  | nil => rfl
  | cons c t =>
    simp only [cellsFrom, Bool.and_eq_true, decide_eq_true_eq] at w ⊢
    exact ⟨⟨h.trans w.1.1, w.1.2⟩, w.2⟩

theorem cellsFrom_cellSet {m : List Host.Cell} {lo a : Nat} (b : Byte) (ha : lo ≤ a) (w : cellsFrom lo m = true) :
    cellsFrom lo (cellSet m a b) = true := by
  induction m generalizing lo with
  | nil =>
    by_cases hb : b = 0#8 <;> simp [cellSet, cellsFrom, hb, ha]
  | cons c t ih =>
    obtain ⟨k, v⟩ := c
    simp only [cellsFrom, Bool.and_eq_true, decide_eq_true_eq] at w
    obtain ⟨⟨hk, hv⟩, ht⟩ := w
    by_cases h1 : a < k
    · by_cases hb : b = 0#8
      · simpa [cellSet, cellsFrom, h1, hb, hk, ht] using hv
      · simpa [cellSet, cellsFrom, h1, hb, ha, ht, Nat.succ_le_of_lt h1] using hv
    · by_cases h2 : a = k
      · by_cases hb : b = 0#8
        · simpa [cellSet, h2, hb] using cellsFrom_mono (by omega) ht
        · simp [cellSet, cellsFrom, h2, hb, hk, ht]
      · have h3 : k + 1 ≤ a := by omega
        simpa [cellSet, cellsFrom, h1, h2, hk, ih h3 ht] using hv

/-- Writing one byte keeps the canonical form. -/
theorem wf_cellSet {m : List Host.Cell} (a : Nat) (b : Byte) (w : Memory.wf m = true) : Memory.wf (cellSet m a b) = true :=
  cellsFrom_cellSet b (Nat.zero_le a) w

/-- Writing bytes keeps the canonical form. -/
theorem wf_cellsWrite {m : List Host.Cell} (a : Nat) (l : List Byte) (w : Memory.wf m = true) : Memory.wf (cellsWrite m a l) = true := by
  induction l generalizing m a with
  | nil => exact w
  | cons b l ih => exact ih (a + 1) (wf_cellSet a b w)

theorem cellsFrom_filter {m : List Host.Cell} {lo : Nat} (p : Host.Cell → Bool) (w : cellsFrom lo m = true) :
    cellsFrom lo (m.filter p) = true := by
  induction m generalizing lo with
  | nil => rfl
  | cons c t ih =>
    simp only [cellsFrom, Bool.and_eq_true, decide_eq_true_eq] at w
    by_cases hp : p c
    · simp [hp, cellsFrom, w.1.1, ih w.2]; simpa using w.1.2
    · simpa [List.filter_cons, hp] using cellsFrom_mono (by omega) (ih w.2)

/-- Dropping cells keeps the canonical form. -/
theorem wf_filter {m : List Host.Cell} (p : Host.Cell → Bool) (w : Memory.wf m = true) : Memory.wf (m.filter p) = true :=
  cellsFrom_filter p w

/-- Zeroing a range keeps the canonical form. -/
theorem wf_cellsZero {m : List Host.Cell} (lo hi : Nat) (w : Memory.wf m = true) : Memory.wf (cellsZero m lo hi) = true :=
  wf_filter _ w

/-- Taking some fields' cells from another list keeps the canonical form, whatever that list is. -/
theorem wf_mixCells (fs : List Nat) {m : List Host.Cell} (l : List Host.Cell) (w : Memory.wf m = true) :
    Memory.wf (mixCells fs m l) = true := by
  have key : ∀ (l m : List Host.Cell), Memory.wf m = true → Memory.wf (l.foldl (fun m c => cellSet m c.1 c.2) m) = true := by
    intro l
    induction l with
    | nil => exact fun _ w => w
    | cons c t ih => exact fun m w => ih _ (wf_cellSet c.1 c.2 w)
  exact key _ _ (wf_filter _ w)

/-! ## Reading after a write -/

theorem cellGet_below {m : List Host.Cell} {lo a : Nat} (h : a < lo) (w : cellsFrom lo m = true) : cellGet m a = 0 := by
  induction m generalizing lo with
  | nil => rfl
  | cons c t ih =>
    obtain ⟨k, v⟩ := c
    simp only [cellsFrom, Bool.and_eq_true, decide_eq_true_eq] at w
    have hk : k ≠ a := by have := w.1.1; omega
    simp only [cellGet, hk, if_false]
    exact ih (lo := k + 1) (by have := w.1.1; omega) w.2

theorem cellsFrom_get_cellSet {m : List Host.Cell} {lo : Nat} (a : Nat) (b : Byte) (w : cellsFrom lo m = true) :
    cellGet (cellSet m a b) a = b := by
  induction m generalizing lo with
  | nil =>
    by_cases hb : b = 0#8 <;> simp [cellSet, cellGet, hb]
  | cons c t ih =>
    obtain ⟨k, v⟩ := c
    simp only [cellsFrom, Bool.and_eq_true, decide_eq_true_eq] at w
    by_cases h1 : a < k
    · by_cases hb : b = 0#8
      · have hk : k ≠ a := by omega
        have hz : cellGet t a = 0#8 := cellGet_below (Nat.lt_succ_of_lt h1) w.2
        simp [cellSet, cellGet, h1, hb, hk, hz]
      · simp [cellSet, cellGet, h1, hb]
    · by_cases h2 : a = k
      · by_cases hb : b = 0#8
        · simp [cellSet, h2, hb]; exact cellGet_below (lo := k + 1) (by omega) w.2
        · simp [cellSet, cellGet, h2, hb]
      · have hk : k ≠ a := fun e => h2 e.symm
        simp [cellSet, cellGet, h1, h2, hk, ih w.2]

/-- A byte reads as what was written to it. -/
theorem cellGet_cellSet_self {m : List Host.Cell} (a : Nat) (b : Byte) (w : Memory.wf m = true) : cellGet (cellSet m a b) a = b :=
  cellsFrom_get_cellSet a b w

/-- Any other byte reads as before. -/
theorem cellGet_cellSet_ne (m : List Host.Cell) {a c : Nat} (b : Byte) (h : c ≠ a) : cellGet (cellSet m a b) c = cellGet m c := by
  induction m with
  | nil =>
    have h' : a ≠ c := fun e => h e.symm
    by_cases hb : b = 0#8 <;> simp [cellSet, cellGet, hb, h']
  | cons p t ih =>
    obtain ⟨k, v⟩ := p
    have h' : a ≠ c := fun e => h e.symm
    by_cases h1 : a < k
    · by_cases hb : b = 0#8 <;> simp [cellSet, cellGet, h1, hb, h']
    · by_cases h2 : a = k
      · by_cases hb : b = 0#8
        · subst h2; simp [cellSet, cellGet, hb, h']
        · subst h2; simp [cellSet, cellGet, hb, h']
      · by_cases h3 : k = c
        · subst h3; simp [cellSet, cellGet, h1, h2]
        · simp [cellSet, cellGet, h1, h2, h3, ih]

/-- Bytes outside those written read as before. -/
theorem cellGet_cellsWrite_out {m : List Host.Cell} {a c : Nat} (l : List Byte) (h : c < a ∨ a + l.length ≤ c) :
    cellGet (cellsWrite m a l) c = cellGet m c := by
  induction l generalizing m a with
  | nil => rfl
  | cons b l ih =>
    have h1 : c ≠ a := by simp only [List.length_cons] at h; omega
    simp only [cellsWrite]
    rw [ih (by simp only [List.length_cons] at h; omega), cellGet_cellSet_ne m b h1]

/-- What was written is read back. -/
theorem cellsRead_cellsWrite {m : List Host.Cell} (a : Nat) (l : List Byte) (w : Memory.wf m = true) :
    cellsRead (cellsWrite m a l) a l.length = l := by
  induction l generalizing m a with
  | nil => rfl
  | cons b l ih =>
    have h1 : cellGet (cellsWrite (cellSet m a b) (a + 1) l) a = b := by
      rw [cellGet_cellsWrite_out l (.inl (Nat.lt_succ_self a)), cellGet_cellSet_self a b w]
    simp only [cellsWrite, List.length_cons, cellsRead, h1, ih (a + 1) (wf_cellSet a b w)]

theorem leBytes_length (n v : Nat) : (leBytes n v).length = n := by
  induction n generalizing v with
  | zero => rfl
  | succ n ih => simp [leBytes, ih]

/-- A number's bytes make the number again, at their width. -/
theorem leNat_leBytes (n v : Nat) : leNat (leBytes n v) = v % 256 ^ n := by
  induction n generalizing v with
  | zero => simp [leBytes, leNat, Nat.mod_one]
  | succ n ih =>
    have h : v % 256 ^ (n + 1) = v % 256 + 256 * (v / 256 % 256 ^ n) := by rw [pow_succ', Nat.mod_mul]
    simp only [leBytes, leNat, ih, BitVec.toNat_ofNat, h]

end Sys2Proof.Machine
end

