-- ==== Sys2Proof/Laws/Tables.lean ====
section
/-! SUPPORT. Reading a table after a write to it. -/

namespace Sys2Proof.Machine

open Sys2Proof

@[simp] theorem tget_tset_self {κ α : Type} [DecidableEq κ] (t : Tbl κ α) (k : κ) (v : α) : tget (tset t k v) k = some v := by
  induction t with
  | nil => simp [tset, tget]
  | cons p t ih =>
    obtain ⟨a, b⟩ := p
    by_cases h : a = k <;> simp [tset, tget, h, ih]

theorem tget_tset_ne {κ α : Type} [DecidableEq κ] (t : Tbl κ α) {k j : κ} (v : α) (h : k ≠ j) : tget (tset t k v) j = tget t j := by
  induction t with
  | nil => simp [tset, tget, h]
  | cons p t ih =>
    obtain ⟨a, b⟩ := p
    by_cases hk : a = k
    · simp [tset, tget, hk, h]
    · by_cases hj : a = j
      · subst hj; simp [tset, tget, hk]
      · simp [tset, tget, hk, hj, ih]

@[simp] theorem tgetD_tset_self {κ α : Type} [DecidableEq κ] (t : Tbl κ α) (k : κ) (v d : α) : tgetD (tset t k v) k d = v := by
  simp [tgetD]

theorem tgetD_tset_ne {κ α : Type} [DecidableEq κ] (t : Tbl κ α) {k j : κ} (v d : α) (h : k ≠ j) :
    tgetD (tset t k v) j d = tgetD t j d := by
  simp [tgetD, tget_tset_ne t v h]

@[simp] theorem tgetD_tmod_self {κ α : Type} [DecidableEq κ] (t : Tbl κ α) (k : κ) (d : α) (f : α → α) :
    tgetD (tmod t k d f) k d = f (tgetD t k d) := by
  simp [tmod]

theorem tgetD_tmod_ne {κ α : Type} [DecidableEq κ] (t : Tbl κ α) {k j : κ} (d : α) (f : α → α) (h : k ≠ j) :
    tgetD (tmod t k d f) j d = tgetD t j d := by
  simp [tmod, tgetD_tset_ne t _ d h]

@[simp] theorem tget_tdel_self {κ α : Type} [DecidableEq κ] (t : Tbl κ α) (k : κ) : tget (tdel t k) k = none := by
  induction t with
  | nil => rfl
  | cons p t ih =>
    obtain ⟨a, b⟩ := p
    by_cases h : a = k
    · simpa [tdel, h] using ih
    · simpa [tdel, tget, h] using ih

theorem tget_tdel_ne {κ α : Type} [DecidableEq κ] (t : Tbl κ α) {k j : κ} (h : k ≠ j) : tget (tdel t k) j = tget t j := by
  induction t with
  | nil => rfl
  | cons p t ih =>
    obtain ⟨a, b⟩ := p
    by_cases hk : a = k
    · have hj : a ≠ j := fun e => h (hk.symm.trans e)
      simpa [tdel, tget, hk, hj, h] using ih
    · by_cases hj : a = j
      · subst hj; simp [tdel, tget, hk]
      · simpa [tdel, tget, hk, hj] using ih

end Sys2Proof.Machine
end

