-- ==== Sys2Proof/Laws/Firing.lean ====
section
/-! SUPPORT. What each shared operation of a firing can do: it is quiet (it keeps to its slot and leaves memory and the trace ring's registers
alone), and a trace record is the one thing that a firing writes to memory. -/

namespace Sys2Proof.Safety

open Sys2Proof.Machine

theorem Local.refl (sl : Slot) (s : State) : Local sl s s :=
  ⟨rfl, fun _ _ => rfl, fun _ _ => rfl, BitVec.or_self, fun _ _ => rfl, fun _ _ => rfl, fun _ _ => rfl, fun _ _ _ => rfl, fun _ _ => rfl,
    fun _ _ => rfl⟩

theorem Local.trans {sl : Slot} {s t u : State} (a : Local sl s t) (b : Local sl t u) : Local sl s u :=
  ⟨b.frame.trans a.frame, fun z h => (b.hold z h).trans (a.hold z h), fun z h => (b.flags z h).trans (a.flags z h),
    by rw [← b.sticky, ← BitVec.or_assoc, a.sticky], fun z h => (b.park z h).trans (a.park z h),
    fun z h => (b.walks z h).trans (a.walks z h), fun g h => (b.edges g h).trans (a.edges g h), fun c e h => (b.iq c e h).trans (a.iq c e h),
    fun c h => (b.mstore c h).trans (a.mstore c h), fun c h => (b.ctab c h).trans (a.ctab c h)⟩

end Sys2Proof.Safety

namespace Sys2Proof.Machine

open Sys2Proof Sys2Proof.Safety

/-- A change that keeps to a slot and touches neither memory nor the trace ring's registers. -/
structure Quiet (sl : Slot) (s t : State) : Prop where
  loc  : Local sl s t
  mem  : t.mem = s.mem
  supr : t.supr = s.supr
  ecc  : t.ecc = s.ecc

theorem Quiet.refl (sl : Slot) (s : State) : Quiet sl s s := ⟨Local.refl sl s, rfl, rfl, rfl⟩

theorem Quiet.trans {sl : Slot} {s t u : State} (a : Quiet sl s t) (b : Quiet sl t u) : Quiet sl s u :=
  ⟨a.loc.trans b.loc, b.mem.trans a.mem, b.supr.trans a.supr, b.ecc.trans a.ecc⟩

/-- A quiet change leaves the next trace record's place where it was. -/
theorem Quiet.traceSlot {sl : Slot} {s t : State} (q : Quiet sl s t) (f : Nat) : traceSlot t f = traceSlot s f := by
  have hp : (elemFrame t).parts = (elemFrame s).parts := congrArg State.parts q.loc.frame
  have hp : t.parts = s.parts := hp
  simp only [Machine.traceSlot, partOfField, homeField, Machine.supr, hp, q.supr]
  rfl

/-- An update of fields that a firing's frame leaves open and that no accessor of the frame reads. -/
theorem Quiet.plain {sl : Slot} {s t : State} (hf : elemFrame t = elemFrame s) (hm : t.mem = s.mem) (hs : t.supr = s.supr)
    (h1 : t.x.hold = s.x.hold) (h2 : t.x.flags = s.x.flags) (h3 : t.x.park = s.x.park) (h4 : t.x.walks = s.x.walks)
    (h5 : t.x.edges = s.x.edges) (h6 : t.x.iq = s.x.iq) (h7 : t.x.mstore = s.x.mstore) (h8 : t.x.ctab = s.x.ctab)
    (he : t.ecc = s.ecc := by rfl) : Quiet sl s t :=
  ⟨⟨hf, fun z _ => by simp only [holdOf, h1], fun z _ => by simp only [flagsOf, h2], by simp only [flagsOf, h2, BitVec.or_self],
    fun z _ => by simp only [parkedOf, h3], fun z _ => by simp only [walkOf, h4], fun z _ => by simp only [edgeOf, h5],
    fun c e _ => by simp only [iqOf, h6], fun c _ => by simp only [mstoreOf, h7], fun c _ => by simp only [ctabOf, h8]⟩, hm, hs, he⟩

/-! ## Registers, edges and queues of the slot -/

theorem quiet_setEdge (s : State) (sl : Slot) (p : Nat) (b : EdgeSt) : Quiet sl s (setEdge s ⟨sl.core, sl.e, p⟩ b) := by
  refine ⟨⟨rfl, fun _ _ => rfl, fun _ _ => rfl, BitVec.or_self, fun _ _ => rfl, fun _ _ => rfl, fun g h => ?_, fun _ _ _ => rfl,
    fun _ _ => rfl, fun _ _ => rfl⟩, rfl, rfl, rfl⟩
  exact tgetD_tset_ne _ _ _ (fun e => by subst e; simp at h)

theorem quiet_setIq (s : State) (sl : Slot) (q : List QSet) : Quiet sl s (setIq s sl.core sl.e q) := by
  refine ⟨⟨rfl, fun _ _ => rfl, fun _ _ => rfl, BitVec.or_self, fun _ _ => rfl, fun _ _ => rfl, fun _ _ => rfl, fun c e h => ?_,
    fun _ _ => rfl, fun _ _ => rfl⟩, rfl, rfl, rfl⟩
  exact tgetD_tset_ne _ _ _ (fun he => by rw [Prod.mk.injEq] at he; simp [he.1, he.2] at h)

theorem quiet_popIq (s : State) (sl : Slot) : Quiet sl s (popIq s sl) := quiet_setIq s sl _

theorem quiet_setHoldReg (s : State) (sl : Slot) (v : W64) : Quiet sl s { s with x := { s.x with hold := tset s.x.hold sl v } } :=
  ⟨⟨rfl, fun _ h => tgetD_tset_ne _ _ _ h.symm, fun _ _ => rfl, BitVec.or_self, fun _ _ => rfl, fun _ _ => rfl, fun _ _ => rfl,
    fun _ _ _ => rfl, fun _ _ => rfl, fun _ _ => rfl⟩, rfl, rfl, rfl⟩

/-- Only A's 64 bits reach a hold register, and only the firing slot's (R52). -/
theorem quiet_setHold (s : State) (w : CW) (fr : Firing) : Quiet fr.sl s (setHold s w fr) := by
  unfold setHold; split
  · exact quiet_setHoldReg ..
  · exact Quiet.refl ..

/-- Sticky flags are only ever raised (R109). -/
theorem quiet_orFlags (s : State) (sl : Slot) (fl : BitVec 5) : Quiet sl s (orFlags s sl fl) := by
  unfold orFlags; split
  · exact Quiet.refl ..
  · refine ⟨⟨rfl, fun _ _ => rfl, fun _ h => tgetD_tset_ne _ _ _ h.symm, ?_, fun _ _ => rfl, fun _ _ => rfl, fun _ _ => rfl,
      fun _ _ _ => rfl, fun _ _ => rfl, fun _ _ => rfl⟩, rfl, rfl, rfl⟩
    simp only [flagsOf, tgetD_tset_self, ← BitVec.or_assoc, BitVec.or_self]

theorem quiet_setPark (s : State) (sl : Slot) (l : List Parked) : Quiet sl s { s with x := { s.x with park := tset s.x.park sl l } } :=
  ⟨⟨rfl, fun _ _ => rfl, fun _ _ => rfl, BitVec.or_self, fun _ h => tgetD_tset_ne _ _ _ h.symm, fun _ _ => rfl, fun _ _ => rfl,
    fun _ _ _ => rfl, fun _ _ => rfl, fun _ _ => rfl⟩, rfl, rfl, rfl⟩

theorem quiet_setWalk (s : State) (sl : Slot) (w : WalkSt) : Quiet sl s (setWalk s sl w) :=
  ⟨⟨rfl, fun _ _ => rfl, fun _ _ => rfl, BitVec.or_self, fun _ _ => rfl, fun _ h => tgetD_tset_ne _ _ _ h.symm, fun _ _ => rfl,
    fun _ _ _ => rfl, fun _ _ => rfl, fun _ _ => rfl⟩, rfl, rfl, rfl⟩

theorem quiet_setMstore (s : State) (sl : Slot) (l : List MEntry) : Quiet sl s (setMstore s sl.core l) :=
  ⟨⟨rfl, fun _ _ => rfl, fun _ _ => rfl, BitVec.or_self, fun _ _ => rfl, fun _ _ => rfl, fun _ _ => rfl,
    fun _ _ _ => rfl, fun _ h => tgetD_tset_ne _ _ _ h.symm, fun _ _ => rfl⟩, rfl, rfl, rfl⟩

theorem quiet_setState (s : State) (sl : Slot) (id : Ident) (r : RunSt) : Quiet sl s (setState s sl.core sl.e id r) := quiet_setMstore ..

theorem quiet_freeState (s : State) (sl : Slot) (id : Ident) : Quiet sl s (freeState s sl.core sl.e id) := quiet_setMstore ..

/-- A new matching-store entry touches the core's store alone (R113). -/
theorem quiet_allocEntry {s t : State} {sl : Slot} {id : Ident} {k : MKind} {a b d p : Option Token}
    (h : allocEntry s sl.core sl.e id k a b d p = some t) : Quiet sl s t := by
  simp only [allocEntry, Option.map_eq_some_iff] at h
  obtain ⟨l, -, rfl⟩ := h
  exact (quiet_setMstore s sl _).trans (Quiet.plain rfl rfl rfl rfl rfl rfl rfl rfl rfl rfl rfl)

theorem quiet_openState {s t : State} {sl : Slot} {id : Ident} {r : RunSt} {n : Bool} (h : openState s sl id = some (r, n, t)) :
    Quiet sl s t := by
  unfold openState at h; split at h
  · simp only [Option.some.injEq, Prod.mk.injEq] at h; exact h.2.2 ▸ Quiet.refl ..
  · split at h
    · simp only [Option.some.injEq, Prod.mk.injEq] at h; exact h.2.2 ▸ quiet_setMstore ..
    · simp only [Option.map_eq_some_iff, Prod.mk.injEq] at h
      obtain ⟨u, hu, -, -, rfl⟩ := h
      exact quiet_allocEntry hu

theorem quiet_putTok (s : State) (sl : Slot) (p : Nat) (t : Token) : Quiet sl s (putTok s sl p t) := by
  simp only [putTok]; split
  · exact Quiet.refl ..
  · split <;> exact quiet_setEdge ..

theorem quiet_putToks (s : State) (sl : Slot) (p : Nat) (l : List Token) : Quiet sl s (putToks s sl p l) := by
  induction l generalizing s with
  | nil => exact Quiet.refl ..
  | cons t l ih => exact (quiet_putTok s sl p t).trans (ih _)

theorem quiet_reserve (s : State) (sl : Slot) (p rid : Nat) (t : Time) (q : BitVec 24) : Quiet sl s (reserve s sl p rid t q) := by
  simp only [reserve]; split
  · exact Quiet.refl ..
  · exact quiet_setEdge ..

theorem quiet_settle (s : State) (sl : Slot) (p rid : Nat) (l : List Token) : Quiet sl s (settle s sl p rid l) := by
  simp only [settle]; split
  · exact Quiet.refl ..
  · exact quiet_setEdge ..

theorem quiet_markDone (s : State) (sl : Slot) (id : Ident) : Quiet sl s (markDone s sl id) :=
  (quiet_setMstore s sl _).trans (Quiet.plain rfl rfl rfl rfl rfl rfl rfl rfl rfl rfl rfl)

theorem quiet_enqueue {s t : State} {sl : Slot} {o : OpSet} (h : enqueue s sl o = some t) : Quiet sl s t := by
  unfold enqueue at h; split at h
  · exact absurd h (by simp)
  · simp only [Option.some.injEq] at h; subst h; exact quiet_setIq ..

theorem quiet_promote (s : State) (sl : Slot) (n : Node) (id : Ident) : Quiet sl s (promote s sl n id) := by
  unfold promote; split
  · exact Quiet.refl ..
  · split
    · exact quiet_markDone ..
    · exact Quiet.refl ..

theorem quiet_markBroke (s : State) (sl : Slot) : Quiet sl s (markBroke s sl) := by
  unfold markBroke; split
  · exact quiet_setIq ..
  · exact Quiet.refl ..

/-! ## Counts, messages, progress -/

theorem quiet_fresh (s : State) (sl : Slot) : Quiet sl s (fresh s).2 := Quiet.plain rfl rfl rfl rfl rfl rfl rfl rfl rfl rfl rfl

theorem quiet_setCtab (s : State) (sl : Slot) (l : List CEntry) : Quiet sl s { s with x := { s.x with ctab := tset s.x.ctab sl.core l } } :=
  ⟨⟨rfl, fun _ _ => rfl, fun _ _ => rfl, BitVec.or_self, fun _ _ => rfl, fun _ _ => rfl, fun _ _ => rfl,
    fun _ _ _ => rfl, fun _ _ => rfl, fun _ h => tgetD_tset_ne _ _ _ h.symm⟩, rfl, rfl, rfl⟩

theorem quiet_foldl {α : Type} (sl : Slot) (f : State → α → State) (hf : ∀ s a, Quiet sl s (f s a)) (l : List α) (s : State) :
    Quiet sl s (l.foldl f s) := by
  induction l generalizing s with
  | nil => exact Quiet.refl ..
  | cons a l ih => exact (hf s a).trans (ih _)

/-- Sending a count table empties it and puts messages in flight (R213). -/
theorem quiet_flushCounts (s : State) (sl : Slot) : Quiet sl s (flushCounts s sl.core) := by
  simp only [flushCounts]
  refine Quiet.trans ?_ (quiet_setCtab _ sl [])
  refine quiet_foldl sl _ (fun _ _ => ?_) _ s
  exact Quiet.plain rfl rfl rfl rfl rfl rfl rfl rfl rfl rfl rfl

/-- Recording counts touches the core's table and what it sends (R213). -/
theorem quiet_record (s : State) (sl : Slot) (lid : Nat) (is : List CountItem) (b : Bool) : Quiet sl s (record s sl.core lid is b) := by
  simp only [record]
  have h : ∀ (c : Bool) (t : State), Quiet sl t (if c then flushCounts t sl.core else t) := by
    intro c t; split
    · exact quiet_flushCounts ..
    · exact Quiet.refl ..
  refine Quiet.trans ?_ (h _ _)
  refine Quiet.trans ?_ (quiet_setCtab ..)
  split
  · exact Quiet.refl ..
  · exact quiet_flushCounts ..

theorem quiet_progress (s : State) (sl : Slot) (f lid : Nat) : Quiet sl s (progress s f lid) := by
  unfold progress; split
  · exact Quiet.plain rfl rfl rfl rfl rfl rfl rfl rfl rfl rfl rfl
  · exact Quiet.refl ..

theorem quiet_noteFiring (s : State) (sl : Slot) (c : CoreId) : Quiet sl s (noteFiring s c) :=
  Quiet.plain rfl rfl rfl rfl rfl rfl rfl rfl rfl rfl rfl

theorem quiet_countIssue (s : State) (sl : Slot) (f lid : Nat) : Quiet sl s (countIssue s f lid) :=
  Quiet.plain rfl rfl rfl rfl rfl rfl rfl rfl rfl rfl rfl

theorem quiet_noteIssue (s : State) (sl : Slot) (fr : Firing) : Quiet sl s (noteIssue s fr) :=
  ((quiet_countIssue ..).trans (quiet_progress ..)).trans (quiet_noteFiring ..)

theorem quiet_freeze (s : State) (sl : Slot) (f lid : Nat) (b : Bool) : Quiet sl s (freeze s f lid b) :=
  Quiet.plain rfl rfl rfl rfl rfl rfl rfl rfl rfl rfl rfl

theorem quiet_sendPkt (s : State) (sl : Slot) (u : UnitId) (cls : Nat) (d : UnitId) (w p : Nat) (m : Msg) :
    Quiet sl s (sendPkt s u cls d w p m) := Quiet.plain rfl rfl rfl rfl rfl rfl rfl rfl rfl rfl rfl

theorem quiet_sendReq (s : State) (sl : Slot) (r : PortReq) : Quiet sl s (sendReq s r) := by
  simp only [sendReq]; split
  · exact quiet_sendPkt ..
  split
  · exact quiet_sendPkt ..
  · exact Quiet.plain rfl rfl rfl rfl rfl rfl rfl rfl rfl rfl rfl

/-! ## Taking a fault -/

/-- A record waits at its unit (R403); nothing else changes. -/
theorem quiet_report (s : State) (sl : Slot) (r : FRec) : Quiet sl s (report s r).2 := by
  simp only [report]
  split
  · exact quiet_fresh ..
  · exact Quiet.plain rfl rfl rfl rfl rfl rfl rfl rfl rfl rfl rfl

/-- A breakpoint freezes a region and leaves a record (R408). -/
theorem quiet_breakAt (s : State) (sl : Slot) (u : UnitId) (k tgt f lid ctx n : Nat) (t : Time) (q : BitVec 24) :
    Quiet sl s (breakAt s u k tgt f lid ctx n t q) := by
  unfold breakAt; split
  · exact Quiet.refl ..
  · split
    · exact (quiet_freeze ..).trans (quiet_report ..)
    · exact Quiet.refl ..

theorem quiet_reportFault (s : State) (sl : Slot) (r : FRec) : Quiet sl s (reportFault s r).2 :=
  (quiet_report ..).trans (quiet_breakAt ..)

theorem quiet_holdSets (s : State) (sl : Slot) : Quiet sl s (holdSets s sl) := by
  unfold holdSets; dsimp only; split
  · exact Quiet.refl ..
  · exact (quiet_setIq ..).trans (Quiet.plain rfl rfl rfl rfl rfl rfl rfl rfl rfl rfl rfl)

/-- A fault at issue parks the set in its slot's register (R125). -/
theorem quiet_parkSet (s : State) (sl : Slot) (n : Node) (o : OpSet) (code a : Nat) (u : UnitId) :
    Quiet sl s (parkSet s sl n o code a u) :=
  ((quiet_reportFault ..).trans (quiet_setPark ..)).trans (quiet_holdSets ..)

/-- Replacing a listed value by one of equal frame leaves the frame of the table. -/
theorem map_tset {κ α β : Type} [DecidableEq κ] (g : α → β) (t : Tbl κ α) (k : κ) (v w : α) (h : tget t k = some v) (e : g w = g v) :
    (tset t k w).map (fun p => (p.1, g p.2)) = t.map fun p => (p.1, g p.2) := by
  induction t with
  | nil => simp [tget] at h
  | cons p t ih =>
    obtain ⟨a, b⟩ := p
    by_cases ha : a = k
    · simp only [tget, ha, if_true, Option.some.injEq] at h
      simp [tset, ha, e, h]
    · simp only [tget, ha, if_false] at h
      simp [tset, ha, ih h]

/-- A change of a launch that its frame leaves open. -/
theorem quiet_modLaunch (s : State) (sl : Slot) (lid : Nat) (f : Launch → Launch) (h : ∀ l, launchFrame (f l) = launchFrame l) :
    Quiet sl s (modLaunch s lid f) := by
  unfold modLaunch; split
  · next l hl =>
    refine Quiet.plain ?_ rfl rfl rfl rfl rfl rfl rfl rfl rfl rfl
    simp only [elemFrame, map_tset launchFrame s.launches lid l (f l) hl (h l)]
  · exact Quiet.refl ..

/-- Beats counted toward a unit's budget leave everything else alone (R312). -/
theorem quiet_spend (s : State) (z : Slot) (u : UnitId) (cls n : Nat) : Quiet z s (spend s u cls n) := by
  unfold spend; split
  · exact Quiet.plain rfl rfl rfl rfl rfl rfl rfl rfl rfl rfl rfl
  · exact Quiet.refl ..

theorem quiet_toCatch (s : State) (z : Slot) (lid : Nat) (c : Nat × Slot) (sl : Slot) (o : OpSet) (code a : Nat) :
    Quiet z s (toCatch s lid c sl o code a).1 := by
  simp only [toCatch]
  exact (quiet_spend ..).trans (quiet_modLaunch _ z lid _ fun _ => rfl)

/-! ## Ends of a firing -/

/-- The parts of a commit before its trace record. -/
def applyCore (s : State) (w : CW) (fr : Firing) (e : Emit) (its : List CountItem) (after : Bool) : State :=
  apply s { w with tb := 0 } fr e its after

theorem quiet_applyCore (s : State) (w : CW) (fr : Firing) (e : Emit) (its : List CountItem) (after : Bool) :
    Quiet fr.sl s (applyCore s w fr e its after) := by
  simp only [applyCore, apply, show ((0 : BitVec 1) = 1) = False from by decide, if_false]
  refine Quiet.trans (Quiet.trans ?_ (quiet_record ..))
    (quiet_noteIssue ..)
  refine (Quiet.trans ?_ (quiet_putToks ..)).trans (quiet_putToks ..)
  refine (quiet_orFlags s fr.sl e.flags).trans ?_
  split
  · exact quiet_setHold _ { w with tb := 0 } fr
  · exact Quiet.refl ..

/-- A commit is its quiet parts, and then, under TB, one trace record (R409). -/
theorem apply_eq (s : State) (w : CW) (fr : Firing) (e : Emit) (its : List CountItem) (after : Bool) :
    apply s w fr e its after =
      if w.tb = 1 then trace (applyCore s w fr e its after) fr.sl fr.set ((e.x.head?.map Token.val).getD 0)
      else applyCore s w fr e its after := rfl

/-- A change of a firing: quiet, but for one trace record on the way, which is written under TB alone. -/
def FiringChange (w : CW) (sl : Slot) (s t : State) : Prop :=
  Quiet sl s t ∨ w.tb = 1 ∧ ∃ m o v, Quiet sl s m ∧ Quiet sl (trace m sl o v) t

theorem FiringChange.of {w : CW} {sl : Slot} {s t u : State} (a : Quiet sl s t) (b : FiringChange w sl t u) : FiringChange w sl s u := by
  obtain h | ⟨ht, m, o, v, h, q⟩ := b
  · exact .inl (a.trans h)
  · exact .inr ⟨ht, m, o, v, a.trans h, q⟩

theorem FiringChange.then {w : CW} {sl : Slot} {s t u : State} (a : FiringChange w sl s t) (b : Quiet sl t u) : FiringChange w sl s u := by
  obtain h | ⟨ht, m, o, v, h, q⟩ := a
  · exact .inl (h.trans b)
  · exact .inr ⟨ht, m, o, v, h, q.trans b⟩

theorem change_apply (s : State) (w : CW) (fr : Firing) (e : Emit) (its : List CountItem) (after : Bool) :
    FiringChange w fr.sl s (apply s w fr e its after) := by
  rw [apply_eq]; split
  · next h => exact .inr ⟨h, _, _, _, quiet_applyCore s w fr e its after, Quiet.refl ..⟩
  · exact .inl (quiet_applyCore ..)

theorem change_apply_at {sl : Slot} {fr : Firing} (h : fr.sl = sl) (s : State) (w : CW) (e : Emit) (its : List CountItem) (after : Bool) :
    FiringChange w sl s (apply s w fr e its after) := h ▸ change_apply s w fr e its after

theorem FiringChange.ite {w : CW} {sl : Slot} {s t : State} (c : Bool) (h : FiringChange w sl s t) :
    FiringChange w sl s (if c then t else s) := by
  split
  · exact h
  · exact .inl (Quiet.refl ..)

theorem change_commit (s : State) (w : CW) (fr : Firing) (e : Emit) : FiringChange w fr.sl s (commit s w fr e) := by
  unfold commit; split
  · exact .of (quiet_popIq ..) (change_apply ..)
  · exact .inl (Quiet.refl ..)

theorem change_faultFiring (s : State) (w : CW) (fr : Firing) (x y : Bool) (code a : Nat) :
    FiringChange w fr.sl s (faultFiring s w fr x y code a) := by
  have hp : ∀ c, FiringChange w fr.sl s (parkSet (popIq s fr.sl) fr.sl fr.node fr.set c a (.core fr.sl.core)) :=
    fun c => .inl ((quiet_popIq ..).trans (quiet_parkSet ..))
  unfold faultFiring; split
  · split
    · exact .inl (Quiet.refl ..)
    · split
      · exact hp _
      · split
        · exact .of ((quiet_toCatch ..).trans (quiet_reportFault ..)) (change_commit ..)
        · exact .inl (Quiet.refl ..)
  · exact hp _

/-- Every end of a firing is a firing's change. -/
theorem change_conclude (s : State) (w : CW) (fr : Firing) (x y : Bool) (a : Nat) (r : Except Nat Emit) :
    FiringChange w fr.sl s (conclude s w fr x y a r) := by
  unfold conclude; split
  · exact change_commit ..
  · exact change_faultFiring ..

theorem change_commitFrom {s s2 : State} {fr : Firing} (h : Quiet fr.sl s s2) (w : CW) (r : Except Nat Emit) :
    FiringChange w fr.sl s (commitFrom s s2 w fr r) := by
  unfold commitFrom; split
  · exact change_faultFiring ..
  · split
    · exact .of h (change_commit ..)
    · exact .inl (Quiet.refl ..)

/-! ## Issuing -/

/-- What a firing is: the focused slot's head set, at a node that may issue. -/
theorem firing_some {s : State} {fr : Firing} (h : firing s = some fr) :
    s.focus = .slot fr.sl ∧ node? s fr.sl = some fr.node ∧ mayIssue s fr.sl fr.node = true := by
  unfold firing at h; split at h
  · next sl hs =>
    split at h
    · next n q l hn _ =>
      split at h
      · next hc =>
        simp only [Option.some.injEq] at h; subst h
        exact ⟨hs, hn, by simp only [Bool.and_eq_true] at hc; exact hc.2⟩
      · exact absurd h (by simp)
    · exact absurd h (by simp)
  · exact absurd h (by simp)

/-- Nothing that may not issue is a firing. -/
theorem firing_none {s : State} {sl : Slot} {n : Node} (hf : s.focus = .slot sl) (hn : node? s sl = some n) (hm : mayIssue s sl n = false) :
    firing s = none := by
  cases h : firing s with
  | none => rfl
  | some fr =>
    obtain ⟨h1, h2, h3⟩ := firing_some h
    have : fr.sl = sl := by simpa [hf] using h1.symm
    subst this
    rw [hn, Option.some.injEq] at h2; subst h2
    rw [hm] at h3; exact absurd h3 (by simp)

/-- A set that executes is judged so, and only its operands may have been replaced by identity values (R124). -/
theorem change_fireSet {s : State} {w : CW} {m x y : Bool} {ids : Nat → Nat} {body : Firing → State}
    (h : ∀ fr, firing s = some fr → ∀ o, FiringChange w fr.sl s (body { fr with set := o })) :
    fireSet s w m x y ids body = s ∨ ∃ fr, firing s = some fr ∧ FiringChange w fr.sl s (fireSet s w m x y ids body) := by
  unfold fireSet
  cases hf : firing s with
  | none => exact .inl rfl
  | some fr =>
    refine .inr ⟨fr, rfl, ?_⟩
    dsimp only; split
    · exact .inl ((quiet_markBroke ..).trans (quiet_breakAt ..))
    · split
      · exact change_conclude ..
      · exact change_conclude ..
      · exact change_commit ..
      · exact change_conclude ..
      · exact change_faultFiring ..
      · exact h fr hf _

/-- The same for an instruction that judges its sets under its own rule. -/
theorem change_fireOwn {s : State} {w : CW} {body : Firing → State} (h : ∀ fr, firing s = some fr → FiringChange w fr.sl s (body fr)) :
    fireOwn s body = s ∨ ∃ fr, firing s = some fr ∧ FiringChange w fr.sl s (fireOwn s body) := by
  unfold fireOwn
  cases hf : firing s with
  | none => exact .inl rfl
  | some fr =>
    refine .inr ⟨fr, rfl, ?_⟩
    dsimp only; split
    · exact .inl ((quiet_markBroke ..).trans (quiet_breakAt ..))
    · exact h fr hf

theorem fireSet_none {s : State} (h : firing s = none) (w : CW) (m x y : Bool) (ids : Nat → Nat) (b : Firing → State) :
    fireSet s w m x y ids b = s := by simp only [fireSet, h]

theorem fireOwn_none {s : State} (h : firing s = none) (b : Firing → State) : fireOwn s b = s := by simp only [fireOwn, h]

/-! ## What a change of a firing leaves -/

/-- A trace record touches memory and the trace ring's registers alone (R409). -/
theorem local_trace (s : State) (sl : Slot) (o : OpSet) (v : W64) : Local sl s (trace s sl o v) := by
  have key : ∀ t : State, t.x = s.x → elemFrame t = elemFrame s → Local sl s t := by
    intro t hx hf
    exact ⟨hf, fun z _ => by simp only [holdOf, hx], fun z _ => by simp only [flagsOf, hx], by simp only [flagsOf, hx, BitVec.or_self],
      fun z _ => by simp only [parkedOf, hx], fun z _ => by simp only [walkOf, hx], fun z _ => by simp only [edgeOf, hx],
      fun c e _ => by simp only [iqOf, hx], fun c _ => by simp only [mstoreOf, hx], fun c _ => by simp only [ctabOf, hx]⟩
  unfold trace
  generalize traceBytes s sl o v = bs
  split
  · exact Local.refl ..
  · dsimp only; split
    · exact Local.refl ..
    · split
      · exact key _ rfl rfl
      · exact key _ rfl rfl

theorem traceBytes_length (s : State) (sl : Slot) (o : OpSet) (v : W64) : (traceBytes s sl o v).length = 32 := by
  simp [traceBytes, leBytes_length]

/-- A firing's change keeps to its slot. -/
theorem FiringChange.loc {w : CW} {sl : Slot} {s t : State} (h : FiringChange w sl s t) : Local sl s t := by
  obtain h | ⟨-, m, o, v, h, q⟩ := h
  · exact h.loc
  · exact (h.loc.trans (local_trace ..)).trans q.loc

/-- A firing's change writes no memory but its trace record. -/
theorem FiringChange.memKept {w : CW} {sl : Slot} {s t : State} (h : FiringChange w sl s t) : MemKept sl s t := by
  obtain h | ⟨-, m, o, v, h, q⟩ := h
  · exact .inl ⟨h.mem, h.ecc⟩
  · rw [MemKept, q.mem, q.ecc]
    unfold trace; split
    · exact .inl ⟨h.mem, h.ecc⟩
    · dsimp only; split
      · exact .inl ⟨h.mem, h.ecc⟩
      · split
        · next a ha =>
          exact .inr ⟨a, traceBytes m sl o v, (h.traceSlot _).symm.trans ha, traceBytes_length .., by simp only [freshWrite, memWrite, h.mem],
            by simp only [freshWrite, memWrite, h.ecc, traceBytes_length]⟩
        · exact .inl ⟨h.mem, h.ecc⟩

/-- Without TB a firing writes no memory. -/
theorem FiringChange.mem_of_tb {w : CW} {sl : Slot} {s t : State} (h : FiringChange w sl s t) (hb : w.tb = 0) : t.mem = s.mem := by
  obtain h | ⟨ht, -⟩ := h
  · exact h.mem
  · rw [hb] at ht; exact absurd ht (by decide)

end Sys2Proof.Machine
end

