-- ==== Sys2Proof/Laws/PerInstr.lean ====
section
/-! SUPPORT. One statement about every instruction as syntax: its row of the opcode map or of the sequencer table names the code that the
decoder reads back as the instruction, and the rows without a word are the events. -/

namespace Sys2Proof.Laws.RowCode

open Sys2Proof

/-- The code in a well-formed instruction's row is the one that the decoder reads as it (R66, R65); SHARE_REMOVE stands under SHARE's
opcode (R296). No instruction has a row in both tables, and one that has none is an event. -/
def Statement (i : Instr) : Prop :=
  i.wf = true →
    match i.row, i.srow with
    | some (r, w), none => ofOpcode r.op.toNat w = some (if i = .shareRemove w then .share w else i)
    | none, some (r, w) => ofSop r.sop.toNat w = some i
    | none, none => i.isEvent = true
    | some _, some _ => False

theorem abs (a : CW) : Statement (.abs a) := fun _ => rfl
theorem acq (a : CW) : Statement (.acq a) := fun _ => rfl
theorem add (a : CW) : Statement (.add a) := fun _ => rfl
theorem all (a : CW) : Statement (.all a) := fun _ => rfl
theorem and (a : CW) : Statement (.and a) := fun _ => rfl
theorem andn (a : CW) : Statement (.andn a) := fun _ => rfl
theorem armp (a : CW) : Statement (.armp a) := fun _ => rfl
theorem atom (a : CW) : Statement (.atom a) := fun _ => rfl
theorem bend (a : CW) : Statement (.bend a) := fun _ => rfl
theorem bfi (a : CW) : Statement (.bfi a) := fun _ => rfl
theorem bfx (a : CW) : Statement (.bfx a) := fun _ => rfl
theorem bin (a : CW) : Statement (.bin a) := fun _ => rfl
theorem capa (a : CW) : Statement (.capa a) := fun _ => rfl
theorem capd (a : CW) : Statement (.capd a) := fun _ => rfl
theorem cas (a : CW) : Statement (.cas a) := fun _ => rfl
theorem clz (a : CW) : Statement (.clz a) := fun _ => rfl
theorem cmp (a : CW) : Statement (.cmp a) := fun _ => rfl
theorem cnt (a : CW) : Statement (.cnt a) := fun _ => rfl
theorem consol (a : CW) : Statement (.consol a) := fun _ => rfl
theorem const (a : CW) : Statement (.const a) := fun _ => rfl
theorem cpy (a : CW) : Statement (.cpy a) := fun _ => rfl
theorem cvt (a : CW) : Statement (.cvt a) := fun _ => rfl
theorem div (a : CW) : Statement (.div a) := fun _ => rfl
theorem dset (a : CW) : Statement (.dset a) := fun _ => rfl
theorem dup (a : CW) : Statement (.dup a) := fun _ => rfl
theorem ends (a : CW) : Statement (.ends a) := fun _ => rfl
theorem enter (a : CW) : Statement (.enter a) := fun _ => rfl
theorem fabs (a : CW) : Statement (.fabs a) := fun _ => rfl
theorem fadd (a : CW) : Statement (.fadd a) := fun _ => rfl
theorem fatom (a : CW) : Statement (.fatom a) := fun _ => rfl
theorem fcls (a : CW) : Statement (.fcls a) := fun _ => rfl
theorem fcmp (a : CW) : Statement (.fcmp a) := fun _ => rfl
theorem fcvt (a : CW) : Statement (.fcvt a) := fun _ => rfl
theorem feed (a : CW) : Statement (.feed a) := fun _ => rfl
theorem fill (a : CW) : Statement (.fill a) := fun _ => rfl
theorem fma (a : CW) : Statement (.fma a) := fun _ => rfl
theorem fmax (a : CW) : Statement (.fmax a) := fun _ => rfl
theorem fmin (a : CW) : Statement (.fmin a) := fun _ => rfl
theorem fms (a : CW) : Statement (.fms a) := fun _ => rfl
theorem fmul (a : CW) : Statement (.fmul a) := fun _ => rfl
theorem fneg (a : CW) : Statement (.fneg a) := fun _ => rfl
theorem fnma (a : CW) : Statement (.fnma a) := fun _ => rfl
theorem frcp (a : CW) : Statement (.frcp a) := fun _ => rfl
theorem frnd (a : CW) : Statement (.frnd a) := fun _ => rfl
theorem front (a : CW) : Statement (.front a) := fun _ => rfl
theorem frsq (a : CW) : Statement (.frsq a) := fun _ => rfl
theorem fscl (a : CW) : Statement (.fscl a) := fun _ => rfl
theorem fsub (a : CW) : Statement (.fsub a) := fun _ => rfl
theorem gate (a : CW) : Statement (.gate a) := fun _ => rfl
theorem gbind (a : CW) : Statement (.gbind a) := fun _ => rfl
theorem gfree (a : CW) : Statement (.gfree a) := fun _ => rfl
theorem happ (a : CW) : Statement (.happ a) := fun _ => rfl
theorem hcomp (a : CW) : Statement (.hcomp a) := fun _ => rfl
theorem hjoin (a : CW) : Statement (.hjoin a) := fun _ => rfl
theorem hmrg (a : CW) : Statement (.hmrg a) := fun _ => rfl
theorem hnew (a : CW) : Statement (.hnew a) := fun _ => rfl
theorem hoist (a : CW) : Statement (.hoist a) := fun _ => rfl
theorem hred (a : CW) : Statement (.hred a) := fun _ => rfl
theorem hseek (a : CW) : Statement (.hseek a) := fun _ => rfl
theorem hstat (a : CW) : Statement (.hstat a) := fun _ => rfl
theorem idnt (a : CW) : Statement (.idnt a) := fun _ => rfl
theorem isect (a : CW) : Statement (.isect a) := fun _ => rfl
theorem lane (a : CW) : Statement (.lane a) := fun _ => rfl
theorem ld (a : CW) : Statement (.ld a) := fun _ => rfl
theorem ldw (a : CW) : Statement (.ldw a) := fun _ => rfl
theorem leave (a : CW) : Statement (.leave a) := fun _ => rfl
theorem mad (a : CW) : Statement (.mad a) := fun _ => rfl
theorem max (a : CW) : Statement (.max a) := fun _ => rfl
theorem mclr (a : CW) : Statement (.mclr a) := fun _ => rfl
theorem mcpy (a : CW) : Statement (.mcpy a) := fun _ => rfl
theorem mdrain (a : CW) : Statement (.mdrain a) := fun _ => rfl
theorem min (a : CW) : Statement (.min a) := fun _ => rfl
theorem minus (a : CW) : Statement (.minus a) := fun _ => rfl
theorem mload (a : CW) : Statement (.mload a) := fun _ => rfl
theorem mmask (a : CW) : Statement (.mmask a) := fun _ => rfl
theorem mov (a : CW) : Statement (.mov a) := fun _ => rfl
theorem mstat (a : CW) : Statement (.mstat a) := fun _ => rfl
theorem mstrm (a : CW) : Statement (.mstrm a) := fun _ => rfl
theorem mswap (a : CW) : Statement (.mswap a) := fun _ => rfl
theorem mul (a : CW) : Statement (.mul a) := fun _ => rfl
theorem mulh (a : CW) : Statement (.mulh a) := fun _ => rfl
theorem neg (a : CW) : Statement (.neg a) := fun _ => rfl
theorem negd (a : CW) : Statement (.negd a) := fun _ => rfl
theorem nextf (a : CW) : Statement (.nextf a) := fun _ => rfl
theorem not (a : CW) : Statement (.not a) := fun _ => rfl
theorem null (a : CW) : Statement (.null a) := fun _ => rfl
theorem or (a : CW) : Statement (.or a) := fun _ => rfl
theorem pfind (a : CW) : Statement (.pfind a) := fun _ => rfl
theorem phdrop (a : CW) : Statement (.phdrop a) := fun _ => rfl
theorem phnew (a : CW) : Statement (.phnew a) := fun _ => rfl
theorem phnext (a : CW) : Statement (.phnext a) := fun _ => rfl
theorem phqry (a : CW) : Statement (.phqry a) := fun _ => rfl
theorem phreg (a : CW) : Statement (.phreg a) := fun _ => rfl
theorem phsig (a : CW) : Statement (.phsig a) := fun _ => rfl
theorem phwait (a : CW) : Statement (.phwait a) := fun _ => rfl
theorem pnew (a : CW) : Statement (.pnew a) := fun _ => rfl
theorem popc (a : CW) : Statement (.popc a) := fun _ => rfl
theorem pread (a : CW) : Statement (.pread a) := fun _ => rfl
theorem probe (a : CW) : Statement (.probe a) := fun _ => rfl
theorem pwait (a : CW) : Statement (.pwait a) := fun _ => rfl
theorem qpost (a : CW) : Statement (.qpost a) := fun _ => rfl
theorem rekey (a : CW) : Statement (.rekey a) := fun _ => rfl
theorem rel (a : CW) : Statement (.rel a) := fun _ => rfl
theorem rem (a : CW) : Statement (.rem a) := fun _ => rfl
theorem rot (a : CW) : Statement (.rot a) := fun _ => rfl
theorem scan (a : CW) : Statement (.scan a) := fun _ => rfl
theorem sel (a : CW) : Statement (.sel a) := fun _ => rfl
theorem share (a : CW) : Statement (.share a) := fun _ => rfl
theorem shl (a : CW) : Statement (.shl a) := fun _ => rfl
theorem shr (a : CW) : Statement (.shr a) := fun _ => rfl
theorem sink (a : CW) : Statement (.sink a) := fun _ => rfl
theorem sra (a : CW) : Statement (.sra a) := fun _ => rfl
theorem src (a : CW) : Statement (.src a) := fun _ => rfl
theorem st (a : CW) : Statement (.st a) := fun _ => rfl
theorem std (a : CW) : Statement (.std a) := fun _ => rfl
theorem steer (a : CW) : Statement (.steer a) := fun _ => rfl
theorem strike (a : CW) : Statement (.strike a) := fun _ => rfl
theorem stwait (a : CW) : Statement (.stwait a) := fun _ => rfl
theorem sub (a : CW) : Statement (.sub a) := fun _ => rfl
theorem tagr (a : CW) : Statement (.tagr a) := fun _ => rfl
theorem take (a : CW) : Statement (.take a) := fun _ => rfl
theorem timev (a : CW) : Statement (.timev a) := fun _ => rfl
theorem tred (a : CW) : Statement (.tred a) := fun _ => rfl
theorem tset (a : CW) : Statement (.tset a) := fun _ => rfl
theorem union (a : CW) : Statement (.union a) := fun _ => rfl
theorem valk (a : CW) : Statement (.valk a) := fun _ => rfl
theorem vins (a : CW) : Statement (.vins a) := fun _ => rfl
theorem vsum (a : CW) : Statement (.vsum a) := fun _ => rfl
theorem xor (a : CW) : Statement (.xor a) := fun _ => rfl
theorem shareRemove (a : CW) : Statement (.shareRemove a) := fun _ => by simp [Instr.row, Instr.srow, ofOpcode]
theorem sli (a : SW) : Statement (.sli a) := fun _ => rfl
theorem sadd (a : SW) : Statement (.sadd a) := fun _ => rfl
theorem ssub (a : SW) : Statement (.ssub a) := fun _ => rfl
theorem smul (a : SW) : Statement (.smul a) := fun _ => rfl
theorem sand (a : SW) : Statement (.sand a) := fun _ => rfl
theorem sor (a : SW) : Statement (.sor a) := fun _ => rfl
theorem sxor (a : SW) : Statement (.sxor a) := fun _ => rfl
theorem sshl (a : SW) : Statement (.sshl a) := fun _ => rfl
theorem sshr (a : SW) : Statement (.sshr a) := fun _ => rfl
theorem sfadd (a : SW) : Statement (.sfadd a) := fun _ => rfl
theorem sld (a : SW) : Statement (.sld a) := fun _ => rfl
theorem sst (a : SW) : Statement (.sst a) := fun _ => rfl
theorem sbr (a : SW) : Statement (.sbr a) := fun _ => rfl
theorem sbz (a : SW) : Statement (.sbz a) := fun _ => rfl
theorem sbnz (a : SW) : Statement (.sbnz a) := fun _ => rfl
theorem sblt (a : SW) : Statement (.sblt a) := fun _ => rfl
theorem scall (a : SW) : Statement (.scall a) := fun _ => rfl
theorem sret (a : SW) : Statement (.sret a) := fun _ => rfl
theorem cfg (a : SW) : Statement (.cfg a) := fun _ => rfl
theorem arms (a : SW) : Statement (.arms a) := fun _ => rfl
theorem waits (a : SW) : Statement (.waits a) := fun _ => rfl
theorem wstamp (a : SW) : Statement (.wstamp a) := fun _ => rfl
theorem sqpost (a : SW) : Statement (.sqpost a) := fun _ => rfl
theorem launch (a : SW) : Statement (.launch a) := fun _ => rfl
theorem recfg (a : SW) : Statement (.recfg a) := fun _ => rfl
theorem fwait (a : SW) : Statement (.fwait a) := fun _ => rfl
theorem sflags (a : SW) : Statement (.sflags a) := by
  intro h; simp [Instr.wf, Instr.row, Instr.srow, SW.ok] at h; simp [Instr.row, Instr.srow, ofSop, h]
theorem sflagsAll (a : SW) : Statement (.sflagsAll a) := by
  intro h; simp [Instr.wf, Instr.row, Instr.srow, SW.ok] at h; simp [Instr.row, Instr.srow, ofSop, h]
theorem syield (a : SW) : Statement (.syield a) := fun _ => rfl
theorem shalt (a : SW) : Statement (.shalt a) := fun _ => rfl
theorem svc (a : SW) : Statement (.svc a) := fun _ => rfl
theorem eret (a : SW) : Statement (.eret a) := fun _ => rfl
theorem frec (a : SW) : Statement (.frec a) := fun _ => rfl
theorem freplay (a : SW) : Statement (.freplay a) := fun _ => rfl
theorem fabortRecord (a : SW) : Statement (.fabortRecord a) := by
  intro h; simp [Instr.wf, Instr.row, Instr.srow, SW.ok] at h; simp [Instr.row, Instr.srow, ofSop, h]
theorem fabortLaunch (a : SW) : Statement (.fabortLaunch a) := by
  intro h; simp [Instr.wf, Instr.row, Instr.srow, SW.ok] at h; simp [Instr.row, Instr.srow, ofSop, h]
theorem quiesce (a : SW) : Statement (.quiesce a) := fun _ => rfl
theorem csave (a : SW) : Statement (.csave a) := fun _ => rfl
theorem cload (a : SW) : Statement (.cload a) := fun _ => rfl
theorem cswap (a : SW) : Statement (.cswap a) := fun _ => rfl
theorem tlbinv (a : SW) : Statement (.tlbinv a) := fun _ => rfl
theorem mappin (a : SW) : Statement (.mappin a) := fun _ => rfl
theorem keyld (a : SW) : Statement (.keyld a) := fun _ => rfl
theorem lkey (a : SW) : Statement (.lkey a) := fun _ => rfl
theorem deadset (a : SW) : Statement (.deadset a) := fun _ => rfl
theorem deadclr (a : SW) : Statement (.deadclr a) := fun _ => rfl
theorem freeze (a : SW) : Statement (.freeze a) := fun _ => rfl
theorem thaw (a : SW) : Statement (.thaw a) := fun _ => rfl
theorem sweep (a : SW) : Statement (.sweep a) := fun _ => rfl
theorem brkset (a : SW) : Statement (.brkset a) := fun _ => rfl
theorem qbind (a : SW) : Statement (.qbind a) := fun _ => rfl
theorem qunbind (a : SW) : Statement (.qunbind a) := fun _ => rfl
theorem queueAccept (a : Nat) : Statement (.queueAccept a) := fun _ => rfl
theorem nopPacket (a0 : Nat) (a1 : Nat) : Statement (.nopPacket a0 a1) := fun _ => rfl
theorem launchPacket (a0 : Nat) (a1 : Nat) : Statement (.launchPacket a0 a1) := fun _ => rfl
theorem copyPacket (a0 : Nat) (a1 : Nat) : Statement (.copyPacket a0 a1) := fun _ => rfl
theorem mcopyPacket (a0 : Nat) (a1 : Nat) : Statement (.mcopyPacket a0 a1) := fun _ => rfl
theorem gbindPacket (a0 : Nat) (a1 : Nat) : Statement (.gbindPacket a0 a1) := fun _ => rfl
theorem gbindUnbindPacket (a0 : Nat) (a1 : Nat) : Statement (.gbindUnbindPacket a0 a1) := fun _ => rfl
theorem binPacket (a0 : Nat) (a1 : Nat) : Statement (.binPacket a0 a1) := fun _ => rfl
theorem stampPacket (a0 : Nat) (a1 : Nat) : Statement (.stampPacket a0 a1) := fun _ => rfl
theorem queueAgeing (a0 : Nat) (a1 : Sched) : Statement (.queueAgeing a0 a1) := fun _ => rfl
theorem graphQuantum (a : Nat) : Statement (.graphQuantum a) := fun _ => rfl
theorem graphResume (a0 : Nat) (a1 : Nat) : Statement (.graphResume a0 a1) := fun _ => rfl
theorem launchPart (a0 : Nat) (a1 : Nat) : Statement (.launchPart a0 a1) := fun _ => rfl
theorem launchAck (a0 : Nat) (a1 : Nat) : Statement (.launchAck a0 a1) := fun _ => rfl
theorem launchStart (a : Nat) : Statement (.launchStart a) := fun _ => rfl
theorem armingComplete (a0 : Nat) (a1 : Nat) : Statement (.armingComplete a0 a1) := fun _ => rfl
theorem launchComplete (a : Nat) : Statement (.launchComplete a) := fun _ => rfl
theorem tokenArrival (a0 : EdgeId) (a1 : InPort) (a2 : Bool) : Statement (.tokenArrival a0 a1 a2) := fun _ => rfl
theorem tokenResend (a0 : EdgeId) (a1 : InPort) (a2 : Bool) : Statement (.tokenResend a0 a1 a2) := fun _ => rfl
theorem overflowReadDone (a : CoreId) : Statement (.overflowReadDone a) := fun _ => rfl
theorem countTableIdleFlush (a : CoreId) : Statement (.countTableIdleFlush a) := fun _ => rfl
theorem countMessage (a : Nat) : Statement (.countMessage a) := fun _ => rfl
theorem trackerForward (a0 : Nat) (a1 : Nat) : Statement (.trackerForward a0 a1) := fun _ => rfl
theorem trackerPeerChange (a0 : Nat) (a1 : Nat) (a2 : List CountItem) : Statement (.trackerPeerChange a0 a1 a2) := fun _ => rfl
theorem frontierUpdate (a : Slot) : Statement (.frontierUpdate a) := fun _ => rfl
theorem frontAnswer (a : Slot) : Statement (.frontAnswer a) := fun _ => rfl
theorem memoryRequest (a : Nat) : Statement (.memoryRequest a) := fun _ => rfl
theorem atomicRequest (a : Nat) : Statement (.atomicRequest a) := fun _ => rfl
theorem aonStore (a : Nat) : Statement (.aonStore a) := fun _ => rfl
theorem aonLoad (a : Nat) : Statement (.aonLoad a) := fun _ => rfl
theorem memoryResponse (a : Nat) : Statement (.memoryResponse a) := fun _ => rfl
theorem presenceRequest (a : Nat) : Statement (.presenceRequest a) := fun _ => rfl
theorem paneArrival (a : Nat) : Statement (.paneArrival a) := fun _ => rfl
theorem waitlistRetry (a0 : UnitId) (a1 : Nat) : Statement (.waitlistRetry a0 a1) := fun _ => rfl
theorem walkStep (a : Nat) : Statement (.walkStep a) := fun _ => rfl
theorem carryApply (a : Nat) : Statement (.carryApply a) := fun _ => rfl
theorem phaserStep (a : Nat) : Statement (.phaserStep a) := fun _ => rfl
theorem lockStep (a : Nat) : Statement (.lockStep a) := fun _ => rfl
theorem releasePortWait (a0 : CoreId) (a1 : Nat) : Statement (.releasePortWait a0 a1) := fun _ => rfl
theorem historyOperation (a : Nat) : Statement (.historyOperation a) := fun _ => rfl
theorem historyPendingProcess (a0 : CoreId) (a1 : Nat) : Statement (.historyPendingProcess a0 a1) := fun _ => rfl
theorem streamAccept (a0 : Nat) (a1 : Nat) : Statement (.streamAccept a0 a1) := fun _ => rfl
theorem streamChunk (a0 : Nat) (a1 : Nat) (a2 : Nat) : Statement (.streamChunk a0 a1 a2) := fun _ => rfl
theorem streamComplete (a0 : Nat) (a1 : Nat) (a2 : Nat) : Statement (.streamComplete a0 a1 a2) := fun _ => rfl
theorem windowRequest (a : Nat) : Statement (.windowRequest a) := fun _ => rfl
theorem decodeLength (a0 : DecodeSite) (a1 : Nat) : Statement (.decodeLength a0 a1) := fun _ => rfl
theorem matrixAccept (a0 : Nat) (a1 : Nat) : Statement (.matrixAccept a0 a1) := fun _ => rfl
theorem matrixControlApply (a0 : Nat) (a1 : Nat) : Statement (.matrixControlApply a0 a1) := fun _ => rfl
theorem rowPass (a0 : Nat) (a1 : Nat) : Statement (.rowPass a0 a1) := fun _ => rfl
theorem faultRecordWrite (a : Nat) : Statement (.faultRecordWrite a) := fun _ => rfl
theorem hang (a0 : Nat) (a1 : Nat) : Statement (.hang a0 a1) := fun _ => rfl
theorem meshHop (a0 : Nat) (a1 : Bool) : Statement (.meshHop a0 a1) := fun _ => rfl
theorem beatResend (a0 : Nat) (a1 : Bool) : Statement (.beatResend a0 a1) := fun _ => rfl
theorem budgetPeriod (a : UnitId) : Statement (.budgetPeriod a) := fun _ => rfl
theorem frameSend (a0 : Nat) (a1 : Nat) : Statement (.frameSend a0 a1) := fun _ => rfl
theorem frameReceive (a0 : Nat) (a1 : Frame) : Statement (.frameReceive a0 a1) := fun _ => rfl
theorem keyAckFrame (a0 : Nat) (a1 : Frame) : Statement (.keyAckFrame a0 a1) := fun _ => rfl
theorem keyChange (a : Nat) : Statement (.keyChange a) := fun _ => rfl
theorem linkTrained (a : Nat) : Statement (.linkTrained a) := fun _ => rfl
theorem linkDown (a : Nat) : Statement (.linkDown a) := fun _ => rfl
theorem sourceTimeout (a : Nat) : Statement (.sourceTimeout a) := fun _ => rfl
theorem deadBitmap (a : UnitId) : Statement (.deadBitmap a) := fun _ => rfl
theorem hostWrite (a0 : Nat) (a1 : Nat) (a2 : List Byte) : Statement (.hostWrite a0 a1 a2) := fun _ => rfl
theorem hostRead (a0 : Nat) (a1 : Nat) (a2 : Nat) : Statement (.hostRead a0 a1 a2) := fun _ => rfl
theorem hostFetchadd (a0 : Nat) (a1 : Nat) (a2 : Nat) (a3 : W64) : Statement (.hostFetchadd a0 a1 a2 a3) := fun _ => rfl
theorem hostSwap (a0 : Nat) (a1 : Nat) (a2 : Nat) (a3 : W64) : Statement (.hostSwap a0 a1 a2 a3) := fun _ => rfl
theorem hostCas (a0 : Nat) (a1 : Nat) (a2 : Nat) (a3 : W64) (a4 : W64) : Statement (.hostCas a0 a1 a2 a3 a4) := fun _ => rfl
theorem hwinWrite (a0 : Nat) (a1 : Nat) (a2 : W64) : Statement (.hwinWrite a0 a1 a2) := fun _ => rfl
theorem pform (a0 : Nat) (a1 : W64) (a2 : BitVec 16) : Statement (.pform a0 a1 a2) := fun _ => rfl
theorem pfree (a : Nat) : Statement (.pfree a) := fun _ => rfl
theorem attest (a : List Byte) : Statement (.attest a) := fun _ => rfl
theorem fwload (a0 : W64) (a1 : W32) : Statement (.fwload a0 a1) := fun _ => rfl
theorem powerToP0 (a : BitVec 16) : Statement (.powerToP0 a) := fun _ => rfl
theorem powerToP1 (a : BitVec 16) : Statement (.powerToP1 a) := fun _ => rfl
theorem powerToP2 (a : BitVec 16) : Statement (.powerToP2 a) := fun _ => rfl
theorem powerToP3 (a : BitVec 16) : Statement (.powerToP3 a) := fun _ => rfl
theorem powerPeriod (a : Nat) : Statement (.powerPeriod a) := fun _ => rfl
theorem thermalThrottle (a0 : Nat) (a1 : BitVec 16) : Statement (.thermalThrottle a0 a1) := fun _ => rfl
theorem thermalTrip (a0 : Nat) (a1 : BitVec 16) : Statement (.thermalTrip a0 a1) := fun _ => rfl
theorem coldReset (a : BootFuses) : Statement (.coldReset a) := fun _ => rfl
theorem cstatWrite (a : Nat) : Statement (.cstatWrite a) := fun _ => rfl
theorem mperWrite (a : Nat) : Statement (.mperWrite a) := fun _ => rfl
theorem mbudWrite (a : Nat) : Statement (.mbudWrite a) := fun _ => rfl
theorem ltmoWrite (a : Nat) : Statement (.ltmoWrite a) := fun _ => rfl
theorem frctlWrite (a : Nat) : Statement (.frctlWrite a) := fun _ => rfl
theorem hangivWrite (a : Nat) : Statement (.hangivWrite a) := fun _ => rfl
theorem registerWrite (a : Nat) : Statement (.registerWrite a) := fun _ => rfl
theorem exchangeComplete (a : Nat) : Statement (.exchangeComplete a) := fun _ => rfl
theorem csaveComplete (a : Nat) : Statement (.csaveComplete a) := fun _ => rfl
theorem cloadComplete (a : Nat) : Statement (.cloadComplete a) := fun _ => rfl
theorem translationWalkComplete (a0 : Nat) (a1 : Nat) (a2 : Nat) : Statement (.translationWalkComplete a0 a1 a2) := fun _ => rfl
theorem weightLoadComplete (a0 : Nat) (a1 : Nat) : Statement (.weightLoadComplete a0 a1) := fun _ => rfl
theorem mdrainComplete (a0 : Nat) (a1 : Nat) : Statement (.mdrainComplete a0 a1) := fun _ => rfl
theorem thermalThrottleEnd (a0 : Nat) (a1 : BitVec 16) : Statement (.thermalThrottleEnd a0 a1) := fun _ => rfl

end Sys2Proof.Laws.RowCode
end

