-- ==== Sys2Proof/Laws/Port.lean ====
section
/-! SUPPORT. What the memory port can do when a set issues: a firing's change. -/

namespace Sys2Proof.Machine

open Sys2Proof Sys2Proof.Safety

theorem quiet_setOutw (s : State) (sl : Slot) (c : CoreId) (l : List OutW) : Quiet sl s (setOutw s c l) :=
  Quiet.plain rfl rfl rfl rfl rfl rfl rfl rfl rfl rfl rfl

/-- A release that parks for a refused write is noted at that write (R320). -/
theorem quiet_tellRefused (s : State) (sl : Slot) (r : PortReq) (ws : List OutW) : Quiet sl s (tellRefused s r ws) := by
  unfold tellRefused; exact quiet_setOutw ..

theorem quiet_noteWrite (s : State) (sl : Slot) (r : PortReq) : Quiet sl s (noteWrite s r) := by
  unfold noteWrite; exact quiet_setOutw ..

theorem change_finishReq (s : State) (r : PortReq) (n : Node) (xs ys : List Token) (is : List CountItem) :
    FiringChange r.w r.sl s (finishReq s r n xs ys is) := by
  have q : Quiet r.sl s (finishReq s { r with w := { r.w with tb := 0 } } n xs ys is) := by
    simp only [finishReq, show ((0 : BitVec 1) = 1) = False from by decide, if_false]
    exact (((quiet_settle ..).trans (quiet_settle ..)).trans (quiet_record ..)).trans (quiet_progress ..)
  have e : finishReq s r n xs ys is =
      if r.w.tb = 1 then trace (finishReq s { r with w := { r.w with tb := 0 } } n xs ys is) r.sl r.set
        ((xs.head?.map Token.val).getD 0)
      else finishReq s { r with w := { r.w with tb := 0 } } n xs ys is := rfl
  rw [e]; split
  · next h => exact .inr ⟨h, _, _, _, q, Quiet.refl ..⟩
  · exact .inl q

/-- A request that ends in a fault gives its buffers back and parks its set, or ends as a skip would (R126, R188, R320). -/
theorem change_failReq (s : State) (r : PortReq) (code a : Nat) : FiringChange r.w r.sl s (failReq s r code a) := by
  unfold failReq; split
  · exact .inl (Quiet.refl ..)
  · have hp : ∀ n c, FiringChange r.w r.sl s (parkSet (settle (settle s r.sl 4 r.rid []) r.sl 5 r.rid []) r.sl n r.set c a (.core r.sl.core)) :=
      fun n c => .inl (((quiet_settle ..).trans (quiet_settle ..)).trans (quiet_parkSet ..))
    dsimp only; split
    · exact hp _ _
    · split
      · exact hp _ _
      · have q := fun c f => (quiet_toCatch s r.sl r.lid c r.sl r.set code a).trans (quiet_reportFault _ r.sl f)
        split
        · exact .of (q _ _) (change_finishReq ..)
        · split
          · exact .of (((q _ _).trans (quiet_putToks ..)).trans (quiet_putToks ..)) (change_finishReq ..)
          · exact .of ((q _ _).trans (quiet_putToks ..)) (change_finishReq ..)

theorem change_issuedTok (s : State) (r : PortReq) (n : Node) : FiringChange r.w r.sl s (issuedTok s r n) := by
  unfold issuedTok; split
  · exact change_finishReq ..
  · exact .inl ((quiet_settle ..).trans (quiet_parkSet ..))

/-- A request that leaves its port puts a packet in flight; its firing changes nothing else but its own slot's state (R187 to R189). -/
theorem change_leavePort (s : State) (r : PortReq) : FiringChange r.w r.sl s (leavePort s r) := by
  unfold leavePort; split
  · exact .inl (Quiet.refl ..)
  · dsimp only; split
    · exact .of (quiet_tellRefused ..) (change_failReq ..)
    · split
      · have q : Quiet r.sl s (sendReq (if isWrite r.op then noteWrite s r else s) r) := by
          refine Quiet.trans ?_ (quiet_sendReq ..)
          split
          · exact quiet_noteWrite ..
          · exact Quiet.refl ..
        split
        · exact .of q (change_issuedTok ..)
        · exact .inl q
      · exact .inl (Quiet.plain rfl rfl rfl rfl rfl rfl rfl rfl rfl rfl rfl)

theorem quiet_reserveReq (s : State) (w : CW) (fr : Firing) (r : PortReq) : Quiet fr.sl s (reserveReq s w fr r) := by
  simp only [reserveReq]
  refine Quiet.trans ?_ (quiet_noteIssue ..)
  have hr : ∀ (t : State) (b : Bool) (p : Nat) (tm : Time) (q : BitVec 24),
      Quiet fr.sl t (if b then reserve t fr.sl p r.rid tm q else t) := by
    intro t b p tm q; split
    · exact quiet_reserve ..
    · exact Quiet.refl ..
  have hr2 : ∀ (t : State) (b : Bool) (p : Nat) (tm : Time) (q : BitVec 24),
      Quiet fr.sl t (if b then t else reserve t fr.sl p r.rid tm q) := by
    intro t b p tm q; split
    · exact Quiet.refl ..
    · exact quiet_reserve ..
  exact ((((quiet_fresh s fr.sl).trans (quiet_popIq ..)).trans (quiet_setHold ..)).trans (hr ..)).trans (hr2 ..)

/-- The checks of a request change nothing of it but its addresses (R187). -/
theorem resolve_go {s : State} {r q : PortReq} (h : resolve s r = .go q) : q.w = r.w ∧ q.sl = r.sl := by
  unfold resolve at h
  dsimp only at h
  repeat' first
    | split at h
    | (injection h with h; subst h; exact ⟨rfl, rfl⟩)
    | (exfalso; simp only [reduceCtorEq] at h)

theorem quiet_twalks (s : State) (sl : Slot) (l : Tbl Nat (List Walk)) : Quiet sl s { s with twalks := l } :=
  Quiet.plain rfl rfl rfl rfl rfl rfl rfl rfl rfl rfl rfl

theorem change_awaitWalk (s : State) (op : Op) (w : CW) (fr : Firing) (r : PortReq) (va : Nat) :
    FiringChange w fr.sl s (awaitWalk s op w fr r va) := by
  unfold awaitWalk; dsimp only; split
  · split
    · exact .inl (Quiet.refl ..)
    · exact .of (quiet_twalks ..) (change_faultFiring ..)
  · split
    · exact .inl ((quiet_spend ..).trans (quiet_twalks ..))
    · exact .inl (Quiet.refl ..)

theorem change_issueReq (s : State) (op : Op) (w : CW) (fr : Firing) : FiringChange w fr.sl s (issueReq s op w fr) := by
  unfold issueReq; dsimp only; split
  · exact .inl (Quiet.refl ..)
  · split
    · exact change_faultFiring ..
    · split
      · exact change_faultFiring ..
      · exact change_awaitWalk ..
      · next q hq =>
        obtain ⟨hw, hs⟩ := resolve_go hq
        have h := change_leavePort (reserveReq s w fr (mkReq s op w fr)) q
        rw [hw, hs] at h
        split
        · exact .inl (Quiet.refl ..)
        · exact .of (quiet_reserveReq ..) h

/-- An operator of the memory port changes nothing, or makes a firing's change. -/
theorem change_firePort (s : State) (op : Op) (w : CW) :
    firePort s op w = s ∨ ∃ fr, firing s = some fr ∧ FiringChange w fr.sl s (firePort s op w) :=
  change_fireSet fun fr _ o => change_issueReq s op w { fr with set := o }

theorem firePort_none {s : State} (h : firing s = none) (op : Op) (w : CW) : firePort s op w = s := fireSet_none h ..

end Sys2Proof.Machine
end

