-- ==== Sys2Proof/Laws/State.lean ====
section
/-! SUPPORT. What each plain update of the state leaves in each field: one lemma per field and update, true by rfl. -/

namespace Sys2Proof.Machine

open Sys2Proof

/-! ## setEdge -/

@[simp] theorem setEdge_x (s : State) (g : EdgeId) (b : EdgeSt) : (setEdge s g b).x = { s.x with edges := tset s.x.edges g b } := rfl
@[simp] theorem setEdge_sh (s : State) (g : EdgeId) (b : EdgeSt) : (setEdge s g b).sh = s.sh := rfl
@[simp] theorem setEdge_mem (s : State) (g : EdgeId) (b : EdgeSt) : (setEdge s g b).mem = s.mem := rfl
@[simp] theorem setEdge_smem (s : State) (g : EdgeId) (b : EdgeSt) : (setEdge s g b).smem = s.smem := rfl
@[simp] theorem setEdge_ecc (s : State) (g : EdgeId) (b : EdgeSt) : (setEdge s g b).ecc = s.ecc := rfl
@[simp] theorem setEdge_secc (s : State) (g : EdgeId) (b : EdgeSt) : (setEdge s g b).secc = s.secc := rfl
@[simp] theorem setEdge_xts (s : State) (g : EdgeId) (b : EdgeSt) : (setEdge s g b).xts = s.xts := rfl
@[simp] theorem setEdge_units (s : State) (g : EdgeId) (b : EdgeSt) : (setEdge s g b).units = s.units := rfl
@[simp] theorem setEdge_uecc (s : State) (g : EdgeId) (b : EdgeSt) : (setEdge s g b).uecc = s.uecc := rfl
@[simp] theorem setEdge_aon (s : State) (g : EdgeId) (b : EdgeSt) : (setEdge s g b).aon = s.aon := rfl
@[simp] theorem setEdge_saon (s : State) (g : EdgeId) (b : EdgeSt) : (setEdge s g b).saon = s.saon := rfl
@[simp] theorem setEdge_lateAck (s : State) (g : EdgeId) (b : EdgeSt) : (setEdge s g b).lateAck = s.lateAck := rfl
@[simp] theorem setEdge_wins (s : State) (g : EdgeId) (b : EdgeSt) : (setEdge s g b).wins = s.wins := rfl
@[simp] theorem setEdge_net (s : State) (g : EdgeId) (b : EdgeSt) : (setEdge s g b).net = s.net := rfl
@[simp] theorem setEdge_budgets (s : State) (g : EdgeId) (b : EdgeSt) : (setEdge s g b).budgets = s.budgets := rfl
@[simp] theorem setEdge_tlbs (s : State) (g : EdgeId) (b : EdgeSt) : (setEdge s g b).tlbs = s.tlbs := rfl
@[simp] theorem setEdge_twalks (s : State) (g : EdgeId) (b : EdgeSt) : (setEdge s g b).twalks = s.twalks := rfl
@[simp] theorem setEdge_shares (s : State) (g : EdgeId) (b : EdgeSt) : (setEdge s g b).shares = s.shares := rfl
@[simp] theorem setEdge_movp (s : State) (g : EdgeId) (b : EdgeSt) : (setEdge s g b).movp = s.movp := rfl
@[simp] theorem setEdge_movl (s : State) (g : EdgeId) (b : EdgeSt) : (setEdge s g b).movl = s.movl := rfl
@[simp] theorem setEdge_parcnt (s : State) (g : EdgeId) (b : EdgeSt) : (setEdge s g b).parcnt = s.parcnt := rfl
@[simp] theorem setEdge_lastF (s : State) (g : EdgeId) (b : EdgeSt) : (setEdge s g b).lastF = s.lastF := rfl
@[simp] theorem setEdge_queues (s : State) (g : EdgeId) (b : EdgeSt) : (setEdge s g b).queues = s.queues := rfl
@[simp] theorem setEdge_seqrs (s : State) (g : EdgeId) (b : EdgeSt) : (setEdge s g b).seqrs = s.seqrs := rfl
@[simp] theorem setEdge_launches (s : State) (g : EdgeId) (b : EdgeSt) : (setEdge s g b).launches = s.launches := rfl
@[simp] theorem setEdge_ftrk (s : State) (g : EdgeId) (b : EdgeSt) : (setEdge s g b).ftrk = s.ftrk := rfl
@[simp] theorem setEdge_fspb (s : State) (g : EdgeId) (b : EdgeSt) : (setEdge s g b).fspb = s.fspb := rfl
@[simp] theorem setEdge_sis (s : State) (g : EdgeId) (b : EdgeSt) : (setEdge s g b).sis = s.sis := rfl
@[simp] theorem setEdge_dead (s : State) (g : EdgeId) (b : EdgeSt) : (setEdge s g b).dead = s.dead := rfl
@[simp] theorem setEdge_deadU (s : State) (g : EdgeId) (b : EdgeSt) : (setEdge s g b).deadU = s.deadU := rfl
@[simp] theorem setEdge_ltmo (s : State) (g : EdgeId) (b : EdgeSt) : (setEdge s g b).ltmo = s.ltmo := rfl
@[simp] theorem setEdge_wafno (s : State) (g : EdgeId) (b : EdgeSt) : (setEdge s g b).wafno = s.wafno := rfl
@[simp] theorem setEdge_ports (s : State) (g : EdgeId) (b : EdgeSt) : (setEdge s g b).ports = s.ports := rfl
@[simp] theorem setEdge_remotes (s : State) (g : EdgeId) (b : EdgeSt) : (setEdge s g b).remotes = s.remotes := rfl
@[simp] theorem setEdge_carried (s : State) (g : EdgeId) (b : EdgeSt) : (setEdge s g b).carried = s.carried := rfl
@[simp] theorem setEdge_parts (s : State) (g : EdgeId) (b : EdgeSt) : (setEdge s g b).parts = s.parts := rfl
@[simp] theorem setEdge_ctxs (s : State) (g : EdgeId) (b : EdgeSt) : (setEdge s g b).ctxs = s.ctxs := rfl
@[simp] theorem setEdge_saved (s : State) (g : EdgeId) (b : EdgeSt) : (setEdge s g b).saved = s.saved := rfl
@[simp] theorem setEdge_areas (s : State) (g : EdgeId) (b : EdgeSt) : (setEdge s g b).areas = s.areas := rfl
@[simp] theorem setEdge_keys (s : State) (g : EdgeId) (b : EdgeSt) : (setEdge s g b).keys = s.keys := rfl
@[simp] theorem setEdge_supr (s : State) (g : EdgeId) (b : EdgeSt) : (setEdge s g b).supr = s.supr := rfl
@[simp] theorem setEdge_brks (s : State) (g : EdgeId) (b : EdgeSt) : (setEdge s g b).brks = s.brks := rfl
@[simp] theorem setEdge_recQ (s : State) (g : EdgeId) (b : EdgeSt) : (setEdge s g b).recQ = s.recQ := rfl
@[simp] theorem setEdge_recs (s : State) (g : EdgeId) (b : EdgeSt) : (setEdge s g b).recs = s.recs := rfl
@[simp] theorem setEdge_svcs (s : State) (g : EdgeId) (b : EdgeSt) : (setEdge s g b).svcs = s.svcs := rfl
@[simp] theorem setEdge_frozen (s : State) (g : EdgeId) (b : EdgeSt) : (setEdge s g b).frozen = s.frozen := rfl
@[simp] theorem setEdge_prog (s : State) (g : EdgeId) (b : EdgeSt) : (setEdge s g b).prog = s.prog := rfl
@[simp] theorem setEdge_regw (s : State) (g : EdgeId) (b : EdgeSt) : (setEdge s g b).regw = s.regw := rfl
@[simp] theorem setEdge_host (s : State) (g : EdgeId) (b : EdgeSt) : (setEdge s g b).host = s.host := rfl
@[simp] theorem setEdge_ctrs (s : State) (g : EdgeId) (b : EdgeSt) : (setEdge s g b).ctrs = s.ctrs := rfl
@[simp] theorem setEdge_serial (s : State) (g : EdgeId) (b : EdgeSt) : (setEdge s g b).serial = s.serial := rfl
@[simp] theorem setEdge_agenda (s : State) (g : EdgeId) (b : EdgeSt) : (setEdge s g b).agenda = s.agenda := rfl
@[simp] theorem setEdge_tick (s : State) (g : EdgeId) (b : EdgeSt) : (setEdge s g b).tick = s.tick := rfl
@[simp] theorem setEdge_focus (s : State) (g : EdgeId) (b : EdgeSt) : (setEdge s g b).focus = s.focus := rfl
@[simp] theorem setEdge_swapped (s : State) (g : EdgeId) (b : EdgeSt) : (setEdge s g b).swapped = s.swapped := rfl

/-! ## setIq -/

@[simp] theorem setIq_x (s : State) (c : CoreId) (e : Nat) (q : List QSet) : (setIq s c e q).x = { s.x with iq := tset s.x.iq (c, e) q } := rfl
@[simp] theorem setIq_sh (s : State) (c : CoreId) (e : Nat) (q : List QSet) : (setIq s c e q).sh = s.sh := rfl
@[simp] theorem setIq_mem (s : State) (c : CoreId) (e : Nat) (q : List QSet) : (setIq s c e q).mem = s.mem := rfl
@[simp] theorem setIq_smem (s : State) (c : CoreId) (e : Nat) (q : List QSet) : (setIq s c e q).smem = s.smem := rfl
@[simp] theorem setIq_ecc (s : State) (c : CoreId) (e : Nat) (q : List QSet) : (setIq s c e q).ecc = s.ecc := rfl
@[simp] theorem setIq_secc (s : State) (c : CoreId) (e : Nat) (q : List QSet) : (setIq s c e q).secc = s.secc := rfl
@[simp] theorem setIq_xts (s : State) (c : CoreId) (e : Nat) (q : List QSet) : (setIq s c e q).xts = s.xts := rfl
@[simp] theorem setIq_units (s : State) (c : CoreId) (e : Nat) (q : List QSet) : (setIq s c e q).units = s.units := rfl
@[simp] theorem setIq_uecc (s : State) (c : CoreId) (e : Nat) (q : List QSet) : (setIq s c e q).uecc = s.uecc := rfl
@[simp] theorem setIq_aon (s : State) (c : CoreId) (e : Nat) (q : List QSet) : (setIq s c e q).aon = s.aon := rfl
@[simp] theorem setIq_saon (s : State) (c : CoreId) (e : Nat) (q : List QSet) : (setIq s c e q).saon = s.saon := rfl
@[simp] theorem setIq_lateAck (s : State) (c : CoreId) (e : Nat) (q : List QSet) : (setIq s c e q).lateAck = s.lateAck := rfl
@[simp] theorem setIq_wins (s : State) (c : CoreId) (e : Nat) (q : List QSet) : (setIq s c e q).wins = s.wins := rfl
@[simp] theorem setIq_net (s : State) (c : CoreId) (e : Nat) (q : List QSet) : (setIq s c e q).net = s.net := rfl
@[simp] theorem setIq_budgets (s : State) (c : CoreId) (e : Nat) (q : List QSet) : (setIq s c e q).budgets = s.budgets := rfl
@[simp] theorem setIq_tlbs (s : State) (c : CoreId) (e : Nat) (q : List QSet) : (setIq s c e q).tlbs = s.tlbs := rfl
@[simp] theorem setIq_twalks (s : State) (c : CoreId) (e : Nat) (q : List QSet) : (setIq s c e q).twalks = s.twalks := rfl
@[simp] theorem setIq_shares (s : State) (c : CoreId) (e : Nat) (q : List QSet) : (setIq s c e q).shares = s.shares := rfl
@[simp] theorem setIq_movp (s : State) (c : CoreId) (e : Nat) (q : List QSet) : (setIq s c e q).movp = s.movp := rfl
@[simp] theorem setIq_movl (s : State) (c : CoreId) (e : Nat) (q : List QSet) : (setIq s c e q).movl = s.movl := rfl
@[simp] theorem setIq_parcnt (s : State) (c : CoreId) (e : Nat) (q : List QSet) : (setIq s c e q).parcnt = s.parcnt := rfl
@[simp] theorem setIq_lastF (s : State) (c : CoreId) (e : Nat) (q : List QSet) : (setIq s c e q).lastF = s.lastF := rfl
@[simp] theorem setIq_queues (s : State) (c : CoreId) (e : Nat) (q : List QSet) : (setIq s c e q).queues = s.queues := rfl
@[simp] theorem setIq_seqrs (s : State) (c : CoreId) (e : Nat) (q : List QSet) : (setIq s c e q).seqrs = s.seqrs := rfl
@[simp] theorem setIq_launches (s : State) (c : CoreId) (e : Nat) (q : List QSet) : (setIq s c e q).launches = s.launches := rfl
@[simp] theorem setIq_ftrk (s : State) (c : CoreId) (e : Nat) (q : List QSet) : (setIq s c e q).ftrk = s.ftrk := rfl
@[simp] theorem setIq_fspb (s : State) (c : CoreId) (e : Nat) (q : List QSet) : (setIq s c e q).fspb = s.fspb := rfl
@[simp] theorem setIq_sis (s : State) (c : CoreId) (e : Nat) (q : List QSet) : (setIq s c e q).sis = s.sis := rfl
@[simp] theorem setIq_dead (s : State) (c : CoreId) (e : Nat) (q : List QSet) : (setIq s c e q).dead = s.dead := rfl
@[simp] theorem setIq_deadU (s : State) (c : CoreId) (e : Nat) (q : List QSet) : (setIq s c e q).deadU = s.deadU := rfl
@[simp] theorem setIq_ltmo (s : State) (c : CoreId) (e : Nat) (q : List QSet) : (setIq s c e q).ltmo = s.ltmo := rfl
@[simp] theorem setIq_wafno (s : State) (c : CoreId) (e : Nat) (q : List QSet) : (setIq s c e q).wafno = s.wafno := rfl
@[simp] theorem setIq_ports (s : State) (c : CoreId) (e : Nat) (q : List QSet) : (setIq s c e q).ports = s.ports := rfl
@[simp] theorem setIq_remotes (s : State) (c : CoreId) (e : Nat) (q : List QSet) : (setIq s c e q).remotes = s.remotes := rfl
@[simp] theorem setIq_carried (s : State) (c : CoreId) (e : Nat) (q : List QSet) : (setIq s c e q).carried = s.carried := rfl
@[simp] theorem setIq_parts (s : State) (c : CoreId) (e : Nat) (q : List QSet) : (setIq s c e q).parts = s.parts := rfl
@[simp] theorem setIq_ctxs (s : State) (c : CoreId) (e : Nat) (q : List QSet) : (setIq s c e q).ctxs = s.ctxs := rfl
@[simp] theorem setIq_saved (s : State) (c : CoreId) (e : Nat) (q : List QSet) : (setIq s c e q).saved = s.saved := rfl
@[simp] theorem setIq_areas (s : State) (c : CoreId) (e : Nat) (q : List QSet) : (setIq s c e q).areas = s.areas := rfl
@[simp] theorem setIq_keys (s : State) (c : CoreId) (e : Nat) (q : List QSet) : (setIq s c e q).keys = s.keys := rfl
@[simp] theorem setIq_supr (s : State) (c : CoreId) (e : Nat) (q : List QSet) : (setIq s c e q).supr = s.supr := rfl
@[simp] theorem setIq_brks (s : State) (c : CoreId) (e : Nat) (q : List QSet) : (setIq s c e q).brks = s.brks := rfl
@[simp] theorem setIq_recQ (s : State) (c : CoreId) (e : Nat) (q : List QSet) : (setIq s c e q).recQ = s.recQ := rfl
@[simp] theorem setIq_recs (s : State) (c : CoreId) (e : Nat) (q : List QSet) : (setIq s c e q).recs = s.recs := rfl
@[simp] theorem setIq_svcs (s : State) (c : CoreId) (e : Nat) (q : List QSet) : (setIq s c e q).svcs = s.svcs := rfl
@[simp] theorem setIq_frozen (s : State) (c : CoreId) (e : Nat) (q : List QSet) : (setIq s c e q).frozen = s.frozen := rfl
@[simp] theorem setIq_prog (s : State) (c : CoreId) (e : Nat) (q : List QSet) : (setIq s c e q).prog = s.prog := rfl
@[simp] theorem setIq_regw (s : State) (c : CoreId) (e : Nat) (q : List QSet) : (setIq s c e q).regw = s.regw := rfl
@[simp] theorem setIq_host (s : State) (c : CoreId) (e : Nat) (q : List QSet) : (setIq s c e q).host = s.host := rfl
@[simp] theorem setIq_ctrs (s : State) (c : CoreId) (e : Nat) (q : List QSet) : (setIq s c e q).ctrs = s.ctrs := rfl
@[simp] theorem setIq_serial (s : State) (c : CoreId) (e : Nat) (q : List QSet) : (setIq s c e q).serial = s.serial := rfl
@[simp] theorem setIq_agenda (s : State) (c : CoreId) (e : Nat) (q : List QSet) : (setIq s c e q).agenda = s.agenda := rfl
@[simp] theorem setIq_tick (s : State) (c : CoreId) (e : Nat) (q : List QSet) : (setIq s c e q).tick = s.tick := rfl
@[simp] theorem setIq_focus (s : State) (c : CoreId) (e : Nat) (q : List QSet) : (setIq s c e q).focus = s.focus := rfl
@[simp] theorem setIq_swapped (s : State) (c : CoreId) (e : Nat) (q : List QSet) : (setIq s c e q).swapped = s.swapped := rfl

/-! ## memPut -/

@[simp] theorem memPut_x (s : State) (pa n v : Nat) : (memPut s pa n v).x = s.x := rfl
@[simp] theorem memPut_sh (s : State) (pa n v : Nat) : (memPut s pa n v).sh = s.sh := rfl
@[simp] theorem memPut_mem (s : State) (pa n v : Nat) : (memPut s pa n v).mem = cellsWrite s.mem pa (leBytes n v) := rfl
@[simp] theorem memPut_smem (s : State) (pa n v : Nat) : (memPut s pa n v).smem = s.smem := rfl
@[simp] theorem memPut_ecc (s : State) (pa n v : Nat) : (memPut s pa n v).ecc = s.ecc := rfl
@[simp] theorem memPut_secc (s : State) (pa n v : Nat) : (memPut s pa n v).secc = s.secc := rfl
@[simp] theorem memPut_xts (s : State) (pa n v : Nat) : (memPut s pa n v).xts = s.xts := rfl
@[simp] theorem memPut_units (s : State) (pa n v : Nat) : (memPut s pa n v).units = s.units := rfl
@[simp] theorem memPut_uecc (s : State) (pa n v : Nat) : (memPut s pa n v).uecc = s.uecc := rfl
@[simp] theorem memPut_aon (s : State) (pa n v : Nat) : (memPut s pa n v).aon = s.aon := rfl
@[simp] theorem memPut_saon (s : State) (pa n v : Nat) : (memPut s pa n v).saon = s.saon := rfl
@[simp] theorem memPut_lateAck (s : State) (pa n v : Nat) : (memPut s pa n v).lateAck = s.lateAck := rfl
@[simp] theorem memPut_wins (s : State) (pa n v : Nat) : (memPut s pa n v).wins = s.wins := rfl
@[simp] theorem memPut_net (s : State) (pa n v : Nat) : (memPut s pa n v).net = s.net := rfl
@[simp] theorem memPut_budgets (s : State) (pa n v : Nat) : (memPut s pa n v).budgets = s.budgets := rfl
@[simp] theorem memPut_tlbs (s : State) (pa n v : Nat) : (memPut s pa n v).tlbs = s.tlbs := rfl
@[simp] theorem memPut_twalks (s : State) (pa n v : Nat) : (memPut s pa n v).twalks = s.twalks := rfl
@[simp] theorem memPut_shares (s : State) (pa n v : Nat) : (memPut s pa n v).shares = s.shares := rfl
@[simp] theorem memPut_movp (s : State) (pa n v : Nat) : (memPut s pa n v).movp = s.movp := rfl
@[simp] theorem memPut_movl (s : State) (pa n v : Nat) : (memPut s pa n v).movl = s.movl := rfl
@[simp] theorem memPut_parcnt (s : State) (pa n v : Nat) : (memPut s pa n v).parcnt = s.parcnt := rfl
@[simp] theorem memPut_lastF (s : State) (pa n v : Nat) : (memPut s pa n v).lastF = s.lastF := rfl
@[simp] theorem memPut_queues (s : State) (pa n v : Nat) : (memPut s pa n v).queues = s.queues := rfl
@[simp] theorem memPut_seqrs (s : State) (pa n v : Nat) : (memPut s pa n v).seqrs = s.seqrs := rfl
@[simp] theorem memPut_launches (s : State) (pa n v : Nat) : (memPut s pa n v).launches = s.launches := rfl
@[simp] theorem memPut_ftrk (s : State) (pa n v : Nat) : (memPut s pa n v).ftrk = s.ftrk := rfl
@[simp] theorem memPut_fspb (s : State) (pa n v : Nat) : (memPut s pa n v).fspb = s.fspb := rfl
@[simp] theorem memPut_sis (s : State) (pa n v : Nat) : (memPut s pa n v).sis = s.sis := rfl
@[simp] theorem memPut_dead (s : State) (pa n v : Nat) : (memPut s pa n v).dead = s.dead := rfl
@[simp] theorem memPut_deadU (s : State) (pa n v : Nat) : (memPut s pa n v).deadU = s.deadU := rfl
@[simp] theorem memPut_ltmo (s : State) (pa n v : Nat) : (memPut s pa n v).ltmo = s.ltmo := rfl
@[simp] theorem memPut_wafno (s : State) (pa n v : Nat) : (memPut s pa n v).wafno = s.wafno := rfl
@[simp] theorem memPut_ports (s : State) (pa n v : Nat) : (memPut s pa n v).ports = s.ports := rfl
@[simp] theorem memPut_remotes (s : State) (pa n v : Nat) : (memPut s pa n v).remotes = s.remotes := rfl
@[simp] theorem memPut_carried (s : State) (pa n v : Nat) : (memPut s pa n v).carried = s.carried := rfl
@[simp] theorem memPut_parts (s : State) (pa n v : Nat) : (memPut s pa n v).parts = s.parts := rfl
@[simp] theorem memPut_ctxs (s : State) (pa n v : Nat) : (memPut s pa n v).ctxs = s.ctxs := rfl
@[simp] theorem memPut_saved (s : State) (pa n v : Nat) : (memPut s pa n v).saved = s.saved := rfl
@[simp] theorem memPut_areas (s : State) (pa n v : Nat) : (memPut s pa n v).areas = s.areas := rfl
@[simp] theorem memPut_keys (s : State) (pa n v : Nat) : (memPut s pa n v).keys = s.keys := rfl
@[simp] theorem memPut_supr (s : State) (pa n v : Nat) : (memPut s pa n v).supr = s.supr := rfl
@[simp] theorem memPut_brks (s : State) (pa n v : Nat) : (memPut s pa n v).brks = s.brks := rfl
@[simp] theorem memPut_recQ (s : State) (pa n v : Nat) : (memPut s pa n v).recQ = s.recQ := rfl
@[simp] theorem memPut_recs (s : State) (pa n v : Nat) : (memPut s pa n v).recs = s.recs := rfl
@[simp] theorem memPut_svcs (s : State) (pa n v : Nat) : (memPut s pa n v).svcs = s.svcs := rfl
@[simp] theorem memPut_frozen (s : State) (pa n v : Nat) : (memPut s pa n v).frozen = s.frozen := rfl
@[simp] theorem memPut_prog (s : State) (pa n v : Nat) : (memPut s pa n v).prog = s.prog := rfl
@[simp] theorem memPut_regw (s : State) (pa n v : Nat) : (memPut s pa n v).regw = s.regw := rfl
@[simp] theorem memPut_host (s : State) (pa n v : Nat) : (memPut s pa n v).host = s.host := rfl
@[simp] theorem memPut_ctrs (s : State) (pa n v : Nat) : (memPut s pa n v).ctrs = s.ctrs := rfl
@[simp] theorem memPut_serial (s : State) (pa n v : Nat) : (memPut s pa n v).serial = s.serial := rfl
@[simp] theorem memPut_agenda (s : State) (pa n v : Nat) : (memPut s pa n v).agenda = s.agenda := rfl
@[simp] theorem memPut_tick (s : State) (pa n v : Nat) : (memPut s pa n v).tick = s.tick := rfl
@[simp] theorem memPut_focus (s : State) (pa n v : Nat) : (memPut s pa n v).focus = s.focus := rfl
@[simp] theorem memPut_swapped (s : State) (pa n v : Nat) : (memPut s pa n v).swapped = s.swapped := rfl

/-! ## memWrite -/

@[simp] theorem memWrite_x (s : State) (pa : Nat) (bs : List Byte) : (memWrite s pa bs).x = s.x := rfl
@[simp] theorem memWrite_sh (s : State) (pa : Nat) (bs : List Byte) : (memWrite s pa bs).sh = s.sh := rfl
@[simp] theorem memWrite_mem (s : State) (pa : Nat) (bs : List Byte) : (memWrite s pa bs).mem = cellsWrite s.mem pa bs := rfl
@[simp] theorem memWrite_smem (s : State) (pa : Nat) (bs : List Byte) : (memWrite s pa bs).smem = s.smem := rfl
@[simp] theorem memWrite_ecc (s : State) (pa : Nat) (bs : List Byte) : (memWrite s pa bs).ecc = s.ecc := rfl
@[simp] theorem memWrite_secc (s : State) (pa : Nat) (bs : List Byte) : (memWrite s pa bs).secc = s.secc := rfl
@[simp] theorem memWrite_xts (s : State) (pa : Nat) (bs : List Byte) : (memWrite s pa bs).xts = s.xts := rfl
@[simp] theorem memWrite_units (s : State) (pa : Nat) (bs : List Byte) : (memWrite s pa bs).units = s.units := rfl
@[simp] theorem memWrite_uecc (s : State) (pa : Nat) (bs : List Byte) : (memWrite s pa bs).uecc = s.uecc := rfl
@[simp] theorem memWrite_aon (s : State) (pa : Nat) (bs : List Byte) : (memWrite s pa bs).aon = s.aon := rfl
@[simp] theorem memWrite_saon (s : State) (pa : Nat) (bs : List Byte) : (memWrite s pa bs).saon = s.saon := rfl
@[simp] theorem memWrite_lateAck (s : State) (pa : Nat) (bs : List Byte) : (memWrite s pa bs).lateAck = s.lateAck := rfl
@[simp] theorem memWrite_wins (s : State) (pa : Nat) (bs : List Byte) : (memWrite s pa bs).wins = s.wins := rfl
@[simp] theorem memWrite_net (s : State) (pa : Nat) (bs : List Byte) : (memWrite s pa bs).net = s.net := rfl
@[simp] theorem memWrite_budgets (s : State) (pa : Nat) (bs : List Byte) : (memWrite s pa bs).budgets = s.budgets := rfl
@[simp] theorem memWrite_tlbs (s : State) (pa : Nat) (bs : List Byte) : (memWrite s pa bs).tlbs = s.tlbs := rfl
@[simp] theorem memWrite_twalks (s : State) (pa : Nat) (bs : List Byte) : (memWrite s pa bs).twalks = s.twalks := rfl
@[simp] theorem memWrite_shares (s : State) (pa : Nat) (bs : List Byte) : (memWrite s pa bs).shares = s.shares := rfl
@[simp] theorem memWrite_movp (s : State) (pa : Nat) (bs : List Byte) : (memWrite s pa bs).movp = s.movp := rfl
@[simp] theorem memWrite_movl (s : State) (pa : Nat) (bs : List Byte) : (memWrite s pa bs).movl = s.movl := rfl
@[simp] theorem memWrite_parcnt (s : State) (pa : Nat) (bs : List Byte) : (memWrite s pa bs).parcnt = s.parcnt := rfl
@[simp] theorem memWrite_lastF (s : State) (pa : Nat) (bs : List Byte) : (memWrite s pa bs).lastF = s.lastF := rfl
@[simp] theorem memWrite_queues (s : State) (pa : Nat) (bs : List Byte) : (memWrite s pa bs).queues = s.queues := rfl
@[simp] theorem memWrite_seqrs (s : State) (pa : Nat) (bs : List Byte) : (memWrite s pa bs).seqrs = s.seqrs := rfl
@[simp] theorem memWrite_launches (s : State) (pa : Nat) (bs : List Byte) : (memWrite s pa bs).launches = s.launches := rfl
@[simp] theorem memWrite_ftrk (s : State) (pa : Nat) (bs : List Byte) : (memWrite s pa bs).ftrk = s.ftrk := rfl
@[simp] theorem memWrite_fspb (s : State) (pa : Nat) (bs : List Byte) : (memWrite s pa bs).fspb = s.fspb := rfl
@[simp] theorem memWrite_sis (s : State) (pa : Nat) (bs : List Byte) : (memWrite s pa bs).sis = s.sis := rfl
@[simp] theorem memWrite_dead (s : State) (pa : Nat) (bs : List Byte) : (memWrite s pa bs).dead = s.dead := rfl
@[simp] theorem memWrite_deadU (s : State) (pa : Nat) (bs : List Byte) : (memWrite s pa bs).deadU = s.deadU := rfl
@[simp] theorem memWrite_ltmo (s : State) (pa : Nat) (bs : List Byte) : (memWrite s pa bs).ltmo = s.ltmo := rfl
@[simp] theorem memWrite_wafno (s : State) (pa : Nat) (bs : List Byte) : (memWrite s pa bs).wafno = s.wafno := rfl
@[simp] theorem memWrite_ports (s : State) (pa : Nat) (bs : List Byte) : (memWrite s pa bs).ports = s.ports := rfl
@[simp] theorem memWrite_remotes (s : State) (pa : Nat) (bs : List Byte) : (memWrite s pa bs).remotes = s.remotes := rfl
@[simp] theorem memWrite_carried (s : State) (pa : Nat) (bs : List Byte) : (memWrite s pa bs).carried = s.carried := rfl
@[simp] theorem memWrite_parts (s : State) (pa : Nat) (bs : List Byte) : (memWrite s pa bs).parts = s.parts := rfl
@[simp] theorem memWrite_ctxs (s : State) (pa : Nat) (bs : List Byte) : (memWrite s pa bs).ctxs = s.ctxs := rfl
@[simp] theorem memWrite_saved (s : State) (pa : Nat) (bs : List Byte) : (memWrite s pa bs).saved = s.saved := rfl
@[simp] theorem memWrite_areas (s : State) (pa : Nat) (bs : List Byte) : (memWrite s pa bs).areas = s.areas := rfl
@[simp] theorem memWrite_keys (s : State) (pa : Nat) (bs : List Byte) : (memWrite s pa bs).keys = s.keys := rfl
@[simp] theorem memWrite_supr (s : State) (pa : Nat) (bs : List Byte) : (memWrite s pa bs).supr = s.supr := rfl
@[simp] theorem memWrite_brks (s : State) (pa : Nat) (bs : List Byte) : (memWrite s pa bs).brks = s.brks := rfl
@[simp] theorem memWrite_recQ (s : State) (pa : Nat) (bs : List Byte) : (memWrite s pa bs).recQ = s.recQ := rfl
@[simp] theorem memWrite_recs (s : State) (pa : Nat) (bs : List Byte) : (memWrite s pa bs).recs = s.recs := rfl
@[simp] theorem memWrite_svcs (s : State) (pa : Nat) (bs : List Byte) : (memWrite s pa bs).svcs = s.svcs := rfl
@[simp] theorem memWrite_frozen (s : State) (pa : Nat) (bs : List Byte) : (memWrite s pa bs).frozen = s.frozen := rfl
@[simp] theorem memWrite_prog (s : State) (pa : Nat) (bs : List Byte) : (memWrite s pa bs).prog = s.prog := rfl
@[simp] theorem memWrite_regw (s : State) (pa : Nat) (bs : List Byte) : (memWrite s pa bs).regw = s.regw := rfl
@[simp] theorem memWrite_host (s : State) (pa : Nat) (bs : List Byte) : (memWrite s pa bs).host = s.host := rfl
@[simp] theorem memWrite_ctrs (s : State) (pa : Nat) (bs : List Byte) : (memWrite s pa bs).ctrs = s.ctrs := rfl
@[simp] theorem memWrite_serial (s : State) (pa : Nat) (bs : List Byte) : (memWrite s pa bs).serial = s.serial := rfl
@[simp] theorem memWrite_agenda (s : State) (pa : Nat) (bs : List Byte) : (memWrite s pa bs).agenda = s.agenda := rfl
@[simp] theorem memWrite_tick (s : State) (pa : Nat) (bs : List Byte) : (memWrite s pa bs).tick = s.tick := rfl
@[simp] theorem memWrite_focus (s : State) (pa : Nat) (bs : List Byte) : (memWrite s pa bs).focus = s.focus := rfl
@[simp] theorem memWrite_swapped (s : State) (pa : Nat) (bs : List Byte) : (memWrite s pa bs).swapped = s.swapped := rfl

/-! ## freeze -/

@[simp] theorem freeze_x (s : State) (f lid : Nat) (byUser : Bool) : (freeze s f lid byUser).x = s.x := rfl
@[simp] theorem freeze_sh (s : State) (f lid : Nat) (byUser : Bool) : (freeze s f lid byUser).sh = s.sh := rfl
@[simp] theorem freeze_mem (s : State) (f lid : Nat) (byUser : Bool) : (freeze s f lid byUser).mem = s.mem := rfl
@[simp] theorem freeze_smem (s : State) (f lid : Nat) (byUser : Bool) : (freeze s f lid byUser).smem = s.smem := rfl
@[simp] theorem freeze_ecc (s : State) (f lid : Nat) (byUser : Bool) : (freeze s f lid byUser).ecc = s.ecc := rfl
@[simp] theorem freeze_secc (s : State) (f lid : Nat) (byUser : Bool) : (freeze s f lid byUser).secc = s.secc := rfl
@[simp] theorem freeze_xts (s : State) (f lid : Nat) (byUser : Bool) : (freeze s f lid byUser).xts = s.xts := rfl
@[simp] theorem freeze_units (s : State) (f lid : Nat) (byUser : Bool) : (freeze s f lid byUser).units = s.units := rfl
@[simp] theorem freeze_uecc (s : State) (f lid : Nat) (byUser : Bool) : (freeze s f lid byUser).uecc = s.uecc := rfl
@[simp] theorem freeze_aon (s : State) (f lid : Nat) (byUser : Bool) : (freeze s f lid byUser).aon = s.aon := rfl
@[simp] theorem freeze_saon (s : State) (f lid : Nat) (byUser : Bool) : (freeze s f lid byUser).saon = s.saon := rfl
@[simp] theorem freeze_lateAck (s : State) (f lid : Nat) (byUser : Bool) : (freeze s f lid byUser).lateAck = s.lateAck := rfl
@[simp] theorem freeze_wins (s : State) (f lid : Nat) (byUser : Bool) : (freeze s f lid byUser).wins = s.wins := rfl
@[simp] theorem freeze_net (s : State) (f lid : Nat) (byUser : Bool) : (freeze s f lid byUser).net = s.net := rfl
@[simp] theorem freeze_budgets (s : State) (f lid : Nat) (byUser : Bool) : (freeze s f lid byUser).budgets = s.budgets := rfl
@[simp] theorem freeze_tlbs (s : State) (f lid : Nat) (byUser : Bool) : (freeze s f lid byUser).tlbs = s.tlbs := rfl
@[simp] theorem freeze_twalks (s : State) (f lid : Nat) (byUser : Bool) : (freeze s f lid byUser).twalks = s.twalks := rfl
@[simp] theorem freeze_shares (s : State) (f lid : Nat) (byUser : Bool) : (freeze s f lid byUser).shares = s.shares := rfl
@[simp] theorem freeze_movp (s : State) (f lid : Nat) (byUser : Bool) : (freeze s f lid byUser).movp = s.movp := rfl
@[simp] theorem freeze_movl (s : State) (f lid : Nat) (byUser : Bool) : (freeze s f lid byUser).movl = s.movl := rfl
@[simp] theorem freeze_parcnt (s : State) (f lid : Nat) (byUser : Bool) : (freeze s f lid byUser).parcnt = s.parcnt := rfl
@[simp] theorem freeze_lastF (s : State) (f lid : Nat) (byUser : Bool) : (freeze s f lid byUser).lastF = s.lastF := rfl
@[simp] theorem freeze_queues (s : State) (f lid : Nat) (byUser : Bool) : (freeze s f lid byUser).queues = s.queues := rfl
@[simp] theorem freeze_seqrs (s : State) (f lid : Nat) (byUser : Bool) : (freeze s f lid byUser).seqrs = s.seqrs := rfl
@[simp] theorem freeze_launches (s : State) (f lid : Nat) (byUser : Bool) : (freeze s f lid byUser).launches = s.launches := rfl
@[simp] theorem freeze_ftrk (s : State) (f lid : Nat) (byUser : Bool) : (freeze s f lid byUser).ftrk = s.ftrk := rfl
@[simp] theorem freeze_fspb (s : State) (f lid : Nat) (byUser : Bool) : (freeze s f lid byUser).fspb = s.fspb := rfl
@[simp] theorem freeze_sis (s : State) (f lid : Nat) (byUser : Bool) : (freeze s f lid byUser).sis = s.sis := rfl
@[simp] theorem freeze_dead (s : State) (f lid : Nat) (byUser : Bool) : (freeze s f lid byUser).dead = s.dead := rfl
@[simp] theorem freeze_deadU (s : State) (f lid : Nat) (byUser : Bool) : (freeze s f lid byUser).deadU = s.deadU := rfl
@[simp] theorem freeze_ltmo (s : State) (f lid : Nat) (byUser : Bool) : (freeze s f lid byUser).ltmo = s.ltmo := rfl
@[simp] theorem freeze_wafno (s : State) (f lid : Nat) (byUser : Bool) : (freeze s f lid byUser).wafno = s.wafno := rfl
@[simp] theorem freeze_ports (s : State) (f lid : Nat) (byUser : Bool) : (freeze s f lid byUser).ports = s.ports := rfl
@[simp] theorem freeze_remotes (s : State) (f lid : Nat) (byUser : Bool) : (freeze s f lid byUser).remotes = s.remotes := rfl
@[simp] theorem freeze_carried (s : State) (f lid : Nat) (byUser : Bool) : (freeze s f lid byUser).carried = s.carried := rfl
@[simp] theorem freeze_parts (s : State) (f lid : Nat) (byUser : Bool) : (freeze s f lid byUser).parts = s.parts := rfl
@[simp] theorem freeze_ctxs (s : State) (f lid : Nat) (byUser : Bool) : (freeze s f lid byUser).ctxs = s.ctxs := rfl
@[simp] theorem freeze_saved (s : State) (f lid : Nat) (byUser : Bool) : (freeze s f lid byUser).saved = s.saved := rfl
@[simp] theorem freeze_areas (s : State) (f lid : Nat) (byUser : Bool) : (freeze s f lid byUser).areas = s.areas := rfl
@[simp] theorem freeze_keys (s : State) (f lid : Nat) (byUser : Bool) : (freeze s f lid byUser).keys = s.keys := rfl
@[simp] theorem freeze_supr (s : State) (f lid : Nat) (byUser : Bool) : (freeze s f lid byUser).supr = s.supr := rfl
@[simp] theorem freeze_brks (s : State) (f lid : Nat) (byUser : Bool) : (freeze s f lid byUser).brks = s.brks := rfl
@[simp] theorem freeze_recQ (s : State) (f lid : Nat) (byUser : Bool) : (freeze s f lid byUser).recQ = s.recQ := rfl
@[simp] theorem freeze_recs (s : State) (f lid : Nat) (byUser : Bool) : (freeze s f lid byUser).recs = s.recs := rfl
@[simp] theorem freeze_svcs (s : State) (f lid : Nat) (byUser : Bool) : (freeze s f lid byUser).svcs = s.svcs := rfl
@[simp] theorem freeze_frozen (s : State) (f lid : Nat) (byUser : Bool) : (freeze s f lid byUser).frozen = (s.frozen.filter fun z => !(z.f == f && z.lid == lid)) ++ [⟨f, lid, byUser, none, (first? (fun z : Frozen => z.f == f && z.lid == lid) s.frozen).bind Frozen.hurt⟩] := rfl
@[simp] theorem freeze_prog (s : State) (f lid : Nat) (byUser : Bool) : (freeze s f lid byUser).prog = s.prog := rfl
@[simp] theorem freeze_regw (s : State) (f lid : Nat) (byUser : Bool) : (freeze s f lid byUser).regw = s.regw := rfl
@[simp] theorem freeze_host (s : State) (f lid : Nat) (byUser : Bool) : (freeze s f lid byUser).host = s.host := rfl
@[simp] theorem freeze_ctrs (s : State) (f lid : Nat) (byUser : Bool) : (freeze s f lid byUser).ctrs = s.ctrs := rfl
@[simp] theorem freeze_serial (s : State) (f lid : Nat) (byUser : Bool) : (freeze s f lid byUser).serial = s.serial := rfl
@[simp] theorem freeze_agenda (s : State) (f lid : Nat) (byUser : Bool) : (freeze s f lid byUser).agenda = s.agenda := rfl
@[simp] theorem freeze_tick (s : State) (f lid : Nat) (byUser : Bool) : (freeze s f lid byUser).tick = s.tick := rfl
@[simp] theorem freeze_focus (s : State) (f lid : Nat) (byUser : Bool) : (freeze s f lid byUser).focus = s.focus := rfl
@[simp] theorem freeze_swapped (s : State) (f lid : Nat) (byUser : Bool) : (freeze s f lid byUser).swapped = s.swapped := rfl

/-! ## noteFiring -/

@[simp] theorem noteFiring_x (s : State) (c : CoreId) : (noteFiring s c).x = s.x := rfl
@[simp] theorem noteFiring_sh (s : State) (c : CoreId) : (noteFiring s c).sh = s.sh := rfl
@[simp] theorem noteFiring_mem (s : State) (c : CoreId) : (noteFiring s c).mem = s.mem := rfl
@[simp] theorem noteFiring_smem (s : State) (c : CoreId) : (noteFiring s c).smem = s.smem := rfl
@[simp] theorem noteFiring_ecc (s : State) (c : CoreId) : (noteFiring s c).ecc = s.ecc := rfl
@[simp] theorem noteFiring_secc (s : State) (c : CoreId) : (noteFiring s c).secc = s.secc := rfl
@[simp] theorem noteFiring_xts (s : State) (c : CoreId) : (noteFiring s c).xts = s.xts := rfl
@[simp] theorem noteFiring_units (s : State) (c : CoreId) : (noteFiring s c).units = s.units := rfl
@[simp] theorem noteFiring_uecc (s : State) (c : CoreId) : (noteFiring s c).uecc = s.uecc := rfl
@[simp] theorem noteFiring_aon (s : State) (c : CoreId) : (noteFiring s c).aon = s.aon := rfl
@[simp] theorem noteFiring_saon (s : State) (c : CoreId) : (noteFiring s c).saon = s.saon := rfl
@[simp] theorem noteFiring_lateAck (s : State) (c : CoreId) : (noteFiring s c).lateAck = s.lateAck := rfl
@[simp] theorem noteFiring_wins (s : State) (c : CoreId) : (noteFiring s c).wins = s.wins := rfl
@[simp] theorem noteFiring_net (s : State) (c : CoreId) : (noteFiring s c).net = s.net := rfl
@[simp] theorem noteFiring_budgets (s : State) (c : CoreId) : (noteFiring s c).budgets = s.budgets := rfl
@[simp] theorem noteFiring_tlbs (s : State) (c : CoreId) : (noteFiring s c).tlbs = s.tlbs := rfl
@[simp] theorem noteFiring_twalks (s : State) (c : CoreId) : (noteFiring s c).twalks = s.twalks := rfl
@[simp] theorem noteFiring_shares (s : State) (c : CoreId) : (noteFiring s c).shares = s.shares := rfl
@[simp] theorem noteFiring_movp (s : State) (c : CoreId) : (noteFiring s c).movp = s.movp := rfl
@[simp] theorem noteFiring_movl (s : State) (c : CoreId) : (noteFiring s c).movl = s.movl := rfl
@[simp] theorem noteFiring_parcnt (s : State) (c : CoreId) : (noteFiring s c).parcnt = s.parcnt := rfl
@[simp] theorem noteFiring_lastF (s : State) (c : CoreId) : (noteFiring s c).lastF = tset s.lastF c (ctr s (.core c)) := rfl
@[simp] theorem noteFiring_queues (s : State) (c : CoreId) : (noteFiring s c).queues = s.queues := rfl
@[simp] theorem noteFiring_seqrs (s : State) (c : CoreId) : (noteFiring s c).seqrs = s.seqrs := rfl
@[simp] theorem noteFiring_launches (s : State) (c : CoreId) : (noteFiring s c).launches = s.launches := rfl
@[simp] theorem noteFiring_ftrk (s : State) (c : CoreId) : (noteFiring s c).ftrk = s.ftrk := rfl
@[simp] theorem noteFiring_fspb (s : State) (c : CoreId) : (noteFiring s c).fspb = s.fspb := rfl
@[simp] theorem noteFiring_sis (s : State) (c : CoreId) : (noteFiring s c).sis = s.sis := rfl
@[simp] theorem noteFiring_dead (s : State) (c : CoreId) : (noteFiring s c).dead = s.dead := rfl
@[simp] theorem noteFiring_deadU (s : State) (c : CoreId) : (noteFiring s c).deadU = s.deadU := rfl
@[simp] theorem noteFiring_ltmo (s : State) (c : CoreId) : (noteFiring s c).ltmo = s.ltmo := rfl
@[simp] theorem noteFiring_wafno (s : State) (c : CoreId) : (noteFiring s c).wafno = s.wafno := rfl
@[simp] theorem noteFiring_ports (s : State) (c : CoreId) : (noteFiring s c).ports = s.ports := rfl
@[simp] theorem noteFiring_remotes (s : State) (c : CoreId) : (noteFiring s c).remotes = s.remotes := rfl
@[simp] theorem noteFiring_carried (s : State) (c : CoreId) : (noteFiring s c).carried = s.carried := rfl
@[simp] theorem noteFiring_parts (s : State) (c : CoreId) : (noteFiring s c).parts = s.parts := rfl
@[simp] theorem noteFiring_ctxs (s : State) (c : CoreId) : (noteFiring s c).ctxs = s.ctxs := rfl
@[simp] theorem noteFiring_saved (s : State) (c : CoreId) : (noteFiring s c).saved = s.saved := rfl
@[simp] theorem noteFiring_areas (s : State) (c : CoreId) : (noteFiring s c).areas = s.areas := rfl
@[simp] theorem noteFiring_keys (s : State) (c : CoreId) : (noteFiring s c).keys = s.keys := rfl
@[simp] theorem noteFiring_supr (s : State) (c : CoreId) : (noteFiring s c).supr = s.supr := rfl
@[simp] theorem noteFiring_brks (s : State) (c : CoreId) : (noteFiring s c).brks = s.brks := rfl
@[simp] theorem noteFiring_recQ (s : State) (c : CoreId) : (noteFiring s c).recQ = s.recQ := rfl
@[simp] theorem noteFiring_recs (s : State) (c : CoreId) : (noteFiring s c).recs = s.recs := rfl
@[simp] theorem noteFiring_svcs (s : State) (c : CoreId) : (noteFiring s c).svcs = s.svcs := rfl
@[simp] theorem noteFiring_frozen (s : State) (c : CoreId) : (noteFiring s c).frozen = s.frozen := rfl
@[simp] theorem noteFiring_prog (s : State) (c : CoreId) : (noteFiring s c).prog = s.prog := rfl
@[simp] theorem noteFiring_regw (s : State) (c : CoreId) : (noteFiring s c).regw = s.regw := rfl
@[simp] theorem noteFiring_host (s : State) (c : CoreId) : (noteFiring s c).host = s.host := rfl
@[simp] theorem noteFiring_ctrs (s : State) (c : CoreId) : (noteFiring s c).ctrs = s.ctrs := rfl
@[simp] theorem noteFiring_serial (s : State) (c : CoreId) : (noteFiring s c).serial = s.serial := rfl
@[simp] theorem noteFiring_agenda (s : State) (c : CoreId) : (noteFiring s c).agenda = s.agenda := rfl
@[simp] theorem noteFiring_tick (s : State) (c : CoreId) : (noteFiring s c).tick = s.tick := rfl
@[simp] theorem noteFiring_focus (s : State) (c : CoreId) : (noteFiring s c).focus = s.focus := rfl
@[simp] theorem noteFiring_swapped (s : State) (c : CoreId) : (noteFiring s c).swapped = s.swapped := rfl

/-! ## setMstore -/

@[simp] theorem setMstore_x (s : State) (c : CoreId) (l : List MEntry) : (setMstore s c l).x = { s.x with mstore := tset s.x.mstore c l } := rfl
@[simp] theorem setMstore_sh (s : State) (c : CoreId) (l : List MEntry) : (setMstore s c l).sh = s.sh := rfl
@[simp] theorem setMstore_mem (s : State) (c : CoreId) (l : List MEntry) : (setMstore s c l).mem = s.mem := rfl
@[simp] theorem setMstore_smem (s : State) (c : CoreId) (l : List MEntry) : (setMstore s c l).smem = s.smem := rfl
@[simp] theorem setMstore_ecc (s : State) (c : CoreId) (l : List MEntry) : (setMstore s c l).ecc = s.ecc := rfl
@[simp] theorem setMstore_secc (s : State) (c : CoreId) (l : List MEntry) : (setMstore s c l).secc = s.secc := rfl
@[simp] theorem setMstore_xts (s : State) (c : CoreId) (l : List MEntry) : (setMstore s c l).xts = s.xts := rfl
@[simp] theorem setMstore_units (s : State) (c : CoreId) (l : List MEntry) : (setMstore s c l).units = s.units := rfl
@[simp] theorem setMstore_uecc (s : State) (c : CoreId) (l : List MEntry) : (setMstore s c l).uecc = s.uecc := rfl
@[simp] theorem setMstore_aon (s : State) (c : CoreId) (l : List MEntry) : (setMstore s c l).aon = s.aon := rfl
@[simp] theorem setMstore_saon (s : State) (c : CoreId) (l : List MEntry) : (setMstore s c l).saon = s.saon := rfl
@[simp] theorem setMstore_lateAck (s : State) (c : CoreId) (l : List MEntry) : (setMstore s c l).lateAck = s.lateAck := rfl
@[simp] theorem setMstore_wins (s : State) (c : CoreId) (l : List MEntry) : (setMstore s c l).wins = s.wins := rfl
@[simp] theorem setMstore_net (s : State) (c : CoreId) (l : List MEntry) : (setMstore s c l).net = s.net := rfl
@[simp] theorem setMstore_budgets (s : State) (c : CoreId) (l : List MEntry) : (setMstore s c l).budgets = s.budgets := rfl
@[simp] theorem setMstore_tlbs (s : State) (c : CoreId) (l : List MEntry) : (setMstore s c l).tlbs = s.tlbs := rfl
@[simp] theorem setMstore_twalks (s : State) (c : CoreId) (l : List MEntry) : (setMstore s c l).twalks = s.twalks := rfl
@[simp] theorem setMstore_shares (s : State) (c : CoreId) (l : List MEntry) : (setMstore s c l).shares = s.shares := rfl
@[simp] theorem setMstore_movp (s : State) (c : CoreId) (l : List MEntry) : (setMstore s c l).movp = s.movp := rfl
@[simp] theorem setMstore_movl (s : State) (c : CoreId) (l : List MEntry) : (setMstore s c l).movl = s.movl := rfl
@[simp] theorem setMstore_parcnt (s : State) (c : CoreId) (l : List MEntry) : (setMstore s c l).parcnt = s.parcnt := rfl
@[simp] theorem setMstore_lastF (s : State) (c : CoreId) (l : List MEntry) : (setMstore s c l).lastF = s.lastF := rfl
@[simp] theorem setMstore_queues (s : State) (c : CoreId) (l : List MEntry) : (setMstore s c l).queues = s.queues := rfl
@[simp] theorem setMstore_seqrs (s : State) (c : CoreId) (l : List MEntry) : (setMstore s c l).seqrs = s.seqrs := rfl
@[simp] theorem setMstore_launches (s : State) (c : CoreId) (l : List MEntry) : (setMstore s c l).launches = s.launches := rfl
@[simp] theorem setMstore_ftrk (s : State) (c : CoreId) (l : List MEntry) : (setMstore s c l).ftrk = s.ftrk := rfl
@[simp] theorem setMstore_fspb (s : State) (c : CoreId) (l : List MEntry) : (setMstore s c l).fspb = s.fspb := rfl
@[simp] theorem setMstore_sis (s : State) (c : CoreId) (l : List MEntry) : (setMstore s c l).sis = s.sis := rfl
@[simp] theorem setMstore_dead (s : State) (c : CoreId) (l : List MEntry) : (setMstore s c l).dead = s.dead := rfl
@[simp] theorem setMstore_deadU (s : State) (c : CoreId) (l : List MEntry) : (setMstore s c l).deadU = s.deadU := rfl
@[simp] theorem setMstore_ltmo (s : State) (c : CoreId) (l : List MEntry) : (setMstore s c l).ltmo = s.ltmo := rfl
@[simp] theorem setMstore_wafno (s : State) (c : CoreId) (l : List MEntry) : (setMstore s c l).wafno = s.wafno := rfl
@[simp] theorem setMstore_ports (s : State) (c : CoreId) (l : List MEntry) : (setMstore s c l).ports = s.ports := rfl
@[simp] theorem setMstore_remotes (s : State) (c : CoreId) (l : List MEntry) : (setMstore s c l).remotes = s.remotes := rfl
@[simp] theorem setMstore_carried (s : State) (c : CoreId) (l : List MEntry) : (setMstore s c l).carried = s.carried := rfl
@[simp] theorem setMstore_parts (s : State) (c : CoreId) (l : List MEntry) : (setMstore s c l).parts = s.parts := rfl
@[simp] theorem setMstore_ctxs (s : State) (c : CoreId) (l : List MEntry) : (setMstore s c l).ctxs = s.ctxs := rfl
@[simp] theorem setMstore_saved (s : State) (c : CoreId) (l : List MEntry) : (setMstore s c l).saved = s.saved := rfl
@[simp] theorem setMstore_areas (s : State) (c : CoreId) (l : List MEntry) : (setMstore s c l).areas = s.areas := rfl
@[simp] theorem setMstore_keys (s : State) (c : CoreId) (l : List MEntry) : (setMstore s c l).keys = s.keys := rfl
@[simp] theorem setMstore_supr (s : State) (c : CoreId) (l : List MEntry) : (setMstore s c l).supr = s.supr := rfl
@[simp] theorem setMstore_brks (s : State) (c : CoreId) (l : List MEntry) : (setMstore s c l).brks = s.brks := rfl
@[simp] theorem setMstore_recQ (s : State) (c : CoreId) (l : List MEntry) : (setMstore s c l).recQ = s.recQ := rfl
@[simp] theorem setMstore_recs (s : State) (c : CoreId) (l : List MEntry) : (setMstore s c l).recs = s.recs := rfl
@[simp] theorem setMstore_svcs (s : State) (c : CoreId) (l : List MEntry) : (setMstore s c l).svcs = s.svcs := rfl
@[simp] theorem setMstore_frozen (s : State) (c : CoreId) (l : List MEntry) : (setMstore s c l).frozen = s.frozen := rfl
@[simp] theorem setMstore_prog (s : State) (c : CoreId) (l : List MEntry) : (setMstore s c l).prog = s.prog := rfl
@[simp] theorem setMstore_regw (s : State) (c : CoreId) (l : List MEntry) : (setMstore s c l).regw = s.regw := rfl
@[simp] theorem setMstore_host (s : State) (c : CoreId) (l : List MEntry) : (setMstore s c l).host = s.host := rfl
@[simp] theorem setMstore_ctrs (s : State) (c : CoreId) (l : List MEntry) : (setMstore s c l).ctrs = s.ctrs := rfl
@[simp] theorem setMstore_serial (s : State) (c : CoreId) (l : List MEntry) : (setMstore s c l).serial = s.serial := rfl
@[simp] theorem setMstore_agenda (s : State) (c : CoreId) (l : List MEntry) : (setMstore s c l).agenda = s.agenda := rfl
@[simp] theorem setMstore_tick (s : State) (c : CoreId) (l : List MEntry) : (setMstore s c l).tick = s.tick := rfl
@[simp] theorem setMstore_focus (s : State) (c : CoreId) (l : List MEntry) : (setMstore s c l).focus = s.focus := rfl
@[simp] theorem setMstore_swapped (s : State) (c : CoreId) (l : List MEntry) : (setMstore s c l).swapped = s.swapped := rfl

/-! ## setWalk -/

@[simp] theorem setWalk_x (s : State) (sl : Slot) (w : WalkSt) : (setWalk s sl w).x = { s.x with walks := tset s.x.walks sl w } := rfl
@[simp] theorem setWalk_sh (s : State) (sl : Slot) (w : WalkSt) : (setWalk s sl w).sh = s.sh := rfl
@[simp] theorem setWalk_mem (s : State) (sl : Slot) (w : WalkSt) : (setWalk s sl w).mem = s.mem := rfl
@[simp] theorem setWalk_smem (s : State) (sl : Slot) (w : WalkSt) : (setWalk s sl w).smem = s.smem := rfl
@[simp] theorem setWalk_ecc (s : State) (sl : Slot) (w : WalkSt) : (setWalk s sl w).ecc = s.ecc := rfl
@[simp] theorem setWalk_secc (s : State) (sl : Slot) (w : WalkSt) : (setWalk s sl w).secc = s.secc := rfl
@[simp] theorem setWalk_xts (s : State) (sl : Slot) (w : WalkSt) : (setWalk s sl w).xts = s.xts := rfl
@[simp] theorem setWalk_units (s : State) (sl : Slot) (w : WalkSt) : (setWalk s sl w).units = s.units := rfl
@[simp] theorem setWalk_uecc (s : State) (sl : Slot) (w : WalkSt) : (setWalk s sl w).uecc = s.uecc := rfl
@[simp] theorem setWalk_aon (s : State) (sl : Slot) (w : WalkSt) : (setWalk s sl w).aon = s.aon := rfl
@[simp] theorem setWalk_saon (s : State) (sl : Slot) (w : WalkSt) : (setWalk s sl w).saon = s.saon := rfl
@[simp] theorem setWalk_lateAck (s : State) (sl : Slot) (w : WalkSt) : (setWalk s sl w).lateAck = s.lateAck := rfl
@[simp] theorem setWalk_wins (s : State) (sl : Slot) (w : WalkSt) : (setWalk s sl w).wins = s.wins := rfl
@[simp] theorem setWalk_net (s : State) (sl : Slot) (w : WalkSt) : (setWalk s sl w).net = s.net := rfl
@[simp] theorem setWalk_budgets (s : State) (sl : Slot) (w : WalkSt) : (setWalk s sl w).budgets = s.budgets := rfl
@[simp] theorem setWalk_tlbs (s : State) (sl : Slot) (w : WalkSt) : (setWalk s sl w).tlbs = s.tlbs := rfl
@[simp] theorem setWalk_twalks (s : State) (sl : Slot) (w : WalkSt) : (setWalk s sl w).twalks = s.twalks := rfl
@[simp] theorem setWalk_shares (s : State) (sl : Slot) (w : WalkSt) : (setWalk s sl w).shares = s.shares := rfl
@[simp] theorem setWalk_movp (s : State) (sl : Slot) (w : WalkSt) : (setWalk s sl w).movp = s.movp := rfl
@[simp] theorem setWalk_movl (s : State) (sl : Slot) (w : WalkSt) : (setWalk s sl w).movl = s.movl := rfl
@[simp] theorem setWalk_parcnt (s : State) (sl : Slot) (w : WalkSt) : (setWalk s sl w).parcnt = s.parcnt := rfl
@[simp] theorem setWalk_lastF (s : State) (sl : Slot) (w : WalkSt) : (setWalk s sl w).lastF = s.lastF := rfl
@[simp] theorem setWalk_queues (s : State) (sl : Slot) (w : WalkSt) : (setWalk s sl w).queues = s.queues := rfl
@[simp] theorem setWalk_seqrs (s : State) (sl : Slot) (w : WalkSt) : (setWalk s sl w).seqrs = s.seqrs := rfl
@[simp] theorem setWalk_launches (s : State) (sl : Slot) (w : WalkSt) : (setWalk s sl w).launches = s.launches := rfl
@[simp] theorem setWalk_ftrk (s : State) (sl : Slot) (w : WalkSt) : (setWalk s sl w).ftrk = s.ftrk := rfl
@[simp] theorem setWalk_fspb (s : State) (sl : Slot) (w : WalkSt) : (setWalk s sl w).fspb = s.fspb := rfl
@[simp] theorem setWalk_sis (s : State) (sl : Slot) (w : WalkSt) : (setWalk s sl w).sis = s.sis := rfl
@[simp] theorem setWalk_dead (s : State) (sl : Slot) (w : WalkSt) : (setWalk s sl w).dead = s.dead := rfl
@[simp] theorem setWalk_deadU (s : State) (sl : Slot) (w : WalkSt) : (setWalk s sl w).deadU = s.deadU := rfl
@[simp] theorem setWalk_ltmo (s : State) (sl : Slot) (w : WalkSt) : (setWalk s sl w).ltmo = s.ltmo := rfl
@[simp] theorem setWalk_wafno (s : State) (sl : Slot) (w : WalkSt) : (setWalk s sl w).wafno = s.wafno := rfl
@[simp] theorem setWalk_ports (s : State) (sl : Slot) (w : WalkSt) : (setWalk s sl w).ports = s.ports := rfl
@[simp] theorem setWalk_remotes (s : State) (sl : Slot) (w : WalkSt) : (setWalk s sl w).remotes = s.remotes := rfl
@[simp] theorem setWalk_carried (s : State) (sl : Slot) (w : WalkSt) : (setWalk s sl w).carried = s.carried := rfl
@[simp] theorem setWalk_parts (s : State) (sl : Slot) (w : WalkSt) : (setWalk s sl w).parts = s.parts := rfl
@[simp] theorem setWalk_ctxs (s : State) (sl : Slot) (w : WalkSt) : (setWalk s sl w).ctxs = s.ctxs := rfl
@[simp] theorem setWalk_saved (s : State) (sl : Slot) (w : WalkSt) : (setWalk s sl w).saved = s.saved := rfl
@[simp] theorem setWalk_areas (s : State) (sl : Slot) (w : WalkSt) : (setWalk s sl w).areas = s.areas := rfl
@[simp] theorem setWalk_keys (s : State) (sl : Slot) (w : WalkSt) : (setWalk s sl w).keys = s.keys := rfl
@[simp] theorem setWalk_supr (s : State) (sl : Slot) (w : WalkSt) : (setWalk s sl w).supr = s.supr := rfl
@[simp] theorem setWalk_brks (s : State) (sl : Slot) (w : WalkSt) : (setWalk s sl w).brks = s.brks := rfl
@[simp] theorem setWalk_recQ (s : State) (sl : Slot) (w : WalkSt) : (setWalk s sl w).recQ = s.recQ := rfl
@[simp] theorem setWalk_recs (s : State) (sl : Slot) (w : WalkSt) : (setWalk s sl w).recs = s.recs := rfl
@[simp] theorem setWalk_svcs (s : State) (sl : Slot) (w : WalkSt) : (setWalk s sl w).svcs = s.svcs := rfl
@[simp] theorem setWalk_frozen (s : State) (sl : Slot) (w : WalkSt) : (setWalk s sl w).frozen = s.frozen := rfl
@[simp] theorem setWalk_prog (s : State) (sl : Slot) (w : WalkSt) : (setWalk s sl w).prog = s.prog := rfl
@[simp] theorem setWalk_regw (s : State) (sl : Slot) (w : WalkSt) : (setWalk s sl w).regw = s.regw := rfl
@[simp] theorem setWalk_host (s : State) (sl : Slot) (w : WalkSt) : (setWalk s sl w).host = s.host := rfl
@[simp] theorem setWalk_ctrs (s : State) (sl : Slot) (w : WalkSt) : (setWalk s sl w).ctrs = s.ctrs := rfl
@[simp] theorem setWalk_serial (s : State) (sl : Slot) (w : WalkSt) : (setWalk s sl w).serial = s.serial := rfl
@[simp] theorem setWalk_agenda (s : State) (sl : Slot) (w : WalkSt) : (setWalk s sl w).agenda = s.agenda := rfl
@[simp] theorem setWalk_tick (s : State) (sl : Slot) (w : WalkSt) : (setWalk s sl w).tick = s.tick := rfl
@[simp] theorem setWalk_focus (s : State) (sl : Slot) (w : WalkSt) : (setWalk s sl w).focus = s.focus := rfl
@[simp] theorem setWalk_swapped (s : State) (sl : Slot) (w : WalkSt) : (setWalk s sl w).swapped = s.swapped := rfl

/-! ## setHstr -/

@[simp] theorem setHstr_x (s : State) (sl : Slot) (h : HStr) : (setHstr s sl h).x = { s.x with hstr := tset s.x.hstr sl h } := rfl
@[simp] theorem setHstr_sh (s : State) (sl : Slot) (h : HStr) : (setHstr s sl h).sh = s.sh := rfl
@[simp] theorem setHstr_mem (s : State) (sl : Slot) (h : HStr) : (setHstr s sl h).mem = s.mem := rfl
@[simp] theorem setHstr_smem (s : State) (sl : Slot) (h : HStr) : (setHstr s sl h).smem = s.smem := rfl
@[simp] theorem setHstr_ecc (s : State) (sl : Slot) (h : HStr) : (setHstr s sl h).ecc = s.ecc := rfl
@[simp] theorem setHstr_secc (s : State) (sl : Slot) (h : HStr) : (setHstr s sl h).secc = s.secc := rfl
@[simp] theorem setHstr_xts (s : State) (sl : Slot) (h : HStr) : (setHstr s sl h).xts = s.xts := rfl
@[simp] theorem setHstr_units (s : State) (sl : Slot) (h : HStr) : (setHstr s sl h).units = s.units := rfl
@[simp] theorem setHstr_uecc (s : State) (sl : Slot) (h : HStr) : (setHstr s sl h).uecc = s.uecc := rfl
@[simp] theorem setHstr_aon (s : State) (sl : Slot) (h : HStr) : (setHstr s sl h).aon = s.aon := rfl
@[simp] theorem setHstr_saon (s : State) (sl : Slot) (h : HStr) : (setHstr s sl h).saon = s.saon := rfl
@[simp] theorem setHstr_lateAck (s : State) (sl : Slot) (h : HStr) : (setHstr s sl h).lateAck = s.lateAck := rfl
@[simp] theorem setHstr_wins (s : State) (sl : Slot) (h : HStr) : (setHstr s sl h).wins = s.wins := rfl
@[simp] theorem setHstr_net (s : State) (sl : Slot) (h : HStr) : (setHstr s sl h).net = s.net := rfl
@[simp] theorem setHstr_budgets (s : State) (sl : Slot) (h : HStr) : (setHstr s sl h).budgets = s.budgets := rfl
@[simp] theorem setHstr_tlbs (s : State) (sl : Slot) (h : HStr) : (setHstr s sl h).tlbs = s.tlbs := rfl
@[simp] theorem setHstr_twalks (s : State) (sl : Slot) (h : HStr) : (setHstr s sl h).twalks = s.twalks := rfl
@[simp] theorem setHstr_shares (s : State) (sl : Slot) (h : HStr) : (setHstr s sl h).shares = s.shares := rfl
@[simp] theorem setHstr_movp (s : State) (sl : Slot) (h : HStr) : (setHstr s sl h).movp = s.movp := rfl
@[simp] theorem setHstr_movl (s : State) (sl : Slot) (h : HStr) : (setHstr s sl h).movl = s.movl := rfl
@[simp] theorem setHstr_parcnt (s : State) (sl : Slot) (h : HStr) : (setHstr s sl h).parcnt = s.parcnt := rfl
@[simp] theorem setHstr_lastF (s : State) (sl : Slot) (h : HStr) : (setHstr s sl h).lastF = s.lastF := rfl
@[simp] theorem setHstr_queues (s : State) (sl : Slot) (h : HStr) : (setHstr s sl h).queues = s.queues := rfl
@[simp] theorem setHstr_seqrs (s : State) (sl : Slot) (h : HStr) : (setHstr s sl h).seqrs = s.seqrs := rfl
@[simp] theorem setHstr_launches (s : State) (sl : Slot) (h : HStr) : (setHstr s sl h).launches = s.launches := rfl
@[simp] theorem setHstr_ftrk (s : State) (sl : Slot) (h : HStr) : (setHstr s sl h).ftrk = s.ftrk := rfl
@[simp] theorem setHstr_fspb (s : State) (sl : Slot) (h : HStr) : (setHstr s sl h).fspb = s.fspb := rfl
@[simp] theorem setHstr_sis (s : State) (sl : Slot) (h : HStr) : (setHstr s sl h).sis = s.sis := rfl
@[simp] theorem setHstr_dead (s : State) (sl : Slot) (h : HStr) : (setHstr s sl h).dead = s.dead := rfl
@[simp] theorem setHstr_deadU (s : State) (sl : Slot) (h : HStr) : (setHstr s sl h).deadU = s.deadU := rfl
@[simp] theorem setHstr_ltmo (s : State) (sl : Slot) (h : HStr) : (setHstr s sl h).ltmo = s.ltmo := rfl
@[simp] theorem setHstr_wafno (s : State) (sl : Slot) (h : HStr) : (setHstr s sl h).wafno = s.wafno := rfl
@[simp] theorem setHstr_ports (s : State) (sl : Slot) (h : HStr) : (setHstr s sl h).ports = s.ports := rfl
@[simp] theorem setHstr_remotes (s : State) (sl : Slot) (h : HStr) : (setHstr s sl h).remotes = s.remotes := rfl
@[simp] theorem setHstr_carried (s : State) (sl : Slot) (h : HStr) : (setHstr s sl h).carried = s.carried := rfl
@[simp] theorem setHstr_parts (s : State) (sl : Slot) (h : HStr) : (setHstr s sl h).parts = s.parts := rfl
@[simp] theorem setHstr_ctxs (s : State) (sl : Slot) (h : HStr) : (setHstr s sl h).ctxs = s.ctxs := rfl
@[simp] theorem setHstr_saved (s : State) (sl : Slot) (h : HStr) : (setHstr s sl h).saved = s.saved := rfl
@[simp] theorem setHstr_areas (s : State) (sl : Slot) (h : HStr) : (setHstr s sl h).areas = s.areas := rfl
@[simp] theorem setHstr_keys (s : State) (sl : Slot) (h : HStr) : (setHstr s sl h).keys = s.keys := rfl
@[simp] theorem setHstr_supr (s : State) (sl : Slot) (h : HStr) : (setHstr s sl h).supr = s.supr := rfl
@[simp] theorem setHstr_brks (s : State) (sl : Slot) (h : HStr) : (setHstr s sl h).brks = s.brks := rfl
@[simp] theorem setHstr_recQ (s : State) (sl : Slot) (h : HStr) : (setHstr s sl h).recQ = s.recQ := rfl
@[simp] theorem setHstr_recs (s : State) (sl : Slot) (h : HStr) : (setHstr s sl h).recs = s.recs := rfl
@[simp] theorem setHstr_svcs (s : State) (sl : Slot) (h : HStr) : (setHstr s sl h).svcs = s.svcs := rfl
@[simp] theorem setHstr_frozen (s : State) (sl : Slot) (h : HStr) : (setHstr s sl h).frozen = s.frozen := rfl
@[simp] theorem setHstr_prog (s : State) (sl : Slot) (h : HStr) : (setHstr s sl h).prog = s.prog := rfl
@[simp] theorem setHstr_regw (s : State) (sl : Slot) (h : HStr) : (setHstr s sl h).regw = s.regw := rfl
@[simp] theorem setHstr_host (s : State) (sl : Slot) (h : HStr) : (setHstr s sl h).host = s.host := rfl
@[simp] theorem setHstr_ctrs (s : State) (sl : Slot) (h : HStr) : (setHstr s sl h).ctrs = s.ctrs := rfl
@[simp] theorem setHstr_serial (s : State) (sl : Slot) (h : HStr) : (setHstr s sl h).serial = s.serial := rfl
@[simp] theorem setHstr_agenda (s : State) (sl : Slot) (h : HStr) : (setHstr s sl h).agenda = s.agenda := rfl
@[simp] theorem setHstr_tick (s : State) (sl : Slot) (h : HStr) : (setHstr s sl h).tick = s.tick := rfl
@[simp] theorem setHstr_focus (s : State) (sl : Slot) (h : HStr) : (setHstr s sl h).focus = s.focus := rfl
@[simp] theorem setHstr_swapped (s : State) (sl : Slot) (h : HStr) : (setHstr s sl h).swapped = s.swapped := rfl

/-! ## setPtag -/

@[simp] theorem setPtag_x (s : State) (p : PaneId) (t : PTag) : (setPtag s p t).x = { s.x with ptag := tset s.x.ptag p t } := rfl
@[simp] theorem setPtag_sh (s : State) (p : PaneId) (t : PTag) : (setPtag s p t).sh = s.sh := rfl
@[simp] theorem setPtag_mem (s : State) (p : PaneId) (t : PTag) : (setPtag s p t).mem = s.mem := rfl
@[simp] theorem setPtag_smem (s : State) (p : PaneId) (t : PTag) : (setPtag s p t).smem = s.smem := rfl
@[simp] theorem setPtag_ecc (s : State) (p : PaneId) (t : PTag) : (setPtag s p t).ecc = s.ecc := rfl
@[simp] theorem setPtag_secc (s : State) (p : PaneId) (t : PTag) : (setPtag s p t).secc = s.secc := rfl
@[simp] theorem setPtag_xts (s : State) (p : PaneId) (t : PTag) : (setPtag s p t).xts = s.xts := rfl
@[simp] theorem setPtag_units (s : State) (p : PaneId) (t : PTag) : (setPtag s p t).units = s.units := rfl
@[simp] theorem setPtag_uecc (s : State) (p : PaneId) (t : PTag) : (setPtag s p t).uecc = s.uecc := rfl
@[simp] theorem setPtag_aon (s : State) (p : PaneId) (t : PTag) : (setPtag s p t).aon = s.aon := rfl
@[simp] theorem setPtag_saon (s : State) (p : PaneId) (t : PTag) : (setPtag s p t).saon = s.saon := rfl
@[simp] theorem setPtag_lateAck (s : State) (p : PaneId) (t : PTag) : (setPtag s p t).lateAck = s.lateAck := rfl
@[simp] theorem setPtag_wins (s : State) (p : PaneId) (t : PTag) : (setPtag s p t).wins = s.wins := rfl
@[simp] theorem setPtag_net (s : State) (p : PaneId) (t : PTag) : (setPtag s p t).net = s.net := rfl
@[simp] theorem setPtag_budgets (s : State) (p : PaneId) (t : PTag) : (setPtag s p t).budgets = s.budgets := rfl
@[simp] theorem setPtag_tlbs (s : State) (p : PaneId) (t : PTag) : (setPtag s p t).tlbs = s.tlbs := rfl
@[simp] theorem setPtag_twalks (s : State) (p : PaneId) (t : PTag) : (setPtag s p t).twalks = s.twalks := rfl
@[simp] theorem setPtag_shares (s : State) (p : PaneId) (t : PTag) : (setPtag s p t).shares = s.shares := rfl
@[simp] theorem setPtag_movp (s : State) (p : PaneId) (t : PTag) : (setPtag s p t).movp = s.movp := rfl
@[simp] theorem setPtag_movl (s : State) (p : PaneId) (t : PTag) : (setPtag s p t).movl = s.movl := rfl
@[simp] theorem setPtag_parcnt (s : State) (p : PaneId) (t : PTag) : (setPtag s p t).parcnt = s.parcnt := rfl
@[simp] theorem setPtag_lastF (s : State) (p : PaneId) (t : PTag) : (setPtag s p t).lastF = s.lastF := rfl
@[simp] theorem setPtag_queues (s : State) (p : PaneId) (t : PTag) : (setPtag s p t).queues = s.queues := rfl
@[simp] theorem setPtag_seqrs (s : State) (p : PaneId) (t : PTag) : (setPtag s p t).seqrs = s.seqrs := rfl
@[simp] theorem setPtag_launches (s : State) (p : PaneId) (t : PTag) : (setPtag s p t).launches = s.launches := rfl
@[simp] theorem setPtag_ftrk (s : State) (p : PaneId) (t : PTag) : (setPtag s p t).ftrk = s.ftrk := rfl
@[simp] theorem setPtag_fspb (s : State) (p : PaneId) (t : PTag) : (setPtag s p t).fspb = s.fspb := rfl
@[simp] theorem setPtag_sis (s : State) (p : PaneId) (t : PTag) : (setPtag s p t).sis = s.sis := rfl
@[simp] theorem setPtag_dead (s : State) (p : PaneId) (t : PTag) : (setPtag s p t).dead = s.dead := rfl
@[simp] theorem setPtag_deadU (s : State) (p : PaneId) (t : PTag) : (setPtag s p t).deadU = s.deadU := rfl
@[simp] theorem setPtag_ltmo (s : State) (p : PaneId) (t : PTag) : (setPtag s p t).ltmo = s.ltmo := rfl
@[simp] theorem setPtag_wafno (s : State) (p : PaneId) (t : PTag) : (setPtag s p t).wafno = s.wafno := rfl
@[simp] theorem setPtag_ports (s : State) (p : PaneId) (t : PTag) : (setPtag s p t).ports = s.ports := rfl
@[simp] theorem setPtag_remotes (s : State) (p : PaneId) (t : PTag) : (setPtag s p t).remotes = s.remotes := rfl
@[simp] theorem setPtag_carried (s : State) (p : PaneId) (t : PTag) : (setPtag s p t).carried = s.carried := rfl
@[simp] theorem setPtag_parts (s : State) (p : PaneId) (t : PTag) : (setPtag s p t).parts = s.parts := rfl
@[simp] theorem setPtag_ctxs (s : State) (p : PaneId) (t : PTag) : (setPtag s p t).ctxs = s.ctxs := rfl
@[simp] theorem setPtag_saved (s : State) (p : PaneId) (t : PTag) : (setPtag s p t).saved = s.saved := rfl
@[simp] theorem setPtag_areas (s : State) (p : PaneId) (t : PTag) : (setPtag s p t).areas = s.areas := rfl
@[simp] theorem setPtag_keys (s : State) (p : PaneId) (t : PTag) : (setPtag s p t).keys = s.keys := rfl
@[simp] theorem setPtag_supr (s : State) (p : PaneId) (t : PTag) : (setPtag s p t).supr = s.supr := rfl
@[simp] theorem setPtag_brks (s : State) (p : PaneId) (t : PTag) : (setPtag s p t).brks = s.brks := rfl
@[simp] theorem setPtag_recQ (s : State) (p : PaneId) (t : PTag) : (setPtag s p t).recQ = s.recQ := rfl
@[simp] theorem setPtag_recs (s : State) (p : PaneId) (t : PTag) : (setPtag s p t).recs = s.recs := rfl
@[simp] theorem setPtag_svcs (s : State) (p : PaneId) (t : PTag) : (setPtag s p t).svcs = s.svcs := rfl
@[simp] theorem setPtag_frozen (s : State) (p : PaneId) (t : PTag) : (setPtag s p t).frozen = s.frozen := rfl
@[simp] theorem setPtag_prog (s : State) (p : PaneId) (t : PTag) : (setPtag s p t).prog = s.prog := rfl
@[simp] theorem setPtag_regw (s : State) (p : PaneId) (t : PTag) : (setPtag s p t).regw = s.regw := rfl
@[simp] theorem setPtag_host (s : State) (p : PaneId) (t : PTag) : (setPtag s p t).host = s.host := rfl
@[simp] theorem setPtag_ctrs (s : State) (p : PaneId) (t : PTag) : (setPtag s p t).ctrs = s.ctrs := rfl
@[simp] theorem setPtag_serial (s : State) (p : PaneId) (t : PTag) : (setPtag s p t).serial = s.serial := rfl
@[simp] theorem setPtag_agenda (s : State) (p : PaneId) (t : PTag) : (setPtag s p t).agenda = s.agenda := rfl
@[simp] theorem setPtag_tick (s : State) (p : PaneId) (t : PTag) : (setPtag s p t).tick = s.tick := rfl
@[simp] theorem setPtag_focus (s : State) (p : PaneId) (t : PTag) : (setPtag s p t).focus = s.focus := rfl
@[simp] theorem setPtag_swapped (s : State) (p : PaneId) (t : PTag) : (setPtag s p t).swapped = s.swapped := rfl

/-! ## setWaitl -/

@[simp] theorem setWaitl_x (s : State) (u : UnitId) (l : List WaitE) : (setWaitl s u l).x = { s.x with waitl := tset s.x.waitl u l } := rfl
@[simp] theorem setWaitl_sh (s : State) (u : UnitId) (l : List WaitE) : (setWaitl s u l).sh = s.sh := rfl
@[simp] theorem setWaitl_mem (s : State) (u : UnitId) (l : List WaitE) : (setWaitl s u l).mem = s.mem := rfl
@[simp] theorem setWaitl_smem (s : State) (u : UnitId) (l : List WaitE) : (setWaitl s u l).smem = s.smem := rfl
@[simp] theorem setWaitl_ecc (s : State) (u : UnitId) (l : List WaitE) : (setWaitl s u l).ecc = s.ecc := rfl
@[simp] theorem setWaitl_secc (s : State) (u : UnitId) (l : List WaitE) : (setWaitl s u l).secc = s.secc := rfl
@[simp] theorem setWaitl_xts (s : State) (u : UnitId) (l : List WaitE) : (setWaitl s u l).xts = s.xts := rfl
@[simp] theorem setWaitl_units (s : State) (u : UnitId) (l : List WaitE) : (setWaitl s u l).units = s.units := rfl
@[simp] theorem setWaitl_uecc (s : State) (u : UnitId) (l : List WaitE) : (setWaitl s u l).uecc = s.uecc := rfl
@[simp] theorem setWaitl_aon (s : State) (u : UnitId) (l : List WaitE) : (setWaitl s u l).aon = s.aon := rfl
@[simp] theorem setWaitl_saon (s : State) (u : UnitId) (l : List WaitE) : (setWaitl s u l).saon = s.saon := rfl
@[simp] theorem setWaitl_lateAck (s : State) (u : UnitId) (l : List WaitE) : (setWaitl s u l).lateAck = s.lateAck := rfl
@[simp] theorem setWaitl_wins (s : State) (u : UnitId) (l : List WaitE) : (setWaitl s u l).wins = s.wins := rfl
@[simp] theorem setWaitl_net (s : State) (u : UnitId) (l : List WaitE) : (setWaitl s u l).net = s.net := rfl
@[simp] theorem setWaitl_budgets (s : State) (u : UnitId) (l : List WaitE) : (setWaitl s u l).budgets = s.budgets := rfl
@[simp] theorem setWaitl_tlbs (s : State) (u : UnitId) (l : List WaitE) : (setWaitl s u l).tlbs = s.tlbs := rfl
@[simp] theorem setWaitl_twalks (s : State) (u : UnitId) (l : List WaitE) : (setWaitl s u l).twalks = s.twalks := rfl
@[simp] theorem setWaitl_shares (s : State) (u : UnitId) (l : List WaitE) : (setWaitl s u l).shares = s.shares := rfl
@[simp] theorem setWaitl_movp (s : State) (u : UnitId) (l : List WaitE) : (setWaitl s u l).movp = s.movp := rfl
@[simp] theorem setWaitl_movl (s : State) (u : UnitId) (l : List WaitE) : (setWaitl s u l).movl = s.movl := rfl
@[simp] theorem setWaitl_parcnt (s : State) (u : UnitId) (l : List WaitE) : (setWaitl s u l).parcnt = s.parcnt := rfl
@[simp] theorem setWaitl_lastF (s : State) (u : UnitId) (l : List WaitE) : (setWaitl s u l).lastF = s.lastF := rfl
@[simp] theorem setWaitl_queues (s : State) (u : UnitId) (l : List WaitE) : (setWaitl s u l).queues = s.queues := rfl
@[simp] theorem setWaitl_seqrs (s : State) (u : UnitId) (l : List WaitE) : (setWaitl s u l).seqrs = s.seqrs := rfl
@[simp] theorem setWaitl_launches (s : State) (u : UnitId) (l : List WaitE) : (setWaitl s u l).launches = s.launches := rfl
@[simp] theorem setWaitl_ftrk (s : State) (u : UnitId) (l : List WaitE) : (setWaitl s u l).ftrk = s.ftrk := rfl
@[simp] theorem setWaitl_fspb (s : State) (u : UnitId) (l : List WaitE) : (setWaitl s u l).fspb = s.fspb := rfl
@[simp] theorem setWaitl_sis (s : State) (u : UnitId) (l : List WaitE) : (setWaitl s u l).sis = s.sis := rfl
@[simp] theorem setWaitl_dead (s : State) (u : UnitId) (l : List WaitE) : (setWaitl s u l).dead = s.dead := rfl
@[simp] theorem setWaitl_deadU (s : State) (u : UnitId) (l : List WaitE) : (setWaitl s u l).deadU = s.deadU := rfl
@[simp] theorem setWaitl_ltmo (s : State) (u : UnitId) (l : List WaitE) : (setWaitl s u l).ltmo = s.ltmo := rfl
@[simp] theorem setWaitl_wafno (s : State) (u : UnitId) (l : List WaitE) : (setWaitl s u l).wafno = s.wafno := rfl
@[simp] theorem setWaitl_ports (s : State) (u : UnitId) (l : List WaitE) : (setWaitl s u l).ports = s.ports := rfl
@[simp] theorem setWaitl_remotes (s : State) (u : UnitId) (l : List WaitE) : (setWaitl s u l).remotes = s.remotes := rfl
@[simp] theorem setWaitl_carried (s : State) (u : UnitId) (l : List WaitE) : (setWaitl s u l).carried = s.carried := rfl
@[simp] theorem setWaitl_parts (s : State) (u : UnitId) (l : List WaitE) : (setWaitl s u l).parts = s.parts := rfl
@[simp] theorem setWaitl_ctxs (s : State) (u : UnitId) (l : List WaitE) : (setWaitl s u l).ctxs = s.ctxs := rfl
@[simp] theorem setWaitl_saved (s : State) (u : UnitId) (l : List WaitE) : (setWaitl s u l).saved = s.saved := rfl
@[simp] theorem setWaitl_areas (s : State) (u : UnitId) (l : List WaitE) : (setWaitl s u l).areas = s.areas := rfl
@[simp] theorem setWaitl_keys (s : State) (u : UnitId) (l : List WaitE) : (setWaitl s u l).keys = s.keys := rfl
@[simp] theorem setWaitl_supr (s : State) (u : UnitId) (l : List WaitE) : (setWaitl s u l).supr = s.supr := rfl
@[simp] theorem setWaitl_brks (s : State) (u : UnitId) (l : List WaitE) : (setWaitl s u l).brks = s.brks := rfl
@[simp] theorem setWaitl_recQ (s : State) (u : UnitId) (l : List WaitE) : (setWaitl s u l).recQ = s.recQ := rfl
@[simp] theorem setWaitl_recs (s : State) (u : UnitId) (l : List WaitE) : (setWaitl s u l).recs = s.recs := rfl
@[simp] theorem setWaitl_svcs (s : State) (u : UnitId) (l : List WaitE) : (setWaitl s u l).svcs = s.svcs := rfl
@[simp] theorem setWaitl_frozen (s : State) (u : UnitId) (l : List WaitE) : (setWaitl s u l).frozen = s.frozen := rfl
@[simp] theorem setWaitl_prog (s : State) (u : UnitId) (l : List WaitE) : (setWaitl s u l).prog = s.prog := rfl
@[simp] theorem setWaitl_regw (s : State) (u : UnitId) (l : List WaitE) : (setWaitl s u l).regw = s.regw := rfl
@[simp] theorem setWaitl_host (s : State) (u : UnitId) (l : List WaitE) : (setWaitl s u l).host = s.host := rfl
@[simp] theorem setWaitl_ctrs (s : State) (u : UnitId) (l : List WaitE) : (setWaitl s u l).ctrs = s.ctrs := rfl
@[simp] theorem setWaitl_serial (s : State) (u : UnitId) (l : List WaitE) : (setWaitl s u l).serial = s.serial := rfl
@[simp] theorem setWaitl_agenda (s : State) (u : UnitId) (l : List WaitE) : (setWaitl s u l).agenda = s.agenda := rfl
@[simp] theorem setWaitl_tick (s : State) (u : UnitId) (l : List WaitE) : (setWaitl s u l).tick = s.tick := rfl
@[simp] theorem setWaitl_focus (s : State) (u : UnitId) (l : List WaitE) : (setWaitl s u l).focus = s.focus := rfl
@[simp] theorem setWaitl_swapped (s : State) (u : UnitId) (l : List WaitE) : (setWaitl s u l).swapped = s.swapped := rfl

/-! ## setOutw -/

@[simp] theorem setOutw_x (s : State) (c : CoreId) (l : List OutW) : (setOutw s c l).x = { s.x with outw := tset s.x.outw c l } := rfl
@[simp] theorem setOutw_sh (s : State) (c : CoreId) (l : List OutW) : (setOutw s c l).sh = s.sh := rfl
@[simp] theorem setOutw_mem (s : State) (c : CoreId) (l : List OutW) : (setOutw s c l).mem = s.mem := rfl
@[simp] theorem setOutw_smem (s : State) (c : CoreId) (l : List OutW) : (setOutw s c l).smem = s.smem := rfl
@[simp] theorem setOutw_ecc (s : State) (c : CoreId) (l : List OutW) : (setOutw s c l).ecc = s.ecc := rfl
@[simp] theorem setOutw_secc (s : State) (c : CoreId) (l : List OutW) : (setOutw s c l).secc = s.secc := rfl
@[simp] theorem setOutw_xts (s : State) (c : CoreId) (l : List OutW) : (setOutw s c l).xts = s.xts := rfl
@[simp] theorem setOutw_units (s : State) (c : CoreId) (l : List OutW) : (setOutw s c l).units = s.units := rfl
@[simp] theorem setOutw_uecc (s : State) (c : CoreId) (l : List OutW) : (setOutw s c l).uecc = s.uecc := rfl
@[simp] theorem setOutw_aon (s : State) (c : CoreId) (l : List OutW) : (setOutw s c l).aon = s.aon := rfl
@[simp] theorem setOutw_saon (s : State) (c : CoreId) (l : List OutW) : (setOutw s c l).saon = s.saon := rfl
@[simp] theorem setOutw_lateAck (s : State) (c : CoreId) (l : List OutW) : (setOutw s c l).lateAck = s.lateAck := rfl
@[simp] theorem setOutw_wins (s : State) (c : CoreId) (l : List OutW) : (setOutw s c l).wins = s.wins := rfl
@[simp] theorem setOutw_net (s : State) (c : CoreId) (l : List OutW) : (setOutw s c l).net = s.net := rfl
@[simp] theorem setOutw_budgets (s : State) (c : CoreId) (l : List OutW) : (setOutw s c l).budgets = s.budgets := rfl
@[simp] theorem setOutw_tlbs (s : State) (c : CoreId) (l : List OutW) : (setOutw s c l).tlbs = s.tlbs := rfl
@[simp] theorem setOutw_twalks (s : State) (c : CoreId) (l : List OutW) : (setOutw s c l).twalks = s.twalks := rfl
@[simp] theorem setOutw_shares (s : State) (c : CoreId) (l : List OutW) : (setOutw s c l).shares = s.shares := rfl
@[simp] theorem setOutw_movp (s : State) (c : CoreId) (l : List OutW) : (setOutw s c l).movp = s.movp := rfl
@[simp] theorem setOutw_movl (s : State) (c : CoreId) (l : List OutW) : (setOutw s c l).movl = s.movl := rfl
@[simp] theorem setOutw_parcnt (s : State) (c : CoreId) (l : List OutW) : (setOutw s c l).parcnt = s.parcnt := rfl
@[simp] theorem setOutw_lastF (s : State) (c : CoreId) (l : List OutW) : (setOutw s c l).lastF = s.lastF := rfl
@[simp] theorem setOutw_queues (s : State) (c : CoreId) (l : List OutW) : (setOutw s c l).queues = s.queues := rfl
@[simp] theorem setOutw_seqrs (s : State) (c : CoreId) (l : List OutW) : (setOutw s c l).seqrs = s.seqrs := rfl
@[simp] theorem setOutw_launches (s : State) (c : CoreId) (l : List OutW) : (setOutw s c l).launches = s.launches := rfl
@[simp] theorem setOutw_ftrk (s : State) (c : CoreId) (l : List OutW) : (setOutw s c l).ftrk = s.ftrk := rfl
@[simp] theorem setOutw_fspb (s : State) (c : CoreId) (l : List OutW) : (setOutw s c l).fspb = s.fspb := rfl
@[simp] theorem setOutw_sis (s : State) (c : CoreId) (l : List OutW) : (setOutw s c l).sis = s.sis := rfl
@[simp] theorem setOutw_dead (s : State) (c : CoreId) (l : List OutW) : (setOutw s c l).dead = s.dead := rfl
@[simp] theorem setOutw_deadU (s : State) (c : CoreId) (l : List OutW) : (setOutw s c l).deadU = s.deadU := rfl
@[simp] theorem setOutw_ltmo (s : State) (c : CoreId) (l : List OutW) : (setOutw s c l).ltmo = s.ltmo := rfl
@[simp] theorem setOutw_wafno (s : State) (c : CoreId) (l : List OutW) : (setOutw s c l).wafno = s.wafno := rfl
@[simp] theorem setOutw_ports (s : State) (c : CoreId) (l : List OutW) : (setOutw s c l).ports = s.ports := rfl
@[simp] theorem setOutw_remotes (s : State) (c : CoreId) (l : List OutW) : (setOutw s c l).remotes = s.remotes := rfl
@[simp] theorem setOutw_carried (s : State) (c : CoreId) (l : List OutW) : (setOutw s c l).carried = s.carried := rfl
@[simp] theorem setOutw_parts (s : State) (c : CoreId) (l : List OutW) : (setOutw s c l).parts = s.parts := rfl
@[simp] theorem setOutw_ctxs (s : State) (c : CoreId) (l : List OutW) : (setOutw s c l).ctxs = s.ctxs := rfl
@[simp] theorem setOutw_saved (s : State) (c : CoreId) (l : List OutW) : (setOutw s c l).saved = s.saved := rfl
@[simp] theorem setOutw_areas (s : State) (c : CoreId) (l : List OutW) : (setOutw s c l).areas = s.areas := rfl
@[simp] theorem setOutw_keys (s : State) (c : CoreId) (l : List OutW) : (setOutw s c l).keys = s.keys := rfl
@[simp] theorem setOutw_supr (s : State) (c : CoreId) (l : List OutW) : (setOutw s c l).supr = s.supr := rfl
@[simp] theorem setOutw_brks (s : State) (c : CoreId) (l : List OutW) : (setOutw s c l).brks = s.brks := rfl
@[simp] theorem setOutw_recQ (s : State) (c : CoreId) (l : List OutW) : (setOutw s c l).recQ = s.recQ := rfl
@[simp] theorem setOutw_recs (s : State) (c : CoreId) (l : List OutW) : (setOutw s c l).recs = s.recs := rfl
@[simp] theorem setOutw_svcs (s : State) (c : CoreId) (l : List OutW) : (setOutw s c l).svcs = s.svcs := rfl
@[simp] theorem setOutw_frozen (s : State) (c : CoreId) (l : List OutW) : (setOutw s c l).frozen = s.frozen := rfl
@[simp] theorem setOutw_prog (s : State) (c : CoreId) (l : List OutW) : (setOutw s c l).prog = s.prog := rfl
@[simp] theorem setOutw_regw (s : State) (c : CoreId) (l : List OutW) : (setOutw s c l).regw = s.regw := rfl
@[simp] theorem setOutw_host (s : State) (c : CoreId) (l : List OutW) : (setOutw s c l).host = s.host := rfl
@[simp] theorem setOutw_ctrs (s : State) (c : CoreId) (l : List OutW) : (setOutw s c l).ctrs = s.ctrs := rfl
@[simp] theorem setOutw_serial (s : State) (c : CoreId) (l : List OutW) : (setOutw s c l).serial = s.serial := rfl
@[simp] theorem setOutw_agenda (s : State) (c : CoreId) (l : List OutW) : (setOutw s c l).agenda = s.agenda := rfl
@[simp] theorem setOutw_tick (s : State) (c : CoreId) (l : List OutW) : (setOutw s c l).tick = s.tick := rfl
@[simp] theorem setOutw_focus (s : State) (c : CoreId) (l : List OutW) : (setOutw s c l).focus = s.focus := rfl
@[simp] theorem setOutw_swapped (s : State) (c : CoreId) (l : List OutW) : (setOutw s c l).swapped = s.swapped := rfl

/-! ## setMi -/

@[simp] theorem setMi_x (s : State) (f n : Nat) (m : Mi) : (setMi s f n m).x = { s.x with mis := tset s.x.mis (f, n) m } := rfl
@[simp] theorem setMi_sh (s : State) (f n : Nat) (m : Mi) : (setMi s f n m).sh = s.sh := rfl
@[simp] theorem setMi_mem (s : State) (f n : Nat) (m : Mi) : (setMi s f n m).mem = s.mem := rfl
@[simp] theorem setMi_smem (s : State) (f n : Nat) (m : Mi) : (setMi s f n m).smem = s.smem := rfl
@[simp] theorem setMi_ecc (s : State) (f n : Nat) (m : Mi) : (setMi s f n m).ecc = s.ecc := rfl
@[simp] theorem setMi_secc (s : State) (f n : Nat) (m : Mi) : (setMi s f n m).secc = s.secc := rfl
@[simp] theorem setMi_xts (s : State) (f n : Nat) (m : Mi) : (setMi s f n m).xts = s.xts := rfl
@[simp] theorem setMi_units (s : State) (f n : Nat) (m : Mi) : (setMi s f n m).units = s.units := rfl
@[simp] theorem setMi_uecc (s : State) (f n : Nat) (m : Mi) : (setMi s f n m).uecc = s.uecc := rfl
@[simp] theorem setMi_aon (s : State) (f n : Nat) (m : Mi) : (setMi s f n m).aon = s.aon := rfl
@[simp] theorem setMi_saon (s : State) (f n : Nat) (m : Mi) : (setMi s f n m).saon = s.saon := rfl
@[simp] theorem setMi_lateAck (s : State) (f n : Nat) (m : Mi) : (setMi s f n m).lateAck = s.lateAck := rfl
@[simp] theorem setMi_wins (s : State) (f n : Nat) (m : Mi) : (setMi s f n m).wins = s.wins := rfl
@[simp] theorem setMi_net (s : State) (f n : Nat) (m : Mi) : (setMi s f n m).net = s.net := rfl
@[simp] theorem setMi_budgets (s : State) (f n : Nat) (m : Mi) : (setMi s f n m).budgets = s.budgets := rfl
@[simp] theorem setMi_tlbs (s : State) (f n : Nat) (m : Mi) : (setMi s f n m).tlbs = s.tlbs := rfl
@[simp] theorem setMi_twalks (s : State) (f n : Nat) (m : Mi) : (setMi s f n m).twalks = s.twalks := rfl
@[simp] theorem setMi_shares (s : State) (f n : Nat) (m : Mi) : (setMi s f n m).shares = s.shares := rfl
@[simp] theorem setMi_movp (s : State) (f n : Nat) (m : Mi) : (setMi s f n m).movp = s.movp := rfl
@[simp] theorem setMi_movl (s : State) (f n : Nat) (m : Mi) : (setMi s f n m).movl = s.movl := rfl
@[simp] theorem setMi_parcnt (s : State) (f n : Nat) (m : Mi) : (setMi s f n m).parcnt = s.parcnt := rfl
@[simp] theorem setMi_lastF (s : State) (f n : Nat) (m : Mi) : (setMi s f n m).lastF = s.lastF := rfl
@[simp] theorem setMi_queues (s : State) (f n : Nat) (m : Mi) : (setMi s f n m).queues = s.queues := rfl
@[simp] theorem setMi_seqrs (s : State) (f n : Nat) (m : Mi) : (setMi s f n m).seqrs = s.seqrs := rfl
@[simp] theorem setMi_launches (s : State) (f n : Nat) (m : Mi) : (setMi s f n m).launches = s.launches := rfl
@[simp] theorem setMi_ftrk (s : State) (f n : Nat) (m : Mi) : (setMi s f n m).ftrk = s.ftrk := rfl
@[simp] theorem setMi_fspb (s : State) (f n : Nat) (m : Mi) : (setMi s f n m).fspb = s.fspb := rfl
@[simp] theorem setMi_sis (s : State) (f n : Nat) (m : Mi) : (setMi s f n m).sis = s.sis := rfl
@[simp] theorem setMi_dead (s : State) (f n : Nat) (m : Mi) : (setMi s f n m).dead = s.dead := rfl
@[simp] theorem setMi_deadU (s : State) (f n : Nat) (m : Mi) : (setMi s f n m).deadU = s.deadU := rfl
@[simp] theorem setMi_ltmo (s : State) (f n : Nat) (m : Mi) : (setMi s f n m).ltmo = s.ltmo := rfl
@[simp] theorem setMi_wafno (s : State) (f n : Nat) (m : Mi) : (setMi s f n m).wafno = s.wafno := rfl
@[simp] theorem setMi_ports (s : State) (f n : Nat) (m : Mi) : (setMi s f n m).ports = s.ports := rfl
@[simp] theorem setMi_remotes (s : State) (f n : Nat) (m : Mi) : (setMi s f n m).remotes = s.remotes := rfl
@[simp] theorem setMi_carried (s : State) (f n : Nat) (m : Mi) : (setMi s f n m).carried = s.carried := rfl
@[simp] theorem setMi_parts (s : State) (f n : Nat) (m : Mi) : (setMi s f n m).parts = s.parts := rfl
@[simp] theorem setMi_ctxs (s : State) (f n : Nat) (m : Mi) : (setMi s f n m).ctxs = s.ctxs := rfl
@[simp] theorem setMi_saved (s : State) (f n : Nat) (m : Mi) : (setMi s f n m).saved = s.saved := rfl
@[simp] theorem setMi_areas (s : State) (f n : Nat) (m : Mi) : (setMi s f n m).areas = s.areas := rfl
@[simp] theorem setMi_keys (s : State) (f n : Nat) (m : Mi) : (setMi s f n m).keys = s.keys := rfl
@[simp] theorem setMi_supr (s : State) (f n : Nat) (m : Mi) : (setMi s f n m).supr = s.supr := rfl
@[simp] theorem setMi_brks (s : State) (f n : Nat) (m : Mi) : (setMi s f n m).brks = s.brks := rfl
@[simp] theorem setMi_recQ (s : State) (f n : Nat) (m : Mi) : (setMi s f n m).recQ = s.recQ := rfl
@[simp] theorem setMi_recs (s : State) (f n : Nat) (m : Mi) : (setMi s f n m).recs = s.recs := rfl
@[simp] theorem setMi_svcs (s : State) (f n : Nat) (m : Mi) : (setMi s f n m).svcs = s.svcs := rfl
@[simp] theorem setMi_frozen (s : State) (f n : Nat) (m : Mi) : (setMi s f n m).frozen = s.frozen := rfl
@[simp] theorem setMi_prog (s : State) (f n : Nat) (m : Mi) : (setMi s f n m).prog = s.prog := rfl
@[simp] theorem setMi_regw (s : State) (f n : Nat) (m : Mi) : (setMi s f n m).regw = s.regw := rfl
@[simp] theorem setMi_host (s : State) (f n : Nat) (m : Mi) : (setMi s f n m).host = s.host := rfl
@[simp] theorem setMi_ctrs (s : State) (f n : Nat) (m : Mi) : (setMi s f n m).ctrs = s.ctrs := rfl
@[simp] theorem setMi_serial (s : State) (f n : Nat) (m : Mi) : (setMi s f n m).serial = s.serial := rfl
@[simp] theorem setMi_agenda (s : State) (f n : Nat) (m : Mi) : (setMi s f n m).agenda = s.agenda := rfl
@[simp] theorem setMi_tick (s : State) (f n : Nat) (m : Mi) : (setMi s f n m).tick = s.tick := rfl
@[simp] theorem setMi_focus (s : State) (f n : Nat) (m : Mi) : (setMi s f n m).focus = s.focus := rfl
@[simp] theorem setMi_swapped (s : State) (f n : Nat) (m : Mi) : (setMi s f n m).swapped = s.swapped := rfl

/-! ## setMembers -/

@[simp] theorem setMembers_x (s : State) (c : CoreId) (m : Tbl Nat Member) : (setMembers s c m).x = { s.x with members := tset s.x.members c m } := rfl
@[simp] theorem setMembers_sh (s : State) (c : CoreId) (m : Tbl Nat Member) : (setMembers s c m).sh = s.sh := rfl
@[simp] theorem setMembers_mem (s : State) (c : CoreId) (m : Tbl Nat Member) : (setMembers s c m).mem = s.mem := rfl
@[simp] theorem setMembers_smem (s : State) (c : CoreId) (m : Tbl Nat Member) : (setMembers s c m).smem = s.smem := rfl
@[simp] theorem setMembers_ecc (s : State) (c : CoreId) (m : Tbl Nat Member) : (setMembers s c m).ecc = s.ecc := rfl
@[simp] theorem setMembers_secc (s : State) (c : CoreId) (m : Tbl Nat Member) : (setMembers s c m).secc = s.secc := rfl
@[simp] theorem setMembers_xts (s : State) (c : CoreId) (m : Tbl Nat Member) : (setMembers s c m).xts = s.xts := rfl
@[simp] theorem setMembers_units (s : State) (c : CoreId) (m : Tbl Nat Member) : (setMembers s c m).units = s.units := rfl
@[simp] theorem setMembers_uecc (s : State) (c : CoreId) (m : Tbl Nat Member) : (setMembers s c m).uecc = s.uecc := rfl
@[simp] theorem setMembers_aon (s : State) (c : CoreId) (m : Tbl Nat Member) : (setMembers s c m).aon = s.aon := rfl
@[simp] theorem setMembers_saon (s : State) (c : CoreId) (m : Tbl Nat Member) : (setMembers s c m).saon = s.saon := rfl
@[simp] theorem setMembers_lateAck (s : State) (c : CoreId) (m : Tbl Nat Member) : (setMembers s c m).lateAck = s.lateAck := rfl
@[simp] theorem setMembers_wins (s : State) (c : CoreId) (m : Tbl Nat Member) : (setMembers s c m).wins = s.wins := rfl
@[simp] theorem setMembers_net (s : State) (c : CoreId) (m : Tbl Nat Member) : (setMembers s c m).net = s.net := rfl
@[simp] theorem setMembers_budgets (s : State) (c : CoreId) (m : Tbl Nat Member) : (setMembers s c m).budgets = s.budgets := rfl
@[simp] theorem setMembers_tlbs (s : State) (c : CoreId) (m : Tbl Nat Member) : (setMembers s c m).tlbs = s.tlbs := rfl
@[simp] theorem setMembers_twalks (s : State) (c : CoreId) (m : Tbl Nat Member) : (setMembers s c m).twalks = s.twalks := rfl
@[simp] theorem setMembers_shares (s : State) (c : CoreId) (m : Tbl Nat Member) : (setMembers s c m).shares = s.shares := rfl
@[simp] theorem setMembers_movp (s : State) (c : CoreId) (m : Tbl Nat Member) : (setMembers s c m).movp = s.movp := rfl
@[simp] theorem setMembers_movl (s : State) (c : CoreId) (m : Tbl Nat Member) : (setMembers s c m).movl = s.movl := rfl
@[simp] theorem setMembers_parcnt (s : State) (c : CoreId) (m : Tbl Nat Member) : (setMembers s c m).parcnt = s.parcnt := rfl
@[simp] theorem setMembers_lastF (s : State) (c : CoreId) (m : Tbl Nat Member) : (setMembers s c m).lastF = s.lastF := rfl
@[simp] theorem setMembers_queues (s : State) (c : CoreId) (m : Tbl Nat Member) : (setMembers s c m).queues = s.queues := rfl
@[simp] theorem setMembers_seqrs (s : State) (c : CoreId) (m : Tbl Nat Member) : (setMembers s c m).seqrs = s.seqrs := rfl
@[simp] theorem setMembers_launches (s : State) (c : CoreId) (m : Tbl Nat Member) : (setMembers s c m).launches = s.launches := rfl
@[simp] theorem setMembers_ftrk (s : State) (c : CoreId) (m : Tbl Nat Member) : (setMembers s c m).ftrk = s.ftrk := rfl
@[simp] theorem setMembers_fspb (s : State) (c : CoreId) (m : Tbl Nat Member) : (setMembers s c m).fspb = s.fspb := rfl
@[simp] theorem setMembers_sis (s : State) (c : CoreId) (m : Tbl Nat Member) : (setMembers s c m).sis = s.sis := rfl
@[simp] theorem setMembers_dead (s : State) (c : CoreId) (m : Tbl Nat Member) : (setMembers s c m).dead = s.dead := rfl
@[simp] theorem setMembers_deadU (s : State) (c : CoreId) (m : Tbl Nat Member) : (setMembers s c m).deadU = s.deadU := rfl
@[simp] theorem setMembers_ltmo (s : State) (c : CoreId) (m : Tbl Nat Member) : (setMembers s c m).ltmo = s.ltmo := rfl
@[simp] theorem setMembers_wafno (s : State) (c : CoreId) (m : Tbl Nat Member) : (setMembers s c m).wafno = s.wafno := rfl
@[simp] theorem setMembers_ports (s : State) (c : CoreId) (m : Tbl Nat Member) : (setMembers s c m).ports = s.ports := rfl
@[simp] theorem setMembers_remotes (s : State) (c : CoreId) (m : Tbl Nat Member) : (setMembers s c m).remotes = s.remotes := rfl
@[simp] theorem setMembers_carried (s : State) (c : CoreId) (m : Tbl Nat Member) : (setMembers s c m).carried = s.carried := rfl
@[simp] theorem setMembers_parts (s : State) (c : CoreId) (m : Tbl Nat Member) : (setMembers s c m).parts = s.parts := rfl
@[simp] theorem setMembers_ctxs (s : State) (c : CoreId) (m : Tbl Nat Member) : (setMembers s c m).ctxs = s.ctxs := rfl
@[simp] theorem setMembers_saved (s : State) (c : CoreId) (m : Tbl Nat Member) : (setMembers s c m).saved = s.saved := rfl
@[simp] theorem setMembers_areas (s : State) (c : CoreId) (m : Tbl Nat Member) : (setMembers s c m).areas = s.areas := rfl
@[simp] theorem setMembers_keys (s : State) (c : CoreId) (m : Tbl Nat Member) : (setMembers s c m).keys = s.keys := rfl
@[simp] theorem setMembers_supr (s : State) (c : CoreId) (m : Tbl Nat Member) : (setMembers s c m).supr = s.supr := rfl
@[simp] theorem setMembers_brks (s : State) (c : CoreId) (m : Tbl Nat Member) : (setMembers s c m).brks = s.brks := rfl
@[simp] theorem setMembers_recQ (s : State) (c : CoreId) (m : Tbl Nat Member) : (setMembers s c m).recQ = s.recQ := rfl
@[simp] theorem setMembers_recs (s : State) (c : CoreId) (m : Tbl Nat Member) : (setMembers s c m).recs = s.recs := rfl
@[simp] theorem setMembers_svcs (s : State) (c : CoreId) (m : Tbl Nat Member) : (setMembers s c m).svcs = s.svcs := rfl
@[simp] theorem setMembers_frozen (s : State) (c : CoreId) (m : Tbl Nat Member) : (setMembers s c m).frozen = s.frozen := rfl
@[simp] theorem setMembers_prog (s : State) (c : CoreId) (m : Tbl Nat Member) : (setMembers s c m).prog = s.prog := rfl
@[simp] theorem setMembers_regw (s : State) (c : CoreId) (m : Tbl Nat Member) : (setMembers s c m).regw = s.regw := rfl
@[simp] theorem setMembers_host (s : State) (c : CoreId) (m : Tbl Nat Member) : (setMembers s c m).host = s.host := rfl
@[simp] theorem setMembers_ctrs (s : State) (c : CoreId) (m : Tbl Nat Member) : (setMembers s c m).ctrs = s.ctrs := rfl
@[simp] theorem setMembers_serial (s : State) (c : CoreId) (m : Tbl Nat Member) : (setMembers s c m).serial = s.serial := rfl
@[simp] theorem setMembers_agenda (s : State) (c : CoreId) (m : Tbl Nat Member) : (setMembers s c m).agenda = s.agenda := rfl
@[simp] theorem setMembers_tick (s : State) (c : CoreId) (m : Tbl Nat Member) : (setMembers s c m).tick = s.tick := rfl
@[simp] theorem setMembers_focus (s : State) (c : CoreId) (m : Tbl Nat Member) : (setMembers s c m).focus = s.focus := rfl
@[simp] theorem setMembers_swapped (s : State) (c : CoreId) (m : Tbl Nat Member) : (setMembers s c m).swapped = s.swapped := rfl

/-! ## setPort -/

@[simp] theorem setPort_x (s : State) (p : Nat) (l : LPort) : (setPort s p l).x = s.x := rfl
@[simp] theorem setPort_sh (s : State) (p : Nat) (l : LPort) : (setPort s p l).sh = s.sh := rfl
@[simp] theorem setPort_mem (s : State) (p : Nat) (l : LPort) : (setPort s p l).mem = s.mem := rfl
@[simp] theorem setPort_smem (s : State) (p : Nat) (l : LPort) : (setPort s p l).smem = s.smem := rfl
@[simp] theorem setPort_ecc (s : State) (p : Nat) (l : LPort) : (setPort s p l).ecc = s.ecc := rfl
@[simp] theorem setPort_secc (s : State) (p : Nat) (l : LPort) : (setPort s p l).secc = s.secc := rfl
@[simp] theorem setPort_xts (s : State) (p : Nat) (l : LPort) : (setPort s p l).xts = s.xts := rfl
@[simp] theorem setPort_units (s : State) (p : Nat) (l : LPort) : (setPort s p l).units = s.units := rfl
@[simp] theorem setPort_uecc (s : State) (p : Nat) (l : LPort) : (setPort s p l).uecc = s.uecc := rfl
@[simp] theorem setPort_aon (s : State) (p : Nat) (l : LPort) : (setPort s p l).aon = s.aon := rfl
@[simp] theorem setPort_saon (s : State) (p : Nat) (l : LPort) : (setPort s p l).saon = s.saon := rfl
@[simp] theorem setPort_lateAck (s : State) (p : Nat) (l : LPort) : (setPort s p l).lateAck = s.lateAck := rfl
@[simp] theorem setPort_wins (s : State) (p : Nat) (l : LPort) : (setPort s p l).wins = s.wins := rfl
@[simp] theorem setPort_net (s : State) (p : Nat) (l : LPort) : (setPort s p l).net = s.net := rfl
@[simp] theorem setPort_budgets (s : State) (p : Nat) (l : LPort) : (setPort s p l).budgets = s.budgets := rfl
@[simp] theorem setPort_tlbs (s : State) (p : Nat) (l : LPort) : (setPort s p l).tlbs = s.tlbs := rfl
@[simp] theorem setPort_twalks (s : State) (p : Nat) (l : LPort) : (setPort s p l).twalks = s.twalks := rfl
@[simp] theorem setPort_shares (s : State) (p : Nat) (l : LPort) : (setPort s p l).shares = s.shares := rfl
@[simp] theorem setPort_movp (s : State) (p : Nat) (l : LPort) : (setPort s p l).movp = s.movp := rfl
@[simp] theorem setPort_movl (s : State) (p : Nat) (l : LPort) : (setPort s p l).movl = s.movl := rfl
@[simp] theorem setPort_parcnt (s : State) (p : Nat) (l : LPort) : (setPort s p l).parcnt = s.parcnt := rfl
@[simp] theorem setPort_lastF (s : State) (p : Nat) (l : LPort) : (setPort s p l).lastF = s.lastF := rfl
@[simp] theorem setPort_queues (s : State) (p : Nat) (l : LPort) : (setPort s p l).queues = s.queues := rfl
@[simp] theorem setPort_seqrs (s : State) (p : Nat) (l : LPort) : (setPort s p l).seqrs = s.seqrs := rfl
@[simp] theorem setPort_launches (s : State) (p : Nat) (l : LPort) : (setPort s p l).launches = s.launches := rfl
@[simp] theorem setPort_ftrk (s : State) (p : Nat) (l : LPort) : (setPort s p l).ftrk = s.ftrk := rfl
@[simp] theorem setPort_fspb (s : State) (p : Nat) (l : LPort) : (setPort s p l).fspb = s.fspb := rfl
@[simp] theorem setPort_sis (s : State) (p : Nat) (l : LPort) : (setPort s p l).sis = s.sis := rfl
@[simp] theorem setPort_dead (s : State) (p : Nat) (l : LPort) : (setPort s p l).dead = s.dead := rfl
@[simp] theorem setPort_deadU (s : State) (p : Nat) (l : LPort) : (setPort s p l).deadU = s.deadU := rfl
@[simp] theorem setPort_ltmo (s : State) (p : Nat) (l : LPort) : (setPort s p l).ltmo = s.ltmo := rfl
@[simp] theorem setPort_wafno (s : State) (p : Nat) (l : LPort) : (setPort s p l).wafno = s.wafno := rfl
@[simp] theorem setPort_ports (s : State) (p : Nat) (l : LPort) : (setPort s p l).ports = tset s.ports p l := rfl
@[simp] theorem setPort_remotes (s : State) (p : Nat) (l : LPort) : (setPort s p l).remotes = s.remotes := rfl
@[simp] theorem setPort_carried (s : State) (p : Nat) (l : LPort) : (setPort s p l).carried = s.carried := rfl
@[simp] theorem setPort_parts (s : State) (p : Nat) (l : LPort) : (setPort s p l).parts = s.parts := rfl
@[simp] theorem setPort_ctxs (s : State) (p : Nat) (l : LPort) : (setPort s p l).ctxs = s.ctxs := rfl
@[simp] theorem setPort_saved (s : State) (p : Nat) (l : LPort) : (setPort s p l).saved = s.saved := rfl
@[simp] theorem setPort_areas (s : State) (p : Nat) (l : LPort) : (setPort s p l).areas = s.areas := rfl
@[simp] theorem setPort_keys (s : State) (p : Nat) (l : LPort) : (setPort s p l).keys = s.keys := rfl
@[simp] theorem setPort_supr (s : State) (p : Nat) (l : LPort) : (setPort s p l).supr = s.supr := rfl
@[simp] theorem setPort_brks (s : State) (p : Nat) (l : LPort) : (setPort s p l).brks = s.brks := rfl
@[simp] theorem setPort_recQ (s : State) (p : Nat) (l : LPort) : (setPort s p l).recQ = s.recQ := rfl
@[simp] theorem setPort_recs (s : State) (p : Nat) (l : LPort) : (setPort s p l).recs = s.recs := rfl
@[simp] theorem setPort_svcs (s : State) (p : Nat) (l : LPort) : (setPort s p l).svcs = s.svcs := rfl
@[simp] theorem setPort_frozen (s : State) (p : Nat) (l : LPort) : (setPort s p l).frozen = s.frozen := rfl
@[simp] theorem setPort_prog (s : State) (p : Nat) (l : LPort) : (setPort s p l).prog = s.prog := rfl
@[simp] theorem setPort_regw (s : State) (p : Nat) (l : LPort) : (setPort s p l).regw = s.regw := rfl
@[simp] theorem setPort_host (s : State) (p : Nat) (l : LPort) : (setPort s p l).host = s.host := rfl
@[simp] theorem setPort_ctrs (s : State) (p : Nat) (l : LPort) : (setPort s p l).ctrs = s.ctrs := rfl
@[simp] theorem setPort_serial (s : State) (p : Nat) (l : LPort) : (setPort s p l).serial = s.serial := rfl
@[simp] theorem setPort_agenda (s : State) (p : Nat) (l : LPort) : (setPort s p l).agenda = s.agenda := rfl
@[simp] theorem setPort_tick (s : State) (p : Nat) (l : LPort) : (setPort s p l).tick = s.tick := rfl
@[simp] theorem setPort_focus (s : State) (p : Nat) (l : LPort) : (setPort s p l).focus = s.focus := rfl
@[simp] theorem setPort_swapped (s : State) (p : Nat) (l : LPort) : (setPort s p l).swapped = s.swapped := rfl

/-! ## setSi -/

@[simp] theorem setSi_x (s : State) (f n : Nat) (i : Si) : (setSi s f n i).x = s.x := rfl
@[simp] theorem setSi_sh (s : State) (f n : Nat) (i : Si) : (setSi s f n i).sh = s.sh := rfl
@[simp] theorem setSi_mem (s : State) (f n : Nat) (i : Si) : (setSi s f n i).mem = s.mem := rfl
@[simp] theorem setSi_smem (s : State) (f n : Nat) (i : Si) : (setSi s f n i).smem = s.smem := rfl
@[simp] theorem setSi_ecc (s : State) (f n : Nat) (i : Si) : (setSi s f n i).ecc = s.ecc := rfl
@[simp] theorem setSi_secc (s : State) (f n : Nat) (i : Si) : (setSi s f n i).secc = s.secc := rfl
@[simp] theorem setSi_xts (s : State) (f n : Nat) (i : Si) : (setSi s f n i).xts = s.xts := rfl
@[simp] theorem setSi_units (s : State) (f n : Nat) (i : Si) : (setSi s f n i).units = s.units := rfl
@[simp] theorem setSi_uecc (s : State) (f n : Nat) (i : Si) : (setSi s f n i).uecc = s.uecc := rfl
@[simp] theorem setSi_aon (s : State) (f n : Nat) (i : Si) : (setSi s f n i).aon = s.aon := rfl
@[simp] theorem setSi_saon (s : State) (f n : Nat) (i : Si) : (setSi s f n i).saon = s.saon := rfl
@[simp] theorem setSi_lateAck (s : State) (f n : Nat) (i : Si) : (setSi s f n i).lateAck = s.lateAck := rfl
@[simp] theorem setSi_wins (s : State) (f n : Nat) (i : Si) : (setSi s f n i).wins = s.wins := rfl
@[simp] theorem setSi_net (s : State) (f n : Nat) (i : Si) : (setSi s f n i).net = s.net := rfl
@[simp] theorem setSi_budgets (s : State) (f n : Nat) (i : Si) : (setSi s f n i).budgets = s.budgets := rfl
@[simp] theorem setSi_tlbs (s : State) (f n : Nat) (i : Si) : (setSi s f n i).tlbs = s.tlbs := rfl
@[simp] theorem setSi_twalks (s : State) (f n : Nat) (i : Si) : (setSi s f n i).twalks = s.twalks := rfl
@[simp] theorem setSi_shares (s : State) (f n : Nat) (i : Si) : (setSi s f n i).shares = s.shares := rfl
@[simp] theorem setSi_movp (s : State) (f n : Nat) (i : Si) : (setSi s f n i).movp = s.movp := rfl
@[simp] theorem setSi_movl (s : State) (f n : Nat) (i : Si) : (setSi s f n i).movl = s.movl := rfl
@[simp] theorem setSi_parcnt (s : State) (f n : Nat) (i : Si) : (setSi s f n i).parcnt = s.parcnt := rfl
@[simp] theorem setSi_lastF (s : State) (f n : Nat) (i : Si) : (setSi s f n i).lastF = s.lastF := rfl
@[simp] theorem setSi_queues (s : State) (f n : Nat) (i : Si) : (setSi s f n i).queues = s.queues := rfl
@[simp] theorem setSi_seqrs (s : State) (f n : Nat) (i : Si) : (setSi s f n i).seqrs = s.seqrs := rfl
@[simp] theorem setSi_launches (s : State) (f n : Nat) (i : Si) : (setSi s f n i).launches = s.launches := rfl
@[simp] theorem setSi_ftrk (s : State) (f n : Nat) (i : Si) : (setSi s f n i).ftrk = s.ftrk := rfl
@[simp] theorem setSi_fspb (s : State) (f n : Nat) (i : Si) : (setSi s f n i).fspb = s.fspb := rfl
@[simp] theorem setSi_sis (s : State) (f n : Nat) (i : Si) : (setSi s f n i).sis = tset s.sis (f, n) i := rfl
@[simp] theorem setSi_dead (s : State) (f n : Nat) (i : Si) : (setSi s f n i).dead = s.dead := rfl
@[simp] theorem setSi_deadU (s : State) (f n : Nat) (i : Si) : (setSi s f n i).deadU = s.deadU := rfl
@[simp] theorem setSi_ltmo (s : State) (f n : Nat) (i : Si) : (setSi s f n i).ltmo = s.ltmo := rfl
@[simp] theorem setSi_wafno (s : State) (f n : Nat) (i : Si) : (setSi s f n i).wafno = s.wafno := rfl
@[simp] theorem setSi_ports (s : State) (f n : Nat) (i : Si) : (setSi s f n i).ports = s.ports := rfl
@[simp] theorem setSi_remotes (s : State) (f n : Nat) (i : Si) : (setSi s f n i).remotes = s.remotes := rfl
@[simp] theorem setSi_carried (s : State) (f n : Nat) (i : Si) : (setSi s f n i).carried = s.carried := rfl
@[simp] theorem setSi_parts (s : State) (f n : Nat) (i : Si) : (setSi s f n i).parts = s.parts := rfl
@[simp] theorem setSi_ctxs (s : State) (f n : Nat) (i : Si) : (setSi s f n i).ctxs = s.ctxs := rfl
@[simp] theorem setSi_saved (s : State) (f n : Nat) (i : Si) : (setSi s f n i).saved = s.saved := rfl
@[simp] theorem setSi_areas (s : State) (f n : Nat) (i : Si) : (setSi s f n i).areas = s.areas := rfl
@[simp] theorem setSi_keys (s : State) (f n : Nat) (i : Si) : (setSi s f n i).keys = s.keys := rfl
@[simp] theorem setSi_supr (s : State) (f n : Nat) (i : Si) : (setSi s f n i).supr = s.supr := rfl
@[simp] theorem setSi_brks (s : State) (f n : Nat) (i : Si) : (setSi s f n i).brks = s.brks := rfl
@[simp] theorem setSi_recQ (s : State) (f n : Nat) (i : Si) : (setSi s f n i).recQ = s.recQ := rfl
@[simp] theorem setSi_recs (s : State) (f n : Nat) (i : Si) : (setSi s f n i).recs = s.recs := rfl
@[simp] theorem setSi_svcs (s : State) (f n : Nat) (i : Si) : (setSi s f n i).svcs = s.svcs := rfl
@[simp] theorem setSi_frozen (s : State) (f n : Nat) (i : Si) : (setSi s f n i).frozen = s.frozen := rfl
@[simp] theorem setSi_prog (s : State) (f n : Nat) (i : Si) : (setSi s f n i).prog = s.prog := rfl
@[simp] theorem setSi_regw (s : State) (f n : Nat) (i : Si) : (setSi s f n i).regw = s.regw := rfl
@[simp] theorem setSi_host (s : State) (f n : Nat) (i : Si) : (setSi s f n i).host = s.host := rfl
@[simp] theorem setSi_ctrs (s : State) (f n : Nat) (i : Si) : (setSi s f n i).ctrs = s.ctrs := rfl
@[simp] theorem setSi_serial (s : State) (f n : Nat) (i : Si) : (setSi s f n i).serial = s.serial := rfl
@[simp] theorem setSi_agenda (s : State) (f n : Nat) (i : Si) : (setSi s f n i).agenda = s.agenda := rfl
@[simp] theorem setSi_tick (s : State) (f n : Nat) (i : Si) : (setSi s f n i).tick = s.tick := rfl
@[simp] theorem setSi_focus (s : State) (f n : Nat) (i : Si) : (setSi s f n i).focus = s.focus := rfl
@[simp] theorem setSi_swapped (s : State) (f n : Nat) (i : Si) : (setSi s f n i).swapped = s.swapped := rfl

/-! ## setCtx -/

@[simp] theorem setCtx_x (s : State) (p : Nat) (t : CtxSt) : (setCtx s p t).x = s.x := rfl
@[simp] theorem setCtx_sh (s : State) (p : Nat) (t : CtxSt) : (setCtx s p t).sh = s.sh := rfl
@[simp] theorem setCtx_mem (s : State) (p : Nat) (t : CtxSt) : (setCtx s p t).mem = s.mem := rfl
@[simp] theorem setCtx_smem (s : State) (p : Nat) (t : CtxSt) : (setCtx s p t).smem = s.smem := rfl
@[simp] theorem setCtx_ecc (s : State) (p : Nat) (t : CtxSt) : (setCtx s p t).ecc = s.ecc := rfl
@[simp] theorem setCtx_secc (s : State) (p : Nat) (t : CtxSt) : (setCtx s p t).secc = s.secc := rfl
@[simp] theorem setCtx_xts (s : State) (p : Nat) (t : CtxSt) : (setCtx s p t).xts = s.xts := rfl
@[simp] theorem setCtx_units (s : State) (p : Nat) (t : CtxSt) : (setCtx s p t).units = s.units := rfl
@[simp] theorem setCtx_uecc (s : State) (p : Nat) (t : CtxSt) : (setCtx s p t).uecc = s.uecc := rfl
@[simp] theorem setCtx_aon (s : State) (p : Nat) (t : CtxSt) : (setCtx s p t).aon = s.aon := rfl
@[simp] theorem setCtx_saon (s : State) (p : Nat) (t : CtxSt) : (setCtx s p t).saon = s.saon := rfl
@[simp] theorem setCtx_lateAck (s : State) (p : Nat) (t : CtxSt) : (setCtx s p t).lateAck = s.lateAck := rfl
@[simp] theorem setCtx_wins (s : State) (p : Nat) (t : CtxSt) : (setCtx s p t).wins = s.wins := rfl
@[simp] theorem setCtx_net (s : State) (p : Nat) (t : CtxSt) : (setCtx s p t).net = s.net := rfl
@[simp] theorem setCtx_budgets (s : State) (p : Nat) (t : CtxSt) : (setCtx s p t).budgets = s.budgets := rfl
@[simp] theorem setCtx_tlbs (s : State) (p : Nat) (t : CtxSt) : (setCtx s p t).tlbs = s.tlbs := rfl
@[simp] theorem setCtx_twalks (s : State) (p : Nat) (t : CtxSt) : (setCtx s p t).twalks = s.twalks := rfl
@[simp] theorem setCtx_shares (s : State) (p : Nat) (t : CtxSt) : (setCtx s p t).shares = s.shares := rfl
@[simp] theorem setCtx_movp (s : State) (p : Nat) (t : CtxSt) : (setCtx s p t).movp = s.movp := rfl
@[simp] theorem setCtx_movl (s : State) (p : Nat) (t : CtxSt) : (setCtx s p t).movl = s.movl := rfl
@[simp] theorem setCtx_parcnt (s : State) (p : Nat) (t : CtxSt) : (setCtx s p t).parcnt = s.parcnt := rfl
@[simp] theorem setCtx_lastF (s : State) (p : Nat) (t : CtxSt) : (setCtx s p t).lastF = s.lastF := rfl
@[simp] theorem setCtx_queues (s : State) (p : Nat) (t : CtxSt) : (setCtx s p t).queues = s.queues := rfl
@[simp] theorem setCtx_seqrs (s : State) (p : Nat) (t : CtxSt) : (setCtx s p t).seqrs = s.seqrs := rfl
@[simp] theorem setCtx_launches (s : State) (p : Nat) (t : CtxSt) : (setCtx s p t).launches = s.launches := rfl
@[simp] theorem setCtx_ftrk (s : State) (p : Nat) (t : CtxSt) : (setCtx s p t).ftrk = s.ftrk := rfl
@[simp] theorem setCtx_fspb (s : State) (p : Nat) (t : CtxSt) : (setCtx s p t).fspb = s.fspb := rfl
@[simp] theorem setCtx_sis (s : State) (p : Nat) (t : CtxSt) : (setCtx s p t).sis = s.sis := rfl
@[simp] theorem setCtx_dead (s : State) (p : Nat) (t : CtxSt) : (setCtx s p t).dead = s.dead := rfl
@[simp] theorem setCtx_deadU (s : State) (p : Nat) (t : CtxSt) : (setCtx s p t).deadU = s.deadU := rfl
@[simp] theorem setCtx_ltmo (s : State) (p : Nat) (t : CtxSt) : (setCtx s p t).ltmo = s.ltmo := rfl
@[simp] theorem setCtx_wafno (s : State) (p : Nat) (t : CtxSt) : (setCtx s p t).wafno = s.wafno := rfl
@[simp] theorem setCtx_ports (s : State) (p : Nat) (t : CtxSt) : (setCtx s p t).ports = s.ports := rfl
@[simp] theorem setCtx_remotes (s : State) (p : Nat) (t : CtxSt) : (setCtx s p t).remotes = s.remotes := rfl
@[simp] theorem setCtx_carried (s : State) (p : Nat) (t : CtxSt) : (setCtx s p t).carried = s.carried := rfl
@[simp] theorem setCtx_parts (s : State) (p : Nat) (t : CtxSt) : (setCtx s p t).parts = s.parts := rfl
@[simp] theorem setCtx_ctxs (s : State) (p : Nat) (t : CtxSt) : (setCtx s p t).ctxs = tset s.ctxs p t := rfl
@[simp] theorem setCtx_saved (s : State) (p : Nat) (t : CtxSt) : (setCtx s p t).saved = s.saved := rfl
@[simp] theorem setCtx_areas (s : State) (p : Nat) (t : CtxSt) : (setCtx s p t).areas = s.areas := rfl
@[simp] theorem setCtx_keys (s : State) (p : Nat) (t : CtxSt) : (setCtx s p t).keys = s.keys := rfl
@[simp] theorem setCtx_supr (s : State) (p : Nat) (t : CtxSt) : (setCtx s p t).supr = s.supr := rfl
@[simp] theorem setCtx_brks (s : State) (p : Nat) (t : CtxSt) : (setCtx s p t).brks = s.brks := rfl
@[simp] theorem setCtx_recQ (s : State) (p : Nat) (t : CtxSt) : (setCtx s p t).recQ = s.recQ := rfl
@[simp] theorem setCtx_recs (s : State) (p : Nat) (t : CtxSt) : (setCtx s p t).recs = s.recs := rfl
@[simp] theorem setCtx_svcs (s : State) (p : Nat) (t : CtxSt) : (setCtx s p t).svcs = s.svcs := rfl
@[simp] theorem setCtx_frozen (s : State) (p : Nat) (t : CtxSt) : (setCtx s p t).frozen = s.frozen := rfl
@[simp] theorem setCtx_prog (s : State) (p : Nat) (t : CtxSt) : (setCtx s p t).prog = s.prog := rfl
@[simp] theorem setCtx_regw (s : State) (p : Nat) (t : CtxSt) : (setCtx s p t).regw = s.regw := rfl
@[simp] theorem setCtx_host (s : State) (p : Nat) (t : CtxSt) : (setCtx s p t).host = s.host := rfl
@[simp] theorem setCtx_ctrs (s : State) (p : Nat) (t : CtxSt) : (setCtx s p t).ctrs = s.ctrs := rfl
@[simp] theorem setCtx_serial (s : State) (p : Nat) (t : CtxSt) : (setCtx s p t).serial = s.serial := rfl
@[simp] theorem setCtx_agenda (s : State) (p : Nat) (t : CtxSt) : (setCtx s p t).agenda = s.agenda := rfl
@[simp] theorem setCtx_tick (s : State) (p : Nat) (t : CtxSt) : (setCtx s p t).tick = s.tick := rfl
@[simp] theorem setCtx_focus (s : State) (p : Nat) (t : CtxSt) : (setCtx s p t).focus = s.focus := rfl
@[simp] theorem setCtx_swapped (s : State) (p : Nat) (t : CtxSt) : (setCtx s p t).swapped = s.swapped := rfl

/-! ## setPkt -/

@[simp] theorem setPkt_x (s : State) (id : Nat) (f : Packet → Packet) : (setPkt s id f).x = s.x := rfl
@[simp] theorem setPkt_sh (s : State) (id : Nat) (f : Packet → Packet) : (setPkt s id f).sh = s.sh := rfl
@[simp] theorem setPkt_mem (s : State) (id : Nat) (f : Packet → Packet) : (setPkt s id f).mem = s.mem := rfl
@[simp] theorem setPkt_smem (s : State) (id : Nat) (f : Packet → Packet) : (setPkt s id f).smem = s.smem := rfl
@[simp] theorem setPkt_ecc (s : State) (id : Nat) (f : Packet → Packet) : (setPkt s id f).ecc = s.ecc := rfl
@[simp] theorem setPkt_secc (s : State) (id : Nat) (f : Packet → Packet) : (setPkt s id f).secc = s.secc := rfl
@[simp] theorem setPkt_xts (s : State) (id : Nat) (f : Packet → Packet) : (setPkt s id f).xts = s.xts := rfl
@[simp] theorem setPkt_units (s : State) (id : Nat) (f : Packet → Packet) : (setPkt s id f).units = s.units := rfl
@[simp] theorem setPkt_uecc (s : State) (id : Nat) (f : Packet → Packet) : (setPkt s id f).uecc = s.uecc := rfl
@[simp] theorem setPkt_aon (s : State) (id : Nat) (f : Packet → Packet) : (setPkt s id f).aon = s.aon := rfl
@[simp] theorem setPkt_saon (s : State) (id : Nat) (f : Packet → Packet) : (setPkt s id f).saon = s.saon := rfl
@[simp] theorem setPkt_lateAck (s : State) (id : Nat) (f : Packet → Packet) : (setPkt s id f).lateAck = s.lateAck := rfl
@[simp] theorem setPkt_wins (s : State) (id : Nat) (f : Packet → Packet) : (setPkt s id f).wins = s.wins := rfl
@[simp] theorem setPkt_net (s : State) (id : Nat) (f : Packet → Packet) : (setPkt s id f).net = mapIf (fun p => p.id == id) f s.net := rfl
@[simp] theorem setPkt_budgets (s : State) (id : Nat) (f : Packet → Packet) : (setPkt s id f).budgets = s.budgets := rfl
@[simp] theorem setPkt_tlbs (s : State) (id : Nat) (f : Packet → Packet) : (setPkt s id f).tlbs = s.tlbs := rfl
@[simp] theorem setPkt_twalks (s : State) (id : Nat) (f : Packet → Packet) : (setPkt s id f).twalks = s.twalks := rfl
@[simp] theorem setPkt_shares (s : State) (id : Nat) (f : Packet → Packet) : (setPkt s id f).shares = s.shares := rfl
@[simp] theorem setPkt_movp (s : State) (id : Nat) (f : Packet → Packet) : (setPkt s id f).movp = s.movp := rfl
@[simp] theorem setPkt_movl (s : State) (id : Nat) (f : Packet → Packet) : (setPkt s id f).movl = s.movl := rfl
@[simp] theorem setPkt_parcnt (s : State) (id : Nat) (f : Packet → Packet) : (setPkt s id f).parcnt = s.parcnt := rfl
@[simp] theorem setPkt_lastF (s : State) (id : Nat) (f : Packet → Packet) : (setPkt s id f).lastF = s.lastF := rfl
@[simp] theorem setPkt_queues (s : State) (id : Nat) (f : Packet → Packet) : (setPkt s id f).queues = s.queues := rfl
@[simp] theorem setPkt_seqrs (s : State) (id : Nat) (f : Packet → Packet) : (setPkt s id f).seqrs = s.seqrs := rfl
@[simp] theorem setPkt_launches (s : State) (id : Nat) (f : Packet → Packet) : (setPkt s id f).launches = s.launches := rfl
@[simp] theorem setPkt_ftrk (s : State) (id : Nat) (f : Packet → Packet) : (setPkt s id f).ftrk = s.ftrk := rfl
@[simp] theorem setPkt_fspb (s : State) (id : Nat) (f : Packet → Packet) : (setPkt s id f).fspb = s.fspb := rfl
@[simp] theorem setPkt_sis (s : State) (id : Nat) (f : Packet → Packet) : (setPkt s id f).sis = s.sis := rfl
@[simp] theorem setPkt_dead (s : State) (id : Nat) (f : Packet → Packet) : (setPkt s id f).dead = s.dead := rfl
@[simp] theorem setPkt_deadU (s : State) (id : Nat) (f : Packet → Packet) : (setPkt s id f).deadU = s.deadU := rfl
@[simp] theorem setPkt_ltmo (s : State) (id : Nat) (f : Packet → Packet) : (setPkt s id f).ltmo = s.ltmo := rfl
@[simp] theorem setPkt_wafno (s : State) (id : Nat) (f : Packet → Packet) : (setPkt s id f).wafno = s.wafno := rfl
@[simp] theorem setPkt_ports (s : State) (id : Nat) (f : Packet → Packet) : (setPkt s id f).ports = s.ports := rfl
@[simp] theorem setPkt_remotes (s : State) (id : Nat) (f : Packet → Packet) : (setPkt s id f).remotes = s.remotes := rfl
@[simp] theorem setPkt_carried (s : State) (id : Nat) (f : Packet → Packet) : (setPkt s id f).carried = s.carried := rfl
@[simp] theorem setPkt_parts (s : State) (id : Nat) (f : Packet → Packet) : (setPkt s id f).parts = s.parts := rfl
@[simp] theorem setPkt_ctxs (s : State) (id : Nat) (f : Packet → Packet) : (setPkt s id f).ctxs = s.ctxs := rfl
@[simp] theorem setPkt_saved (s : State) (id : Nat) (f : Packet → Packet) : (setPkt s id f).saved = s.saved := rfl
@[simp] theorem setPkt_areas (s : State) (id : Nat) (f : Packet → Packet) : (setPkt s id f).areas = s.areas := rfl
@[simp] theorem setPkt_keys (s : State) (id : Nat) (f : Packet → Packet) : (setPkt s id f).keys = s.keys := rfl
@[simp] theorem setPkt_supr (s : State) (id : Nat) (f : Packet → Packet) : (setPkt s id f).supr = s.supr := rfl
@[simp] theorem setPkt_brks (s : State) (id : Nat) (f : Packet → Packet) : (setPkt s id f).brks = s.brks := rfl
@[simp] theorem setPkt_recQ (s : State) (id : Nat) (f : Packet → Packet) : (setPkt s id f).recQ = s.recQ := rfl
@[simp] theorem setPkt_recs (s : State) (id : Nat) (f : Packet → Packet) : (setPkt s id f).recs = s.recs := rfl
@[simp] theorem setPkt_svcs (s : State) (id : Nat) (f : Packet → Packet) : (setPkt s id f).svcs = s.svcs := rfl
@[simp] theorem setPkt_frozen (s : State) (id : Nat) (f : Packet → Packet) : (setPkt s id f).frozen = s.frozen := rfl
@[simp] theorem setPkt_prog (s : State) (id : Nat) (f : Packet → Packet) : (setPkt s id f).prog = s.prog := rfl
@[simp] theorem setPkt_regw (s : State) (id : Nat) (f : Packet → Packet) : (setPkt s id f).regw = s.regw := rfl
@[simp] theorem setPkt_host (s : State) (id : Nat) (f : Packet → Packet) : (setPkt s id f).host = s.host := rfl
@[simp] theorem setPkt_ctrs (s : State) (id : Nat) (f : Packet → Packet) : (setPkt s id f).ctrs = s.ctrs := rfl
@[simp] theorem setPkt_serial (s : State) (id : Nat) (f : Packet → Packet) : (setPkt s id f).serial = s.serial := rfl
@[simp] theorem setPkt_agenda (s : State) (id : Nat) (f : Packet → Packet) : (setPkt s id f).agenda = s.agenda := rfl
@[simp] theorem setPkt_tick (s : State) (id : Nat) (f : Packet → Packet) : (setPkt s id f).tick = s.tick := rfl
@[simp] theorem setPkt_focus (s : State) (id : Nat) (f : Packet → Packet) : (setPkt s id f).focus = s.focus := rfl
@[simp] theorem setPkt_swapped (s : State) (id : Nat) (f : Packet → Packet) : (setPkt s id f).swapped = s.swapped := rfl

/-! ## dropPkt -/

@[simp] theorem dropPkt_x (s : State) (id : Nat) : (dropPkt s id).x = s.x := rfl
@[simp] theorem dropPkt_sh (s : State) (id : Nat) : (dropPkt s id).sh = s.sh := rfl
@[simp] theorem dropPkt_mem (s : State) (id : Nat) : (dropPkt s id).mem = s.mem := rfl
@[simp] theorem dropPkt_smem (s : State) (id : Nat) : (dropPkt s id).smem = s.smem := rfl
@[simp] theorem dropPkt_ecc (s : State) (id : Nat) : (dropPkt s id).ecc = s.ecc := rfl
@[simp] theorem dropPkt_secc (s : State) (id : Nat) : (dropPkt s id).secc = s.secc := rfl
@[simp] theorem dropPkt_xts (s : State) (id : Nat) : (dropPkt s id).xts = s.xts := rfl
@[simp] theorem dropPkt_units (s : State) (id : Nat) : (dropPkt s id).units = s.units := rfl
@[simp] theorem dropPkt_uecc (s : State) (id : Nat) : (dropPkt s id).uecc = s.uecc := rfl
@[simp] theorem dropPkt_aon (s : State) (id : Nat) : (dropPkt s id).aon = s.aon := rfl
@[simp] theorem dropPkt_saon (s : State) (id : Nat) : (dropPkt s id).saon = s.saon := rfl
@[simp] theorem dropPkt_lateAck (s : State) (id : Nat) : (dropPkt s id).lateAck = s.lateAck := rfl
@[simp] theorem dropPkt_wins (s : State) (id : Nat) : (dropPkt s id).wins = s.wins := rfl
@[simp] theorem dropPkt_net (s : State) (id : Nat) : (dropPkt s id).net = s.net.filter fun p => p.id != id := rfl
@[simp] theorem dropPkt_budgets (s : State) (id : Nat) : (dropPkt s id).budgets = s.budgets := rfl
@[simp] theorem dropPkt_tlbs (s : State) (id : Nat) : (dropPkt s id).tlbs = s.tlbs := rfl
@[simp] theorem dropPkt_twalks (s : State) (id : Nat) : (dropPkt s id).twalks = s.twalks := rfl
@[simp] theorem dropPkt_shares (s : State) (id : Nat) : (dropPkt s id).shares = s.shares := rfl
@[simp] theorem dropPkt_movp (s : State) (id : Nat) : (dropPkt s id).movp = s.movp := rfl
@[simp] theorem dropPkt_movl (s : State) (id : Nat) : (dropPkt s id).movl = s.movl := rfl
@[simp] theorem dropPkt_parcnt (s : State) (id : Nat) : (dropPkt s id).parcnt = s.parcnt := rfl
@[simp] theorem dropPkt_lastF (s : State) (id : Nat) : (dropPkt s id).lastF = s.lastF := rfl
@[simp] theorem dropPkt_queues (s : State) (id : Nat) : (dropPkt s id).queues = s.queues := rfl
@[simp] theorem dropPkt_seqrs (s : State) (id : Nat) : (dropPkt s id).seqrs = s.seqrs := rfl
@[simp] theorem dropPkt_launches (s : State) (id : Nat) : (dropPkt s id).launches = s.launches := rfl
@[simp] theorem dropPkt_ftrk (s : State) (id : Nat) : (dropPkt s id).ftrk = s.ftrk := rfl
@[simp] theorem dropPkt_fspb (s : State) (id : Nat) : (dropPkt s id).fspb = s.fspb := rfl
@[simp] theorem dropPkt_sis (s : State) (id : Nat) : (dropPkt s id).sis = s.sis := rfl
@[simp] theorem dropPkt_dead (s : State) (id : Nat) : (dropPkt s id).dead = s.dead := rfl
@[simp] theorem dropPkt_deadU (s : State) (id : Nat) : (dropPkt s id).deadU = s.deadU := rfl
@[simp] theorem dropPkt_ltmo (s : State) (id : Nat) : (dropPkt s id).ltmo = s.ltmo := rfl
@[simp] theorem dropPkt_wafno (s : State) (id : Nat) : (dropPkt s id).wafno = s.wafno := rfl
@[simp] theorem dropPkt_ports (s : State) (id : Nat) : (dropPkt s id).ports = s.ports := rfl
@[simp] theorem dropPkt_remotes (s : State) (id : Nat) : (dropPkt s id).remotes = s.remotes := rfl
@[simp] theorem dropPkt_carried (s : State) (id : Nat) : (dropPkt s id).carried = s.carried := rfl
@[simp] theorem dropPkt_parts (s : State) (id : Nat) : (dropPkt s id).parts = s.parts := rfl
@[simp] theorem dropPkt_ctxs (s : State) (id : Nat) : (dropPkt s id).ctxs = s.ctxs := rfl
@[simp] theorem dropPkt_saved (s : State) (id : Nat) : (dropPkt s id).saved = s.saved := rfl
@[simp] theorem dropPkt_areas (s : State) (id : Nat) : (dropPkt s id).areas = s.areas := rfl
@[simp] theorem dropPkt_keys (s : State) (id : Nat) : (dropPkt s id).keys = s.keys := rfl
@[simp] theorem dropPkt_supr (s : State) (id : Nat) : (dropPkt s id).supr = s.supr := rfl
@[simp] theorem dropPkt_brks (s : State) (id : Nat) : (dropPkt s id).brks = s.brks := rfl
@[simp] theorem dropPkt_recQ (s : State) (id : Nat) : (dropPkt s id).recQ = s.recQ := rfl
@[simp] theorem dropPkt_recs (s : State) (id : Nat) : (dropPkt s id).recs = s.recs := rfl
@[simp] theorem dropPkt_svcs (s : State) (id : Nat) : (dropPkt s id).svcs = s.svcs := rfl
@[simp] theorem dropPkt_frozen (s : State) (id : Nat) : (dropPkt s id).frozen = s.frozen := rfl
@[simp] theorem dropPkt_prog (s : State) (id : Nat) : (dropPkt s id).prog = s.prog := rfl
@[simp] theorem dropPkt_regw (s : State) (id : Nat) : (dropPkt s id).regw = s.regw := rfl
@[simp] theorem dropPkt_host (s : State) (id : Nat) : (dropPkt s id).host = s.host := rfl
@[simp] theorem dropPkt_ctrs (s : State) (id : Nat) : (dropPkt s id).ctrs = s.ctrs := rfl
@[simp] theorem dropPkt_serial (s : State) (id : Nat) : (dropPkt s id).serial = s.serial := rfl
@[simp] theorem dropPkt_agenda (s : State) (id : Nat) : (dropPkt s id).agenda = s.agenda := rfl
@[simp] theorem dropPkt_tick (s : State) (id : Nat) : (dropPkt s id).tick = s.tick := rfl
@[simp] theorem dropPkt_focus (s : State) (id : Nat) : (dropPkt s id).focus = s.focus := rfl
@[simp] theorem dropPkt_swapped (s : State) (id : Nat) : (dropPkt s id).swapped = s.swapped := rfl

/-! ## dropRemote -/

@[simp] theorem dropRemote_x (s : State) (rid : Nat) : (dropRemote s rid).x = s.x := rfl
@[simp] theorem dropRemote_sh (s : State) (rid : Nat) : (dropRemote s rid).sh = s.sh := rfl
@[simp] theorem dropRemote_mem (s : State) (rid : Nat) : (dropRemote s rid).mem = s.mem := rfl
@[simp] theorem dropRemote_smem (s : State) (rid : Nat) : (dropRemote s rid).smem = s.smem := rfl
@[simp] theorem dropRemote_ecc (s : State) (rid : Nat) : (dropRemote s rid).ecc = s.ecc := rfl
@[simp] theorem dropRemote_secc (s : State) (rid : Nat) : (dropRemote s rid).secc = s.secc := rfl
@[simp] theorem dropRemote_xts (s : State) (rid : Nat) : (dropRemote s rid).xts = s.xts := rfl
@[simp] theorem dropRemote_units (s : State) (rid : Nat) : (dropRemote s rid).units = s.units := rfl
@[simp] theorem dropRemote_uecc (s : State) (rid : Nat) : (dropRemote s rid).uecc = s.uecc := rfl
@[simp] theorem dropRemote_aon (s : State) (rid : Nat) : (dropRemote s rid).aon = s.aon := rfl
@[simp] theorem dropRemote_saon (s : State) (rid : Nat) : (dropRemote s rid).saon = s.saon := rfl
@[simp] theorem dropRemote_lateAck (s : State) (rid : Nat) : (dropRemote s rid).lateAck = s.lateAck := rfl
@[simp] theorem dropRemote_wins (s : State) (rid : Nat) : (dropRemote s rid).wins = s.wins := rfl
@[simp] theorem dropRemote_net (s : State) (rid : Nat) : (dropRemote s rid).net = s.net := rfl
@[simp] theorem dropRemote_budgets (s : State) (rid : Nat) : (dropRemote s rid).budgets = s.budgets := rfl
@[simp] theorem dropRemote_tlbs (s : State) (rid : Nat) : (dropRemote s rid).tlbs = s.tlbs := rfl
@[simp] theorem dropRemote_twalks (s : State) (rid : Nat) : (dropRemote s rid).twalks = s.twalks := rfl
@[simp] theorem dropRemote_shares (s : State) (rid : Nat) : (dropRemote s rid).shares = s.shares := rfl
@[simp] theorem dropRemote_movp (s : State) (rid : Nat) : (dropRemote s rid).movp = s.movp := rfl
@[simp] theorem dropRemote_movl (s : State) (rid : Nat) : (dropRemote s rid).movl = s.movl := rfl
@[simp] theorem dropRemote_parcnt (s : State) (rid : Nat) : (dropRemote s rid).parcnt = s.parcnt := rfl
@[simp] theorem dropRemote_lastF (s : State) (rid : Nat) : (dropRemote s rid).lastF = s.lastF := rfl
@[simp] theorem dropRemote_queues (s : State) (rid : Nat) : (dropRemote s rid).queues = s.queues := rfl
@[simp] theorem dropRemote_seqrs (s : State) (rid : Nat) : (dropRemote s rid).seqrs = s.seqrs := rfl
@[simp] theorem dropRemote_launches (s : State) (rid : Nat) : (dropRemote s rid).launches = s.launches := rfl
@[simp] theorem dropRemote_ftrk (s : State) (rid : Nat) : (dropRemote s rid).ftrk = s.ftrk := rfl
@[simp] theorem dropRemote_fspb (s : State) (rid : Nat) : (dropRemote s rid).fspb = s.fspb := rfl
@[simp] theorem dropRemote_sis (s : State) (rid : Nat) : (dropRemote s rid).sis = s.sis := rfl
@[simp] theorem dropRemote_dead (s : State) (rid : Nat) : (dropRemote s rid).dead = s.dead := rfl
@[simp] theorem dropRemote_deadU (s : State) (rid : Nat) : (dropRemote s rid).deadU = s.deadU := rfl
@[simp] theorem dropRemote_ltmo (s : State) (rid : Nat) : (dropRemote s rid).ltmo = s.ltmo := rfl
@[simp] theorem dropRemote_wafno (s : State) (rid : Nat) : (dropRemote s rid).wafno = s.wafno := rfl
@[simp] theorem dropRemote_ports (s : State) (rid : Nat) : (dropRemote s rid).ports = s.ports := rfl
@[simp] theorem dropRemote_remotes (s : State) (rid : Nat) : (dropRemote s rid).remotes = s.remotes.filter fun m => m.n != rid := rfl
@[simp] theorem dropRemote_carried (s : State) (rid : Nat) : (dropRemote s rid).carried = s.carried := rfl
@[simp] theorem dropRemote_parts (s : State) (rid : Nat) : (dropRemote s rid).parts = s.parts := rfl
@[simp] theorem dropRemote_ctxs (s : State) (rid : Nat) : (dropRemote s rid).ctxs = s.ctxs := rfl
@[simp] theorem dropRemote_saved (s : State) (rid : Nat) : (dropRemote s rid).saved = s.saved := rfl
@[simp] theorem dropRemote_areas (s : State) (rid : Nat) : (dropRemote s rid).areas = s.areas := rfl
@[simp] theorem dropRemote_keys (s : State) (rid : Nat) : (dropRemote s rid).keys = s.keys := rfl
@[simp] theorem dropRemote_supr (s : State) (rid : Nat) : (dropRemote s rid).supr = s.supr := rfl
@[simp] theorem dropRemote_brks (s : State) (rid : Nat) : (dropRemote s rid).brks = s.brks := rfl
@[simp] theorem dropRemote_recQ (s : State) (rid : Nat) : (dropRemote s rid).recQ = s.recQ := rfl
@[simp] theorem dropRemote_recs (s : State) (rid : Nat) : (dropRemote s rid).recs = s.recs := rfl
@[simp] theorem dropRemote_svcs (s : State) (rid : Nat) : (dropRemote s rid).svcs = s.svcs := rfl
@[simp] theorem dropRemote_frozen (s : State) (rid : Nat) : (dropRemote s rid).frozen = s.frozen := rfl
@[simp] theorem dropRemote_prog (s : State) (rid : Nat) : (dropRemote s rid).prog = s.prog := rfl
@[simp] theorem dropRemote_regw (s : State) (rid : Nat) : (dropRemote s rid).regw = s.regw := rfl
@[simp] theorem dropRemote_host (s : State) (rid : Nat) : (dropRemote s rid).host = s.host := rfl
@[simp] theorem dropRemote_ctrs (s : State) (rid : Nat) : (dropRemote s rid).ctrs = s.ctrs := rfl
@[simp] theorem dropRemote_serial (s : State) (rid : Nat) : (dropRemote s rid).serial = s.serial := rfl
@[simp] theorem dropRemote_agenda (s : State) (rid : Nat) : (dropRemote s rid).agenda = s.agenda := rfl
@[simp] theorem dropRemote_tick (s : State) (rid : Nat) : (dropRemote s rid).tick = s.tick := rfl
@[simp] theorem dropRemote_focus (s : State) (rid : Nat) : (dropRemote s rid).focus = s.focus := rfl
@[simp] theorem dropRemote_swapped (s : State) (rid : Nat) : (dropRemote s rid).swapped = s.swapped := rfl

end Sys2Proof.Machine
end

