-- ==== Sys2Proof/Tests/Slice0.lean ====
section
/-! SUPPORT. Tests of one step or one operation each: words that the loader refuses, words written out from the manual's encodings, and for
every statement states and operands that meet its hypotheses. -/

namespace Sys2Proof.Tests

open Sys2Proof Sys2Proof.Machine Sys2Proof.Safety

set_option Elab.async false

/-! ## Ill-formed words, one for each check (R49 to R55, R63, R64) -/

/-- A context word of zeros: type S8, every operand from its port. -/
def cw0 : CW := ⟨0, 0, 0, 0, 0, 0, 0, 0, 0, 0, 0, 0, 0, 0, 0⟩

/-- A sequencer word of zeros. -/
def sw0 : SW := ⟨0, 0, 0, 0⟩

theorem test_wf_fn_classes :
    (Instr.div { cw0 with sc := 3, fn := 1 }).wf = false ∧ (Instr.add { cw0 with sc := 3, fn := 2 }).wf = false ∧
    (Instr.cmp { cw0 with sc := 3, fn := 6 }).wf = false ∧ (Instr.frnd { cw0 with ty := 8, sb := 3, sc := 3, fn := 4 }).wf = false ∧
    (Instr.cvt { cw0 with sb := 1, sc := 3, fn := 8 }).wf = false ∧ (Instr.ld { cw0 with sb := 3, fn := 2 }).wf = false ∧
    (Instr.acq { cw0 with sb := 3, fn := 6 }).wf = false ∧ (Instr.tred { cw0 with sb := 1, sc := 3, fn := 6, imm := 1 }).wf = false ∧
    (Instr.union { cw0 with sc := 3, fn := 5 }).wf = false ∧ (Instr.union { cw0 with sc := 3, fn := 8 }).wf = false := by decide

theorem test_wf_type_classes :
    (Instr.add { cw0 with sc := 3, ty := 8 }).wf = false ∧ (Instr.neg { cw0 with sb := 3, sc := 3, ty := 4 }).wf = false ∧
    (Instr.cnt { cw0 with sb := 3, sc := 3, ty := 3 }).wf = false ∧ (Instr.union { cw0 with sc := 3, ty := 10 }).wf = false ∧
    (Instr.frnd { cw0 with sb := 3, sc := 3, ty := 10 }).wf = false ∧ (Instr.fadd { cw0 with sc := 3, ty := 7 }).wf = false ∧
    (Instr.lane { cw0 with sc := 3, ty := 9 }).wf = false ∧ (Instr.front { cw0 with sb := 3, sc := 3, ty := 1 }).wf = false ∧
    (Instr.atom { cw0 with ty := 4 }).wf = false ∧ (Instr.frcp { cw0 with sb := 3, sc := 3, ty := 9 }).wf = false := by decide

theorem test_wf_time_actions_and_policy :
    (Instr.add { cw0 with sc := 3, xt := 3 }).wf = false ∧ (Instr.add { cw0 with sc := 3, yt := 3 }).wf = false ∧
    (Instr.div { cw0 with sc := 3, np := 2 }).wf = false := by decide

theorem test_wf_operands :
    (Instr.add { cw0 with sc := 0 }).wf = false ∧ (Instr.add { cw0 with sc := 3, sb := 3 }).wf = false ∧
    (Instr.tred { cw0 with sc := 3, sb := 0, imm := 1 }).wf = false ∧ (Instr.tred { cw0 with sc := 3, sb := 1, imm := 0 }).wf = false ∧
    (Instr.fcvt { cw0 with ty := 8, sb := 1, sc := 3, imm := 16 }).wf = false ∧
    (Instr.add { cw0 with sc := 3, sa := 1, sb := 1 }).wf = false ∧ (Instr.add { cw0 with sc := 3, imm := 1 }).wf = false ∧
    (Instr.fadd { cw0 with ty := 10, sb := 1, sc := 3 }).wf = false ∧
    (Instr.src { cw0 with ty := 7, sa := 3, sb := 3, sc := 3, imm := 256 }).wf = false ∧
    (Instr.probe { cw0 with sb := 3, sc := 3, imm := 64 }).wf = false := by decide

theorem test_wf_forbidden_fields :
    (Instr.steer { cw0 with sb := 3, sc := 3, pm := 1 }).wf = false ∧
    (Instr.src { cw0 with ty := 7, sa := 3, sb := 3, sc := 3, hd := 1 }).wf = false ∧
    (Instr.tred { cw0 with sb := 1, sc := 3, imm := 1, dm := 1 }).wf = false ∧ (Instr.all { cw0 with sb := 1, sc := 3, imm := 1, np := 1 }).wf = false ∧
    (Instr.dset { cw0 with sc := 3, dm := 1 }).wf = false ∧ (Instr.enter { cw0 with sc := 3, xt := 1 }).wf = false ∧
    (Instr.feed { cw0 with sb := 3, sc := 3, xt := 2 }).wf = false ∧ (Instr.leave { cw0 with sb := 3, sc := 3, xt := 1 }).wf = false ∧
    (Instr.tset { cw0 with sc := 3, hd := 1 }).wf = false ∧ (Instr.capa { cw0 with sb := 3, sc := 3, pm := 1 }).wf = false ∧
    (Instr.happ { cw0 with sc := 3, sb := 1 }).wf = false ∧ (Instr.mload { cw0 with xt := 1 }).wf = false ∧
    (Instr.cpy { cw0 with sb := 3, yt := 1 }).wf = false := by decide

theorem test_wf_sequencer_fields :
    (Instr.sbr { sw0 with d := 1 }).wf = false ∧ (Instr.sbr { sw0 with a := 1 }).wf = false ∧ (Instr.sret { sw0 with b := 1 }).wf = false ∧
    (Instr.sret { sw0 with imm := 1 }).wf = false ∧ (Instr.sadd { sw0 with imm := 1 }).wf = false ∧
    (Instr.sadd { sw0 with b := 1, imm := 0x80000000000 }).wf = false ∧ (Instr.arms { sw0 with imm := 256 }).wf = false ∧
    (Instr.sflags { sw0 with imm := 1 }).wf = false ∧ (Instr.sflagsAll { sw0 with imm := 2 }).wf = false := by decide

/-- Every event is well formed as it stands. -/
theorem test_wf_event : (Instr.meshHop 3 true).wf = true ∧ (Instr.pfree 9).isEvent = true := by decide

/-! ## Words written out from R48 and R64, one or more for each family -/

/-- SUB.SAT S64 A, immediate -1; MAD Z32 under @P to contexts 7 and 6, DM 01. -/
theorem test_decode_integer :
    decodeCtx 0x0113_0001_C0FF_FFFF#64 = .ok (.sub { cw0 with fn := 1, ty := 3, sb := 1, sc := 3, imm := 16777215 }) ∧
    decodeCtx 0x0406_7E00_0400_0000#64 = .ok (.mad { cw0 with ty := 6, pm := 1, xc := 7, yc := 6, dm := 1 }) := ⟨rfl, rfl⟩

/-- FMS.2 on the widest type, NP 11; FCVT.SAT F32 from BF16; VINS into the hold register. -/
theorem test_decode_float :
    decodeCtx 0x342F_0000_3000_0000#64 = .ok (.fms { cw0 with fn := 2, ty := 15, np := 3 }) ∧
    decodeCtx 0x4048_0001_C000_000B#64 = .ok (.fcvt { cw0 with fn := 4, ty := 8, sb := 1, sc := 3, imm := 11 }) ∧
    decodeCtx 0x430C_0008_0000_0000#64 = .ok (.vins { cw0 with ty := 12, sa := 2 }) := ⟨rfl, rfl, rfl⟩

/-- STEER F64, X a round on, Y back to round 0; SRC Z64 of section 255; TRED.OR S32 over 16. -/
theorem test_decode_flow :
    decodeCtx 0x5009_0063_C000_0000#64 = .ok (.steer { cw0 with ty := 9, sb := 3, sc := 3, xt := 1, yt := 2 }) ∧
    decodeCtx 0x5907_000F_C000_00FF#64 = .ok (.src { cw0 with ty := 7, sa := 3, sb := 3, sc := 3, imm := 255 }) ∧
    decodeCtx 0x5B42_0001_C000_0010#64 = .ok (.tred { cw0 with fn := 4, ty := 2, sb := 1, sc := 3, imm := 16 }) := ⟨rfl, rfl, rfl⟩

/-- UNION.ADD.DZ Z16; CONSOL F32. -/
theorem test_decode_stream :
    decodeCtx 0x6095_0000_C000_0000#64 = .ok (.union { cw0 with fn := 9, ty := 5, sc := 3 }) ∧
    decodeCtx 0x6408_0003_C000_0000#64 = .ok (.consol { cw0 with ty := 8, sb := 3, sc := 3 }) := ⟨rfl, rfl⟩

/-- FEED Z64; PROBE of stage 63. -/
theorem test_decode_time :
    decodeCtx 0x7107_0043_C000_0000#64 = .ok (.feed { cw0 with ty := 7, xt := 1, sb := 3, sc := 3 }) ∧
    decodeCtx 0x7500_0003_C000_003F#64 = .ok (.probe { cw0 with ty := 0, sb := 3, sc := 3, imm := 63 }) := ⟨rfl, rfl⟩

/-- HRED.COUNT Z64. -/
theorem test_decode_history :
    decodeCtx 0x8317_0000_C000_0000#64 = .ok (.hred { cw0 with fn := 1, ty := 7, sc := 3 }) := rfl

/-- LD.AON Z8, A kept in the hold register; ATOM.XCHG S64. -/
theorem test_decode_memory :
    decodeCtx 0x9014_0003_0200_0000#64 = .ok (.ld { cw0 with fn := 1, ty := 4, sb := 3, hd := 1 }) ∧
    decodeCtx 0x9A73_0000_0000_0000#64 = .ok (.atom { cw0 with fn := 7, ty := 3 }) := ⟨rfl, rfl⟩

/-- NEXTF. -/
theorem test_decode_presence :
    decodeCtx 0x9900_0003_0000_0000#64 = .ok (.nextf { cw0 with sb := 3 }) := rfl

/-- PWAIT F32; PHSIG, scope code 4; ACQ, scope code 5; SHARE. -/
theorem test_decode_objects :
    decodeCtx 0xB308_0003_0000_0000#64 = .ok (.pwait { cw0 with ty := 8, sb := 3 }) ∧
    decodeCtx 0xBB40_0003_0000_0000#64 = .ok (.phsig { cw0 with fn := 4, sb := 3 }) ∧
    decodeCtx 0x9E50_0003_0000_0000#64 = .ok (.acq { cw0 with fn := 5, sb := 3 }) ∧
    decodeCtx 0x9D00_0000_0000_0000#64 = .ok (.share cw0) := ⟨rfl, rfl, rfl, rfl⟩

/-- CPY.BPX. -/
theorem test_decode_streamer :
    decodeCtx 0xD030_0003_0000_0000#64 = .ok (.cpy { cw0 with fn := 3, sb := 3 }) := rfl

/-- MLOAD.M24. -/
theorem test_decode_matrix :
    decodeCtx 0xC010_0000_0000_0000#64 = .ok (.mload { cw0 with fn := 1 }) := rfl

/-- SLD S1, S0, #0 (R65's example); SADD S2, S3, #-1; SBLT S4, S5 to word 9; ARMS S6 of section 255. -/
theorem test_decode_sequencer :
    decodeSeq false 0x1010_0000_0000_0000#64 = .ok (.sld { sw0 with d := 1 }) ∧
    decodeSeq false 0x0223_0FFF_FFFF_FFFF#64 = .ok (.sadd { sw0 with d := 2, a := 3, imm := 0xFFFFFFFFFFF }) ∧
    decodeSeq false 0x1B04_5000_0000_0009#64 = .ok (.sblt { sw0 with a := 4, b := 5, imm := 9 }) ∧
    decodeSeq false 0x2160_0000_0000_00FF#64 = .ok (.arms { sw0 with d := 6, imm := 255 }) := ⟨rfl, rfl, rfl, rfl⟩

/-- SFLAGS and SFLAGS_ALL, FABORT of a record and of a launch; a supervisor word in a user graph; the unassigned SOP 0xFF. -/
theorem test_decode_supervisor :
    decodeSeq false 0x2870_0000_0000_0000#64 = .ok (.sflags { sw0 with d := 7 }) ∧
    decodeSeq false 0x2870_0000_0000_0001#64 = .ok (.sflagsAll { sw0 with d := 7, imm := 1 }) ∧
    decodeSeq true 0xE312_3000_0000_0000#64 = .ok (.fabortRecord { sw0 with d := 1, a := 2, b := 3 }) ∧
    decodeSeq true 0xE312_3000_0000_0001#64 = .ok (.fabortLaunch { sw0 with d := 1, a := 2, b := 3, imm := 1 }) ∧
    decodeSeq true 0xE940_0000_0000_0600#64 = .ok (.mappin { sw0 with d := 4, imm := 0x600 }) ∧
    decodeSeq false 0xE940_0000_0000_0600#64 = .error .priv ∧
    decodeSeq true 0xFF00_0000_0000_0000#64 = .error .cfgOpcode := ⟨rfl, rfl, rfl, rfl, rfl, rfl, rfl⟩

/-- The host's numbering of a row's bits: the word as it stands. -/
theorem test_decode_table_word : decodeTableWord 64 0x000200 = none ∧
    decodeTableWord 64 0x00020000C0000000 = some (.add { cw0 with ty := 2, sc := 3 }) := ⟨rfl, rfl⟩

/-- The eight bytes of a word lie low byte first (R2). -/
theorem test_word_bytes : decodeCtxBytes [0, 0, 0, 0xC0, 0, 0, 0x02, 0x00, 7] = .ok (.add { cw0 with ty := 2, sc := 3 }, [7]) := rfl

/-! ## States and operands that meet the statements' hypotheses: words and steps -/

/-- A set of some tokens on A, B and C of time (0,0). -/
def abc (a b c : Option Token) : OpSet := ⟨⟨0, t00, 0⟩, a, b, c, none, 0, []⟩

/-- A unit token, an END and a NUL of time (0,0). -/
def num (v : W64) : Option Token := some (demoTok v)
def endT : Option Token := some { demoTok 0 with dif := 0, fin := true }
def nulT : Option Token := some { demoTok 0 with dif := 0, nul := true }

/-- An element that is about to issue an instruction on a set: the word in slot 0 of C(0,0), field 0, of a running launch. -/
def onSet (i : Instr) (o : OpSet) : State :=
  let s := { placeCtx State.reset ((encode i).getD 0) with focus := .slot demoSlot }
  { s with x := { s.x with iq := [((demoSlot.core, 0), [⟨o, false, false, 0⟩])] } }

/-- The firing of that set. -/
def fires (i : Instr) (o : OpSet) : Firing := ⟨demoSlot, ⟨(encode i).getD 0, 0, 1, 0⟩, o, false, 0⟩

/-- ADD S8, an element word with no B or C, and an output circuit of depth 8 from X to A of element 1. -/
def wAdd : CW := { cw0 with sc := 3 }
def wA : CW := { cw0 with sb := 3, sc := 3 }
def bound (s : State) : State := { s with x := { s.x with routes := [(demoSlot.core, [(0, 0x41003800#32), (1, 0x42000000#32)])] } }

theorem test_meets_DecodeEncodeContext : (Instr.add wAdd).row.isSome = true ∧ (Instr.add wAdd).wf = true ∧
    (Instr.shareRemove cw0).row.isSome = true ∧ (Instr.shareRemove cw0).wf = true := by decide

theorem test_meets_DecodeEncodeSequencer : (Instr.sadd sw0).srow.isSome = true ∧ (Instr.sadd sw0).wf = true ∧
    (Instr.qunbind { sw0 with imm := 15 }).srow.isSome = true ∧ (Instr.qunbind { sw0 with imm := 15 }).wf = true := by decide

theorem test_meets_EncodeDecode : decodeCtx 0x00020000C0000000#64 = .ok (.add { cw0 with ty := 2, sc := 3 }) ∧
    decodeSeq true 0xF300000000000000#64 = .ok (.qunbind sw0) := ⟨rfl, rfl⟩

/-- An unassigned opcode; a word whose opcode is assigned, accepted and refused. -/
theorem test_meets_WordsAreReadAndRefused : ofOpcode 0xFF cw0 = none ∧ ofOpcode 0x45 cw0 = none ∧
    ofOpcode 0x00 wAdd = some (.add wAdd) ∧ (Instr.add wAdd).wf = true ∧ (Instr.add cw0).wf = false := by decide

/-- A slot's word, a graph's word and an event come next. -/
theorem test_meets_StepRunsDecoded :
    (nextHappening (placeCtx State.reset 0x00020000C0000000)).1 = ⟨[], .fire demoSlot⟩ ∧
    (node? (placeCtx State.reset 0x00020000C0000000) demoSlot).isSome = true ∧
    (let p := rest (tickAll (placeSeq State.reset 0x0200000000000000) [])
     clocksRun p = true ∧ pickGraph p 0 = some (some 0) ∧ (curGraph (chooseGraph p 0 (some 0))).isSome = true) ∧
    (let p := rest (tickAll (placeSeq State.reset 0xE000000000000000) [])
     (pickGraph p 0).isSome = true) ∧
    (Instr.meshHop 0 false).isEvent = true ∧ clocksRun State.reset = true ∧ offWafer (.pfree 0) = true := by decide +kernel

/-- A step stops at an element word of an unassigned opcode, at a graph word of SOP 0, and at an agenda that names ADD as an event. -/
theorem test_meets_StepsEnd :
    step (placeCtx State.reset 0xFF00000000000000) = .fault .illegalWord ∧ step (placeSeq State.reset 0) = .fault .illegalWord ∧
    step { State.reset with agenda := [⟨[], .event (.add cw0)⟩] } = .refused .notAnEvent := ⟨rfl, rfl, rfl⟩

theorem test_meets_MemoryStaysCanonical : let s := { placeSeq State.reset 0x2A00000000000000 with mem := [(3, 1)] }
    MemOk s ∧ ∃ t, step s = .next t := ⟨by unfold MemOk; decide +kernel, _, rfl⟩

/-- A module in P2 whose next happening is a hop. -/
theorem test_meets_StoppedClocksStopTheWafer :
    let s := { State.reset with agenda := [⟨[(.mgmt, 5)], .event (.meshHop 0 false)⟩], host := { State.reset.host with pstate := 2 } }
    clocksRun s = false ∧ (nextHappening s).1.act = .event (.meshHop 0 false) ∧ offWafer (.meshHop 0 false) = false ∧
    ∃ t, step s = .next t := ⟨by decide +kernel, by decide +kernel, by decide +kernel, _, rfl⟩

/-! ## Firings -/

theorem test_meets_ElementFrame :
    (Instr.add wAdd).row.isSome = true ∧ (onSet (.add wAdd) (abc (num 1) (num 2) none)).focus = .slot demoSlot ∧
    (∃ t, exec (.add wAdd) (onSet (.add wAdd) (abc (num 1) (num 2) none)) = .next t) ∧ wAdd.tb = 0 ∧
    (let s := onSet (.add wAdd) (abc (num 1) (num 2) none)
     traceSlot { s with supr := [(0, { supr s 0 with trbase := 0x10001 })] } 0 = some 0x10000) :=
  ⟨by decide +kernel, by decide +kernel, ⟨_, rfl⟩, by decide +kernel, by decide +kernel⟩

/-- A frozen region, a context that is not live, and an element that holds a record. -/
theorem test_meets_NothingIssuesThatMayNot : let s := onSet (.add wAdd) (abc (num 1) (num 2) none)
    (node? s demoSlot).isSome = true ∧ isFrozen (freeze s 0 1 false) 0 1 = true ∧ ctxLive { s with ctxs := [] } 0 = false ∧
    holdsRecord (parkSet s demoSlot ⟨0, 0, 1, 0⟩ (abc none none none) Code.xlat 0 (.core demoSlot.core)) demoSlot = true := by decide +kernel

theorem test_meets_FiringEffects : let s := bound (onSet (.add wAdd) (abc (num 1) (num 2) none))
    targets s ⟨demoSlot.core, 0, 4⟩ = [⟨demoSlot.core, 1, 0⟩] ∧ (edgeOf s ⟨demoSlot.core, 0, 4⟩).wait = [] ∧
    targets s ⟨demoSlot.core, 0, 5⟩ = [] ∧
    (let u := { s with x := { s.x with routes := [(demoSlot.core, [(0, 0x41403800#32), (1, 0x42000000#32)])] } }
     targets u ⟨demoSlot.core, 0, 5⟩ ≠ [] ∧ (edgeOf u ⟨demoSlot.core, 0, 5⟩).wait = []) := by decide +kernel

/-- An END, a predicate that does not match, and a NUL under each of the policies 00, 01 and 11. -/
theorem test_meets_JudgedSets :
    drivesBoth 0x00 = true ∧ act wAdd.xt t00 = some t00 ∧
    (let o := abc endT (num 1) none; let s := onSet (.add wAdd) o
     firing s = some (fires (.add wAdd) o) ∧ nodeBreak s (fires (.add wAdd) o) = false ∧ isEnd o.a = true ∧
       roomFor s ⟨demoSlot.core, 0, 4⟩ 1 = true) ∧
    (let w := { wAdd with pm := 1 }; let o := { abc (num 1) (num 1) none with p := num 0 }
     firing (onSet (.add w) o) = some (fires (.add w) o) ∧ pMatches w o.p = false ∧ isEnd o.p = false) ∧
    (∀ np ∈ [0, 1, 3], let w := { wAdd with np := BitVec.ofNat 2 np }; let o := abc nulT (num 1) none
     firing (onSet (.add w) o) = some (fires (.add w) o) ∧ (isNul o.a && !isEnd o.b) = true ∧ pMatches w o.p = true) := by decide +kernel

theorem test_meets_ParkedSets : partOfField (onSet (.add wAdd) (abc none none none)) 0 = some 0 := by decide +kernel

/-- One parked set, and two; sets of one clk, of contexts 2 and 1. -/
theorem test_meets_ReplayReturnsTheSet : let o := abc (num 1) (num 2) none; let n : Node := ⟨0, 0, 1, 0⟩
    let s := parkSet (onSet (.add wAdd) o) demoSlot n o Code.xlat 0 (.core demoSlot.core)
    parkedOf s demoSlot = [⟨o, Code.xlat, 0⟩] ∧ o.a.isSome = true ∧
    (parkedOf (parkSet s demoSlot n o Code.xlat 0 (.core demoSlot.core)) demoSlot).map Parked.rec_ = [0, 1] ∧
    (let x : QSet := ⟨{ o with id := ⟨1, t00, 0⟩ }, false, false, 3⟩; let y : QSet := ⟨{ o with id := ⟨2, t00, 0⟩ }, false, false, 3⟩
     y.clk = x.clk ∧ y.replay = false ∧ x.set.id.k < y.set.id.k) := by decide +kernel

/-! ## Results -/

theorem test_meets_IntegerResults : ∃ f, let o := abc (num 127) (num 1) none; let s := onSet (.add wAdd) o; let fr := fires (.add wAdd) o
    (Instr.add wAdd).wf = true ∧ (∃ r, (Instr.add wAdd).row = some (r, wAdd)) ∧ intRule (.add wAdd) = some (wAdd, f) ∧
    Executes s fr wAdd false (identity 0 0) o t00 t00 ∧ FitsDif (difOut wAdd o) ∧
    (f 127 1 0).1 = 0xFFFFFFFFFFFFFF80 ∧ hasRoom s fr.sl (aluEmit wAdd o t00 t00 (f 127 1 0).1 (f 127 1 0).2) = true :=
  ⟨_, by decide, ⟨_, rfl⟩, rfl, ⟨⟨by decide +kernel, by decide +kernel⟩, by decide +kernel, by decide +kernel, by decide +kernel⟩,
    by unfold FitsDif; decide +kernel, by decide +kernel, by decide +kernel⟩

/-- SEL with C nonzero and zero, and MOV. -/
theorem test_meets_SelectAndMove :
    (∀ c ∈ [0#64, 1#64], let o := abc (num 7) (num 9) (num c); let s := onSet (.sel cw0) o; let fr := fires (.sel cw0) o
      Executes s fr cw0 false (identity 0x18 0) o t00 t00 ∧ FitsDif (difOut cw0 o) ∧ valC cw0 fr = c ∧ roomFor s ⟨demoSlot.core, 0, 4⟩ 1 = true) ∧
    (let o := abc (num 7) none none; let s := onSet (.mov wA) o; let fr := fires (.mov wA) o
      Executes s fr wA false (identity 0x1A 0) o t00 t00 ∧ FitsDif (difOut wA o) ∧ hasRoom s fr.sl (aluEmit wA o t00 t00 7 0) = true) :=
  ⟨fun c h => by
      simp only [List.mem_cons, List.not_mem_nil, or_false] at h
      rcases h with rfl | rfl <;>
        exact ⟨⟨⟨by decide +kernel, by decide +kernel⟩, by decide +kernel, by decide +kernel, by decide +kernel⟩,
          by unfold FitsDif; decide +kernel, by decide +kernel, by decide +kernel⟩,
    ⟨⟨by decide +kernel, by decide +kernel⟩, by decide +kernel, by decide +kernel, by decide +kernel⟩,
    by unfold FitsDif; decide +kernel, by decide +kernel⟩

/-- FADD F32 of 1.0 and 2.0, which puts out 3.0 with no flag. -/
theorem test_meets_FloatResults : ∃ law, let w := { wAdd with ty := 8 }; let o := abc (num 0x3F800000) (num 0x40000000) none
    let s := onSet (.fadd w) o; let fr := fires (.fadd w) o; let e := aluEmit w o t00 t00 0x40400000 0
    (Instr.fadd w).wf = true ∧ (∃ r, (Instr.fadd w).row = some (r, w)) ∧ floatRule (.fadd w) = some (w, law) ∧
    Executes s fr w false (identity 0x30 8) o t00 t00 ∧ FitsDif (difOut w o) ∧ hasRoom s fr.sl e = true ∧
    (match exec (.fadd w) s with
      | .next t => edgeOf t ⟨demoSlot.core, 0, 4⟩ == edgeOf (fired s w { fr with set := o } e) ⟨demoSlot.core, 0, 4⟩
      | _ => false) = true :=
  ⟨_, by decide +kernel, ⟨_, rfl⟩, rfl, ⟨⟨by decide +kernel, by decide +kernel⟩, by decide +kernel, by decide +kernel, by decide +kernel⟩,
    by unfold FitsDif; decide +kernel, by decide +kernel, by decide +kernel⟩

/-- The largest finite F32, the least subnormal E5M2 and -0 are numbers of their formats. -/
theorem test_meets_RoundingIsExactOnTheFormat : F32 ∈ [F64, F32, F16, B16, E5M2, E4M3, E2M1] ∧
    fdec F32 0x7F7FFFFF = .num false 0xFFFFFF 104 ∧ fdec E5M2 0x01 = .num false 1 (-16) ∧ fdec F64 0x8000000000000000 = .num true 0 (-1074) := by
  decide +kernel

/-- DUP, and a CONST that has no operand port. -/
theorem test_meets_FlowResults :
    (let o := abc (num 5) none none; let s := onSet (.dup wA) o; let fr := fires (.dup wA) o
     Executes s fr wA false (identity 0x52 0) o t00 t00 ∧ (flowRule (.dup wA) fr t00 t00).map (fun q => (q.1, q.2.1)) = some (wA, 1) ∧
     FitsDif 1 ∧ roomFor s ⟨demoSlot.core, 0, 4⟩ 1 = true) ∧
    (let w := { cw0 with sa := 2, sb := 1, sc := 3, imm := 9 }
     (flowRule (.const w) (fires (.const w) (abc none none none)) t00 t00).map (fun q => q.2.1) = some 1) :=
  ⟨⟨⟨⟨by decide +kernel, by decide +kernel⟩, by decide +kernel, by decide +kernel, by decide +kernel⟩, by decide +kernel,
    by unfold FitsDif; decide +kernel, by decide +kernel⟩, by decide +kernel⟩

/-- STEER on P = 1, P = 0, a NUL on P and an END on A. -/
theorem test_meets_SteerAndGate : ∀ q ∈ [(num 4, num 1, wA), (num 4, num 0, wA), (num 4, nulT, wA), (endT, num 1, wA), (none, num 1, { wA with sa := 2 })],
    let o := { abc q.1 none none with p := q.2.1 }; let s := onSet (.steer q.2.2) o; let fr := fires (.steer q.2.2) o
    firing s = some fr ∧ nodeBreak s fr = false ∧ o.p.isSome = true ∧ act q.2.2.yt t00 = some t00 ∧
    (-(2 ^ 31 : Int) ≤ difOut q.2.2 o ∧ difOut q.2.2 o < (2 ^ 31 : Int)) ∧ roomFor s ⟨demoSlot.core, 0, 5⟩ 1 = true := by decide +kernel

/-- A source of section 3 in an arming of 2, before its first and its last number. -/
theorem test_meets_SourcesEmit : ∀ k ∈ [0, 1], let w := { cw0 with ty := 7, sa := 3, sb := 3, sc := 3, imm := 3 }
    let s0 := onSet (.src w) (abc none none none)
    let s := modLaunch s0 1 fun l => { l with secs := [(3, ⟨0, [demoSlot], [demoSlot], 1, 0, some 2, [(demoSlot, k)]⟩)] }
    let fr : Firing := ⟨demoSlot, ⟨(encode (.src w)).getD 0, 0, 1, 0⟩, abc none none none, false, 0⟩
    bareFiring s ⟨0, t00, 0⟩ = some fr ∧ bareBreak s { fr with set := { fr.set with id := ⟨0, t00, BitVec.ofNat 24 k⟩ } } = false ∧
    (sectOf s 1 3).bind Sect.cur = some 2 ∧ running s 1 = true ∧ roomFor s ⟨demoSlot.core, 0, 4⟩ 1 = true := by decide +kernel

/-! ## Streams -/

/-- CNT of a new and of a known identity; SCAN; CONSOL with no run, with an equal record and with another. -/
theorem test_meets_StreamRecords :
    (let o := abc (num 5) none none; let s := onSet (.cnt { wA with ty := 7 }) o; let fr := fires (.cnt { wA with ty := 7 }) o
     firing s = some fr ∧ nodeBreak s fr = false ∧ (isEnd o.a || isEnd o.p || isNul o.a) = false ∧ pMatches wA o.p = true ∧
     ((openState s fr.sl o.id).map fun q => (q.1, q.2.1)) = some (RunSt.start, true) ∧ RunSt.start.run = none ∧
     (let t := { s with x := { s.x with mstore := [(demoSlot.core, [⟨0, o.id, .state ⟨1, 1, num 5, 0, 0, false⟩, none, none, none, none, .way, 0, none, []⟩])] } }
      ((openState t fr.sl o.id).map fun q => (q.1.run, q.2.1)) = some (num 5, false))) ∧
    roomFor (onSet (.scan { wA with ty := 7 }) (abc (num 5) none none)) ⟨demoSlot.core, 0, 4⟩ 1 = true := by decide +kernel

/-- An END with a state entry that holds a run, and one that begins its stream. -/
theorem test_meets_StreamEnds : let o := abc endT none none; let s0 := onSet (.consol wA) o; let fr := fires (.consol wA) o
    let s := { s0 with x := { s0.x with mstore := [(demoSlot.core, [⟨0, o.id, .state ⟨1, 1, num 5, 0, 0, false⟩, none, none, none, none, .way, 0, none, []⟩])] } }
    firing s = some fr ∧ nodeBreak s fr = false ∧ isEnd o.a = true ∧ stateEntry s demoSlot.core 0 o.id = some ⟨1, 1, num 5, 0, 0, false⟩ ∧
    firing s0 = some fr ∧ nodeBreak s0 fr = false ∧ stateEntry s0 demoSlot.core 0 o.id = none ∧ roomFor s0 ⟨demoSlot.core, 0, 4⟩ 2 = true ∧
    roomFor s ⟨demoSlot.core, 0, 4⟩ 2 = true := by decide +kernel

/-- TRED over 2 with a value, a NUL and an END: at SEQ 0, at its last SEQ 1, at SEQ 0 again, and at SEQ 2; SEQ 1 before SEQ 0, which waits; a
predicate that does not match. -/
theorem test_meets_FoldsAndGathers : let w := { wA with ty := 2, sb := 1, imm := 2 }; let out : EdgeId := ⟨demoSlot.core, 0, 4⟩
    (∀ a ∈ [num 5, nulT, endT], ∀ k ∈ [0, 1, 2], let o := { abc a none none with id := ⟨0, t00, BitVec.ofNat 24 k⟩ }
      let s0 := onSet (.tred w) o; let fr := fires (.tred w) o
      let s := { s0 with x := { s0.x with mstore := [(demoSlot.core, [⟨0, ⟨0, t00, 0⟩, .state ⟨0, 0, none, 1, 5, true⟩, none, none, none, none, .way, 0, none, []⟩])] } }
      firing s0 = some fr ∧ firing s = some fr ∧ nodeBreak s0 fr = false ∧ nodeBreak s fr = false ∧ pMatches w o.p = true ∧
      stateEntry s0 demoSlot.core 0 ⟨0, t00, 0⟩ = none ∧ (stateEntry s demoSlot.core 0 ⟨0, t00, 0⟩).map RunSt.next = some 1 ∧
      ((openState s0 fr.sl ⟨0, t00, 0⟩).map fun q => (q.1.next, q.2.1)) = some (0, true) ∧
      ((openState s fr.sl ⟨0, t00, 0⟩).map fun q => (q.1.next, q.2.1)) = some (1, false) ∧ roomFor s out 1 = true ∧
      (allocEntry s0 demoSlot.core 0 o.id .operands o.a none none o.p).isSome = true) ∧
    (let w := { w with pm := 1 }; let o := { abc (num 5) none none with p := num 0 }; let s := onSet (.tred w) o; let fr := fires (.tred w) o
     firing s = some fr ∧ nodeBreak s fr = false ∧ isEnd o.a = false ∧ pMatches w o.p = false ∧ roomFor s out 1 = true) := by decide +kernel

/-- Heads with A's key smaller, greater and equal, one END on either side, two ENDs, and a NUL on either side; without a predicate, under one that
matches, under one that does not, and under one that has not come. -/
theorem test_meets_SortedWalks : let key (k : W32) : Token := { demoTok 0 with key := k, kv := true }
    let fin : Token := { key 0 with fin := true, dif := 0 }; let nul : Token := { key 1 with nul := true }
    ∀ q ∈ [(key 1, key 2), (key 2, key 1), (key 3, key 3), (fin, key 1), (key 1, fin), (fin, fin), (nul, key 2), (key 2, nul)],
    ∀ hp ∈ [none, num 1, num 0],
    ∀ pm ∈ [0, 1], let w := { wAdd with ty := 7, pm := pm }
    let s0 := onSet (.union w) (abc none none none); let v : WalkSt := ⟨some ⟨0, t00, 0⟩, some q.1, some q.2, hp, false⟩
    let s := { s0 with x := { s0.x with walks := [(demoSlot, v)] } }
    (bareFiring s ⟨0, t00, 0⟩).any (fun fr => !bareBreak s fr && walkOf s fr.sl == v) = true ∧ parkedOf s demoSlot = [] ∧
    pMatches w hp = (pm == 0 || hp == num 1) ∧ roomFor s ⟨demoSlot.core, 0, 4⟩ 2 = true := by decide +kernel

/-! ## Time -/

/-- ENTER with a token on A, on B, and a NUL on B; FEED of a NUL; TIMEV. -/
theorem test_meets_LoopTimes :
    (∀ q ∈ [(num 1, none), (none, num 1), (none, nulT)], let o : OpSet := abc q.1 q.2 none; let s := onSet (.enter wAdd) o
      firing s = some (fires (.enter wAdd) o) ∧ nodeBreak s (fires (.enter wAdd) o) = false ∧ roomFor s ⟨demoSlot.core, 0, 4⟩ 1 = true) ∧
    (let w := { wA with xt := 1 }; let o := abc nulT none none
      firing (onSet (.feed w) o) = some (fires (.feed w) o) ∧ act w.xt t00 = some ⟨0, 1⟩ ∧ act w.xt ⟨0, 0xFFFFFFFF⟩ = none) ∧
    (let o := abc (num 1) none none; let s := onSet (.timev wA) o
      firing s = some (fires (.timev wA) o) ∧ nodeBreak s (fires (.timev wA) o) = false ∧ judge wA false (fun _ => 0) o = .go o) := by decide +kernel

/-- A capability at round 2 for a TSET to round 2, to round 1, and without one. -/
theorem test_meets_TimesAreSet : ∀ n ∈ [2, 1], let v : W64 := BitVec.ofNat 64 n; let o := abc (num 9) (num v) none; let s0 := onSet (.tset wAdd) o; let fr := fires (.tset wAdd) o
    let s := modLaunch s0 1 fun l => { l with caps := [(0, ⟨0, 2⟩)] }
    firing s = some fr ∧ nodeBreak s fr = false ∧ (isNul o.b || isEnd o.b) = false ∧ capOf s 1 0 = some ⟨0, 2⟩ ∧ capOf s0 1 0 = none ∧
    tle ⟨0, 2⟩ ⟨v.extractLsb' 32 32, v.extractLsb' 0 32⟩ = (n == 2) ∧ roomFor s ⟨demoSlot.core, 0, 4⟩ 1 = true := by decide +kernel

theorem test_meets_CapabilitiesChange : ∀ n ∈ [2, 1], let o := abc (num (BitVec.ofNat 64 n)) none none; let s0 := onSet (.capa wA) o; let fr := fires (.capa wA) o
    let s := modLaunch s0 1 fun l => { l with caps := [(0, ⟨0, 2⟩)] }
    firing s = some fr ∧ nodeBreak s fr = false ∧ (isEnd o.a || isNul o.a) = false ∧ capOf s 1 0 = some ⟨0, 2⟩ ∧
    firing (modLaunch (onSet (.capd wA) o) 1 fun l => { l with caps := [(0, ⟨0, 2⟩)] }) = some (fires (.capd wA) o) ∧
    roomFor s ⟨demoSlot.core, 0, 4⟩ 1 = true ∧
    (let o := abc nulT none none; firing (onSet (.capa wA) o) = some (fires (.capa wA) o) ∧ (isEnd o.a || isNul o.a) = true) := by decide +kernel

/-- A PROBE whose stage's frontier is empty, and one at (0,0) for a token of (0,0). -/
theorem test_meets_ProbesAndQueries : let o := abc (num 1) none none; let s := onSet (.probe wA) o; let fr := fires (.probe wA) o
    firing s = some fr ∧ nodeBreak s fr = false ∧ heldToks s demoSlot t00 = [] ∧ probePassed s wA fr t00 = true ∧ mstoreOf s demoSlot.core = [] ∧
    roomFor s ⟨demoSlot.core, 0, 4⟩ 1 = true ∧
    (let u := { s with x := { s.x with frn := [(demoSlot, ⟨[t00], false⟩)] } }
     probePassed u wA fr t00 = false ∧ (holdTok u demoSlot o.id (demoTok 1)).isSome = true ∧
     (holdTok u demoSlot o.id (demoTok 1)).any (fun v => heldToks v demoSlot t00 != [] && (holdTok v demoSlot o.id (demoTok 2)).isSome) = true) ∧
    (firing (onSet (.front wA) o) = some (fires (.front wA) o) ∧ judge wA false (fun _ => 0) o = .go o) := by decide +kernel

/-! ## Requests -/

/-- A machine whose context 0 has page tables (R412): its first 16 GiB stand for the first 16 GiB of HBM, the next for the memory cores
C(7,0) to C(7,15) of field 0, the next for the scratchpads of C(0,0) to C(0,15), and the next for windows of stack 0, none of
which is bound. -/
def paged (s : State) : State :=
  { s with
    mem := [(0, 1), (2, 1), (0x10000, 1), (0x10002, 2), (0x20000, 0xF), (0x20008, 0xF), (0x2000C, 0x38), (0x2000D, 0x80), (0x20010, 0xF),
      (0x20015, 0x40), (0x20018, 0xF), (0x2001D, 0x08)]
    keys := [(0, ⟨[], 1⟩)] }

/-- Its translations, cached at C(0,0). -/
def cached (s : State) : State :=
  { s with tlbs := [(demoSlot.core, [⟨0, 0, 34, 0xF⟩, ⟨0, 2 ^ 34, 34, 0x80380000000F⟩, ⟨0, 2 ^ 35, 34, 0x40000000000F⟩])] }

theorem test_paged_tables : let s := paged (onSet (.ld { wA with sc := 0 }) (abc (num 0) none none))
    (translate s 0 0x12345678 (true, true)).toOption = some (0x12345678, false) ∧
    (translate s 0 (2 ^ 34 + 64) (true, true)).toOption = some (sramPA 0 ⟨0, 7, 0⟩ 64, false) ∧
    (translate s 0 (2 ^ 35 + 2048) (true, true)).toOption = some (spadPA 0 ⟨0, 0, 0⟩ 2048, false) ∧
    (translate s 0 (3 * 2 ^ 34) (true, true)).toOption = none ∧ Memory.wf s.mem = true := by decide +kernel

/-- What the port makes of an instruction's set, with its room and its tokens: the hypotheses of the two statements about requests. -/
def asks (s : State) (i : Instr) (op : Op) (w : CW) (o : OpSet) : Bool :=
  let fr := fires i o
  firing s == some fr && !nodeBreak s fr && portRoom s demoSlot op && (ansToks (mkReq s op w fr) ⟨0, false, 0, none, none, none, 0⟩).toOption.isSome
    && (releaseWaits s (mkReq s op w fr)).isEmpty

theorem test_meets_RequestsAreSent :
    (let w := { wA with sc := 0, ty := 7 }; let o := abc (num 0x100000) none none; let s := cached (onSet (.ld w) o)
     asks s (.ld w) .ld w o = true ∧ judge w true (fun _ => 0) o = .go o ∧ portOp (.ld w) = some (.ld, w) ∧
     resolve s (mkReq s .ld w (fires (.ld w) o)) = .go { mkReq s .ld w (fires (.ld w) o) with pa := 0x100000 }) ∧
    (let o := abc (num (2 ^ 34)) (num 4) none; let s := cached (onSet (.hnew wAdd) o)
     asks s (.hnew wAdd) .hnew wAdd o = true ∧ histOp (.hnew wAdd) = some (.hnew, wAdd) ∧ (isNul o.a || isEnd o.a) = false ∧
     resolve s (mkReq s .hnew wAdd (fires (.hnew wAdd) o)) =
       .go { mkReq s .hnew wAdd (fires (.hnew wAdd) o) with pa := sramPA 0 ⟨0, 7, 0⟩ 0 }) ∧
    (let w := { wA with sc := 0 }; let o := abc (num (2 ^ 35)) none none; let s := cached (onSet (.tagr w) o)
     asks s (.tagr w) .tagr w o = true ∧ resolve s (mkReq s .tagr w (fires (.tagr w) o)) =
       .go { mkReq s .tagr w (fires (.tagr w) o) with pa := spadPA 0 ⟨0, 0, 0⟩ 0 }) := by decide +kernel

/-- An address of 2^56, one below it that 8 does not divide, and a page without the right to read. -/
theorem test_meets_PortsRefuse : let w := { wA with sc := 0, ty := 7 }
    (∀ q ∈ [(2 ^ 56, Code.xlat), (2 ^ 56 - 1, Code.align)], let o := abc (num (BitVec.ofNat 64 q.1)) none none; let s := cached (onSet (.ld w) o)
     asks s (.ld w) .ld w o = true ∧ judge w true (fun _ => 0) o = .go o ∧ noAddr .ld = false ∧ opWidth .ld 7 = 8 ∧
     resolve s (mkReq s .ld w (fires (.ld w) o)) = .bad q.2 ∧ catchFor s 1 demoSlot q.2 = none) ∧
    (let o := abc (num 8) none none; let s := { onSet (.ld w) o with tlbs := [(demoSlot.core, [⟨0, 0, 16, 0x9⟩])] }
     resolve s (mkReq s .ld w (fires (.ld w) o)) = .bad Code.prot ∧ catchFor s 1 demoSlot Code.prot = none) := by decide +kernel

/-- SHARE of a new region, of a listed one, with a full table, with a length of 0, with no KEY, and off its bounds. -/
theorem test_meets_SharesAreBound :
    ∀ q ∈ [(64, 128, true, 0), (64, 128, true, 1), (64, 128, true, 16), (64, 0, true, 1), (64, 128, false, 0), (65, 128, true, 0)],
    let o := abc (some { demoTok (BitVec.ofNat 64 q.1) with key := BitVec.ofNat 32 q.2.1, kv := q.2.2.1 }) (num 0x400) none
    let s0 := onSet (.share cw0) o; let fr := fires (.share cw0) o
    let s := { s0 with shares := [(demoSlot.core, if q.2.2.2 = 1 then [⟨0, 1, 64, 128, 0x400⟩]
      else (List.range q.2.2.2).map fun j => ⟨0, 1, 64 * j, 64, 0x800⟩)] }
    firing s = some fr ∧ nodeBreak s fr = false ∧ judge cw0 true (fun _ => 0) o = .go o ∧
    (-(2 ^ 31 : Int) ≤ difOut cw0 o ∧ difOut cw0 o < (2 ^ 31 : Int)) ∧ kvA cw0 o = q.2.2.1 ∧ (addrA cw0 fr).toNat = q.1 ∧
    (keyA cw0 o).toNat = q.2.1 ∧ (sharesOf s demoSlot.core).length = q.2.2.2 ∧ roomFor s ⟨demoSlot.core, 0, 5⟩ 1 = true := by decide +kernel

/-! ## Kernel graphs -/

/-- A user graph in place 0 of field 0 that issues a word, with some registers. -/
def userGraph (i : Instr) (regs : List W64) : Graph := { demoGraph ((encode i).getD 0) false with regs := regs }
def onUser (i : Instr) (regs : List W64) : State :=
  let s := paged (demoGround State.reset 0 (.word 0))
  { s with focus := .seq 0 (some 0), x := { s.x with graphs := [(0, [userGraph i regs])] } }

/-- The supervisor graph of partition 0 that issues a word. -/
def supGraphOf (i : Instr) (regs : List W64) : Graph := { demoGraph ((encode i).getD 0) true with regs := regs }
def onSup (i : Instr) (regs : List W64) : State :=
  { paged (demoGround State.reset 0 (.word 0)) with focus := .seq 0 none, seqrs := [(0, ⟨some (supGraphOf i regs), 0, 0, 0⟩)] }

theorem test_meets_ScalarWords : ∃ f, scalarRule (.sadd sw0) = some (sw0, f) ∧ f 1 0xFFFFFFFFFFFFFFFF = 0 ∧
    curGraph (onUser (.sadd sw0) [5]) = some (0, userGraph (.sadd sw0) [5]) ∧ curGraph (onSup (.sfadd sw0) [5]) = some (0, supGraphOf (.sfadd sw0) [5]) ∧
    (userGraph (.sfadd sw0) [5]).sup = false := ⟨_, rfl, by decide +kernel, by decide +kernel, by decide +kernel, rfl⟩

/-- A branch taken and not taken, a return within the graph and at its length, and a run of 64 words. -/
theorem test_meets_BranchesAndEnds :
    branchRule (.sbz { sw0 with imm := 7 }) (userGraph (.sbz sw0) [0]) = some 7 ∧ branchRule (.sbz { sw0 with imm := 7 }) (userGraph (.sbz sw0) [1]) = some 1 ∧
    branchRule (.sret sw0) (userGraph (.sret sw0) [0]) = some 0 ∧ branchRule (.sret sw0) (userGraph (.sret sw0) [1]) = none ∧
    (userGraph (.sret sw0) [1]).words.length ≤ ((userGraph (.sret sw0) [1]).reg 0).toNat ∧
    curGraph (onUser (.sret sw0) [1]) = some (0, userGraph (.sret sw0) [1]) ∧
    64 ≤ (seqrOf { onUser (.syield sw0) [] with seqrs := [(0, ⟨none, 0, 0, 64⟩)] } 0).run := by decide +kernel

/-- A user graph that parks, one whose launch aborts, and a misaligned SLD. -/
theorem test_meets_GraphFaults : let s := onUser (.sld sw0) [4]
    curGraph s = some (0, userGraph (.sld sw0) [4]) ∧ partOfField s 0 = some 0 ∧ cfgCode Code.align = false ∧ cfgCode Code.cfgField = true ∧
    (userGraph (.sld sw0) [4]).sup = false ∧ ((userGraph (.sld sw0) [4]).reg 0 + (0 : W64)).toNat % 8 ≠ 0 := by decide +kernel

/-- A packet of a message that has arrived at the router of C(0,0), with a release of the sender's budget behind it. -/
def carried (s : State) (cls : Nat) (m : Msg) : State :=
  { s with net := [⟨9, 9, cls, .link, s.wafno, .core demoSlot.core, s.wafno, coreRouter demoSlot.core, true, true, 0, 0, 1, m⟩] }

/-- A message of a sequencer of wafer 3 that has arrived at the sequencer of field 0, and one of the leading sequencer of that wafer. -/
def toField (s : State) (m : Msg) : State :=
  { s with net := [⟨9, 9, 1, .seqr 0, 3, .seqr 0, s.wafno, unitRouter (.seqr 0), true, true, 0, 0, 1, m⟩] }
def fromPeer (s : State) (m : PeerMsg) : State := toField s (.peer 3 1 m)

/-- An operation in progress on a history of launch 1 that takes the first page of C(7,0). -/
def busyHistory (s : State) : State :=
  let r := { mkReq State.reset .hred wAdd (fires (.hred wAdd) (abc none none none)) with lid := 1 }
  { s with
    launches := s.launches.map fun q => (q.1, { q.2 with objs := [⟨3, ⟨0, 7, 0⟩, 0, 1, 0⟩] })
    x := { s.x with hbusy := [(⟨0, 7, 0⟩, ⟨8, r, 0, [], [], [], 0, 0, 0, t00, false, false⟩)] } }

/-- SLD and SST of a mapped and of an unmapped address; the supervisor's of a register, of memory, and of no address at all. -/
theorem test_meets_GraphsLoadAndStore :
    (let g := userGraph (.sld sw0) [0x100000]; let s := onUser (.sld sw0) [0x100000]
     farWafer s g.ctx 0x100000 (true, false) = none ∧ farNew s (.seqr 0) g.tag none = false ∧ waitingAway s (homeUnit s 0x100000) = [] ∧
     histHolds s g.ctx 0x100000 (true, false) = false ∧ Memory.wf s.mem = true ∧ Memory.wf s.smem = true ∧
     histHolds (busyHistory s) g.ctx (2 ^ 34) (true, false) = true ∧ histHolds (busyHistory s) g.ctx (2 ^ 34) (false, true) = true ∧
     farNew s (.seqr 0) g.tag (some 3) = true ∧
     (seqRead s g 0x100000).toOption.isSome = true ∧ (writeAt s 0 1 0x100000 (leBytes 8 7)).toOption.isSome = true ∧
     (seqRead s g (2 ^ 45)).toOption.isSome = false ∧ (writeAt s 0 1 (2 ^ 45) (leBytes 8 7)).toOption.isSome = false ∧
     keySerial s 0 = some 1 ∧ decodePA s 0x100000 = some (.hbm 0 0x100000) ∧
     (let u := { s with xts := [(0x100000 / 64, 1)] }
      (translate u 0 0x100000 (false, true)).toOption = some (0x100000, false) ∧ paWafer 0x100000 = u.wafno ∧
      keySerial u 0 = some (tgetD u.xts (0x100000 / 64) 0) ∧ (writeAt u 0 1 0x100000 (leBytes 8 7)).toOption.isSome = true)) ∧
    (let s := onSup (.sld sw0) [0x100000]
     curGraph s = some (0, supGraphOf (.sld sw0) [0x100000]) ∧ supAt s 0x100000 = .mem (.hbm 0 0x100000) ∧
     supHolds s 0x100000 = false ∧ supHolds (busyHistory s) (sramPA 0 ⟨0, 7, 0⟩ 8) = true ∧
     (supRead s 0x100000 8 (.hbm 0 0x100000)).toOption.isSome = true ∧ (supPut s 0x100000 (leBytes 8 7) (.hbm 0 0x100000)).toOption.isSome = true ∧
     supAt s (2 ^ 52) = .none_ ∧ supAt s (2 ^ 48) = .away ∧ farNew s (.seqr 0) (supGraphOf (.sld sw0) [0x100000]).tag (some 1) = true ∧ supAt s (3 * 2 ^ 46 + 63 * 2 ^ 40 + 0x100008) = .reg (.link 8)) ∧
    (let s := { onUser (.sld sw0) [0] with focus := .none_ }
     let u := { s with x := { s.x with graphs := [(0, [{ userGraph (.sld sw0) [0] with wait := some .access }])] } }
     mayResume u 0 { userGraph (.sld sw0) [0] with wait := some .access } = true) := by decide +kernel

/-! ## Words that wait, post and call -/

/-- A started stream 4 of launch 1 and context 0, with no request. -/
def aStream (k : SKind) : Stream := ⟨4, none, none, false, 0, 1, k, 0, 0, [], 0, 0, [], [], 0, none, [], 0, true⟩

/-- A user graph about to issue a word, in a launch to which a change is made. -/
def inLaunch (i : Instr) (regs : List W64) (h : Launch → Launch) : State :=
  let s := onUser i regs
  { s with launches := s.launches.map fun q => (q.1, h q.2) }

/-- ARMS while an arming runs, and after it with 5 and with 0; a section that is not there; WAITS while an arming runs and at rest. -/
theorem test_meets_WordsThatWait_armings :
    (∀ q ∈ [(0, 5), (1, 5), (1, 0), (1, 2 ^ 24 - 1), (1, 2 ^ 24)],
      let s := inLaunch (.arms sw0) [BitVec.ofNat 64 q.2] fun l => { l with secs := [(0, ⟨0, [demoSlot], [demoSlot], 1, q.1, none, []⟩)] }
      let g := userGraph (.arms sw0) [BitVec.ofNat 64 q.2]
      curGraph s = some (0, g) ∧ (launch? s g.lid).isSome = true ∧ (g.reg 0).toNat = q.2 ∧ sectIdle s g.lid 0 = (q.1 == 1) ∧
      fieldQuiet ((launch? s g.lid).getD (demoLaunch 0)) 0 = (q.1 == 1)) ∧
    ((launch? (onUser (.arms sw0) []) 1).bind fun l => tget l.secs 1) = none := by decide +kernel

/-- WSTAMP of a word that holds 7, for 7 and for 8; FWAIT at a probe whose frontier is below, at, and above its time, and empty. -/
theorem test_meets_WordsThatWait_levels :
    (∀ v ∈ [7, 8], let s0 := onUser (.wstamp { sw0 with b := 1 }) [0x100000, BitVec.ofNat 64 v]
      let s := { s0 with mem := s0.mem ++ [(0x100000, 7)], xts := [(0x100000 / 64, 1)] }
      paAway s 0x100000 = none ∧ paAway s (2 ^ 48) = some 1 ∧ farNew s (.seqr 0) 0 none = false ∧ farNew s (.seqr 0) 0 (some 1) = true ∧
      translate s 0 0x100000 (true, false) = .ok (0x100000, false) ∧ (pieceRead s 0 1 0x100000 8 false).toOption.map (fun q => leNat q.2) = some 7) ∧
    (∀ q ∈ [(0, 1, true), (1, 1, true), (2, 1, false)],
      let s := inLaunch (.fwait sw0) [BitVec.ofNat 64 (q.2.1 * 2 ^ 32)] fun l =>
        { l with sigma := [((0, 0), .ident)], counts := [⟨0, timeOf (BitVec.ofNat 64 (q.1 * 2 ^ 32)), 1⟩] }
      let u := { s with x := { s.x with nodes := [(demoSlot, ⟨(encode (.probe cw0)).getD 0, 0, 1, 0⟩)] } }
      (node? u demoSlot).map (fun m => opOf m.word) = some 0x75 ∧
      ((launch? u 1).map fun l => (frontierRegs l 0).elems.any fun e => tle e (timeOf ((userGraph (.fwait sw0) [BitVec.ofNat 64 (q.2.1 * 2 ^ 32)]).reg 0)))
        = some q.2.2) := by decide +kernel

/-- RECFG of a binding on a free line, on one whose buffer is full, and of a malformed word. -/
theorem test_meets_WordsThatWait_tables :
    (∀ q ∈ [(0x41003000, true, none), (0x41003800, false, none), (0x41043801, true, some Code.cfgField)],
      let s0 := bound (onUser (.recfg { sw0 with b := 1 }) [0, BitVec.ofNat 64 q.1])
      let full : EdgeSt := ⟨[⟨demoTok 0, [⟨demoSlot.core, 1, 0⟩], []⟩], []⟩
      let x := { s0.x with nodes := [(demoSlot, ⟨(encode (.src cw0)).getD 0, 0, 1, 0⟩),
          (⟨demoSlot.core, 1, 0⟩, ⟨(encode (.add wA)).getD 0, 0, 1, 0⟩)] }
      let s := { s0 with x := { x with edges := if q.2.1 then [] else [(⟨demoSlot.core, 0, 4⟩, full)] } }
      let r := BitVec.ofNat 32 q.1
      linesEmpty s demoSlot.core (linesOf (tgetD (tgetD s.x.routes demoSlot.core []) 0 0) ++ linesOf r) = q.2.1 ∧
      (q.2.1 = true → recfgBad s 1 demoSlot.core r (routesOf (withEntry s demoSlot.core 0 r) demoSlot.core) = q.2.2)) ∧
    (∀ v ∈ [Wait.arms 0 5, .access, .waits 0], let g := { userGraph (.syield sw0) [] with wait := some v }
      let s0 := onUser (.syield sw0) []; let s := { s0 with focus := .none_, x := { s0.x with graphs := [(0, [g])] } }
      mayResume s 0 g = true ∧ (resumeUser { s with focus := .seq 0 (some 0) } 0 g v).isSome = (v == .access)) := by decide +kernel

/-- SQPOST to a ring with room and to a full one, and LAUNCH of a good packet. -/
theorem test_meets_GraphsPostAndLaunch :
    (∀ q ∈ [(0, true), (4, false), (3, true)], let i := Instr.sqpost { sw0 with b := 1 }
      let s0 := onUser i [0x100000, 0x100100]; let g := userGraph i [0x100000, 0x100100]
      let s := { s0 with mem := s0.mem ++ [(0x100102, 0x10), (0x100109, 1)] ++ (if q.1 = 0 then [] else [(0x100110, BitVec.ofNat 8 q.1)]), xts := [(0x100000 / 64, 1), (0x100100 / 64, 1)] }
      curGraph s = some (0, g) ∧ (translate s g.ctx 0x100000 (true, false)).toOption.isSome = true ∧ farWafer s g.ctx 0x100100 (true, true) = none ∧
      farNew s (.seqr 0) g.tag none = false ∧ farNew s (.seqr 0) g.tag (some 3) = true ∧
      ((pieceRead s g.ctx g.lid 0x100110 8 false).toOption.bind fun r =>
        (pieceWrite r.1 g.ctx g.lid 0x100110 (leBytes 8 (leNat r.2 + 1)) false).toOption.bind fun s2 =>
        (readAt s2 g.ctx g.lid 0x100100 64).toOption.map fun z => (farWafer s2 g.ctx 0x100100 (true, true), leAt z.2 8 4 / 64, leAt z.2 24 8))
        = some (none, 4, 0) ∧
      ((postClaim s g 0x100100).toOption.map fun r => (r.2, (tryPost r.1 0 g 0x100000 0x100100 r.2).isSome)) = some (BitVec.ofNat 64 q.1, q.2)) ∧
    (let s0 := onUser (.launch sw0) [0x100000]
     let s := { s0 with mem := s0.mem ++ [(0x100000, 1), (0x100001, 1), (0x10000A, 1)], xts := [(0x100000 / 64, 1)] }
     farWafer s 0 0x100000 (true, false) = none ∧ (readAt s 0 1 0x100000 64).toOption.any (fun r => launchBodyOk r.2 && leAt r.2 0 1 == 1 && leAt r.2 1 1 == 1) = true) ∧
    (let g := { userGraph (.sflagsAll { sw0 with imm := 1 }) [] with wait := some (.flagsAll 0 4 [0, 192] 0) }
     let s0 := onUser (.sflagsAll { sw0 with imm := 1 }) []; let s := { s0 with x := { s0.x with graphs := [(0, [g])] } }
     flagPlaces s0 1 = [0] ∧ s0.dead.getLsbD 0 = false ∧ { s0 with dead := 8 }.dead.getLsbD (192 / 64) = true ∧
     (∀ m ∈ [Msg.flagAsk 1 0 0 0 4, .flagTold 1 0 0 192 4 3], let u := toField s m; (pkt? u 9).any (fun p => arrived u p && p.msg == m) = true) ∧
     ctxLive s 0 = true ∧ (ctxStat s 0).shad = none ∧ s.swapped = none ∧ (graphsOf s 0)[0]? = some g) := by decide +kernel

/-- A service call and its answer, with and without a call that FREC has taken. -/
theorem test_meets_ServiceCalls :
    (let s := onUser (.svc sw0) []; curGraph s = some (0, userGraph (.svc sw0) []) ∧ partOfField s 0 = some 0) ∧
    (∀ k ∈ [true, false], let s := { onSup (.eret sw0) [] with svcs := [⟨4, some 0, k, 0, 1⟩] }
      curGraph s = some (0, supGraphOf (.eret sw0) []) ∧ ((first? (fun v : Svc => v.taken && partOfField s v.f == partOfField s 0) s.svcs).isSome = k)) ∧
    (let g := { userGraph (.svc sw0) [] with wait := some .svc }
     let s0 := onUser (.svc sw0) []; let s := { s0 with x := { s0.x with graphs := [(0, [g])] } }
     (launch? s 1).isSome = true ∧ ctxLive s 0 = true ∧ (ctxStat s 0).shad = none ∧ (graphsOf s 0)[0]? = some g) := by decide +kernel

/-! ## The supervisor -/

/-- Records under index 0 and 1, of which the second is not open: of a parked node, and of nothing that goes on. -/
def withRecord (s : State) (r : FRec) : State := { s with recs := [((0, 0), ⟨r, false⟩), ((0, 1), ⟨r, true⟩)] }

theorem test_meets_RecordsAreTaken :
    (∀ k ∈ [0, 1], let i := Instr.frec sw0; let s0 := onSup i [0x100000]
      let s := { s0 with supr := [(0, { SupR.reset with frbase := 0x200000 })], mem := s0.mem ++ if k = 1 then [(0x200038, 1)] else [] }
      curGraph s = some (0, supGraphOf i [0x100000]) ∧ (supr s 0).slot 0 = 0x200000 ∧
      (homeRead s none ((supr s 0).slot (supr s 0).frrd) 64 false).toOption.map (fun q => (leAt q.2 56 8 == (supr s 0).lap (supr s 0).frrd)) = some (k == 1)) ∧
    (let s0 := onSup (.freplay sw0) []; let r := recBase (.core demoSlot.core) Code.xlat 0 0 0 0 1
     let s := withRecord s0 r; openRec s 0 0 = some r ∧ r.act = .none_ ∧ openRec s 0 1 = none ∧ openRec s 0 2 = none ∧
     (let r := { r with act := .node demoSlot, rid := 5 }
      let u := { withRecord s0 r with x := { s0.x with park := [(demoSlot, [⟨abc none none none, Code.xlat, 5⟩])] } }
      openRec u 0 0 = some r ∧ ctxLive u 0 = true ∧ (ctxStat u 0).shad = none ∧ (parkedOf u demoSlot).any (fun x => x.rec_ == r.rid) = true ∧
      (let u := { u with ctxs := [(0, ⟨0, none, none, none⟩)], saved := [(0, ⟨1, 0, Exec.empty, [], [], [], [], []⟩)] }
       r.again = true ∧ ctxAway u r.ctx = true)) ∧
     liveLaunch s (ownPart s 0) 1 = true ∧ liveLaunch s (ownPart s 0) 2 = false) := by decide +kernel

/-- A supervisor word in a partition whose context operation is at a step, with a shadow, a context loading, and no launch or one. -/
def inCtx (i : Instr) (t : CtxSt) : State := { onSup i [0x300000] with ctxs := [(0, t)] }

theorem test_meets_ContextsAreExchanged :
    (∀ k ∈ [true, false], let s := { inCtx (.quiesce sw0) ⟨0, some 0, none, none⟩ with frozen := if k then [⟨0, 1, true, none, none⟩] else [] }
      curGraph s = some (0, supGraphOf (.quiesce sw0) [0x300000]) ∧ (s.launches.filter fun q => q.2.ctx == 0).map (fun q => heldUp s q.1) = [k]) ∧
    (ctxStat (inCtx (.cswap sw0) ⟨0, some 0, none, none⟩) 0).step = 0 ∧ (ctxStat (inCtx (.cswap sw0) ⟨2, some 0, none, none⟩) 0).step ≠ 0 ∧
    (ctxStat (inCtx (.csave sw0) ⟨0, some 0, none, none⟩) 0).shad = none ∧
    (let s := inCtx (.csave sw0) ⟨0, some 0, some 1, none⟩; (ctxStat s 0).shad = some 1 ∧
      (readBases s 0x300000).toOption.map (fun q => judgeAreas s 0 q.2) = some none) ∧
    (let s := inCtx (.cload { sw0 with imm := 1 }) ⟨0, some 0, none, none⟩; partOfCtx s 1 = some 0 ∧ (readBases s 0x300000).toOption.isSome = true) ∧
    (ctxStat (inCtx (.csave sw0) ⟨1, some 0, some 1, none⟩) 0).step = 1 ∧
    (let t := ctxStat (inCtx (.csave sw0) ⟨3, some 0, some 1, none⟩) 0; t.step = 3 ∧ t.load = none ∧ t.shad = some 1) ∧
    (let s := { inCtx (.cload sw0) ⟨3, some 0, none, some (1, [0])⟩ with saved := [(1, ⟨6, 0, Exec.empty, [], [], [], [0], []⟩)], areas := [⟨0, 6, []⟩] }
     (ctxStat s 0).load = some (1, [0]) ∧ areaWhole s 6 0 = true ∧ (loadedCopy s 0 1 [0]).replays = []) ∧
    (∀ k ∈ [true, false], let m : Msg := .arrival ⟨0, false, 0, 0, 4, 0⟩ (if k then 1 else 0) 1 (2 ^ 35) (spadPA 0 ⟨0, 0, 0⟩ 0) false [7]
      let s := carried (inCtx (.csave sw0) ⟨3, some 0, some 1, none⟩) 3 m; arrivalBound s 1 = k) ∧
    (∀ k ∈ [0, 1, 2], let g := { supGraphOf (.cswap sw0) [0x300000] with wait := some (.ctxop 0) }
      let s := { inCtx (.cswap sw0) ⟨k, some 0, some 1, none⟩ with seqrs := [(0, ⟨some g, 0, 0, 0⟩)] }
      (graphsOf s 0)[9]? = none ∧ (seqrOf s 0).sup = some g ∧ (ctxStat s (ownPart s 0)).step = k) := by decide +kernel

/-- A cached translation and a pinned page; a leaf that is mapped and one refused; a key block, a link key, and a word beyond correction. -/
theorem test_meets_TranslationsAndKeys :
    (let s := cached (onSup (.tlbinv { sw0 with b := 1 }) [0x10000, 0x10000])
     curGraph s = some (0, supGraphOf (.tlbinv { sw0 with b := 1 }) [0x10000, 0x10000]) ∧ pinBlocks s 0 0x10000 0x10000 = false ∧
     (partFields s 0).contains demoSlot.core.f = true ∧ ((tgetD (dropTlbs s 0 0 0x10000 0x10000).tlbs demoSlot.core []).any fun e => e.ctx == 0) = true ∧
     (let u := { s with sis := [((0, 0), ⟨[{ aStream (.gfree 0) with pins := [⟨0, 0x10000, 16, 0⟩] }], 5, 0, none⟩)] }
      pinBlocks u 0 0x10000 0x10000 = true ∧ pinBlocks u 0 0x20000 0x10000 = false)) ∧
    (let i := Instr.mappin { sw0 with b := 1, imm := 1 <<< 9 }; let s := onSup i [0, 0xF]
     bits (1 <<< 9) 10 9 = 1 ∧ (mapLeaf s 0 0 0xF 1).toOption.isSome = true ∧ (mapLeaf s 0 0 0xD 1).toOption.isSome = false ∧
     (mapLeaf s 0 0 0xF 1).toOption.any (fun u => pinBlocks u 0 0 (2 ^ levelBits 1)) = false) ∧
    (let s := onSup (.keyld { sw0 with imm := 2 }) [0x300000]
     tget s.saved 2 = none ∧ supAt s 0x300000 = .mem (.hbm 0 0x300000) ∧
     ((supRead s 0x300000 64 (.hbm 0 0x300000)).toOption.bind fun q => (supPut q.1 0x300000 (List.replicate 64 0) (.hbm 0 0x300000)).toOption).isSome = true ∧
     ((supRead s 0x300000 36 (.hbm 0 0x300000)).toOption.bind fun q => (lportOf q.1 5).install true false ⟨0, 0⟩).isSome = true ∧
     (let l : LPort := { LPort.reset with st := .keywait, txCur := some ⟨1, 1⟩, ackd := some 1 }
      (l.install true false ⟨0, 0⟩).any LPort.keyed = true ∧ ({ l with ackd := none }.install true false ⟨0, 0⟩).any LPort.keyed = false) ∧
     ((supRead s 0x300000 36 (.hbm 0 0x300000)).toOption.bind fun q => (supPut q.1 0x300000 (List.replicate 36 0) (.hbm 0 0x300000)).toOption).isSome = true) ∧
    (∀ e ∈ [Ecc.single, .double], let s := { onSup (.sweep { sw0 with b := 1 }) [0x300000, 0x100] with ecc := [(0x300000 / 8, e)] }
      badWords s 0 0x300000 0x100 = [0x300000 / 8] ∧ ((badWords s 0 0x300000 0x100).foldl (sweepWord 512) (s, 0)).2 = if e = .single then 0 else 1) := by
  decide +kernel

/-- A region that is frozen and one that is not, a breakpoint, and a remote request whose time is up and is not. -/
theorem test_meets_RegionsAndPeers :
    (let s := onSup (.freeze sw0) [1]; curGraph s = some (0, supGraphOf (.freeze sw0) [1]) ∧ regionOf s 0 1 = (1, [0]) ∧ s.frozen = [] ∧ (partOfField s 0).isSome = true) ∧
    (let s := onSup (.brkset { sw0 with imm := 0 }) [2 ^ 60]; bits (2 ^ 60) 63 60 = 1 ∧ tget s.brks (0, 0) = none) ∧
    (let u : Hurt := ⟨.core demoSlot.core, Code.eccUncorr, none, 0, t00, 0, [5]⟩
     let s := { onSup (.thaw sw0) [1] with frozen := [⟨0, 1, false, none, some u⟩], ecc := [(5, .double)] }
     first? (fun z : Frozen => z.f == 0 && z.lid == 1) s.frozen = some ⟨0, 1, false, none, some u⟩ ∧ 5 ∈ u.words ∧ tget s.ecc 5 = some .double ∧
     regionOf s 0 1 = (1, [0]) ∧ ({ s with frozen := [⟨0, 1, false, none, none⟩] }.frozen.all fun z => z.hurt == none) = true) ∧
    (let r : Remote := ⟨4, .core demoSlot.core, 3, .token, 0⟩
     let s := { onSup (.deadset sw0) [3] with remotes := [r] }
     first? (fun m : Remote => m.n == 4) s.remotes = some r ∧ ctr s r.unit = 0 ∧ 0 < s.ltmo * 1400) := by decide +kernel

/-! ## Queues, launches, tokens, counts -/

/-- The supervisor of a field 0 whose context 0 has a descriptor at 0x100000 of a ring of 64 slots at 0x110000, with a packet byte at slot 0
that carries the first lap stamp. -/
def ringed (b : Byte) (i : Instr) (regs : List W64) : State :=
  let s := onSup i regs
  { s with mem := s.mem ++ [(0x100002, 0x11), (0x100009, 0x10)] ++ (if b = 0 then [] else [(0x110000, b)]) ++ [(0x110038, 1)]
           xts := [(0x100000 / 64, 1), (0x110000 / 64, 1)] }

/-- Its queue 3. -/
def queue3 (pkts : List QPkt) : Queue := ⟨0x100000, 0x110000, 0x1000, 0, 0, 0, false, false, 0, some 0, pkts⟩

theorem test_meets_QueuesAccept :
    (let i := Instr.qbind { sw0 with b := 1, imm := 3 }; let s := ringed 0 i [0x100000, 0]
     curGraph s = some (0, supGraphOf i [0x100000, 0]) ∧ hbmPage s 0 0x100000 = true ∧
     (readAt s 0 noLid 0x100000 64).toOption.any (fun q => descOk q.1 0 q.2) = true ∧ (bindQueue s 0 0x100040).isNone = true ∧
     farWafer s 0 0x100000 (true, false) = none ∧ farNew s (.seqr 0) 0 none = false ∧ farNew s (.seqr 0) 0 (some 3) = true) ∧
    (∀ b ∈ [0, 9], let s := { ringed b (.syield sw0) [] with queues := [((0, 3), queue3 [])] }
      readingQueue s 0 = none ∧ pickQueue s 0 = some 3 ∧ slotFar s (queue3 []) = none ∧ farNew s (.seqr 0) (slotTag 3) none = false ∧ ((acceptable s 0 3 (queue3 [])).map fun q => (packetOk q.2, (writeAt q.1 0 noLid 0x100018 (leBytes 8 1)).toOption.isSome))
        = some (b == 0, true)) ∧
    (let s := { ringed 0 (.syield sw0) [] with queues := [((0, 3), queue3 [])], ctrs := [(.seqr 0, 4096)] }
     (acceptable s 0 3 (queue3 [])).isSome = true ∧ (queue3 []).since = some 0 ∧ 4096 ≤ (ctr s (.seqr 0) - 0).toNat ∧ (queue3 []).eff < 3) ∧
    (let g := userGraph (.syield sw0) []; let s := { onUser (.syield sw0) [] with ctrs := [(.seqr 0, 4096)] }
     (graphsOf s 0)[0]? = some g ∧ graphReady s 0 g = true ∧ 4096 ≤ (ctr s (.seqr 0) - g.since).toNat ∧ g.eff < 3) := by decide +kernel

/-- A packet of each TYPE that may start, and a LAUNCH of an image that is there. -/
theorem test_meets_PacketsRun :
    (∀ ty ∈ List.range 7, let p : QPkt := ⟨0, BitVec.ofNat 8 ty :: List.replicate 63 0, false, 0⟩
      startable { ringed 0 (.syield sw0) [] with queues := [((0, 3), queue3 [p])] } 0 3 ty = some (queue3 [p], p)) ∧
    (let s := ringed 0 (.syield sw0) []
     (mkCopy s none none 0 noLid (2 :: List.replicate 63 0) 1).toOption.isSome = true ∧ queued (siGet s 0 3) < 64 ∧ unitHolds s (.si 0 3) = false ∧ farWafer s 0 0x100000 (true, false) = none ∧
     farNew s (.seqr 0) (packetTag 3) none = false ∧ farNew s (.seqr 0) (packetTag 3) (some 3) = true ∧
     (mkCopy s none none 0 noLid (2 :: List.replicate 14 0 ++ [1] ++ List.replicate 8 0 ++ [8] ++ List.replicate 39 0) 1).toOption.isSome = false ∧
     (writeAt s 0 noLid 0x100000 (leBytes 8 5)).toOption.isSome = true ∧ (writeAt s 0 noLid (2 ^ 45) (leBytes 8 5)).toOption.isSome = false ∧
     (beginLaunch s (Launch.start 0 0 0 none 0 0 0x100000 0 0) noLid false).isSome = true) := by decide +kernel

/-- Launch 1 with a change, in a user context in place. -/
def launched (h : Launch → Launch) : State := inLaunch (.syield sw0) [] h

theorem test_meets_LaunchesRun :
    (launch? (launched fun l => { l with stat := .waiting }) 1).map Launch.stat = some .waiting ∧
    (let l := { demoLaunch 0 with stat := .loading }; l.fields.contains 0 = true ∧ l.loaded.contains 0 = false ∧ l.acks.contains 0 = false ∧
      (violation (launched fun _ => l) 1 l (parseImg l.bytes)).isSome = true ∧ unitHolds (launched fun _ => l) (.seqr 0) = false) ∧
    (let l := { demoLaunch 0 with stat := .loading, loaded := [0] }; launchDead (launched fun _ => l) l = false ∧ l.loaded.contains 0 = true) ∧
    (let l := { demoLaunch 0 with stat := .loading, acks := [0] }; l.fields.all (fun f => l.acks.contains f) = true ∧ l.wafers = [] ∧ l.from_ = none ∧
      { l with wafers := [3] }.awaits = [51] ∧ { l with wafers := [2], from_ := some 3 }.awaits = [51]) ∧
    (let z : Sect := ⟨0, [demoSlot], [demoSlot], 1, 0, some 1, [(demoSlot, 1)]⟩
     let s := launched fun l => { l with secs := [(0, z)] }
     armingDone s 1 z = true ∧ (restAll s 1 (some 0) true).2 = true ∧ farAsked s (.seqr 0) (leadTag 1) none = false ∧
     farNew s (.seqr 0) (leadTag 1) none = false ∧ ctxLive s 0 = true ∧ (ctxStat s 0).shad = none) ∧
    (let s0 := launched fun l => { l with secs := [] }; let s := { s0 with x := { s0.x with graphs := [] } }
     ((launch? s 1).any fun l => launchDone s 1 l && l.from_ == none && (restAll (answerPolls s 1 l) 1 none true).2) = true ∧ (launch? (retire s 1 0) 1).map Launch.stat = some .ended ∧
     ((launch? s 1).any fun l => endWord s 1 l == none) = true) ∧
    (∀ d ∈ [0, 0x100000], let l := { demoLaunch 0 with stat := .ended, done := d }; let s := launched fun _ => l
      launch? s 1 = some l ∧ (freeWindows s 1).net.any (pktOf 1) = false ∧ (freeWindows s 1).remotes.any (remOf 1) = false ∧
      (freeWindows s 1).wins.any (fun q => q.2.lid == 1) = false ∧ awayFor s 0 0x100000 (false, true) = false ∧ farWord? s 0 0x100000 = none ∧ (writeAt s 0 1 0x100000 (leBytes 8 (doneVal l))).toOption.isSome = true) := by decide +kernel

/-- An input of ADD on A alone, with a token offered to it: a node with room, with a full queue, and after seven failures. -/
def offering (i : Instr) (b : BufTok) (q : List QSet) : State :=
  let s := bound (paged (placeCtx State.reset ((encode i).getD 0)))
  let n : Node := ⟨(encode i).getD 0, 0, 1, 0⟩
  { s with x := { s.x with nodes := [(⟨demoSlot.core, 1, 0⟩, n)], iq := [((demoSlot.core, 1), q)], edges := [(⟨demoSlot.core, 0, 4⟩, ⟨[b], []⟩)] } }

theorem test_meets_TokensAreAccepted :
    (∀ q ∈ [(0, 0, 0), (16, 0, 1), (0, 7, 0)], let d : InPort := ⟨demoSlot.core, 1, 0⟩; let g : EdgeId := ⟨demoSlot.core, 0, 4⟩
      let s := offering (.add wA) ⟨demoTok 3, [d], [(d, q.2.1)]⟩ (List.replicate q.1 ⟨abc none none none, false, false, 0⟩)
      offered s g d = some (demoTok 3) ∧ ((node? s ⟨d.core, 1, 0⟩).any fun n =>
        ctxRuns s n.ctx && !isFrozen s 0 n.lid && !isCut s g && operandPorts n.word == [0] && opOf n.word < 0x5A && failsOf s g d == q.2.1
          && tgetD s.x.osearch d.core [] == [] && (match acceptTok s ⟨d.core, 1, 0⟩ n 0 (demoTok 3) false with
            | .yes _ => q.2.2 == 0
            | .no => q.2.2 == 1
            | _ => false)) = true) ∧
    (let o : OvSearch := ⟨⟨demoSlot.core, 0, 4⟩, ⟨demoSlot.core, 1, 0⟩, false⟩; let s := { State.reset with x := { State.reset.x with osearch := [(demoSlot.core, [o])] } }
     tgetD s.x.osearch demoSlot.core [] = [o]) ∧
    (let s := onSet (.add wAdd) (abc none none none); (node? s demoSlot).any (fun n => ctxRuns s n.ctx) = true ∧ storesToken s demoSlot = true) := by
  decide +kernel

/-- A token whose set stands in the overflow area, one whose entry moves another there, and one for which there is no room. -/
theorem test_meets_TokensAreAccepted_store : let d : InPort := ⟨demoSlot.core, 1, 0⟩; let g : EdgeId := ⟨demoSlot.core, 0, 4⟩; let id := identOf (demoTok 3)
    let entry (k : MKind) (b : Option Token) (pl : Place) (i : Nat) : MEntry := ⟨1, id, k, none, b, none, none, pl, BitVec.ofNat 32 i, none, []⟩
    let at_ (l : List MEntry) (n : Nat) : State := let s0 := offering (.add wAdd) ⟨demoTok 3, [d], []⟩ []
      { s0 with x := { s0.x with mstore := [(d.core, l)] }, movp := [(d.core, 0x120000)], movl := [(d.core, BitVec.ofNat 32 n)] }
    let held := (List.range 8).map (entry (.held (demoTok 1)) none .way)
    let acc (s : State) : Acc := match node? s ⟨d.core, 1, 0⟩ with
      | some n => acceptTok s ⟨d.core, 1, 0⟩ n 0 (demoTok 3) false
      | none => .no
    (let s := at_ [entry .operands (num 5) (.ovfl 0) 0] 1
     acc s = .search ∧ tgetD s.x.osearch d.core [] = [] ∧
     first? (fun o : OvSearch => !o.done) (tgetD { s with x := { s.x with osearch := [(d.core, [⟨g, d, false⟩])] } }.x.osearch d.core []) = some ⟨g, d, false⟩ ∧ offered s g d = some (demoTok 3) ∧ searchAddrs s d.core 1 id = [0x120000] ∧ underBudget s (.core d.core) 3 = true ∧
     underBudget s (homeUnit s 0x120000) 3 = true ∧ unitHolds s (homeUnit s 0x120000) = false ∧
     underBudget { s with budgets := [(.core d.core, { Budget.reset with used := [0, 0, 0, 0x1000] })] } (.core d.core) 3 = false ∧
     0x120000 / 8 ∈ wordsOf 0x120000 128 ∧ ((decodePA s 0x120000).map Tgt.field) = some 0) ∧
    (match acc (at_ held 1) with
      | .yes u => spilled (at_ held 1) u d.core
      | _ => false) = true ∧
    acc (at_ held 0) = .overflow := by decide +kernel

/-- R114's record of the example of R112, element 13, context 2, time (3,1), SEQ 40, with A alone. -/
theorem test_carve_record :
    let m : MEntry := ⟨13, ⟨2, ⟨3, 1⟩, 40⟩, .operands, some ⟨5, 6, 1, ⟨3, 1⟩, 40, 2, false, false, true⟩, none, none, none, .carve 0, 9, none, []⟩
    (recordBytes m).take 32 = [1, 0, 0, 0, 3, 0, 0, 0, 40, 0, 0, 106, 1, 1, 0, 0, 5, 0, 0, 0, 0, 0, 0, 0, 6, 0, 0, 0, 1, 0, 0, 0] ∧
    (recordBytes m).length = 128 ∧ (recordBytes m)[80]? = some 4 ∧ (recordBytes m)[84]? = some 9 ∧
    (let s := { State.reset with x := { State.reset.x with carve := [(demoSlot.core, 2)], mstore := [(demoSlot.core, [m])] } }
     carveByte s demoSlot.core (190 * 2048 + 11) = some 106 ∧ carveByte s demoSlot.core (190 * 2048 + 128) = none) := by decide +kernel

/-- An image of a span with one core record on wafer 0, of core C(0,0), with one node in its first slot (R59, R60). -/
def spanImage : List Byte :=
  leBytes 4 0x58434731 ++ leBytes 4 0x00020001 ++ leBytes 4 1 ++ List.replicate 52 0 ++
    (leBytes 4 0 ++ leBytes 4 1 ++ List.replicate 24 0 ++ leBytes 32 1) ++ List.replicate 16 0

theorem test_meets_LaunchesRun_peers :
    (let s := fromPeer (launched fun l => { l with heads := [(3, 0)] }) (.ended 5)
     ((launch? s 1).any fun l => endWord s 1 l == some (9, 3, 5)) = true) ∧
    (let s := fromPeer (paged State.reset) (.part 0 0 2 0 0x100000 0 spanImage)
     (launch? s 1).isNone = true ∧ ((partFor s 0 1).any fun q => q.2.fields.contains 0 && q.2.from_ == some 3 && !launchBusy s q.2 (parseImg q.2.bytes)) = true ∧
     (let u := { s with launches := [(7, { demoLaunch 0 with slots := [demoSlot] })] }
      ((partFor u 0 1).any fun q => q.2.fields.contains 0 && launchBusy u q.2 (parseImg q.2.bytes)) = true)) := by decide +kernel

/-- A launch that has ended while an access, or its part on another wafer, is still out; one that loads, with a dead wafer. -/
theorem test_meets_LaunchesRun_endings :
    (let l := { demoLaunch 0 with stat := .ended }; let s := launched fun _ => l
     (∀ m ∈ [(⟨4, .seqr 0, 3, .access 5 1, 0⟩ : Remote), ⟨4, .si 0 0, 3, .access 9 1, 0⟩], ({ s with remotes := [m] }.remotes.any (orphanOf 1)) = true ∧
       inFlight { s with remotes := [m] } 1 l = false) ∧
     inFlight s 1 { l with unfin := [3] } = true ∧ inFlight { s with dead := 8 } 1 { l with unfin := [3] } = false ∧
     (let l := { demoLaunch 0 with stat := .loading, wafers := [3] }; launchDead { s with dead := 8 } l = true ∧ launchDead s l = false ∧ unitHolds s (.seqr 0) = false)) := by decide +kernel

theorem test_meets_CountsAndFrontiers :
    (let it : CountItem := ⟨0, t00, 1⟩
     (let s := { State.reset with x := { State.reset.x with ctab := [(demoSlot.core, [⟨1, it⟩])] }, ctrs := [(.core demoSlot.core, 256)] }
      ctabOf s demoSlot.core ≠ [] ∧ 256 ≤ (ctr s (.core demoSlot.core) - tgetD s.lastF demoSlot.core 0).toNat ∧ ctLids (ctabOf s demoSlot.core) = [1]) ∧
     (let s := carried State.reset 0 (.counts 1 demoSlot.core [it])
      (pkt? s 9).any (fun p => arrived s p) = true) ∧
     (let s := launched fun l => { l with wafers := [3], probes := [(demoSlot, 0)] }
      (launch? s 1).any (fun l => l.wafers.contains 3) = true ∧ s.wafno ≠ 3 ∧ s.dead.getLsbD 3 = false ∧
      (s.launches.filter fun p => p.2.probes.any fun q => q.1 == demoSlot).map (fun q => q.1) = [1]) ∧
     (let o := abc (num 1) none none; let s0 := onSet (.front wAdd) o; let s := { s0 with x := { s0.x with frontQ := [(demoSlot, o)] } }
      (node? s demoSlot).map (fun n => (n.lid, act (CW.unpack n.word).xt o.id.time)) = some (1, some t00) ∧ (launch? s 1).isSome = true ∧
      first? (fun q => q.1 == demoSlot) s.x.frontQ = some (demoSlot, o))) := by decide +kernel

/-- A FRONT query that has come to the tracker, its answer at the core, and a tracker that holds a record. -/
theorem test_meets_CountsAndFrontiers_queries :
    (let o := abc (num 1) none none; let s0 := onSet (.front wAdd) o
      (∀ m ∈ [(Msg.told demoSlot 0 1 0 [t00])], let s := carried { s0 with x := { s0.x with frontQ := [(demoSlot, o)] } } 0 m
       toldHere s demoSlot = some (9, 0, 0, [t00]) ∧ ctxLive s 0 = true ∧ (ctxStat s 0).shad = none ∧
       first? (fun q : Slot × OpSet => q.1 == demoSlot && q.2.port == 0) s.x.frontQ = some (demoSlot, o)) ∧
      (let s := { s0 with net := [⟨9, 9, 0, .core demoSlot.core, s0.wafno, .wtrk, s0.wafno, unitRouter .wtrk, true, true, 0, 0, 1, .ask demoSlot 0 1 0 0⟩] }
       toldHere s demoSlot = none ∧ (askHere s demoSlot).any (fun p => p.msg == .ask demoSlot 0 1 0 0) = true ∧ (launch? s 1).isSome = true) ∧
      unitHolds s0 .wtrk = false ∧ unitHolds { s0 with recQ := [recBase .wtrk Code.break_ 0 0 0 0 1] } .wtrk = true) := by decide +kernel

/-! ## Homes -/

/-- A request of the node in the demonstration slot, with the word TY = 7, on a set, at a physical address. -/
def rq (op : Op) (o : OpSet) (pa : Nat) : PortReq :=
  { mkReq State.reset op { wA with sc := 0, ty := 7 } (fires (.ld { wA with sc := 0, ty := 7 }) o) with pa := pa, va := pa }

/-- A machine at whose home that request has arrived, with context 0 live and its pages and the panes and cells of launch 1. -/
def atHomeOf (op : Op) (o : OpSet) (pa : Nat) : State :=
  let s := carried (paged (onSet (.ld { wA with sc := 0, ty := 7 }) o)) 1 (.req (rq op o pa) pa false)
  { s with x := { s.x with grants := [(paneAt demoSlot.core 0, 1)] }, xts := [(0x100000 / 64, 1)] }

/-- What every one of those has: it is here, and its home acts on the state as it stands. -/
def homes (s : State) : Bool := (reqHere s 9).isSome && ctxLive s 0 && (ctxStat s 0).shad == none

theorem test_meets_HomesServeMemory : let o := abc (num 0) (num 7) none; let pa := 0x100000
    (∀ op ∈ [Op.ld, .st, .std], let s := atHomeOf op o pa; let u := dropPkt s 9
      homes s = true ∧ inAperture pa = false ∧ isAon (rq op o pa) = false ∧ histInUse s pa = false ∧ (plainGuard u (rq op o pa) pa).toOption = some () ∧
      (homeRead u (some 0) pa 8 false).toOption.isSome = true ∧ (homeWrite u (some 0) pa (leBytes 8 7) false).toOption.isSome = true ∧
      unitHolds s (homeUnit s pa) = false ∧ (plainGuard u (rq op o (spadPA 0 ⟨0, 1, 0⟩ 0)) (spadPA 0 ⟨0, 1, 0⟩ 0)).toOption = none) ∧
    (∀ op ∈ [Op.fatom, .cas], let s := atHomeOf op o pa; let u := dropPkt s 9
      isAtomic (rq op o pa).op = true ∧ (homeGuard u (rq op o pa) pa).toOption = some () ∧ paKind pa ≠ 1 ∧ paKind (spadPA 0 ⟨0, 0, 0⟩ 0) = 1 ∧
      ((homeNat u (some 0) pa 8 false).toOption.bind fun v => (homeWrite v.1 (some 0) pa (leBytes 8 (atomNew (rq op o pa) v.2).1) false).toOption).isSome = true) ∧
    (∀ q ∈ [(0, false), (1, true)], let r := { rq .ld o pa with w := { wA with sc := 0, ty := 7, fn := 1 } }
      isAon r = true ∧ aonHeld { State.reset with aon := [(pa / 512, ⟨0, BitVec.ofNat 8 q.1⟩)] } [] r pa = q.2) ∧
    (let wa := 2 ^ 43; let s := { atHomeOf .ld o wa with wins := [((0, 0), ⟨3, false, 1, 0x100000, 0x100100, 0, 1⟩)], xts := [(0x100000 / 64, 1), (0x100100 / 64, 1)] }
     inAperture wa = true ∧ homes s = true ∧ decodePA s wa = some (.win 0 0 0) ∧
     ((tget s.wins (0, 0)).any fun w => (windowRead w 1 s 0 8).toOption.isSome) = true) := by decide +kernel

/-- One request that waits for a tile, held by it and not. -/
theorem test_meets_HomesServeMemory_aon : let o := abc (num 0) (num 7) none; let pa := 0x100000
    (let r := { rq .ld o pa with w := { wA with sc := 0, ty := 7, fn := 1 } }; let h := homeUnit State.reset pa
     waitlOf State.reset h = [] ∧ waitingAway State.reset h = [] ∧ (let u := setWaitl State.reset h [⟨r, pa, false⟩]
      waitlOf u h = [⟨r, pa, false⟩] ∧ isAon r = true ∧ aonHeld u [] r pa = false ∧
      aonHeld { u with aon := [(pa / 512, ⟨0, 1⟩)] } [] r pa = true)) ∧
    (let wa := 2 ^ 43; placeInUse (atHomeOf .ld o wa) wa 8 = false ∧ inAperture wa = true) := by decide +kernel

/-- The eight presence requests' tags, and an arrival short of the expected bytes, at them, and beyond them, in a pane of another launch, and
in one that is not ARMED; a retry before its time and at it. -/
theorem test_meets_PanesKeepTheirTags : let o := abc (num 0) (num 7) none; let pa := spadPA 0 demoSlot.core 0; let p := paneAt demoSlot.core 0
    (∀ op ∈ [Op.armp, .hoist, .strike, .tagr, .ldw, .take], let s := atHomeOf op o pa
      homes s = true ∧ isPresence op = true ∧ (panesGranted s (rq op o pa) pa).toOption = some () ∧ paneOf s pa = some p ∧
      (homeRead s (some 0) pa 8 false).toOption.isSome = true ∧ (ptagOf s p).tag = .empty) ∧
    (∀ q ∈ [(1, 16), (8, 16), (16, 16), (17, 16)], let bs := List.replicate q.1 (1 : Byte); let src : ArrSrc := ⟨0, false, 0, 0, 4, 0⟩
      let s0 := atHomeOf .ld o pa
      let s := { s0 with x := { s0.x with ptag := [(p, ⟨0, false, false, true, .armed, 16, 0⟩)] } }
      granted s p 1 = true ∧ granted s p 2 = false ∧ (ptagOf s p).tag = .armed ∧ (homeWrite s (some 0) pa bs false).toOption.isSome = true ∧
      decide ((ptagOf s p).exp.toNat < (ptagOf s p).cnt.toNat + bs.length) = decide (16 < q.1) ∧
      (let u := carried s0 3 (.arrival src 0 1 0 pa false bs); (pkt? u 9).any (fun k => arrived u k && !outrun u k src) = true ∧ ctxLive u 0 = true ∧
        src.wafer = u.wafno ∧ paWafer pa = u.wafno)) ∧
    (∀ c ∈ [63, 64], let y : Retry := ⟨rq .ldw o pa, 0⟩
      let s := { State.reset with x := { State.reset.x with retry := [(.core demoSlot.core, [y])] }, ctrs := [(.core demoSlot.core, BitVec.ofNat 64 c)] }
      (tgetD s.x.retry (.core demoSlot.core) [])[0]? = some y ∧ isFrozen s 0 1 = false ∧ (ctr s (.core demoSlot.core) - y.since).toNat = c) := by decide +kernel

/-- NEXTF with a pane to yield and without one, and what may wait for a pane that hoists. -/
theorem test_meets_PanesKeepTheirTags_waiters : let o := abc (num 0) (num 7) none; let pa := spadPA 0 demoSlot.core 0; let p := paneAt demoSlot.core 0
    (∀ b ∈ [true, false], let s0 := atHomeOf .nextf o pa; let r := { rq .nextf o pa with more := [pa] }
      let s := { s0 with x := { s0.x with ptag := [(p, { ptagOf s0 p with tag := .full, yld := b })] } }
      nextfPick s [pa] = (if b then none else some (p, 0)) ∧ setIx s p r.more 0 = some 0 ∧ (ptagOf s p).yld = b ∧ setIx s p [] 0 = none ∧
      placeInUse s pa 8 = false ∧ paneHolds s pa 8 = false ∧ (waitlOf s (.core p.core)).length < 64) ∧
    (∀ op ∈ [Op.ldw, .take], let e : WaitE := ⟨rq op o pa, pa, false⟩; let s := atHomeOf op o pa
      paneOf s e.pa = some p ∧ (homeRead s (some e.req.ctx) e.pa (tyBytes e.req.w.ty.toNat) false).toOption.isSome = true) := by decide +kernel

/-- A promise walk, PNEW and FILL at a cell, a phaser's declaration, ACQ and REL of a free and of a held lock, and a release that waits for nothing, for an
unanswered write, and for a refused one. -/
theorem test_meets_ObjectsStep : let o := abc (num 0) (num 7) none; let pa := sramPA 0 ⟨0, 7, 0⟩ 0; let home : CoreId := ⟨0, 7, 0⟩
    (∀ op ∈ [Op.pnew, .fill, .phnew], let s := atHomeOf op o pa; let u := dropPkt s 9
      homes s = true ∧ (first? (fun w : PWalk => w.id == 9) s.x.pwalks).isNone = true ∧ (homeGuard u (rq op o pa) pa).toOption = some () ∧
      ctxRuns s 0 = true ∧ heldFor u (rq op o pa) = none ∧ (isPromise op = true ∨ isPhaser op = true)) ∧
    (∀ q ∈ [(WPhase.find pa, home, true), (.carry pa 0 0 0, home, true), (.find pa, ⟨0, 7, 1⟩, false)],
      let w : PWalk := ⟨9, rq .fill o pa, pa, pa, q.1, false, 0, 0, 0, 0, 0, 0, 0, q.2.1⟩
      let s0 := onSet (.ld wA) o; let s := { s0 with x := { s0.x with pwalks := [w] } }
      first? (fun w : PWalk => w.id == 9) s.x.pwalks = some w ∧ walkStands s w = some (s, w) ∧ ctxRuns s 0 = true ∧
      (sramCore (walkCell w) = w.at_ ↔ q.2.2 = true)) ∧
    (let r := { rq .phnew o pa with w := { wA with fn := 3 } }
     (phStep (atHomeOf .phnew o pa) home r pa).toOption.isSome = true ∧ (phStep (atHomeOf .phnew o pa) home (rq .phnew o pa) pa).toOption.isSome = false) ∧
    (∀ q ∈ [(0, Op.acq), (0, .rel), (0x80, .rel)], let r := { rq q.2 o pa with w := { wA with fn := 3 } }
      let s0 := carried (paged (onSet (.ld wA) o)) 0 (.req r pa false); let s := { s0 with mem := s0.mem ++ if q.1 = 0 then [] else [(pa + 7, q.1)] }
      homes s = true ∧ (homeGuard s r pa).toOption = some () ∧ (readRecs s (poolLid s r pa) (objRecs s (poolLid s r pa) pa)).toOption.any (fun v1 =>
        inScope v1 3 r home pa && (homeNat v1 (some 0) pa 8 false).toOption.any (fun v => bit v.2 63 == (q.1 != 0)
          && (writeLock v.1 0 pa (lockWord r)).toOption.isSome && (writeLock v.1 0 pa (v.2 % 2 ^ 63)).toOption.isSome
          && lockList v.1 (poolLid v1 r pa) pa == [])
        && (lockOne v1 home r pa).toOption.isSome == (q.1 != 0 || q.2 == .acq)) = true) ∧
    (∀ q ∈ [([], 0), ([⟨2, 0, 0, 8, demoSlot, ⟨0, t00, 0⟩, 0, []⟩], 0), ([⟨2, 0, 0, 8, demoSlot, ⟨0, t00, 0⟩, Code.xlat, []⟩], Code.xlat)], let w : RelW := ⟨rq .fill o pa, [2]⟩
      let s0 := onSet (.ld wA) o; let s := { s0 with x := { s0.x with relw := [(demoSlot.core, [w])], outw := [(demoSlot.core, q.1)] } }
      (tgetD s.x.relw demoSlot.core [])[0]? = some w ∧ ((outwOf s demoSlot.core).filter fun x => w.waits.contains x.id && untold w.req x) = q.1 ∧
      (refusedOf q.1).isSome = (q.2 != 0) ∧
      failWaits s w.req Code.xlat = false) := by decide +kernel

/-- A walk at a cell of C(7,0), in a phase, at a core. -/
def walkAt (op : Op) (ph : WPhase) (at_ : CoreId) : PWalk :=
  let pa := sramPA 0 ⟨0, 7, 0⟩ 0
  ⟨9, rq op (abc (num 0) (num 7) none) pa, pa, pa + 16, ph, false, pa, 0, 0, pa + 16, 0, 0, 0, at_⟩

/-- A launch of four waiter records with objects of a kind at C(7,0), the first words of which are given. -/
def objectsOf (kind : Nat) (ws : List Nat) : State :=
  let s := paged (onSet (.ld wA) (abc none none none)); let pa := sramPA 0 ⟨0, 7, 0⟩ 0
  { s with
    launches := s.launches.map fun q => (q.1, { q.2 with waiters := 4, objs := [⟨kind, ⟨0, 7, 0⟩, 0, 8, 0⟩] })
    mem := s.mem ++ (ws.zipIdx.flatMap fun q => (leBytes 8 q.1).zipIdx.filterMap fun b => if b.1 = 0 then none else some (pa + 8 * q.2 + b.2, b.1)) }

/-- Roots that are empty and filled, a link, and a second link, read by a walk; the step at the root, and a carry. -/
theorem test_meets_ObjectsStep_walks : let pa := sramPA 0 ⟨0, 7, 0⟩ 0; let home : CoreId := ⟨0, 7, 0⟩; let r := (walkAt .fill .act home).req
    (∀ q ∈ [([0], 0), ([2 ^ 63], 2), ([linkedTo (pa + 16), 0], 1)], let s := objectsOf 2 q.1
      (readCell s r pa).toOption.map (fun x => (cellState x.2.1, poolLid s r pa)) = some (q.2, 1)) ∧
    (let s := objectsOf 2 [linkedTo (pa + 16), 0, linkedTo (pa + 32)]
     (readCell s r (pa + 16)).toOption.map (fun x => cellState x.2.1) = some 1 ∧ (homeNat s (some 0) pa 8 false).toOption.map (fun x => x.2) = some (linkedTo (pa + 16)) ∧
     (homeWrite s (some 0) pa (leBytes 8 (linkedTo (pa + 32))) false).toOption.isSome = true) ∧
    (let s := objectsOf 2 [0]; freeRec s 1 = some 0 ∧ freeRec (paged (onSet (.ld wA) (abc none none none))) 1 = none ∧
     (homeWrite s (some 0) pa (leBytes 8 (2 ^ 56) ++ leBytes 8 0) false).toOption.isSome = true ∧ recList s 1 0 = [] ∧ (readRecs s 1 []).toOption.isSome = true) ∧
    (let s0 := onSet (.ld wA) (abc none none none); let w := walkAt .fill (.find pa) ⟨0, 7, 1⟩; let s := { s0 with x := { s0.x with pwalks := [w] } }
     walkPkt s 9 = none ∧ walkStands s w = some (s, w) ∧ sramCore (walkCell w) ≠ w.at_ ∧
     (let u := carried s 0 (.walk 9 0 1); (walkPkt u 9).any (fun p => arrived u p && p.to_ == .core demoSlot.core) = true) ∧
     walkNext (walkAt .fill (.carry pa 0 0 0) ⟨0, 7, 1⟩) = home) := by decide +kernel

/-- A phaser of scope 5 with no registration, with two that wait, and with one that is due; a membership, in step, one ahead and two ahead. -/
theorem test_meets_ObjectsStep_phasers : let pa := sramPA 0 ⟨0, 7, 0⟩ 0; let home : CoreId := ⟨0, 7, 0⟩
    let r : PortReq := { (walkAt .phsig .act home).req with w := { wA with fn := 5 } }
    (∀ reg ∈ [0, 2, 1], let s := objectsOf 3 [5 * 2 ^ 59, 0, reg]
      (readPh s 0 pa).toOption.any (fun q => bits q.2.1 63 62 == 0 && q.2.2.scope == 5 && headOk q.1 (poolLid q.1 r pa) q.2.2.head [2, 3, 4]
        && inScope q.1 5 r home pa && (freeRec q.1 (poolLid q.1 r pa)).isSome && (writePh q.1 0 pa q.2.1 q.2.2).toOption.isSome) = true) ∧
    (∀ k ∈ [0, 1, 2], let n := BitVec.ofNat 32 k; let s0 := objectsOf 3 [5 * 2 ^ 59, 0, 2]; let m : Member := ⟨pa, 1, 2, n⟩; let p : Ph := ⟨5, 0, 2, 0, 0, 0, 0⟩
      let s := { s0 with x := { s0.x with members := [(home, [(6, m)])] } }
      tget (membersOf s home) 6 = some m ∧ (memberSignal p n).isSome = (k != 2) ∧ phDone 1 n = (k == 0)) ∧
    (let p : Ph := ⟨5, 0, 2, 2, 0, 0, 0⟩; let q : WRec := ⟨2, 0, 0, r, 0, false, []⟩; let s := setPool (objectsOf 3 [5 * 2 ^ 59]) 1 [(0, q)]
     p.reg ≠ 0 ∧ p.reg.toNat ≤ p.sig.toNat ∧ tget (poolOf s 1) 0 = some q ∧ phDone 1 q.target = true ∧ phDone 0 q.target = false) := by decide +kernel

/-- An operation at a history that is declared and at one that is not; an owner with a pending entry that the frontier has passed. -/
theorem test_meets_HistoriesRun : let o := abc (num 0) (num 7) none; let pa := sramPA 0 ⟨0, 7, 0⟩ 0; let home : CoreId := ⟨0, 7, 0⟩
    let h (op : Op) (used : Byte) : State :=
      let s := atHomeOf op o pa
      { s with launches := s.launches.map fun q => (q.1, { q.2 with objs := [⟨3, home, 0, 1, 0⟩] })
               mem := s.mem ++ (if used = 0 then [] else [(pa + 8, used)]) ++ [(pa + 12, BitVec.ofNat 8 (histCap 1))]
                 ++ if used = 0 then [] else [(pa + 16, used), (pa + 512 + 24 * (histCap 1 - 1), 5)] }
    (let s := h .hstat 0
     homes s = true ∧ isHist .hstat = true ∧ decodePA s pa = some (.sram home 0) ∧ (first? (fun q : CoreId × HBusy => q.2.id == 9) s.x.hbusy).isNone = true ∧
     (first? (fun q : CoreId × List HOp => q.2.any fun o => o.id == 9) s.x.hq).isNone = true) ∧
    (∀ q ∈ [(0, 0, true), (64, 0, true), (0, 2, false), (0, 1, false)], let s0 := h .hstat 0; let op : HOp := ⟨9, rq .hstat o pa, q.1⟩
      let b : HBusy := ⟨8, rq .hred o pa, 0, [], [], [], 0, 0, 0, t00, false, q.2.1 == 2⟩
      let s := { s0 with x := { s0.x with hq := [(home, [op])], hbusy := if q.2.2 then [] else [(home, b)] } }
      first? (fun o : HOp => !isFrozen s home.f o.req.lid) (tgetD s.x.hq home []) = some op ∧ (tget s.x.hbusy home).isNone = q.2.2 ∧
      first? (fun q : CoreId × List HOp => q.2.any fun o => o.id == 9) s.x.hq = some (home, [op]) ∧
      (q.2.2 = false → first? (fun q : CoreId × HBusy => q.2.id == 8) s.x.hbusy = some (home, b) ∧ b.proc = (q.2.1 == 2)) ∧
      unitHolds s (.core home) = false ∧ ctxRuns s 0 = true ∧ (homeGuard s op.req pa).toOption = some () ∧
      histCount s 1 home q.1 = (if q.1 = 0 then some 1 else none) ∧ tget s.x.hpark (home, q.1) = none ∧ partBatch op.req = false ∧
      takesBatch .hstat = false ∧ (histLoad s 0 pa 1).toOption.any (fun q => tget q.1.x.hpark (home, 0) == none
        && (histDo q.2 op.req none (stageFront s 1 0)).toOption.isSome) = true ∧ isFrozen s 0 1 = false) ∧
    (let s0 := h .hstat 1; let r := rq .hred o pa; let p : HRec := ⟨5, 0, 0, t00⟩
     let s := { s0 with x := { s0.x with hown := [((home, 0), r)] } }
     tget s.x.hbusy home = none ∧ ownerOf s home 0 = some r ∧ histCount s 1 home 0 = some 1 ∧ ctxRuns s 0 = true ∧ unitHolds s (.core home) = false ∧
     isFrozen s 0 1 = false ∧ tget s.x.hstop (home, 0) = none ∧ stageFront s 1 0 = [] ∧
     (histLoad s 0 pa 1).toOption.any (fun q => q.2.owner != 0xFFFFFFFF && leastPassed (stageFront q.1 1 0) q.2.pend == some p
       && (processEntry q.2 r p).toOption.isSome) = true ∧
     (let u := { s with mem := s0.mem.filter (fun q => q.1 < pa) ++ [(pa, 1), (pa + 8, 64), (pa + 12, 64), (pa + 16, 1), (pa + 32, 63), (pa + 512, 5), (pa + 516, 1),
        (pa + 512 + 24 * 63, 5)] }
      (histLoad u 0 pa 1).toOption.any (fun q => q.2.owner != 0xFFFFFFFF && leastPassed (stageFront q.1 1 0) q.2.pend == some p
        && !(processEntry q.2 r p).toOption.isSome) = true)) := by decide +kernel

/-- A history of 64 slots that holds the record of key 5 and value 9 on side 0, with one pending entry and the owner word of an HRED.SUM on Z64. -/
def aHist : Hist := ⟨0, 64, 1, 0, [(false, [⟨5, 1, 9, t00⟩])], [], [⟨5, 0, 0, t00⟩], 0x27, 0⟩

/-- What each operation of a history is given: a batch in order and one that is not, on it; and the entry that is processed. -/
theorem test_meets_HistoriesRun_effects : let key (k : W32) (v : W64) : Token := { demoTok v with key := k, kv := true }
    (∀ op ∈ [Op.hnew, .happ, .hjoin, .hred, .hseek, .hcomp, .hmrg, .hstat],
      let r := { rq op (abc (num (2 ^ 34)) none none) 0 with set := { abc (num (2 ^ 34)) none none with bs := [key 5 1, key 6 2] } }
      (histDo aHist r none []).toOption.isSome = true ∧ (consolidate (rawBatch r)).toOption.any (fun b => b.length == 2
        && (appendBatch aHist false b).toOption.any (fun g => decide ((interesting g t00 b).length ≤ g.free)) && (joinPairs aHist r b).toOption.isSome) = true ∧
      ((rawBatch r).mapM fun q => seekToks aHist r q.key).toOption.isSome = true ∧ (compactAll aHist id).toOption.isSome = true ∧
      (consolidate (rawBatch { r with set := { r.set with bs := [key 6 2, key 5 1] } })).toOption = none ∧
      (appendBatch { aHist with batches := [] } true [⟨5, 1, 9, t00⟩]).toOption.isSome = true) ∧
    (let o := rq .hred (abc (num (2 ^ 34)) none none) 0; let p : HRec := ⟨5, 0, 0, t00⟩; let c := correction aHist 2 7 5 t00
     leastPassed [⟨0, 1⟩] aHist.pend = some p ∧ leastPassed [t00] aHist.pend = none ∧ c.1 = [(9, 1)] ∧ c.1.length ≤ aHist.free ∧
     ({ aHist with cap := 2 } : Hist).free < c.1.length ∧ (c.1.mapM fun v => histTok (atPending o p.time) 4 p.time p.key v.1 v.2).toOption.isSome = true ∧
     (appendBatch aHist true (c.1.map fun v => ⟨p.key, v.2, v.1, p.time⟩)).toOption.isSome = true ∧ (processAll o [⟨0, 1⟩] 1 ⟨aHist, [], [], 0⟩).2.1 = 0) := by
  decide +kernel

/-! ## Answers and engines -/

/-- An answer to each kind of request, a retry, and an acknowledgement; a finished walk of a mapped and of an unmapped address. -/
theorem test_meets_AnswersReturn : let o := abc (num 0x100000) (num 7) none; let pa := 0x100000
    (∀ q ∈ [(Op.ld, ansDone), (.std, ansVal 3), (.ld, ⟨0, true, 0, none, none, none, 0⟩), (.hstat, ansDone)], let r := rq q.1 o pa
      let s := carried (atHomeOf q.1 o pa) 2 (.ans r q.2); let u := dropRemote (dropPkt s 9) r.rid
      (pkt? s 9).any (fun p => arrived s p) = true ∧ ctxLive s 0 = true ∧ (ctxStat s 0).shad = none ∧ staleAns s r = false ∧
      (reqNode u r).isSome = true ∧ (ansToks r q.2).toOption.isSome = true ∧ isHist r.op = (q.1 == .hstat) ∧ isCorrection r = false) ∧
    (let r := rq .hstat o pa; let s := carried (atHomeOf .hstat o pa) 2 (.hist r 4 0 (demoTok 7) true true); let u := dropRemote (dropPkt s 9) r.rid
     (pkt? s 9).any (fun p => arrived s p && !answerWaits u p.msg) = true ∧ staleAns s r = false ∧ u.x.late.any (lateBehind r 4) = false) ∧
    (let s := carried (atHomeOf .ld o pa) 2 (.ack ⟨0, false, 0, 0, 4, 0⟩ 0 1 0 pa 5); (pkt? s 9).any (fun p => arrived s p && !staleAck s p 5) = true) ∧
    (∀ q ∈ [(0x100000, true), (2 ^ 45, false)], let w : Walk := ⟨demoSlot.core, rq .ld o pa, q.1, 0⟩
      let s := { atHomeOf .ld o pa with twalks := [(0, [w])] }
      (tgetD s.twalks 0 [])[0]? = some w ∧ w.code = 0 ∧ (walkTable s w.req.ctx w.va).toOption.isSome = q.2 ∧ tgetD s.tlbs w.core [] = [] ∧
      ((tgetD s.twalks 0 []).filter fun v => sameWalk w v 34) = [w]) := by decide +kernel

/-- A refusal whose fault the catch queue takes and one for which it is full; an acknowledgement behind another. -/
theorem test_meets_AnswersReturn_late : let o := abc (num 0x100000) (num 7) none; let pa := 0x100000
     (let r := rq .ld o pa; let s := carried (atHomeOf .ld o pa) 2 (.ans r (ansCode Code.decodeLength))
      answerWaits (dropPkt s 9) (.ans r (ansCode Code.decodeLength)) = false ∧ (reqNode s r).isSome = true ∧ isCorrection r = false ∧
      (let l := { demoLaunch 0 with catch_ := some (0, ⟨⟨0, 1, 0⟩, 0, 0⟩), catchQ := List.replicate 64 (demoTok 0) }
       answerWaits { s with launches := [(1, l)] } (.ans r (ansCode Code.decodeLength)) = true)) ∧
     (let src : ArrSrc := ⟨0, false, 0, 0, 4, 0⟩; let s := atHomeOf .ld o pa
      ackWaits s src 5 = false ∧ ackWaits { s with lateAck := [.ack src 0 1 0 pa 5] } src 0 = true ∧
      ((walkHomes s 0 pa).all fun x => underBudget s x 2) = true) := by decide +kernel

/-- Island 0 of field 0 with stream 4. -/
def islandOf (s : State) (x : Stream) : State := { s with sis := [((0, 0), ⟨[x], 5, 0, none⟩)] }

/-- A streamer command that is accepted and one refused; a copy with bytes left and one that is done, each other kind done; a unit that decodes too
long. -/
theorem test_meets_StreamsRun : let o := abc (num 0x100000) (num 0x100100) none; let pa := 0x100000
    (∀ b ∈ [2, 9], let s0 := carried (atHomeOf .cpy o pa) 1 (.req (rq .cpy o pa) pa false)
      let s := { s0 with mem := s0.mem ++ [(pa, BitVec.ofNat 8 b), (pa + 24, 8)] }
      ((arrivedCmd s fun r => isStreamer r.op && siOf r.sl.core == .si 0 0).any fun q => q.1.id == 9) = true ∧ queued (siGet s 0 0) < 64 ∧
      (siGet s 0 0).desc = none ∧ paWafer (rq .cpy o pa).pa = s.wafno ∧ awayFor s 0 pa (true, false) = false ∧ ctxLive s 0 = true ∧
      (pieceRead s 0 1 pa 64 false).toOption.any (fun q => (judgeDesc (setSi q.1 0 0 { siGet q.1 0 0 with desc := none }) (rq .cpy o pa) q.2).toOption.isSome
        == (b == 2)) = true ∧ (siGet (setSi s 0 0 { siGet s 0 0 with desc := some (4, [2]) }) 0 0).desc = some (4, [2]) ∧
      farNew s (.si 0 0) acceptTag (some 3) = true) ∧
    (let va := 3 * 2 ^ 34; let s := carried (atHomeOf .gfree o va) 1 (.req (rq .gfree o va) va false)
     ((arrivedCmd s fun r => isStreamer r.op && siOf r.sl.core == .si 0 0).any fun q => q.2.op == .gfree) = true ∧
     (judgeGfree s (rq .gfree o va)).toOption.isSome = false ∧
     (judgeGfree { s with wins := [((0, 0), ⟨3, false, 1, 0x100000, 0x100100, 0, 1⟩)] } (rq .gfree o va)).toOption.isSome = true) ∧
    (∀ q ∈ [(0, true, false), (16, false, false), (0, true, true), (16, false, true)],
      let x := { aStream (.copy 0 3 0 0 0 pa 16) with dsts := [⟨0, 0x100100, 0, [], none, [], 0⟩], mask := 1, off := q.1, stamp := if q.2.1 then 0 else pa }
      let s0 := islandOf (atHomeOf .cpy o pa) x; let s := if q.2.2 then { s0 with mem := tset s0.mem 0x20006 3 } else s0
      stream? s 0 0 4 = some x ∧ unitHolds s (.si 0 0) = false ∧ chunkReady (siGet s 0 0) x = q.2.1 ∧ itsTurn (siGet s 0 0) 4 = q.2.1 ∧
      engineWaits s x.req Code.paneState = false ∧ streamDone x = !q.2.1 ∧ awayFor s 0 (nextSrc x) (true, false) = false ∧
      awayFor s 0 x.stamp (false, true) = false ∧ lastVa x = x.stamp ∧ ctxLive s 0 = true ∧ underBudget s (srcHome s x) 3 = true ∧ lastHolds s x = false ∧
      farWafer s 0 pa (true, false) = (if q.2.2 then some 3 else none) ∧ farNew s (.si 0 0) 4 (farWafer s 0 pa (q.2.1, !q.2.1)) = q.2.2) ∧
    (let x := { aStream (.copy 0 3 0 0 0 pa 16) with dsts := [⟨0, 0x100100, 0, [], none, [(0, [1])], 0⟩], mask := 1 }
     (x.dsts.any fun d => !d.held.isEmpty) = true) ∧
    (∀ k ∈ [SKind.gbind 3 false 1 pa pa 0, .unbind 0, .gfree 0, .bin 2 0 pa pa pa pa, .qpost pa pa (some 1)], streamDone (aStream k) = true) ∧
    (let u := carried (atHomeOf .ld o pa) 1 (.req (rq .ld o pa) pa true); (reqHere u 9).map (fun q => q.2.2) = some true) ∧
    (let s0 := atHomeOf .cpy o pa
     (∀ w ∈ [0, 1], let x := { aStream (.copy w 3 1 1 16 pa 16) with dsts := [⟨0, 0x100100, 0, [], none, [], 0⟩], mask := 1 }
     let s := islandOf { s0 with mem := tset s0.mem 0x20000 0x1F } x
     (translate s 0 pa (true, false)).toOption = some (pa, true) ∧ chunkReady (siGet s 0 0) x = true ∧ engineWaits s x.req Code.decodeLength = false ∧
     nextSrc x = pa ∧ ctxLive s 0 = true ∧ (readUpTo s 0 1 pa (min (min 8 2047 - pa % 2048) 16)).2.2 = none)) := by decide +kernel

/-- A matrix command of launch 1 that waits for nothing. -/
def mcmd (op : Op) : MCmd := ⟨6, rq op (abc (num 0) (num 7) none) 0, 0, false, [], none, [], 0, 0, 0, 0, 0, false, [], 0x100000, 0, 0, 0, [], []⟩

/-- An island with a control queue and a pool. -/
def matrixOf (ctrl pool : List MCmd) (wk : Nat) : State :=
  let s := atHomeOf .mstat (abc (num 0) (num 7) none) 0
  { s with x := { s.x with mis := [((0, 0), { Mi.reset with ctrl := ctrl, pool := pool, active := { Plane.reset with wk := some wk } })] } }

theorem test_meets_MatrixIslandsRun :
    (∀ q ∈ [(Op.mswap, true), (.mload, false)], let o := abc (num 0xF) (num 7) none
      let s := carried (atHomeOf q.1 o 0) 1 (.req (rq q.1 o 0) 0 false)
      ((arrivedCmd s fun r => isMatrix r.op && miOf r.sl.core == .mi 0 0 && ctxRuns s r.ctx && matrixRoom (miGet s 0 0) r.op).any fun p => p.1.id == 9) = true ∧
      (judgeMatrix (dropPkt s 9) (miGet s 0 0) (rq q.1 o 0)).toOption.isSome = q.2) ∧
    (∀ c ∈ [mcmd .mswap, mcmd .mclr, mcmd .mmask, mcmd .mstat, mcmd .mload, { mcmd .mload with going := true }, mcmd .mdrain,
        { mcmd .mdrain with going := true }], let s := matrixOf [c] [] 0
      isFrozen s 0 1 = false ∧ isFrozen (freeze s 0 1 false) 0 1 = true ∧ (miGet s 0 0).ctrl = [c] ∧ ctxRuns s c.req.ctx = true ∧ unitHolds s (.mi 0 0) = false ∧
      ((miGet s 0 0).pool.all fun d => !c.before.contains d.id) = true ∧ c.got.length = c.panes.length + c.scale.toList.length ∧ c.done = c.rows) ∧
    (let c := { mcmd .mclr with before := [7] }; let s := matrixOf [c] [{ mcmd .mstrm with id := 7 }] 0
     ((miGet s 0 0).pool.all fun d => !c.before.contains d.id) = false) ∧
    (let c := { mcmd .mstrm with rows := 2, got := [(0, List.replicate 2048 1)] }; let s := matrixOf [] [c] 0
     first? (fun c => rowReady (miGet s 0 0) c && ctxRuns s c.req.ctx && !isFrozen s 0 c.req.lid && !unitHolds s (.mi 0 0)) (miGet s 0 0).pool = some c ∧
     classOk (miGet s 0 0).active (accGet (miGet s 0 0) 0) 0 = true ∧ classOk (miGet s 0 0).active { accGet (miGet s 0 0) 0 with kind := 1 } 0 = false ∧
     c.done + 1 < c.rows) := by decide +kernel

/-! ## Records, packets, links, the host side -/

/-- A held record with room in its ring and with none; a region that has stood still with a set in it; a packet at its gate, on its way, and
arrived; a budget before its period's end and at it. -/
theorem test_meets_RecordsAndMesh :
    (∀ k ∈ [0, 64], let r := { recBase (.core demoSlot.core) Code.xlat 0 0 0 0 1 with rid := 5 }
      let q := { SupR.reset with frbase := 0x200000, frlog2 := 12, frwr := BitVec.ofNat 64 k }
      let s := { onUser (.syield sw0) [] with recQ := [r], supr := [(0, q)] }
      (tget s.parts 0).isSome = true ∧ first? (fun r : FRec => r.part == 0) s.recQ = some r ∧ (supr s (homeField s 0)).ringN = 64 ∧
      (homeWrite s none ((supr s 0).slot (supr s 0).frwr) (frecBytes s r ((supr s 0).lap (supr s 0).frwr)) false).toOption.any (fun u =>
        (waitingAway u (homeUnit u ((supr s 0).slot (supr s 0).frwr))).isEmpty) = true) ∧
    (let s := { onSet (.add wAdd) (abc (num 1) none none) with prog := [((0, 1), 0)], ctrs := [(.seqr 0, 2 ^ 40)] }
     ((launch? s 1).any fun l => l.stat == .running && l.fields.contains 0 && ctxRuns s l.ctx) = true ∧ partOfField s 0 = some 0 ∧
     isFrozen s 0 1 = false ∧ (partOfField s (homeField s 0)).isSome = true ∧ seqrHolds s (homeField s 0) = false ∧ stalled s (homeField s 0) 0 1 = true ∧ holdsWork s 1 0 = true) ∧
    (∀ q ∈ [(false, 0, 0), (false, 0x180, 0), (true, 0, 0), (true, 0, 7)],
      let p : Packet := ⟨9, 9, 1, .core demoSlot.core, 0, .core ⟨0, 3, 2⟩, 0, ⟨0, 0⟩, q.1, false, q.2.2, 0, 1, .counts 1 demoSlot.core []⟩
      let b : Budget := { Budget.reset with used := [0, q.2.1, 0, 0] }
      let s := { onSet (.add wAdd) (abc none none none) with net := [p], budgets := [(.core demoSlot.core, b)] }
      pkt? s 9 = some p ∧ behind s p = false ∧ gateOpen s p = (q.2.1 == 0) ∧ (goalOf s p).1 = ⟨3, 2⟩ ∧ p.here ≠ (goalOf s p).1 ∧
      (q.1 = true → outranked s p = false ∧
        outranked { s with net := [p, { p with id := 8, cls := 0 }] } p = true ∧ outranked { s with net := [p, { p with id := 8, cls := 2 }] } p = false ∧
        outranked (takeTurn { s with net := [p, { p with id := 8, cls := 2 }] } p (exitOf s p)) p = true ∧ exitOf s p = .router ⟨1, 0⟩ ∧
        exitOf s { p with here := ⟨3, 2⟩ } = .unit (.core ⟨0, 3, 2⟩) ∧ p.out = false ∧ arrivalAway s p = false)) ∧
    (let p : Packet := ⟨9, 9, 1, .core demoSlot.core, 0, .core ⟨0, 3, 2⟩, 1, ⟨0, 0⟩, true, false, 1, 0, 4, .counts 1 demoSlot.core []⟩
     let g := (goalOf State.reset p).1
     (match exitOf State.reset { p with here := g } with
      | .unit (.port _) => true
      | _ => false) = true ∧ p.fails ≠ 0 ∧ p.sent + 1 < p.beats) ∧
    (let s := { State.reset with ctrs := [(.core demoSlot.core, 1024)] }; let b := budgetOf s (.core demoSlot.core)
     hasBudget (.core demoSlot.core) = true ∧ b.period = 1024 ∧ b.period ≤ (ctr s (.core demoSlot.core) - b.since).toNat ∧
     (ctr State.reset (.core demoSlot.core) - b.since).toNat < b.period) := by decide +kernel

/-- A port in each state, with keys; frames that fail a check, and those whose tag is good: whether a tag is good is not known, so the last clause
shows that a frame which opens meets the rest of its statement's hypotheses. -/
def portIn (st : PState) : State :=
  let l := { LPort.reset with st := st, txCur := some ⟨1, 1⟩, txNext := some ⟨2, 2⟩, ackd := some 2, rxCur := some ⟨3, 3⟩ }
  { State.reset with ports := [(5, { l with outq := [⟨7, [9], none, 0, false⟩] })] }

/-- A frame of a kind, under a key, with no data. -/
def frame (kind : Nat) (kid : W32) (rsv : BitVec 73) : Frame := ⟨⟨BitVec.ofNat 8 kind, 0, kid, 4, 7, 0, false, 0, 0, rsv⟩, [], 0⟩

theorem test_meets_LinksRun :
    (lportOf State.reset 5).st = .down ∧ (lportOf (portIn .up) 5).st = .up ∧ (lportOf (portIn .keywait) 5).st = .keywait ∧
    (lportOf (portIn .up) 5).ackd = some 2 ∧ class0First (portIn .up) 5 7 = false ∧ outOfTurn (portIn .up) 5 7 = false ∧
    (let s := portIn .up; let l := lportOf s 5; let s := setPort s 5 { l with outq := l.outq ++ [⟨8, [9], none, 0, false⟩], served := [7] }
     outOfTurn s 5 7 = true ∧ outOfTurn s 5 8 = false) ∧
    cutPiece 7 (lportOf (pull (portIn .up) 5 7) 5).outq = some (⟨7, [9], none, 0, false⟩, []) ∧
    (lportOf (portIn .up) 5).clash = false ∧ waitsTurn (portIn .up) 5 7 = false ∧ (lportOf (portIn .up) 5).mayChange = true ∧
    (let s := portIn .up; let s := setPort s 5 { lportOf s 5 with txctr := BitVec.ofNat 48 (2 ^ 48 - 3), ackd := none }
     2 ^ 48 - 1 ≤ (lportOf (pull s 5 7) 5).txctr.toNat + 1 + 1 ∧ (lportOf s 5).mayChange = false ∧ (lportOf s 5).clash = false ∧ waitsTurn s 5 7 = false) ∧
    (let s := portIn .up; let s := setPort s 5 { lportOf s 5 with redo := 1, unack := [⟨0, 7, [9], none, (0, 0), 9, 0⟩] }
     waitsTurn s 5 8 = true ∧ waitsTurn s 5 7 = false ∧ (lportOf s 5).clash = true) ∧
    openFrame 0 5 (lportOf (portIn .up) 5) (frame 2 3 1) = none ∧ (lportOf (portIn .up) 5).refus + 1 < 8 ∧ (frame 2 3 1).hdr.kind ≠ 3 ∧
    (let l := { lportOf (portIn .up) 5 with refus := 7 }; l.nakd = false ∧ 8 ≤ l.refus + 1 ∧ openFrame 0 5 l (frame 2 3 1) = none) ∧
    tooEarly (lportOf (portIn .up) 5) (frame 2 3 0).hdr = false ∧ tooEarly { lportOf (portIn .up) 5 with nakd := true } (frame 2 3 0).hdr = true := by
  decide +kernel

theorem test_meets_LinksRun_frames (h : ∀ n f, Config.gcmOpen 3 n f [] 0 = some []) :
    openFrame 0 5 (lportOf (portIn .up) 5) (frame 1 3 0) = some (false, []) ∧ openFrame 0 5 (lportOf (portIn .up) 5) (frame 2 3 0) = some (false, []) ∧
    openFrame 0 5 (lportOf (portIn .keywait) 5) (frame 3 1 0) = some (false, []) ∧
    tooEarly (lportOf (portIn .keywait) 5) (frame 3 1 0).hdr = false := by
  refine ⟨?_, ?_, ?_, ?_⟩ <;> simp [openFrame, unsealed, portIn, lportOf, frame, hdrOkay, LPort.reset, tgetD, tget, tooEarly] <;> exact h _ _

/-- The header flit's fields at their places (R325), read again, and the nonce of a frame (R327). -/
theorem test_header_and_nonce :
    hdrFlit ⟨1, 8, 0xABCD, 0x12345, 0x1003, 7, true, 5, 9, 0⟩ =
      (9 <<< 208 ||| 5 <<< 192 ||| 1 <<< 176 ||| 7 <<< 128 ||| 0x1003 <<< 112 ||| 0x12345 <<< 64 ||| 0xABCD <<< 32 ||| 8 <<< 8 ||| 1 : BitVec 256) ∧
    flitHdr (hdrFlit ⟨1, 8, 0xABCD, 0x12345, 0x1003, 7, true, 5, 9, 0⟩) = ⟨1, 8, 0xABCD, 0x12345, 0x1003, 7, true, 5, 9, 0⟩ ∧
    nonceOf 7 2 21 0x12345 = 0x000000072540000000012345#96 := by decide +kernel

/-- A register write of each step, host accesses that a window serves and that none does, and an AtomicOp. -/
theorem test_meets_RegistersAndHost :
    (∀ q ∈ [(7 * 2 ^ 35 * 0 + 8, RegStep.cstat), (0x7000, .mper), (0x7008, .mbud), (0, .other)],
      let w : RegW := ⟨4, 3 * 2 ^ 46 + q.1, 64⟩; let s := { State.reset with regw := [w] }
      first? (fun w : RegW => w.n == 4) s.regw = some w ∧ (regOf w.pa).map RegAt.step = some q.2) ∧
    memCol demoSlot.core.cx = false ∧
    (let s0 := onUser (.syield sw0) []; let s := { s0 with host := { s0.host with hwin := [((0, 0), 1 <<< 63)] } }
     inBar0 0 (2 ^ 38) 8 = true ∧ inBar0 0 0x100000 8 = false ∧ (hostAt s 0 0x100000 8).map (fun q => (q.1, q.2.1)) = some (0, 0x100000) ∧ (hostAt s 1 0x100000 8).isNone = true ∧
     decodePA s 0x100000 = some (.hbm 0 0x100000) ∧ (hostPut s 0 0x100000 (leBytes 8 7) (.hbm 0 0x100000)).toOption.isSome = true ∧
     (hostGet s 0 0x100000 8 (.hbm 0 0x100000)).toOption.isSome = true ∧ (homeNat s (some 0) 0x100000 8 false).toOption.isSome = true ∧
     (homeWrite s (some 0) 0x100000 (leBytes 8 7) false).toOption.isSome = true) := by decide +kernel

/-- PFORM of a free field and of one taken, PFREE with a launch and without one, the report, the POWER commands that may and may not, a period,
sensors at the limits and below them, and a reset with sound fuses. -/
theorem test_meets_ControllerServes :
    tget State.reset.parts 0 = none ∧ (tget (onUser (.syield sw0) []).parts 0).isSome = true ∧ pformBad State.reset 0 1 0 = false ∧ pformBad { State.reset with parts := [(1, ⟨[0], 0⟩)] } 0 1 0 = true ∧
    mailServes State.reset = true ∧ State.reset.launches.any (fun q => q.2.part == 0) = false ∧ (launched id).launches.any (fun q => q.2.part == 0) = true ∧
    State.reset.host.stage = 6 ∧ State.reset.host.trip = false ∧ (State.reset.host.pstate == 0) = true ∧ waferQuiet State.reset = true ∧
    State.reset.parts.isEmpty = true ∧ waferQuiet (launched id) = false ∧ (onUser (.syield sw0) []).parts.isEmpty = false ∧
    1400000 ≤ (ctr { State.reset with ctrs := [(.mgmt, 1400000)] } .mgmt - State.reset.host.psince).toNat ∧
    (1520#16).toNat = 1520 ∧ (1519#16).toNat < 1520 ∧ (1760#16).toNat = 1760 ∧ (⟨[], 0, 0⟩ : BootFuses).failAt = 0 := by decide +kernel

end Sys2Proof.Tests
end

section
/-! Register writes and host accesses (R3, R110, R312, R313, R335, R416, R419 to R422): what each register's write leaves, what a word of BAR0
reads and writes, and how each host access completes. -/

namespace Sys2Proof.Machine

open Sys2Proof

/-! ## Bit fields and bytes -/

/-- Bit i of a field taken out of a number. -/
theorem testBit_bits (v h l i : Nat) : (bits v h l).testBit i = (decide (i < h + 1 - l) && v.testBit (l + i)) := by
  simp [bits, Nat.testBit_mod_two_pow, Nat.testBit_div_two_pow, Nat.add_comm]

/-- Numbers that agree in bits [h:l] have the same field there. -/
theorem bits_congr {v w h l : Nat} (e : ∀ i, l ≤ i → i ≤ h → v.testBit i = w.testBit i) : bits v h l = bits w h l := by
  apply Nat.eq_of_testBit_eq
  intro i
  rw [testBit_bits, testBit_bits]
  by_cases hi : i < h + 1 - l
  · rw [e (l + i) (by omega) (by omega)]
  · simp [hi]

/-- Bit i of bits [h:l] kept in place. -/
theorem getLsbD_field (v : W64) {h l : Nat} (i : Nat) (hh : h < 64) :
    (field v h l).getLsbD i = (decide (l ≤ i) && decide (i ≤ h) && v.getLsbD i) := by
  rw [field, BitVec.getLsbD_ofNat, Nat.testBit_mul_two_pow, testBit_bits]
  by_cases hl : l ≤ i
  · by_cases hi : i ≤ h
    · have h1 : i < 64 := by omega
      have h2 : i - l < h + 1 - l := by omega
      have h3 : l + (i - l) = i := by omega
      simp [hl, hi, h1, h2, h3, BitVec.testBit_toNat]
    · have h2 : ¬ i - l < h + 1 - l := by omega
      simp [hi, h2]
  · simp [hl]

/-- The bytes of a number are its fields of 8 bits. -/
theorem leBytes_eq_map_bits (n v : Nat) :
    leBytes n v = (List.range n).map fun k => BitVec.ofNat 8 (bits v (8 * k + 7) (8 * k)) := by
  induction n generalizing v with
  | zero => rfl
  | succ n ih =>
    have head : BitVec.ofNat 8 (bits v 7 0) = BitVec.ofNat 8 v := by
      apply BitVec.eq_of_toNat_eq
      simp [bits]
    have tail (k : Nat) : bits (v / 256) (8 * k + 7) (8 * k) = bits v (8 * (k + 1) + 7) (8 * (k + 1)) := by
      have h1 : 2 ^ (8 * (k + 1)) = 256 * 2 ^ (8 * k) := by rw [Nat.mul_add, pow_add, Nat.mul_comm]; rfl
      have h2 : 8 * (k + 1) + 7 + 1 - 8 * (k + 1) = 8 * k + 7 + 1 - 8 * k := by omega
      rw [bits, bits, h1, h2, Nat.div_div_eq_div_mul]
    rw [leBytes, ih, List.range_succ_eq_map, List.map_cons, List.map_map, Nat.mul_zero, head]
    simp only [Function.comp_def, tail]

/-! ## Register writes at their unit -/

/-- The event of a register's own kind applies the write and takes it off the list (R3). -/
theorem applyRegw_step {s : State} {n : Nat} {w : RegW} {r : RegAt} (hw : first? (fun w : RegW => w.n == n) s.regw = some w)
    (hr : regOf w.pa = some r) :
    applyRegw s n r.step = regPut { s with regw := dropFirst (fun w => w.n == n) s.regw } r w.v := by
  simp only [applyRegw, hw, hr, if_true]

/-- HOLD of slot i: the whole word (R110). -/
theorem coreWrite_hold (s : State) {c : CoreId} {i : Nat} (v : W64) (hm : memCol c.cx = false) (hi : i < 256) :
    coreWrite s c (16 * i) v = { s with x := { s.x with hold := tset s.x.hold (slotAt c i) v } } := by
  have h1 : ¬ 0x7000 ≤ 16 * i := by omega
  have h2 : 16 * i < 0x1000 := by omega
  simp [coreWrite, h1, hm, h2]

/-- CSTAT of slot i: the flags where a one is written are cleared (R110). -/
theorem coreWrite_cstat (s : State) {c : CoreId} {i : Nat} (v : W64) (hm : memCol c.cx = false) (hi : i < 256) :
    coreWrite s c (16 * i + 8) v = { s with x := { s.x with
      flags := tset s.x.flags (slotAt c i) (flagsOf s (slotAt c i) &&& ~~~(v.extractLsb' 0 5)) } } := by
  have h1 : ¬ 0x7000 ≤ 16 * i + 8 := by omega
  have h2 : 16 * i + 8 < 0x1000 := by omega
  have h3 : (16 * i + 8) / 16 = i := by omega
  have h4 : (16 * i + 8) % 16 = 8 := by omega
  simp [coreWrite, h1, hm, h2, h3, h4]

/-- MPER in its range waits for the next period (R312, R313). -/
theorem budgetOf_budWrite_mper (s : State) (u : UnitId) {v : W64} (lo : 64 ≤ bits v.toNat 16 0) (hi : bits v.toNat 16 0 ≤ 65536) :
    budgetOf (budWrite s u 0x7000 v) u = { budgetOf s u with nperiod := some (bits v.toNat 16 0) } := by
  simp [budWrite, lo, hi, budgetOf]

/-- MPER outside its range is left out (R313). -/
theorem budWrite_mper_out (s : State) (u : UnitId) {v : W64} (h : bits v.toNat 16 0 < 64 ∨ 65536 < bits v.toNat 16 0) :
    budWrite s u 0x7000 v = s := by
  simp only [budWrite, Bool.and_eq_true, decide_eq_true_eq]
  exact if_neg (by omega)

/-- MBUD waits for the next period (R312, R313). -/
theorem budgetOf_budWrite_mbud (s : State) (u : UnitId) (v : W64) :
    budgetOf (budWrite s u 0x7008 v) u = { budgetOf s u with nbud := some v } := by
  simp [budWrite, budgetOf]

/-- LTMO in its range is stored (R335). -/
theorem regPut_ltmo (s : State) {v : W64} (lo : 1 ≤ bits v.toNat 19 0) (hi : bits v.toNat 19 0 ≤ 1000000) :
    regPut s (.link 8) v = { s with ltmo := bits v.toNat 19 0 } := by
  simp [regPut, lo, hi]

/-- LTMO outside its range is left out (R335). -/
theorem regPut_ltmo_out (s : State) {v : W64} (h : bits v.toNat 19 0 < 1 ∨ 1000000 < bits v.toNat 19 0) : regPut s (.link 8) v = s := by
  simp only [regPut, Bool.and_eq_true, decide_eq_true_eq]
  exact if_neg (by omega)

/-- FRCTL in its range is stored (R416). -/
theorem supr_supWrite_frctl (s : State) (f : Nat) {v : W64} (lo : 12 ≤ bits v.toNat 4 0) (hi : bits v.toNat 4 0 ≤ 24) :
    supr (supWrite s f 0x08 v) f = { supr s f with frlog2 := bits v.toNat 4 0 } := by
  simp [supWrite, lo, hi, supr]

/-- FRCTL outside its range is left out (R416). -/
theorem supWrite_frctl_out (s : State) (f : Nat) {v : W64} (h : bits v.toNat 4 0 < 12 ∨ 24 < bits v.toNat 4 0) : supWrite s f 0x08 v = s := by
  simp only [supWrite, Bool.and_eq_true, decide_eq_true_eq]
  exact if_neg (by omega)

/-- HANGIV in its range is stored (R416). -/
theorem supr_supWrite_hangiv (s : State) (f : Nat) {v : W64} (lo : 10 ≤ bits v.toNat 5 0) (hi : bits v.toNat 5 0 ≤ 40) :
    supr (supWrite s f 0x28 v) f = { supr s f with hangiv := bits v.toNat 5 0 } := by
  simp [supWrite, lo, hi, supr]

/-- HANGIV outside its range is left out (R416). -/
theorem supWrite_hangiv_out (s : State) (f : Nat) {v : W64} (h : bits v.toNat 5 0 < 10 ∨ 40 < bits v.toNat 5 0) : supWrite s f 0x28 v = s := by
  simp only [supWrite, Bool.and_eq_true, decide_eq_true_eq]
  exact if_neg (by omega)

/-! ## The words of BAR0 -/

theorem bar0At_hwin {k : Nat} (hk : k < 16) : bar0At (0x100000 + 8 * k) = .hwin k := by
  have h : 0x100000 + 8 * k < 0x100080 := by omega
  simp [bar0At, h]

theorem bar0At_mbox {k : Nat} (hk : k < 0x1000) : bar0At (0x400000 + k) = .mbox k := by
  have h1 : ¬ 0x400000 + k < 0x100080 := by omega
  have h2 : ¬ 0x400000 + k < 0x200180 := by omega
  have h3 : 0x400000 + k ≠ 0x300000 := by omega
  have h4 : 0x400000 + k ≠ 0x300008 := by omega
  have h5 : 0x400000 + k < 0x401000 := by omega
  simp [bar0At, h1, h2, h3, h4, h5]

theorem bar0At_defmap {o : Nat} (lo : 0x200000 ≤ o) (hi : o < 0x200180) : bar0At o = .defmap ((o - 0x200000) / 8) := by
  have h1 : o ≠ 0 := by omega
  have h2 : ¬ o < 0x100080 := by omega
  simp [bar0At, h1, h2, lo, hi]

/-- The status, PWRCTL, THERM and the defect map are read-only (R419, R429, R431). -/
theorem bar0Put_readOnly (s : State) (fn : Nat) {o : Nat} (v : W64)
    (h : o = 0 ∨ o = 0x300000 ∨ o = 0x300008 ∨ (0x200000 ≤ o ∧ o < 0x200180)) : bar0Put s fn o v = s := by
  rcases h with rfl | rfl | rfl | ⟨lo, hi⟩
  · rfl
  · rfl
  · rfl
  · rw [bar0Put, bar0At_defmap lo hi]

/-- A word of the mailbox reads as it was written (R424). -/
theorem bar0Get_bar0Put_mbox (s : State) (fn : Nat) {k : Nat} (v : W64) (hk : k < 0x1000) :
    bar0Get (bar0Put s fn (0x400000 + k) v) fn (0x400000 + k) = v := by
  simp only [bar0Get, bar0Put, bar0At_mbox hk]
  generalize hb : s.host.mbox ++ List.replicate (k + 8 - s.host.mbox.length) (0 : Byte) = b
  have hlen : (b.take k).length = k := by
    rw [← hb, List.length_take, List.length_append, List.length_replicate]; omega
  have word : ((b.take k ++ leBytes 8 v.toNat ++ b.drop (k + 8)).drop k).take 8 = leBytes 8 v.toNat := by
    rw [List.append_assoc, List.drop_left' hlen, List.take_left' (leBytes_length 8 _)]
  rw [word, leNat_leBytes]
  exact BitVec.eq_of_toNat_eq (by simp [v.isLt])

/-- An aligned read of 8 bytes is the word's bytes. -/
theorem bar0Read_word (s : State) (fn : Nat) {o : Nat} (ho : o % 8 = 0) : bar0Read s fn o 8 = leBytes 8 (bar0Get s fn o).toNat := by
  rw [bar0Read, leBytes_eq_map_bits]
  apply List.map_congr_left
  intro k hk
  have hk8 : k < 8 := List.mem_range.mp hk
  have h1 : (o + k) / 8 * 8 = o := by omega
  have h2 : (o + k) % 8 = k := by omega
  rw [h1, h2]

/-- The bytes that stand over a whole word are all of the new ones. -/
theorem zipIdx_map_whole (old new : List Byte) (o : Nat) (h : old.length = new.length) :
    (old.zipIdx.map fun q => if o ≤ o + q.2 && o + q.2 < o + new.length then (new[o + q.2 - o]?).getD q.1 else q.1) = new := by
  apply List.ext_getElem
  · simpa using h
  · intro k h1 h2
    simp [h2]

/-- An aligned write of 8 bytes is one write of the word. -/
theorem bar0Write_word (s : State) (fn : Nat) {o : Nat} (v : Nat) (ho : o % 8 = 0) :
    bar0Write s fn o (leBytes 8 v) = bar0Put s fn o (BitVec.ofNat 64 v) := by
  have hlen : (leBytes 8 v).length = 8 := leBytes_length 8 v
  have one : (o + 8 + 7) / 8 - o / 8 = 1 := by omega
  have start : o / 8 * 8 = o := by omega
  have whole := zipIdx_map_whole (leBytes 8 (bar0Get s fn o).toNat) (leBytes 8 v) o (by rw [hlen, leBytes_length])
  have val : BitVec.ofNat 64 (v % 256 ^ 8) = BitVec.ofNat 64 v := BitVec.eq_of_toNat_eq (by simp)
  simp only [bar0Write, hlen, one, List.range_one, List.map_cons, List.map_nil, Nat.add_zero, List.foldl_cons, List.foldl_nil, start]
  rw [hlen] at whole
  rw [whole, leNat_leBytes, val]

/-! ## Host windows (R419) -/

theorem hwin_hwinPut (s : State) (fn w : Nat) (v : W64) : hwin (hwinPut s fn w v) fn w = field v 60 52 ||| field v 51 34 |||
    (if v.getLsbD 63 && bits v.toNat 47 46 == 0 && bits v.toNat 51 48 == s.wafno then 0x8000000000000000#64 else 0) := by
  simp [hwin, hwinPut]

/-- The valid bit stands alone in its word. -/
theorem getLsbD_validBit (b : Bool) {i : Nat} (hi : i < 63) : (if b then 0x8000000000000000#64 else 0).getLsbD i = false := by
  cases b
  · simp
  · have h : (0x8000000000000000#64) = BitVec.twoPow 64 63 := by decide
    simp [h, BitVec.getLsbD_twoPow]; omega

/-- A window that names memory of this wafer is valid where V is written, any other is not. -/
theorem hwin_hwinPut_valid (s : State) (fn w : Nat) (v : W64) : (hwin (hwinPut s fn w v) fn w).getLsbD 63 =
    (v.getLsbD 63 && bits v.toNat 47 46 == 0 && bits v.toNat 51 48 == s.wafno) := by
  rw [hwin_hwinPut, BitVec.getLsbD_or, BitVec.getLsbD_or, getLsbD_field v 63 (by decide), getLsbD_field v 63 (by decide)]
  generalize (v.getLsbD 63 && bits v.toNat 47 46 == 0 && bits v.toNat 51 48 == s.wafno) = ok
  cases ok <;> simp

/-- Below the valid bit a window's word is CTX and the base. -/
theorem getLsbD_hwin_hwinPut (s : State) (fn w : Nat) (v : W64) {i : Nat} (lo : 34 ≤ i) (hi : i ≤ 60) :
    (hwin (hwinPut s fn w v) fn w).getLsbD i = v.getLsbD i := by
  have h63 : i < 63 := by omega
  rw [hwin_hwinPut, BitVec.getLsbD_or, BitVec.getLsbD_or, getLsbD_field v i (by decide), getLsbD_field v i (by decide),
    getLsbD_validBit _ h63]
  by_cases h : i ≤ 51
  · have h52 : ¬ 52 ≤ i := by omega
    simp [h, h52, lo]
  · have h52 : 52 ≤ i := by omega
    simp [h, h52, hi]

/-- CTX and the base of a window are kept as written. -/
theorem bits_hwin_hwinPut (s : State) (fn w : Nat) (v : W64) {h l : Nat} (lo : 34 ≤ l) (hi : h ≤ 60) :
    bits (hwin (hwinPut s fn w v) fn w).toNat h l = bits v.toNat h l :=
  bits_congr fun i hl hh => by
    simpa [BitVec.testBit_toNat] using getLsbD_hwin_hwinPut s fn w v (lo.trans hl) (hh.trans hi)

theorem exec_hwinWrite (s : State) {fn k : Nat} (v : W64) (hf : fn < 2) (hk : k < 16) :
    exec (.hwinWrite fn k v) s = .next (hwinPut s fn k v) := by
  have h1 : ¬ 2 ≤ fn := by omega
  have h2 : ¬ 16 ≤ k := by omega
  change execHwinWrite fn k v s = _
  simp [execHwinWrite, h1, h2]

/-! ## Host accesses (R420, R421) -/

theorem exec_hostWrite_bar0 (s : State) {fn off : Nat} {bs : List Byte} (hl : bs.length ≤ 512) (hb : inBar0 fn off bs.length = true) :
    exec (.hostWrite fn off bs) s = .next (hostDone (bar0Write s fn (off - bar0) bs) []) := by
  change execHostWrite fn off bs s = _
  rw [execHostWrite, if_neg (by omega), if_pos hb]

theorem exec_hostWrite_nowhere {s : State} {fn off : Nat} {bs : List Byte} (hl : bs.length ≤ 512) (hb : inBar0 fn off bs.length = false)
    (ha : hostAt s fn off bs.length = none) : exec (.hostWrite fn off bs) s = .next (hostUr s 0) := by
  change execHostWrite fn off bs s = _
  simp only [execHostWrite, Nat.not_lt.mpr hl, hb, ha, if_false, Bool.false_eq_true]

theorem exec_hostWrite_window {s u : State} {fn off c pa : Nat} {t : Tgt} {bs : List Byte} (hl : bs.length ≤ 512)
    (hb : inBar0 fn off bs.length = false) (ha : hostAt s fn off bs.length = some (c, pa, t)) (hp : hostPut s c pa bs t = .ok u) :
    exec (.hostWrite fn off bs) s = .next (hostDone u []) := by
  change execHostWrite fn off bs s = _
  simp only [execHostWrite, Nat.not_lt.mpr hl, hb, ha, hp, if_false, Bool.false_eq_true]

theorem exec_hostRead_bar0 (s : State) {fn off n : Nat} (hl : n ≤ 4096) (hb : inBar0 fn off n = true) :
    exec (.hostRead fn off n) s = .next (hostDone s (bar0Read s fn (off - bar0) n)) := by
  change execHostRead fn off n s = _
  rw [execHostRead, if_neg (by omega), if_pos hb]

theorem exec_hostRead_nowhere {s : State} {fn off n : Nat} (hl : n ≤ 4096) (hb : inBar0 fn off n = false)
    (ha : hostAt s fn off n = none) : exec (.hostRead fn off n) s = .next (hostUr s n) := by
  change execHostRead fn off n s = _
  simp only [execHostRead, Nat.not_lt.mpr hl, hb, ha, if_false, Bool.false_eq_true]

theorem exec_hostRead_window {s u : State} {fn off c pa n : Nat} {t : Tgt} {b : List Byte} (hl : n ≤ 4096)
    (hb : inBar0 fn off n = false) (ha : hostAt s fn off n = some (c, pa, t)) (hg : hostGet s c pa n t = .ok (u, b)) :
    exec (.hostRead fn off n) s = .next (hostDone u b) := by
  change execHostRead fn off n s = _
  simp only [execHostRead, Nat.not_lt.mpr hl, hb, ha, hg, if_false, Bool.false_eq_true]

/-- An aligned AtomicOp on HBM puts the new value and answers the old one (R422). -/
theorem hostAtomic_hbm {s u v : State} {fn off c pa n st o x : Nat} {f : Nat → Nat} (hn : n = 4 ∨ n = 8) (ho : off % n = 0)
    (ha : hostAt s fn off n = some (c, pa, .hbm st o)) (hr : homeNat s (some c) pa n false = .ok (u, x))
    (hw : homeWrite u (some c) pa (leBytes n (f x)) false = .ok v) :
    hostAtomic s fn off n f = hostDone (wakeStwait v pa n) (leBytes n x) := by
  have hsize : (n == 4 || n == 8) = true := by simpa using hn
  simp [hostAtomic, hsize, ho, ha, hr, hw]

/-- Settles O59: one lemma per register and per way a host access completes; a word of BAR0 and its eight bytes are the same, and a
window's word keeps CTX and base beside the valid bit. -/
theorem registersAndHost : Obligations.RegistersAndHost := by
  refine ⟨?regw, ?core, ?budget, ?ranges, ?host⟩
  case regw =>
    intro s n w r hw hr
    have applied := applyRegw_step hw hr
    cases kind : r.step <;> rw [kind] at applied <;> exact congrArg Host.Outcome.next applied
  case core =>
    intro s c i v hm hi
    constructor
    · simp [regPut, coreWrite_cstat s v hm hi, flagsOf, slotAt]
    · simp [regPut, coreWrite_hold s v hm hi, holdOf, slotAt]
  case budget =>
    intro s c v
    exact ⟨budgetOf_budWrite_mper s (.core c), budWrite_mper_out s (.core c), budgetOf_budWrite_mbud s (.core c) v⟩
  case ranges =>
    intro s f v
    exact ⟨fun lo hi => by rw [regPut_ltmo s lo hi], regPut_ltmo_out s, supr_supWrite_frctl s f, supWrite_frctl_out s f,
      supr_supWrite_hangiv s f, supWrite_hangiv_out s f⟩
  case host =>
    intro s fn off c pa t
    refine ⟨fun bs hl hb => exec_hostWrite_bar0 s hl hb, fun n hl hb => exec_hostRead_bar0 s hl hb, ?words,
      fun bs hl hb => ⟨exec_hostWrite_nowhere hl hb, fun u => exec_hostWrite_window hl hb⟩,
      fun n hl hb => ⟨exec_hostRead_nowhere hl hb, fun u b => exec_hostRead_window hl hb⟩, ?atomics, ?windows⟩
    case words =>
      intro o ho
      refine ⟨bar0Read_word s fn ho, fun v => bar0Write_word s fn v ho, ?_, ?_, fun v => bar0Put_readOnly s fn v⟩
      · rintro k v hf hk rfl
        rw [exec_hwinWrite s v hf hk, bar0Get, bar0Put, bar0At_hwin hk]
        exact ⟨rfl, rfl⟩
      · rintro k v hk rfl
        exact bar0Get_bar0Put_mbox s fn v hk
    case atomics =>
      intro n st o u x hn ho ha hr
      exact ⟨fun v => ⟨fun z hw => congrArg Host.Outcome.next (hostAtomic_hbm hn ho ha hr hw),
          fun z hw => congrArg Host.Outcome.next (hostAtomic_hbm hn ho ha hr hw)⟩,
        fun k v z hw => congrArg Host.Outcome.next (hostAtomic_hbm hn ho ha hr hw)⟩
    case windows =>
      intro k v hf hk
      exact ⟨hwinPut s fn k v, exec_hwinWrite s v hf hk, rfl, hwin_hwinPut_valid s fn k v,
        bits_hwin_hwinPut s fn k v (by decide) (by decide), bits_hwin_hwinPut s fn k v (by decide) (by decide)⟩

end Sys2Proof.Machine
end

section
/-! Memory stays canonical (R12, R410; log 2), a step runs the decoded instruction (R20, R48, R64, R69), and what stands right after reset
(R313, R416, R424, R429, R431).

The invariant is carried through the model by one lemma for each operation that a step can reach, in the order of their definitions, so that the
proof about an operation cites those about the operations it is made of. `Keeps` is for what follows a step (`followUp`): it also says that no
slot changes its node, which the fetched word rests on. `MemOk` is for every other operation. -/

namespace Sys2Proof.Safety

open Sys2Proof Sys2Proof.Machine

set_option Elab.async false

/-! ## What a change keeps -/

/-- A change that keeps memory canonical and puts no other node into a slot, of either copy. -/
structure Keeps (s t : State) : Prop where
  memOk : MemOk s → MemOk t
  node : ∀ sl, tget t.x.nodes sl = tget s.x.nodes sl
  shNode : ∀ sl, tget t.sh.nodes sl = tget s.sh.nodes sl

variable {s t u : Machine.State}

protected theorem Keeps.rfl : Keeps s s := ⟨id, fun _ => rfl, fun _ => rfl⟩

protected theorem Keeps.trans (h : Keeps s t) (k : Keeps t u) : Keeps s u :=
  ⟨k.memOk ∘ h.memOk, fun sl => (k.node sl).trans (h.node sl), fun sl => (k.shNode sl).trans (h.shNode sl)⟩

protected theorem Keeps.congr (h : Keeps s t) (m : u.mem = t.mem := by rfl) (sm : u.smem = t.smem := by rfl)
    (n : u.x.nodes = t.x.nodes := by rfl) (sn : u.sh.nodes = t.sh.nodes := by rfl) : Keeps s u :=
  h.trans ⟨fun ⟨w, sw⟩ => ⟨m ▸ w, sm ▸ sw⟩, fun _ => by rw [n], fun _ => by rw [sn]⟩

protected theorem MemOk.congr (h : MemOk s) (m : t.mem = s.mem := by rfl) (sm : t.smem = s.smem := by rfl) : MemOk t :=
  ⟨m ▸ h.1, sm ▸ h.2⟩

protected theorem MemOk.keep (h : MemOk s) (k : Keeps s t) : MemOk t := k.memOk h

/-- An optional result has a property where there is one. -/
def Holds {α : Type} (p : α → Prop) : Option α → Prop
  | some a => p a
  | none => True

/-- The result of an operation that can fail has a property where it succeeds. -/
def Gives {ε α : Type} (p : α → Prop) : Except ε α → Prop
  | .ok a => p a
  | .error _ => True

theorem Holds.of_eq {α : Type} {p : α → Prop} {r : Option α} {a : α} (h : Holds p r) (e : r = some a) : p a := by
  subst e; exact h

theorem Gives.of_eq {ε α : Type} {p : α → Prop} {r : Except ε α} {a : α} (h : Gives p r) (e : r = .ok a) : p a := by
  subst e; exact h

protected theorem Keeps.foldl {α : Type} {f : State → α → State} (h : Keeps s t) (l : List α) (hf : ∀ u a, Keeps u (f u a)) :
    Keeps s (l.foldl f t) := by
  induction l generalizing t with
  | nil => exact h
  | cons a l ih => exact ih (h.trans (hf t a))

protected theorem MemOk.foldl {α : Type} {f : State → α → State} (h : MemOk s) (l : List α) (hf : ∀ u a, MemOk u → MemOk (f u a)) :
    MemOk (l.foldl f s) := by
  induction l generalizing s with
  | nil => exact h
  | cons a l ih => exact ih (hf s a h)

protected theorem Keeps.ite {c : Prop} [Decidable c] {a b : State} (ha : Keeps s a) (hb : Keeps s b) : Keeps s (if c then a else b) := by
  split
  · exact ha
  · exact hb

protected theorem MemOk.ite {c : Prop} [Decidable c] {a b : State} (ha : MemOk a) (hb : MemOk b) : MemOk (if c then a else b) := by
  split
  · exact ha
  · exact hb

/-- The state that a token is accepted in keeps memory canonical. -/
def AccOk : Acc → Prop
  | .yes s => MemOk s
  | _ => True

theorem AccOk.of_eq {r : Acc} {u : State} (h : AccOk r) (e : r = .yes u) : MemOk u := by
  subst e; exact h

/-- A step that goes on leaves memory canonical. -/
def NextOk : Host.Outcome State Fault Refusal → Prop
  | .next t => MemOk t
  | _ => True

theorem fst_of_eq {α β : Type} {p : α → Prop} {r : α × β} {a : α} {b : β} (h : p r.1) (e : r = (a, b)) : p a := by
  subst e; exact h

/-! ## Results with a state in them -/

theorem Holds.foldlM {α σ : Type} {p : σ → Prop} {f : σ → α → Option σ} {a : σ} (h : p a) (hf : ∀ a x, p a → Holds p (f a x))
    (l : List α) : Holds p (l.foldlM f a) := by
  induction l generalizing a with
  | nil => exact h
  | cons x l ih =>
    rw [List.foldlM_cons]
    cases e : f a x with
    | none => trivial
    | some b => exact ih ((hf a x h).of_eq e)

theorem Gives.bind {ε α β : Type} {p : α → Prop} {q : β → Prop} {r : Except ε α} {f : α → Except ε β} (h : Gives p r)
    (hf : ∀ a, p a → Gives q (f a)) : Gives q (r >>= f) := by
  cases r with
  | error e => trivial
  | ok a => exact hf a h

theorem Holds.getD {α : Type} {p : α → Prop} {r : Option α} {a : α} (h : Holds p r) (ha : p a) : p (r.getD a) := by
  cases r with
  | none => exact ha
  | some b => exact h

theorem Gives.bind_right {ε α β : Type} {q : β → Prop} {r : Except ε α} {f : α → Except ε β} (hf : ∀ a, Gives q (f a)) :
    Gives q (r >>= f) := by
  cases r with
  | error e => trivial
  | ok a => exact hf a

theorem Gives.mapError {ε δ α : Type} {p : α → Prop} {r : Except ε α} {f : ε → δ} (h : Gives p r) : Gives p (r.mapError f) := by
  cases r with
  | error e => trivial
  | ok a => exact h

/-- The error case of a result says nothing of the state. -/
theorem Gives.map_right {ε α β : Type} {q : β → Prop} {r : Except ε α} {f : α → β} (hf : ∀ a, q (f a)) : Gives q (r.map f) := by
  cases r with
  | error e => trivial
  | ok a => exact hf a

theorem Gives.map {ε α β : Type} {p : α → Prop} {q : β → Prop} {r : Except ε α} {f : α → β} (h : Gives p r)
    (hf : ∀ a, p a → q (f a)) : Gives q (r.map f) := by
  cases r with
  | error e => trivial
  | ok a => exact hf a h

theorem Holds.memOk {α : Type} {r : Option α} {f : α → Machine.State} (k : Holds (fun a => Keeps s (f a)) r) (h : MemOk s) :
    Holds (fun a => MemOk (f a)) r := by
  cases r with
  | none => trivial
  | some a => exact h.keep k

theorem Gives.memOk {ε α : Type} {r : Except ε α} {f : α → Machine.State} (k : Gives (fun a => Keeps s (f a)) r) (h : MemOk s) :
    Gives (fun a => MemOk (f a)) r := by
  cases r with
  | error e => trivial
  | ok a => exact h.keep k

protected theorem Keeps.eccRead (h : Keeps s t) {u l} : Holds (Keeps s) (eccRead t u l) := by
  induction l generalizing t with
  | nil => exact h
  | cons w l ih =>
    rw [eccRead]
    split
    · trivial
    · exact ih h.congr
    · exact ih h

/-! ## Writing memory and exchanging a copy -/

theorem tget_append {κ α : Type} [DecidableEq κ] (a b : Tbl κ α) (k : κ) : tget (a ++ b) k = (tget a k).or (tget b k) := by
  induction a with
  | nil => rfl
  | cons p a ih =>
    obtain ⟨j, v⟩ := p
    by_cases h : j = k
    · simp [tget, h]
    · simpa [tget, h] using ih

theorem tget_filter {κ α : Type} [DecidableEq κ] (p : κ → Bool) (a : Tbl κ α) (k : κ) :
    tget (a.filter fun q => p q.1) k = if p k then tget a k else none := by
  induction a with
  | nil => simp [tget]
  | cons q a ih =>
    obtain ⟨j, v⟩ := q
    by_cases h : j = k
    · subst h; cases hp : p j <;> simp [tget, hp, ih]
    · cases hp : p j <;> simp [tget, hp, h, ih]

/-- A table whose fields fs come from another reads there as the other does. -/
theorem tget_mixT {κ α : Type} [DecidableEq κ] (fs : List Nat) (fld : κ → Nat) (a b : Tbl κ α) (k : κ) :
    tget (mixT fs fld a b) k = if fs.contains (fld k) then tget b k else tget a k := by
  rw [mixT, tget_append, tget_filter (fun j => !fs.contains (fld j)), tget_filter (fun j => fs.contains (fld j))]
  cases fs.contains (fld k) <;> simp

protected theorem MemOk.exchange (h : MemOk s) {fs} : MemOk (exchange s fs) := ⟨wf_mixCells fs _ h.1, wf_mixCells fs _ h.2⟩

theorem node_exchange (s : Machine.State) (fs : List Nat) (sl : Slot) :
    tget (exchange s fs).x.nodes sl = if fs.contains sl.core.f then tget s.sh.nodes sl else tget s.x.nodes sl :=
  tget_mixT fs (fun k : Slot => k.core.f) _ _ sl

theorem shNode_exchange (s : Machine.State) (fs : List Nat) (sl : Slot) :
    tget (exchange s fs).sh.nodes sl = if fs.contains sl.core.f then tget s.x.nodes sl else tget s.sh.nodes sl :=
  tget_mixT fs (fun k : Slot => k.core.f) _ _ sl

/-- A change made between two exchanges of the same fields. -/
theorem Keeps.exchanged {fs : List Nat} (h : Keeps (exchange s fs) t) : Keeps s (exchange t fs) where
  memOk m := (h.memOk m.exchange).exchange
  node sl := by
    rw [node_exchange, h.node, h.shNode, node_exchange, shNode_exchange]
    split <;> rfl
  shNode sl := by
    rw [shNode_exchange, h.node, h.shNode, node_exchange, shNode_exchange]
    split <;> rfl

/-- The state with a saved context's part of the execution state in place, as onCopy makes it. -/
def withSaved (s : Machine.State) (fs : List Nat) (ctx : Nat) (v : Saved) : Machine.State :=
  { s with
    x := mixExec fs s.x v.exec
    mem := mixCells fs s.mem v.cells
    ecc := mixEcc fs s.ecc v.ecc
    aon := mixAon fs s.aon v.aon
    swapped := some ctx }

theorem Keeps.restored {fs : List Nat} {ctx : Nat} {v : Saved} (h : Keeps (withSaved s fs ctx v) t)
    (m : u.mem = mixCells fs t.mem s.mem) (sm : u.smem = t.smem) (n : u.x.nodes = (mixExec fs t.x s.x).nodes)
    (sn : u.sh.nodes = t.sh.nodes) : Keeps s u where
  memOk w := by
    have hw : MemOk t := h.memOk ⟨wf_mixCells fs _ w.1, w.2⟩
    exact ⟨m ▸ wf_mixCells fs _ hw.1, sm ▸ hw.2⟩
  node sl := by
    have hn : tget t.x.nodes sl = tget (mixT fs (fun k : Slot => k.core.f) s.x.nodes v.exec.nodes) sl := h.node sl
    rw [n, mixExec, tget_mixT, hn, tget_mixT]
    split
    · rfl
    · simp_all
  shNode sl := by rw [sn]; exact h.shNode sl

protected theorem Keeps.onCopy (h : Keeps s t) {ctx f} (hf : ∀ u, Keeps u (f u)) : Keeps s (onCopy t ctx f) := by
  refine h.trans ?_
  unfold Machine.onCopy
  split
  · exact hf t
  · split
    · exact hf t
    · dsimp only
      split
      next p _ _ =>
        have he : Keeps (exchange t (partFields t p)) (f { exchange t (partFields t p) with swapped := some ctx }) :=
          Keeps.rfl.congr.trans (hf _)
        exact he.exchanged.congr
      · split
        · exact hf t
        · split
          next v _ => exact (hf (withSaved t _ ctx v)).restored rfl rfl rfl rfl
          · exact hf t

protected theorem Keeps.eachCopy (h : Keeps s t) {u pa f} (hf : ∀ u, Keeps u (f u)) : Keeps s (eachCopy t u pa f) := by
  unfold Machine.eachCopy
  split
  · exact h.trans (hf t)
  · exact (h.trans (hf t)).foldl _ fun v c => Keeps.rfl.onCopy hf

protected theorem Keeps.memWrite (h : Keeps s t) {pa bs} : Keeps s (memWrite t pa bs) :=
  h.trans ⟨fun w => ⟨wf_cellsWrite pa bs w.1, w.2⟩, fun _ => rfl, fun _ => rfl⟩

protected theorem Keeps.eccUnit (h : Keeps s t) {u n} : Holds (Keeps s) (eccUnit u t n) := by
  unfold Machine.eccUnit
  split
  · trivial
  · exact h.congr.eccRead
  · exact h.eccRead

protected theorem Keeps.eccIn (h : Keeps s t) {g pa n cmp} : Holds (Keeps s) (eccIn t g pa n cmp) := by
  unfold Machine.eccIn
  split
  · exact Holds.foldlM h (fun _ _ hu => hu.eccUnit) _
  · exact h.eccRead

protected theorem MemOk.memWrite (h : MemOk s) {pa bs} : MemOk (memWrite s pa bs) := ⟨wf_cellsWrite pa bs h.1, h.2⟩

protected theorem MemOk.onCopy (h : MemOk s) {ctx f} (hf : ∀ u, MemOk u → MemOk (f u)) : MemOk (onCopy s ctx f) := by
  unfold Machine.onCopy
  split
  · exact hf s h
  · split
    · exact hf s h
    · dsimp only
      split
      next p _ _ =>
        have hx : MemOk { exchange s (partFields s p) with swapped := some ctx } := h.exchange.congr
        have he : MemOk (exchange (f { exchange s (partFields s p) with swapped := some ctx }) (partFields s p)) :=
          (hf _ hx).exchange
        exact he.congr
      · split
        · exact hf s h
        · split
          next p _ _ _ _ v _ =>
            have hv : MemOk (f (withSaved s (partFields s p) ctx v)) := hf _ ⟨wf_mixCells _ _ h.1, h.2⟩
            exact ⟨wf_mixCells _ _ hv.1, hv.2⟩
          · exact hf s h

protected theorem MemOk.eachCopy (h : MemOk s) {u pa f} (hf : ∀ u, MemOk u → MemOk (f u)) : MemOk (eachCopy s u pa f) := by
  unfold Machine.eachCopy
  split
  · exact hf s h
  · exact (hf s h).foldl _ fun v c hv => hv.onCopy hf

protected theorem MemOk.setX (h : MemOk s) (x : Exec) : MemOk { s with x := x } := h.congr

protected theorem MemOk.setLaunches (h : MemOk s) (l) : MemOk { s with launches := l } := h.congr

/-! ## Firings: what `Quiet` and `FiringChange` already say (Laws) -/

protected theorem Keeps.quiet {sl : Slot} (h : Keeps s t) (q : Quiet sl t u) : Keeps s u :=
  have hf := q.loc.frame
  h.congr q.mem (congrArg (·.smem) hf) (congrArg (·.x.nodes) hf) (congrArg (·.sh.nodes) hf)

protected theorem Keeps.firing {sl : Slot} {w : CW} (h : Keeps s t) (c : FiringChange w sl t u) : Keeps s u := by
  have hf := c.loc.frame
  have hs : u.smem = t.smem := congrArg (·.smem) hf
  have hn : u.x.nodes = t.x.nodes := congrArg (·.x.nodes) hf
  have hsn : u.sh.nodes = t.sh.nodes := congrArg (·.sh.nodes) hf
  refine h.trans ⟨fun ⟨m, sm⟩ => ⟨?_, hs ▸ sm⟩, fun i => by rw [hn], fun i => by rw [hsn]⟩
  rcases c.memKept with ⟨hm, -⟩ | ⟨a, bs, -, -, hm, -⟩
  · exact hm ▸ m
  · exact hm ▸ wf_cellsWrite a bs m

protected theorem MemOk.firing {sl : Slot} {w : CW} (h : MemOk s) (c : FiringChange w sl s t) : MemOk t := h.keep
    (Keeps.rfl.firing c)

protected theorem MemOk.quiet {sl : Slot} (h : MemOk s) (q : Quiet sl s t) : MemOk t := h.keep (Keeps.rfl.quiet q)

/-- The slot named where an operation is quiet for every slot. -/
def someSlot : Slot := ⟨⟨0, 0, 0⟩, 0, 0⟩

protected theorem Keeps.putTok (h : Keeps s t) {sl p a} : Keeps s (putTok t sl p a) := h.quiet (quiet_putTok ..)
protected theorem Keeps.settle (h : Keeps s t) {sl p rid l} : Keeps s (settle t sl p rid l) := h.quiet (quiet_settle ..)
protected theorem Keeps.reserve (h : Keeps s t) {sl p rid a q} : Keeps s (reserve t sl p rid a q) := h.quiet (quiet_reserve ..)
protected theorem Keeps.holdSets (h : Keeps s t) {sl} : Keeps s (holdSets t sl) := h.quiet (quiet_holdSets ..)
protected theorem Keeps.parkSet (h : Keeps s t) {sl n o c a u} : Keeps s (parkSet t sl n o c a u) := h.quiet (quiet_parkSet ..)
protected theorem Keeps.flushCounts (h : Keeps s t) {c} : Keeps s (flushCounts t c) := h.quiet (quiet_flushCounts t ⟨c, 0, 0⟩)
protected theorem Keeps.record (h : Keeps s t) {c lid l b} : Keeps s (record t c lid l b) := h.quiet
    (quiet_record t ⟨c, 0, 0⟩ lid l b)
protected theorem Keeps.progress (h : Keeps s t) {f lid} : Keeps s (progress t f lid) := h.quiet (quiet_progress t someSlot f lid)
protected theorem Keeps.spend (h : Keeps s t) {u cls n} : Keeps s (spend t u cls n) := h.quiet (quiet_spend t someSlot u cls n)
protected theorem Keeps.report (h : Keeps s t) {r} : Keeps s (report t r).2 := h.quiet (quiet_report t someSlot r)
protected theorem Keeps.reportFault (h : Keeps s t) {r} : Keeps s (reportFault t r).2 := h.quiet (quiet_reportFault t someSlot r)
protected theorem Keeps.breakAt (h : Keeps s t) {u k tgt f lid ctx n a q} : Keeps s (breakAt t u k tgt f lid ctx n a q) :=
  h.quiet (quiet_breakAt t someSlot u k tgt f lid ctx n a q)
protected theorem Keeps.toCatch (h : Keeps s t) {lid c sl o code a} : Keeps s (toCatch t lid c sl o code a).1 :=
  h.quiet (quiet_toCatch t someSlot lid c sl o code a)
protected theorem Keeps.enqueue (h : Keeps s t) {sl o} : Holds (Keeps s) (enqueue t sl o) := by
  cases e : Machine.enqueue t sl o with
  | none => trivial
  | some u => exact h.quiet (quiet_enqueue e)

/-! ## What follows a step -/

protected theorem Keeps.letReady (h : Keeps s t) : Keeps s (letReady t) := h.congr

protected theorem Keeps.homeRead (h : Keeps s t) {ctx pa n cmp} : Gives (fun r => Keeps s r.1) (homeRead t ctx pa n cmp) := by
  simp only [homeRead]
  split
  · exact h
  · split
    · trivial
    · split
      · trivial
      next e1 =>
        split
        · split
          · trivial
          · split
            · split
              · exact h.eccIn.of_eq e1
              · trivial
            · exact h.eccIn.of_eq e1
        · exact h.eccIn.of_eq e1
        · exact h.eccIn.of_eq e1

protected theorem Keeps.baseRead (h : Keeps s t) {ctx lid pa n cmp} : Gives (fun r => Keeps s r.1) (baseRead t ctx lid pa n cmp) := by
  simp only [baseRead]
  split
  · trivial
  · split
    · split
      · trivial
      · exact h
    · split
      · trivial
      · trivial
      · trivial
      · split
        · trivial
        · exact h.homeRead
      · exact h.homeRead

protected theorem Keeps.windowElem (h : Keeps s t) {w i rights} : Gives (fun r => Keeps s r.1) (windowElem t w i rights) := by
  simp only [windowElem]
  split
  · trivial
  · split
    · trivial
    next e1 =>
      split
      · trivial
      · exact h.baseRead.of_eq e1

protected theorem Keeps.windowRead (h : Keeps s t) {w lid o n} : Gives (fun r => Keeps s r.1) (windowRead w lid t o n) := by
  induction n generalizing t o with
  | zero => exact h
  | succ n ih =>
    rw [Machine.windowRead]
    split
    · trivial
    · refine Gives.bind h.windowElem ?_
      rintro ⟨u, pa, cmp⟩ hu
      refine Gives.bind (Keeps.baseRead hu) ?_
      rintro ⟨v, b⟩ hv
      exact Gives.bind (ih hv) fun _ hw => hw

protected theorem Keeps.pieceRead (h : Keeps s t) {ctx lid pa n cmp} : Gives (fun r => Keeps s r.1) (pieceRead t ctx lid pa n cmp) := by
  simp only [pieceRead]
  split
  · split
    · exact h.windowRead
    · trivial
  · exact h.baseRead

protected theorem Keeps.correctWord (h : Keeps s t) {w} : Keeps s (correctWord t w) := by
  simp only [correctWord]
  exact Keeps.ite h.congr h

protected theorem Keeps.walkFix (h : Keeps s t) {ctx va} : Keeps s (walkFix t ctx va) := by
  simp only [walkFix]
  exact h.foldl _ fun u a => Keeps.rfl.correctWord

protected theorem Keeps.engineRead (h : Keeps s t) {ctx lid k va n} : Gives (fun r => Keeps s r.1) (engineRead ctx lid k t va n) := by
  induction k generalizing t va n with
  | zero => exact h
  | succ k ih =>
    rw [Machine.engineRead]
    split
    · exact h
    · dsimp only
      split
      · trivial
      · split
        · trivial
        next u b e =>
          have hu : Keeps s u := h.walkFix.pieceRead.of_eq e
          split
          · trivial
          next v l e1 =>
            have hv : Keeps s v := (ih hu).of_eq e1
            exact hv

protected theorem Keeps.readAt (h : Keeps s t) {ctx lid va n} : Gives (fun r => Keeps s r.1) (readAt t ctx lid va n) := by
  simp only [readAt]
  exact h.engineRead

protected theorem Keeps.acceptable (h : Keeps s t) {f q z} : Holds (fun r => Keeps s r.1) (acceptable t f q z) := by
  simp only [acceptable]
  split
  · trivial
  · split
    · trivial
    next e =>
      split
      · exact h.readAt.of_eq e
      · trivial

protected theorem Keeps.letQueues (h : Keeps s t) : Keeps s (letQueues t) := h.congr

protected theorem Keeps.fresh (h : Keeps s t) : Keeps s (fresh t).2 := by
  simp only [fresh]
  exact h.congr

protected theorem Keeps.timeToken (h : Keeps s t) {port c} : Keeps s (timeToken t port c).2 := by
  simp only [timeToken]
  split
  · exact h
  · exact h.fresh.congr

protected theorem Keeps.timeCut (h : Keeps s t) {q} : Keeps s (timeCut t q) := by
  simp only [timeCut]
  split
  · exact h
  · split
    · exact h
    · split
      · exact h.timeToken
      · split
        · exact h
        · exact h.congr

protected theorem Keeps.letTimers (h : Keeps s t) : Keeps s (letTimers t) := by
  simp only [letTimers]
  exact h.foldl _ fun u a => Keeps.rfl.timeCut

protected theorem Keeps.recordOnly (h : Keeps s t) {u code ctx f lid sl addr t8 seq} :
    Keeps s (recordOnly t u code ctx f lid sl addr t8 seq) := by
  simp only [recordOnly]
  exact h.reportFault

protected theorem Keeps.answerDead (h : Keeps s t) {r} : Keeps s (answerDead t r) := by
  simp only [answerDead]
  exact (Keeps.ite h.recordOnly h).congr

protected theorem Keeps.deadExit (h : Keeps s t) {p} : Keeps s (deadExit t p) := by
  simp only [deadExit]
  split
  · exact h.congr.answerDead
  · exact h.congr
  · exact h.congr

protected theorem Keeps.letDead (h : Keeps s t) : Keeps s (letDead t) := by
  simp only [letDead]
  exact Keeps.ite h (h.foldl _ fun u a => Keeps.rfl.deadExit)

theorem nodes_unlistFrozen (s : Machine.State) (x : Exec) : (unlistFrozen s x).nodes = x.nodes := by
  simp only [unlistFrozen]
  split <;> rfl

protected theorem Keeps.letFrozen (h : Keeps s t) : Keeps s (letFrozen t) := by
  simp only [Machine.letFrozen]
  split
  · exact h
  · exact h.congr rfl rfl (nodes_unlistFrozen ..) (nodes_unlistFrozen ..)

protected theorem Keeps.askSlots (h : Keeps s t) {sl h2} : Keeps s (askSlots t sl h2) := by
  simp only [askSlots]
  split
  · split
    · exact h
    · split
      next e2 => exact h.congr.enqueue.of_eq e2
      · exact h
  · exact h

protected theorem Keeps.letStreams (h : Keeps s t) : Keeps s (letStreams t) := by
  simp only [letStreams]
  exact h.foldl _ fun u q1 => Keeps.rfl.askSlots

protected theorem Keeps.plainRead (h : Keeps s t) {r pa n cmp} : Gives (fun r => Keeps s r.1) (plainRead t r pa n cmp) := by
  simp only [plainRead]
  split
  · split
    · exact h.windowRead
    · trivial
  · exact h.homeRead

protected theorem Keeps.sendAns (h : Keeps s t) {home r a} : Keeps s (sendAns t home r a) := by
  simp only [sendAns]
  exact Keeps.ite (Keeps.ite h.congr h.congr) h.congr

protected theorem Keeps.serveWindows (h : Keeps s t) {u} : Keeps s (serveWindows u t) := by
  simp only [serveWindows]
  refine h.congr.foldl _ fun u1 e1 => ?_
  split
  · exact Keeps.rfl.sendAns
  · exact Keeps.rfl

protected theorem Keeps.letWindows (h : Keeps s t) : Keeps s (letWindows t) := by
  simp only [letWindows]
  exact h.foldl _ fun u1 u2 => Keeps.rfl.eachCopy (fun u => Keeps.rfl.serveWindows)

protected theorem Keeps.modHead (h : Keeps s t) {f n g} : Keeps s (modHead t f n g) := by
  simp only [modHead]
  split
  · exact h.congr
  · exact h

protected theorem Keeps.failPanes (h : Keeps s t) {ctx lid va len} : Keeps s (failPanes t ctx lid va len) := by
  simp only [failPanes]
  refine h.onCopy (fun u => Keeps.rfl.foldl _ fun u1 i1 => ?_)
  split
  · split
    · exact Keeps.rfl
    · split
      · exact Keeps.ite Keeps.rfl.congr Keeps.rfl
      · exact Keeps.rfl
  · exact Keeps.rfl

protected theorem Keeps.modLaunch (h : Keeps s t) {lid f} : Keeps s (modLaunch t lid f) := by
  simp only [modLaunch]
  split
  · exact h.congr
  · exact h

protected theorem Keeps.engineCatch (h : Keeps s t) {r c code addr} : Keeps s (engineCatch t r c code addr) := by
  simp only [engineCatch]
  exact h.toCatch.record

protected theorem Keeps.engineFault (h : Keeps s t) {u req ctx f code addr va aux} :
    Keeps s (engineFault t u req ctx f code addr va aux) := by
  simp only [engineFault]
  split
  · exact h.reportFault
  · split
    · exact h.reportFault.onCopy (fun u1 => Keeps.rfl.engineCatch)
    · exact h.reportFault

protected theorem Keeps.failDrain (h : Keeps s t) {f n c code va} : Keeps s (failDrain t f n c code va) := by
  simp only [failDrain]
  exact Keeps.ite h h.modHead.engineFault.failPanes

protected theorem Keeps.drainAck (h : Keeps s t) {src lid code va} : Keeps s (drainAck t src lid code va) := by
  simp only [drainAck]
  split
  · exact Keeps.ite (Keeps.ite h.modHead h.modHead.failDrain) h
  · exact h

protected theorem Keeps.failDst (h : Keeps s t) {f n x3 i code va} : Keeps s (failDst t f n x3 i code va) := by
  simp only [failDst]
  split
  · exact h
  · exact Keeps.ite h (Keeps.ite h.congr.engineFault h.congr.engineFault.failPanes)

protected theorem Keeps.streamAck (h : Keeps s t) {src code va} : Keeps s (streamAck t src code va) := by
  simp only [streamAck]
  split
  · exact h
  · exact Keeps.ite h.congr h.congr.failDst

protected theorem Keeps.finishAck (h : Keeps s t) {m} : Keeps s (finishAck t m) := by
  simp only [finishAck]
  split
  · exact h.onCopy (fun u => Keeps.ite Keeps.rfl.congr (Keeps.ite Keeps.rfl.drainAck Keeps.rfl.streamAck))
  · exact h

protected theorem Keeps.letAcks (h : Keeps s t) : Keeps s (letAcks t) := by
  simp only [letAcks]
  exact h.congr.foldl _ fun u a => Keeps.rfl.finishAck

protected theorem Keeps.orWord (h : Keeps s t) {lid f fl} : Keeps s (orWord t lid f fl) := by
  simp only [orWord]
  exact Keeps.ite h h.congr

protected theorem Keeps.parkOwner (h : Keeps s t) {r code} : Keeps s (parkOwner t r code) := by
  simp only [parkOwner]
  split
  · exact h
  · exact h.reportFault.congr.holdSets

protected theorem Keeps.ackWrite (h : Keeps s t) {r code} : Keeps s (ackWrite t r code) := by
  simp only [ackWrite]
  exact Keeps.ite h.congr h.congr

protected theorem Keeps.freshWrite (h : Keeps s t) {pa bs} : Keeps s (freshWrite t pa bs) := by
  simp only [freshWrite]
  exact h.memWrite.congr

protected theorem Keeps.setSupr (h : Keeps s t) (l) : Keeps s { t with supr := l } := h.congr

protected theorem Keeps.trace (h : Keeps s t) {sl o v} : Keeps s (Machine.trace t sl o v) := by
  simp only [Machine.trace]
  split
  · exact h
  · split
    · exact h
    · split
      · exact h.freshWrite.setSupr _
      · exact h.congr

protected theorem Keeps.finishReq (h : Keeps s t) {r n xs ys l} : Keeps s (finishReq t r n xs ys l) := h.firing
    (change_finishReq ..)

protected theorem Keeps.failReq (h : Keeps s t) {r c a} : Keeps s (failReq t r c a) := h.firing (change_failReq ..)

protected theorem Keeps.readOn (h : Keeps s t) {sl} : Keeps s (readOn t sl) := by
  simp only [readOn]
  split
  · exact h.congr
  · exact h

protected theorem Keeps.deliverAns (h : Keeps s t) {r a} : Keeps s (deliverAns t r a) := by
  simp only [deliverAns]
  split
  · exact Keeps.ite h.orWord h.parkOwner
  · split
    · exact h
    · split
      · exact Keeps.ite h.ackWrite h
      · split
        · exact (((Keeps.ite h.ackWrite h).settle).settle).parkSet
        · split
          · exact (Keeps.ite h.ackWrite h).failReq
          · split
            · exact (Keeps.ite h.ackWrite h).readOn
            · split
              · exact ((Keeps.ite h.ackWrite h).orWord).finishReq
              · exact (((Keeps.ite h.ackWrite h).settle).settle).parkSet

protected theorem Keeps.deliverHist (h : Keeps s t) {r port slot t4 first} : Keeps s (deliverHist t r port slot t4 first) := by
  simp only [deliverHist]
  split
  · exact h
  · exact Keeps.ite ((Keeps.ite h.settle h.putTok).trace) (Keeps.ite h.settle h.putTok)

protected theorem Keeps.takeAns (h : Keeps s t) {m} : Keeps s (takeAns t m) := by
  simp only [takeAns]
  split
  · exact Keeps.ite h.congr (Keeps.ite h.congr h.deliverAns)
  · exact Keeps.ite h.congr h.deliverHist
  · exact h

protected theorem Keeps.letLate (h : Keeps s t) : Keeps s (letLate t) := by
  simp only [letLate]
  exact h.congr.foldl _ fun u a => Keeps.rfl.takeAns

protected theorem Keeps.flagStep (h : Keeps s t) {p} : Keeps s (flagStep t p) := by
  simp only [flagStep]
  split
  · exact Keeps.ite h.congr h
  · exact Keeps.ite (h.congr.onCopy (fun u => Keeps.rfl.congr)) h
  · exact h

protected theorem Keeps.letFlags (h : Keeps s t) : Keeps s (letFlags t) := by
  simp only [letFlags]
  exact h.foldl _ fun u a => Keeps.rfl.flagStep

protected theorem Keeps.gatherFlags (h : Keeps s t) {lid l} : Keeps s (gatherFlags t lid l) := by
  simp only [gatherFlags]
  exact h.foldl _ fun u sl1 => Keeps.rfl.orWord.congr

protected theorem Keeps.takeSect (h : Keeps s t) {lid k a c} : Keeps s (takeSect t lid k a c) := by
  simp only [takeSect]
  split
  · exact h
  · exact (Keeps.ite (h.onCopy (fun u => Keeps.rfl.gatherFlags)) h).modLaunch

protected theorem Keeps.letSects (h : Keeps s t) : Keeps s (letSects t) := by
  simp only [letSects]
  refine h.foldl _ fun u p1 => ?_
  split
  · exact Keeps.ite Keeps.rfl.congr.takeSect Keeps.rfl
  · exact Keeps.ite Keeps.rfl.congr.modLaunch Keeps.rfl
  · exact Keeps.rfl

protected theorem Keeps.retryHist (h : Keeps s t) {lid pa} : Keeps s (retryHist t lid pa) := by
  simp only [retryHist]
  split
  · exact h.onCopy (fun u => Keeps.rfl.congr)
  · exact h

protected theorem Keeps.letRetries (h : Keeps s t) : Keeps s (letRetries t) := by
  simp only [letRetries]
  refine h.foldl _ fun u p1 => ?_
  split
  · exact Keeps.ite Keeps.rfl.congr.retryHist Keeps.rfl
  · exact Keeps.rfl

protected theorem Keeps.letCaught (h : Keeps s t) : Keeps s (letCaught t) := by
  simp only [letCaught]
  refine h.foldl _ fun u p1 => ?_
  split
  · split
    · exact Keeps.rfl
    · split
      · exact Keeps.rfl.congr
      · exact Keeps.ite Keeps.rfl.congr (Keeps.ite Keeps.rfl Keeps.rfl.congr.modLaunch)
  · exact Keeps.rfl

protected theorem Keeps.letDone (h : Keeps s t) {n sl} : Keeps s (letDone n t sl) := by
  induction n generalizing t with
  | zero => exact h
  | succ n ih =>
    rw [Machine.letDone]
    split
    · exact h
    · split
      · exact h
      · apply ih
        exact h.congr

protected theorem Keeps.letKept (h : Keeps s t) : Keeps s (letKept t) := by
  simp only [letKept]
  exact h.foldl _ fun u sl1 => Keeps.ite Keeps.rfl.congr.letDone Keeps.rfl

protected theorem Keeps.followUp (h : Keeps s t) : Keeps s (followUp t) :=
  h.letKept.letCaught.letRetries.letSects.letFlags.letLate.letAcks.letWindows.letStreams.letFrozen.letDead.letTimers.letQueues.letReady

/-! ## Issue, translation, graphs and faults -/

protected theorem MemOk.nextHappening (h : MemOk s) : MemOk (nextHappening s).2 := by
  simp only [nextHappening]
  split <;> exact h.congr

protected theorem MemOk.rest (h : MemOk s) : MemOk (rest s) := by
  simp only [rest]
  exact (MemOk.ite (h.keep Keeps.rfl.followUp) h).congr

protected theorem MemOk.breakSet (h : MemOk s) {fr} : MemOk (breakSet s fr) := by
  simp only [breakSet]
  exact h.keep Keeps.rfl.breakAt

protected theorem MemOk.markBroke (h : MemOk s) {sl} : MemOk (markBroke s sl) := by
  simp only [markBroke]
  split
  · exact h.congr
  · exact h

protected theorem MemOk.setHold (h : MemOk s) {w fr} : MemOk (setHold s w fr) := h.quiet (quiet_setHold s w fr)

protected theorem MemOk.noteIssue (h : MemOk s) {fr} : MemOk (noteIssue s fr) := h.quiet (quiet_noteIssue s fr.sl fr)

protected theorem MemOk.apply (h : MemOk s) {w fr e its after} : MemOk (apply s w fr e its after) := h.firing (change_apply ..)

protected theorem MemOk.commit (h : MemOk s) {w fr e} : MemOk (commit s w fr e) := h.firing (change_commit ..)

protected theorem MemOk.faultFiring (h : MemOk s) {w fr x y c a} : MemOk (faultFiring s w fr x y c a) := h.firing
    (change_faultFiring ..)

protected theorem MemOk.conclude (h : MemOk s) {w fr x y a r} : MemOk (conclude s w fr x y a r) := h.firing (change_conclude ..)

protected theorem MemOk.fireSet (h : MemOk s) {w mem drvX drvY ids body} (hbody : ∀ a0, MemOk (body a0)) :
    MemOk (fireSet s w mem drvX drvY ids body) := by
  simp only [fireSet]
  split
  · exact h
  · split
    · exact h.markBroke.breakSet
    · split
      · exact h.conclude
      · exact h.conclude
      · exact h.commit
      · exact h.conclude
      · exact h.faultFiring
      · exact hbody _

protected theorem MemOk.fireAlu (h : MemOk s) {w op f} : MemOk (fireAlu s w op f) := by
  simp only [fireAlu]
  exact h.fireSet (fun fr1 => h.conclude)

protected theorem MemOk.sendReq (h : MemOk s) {r} : MemOk (sendReq s r) := by
  simp only [sendReq]
  exact MemOk.ite h.congr (MemOk.ite h.congr h.congr)

protected theorem MemOk.issueReq (h : MemOk s) {op w fr} : MemOk (issueReq s op w fr) := h.firing (change_issueReq s op w fr)

protected theorem MemOk.firePort (h : MemOk s) {op w} : MemOk (firePort s op w) := by
  simp only [firePort]
  exact h.fireSet (fun fr1 => h.issueReq)

protected theorem MemOk.fireOwn (h : MemOk s) {body} (hbody : ∀ a0, MemOk (body a0)) : MemOk (fireOwn s body) := by
  simp only [fireOwn]
  split
  · exact h
  · exact MemOk.ite h.markBroke.breakSet (hbody _)

protected theorem MemOk.allocEntry (h : MemOk s) {c e id k a b d p} : Holds MemOk (allocEntry s c e id k a b d p) := by
  cases hr : Machine.allocEntry s c e id k a b d p with
  | none => trivial
  | some u => exact h.keep (Keeps.rfl.quiet (quiet_allocEntry (sl := ⟨c, e, 0⟩) hr))

protected theorem MemOk.openState (h : MemOk s) {sl id} : Holds (fun r => MemOk r.2.2) (openState s sl id) := by
  cases hr : Machine.openState s sl id with
  | none => trivial
  | some q => exact h.keep (Keeps.rfl.quiet (quiet_openState hr))

protected theorem MemOk.commitFrom (h : MemOk s) {s2 w fr r} (hs2 : MemOk s2) : MemOk (commitFrom s s2 w fr r) := by
  simp only [commitFrom]
  split
  · exact h.faultFiring
  · exact MemOk.ite hs2.commit h

protected theorem MemOk.promote (h : MemOk s) {sl n id} : MemOk (promote s sl n id) := by
  simp only [promote]
  split
  · exact h
  · exact MemOk.ite h.congr h

protected theorem MemOk.foldFire (h : MemOk s) {w all} : MemOk (foldFire s w all) := by
  simp only [foldFire]
  refine h.fireOwn (fun fr1 => ?_)
  split
  · exact h.faultFiring
  · split
    · exact h.conclude
    · split
      · split
        next e => exact ((h.allocEntry.of_eq e).congr).noteIssue
        · exact h.faultFiring
      · split
        · exact h.faultFiring
        next e =>
          exact MemOk.ite (h.commitFrom ((h.openState.of_eq e).congr)) ((h.commitFrom ((h.openState.of_eq e).congr)).promote)

protected theorem MemOk.capNone (h : MemOk s) {w fr} : MemOk (capNone s w fr) := by
  simp only [capNone]
  exact h.congr.apply

protected theorem MemOk.capChange (h : MemOk s) {w fr old new out} : MemOk (capChange s w fr old new out) := by
  simp only [capChange]
  split
  · exact h.faultFiring
  · exact MemOk.ite ((h.congr.keep Keeps.rfl.modLaunch).apply) h

protected theorem MemOk.streamFire (h : MemOk s) {w onEnd onRec} (honEnd : ∀ a0 a1 a2 u, MemOk u → MemOk (onEnd a0 a1 a2 u))
    (honRec : ∀ a0 a1 a2 u, MemOk u → MemOk (onRec a0 a1 a2 u)) :
    MemOk (streamFire s w onEnd onRec) := by
  simp only [streamFire]
  refine h.fireOwn (fun fr1 => ?_)
  split
  · exact h.conclude
  · split
    · exact h.commit
    · split
      · split <;> exact honEnd _ _ _ _ h
      · split
        · exact h.faultFiring
        next e => exact honRec _ _ _ _ (h.openState.of_eq e)

protected theorem MemOk.emitX (h : MemOk s) {w fr x3} : MemOk (emitX s w fr x3) := by
  simp only [emitX]
  exact h.conclude

protected theorem MemOk.loopBack (h : MemOk s) {w} : MemOk (loopBack s w) := by
  simp only [loopBack]
  exact h.fireOwn (fun fr1 => h.conclude)

protected theorem MemOk.steerGate (h : MemOk s) {w gate} : MemOk (steerGate s w gate) := by
  simp only [steerGate]
  exact h.fireOwn (fun fr1 => MemOk.ite h.conclude (MemOk.ite h.conclude (MemOk.ite h.commit h.conclude)))

protected theorem MemOk.fireHist (h : MemOk s) {op w} : MemOk (fireHist s op w) := by
  simp only [fireHist]
  exact h.fireOwn (fun fr1 => MemOk.ite h.conclude h.issueReq)

protected theorem MemOk.walkFire (h : MemOk s) {w op} : MemOk (walkFire s w op) := by
  simp only [walkFire]
  split
  · split
    · split
      · split
        · exact h
        · split
          · exact h.congr.breakSet
          · split
            · exact h.keep Keeps.rfl.parkSet
            · exact MemOk.ite h.congr.apply h
      · exact h
    · exact h
  · exact h

protected theorem MemOk.releaseTok (h : MemOk s) {w fr t3} : MemOk (releaseTok s w fr t3) := by
  simp only [releaseTok]
  exact h.apply

protected theorem MemOk.dropClaim (h : MemOk s) {sl id} : MemOk (dropClaim s sl id) := by
  simp only [dropClaim]
  exact MemOk.ite h.congr h

protected theorem MemOk.holdTok (h : MemOk s) {sl id t3} : Holds MemOk (holdTok s sl id t3) := by
  simp only [holdTok]
  split
  · exact h.congr
  · exact h.allocEntry

protected theorem MemOk.shareOp (h : MemOk s) {w fr} : Gives MemOk (shareOp s w fr) := by
  simp only [shareOp]
  split
  · trivial
  · split
    · exact h.congr
    · split
      · exact h
      · split
        · trivial
        · exact h.congr

protected theorem MemOk.fireShare (h : MemOk s) {w} : MemOk (fireShare s w) := by
  simp only [fireShare]
  refine h.fireSet (fun fr1 => ?_)
  split
  · exact h.faultFiring
  · split
    · exact h
    · split
      · exact h.faultFiring
      next e1 => exact (h.shareOp.of_eq e1).commit

protected theorem MemOk.clearBare (h : MemOk s) {sl} : MemOk (clearBare s sl) := by
  simp only [clearBare]
  exact MemOk.ite h.congr h

protected theorem MemOk.emitAt (h : MemOk s) {w fr x3 items ex} : MemOk (emitAt s w fr x3 items ex) := by
  simp only [emitAt]
  exact h.conclude

protected theorem MemOk.seqWord (h : MemOk s) {k} (hk : ∀ a0 a1, MemOk (k a0 a1)) : MemOk (seqWord s k) := by
  simp only [seqWord]
  split
  · exact hk _ _
  · exact h

protected theorem MemOk.putGraph (h : MemOk s) {g} : MemOk (putGraph s g) := by
  simp only [putGraph]
  split
  · exact h.congr
  · exact h.congr
  · exact h

protected theorem MemOk.scalar (h : MemOk s) {w v} : MemOk (scalar s w v) := by
  simp only [scalar]
  exact h.seqWord (fun a g1 => h.putGraph)

protected theorem MemOk.forgetCut (h : MemOk s) {c} : MemOk (forgetCut s c) := by
  simp only [forgetCut]
  refine h.foldl _ fun u p1 hu => ?_
  split
  · exact hu
  · exact hu.congr

protected theorem MemOk.readPh (h : MemOk s) {ctx pa} : Gives (fun r => MemOk r.1) (readPh s ctx pa) := by
  simp only [readPh]
  split
  · trivial
  next e => exact (Keeps.rfl.homeRead.memOk h).of_eq e

protected theorem MemOk.setPool (h : MemOk s) {lid p} : MemOk (setPool s lid p) := by
  simp only [setPool]
  exact h.keep Keeps.rfl.modLaunch

protected theorem MemOk.dropRec (h : MemOk s) {lid i} : MemOk (dropRec s lid i) := by
  simp only [dropRec]
  exact h.setPool

protected theorem MemOk.homeNat (h : MemOk s) {ctx pa n cmp} : Gives (fun r => MemOk r.1) (homeNat s ctx pa n cmp) := by
  simp only [homeNat]
  split
  · trivial
  next e => exact (Keeps.rfl.homeRead.memOk h).of_eq e

protected theorem MemOk.latchStamps (h : MemOk s) {pa n} : MemOk (latchStamps s pa n) := by
  simp only [latchStamps]
  exact MemOk.ite (MemOk.ite h.congr h) (MemOk.ite h.congr h)

protected theorem MemOk.serveStwaits (h : MemOk s) {u pa n} : MemOk (serveStwaits u pa n s) := by
  simp only [serveStwaits]
  refine h.congr.foldl _ fun u1 e1 hu => ?_
  split
  · exact hu.keep Keeps.rfl.sendAns
  · exact hu

protected theorem MemOk.wakeStwait (h : MemOk s) {pa n} : MemOk (wakeStwait s pa n) := by
  simp only [wakeStwait]
  split
  · exact h.latchStamps
  · exact h.latchStamps.eachCopy (fun u hu => hu.serveStwaits)

protected theorem MemOk.eccWrite (h : MemOk s) {u pa n l} : Holds MemOk (eccWrite s u pa n l) := by
  induction l generalizing s with
  | nil => exact h
  | cons w l ih =>
    rw [Machine.eccWrite]
    split
    · exact ih h.congr
    · split
      next e => exact ih ((Keeps.rfl.eccRead.memOk h).of_eq e)
      · trivial

protected theorem MemOk.eccOut (h : MemOk s) {t1 pa n cmp} : Holds MemOk (eccOut s t1 pa n cmp) := by
  simp only [eccOut]
  split
  next x _ _ _ => exact Holds.foldlM h (fun u x hu => Keeps.rfl.eccUnit.memOk hu) _
  · exact h.eccWrite

protected theorem MemOk.setMem (h : MemOk s) {m} (w : Memory.wf m = true) (l) : MemOk { s with mem := m, xts := l } := ⟨w, h.2⟩

protected theorem MemOk.rekeySector (h : MemOk s) {key n} : MemOk (rekeySector s key n) := by
  simp only [Machine.rekeySector]
  split
  · exact h
  · split
    · exact h
    · exact h.setMem (wf_cellsWrite _ _ h.1) _

protected theorem MemOk.keyWrite (h : MemOk s) {key pa bs} : MemOk (keyWrite s key pa bs) := by
  simp only [keyWrite]
  exact (h.foldl _ fun u x1 hu => hu.rekeySector).memWrite

protected theorem MemOk.unitWrite (h : MemOk s) {key unit bs} : MemOk (unitWrite s key unit bs) := by
  simp only [unitWrite]
  exact MemOk.ite h.congr h.congr.keyWrite

protected theorem MemOk.cmpWrite (h : MemOk s) {key pa bs} : Holds MemOk (cmpWrite s key pa bs) := by
  refine Holds.foldlM h (fun u n hu => ?_) _
  dsimp only
  generalize (if n < pa then pa - n else 0) = lo
  split
  · exact hu.unitWrite
  · cases unitRead u key n with
    | none => trivial
    | some old => exact hu.unitWrite

protected theorem MemOk.overHbm (h : MemOk s) {pa bs} : MemOk (overHbm s pa bs) := by
  simp only [overHbm]
  exact MemOk.ite h h.congr

protected theorem MemOk.overCarve (h : MemOk s) {c byte bs} : MemOk (overCarve s c byte bs) := by
  simp only [overCarve]
  exact MemOk.ite h h.congr

protected theorem MemOk.homeWrite (h : MemOk s) {ctx pa bs cmp} : Gives MemOk (homeWrite s ctx pa bs cmp) := by
  simp only [homeWrite]
  split
  · exact h
  · split
    · trivial
    · split
      · trivial
      next e1 =>
        split
        · split
          · trivial
          · split
            · split
              next e4 => exact (((h.eccOut.of_eq e1).cmpWrite).of_eq e4).foldl _ fun u2 a hu => hu.congr
              · trivial
            · exact ((h.eccOut.of_eq e1).keyWrite).overHbm
        · exact ((h.eccOut.of_eq e1).memWrite).overCarve
        · exact (h.eccOut.of_eq e1).memWrite

protected theorem MemOk.writePh (h : MemOk s) {ctx pa w0 p} : Gives MemOk (writePh s ctx pa w0 p) := by
  simp only [writePh]
  exact h.homeWrite.map (fun a ha => ha.wakeStwait)

protected theorem MemOk.phPass {q : PhRun} {c lid l} (h : MemOk q.s) : MemOk (phPass c lid q l).s := by
  induction l generalizing q with
  | nil => exact h
  | cons i l ih =>
    have hp {a : Ans} {r : PortReq} {f n : Nat} : MemOk (progress (sendAns (dropRec q.s lid i) (.core c) r a) f n) :=
      h.dropRec.keep Keeps.rfl.sendAns.progress
    rw [Machine.phPass]
    split
    · exact ih h
    · dsimp only
      split
      · split
        · exact ih hp
        · exact ih h.dropRec
        · split
          · exact ih hp
          · split
            · exact ih h
            · split
              · exact ih (MemOk.setPool h.congr)
              · exact ih ((MemOk.dropRec h.congr).keep Keeps.rfl.sendAns.progress)
      · split
        · exact ih hp
        · exact ih h

protected theorem MemOk.phAdvance {q : PhRun} {c lid n} (h : MemOk q.s) : MemOk (phAdvance c lid n q).s := by
  induction n generalizing q with
  | zero => exact h
  | succ n ih =>
    rw [Machine.phAdvance]
    split
    · exact ih (MemOk.phPass h)
    · exact h

protected theorem MemOk.phFinish (h : MemOk s) {c r pa w0 p l} : Gives MemOk (phFinish s c r pa w0 p l) := by
  simp only [Machine.phFinish]
  have hq := MemOk.phAdvance (c := c) (lid := poolLid s r pa) (n := l.length + 3) (q := ⟨s, p, l⟩) h
  exact hq.setPool.writePh

protected theorem MemOk.phDropStep (h : MemOk s) {c r pa w0 p k m} : Gives MemOk (phDropStep s c r pa w0 p k m) := by
  simp only [phDropStep]
  split
  · exact h.congr
  · exact h.congr.phFinish

protected theorem MemOk.dropMember (h : MemOk s) {lid ctx c k} : MemOk (dropMember s lid ctx c k) := by
  simp only [dropMember]
  split
  · exact h
  · split
    · exact h
    · split
      · exact h.congr
      next e1 =>
        split
        next e2 => exact ((h.readPh.of_eq e1).phDropStep).of_eq e2
        · exact (h.readPh.of_eq e1).congr

protected theorem MemOk.unlinkAt (h : MemOk s) {lid ctx o pa} : MemOk (unlinkAt s lid ctx o pa) := by
  simp only [unlinkAt]
  split
  · exact h.setPool
  · split
    · exact h
    next e =>
      split
      next e1 => exact (((h.readPh.of_eq e).setPool).writePh).of_eq e1
      · exact (h.readPh.of_eq e).setPool

protected theorem MemOk.unlinkCell (h : MemOk s) {lid ctx o pa} : MemOk (unlinkCell s lid ctx o pa) := by
  simp only [unlinkCell]
  split
  · exact h
  next e =>
    split
    · split
      next e2 => exact (((h.homeNat.of_eq e).setPool).homeWrite).of_eq e2
      · exact (h.homeNat.of_eq e).setPool
    · exact h.homeNat.of_eq e

protected theorem MemOk.unlinkCarry (h : MemOk s) {lid o w} : MemOk (unlinkCarry s lid o w) := by
  simp only [unlinkCarry]
  split
  · exact MemOk.ite h.setPool.congr h
  · exact MemOk.ite h.setPool.congr h
  · exact h

protected theorem MemOk.unlinkCells (h : MemOk s) {lid ctx o} : MemOk (unlinkCells s lid ctx o) := by
  simp only [unlinkCells]
  exact ((h.foldl _ fun u pa1 hu => hu.unlinkCell).foldl _ fun u w1 hu => hu.unlinkCarry).setPool

protected theorem MemOk.unlinkWaits (h : MemOk s) {lid ctx} : MemOk (unlinkWaits s lid ctx) := by
  simp only [unlinkWaits]
  exact h.foldl _ fun u q1 hu => MemOk.ite hu (MemOk.ite ((hu.foldl _ fun u1 pa1 hu1 => hu1.unlinkAt).unlinkCells)
    (hu.foldl _ fun u1 pa1 hu1 => hu1.unlinkAt))

protected theorem MemOk.dropObjects (h : MemOk s) {lid} : MemOk (dropObjects s lid) := by
  simp only [dropObjects]
  exact (((h.foldl _ fun u t1 hu => hu.foldl _ fun u1 e1 hu1 => hu1.dropMember).unlinkWaits).setPool).congr

protected theorem MemOk.releaseAll (h : MemOk s) {lid l} : MemOk (releaseAll s lid l) := by
  simp only [releaseAll]
  exact ((h.keep Keeps.rfl.gatherFlags).dropObjects).congr

protected theorem MemOk.tellCarriers (h : MemOk s) {lid l cs} : MemOk (tellCarriers s lid l cs) := by
  simp only [tellCarriers]
  exact h.foldl _ fun u w1 hu => hu.congr

protected theorem MemOk.tellHeads (h : MemOk s) {lid l m} : MemOk (tellHeads s lid l m) := by
  simp only [tellHeads]
  exact h.foldl _ fun u q1 hu => hu.congr

protected theorem MemOk.retire (h : MemOk s) {lid code} : MemOk (retire s lid code) := by
  simp only [retire]
  split
  · exact h
  · exact MemOk.ite h (((((h.foldl _ fun u a hu => hu.forgetCut).onCopy
      (fun u hu => hu.releaseAll)).tellHeads).tellCarriers).keep Keeps.rfl.modLaunch)

/-! ## Launches, waits, records and packets -/

protected theorem MemOk.graphFault (h : MemOk s) {f g code addr} : MemOk (graphFault s f g code addr) := by
  simp only [graphFault]
  exact MemOk.ite ((h.keep Keeps.rfl.reportFault).retire) ((h.keep Keeps.rfl.reportFault).putGraph)

protected theorem MemOk.supMiss (h : MemOk s) {f g pa} : MemOk (supMiss s f g pa) := by
  simp only [supMiss]
  exact h.keep Keeps.rfl.recordOnly

protected theorem MemOk.waitFor (h : MemOk s) {g w} : MemOk (waitFor s g w) := by
  simp only [waitFor]
  exact h.putGraph

protected theorem MemOk.farGot (h : MemOk s) {u tag a} : MemOk (farGot s u tag a) := by
  simp only [farGot]
  split
  · exact h
  · exact h.congr

protected theorem MemOk.farWord (h : MemOk s) {f g to_ w k} (hk : ∀ u, MemOk u → MemOk (k u)) : MemOk (farWord s f g to_ w k) := by
  simp only [farWord]
  exact MemOk.ite h.congr.waitFor (hk _ h.farGot)

protected theorem MemOk.supFar (h : MemOk s) {f g pa d k} (hk : ∀ u a1, MemOk u → MemOk (k u a1)) : MemOk (supFar s f g pa d k) := by
  simp only [supFar]
  exact MemOk.ite h.graphFault (hk _ _ h)

protected theorem MemOk.answered (h : MemOk s) {g} : MemOk (answered s g) := by
  simp only [answered]
  exact h.waitFor

protected theorem MemOk.supRead (h : MemOk s) {pa n t3} : Gives (fun r => MemOk r.1) (supRead s pa n t3) := by
  simp only [supRead]
  split
  · split
    · exact Keeps.rfl.windowRead.memOk h
    · trivial
  · split
    · trivial
    · exact Keeps.rfl.homeRead.memOk h

protected theorem MemOk.supGet (h : MemOk s) {f g d pa t5 k} (hk : ∀ u a1, MemOk u → MemOk (k u a1)) : MemOk (supGet s f g d pa t5 k) := by
  simp only [supGet]
  split
  · exact h.graphFault
  next e => exact hk _ _ (h.supRead.of_eq e)

protected theorem MemOk.supLoad (h : MemOk s) {w f g} : MemOk (supLoad s w f g) := by
  simp only [supLoad]
  split
  · exact h.graphFault
  · split
    · exact h.supMiss.putGraph
    · exact h.waitFor
    · exact h.farWord (fun u hu => hu.supFar (fun u1 a hu1 => hu1.answered))
    · exact MemOk.ite h.waitFor (h.supGet (fun u a hu => hu.answered))

protected theorem MemOk.seqRead (h : MemOk s) {g va} : Gives (fun r => MemOk r.1) (seqRead s g va) := by
  simp only [seqRead]
  split
  · trivial
  · exact (Keeps.rfl.walkFix.pieceRead.memOk h).map (fun a ha => ha)

protected theorem MemOk.loadWord (h : MemOk s) {f g d va k} (hk : ∀ u a1, MemOk u → MemOk (k u a1)) : MemOk (loadWord s f g d va k) := by
  simp only [loadWord]
  split
  · exact h.graphFault
  next e => exact hk _ _ (h.seqRead.of_eq e)

protected theorem MemOk.userLoad (h : MemOk s) {w f g} : MemOk (userLoad s w f g) := by
  simp only [userLoad]
  exact MemOk.ite h.graphFault (h.farWord (fun u hu => MemOk.ite hu.waitFor (hu.loadWord (fun u1 a hu1 => hu1.answered))))

protected theorem MemOk.windowPut {ε : Type} (h : MemOk s) {bad : Nat → ε} {put w o bs}
    (hput : ∀ u a b c, MemOk u → Gives MemOk (put u a b c)) : Gives MemOk (windowPut bad put w s o bs) := by
  induction bs generalizing s o with
  | nil => exact h
  | cons b l ih =>
    rw [Machine.windowPut]
    split
    · trivial
    · split
      · trivial
      next e =>
        split
        · trivial
        next e2 => exact ih ((hput _ _ _ _ ((Keeps.rfl.windowElem.memOk h).of_eq e)).of_eq e2)

protected theorem MemOk.baseWrite (h : MemOk s) {ctx lid pa bs cmp} : Gives MemOk (baseWrite s ctx lid pa bs cmp) := by
  simp only [baseWrite]
  split
  · trivial
  · split
    · split
      · trivial
      · exact h
    · split
      · trivial
      · trivial
      · trivial
      · split
        · trivial
        · exact h.homeWrite.map (fun a ha => ha.wakeStwait)
      · exact h.homeWrite.map (fun a ha => ha.wakeStwait)

protected theorem MemOk.windowWrite (h : MemOk s) {w lid o bs} : Gives MemOk (windowWrite w lid s o bs) :=
  h.windowPut fun _ _ _ _ hu => hu.baseWrite

protected theorem MemOk.supPut (h : MemOk s) {pa bs t3} : Gives MemOk (supPut s pa bs t3) := by
  simp only [supPut]
  split
  · split
    · exact h.windowWrite
    · trivial
  · split
    · trivial
    · exact h.homeWrite.map (fun a ha => ha.wakeStwait)

protected theorem MemOk.supSet (h : MemOk s) {f g pa v t5 k} (hk : ∀ u a1, MemOk u → MemOk (k u a1)) : MemOk (supSet s f g pa v t5 k) := by
  simp only [supSet]
  split
  · exact h.graphFault
  next e => exact hk _ _ (h.supPut.of_eq e)

protected theorem MemOk.supStore (h : MemOk s) {w f g} : MemOk (supStore s w f g) := by
  simp only [supStore]
  split
  · exact h.graphFault
  · split
    · exact h.supMiss.putGraph
    · exact ((h.keep Keeps.rfl.fresh).congr).waitFor
    · exact h.farWord (fun u hu => hu.supFar (fun u1 a hu1 => hu1.answered))
    · exact MemOk.ite h.waitFor (h.supSet (fun u a hu => hu.answered))

protected theorem MemOk.pieceWrite (h : MemOk s) {ctx lid pa bs cmp} : Gives MemOk (pieceWrite s ctx lid pa bs cmp) := by
  simp only [pieceWrite]
  split
  · split
    · exact h.windowWrite
    · trivial
  · exact h.baseWrite

protected theorem MemOk.writeAt (h : MemOk s) {ctx lid va bs} : Gives MemOk (writeAt s ctx lid va bs) := by
  simp only [writeAt]
  split
  · trivial
  · exact (h.keep Keeps.rfl.walkFix).pieceWrite

protected theorem MemOk.storeWord (h : MemOk s) {f g va v k} (hk : ∀ u a1, MemOk u → MemOk (k u a1)) : MemOk (storeWord s f g va v k) := by
  simp only [storeWord]
  split
  · exact h.graphFault
  next e => exact hk _ _ (h.writeAt.of_eq e)

protected theorem MemOk.userStore (h : MemOk s) {w f g} : MemOk (userStore s w f g) := by
  simp only [userStore]
  exact MemOk.ite h.graphFault (h.farWord (fun u hu => MemOk.ite hu.waitFor (hu.storeWord (fun u1 a hu1 => hu1.answered))))

protected theorem MemOk.branch (h : MemOk s) {w c} : MemOk (branch s w c) := by
  simp only [branch]
  exact h.seqWord (fun a g1 => h.putGraph)

protected theorem MemOk.orWait (h : MemOk s) {g w r} (hr : Holds MemOk r) : MemOk (orWait s g w r) := hr.getD h.waitFor

protected theorem MemOk.farTry (h : MemOk s) {f g to_ w k} (hk : ∀ u, MemOk u → Holds MemOk (k u)) :
    Holds MemOk (farTry s f g to_ w k) := by
  simp only [farTry]
  split
  · exact h.congr.waitFor
  · split
    next e => exact (hk _ h.farGot).of_eq e
    · split
      · exact h.farGot.waitFor
      · trivial

protected theorem MemOk.readImage (h : MemOk s) {ctx rl image} : Gives (fun r => MemOk r.1) (readImage s ctx rl image) := by
  simp only [readImage]
  split
  · trivial
  next e =>
    split
    · trivial
    · split
      · trivial
      next e1 => exact (Keeps.rfl.readAt.memOk ((Keeps.rfl.readAt.memOk h).of_eq e)).of_eq e1

protected theorem MemOk.abortLaunch (h : MemOk s) {lid f ctx code addr off} : MemOk (abortLaunch s lid f ctx code addr off) := by
  simp only [abortLaunch]
  exact (h.keep Keeps.rfl.reportFault).retire

protected theorem MemOk.dropNodes (h : MemOk s) {lid i} : MemOk (dropNodes s lid i) := by
  simp only [dropNodes]
  exact (h.keep Keeps.rfl.gatherFlags).congr

protected theorem MemOk.loadBytes (h : MemOk s) {pa bs} : MemOk (loadBytes s pa bs) := by
  simp only [loadBytes]
  exact h.keep Keeps.rfl.freshWrite

protected theorem MemOk.loadZero (h : MemOk s) {pa n} : MemOk (loadZero s pa n) := ⟨wf_cellsZero _ _ h.1, h.2⟩

protected theorem MemOk.loadObj (h : MemOk s) {o} : MemOk (loadObj s o) := by
  simp only [loadObj]
  exact h.loadZero.loadBytes

protected theorem MemOk.loadData (h : MemOk s) {r} : MemOk (loadData s r) := by
  simp only [loadData]
  exact h.loadBytes

protected theorem MemOk.loadShare (h : MemOk s) {ctx lid r cs} : MemOk (loadShare s ctx lid r cs) := by
  simp only [loadShare]
  exact h.foldl _ fun u c1 hu => MemOk.ite hu hu.congr

protected theorem MemOk.loadTables (h : MemOk s) {lid r} :
    MemOk (loadTables s lid r) := h.congr

protected theorem MemOk.placeNode (h : MemOk s) {lid ctx n} :
    MemOk (placeNode s lid ctx n) := h.congr

protected theorem MemOk.loadField (h : MemOk s) {lid ctx f i grant} (hgrant : ∀ u a1, MemOk u → MemOk (grant u a1)) :
    MemOk (loadField s lid ctx f i grant) := by
  simp only [loadField]
  exact (((h.foldl _ fun u r1 hu => hgrant _ _ ((hu.foldl _ fun u1 n1 hu1 => hu1.placeNode).loadTables)).foldl _ fun u r1 hu =>
    MemOk.ite hu hu.loadObj).foldl _ fun u a hu => hu.loadData).foldl _ fun u r1 hu => MemOk.ite hu.loadShare hu

protected theorem MemOk.grantPane (h : MemOk s) {lid p} : MemOk (grantPane s lid p) := by
  simp only [grantPane]
  exact h.loadZero.congr

protected theorem MemOk.regrant (h : MemOk s) {lid r} : MemOk (regrant lid s r) := by
  simp only [regrant]
  exact h.congr.foldl _ fun u n1 hu => MemOk.ite hu hu.grantPane

protected theorem MemOk.tellTrackers (h : MemOk s) {lid items} : MemOk (tellTrackers s lid items) := by
  simp only [tellTrackers]
  split
  · exact MemOk.ite h (h.foldl _ fun u w1 hu => hu.congr)
  · exact h

protected theorem MemOk.spillFrontier.go (h : MemOk s) {probe base i l} : MemOk (spillFrontier.go probe base s i l) := by
  induction l generalizing s i with
  | nil => exact h
  | cons a l ih => exact ih (h.keep Keeps.rfl.freshWrite)

protected theorem MemOk.spillFrontier (h : MemOk s) {f n l} : MemOk (spillFrontier s f n l) := by
  unfold Machine.spillFrontier
  dsimp only
  split
  · exact h
  · exact MemOk.spillFrontier.go h

protected theorem MemOk.setProbes (h : MemOk s) {l ps} : MemOk (setProbes s l ps) := by
  simp only [setProbes]
  exact h.foldl _ fun u n1 hu => hu.spillFrontier.congr

protected theorem MemOk.seedConst (h : MemOk s) {n} : MemOk (seedConst s n) := h.congr

protected theorem MemOk.cfgLoad (h : MemOk s) {lid f l i g} : MemOk (cfgLoad s lid f l i g) := by
  unfold Machine.cfgLoad
  refine MemOk.foldl ?_ _ fun u n hu => hu.seedConst
  refine MemOk.setProbes (MemOk.setX (MemOk.tellTrackers (MemOk.setLaunches ?_ _)) _)
  refine MemOk.foldl ?_ _ fun u n hu => hu.congr
  exact h.dropNodes.loadField fun u c hu => hu.regrant

protected theorem MemOk.cfgApply (h : MemOk s) {f g image} : MemOk (cfgApply s f g image) := by
  simp only [cfgApply]
  split
  · exact h
  · split
    · exact MemOk.ite h.abortLaunch h.graphFault
    next e1 =>
      split
      · exact (h.readImage.of_eq e1).abortLaunch
      · split
        · exact (h.readImage.of_eq e1).abortLaunch
        · exact MemOk.ite ((h.readImage.of_eq e1).graphFault) (((h.readImage.of_eq e1).cfgLoad).putGraph)

protected theorem MemOk.tryCfg (h : MemOk s) {f g image} : Holds MemOk (tryCfg s f g image) := by
  simp only [tryCfg]
  split
  · exact h.graphFault
  · split
    · exact h.farTry (fun u hu => hu.cfgApply)
    · trivial

protected theorem MemOk.sectStamp (h : MemOk s) {lid l sect z} : MemOk (sectStamp s lid l sect z) := by
  simp only [sectStamp]
  split
  · exact h
  · split
    next e => exact h.writeAt.of_eq e
    · exact h.keep Keeps.rfl.recordOnly

protected theorem MemOk.tellPeer (h : MemOk s) {lid l w m} : MemOk (tellPeer s lid l w m) := by
  simp only [tellPeer]
  split
  · exact h.congr
  · exact h

protected theorem MemOk.tellSect (h : MemOk s) {lid l sect z} : MemOk (tellSect s lid l sect z) := by
  simp only [tellSect]
  exact h.foldl _ fun u q1 hu => hu.tellPeer

protected theorem MemOk.endArming (h : MemOk s) {lid l sect z} : MemOk (endArming s lid l sect z) := by
  simp only [endArming]
  exact ((h.keep Keeps.rfl.gatherFlags.modLaunch).tellSect).sectStamp

protected theorem MemOk.armSect (h : MemOk s) {lid l k n z} : MemOk (armSect s lid l k n z) := by
  simp only [armSect]
  exact MemOk.ite h.endArming (((h.keep Keeps.rfl.modLaunch).tellTrackers).tellSect)

protected theorem MemOk.tryArms (h : MemOk s) {f g k n} : Holds MemOk (tryArms s f g k n) := by
  simp only [tryArms]
  split
  · exact h.graphFault
  · split
    · exact h.graphFault
    · split
      · trivial
      · exact h.armSect.putGraph

protected theorem MemOk.tryWaits (h : MemOk s) {g k} : Holds MemOk (tryWaits s g k) := by
  simp only [tryWaits]
  split
  · exact h.putGraph
  · trivial

protected theorem MemOk.tryStamp (h : MemOk s) {f g va pa cmp v} : Holds MemOk (tryStamp s f g va pa cmp v) := by
  simp only [tryStamp]
  refine h.farTry (fun u hu => ?_)
  split
  · exact hu.graphFault
  next e =>
    split
    · exact ((Keeps.rfl.pieceRead.memOk hu).of_eq e).putGraph
    · trivial

protected theorem MemOk.postClaim (h : MemOk s) {g desc} : Gives (fun r => MemOk r.1) (postClaim s g desc) := by
  simp only [postClaim]
  split
  · trivial
  · split
    · trivial
    next e1 => exact (((Keeps.rfl.walkFix.pieceRead.memOk h).of_eq e1).pieceWrite).map (fun a ha => ha)

protected theorem MemOk.tryPost (h : MemOk s) {f g src desc j} : Holds MemOk (tryPost s f g src desc j) := by
  simp only [tryPost]
  refine h.farTry (fun u hu => ?_)
  split
  · exact hu.graphFault
  next e =>
    split
    · trivial
    · split
      · exact hu.graphFault
      next e1 =>
        split
        · exact hu.graphFault
        next e2 =>
          split
          · exact hu.graphFault
          next e3 =>
            exact ((((((Keeps.rfl.readAt.memOk ((Keeps.rfl.readAt.memOk hu).of_eq e)).of_eq e1).writeAt).of_eq e2).writeAt).of_eq e3).putGraph

protected theorem MemOk.claimPost (h : MemOk s) {f g src desc} : MemOk (claimPost s f g src desc) := by
  simp only [claimPost]
  split
  · exact h.graphFault
  next e => exact ((h.postClaim.of_eq e).tryPost).getD ((h.postClaim.of_eq e).waitFor)

protected theorem MemOk.addLaunch (h : MemOk s) {lid l} : MemOk (addLaunch s lid l) := by
  simp only [addLaunch]
  exact h.congr.onCopy (fun u hu => hu.congr)

protected theorem MemOk.sendParts (h : MemOk s) {lid} : MemOk (sendParts s lid) := by
  simp only [sendParts]
  split
  · exact (((h.keep Keeps.rfl.modLaunch).foldl _ fun u w1 hu => hu.congr).tellHeads).tellCarriers
  · exact h

protected theorem MemOk.beginLaunch (h : MemOk s) {l rl child} : Holds MemOk (beginLaunch s l rl child) := by
  simp only [beginLaunch]
  split
  · exact h.addLaunch.abortLaunch
  next e =>
    split
    · split
      · exact (h.readImage.of_eq e).addLaunch
      · trivial
    · exact MemOk.ite (((h.readImage.of_eq e).addLaunch).abortLaunch) (((h.readImage.of_eq e).addLaunch).sendParts)

protected theorem MemOk.childLaunch (h : MemOk s) {f g va} : MemOk (childLaunch s f g va) := by
  simp only [childLaunch]
  split
  · exact h.graphFault
  next e =>
    exact MemOk.ite (((Keeps.rfl.readAt.memOk h).of_eq e).graphFault)
      (((((Keeps.rfl.readAt.memOk h).of_eq e).beginLaunch).getD ((Keeps.rfl.readAt.memOk h).of_eq e)).putGraph)

protected theorem MemOk.rerouteAll (h : MemOk s) {a} : MemOk (rerouteAll a s) := h.congr

protected theorem MemOk.recfgApply (h : MemOk s) {f g c e w} : MemOk (recfgApply s f g c e w) := by
  simp only [recfgApply]
  split
  · exact h.graphFault
  · exact h.congr.rerouteAll.putGraph

protected theorem MemOk.tryRecfg (h : MemOk s) {f g c e w} : Holds MemOk (tryRecfg s f g c e w) := by
  simp only [tryRecfg]
  split
  · exact h.recfgApply
  · trivial

protected theorem MemOk.tryFwait (h : MemOk s) {f g sl t4} : Holds MemOk (tryFwait s f g sl t4) := by
  simp only [tryFwait]
  split
  · split
    · exact h.graphFault
    · split
      · exact h.putGraph
      · trivial
  · exact h.graphFault

protected theorem MemOk.askFlag (h : MemOk s) {f g id q} : MemOk (askFlag f g id s q) := by
  simp only [askFlag]
  exact MemOk.ite h.congr h.congr

protected theorem MemOk.askFlags (h : MemOk s) {f g d} : MemOk (askFlags s f g d) := by
  simp only [askFlags]
  exact ((h.keep Keeps.rfl.fresh).foldl _ fun u a hu => hu.askFlag).waitFor

protected theorem MemOk.answerSvc (h : MemOk s) {v s1} : MemOk (answerSvc s v s1) := by
  simp only [answerSvc]
  split
  · exact h.onCopy (fun u hu => hu.congr)
  · exact h

protected theorem MemOk.frecCopy (h : MemOk s) {f g pa b} : MemOk (frecCopy s f g pa b) := by
  simp only [frecCopy]
  split
  · split
    next e1 => exact h.supPut.of_eq e1
    · exact h.keep Keeps.rfl.recordOnly
  · exact h
  · exact h.supMiss

protected theorem MemOk.takeSvc (h : MemOk s) {p j} : MemOk (takeSvc s p j) := by
  simp only [takeSvc]
  split
  · exact h.congr
  · exact h

protected theorem MemOk.tryFrec (h : MemOk s) {f g d a} : Holds MemOk (tryFrec s f g d a) := by
  simp only [tryFrec]
  split
  · trivial
  next e =>
    split
    · trivial
    · exact (((((Keeps.rfl.homeRead.memOk h).of_eq e).frecCopy).congr).takeSvc).putGraph

protected theorem MemOk.memPut (h : MemOk s) {pa n v} : MemOk (memPut s pa n v) := ⟨wf_cellsWrite _ _ h.1, h.2⟩

protected theorem MemOk.markResolved (h : MemOk s) {p j r} : MemOk (markResolved s p j r) := by
  simp only [markResolved]
  exact MemOk.ite h.congr.memPut.wakeStwait h.congr

protected theorem MemOk.letHeld (h : MemOk s) {sl} :
    MemOk (letHeld s sl) := h.congr

protected theorem MemOk.setIq (h : MemOk s) {c e q} :
    MemOk (setIq s c e q) := h.congr

protected theorem MemOk.replaySet (h : MemOk s) {sl rid} : MemOk (replaySet s sl rid) := by
  simp only [replaySet]
  split
  · exact h
  · exact MemOk.ite ((MemOk.ite h.congr h.congr.setIq).letHeld) (MemOk.ite h.congr h.congr.setIq)

protected theorem MemOk.pageRecord (h : MemOk s) {f n x3 va aux act} : MemOk (pageRecord s f n x3 va aux act).2 := by
  simp only [pageRecord]
  exact h.keep Keeps.rfl.reportFault

protected theorem MemOk.divert (h : MemOk s) {f n x3 d va} : MemOk (divert s f n x3 d va) := by
  simp only [divert]
  exact h.pageRecord.congr

protected theorem MemOk.modStream (h : MemOk s) {f n id g} :
    MemOk (modStream s f n id g) := h.congr

protected theorem MemOk.sendArrival (h : MemOk s) {f n x3 i a pa cmp} : MemOk (sendArrival s f n x3 i a pa cmp) := by
  simp only [sendArrival]
  exact (MemOk.ite ((h.keep Keeps.rfl.fresh).congr) ((h.keep Keeps.rfl.fresh).congr)).modStream

protected theorem MemOk.sendTo (h : MemOk s) {f n id i l} : MemOk (sendTo f n id i s l) := by
  induction l generalizing s with
  | nil => exact h
  | cons a l ih =>
    have hspill {u : Machine.State} (hu : MemOk u) : MemOk
        (if spillBytes (siGet u f n) + a.2.length ≤ spillMax then
          sendTo f n id i (modStream u f n id (Stream.modDst i fun e => { e with spill := e.spill ++ [a] })) l
        else modStream u f n id (Stream.modDst i fun e => { e with held := a :: l })) := by
      split
      · exact ih (hu.keep Keeps.rfl.congr)
      · exact hu.keep Keeps.rfl.congr
    rw [Machine.sendTo]
    split
    · exact h
    · split
      · exact h
      · dsimp only
        split
        · exact h
        · split
          · exact hspill h
          · split
            · split
              · exact hspill h.divert
              · exact h.keep Keeps.rfl.failDst
            · split
              · exact h.keep Keeps.rfl.failDst
              · split
                · exact h.congr
                · exact ih h.sendArrival

protected theorem MemOk.replaySpill (h : MemOk s) {f n id i} : MemOk (replaySpill s f n id i) := by
  simp only [replaySpill]
  split
  · exact h
  · split
    · exact h
    · exact h.modStream.sendTo

protected theorem MemOk.resumeHist (h : MemOk s) {core off owner rid} : MemOk (resumeHist s core off owner rid) := by
  simp only [resumeHist]
  exact MemOk.ite h.replaySet.congr h.replaySet

protected theorem MemOk.replayCarry (h : MemOk s) {walk sl rid} : MemOk (replayCarry s walk sl rid) := by
  unfold Machine.replayCarry
  dsimp only
  split
  · exact MemOk.setX (MemOk.letHeld (h.setX _)) _
  · exact MemOk.setX (h.setX _) _

protected theorem MemOk.returnFrom (h : MemOk s) {r} : MemOk (returnFrom s r) := by
  simp only [returnFrom]
  split
  · exact h
  · exact h.replaySet
  · exact h.congr
  · exact h.congr
  · exact h.replaySpill
  · exact h.resumeHist
  · exact h.replayCarry
  · exact h.replaySet.congr

protected theorem MemOk.setSaved (h : MemOk s) (l) : MemOk { s with saved := l } := h.congr

protected theorem MemOk.replayRec (h : MemOk s) {p j} : MemOk (replayRec s p j).1 := by
  unfold Machine.replayRec
  split
  · exact h
  next r _ =>
    have hm : MemOk (markResolved s p j r) := h.markResolved
    split
    · exact h
    · split
      · dsimp only
        split <;> dsimp only
        · exact hm.setSaved _
        · exact hm
      · dsimp only
        split
        · exact h
        · refine h.onCopy fun u hu => ?_
          split
          · exact hu.markResolved.returnFrom
          · exact hu

protected theorem MemOk.failAll (h : MemOk s) {f n x3 code va} : MemOk (failAll s f n x3 code va) := by
  simp only [failAll]
  exact h.foldl _ fun u d1 hu => hu.keep Keeps.rfl.failDst

protected theorem MemOk.abortStream (h : MemOk s) {f n id} : MemOk (abortStream s f n id) := by
  simp only [abortStream]
  split
  · exact h
  · exact h.congr.failAll

protected theorem MemOk.abortSpill (h : MemOk s) {f n id i} : MemOk (abortSpill s f n id i) := by
  simp only [abortSpill]
  split
  · exact h
  · exact h.keep Keeps.rfl.failDst

protected theorem MemOk.endFault (h : MemOk s) {r} : MemOk (endFault s r) := by
  simp only [endFault]
  split
  · exact h
  · exact h.abortStream
  · exact h.abortSpill
  · exact h.retire

protected theorem MemOk.tryQuiesce (h : MemOk s) {g d c} : Holds MemOk (tryQuiesce s g d c) := by
  simp only [tryQuiesce]
  split
  · exact h.putGraph
  · trivial

protected theorem MemOk.supDone (h : MemOk s) {g d c} : MemOk (supDone s g d c) := by
  simp only [supDone]
  exact h.putGraph

protected theorem MemOk.readBases (h : MemOk s) {pa} : Gives (fun r => MemOk r.1) (readBases s pa) := by
  simp only [readBases]
  split
  · exact h.supRead.map (fun a ha => ha)
  · trivial

protected theorem MemOk.tryTlbinv (h : MemOk s) {f g lo len c} : Holds MemOk (tryTlbinv s f g lo len c) := by
  simp only [tryTlbinv]
  split
  · trivial
  · exact h.congr.putGraph

protected theorem MemOk.mapLeaf (h : MemOk s) {ctx va leaf level} : Gives MemOk (mapLeaf s ctx va leaf level) := by
  simp only [mapLeaf]
  split
  · trivial
  · split
    · trivial
    · split
      · trivial
      · split
        · trivial
        · exact ((h.foldl _ fun u a hu => hu.keep Keeps.rfl.correctWord).homeWrite).map (fun a ha => ha.wakeStwait)

protected theorem MemOk.deadAnswer (h : MemOk s) {m} : MemOk (deadAnswer s m) := by
  simp only [deadAnswer]
  split
  · exact h.keep Keeps.rfl.answerDead
  · exact h.congr
  · exact h

protected theorem MemOk.markDead (h : MemOk s) {w} : MemOk (markDead s w) := by
  simp only [markDead]
  exact MemOk.ite h (h.congr.foldl _ fun u a hu => hu.deadAnswer)

protected theorem MemOk.freezeHurt (h : MemOk s) {ctx f lid h4} : MemOk (freezeHurt s ctx f lid h4) := by
  simp only [freezeHurt]
  exact h.congr.keep Keeps.rfl.reportFault

protected theorem MemOk.thaw (h : MemOk s) {lid n f} : MemOk (thaw s lid n f) := by
  simp only [thaw]
  split
  · exact MemOk.ite ((h.congr.keep Keeps.rfl.progress).freezeHurt) (h.congr.keep Keeps.rfl.progress)
  · exact h.congr.keep Keeps.rfl.progress

protected theorem MemOk.unbindQueue (h : MemOk s) {f q} : MemOk (unbindQueue s f q) := by
  simp only [unbindQueue]
  split
  · exact h
  · exact MemOk.ite h.congr h.congr

protected theorem MemOk.farAccess (h : MemOk s) {u tag lid w k} (hk : ∀ u, MemOk u → MemOk (k u)) : MemOk (farAccess s u tag lid w k) := by
  simp only [farAccess]
  exact MemOk.ite h.congr (hk _ h.farGot)

protected theorem MemOk.bindQueue (h : MemOk s) {ctx desc} : Holds (fun r => MemOk r.1) (bindQueue s ctx desc) := by
  simp only [bindQueue]
  split
  · trivial
  · split
    · trivial
    next e =>
      split
      · exact (Keeps.rfl.readAt.memOk h).of_eq e
      · trivial

protected theorem MemOk.makeLive (h : MemOk s) {c} : MemOk (makeLive s c) := by
  simp only [makeLive]
  split
  · exact h
  · exact MemOk.ite h.congr h

protected theorem MemOk.acceptPacket (h : MemOk s) {f q z b} : MemOk (acceptPacket s f q z b) := by
  simp only [acceptPacket]
  split
  · exact h.congr.keep Keeps.rfl.recordOnly
  · split
    · exact h
    next e => exact ((h.writeAt.of_eq e).congr).makeLive

protected theorem MemOk.pktDone (h : MemOk s) {q idx} : MemOk (pktDone s q idx) := by
  simp only [pktDone]
  split
  · exact h
  · split
    · exact h.congr
    · exact h

protected theorem MemOk.markStarted (h : MemOk s) {f q idx} : MemOk (markStarted s f q idx) := by
  simp only [markStarted]
  split
  · exact h.congr
  · exact h

protected theorem MemOk.farAll (h : MemOk s) {u tag lid ws k} (hk : ∀ u, MemOk u → MemOk (k u)) : MemOk (farAll s u tag lid ws k) := by
  simp only [farAll]
  exact MemOk.ite (hk _ (h.foldl _ fun u1 w1 hu => hu.farGot)) (h.foldl _ fun u1 w1 hu => hu.congr)

protected theorem MemOk.haltAt (h : MemOk s) {f q z p} : MemOk (haltAt s f q z p) := by
  simp only [haltAt]
  split
  · exact (h.keep Keeps.rfl.recordOnly).pktDone
  · split
    next e => exact (((h.keep Keeps.rfl.recordOnly).congr).writeAt).of_eq e
    · exact (h.keep Keeps.rfl.recordOnly).congr

protected theorem MemOk.handStream (h : MemOk s) {f q ty ok mk}
    (hmk : ∀ u a1 a2, MemOk u → Gives (fun r => MemOk r.1) (mk u a1 a2)) :
    MemOk (handStream s f q ty ok mk) := by
  simp only [handStream]
  split
  · exact h
  · split
    · exact h
    · refine h.farAll (fun u hu => ?_)
      split
      · exact MemOk.ite hu.haltAt ((hu.keep Keeps.rfl.recordOnly).pktDone)
      next e1 => exact (((hmk _ _ _ hu).of_eq e1).congr).markStarted

protected theorem MemOk.readDsts (h : MemOk s) {ctx lid dlist mask n} : Gives (fun r => MemOk r.1) (readDsts ctx lid dlist mask n s) := by
  induction n with
  | zero => exact h
  | succ n ih =>
    rw [Machine.readDsts]
    split
    · trivial
    next u l e =>
      have hu : MemOk u := ih.of_eq e
      split
      · split
        · trivial
        next v b e2 =>
          have hv : MemOk v := (Keeps.rfl.readAt.memOk hu).of_eq e2
          split
          · exact hv
          · trivial
      · exact hu

protected theorem MemOk.mkCopy (h : MemOk s) {req pkt ctx lid b mask} : Gives (fun r => MemOk r.1) (mkCopy s req pkt ctx lid b mask) := by
  have one {l : List Dst} : Gives (ε := Nat) (fun r => MemOk r.1) (.ok (s, l)) := h
  unfold Machine.mkCopy
  dsimp only
  split
  on_goal 1 => refine Gives.bind h.readDsts fun r hr => ?_
  on_goal 2 => refine Gives.bind one fun r hr => ?_
  all_goals
    split
    · refine Gives.bind_right fun p1 => Gives.bind_right fun p2 => ?_
      split <;> exact Gives.bind_right fun p3 => hr
    · exact hr

protected theorem MemOk.goesOn (h : MemOk s) {g} : MemOk (goesOn s g) := by
  simp only [goesOn]
  exact h.putGraph

protected theorem MemOk.stepFlags (h : MemOk s) {f g d left acc} : Holds MemOk (stepFlags s f g d left acc) := by
  simp only [stepFlags]
  split
  · exact h.putGraph
  · split
    · exact h.graphFault
    · trivial

protected theorem MemOk.resumeUser (h : MemOk s) {f g a} : Holds MemOk (resumeUser s f g a) := by
  simp only [resumeUser]
  split
  · exact h.putGraph
  · split
    · split
      · split
        · trivial
        · exact h.supGet (fun u a hu => hu.goesOn)
      · exact h.farGot.supFar (fun u a hu => hu.goesOn)
    · split
      · trivial
      · exact h.farGot.loadWord (fun u a hu => hu.goesOn)
  · split
    · split
      · split
        · trivial
        · exact h.supSet (fun u a hu => hu.goesOn)
      · exact h.farGot.supFar (fun u a hu => hu.goesOn)
    · split
      · trivial
      · exact h.farGot.storeWord (fun u a hu => hu.goesOn)
  · exact h.farGot.childLaunch
  · exact h.farGot.claimPost
  · split
    · trivial
    · exact h.putGraph
  · exact h.tryArms
  · exact h.tryWaits
  · exact h.tryStamp
  · exact h.tryPost
  · exact h.tryRecfg
  · exact h.tryFwait
  · exact h.tryCfg
  · exact h.stepFlags
  · trivial

protected theorem MemOk.resumeAt (h : MemOk s) {f n g} : MemOk (resumeAt s f n g) := by
  simp only [resumeAt]
  split
  · exact h
  · split
    · exact h
    · split
      · exact h
      next e1 => exact (h.congr.resumeUser.of_eq e1).congr

protected theorem MemOk.flushFields (h : MemOk s) {fs} : MemOk (flushFields s fs) := by
  simp only [flushFields]
  exact h.foldl _ fun u q1 hu => hu.keep Keeps.rfl.flushCounts

protected theorem MemOk.resumeSup (h : MemOk s) {f g a} : Holds MemOk (resumeSup s f g a) := by
  simp only [resumeSup]
  split
  · exact h.tryFrec
  · exact h.tryQuiesce
  · split
    · exact h.putGraph
    · split
      · exact h.flushFields.congr
      · trivial
  · exact h.tryTlbinv
  · exact h.resumeUser

protected theorem MemOk.resumeSupAt (h : MemOk s) {f} : MemOk (resumeSupAt s f) := by
  simp only [resumeSupAt]
  split
  · exact h
  · split
    · exact h
    · split
      · exact h
      next e2 => exact (h.congr.resumeSup.of_eq e2).congr

protected theorem MemOk.grantAll (h : MemOk s) {lid r} : MemOk (grantAll lid s r) := by
  simp only [grantAll]
  exact h.foldl _ fun u n1 hu => hu.grantPane

protected theorem MemOk.loadPart (h : MemOk s) {f lid l} : MemOk (loadPart s f lid l) := by
  unfold Machine.loadPart
  dsimp only
  split
  · exact h.abortLaunch
  · refine (h.onCopy fun u hu => ?_).keep Keeps.rfl.modLaunch
    exact MemOk.setX (hu.loadField fun v c hv => hv.grantAll) _

protected theorem MemOk.takePart (h : MemOk s) {f lid} : MemOk (takePart s f lid) := by
  simp only [takePart]
  split
  · exact h
  · exact MemOk.ite h h.congr.addLaunch.loadPart

protected theorem MemOk.promoteChild (h : MemOk s) {lid l} : MemOk (promoteChild s lid l) := by
  simp only [promoteChild]
  exact MemOk.ite h (MemOk.ite ((h.keep Keeps.rfl.modLaunch).abortLaunch) ((h.keep Keeps.rfl.modLaunch).sendParts))

protected theorem MemOk.ackLead (h : MemOk s) {lid} : MemOk (ackLead s lid) := by
  simp only [ackLead]
  split
  · exact MemOk.ite h.tellHeads h
  · exact h

protected theorem MemOk.startGraphs (h : MemOk s) {lid l i} : MemOk (startGraphs s lid l i) := by
  simp only [startGraphs]
  exact h.foldl _ fun u r1 hu => hu.congr.keep Keeps.rfl.fresh

protected theorem MemOk.takeIdles (h : MemOk s) {lid what} : MemOk (takeIdles s lid what) := by
  simp only [takeIdles]
  refine h.foldl _ fun u p1 hu => ?_
  split
  · exact MemOk.ite (hu.congr.keep Keeps.rfl.modLaunch) hu
  · exact hu

protected theorem MemOk.askWave (h : MemOk s) {lid l what before} : MemOk (askWave s lid l what before) := by
  simp only [askWave]
  exact ((h.keep Keeps.rfl.fresh).keep Keeps.rfl.modLaunch).foldl _ fun u q1 hu => hu.tellPeer

protected theorem MemOk.restAll (h : MemOk s) {lid what ok} : MemOk (restAll s lid what ok).1 := by
  simp only [restAll]
  split
  · exact h.takeIdles
  · split
    · exact h.takeIdles
    · split
      · exact h.takeIdles.keep Keeps.rfl.modLaunch
      · split
        · exact h.takeIdles.askWave
        · split
          · exact h.takeIdles
          · split
            · exact h.takeIdles.keep Keeps.rfl.modLaunch
            · exact h.takeIdles.askWave

protected theorem MemOk.tellFinished (h : MemOk s) {lid l} : MemOk (tellFinished s lid l) := by
  simp only [tellFinished]
  split
  · exact h.tellPeer
  · exact h

protected theorem MemOk.finishLaunch (h : MemOk s) {lid l} : MemOk (finishLaunch s lid l) := by
  simp only [finishLaunch]
  split
  · exact h.congr
  · split
    · exact h.congr
    · refine h.congr.farAccess (fun u hu => ?_)
      split
      · exact hu.tellFinished.congr.pktDone
      · refine (((hu.onCopy (fun u1 hu1 => ?_)).tellFinished).congr).pktDone
        split
        next e => exact hu1.writeAt.of_eq e
        · exact hu1.keep Keeps.rfl.recordOnly

protected theorem MemOk.endedAway (h : MemOk s) {lid q} : MemOk (endedAway s lid q) := by
  simp only [endedAway]
  exact (h.congr.keep Keeps.rfl.modLaunch).retire

protected theorem MemOk.answerPolls (h : MemOk s) {lid l} : MemOk (answerPolls s lid l) := by
  simp only [answerPolls]
  refine h.foldl _ fun u p1 hu => ?_
  split
  · exact MemOk.ite hu.congr.tellPeer hu
  · exact hu

protected theorem MemOk.freezeParity (h : MemOk s) {u ctx f lid sl t6 seq} : MemOk (freezeParity s u ctx f lid sl t6 seq) := by
  simp only [freezeParity]
  exact h.freezeHurt

protected theorem MemOk.refuseTok (h : MemOk s) {g d sl n} : MemOk (refuseTok s g d sl n) := by
  simp only [refuseTok]
  split
  · exact h
  · split
    · split
      · split
        · split
          · exact (h.congr.keep Keeps.rfl.modLaunch).freezeParity
          · exact h.congr.freezeParity
        · exact h.congr.freezeParity
      · split
        · split
          · exact h.congr.keep Keeps.rfl.modLaunch
          · exact h.congr
        · exact h.congr
    · split
      · split
        · split
          · exact (h.congr.keep Keeps.rfl.modLaunch).freezeParity
          · exact h.congr.freezeParity
        · exact h.congr.freezeParity
      · split
        · split
          · exact h.congr.keep Keeps.rfl.modLaunch
          · exact h.congr
        · exact h.congr

protected theorem MemOk.keepSet (h : MemOk s) {sl o} : Holds MemOk (keepSet s sl o) := by
  simp only [keepSet]
  split
  · exact h.congr
  · exact h.allocEntry

protected theorem MemOk.takeOffered (h : MemOk s) {g d} : MemOk (takeOffered s g d) := by
  simp only [takeOffered]
  split
  · split
    · exact h.keep Keeps.rfl.modLaunch
    · exact h
  · exact h.congr

protected theorem MemOk.overflowPark (h : MemOk s) {sl n id} : MemOk (overflowPark s sl n id) := by
  simp only [overflowPark]
  exact MemOk.ite h (h.keep Keeps.rfl.parkSet)

protected theorem MemOk.claimState (h : MemOk s) {sl n o searched} : AccOk (claimState s sl n o searched) := by
  simp only [claimState]
  split
  · split
    · exact h
    · split
      · trivial
      · split
        next e1 => exact h.allocEntry.of_eq e1
        · trivial
  · split
    · exact h
    · split
      · exact h
      · split
        next e1 => exact h.allocEntry.of_eq e1
        · trivial

protected theorem MemOk.completeSet (h : MemOk s) {sl n o searched} : AccOk (completeSet s sl n o searched) := by
  simp only [completeSet]
  split
  · trivial
  · split
    · split
      next e1 => exact h.keepSet.of_eq e1
      · trivial
    · split
      · trivial
      · split
        · split
          next e1 =>
            split
            next e2 => exact (Keeps.rfl.enqueue.memOk (h.congr.claimState.of_eq e1)).of_eq e2
            · trivial
          · exact h.congr.claimState
        · split
          next e =>
            split
            next e1 => exact (((h.claimState.of_eq e).keepSet).of_eq e1).congr
            · trivial
          · exact h.claimState

protected theorem MemOk.acceptWalk (h : MemOk s) {sl port t3} : AccOk (acceptWalk s sl port t3) := by
  simp only [acceptWalk]
  split
  · split
    · exact h.congr
    · trivial
  · split
    · split
      · exact h.congr
      · trivial
    · split
      · split
        · exact h.congr
        · trivial
      · trivial

protected theorem MemOk.acceptAlone (h : MemOk s) {sl n port t4 searched} : AccOk (acceptAlone s sl n port t4 searched) := by
  simp only [acceptAlone]
  split
  · exact h.completeSet
  · split
    · trivial
    · split
      · trivial
      · exact h.completeSet

protected theorem MemOk.acceptHist (h : MemOk s) {sl port t3} : AccOk (acceptHist s sl port t3) := by
  simp only [acceptHist]
  split
  · split
    · exact h.congr
    · trivial
  · split
    · trivial
    · split
      · trivial
      · split
        · split
          · trivial
          · split
            · split
              next e3 => exact (Keeps.rfl.enqueue.memOk h.congr).of_eq e3
              · trivial
            · exact h.congr
        · exact h.congr

protected theorem MemOk.acceptPaired (h : MemOk s) {sl n port t4 searched} : AccOk (acceptPaired s sl n port t4 searched) := by
  simp only [acceptPaired]
  split
  · exact h.completeSet
  · split
    · split
      · trivial
      · split
        · trivial
        · split
          · exact h.completeSet
          · split
            next e1 => exact h.keepSet.of_eq e1
            · trivial
    · split
      · trivial
      · split
        · exact h.completeSet
        · split
          next e1 => exact h.keepSet.of_eq e1
          · trivial

protected theorem MemOk.acceptTok (h : MemOk s) {sl n port t4 searched} : AccOk (acceptTok s sl n port t4 searched) := by
  simp only [acceptTok]
  split
  · exact h.acceptWalk
  · split
    · exact h.acceptAlone
    · split
      · exact h.acceptHist
      · exact h.acceptPaired

protected theorem MemOk.offerTok (h : MemOk s) {g d bad} : MemOk (offerTok s g d bad) := by
  simp only [offerTok]
  split
  · exact h
  · split
    · exact h
    · split
      · exact h
      · split
        · exact h.refuseTok
        · split
          next e2 =>
            exact MemOk.ite h ((MemOk.ite ((MemOk.ite ((h.acceptTok.of_eq e2).keep Keeps.rfl.spend) (h.acceptTok.of_eq e2)).congr)
              (MemOk.ite ((h.acceptTok.of_eq e2).keep Keeps.rfl.spend) (h.acceptTok.of_eq e2))).takeOffered)
          · exact h
          · exact MemOk.ite h ((h.keep Keeps.rfl.spend).congr)
          · exact (MemOk.ite h.congr h).overflowPark

protected theorem MemOk.readOvfl (h : MemOk s) {sl n id a} : MemOk (readOvfl s sl n id a).1 := by
  simp only [readOvfl]
  split
  next e => exact (Keeps.rfl.spend.eccRead.memOk h).of_eq e
  · exact MemOk.ite (h.keep Keeps.rfl.spend) ((h.keep Keeps.rfl.spend).freezeHurt)

protected theorem MemOk.releaseHeld (h : MemOk s) {sl n l} : MemOk (releaseHeld s sl n l) := by
  induction l generalizing s with
  | nil => exact h
  | cons m l ih =>
    rw [Machine.releaseHeld]
    split
    · split
      · exact ih (MemOk.congr h.releaseTok)
      · exact ih h
    · exact ih h

protected theorem MemOk.frontierTo (h : MemOk s) {sl lid} : MemOk (frontierTo sl s lid) := by
  simp only [frontierTo]
  split
  · exact MemOk.ite h (MemOk.ite ((MemOk.ite (h.spillFrontier.congr.keep Keeps.rfl.breakAt) h.spillFrontier.congr).releaseHeld)
      (MemOk.ite (h.spillFrontier.congr.keep Keeps.rfl.breakAt) h.spillFrontier.congr))
  · exact h

protected theorem MemOk.noteFiring (h : MemOk s) {c} : MemOk (noteFiring s c) := h.congr

protected theorem MemOk.noteFront (h : MemOk s) {sl : Slot} {p rid toks c its b f lid} :
    MemOk (noteFiring (progress (record (settle s sl p rid toks) c lid its b) f lid) c) :=
  (h.keep Keeps.rfl.settle.record.progress).noteFiring

protected theorem MemOk.frontTold (h : MemOk s) {sl rid l} : MemOk (frontTold s sl rid l) := by
  unfold Machine.frontTold
  split
  · dsimp only
    split
    · exact (h.setX _).keep Keeps.rfl.settle.parkSet
    · split
      · exact (h.setX _).noteFront.keep Keeps.rfl.trace
      · exact (h.setX _).noteFront
  · exact h

protected theorem MemOk.frontAsked (h : MemOk s) {p} : MemOk (frontAsked s p) := by
  simp only [frontAsked]
  split
  · exact h.congr
  · exact h

protected theorem MemOk.atWindow (h : MemOk s) {w o n f} (hf : ∀ u, MemOk u → MemOk (f u)) : MemOk (atWindow s w o n f) := by
  simp only [atWindow]
  exact MemOk.ite h (h.onCopy (fun u hu => hf _ hu))

protected theorem MemOk.atHome (h : MemOk s) {ctx pa f} (hf : ∀ u, MemOk u → MemOk (f u)) : MemOk (atHome s ctx pa f) := by
  simp only [atHome]
  exact MemOk.ite (MemOk.ite h (h.onCopy (fun u hu => hf _ hu))) (hf _ h)

/-! ## Homes, histories, streamers, islands, links and the host -/

protected theorem MemOk.atTarget (h : MemOk s) {ctx pa n f} (hf : ∀ u, MemOk u → MemOk (f u)) : MemOk (atTarget s ctx pa n f) := by
  simp only [atTarget]
  split
  · split
    · exact h.atWindow (fun u hu => MemOk.ite hu (hf _ hu))
    · exact hf _ h
  · exact h.atHome (fun u hu => MemOk.ite hu (hf _ hu))

protected theorem MemOk.refuse (h : MemOk s) {r pa code} : MemOk (refuse s r pa code) := by
  simp only [refuse]
  exact (MemOk.ite (h.keep Keeps.rfl.recordOnly) h).keep Keeps.rfl.sendAns

protected theorem MemOk.sendWake (h : MemOk s) {home r a} : MemOk (sendWake s home r a) := by
  simp only [sendWake]
  exact MemOk.ite (h.keep Keeps.rfl.sendAns) h.congr

protected theorem MemOk.readAns (h : MemOk s) {r pa wake} : MemOk (readAns s r pa wake).1 := by
  simp only [readAns]
  split
  · exact h.refuse
  next e =>
    split
    · exact ((Keeps.rfl.homeRead.memOk h).of_eq e).sendWake
    · exact ((Keeps.rfl.homeRead.memOk h).of_eq e).keep Keeps.rfl.sendAns

protected theorem MemOk.islandRead (h : MemOk s) {r pa} : MemOk (islandRead s r pa) := by
  simp only [islandRead]
  split
  · exact h.refuse
  next e => exact ((Keeps.rfl.homeRead.memOk h).of_eq e).congr

protected theorem MemOk.strikePane (h : MemOk s) {p} : MemOk (strikePane s p) := h.congr

protected theorem MemOk.servePass (h : MemOk s) {p l} : MemOk (servePass p s l).1 := by
  induction l generalizing s with
  | nil => exact h
  | cons e l ih =>
    rw [Machine.servePass]
    split
    · split
      · exact ih (h.readAns.keep Keeps.rfl.progress)
      · exact ih h
    · split
      · exact ih (h.islandRead.keep Keeps.rfl.progress)
      · exact ih h
    · split
      · dsimp only
        split
        · exact (h.readAns.keep Keeps.rfl.progress).strikePane
        · exact ih (h.readAns.keep Keeps.rfl.progress)
      · exact ih h
    · split
      · dsimp only
        split
        · exact ih h
        · exact ih (MemOk.keep (MemOk.sendWake (h.keep Keeps.rfl.congr)) Keeps.rfl.progress)
      · exact ih h
    · exact ih h

protected theorem MemOk.setWaitl (h : MemOk s) {u l} :
    MemOk (setWaitl s u l) := h.congr

protected theorem MemOk.setPtag (h : MemOk s) {p t2} :
    MemOk (setPtag s p t2) := h.congr

protected theorem MemOk.hoistPane (h : MemOk s) {p lid} : MemOk (hoistPane s p lid) := by
  simp only [hoistPane]
  exact h.congr.setPtag.servePass.setWaitl.keep Keeps.rfl.breakAt

protected theorem MemOk.panePut (h : MemOk s) {ctx lid p pa bs cmp} : Gives MemOk (panePut s ctx lid p pa bs cmp) := by
  simp only [panePut]
  split
  · trivial
  · split
    · trivial
    · split
      · trivial
      · split
        · trivial
        next e =>
          exact MemOk.ite ((((h.homeWrite.of_eq e).wakeStwait).setPtag).hoistPane) (((h.homeWrite.of_eq e).wakeStwait).setPtag)

protected theorem MemOk.enginePut (h : MemOk s) {ctx lid pa bs cmp} : Gives MemOk (enginePut ctx lid s pa bs cmp) := by
  unfold Machine.enginePut
  split
  · exact h.panePut
  · exact h.baseWrite.mapError

protected theorem MemOk.engineStore (h : MemOk s) {ctx lid pa bs cmp} : MemOk (engineStore s ctx lid pa bs cmp).1 := by
  have hr : Gives MemOk (match (if paWafer pa == s.wafno then decodePA s pa else none) with
      | some (.win st k o) => match tget s.wins (st, k) with
        | some w => windowPut (fun code => (code, none)) (Machine.enginePut w.ctx lid) w s o bs
        | none => .error (Code.xlat, none)
      | _ => Machine.enginePut ctx lid s pa bs cmp) := by
    split
    · split
      · exact h.windowPut fun _ _ _ _ hu => hu.enginePut
      · trivial
    · exact h.enginePut
  unfold Machine.engineStore
  split
  next e => exact hr.of_eq e
  · exact h.setPtag
  · exact h

protected theorem MemOk.arrive (h : MemOk s) {src ctx lid pa cmp bs} : MemOk (arrive s src ctx lid pa cmp bs).1 := by
  simp only [arrive]
  split
  · exact h
  · split
    · exact h
    · exact h.engineStore

protected theorem MemOk.readyUnit (h : MemOk s) {src ctx va pa cmp} : MemOk (readyUnit s src ctx va pa cmp) := by
  simp only [readyUnit]
  split
  · exact h
  · split
    · exact h
    · exact MemOk.ite h.unitWrite.congr h.congr

protected theorem MemOk.ackArrival (h : MemOk s) {src ctx lid pa va pkt code} : MemOk (ackArrival s src ctx lid pa va pkt code) := by
  simp only [ackArrival]
  exact h.congr.keep Keeps.rfl.progress

protected theorem MemOk.arrivalStep (h : MemOk s) {pkt want} : MemOk (arrivalStep s pkt want) := by
  simp only [arrivalStep]
  split
  · split
    · exact MemOk.ite (h.atTarget (fun u hu => MemOk.ite hu hu.congr.readyUnit.arrive.ackArrival)) h
    · exact h
  · exact h

protected theorem MemOk.serveLoad (h : MemOk s) {r pa cmp key} : MemOk (serveLoad s r pa cmp key) := by
  simp only [serveLoad]
  split
  · exact h.refuse
  next e => exact ((Keeps.rfl.homeRead.memOk h).of_eq e).keep Keeps.rfl.sendAns

protected theorem MemOk.waitOrRetry (h : MemOk s) {u r pa cmp} : MemOk (waitOrRetry s u r pa cmp) := by
  simp only [waitOrRetry]
  exact MemOk.ite h.setWaitl (h.keep Keeps.rfl.sendAns)

protected theorem MemOk.serveStwait (h : MemOk s) {r pa cmp} : MemOk (serveStwait s r pa cmp) := by
  simp only [serveStwait]
  split
  · exact h.refuse
  next e => exact MemOk.ite ((h.homeNat.of_eq e).keep Keeps.rfl.sendAns) ((h.homeNat.of_eq e).waitOrRetry)

protected theorem MemOk.serveStore (h : MemOk s) {r pa cmp} : MemOk (serveStore s r pa cmp) := by
  simp only [serveStore]
  split
  · exact h.refuse
  next e => exact ((h.homeWrite.of_eq e).wakeStwait).keep Keeps.rfl.sendAns

protected theorem MemOk.plainStep (h : MemOk s) {pkt} : MemOk (plainStep s pkt) := by
  simp only [plainStep]
  split
  · split
    · refine h.atHome (fun u hu => ?_)
      split
      · exact hu
      · split
        · exact hu.congr.refuse
        · exact MemOk.ite hu.congr.serveLoad (MemOk.ite hu.congr.serveStwait hu.congr.serveStore)
    · exact h
  · exact h

protected theorem MemOk.plainWrite (h : MemOk s) {r pa bs cmp} : Gives MemOk (plainWrite s r pa bs cmp) := by
  simp only [plainWrite]
  split
  · split
    · exact h.windowWrite
    · trivial
  · exact h.homeWrite.map (fun a ha => ha.wakeStwait)

protected theorem MemOk.aonServe (h : MemOk s) {r pa cmp} : MemOk (aonServe s r pa cmp) := by
  simp only [aonServe]
  split
  · exact h.refuse
  · split
    · split
      · exact h.refuse
      next e2 => exact ((Keeps.rfl.plainRead.memOk h).of_eq e2).keep Keeps.rfl.sendAns
    · split
      · exact h.refuse
      next e1 => exact ((h.plainWrite.of_eq e1).congr).keep Keeps.rfl.sendAns

protected theorem MemOk.aonDrain (h : MemOk s) {u tile n} : MemOk (aonDrain u tile n s) := by
  induction n generalizing s with
  | zero => exact h
  | succ n ih =>
    rw [Machine.aonDrain]
    split
    · exact h
    · exact ih (MemOk.aonServe h.congr)

protected theorem MemOk.aonDrains (h : MemOk s) {u pa} : MemOk (aonDrains s u pa) := by
  simp only [aonDrains]
  exact h.eachCopy (fun u1 hu => hu.aonDrain)

protected theorem MemOk.aonTake (h : MemOk s) {pkt r pa cmp} : MemOk (aonTake s pkt r pa cmp) := by
  simp only [aonTake]
  exact MemOk.ite h.congr.setWaitl h.congr.aonServe

protected theorem MemOk.aonStep (h : MemOk s) {pkt load} : MemOk (aonStep s pkt load) := by
  simp only [aonStep]
  split
  · exact MemOk.ite (MemOk.ite (h.atHome (fun u hu => hu.aonTake.aonDrains)) ((h.onCopy (fun u hu => hu.aonTake)).aonDrains)) h
  · exact h

protected theorem MemOk.answerStep (h : MemOk s) {p r} : MemOk (answerStep s p r) := by
  simp only [answerStep]
  exact MemOk.ite h (MemOk.ite h.congr (h.onCopy (fun u hu => (MemOk.ite hu.congr hu.congr).keep Keeps.rfl.takeAns)))

protected theorem MemOk.ackStep (h : MemOk s) {p k} : MemOk (ackStep s p k) := by
  simp only [ackStep]
  exact MemOk.ite h (MemOk.ite h.congr (h.congr.keep Keeps.rfl.finishAck))

protected theorem MemOk.askPane (h : MemOk s) {f n c i} : MemOk (askPane s f n c i) := by
  simp only [askPane]
  split
  · exact h
  · exact h.congr

protected theorem MemOk.matrixAns (h : MemOk s) {f n c val key x6} : MemOk (matrixAns s f n c val key x6) := by
  simp only [matrixAns]
  exact h.keep Keeps.rfl.sendAns.progress

protected theorem MemOk.retireStream (h : MemOk s) {f n c code} : MemOk (retireStream s f n c code) := by
  simp only [retireStream]
  exact (MemOk.ite h.congr (h.congr.keep Keeps.rfl.engineFault)).matrixAns

protected theorem MemOk.matrixPaneBack (h : MemOk s) {r code b} : MemOk (matrixPaneBack s r code b) := by
  simp only [matrixPaneBack]
  split
  · split
    · exact MemOk.ite h.congr.askPane h.congr.retireStream
    · exact MemOk.ite h.congr.askPane h.congr
    · exact h.congr
  · exact h

protected theorem MemOk.presenceStep (h : MemOk s) {r pa p} : MemOk (presenceStep s r pa p) := by
  simp only [presenceStep]
  split
  · exact MemOk.ite (h.setPtag.keep Keeps.rfl.sendAns) h.refuse
  · exact MemOk.ite (h.hoistPane.keep Keeps.rfl.sendAns) h.refuse
  · exact MemOk.ite (h.strikePane.keep Keeps.rfl.sendAns) h.refuse
  · exact MemOk.ite h.readAns h.waitOrRetry
  · exact MemOk.ite h.islandRead h.waitOrRetry
  · exact MemOk.ite (MemOk.ite h.readAns.strikePane h.readAns) h.waitOrRetry
  · split
    · exact h.setPtag.keep Keeps.rfl.sendAns
    · exact h.waitOrRetry
  · exact h.keep Keeps.rfl.sendAns

protected theorem MemOk.walkStands (h : MemOk s) {w} : Holds (fun r => MemOk r.1) (walkStands s w) := by
  simp only [walkStands]
  split
  · exact h
  · split
    · split
      · exact h.congr
      · trivial
    · trivial

protected theorem MemOk.sendWalk (h : MemOk s) {id} : MemOk (sendWalk id s) := by
  simp only [sendWalk]
  split
  · exact h
  · exact MemOk.ite h h.congr

protected theorem MemOk.readRecs (h : MemOk s) {lid l} : Gives MemOk (readRecs s lid l) := by
  induction l generalizing s with
  | nil => exact h
  | cons i l ih =>
    rw [Machine.readRecs]
    split
    next e => exact ih ((Keeps.rfl.eccRead.memOk h).of_eq e)
    · trivial

protected theorem MemOk.readCell (h : MemOk s) {r pa} : Gives (fun r => MemOk r.1) (readCell s r pa) := by
  simp only [readCell]
  split
  · trivial
  next e =>
    split
    · trivial
    next e1 =>
      split
      · trivial
      · split
        · trivial
        · split
          · trivial
          · exact ((((h.homeNat.of_eq e).homeNat).of_eq e1).readRecs).map (fun a ha => ha)

protected theorem MemOk.closeWalk (h : MemOk s) {w a} : MemOk (closeWalk s w a) := by
  simp only [closeWalk]
  exact h.congr.keep Keeps.rfl.sendAns.progress

protected theorem MemOk.endWalk (h : MemOk s) {w a} : MemOk (endWalk s w a) := by
  simp only [endWalk]
  exact MemOk.ite h.closeWalk h.congr

protected theorem MemOk.foundRoot (h : MemOk s) {w x2 w0 w1} : MemOk (foundRoot s w x2 w0 w1) := by
  simp only [foundRoot]
  split
  · exact h.endWalk
  · exact h.endWalk
  · exact MemOk.ite h.endWalk h.congr
  · exact MemOk.ite h.endWalk h.congr
  · exact MemOk.ite h.congr (MemOk.ite h.endWalk (MemOk.ite h.endWalk h.congr))

protected theorem MemOk.pushRec (h : MemOk s) {lid head i kind r target nx} : MemOk (pushRec s lid head i kind r target nx).1 := by
  simp only [pushRec]
  exact h.congr.setPool

protected theorem MemOk.writeCell (h : MemOk s) {r pa w v} : Gives MemOk (writeCell s r pa w v) := by
  simp only [writeCell]
  exact h.homeWrite.map (fun a ha => ha.wakeStwait)

protected theorem MemOk.wakeList (h : MemOk s) {home lid v l} : MemOk (wakeList s home lid v l) := by
  induction l generalizing s with
  | nil => exact h
  | cons i l ih =>
    rw [Machine.wakeList]
    split
    · exact ih (h.dropRec.keep Keeps.rfl.sendAns.progress)
    · exact ih h

protected theorem MemOk.fillRoot (h : MemOk s) {w pa old v} : MemOk (fillRoot s w pa old v) := by
  simp only [fillRoot]
  split
  · exact h.endWalk
  next e => exact (((h.writeCell.of_eq e).wakeList).endWalk).keep Keeps.rfl.breakAt

protected theorem MemOk.actStep (h : MemOk s) {w} : MemOk (actStep s w) := by
  simp only [actStep]
  split
  · split
    · exact h.endWalk
    next e1 =>
      split
      · split
        · exact (h.readCell.of_eq e1).endWalk
        · split
          · exact (h.readCell.of_eq e1).endWalk
          next e4 => exact ((((h.readCell.of_eq e1).pushRec).writeCell).of_eq e4).congr
      · exact MemOk.ite ((h.readCell.of_eq e1).endWalk) ((h.readCell.of_eq e1).congr)
  · split
    · exact h.endWalk
    next e1 => exact MemOk.ite ((h.readCell.of_eq e1).fillRoot) ((h.readCell.of_eq e1).congr)
  · split
    · split
      · exact h.endWalk
      next e1 => exact MemOk.ite ((h.readCell.of_eq e1).fillRoot) ((h.readCell.of_eq e1).congr)
    · split
      · exact h.endWalk
      next e =>
        split
        · split
          · exact (h.readCell.of_eq e).endWalk
          · split
            · split
              · exact (h.readCell.of_eq e).endWalk
              next e3 => exact (((h.readCell.of_eq e).writeCell).of_eq e3).congr
            · exact (h.readCell.of_eq e).congr
        · split
          · exact (h.readCell.of_eq e).endWalk
          · split
            · split
              · exact (h.readCell.of_eq e).endWalk
              next e2 => exact (((h.readCell.of_eq e).writeCell).of_eq e2).congr
            · exact (h.readCell.of_eq e).congr

protected theorem MemOk.walkOne (h : MemOk s) {w} : MemOk (walkOne s w) := by
  simp only [walkOne]
  split
  · split
    · exact h.endWalk
    next e1 =>
      exact MemOk.ite (MemOk.ite ((h.readCell.of_eq e1).endWalk) ((h.readCell.of_eq e1).congr)) ((h.readCell.of_eq e1).foundRoot)
  · split
    · exact h.endWalk
    next e1 =>
      exact MemOk.ite (MemOk.ite ((h.readCell.of_eq e1).endWalk) ((h.readCell.of_eq e1).congr)) ((h.readCell.of_eq e1).foundRoot)
  · split
    · exact h.endWalk
    next e1 =>
      split
      · split
        next e3 => exact ((((h.homeNat.of_eq e1).homeWrite).of_eq e3).wakeStwait).congr
        · exact (h.homeNat.of_eq e1).congr
      · exact (h.homeNat.of_eq e1).congr
  · exact h.actStep
  · exact h
  · exact h
  · exact MemOk.ite h.closeWalk h

protected theorem MemOk.walkTurn (h : MemOk s) {w} : MemOk (walkTurn s w) := by
  simp only [walkTurn]
  exact (MemOk.ite h.walkOne h).sendWalk

protected theorem MemOk.pnewStep (h : MemOk s) {r pa} : MemOk (pnewStep s r pa) := by
  simp only [pnewStep]
  split
  · exact h.refuse
  next e =>
    split
    · exact (h.homeNat.of_eq e).refuse
    next e1 => exact (((h.homeNat.of_eq e).writeCell).of_eq e1).keep Keeps.rfl.sendAns.progress

protected theorem MemOk.goOn (h : MemOk s) {w r} : MemOk (goOn s w r) := by
  simp only [goOn]
  split
  · exact h.congr
  · exact h

protected theorem MemOk.setWalkP (h : MemOk s) {w} :
    MemOk (setWalkP s w) := h.congr

protected theorem MemOk.holdCarry (h : MemOk s) {w dst head tail rank code} : MemOk (holdCarry s w dst head tail rank code) := by
  simp only [holdCarry]
  split
  · exact h.setWalkP.keep Keeps.rfl.sendAns
  · split
    · exact h.setWalkP
    · exact ((h.setWalkP.keep Keeps.rfl.reportFault).congr).keep Keeps.rfl.holdSets

protected theorem MemOk.applyCarry (h : MemOk s) {w dst head tail rank} : MemOk (applyCarry s w dst head tail rank) := by
  simp only [applyCarry]
  split
  · exact h.holdCarry
  next e =>
    split
    · exact (h.readCell.of_eq e).setWalkP
    · split
      · exact (h.readCell.of_eq e).holdCarry
      next e1 =>
        split
        · exact ((((h.readCell.of_eq e).readRecs).of_eq e1).wakeList).endWalk
        · split
          · exact (((h.readCell.of_eq e).readRecs).of_eq e1).holdCarry
          next e2 => exact ((((((h.readCell.of_eq e).readRecs).of_eq e1).writeCell).of_eq e2).setPool).endWalk

protected theorem MemOk.objectStep (h : MemOk s) {pkt want step}
    (hstep : ∀ u c r pa, MemOk u → Gives MemOk (step u c r pa)) : MemOk (objectStep s pkt want step) := by
  unfold Machine.objectStep
  split
  · split
    · refine h.atHome fun u hu => ?_
      have hp {f lid} : MemOk (progress (dropPkt u pkt) f lid) := MemOk.keep hu.congr Keeps.rfl.progress
      dsimp only
      split
      · exact hp.refuse
      · split
        · exact hp.refuse
        next e => exact (Gives.bind hp.readRecs fun v hv => hstep v _ _ _ hv).of_eq e
    · exact h
  · exact h

protected theorem MemOk.setMembers (h : MemOk s) {c m} : MemOk (setMembers s c m) := h.congr

protected theorem MemOk.phReg (h : MemOk s) {c r pa w0 p} : Gives MemOk (phReg s c r pa w0 p) := by
  unfold Machine.phReg
  dsimp only
  split
  · trivial
  · exact Gives.bind h.setMembers.writePh fun u hu => hu.keep Keeps.rfl.sendAns

protected theorem MemOk.phDrop (h : MemOk s) {c r pa w0 p} : Gives MemOk (phDrop s c r pa w0 p) := by
  unfold Machine.phDrop
  refine Gives.bind_right fun m => ?_
  split
  · trivial
  · exact Gives.bind h.phDropStep fun u hu => hu.keep Keeps.rfl.sendAns

protected theorem MemOk.phWait (h : MemOk s) {c r pa w0 p} : Gives MemOk (phWait s c r pa w0 p) := by
  have tail {u : Machine.State} (hu : MemOk u) {v : W32} : Gives MemOk
      (if phDone p.phase v then pure (sendAns u (.core c) r (phAns v))
      else match freeRec u (poolLid s r pa) with
        | none => .error Code.waiterPool
        | some i => writePh (pushRec u (poolLid s r pa) p.head i 2 r v false).1 r.ctx pa w0
          { p with head := (pushRec u (poolLid s r pa) p.head i 2 r v false).2 }) := by
    split
    · exact hu.keep Keeps.rfl.sendAns
    · split
      · trivial
      · exact hu.pushRec.writePh
  unfold Machine.phWait
  refine Gives.bind_right fun m => ?_
  dsimp only
  generalize (if r.w.sc = 0 then r.set.c.bind fun t => if t.kv then some t.key else none else none) = ckey
  cases ckey with
  | some k => exact tail h
  | none =>
    cases m with
    | none => exact tail h
    | some q =>
      dsimp only
      by_cases hm : q.2.mode = 1
      · simp only [hm, if_true]
        exact tail h.setMembers
      · simp only [hm, if_false]
        exact tail h

protected theorem MemOk.phSignal.finish (h : MemOk s) {c r pa w0 l nx p a} : Gives MemOk (phSignal.finish c r pa w0 s l nx p a) := by
  have hp {o} : MemOk (phAdvance c o (l.length + 3) ⟨s, p, l⟩).s := MemOk.phAdvance h
  unfold Machine.phSignal.finish
  dsimp only
  split
  · split
    · trivial
    · exact hp.setPool.writePh
  · exact Gives.bind h.phFinish fun u hu => hu.keep Keeps.rfl.sendAns

protected theorem MemOk.phSignal (h : MemOk s) {c r pa w0 p} : Gives MemOk (phSignal s c r pa w0 p) := by
  unfold Machine.phSignal
  refine Gives.bind_right fun m => ?_
  split
  · split
    · trivial
    · split
      · split
        · trivial
        · exact h.pushRec.writePh
      · exact MemOk.phSignal.finish h.setMembers
  · split
    · trivial
    · exact MemOk.phSignal.finish h

protected theorem MemOk.phStep (h : MemOk s) {c r pa} : Gives MemOk (phStep s c r pa) := by
  unfold Machine.phStep
  refine Gives.bind h.readPh fun q hq => Gives.bind_right fun m => ?_
  have hans {a} : MemOk (sendAns q.1 (.core c) r a) := hq.keep Keeps.rfl.sendAns
  dsimp only
  split
  · split
    · trivial
    · exact Gives.bind hq.writePh fun u hu => hu.keep Keeps.rfl.sendAns
  · split
    · trivial
    · split
      · split
        · trivial
        · split
          · exact hq.phReg
          · split
            · exact hq.phDrop
            · exact hans
      · split
        · trivial
        · split
          · exact hq.phWait
          · exact hq.phSignal

protected theorem MemOk.writeLock (h : MemOk s) {ctx pa v} : Gives MemOk (writeLock s ctx pa v) := by
  simp only [writeLock]
  exact h.homeWrite.map (fun a ha => ha.wakeStwait)

protected theorem MemOk.lockOne (h : MemOk s) {c r pa} : Gives MemOk (lockOne s c r pa) := by
  have hans {u : Machine.State} (hu : MemOk u) : MemOk (sendAns u (.core c) r ansDone) := hu.keep Keeps.rfl.sendAns
  unfold Machine.lockOne
  dsimp only
  split
  · trivial
  · refine Gives.bind h.homeNat fun q hq => ?_
    split
    · split
      · exact Gives.bind hq.writeLock fun u hu => hans hu
      · split
        · trivial
        · exact hq.pushRec
    · split
      · trivial
      · split
        · exact Gives.bind hq.writeLock fun u hu => hans (hu.setPool.keep Keeps.rfl.sendAns.progress)
        · exact Gives.bind hq.writeLock fun u hu => hans hu

protected theorem MemOk.sendTok (h : MemOk s) {core t2} : MemOk (sendTok s core t2) := by
  simp only [sendTok]
  exact ((MemOk.ite ((h.keep Keeps.rfl.fresh).keep Keeps.rfl.reserve) (h.keep Keeps.rfl.fresh)).keep Keeps.rfl.record).congr

protected theorem MemOk.sendToks (h : MemOk s) {c l} : MemOk (sendToks c s l).1 := by
  induction l generalizing s with
  | nil => exact h
  | cons a l ih =>
    rw [Machine.sendToks]
    split
    · exact ih h.sendTok
    · exact h

protected theorem MemOk.extentPut (h : MemOk s) {ctx a b} : MemOk (extentPut s ctx a b) := by
  simp only [extentPut]
  split
  next e => exact (h.homeWrite.of_eq e).wakeStwait
  · exact h

protected theorem MemOk.histPut (h : MemOk s) {ctx l} : MemOk (histPut s ctx l) := by
  simp only [histPut]
  exact h.foldl _ fun u q1 hu => hu.extentPut

protected theorem MemOk.ownerFlags (h : MemOk s) {core o fl} : MemOk (ownerFlags s core o fl) := by
  simp only [ownerFlags]
  exact MemOk.ite h (MemOk.ite (h.keep Keeps.rfl.orWord) (h.keep Keeps.rfl.sendAns))

protected theorem MemOk.stallOwner (h : MemOk s) {core off o code t5} : MemOk (stallOwner s core off o code t5) := by
  simp only [stallOwner]
  exact MemOk.ite (h.congr.keep Keeps.rfl.sendAns) (MemOk.ite ((h.keep Keeps.rfl.reportFault).congr)
    (((h.keep Keeps.rfl.reportFault).congr).keep Keeps.rfl.holdSets))

protected theorem MemOk.setOwner (h : MemOk s) {core b} : MemOk (setOwner s core b) := by
  simp only [setOwner]
  exact MemOk.ite h (MemOk.ite h.congr (MemOk.ite h.congr h))

protected theorem MemOk.releaseAside (h : MemOk s) {c o} : MemOk (releaseAside s c o) := h.congr

protected theorem MemOk.histEnd (h : MemOk s) {core b} : MemOk (histEnd s core b) := by
  have hrec {lid l c} : MemOk (record (histPut { s with x :=
    { s.x with hbusy := tdel s.x.hbusy core } } b.req.ctx b.wr) core lid l c) :=
    (h.setX _).histPut.keep Keeps.rfl.record
  have hsend {u : Machine.State} (hu : MemOk u) : MemOk (if b.code = 0 then u else sendAns u (.core core) b.req
    (ansCode b.code)) := by
    split
    · exact hu
    · exact hu.keep Keeps.rfl.sendAns
  have hnote {u : Machine.State} (hu : MemOk u) : MemOk (noteFiring (if b.aside then releaseAside u core b.off else u) core) := by
    split
    · exact hu.releaseAside.noteFiring
    · exact hu.noteFiring
  unfold Machine.histEnd
  refine hnote (hsend (MemOk.setOwner ?_))
  split
  · split
    · exact hrec.ownerFlags
    · exact hrec.ownerFlags.stallOwner
  · exact hrec

protected theorem MemOk.histGo (h : MemOk s) {core} : MemOk (histGo s core) := by
  simp only [histGo]
  split
  · exact h
  · exact MemOk.ite h (MemOk.ite ((MemOk.ite (h.sendToks.keep Keeps.rfl.progress) h.sendToks).histEnd)
      ((MemOk.ite (h.sendToks.keep Keeps.rfl.progress) h.sendToks).congr))

protected theorem MemOk.histLoad (h : MemOk s) {ctx base n} : Gives (fun r => MemOk r.1) (histLoad s ctx base n) := by
  have read {u : Machine.State} (hu : MemOk u) {a n} : Gives (fun r => MemOk r.1) (homeRead u (some ctx) a n false) :=
    Keeps.rfl.homeRead.memOk hu
  unfold Machine.histLoad
  refine Gives.bind (read h) fun q hq => ?_
  dsimp only
  split
  · trivial
  · split
    · trivial
    · split
      · trivial
      · exact Gives.bind (read hq) fun a ha => Gives.bind (read ha) fun b hb => hb

protected theorem MemOk.freezeHist (h : MemOk s) {core off count r t5 seq} : MemOk (freezeHist s core off count r t5 seq) := by
  simp only [freezeHist]
  exact h.freezeHurt

protected theorem MemOk.histRun (h : MemOk s) {core op h3 mine} : MemOk (histRun s core op h3 mine) := by
  simp only [histRun]
  split
  · split
    · exact h.keep Keeps.rfl.sendAns
    · split
      · split
        · exact h.congr.histGo
        · split
          · exact MemOk.ite (h.keep Keeps.rfl.sendAns) h.congr.histGo
          · exact h.congr.histGo
      · split
        · exact h.congr.histGo
        · split
          · exact MemOk.ite (h.keep Keeps.rfl.sendAns) h.congr.histGo
          · exact h.congr.histGo
  · split
    · exact h.keep Keeps.rfl.sendAns
    · split
      · split
        · exact h.congr.histGo
        · split
          · exact MemOk.ite (h.keep Keeps.rfl.sendAns) h.congr.histGo
          · exact h.congr.histGo
      · split
        · exact h.congr.histGo
        · split
          · exact MemOk.ite (h.keep Keeps.rfl.sendAns) h.congr.histGo
          · exact h.congr.histGo

protected theorem MemOk.histBegin (h : MemOk s) {core op h3} : MemOk (histBegin s core op h3) := by
  simp only [histBegin]
  exact MemOk.ite (h.keep Keeps.rfl.sendAns) (MemOk.ite (h.congr.histPut.keep Keeps.rfl.sendAns)
    (MemOk.ite ((MemOk.ite h.histPut h).keep Keeps.rfl.sendAns) h.histRun))

/-- The batch's guard and load stand as variables and the `let`s as they are, so that the kernel, which compares two matches by their
values, computes neither. -/
protected theorem MemOk.histNext (h : MemOk s) {core} : MemOk (histNext s core) := by
  have gone {u : Machine.State} (hu : MemOk u) {l} : MemOk { u with x := { u.x with hq := l } } := hu.congr
  have loaded {ctx base n} : Gives (fun r => MemOk r.1) (Machine.histLoad s ctx base n) := h.histLoad
  generalize hf : Machine.histNext = f
  delta Machine.histNext at hf
  subst hf
  generalize Machine.homeGuard = guard
  generalize Machine.histLoad = load at loaded ⊢
  beta_reduce
  split
  · exact h
  · extract_lets r pa out
    split
    · exact h
    · split
      · exact (gone h).refuse
      · split
        · exact (gone h).refuse
        · split
          · exact MemOk.setX (gone h) _
          · split
            · split
              · exact h.freezeHist
              · exact (gone h).keep Keeps.rfl.sendAns
            next e => exact (gone (loaded.of_eq e)).histBegin

protected theorem MemOk.histArrive (h : MemOk s) {pkt} : MemOk (histArrive s pkt) := by
  simp only [histArrive]
  split
  · exact h
  · split
    · exact h
    · split
      · exact MemOk.ite ((h.onCopy (fun u hu => hu.congr)).histNext) (h.onCopy (fun u hu => hu.congr))
      · exact h.congr.refuse

protected theorem MemOk.pendNext (h : MemOk s) {core off o} : MemOk (pendNext s core off o) := by
  simp only [pendNext]
  split
  · exact h
  · split
    · exact h
    · split
      · exact MemOk.ite h.freezeHist (MemOk.ite h h.stallOwner)
      next e1 =>
        split
        · exact h.histLoad.of_eq e1
        · split
          · exact h.histLoad.of_eq e1
          · split
            · exact (h.histLoad.of_eq e1).stallOwner
            · exact (((h.histLoad.of_eq e1).keep Keeps.rfl.fresh).congr).histGo

protected theorem MemOk.acceptEnd (h : MemOk s) {f n pkt r own q} (hq : Gives (fun r => MemOk r.1) q) :
    MemOk (acceptEnd s f n pkt r own q) := by
  unfold Machine.acceptEnd
  split
  · exact h.congr
  · exact MemOk.congr (show MemOk _ from hq)

protected theorem MemOk.judgeGfree (h : MemOk s) {r} : Gives (fun r => MemOk r.1) (judgeGfree s r) := by
  simp only [judgeGfree]
  split
  · trivial
  · split
    · trivial
    · exact h

protected theorem MemOk.judgeDesc (h : MemOk s) {r b} : Gives (fun r => MemOk r.1) (judgeDesc s r b) := by
  unfold Machine.judgeDesc
  split
  · split
    · trivial
    · exact h
  · split
    · trivial
    · split
      · split
        · exact h.mkCopy
        · trivial
      · split
        · exact h.mkCopy
        · trivial
      · split
        · exact Gives.map_right fun _ => h
        · trivial
      · split
        · exact h
        · trivial

protected theorem MemOk.setSi (h : MemOk s) {f n i} : MemOk (setSi s f n i) := h.congr

protected theorem MemOk.acceptDesc (h : MemOk s) {f n pkt r b} : MemOk (acceptDesc s f n pkt r b) := by
  unfold Machine.acceptDesc
  exact h.setSi.farAll fun u hu => hu.setSi.acceptEnd hu.setSi.judgeDesc

protected theorem MemOk.execStreamAccept.readDesc (h : MemOk s) {f n pkt r} : MemOk (execStreamAccept.readDesc s f n pkt r) := by
  unfold Machine.execStreamAccept.readDesc
  refine h.farAccess fun u hu => ?_
  split
  · exact hu.acceptEnd trivial
  next e => exact (Gives.of_eq (Keeps.rfl.pieceRead.memOk hu) e).acceptDesc

protected theorem MemOk.flushHeld (h : MemOk s) {f n x3} : MemOk (flushHeld s f n x3) := by
  simp only [flushHeld]
  exact h.foldl _ fun u d1 hu => MemOk.ite hu hu.modStream.sendTo

protected theorem MemOk.readUpTo (h : MemOk s) {ctx lid va n} : MemOk (readUpTo s ctx lid va n).1 := by
  simp only [readUpTo]
  split
  next e => exact (Keeps.rfl.readAt.memOk h).of_eq e
  · split
    next e => exact (Keeps.rfl.readAt.memOk h).of_eq e
    · exact h

protected theorem MemOk.bpRead (h : MemOk s) {ctx lid src w k m g pre} : MemOk (bpRead ctx lid src w k m s g pre).1 := by
  induction m generalizing s g pre with
  | zero => exact h
  | succ m ih =>
    rw [Machine.bpRead]
    split
    next e => exact fst_of_eq (p := MemOk) h.readUpTo e
    next e =>
      have hu := fst_of_eq (p := MemOk) h.readUpTo e
      dsimp only
      exact ih hu

protected theorem MemOk.sendOut (h : MemOk s) {f n x3 off bs} : MemOk (sendOut s f n x3 off bs) := by
  simp only [sendOut]
  exact h.foldl _ fun u d1 hu => hu.sendTo

protected theorem MemOk.srcFailed (h : MemOk s) {f n x3 code va resume} : MemOk (srcFailed s f n x3 code va resume) := by
  simp only [srcFailed]
  exact MemOk.ite h.pageRecord.modStream h.failAll

protected theorem MemOk.afterRead (h : MemOk s) {f n x3 src e} : MemOk (afterRead s f n x3 src e) := by
  simp only [afterRead]
  split
  · exact h
  · exact h.srcFailed

protected theorem MemOk.copyChunk (h : MemOk s) {f n x3 xf w k rows cols src len} :
    MemOk (copyChunk s f n x3 xf w k rows cols src len) := by
  simp only [copyChunk]
  exact MemOk.ite h.bpRead.modStream.sendOut.afterRead (MemOk.ite h.readUpTo.modStream.sendOut.afterRead
    ((MemOk.ite h.readUpTo.modStream.sendOut h.readUpTo.modStream).afterRead))

protected theorem MemOk.binChunk (h : MemOk s) {f n x ncls nrows rp out bnda} : MemOk
    (binChunk s f n x ncls nrows rp out bnda) := by
  have read {u : Machine.State} (hu : MemOk u) {va n} : Gives (fun r => MemOk r.1)
    (readAt u x.ctx x.lid va n) := Keeps.rfl.readAt.memOk hu
  unfold Machine.binChunk
  dsimp only
  split
  · exact h.failAll
  next u bb e =>
    have hu : MemOk u := by
      split at e
      · cases e
        exact h
      · exact (read h).of_eq e
    split
    · exact hu.failAll
    next v b e2 =>
      have hv : MemOk v := by
        split at e2
        · exact (read hu).of_eq e2
        · refine Gives.of_eq (p := fun r : Machine.State × List Byte => MemOk r.1) (r := Except.map _ _) ?_ e2
          exact (read hu).map fun _ ha => ha
      exact hv.modStream.sendTo

protected theorem MemOk.qpostClaim (h : MemOk s) {f n x desc} : MemOk (qpostClaim s f n x desc) := by
  unfold Machine.qpostClaim
  split
  · exact h.modStream
  · split
    · exact h.modStream
    next u b e =>
      have hu : MemOk u := by
        split at e
        · cases e
        · exact (Keeps.rfl.pieceRead.memOk h).of_eq e
      split
      · exact hu.modStream
      next e2 => exact (hu.pieceWrite.of_eq e2).modStream

protected theorem MemOk.chunkOf (h : MemOk s) {f n x3} : MemOk (chunkOf s f n x3) := by
  simp only [chunkOf]
  split
  · exact h.copyChunk
  · exact h.binChunk
  · exact h.qpostClaim
  · exact h

protected theorem MemOk.engineAt (h : MemOk s) {ctx lid va bs} : MemOk (engineAt s ctx lid va bs).1 := by
  simp only [engineAt]
  split
  · exact h
  · exact (h.keep Keeps.rfl.walkFix).engineStore

protected theorem MemOk.lastFault (h : MemOk s) {f n x3 code va} : MemOk (lastFault s f n x3 code va) := by
  simp only [lastFault]
  exact h.keep Keeps.rfl.engineFault

protected theorem MemOk.writeStamp (h : MemOk s) {f n x3} : MemOk (writeStamp s f n x3).1 := by
  simp only [writeStamp]
  split
  · exact h
  · split
    · split
      · exact h
      · exact h.lastFault
    · split
      · exact h.engineAt
      · exact h.engineAt.lastFault

protected theorem MemOk.finishStream (h : MemOk s) {f n x3 val key} : MemOk (finishStream s f n x3 val key) := by
  simp only [finishStream]
  split
  · exact h.congr
  · exact h.congr.pktDone
  · exact h.congr

protected theorem MemOk.bindWindow (h : MemOk s) {f n x3 va w} : MemOk (bindWindow s f n x3 va w) := by
  simp only [bindWindow]
  split
  · exact h.lastFault.finishStream
  · exact MemOk.ite h h.congr.writeStamp.finishStream

protected theorem MemOk.writeCounts (h : MemOk s) {ctx lid va l} : MemOk (writeCounts ctx lid s va l).1 := by
  induction l generalizing s va with
  | nil => exact h
  | cons c l ih =>
    rw [Machine.writeCounts]
    split
    · exact ih h.engineAt
    · exact h.engineAt

protected theorem MemOk.finishBin (h : MemOk s) {f n x3 nrows cnta} : MemOk (finishBin s f n x3 nrows cnta) := by
  simp only [finishBin]
  exact MemOk.ite h.finishStream (MemOk.ite h.writeCounts.writeStamp.finishStream h.writeCounts.lastFault.finishStream)

protected theorem MemOk.finishQpost (h : MemOk s) {f n x3 desc j} : MemOk (finishQpost s f n x3 desc j) := by
  simp only [finishQpost]
  split
  · exact h.lastFault.finishStream
  next e =>
    exact MemOk.ite ((Keeps.rfl.readAt.memOk h).of_eq e) (MemOk.ite
      (((((Keeps.rfl.readAt.memOk h).of_eq e).engineAt).lastFault).finishStream)
        (MemOk.ite ((((((Keeps.rfl.readAt.memOk h).of_eq e).engineAt).engineAt).lastFault).finishStream)
          (((((Keeps.rfl.readAt.memOk h).of_eq e).engineAt).engineAt).finishStream)))

protected theorem MemOk.windowServe (h : MemOk s) {r pa} : MemOk (windowServe s r pa) := by
  simp only [windowServe]
  split
  · split
    · exact h.refuse
    next e1 => exact ((Keeps.rfl.plainRead.memOk h).of_eq e1).keep Keeps.rfl.sendAns
  · split
    · split
      · exact h.refuse
      next e1 => exact (h.plainWrite.of_eq e1).keep Keeps.rfl.sendAns
    · split
      · split
        · exact h.refuse
        next e1 =>
          exact MemOk.ite (((Keeps.rfl.plainRead.memOk h).of_eq e1).keep Keeps.rfl.sendAns)
            (((Keeps.rfl.plainRead.memOk h).of_eq e1).waitOrRetry)
      · exact h.refuse

protected theorem MemOk.cutStream (h : MemOk s) {f n x3 emitted} : MemOk (cutStream s f n x3 emitted) := by
  simp only [cutStream]
  split
  · split
    · exact h.srcFailed
    · exact h.readUpTo.modStream.sendOut.failAll
  · exact h.failAll

protected theorem MemOk.cutHome (h : MemOk s) {pkt} : MemOk (cutHome s pkt) := by
  simp only [cutHome]
  split
  · exact h
  · split
    · exact MemOk.ite h.congr.refuse h
    · exact MemOk.ite h.congr.ackArrival h
    · exact h

protected theorem MemOk.judgeDrain (h : MemOk s) {c} : Gives (fun r => MemOk r.1) (judgeDrain s c) := by
  simp only [judgeDrain]
  split
  · trivial
  next e =>
    split
    · trivial
    · split
      · trivial
      · split
        · trivial
        · exact (Keeps.rfl.readAt.memOk h).of_eq e

protected theorem MemOk.judgeMatrix (h : MemOk s) {m r} : Gives (fun r => MemOk r.1) (judgeMatrix s m r) := by
  unfold Machine.judgeMatrix
  dsimp only
  split
  · trivial
  · split
    · exact Gives.map_right fun _ => h
    · split
      · trivial
      · split
        · exact h
        · trivial
    · exact h.judgeDrain
    · exact h

protected theorem MemOk.acceptCmd (h : MemOk s) {f n c} : MemOk (acceptCmd s f n c) := by
  simp only [acceptCmd]
  exact MemOk.ite (MemOk.ite h.congr.matrixAns h.congr.askPane) h.congr

protected theorem MemOk.drainSend (h : MemOk s) {f n c} : MemOk (drainSend s f n c) := by
  simp only [drainSend]
  split
  · exact h
  · split
    · exact h.keep Keeps.rfl.failDrain
    · exact MemOk.ite (h.keep Keeps.rfl.failDrain) (MemOk.ite h
        ((MemOk.ite ((h.keep Keeps.rfl.fresh).congr) ((h.keep Keeps.rfl.fresh).congr)).keep Keeps.rfl.modHead))

protected theorem MemOk.drainStep (h : MemOk s) {f n m c} : MemOk (drainStep s f n m c) := by
  simp only [drainStep]
  exact MemOk.ite h (MemOk.ite h.drainSend (MemOk.ite ((h.keep Keeps.rfl.orWord.modHead).drainSend) h))

protected theorem MemOk.applyHead (h : MemOk s) {f n m c} : MemOk (applyHead s f n m c) := by
  simp only [applyHead]
  split
  · exact MemOk.ite h (h.askPane.keep Keeps.rfl.modHead)
  · exact MemOk.ite h h.congr.matrixAns
  · exact MemOk.ite h h.congr.matrixAns
  · exact MemOk.ite h h.congr.matrixAns
  · exact h.congr.matrixAns
  · exact MemOk.ite h.drainStep h

protected theorem MemOk.setRecords (h : MemOk s) (a b c d) : MemOk
    { s with supr := a, recQ := b, recs := c, svcs := d } := h.congr

protected theorem MemOk.setHost (h : MemOk s) (y) : MemOk { s with host := y } := h.congr

protected theorem MemOk.raiseMsix (h : MemOk s) {p} : MemOk (raiseMsix s p) := h.setHost _

protected theorem MemOk.writeRecord (h : MemOk s) {p r} : MemOk (writeRecord s p r) := by
  unfold Machine.writeRecord
  dsimp only
  split
  · exact h
  · split
    · exact h
    next u e =>
      have hu : MemOk u := h.homeWrite.of_eq e
      have hw {a b c d n m} : MemOk (wakeStwait { u with supr := a, recQ := b, recs := c, svcs := d } n m) :=
        (hu.setRecords a b c d).wakeStwait
      split
      · exact hw.raiseMsix
      · exact hw

protected theorem MemOk.raiseHang (h : MemOk s) {h1 f lid ctx} : MemOk (raiseHang s h1 f lid ctx) := by
  simp only [raiseHang]
  split
  next e => exact (MemOk.ite h.congr ((h.congr.homeWrite.of_eq e).wakeStwait)).keep Keeps.rfl.reportFault
  · exact h.congr.keep Keeps.rfl.reportFault

protected theorem MemOk.hopRefused (h : MemOk s) {p u} : MemOk (hopRefused s p u) := by
  simp only [hopRefused]
  exact MemOk.ite h (MemOk.ite h.congr.freezeParity h.congr)

protected theorem MemOk.crossed (h : MemOk s) {p done} (hdone : ∀ u, MemOk u → MemOk (done u)) : MemOk (crossed s p done) := by
  simp only [crossed]
  exact MemOk.ite (hdone _ h) h.congr

protected theorem MemOk.useBudget (h : MemOk s) {p} : MemOk (useBudget s p) := by
  simp only [useBudget]
  exact MemOk.ite (h.keep Keeps.rfl.spend) h

protected theorem MemOk.takeTurn (h : MemOk s) {p to_} : MemOk (takeTurn s p to_) := by
  simp only [takeTurn]
  exact MemOk.ite h h.congr

protected theorem MemOk.hop (h : MemOk s) {p bad} : MemOk (hop s p bad) := by
  simp only [hop]
  exact MemOk.ite h (MemOk.ite (MemOk.ite (MemOk.ite h.hopRefused (h.crossed (fun u hu => hu.useBudget.congr))) h)
    (MemOk.ite h (MemOk.ite h.hopRefused (h.crossed (fun u hu => hu.takeTurn.congr)))))

protected theorem MemOk.portEvent (h : MemOk s) {p code} : MemOk (portEvent s p code) := by
  simp only [portEvent]
  exact h.keep Keeps.rfl.reportFault

protected theorem MemOk.passCounter (h : MemOk s) {port l n} : MemOk (passCounter s port l n) := by
  simp only [passCounter]
  exact MemOk.ite h.congr.portEvent h.congr

protected theorem MemOk.sendKeyAck (h : MemOk s) {port l} : MemOk (sendKeyAck s port l) := by
  simp only [sendKeyAck]
  exact h.passCounter

protected theorem MemOk.stall (h : MemOk s) {port l} : MemOk (stall s port l) := by
  simp only [stall]
  exact MemOk.ite h h.congr.portEvent

protected theorem MemOk.sendFrame (h : MemOk s) {port l ch flits timer dst} : MemOk (sendFrame s port l ch flits timer dst) := by
  simp only [sendFrame]
  exact h.passCounter

protected theorem MemOk.pull (h : MemOk s) {port ch} : MemOk (pull s port ch) := by
  simp only [pull]
  split
  · exact h
  · split
    · split
      · exact h
      · split
        · exact h
        · exact (h.keep Keeps.rfl.timeToken).congr
    · split
      · split
        · split
          · exact h
          · exact MemOk.ite (h.keep Keeps.rfl.modLaunch) ((h.keep Keeps.rfl.modLaunch).congr)
        · exact MemOk.ite (h.keep Keeps.rfl.deadExit) h.congr
      · exact h

protected theorem MemOk.sendData (h : MemOk s) {port ch} : MemOk (sendData s port ch) := by
  simp only [sendData]
  split
  · exact h.pull
  · exact MemOk.ite h.pull.sendFrame h.stall

protected theorem MemOk.portDown (h : MemOk s) {p l} : MemOk (portDown s p l) := by
  simp only [portDown]
  exact h.congr.portEvent

protected theorem MemOk.refuseFrame (h : MemOk s) {port l} : MemOk (refuseFrame s port l) := by
  simp only [refuseFrame]
  exact MemOk.ite h.portDown h.congr

protected theorem MemOk.leaveFrame (h : MemOk s) {port h2} : MemOk (leaveFrame s port h2) := by
  simp only [leaveFrame]
  exact MemOk.ite h (MemOk.ite h.congr.portDown h.congr)

protected theorem MemOk.takeCredits (h : MemOk s) {port ch n} : MemOk (takeCredits s port ch n) := by
  simp only [takeCredits]
  split
  · exact h.congr.onCopy (fun u hu => hu.congr)
  · split
    · exact h.congr
    · exact h

protected theorem MemOk.takeReturns (h : MemOk s) {port h2} : MemOk (takeReturns s port h2) := by
  simp only [takeReturns]
  exact MemOk.ite h.congr h.congr.takeCredits

protected theorem MemOk.acceptFrame (h : MemOk s) {port l fr next} : MemOk (acceptFrame s port l fr next) := by
  simp only [acceptFrame]
  exact h.congr.takeReturns

protected theorem MemOk.tokenIn (h : MemOk s) {port ch f} : MemOk (tokenIn s port ch f) := by
  simp only [tokenIn]
  split
  · exact (h.congr.keep Keeps.rfl.modLaunch).onCopy (fun u hu => hu.congr)
  · split
    · exact h
    · split
      · exact h.congr
      · exact h

protected theorem MemOk.peerIn (h : MemOk s) {p} : Holds MemOk (peerIn s p) := by
  simp only [peerIn]
  split
  · trivial
  · split
    · exact h
    · exact h
    · exact MemOk.ite (h.congr.foldl _ fun u a hu => hu.forgetCut) h.congr
    · split
      · exact h
      · trivial
    · split
      · exact h
      · trivial
    · split
      · exact h
      · trivial
    · split
      · exact h
      · trivial
    · split
      · exact h
      · trivial
    · split
      · exact h
      · trivial
    · split
      · exact h
      · trivial
    · trivial

protected theorem MemOk.meshIn (h : MemOk s) {port ch d} : MemOk (meshIn s port ch d) := by
  simp only [meshIn]
  split
  · exact h.congr
  · split
    · exact h.congr
    · split
      next e1 => exact h.congr.peerIn.of_eq e1
      · exact (h.congr.keep Keeps.rfl.fresh).congr

protected theorem MemOk.bar0Put (h : MemOk s) {fn o v} : MemOk (bar0Put s fn o v) := by
  simp only [bar0Put]
  split
  · exact h.congr
  · exact h.congr
  · exact MemOk.ite h.congr h.congr
  · exact h

protected theorem MemOk.bar0Write (h : MemOk s) {fn o bs} : MemOk (bar0Write s fn o bs) := by
  simp only [bar0Write]
  exact h.foldl _ fun u a1 hu => hu.bar0Put

protected theorem MemOk.hostPut (h : MemOk s) {ctx pa b t4} : Gives MemOk (hostPut s ctx pa b t4) := by
  simp only [hostPut]
  split
  · split
    · exact h.windowWrite
    · trivial
  · exact h.homeWrite.map (fun a ha => ha.wakeStwait)

protected theorem MemOk.hostRefused (h : MemOk s) {t1 ctx code pa} : MemOk (hostRefused s t1 ctx code pa) := by
  simp only [hostRefused]
  exact h.keep Keeps.rfl.recordOnly

protected theorem MemOk.hostGet (h : MemOk s) {ctx pa n t4} : Gives (fun r => MemOk r.1) (hostGet s ctx pa n t4) := by
  simp only [hostGet]
  split
  · split
    · exact Keeps.rfl.windowRead.memOk h
    · trivial
  · exact Keeps.rfl.homeRead.memOk h

protected theorem MemOk.hostAtomic (h : MemOk s) {fn off w f} : MemOk (hostAtomic s fn off w f) := by
  simp only [hostAtomic]
  split
  · exact h.congr
  · split
    · split
      · exact h.congr
      next e1 =>
        split
        · exact h.congr
        next e2 => exact ((((h.homeNat.of_eq e1).homeWrite).of_eq e2).wakeStwait).congr
    · exact h.congr

protected theorem MemOk.zeroSram (h : MemOk s) {fs} : MemOk (zeroSram s fs) := ⟨wf_filter _ h.1, wf_filter _ h.2⟩

protected theorem MemOk.freePart (h : MemOk s) {p} : MemOk (freePart s p) := by
  simp only [freePart]
  exact h.congr.zeroSram

protected theorem MemOk.powerDone (h : MemOk s) {st cap ok k} (hk : ∀ u, MemOk u → MemOk (k u)) : MemOk (powerDone s st cap ok k) := by
  simp only [powerDone]
  exact MemOk.ite (((hk _ h).congr).congr) h.congr

theorem memOk_reset : MemOk Machine.State.reset := ⟨rfl, rfl⟩

theorem memOk_boot {z cold} : MemOk (boot s z cold) := memOk_reset.congr

theorem memOk_waferLost : MemOk (waferLost s) := memOk_reset.congr

theorem memOk_tripAt {f temp} : MemOk (tripAt s f temp) := memOk_waferLost.setHost _

protected theorem MemOk.budWrite (h : MemOk s) {u o v} : MemOk (budWrite s u o v) := by
  simp only [budWrite]
  split
  · exact MemOk.ite h.congr h
  · exact h.congr
  · exact h.congr
  · exact h

protected theorem MemOk.coreWrite (h : MemOk s) {c o v} : MemOk (coreWrite s c o v) := by
  simp only [coreWrite]
  exact MemOk.ite h.budWrite (MemOk.ite h (MemOk.ite (MemOk.ite h.congr (MemOk.ite h.congr h))
    (MemOk.ite h.congr (MemOk.ite h.congr (MemOk.ite h.congr h)))))

protected theorem MemOk.supWrite (h : MemOk s) {f o v} : MemOk (supWrite s f o v) := by
  simp only [supWrite]
  split
  · exact h.congr
  · exact MemOk.ite h.congr h
  · exact h.congr
  · exact h.congr
  · exact MemOk.ite h.congr h
  · exact h.congr
  · exact h.congr
  · exact h.congr
  · exact h

protected theorem MemOk.regPut (h : MemOk s) {r v} : MemOk (regPut s r v) := by
  simp only [regPut]
  split
  · exact h.coreWrite
  · exact h.congr
  · exact h.budWrite
  · exact h
  · exact h.supWrite
  · exact MemOk.ite h.congr h
  · exact MemOk.ite h.congr h

protected theorem MemOk.applyRegw (h : MemOk s) {n k} : MemOk (applyRegw s n k) := by
  simp only [applyRegw]
  split
  · exact h
  · split
    · exact h
    · exact MemOk.ite h.congr.regPut h

protected theorem MemOk.spendWalk (h : MemOk s) {ctx va} : MemOk (spendWalk s ctx va) := by
  simp only [spendWalk]
  exact h.foldl _ fun u1 u2 hu => hu.keep Keeps.rfl.spend

protected theorem MemOk.chooseGraph (h : MemOk s) {f i} : MemOk (chooseGraph s f i) := by
  simp only [chooseGraph]
  split
  · exact h.congr
  · split
    · exact h.congr.putGraph
    · exact h.congr

protected theorem MemOk.runUpset (h : MemOk s) {u} : MemOk (runUpset s u) := by
  simp only [runUpset]
  split
  · exact h
  · split
    · exact MemOk.ite h.congr h
    · exact MemOk.ite h.congr h
    · exact MemOk.ite h.congr h
    · exact MemOk.ite (h.keep Keeps.rfl.freshWrite) h
    · exact h.congr
    · split
      · exact h
      · exact MemOk.ite h.freezeParity h

/-! ## Instructions -/

protected theorem MemOk.execSrc (h : MemOk s) {w} : NextOk (execSrc w s) := by
  simp only [execSrc, NextOk]
  split
  · exact h
  · split
    · exact h
    · split
      · exact h
      · split
        · split
          · exact h.congr.breakSet
          · split
            · exact h.keep Keeps.rfl.parkSet
            · exact MemOk.ite ((h.clearBare.keep Keeps.rfl.modLaunch).apply) h
        · exact h

protected theorem MemOk.execConsol (h : MemOk s) {w} : NextOk (execConsol w s) := by
  simp only [execConsol, NextOk]
  refine h.streamFire (fun fr1 r1 had1 u hu => h.commitFrom hu.congr) (fun fr1 r1 new1 u hu => ?_)
  split
  · exact MemOk.ite (MemOk.ite h.faultFiring (h.commitFrom hu.congr)) (h.commitFrom hu.congr)
  · exact h.commitFrom hu.congr

protected theorem MemOk.execEnter (h : MemOk s) {w} : NextOk (execEnter w s) := by
  simp only [execEnter, NextOk]
  refine h.fireOwn (fun fr1 => ?_)
  split
  · exact h.commit
  · exact h.conclude
  · exact MemOk.ite h.commit h.conclude

protected theorem MemOk.execTset (h : MemOk s) {w} : NextOk (execTset w s) := by
  simp only [execTset, NextOk]
  refine h.fireOwn (fun fr1 => ?_)
  split
  · exact h.commit
  · split
    · exact h.faultFiring
    · exact MemOk.ite h.emitAt h.faultFiring

protected theorem MemOk.execCapa (h : MemOk s) {w} : NextOk (execCapa w s) := by
  simp only [execCapa, NextOk]
  refine h.fireOwn (fun fr1 => ?_)
  split
  · exact h.capNone
  · split
    · exact h.faultFiring
    · exact MemOk.ite h.capChange h.faultFiring

protected theorem MemOk.execCapd (h : MemOk s) {w} : NextOk (execCapd w s) := by
  simp only [execCapd, NextOk]
  refine h.fireOwn (fun fr1 => ?_)
  split
  · exact h.capNone
  · split
    · exact h.faultFiring
    · exact h.capChange

protected theorem MemOk.execProbe (h : MemOk s) {w} : NextOk (execProbe w s) := by
  simp only [execProbe, NextOk]
  refine h.fireOwn (fun fr1 => ?_)
  split
  · exact h
  · split
    · exact MemOk.ite h.congr.dropClaim.releaseTok h
    · split
      next e1 => exact ((h.holdTok.of_eq e1).congr).noteIssue
      · exact h.faultFiring

protected theorem MemOk.sendPkt (h : MemOk s) {u a b c d m} : MemOk (sendPkt s u a b c d m) := h.congr

protected theorem MemOk.reserve (h : MemOk s) {sl p r t q} : MemOk (reserve s sl p r t q) := h.quiet (quiet_reserve s sl p r t q)

protected theorem MemOk.popIq (h : MemOk s) {sl} : MemOk (popIq s sl) := h.congr

protected theorem MemOk.execFront (h : MemOk s) {w} : NextOk (execFront w s) := by
  simp only [execFront, NextOk]
  refine h.fireSet fun fr => ?_
  split
  · have hf {u : Machine.State} (hu : MemOk u) : MemOk (fresh u).2 := hu.congr
    exact (((hf h.popIq.setHold).reserve.noteIssue).setX _).sendPkt
  · exact h

protected theorem MemOk.execFrontAnswer (h : MemOk s) {sl} : NextOk (execFrontAnswer sl s) := by
  simp only [execFrontAnswer, NextOk]
  split
  · exact h.congr.onCopy (fun u hu => hu.frontTold)
  · split
    · exact h.frontAsked
    · exact h

protected theorem MemOk.execCountMessage (h : MemOk s) {pkt} : NextOk (execCountMessage pkt s) := by
  simp only [execCountMessage, NextOk]
  split
  · exact h
  · split
    · exact MemOk.ite h.congr h
    · exact h

protected theorem MemOk.execTrackerPeerChange (h : MemOk s) {w lid items} : NextOk (execTrackerPeerChange w lid items s) := by
  simp only [execTrackerPeerChange, NextOk]
  split
  · exact h
  · exact MemOk.ite (h.keep Keeps.rfl.modLaunch) h

protected theorem MemOk.execOverflowReadDone (h : MemOk s) {core} : NextOk (execOverflowReadDone core s) := by
  simp only [execOverflowReadDone, NextOk]
  split
  · exact h
  next o _ =>
    split
    · exact h.setX _
    · split
      · exact h.setX _
      next t _ _ n _ =>
        have read (l : List Nat) : MemOk (l.foldl (fun r a => if r.2 then readOvfl r.1 ⟨core, o.dst.e, t.ctx.toNat⟩ n
          (identOf t) a else r)
            (s, true)).1 := by
          refine List.foldlRecOn (motive := fun r : Machine.State × Bool => MemOk r.1) l _ h fun r hr a _ => ?_
          split
          · exact hr.readOvfl
          · exact hr
        exact MemOk.ite h (MemOk.ite ((read _).setX _) (read _))

protected theorem MemOk.execTranslationWalkComplete (h : MemOk s) {f n evict} : NextOk (execTranslationWalkComplete f n evict s) := by
  simp only [execTranslationWalkComplete, NextOk]
  split
  · exact h
  · split
    · exact h
    · split
      · exact (h.spendWalk.keep Keeps.rfl.walkFix).congr
      · exact ((h.spendWalk.keep Keeps.rfl.walkFix).congr).foldl _ fun u v1 hu => MemOk.ite hu hu.congr

protected theorem MemOk.execReleasePortWait (h : MemOk s) {core n} : NextOk (execReleasePortWait core n s) := by
  simp only [execReleasePortWait, NextOk]
  split
  · exact h
  · split
    · exact MemOk.ite h (h.congr.keep Keeps.rfl.failReq)
    · exact MemOk.ite h.congr.sendReq h

protected theorem MemOk.execWaitlistRetry (h : MemOk s) {u n} : NextOk (execWaitlistRetry u n s) := by
  simp only [execWaitlistRetry, NextOk]
  split
  · exact h
  · exact MemOk.ite h h.congr.sendReq

protected theorem MemOk.execAtomicRequest (h : MemOk s) {pkt} : NextOk (execAtomicRequest pkt s) := by
  simp only [execAtomicRequest, NextOk]
  split
  · split
    · refine h.atHome (fun u hu => ?_)
      split
      · exact hu.congr.refuse
      · split
        · exact hu.congr.refuse
        · split
          · exact hu.congr.refuse
          next e3 =>
            split
            · exact (hu.congr.homeNat.of_eq e3).refuse
            next e4 => exact ((((hu.congr.homeNat.of_eq e3).homeWrite).of_eq e4).wakeStwait).keep Keeps.rfl.sendAns
    · exact h
  · exact h

protected theorem MemOk.execMeshHop (h : MemOk s) {pkt bad} : NextOk (execMeshHop pkt bad s) := by
  simp only [execMeshHop, NextOk]
  split
  · exact MemOk.ite h.hop h
  · exact h

protected theorem MemOk.execBeatResend (h : MemOk s) {pkt bad} : NextOk (execBeatResend pkt bad s) := by
  simp only [execBeatResend, NextOk]
  split
  · exact MemOk.ite h.hop h
  · exact h

protected theorem MemOk.execPresenceRequest (h : MemOk s) {pkt} : NextOk (execPresenceRequest pkt s) := by
  simp only [execPresenceRequest, NextOk]
  split
  · split
    · refine h.atHome (fun u hu => ?_)
      split
      · exact (hu.congr.keep Keeps.rfl.progress).presenceStep
      · exact (hu.congr.keep Keeps.rfl.progress).refuse
      · exact (hu.congr.keep Keeps.rfl.progress).refuse
    · exact h
  · exact h

protected theorem MemOk.execMemoryRequest (h : MemOk s) {pkt} : NextOk (execMemoryRequest pkt s) := by
  simp only [execMemoryRequest, NextOk]
  split
  · exact h.arrivalStep
  · exact h.plainStep

protected theorem MemOk.execWindowRequest (h : MemOk s) {pkt} : NextOk (execWindowRequest pkt s) := by
  simp only [execWindowRequest, NextOk]
  split
  · exact h.arrivalStep
  · split
    · exact MemOk.ite (h.atTarget (fun u hu => hu.congr.windowServe)) h
    · exact h

protected theorem MemOk.execWalkStep (h : MemOk s) {walk} : NextOk (execWalkStep walk s) := by
  simp only [execWalkStep, NextOk]
  split
  · split
    · split
      next e2 => exact MemOk.ite h ((h.walkStands.of_eq e2).walkTurn)
      · exact h
    · exact h
  · split
    · split
      · refine h.atHome (fun u hu => ?_)
        split
        · exact hu.congr.refuse
        · split
          · exact hu.congr.pnewStep
          · split
            · exact hu.congr.goOn
            · exact hu.congr.walkTurn
      · exact h
    · exact h

protected theorem MemOk.execCarryApply (h : MemOk s) {walk} : NextOk (execCarryApply walk s) := by
  simp only [execCarryApply, NextOk]
  split
  · split
    · split
      · split
        next e3 => exact MemOk.ite h ((MemOk.ite ((h.walkStands.of_eq e3).applyCarry) (h.walkStands.of_eq e3)).sendWalk)
        · exact h
      · exact h
    · exact h
  · exact h

protected theorem MemOk.execHistoryOperation (h : MemOk s) {pkt} : NextOk (execHistoryOperation pkt s) := by
  simp only [execHistoryOperation, NextOk]
  split
  · exact h.histGo
  · split
    · exact h.histNext
    · exact h.histArrive

protected theorem MemOk.execHistoryPendingProcess (h : MemOk s) {core off} : NextOk (execHistoryPendingProcess core off s) := by
  simp only [execHistoryPendingProcess, NextOk]
  split
  · exact MemOk.ite h.histGo h
  · split
    · exact h
    · exact h.pendNext

protected theorem MemOk.execStreamAccept (h : MemOk s) {f n} : NextOk (execStreamAccept f n s) := by
  simp only [execStreamAccept, NextOk]
  split
  · exact h
  next p r _ =>
    refine MemOk.ite h (h.onCopy fun u hu => ?_)
    split
    · exact hu.acceptEnd hu.judgeGfree
    · split
      · exact MemOk.ite hu.acceptDesc (MemOk.execStreamAccept.readDesc hu)
      · exact MemOk.execStreamAccept.readDesc hu

protected theorem MemOk.execStreamChunk (h : MemOk s) {f n id} : NextOk (execStreamChunk f n id s) := by
  simp only [execStreamChunk, NextOk]
  split
  · exact h
  · exact MemOk.ite (MemOk.ite h (h.onCopy (fun u hu => hu.flushHeld)))
      (MemOk.ite (h.farAccess (fun u hu => ((hu.keep Keeps.rfl.spend).onCopy (fun u1 hu1 => hu1.chunkOf)).congr)) h)

protected theorem MemOk.execStreamComplete (h : MemOk s) {f n id} : NextOk (execStreamComplete f n id s) := by
  simp only [execStreamComplete, NextOk]
  split
  · exact h
  · split
    · exact h
    · refine h.farAccess (fun u hu => hu.onCopy (fun u1 hu1 => ?_))
      split
      · split
        · exact hu1.writeStamp.finishStream
        · exact hu1.finishStream
      · exact hu1.bindWindow
      · exact hu1.bindWindow
      · exact hu1.bindWindow
      · exact hu1.finishBin
      · split
        · exact hu1.finishQpost
        · exact hu1.lastFault.finishStream

protected theorem MemOk.execDecodeLength (h : MemOk s) {site emitted} : NextOk (execDecodeLength site emitted s) := by
  simp only [execDecodeLength, NextOk]
  split
  · split
    · exact h
    · split
      · exact MemOk.ite h (h.onCopy (fun u hu => hu.cutStream))
      · exact h
  · exact h.cutHome

protected theorem MemOk.execMatrixAccept (h : MemOk s) {f n} : NextOk (execMatrixAccept f n s) := by
  simp only [execMatrixAccept, NextOk]
  split
  · exact h
  · refine h.farAccess (fun u hu => ?_)
    split
    · exact hu.congr.keep Keeps.rfl.sendAns
    next e1 => exact (hu.congr.judgeMatrix.of_eq e1).acceptCmd

protected theorem MemOk.execMatrixControlApply (h : MemOk s) {f n} : NextOk (execMatrixControlApply f n s) := by
  simp only [execMatrixControlApply, NextOk]
  split
  · exact MemOk.ite h.applyHead h
  · exact h

protected theorem MemOk.execWeightLoadComplete (h : MemOk s) {f n} : NextOk (execWeightLoadComplete f n s) := by
  simp only [execWeightLoadComplete, NextOk]
  split
  · exact h
  · exact MemOk.ite (MemOk.ite h.congr.matrixAns ((h.congr.keep Keeps.rfl.engineFault).matrixAns)) h

protected theorem MemOk.execMdrainComplete (h : MemOk s) {f n} : NextOk (execMdrainComplete f n s) := by
  simp only [execMdrainComplete, NextOk]
  split
  · exact h
  · exact MemOk.ite h.congr.matrixAns h

protected theorem MemOk.execRowPass (h : MemOk s) {f n} : NextOk (execRowPass f n s) := by
  simp only [execRowPass, NextOk]
  split
  · exact h
  · exact MemOk.ite h.retireStream (MemOk.ite ((h.congr.keep Keeps.rfl.orWord.progress).retireStream)
      (h.congr.keep Keeps.rfl.orWord.progress))

protected theorem MemOk.execMemoryResponse (h : MemOk s) {pkt} : NextOk (execMemoryResponse pkt s) := by
  simp only [execMemoryResponse, NextOk]
  split
  · exact h
  · split
    · exact h.answerStep
    · exact h.answerStep
    · exact h.ackStep
    · exact MemOk.ite (h.onCopy (fun u hu => hu.congr.matrixPaneBack)) h
    · exact h

protected theorem MemOk.execLaunchComplete (h : MemOk s) {lid} : NextOk (execLaunchComplete lid s) := by
  simp only [execLaunchComplete, NextOk]
  split
  · exact h
  · split
    · exact h.finishLaunch
    · split
      · exact h.endedAway
      · split
        · exact MemOk.ite ((h.onCopy (fun u hu => MemOk.ite hu.answerPolls
            (MemOk.ite hu.answerPolls.restAll.retire hu.answerPolls.restAll))).finishLaunch)
              (h.onCopy (fun u hu => MemOk.ite hu.answerPolls (MemOk.ite hu.answerPolls.restAll.retire hu.answerPolls.restAll)))
        · exact h.onCopy (fun u hu => MemOk.ite hu.answerPolls (MemOk.ite hu.answerPolls.restAll.retire hu.answerPolls.restAll))

protected theorem MemOk.execArmingComplete (h : MemOk s) {lid sect} : NextOk (execArmingComplete lid sect s) := by
  simp only [execArmingComplete, NextOk]
  split
  · exact h
  · split
    · exact h
    · split
      · exact h
      · refine h.onCopy (fun u hu => ?_)
        split
        · split
          · split
            · exact MemOk.ite (hu.farAccess (fun u1 hu1 => hu1.endArming)) hu
            · exact MemOk.ite (hu.restAll.farAccess (fun u1 hu1 => hu1.endArming)) hu.restAll
          · split
            · exact MemOk.ite (hu.farAccess (fun u1 hu1 => hu1.endArming)) hu
            · exact MemOk.ite (hu.restAll.farAccess (fun u1 hu1 => hu1.endArming)) hu.restAll
        · split
          · split
            · exact hu
            · exact hu.restAll
          · split
            · exact hu
            · exact hu.restAll

protected theorem MemOk.execLaunchPart (h : MemOk s) {f lid} : NextOk (execLaunchPart f lid s) := by
  simp only [execLaunchPart, NextOk]
  split
  · exact MemOk.ite h h.takePart
  · exact MemOk.ite h (MemOk.ite h.promoteChild (MemOk.ite h.loadPart h))

protected theorem MemOk.execLaunchAck (h : MemOk s) {lid f} : NextOk (execLaunchAck lid f s) := by
  simp only [execLaunchAck, NextOk]
  split
  · exact h
  · exact MemOk.ite h (MemOk.ite (MemOk.ite h h.abortLaunch)
      (MemOk.ite ((h.keep Keeps.rfl.modLaunch).ackLead) (MemOk.ite (h.farGot.keep Keeps.rfl.modLaunch) h)))

protected theorem MemOk.execLaunchStart (h : MemOk s) {lid} : NextOk (execLaunchStart lid s) := by
  simp only [execLaunchStart, NextOk]
  split
  · exact h
  · exact MemOk.ite h (((MemOk.ite h.congr h.congr.tellHeads).onCopy
      (fun u hu => hu.startGraphs.setProbes.foldl _ fun u1 a hu1 => hu1.seedConst)).foldl _ fun u f1 hu =>
        hu.keep Keeps.rfl.progress)

protected theorem MemOk.execCfg (h : MemOk s) {w} : NextOk (execCfg w s) := by
  simp only [execCfg, NextOk]
  refine h.seqWord fun f g => ?_
  exact MemOk.ite h.graphFault (h.orWait h.tryCfg)

protected theorem MemOk.execArms (h : MemOk s) {w} : NextOk (execArms w s) := by
  simp only [execArms, NextOk]
  exact h.seqWord fun f g => h.orWait h.tryArms

protected theorem MemOk.execWaits (h : MemOk s) {w} : NextOk (execWaits w s) := by
  simp only [execWaits, NextOk]
  exact h.seqWord fun f g => h.orWait h.tryWaits

protected theorem MemOk.execWstamp (h : MemOk s) {w} : NextOk (execWstamp w s) := by
  simp only [execWstamp, NextOk]
  refine h.seqWord fun f g => ?_
  split
  · exact h.graphFault
  · split
    · exact h.graphFault
    · exact h.orWait h.tryStamp

protected theorem MemOk.execSqpost (h : MemOk s) {w} : NextOk (execSqpost w s) := by
  simp only [execSqpost, NextOk]
  refine h.seqWord (fun f1 g1 => ?_)
  split
  · exact h.graphFault
  · split
    · exact h.graphFault
    · split
      · exact h.graphFault
      · exact h.farWord (fun u hu => hu.claimPost)

protected theorem MemOk.execRecfg (h : MemOk s) {w} : NextOk (execRecfg w s) := by
  simp only [execRecfg, NextOk]
  refine h.seqWord fun f g => ?_
  split
  · exact h.graphFault
  · split
    · exact h.graphFault
    · exact h.orWait h.tryRecfg

protected theorem MemOk.execFwait (h : MemOk s) {w} : NextOk (execFwait w s) := by
  simp only [execFwait, NextOk]
  exact h.seqWord fun f g => h.orWait h.tryFwait

protected theorem MemOk.execQbind (h : MemOk s) {w} : NextOk (execQbind w s) := by
  simp only [execQbind, NextOk]
  refine h.seqWord (fun f1 g1 => ?_)
  split
  · exact h.unbindQueue.graphFault
  · refine h.unbindQueue.farAccess (fun u hu => ?_)
    split
    · exact hu.graphFault
    next e => exact ((hu.bindQueue.of_eq e).congr).putGraph

protected theorem MemOk.execQueueAccept (h : MemOk s) {f} : NextOk (execQueueAccept f s) := by
  simp only [execQueueAccept, NextOk]
  split
  · exact h
  · split
    · exact h
    · refine h.farAccess (fun u hu => ?_)
      split
      · exact hu
      next e2 => exact ((Keeps.rfl.acceptable.memOk hu).of_eq e2).acceptPacket

protected theorem MemOk.execNopPacket (h : MemOk s) {f q} : NextOk (execNopPacket f q s) := by
  simp only [execNopPacket, NextOk]
  split
  · exact h.pktDone
  · exact h

protected theorem MemOk.execLaunchPacket (h : MemOk s) {f q} : NextOk (execLaunchPacket f q s) := by
  simp only [execLaunchPacket, NextOk]
  split
  · exact h
  · refine h.farAccess (fun u hu => ?_)
    split
    · exact hu
    next e1 => exact (hu.beginLaunch.of_eq e1).markStarted

protected theorem MemOk.execGbindPacket (h : MemOk s) {f q} : NextOk (execGbindPacket f q s) := by
  simp only [execGbindPacket, NextOk]
  exact h.handStream fun u z p hu => Gives.map_right fun _ => hu

protected theorem MemOk.execGbindUnbindPacket (h : MemOk s) {f q} : NextOk (execGbindUnbindPacket f q s) := by
  simp only [execGbindUnbindPacket, NextOk]
  exact h.handStream fun u z p hu => Gives.map_right fun _ => hu

protected theorem MemOk.execStampPacket (h : MemOk s) {f q} : NextOk (execStampPacket f q s) := by
  simp only [execStampPacket, NextOk]
  split
  · exact h
  · refine h.farAccess (fun u hu => ?_)
    split
    next e1 => exact (hu.writeAt.of_eq e1).pktDone
    · exact (hu.keep Keeps.rfl.recordOnly).pktDone

protected theorem MemOk.execQueueAgeing (h : MemOk s) {f who} : NextOk (execQueueAgeing f who s) := by
  simp only [execQueueAgeing, NextOk]
  split
  · split
    · exact h
    · exact MemOk.ite h.congr h
  · split
    · exact h
    · exact MemOk.ite h.congr h

protected theorem MemOk.execSourceTimeout (h : MemOk s) {n} : NextOk (execSourceTimeout n s) := by
  simp only [execSourceTimeout, NextOk]
  split
  · exact h
  · exact MemOk.ite h.markDead h

protected theorem MemOk.execFrameReceive (h : MemOk s) {port fr} : NextOk (execFrameReceive port fr s) := by
  simp only [execFrameReceive, NextOk]
  split
  · exact h
  · split
    · exact h.refuseFrame
    · exact MemOk.ite h.leaveFrame (MemOk.ite h.acceptFrame (MemOk.ite
        (h.acceptFrame.foldl _ fun u f1 hu => hu.tokenIn) h.acceptFrame.meshIn))

protected theorem MemOk.execKeyAckFrame (h : MemOk s) {port fr} : NextOk (execKeyAckFrame port fr s) := by
  simp only [execKeyAckFrame, NextOk]
  split
  · exact h
  · split
    · exact h.refuseFrame
    · exact h.congr

protected theorem MemOk.execLkey (h : MemOk s) {w} : NextOk (execLkey w s) := by
  simp only [execLkey, NextOk]
  refine h.seqWord (fun a g1 => ?_)
  split
  · split
    · exact h.putGraph
    next e1 =>
      split
      · exact h.putGraph
      · split
        · exact h.putGraph
        next e3 => exact ((((h.supRead.of_eq e1).supPut).of_eq e3).congr).putGraph
  · exact h.putGraph

protected theorem MemOk.execFaultRecordWrite (h : MemOk s) {p} : NextOk (execFaultRecordWrite p s) := by
  simp only [execFaultRecordWrite, NextOk]
  split
  · exact h.writeRecord
  · exact h

protected theorem MemOk.execFrec (h : MemOk s) {w} : NextOk (execFrec w s) := by
  simp only [execFrec, NextOk]
  exact h.seqWord fun f g => h.orWait h.tryFrec

protected theorem MemOk.execEret (h : MemOk s) {w} : NextOk (execEret w s) := by
  simp only [execEret, NextOk]
  refine h.seqWord (fun f1 g1 => ?_)
  split
  · exact h.putGraph
  · exact h.putGraph.congr.answerSvc

protected theorem MemOk.execFabortRecord (h : MemOk s) {w} : NextOk (execFabortRecord w s) := by
  simp only [execFabortRecord, NextOk]
  refine h.seqWord (fun f1 g1 => ?_)
  split
  · exact h.putGraph
  · exact (h.markResolved.onCopy (fun u hu => MemOk.ite hu.endFault hu)).putGraph

protected theorem MemOk.execQuiesce (h : MemOk s) {w} : NextOk (execQuiesce w s) := by
  simp only [execQuiesce, NextOk]
  refine h.seqWord fun f g => ?_
  have hq {u : Machine.State} (hu : MemOk u) {l} : MemOk { u with queues := l } := hu.congr
  exact (hq h).orWait (hq h).tryQuiesce

protected theorem MemOk.execCsave (h : MemOk s) {w} : NextOk (execCsave w s) := by
  simp only [execCsave, NextOk]
  refine h.seqWord (fun f1 g1 => ?_)
  split
  · exact h
  · split
    · exact h.supDone
    · split
      · exact h.supDone
      next e1 =>
        split
        · exact h.supDone
        · exact (((h.readBases.of_eq e1).congr).congr).supDone

protected theorem MemOk.execCsaveComplete (h : MemOk s) {p} : NextOk (execCsaveComplete p s) := by
  simp only [execCsaveComplete, NextOk]
  split
  · split
    · exact h
    · exact ⟨h.1, wf_mixCells _ _ h.2⟩
  · exact h

protected theorem MemOk.execCload (h : MemOk s) {w} : NextOk (execCload w s) := by
  simp only [execCload, NextOk]
  refine h.seqWord (fun f1 g1 => ?_)
  split
  · exact h
  · split
    · exact h.supDone
    · split
      · exact h.supDone
      next e => exact ((h.readBases.of_eq e).congr).supDone

protected theorem MemOk.execCloadComplete (h : MemOk s) {p} : NextOk (execCloadComplete p s) := by
  simp only [execCloadComplete, NextOk]
  split
  next c b _ _ =>
    refine MemOk.foldl ?_ _ fun u r hu => hu.onCopy fun v hv => MemOk.ite hv.returnFrom hv
    exact ⟨h.1, wf_mixCells _ _ h.2⟩
  · exact h

protected theorem MemOk.execTlbinv (h : MemOk s) {w} : NextOk (execTlbinv w s) := by
  simp only [execTlbinv, NextOk]
  exact h.seqWord fun f g => h.orWait h.tryTlbinv

protected theorem MemOk.execMappin (h : MemOk s) {w} : NextOk (execMappin w s) := by
  simp only [execMappin, NextOk]
  refine h.seqWord fun f g => ?_
  split
  · exact h.supDone
  next e =>
    have hu := h.mapLeaf.of_eq e
    exact hu.orWait hu.tryTlbinv

protected theorem MemOk.execKeyld (h : MemOk s) {w} : NextOk (execKeyld w s) := by
  simp only [execKeyld, NextOk]
  refine h.seqWord (fun a g1 => ?_)
  split
  · exact h.supDone
  · split
    · split
      · exact h.supDone
      next e1 =>
        split
        · exact h.supDone
        next e2 => exact ((((h.supRead.of_eq e1).supPut).of_eq e2).congr).supDone
    · exact h.supDone

protected theorem MemOk.sweepWord {r : Machine.State × Nat} (h : MemOk r.1) {ctx w} : MemOk (sweepWord ctx r w).1 := by
  have read {u l} : Holds (Keeps r.1) (Machine.eccRead r.1 u l) := Keeps.rfl.eccRead
  have out {u : UnitId} {f n a} : MemOk (recordOnly r.1 u Code.eccUncorr ctx f n none a t00 0) := h.keep Keeps.rfl.recordOnly
  rw [Machine.sweepWord]
  split
  next e =>
    have k := read.of_eq e
    exact h.keep k
  · exact out

protected theorem MemOk.execSweep (h : MemOk s) {w} : NextOk (execSweep w s) := by
  simp only [execSweep, NextOk]
  refine h.seqWord fun f g => ?_
  refine MemOk.supDone ?_
  exact List.foldlRecOn (motive := fun r : Machine.State × Nat => MemOk r.1) _ _ h fun r hr a _ => MemOk.sweepWord hr

protected theorem MemOk.execHang (h : MemOk s) {f lid} : NextOk (execHang f lid s) := by
  simp only [execHang, NextOk]
  split
  · exact MemOk.ite h.raiseHang h
  · exact h

protected theorem MemOk.execGraphResume (h : MemOk s) {f g} : NextOk (execGraphResume f g s) := by
  simp only [execGraphResume, NextOk]
  split
  · exact h.resumeAt
  · exact h.resumeSupAt

/-- The window's address and the write stand as variables, as in `MemOk.histNext`. -/
protected theorem MemOk.execHostWrite (h : MemOk s) {fn off bs} : NextOk (execHostWrite fn off bs s) := by
  have done {u : Machine.State} (hu : MemOk u) {b} : MemOk (hostDone u b) := hu.congr
  have ur {u : Machine.State} (hu : MemOk u) {b} : MemOk (hostUr u b) := hu.congr
  have put {c pa b t} : Gives MemOk (Machine.hostPut s c pa b t) := h.hostPut
  have refused {t c e pa} : MemOk (Machine.hostRefused s t c e pa) := h.hostRefused
  have bar {o b} : MemOk (Machine.bar0Write s fn o b) := h.bar0Write
  generalize hf : Machine.execHostWrite = f
  delta Machine.execHostWrite at hf
  subst hf
  generalize Machine.hostAt = found
  generalize Machine.hostPut = write at put ⊢
  beta_reduce
  refine MemOk.ite (ur h) (MemOk.ite (done bar) ?_)
  split
  · exact ur (b := 0) h
  · split
    · exact ur (b := 0) refused
    next e => exact done (put.of_eq e)

protected theorem MemOk.execHostRead (h : MemOk s) {fn off len} : NextOk (execHostRead fn off len s) := by
  simp only [execHostRead, NextOk]
  split
  · exact h.congr
  · split
    · exact h.congr
    · split
      · exact h.congr
      · split
        · exact h.hostRefused.congr
        next e1 => exact (h.hostGet.of_eq e1).congr

protected theorem MemOk.execPowerToP0 (h : MemOk s) {cap} : NextOk (execPowerToP0 cap s) := by
  simp only [execPowerToP0, NextOk]
  exact h.powerDone fun u hu => MemOk.ite memOk_boot hu

protected theorem MemOk.execPowerToP3 (h : MemOk s) {cap} : NextOk (execPowerToP3 cap s) := by
  simp only [execPowerToP3, NextOk]
  exact h.powerDone fun u hu => memOk_waferLost

protected theorem MemOk.execThermalThrottle (h : MemOk s) {f temp} : NextOk (execThermalThrottle f temp s) := by
  simp only [execThermalThrottle, NextOk]
  exact MemOk.ite h (MemOk.ite memOk_tripAt (h.setHost _))

protected theorem MemOk.execThermalTrip (h : MemOk s) {f temp} : NextOk (execThermalTrip f temp s) := by
  simp only [execThermalTrip, NextOk]
  exact MemOk.ite h memOk_tripAt

/-! ## The step -/

/-- Every instruction leaves memory canonical. -/
theorem exec_memOk (h : MemOk s) (i : Instr) : NextOk (exec i s) := by
  cases i with
  | abs | add | and | andn | bfi | bfx | clz | cmp | cvt | div | fabs | fadd | fcls | fcmp | fcvt | fma | fmax | fmin | fms
  | fmul | fneg | fnma | frcp | frnd | frsq | fscl | fsub | lane | mad | max | min | mov | mul | mulh | neg | not | or | popc
  | rem | rot | shl | shr | sra | sub | vins | vsum | xor => exact h.fireAlu
  | acq | armp | atom | bend | bin | cas | cpy | fatom | fill | gbind | gfree | hoist | ld | ldw | mclr | mcpy | mdrain | mload
  | mmask | mstat | mstrm | mswap | nextf | pfind | phdrop | phnew | phnext | phqry | phreg | phsig | phwait | pnew | pread
  | pwait | qpost | rel | st | std | strike | stwait | tagr | take => exact h.firePort
  | all | tred => exact h.foldFire
  | capa => exact h.execCapa
  | capd => exact h.execCapd
  | cnt | scan =>
    exact h.streamFire (fun fr1 r1 had1 u hu => h.commitFrom hu.congr) (fun fr1 r1 new1 u hu => h.commitFrom hu.congr)
  | consol => exact h.execConsol
  | const | dset | ends | idnt | negd | null | rekey | valk => exact h.fireSet (fun fr1 => h.emitX)
  | dup | sel | timev => exact h.fireSet (fun fr1 => h.conclude)
  | enter => exact h.execEnter
  | feed | leave => exact h.loopBack
  | front => exact h.execFront
  | gate | steer => exact h.steerGate
  | happ | hcomp | hjoin | hmrg | hnew | hred | hseek | hstat => exact h.fireHist
  | isect | minus | union => exact h.walkFire
  | probe => exact h.execProbe
  | share | shareRemove => exact h.fireShare
  | sink => exact h.fireSet (fun fr1 => h.commit)
  | src => exact h.execSrc
  | tset => exact h.execTset
  | sli | sadd | ssub | smul | sand | sor | sxor | sshl | sshr => exact h.scalar
  | sfadd => exact h.seqWord (fun f1 g1 => (MemOk.ite h (h.keep Keeps.rfl.orWord)).putGraph)
  | sld => exact h.seqWord (fun f1 g1 => MemOk.ite h.supLoad h.userLoad)
  | sst => exact h.seqWord (fun f1 g1 => MemOk.ite h.supStore h.userStore)
  | sbr | sbz | sbnz | sblt => exact h.branch
  | scall | shalt => exact h.seqWord (fun a g1 => h.putGraph)
  | sret => exact h.seqWord (fun f1 g1 => MemOk.ite h.graphFault h.putGraph)
  | cfg => exact h.execCfg
  | arms => exact h.execArms
  | waits => exact h.execWaits
  | wstamp => exact h.execWstamp
  | sqpost => exact h.execSqpost
  | launch => exact h.seqWord (fun f1 g1 => MemOk.ite h.graphFault (h.farWord (fun u hu => hu.childLaunch)))
  | recfg => exact h.execRecfg
  | fwait => exact h.execFwait
  | sflags => exact h.seqWord (fun f1 g1 => h.putGraph)
  | sflagsAll => exact h.seqWord (fun f1 g1 => h.askFlags)
  | syield => exact h.seqWord (fun f1 g1 => MemOk.ite h.putGraph h.putGraph.congr)
  | svc => exact h.seqWord (fun f1 g1 => ((h.keep Keeps.rfl.report).congr).waitFor)
  | eret w => exact h.execEret (w := w)
  | frec => exact h.execFrec
  | freplay => exact h.seqWord (fun f1 g1 => h.replayRec.putGraph)
  | fabortRecord => exact h.execFabortRecord
  | fabortLaunch => exact h.seqWord (fun f1 g1 => MemOk.ite h.retire.putGraph h.putGraph)
  | quiesce => exact h.execQuiesce
  | csave => exact h.execCsave
  | cload => exact h.execCload
  | cswap => exact h.seqWord (fun f1 g1 => MemOk.ite h h.congr.waitFor)
  | tlbinv => exact h.execTlbinv
  | mappin => exact h.execMappin
  | keyld => exact h.execKeyld
  | lkey => exact h.execLkey
  | deadset => exact h.seqWord (fun a g1 => h.markDead.putGraph)
  | deadclr => exact h.seqWord (fun a g1 => h.congr.putGraph)
  | freeze => exact h.seqWord (fun f1 g1 => (h.foldl _ fun u f2 hu => hu.congr.keep Keeps.rfl.report).putGraph)
  | thaw => exact h.seqWord (fun f1 g1 => (h.foldl _ fun u f2 hu => hu.thaw).putGraph)
  | sweep => exact h.execSweep
  | brkset => exact h.seqWord (fun f1 g1 => h.congr.putGraph)
  | qbind => exact h.execQbind
  | qunbind => exact h.seqWord (fun f1 g1 => h.unbindQueue.putGraph)
  | queueAccept => exact h.execQueueAccept
  | nopPacket => exact h.execNopPacket
  | launchPacket => exact h.execLaunchPacket
  | copyPacket | mcopyPacket => exact h.handStream (fun u a a1 hu => hu.mkCopy)
  | gbindPacket => exact h.execGbindPacket
  | gbindUnbindPacket => exact h.execGbindUnbindPacket
  | binPacket => exact h.handStream (fun u a a1 hu => hu)
  | stampPacket => exact h.execStampPacket
  | queueAgeing => exact h.execQueueAgeing
  | graphQuantum | budgetPeriod | keyChange | linkTrained => exact MemOk.ite h.congr h
  | graphResume => exact h.execGraphResume
  | launchPart => exact h.execLaunchPart
  | launchAck => exact h.execLaunchAck
  | launchStart => exact h.execLaunchStart
  | armingComplete => exact h.execArmingComplete
  | launchComplete => exact h.execLaunchComplete
  | tokenArrival | tokenResend => exact MemOk.ite h.offerTok h
  | overflowReadDone => exact h.execOverflowReadDone
  | countTableIdleFlush => exact MemOk.ite (h.keep Keeps.rfl.flushCounts) h
  | countMessage => exact h.execCountMessage
  | trackerForward => exact (h.congr.keep Keeps.rfl.modLaunch).tellTrackers
  | trackerPeerChange => exact h.execTrackerPeerChange
  | frontierUpdate => exact MemOk.ite h (h.foldl _ fun u p1 hu => hu.onCopy (fun u1 hu1 => hu1.frontierTo))
  | frontAnswer => exact h.execFrontAnswer
  | memoryRequest => exact h.execMemoryRequest
  | atomicRequest => exact h.execAtomicRequest
  | aonStore | aonLoad => exact h.aonStep
  | memoryResponse => exact h.execMemoryResponse
  | presenceRequest => exact h.execPresenceRequest
  | paneArrival => exact h.arrivalStep
  | waitlistRetry => exact h.execWaitlistRetry
  | walkStep => exact h.execWalkStep
  | carryApply => exact h.execCarryApply
  | phaserStep => exact h.objectStep (fun u a a1 a2 hu => hu.phStep)
  | lockStep => exact h.objectStep (fun u a a1 a2 hu => hu.lockOne)
  | releasePortWait => exact h.execReleasePortWait
  | historyOperation => exact h.execHistoryOperation
  | historyPendingProcess => exact h.execHistoryPendingProcess
  | streamAccept => exact h.execStreamAccept
  | streamChunk => exact h.execStreamChunk
  | streamComplete => exact h.execStreamComplete
  | windowRequest => exact h.execWindowRequest
  | decodeLength => exact h.execDecodeLength
  | matrixAccept => exact h.execMatrixAccept
  | matrixControlApply => exact h.execMatrixControlApply
  | rowPass => exact h.execRowPass
  | faultRecordWrite => exact h.execFaultRecordWrite
  | hang => exact h.execHang
  | meshHop => exact h.execMeshHop
  | beatResend => exact h.execBeatResend
  | frameSend =>
    exact MemOk.ite h (MemOk.ite (MemOk.ite h h.sendKeyAck)
      (MemOk.ite h (MemOk.ite (MemOk.ite h.stall (MemOk.ite h h.sendFrame)) (MemOk.ite h h.sendData))))
  | frameReceive => exact h.execFrameReceive
  | keyAckFrame => exact h.execKeyAckFrame
  | linkDown => exact MemOk.ite h h.portDown
  | sourceTimeout => exact h.execSourceTimeout
  | deadBitmap => exact h.congr
  | hostWrite => exact h.execHostWrite
  | hostRead => exact h.execHostRead
  | hostFetchadd | hostSwap | hostCas => exact h.hostAtomic
  | hwinWrite | attest | powerPeriod | thermalThrottleEnd => exact MemOk.ite h h.congr
  | pform => exact MemOk.ite h.congr h.congr.zeroSram.congr
  | pfree => exact MemOk.ite h.congr ((MemOk.ite h.freePart h).congr)
  | fwload => exact MemOk.ite h (MemOk.ite h.congr h.congr)
  | powerToP0 => exact h.execPowerToP0
  | powerToP1 | powerToP2 => exact h.powerDone (fun u hu => hu.congr)
  | powerToP3 => exact h.execPowerToP3
  | thermalThrottle => exact h.execThermalThrottle
  | thermalTrip => exact h.execThermalTrip
  | coldReset => exact memOk_boot
  | cstatWrite | mperWrite | mbudWrite | ltmoWrite | frctlWrite | hangivWrite | registerWrite => exact h.applyRegw
  | exchangeComplete => exact MemOk.ite h h.flushFields.exchange.congr
  | csaveComplete => exact h.execCsaveComplete
  | cloadComplete => exact h.execCloadComplete
  | translationWalkComplete => exact h.execTranslationWalkComplete
  | weightLoadComplete => exact h.execWeightLoadComplete
  | mdrainComplete => exact h.execMdrainComplete

theorem runFire_memOk (h : MemOk s) (sl : Slot) : NextOk (runFire s sl) := by
  unfold runFire
  split
  · exact h
  · trivial
  · exact exec_memOk h.congr _

theorem runGraph_memOk (h : MemOk s) : NextOk (runGraph s) := by
  unfold runGraph
  split
  · exact h
  · split
    · exact h.graphFault
    · trivial
    · exact exec_memOk h _

theorem runWord_memOk (h : MemOk s) (f : Nat) : NextOk (runWord s f) := by
  unfold runWord
  split
  · exact h
  · split
    · exact h
    · exact runGraph_memOk h.chooseGraph

theorem runEvent_memOk (h : MemOk s) (i : Instr) : NextOk (runEvent s i) := by
  unfold runEvent
  split
  · trivial
  · split
    · exact exec_memOk h i
    · exact h

theorem runAct_memOk (h : MemOk s) (a : Act) : NextOk (runAct s a) := by
  cases a with
  | fire sl => exact runFire_memOk h sl
  | word f => exact runWord_memOk h f
  | event i => exact runEvent_memOk h i
  | upset u => exact h.runUpset

theorem NextOk.restOut {o : Host.Outcome State Fault Refusal} (h : NextOk o) : NextOk (restOut o) := by
  cases o with
  | next s => exact MemOk.rest h
  | fault r => trivial
  | refused r => trivial

theorem NextOk.of_eq {o : Host.Outcome State Fault Refusal} (h : NextOk o) (e : o = .next t) : MemOk t := by
  subst e
  exact h

theorem step_memOk (h : MemOk s) : NextOk (step s) :=
  (runAct_memOk (MemOk.rest (h.nextHappening.congr : MemOk (tickAll _ _))) _).restOut

/-- Settles O7: memory stays canonical through every instruction, hence through what is fetched, through what follows a step and through
what a step chooses. -/
theorem memoryStaysCanonical : Obligations.MemoryStaysCanonical := fun _ _ h e => (step_memOk h).of_eq e

/-! ## The word that runs -/

theorem node?_rest_tickAll (s : Machine.State) (l : Tbl UnitId W64) (sl : Slot) : node? (rest (tickAll s l)) sl = node? s sl := by
  have k : Keeps (tickAll s l) (if clocksRun (tickAll s l) then followUp (tickAll s l) else tickAll s l) :=
    Keeps.rfl.followUp.ite Keeps.rfl
  exact k.node sl

theorem step_of_next {q : Machine.State} {a : Happening} (e : nextHappening s = (a, q)) :
    step s = restOut (runAct (rest (tickAll q a.ticks)) a.act) := by
  simp only [step, e, runHappening]

theorem runAct_fire {sl : Slot} {n : Node} {i : Instr} (hn : node? s sl = some n) (hd : decodeCtx n.word = .ok i) :
    runAct s (.fire sl) = exec i { s with focus := .slot sl } := by
  simp only [runAct, runFire, fetchSlot, hn, Option.map_some, hd]

theorem runAct_word {f f' : Nat} {k : Option Nat} {g : Machine.Graph} {v : W64} {i : Instr} (hc : clocksRun s = true)
    (hk : pickGraph s f = some k) (hg : curGraph (chooseGraph s f k) = some (f', g)) (hv : g.words[g.pc]? = some v)
    (hd : decodeSeq g.sup v = .ok i) : runAct s (.word f) = exec i (chooseGraph s f k) := by
  simp only [runAct, runWord, hc, Bool.not_true, Bool.false_eq_true, if_false, hk, runGraph, hg, fetchSeq, hv, Option.map_some, hd]

theorem runAct_event {i : Instr} (he : i.isEvent = true) (hc : clocksRun s = true ∨ offWafer i = true) :
    runAct s (.event i) = exec i s := by
  have hr : (clocksRun s || offWafer i) = true := by simpa using hc
  simp only [runAct, runEvent, he, hr, Bool.not_true, Bool.false_eq_true, if_false, if_true]

/-- Settles O5: the kind of the happening says which word runs; for the slot that fires, what follows the step before leaves its node in
place. -/
theorem stepRunsDecoded : Obligations.StepRunsDecoded := by
  intro s q p h hn hp
  have hs : step s = restOut (runAct p h.act) := hp ▸ step_of_next hn
  refine ⟨fun sl n i ha hnode hd => ?fire, fun f k g v i ha hc hk hg hv hd => ?word, fun i ha he hc => ?event, fun u ha => ?upset⟩
  case fire => rw [hs, ha, runAct_fire (by rw [hp, node?_rest_tickAll, hnode]) hd]
  case word => rw [hs, ha, runAct_word hc hk hg hv hd]
  case event => rw [hs, ha, runAct_event he hc]
  case upset => rw [hs, ha, runAct, restOut]

/-! ## After reset -/

/-- Settles O8: each table of `State.reset` is empty or reads its default. -/
theorem resetState : Obligations.ResetState := by
  refine ⟨⟨rfl, rfl⟩, ⟨rfl, rfl⟩, fun _ => rfl, rfl, fun _ => rfl, rfl, fun _ => rfl, fun _ => rfl, rfl,
    fun _ => ⟨rfl, rfl⟩, fun _ => rfl, rfl,
    rfl, rfl⟩

end Sys2Proof.Safety
end

section
/-! The life of a launch (R17, R63, R79 to R84, R89, R92; log 9, 68, 71, 113, 135): what each of its steps leaves of the launch table, and how
each of its conditions decides. -/

namespace Sys2Proof.Machine

open Sys2Proof Sys2Proof.Safety

variable {s t : State} {lid : Nat} {l : Launch}

/-! ## The launch table -/

theorem launch?_congr (e : t.launches = s.launches) (m : Nat) : launch? t m = launch? s m := by rw [launch?, launch?, e]

theorem modLaunch_eq (h : launch? s lid = some l) (f : Launch → Launch) :
    modLaunch s lid f = { s with launches := tset s.launches lid (f l) } := by
  have ht : tget s.launches lid = some l := h
  simp only [modLaunch, ht]

theorem launch?_modLaunch (h : launch? s lid = some l) (f : Launch → Launch) : launch? (modLaunch s lid f) lid = some (f l) := by
  rw [modLaunch_eq h]
  exact tget_tset_self _ _ _

theorem foldl_launches {α : Type} {f : State → α → State} (hf : ∀ u a, (f u a).launches = u.launches) (as : List α) (s : State) :
    (as.foldl f s).launches = s.launches :=
  List.foldlRecOn (motive := fun u : State => u.launches = s.launches) as f rfl fun u h a _ => (hf u a).trans h

theorem onCopy_launches {f : State → State} (hf : ∀ u, (f u).launches = u.launches) (s : State) (ctx : Nat) :
    (onCopy s ctx f).launches = s.launches := by
  rw [onCopy]
  split
  · exact hf s
  · split
    · exact hf s
    · split
      · exact hf { exchange s _ with swapped := some ctx }
      · split
        · exact hf s
        · split
          · exact hf { s with x := _, mem := _, ecc := _, aon := _, swapped := some ctx }
          · exact hf s

/-- Where the copy in place holds the context, the operation acts on the state as it stands. -/
theorem onCopy_inPlace {ctx : Nat} (h : InPlace s ctx) (f : State → State) : onCopy s ctx f = f s := by
  obtain ⟨live, notShad⟩ := h
  rw [onCopy]
  split
  · rfl
  · split
    next e => rfl
    next p e =>
      have hl : ((ctxStat s p).live == some ctx) = true := by simpa [ctxLive, e] using live
      have hs : ((ctxStat s p).shad == some ctx) = false := by simpa using notShad p e
      simp only [hl, hs, Bool.false_eq_true, if_false, if_true]

theorem tellHeads_launches (s : State) (lid : Nat) (l : Launch) (m : PeerMsg) : (tellHeads s lid l m).launches = s.launches := by
  unfold tellHeads
  exact foldl_launches (by exact fun _ _ => rfl) _ _

theorem tellHeads_frame (s : State) (lid : Nat) (l : Launch) (m : PeerMsg) :
    ∃ net serial, tellHeads s lid l m = { s with net := net, serial := serial } := by
  refine List.foldlRecOn (motive := fun u : State => ∃ net serial, u = { s with net := net, serial := serial }) l.heads _ ⟨_, _, rfl⟩ ?_
  rintro _ ⟨net, serial, rfl⟩ q -
  exact ⟨_, _, rfl⟩

theorem progress_launches (s : State) (f lid : Nat) : (progress s f lid).launches = s.launches := by
  rw [progress]
  split <;> rfl

theorem tellPeer_launches (s : State) (lid : Nat) (l : Launch) (w : Nat) (m : PeerMsg) : (tellPeer s lid l w m).launches = s.launches := by
  rw [tellPeer]
  split <;> rfl

theorem tellSect_launches (s : State) (lid : Nat) (l : Launch) (k : Nat) (z : Sect) : (tellSect s lid l k z).launches = s.launches := by
  unfold tellSect
  exact foldl_launches (by exact fun u q => tellPeer_launches u lid l q.1 _) _ _

theorem orWord_launches (s : State) (lid f : Nat) (fl : BitVec 5) : (orWord s lid f fl).launches = s.launches := by
  rw [orWord]
  split <;> rfl

theorem gatherFlags_launches (s : State) (lid : Nat) (sls : List Slot) : (gatherFlags s lid sls).launches = s.launches := by
  unfold gatherFlags
  exact foldl_launches (by exact fun u sl => orWord_launches u lid sl.core.f (flagsOf u sl)) _ _

theorem spillFrontier_go_launches (base probe : Nat) (ts : List Time) (s : State) (i : Nat) :
    (spillFrontier.go probe base s i ts).launches = s.launches := by
  induction ts generalizing s i with
  | nil => rfl
  | cons a ts ih => exact (ih _ _).trans rfl

theorem spillFrontier_launches (s : State) (f probe : Nat) (ts : List Time) : (spillFrontier s f probe ts).launches = s.launches := by
  rw [spillFrontier]
  split
  · rfl
  · exact spillFrontier_go_launches ..

theorem setProbes_launches (s : State) (l : Launch) (ps : List INode) : (setProbes s l ps).launches = s.launches := by
  unfold setProbes
  exact foldl_launches (by exact fun u n => spillFrontier_launches u n.sl.core.f _ _) _ _

theorem startGraphs_launches (s : State) (lid : Nat) (l : Launch) (i : Img) : (startGraphs s lid l i).launches = s.launches := by
  unfold startGraphs
  exact foldl_launches (by exact fun _ _ => rfl) _ _

theorem seedConst_launches (s : State) (n : INode) : (seedConst s n).launches = s.launches := rfl

/-! ## Loading and acknowledging (R17, R63, R80, R92) -/

theorem takePart_eq {f k : Nat} (h : partFor s f lid = some (k, l)) (hf : l.fields.contains f = true) :
    takePart s f lid = if launchBusy s l (parseImg l.bytes) then s else loadPart (addLaunch (dropPkt s k) lid l) f lid l := by
  simp only [takePart, h, hf, Bool.not_true, Bool.or_false]

theorem exec_launchPart_far {f : Nat} (h : launch? s lid = none) (hu : unitHolds s (.seqr f) = false) :
    exec (.launchPart f lid) s = .next (takePart s f lid) := by
  change execLaunchPart f lid s = _
  simp only [execLaunchPart, h, hu, Bool.false_eq_true, if_false]

theorem exec_launchPart_waiting {f : Nat} (h : launch? s lid = some l) (hs : l.stat = .waiting) (hu : unitHolds s (.seqr f) = false) :
    exec (.launchPart f lid) s = .next (promoteChild s lid l) := by
  change execLaunchPart f lid s = _
  simp [execLaunchPart, h, hu, hs]

theorem exec_launchPart_loading {f : Nat} (h : launch? s lid = some l) (hs : l.stat = .loading) (hf : l.fields.contains f = true)
    (hl : l.loaded.contains f = false) (ha : l.acks.contains f = false) (hu : unitHolds s (.seqr f) = false) :
    exec (.launchPart f lid) s = .next (loadPart s f lid l) := by
  change execLaunchPart f lid s = _
  have hw : (LStat.loading == LStat.waiting) = false := rfl
  have hr : (LStat.loading == LStat.loading) = true := rfl
  simp only [execLaunchPart, h, hu, hs, hf, hl, ha, hw, hr, Bool.not_false, Bool.and_true, Bool.false_eq_true, if_false, if_true]

theorem loadPart_violation {f code off : Nat} (h : violation s lid l (parseImg l.bytes) = some (code, off)) :
    loadPart s f lid l = abortLaunch s lid (fieldAt (parseImg l.bytes) l.lead off) l.ctx code 0 off := by
  unfold loadPart
  dsimp only
  rw [h]

/-- The launch with one acknowledgement more. -/
def Launch.acked (l : Launch) (f : Nat) : Launch := { l with acks := f :: l.acks }

theorem exec_launchAck_field {f : Nat} (h : launch? s lid = some l) (hs : l.stat = .loading) (ha : l.acks.contains f = false)
    (hd : launchDead s l = false) (hf : f < 48) (hl : l.loaded.contains f = true) :
    exec (.launchAck lid f) s = .next (ackLead { s with launches := tset s.launches lid (l.acked f) } lid) := by
  change execLaunchAck lid f s = _
  have hr : (LStat.loading == LStat.loading) = true := rfl
  simp only [execLaunchAck, h, hs, ha, hd, hf, hl, hr, modLaunch_eq h, Launch.acked, Bool.not_true, Bool.or_false, Bool.false_eq_true,
    decide_true, Bool.and_true, if_false, if_true]

theorem exec_launchAck_wafer {f : Nat} (h : launch? s lid = some l) (hs : l.stat = .loading) (ha : l.acks.contains f = false)
    (hd : launchDead s l = false) (hf : 48 ≤ f) (hw : l.awaits.contains f = true) :
    exec (.launchAck lid f) s = .next { s with
      launches := tset s.launches lid (l.acked f)
      remotes := dropFirst (farTimer (.seqr l.lead) (partTag lid) (f - 48)) s.remotes } := by
  have hg : launch? (farGot s (.seqr l.lead) (partTag lid) (some (f - 48))) lid = some l := h
  change execLaunchAck lid f s = _
  have hr : (LStat.loading == LStat.loading) = true := rfl
  simp only [execLaunchAck, h, hs, ha, hd, Nat.not_lt.mpr hf, hw, hr, modLaunch_eq hg, Launch.acked, Bool.not_true, Bool.or_false,
    Bool.false_eq_true, decide_false, Bool.false_and, if_false, if_true]
  rfl

theorem exec_launchAck_dead {f : Nat} (h : launch? s lid = some l) (hs : l.stat = .loading) (ha : l.acks.contains f = false)
    (hd : launchDead s l = true) (hu : unitHolds s (.seqr l.lead) = false) :
    exec (.launchAck lid f) s = .next (abortLaunch s lid l.lead l.ctx Code.peerDead 0 0) := by
  change execLaunchAck lid f s = _
  have hr : (LStat.loading == LStat.loading) = true := rfl
  simp only [execLaunchAck, h, hs, ha, hd, hu, hr, Bool.not_true, Bool.or_false, Bool.false_eq_true, if_false, if_true]

theorem ackLead_frame (s : State) (lid : Nat) : ∃ net serial, ackLead s lid = { s with net := net, serial := serial } := by
  rw [ackLead]
  split
  · split
    · exact tellHeads_frame ..
    · exact ⟨_, _, rfl⟩
  · exact ⟨_, _, rfl⟩

theorem ackLead_leading (h : launch? s lid = some l) (hf : l.from_ = none) : ackLead s lid = s := by
  simp [ackLead, h, hf]


/-! ## The start (R17 step 4, R81) -/

/-- A running launch with what the loader computed of its graph. -/
def Launch.started (l : Launch) (me : Nat) : Launch :=
  { l with stat := .running, sstamp := (parseImg l.bytes).sstamp, waiters := (parseImg l.bytes).waiters }.graphed ((parseImg l.bytes).graph me)

theorem exec_launchStart (h : launch? s lid = some l) (hs : l.stat = .loading) (hf : ∀ f ∈ l.fields, f ∈ l.acks)
    (hw : ∀ w ∈ l.awaits, w ∈ l.acks) :
    ∃ t, exec (.launchStart lid) s = .next t ∧ t.launches = tset s.launches lid (l.started s.wafno) := by
  have acked : (!(l.stat == .loading) || !(l.fields.all l.acks.contains) || !(l.awaits.all l.acks.contains)) = false := by
    simpa [hs] using ⟨hf, hw⟩
  change ∃ t, execLaunchStart lid s = .next t ∧ _
  simp only [execLaunchStart, h, acked, Bool.false_eq_true, if_false]
  refine ⟨_, rfl, ?_⟩
  refine (foldl_launches (fun u f => progress_launches u f lid) _ _).trans ((onCopy_launches (fun u => ?_) _ _).trans ?_)
  · exact (foldl_launches seedConst_launches _ _).trans ((setProbes_launches _ _ _).trans (startGraphs_launches _ _ _ _))
  · split
    · rfl
    · exact tellHeads_launches _ _ _ _


/-! ## What the wafers ask each other (log 113) -/

theorem foldl_keeps {α β : Type} {f : β → α → β} {b : β} (as : List α) (h : ∀ a ∈ as, f b a = b) : as.foldl f b = b :=
  List.foldlRecOn (motive := fun c => c = b) as f rfl fun _ hc a ha => hc ▸ h a ha

theorem takeIdles_none {what : Option Nat} (h : ∀ p ∈ s.net, ∀ w n k v m, p.msg ≠ .peer w n (.idle k v m)) : takeIdles s lid what = s := by
  unfold takeIdles
  refine foldl_keeps _ fun p hp => ?_
  split
  next w n k v m e => exact absurd e (h p hp w n k v m)
  · rfl

theorem answerPolls_none (h : ∀ p ∈ s.net, ∀ w n k v, p.msg ≠ .peer w n (.poll k v)) : answerPolls s lid l = s := by
  unfold answerPolls
  refine foldl_keeps _ fun p hp => ?_
  split
  next w n k v e => exact absurd e (h p hp w n k v)
  · rfl

theorem restAll_alone {what : Option Nat} {ok : Bool} (h : launch? s lid = some l) (hp : l.peers = [])
    (hn : ∀ p ∈ s.net, ∀ w n k v m, p.msg ≠ .peer w n (.idle k v m)) : restAll s lid what ok = (s, ok) := by
  simp only [restAll, takeIdles_none hn, h, hp, List.isEmpty_nil, if_true]

/-! ## The end of an arming (R84, R89) -/

theorem farNew_of_asked {u : UnitId} {tag : Nat} {w : Option Nat} (h : farAsked s u tag w = true) : farNew s u tag w = false := by
  cases w with
  | none => rfl
  | some w =>
    have ha : s.remotes.any (farTimer u tag w) = true := h
    simp only [farNew, ha, Bool.not_true, Bool.and_false]

theorem farAccess_old {u : UnitId} {tag n : Nat} {w : Option Nat} {k : State → State} (h : farNew s u tag w = false) :
    farAccess s u tag n w k = k (farGot s u tag w) := by
  simp only [farAccess, h, Bool.false_eq_true, if_false]

theorem farAccess_new {u : UnitId} {tag n : Nat} {w : Option Nat} {k : State → State} (h : farNew s u tag w = true) :
    farAccess s u tag n w k = farSend s u tag n (w.getD 0) := by
  simp only [farAccess, h, if_true]

/-- The wafer of a section's stamp, where it is another. -/
def stampFar (s : State) (l : Launch) (k : Nat) : Option Nat := if l.sstamp = 0 then none else farWord? s l.ctx (l.sstamp + 8 * k)

/-- An arming's step where its context is in place and its stamp can be written. -/
theorem exec_armingComplete {k : Nat} {z : Sect} (h : launch? s lid = some l) (hz : tget l.secs k = some z) (hc : InPlace s l.ctx)
    (ha : l.sstamp = 0 ∨ awayFor s l.ctx (l.sstamp + 8 * k) (false, true) = false) :
    exec (.armingComplete lid k) s = .next (
      let r := if farAsked s (.seqr z.field) (leadTag lid) (stampFar s l k) then (s, true) else restAll s lid (some k) (armingDone s lid z)
      match launch? r.1 lid with
      | some l' =>
        if r.2 then farAccess r.1 (.seqr z.field) (leadTag lid) lid (stampFar s l k) fun u => endArming u lid l' k z else r.1
      | none => r.1) := by
  have hw : (l.sstamp != 0 && awayFor s l.ctx (l.sstamp + 8 * k) (false, true)) = false := by
    rcases ha with e | e <;> simp [e]
  change execArmingComplete lid k s = _
  simp only [execArmingComplete, h, hz, hw, onCopy_inPlace hc, Bool.false_eq_true, if_false]
  rfl

theorem exec_armingComplete_asked {k : Nat} {z : Sect} (h : launch? s lid = some l) (hz : tget l.secs k = some z) (hc : InPlace s l.ctx)
    (ha : l.sstamp = 0 ∨ awayFor s l.ctx (l.sstamp + 8 * k) (false, true) = false)
    (hf : farAsked s (.seqr z.field) (leadTag lid) (stampFar s l k) = true) :
    exec (.armingComplete lid k) s = .next (endArming (farGot s (.seqr z.field) (leadTag lid) (stampFar s l k)) lid l k z) := by
  simp only [exec_armingComplete h hz hc ha, hf, if_true, h, farAccess_old (farNew_of_asked hf)]

theorem exec_armingComplete_agreed {k : Nat} {z : Sect} {u : State} {m : Launch} (h : launch? s lid = some l) (hz : tget l.secs k = some z)
    (hc : InPlace s l.ctx) (ha : l.sstamp = 0 ∨ awayFor s l.ctx (l.sstamp + 8 * k) (false, true) = false)
    (hf : farAsked s (.seqr z.field) (leadTag lid) (stampFar s l k) = false)
    (hr : restAll s lid (some k) (armingDone s lid z) = (u, true)) (hm : launch? u lid = some m) :
    exec (.armingComplete lid k) s = .next (farAccess u (.seqr z.field) (leadTag lid) lid (stampFar s l k) fun v => endArming v lid m k z) := by
  simp only [exec_armingComplete h hz hc ha, hf, hr, hm, Bool.false_eq_true, if_false, if_true]

/-- A launch with one more arming of a section ended. -/
def Launch.armingEnded (l : Launch) (k : Nat) (z : Sect) : Launch :=
  { l with secs := tset l.secs k { z with completed := z.completed + 1, cur := none, emitted := [] } }

theorem launch?_endArming {k : Nat} {z : Sect} (h : launch? s lid = some l) (h0 : l.sstamp = 0) :
    launch? (endArming s lid l k z) lid = some (l.armingEnded k z) := by
  have hg : launch? (gatherFlags s lid z.nodes) lid = some l := (launch?_congr (gatherFlags_launches ..) lid).trans h
  simp only [endArming, sectStamp, h0, if_true]
  exact (launch?_congr (tellSect_launches ..) lid).trans (launch?_modLaunch hg fun m => m.armingEnded k z)

/-! ## The end of a launch (R82, R84) -/

theorem exec_launchComplete_ended (h : launch? s lid = some l) (hs : l.stat = .ended) :
    exec (.launchComplete lid) s = .next (finishLaunch s lid l) := by
  have hr : (LStat.ended == LStat.ended) = true := rfl
  change execLaunchComplete lid s = _
  simp only [execLaunchComplete, h, hs, hr, if_true]

theorem stat_beq_ended_false (h : l.stat ≠ .ended) : (l.stat == .ended) = false := by simpa using h

theorem exec_launchComplete_away {q : Nat × Nat × Nat} (h : launch? s lid = some l) (hs : l.stat ≠ .ended) (hq : endWord s lid l = some q) :
    exec (.launchComplete lid) s = .next (endedAway s lid q) := by
  change execLaunchComplete lid s = _
  simp only [execLaunchComplete, h, stat_beq_ended_false hs, hq, Bool.false_eq_true, if_false]

theorem exec_launchComplete_agreed {u : State} {m : Launch} (h : launch? s lid = some l) (hs : l.stat ≠ .ended)
    (hq : endWord s lid l = none) (hc : InPlace s l.ctx) (hf : l.from_ = none)
    (hr : restAll (answerPolls s lid l) lid none (launchDone (answerPolls s lid l) lid l) = (u, true))
    (hm : launch? (retire u lid 0) lid = some m) (he : m.stat = .ended) :
    exec (.launchComplete lid) s = .next (finishLaunch (retire u lid 0) lid m) := by
  have hb : (LStat.ended == LStat.ended) = true := rfl
  change execLaunchComplete lid s = _
  simp only [execLaunchComplete, h, stat_beq_ended_false hs, hq, onCopy_inPlace hc, hf, Option.isSome_none, hr, hm, he, hb,
    Bool.false_eq_true, if_false, if_true]

/-- A launch that has ended, its table entry and its packet gone. -/
def launchGone (s : State) (lid : Nat) (l : Launch) : State :=
  pktDone { tellFinished s lid l with launches := tdel s.launches lid } l.queue l.idx

theorem finishLaunch_orphan (h : (freeWindows s lid).remotes.any (orphanOf lid) = true) :
    finishLaunch s lid l = { freeWindows s lid with remotes := dropFirst (orphanOf lid) (freeWindows s lid).remotes } := by
  simp only [finishLaunch, h, if_true]

theorem finishLaunch_inFlight (h : (freeWindows s lid).remotes.any (orphanOf lid) = false) (hf : inFlight (freeWindows s lid) lid l = true) :
    finishLaunch s lid l = freeWindows s lid := by
  simp only [finishLaunch, h, hf, Bool.true_or, Bool.false_eq_true, if_false, if_true]

theorem inFlight_of {l : Launch} (h : s.net.any (pktOf lid) = true ∨ (s.lateAck.any fun m => msgLid m == lid) = true ∨
    s.remotes.any (remOf lid) = true ∨ (s.wins.any fun q => q.2.lid == lid) = true ∨ ∃ w ∈ l.unfin, s.dead.getLsbD w = false) :
    inFlight s lid l = true := by
  have unfin : (∃ w ∈ l.unfin, s.dead.getLsbD w = false) → (l.unfin.any fun w => !s.dead.getLsbD w) = true := by
    rintro ⟨w, hw, hd⟩
    exact List.any_eq_true.mpr ⟨w, hw, by rw [hd]; rfl⟩
  unfold inFlight
  rcases h with h | h | h | h | h
  · simp only [h, Bool.true_or]
  · simp only [h, Bool.true_or, Bool.or_true]
  · simp only [h, Bool.true_or, Bool.or_true]
  · simp only [h, Bool.true_or, Bool.or_true]
  · simp only [unfin h, Bool.or_true]

theorem finishLaunch_noDone (h : (freeWindows s lid).remotes.any (orphanOf lid) = false) (hf : inFlight (freeWindows s lid) lid l = false)
    (hd : l.done = 0) : finishLaunch s lid l = launchGone (freeWindows s lid) lid l := by
  have hw : farWord? (freeWindows s lid) l.ctx 0 = none := rfl
  simp only [finishLaunch, h, hf, hd, hw, bne_self_eq_false, Bool.false_and, Bool.or_false, Bool.false_eq_true, if_false, if_true,
    farAccess_old (show farNew (freeWindows s lid) (.seqr l.lead) (leadTag lid) none = false from rfl)]
  rfl

/-- What is left of a launch is its DONE word. -/
theorem finishLaunch_done (h : (freeWindows s lid).remotes.any (orphanOf lid) = false) (hf : inFlight (freeWindows s lid) lid l = false)
    (hd : l.done ≠ 0) (ha : awayFor (freeWindows s lid) l.ctx l.done (false, true) = false) :
    finishLaunch s lid l = farAccess (freeWindows s lid) (.seqr l.lead) (leadTag lid) lid (farWord? (freeWindows s lid) l.ctx l.done) fun u =>
      launchGone (onCopy u l.ctx fun v => match writeAt v l.ctx lid l.done (leBytes 8 (doneVal l)) with
        | .ok v => v
        | .error code => recordOnly v (.seqr l.lead) code l.ctx l.lead lid none l.done t00 0) lid l := by
  simp only [finishLaunch, h, hf, ha, hd, Bool.and_false, Bool.or_false, Bool.false_eq_true, if_false]
  rfl

theorem finishLaunch_doneSent (h : (freeWindows s lid).remotes.any (orphanOf lid) = false) (hf : inFlight (freeWindows s lid) lid l = false)
    (hd : l.done ≠ 0) (ha : awayFor (freeWindows s lid) l.ctx l.done (false, true) = false)
    (hn : farNew (freeWindows s lid) (.seqr l.lead) (leadTag lid) (farWord? (freeWindows s lid) l.ctx l.done) = true) :
    finishLaunch s lid l =
      farSend (freeWindows s lid) (.seqr l.lead) (leadTag lid) lid ((farWord? (freeWindows s lid) l.ctx l.done).getD 0) := by
  rw [finishLaunch_done h hf hd ha, farAccess_new hn]

theorem inPlace_farGot_freeWindows {ctx tag : Nat} {u : UnitId} {w : Option Nat} (h : InPlace s ctx) :
    InPlace (farGot (freeWindows s lid) u tag w) ctx := by
  cases w with
  | none => exact h
  | some w => exact h

theorem finishLaunch_doneWritten {x : State} (h : (freeWindows s lid).remotes.any (orphanOf lid) = false)
    (hf : inFlight (freeWindows s lid) lid l = false) (hc : InPlace s l.ctx) (hd : l.done ≠ 0)
    (ha : awayFor (freeWindows s lid) l.ctx l.done (false, true) = false)
    (hn : farNew (freeWindows s lid) (.seqr l.lead) (leadTag lid) (farWord? (freeWindows s lid) l.ctx l.done) = false)
    (hx : writeAt (farGot (freeWindows s lid) (.seqr l.lead) (leadTag lid) (farWord? (freeWindows s lid) l.ctx l.done)) l.ctx lid l.done
      (leBytes 8 (doneVal l)) = .ok x) : finishLaunch s lid l = launchGone x lid l := by
  rw [finishLaunch_done h hf hd ha, farAccess_old hn, onCopy_inPlace (inPlace_farGot_freeWindows hc)]
  simp only [hx]


/-! ## The obligation -/

/-- Settles O47: one lemma per condition of each step of a launch's life; the launch table is read off from what each step leaves of it. -/
theorem launchesRun : Obligations.LaunchesRun := by
  refine ⟨fun s f lid k l hn hp hf hu => ?far, fun s lid l h => ⟨fun f hs hu => exec_launchPart_waiting h hs hu,
    fun f hs hf hl ha hu => ⟨exec_launchPart_loading h hs hf hl ha hu, fun code off hv => loadPart_violation hv⟩, fun f hs ha hd hk => ?ack,
    fun f hs ha hd hu => exec_launchAck_dead h hs ha hd hu, fun hs hf hw => ?start, fun k z u m hz hc ha => ?arming,
    fun k z h0 => launch?_endArming h h0, fun what ok hp hn => restAll_alone h hp hn, answerPolls_none,
    fun q hs hq => exec_launchComplete_away h hs hq,
    fun u m hs hq hc hf hr hm he => exec_launchComplete_agreed h hs hq hc hf hr hm he, exec_launchComplete_ended h, ?finish⟩⟩
  case far =>
    rw [exec_launchPart_far hn hu, takePart_eq hp hf]
    exact ⟨fun hb => by simp only [hb, if_true], fun hb => by simp only [hb, Bool.false_eq_true, if_false]⟩
  case ack =>
    rcases hk with ⟨hf, hl⟩ | ⟨hf, hw⟩
    · obtain ⟨net, serial, told⟩ := ackLead_frame { s with launches := tset s.launches lid (l.acked f) } lid
      refine ⟨{ s with launches := tset s.launches lid (l.acked f), net := net, serial := serial },
        told ▸ exec_launchAck_field h hs ha hd hf hl, tget_tset_self .., rfl, fun hk => ?_, by rw [if_pos hf]⟩
      have leads : (l.acked f).from_ = none := hk.resolve_right (Nat.not_le.mpr hf)
      have here : launch? { s with launches := tset s.launches lid (l.acked f) } lid = some (l.acked f) := tget_tset_self ..
      have alone := (ackLead_leading here leads).symm.trans told
      exact ⟨(congrArg State.net alone).symm, (congrArg State.serial alone).symm⟩
    · exact ⟨_, exec_launchAck_wafer h hs ha hd hf hw, tget_tset_self .., rfl, fun _ => ⟨rfl, rfl⟩, by rw [if_neg (Nat.not_lt.mpr hf)]⟩
  case start =>
    obtain ⟨t, ht, hl⟩ := exec_launchStart h hs hf hw
    refine ⟨t, ht, ?_, fun m hm => ?_⟩
    · rw [launch?, hl]
      exact tget_tset_self ..
    · rw [launch?, hl]
      exact tget_tset_ne _ _ (Ne.symm hm)
  case arming =>
    refine ⟨exec_armingComplete_asked h hz hc ha, fun hf hr hm => ⟨fun hn => ?_, fun hn => ?_⟩⟩
    · rw [exec_armingComplete_agreed h hz hc ha hf hr hm]
      exact congrArg Host.Outcome.next (farAccess_old hn)
    · rw [exec_armingComplete_agreed h hz hc ha hf hr hm]
      exact congrArg Host.Outcome.next (farAccess_new hn)
  case finish =>
    exact ⟨finishLaunch_orphan, fun ho hi => finishLaunch_inFlight ho (inFlight_of hi), fun ho hi hc => ⟨finishLaunch_noDone ho hi,
      fun hd ha => ⟨finishLaunch_doneSent ho hi hd ha, fun x hn hx => finishLaunch_doneWritten ho hi hc hd ha hn hx⟩⟩⟩

end Sys2Proof.Machine
end

section
/-! The single rounding (R136, R139, R140): the model's rounding of a number to a format with infinities and NaNs is the law `Rounds`.

A pattern without its sign is a code. Codes are ordered as their magnitudes are (`magOf_strictMono`), so that the model's comparison of codes
finds an overflow where the rational law does. -/

namespace Sys2Proof.Machine

open Sys2Proof Sys2Proof.Safety

/-! ## Codes: patterns without their sign (R136) -/

/-- A format with infinities and NaNs, of a size at which the model's bit count is exact. -/
structure Ieee (f : Fmt) : Prop where
  spec : f.spec = .ieee
  fb_pos : 0 < f.fb
  fb_le : f.fb ≤ 52
  width : f.fb + 2 ≤ f.w
  bias_pos : 0 < f.bias
  bias_le : f.bias ≤ 1023
  expMax_eq : expMax f = 2 * f.bias + 1

/-- The magnitude of a code whose exponent field is a number's, whatever that field holds. -/
def magOf (f : Fmt) (c : Nat) : ℚ :=
  if c / 2 ^ f.fb = 0 then ((c % 2 ^ f.fb : Nat) : ℚ) * 2 ^ (1 - (f.bias : Int) - f.fb)
  else ((2 ^ f.fb + c % 2 ^ f.fb : Nat) : ℚ) * 2 ^ (((c / 2 ^ f.fb : Nat) : Int) - f.bias - f.fb)

theorem two_pow_double {n : Nat} (h : 0 < n) : 2 ^ n = 2 ^ (n - 1) + 2 ^ (n - 1) := by
  rw [← Nat.mul_two, ← pow_succ, Nat.sub_add_cancel h]

/-- r units of a binade's step, where j counts the steps' doublings above the subnormals': the code j × 2^fb + r has that magnitude, also
where r fills the binade up. -/
theorem magOf_scale (f : Fmt) {j r : Nat} (hr : r ≤ 2 ^ (f.fb + 1)) (hj : j = 0 ∨ 2 ^ f.fb ≤ r) :
    magOf f (j * 2 ^ f.fb + r) = r * 2 ^ ((j : Int) + 1 - f.bias - f.fb) := by
  have hpos : 0 < 2 ^ f.fb := Nat.two_pow_pos _
  have hdbl := two_pow_double (Nat.succ_pos f.fb)
  rw [Nat.succ_sub_one] at hdbl
  have hdiv : (j * 2 ^ f.fb + r) / 2 ^ f.fb = j + r / 2 ^ f.fb := by
    rw [Nat.add_comm, Nat.add_mul_div_right _ _ hpos, Nat.add_comm]
  have hmod : (j * 2 ^ f.fb + r) % 2 ^ f.fb = r % 2 ^ f.fb := by rw [Nat.add_comm, Nat.add_mul_mod_self_right]
  rw [magOf, hdiv, hmod]
  by_cases hlow : r < 2 ^ f.fb
  · obtain rfl : j = 0 := hj.resolve_right (by omega)
    rw [Nat.div_eq_of_lt hlow, Nat.mod_eq_of_lt hlow]
    simp
  by_cases hfull : r = 2 ^ (f.fb + 1)
  · have h2 : r / 2 ^ f.fb = 2 := by rw [hfull, pow_succ, Nat.mul_div_cancel_left _ hpos]
    have h0 : r % 2 ^ f.fb = 0 := by rw [hfull, pow_succ, Nat.mul_mod_right]
    have he : (((j + 2 : Nat) : Int) - f.bias - f.fb) = ((j : Int) + 1 - f.bias - f.fb) + 1 := by push_cast; ring
    rw [h2, h0, if_neg (by omega), hfull, he, zpow_add_one₀ two_ne_zero]
    push_cast
    ring
  · have h1 : r / 2 ^ f.fb = 1 := Nat.div_eq_of_lt_le (by omega) (by omega)
    have hm : 2 ^ f.fb + r % 2 ^ f.fb = r := by
      have := Nat.div_add_mod r (2 ^ f.fb)
      rwa [h1, Nat.mul_one] at this
    rw [h1, if_neg (by omega), hm]
    push_cast
    rfl

/-- Every code counts steps of some binade, and there is room for one more. -/
theorem exists_scale (f : Fmt) (c : Nat) : ∃ j r, c = j * 2 ^ f.fb + r ∧ r < 2 ^ (f.fb + 1) ∧ (j = 0 ∨ 2 ^ f.fb ≤ r) := by
  have hdbl := two_pow_double (Nat.succ_pos f.fb)
  rw [Nat.succ_sub_one] at hdbl
  have hlt : c % 2 ^ f.fb < 2 ^ f.fb := Nat.mod_lt _ (Nat.two_pow_pos _)
  have hc : c = c / 2 ^ f.fb * 2 ^ f.fb + c % 2 ^ f.fb := (Nat.div_add_mod' ..).symm
  cases hj : c / 2 ^ f.fb with
  | zero => exact ⟨0, c % 2 ^ f.fb, by rwa [hj] at hc, by omega, .inl rfl⟩
  | succ j =>
    refine ⟨j, 2 ^ f.fb + c % 2 ^ f.fb, ?_, by omega, .inr (by omega)⟩
    rw [hj, Nat.succ_mul] at hc
    omega

theorem magOf_strictMono (f : Fmt) : StrictMono (magOf f) := by
  refine strictMono_nat_of_lt_succ fun c => ?_
  obtain ⟨j, r, rfl, hr, hj⟩ := exists_scale f c
  rw [Nat.add_assoc, magOf_scale f (by omega) hj, magOf_scale f (by omega) (hj.imp_right (by omega))]
  have : (0 : ℚ) < 2 ^ ((j : Int) + 1 - f.bias - f.fb) := by positivity
  push_cast
  nlinarith

section
variable {f : Fmt} {c : Nat} (neg : Bool)

/-- The exponent field of a format lies above the fraction and below the sign. -/
theorem two_pow_sign (hw : f.fb + 1 ≤ f.w) : 2 ^ (f.w - 1) = 2 ^ (f.w - 1 - f.fb) * 2 ^ f.fb := by
  rw [← pow_add]; congr 1; omega

theorem signOf_code (hc : c < 2 ^ (f.w - 1)) : signOf f (signBit f neg + c) = neg := by
  cases neg
  · simp [signOf, signBit, Nat.div_eq_of_lt hc]
  · simp [signOf, signBit, Nat.add_div_left _ (Nat.two_pow_pos _), Nat.div_eq_of_lt hc]

theorem expOf_code (hw : f.fb + 1 ≤ f.w) (hc : c < 2 ^ (f.w - 1)) : expOf f (signBit f neg + c) = c / 2 ^ f.fb := by
  have hlt : c / 2 ^ f.fb < 2 ^ (f.w - 1 - f.fb) := Nat.div_lt_of_lt_mul (by rwa [Nat.mul_comm, ← two_pow_sign hw])
  cases neg
  · simp [expOf, signBit, Nat.mod_eq_of_lt hlt]
  · rw [expOf, signBit, if_pos rfl, two_pow_sign hw, Nat.add_comm, Nat.add_mul_div_right _ _ (Nat.two_pow_pos _), Nat.add_mod_right,
      Nat.mod_eq_of_lt hlt]

theorem fracOf_code (hw : f.fb + 1 ≤ f.w) : fracOf f (signBit f neg + c) = c % 2 ^ f.fb := by
  cases neg
  · simp [fracOf, signBit]
  · rw [fracOf, signBit, if_pos rfl, two_pow_sign hw, Nat.add_comm, Nat.add_mul_mod_self_right]

theorem ratOf_code (hw : f.fb + 1 ≤ f.w) (hc : c < 2 ^ (f.w - 1)) :
    ratOf f (signBit f neg + c) = if neg then -magOf f c else magOf f c := by
  rw [ratOf, signOf_code neg hc, expOf_code neg hw hc, fracOf_code neg hw, magOf]
  cases neg
  · exact one_mul _
  · exact neg_one_mul _

theorem signBit_add_lt (hw : 0 < f.w) (hc : c < 2 ^ (f.w - 1)) : signBit f neg + c < 2 ^ f.w := by
  have := two_pow_double hw
  rw [signBit]
  split <;> omega

end

theorem expMax_add_one (f : Fmt) : expMax f + 1 = 2 ^ (f.w - 1 - f.fb) := Nat.sub_add_cancel (Nat.two_pow_pos _)

namespace Ieee
variable {f : Fmt} {c : Nat} (neg : Bool) (hf : Ieee f)
include hf

theorem fb_lt : f.fb + 1 ≤ f.w := by
  have := hf.width
  omega

theorem w_pos : 0 < f.w := (Nat.succ_pos _).trans_le hf.fb_lt

theorem two_pow_sign_eq : 2 ^ (f.w - 1) = expMax f * 2 ^ f.fb + 2 ^ f.fb := by
  rw [two_pow_sign hf.fb_lt, ← expMax_add_one, Nat.succ_mul]

theorem maxFinite_eq : maxFinite f = expMax f * 2 ^ f.fb - 1 := by rw [maxFinite, hf.spec]

theorem maxFinite_lt : maxFinite f < 2 ^ (f.w - 1) := by
  rw [hf.maxFinite_eq, hf.two_pow_sign_eq]
  have := Nat.two_pow_pos f.fb
  omega

/-- The least normal number is finite. -/
theorem minNormal_le : 2 ^ f.fb ≤ maxFinite f := by
  have hpos := Nat.two_pow_pos f.fb
  rw [hf.maxFinite_eq, hf.expMax_eq, show 2 * f.bias + 1 = 2 * (f.bias - 1) + 1 + 1 + 1 by have := hf.bias_pos; omega, Nat.succ_mul,
    Nat.succ_mul]
  omega

theorem isSpecial_code (hc : c < 2 ^ (f.w - 1)) : isSpecial f (signBit f neg + c) = decide (c / 2 ^ f.fb = expMax f) := by
  rw [isSpecial, hf.spec, expOf_code neg hf.fb_lt hc, ← expMax_add_one]
  simp [Bool.beq_eq_decide_eq]

/-- The patterns up to the largest finite one are numbers. -/
theorem isNum_code (hc : c ≤ maxFinite f) : IsNum f (signBit f neg + c) neg (magOf f c) := by
  have hc' : c < 2 ^ (f.w - 1) := hc.trans_lt hf.maxFinite_lt
  have hs : isSpecial f (signBit f neg + c) = false := by
    rw [hf.isSpecial_code neg hc']
    refine decide_eq_false (Nat.ne_of_lt (Nat.div_lt_of_lt_mul ?_))
    have hpos : 0 < expMax f * 2 ^ f.fb := Nat.mul_pos (by rw [hf.expMax_eq]; omega) (Nat.two_pow_pos _)
    rw [hf.maxFinite_eq] at hc
    rw [Nat.mul_comm]
    omega
  exact ⟨by simp [isInf, hs], by simp [isNaN, hs, hf.spec], signOf_code neg hc', ratOf_code neg hf.fb_lt hc'⟩

theorem infPat_lt : infPat f < 2 ^ (f.w - 1) := by
  rw [infPat, hf.two_pow_sign_eq]
  have := Nat.two_pow_pos f.fb
  omega

theorem isInf_infPat : IsInf f (signBit f neg + infPat f) neg := by
  refine ⟨?_, signOf_code neg hf.infPat_lt⟩
  rw [isInf, hf.isSpecial_code neg hf.infPat_lt, fracOf_code neg hf.fb_lt, infPat,
    Nat.mul_div_cancel _ (Nat.two_pow_pos _), Nat.mul_mod_left]
  simp

theorem maxRat_eq : maxRat f = magOf f (maxFinite f) := by
  have hpos := Nat.two_pow_pos f.fb
  have hdbl := two_pow_double (Nat.succ_pos f.fb)
  rw [Nat.succ_sub_one] at hdbl
  have hb := hf.bias_pos
  have hmax : maxFinite f = (2 * f.bias - 1) * 2 ^ f.fb + (2 ^ (f.fb + 1) - 1) := by
    rw [hf.maxFinite_eq, hf.expMax_eq, show 2 * f.bias + 1 = (2 * f.bias - 1) + 1 + 1 by omega, Nat.succ_mul, Nat.succ_mul]
    omega
  rw [hmax, magOf_scale f (by omega) (.inr (by omega)), maxRat, hf.spec, Nat.cast_sub (by omega), Nat.cast_sub (by omega)]
  have he : ((2 * f.bias : Nat) : Int) - (1 : Nat) + 1 - f.bias - f.fb = f.bias + -(f.fb : Int) := by push_cast; ring
  have hcancel : (2 : ℚ) ^ f.fb * 2 ^ (-(f.fb : Int)) = 1 := by rw [zpow_neg, zpow_natCast]; exact mul_inv_cancel₀ (by positivity)
  rw [he, zpow_add₀ two_ne_zero]
  push_cast
  rw [pow_succ]
  linear_combination (-2 * (2 : ℚ) ^ (f.bias : Int)) * hcancel

end Ieee

/-! ## The single rounding (R139, R140) -/

/-- The bit count is exact on what its fuel reaches. -/
theorem bitLen_spec {k n : Nat} (h : n < 2 ^ k) : n < 2 ^ bitLen k n ∧ (n ≠ 0 → 2 ^ bitLen k n ≤ 2 * n) := by
  induction k generalizing n with
  | zero => simp_all [bitLen]
  | succ k ih =>
    rw [bitLen]
    split
    · next h0 => simp [h0]
    · next h0 =>
      obtain ⟨hlt, hle⟩ := ih (n := n / 2) (by rw [pow_succ] at h; omega)
      rw [pow_succ]
      refine ⟨by omega, fun _ => ?_⟩
      by_cases h1 : n / 2 = 0
      · have : bitLen k (n / 2) = 0 := by cases k <;> simp [bitLen, h1]
        rw [this]; omega
      · have := hle h1; omega

theorem roundInt_intCast (neg : Bool) (n : Int) (mode : Nat) : roundInt neg (n : ℚ) mode = n := by
  simp [roundInt]

theorem floor_le_roundInt (neg : Bool) (y : ℚ) (mode : Nat) : ⌊y⌋ ≤ roundInt neg y mode := by
  have := Int.floor_le_ceil y
  unfold roundInt
  dsimp only
  split_ifs <;> omega

theorem roundInt_le_of_le {neg : Bool} {y : ℚ} {mode : Nat} {n : Int} (h : y ≤ n) : roundInt neg y mode ≤ n := by
  rcases h.eq_or_lt with rfl | hlt
  · exact (roundInt_intCast neg n mode).le
  · have hfl : ⌊y⌋ < n := Int.floor_lt.mpr hlt
    have hce : ⌈y⌉ ≤ n := Int.ceil_le.mpr h
    unfold roundInt
    dsimp only
    split_ifs <;> omega

theorem le_roundInt_of_le {neg : Bool} {y : ℚ} {mode : Nat} {n : Int} (h : n ≤ y) : n ≤ roundInt neg y mode :=
  (Int.le_floor.mpr h).trans (floor_le_roundInt ..)

theorem two_zpow_toNat {i : Int} (h : 0 ≤ i) : (2 : ℚ) ^ i = ((2 ^ i.toNat : Nat) : ℚ) := by
  rw [Nat.cast_pow, ← zpow_natCast, Int.toNat_of_nonneg h, Nat.cast_two]

/-- Whether a quotient with a remainder goes up to the next integer under a mode. -/
def goesUp (neg : Bool) (mode quo rem d : Nat) : Bool :=
  match mode with
  | 0 => d < 2 * rem || (d == 2 * rem && quo % 2 == 1)
  | 1 => false
  | 2 => !neg
  | _ => neg

/-- A quotient of numbers rounds to the whole quotient, or to the next integer where there is a remainder that goes up. -/
theorem roundInt_div (neg : Bool) (m mode : Nat) {d : Nat} (hd : 0 < d) : roundInt neg ((m : ℚ) / d) mode =
    ((m / d : Nat) : Int) + if m % d ≠ 0 ∧ goesUp neg mode (m / d) (m % d) d = true then 1 else 0 := by
  have hd' : (0 : ℚ) < d := by exact_mod_cast hd
  have hy : (m : ℚ) / d = ((m / d : Nat) : Int) + ((m % d : Nat) : ℚ) / d := by
    rw [div_eq_iff hd'.ne', add_mul, div_mul_cancel₀ _ hd'.ne', Int.cast_natCast, ← Nat.cast_mul, ← Nat.cast_add, Nat.div_add_mod']
  by_cases h0 : m % d = 0
  · rw [hy, h0, Nat.cast_zero, zero_div, add_zero, roundInt_intCast]
    simp
  have hpos : (0 : ℚ) < ((m % d : Nat) : ℚ) / d := div_pos (by exact_mod_cast Nat.pos_of_ne_zero h0) hd'
  have hlt : ((m % d : Nat) : ℚ) / d < 1 := by rw [div_lt_one hd']; exact_mod_cast Nat.mod_lt m hd
  have hfl : ⌊(m : ℚ) / d⌋ = ((m / d : Nat) : Int) := by
    rw [Int.floor_eq_iff, hy]
    constructor <;> linarith
  have hce : ⌈(m : ℚ) / d⌉ = ((m / d : Nat) : Int) + 1 := by
    rw [Int.ceil_eq_iff, hy, Int.cast_add, Int.cast_one]
    constructor <;> linarith
  have hfr : (m : ℚ) / d - (((m / d : Nat) : Int) : ℚ) = ((m % d : Nat) : ℚ) / d := by rw [hy]; ring
  have hnear : (1 : ℚ) / 2 < ((m % d : Nat) : ℚ) / d ↔ d < 2 * (m % d) := by
    rw [div_lt_div_iff₀ two_pos hd', one_mul, mul_comm]
    exact_mod_cast Iff.rfl
  have hfar : ((m % d : Nat) : ℚ) / d < 1 / 2 ↔ 2 * (m % d) < d := by
    rw [div_lt_div_iff₀ hd' two_pos, one_mul, mul_comm]
    exact_mod_cast Iff.rfl
  simp only [roundInt, hfl, hce, hfr, hnear, hfar]
  match mode with
  | 0 =>
    simp only [goesUp, Bool.or_eq_true, Bool.and_eq_true, decide_eq_true_eq, beq_iff_eq]
    generalize m / d = quo at *
    generalize m % d = rem at *
    split_ifs <;> omega
  | 1 => simp [goesUp]
  | 2 => cases neg <;> simp [goesUp, h0]
  | mode + 3 => cases neg <;> simp [goesUp, h0]

/-- Below the unit, the model's rounding is a division with a remainder; a number far below it is cut short. -/
theorem roundTo_of_lt (neg : Bool) {m : Nat} {e q : Int} (mode : Nat) (hm : m < 2 ^ 8192) (h : e < q) :
    roundTo neg m e q mode = (let d := 2 ^ (q - e).toNat
      (if m % d ≠ 0 ∧ goesUp neg mode (m / d) (m % d) d = true then m / d + 1 else m / d, decide (m % d ≠ 0))) := by
  have hq : ¬ q ≤ e := by omega
  by_cases hl : bitLen 8192 m < (q - e).toNat
  · have hd : 2 ^ (bitLen 8192 m + 1) ≤ 2 ^ (q - e).toNat := Nat.pow_le_pow_right two_pos hl
    have hm2 : m < 2 ^ bitLen 8192 m := (bitLen_spec hm).1
    rw [pow_succ] at hd
    have h0 : m / 2 ^ (q - e).toNat = 0 := Nat.div_eq_of_lt (by omega)
    have hr : m % 2 ^ (q - e).toNat = m := Nat.mod_eq_of_lt (by omega)
    have hn : goesUp neg 0 0 m (2 ^ (q - e).toNat) = false := by
      simp [goesUp]
      omega
    simp only [roundTo, hq, hl, h0, hr, if_true, if_false]
    match mode with
    | 0 => simp [hn]
    | 1 | 2 | k + 3 => by_cases hm0 : m = 0 <;> simp [hm0, goesUp]
  · simp only [roundTo, hq, hl, if_false]
    match mode with
    | 0 | 1 | 2 | k + 3 => by_cases hm0 : m % 2 ^ (q - e).toNat = 0 <;> simp [hm0, goesUp]

/-- The model rounds as R139 says, and says whether that was inexact. -/
theorem roundTo_eq (neg : Bool) {m : Nat} (e q : Int) (mode : Nat) (hm : m < 2 ^ 8192) :
    let y : ℚ := m * 2 ^ e / 2 ^ q
    ((roundTo neg m e q mode).1 : Int) = roundInt neg y mode ∧ (roundTo neg m e q mode).2 = decide ((roundInt neg y mode : ℚ) ≠ y) := by
  intro y
  by_cases h : q ≤ e
  · have hy : y = ((m * 2 ^ (e - q).toNat : Nat) : Int) := by
      rw [Int.cast_natCast, Nat.cast_mul, ← two_zpow_toNat (by omega), zpow_sub₀ two_ne_zero, ← mul_div_assoc]
    rw [hy, roundInt_intCast, roundTo, if_pos h]
    simp
  · have hd : 0 < 2 ^ (q - e).toNat := Nat.two_pow_pos _
    have hd' : ((2 ^ (q - e).toNat : Nat) : ℚ) ≠ 0 := by exact_mod_cast hd.ne'
    have hy : y = (m : ℚ) / (2 ^ (q - e).toNat : Nat) := by
      rw [← two_zpow_toNat (by omega), zpow_sub₀ two_ne_zero, div_div_eq_mul_div]
    have hint : (roundInt neg y mode : ℚ) = y ↔ m % 2 ^ (q - e).toNat = 0 := by
      constructor
      · intro hn
        obtain ⟨n, hn⟩ : ∃ n : Int, (n : ℚ) = y := ⟨_, hn⟩
        rw [hy, eq_div_iff hd'] at hn
        have hdvd : ((2 ^ (q - e).toNat : Nat) : Int) ∣ m := ⟨n, by rw [mul_comm]; exact_mod_cast hn.symm⟩
        exact Nat.mod_eq_zero_of_dvd (Int.natCast_dvd_natCast.mp hdvd)
      · intro h0
        rw [hy, roundInt_div neg m mode hd, eq_div_iff hd']
        have := Nat.div_mul_cancel (Nat.dvd_of_mod_eq_zero h0)
        simp only [h0, ne_eq, not_true_eq_false, false_and, if_false, add_zero, Int.cast_natCast]
        exact_mod_cast this
    rw [roundTo_of_lt neg mode hm (by omega)]
    refine ⟨?_, ?_⟩
    · rw [hy, roundInt_div neg m mode hd]
      dsimp only
      split_ifs <;> simp
    · simp only [ne_eq, hint]

/-- The code of r steps of 2^q, as the rounding writes it. -/
def codeAt (f : Fmt) (q : Int) (r : Nat) : Nat := ((q + f.bias + f.fb) * 2 ^ f.fb + r - 2 ^ f.fb).toNat

/-- A magnitude rounded in the steps of the binade of 2^k. -/
def nearAt (f : Fmt) (neg : Bool) (x : ℚ) (mode : Nat) (k : Int) : ℚ := roundInt neg (x / 2 ^ (k - f.fb)) mode * 2 ^ (k - f.fb)

/-- The exponent of a number's highest bit. -/
def topOf (m : Nat) (e : Int) : Int := e + bitLen 8192 m - 1

/-- The exponent of the highest bit once a number is rounded as if the exponent range were unbounded. -/
def topUp (f : Fmt) (neg : Bool) (m : Nat) (e : Int) (mode : Nat) : Int :=
  if (roundTo neg m e (topOf m e - f.fb) mode).1 = 2 ^ (f.fb + 1) then topOf m e + 1 else topOf m e

theorem natCast_two_pow_mul (n : Nat) (i : Int) : ((2 ^ n : Nat) : ℚ) * 2 ^ i = 2 ^ (n + i) := by
  rw [Nat.cast_pow, Nat.cast_two, ← zpow_natCast, ← zpow_add₀ two_ne_zero]

theorem magOf_codeAt (f : Fmt) {q : Int} {r : Nat} (hq : 1 - (f.bias : Int) - f.fb ≤ q) (hr : r ≤ 2 ^ (f.fb + 1))
    (hlow : q = 1 - (f.bias : Int) - f.fb ∨ 2 ^ f.fb ≤ r) : magOf f (codeAt f q r) = r * 2 ^ q := by
  obtain ⟨j, hj⟩ := Int.eq_ofNat_of_zero_le (a := q - (1 - f.bias - f.fb)) (by omega)
  have hcode : codeAt f q r = j * 2 ^ f.fb + r := by
    have : (q + f.bias + f.fb) * 2 ^ f.fb + r - 2 ^ f.fb = ((j * 2 ^ f.fb + r : Nat) : Int) := by
      rw [show q + f.bias + f.fb = j + 1 by omega]
      push_cast
      ring
    rw [codeAt, this, Int.toNat_natCast]
  rw [hcode, magOf_scale f hr (hlow.imp_left (by omega)), show (j : Int) + 1 - f.bias - f.fb = q by omega]

/-- Just below the least normal binade, the full count of steps is the least normal number. -/
theorem codeAt_full (f : Fmt) : codeAt f (1 - (f.bias : Int) - f.fb - 1) (2 ^ (f.fb + 1)) = 2 ^ f.fb := by
  have : ((1 - (f.bias : Int) - f.fb - 1) + f.bias + f.fb) * 2 ^ f.fb + (2 ^ (f.fb + 1) : Nat) - 2 ^ f.fb = ((2 ^ f.fb : Nat) : Int) := by
    push_cast
    ring
  rw [codeAt, this, Int.toNat_natCast]

theorem magOf_minNormal (f : Fmt) : magOf f (2 ^ f.fb) = 2 ^ (1 - (f.bias : Int)) := by
  have h := magOf_scale f (j := 0) (r := 2 ^ f.fb) (Nat.pow_le_pow_right two_pos (Nat.le_succ _)) (.inl rfl)
  rw [Nat.zero_mul, Nat.zero_add] at h
  rw [h, natCast_two_pow_mul]
  congr 1
  push_cast
  ring

theorem rnd_eq_codes (f : Fmt) (neg : Bool) {m : Nat} (e : Int) (mode : Nat) (sat : Bool) (hm : m ≠ 0) : rnd f neg m e mode sat =
    (let q := max (topOf m e) (1 - (f.bias : Int)) - f.fb
     let r := roundTo neg m e q mode
     if 1 - (f.bias : Int) ≤ topUp f neg m e mode ∧
         maxFinite f < codeAt f (topOf m e - f.fb) (roundTo neg m e (topOf m e - f.fb) mode).1 then (overflowPat f neg mode sat, 20#5)
     else (signBit f neg + codeAt f q r.1, if r.2 then (if topUp f neg m e mode < 1 - (f.bias : Int) then 24#5 else 16#5) else 0)) := by
  have hq : (if topOf m e - (f.fb : Int) < 1 - (f.bias : Int) - f.fb then 1 - (f.bias : Int) - f.fb else topOf m e - f.fb) =
      max (topOf m e) (1 - (f.bias : Int)) - f.fb := by split <;> omega
  rw [rnd, if_neg hm]
  dsimp only
  rw [← hq]
  simp only [Bool.and_eq_true, decide_eq_true_eq]
  rfl

section
variable {m : Nat} {e : Int} {x : ℚ}

theorem two_zpow_top (hm : m ≠ 0) (hlt : m < 2 ^ 8192) : (2 : ℚ) ^ topOf m e ≤ m * 2 ^ e ∧ (m : ℚ) * 2 ^ e < 2 ^ (topOf m e + 1) := by
  obtain ⟨hu, hl⟩ := bitLen_spec hlt
  have hu' : (m : ℚ) < 2 ^ (bitLen 8192 m : Int) := by rw [zpow_natCast]; exact_mod_cast hu
  have hl' : (2 : ℚ) ^ (bitLen 8192 m : Int) ≤ 2 * m := by rw [zpow_natCast]; exact_mod_cast hl hm
  have he : (0 : ℚ) < 2 ^ e := by positivity
  clear hlt
  constructor
  · rw [topOf, zpow_sub_one₀ two_ne_zero, zpow_add₀ two_ne_zero]
    nlinarith
  · rw [topOf, sub_add_cancel, zpow_add₀ two_ne_zero]
    nlinarith

theorem nearAt_eq_roundTo (f : Fmt) (neg : Bool) (mode : Nat) (hlt : m < 2 ^ 8192) (hx : x = m * 2 ^ e) (k : Int) :
    nearAt f neg x mode k = (roundTo neg m e (k - f.fb) mode).1 * 2 ^ (k - f.fb) := by
  rw [nearAt, hx, ← (roundTo_eq neg e (k - f.fb) mode hlt).1, Int.cast_natCast]

theorem roundTo_inexact (f : Fmt) (neg : Bool) (mode : Nat) (hlt : m < 2 ^ 8192) (hx : x = m * 2 ^ e) (k : Int) :
    (roundTo neg m e (k - f.fb) mode).2 = decide (nearAt f neg x mode k ≠ x) := by
  rw [(roundTo_eq neg e (k - f.fb) mode hlt).2, nearAt, ← hx, decide_eq_decide, not_iff_not, eq_div_iff (by positivity)]

variable (f : Fmt) (neg : Bool) (mode : Nat) (hm : m ≠ 0) (hlt : m < 2 ^ 8192)
include hlt hm

/-- In the steps of its own binade a number rounds to between half and all of the binade's steps. -/
theorem roundTo_top : 2 ^ f.fb ≤ (roundTo neg m e (topOf m e - f.fb) mode).1 ∧
    (roundTo neg m e (topOf m e - f.fb) mode).1 ≤ 2 ^ (f.fb + 1) := by
  obtain ⟨hl, hu⟩ := two_zpow_top (e := e) hm hlt
  have hr := (roundTo_eq neg e (topOf m e - f.fb) mode hlt).1
  have hstep : (0 : ℚ) < 2 ^ (topOf m e - (f.fb : Int)) := by positivity
  have hle : (((2 ^ f.fb : Nat) : Int) : ℚ) ≤ m * 2 ^ e / 2 ^ (topOf m e - f.fb) := by
    rw [le_div_iff₀ hstep, Int.cast_natCast, natCast_two_pow_mul]
    rwa [add_sub_cancel]
  have hge : (m : ℚ) * 2 ^ e / 2 ^ (topOf m e - f.fb) ≤ ((2 ^ (f.fb + 1) : Nat) : Int) := by
    rw [div_le_iff₀ hstep, Int.cast_natCast, natCast_two_pow_mul]
    refine hu.le.trans_eq (congrArg _ ?_)
    push_cast
    ring
  constructor
  · exact_mod_cast hr ▸ le_roundInt_of_le hle
  · exact_mod_cast hr ▸ roundInt_le_of_le hge

/-- In the steps of a higher binade it rounds to no more than half of that binade's steps. -/
theorem roundTo_above {k : Int} (hk : topOf m e < k) : (roundTo neg m e (k - f.fb) mode).1 ≤ 2 ^ f.fb := by
  have hu := (two_zpow_top (e := e) hm hlt).2
  have hr := (roundTo_eq neg e (k - f.fb) mode hlt).1
  have hge : (m : ℚ) * 2 ^ e / 2 ^ (k - f.fb) ≤ ((2 ^ f.fb : Nat) : Int) := by
    rw [div_le_iff₀ (by positivity), Int.cast_natCast, natCast_two_pow_mul, add_sub_cancel]
    exact hu.le.trans (zpow_le_zpow_right₀ one_le_two (by omega))
  exact_mod_cast hr ▸ roundInt_le_of_le hge

variable (hx : x = m * 2 ^ e)
include hx

/-- The unbounded rounding lies in the binade of its highest bit. -/
theorem nearAt_top_mem : (2 : ℚ) ^ topUp f neg m e mode ≤ nearAt f neg x mode (topOf m e) ∧
    nearAt f neg x mode (topOf m e) < 2 ^ (topUp f neg m e mode + 1) := by
  obtain ⟨hl, hu⟩ := roundTo_top (e := e) f neg mode hm hlt
  have hstep : (0 : ℚ) < 2 ^ (topOf m e - (f.fb : Int)) := by positivity
  have hscale (i : Nat) : (2 : ℚ) ^ (topOf m e + i) = ((2 ^ (f.fb + i) : Nat) : ℚ) * 2 ^ (topOf m e - f.fb) := by
    rw [natCast_two_pow_mul]
    congr 1
    push_cast
    ring
  rw [nearAt_eq_roundTo f neg mode hlt hx, topUp]
  split
  · next hfull =>
    rw [hfull, ← hscale 1]
    exact ⟨le_rfl, zpow_lt_zpow_right₀ one_lt_two (by omega)⟩
  · next hpart =>
    have h0 := hscale 0
    have h1 := hscale 1
    rw [Nat.cast_zero, add_zero, add_zero] at h0
    rw [Nat.cast_one] at h1
    rw [h0, h1]
    exact ⟨mul_le_mul_of_nonneg_right (by exact_mod_cast hl) hstep.le,
      mul_lt_mul_of_pos_right (by exact_mod_cast lt_of_le_of_ne hu hpart) hstep⟩

theorem nearAt_top_lt_iff (i : Int) : nearAt f neg x mode (topOf m e) < 2 ^ i ↔ topUp f neg m e mode < i := by
  obtain ⟨hl, hu⟩ := nearAt_top_mem f neg mode hm hlt hx
  constructor
  · intro h
    exact (zpow_lt_zpow_iff_right₀ one_lt_two).mp (hl.trans_lt h)
  · intro h
    exact hu.trans_le (zpow_le_zpow_right₀ one_le_two (by omega))

/-- From the least normal binade on, the code of the unbounded rounding has its magnitude. -/
theorem magOf_codeAt_top (h : 1 - (f.bias : Int) ≤ topUp f neg m e mode) :
    magOf f (codeAt f (topOf m e - f.fb) (roundTo neg m e (topOf m e - f.fb) mode).1) = nearAt f neg x mode (topOf m e) := by
  obtain ⟨hl, hu⟩ := roundTo_top (e := e) f neg mode hm hlt
  rw [nearAt_eq_roundTo f neg mode hlt hx]
  by_cases hk : 1 - (f.bias : Int) ≤ topOf m e
  · exact magOf_codeAt f (by omega) hu (.inr hl)
  · have hfull : (roundTo neg m e (topOf m e - f.fb) mode).1 = 2 ^ (f.fb + 1) := by
      by_contra hpart
      rw [topUp, if_neg hpart] at h
      exact hk h
    rw [topUp, if_pos hfull] at h
    have hq : topOf m e - f.fb = 1 - (f.bias : Int) - f.fb - 1 := by omega
    rw [hfull, hq, codeAt_full, magOf_minNormal, natCast_two_pow_mul]
    congr 1
    push_cast
    ring

/-- The model finds an overflow where the unbounded rounding exceeds the largest finite number. -/
theorem overflow_iff (hf : Ieee f) : (1 - (f.bias : Int) ≤ topUp f neg m e mode ∧
    maxFinite f < codeAt f (topOf m e - f.fb) (roundTo neg m e (topOf m e - f.fb) mode).1) ↔
      maxRat f < nearAt f neg x mode (topOf m e) := by
  rw [hf.maxRat_eq]
  by_cases h : 1 - (f.bias : Int) ≤ topUp f neg m e mode
  · rw [← magOf_codeAt_top f neg mode hm hlt hx h, (magOf_strictMono f).lt_iff_lt]
    exact and_iff_right h
  · have hlow := (nearAt_top_lt_iff f neg mode hm hlt hx (1 - f.bias)).mpr (by omega)
    rw [← magOf_minNormal] at hlow
    have hmax := (magOf_strictMono f).monotone hf.minNormal_le
    exact iff_of_false (fun hc => h hc.1) (not_lt.mpr (hlow.le.trans hmax))

/-- Without an overflow the delivered code is finite and has the magnitude of the rounding in the format's own steps. -/
theorem magOf_codeAt_finite (hf : Ieee f) (ho : ¬ maxRat f < nearAt f neg x mode (topOf m e)) :
    let k := max (topOf m e) (1 - (f.bias : Int))
    let c := codeAt f (k - f.fb) (roundTo neg m e (k - f.fb) mode).1
    c ≤ maxFinite f ∧ magOf f c = nearAt f neg x mode k := by
  intro k c
  by_cases h : 1 - (f.bias : Int) ≤ topOf m e
  · have hk : k = topOf m e := max_eq_left h
    have hup : 1 - (f.bias : Int) ≤ topUp f neg m e mode := by rw [topUp]; split <;> omega
    rw [← overflow_iff f neg mode hm hlt hx hf] at ho
    simp only [c, hk]
    exact ⟨not_lt.mp fun hc => ho ⟨hup, hc⟩, magOf_codeAt_top f neg mode hm hlt hx hup⟩
  · have hk : k = 1 - (f.bias : Int) := max_eq_right (by omega)
    have hr : (roundTo neg m e (k - f.fb) mode).1 ≤ 2 ^ f.fb := roundTo_above f neg mode hm hlt (by omega)
    have hmag : magOf f c = (roundTo neg m e (k - f.fb) mode).1 * 2 ^ (k - f.fb) :=
      magOf_codeAt f (by omega) (hr.trans (Nat.pow_le_pow_right two_pos (Nat.le_succ _))) (.inl (by omega))
    refine ⟨le_trans ?_ hf.minNormal_le, hmag.trans (nearAt_eq_roundTo f neg mode hlt hx k).symm⟩
    rw [← (magOf_strictMono f).le_iff_le, hmag, magOf_minNormal, hk, sub_eq_add_neg, zpow_add₀ two_ne_zero, mul_left_comm]
    refine mul_le_of_le_one_right (by positivity) ?_
    rw [zpow_neg, zpow_natCast, ← div_eq_mul_inv, div_le_one (by positivity)]
    exact_mod_cast hk ▸ hr

end

/-- An overflow delivers an infinity, under a mode that rounds away from zero; else the largest finite number (R140). -/
def toInf (f : Fmt) (neg : Bool) (mode : Nat) (sat : Bool) : Bool :=
  f.spec == .ieee && !sat && (mode == 0 || (mode == 2 && !neg) || (mode == 3 && neg))

theorem overflowPat_eq {f : Fmt} (hf : Ieee f) (neg : Bool) {mode : Nat} (sat : Bool) (hmode : mode < 4) :
    overflowPat f neg mode sat = signBit f neg + if toInf f neg mode sat = true then infPat f else maxFinite f := by
  match mode with
  | 0 | 1 => cases sat <;> simp [overflowPat, toInf, hf.spec]
  | 2 | 3 => cases sat <;> cases neg <;> simp [overflowPat, toInf, hf.spec]

/-- The rounding law at the binade that holds the number. -/
theorem rounds_at {f : Fmt} {neg sat : Bool} {mode p : Nat} {fl : BitVec 5} {x : ℚ} {t : Int} (hl : (2 : ℚ) ^ t ≤ |x|)
    (hu : |x| < 2 ^ (t + 1))
    (h : let k := max t (1 - (f.bias : Int))
      if maxRat f < nearAt f neg |x| mode t then
        (if toInf f neg mode sat = true then IsInf f p neg else IsNum f p neg (maxRat f)) ∧ fl = 20#5
      else IsNum f p neg (nearAt f neg |x| mode k) ∧
        fl = if nearAt f neg |x| mode k = |x| then 0 else if nearAt f neg |x| mode t < 2 ^ (1 - (f.bias : Int)) then 24#5 else 16#5) :
    Rounds f mode sat neg x p fl := by
  refine ⟨fun h0 => ?_, fun k hl' hu' => ?_⟩
  · rw [h0, abs_zero] at hl
    exact absurd hl (not_le.mpr (by positivity))
  · have h1 := (zpow_lt_zpow_iff_right₀ (one_lt_two (α := ℚ))).mp (hl.trans_lt hu')
    have h2 := (zpow_lt_zpow_iff_right₀ (one_lt_two (α := ℚ))).mp (hl'.trans_lt hu)
    obtain rfl : k = t := by omega
    exact h

/-- Zero rounds to itself, with the sign it is given. -/
theorem rounds_zero {f : Fmt} (hf : Ieee f) (neg sat : Bool) (mode : Nat) : Rounds f mode sat neg 0 (signBit f neg) 0 := by
  have hnum := hf.isNum_code neg (Nat.zero_le _)
  have hmag : magOf f 0 = 0 := by simp [magOf]
  rw [hmag] at hnum
  refine ⟨fun _ => ⟨hnum, rfl⟩, fun k hk => ?_⟩
  rw [abs_zero] at hk
  exact absurd hk (not_le.mpr (by positivity))

/-- The model's one rounding of a number is R139's and R140's, and gives a pattern of the format. -/
theorem rounds_rnd {f : Fmt} (hf : Ieee f) {neg : Bool} {m : Nat} {e : Int} {x : ℚ} {mode : Nat} (sat : Bool) (hmode : mode < 4)
    (hlt : m < 2 ^ 8192) (hx : |x| = m * 2 ^ e) :
    Rounds f mode sat neg x (rnd f neg m e mode sat).1 (rnd f neg m e mode sat).2 ∧ (rnd f neg m e mode sat).1 < 2 ^ f.w := by
  by_cases hm : m = 0
  · obtain rfl : x = 0 := by simpa [hm] using hx
    rw [rnd, if_pos hm]
    exact ⟨rounds_zero hf neg sat mode, signBit_add_lt (c := 0) neg hf.w_pos (Nat.two_pow_pos _)⟩
  obtain ⟨hl, hu⟩ := two_zpow_top (e := e) hm hlt
  rw [← hx] at hl hu
  rw [rnd_eq_codes f neg e mode sat hm]
  simp only [overflow_iff f neg mode hm hlt hx hf]
  by_cases ho : maxRat f < nearAt f neg |x| mode (topOf m e)
  · rw [if_pos ho, overflowPat_eq hf neg sat hmode]
    refine ⟨rounds_at hl hu ?_, signBit_add_lt neg hf.w_pos ?_⟩
    · dsimp only
      rw [if_pos ho]
      refine ⟨?_, rfl⟩
      split
      · exact hf.isInf_infPat neg
      · exact hf.maxRat_eq ▸ hf.isNum_code neg le_rfl
    · split
      · exact hf.infPat_lt
      · exact hf.maxFinite_lt
  · obtain ⟨hle, hmag⟩ := magOf_codeAt_finite f neg mode hm hlt hx hf ho
    rw [if_neg ho]
    refine ⟨rounds_at hl hu ?_, signBit_add_lt neg hf.w_pos (hle.trans_lt hf.maxFinite_lt)⟩
    dsimp only
    rw [if_neg ho]
    refine ⟨hmag ▸ hf.isNum_code neg hle, ?_⟩
    simp only [roundTo_inexact f neg mode hlt hx, ← nearAt_top_lt_iff f neg mode hm hlt hx, decide_eq_true_eq, ne_eq, ite_not]

end Sys2Proof.Machine
end

section
/-! Sums and extremes of a lane (R141, R159, R160), and a step of a fold (R178, R183): the model's value and flags are those of `FoldRule`. -/

namespace Sys2Proof.Machine

open Sys2Proof Sys2Proof.Safety

/-! ## Decoded patterns (R136, R141) -/

/-- What a decoded value that is no NaN stands for; of a NaN it says nothing of use. -/
def FV.exact : FV → Exact
  | .nan neg _ _ _ => .inf neg
  | .inf neg => .inf neg
  | .num neg m e => .num neg ((if neg then -1 else 1) * (m * 2 ^ e))

/-- Small enough for an exact sum that the model's bit count reaches. -/
def FV.Small : FV → Prop
  | .num _ m e => m < 2 ^ 512 ∧ -3000 ≤ e ∧ e ≤ 3000
  | _ => True

/-- The top fraction bit, by a comparison. -/
theorem bit_top {n v : Nat} (hn : 0 < n) (hv : v < 2 ^ n) : bit v (n - 1) = !decide (v < 2 ^ (n - 1)) := by
  obtain ⟨k, rfl⟩ : ∃ k, n = k + 1 := ⟨n - 1, by omega⟩
  rw [Nat.add_sub_cancel, bit]
  by_cases hlt : v < 2 ^ k
  · simp [Nat.div_eq_of_lt hlt, hlt]
  · have h1 : v / 2 ^ k = 1 := Nat.div_eq_of_lt_le (by omega) (by rw [pow_succ] at hv; omega)
    simp [h1, hlt]

namespace Ieee
variable {f : Fmt} (hf : Ieee f)
include hf

/-- The decoder by the classes of R136. -/
theorem fdec_eq (p : Nat) : fdec f p = if isNaN f p = true then .nan (signOf f p) (fracOf f p) f.fb (isSNaN f p)
    else if isInf f p = true then .inf (signOf f p)
    else if expOf f p = 0 then .num (signOf f p) (fracOf f p) (1 - (f.bias : Int) - f.fb)
    else .num (signOf f p) (fracOf f p + 2 ^ f.fb) ((expOf f p : Int) - f.bias - f.fb) := by
  have hw := hf.width
  have hexp : bits p (f.w - 2) f.fb = expOf f p := by rw [bits, expOf]; congr 2; omega
  have hspecial : isSpecial f p = decide (expOf f p = expMax f) := by
    rw [isSpecial, hf.spec, ← expMax_add_one]
    simp [Bool.beq_eq_decide_eq]
  have hquiet : (!bit (p % 2 ^ f.fb) (f.fb - 1)) = decide (fracOf f p < 2 ^ (f.fb - 1)) := by
    rw [bit_top hf.fb_pos (Nat.mod_lt _ (Nat.two_pow_pos _)), Bool.not_not, fracOf]
  have hnan : isNaN f p = (decide (expOf f p = expMax f) && fracOf f p != 0) := by rw [isNaN, hspecial, hf.spec]; simp
  have hfields : fdec f p = if expOf f p = expMax f then
        (if fracOf f p = 0 then .inf (signOf f p) else .nan (signOf f p) (fracOf f p) f.fb (!bit (p % 2 ^ f.fb) (f.fb - 1)))
      else if expOf f p = 0 then .num (signOf f p) (fracOf f p) (1 - (f.bias : Int) - f.fb)
      else .num (signOf f p) (fracOf f p + 2 ^ f.fb) ((expOf f p : Int) - f.bias - f.fb) := by
    rw [fdec, hf.spec, hexp]
    rfl
  rw [hfields, hquiet, hnan, isInf, isSNaN, hspecial]
  by_cases h1 : expOf f p = expMax f <;> by_cases h2 : fracOf f p = 0 <;> simp [h1, h2]

theorem isNaN_fdec (p : Nat) : (fdec f p).isNaN = isNaN f p := by
  rw [hf.fdec_eq]
  split_ifs with h1 h2 h3 <;> simp [FV.isNaN, h1]

theorem isSNaN_fdec (p : Nat) : (fdec f p).isSNaN = isSNaN f p := by
  rw [hf.fdec_eq]
  by_cases h1 : isNaN f p = true
  · rw [if_pos h1, FV.isSNaN]
  · have hs : isSNaN f p = false := by
      rw [isNaN, hf.spec] at h1
      rw [isSNaN]
      simp_all
    rw [if_neg h1]
    split_ifs <;> simp [FV.isSNaN, hs]

theorem exact_fdec {p : Nat} (h : isNaN f p = false) : (fdec f p).exact = exactOf f p := by
  rw [hf.fdec_eq, if_neg (by simp [h]), exactOf, ratOf]
  split_ifs <;> simp_all [FV.exact, add_comm]

theorem small_fdec (p : Nat) : (fdec f p).Small := by
  have hexp : expOf f p < 2 ^ (f.w - 1 - f.fb) := Nat.mod_lt _ (Nat.two_pow_pos _)
  have hfrac : fracOf f p < 2 ^ f.fb := Nat.mod_lt _ (Nat.two_pow_pos _)
  have hfb : 2 ^ f.fb ≤ 2 ^ 52 := Nat.pow_le_pow_right two_pos hf.fb_le
  have h1 := hf.bias_le
  have h2 := hf.fb_le
  have h3 := hf.expMax_eq
  rw [← expMax_add_one] at hexp
  rw [hf.fdec_eq]
  split_ifs <;> simp only [FV.Small] <;> omega

/-- A NaN is made quiet by its top fraction bit. -/
theorem quiet_frac {g : Nat} (hg : g < 2 ^ f.fb) :
    (if bit g (f.fb - 1) = true then g else g + 2 ^ (f.fb - 1)) = g ||| 2 ^ (f.fb - 1) := by
  have hk := two_pow_double hf.fb_pos
  have hadd {r : Nat} (hr : r < 2 ^ (f.fb - 1)) : r + 2 ^ (f.fb - 1) = r ||| 2 ^ (f.fb - 1) := by
    rw [Nat.add_comm, Nat.or_comm]
    simpa using Nat.two_pow_add_eq_or_of_lt hr 1
  rw [bit_top hf.fb_pos hg]
  by_cases hlow : g < 2 ^ (f.fb - 1)
  · simpa [hlow] using hadd hlow
  · obtain ⟨r, rfl⟩ := Nat.exists_eq_add_of_le' (not_lt.mp hlow)
    rw [if_pos (by simp), hadd (by omega), Nat.or_assoc, Nat.or_self]

/-- A NaN delivered in its own format is its quiet form. -/
theorem nanTo_self (neg : Bool) {p : Nat} (h : signOf f p = neg) :
    NaNTo f f p (nanTo f neg (fracOf f p) f.fb).1 ∧ (nanTo f neg (fracOf f p) f.fb).1 < 2 ^ f.w ∧
      (nanTo f neg (fracOf f p) f.fb).2 = 0 := by
  have hfrac : fracOf f p < 2 ^ f.fb := Nat.mod_lt _ (Nat.two_pow_pos _)
  have hquiet : fracOf f p ||| 2 ^ (f.fb - 1) < 2 ^ f.fb :=
    Nat.or_lt_two_pow hfrac (Nat.pow_lt_pow_right one_lt_two (by have := hf.fb_pos; omega))
  have hcode : expMax f * 2 ^ f.fb + (fracOf f p ||| 2 ^ (f.fb - 1)) < 2 ^ (f.w - 1) := by rw [hf.two_pow_sign_eq]; omega
  have hpat : nanTo f neg (fracOf f p) f.fb = (signBit f neg + (expMax f * 2 ^ f.fb + (fracOf f p ||| 2 ^ (f.fb - 1))), 0) := by
    rw [nanTo, hf.spec]
    simp only [le_refl, if_true, Nat.sub_self, pow_zero, Nat.div_one, hf.quiet_frac hfrac, Nat.add_assoc]
  have hdiv : (expMax f * 2 ^ f.fb + (fracOf f p ||| 2 ^ (f.fb - 1))) / 2 ^ f.fb = expMax f := by
    rw [Nat.add_comm, Nat.add_mul_div_right _ _ (Nat.two_pow_pos _), Nat.div_eq_of_lt hquiet, Nat.zero_add]
  have hmod : (expMax f * 2 ^ f.fb + (fracOf f p ||| 2 ^ (f.fb - 1))) % 2 ^ f.fb = fracOf f p ||| 2 ^ (f.fb - 1) := by
    rw [Nat.add_comm, Nat.add_mul_mod_self_right, Nat.mod_eq_of_lt hquiet]
  have hpos : fracOf f p ||| 2 ^ (f.fb - 1) ≠ 0 := by
    have := Nat.right_le_or (n := fracOf f p) (m := 2 ^ (f.fb - 1))
    have := Nat.two_pow_pos (f.fb - 1)
    omega
  rw [hpat]
  refine ⟨?_, signBit_add_lt neg hf.w_pos hcode, rfl⟩
  rw [NaNTo, hf.spec]
  refine ⟨?_, (signOf_code neg hcode).trans h.symm, ?_⟩
  · rw [isNaN, hf.isSpecial_code neg hcode, fracOf_code neg hf.fb_lt, hdiv, hmod]
    simp [hpos]
  · rw [fracOf_code neg hf.fb_lt, hmod]
    simp

theorem defaultNaN_eq : defaultNaN f = defaultNaNAt f := by
  have hk := two_pow_double hf.fb_pos
  have := hf.two_pow_sign_eq
  have := Nat.two_pow_pos (f.fb - 1)
  rw [defaultNaN, defaultNaNAt, hf.spec]
  dsimp only
  omega

theorem defaultNaN_lt : defaultNaN f < 2 ^ f.w := by
  rw [hf.defaultNaN_eq, defaultNaNAt, hf.spec]
  exact (Nat.sub_le ..).trans_lt (Nat.pow_lt_pow_right one_lt_two (Nat.sub_lt hf.w_pos one_pos))

end Ieee

theorem first?_map {α β : Type} (g : α → β) (p : β → Bool) (l : List α) : first? p (l.map g) = (first? (p ∘ g) l).map g := by
  induction l with
  | nil => rfl
  | cons a l ih =>
    rw [List.map_cons, first?, first?, ih, Function.comp_apply]
    split <;> rfl

theorem first?_some {α : Type} {p : α → Bool} {l : List α} {a : α} (h : first? p l = some a) : p a = true := by
  induction l with
  | nil => cases h
  | cons b l ih =>
    rw [first?] at h
    split at h
    · next hb => exact Option.some.inj h ▸ hb
    · exact ih h

namespace Ieee
variable {f : Fmt} (hf : Ieee f)
include hf

theorem first?_isNaN (l : List Nat) : first? FV.isNaN (l.map (fdec f)) = (first? (isNaN f) l).map (fdec f) := by
  rw [first?_map, show FV.isNaN ∘ fdec f = isNaN f from funext hf.isNaN_fdec]

/-- The first NaN of a list of operands is delivered quiet, with NV where one of them signals (R141). -/
theorem nanOf_some {q : Nat} {l : List Nat} (h : first? (isNaN f) l = some q) :
    ∃ p, nanOf f (l.map (fdec f)) = some (p, nvOf f l) ∧ NaNTo f f q p ∧ p < 2 ^ f.w := by
  obtain ⟨hto, hlt, hfl⟩ := hf.nanTo_self (signOf f q) (p := q) rfl
  have hany : (l.map (fdec f)).any FV.isSNaN = l.any (isSNaN f) := by
    rw [List.any_map, show FV.isSNaN ∘ fdec f = isSNaN f from funext hf.isSNaN_fdec]
  refine ⟨_, ?_, hto, hlt⟩
  rw [nanOf, hf.first?_isNaN, h, Option.map_some, hf.fdec_eq, if_pos (first?_some h)]
  dsimp only
  rw [hany, hfl, nvOf]
  rfl

theorem nanOf_none {l : List Nat} (h : first? (isNaN f) l = none) : nanOf f (l.map (fdec f)) = none := by
  rw [nanOf, hf.first?_isNaN, h]
  rfl

end Ieee

/-! ## Sums (R159) -/

/-- The number of an aligned significand. -/
theorem atExp_eq (neg : Bool) (m : Nat) {e e0 : Int} (h : e0 ≤ e) :
    (atExp neg m e e0 : ℚ) * 2 ^ e0 = (if neg then -1 else 1) * (m * 2 ^ e) := by
  have hm : (m : ℚ) * 2 ^ (e - e0).toNat * 2 ^ e0 = m * 2 ^ e := by
    rw [mul_assoc, ← zpow_natCast, Int.toNat_of_nonneg (by omega), ← zpow_add₀ two_ne_zero, sub_add_cancel]
  rw [← hm, atExp]
  cases neg
  · simp
  · simp

theorem natAbs_atExp (neg : Bool) (m : Nat) (e e0 : Int) : (atExp neg m e e0).natAbs = m * 2 ^ (e - e0).toNat := by
  have h : ((m : Int) * 2 ^ (e - e0).toNat).natAbs = m * 2 ^ (e - e0).toNat := by
    rw [Int.natAbs_mul, Int.natAbs_pow]
    rfl
  rw [atExp]
  cases neg
  · exact h
  · exact (Int.natAbs_neg _).trans h

theorem natAbs_atExp_lt (neg : Bool) {m k : Nat} {e e0 : Int} (hm : m < 2 ^ 512) (hk : 512 + (e - e0).toNat ≤ k) :
    (atExp neg m e e0).natAbs < 2 ^ k := by
  rw [natAbs_atExp]
  calc m * 2 ^ (e - e0).toNat < 2 ^ 512 * 2 ^ (e - e0).toNat := Nat.mul_lt_mul_of_pos_right hm (Nat.two_pow_pos _)
    _ = 2 ^ (512 + (e - e0).toNat) := (pow_add ..).symm
    _ ≤ 2 ^ k := Nat.pow_le_pow_right two_pos hk

theorem natAbs_add_lt {u v : Int} {k n : Nat} (hu : u.natAbs < 2 ^ k) (hv : v.natAbs < 2 ^ k) (hn : k < n) : (u + v).natAbs < 2 ^ n := by
  have h : 2 ^ (k + 1) ≤ 2 ^ n := Nat.pow_le_pow_right two_pos hn
  rw [pow_succ] at h
  omega

theorem signed_eq_zero (neg : Bool) (m : Nat) (e : Int) : (if neg then -1 else 1) * ((m : ℚ) * 2 ^ e) = 0 ↔ m = 0 := by
  have he : (2 : ℚ) ^ e ≠ 0 := by positivity
  cases neg <;> simp [he]

/-- An operation's result: an exact result delivered, or an invalid operation; a pattern of the format. -/
def Ends (f : Fmt) (mode : Nat) (e : Option Exact) (r : Nat × BitVec 5) : Prop :=
  (match e with
    | none => r.1 = defaultNaNAt f ∧ r.2 = 1#5
    | some e => Delivers f mode false e r.1 r.2) ∧ r.1 < 2 ^ f.w

namespace Ieee
variable {f : Fmt} (hf : Ieee f) {mode : Nat}
include hf

theorem ends_inf (neg : Bool) : Ends f mode (some (.inf neg)) (infTo f neg false) := by
  have hpat : infTo f neg false = (signBit f neg + infPat f, 0) := by simp [infTo, hf.spec]
  rw [hpat]
  refine ⟨?_, signBit_add_lt neg hf.w_pos hf.infPat_lt⟩
  simpa [Delivers, hf.spec] using hf.isInf_infPat neg

theorem ends_invalid : Ends f mode none (invalid f) := ⟨⟨hf.defaultNaN_eq, rfl⟩, hf.defaultNaN_lt⟩

theorem ends_num (hmode : mode < 4) (neg : Bool) {m : Nat} {e : Int} {x : ℚ} (hlt : m < 2 ^ 8192) (hx : |x| = m * 2 ^ e) :
    Ends f mode (some (.num neg x)) (rnd f neg m e mode false) := rounds_rnd hf false hmode hlt hx

theorem ends_zero (neg : Bool) : Ends f mode (some (.num neg 0)) (signBit f neg, 0) :=
  ⟨rounds_zero hf neg false mode, signBit_add_lt (c := 0) neg hf.w_pos (Nat.two_pow_pos _)⟩

/-- The sum of two numbers is aligned without loss and rounded once; an exact zero takes R140's sign. -/
theorem ends_addNum (hmode : mode < 4) {n1 n2 : Bool} {m1 m2 : Nat} {e1 e2 : Int} (s1 : (FV.num n1 m1 e1).Small)
    (s2 : (FV.num n2 m2 e2).Small) : Ends f mode ((FV.num n1 m1 e1).exact.add mode (FV.num n2 m2 e2).exact)
      (addFV f (.num n1 m1 e1) (.num n2 m2 e2) mode) := by
  obtain ⟨hm1, hl1, hu1⟩ := s1
  obtain ⟨hm2, hl2, hu2⟩ := s2
  rw [addFV]
  generalize he0 : (if e1 ≤ e2 then e1 else e2) = e0
  have h1 : e0 ≤ e1 := by split at he0 <;> omega
  have h2 : e0 ≤ e2 := by split at he0 <;> omega
  have h0 : -3000 ≤ e0 := by split at he0 <;> omega
  have hx1 := atExp_eq n1 m1 h1
  have hx2 := atExp_eq n2 m2 h2
  have hz1 := signed_eq_zero n1 m1 e1
  have hz2 := signed_eq_zero n2 m2 e2
  have hlt : (atExp n1 m1 e1 e0 + atExp n2 m2 e2 e0).natAbs < 2 ^ 8192 :=
    natAbs_add_lt (k := 8191) (natAbs_atExp_lt n1 hm1 (by omega)) (natAbs_atExp_lt n2 hm2 (by omega)) (by omega)
  simp only [FV.exact, Exact.add]
  generalize (if n1 then -1 else 1) * ((m1 : ℚ) * 2 ^ e1) = x1 at *
  generalize (if n2 then -1 else 1) * ((m2 : ℚ) * 2 ^ e2) = x2 at *
  generalize atExp n1 m1 e1 e0 = u1 at *
  generalize atExp n2 m2 e2 e0 = u2 at *
  have hsum : x1 + x2 = ((u1 + u2 : Int) : ℚ) * 2 ^ e0 := by rw [← hx1, ← hx2, Int.cast_add, add_mul]
  have hpos : (0 : ℚ) < 2 ^ e0 := by positivity
  by_cases hv : u1 + u2 = 0
  · have hx : x1 + x2 = 0 := by rw [hsum, hv, Int.cast_zero, zero_mul]
    have hboth : m2 = 0 ↔ m1 = 0 := by
      rw [← hz1, ← hz2]
      constructor <;> intro h <;> linarith
    have hsign : zeroSign n1 n2 (decide (m1 = 0)) (decide (m2 = 0)) mode = (n1 && n2 && decide (x1 = 0) || mode == 3) := by
      simp only [zeroSign, hz1, hboth, Bool.and_assoc, Bool.and_self]
    rw [if_pos hv, if_pos hx, hx, hsign]
    exact hf.ends_zero _
  · have hx : x1 + x2 ≠ 0 := by
      rw [hsum]
      exact mul_ne_zero (by exact_mod_cast hv) hpos.ne'
    have hneg : decide (x1 + x2 < 0) = decide (u1 + u2 < 0) := by
      rw [hsum, decide_eq_decide]
      have : ((u1 + u2 : Int) : ℚ) * 2 ^ e0 < 0 ↔ ((u1 + u2 : Int) : ℚ) < 0 :=
        ⟨fun h => neg_of_mul_neg_left h hpos.le, fun h => mul_neg_of_neg_of_pos h hpos⟩
      exact this.trans Int.cast_lt_zero
    rw [if_neg hv, if_neg hx, hneg]
    refine hf.ends_num hmode _ hlt ?_
    rw [hsum, abs_mul, abs_of_pos hpos, Nat.cast_natAbs, Int.cast_abs]

theorem ends_addFV (hmode : mode < 4) {x y : FV} (nx : x.isNaN = false) (ny : y.isNaN = false) (sx : x.Small) (sy : y.Small) :
    Ends f mode (x.exact.add mode y.exact) (addFV f x y mode) := by
  match x, y with
  | .inf a, .inf b =>
    simp only [FV.exact, Exact.add, addFV]
    split
    · exact hf.ends_inf a
    · exact hf.ends_invalid
  | .inf a, .num .. => exact hf.ends_inf a
  | .num .., .inf b => exact hf.ends_inf b
  | .num .., .num .. => exact hf.ends_addNum hmode sx sy

/-- FADD of one lane (R159). -/
theorem arith_farith_add (hmode : mode < 4) (a b : Nat) :
    Arith 0 f mode a b 0 (farith 0 f mode a b 0).1 (farith 0 f mode a b 0).2 ∧ (farith 0 f mode a b 0).1 < 2 ^ f.w := by
  have hr : farith 0 f mode a b 0 = (nanOf f ([a, b].map (fdec f))).getD (addFV f (fdec f a) (fdec f b) mode) := by
    cases h : nanOf f ([a, b].map (fdec f)) <;> simp_all [farith]
  cases ha : isNaN f a with
  | true =>
    obtain ⟨p, hp, hto, hlt⟩ := hf.nanOf_some (q := a) (l := [a, b]) (by simp [first?, ha])
    rw [hr, hp, Arith, if_pos ha]
    exact ⟨⟨hto, rfl⟩, hlt⟩
  | false =>
    cases hb : isNaN f b with
    | true =>
      obtain ⟨p, hp, hto, hlt⟩ := hf.nanOf_some (q := b) (l := [a, b]) (by simp [first?, ha, hb])
      rw [hr, hp, Arith, if_neg (by simp [ha]), if_pos hb]
      exact ⟨⟨hto, rfl⟩, hlt⟩
    | false =>
      have h := hf.ends_addFV hmode ((hf.isNaN_fdec a).trans ha) ((hf.isNaN_fdec b).trans hb) (hf.small_fdec a) (hf.small_fdec b)
      rw [hf.exact_fdec ha, hf.exact_fdec hb] at h
      rw [hr, hf.nanOf_none (by simp [first?, ha, hb]), Arith, if_neg (by simp [ha]), if_neg (by simp [hb])]
      exact h

end Ieee

/-! ## Extremes (R160) -/

theorem fvLt_exact {x y : FV} (z : Bool) (nx : x.isNaN = false) (ny : y.isNaN = false) : fvLt z x y = x.exact.lt z y.exact := by
  match x, y with
  | .inf a, .inf b => rfl
  | .inf a, .num .. => rfl
  | .num .., .inf b => rfl
  | .num n1 m1 e1, .num n2 m2 e2 =>
    rw [fvLt]
    generalize he0 : (if e1 ≤ e2 then e1 else e2) = e0
    have h1 : e0 ≤ e1 := by split at he0 <;> omega
    have h2 : e0 ≤ e2 := by split at he0 <;> omega
    have hpos : (0 : ℚ) < 2 ^ e0 := by positivity
    have hlt : (atExp n1 m1 e1 e0 < atExp n2 m2 e2 e0) ↔
        (if n1 then -1 else 1) * ((m1 : ℚ) * 2 ^ e1) < (if n2 then -1 else 1) * ((m2 : ℚ) * 2 ^ e2) := by
      rw [← atExp_eq n1 m1 h1, ← atExp_eq n2 m2 h2, mul_lt_mul_iff_left₀ hpos, Int.cast_lt]
    simp only [FV.exact, Exact.lt, hlt, signed_eq_zero]
    rfl

/-- FMIN and FMAX of one lane (R160). -/
theorem Ieee.extreme_fminmax {f : Fmt} (hf : Ieee f) (mx : Bool) {a b : Nat} (ha : a < 2 ^ f.w) (hb : b < 2 ^ f.w) :
    Extreme mx f a b (fminmax mx f a b).1 (fminmax mx f a b).2 ∧ (fminmax mx f a b).1 < 2 ^ f.w := by
  have hfl : (if (isSNaN f a || isSNaN f b) = true then NV else 0) = nvOf f [a, b] := by
    simp only [nvOf, List.any_cons, List.any_nil, Bool.or_false]
    rfl
  rw [fminmax]
  simp only [hf.isSNaN_fdec, hf.isNaN_fdec, hfl]
  rw [Extreme]
  cases na : isNaN f a with
  | true =>
    cases nb : isNaN f b with
    | true =>
      obtain ⟨p, hp, hto, hlt⟩ := hf.nanOf_some (q := a) (l := [a]) (by simp [first?, na])
      rw [List.map_singleton] at hp
      rw [hp]
      exact ⟨⟨rfl, hto⟩, hlt⟩
    | false => exact ⟨⟨rfl, rfl⟩, hb⟩
  | false =>
    cases nb : isNaN f b with
    | true => exact ⟨⟨rfl, rfl⟩, ha⟩
    | false =>
      have hx := (hf.isNaN_fdec a).trans na
      have hy := (hf.isNaN_fdec b).trans nb
      simp only [fvLt_exact true hx hy, fvLt_exact true hy hx, hf.exact_fdec na, hf.exact_fdec nb]
      refine ⟨⟨trivial, ?_⟩, ?_⟩
      · cases mx <;> rfl
      · split_ifs <;> assumption

/-! ## A step of a fold (R178, R183) -/

theorem ieee_F32 : Ieee F32 := ⟨rfl, by decide, by decide, by decide, by decide, by decide, rfl⟩

theorem ieee_F64 : Ieee F64 := ⟨rfl, by decide, by decide, by decide, by decide, by decide, rfl⟩

theorem fmtOf_eq_fmtAt (ty : BitVec 4) : fmtOf ty.toNat = fmtAt ty.toNat := by
  revert ty
  decide

theorem sint_eq_toInt {w : Nat} (hw : 0 < w) (v : Nat) : sint w v = (BitVec.ofNat w v).toInt := by
  obtain ⟨k, rfl⟩ : ∃ k, w = k + 1 := ⟨w - 1, by omega⟩
  rw [sint, BitVec.toInt_eq_toNat_cond, BitVec.toNat_ofNat, Nat.add_sub_cancel]
  generalize v % 2 ^ (k + 1) = r
  by_cases h : 2 ^ k ≤ r
  · rw [if_pos (by simp [h]), if_neg (by rw [pow_succ]; omega)]
    norm_cast
  · rw [if_neg (by simp [h]), if_pos (by rw [pow_succ]; omega)]

theorem widthOf_pos (ty : Nat) : 0 < widthOf ty := by
  unfold widthOf
  split <;> decide

/-- An operand read at its type's width. -/
theorem readInt_eq_intIn (ty : Nat) (v : W64) : readInt ty v.toNat = intIn ty v := by
  rw [readInt, intIn, ← BitVec.ofNat_toNat, sint_eq_toInt (widthOf_pos ty), BitVec.toNat_ofNat]

/-- A result held in VAL at its type's width. -/
theorem extend_eq_intOut {ty : Nat} (h : ty < 8) (x : Int) : extend ty x = intOut ty x := by
  have hw : wrap (widthOf ty) x = (BitVec.ofInt (widthOf ty) x).toNat := by
    rw [BitVec.toNat_ofInt, wrap]
    norm_cast
  simp only [extend, intOut, bitsOut, if_pos h, sint_eq_toInt (widthOf_pos ty), hw, BitVec.ofNat_toNat, BitVec.setWidth_eq]
  rfl

theorem bitwiseOp_eq {op : ∀ {w : Nat}, BitVec w → BitVec w → BitVec w} {ty : Nat} (h : ty < 8) (a b : W64)
    (hop : (op a b).setWidth (widthOf ty) = op (a.setWidth (widthOf ty)) (b.setWidth (widthOf ty))) :
    bitwiseOp op ty a.toNat b.toNat = bitsOut ty (op (a.setWidth (widthOf ty)) (b.setWidth (widthOf ty))) := by
  rw [bitwiseOp, extend_eq_intOut h, intOut, BitVec.ofNat_toNat, BitVec.setWidth_eq, BitVec.ofNat_toNat, BitVec.setWidth_eq, ← hop,
    BitVec.ofInt_natCast, BitVec.ofNat_toNat]

/-- A law of one lane holds of the lane that the word holds alone. -/
theorem eachLane_one {f : Fmt} {law : Nat → Nat → BitVec 5 → Prop} {v : W64} {fl : BitVec 5} (hv : v.toNat < 2 ^ f.w)
    (h : law 0 v.toNat fl) : EachLane f 1 law v fl := by
  have hlane : laneAt f v 0 = v.toNat := by simp [laneAt, Nat.mod_eq_of_lt hv]
  refine ⟨fun _ => fl, fun j hj => ?_, fun j hj => ?_, by simp⟩
  · obtain rfl : j = 0 := by omega
    rwa [hlane]
  · exact Nat.testBit_lt_two_pow (hv.trans_le (Nat.pow_le_pow_right two_pos (by omega)))

theorem intMinMax_eq (mx : Bool) {ty : Nat} (h : ty < 8) (a b : W64) : intMinMax mx ty a.toNat b.toNat =
    intOut ty (if mx then max (intIn ty a) (intIn ty b) else min (intIn ty a) (intIn ty b)) := by
  simp only [intMinMax, readInt_eq_intIn, extend_eq_intOut h, max_def, min_def]
  congr 1
  split_ifs <;> omega

theorem foldRule_int (fn : Nat) {ty : Nat} (h : ty < 8) (a b : W64) : FoldRule fn ty a b (foldOp fn ty a b).1 (foldOp fn ty a b).2 := by
  simp only [FoldRule, if_pos h, foldOp]
  match fn with
  | 0 => simp [intArith, clampInt, exactInt, satOut, readInt_eq_intIn, extend_eq_intOut h]
  | 1 => exact congrArg (·, 0) (intMinMax_eq false h a b)
  | 2 => exact congrArg (·, 0) (intMinMax_eq true h a b)
  | 3 => exact congrArg (·, 0) (bitwiseOp_eq (op := fun x y => x &&& y) h a b (BitVec.setWidth_and ..))
  | 4 => exact congrArg (·, 0) (bitwiseOp_eq (op := fun x y => x ||| y) h a b (BitVec.setWidth_or ..))
  | _ + 5 => exact congrArg (·, 0) (bitwiseOp_eq (op := fun x y => x ^^^ y) h a b (BitVec.setWidth_xor ..))

/-- A pattern of a scalar format held in VAL. -/
theorem extend_toNat {ty p : Nat} (h : ty = 8 ∨ ty = 9) (hp : p < 2 ^ (fmtAt ty).w) : (extend ty p).toNat = p := by
  rcases h with rfl | rfl
  · change p < 2 ^ 32 at hp
    simp [extend, wrap]
    omega
  · change p < 2 ^ 64 at hp
    simp [extend, wrap]
    omega

/-- The rule of a lane that a scalar result holds alone. -/
theorem eachLane_packed {ty : Nat} (h : ty = 8 ∨ ty = 9) {law : Nat → Nat → BitVec 5 → Prop} {r : Nat × BitVec 5}
    (hr : law 0 r.1 r.2 ∧ r.1 < 2 ^ (fmtAt ty).w) : EachLane (fmtAt ty) 1 law (packed ty r).1 (packed ty r).2 := by
  obtain ⟨hlaw, hlt⟩ := hr
  have hv : (packed ty r).1.toNat = r.1 := extend_toNat h hlt
  exact eachLane_one (hv ▸ hlt) (hv ▸ hlaw)

theorem foldRule_float (fn : Nat) {ty : Nat} (h : ty = 8 ∨ ty = 9) (a b : W64) :
    FoldRule fn ty a b (foldOp fn ty a b).1 (foldOp fn ty a b).2 := by
  have hi : ¬ ty < 8 := by omega
  have hf : Ieee (fmtAt ty) := by
    rcases h with rfl | rfl
    · exact ieee_F32
    · exact ieee_F64
  have hfmt : fmtOf ty = fmtAt ty := by rcases h with rfl | rfl <;> rfl
  have hlane (v : W64) : laneAt (fmtAt ty) v 0 = v.toNat % 2 ^ (fmtAt ty).w := by simp [laneAt]
  have hlt (v : W64) : v.toNat % 2 ^ (fmtAt ty).w < 2 ^ (fmtAt ty).w := Nat.mod_lt _ (Nat.two_pow_pos _)
  simp only [FoldRule, if_neg hi, foldOp, hfmt]
  refine eachLane_packed h ?_
  rw [hlane, hlane]
  match fn with
  | 0 => exact hf.arith_farith_add (by decide) _ _
  | 1 => exact hf.extreme_fminmax false (hlt a) (hlt b)
  | _ + 2 => exact hf.extreme_fminmax true (hlt a) (hlt b)

/-- A step of a fold, and UNION's value on equal keys, by its rule (R178, R183). -/
theorem foldRule_foldOp (fn : Nat) {ty : Nat} (h : ty < 10) (a b : W64) :
    FoldRule fn ty a b (foldOp fn ty a b).1 (foldOp fn ty a b).2 := by
  by_cases hi : ty < 8
  · exact foldRule_int fn hi a b
  · exact foldRule_float fn (by omega) a b

end Sys2Proof.Machine
end

section
/-! Sorted walks (R27, R179 to R183): one lemma per case of a step for the heads that it takes and for what it puts out. -/

namespace Sys2Proof.Machine

open Sys2Proof Sys2Proof.Safety

/-! ## Tokens of a walk (R104, R123, R182) -/

section
variable {w : CW} {fr : Firing} {tx ty : Time}

theorem inRange_of_fitsDif {d : Int} (h : FitsDif d) : (decide (d < -(2 ^ 31 : Int)) || decide ((2 ^ 31 : Int) ≤ d)) = false := by
  obtain ⟨hl, hu⟩ := h
  rw [decide_eq_false (by omega), decide_eq_false (by omega)]
  rfl

theorem outTok_x (hx : act w.xt fr.set.id.time = some tx) {d : Int} (hd : FitsDif d) (v : W64) (k : W32) (kv nul fin : Bool) :
    outTok w fr 4 v k kv d nul fin = .ok ⟨v, k, BitVec.ofInt 32 d, tx, fr.set.id.seq, w.xc, nul, fin, kv⟩ := by
  simp only [outTok, inRange_of_fitsDif hd, Bool.false_eq_true, if_true, if_false, hx]

theorem outTok_y (hy : act w.yt fr.set.id.time = some ty) {d : Int} (hd : FitsDif d) (v : W64) (k : W32) (kv nul fin : Bool) :
    outTok w fr 5 v k kv d nul fin = .ok ⟨v, k, BitVec.ofInt 32 d, ty, fr.set.id.seq, w.yc, nul, fin, kv⟩ := by
  simp only [outTok, inRange_of_fitsDif hd, Bool.false_eq_true, show (5 : Nat) ≠ 4 by decide, if_false, hy]

theorem fitsDif_zero : FitsDif 0 := ⟨by decide, by decide⟩

theorem walkRec_x (hx : act w.xt fr.set.id.time = some tx) {d : Int} (hd : FitsDif d) (t : Token) (v : W64) :
    walkRec w fr 4 t v d = .ok (xTok w fr.set tx v t.key true d) := outTok_x hx hd ..

theorem walkRec_y (hy : act w.yt fr.set.id.time = some ty) {d : Int} (hd : FitsDif d) (t : Token) (v : W64) :
    walkRec w fr 5 t v d = .ok (yTok w fr.set ty v t.key true d) := outTok_y hy hd ..

theorem endTok_x (hx : act w.xt fr.set.id.time = some tx) : endTok w fr 4 = .ok (specTok w.xc fr.set tx false true) :=
  outTok_x hx fitsDif_zero ..

theorem endTok_y (hy : act w.yt fr.set.id.time = some ty) : endTok w fr 5 = .ok (specTok w.yc fr.set ty false true) :=
  outTok_y hy fitsDif_zero ..

theorem nulTok_x (hx : act w.xt fr.set.id.time = some tx) : nulTok w fr 4 = .ok (specTok w.xc fr.set tx true false) :=
  outTok_x hx fitsDif_zero ..

theorem nulTok_y (hy : act w.yt fr.set.id.time = some ty) : nulTok w fr 5 = .ok (specTok w.yc fr.set ty true false) :=
  outTok_y hy fitsDif_zero ..

end

/-! ## The cases of a walk step (R179, R182) -/

/-- Both heads are no NUL. -/
def LiveHeads (a b : Token) : Prop := a.nul = false ∧ b.nul = false

/-- B's record comes first: its key is the smaller, or A's stream has ended. -/
def BFirst (a b : Token) : Prop := b.fin = false ∧ (a.fin = true ∨ b.key.toNat < a.key.toNat)

/-- A's record comes first. -/
def AFirst (a b : Token) : Prop := a.fin = false ∧ (b.fin = true ∨ a.key.toNat < b.key.toNat)

/-- The heads are records of one key. -/
def SameKey (a b : Token) : Prop := a.fin = false ∧ b.fin = false ∧ a.key = b.key

/-- Which heads a step takes, and whether the walk is over with it. -/
def Takes (a b : Token) (ca cb last : Bool) : Prop := walkTakes a b = (ca, cb) ∧ (a.fin && b.fin && ca && cb) = last

section
variable {a b : Token}

theorem takes_nulA (h : a.nul = true) : Takes a b true false false := ⟨by simp [walkTakes, h], Bool.and_false _⟩

theorem takes_nulB (ha : a.nul = false) (hb : b.nul = true) : Takes a b false true false := ⟨by simp [walkTakes, ha, hb], by simp⟩

theorem takes_ends (h : LiveHeads a b) (ha : a.fin = true) (hb : b.fin = true) : Takes a b true true true :=
  ⟨by simp [walkTakes, h.1, h.2, ha, hb], by simp [ha, hb]⟩

theorem takes_bFirst (h : LiveHeads a b) (hf : BFirst a b) : Takes a b false true false :=
  ⟨by simp [walkTakes, h.1, h.2, hf.1, hf.2], by simp⟩

/-- Where A's record comes first, B's does not. -/
theorem AFirst.not_bFirst (h : AFirst a b) : (!b.fin && (a.fin || decide (b.key.toNat < a.key.toNat))) = false := by
  obtain ⟨ha, hb | hk⟩ := h
  · simp [hb]
  · simp [ha, hk.le]

theorem takes_aFirst (h : LiveHeads a b) (hf : AFirst a b) : Takes a b true false false := by
  refine ⟨?_, Bool.and_false _⟩
  rw [walkTakes, h.1, h.2, hf.not_bFirst]
  simp [hf.1, hf.2]

theorem takes_same (h : LiveHeads a b) (hs : SameKey a b) : Takes a b true true false := by
  obtain ⟨ha, hb, hk⟩ := hs
  exact ⟨by simp [walkTakes, h.1, h.2, ha, hb, hk], by simp [ha]⟩

variable (op : WalkOp) (w : CW) (fr : Firing)

/-- A NUL head puts out nothing, whatever the predicate. -/
theorem walkOut_nul (h : a.nul = true ∨ b.nul = true) (ok : Bool) : walkOut op w fr a b ok = .ok (noEmit false) := by
  rcases h with h | h <;> simp [walkOut, walkStep, h]

/-- Both ENDs put out an END on each output, whatever the predicate. -/
theorem walkOut_ends (h : LiveHeads a b) (ha : a.fin = true) (hb : b.fin = true) (ok : Bool) {x y : Token} (hx : endTok w fr 4 = .ok x)
    (hy : endTok w fr 5 = .ok y) : walkOut op w fr a b ok = .ok ⟨[x], if op = .isect then [y] else [], 0, [], false⟩ := by
  rw [walkOut, ha, hb, Bool.and_self, Bool.or_true, if_pos rfl, walkStep, h.1, h.2, ha, hb, hx, hy]
  cases op <;> rfl

/-- A record that only B holds goes out from UNION. -/
theorem walkOut_bFirst (h : LiveHeads a b) (hf : BFirst a b) {x : Token}
    (hx : op = .union → walkRec w fr 4 b b.val (oneSide w b) = .ok x) :
    walkOut op w fr a b true = .ok ⟨if op = .union then [x] else [], [], 0, [], true⟩ := by
  have hfirst : (a.fin || decide (b.key.toNat < a.key.toNat)) = true := by simpa using hf.2
  rw [walkOut, Bool.true_or, Bool.true_or, Bool.true_or, if_pos rfl, walkStep, h.1, h.2, hf.1, hfirst, Bool.and_false]
  cases op
  · rw [hx rfl]; rfl
  · rfl
  · rfl

/-- A record that only A holds goes out from UNION and MINUS. -/
theorem walkOut_aFirst (h : LiveHeads a b) (hf : AFirst a b) {x : Token}
    (hx : op ≠ .isect → walkRec w fr 4 a a.val (oneSide w a) = .ok x) :
    walkOut op w fr a b true = .ok ⟨if op = .isect then [] else [x], [], 0, [], true⟩ := by
  have hfirst : (b.fin || decide (a.key.toNat < b.key.toNat)) = true := by simpa using hf.2
  rw [walkOut, Bool.true_or, Bool.true_or, Bool.true_or, if_pos rfl, walkStep, h.1, h.2, hf.not_bFirst, hf.1, hfirst, Bool.false_and]
  cases op
  · rw [hx (by decide)]; rfl
  · rfl
  · rw [hx (by decide)]; rfl

theorem walkOut_same (h : LiveHeads a b) (hs : SameKey a b) : walkOut op w fr a b true = walkBoth op w fr a b := by
  obtain ⟨ha, hb, hk⟩ := hs
  simp [walkOut, walkStep, h.1, h.2, ha, hb, hk]

/-- Under a predicate that does not match, records go by as NULs (log 20). -/
theorem walkOut_unmatched (h : LiveHeads a b) (hf : (a.fin && b.fin) = false) {x y : Token} (hx : nulTok w fr 4 = .ok x)
    (hy : nulTok w fr 5 = .ok y) : walkOut op w fr a b false = .ok ⟨[x], if op = .isect then [y] else [], 0, [], false⟩ := by
  rw [walkOut, h.1, h.2, hf, both, hx, hy]
  cases op <;> rfl

/-- What UNION's mode makes of two records of one key: with mode 0 both, with mode 4 A's. -/
theorem walkBoth_union_both (hfn : w.fn.toNat % 8 = 0) {x y : Token} (hx : walkRec w fr 4 a a.val (oneSide w a) = .ok x)
    (hy : walkRec w fr 4 b b.val (oneSide w b) = .ok y) : walkBoth .union w fr a b = .ok ⟨[x, y], [], 0, [], true⟩ := by
  simp only [walkBoth, hfn, if_true, hx, hy]
  rfl

theorem walkBoth_union_first (hfn : w.fn.toNat % 8 = 4) {x : Token} (hx : walkRec w fr 4 a a.val (oneSide w a) = .ok x) :
    walkBoth .union w fr a b = .ok ⟨[x], [], 0, [], true⟩ := by
  simp only [walkBoth, hfn, if_true, hx]
  rfl

/-- .ADD, .MIN and .MAX make one record of a fold's value, which .DZ drops where it is zero (R183). -/
theorem walkBoth_union_fold (h1 : 1 ≤ w.fn.toNat % 8) (h3 : w.fn.toNat % 8 ≤ 3) {x : Token}
    (hx : walkRec w fr 4 a (foldOp (w.fn.toNat % 8 - 1) w.ty.toNat a.val b.val).1 (twoSides w a b) = .ok x) :
    let r := foldOp (w.fn.toNat % 8 - 1) w.ty.toNat a.val b.val
    let zero : Bool := r.1.toNat % 2 ^ (if w.ty.toNat < 8 then widthOf w.ty.toNat else (fmtAt w.ty.toNat).w - 1) == 0
    walkBoth .union w fr a b = .ok ⟨if w.fn.getLsbD 3 && zero then [] else [x], [], r.2, [], true⟩ := by
  have h0 : w.fn.toNat % 8 ≠ 0 := by omega
  have h4 : w.fn.toNat % 8 ≠ 4 := by omega
  simp only [walkBoth, h0, h4, if_false, hx, ← fmtOf_eq_fmtAt]
  split <;> rfl

theorem walkBoth_isect {x y : Token} (hx : walkRec w fr 4 a a.val (twoSides w a b) = .ok x)
    (hy : walkRec w fr 5 b b.val (twoSides w a b) = .ok y) : walkBoth .isect w fr a b = .ok ⟨[x], [y], 0, [], true⟩ := by
  simp only [walkBoth, hx, hy]
  rfl

end

/-! ## A firing of a walk (R27, R180 to R182) -/

/-- The predicate's token stands for the whole walk and matches. -/
def WalkMatched (w : CW) (hp : Option Token) : Prop := w.pm = 0 ∨ ∃ p, hp = some p ∧ p.fin = false ∧ pMatches w hp = true

/-- It does not match. -/
def WalkUnmatched (w : CW) (hp : Option Token) : Prop := w.pm ≠ 0 ∧ ∃ p, hp = some p ∧ (p.fin = true ∨ pMatches w hp = false)

theorem WalkMatched.pred {w : CW} {hp : Option Token} (h : WalkMatched w hp) : walkPred w hp = some true := by
  obtain h0 | ⟨p, rfl, hfin, hm⟩ := h
  · simp [walkPred, h0]
  · simp [walkPred, hfin, hm]

theorem WalkUnmatched.pred {w : CW} {hp : Option Token} (h : WalkUnmatched w hp) : walkPred w hp = some false := by
  obtain ⟨h0, p, rfl, hfin | hm⟩ := h
  · rw [walkPred, if_neg h0]; simp [hfin]
  · rw [walkPred, if_neg h0]; simp [hm]

/-- A walk's slot fires with both heads offered: no set of it is parked and no breakpoint stops it. -/
structure HeadsOffered (s : State) (fr : Firing) (id : Ident) (a b : Token) (hp : Option Token) : Prop where
  bare : bareFiring s id = some fr
  heads : ∃ br, walkOf s fr.sl = ⟨some id, some a, some b, hp, br⟩
  unparked : parkedOf s fr.sl = []
  unbroken : bareBreak s fr = false

/-- The state after a step that takes A's head, B's head, or both: the heads left stand as they were, or the walk is over. -/
def walkStepped (s : State) (w : CW) (fr : Firing) (id : Ident) (a b : Token) (hp : Option Token) (e : Emit) (ca cb last : Bool) : State :=
  let fr' := { fr with set := { fr.set with
    a := if ca then some a else none, b := if cb then some b else none, p := if last then hp else none } }
  let u := setWalk s fr.sl (if last then ⟨none, none, none, none, false⟩
    else ⟨some id, if ca then none else some a, if cb then none else some b, hp, false⟩)
  apply u w fr' e (consumed fr.node fr'.set) (flushAfter w fr'.set e)

theorem bareFiring_some {s : State} {id : Ident} {fr : Firing} (h : bareFiring s id = some fr) :
    s.focus = .slot fr.sl ∧ fr.set = ⟨id, none, none, none, none, 0, []⟩ := by
  unfold bareFiring at h
  split at h
  · split at h
    · split at h
      · cases h
        exact ⟨by assumption, rfl⟩
      · cases h
    · cases h
  · cases h

theorem exec_walkFire {i : Instr} {w : CW} (s : State) (h : i = .union w ∨ i = .isect w ∨ i = .minus w) :
    ∃ op, exec i s = .next (walkFire s w op) := by
  obtain rfl | rfl | rfl := h
  · exact ⟨.union, rfl⟩
  · exact ⟨.isect, rfl⟩
  · exact ⟨.minus, rfl⟩

namespace HeadsOffered
variable {s : State} {w : CW} {fr : Firing} {id : Ident} {a b : Token} {hp : Option Token} (h : HeadsOffered s fr id a b hp)
include h

theorem set_id : fr.set.id = id := by rw [(bareFiring_some h.bare).2]

/-- Before its predicate's token has come, a walk does nothing. -/
theorem walkFire_waits (op : WalkOp) (hpm : w.pm ≠ 0) (hnone : hp = none) : walkFire s w op = s := by
  obtain ⟨br, hw⟩ := h.heads
  have hpred : walkPred w hp = none := by rw [walkPred, if_neg hpm, hnone]; rfl
  simp only [walkFire, (bareFiring_some h.bare).1, hw, h.bare, hpred]

/-- One step of a walk: what it puts out, and the heads that it takes. -/
theorem steps {op : WalkOp} {e : Emit} {ok ca cb last : Bool} (hpred : walkPred w hp = some ok)
    (hout : walkOut op w fr a b ok = .ok e) (htakes : Takes a b ca cb last) (hroom : hasRoom s fr.sl e = true) :
    (.next (walkFire s w op) : Host.Outcome State Fault Refusal) = .next (walkStepped s w fr id a b hp e ca cb last) := by
  obtain ⟨br, hw⟩ := h.heads
  obtain ⟨hheads, rfl⟩ := htakes
  simp only [walkFire, (bareFiring_some h.bare).1, hw, h.bare, hpred, h.unparked, List.isEmpty_nil, Bool.not_true, Bool.false_eq_true,
    if_false, h.unbroken, hout, hheads, hroom, if_true]
  rfl

end HeadsOffered

/-- UNION's class of types are the integers and the two scalar formats (R53). -/
theorem union_ty {w : CW} (h : (Instr.union w).wf = true) : w.ty.toNat < 10 := by
  change CW.ok _ w = true at h
  simp only [CW.ok, Bool.and_eq_true] at h
  have hclass : TyClass.ok .n w.ty = true := by tauto
  simpa [TyClass.ok] using hclass

/-- Settles O26: each case of a step names the heads it takes and what it puts out; UNION's value on equal keys is a fold's. -/
theorem sortedWalks : Obligations.SortedWalks := by
  intro w s fr id a b hp br tx ty hbare hwalk hpark hbreak hx hy
  have H : HeadsOffered s fr id a b hp := ⟨hbare, ⟨br, hwalk⟩, hpark, hbreak⟩
  rw [← H.set_id] at hx hy
  intro o one two step x y fin silent none_ nulX nulXY matched unmatched live right left same
  have hpred : matched ∨ unmatched → ∃ ok, walkPred w hp = some ok
    | .inl h => ⟨true, WalkMatched.pred h⟩
    | .inr h => ⟨false, WalkUnmatched.pred h⟩
  refine ⟨?nul, ?unionB, ?otherB, ?unionA, ?isectA, ?same, ?ends, ?unmatched, ?waits⟩
  case nul =>
    intro hm i hi
    obtain ⟨ok, hok⟩ := hpred hm
    obtain ⟨op, hop⟩ := exec_walkFire s hi
    exact ⟨fun ha hroom => hop.trans (H.steps hok (walkOut_nul op w fr (.inl ha) ok) (takes_nulA ha) hroom),
      fun ha hb hroom => hop.trans (H.steps hok (walkOut_nul op w fr (.inr hb) ok) (takes_nulB ha hb) hroom)⟩
  case unionB =>
    intro hm hl hr hd
    exact H.steps (WalkMatched.pred hm) (walkOut_bFirst .union w fr hl hr fun _ => walkRec_x hx hd b b.val) (takes_bFirst hl hr)
  case otherB =>
    intro hm hl hr
    have hout {op : WalkOp} (h : op ≠ .union) := walkOut_bFirst (x := b) op w fr hl hr fun hop => absurd hop h
    exact ⟨H.steps (WalkMatched.pred hm) (hout (op := .isect) (by decide)) (takes_bFirst hl hr),
      H.steps (WalkMatched.pred hm) (hout (op := .minus) (by decide)) (takes_bFirst hl hr)⟩
  case unionA =>
    intro hm hl hf hd
    have hout (op : WalkOp) := walkOut_aFirst op w fr hl hf fun _ => walkRec_x hx hd a a.val
    exact ⟨H.steps (WalkMatched.pred hm) (hout .union) (takes_aFirst hl hf), H.steps (WalkMatched.pred hm) (hout .minus) (takes_aFirst hl hf)⟩
  case isectA =>
    intro hm hl hf
    exact H.steps (WalkMatched.pred hm) (walkOut_aFirst (x := a) .isect w fr hl hf fun hop => absurd rfl hop) (takes_aFirst hl hf)
  case same =>
    intro hm hl hs
    have go {op : WalkOp} {e : Emit} (hout : walkBoth op w fr a b = .ok e) :=
      H.steps (WalkMatched.pred hm) ((walkOut_same op w fr hl hs).trans hout) (takes_same hl hs)
    refine ⟨?both, ?first, ?fold, ?isect, go (op := .minus) rfl⟩
    case both =>
      intro hfn ha hb
      exact go (walkBoth_union_both w fr hfn (walkRec_x hx ha a a.val) (walkRec_x hx hb b b.val))
    case first =>
      intro hfn ha
      exact go (walkBoth_union_first w fr hfn (walkRec_x hx ha a a.val))
    case fold =>
      intro h1 h3 hwf hd
      exact ⟨_, _, foldRule_foldOp _ (union_ty hwf) a.val b.val, go (walkBoth_union_fold w fr h1 h3 (walkRec_x hx hd a _))⟩
    case isect =>
      intro hd
      exact go (walkBoth_isect w fr (walkRec_x hx hd a a.val) (walkRec_y hy hd b b.val))
  case ends =>
    intro hm hl ha hb
    obtain ⟨ok, hok⟩ := hpred hm
    have go (op : WalkOp) := H.steps hok (walkOut_ends op w fr hl ha hb ok (endTok_x hx) (endTok_y hy)) (takes_ends hl ha hb)
    exact ⟨go .union, go .isect, go .minus⟩
  case unmatched =>
    intro hm hl _
    have go {ca cb : Bool} (hf : (a.fin && b.fin) = false) (ht : Takes a b ca cb false) (op : WalkOp) :=
      H.steps (WalkUnmatched.pred hm) (walkOut_unmatched op w fr hl hf (nulTok_x hx) (nulTok_y hy)) ht
    refine ⟨fun hr => ?_, fun hf => ?_, fun hs => ?_⟩
    · have hstep := go (by rw [hr.1, Bool.and_false]) (takes_bFirst hl hr)
      exact ⟨hstep .union, hstep .isect, hstep .minus⟩
    · have hstep := go (by rw [hf.1, Bool.false_and]) (takes_aFirst hl hf)
      exact ⟨hstep .union, hstep .isect, hstep .minus⟩
    · have hstep := go (by rw [hs.1, Bool.false_and]) (takes_same hl hs)
      exact ⟨hstep .union, hstep .isect, hstep .minus⟩
  case waits =>
    intro hpm hnone i hi
    obtain ⟨op, hop⟩ := exec_walkFire s hi
    exact hop.trans (congrArg Host.Outcome.next (H.walkFire_waits op hpm hnone))

end Sys2Proof.Machine
end

section
/-! Encoding and decoding (R48, R63 to R67, R296): the row that an instruction stands in names the code it is read back from, and a code that is
read names the row of what it reads. -/

namespace Sys2Proof

/-! ## From an instruction to its code -/

/-- An instruction's row holds the code that the decoder reads as it: by computation, but where two instructions share a code. -/
theorem rowCode (i : Instr) : Laws.RowCode.Statement i := by
  cases i with
  | shareRemove w => exact Laws.RowCode.shareRemove w
  | sflags w => exact Laws.RowCode.sflags w
  | sflagsAll w => exact Laws.RowCode.sflagsAll w
  | fabortRecord w => exact Laws.RowCode.fabortRecord w
  | fabortLaunch w => exact Laws.RowCode.fabortLaunch w
  | _ => exact fun _ => rfl

theorem ofOpcode_of_row {i : Instr} {r : Row} {w : CW} (h : i.row = some (r, w)) (hwf : i.wf = true) :
    ofOpcode r.op.toNat w = some (if i = .shareRemove w then .share w else i) := by
  have code := rowCode i hwf
  rw [h] at code
  cases hs : i.srow with
  | none => rwa [hs] at code
  | some q => rw [hs] at code; exact code.elim

theorem ofSop_of_srow {i : Instr} {r : SRow} {w : SW} (h : i.srow = some (r, w)) (hwf : i.wf = true) :
    i.row = none ∧ ofSop r.sop.toNat w = some i := by
  have code := rowCode i hwf
  rw [h] at code
  cases hr : i.row with
  | none => rw [hr] at code; exact ⟨rfl, code⟩
  | some q => rw [hr] at code; exact code.elim

/-- SHARE_REMOVE stands in SHARE's row, so the word checks judge both alike (R296). -/
theorem wf_shareRemove (w : CW) : (Instr.shareRemove w).wf = (Instr.share w).wf := rfl

theorem encode_of_row {i : Instr} {r : Row} {w : CW} (h : i.row = some (r, w)) : encode i = some (CW.pack r.op w) := by
  simp only [encode, h]

theorem encode_of_srow {i : Instr} {r : SRow} {w : SW} (hr : i.row = none) (h : i.srow = some (r, w)) :
    encode i = some (SW.pack r.sop w) := by
  simp only [encode, hr, h]

/-! ## What the decoders answer -/

theorem decodeCtx_of_ofOpcode {v : W64} {i : Instr} (h : ofOpcode (v.extractLsb' 56 8).toNat (CW.unpack v) = some i) :
    decodeCtx v = if i.wf then .ok i else .error .cfgField := by
  simp only [decodeCtx, h]

theorem decodeSeq_of_ofSop {v : W64} {i : Instr} (sup : Bool) (h : ofSop (v.extractLsb' 56 8).toNat (SW.unpack v) = some i) :
    decodeSeq sup v = if 0xE0 ≤ (v.extractLsb' 56 8).toNat && !sup then .error .priv else if i.wf then .ok i else .error .cfgField := by
  simp only [decodeSeq, h]

/-- Settles O1: packing an instruction's row and fields and taking the word apart again gives both back. -/
theorem decodeEncodeContext : Obligations.DecodeEncodeContext := by
  intro i r w hrow hwf
  have code : ofOpcode ((CW.pack r.op w).extractLsb' 56 8).toNat (CW.unpack (CW.pack r.op w)) =
      some (if i = .shareRemove w then .share w else i) := by
    rw [opcode_pack, unpack_pack, ofOpcode_of_row hrow hwf]
  have accepted : (if i = .shareRemove w then Instr.share w else i).wf = true := by
    split
    · next hi => rwa [hi, wf_shareRemove] at hwf
    · exact hwf
  exact ⟨_, encode_of_row hrow, by rw [decodeCtx_of_ofOpcode code, if_pos accepted]⟩

/-- Settles O2: the same for a sequencer word; a user graph refuses it by its SOP alone, before its fields are judged. -/
theorem decodeEncodeSequencer : Obligations.DecodeEncodeSequencer := by
  intro i r w hrow hwf
  obtain ⟨hno, hsop⟩ := ofSop_of_srow hrow hwf
  have code : ofSop ((SW.pack r.sop w).extractLsb' 56 8).toNat (SW.unpack (SW.pack r.sop w)) = some i := by
    rw [sop_pack, sunpack_pack, hsop]
  refine ⟨_, encode_of_srow hno hrow, ?sup, ?user⟩
  case sup => simp [decodeSeq_of_ofSop _ code, hwf]
  case user =>
    rw [decodeSeq_of_ofSop _ code, sop_pack]
    by_cases hu : r.sop.toNat < 0xE0
    · simp [hu, hwf]
    · simp [hu, Nat.le_of_not_lt hu]

/-! ## From a code to its instruction -/

/-- An opcode that is read is the opcode of the row of the instruction it gives, with the word's fields. -/
theorem row_of_ofOpcode {op : Nat} {w : CW} {i : Instr} (h : ofOpcode op w = some i) : ∃ r, i.row = some (r, w) ∧ r.op.toNat = op := by
  unfold ofOpcode at h
  split at h <;> cases h <;> exact ⟨_, rfl, rfl⟩

/-- Whether an opcode is assigned does not turn on the word's fields. -/
theorem isSome_ofOpcode (op : Nat) (w w' : CW) : (ofOpcode op w).isSome = (ofOpcode op w').isSome := by
  unfold ofOpcode
  split <;> rfl

/-- A SOP that is read is the SOP of the row of the instruction it gives, in either form of SFLAGS and of FABORT (R96, R417). -/
theorem srow_of_ofSop {sop : Nat} {w : SW} {i : Instr} (h : ofSop sop w = some i) :
    i.row = none ∧ ∃ r, i.srow = some (r, w) ∧ r.sop.toNat = sop := by
  unfold ofSop at h
  split at h <;> cases h
  any_goals split
  all_goals exact ⟨rfl, _, rfl, rfl⟩

theorem decodeCtx_ok {v : W64} {i : Instr} (h : decodeCtx v = .ok i) :
    ofOpcode (v.extractLsb' 56 8).toNat (CW.unpack v) = some i ∧ i.wf = true := by
  cases hc : ofOpcode (v.extractLsb' 56 8).toNat (CW.unpack v) with
  | none => simp only [decodeCtx, hc, reduceCtorEq] at h
  | some j =>
    rw [decodeCtx_of_ofOpcode hc] at h
    split at h
    · next hw => cases h; exact ⟨rfl, hw⟩
    · cases h

theorem decodeSeq_ok {sup : Bool} {v : W64} {i : Instr} (h : decodeSeq sup v = .ok i) :
    ofSop (v.extractLsb' 56 8).toNat (SW.unpack v) = some i ∧ i.wf = true := by
  cases hc : ofSop (v.extractLsb' 56 8).toNat (SW.unpack v) with
  | none => simp only [decodeSeq, hc, reduceCtorEq] at h
  | some j =>
    rw [decodeSeq_of_ofSop sup hc] at h
    split at h
    · cases h
    · split at h
      · next hw => cases h; exact ⟨rfl, hw⟩
      · cases h

/-- Settles O3: an accepted word is its code and its fields put together, and the row of what it gives holds both. -/
theorem encodeDecode : Obligations.EncodeDecode := by
  constructor
  case left =>
    intro v i h
    obtain ⟨hcode, hwf⟩ := decodeCtx_ok h
    obtain ⟨r, hrow, hop⟩ := row_of_ofOpcode hcode
    rw [encode_of_row hrow, BitVec.eq_of_toNat_eq hop, pack_unpack]
    exact ⟨rfl, hwf⟩
  case right =>
    intro sup v i h
    obtain ⟨hcode, hwf⟩ := decodeSeq_ok h
    obtain ⟨hno, r, hrow, hsop⟩ := srow_of_ofSop hcode
    rw [encode_of_srow hno hrow, BitVec.eq_of_toNat_eq hsop, spack_unpack]
    exact ⟨rfl, hwf⟩

/-- Settles O4: the four words by computation; a refusal names what the decoder judges first, and each assigned opcode has its row. -/
theorem wordsAreReadAndRefused : Obligations.WordsAreReadAndRefused := by
  refine ⟨⟨rfl, rfl, rfl, rfl⟩, fun v h => by simp only [decodeCtx, h], fun v i h => decodeCtx_of_ofOpcode h, fun op _ => ?rows⟩
  case rows =>
    cases h : (ofOpcode op default).isSome with
    | false => exact .inl fun w => by rw [← Option.isNone_iff_eq_none, ← Option.not_isSome, isSome_ofOpcode op w default, h]; rfl
    | true =>
      refine .inr fun w => ?_
      obtain ⟨i, hi⟩ := Option.isSome_iff_exists.mp ((isSome_ofOpcode op w default).trans h)
      obtain ⟨r, hrow, hop⟩ := row_of_ofOpcode hi
      exact ⟨i, r, hi, hrow, hop⟩

end Sys2Proof
end

section
/-! The frame of an element instruction (R52, R104, R109, R125, R212, R296, R409): whichever way a firing of the focused slot goes, it makes a
firing's change, one lemma for each shape of rule that the instructions' chapters give; SHARE writes its core's share table before it. -/

namespace Sys2Proof.Machine

open Sys2Proof Sys2Proof.Safety

/-! ## The shapes of a firing -/

theorem FiringChange.refl (w : CW) (sl : Slot) (s : State) : FiringChange w sl s s := .inl (Quiet.refl ..)

theorem Quiet.ite {sl : Slot} {s t u : State} {c : Prop} [Decidable c] (a : Quiet sl s t) (b : Quiet sl s u) :
    Quiet sl s (if c then t else u) := by
  split
  · exact a
  · exact b

theorem change_emitX (s : State) (w : CW) (fr : Firing) (x : Except Nat Token) : FiringChange w fr.sl s (emitX s w fr x) := change_conclude ..

theorem change_capNone (s : State) (w : CW) (fr : Firing) : FiringChange w fr.sl s (capNone s w fr) :=
  .of (quiet_popIq ..) (change_apply ..)

/-- A capability changes in its launch, which the frame of a firing leaves open (R208, R210). -/
theorem change_capChange (s : State) (w : CW) (fr : Firing) (old : Time) (new : Option Time) (out : Time) :
    FiringChange w fr.sl s (capChange s w fr old new out) := by
  unfold capChange
  dsimp only
  split
  · exact change_faultFiring ..
  · refine .ite _ (.of ?_ (change_apply ..))
    exact (quiet_popIq ..).trans (quiet_modLaunch _ fr.sl _ _ fun _ => rfl)

theorem change_releaseTok (s : State) (w : CW) (fr : Firing) (t : Token) : FiringChange w fr.sl s (releaseTok s w fr t) := change_apply ..

theorem quiet_dropClaim (s : State) (sl : Slot) (id : Ident) : Quiet sl s (dropClaim s sl id) :=
  Quiet.ite (quiet_setMstore ..) (Quiet.refl ..)

theorem quiet_holdTok {s t : State} {sl : Slot} {id : Ident} {x : Token} (h : holdTok s sl id x = some t) : Quiet sl s t := by
  unfold holdTok at h
  split at h
  · cases h
    exact quiet_setMstore ..
  · exact quiet_allocEntry h

theorem quiet_clearBare (s : State) (sl : Slot) : Quiet sl s (clearBare s sl) := Quiet.ite (quiet_setWalk ..) (Quiet.refl ..)

theorem quiet_breakSet {sl : Slot} {fr : Firing} (h : fr.sl = sl) (s : State) : Quiet sl s (breakSet s fr) := h ▸ quiet_breakAt ..

theorem quiet_setFrontQ (s : State) (sl : Slot) (l : List (Slot × OpSet)) : Quiet sl s { s with x := { s.x with frontQ := l } } :=
  Quiet.plain rfl rfl rfl rfl rfl rfl rfl rfl rfl rfl rfl

/-! ## Each instruction's rule -/

section Focused

variable {s : State} {sl : Slot} (hf : s.focus = .slot sl)
include hf

theorem firing_sl {fr : Firing} (h : firing s = some fr) : fr.sl = sl := by
  obtain ⟨hfocus, -, -⟩ := firing_some h
  simpa [hfocus] using hf

theorem bareFiring_sl {id : Ident} {fr : Firing} (h : bareFiring s id = some fr) : fr.sl = sl := by
  obtain ⟨hfocus, -⟩ := bareFiring_some h
  simpa [hfocus] using hf

/-- What a firing of the head set changes, it changes at the focused slot. -/
theorem change_focused {w : CW} {t : State} (h : t = s ∨ ∃ fr, firing s = some fr ∧ FiringChange w fr.sl s t) : FiringChange w sl s t := by
  obtain rfl | ⟨fr, hfr, h⟩ := h
  · exact .refl ..
  · exact firing_sl hf hfr ▸ h

theorem change_set {w : CW} {m x y : Bool} {ids : Nat → Nat} {body : Firing → State}
    (h : ∀ fr, FiringChange w fr.sl s (body fr)) : FiringChange w sl s (fireSet s w m x y ids body) :=
  change_focused hf (change_fireSet fun fr _ o => h { fr with set := o })

theorem change_own {w : CW} {body : Firing → State} (h : ∀ fr, FiringChange w fr.sl s (body fr)) : FiringChange w sl s (fireOwn s body) :=
  change_focused hf (change_fireOwn fun fr _ => h fr)

theorem change_fireAlu (w : CW) (op : Nat) (f : Nat → Nat → Nat → W64 × BitVec 5) : FiringChange w sl s (fireAlu s w op f) :=
  change_set hf fun _ => change_conclude ..

theorem change_firePort_focused (op : Op) (w : CW) : FiringChange w sl s (firePort s op w) := change_focused hf (change_firePort s op w)

theorem change_fireHist (op : Op) (w : CW) : FiringChange w sl s (fireHist s op w) := by
  refine change_own hf fun fr => ?_
  dsimp only
  split
  · exact change_conclude ..
  · exact change_issueReq ..

theorem change_steerGate (w : CW) (gate : Bool) : FiringChange w sl s (steerGate s w gate) := by
  refine change_own hf fun fr => ?_
  dsimp only
  split
  · exact change_conclude ..
  · split
    · exact change_conclude ..
    · split
      · exact change_commit ..
      · exact change_conclude ..

/-- A stream's rule may open the state of its set's identity, in the core's own matching store (R176, R184, R185). -/
theorem change_streamFire {w : CW} {onEnd onRec : Firing → RunSt → Bool → State → State}
    (hend : ∀ fr r had, FiringChange w fr.sl s (onEnd fr r had s))
    (hrec : ∀ fr r new t, Quiet fr.sl s t → FiringChange w fr.sl s (onRec fr r new t)) : FiringChange w sl s (streamFire s w onEnd onRec) := by
  refine change_own hf fun fr => ?_
  dsimp only
  split
  · exact change_conclude ..
  · split
    · exact change_commit ..
    · split
      · split
        · exact hend ..
        · exact hend ..
      · split
        · exact change_faultFiring ..
        · next hopen => exact hrec _ _ _ _ (quiet_openState hopen)

theorem change_consol {w : CW} {t : State} (h : exec (.consol w) s = .next t) : FiringChange w sl s t := by
  cases h
  refine change_streamFire hf (fun _ _ _ => change_commitFrom (quiet_freeState ..) ..) fun fr r new u q => ?_
  have put (r : RunSt) (e : Except Nat Emit) : FiringChange w fr.sl s (commitFrom s (setState u fr.sl.core fr.sl.e fr.set.id r) w fr e) :=
    change_commitFrom (q.trans (quiet_setState ..)) ..
  dsimp only
  split
  · split
    · split
      · exact change_faultFiring ..
      · exact put ..
    · exact put ..
  · exact put ..

theorem change_foldFire (w : CW) (all : Bool) : FiringChange w sl s (foldFire s w all) := by
  refine change_own hf fun fr => ?_
  dsimp only
  split
  · exact change_faultFiring ..
  · split
    · exact change_conclude ..
    · split
      · split
        · next halloc => exact .inl (((quiet_allocEntry halloc).trans (quiet_popIq ..)).trans (quiet_noteIssue ..))
        · exact change_faultFiring ..
      · split
        · exact change_faultFiring ..
        · next hopen =>
          have q := quiet_openState hopen
          split
          · exact change_commitFrom (q.trans (quiet_freeState ..)) ..
          · exact (change_commitFrom (q.trans (quiet_setState ..)) ..).then (quiet_promote ..)

/-- A walk's step takes its heads from the slot's walk registers (R180, R182). -/
theorem change_walkFire (w : CW) (op : WalkOp) : FiringChange w sl s (walkFire s w op) := by
  unfold walkFire
  rw [hf]
  dsimp only
  split
  · split
    · next fr ok hbare _ =>
      have hsl := bareFiring_sl hf hbare
      subst hsl
      split
      · exact .refl ..
      · split
        · exact .inl ((quiet_setWalk ..).trans (quiet_breakSet rfl _))
        · split
          · exact .inl (quiet_parkSet ..)
          · refine .ite _ (.of ?_ (change_apply_at (by rfl) ..))
            exact quiet_setWalk ..
    · exact .refl ..
  · exact .refl ..

/-- A source's arming stands in its launch, which the frame of a firing leaves open (R175). -/
theorem change_src {w : CW} {t : State} (h : exec (.src w) s = .next t) : FiringChange w sl s t := by
  cases h
  split
  · exact .refl ..
  · next fr hbare =>
    have hsl := bareFiring_sl hf hbare
    subst hsl
    dsimp only
    split
    · exact .refl ..
    · split
      · exact .refl ..
      · split
        · split
          · refine .inl (.trans ?_ (quiet_breakSet (by rfl) _))
            exact quiet_setWalk ..
          · split
            · exact .inl (quiet_parkSet ..)
            · refine .ite _ (.of ?_ (change_apply_at (by rfl) ..))
              exact (quiet_clearBare ..).trans (quiet_modLaunch _ fr.sl _ _ fun _ => rfl)
        · exact .refl ..

theorem change_enter {w : CW} {t : State} (h : exec (.enter w) s = .next t) : FiringChange w sl s t := by
  cases h
  refine change_own hf fun fr => ?_
  split
  · exact change_commit ..
  · exact change_conclude ..
  · split
    · exact change_commit ..
    · exact change_conclude ..

theorem change_loopBack (w : CW) : FiringChange w sl s (loopBack s w) := change_own hf fun _ => change_conclude ..

theorem change_tset {w : CW} {t : State} (h : exec (.tset w) s = .next t) : FiringChange w sl s t := by
  cases h
  refine change_own hf fun fr => ?_
  dsimp only
  split
  · exact change_commit ..
  · split
    · exact change_faultFiring ..
    · split
      · exact change_conclude ..
      · exact change_faultFiring ..

theorem change_capa {w : CW} {t : State} (h : exec (.capa w) s = .next t) : FiringChange w sl s t := by
  cases h
  refine change_own hf fun fr => ?_
  dsimp only
  split
  · exact change_capNone ..
  · split
    · exact change_faultFiring ..
    · split
      · exact change_capChange ..
      · exact change_faultFiring ..

theorem change_capd {w : CW} {t : State} (h : exec (.capd w) s = .next t) : FiringChange w sl s t := by
  cases h
  refine change_own hf fun fr => ?_
  split
  · exact change_capNone ..
  · split
    · exact change_faultFiring ..
    · exact change_capChange ..

/-- A probe holds its token in an entry of its core's matching store (R220). -/
theorem change_probe {w : CW} {t : State} (h : exec (.probe w) s = .next t) : FiringChange w sl s t := by
  cases h
  refine change_own hf fun fr => ?_
  split
  · exact .refl ..
  · split
    · split
      · exact .of ((quiet_popIq ..).trans (quiet_dropClaim ..)) (change_releaseTok ..)
      · exact .refl ..
    · split
      · next hheld => exact .inl (((quiet_holdTok hheld).trans (quiet_popIq ..)).trans (quiet_noteIssue ..))
      · exact change_faultFiring ..

/-- A frontier query leaves as a message, its answer's place reserved (R221). -/
theorem change_front {w : CW} {t : State} (h : exec (.front w) s = .next t) : FiringChange w sl s t := by
  cases h
  refine change_set hf fun fr => ?_
  dsimp only
  split
  · exact .inl (((((((quiet_popIq ..).trans (quiet_setHold ..)).trans (quiet_fresh ..)).trans (quiet_reserve ..)).trans (quiet_noteIssue ..)).trans
      (quiet_setFrontQ ..)).trans (quiet_sendPkt ..))
  · exact .refl ..

end Focused

/-! ## SHARE -/

/-- A share operation writes the share tables alone (R296). -/
theorem shareOp_ok {s t : State} {w : CW} {fr : Firing} (h : shareOp s w fr = .ok t) : ∃ l, t = { s with shares := l } := by
  unfold shareOp at h
  dsimp only at h
  split at h
  · cases h
  · split at h
    · cases h; exact ⟨_, rfl⟩
    · split at h
      · cases h; exact ⟨_, rfl⟩
      · split at h
        · cases h
        · cases h; exact ⟨_, rfl⟩

/-- A firing's change, from some share tables: those there are, but for SHARE. -/
def ElementChange (r : Row) (w : CW) (sl : Slot) (s t : State) : Prop :=
  ∃ l, FiringChange w sl { s with shares := l } t ∧ (r.op ≠ 0x9D#8 → l = s.shares)

theorem FiringChange.element {w : CW} {sl : Slot} {s t : State} (h : FiringChange w sl s t) (r : Row) : ElementChange r w sl s t :=
  ⟨s.shares, h, fun _ => rfl⟩

/-- SHARE's firing: the share tables that its operation leaves, and then a firing's change. -/
theorem change_fireShare {s : State} {sl : Slot} (hf : s.focus = .slot sl) {r : Row} (hop : r.op = 0x9D#8) (w : CW) :
    ElementChange r w sl s (fireShare s w) := by
  unfold fireShare
  cases hfr : firing s with
  | none => rw [fireSet_none hfr]; exact (FiringChange.refl ..).element r
  | some fr =>
    have hsl := firing_sl hf hfr
    subst hsl
    simp only [fireSet, hfr]
    split
    · exact FiringChange.element (.inl ((quiet_markBroke ..).trans (quiet_breakSet rfl _))) r
    · split
      · exact (change_conclude ..).element r
      · exact (change_conclude ..).element r
      · exact (change_commit ..).element r
      · exact (change_conclude ..).element r
      · exact (change_faultFiring ..).element r
      · next o _ =>
        have faults (c a : Nat) := (change_faultFiring s w { fr with set := o } true true c a).element r
        split
        · exact faults ..
        · split
          · exact (FiringChange.refl ..).element r
          · split
            · exact faults ..
            · next hshare =>
              obtain ⟨l, rfl⟩ := shareOp_ok hshare
              exact ⟨l, change_commit _ w { fr with set := o } _, absurd hop⟩

/-! ## Every element instruction -/

/-- Whatever its form and its outcome, an element instruction makes a firing's change; the other rows of the table have no context word. -/
theorem change_element {s t : State} {sl : Slot} (hf : s.focus = .slot sl) {i : Instr} {r : Row} {w : CW} (hrow : i.row = some (r, w))
    (h : exec i s = .next t) : ElementChange r w sl s t := by
  cases i with
  | abs | add | and | andn | bfi | bfx | clz | cmp | cvt | div | fabs | fadd | fcls | fcmp | fcvt | fma | fmax | fmin | fms
  | fmul | fneg | fnma | frcp | frnd | frsq | fscl | fsub | lane | mad | max | min | mov | mul | mulh | neg | not | or | popc
  | rem | rot | shl | shr | sra | sub | vins | vsum | xor => cases hrow; cases h; exact (change_fireAlu hf ..).element _
  | acq | armp | atom | bend | bin | cas | cpy | fatom | fill | gbind | gfree | hoist | ld | ldw | mclr | mcpy | mdrain | mload
  | mmask | mstat | mstrm | mswap | nextf | pfind | phdrop | phnew | phnext | phqry | phreg | phsig | phwait | pnew | pread
  | pwait | qpost | rel | st | std | strike | stwait | tagr | take => cases hrow; cases h; exact (change_firePort_focused hf ..).element _
  | happ | hcomp | hjoin | hmrg | hnew | hred | hseek | hstat => cases hrow; cases h; exact (change_fireHist hf ..).element _
  | dup | sel | timev => cases hrow; cases h; exact (change_set hf fun _ => change_conclude ..).element _
  | const | dset | ends | idnt | negd | null | rekey | valk => cases hrow; cases h; exact (change_set hf fun _ => change_emitX ..).element _
  | sink => cases hrow; cases h; exact (change_set hf fun _ => change_commit ..).element _
  | steer | gate => cases hrow; cases h; exact (change_steerGate hf ..).element _
  | tred | all => cases hrow; cases h; exact (change_foldFire hf ..).element _
  | isect | minus | union => cases hrow; cases h; exact (change_walkFire hf ..).element _
  | feed | leave => cases hrow; cases h; exact (change_loopBack hf ..).element _
  | cnt | scan =>
    cases hrow; cases h
    exact (change_streamFire hf (fun _ _ _ => change_commitFrom (quiet_freeState ..) ..) fun _ _ _ _ q =>
      change_commitFrom (q.trans (quiet_setState ..)) ..).element _
  | consol => cases hrow; exact (change_consol hf h).element _
  | src => cases hrow; exact (change_src hf h).element _
  | enter => cases hrow; exact (change_enter hf h).element _
  | tset => cases hrow; exact (change_tset hf h).element _
  | capa => cases hrow; exact (change_capa hf h).element _
  | capd => cases hrow; exact (change_capd hf h).element _
  | probe => cases hrow; exact (change_probe hf h).element _
  | front => cases hrow; exact (change_front hf h).element _
  | share | shareRemove => cases hrow; cases h; exact change_fireShare hf rfl _
  | _ => cases hrow

theorem FiringChange.shares_eq {w : CW} {sl : Slot} {s t : State} (h : FiringChange w sl s t) : t.shares = s.shares :=
  (congrArg State.shares h.loc.frame : (elemFrame t).shares = (elemFrame s).shares)

/-- Outside the next trace record's 32 bytes, and everywhere without TB, memory reads as before (R409). -/
theorem FiringChange.cellGet_eq {w : CW} {sl : Slot} {s t : State} (h : FiringChange w sl s t) {a : Nat}
    (ha : w.tb = 0 ∨ ∀ b, traceSlot s sl.core.f = some b → a < b ∨ b + 32 ≤ a) : cellGet t.mem a = cellGet s.mem a := by
  obtain htb | hout := ha
  · rw [h.mem_of_tb htb]
  · obtain ⟨hmem, -⟩ | ⟨b, bs, hb, hlen, hmem, -⟩ := h.memKept
    · rw [hmem]
    · rw [hmem, cellGet_cellsWrite_out bs (hlen ▸ hout b hb)]

/-- Settles O10: the change that an element instruction makes keeps to its slot, and a trace record is the one thing it writes to memory. -/
theorem elementFrame : Obligations.ElementFrame := by
  intro i r w s t sl hrow hfocus h
  obtain ⟨l, hchange, hl⟩ := change_element hfocus hrow h
  obtain rfl := hchange.shares_eq
  exact ⟨hchange.loc, hl, fun a ha => hchange.cellGet_eq ha⟩

end Sys2Proof.Machine
end

section
/-! How a step ends (R63, R404; log 3, 7, 36): one lemma for each way of running that says where it can stop. -/

namespace Sys2Proof.Machine

open Sys2Proof Sys2Proof.Safety

/-- Every instruction has a meaning, and every meaning answers a next state. -/
theorem exec_next (i : Instr) (s : State) : ∃ t, exec i s = .next t := by
  cases i <;> exact ⟨_, rfl⟩

theorem exec_ne_fault (i : Instr) (s : State) (r : Fault) : exec i s ≠ .fault r := by
  obtain ⟨t, ht⟩ := exec_next i s
  simp [ht]

theorem exec_ne_refused (i : Instr) (s : State) (r : Refusal) : exec i s ≠ .refused r := by
  obtain ⟨t, ht⟩ := exec_next i s
  simp [ht]

/-! ## The graph in focus -/

theorem focus_putGraph (s : State) (g : Graph) : (putGraph s g).focus = s.focus := by
  unfold putGraph
  split <;> rfl

theorem focus_chooseGraph (s : State) (f : Nat) (i : Option Nat) : (chooseGraph s f i).focus = .seq f i := by
  cases i with
  | none => rfl
  | some n =>
    simp only [chooseGraph]
    split
    · exact focus_putGraph ..
    · rfl

theorem focus_of_curGraph {s : State} {f : Nat} {g : Graph} (h : curGraph s = some (f, g)) : ∃ i, s.focus = .seq f i := by
  unfold curGraph at h
  split at h
  · next hf =>
    obtain ⟨_, -, hfg⟩ := Option.map_eq_some_iff.mp h
    cases hfg
    exact ⟨_, hf⟩
  · next hf =>
    obtain ⟨_, -, hfg⟩ := Option.map_eq_some_iff.mp h
    cases hfg
    exact ⟨_, hf⟩
  · cases h

/-- The graph that is chosen in a field runs in that field. -/
theorem field_of_chosen {s : State} {f f' : Nat} {i : Option Nat} {g : Graph} (h : curGraph (chooseGraph s f i) = some (f', g)) : f' = f := by
  obtain ⟨j, hj⟩ := focus_of_curGraph h
  rw [focus_chooseGraph] at hj
  cases hj
  rfl

/-! ## Where running stops -/

theorem fetchSlot_error {s : State} {sl : Slot} {e : Reject} (h : fetchSlot s sl = some (.error e)) :
    ∃ n, node? s sl = some n ∧ decodeCtx n.word = .error e := Option.map_eq_some_iff.mp h

theorem fetchSeq_error {g : Graph} {e : Reject} (h : fetchSeq g = some (.error e)) :
    ∃ v, g.words[g.pc]? = some v ∧ decodeSeq g.sup v = .error e := Option.map_eq_some_iff.mp h

theorem runFire_fault {s : State} {sl : Slot} {r : Fault} (h : runFire s sl = .fault r) :
    r = .illegalWord ∧ ∃ n e, node? s sl = some n ∧ decodeCtx n.word = .error e := by
  unfold runFire at h
  split at h
  · cases h
  · next e he =>
    cases h
    obtain ⟨n, hn⟩ := fetchSlot_error he
    exact ⟨rfl, n, e, hn⟩
  · exact absurd h (exec_ne_fault _ _ _)

theorem runFire_ne_refused (s : State) (sl : Slot) (r : Refusal) : runFire s sl ≠ .refused r := by
  unfold runFire
  split
  · simp
  · simp
  · exact exec_ne_refused _ _ _

theorem runGraph_fault {s : State} {r : Fault} (h : runGraph s = .fault r) :
    r = .illegalWord ∧ ∃ f g v e, curGraph s = some (f, g) ∧ g.words[g.pc]? = some v ∧ decodeSeq g.sup v = .error e := by
  unfold runGraph at h
  split at h
  · cases h
  · next f g hg =>
    split at h
    · cases h
    · next e he =>
      cases h
      obtain ⟨v, hv⟩ := fetchSeq_error he
      exact ⟨rfl, f, g, v, e, hg, hv⟩
    · exact absurd h (exec_ne_fault _ _ _)

theorem runGraph_ne_refused (s : State) (r : Refusal) : runGraph s ≠ .refused r := by
  unfold runGraph
  split
  · simp
  · split
    · simp
    · simp
    · exact exec_ne_refused _ _ _

theorem runWord_fault {s : State} {f : Nat} {r : Fault} (h : runWord s f = .fault r) :
    r = .illegalWord ∧ ∃ k g v e, pickGraph s f = some k ∧ curGraph (chooseGraph s f k) = some (f, g) ∧ g.words[g.pc]? = some v ∧
      decodeSeq g.sup v = .error e := by
  unfold runWord at h
  split at h
  · cases h
  · split at h
    · cases h
    · next k hk =>
      obtain ⟨hr, f', g, v, e, hg, hv⟩ := runGraph_fault h
      obtain rfl := field_of_chosen hg
      exact ⟨hr, k, g, v, e, hk, hg, hv⟩

theorem runWord_ne_refused (s : State) (f : Nat) (r : Refusal) : runWord s f ≠ .refused r := by
  unfold runWord
  split
  · simp
  · split
    · simp
    · exact runGraph_ne_refused _ _

theorem runEvent_ne_fault (s : State) (i : Instr) (r : Fault) : runEvent s i ≠ .fault r := by
  unfold runEvent
  split
  · simp
  · split
    · exact exec_ne_fault _ _ _
    · simp

theorem runEvent_refused {s : State} {i : Instr} {r : Refusal} (h : runEvent s i = .refused r) : r = .notAnEvent ∧ i.isEvent = false := by
  unfold runEvent at h
  split at h
  · next hi =>
    cases h
    exact ⟨rfl, by simpa using hi⟩
  · split at h
    · exact absurd h (exec_ne_refused _ _ _)
    · cases h

theorem runAct_fault {s : State} {a : Act} {r : Fault} (h : runAct s a = .fault r) : r = .illegalWord ∧
    ((∃ sl n e, a = .fire sl ∧ node? s sl = some n ∧ decodeCtx n.word = .error e) ∨
     ∃ f k g v e, a = .word f ∧ pickGraph s f = some k ∧ curGraph (chooseGraph s f k) = some (f, g) ∧ g.words[g.pc]? = some v ∧
       decodeSeq g.sup v = .error e) := by
  cases a with
  | fire sl =>
    obtain ⟨hr, n, e, hn⟩ := runFire_fault h
    exact ⟨hr, .inl ⟨sl, n, e, rfl, hn⟩⟩
  | word f =>
    obtain ⟨hr, k, g, v, e, hk⟩ := runWord_fault h
    exact ⟨hr, .inr ⟨f, k, g, v, e, rfl, hk⟩⟩
  | event i => exact absurd h (runEvent_ne_fault _ _ _)
  | upset u => cases h

theorem runAct_refused {s : State} {a : Act} {r : Refusal} (h : runAct s a = .refused r) :
    r = .notAnEvent ∧ ∃ i, a = .event i ∧ i.isEvent = false := by
  cases a with
  | fire sl => exact absurd h (runFire_ne_refused _ _ _)
  | word f => exact absurd h (runWord_ne_refused _ _ _)
  | event i =>
    obtain ⟨hr, hi⟩ := runEvent_refused h
    exact ⟨hr, i, rfl, hi⟩
  | upset u => cases h

/-! ## Between steps -/

theorem restOut_fault {o : Host.Outcome State Fault Refusal} {r : Fault} (h : restOut o = .fault r) : o = .fault r := by
  cases o with
  | fault q => exact h
  | next s => cases h
  | refused q => cases h

theorem restOut_refused {o : Host.Outcome State Fault Refusal} {r : Refusal} (h : restOut o = .refused r) : o = .refused r := by
  cases o with
  | refused q => exact h
  | next s => cases h
  | fault q => cases h

theorem atRest_rest (s : State) : AtRest (rest s) := ⟨rfl, rfl⟩

theorem restOut_next {o : Host.Outcome State Fault Refusal} {t : State} (h : restOut o = .next t) : AtRest t := by
  cases o with
  | next s => cases h; exact atRest_rest s
  | fault q => cases h
  | refused q => cases h

/-- Settles O6: a step stops where the run of its happening does; what follows a step before leaves the nodes where they are. -/
theorem stepsEnd : Obligations.StepsEnd := by
  refine ⟨exec_next, fun s r h => ?fault, fun s r h => ?refused, fun s t h => restOut_next h⟩
  case fault =>
    obtain ⟨hr, hstop⟩ := runAct_fault (restOut_fault h)
    refine ⟨hr, _, _, rfl, hstop.imp_left fun ⟨sl, n, e, hact, hn, he⟩ => ⟨sl, n, e, hact, ?_, he⟩⟩
    rwa [node?_rest_tickAll] at hn
  case refused =>
    obtain ⟨hr, i, hi⟩ := runAct_refused (restOut_refused h)
    exact ⟨hr, _, _, i, rfl, hi⟩

end Sys2Proof.Machine
end

section
/-! What a firing leaves (R52, R104, R109, R118, R119): its set is gone from the queue's head, its flags are ORed in, A is in the hold register
under HD, and its tokens stand at the ends of the edge buffers; counts, progress and trace come after and touch none of these. -/

namespace Sys2Proof.Machine

open Sys2Proof Sys2Proof.Safety

/-! ## The circuits that a firing leaves as they are (R56, R57, R62) -/

theorem reach_congr {s t : State} (h : t.x.routes = s.x.routes) (fuel : Nat) (c : CoreId) (side cls n : Nat) :
    reach t fuel c side cls n = reach s fuel c side cls n := by
  induction fuel generalizing c side cls n with
  | zero => rfl
  | succ fuel ih => simp only [reach, routesOf, h, ih]

/-- What a firing may touch of a launch is not its cut edges. -/
theorem cutOf_elemFrame (s : State) (g : EdgeId) : cutOf (elemFrame s) g = cutOf s g := by
  unfold cutOf
  exact List.findSome?_map

theorem targets_elemFrame (s : State) (g : EdgeId) : targets (elemFrame s) g = targets s g := by
  have hbinding : binding (elemFrame s) g.core g.e g.port = binding s g.core g.e g.port := rfl
  have hreach := reach_congr (s := s) (t := elemFrame s) rfl
  simp only [targets, hbinding, hreach, cutOf_elemFrame]

/-- A firing reaches after it the inputs that it reached before. -/
theorem Quiet.targets {sl : Slot} {s t : State} (q : Quiet sl s t) (g : EdgeId) : targets t g = targets s g := by
  rw [← targets_elemFrame t, q.loc.frame, targets_elemFrame]

/-! ## What comes before and after a firing's tokens -/

/-- Queues, sticky flags and hold registers stand as they did. -/
structure RegsKept (s t : State) : Prop where
  iq    : t.x.iq = s.x.iq
  flags : t.x.flags = s.x.flags
  hold  : t.x.hold = s.x.hold

theorem RegsKept.trans {s t u : State} (a : RegsKept s t) (b : RegsKept t u) : RegsKept s u :=
  ⟨b.iq.trans a.iq, b.flags.trans a.flags, b.hold.trans a.hold⟩

theorem regsKept_putTok (s : State) (sl : Slot) (p : Nat) (t : Token) : RegsKept s (putTok s sl p t) := by
  unfold putTok
  dsimp only
  split
  · exact ⟨rfl, rfl, rfl⟩
  · split <;> exact ⟨rfl, rfl, rfl⟩

theorem regsKept_putToks (s : State) (sl : Slot) (p : Nat) (ts : List Token) : RegsKept s (putToks s sl p ts) := by
  induction ts generalizing s with
  | nil => exact ⟨rfl, rfl, rfl⟩
  | cons t ts ih => exact (regsKept_putTok s sl p t).trans (ih _)

/-- So do the edge buffers. -/
structure SlotsKept (s t : State) : Prop where
  regs  : RegsKept s t
  edges : t.x.edges = s.x.edges

theorem SlotsKept.trans {s t u : State} (a : SlotsKept s t) (b : SlotsKept t u) : SlotsKept s u :=
  ⟨a.regs.trans b.regs, b.edges.trans a.edges⟩

theorem SlotsKept.of_x {s t : State} (h : t.x = s.x) : SlotsKept s t := by
  constructor
  · constructor <;> rw [h]
  · rw [h]

theorem slotsKept_setCtab (s : State) (l : Tbl CoreId (List CEntry)) : SlotsKept s { s with x := { s.x with ctab := l } } :=
  ⟨⟨rfl, rfl, rfl⟩, rfl⟩

theorem foldl_x {α : Type} {f : State → α → State} (hf : ∀ s a, (f s a).x = s.x) (l : List α) (s : State) : (l.foldl f s).x = s.x := by
  induction l generalizing s with
  | nil => rfl
  | cons a l ih => exact (ih (f s a)).trans (hf s a)

/-- Sending a count table puts messages in flight and empties it (R213). -/
theorem slotsKept_flushCounts (s : State) (c : CoreId) : SlotsKept s (flushCounts s c) := by
  simp only [flushCounts]
  refine .trans ?_ (slotsKept_setCtab ..)
  refine .of_x (foldl_x (fun _ _ => ?_) ..)
  rfl

theorem slotsKept_record (s : State) (c : CoreId) (lid : Nat) (is : List CountItem) (after : Bool) : SlotsKept s (record s c lid is after) := by
  have sent (b : Bool) (t : State) : SlotsKept t (if b then flushCounts t c else t) := by
    split
    · exact slotsKept_flushCounts ..
    · exact .of_x rfl
  simp only [record]
  refine .trans (.trans ?_ (slotsKept_setCtab ..)) (sent _ _)
  split
  · exact .of_x rfl
  · exact slotsKept_flushCounts ..

theorem noteIssue_x (s : State) (fr : Firing) : (noteIssue s fr).x = s.x := by
  simp only [noteIssue, noteFiring, progress]
  split <;> rfl

theorem trace_x (s : State) (sl : Slot) (o : OpSet) (v : W64) : (trace s sl o v).x = s.x := by
  unfold trace
  generalize traceBytes s sl o v = bs
  split
  · rfl
  · dsimp only
    split
    · rfl
    · split <;> rfl

/-! ## Edge buffers -/

theorem edgeOf_setEdge_self (s : State) (g : EdgeId) (b : EdgeSt) : edgeOf (setEdge s g b) g = b := tgetD_tset_self ..

theorem edgeOf_setEdge_ne (s : State) {g g' : EdgeId} (b : EdgeSt) (h : g ≠ g') : edgeOf (setEdge s g b) g' = edgeOf s g' := tgetD_tset_ne _ _ _ h

/-- An output that reaches no input discards what is put out (R33). -/
theorem putToks_unbound {s : State} {sl : Slot} {p : Nat} (h : targets s ⟨sl.core, sl.e, p⟩ = []) (ts : List Token) : putToks s sl p ts = s := by
  induction ts with
  | nil => rfl
  | cons t ts ih => rw [putToks, putTok, h]; exact ih

theorem edgeOf_putToks_port {s : State} {sl : Slot} {p q : Nat} (h : p ≠ q) (ts : List Token) :
    edgeOf (putToks s sl p ts) ⟨sl.core, sl.e, q⟩ = edgeOf s ⟨sl.core, sl.e, q⟩ := by
  have hne (b : EdgeSt) (s : State) : edgeOf (setEdge s ⟨sl.core, sl.e, p⟩ b) ⟨sl.core, sl.e, q⟩ = edgeOf s ⟨sl.core, sl.e, q⟩ :=
    edgeOf_setEdge_ne s b (by simpa using h)
  induction ts generalizing s with
  | nil => rfl
  | cons t ts ih =>
    rw [putToks, ih]
    unfold putTok
    dsimp only
    split
    · rfl
    · split <;> exact hne ..

theorem edgeOf_putTok {s : State} {sl : Slot} {p : Nat} (t : Token) (ht : targets s ⟨sl.core, sl.e, p⟩ ≠ [])
    (hw : (edgeOf s ⟨sl.core, sl.e, p⟩).wait = []) :
    edgeOf (putTok s sl p t) ⟨sl.core, sl.e, p⟩ = ⟨(edgeOf s ⟨sl.core, sl.e, p⟩).buf ++ [bufTok s ⟨sl.core, sl.e, p⟩ t], []⟩ := by
  simp [putTok, ht, hw, edgeOf_setEdge_self]

theorem edgeOf_putToks {s : State} {sl : Slot} {p : Nat} (ts : List Token) (ht : targets s ⟨sl.core, sl.e, p⟩ ≠ [])
    (hw : (edgeOf s ⟨sl.core, sl.e, p⟩).wait = []) :
    edgeOf (putToks s sl p ts) ⟨sl.core, sl.e, p⟩ = ⟨(edgeOf s ⟨sl.core, sl.e, p⟩).buf ++ ts.map (bufTok s ⟨sl.core, sl.e, p⟩), []⟩ := by
  induction ts generalizing s with
  | nil => rw [putToks, List.map_nil, List.append_nil, ← hw]
  | cons t ts ih =>
    have hput := edgeOf_putTok t ht hw
    have htargets := (quiet_putTok s sl p t).targets ⟨sl.core, sl.e, p⟩
    have htok : bufTok (putTok s sl p t) ⟨sl.core, sl.e, p⟩ = bufTok s ⟨sl.core, sl.e, p⟩ := funext fun u => by rw [bufTok, bufTok, htargets]
    rw [putToks, ih (htargets ▸ ht) (by rw [hput]), hput, htok, List.append_assoc]
    rfl

/-- An output that reaches no input keeps its buffer, whatever port the tokens go to. -/
theorem edgeOf_putToks_unbound {s : State} {sl : Slot} {q : Nat} (h : targets s ⟨sl.core, sl.e, q⟩ = []) (p : Nat) (ts : List Token) :
    edgeOf (putToks s sl p ts) ⟨sl.core, sl.e, q⟩ = edgeOf s ⟨sl.core, sl.e, q⟩ := by
  by_cases hp : p = q
  · rw [hp, putToks_unbound h]
  · exact edgeOf_putToks_port hp ts

/-! ## A firing -/

/-- A firing before its tokens: the set gone, the flags raised, the hold register written. -/
def beforeTokens (s : State) (w : CW) (fr : Firing) (e : Emit) : State :=
  let u := orFlags (popIq s fr.sl) fr.sl e.flags
  if e.exec_ then setHold u w fr else u

/-- A firing with its tokens put out. -/
def withTokens (s : State) (w : CW) (fr : Firing) (e : Emit) : State :=
  putToks (putToks (beforeTokens s w fr e) fr.sl 4 e.x) fr.sl 5 e.y

/-- Counts, progress and trace come after the tokens. -/
theorem slotsKept_fired (s : State) (w : CW) (fr : Firing) (e : Emit) : SlotsKept (withTokens s w fr e) (fired s w fr e) := by
  unfold fired apply
  dsimp only
  split
  · exact (slotsKept_record ..).trans (.of_x ((trace_x ..).trans (noteIssue_x ..)))
  · exact (slotsKept_record ..).trans (.of_x (noteIssue_x ..))

theorem quiet_beforeTokens (s : State) (w : CW) (fr : Firing) (e : Emit) : Quiet fr.sl s (beforeTokens s w fr e) := by
  refine ((quiet_popIq ..).trans (quiet_orFlags _ fr.sl e.flags)).trans ?_
  unfold beforeTokens
  dsimp only
  split
  · exact quiet_setHold ..
  · exact Quiet.refl ..

theorem regsKept_fired (s : State) (w : CW) (fr : Firing) (e : Emit) : RegsKept (beforeTokens s w fr e) (fired s w fr e) :=
  ((regsKept_putToks ..).trans (regsKept_putToks ..)).trans (slotsKept_fired ..).regs

theorem iq_beforeTokens (s : State) (w : CW) (fr : Firing) (e : Emit) : (beforeTokens s w fr e).x.iq = (popIq s fr.sl).x.iq := by
  unfold beforeTokens setHold orFlags
  split_ifs <;> rfl

theorem edges_beforeTokens (s : State) (w : CW) (fr : Firing) (e : Emit) : (beforeTokens s w fr e).x.edges = s.x.edges := by
  unfold beforeTokens setHold orFlags
  split_ifs <;> rfl

theorem flagsOf_orFlags (s : State) (sl : Slot) (fl : BitVec 5) : flagsOf (orFlags s sl fl) sl = flagsOf s sl ||| fl := by
  unfold orFlags
  split
  · next h => rw [h]; exact BitVec.or_zero.symm
  · exact tgetD_tset_self ..

theorem flagsOf_setHold (s : State) (w : CW) (fr : Firing) (sl : Slot) : flagsOf (setHold s w fr) sl = flagsOf s sl := by
  unfold setHold
  split <;> rfl

theorem holdOf_orFlags (s : State) (sl z : Slot) (fl : BitVec 5) : holdOf (orFlags s sl fl) z = holdOf s z := by
  unfold orFlags
  split <;> rfl

theorem holdOf_setHold (s : State) (w : CW) (fr : Firing) :
    holdOf (setHold s w fr) fr.sl = if w.hd = 1 then bitsA w fr else holdOf s fr.sl := by
  unfold setHold
  split
  · exact tgetD_tset_self ..
  · rfl

theorem flagsOf_beforeTokens (s : State) (w : CW) (fr : Firing) (e : Emit) :
    flagsOf (beforeTokens s w fr e) fr.sl = flagsOf s fr.sl ||| e.flags := by
  have raised : flagsOf (orFlags (popIq s fr.sl) fr.sl e.flags) fr.sl = flagsOf s fr.sl ||| e.flags := flagsOf_orFlags ..
  unfold beforeTokens
  dsimp only
  split
  · rw [flagsOf_setHold, raised]
  · exact raised

theorem holdOf_beforeTokens (s : State) (w : CW) (fr : Firing) (e : Emit) :
    holdOf (beforeTokens s w fr e) fr.sl = if w.hd = 1 ∧ e.exec_ = true then bitsA w fr else holdOf s fr.sl := by
  have kept : holdOf (orFlags (popIq s fr.sl) fr.sl e.flags) fr.sl = holdOf s fr.sl := holdOf_orFlags ..
  unfold beforeTokens
  dsimp only
  split
  · next h => rw [holdOf_setHold, kept]; simp only [h, and_true]
  · next h => rw [kept, if_neg fun hh => h hh.2]

/-! ## The edge buffers of its outputs -/

theorem edgeOf_fired (s : State) (w : CW) (fr : Firing) (e : Emit) (g : EdgeId) : edgeOf (fired s w fr e) g = edgeOf (withTokens s w fr e) g := by
  rw [edgeOf, edgeOf, (slotsKept_fired s w fr e).edges]

theorem edgeOf_beforeTokens (s : State) (w : CW) (fr : Firing) (e : Emit) (g : EdgeId) : edgeOf (beforeTokens s w fr e) g = edgeOf s g := by
  rw [edgeOf, edgeOf, edges_beforeTokens]

/-- Tokens put out where nothing else has touched the output's buffer since a quiet change. -/
theorem edgeOf_putToks_after {s u : State} {sl : Slot} {p : Nat} (q : Quiet sl s u)
    (hedge : edgeOf u ⟨sl.core, sl.e, p⟩ = edgeOf s ⟨sl.core, sl.e, p⟩) (ts : List Token) (ht : targets s ⟨sl.core, sl.e, p⟩ ≠ [])
    (hw : (edgeOf s ⟨sl.core, sl.e, p⟩).wait = []) :
    edgeOf (putToks u sl p ts) ⟨sl.core, sl.e, p⟩ = ⟨(edgeOf s ⟨sl.core, sl.e, p⟩).buf ++ ts.map (bufTok s ⟨sl.core, sl.e, p⟩), []⟩ := by
  have htok : bufTok u ⟨sl.core, sl.e, p⟩ = bufTok s ⟨sl.core, sl.e, p⟩ := funext fun t => by rw [bufTok, bufTok, q.targets]
  rw [edgeOf_putToks ts (by rwa [q.targets]) (by rwa [hedge]), hedge, htok]

/-- Settles O12: of the parts of a firing each register and each edge buffer is touched by one. -/
theorem firingEffects : Obligations.FiringEffects := by
  intro s w fr e t sl
  have regs := regsKept_fired s w fr e
  have before := quiet_beforeTokens s w fr e
  refine ⟨?iq, ?flags, ?hold, ?x, ?y, ?unbound⟩
  case iq =>
    rw [iqOf, regs.iq, iq_beforeTokens]
    exact tgetD_tset_self ..
  case flags => rw [flagsOf, regs.flags]; exact flagsOf_beforeTokens ..
  case hold => rw [holdOf, regs.hold]; exact holdOf_beforeTokens ..
  case x =>
    intro g ht hw
    rw [edgeOf_fired, withTokens, edgeOf_putToks_port (by decide)]
    exact edgeOf_putToks_after before (edgeOf_beforeTokens ..) e.x ht hw
  case y =>
    intro g ht hw
    rw [edgeOf_fired, withTokens]
    refine edgeOf_putToks_after (before.trans (quiet_putToks ..)) ?_ e.y ht hw
    rw [edgeOf_putToks_port (by decide), edgeOf_beforeTokens]
  case unbound =>
    intro p hp
    have h1 := before.targets ⟨sl.core, sl.e, p⟩
    have h2 := (quiet_putToks (beforeTokens s w fr e) sl 4 e.x).targets ⟨sl.core, sl.e, p⟩
    rw [edgeOf_fired, withTokens, edgeOf_putToks_unbound (h2.trans (h1.trans hp)), edgeOf_putToks_unbound (h1.trans hp), edgeOf_beforeTokens]

end Sys2Proof.Machine
end

section
/-! The graph in focus (R69, R85, R86, R96 to R99, R143, R401): what a word finds when it reads and replaces its own graph, the words that touch
nothing else, and what a fault of a word leaves. -/

namespace Sys2Proof.Machine

open Sys2Proof Sys2Proof.Safety

/-! ## Reading a list after one entry is replaced -/

theorem setAt_eq_set {α : Type} (l : List α) (n : Nat) (a : α) : setAt l n a = l.set n a := by
  induction l generalizing n with
  | nil => rfl
  | cons b l ih =>
    cases n with
    | zero => rfl
    | succ n => rw [setAt, List.set_cons_succ, ih]

theorem getElem?_setAt_self {α : Type} {l : List α} {n : Nat} {b : α} (a : α) (h : l[n]? = some b) : (setAt l n a)[n]? = some a := by
  rw [setAt_eq_set]
  exact List.getElem?_set_self (List.getElem?_eq_some_iff.mp h).1

theorem getElem?_setAt_ne {α : Type} (l : List α) {n m : Nat} (a : α) (h : n ≠ m) : (setAt l n a)[m]? = l[m]? := by
  rw [setAt_eq_set]
  exact List.getElem?_set_ne h

/-! ## The focused graph, replaced -/

section
variable {s t : State} {f : Nat} {g : Graph}

theorem seqWord_eq (h : curGraph s = some (f, g)) (k : Nat → Graph → State) : seqWord s k = k f g := by simp only [seqWord, h]

/-- The focus names a resident graph, or the supervisor graph of its field. -/
theorem curGraph_cases (h : curGraph s = some (f, g)) :
    (∃ i, s.focus = .seq f (some i) ∧ (graphsOf s f)[i]? = some g) ∨ (s.focus = .seq f none ∧ (seqrOf s f).sup = some g) := by
  obtain ⟨i, hf⟩ := focus_of_curGraph h
  cases i with
  | some i => exact .inl ⟨i, hf, by simpa [curGraph, hf] using h⟩
  | none => exact .inr ⟨hf, by simpa [curGraph, hf] using h⟩

theorem putGraph_resident {i : Nat} (h : s.focus = .seq f (some i)) (g : Graph) :
    putGraph s g = { s with x := { s.x with graphs := tset s.x.graphs f (setAt (graphsOf s f) i g) } } := by simp only [putGraph, h]

theorem putGraph_sup (h : s.focus = .seq f none) (g : Graph) :
    putGraph s g = { s with seqrs := tset s.seqrs f { seqrOf s f with sup := some g } } := by simp only [putGraph, h]

theorem curGraph_congr (hf : t.focus = s.focus) (hg : t.x.graphs = s.x.graphs) (hq : t.seqrs = s.seqrs) : curGraph t = curGraph s := by
  simp only [curGraph, graphsOf, seqrOf, hf, hg, hq]

/-- A change that keeps a firing's frame keeps the graph in focus. -/
theorem curGraph_quiet {sl : Slot} (q : Quiet sl s t) : curGraph t = curGraph s :=
  curGraph_congr (congrArg State.focus q.loc.frame :) (congrArg (fun u => u.x.graphs) q.loc.frame :) (congrArg State.seqrs q.loc.frame :)

@[simp] theorem flagw_putGraph (s : State) (g : Graph) : (putGraph s g).x.flagw = s.x.flagw := by
  unfold putGraph
  split <;> rfl

@[simp] theorem mem_putGraph (s : State) (g : Graph) : (putGraph s g).mem = s.mem := by
  unfold putGraph
  split <;> rfl

@[simp] theorem recQ_putGraph (s : State) (g : Graph) : (putGraph s g).recQ = s.recQ := by
  unfold putGraph
  split <;> rfl

@[simp] theorem net_putGraph (s : State) (g : Graph) : (putGraph s g).net = s.net := by
  unfold putGraph
  split <;> rfl

@[simp] theorem regw_putGraph (s : State) (g : Graph) : (putGraph s g).regw = s.regw := by
  unfold putGraph
  split <;> rfl

/-- Replacing the focused graph touches nothing else. -/
theorem onlyGraph_putGraph (h : curGraph s = some (f, g)) (g' : Graph) : OnlyGraph s (putGraph s g') f g' := by
  obtain ⟨i, hf, hi⟩ | ⟨hf, -⟩ := curGraph_cases h
  · rw [putGraph_resident hf]
    refine ⟨?cur, rfl, fun k hk => ⟨tgetD_tset_ne _ _ _ hk.symm, rfl⟩, fun j hj => ?beside⟩
    case cur =>
      have hset : (setAt (graphsOf s f) i g')[i]? = some g' := getElem?_setAt_self g' hi
      simp only [curGraph, hf, graphsOf, tgetD_tset_self] at hset ⊢
      rw [hset, Option.map_some]
    case beside =>
      have hij : i ≠ j := fun e => hj (e ▸ hf)
      simp [graphsOf, getElem?_setAt_ne _ g' hij]
  · rw [putGraph_sup hf]
    exact ⟨by simp [curGraph, hf, seqrOf], rfl, fun k hk => ⟨rfl, tgetD_tset_ne _ _ _ hk.symm⟩, fun _ _ => rfl⟩

theorem curGraph_putGraph (h : curGraph s = some (f, g)) (g' : Graph) : curGraph (putGraph s g') = some (f, g') := (onlyGraph_putGraph h g').cur

/-- A word whose effect is its own graph's new state. -/
theorem exec_onlyGraph {i : Instr} {g' : Graph} (h : curGraph s = some (f, g)) (he : exec i s = .next (putGraph s g')) :
    ∃ t, exec i s = .next t ∧ OnlyGraph s t f g' := ⟨_, he, onlyGraph_putGraph h g'⟩

/-! ## Scalar words and branches (R85, R86, R143) -/

theorem scalar_eq (h : curGraph s = some (f, g)) (w : SW) (v : Graph → W64) : scalar s w v = putGraph s (g.setReg w.d (v g)).next :=
  seqWord_eq h _

/-- A branch whose test decides P. -/
theorem branch_eq (h : curGraph s = some (f, g)) (w : SW) {c : Graph → Bool} {P : Prop} [Decidable P] (hc : c g = true ↔ P) :
    branch s w c = putGraph s { g with pc := if P then w.imm.toNat else g.pc + 1 } := by
  rw [branch, seqWord_eq h, if_congr hc rfl rfl]

theorem exec_scalar {i : Instr} {w : SW} {op : W64 → W64 → W64} (hr : scalarRule i = some (w, op)) (h : curGraph s = some (f, g)) :
    exec i s = .next (putGraph s (g.setReg w.d (op (g.reg w.a) (opndOf w g))).next) := by
  unfold scalarRule at hr
  split at hr <;> cases hr <;> exact congrArg Host.Outcome.next (scalar_eq h ..)

theorem exec_branch {i : Instr} {n : Nat} (hr : branchRule i g = some n) (h : curGraph s = some (f, g)) :
    exec i s = .next (putGraph s { g with pc := n }) := by
  unfold branchRule at hr
  split at hr
  next => cases hr; exact congrArg Host.Outcome.next (seqWord_eq h _)
  next => cases hr; exact congrArg Host.Outcome.next (branch_eq h _ beq_iff_eq)
  next => cases hr; exact congrArg Host.Outcome.next (branch_eq h _ bne_iff_ne)
  next => cases hr; exact congrArg Host.Outcome.next (branch_eq h _ decide_eq_true_iff)
  next =>
    obtain ⟨hin, rfl⟩ : (g.reg _).toNat < g.words.length ∧ (g.reg _).toNat = n := by simpa using hr
    exact congrArg Host.Outcome.next ((seqWord_eq h _).trans (if_neg (Nat.not_le.mpr hin)))
  next => cases hr

theorem exec_sret_outside {w : SW} (h : curGraph s = some (f, g)) (hr : g.words.length ≤ (g.reg w.a).toNat) :
    exec (.sret w) s = .next (graphFault s f g Code.cfgField 0) :=
  congrArg Host.Outcome.next ((seqWord_eq h _).trans (if_pos hr))

theorem flagw_orWord (s : State) (lid f : Nat) (fl : BitVec 5) :
    tgetD (orWord s lid f fl).x.flagw (lid, f) 0 = tgetD s.x.flagw (lid, f) 0 ||| fl := by
  rw [orWord]
  split
  next h => rw [h]; exact BitVec.or_zero.symm
  next => exact tgetD_tset_self ..

theorem curGraph_orWord (s : State) (lid k : Nat) (fl : BitVec 5) : curGraph (orWord s lid k fl) = curGraph s := by
  rw [orWord]
  split <;> rfl

theorem exec_sfadd {w : SW} (h : curGraph s = some (f, g)) :
    exec (.sfadd w) s = .next (putGraph (if g.sup then s else orWord s g.lid f (sfaddOf w g).2)
      (g.setReg w.d (BitVec.ofNat 64 (sfaddOf w g).1)).next) := congrArg Host.Outcome.next (seqWord_eq h _)

/-! ## The end of a turn (R96, R99) -/

/-- A turn that ends leaves the graphs as they are. -/
theorem onlyGraph_rotate {g' : Graph} (h : OnlyGraph s t f g') : OnlyGraph s (rotate t f) f g' := by
  obtain ⟨cur, rest, others, beside⟩ := h
  refine ⟨?cur, rest, fun k hk => ⟨(others k hk).1, (tgetD_tset_ne _ _ _ hk.symm).trans (others k hk).2⟩, beside⟩
  obtain ⟨i, hf, hi⟩ | ⟨hf, hs⟩ := curGraph_cases cur
  · have hi : (graphsOf (rotate t f) f)[i]? = some g' := hi
    simp only [curGraph, rotate, hf]
    exact congrArg (Option.map fun g => (f, g)) hi
  · have hs : (seqrOf (rotate t f) f).sup = some g' := by simpa [rotate, seqrOf] using hs
    simp only [curGraph, rotate, hf]
    exact congrArg (Option.map fun g => (f, g)) hs

theorem run_rotate (s : State) (f : Nat) : (seqrOf (rotate s f) f).run = 0 := by simp [rotate, seqrOf]

theorem exec_graphQuantum (h : 64 ≤ (seqrOf s f).run) : exec (.graphQuantum f) s = .next (rotate s f) :=
  congrArg Host.Outcome.next (if_pos h)

/-! ## Faults of a word (R97, R401) -/

theorem fst_reportFault (s : State) (r : FRec) : (reportFault s r).1 = s.serial := by
  simp only [reportFault, report]
  split <;> rfl

theorem mem_recQ_report {r : FRec} {p : Nat} (h : partOfField s r.field = some p) :
    { r with rid := s.serial, part := p, unitw := BitVec.ofNat 16 (unitWord r.unit) } ∈ (report s r).2.recQ := by
  have hp : (partOfField (fresh s).2 r.field).orElse (fun _ => partOfCtx (fresh s).2 r.ctx) = some p := by
    rw [show partOfField (fresh s).2 r.field = some p from h]
    rfl
  simp only [report]
  split
  next e => exact absurd (e.symm.trans hp) (by simp)
  next q e =>
    cases e.symm.trans hp
    exact List.mem_append_right _ (List.mem_singleton_self _)

theorem mem_recQ_report_of_mem {r : FRec} (h : r ∈ s.recQ) (x : FRec) : r ∈ (report s x).2.recQ := by
  simp only [report]
  split
  · exact h
  · exact List.mem_append_left _ h

theorem mem_recQ_breakAt {r : FRec} (h : r ∈ s.recQ) (u : UnitId) (k tgt c lid ctx n : Nat) (t : Time) (q : BitVec 24) :
    r ∈ (breakAt s u k tgt c lid ctx n t q).recQ := by
  unfold breakAt
  split
  · exact h
  · split
    · exact mem_recQ_report_of_mem (s := freeze s c lid true) h _
    · exact h

/-- A fault's record stands among those that wait, whatever a breakpoint adds behind it (R401, R408). -/
theorem mem_recQ_reportFault {r : FRec} {p : Nat} (h : partOfField s r.field = some p) :
    { r with rid := s.serial, part := p, unitw := BitVec.ofNat 16 (unitWord r.unit) } ∈ (reportFault s r).2.recQ :=
  mem_recQ_breakAt (mem_recQ_report h) ..

/-- The record of a fault that parks its graph. -/
def parkRec (f : Nat) (g : Graph) (code addr : Nat) : FRec :=
  { recBase (.seqr f) code 0 0 g.ctx f g.lid with addr := addr, act := if g.sup then .none_ else .graph f g.lid }

theorem graphFault_park {code : Nat} (h : g.sup = true ∨ cfgCode code = false) (s : State) (f addr : Nat) :
    graphFault s f g code addr = putGraph (reportFault s (parkRec f g code addr)).2 { g with park := some s.serial, wait := none } := by
  have hn : ¬ (cfgCode code && !g.sup) = true := by
    rcases h with h | h <;> simp [h]
  rw [graphFault, if_neg hn, ← fst_reportFault s (parkRec f g code addr)]
  rfl

theorem graphFault_abort {code : Nat} (hs : g.sup = false) (hc : cfgCode code = true) (s : State) (f addr : Nat) :
    graphFault s f g code addr =
      retire (reportFault s { recBase (.seqr f) code 0 2 g.ctx f g.lid with addr := addr }).2 g.lid code := by
  simp [graphFault, hs, hc]

end

/-- Settles O34: each scalar word is its rule's value written to its own graph, SFADD's after its flags. -/
theorem scalarWords : Obligations.ScalarWords := by
  refine ⟨fun i w op s f g hr h => exec_onlyGraph h (exec_scalar hr h), fun w s f g h => ⟨_, exec_sfadd h, ?_, fun hs => ?_⟩⟩
  · refine onlyGraph_putGraph (g := g) ?_ _
    split
    · exact h
    · rwa [curGraph_orWord]
  · simp only [hs, Bool.false_eq_true, if_false, flagw_putGraph, flagw_orWord]

/-- Settles O35: a branch sets the focused graph's index alone, and a turn that ends sets the run of its field's sequencer to 0. -/
theorem branchesAndEnds : Obligations.BranchesAndEnds := by
  refine ⟨fun i s f n g h hr => exec_onlyGraph h (exec_branch hr h), fun w s f g h => ⟨?call, exec_sret_outside h, ?yield, ?halt⟩,
    ?quantum⟩
  case call => exact exec_onlyGraph h (congrArg Host.Outcome.next (seqWord_eq h _))
  case yield =>
    refine ⟨_, congrArg Host.Outcome.next (seqWord_eq h _), ?_, fun hs => ?_⟩
    · dsimp only
      split
      · exact onlyGraph_putGraph h _
      · exact onlyGraph_rotate (onlyGraph_putGraph h _)
    · simp only [hs, Bool.false_eq_true, if_false, run_rotate]
  case halt => exact exec_onlyGraph h (congrArg Host.Outcome.next (seqWord_eq h _))
  case quantum =>
    intro s f h
    exact ⟨_, exec_graphQuantum h, run_rotate s f, rfl, fun k hk => tgetD_tset_ne _ _ _ hk.symm⟩

end Sys2Proof.Machine
end

section
/-! Loads, stores and what faults before them (R87, R97, R228, R336, R399): the order in which SLD and SST look at their address, and the bytes
that a store of a kernel graph leaves in HBM. -/

namespace Sys2Proof.Machine

open Sys2Proof Sys2Proof.Safety

/-! ## Accesses of a word to another wafer (R336; log 9) -/

section
variable {s : State} {f : Nat} {g : Graph} {w : SW}

theorem farWord_new {to_ : Option Nat} (h : farNew s (.seqr f) g.tag to_ = true) (v : Wait) (k : State → State) :
    farWord s f g to_ v k = putGraph (farSend s (.seqr f) g.tag g.lid (to_.getD 0)) { g with wait := some v } := by
  rw [farWord, if_pos h]
  rfl

theorem farWord_old {to_ : Option Nat} (h : farNew s (.seqr f) g.tag to_ = false) (v : Wait) (k : State → State) :
    farWord s f g to_ v k = k (farGot s (.seqr f) g.tag to_) := by
  rw [farWord, h]
  rfl

/-! ## SLD and SST by the kind of their graph (R87, R399) -/

theorem exec_sld (h : curGraph s = some (f, g)) : exec (.sld w) s = .next (if g.sup then supLoad s w f g else userLoad s w f g) :=
  congrArg Host.Outcome.next (seqWord_eq h _)

theorem exec_sst (h : curGraph s = some (f, g)) : exec (.sst w) s = .next (if g.sup then supStore s w f g else userStore s w f g) :=
  congrArg Host.Outcome.next (seqWord_eq h _)

theorem exec_sld_unaligned (h : curGraph s = some (f, g)) (ha : ldstAddr w g % 8 ≠ 0) :
    exec (.sld w) s = .next (graphFault s f g Code.align (ldstAddr w g)) := by
  rw [exec_sld h, supLoad, userLoad, if_pos ha, if_pos ha, ite_self]

theorem exec_sst_unaligned (h : curGraph s = some (f, g)) (ha : ldstAddr w g % 8 ≠ 0) :
    exec (.sst w) s = .next (graphFault s f g Code.align (ldstAddr w g)) := by
  rw [exec_sst h, supStore, userStore, if_pos ha, if_pos ha, ite_self]

section Aligned
variable {va : Nat} (h : curGraph s = some (f, g)) (hva : ldstAddr w g = va) (ha : va % 8 = 0)
include h hva ha

/-! ### A user graph (R87) -/

theorem exec_sld_user (hs : g.sup = false) :
    exec (.sld w) s = .next (farWord s f g (farWafer s g.ctx va (true, false)) (.load w.d va) fun u =>
      if histHolds u g.ctx va (true, false) then waitFor u g (.load w.d va) else loadWord u f g w.d va answered) := by
  simp only [exec_sld h, hs, Bool.false_eq_true, if_false, userLoad, hva, ha, ne_eq, not_true]

theorem exec_sst_user (hs : g.sup = false) :
    exec (.sst w) s = .next (farWord s f g (farWafer s g.ctx va (false, true)) (.store va (g.reg w.d)) fun u =>
      if histHolds u g.ctx va (false, true) then waitFor u g (.store va (g.reg w.d)) else storeWord u f g va (g.reg w.d) answered) := by
  simp only [exec_sst h, hs, Bool.false_eq_true, if_false, userStore, hva, ha, ne_eq, not_true]

/-! ### The supervisor graph, by what stands at the address (R399) -/

theorem exec_sld_sup (hs : g.sup = true) {k : SupAt} (hat : supAt s va = k) :
    exec (.sld w) s = .next (match k with
      | .none_ => putGraph (supMiss s f g va) (g.setReg w.d (BitVec.allOnes 64)).next
      | .reg r => waitFor s (g.setReg w.d (regVal s r)) .access
      | .away => farWord s f g (some (paWafer va)) (.load w.d va) fun u => supFar u f g va (some w.d) answered
      | .mem t => if supHolds s va then waitFor s g (.load w.d va) else supGet s f g w.d va t answered) := by
  simp only [exec_sld h, hs, if_true, supLoad, hva, ha, ne_eq, not_true, if_false, hat]
  cases k <;> rfl

theorem exec_sst_sup (hs : g.sup = true) {k : SupAt} (hat : supAt s va = k) :
    exec (.sst w) s = .next (match k with
      | .none_ => putGraph (supMiss s f g va) g.next
      | .reg _ => waitFor { (fresh s).2 with regw := s.regw ++ [⟨s.serial, va, g.reg w.d⟩] } g (.regw s.serial)
      | .away => farWord s f g (some (paWafer va)) (.store va (g.reg w.d)) fun u => supFar u f g va none answered
      | .mem t => if supHolds s va then waitFor s g (.store va (g.reg w.d)) else supSet s f g va (g.reg w.d) t answered) := by
  simp only [exec_sst h, hs, if_true, supStore, hva, ha, ne_eq, not_true, if_false, hat]
  cases k <;> rfl

end Aligned

/-! ### The access itself -/

theorem loadWord_ok {u : State} {d : BitVec 4} {va : Nat} {v : W64} (hr : seqRead s g va = .ok (u, v)) (k : State → Graph → State) :
    loadWord s f g d va k = k u (g.setReg d v) := by simp only [loadWord, hr]

theorem loadWord_error {d : BitVec 4} {va c : Nat} (hr : seqRead s g va = .error c) (k : State → Graph → State) :
    loadWord s f g d va k = graphFault s f g c va := by simp only [loadWord, hr]

theorem storeWord_ok {u : State} {va : Nat} {v : W64} (hr : writeAt s g.ctx g.lid va (leBytes 8 v.toNat) = .ok u)
    (k : State → Graph → State) : storeWord s f g va v k = k u g := by simp only [storeWord, hr]

theorem storeWord_error {va c : Nat} {v : W64} (hr : writeAt s g.ctx g.lid va (leBytes 8 v.toNat) = .error c)
    (k : State → Graph → State) : storeWord s f g va v k = graphFault s f g c va := by simp only [storeWord, hr]

theorem supFar_dead {pa : Nat} (h : s.dead.getLsbD (paWafer pa) = true) (d : Option (BitVec 4)) (k : State → Graph → State) :
    supFar s f g pa d k = graphFault s f g Code.peerDead pa := by simp only [supFar, h, if_true]

theorem supFar_store {pa : Nat} (h : s.dead.getLsbD (paWafer pa) = false) (k : State → Graph → State) :
    supFar s f g pa none k = k s g := by simp only [supFar, h, Bool.false_eq_true, if_false]

theorem supGet_ok {u : State} {b : List Byte} {d : BitVec 4} {pa : Nat} {t : Tgt} (hr : supRead s pa 8 t = .ok (u, b))
    (k : State → Graph → State) : supGet s f g d pa t k = k u (g.setReg d (BitVec.ofNat 64 (leNat b))) := by simp only [supGet, hr]

theorem supSet_ok {u : State} {pa : Nat} {v : W64} {t : Tgt} (hr : supPut s pa (leBytes 8 v.toNat) t = .ok u)
    (k : State → Graph → State) : supSet s f g pa v t k = k u g := by simp only [supSet, hr]

end

/-- Settles O36: a fault that parks leaves its record and the park mark, one that aborts retires the launch, and each word looks at its
address first. -/
theorem graphFaults : Obligations.GraphFaults := by
  refine ⟨?park, fun s f code addr g hs hc => graphFault_abort hs hc s f addr, fun w s f g h => ?align⟩
  case park =>
    intro s f p code addr g h hp hc
    have q : Quiet someSlot s (reportFault s (parkRec f g code addr)).2 := quiet_reportFault ..
    rw [graphFault_park hc]
    refine ⟨curGraph_putGraph ((curGraph_quiet q).trans h) _, (mem_putGraph ..).trans q.mem, ?_⟩
    rw [recQ_putGraph]
    exact ⟨_, mem_recQ_reportFault (r := parkRec f g code addr) hp, rfl, rfl, rfl, rfl, rfl, rfl, rfl, rfl, rfl⟩
  case align =>
    refine ⟨exec_sld_unaligned h, exec_sst_unaligned h, ?_, ?_, ?_, ?_⟩ <;>
      exact fun ha => congrArg Host.Outcome.next ((seqWord_eq h _).trans (if_pos ha))

/-! ## The bytes of a store in HBM (R12, R90, R196, R354) -/

section
variable {s t : State}

/-- Correcting the words of a page walk touches check bits and counters. -/
theorem walkFix_frame (s : State) (ctx va : Nat) : ∃ ecc budgets, walkFix s ctx va = { s with ecc := ecc, budgets := budgets } := by
  refine List.foldlRecOn (motive := fun u : State => ∃ ecc budgets, u = { s with ecc := ecc, budgets := budgets }) _ _ ⟨_, _, rfl⟩ ?_
  rintro _ ⟨ecc, budgets, rfl⟩ w -
  rw [correctWord]
  split <;> exact ⟨_, _, rfl⟩

theorem bits_of_hbm {pa st o : Nat} (h : decodePA s pa = some (.hbm st o)) : bits pa 47 46 = 0 := by
  simp only [decodePA] at h
  split at h
  next h0 => exact h0
  next => split at h <;> cases h
  next => split at h <;> cases h
  next => cases h

theorem wordsOf_word {pa : Nat} (h : pa % 8 = 0) : wordsOf pa 8 = [pa / 8] := by
  have one : (pa + 8 + 7) / 8 - pa / 8 = 1 := by omega
  simp [wordsOf, one]

theorem sectorsOf_word {pa : Nat} (h : pa % 8 = 0) : sectorsOf pa 8 = [pa / 64] := by
  have one : (pa + 8 + 63) / 64 - pa / 64 = 1 := by omega
  simp [sectorsOf, one]

/-- A whole word written takes its check bits with it. -/
theorem eccOut_word {pa st o : Nat} (h : pa % 8 = 0) :
    eccOut s (.hbm st o) pa 8 false = some { s with ecc := tdel s.ecc (pa / 8) } := by
  have whole : pa ≤ pa / 8 * 8 ∧ pa / 8 * 8 + 8 ≤ pa + 8 := by omega
  simp [eccOut, wordsOf_word h, eccWrite, whole]

/-- A sector stays under the key that it has. -/
theorem rekeySector_own {sec : Nat} (h : tgetD s.xts sec 0 ≠ 0) : rekeySector s (tgetD s.xts sec 0) sec = s := by
  have own : tget s.xts sec = some (tgetD s.xts sec 0) := by
    cases e : tget s.xts sec with
    | none => simp [tgetD, e] at h
    | some k => simp [tgetD, e]
  rw [rekeySector, if_neg h, if_pos own]

theorem overHbm_mem (s : State) (pa : Nat) (bs : List Byte) : (overHbm s pa bs).mem = s.mem := by
  rw [overHbm]
  split <;> rfl

/-- Data that a write supersedes hold no request that waits. -/
theorem waitingAway_overHbm (s : State) (pa : Nat) (bs : List Byte) (u : UnitId) : waitingAway (overHbm s pa bs) u = waitingAway s u := by
  rw [overHbm]
  split <;> rfl

theorem decodePA_overHbm (s : State) (pa : Nat) (bs : List Byte) (q : Nat) : decodePA (overHbm s pa bs) q = decodePA s q := by
  rw [overHbm]
  split <;> rfl

theorem latchStamps_mem (s : State) (pa n : Nat) : (latchStamps s pa n).mem = s.mem := by
  rw [latchStamps]
  split <;> split <;> rfl

/-- A stamp's report to the graphs leaves every wait list. -/
theorem waitingAway_latchStamps (s : State) (pa n : Nat) (u : UnitId) : waitingAway (latchStamps s pa n) u = waitingAway s u := by
  rw [latchStamps]
  split <;> split
  · simp only [waitingAway, List.flatMap_map]
    rfl
  all_goals rfl

theorem decodePA_latchStamps (s : State) (pa n q : Nat) : decodePA (latchStamps s pa n) q = decodePA s q := by
  rw [latchStamps]
  split <;> split <;> rfl

theorem sendAns_mem (s : State) (u : UnitId) (r : PortReq) (a : Ans) : (sendAns s u r a).mem = s.mem := by
  rw [sendAns]
  split
  · split <;> rfl
  · rfl

theorem serveStwaits_mem (u : UnitId) (pa n : Nat) (s : State) : (serveStwaits u pa n s).mem = s.mem := by
  refine List.foldlRecOn (motive := fun t : State => t.mem = s.mem) _ _ rfl ?_
  intro t ht e _
  split
  · exact (sendAns_mem ..).trans ht
  · exact ht

/-- Waking the waiters of a word changes no memory where none of them waits in a copy that is not live. -/
theorem wakeStwait_mem {pa n : Nat} (h : waitingAway s (homeUnit s pa) = []) : (wakeStwait s pa n).mem = s.mem := by
  simp only [wakeStwait]
  split
  next => exact latchStamps_mem ..
  next t ht =>
    have hu : t.home = homeUnit s pa := by
      rw [decodePA_latchStamps] at ht
      simp [homeUnit, ht]
    rw [eachCopy, waitingAway_latchStamps, hu, h]
    split <;> exact (serveStwaits_mem ..).trans (latchStamps_mem ..)

section OwnKey
variable {ctx pa st o : Nat} {bs : List Byte} (hd : decodePA s pa = some (.hbm st o))
  (hk : keySerial s ctx = some (tgetD s.xts (pa / 64) 0)) (h0 : tgetD s.xts (pa / 64) 0 ≠ 0) (ha : pa % 8 = 0) (hl : bs.length = 8)
include hd hk h0 ha hl

/-- A word written by a context under the sector's own key: its bytes as they are. -/
theorem homeWrite_ownKey :
    homeWrite s (some ctx) pa bs false = .ok (overHbm (memWrite { s with ecc := tdel s.ecc (pa / 8) } pa bs) pa bs) := by
  have hne : bs.isEmpty = false := List.isEmpty_eq_false_iff.mpr fun e => by simp [e] at hl
  have hk' : keySerial { s with ecc := tdel s.ecc (pa / 8) } ctx = some (tgetD s.xts (pa / 64) 0) := hk
  have hw : keyWrite { s with ecc := tdel s.ecc (pa / 8) } (tgetD s.xts (pa / 64) 0) pa bs =
      memWrite { s with ecc := tdel s.ecc (pa / 8) } pa bs := by
    rw [keyWrite, hl, sectorsOf_word ha]
    exact congrArg (memWrite · pa bs) (rekeySector_own (s := { s with ecc := tdel s.ecc (pa / 8) }) h0)
  simp only [homeWrite, hne, Bool.false_eq_true, if_false, hd, hl, eccOut_word ha, keyOf, hk', hw]

variable {lid : Nat} (hw : paWafer pa = s.wafno) (hq : waitingAway s (homeUnit s pa) = [])
include hw hq

/-- The memory after a word is written to HBM of this wafer under the sector's own key. -/
theorem pieceWrite_ownKey_mem (he : pieceWrite s ctx lid pa bs false = .ok t) : t.mem = cellsWrite s.mem pa bs := by
  have hkind : (paKind pa == 3) = false := by rw [paKind, bits_of_hbm hd]; rfl
  have hbase : pieceWrite s ctx lid pa bs false = (homeWrite s (some ctx) pa bs false).map fun u => wakeStwait u pa bs.length := by
    simp only [pieceWrite, beq_iff_eq, hw, if_true, hd, baseWrite, hkind, bne_self_eq_false, Bool.false_eq_true, if_false]
  rw [hbase, homeWrite_ownKey hd hk h0 ha hl] at he
  cases he
  rw [wakeStwait_mem, overHbm_mem, memWrite_mem]
  rw [waitingAway_overHbm, homeUnit, decodePA_overHbm]
  exact hq

/-- Behind a translation: the words of its walk are corrected first, which no byte of memory shows. -/
theorem writeAt_ownKey_mem {va : Nat} (ht : translate s ctx va (false, true) = .ok (pa, false)) (he : writeAt s ctx lid va bs = .ok t) :
    t.mem = cellsWrite s.mem pa bs := by
  obtain ⟨ecc, budgets, hfix⟩ := walkFix_frame s ctx va
  simp only [writeAt, ht, hfix] at he
  exact pieceWrite_ownKey_mem (s := { s with ecc := ecc, budgets := budgets }) hd hk h0 ha hl hw hq he

end OwnKey

end

/-! ## A graph resumed (R69) -/

section
variable {s u : State} {f n : Nat} {g : Graph} {v : Wait}

theorem exec_graphResume_goes (hg : (graphsOf s f)[n]? = some g) (hw : g.wait = some v) (hm : mayResume s f g = true)
    (hr : resumeUser { s with focus := .seq f (some n) } f g v = some u) :
    exec (.graphResume f n) s = .next { u with focus := s.focus } := by
  change execGraphResume f n s = _
  simp only [execGraphResume, hg, resumeAt, hw, hm, hr, Bool.not_true, Bool.false_eq_true, if_false]

theorem exec_graphResume_waits (hg : (graphsOf s f)[n]? = some g) (hw : g.wait = some v) (hm : mayResume s f g = true)
    (hr : resumeUser { s with focus := .seq f (some n) } f g v = none) : exec (.graphResume f n) s = .next s := by
  change execGraphResume f n s = _
  simp only [execGraphResume, hg, resumeAt, hw, hm, hr, Bool.not_true, Bool.false_eq_true, if_false]

theorem graphsOf_putGraph (h : s.focus = .seq f (some n)) (hg : (graphsOf s f)[n]? = some g) (g' : Graph) :
    (graphsOf (putGraph s g') f)[n]? = some g' := by
  rw [putGraph_resident h, graphsOf, tgetD_tset_self]
  exact getElem?_setAt_self g' hg

end

/-- Settles O37: SLD and SST by what stands at their address, the bytes of a store, and the graph resumed. -/
theorem graphsLoadAndStore : Obligations.GraphsLoadAndStore := by
  refine ⟨?words, ?bytes, ?resume⟩
  case words =>
    intro w s f g h va ha
    have hva : ldstAddr w g = va := rfl
    clear_value va
    refine ⟨fun hs => ⟨?load, ?store⟩, fun hs => ⟨?away, ?reg, ?held, ?read, ?write, ?miss⟩⟩
    case load =>
      rw [exec_sld_user h hva ha hs]
      refine ⟨fun hn => by rw [farWord_new hn], fun ho hh => ?_, fun ho hh => ⟨fun s1 v hr => ?_, fun c hr => ?_⟩⟩ <;>
        rw [farWord_old ho]
      · rw [if_pos hh]; rfl
      · rw [if_neg (ne_true_of_eq_false hh), loadWord_ok hr]; rfl
      · rw [if_neg (ne_true_of_eq_false hh), loadWord_error hr]
    case store =>
      rw [exec_sst_user h hva ha hs]
      refine ⟨fun hn => by rw [farWord_new hn], fun ho hh => ?_, fun ho hh => ⟨fun s1 hr => ?_, fun c hr => ?_⟩⟩ <;>
        rw [farWord_old ho]
      · rw [if_pos hh]; rfl
      · rw [if_neg (ne_true_of_eq_false hh), storeWord_ok hr]; rfl
      · rw [if_neg (ne_true_of_eq_false hh), storeWord_error hr]
    case away =>
      intro hat
      rw [exec_sld_sup h hva ha hs hat, exec_sst_sup h hva ha hs hat]
      dsimp only
      refine ⟨fun hn => ⟨by rw [farWord_new hn]; rfl, by rw [farWord_new hn]; rfl⟩, fun ho hd => ?_, fun ho hd => ?_⟩
      · rw [farWord_old ho, supFar_store hd]; rfl
      · rw [farWord_old ho, farWord_old ho, supFar_dead hd, supFar_dead hd]; exact ⟨rfl, rfl⟩
    case reg =>
      intro r hat
      rw [exec_sld_sup h hva ha hs hat, exec_sst_sup h hva ha hs hat]
      refine ⟨rfl, _, rfl, ?_, curGraph_putGraph (s := { (fresh s).2 with regw := _ }) h _⟩
      rw [waitFor, regw_putGraph]
    case held =>
      intro t hat hh
      rw [exec_sld_sup h hva ha hs hat, exec_sst_sup h hva ha hs hat]
      dsimp only
      rw [if_pos hh, if_pos hh]
      exact ⟨rfl, rfl⟩
    case read =>
      intro t s1 b hat hh hr
      rw [exec_sld_sup h hva ha hs hat]
      dsimp only
      rw [if_neg (ne_true_of_eq_false hh), supGet_ok hr]
      rfl
    case write =>
      intro t s1 hat hh hr
      rw [exec_sst_sup h hva ha hs hat]
      dsimp only
      rw [if_neg (ne_true_of_eq_false hh), supSet_ok hr]
      rfl
    case miss =>
      intro hat
      rw [exec_sld_sup h hva ha hs hat, exec_sst_sup h hva ha hs hat]
      exact ⟨rfl, rfl⟩
  case bytes =>
    intro s s1 ctx lid va pa st o v hm ht hw hd hk ha h0 hq he
    have hl : (leBytes 8 v.toNat).length = 8 := leBytes_length ..
    have hmem : s1.mem = cellsWrite s.mem pa (leBytes 8 v.toNat) := writeAt_ownKey_mem hd hk h0 ha hl hw hq ht he
    rw [hmem]
    refine ⟨?_, fun a hout => cellGet_cellsWrite_out _ (by rwa [hl])⟩
    have hread := cellsRead_cellsWrite pa (leBytes 8 v.toNat) hm.1
    rw [hl] at hread
    rw [hread, leNat_leBytes]
    exact Nat.mod_eq_of_lt v.isLt
  case resume =>
    intro s f n g hg hw hm
    exact ⟨_, exec_graphResume_goes hg hw hm rfl, mem_putGraph .., rfl,
      graphsOf_putGraph (s := { s with focus := .seq f (some n) }) rfl hg _⟩

end Sys2Proof.Machine
end

section
/-! The words that wait (R69, R88 to R90, R93 to R95): each word is one attempt, and waits where the attempt finds its condition false; a graph
resumed makes the same attempt again. -/

namespace Sys2Proof.Machine

open Sys2Proof Sys2Proof.Safety

section
variable {s : State} {f : Nat} {g : Graph} {w : SW}

/-! ## An attempt that may go to another wafer (R336; log 9) -/

theorem farTry_new {to_ : Option Nat} (h : farNew s (.seqr f) g.tag to_ = true) (v : Wait) (k : State → Option State) :
    farTry s f g to_ v k = some (putGraph (farSend s (.seqr f) g.tag g.lid (to_.getD 0)) { g with wait := some v }) := by
  rw [farTry, if_pos h]
  rfl

theorem farTry_done {to_ : Option Nat} {k : State → Option State} {u : State} (h : farNew s (.seqr f) g.tag to_ = false)
    (hk : k (farGot s (.seqr f) g.tag to_) = some u) (v : Wait) : farTry s f g to_ v k = some u := by
  simp only [farTry, h, Bool.false_eq_true, if_false, hk]

/-- An attempt that finds its condition false leaves the word waiting, its access answered. -/
theorem orWait_farTry_none {to_ : Option Nat} {k : State → Option State} (h : farNew s (.seqr f) g.tag to_ = false)
    (hk : k (farGot s (.seqr f) g.tag to_) = none) (v : Wait) :
    orWait s g v (farTry s f g to_ v k) = putGraph (farGot s (.seqr f) g.tag to_) { g with wait := some v } := by
  simp only [farTry, h, Bool.false_eq_true, if_false, hk]
  cases to_ <;> rfl

/-! ## ARMS and WAITS (R88, R89) -/

theorem exec_arms (h : curGraph s = some (f, g)) :
    exec (.arms w) s = .next (orWait s g (.arms (w.imm.toNat % 256) (g.reg w.d).toNat) (tryArms s f g (w.imm.toNat % 256) (g.reg w.d).toNat)) :=
  congrArg Host.Outcome.next (seqWord_eq h _)

theorem exec_waits (h : curGraph s = some (f, g)) :
    exec (.waits w) s = .next (orWait s g (.waits (w.imm.toNat % 256)) (tryWaits s g (w.imm.toNat % 256))) :=
  congrArg Host.Outcome.next (seqWord_eq h _)

theorem tryArms_none {k n : Nat} (h : ((launch? s g.lid).bind fun l => tget l.secs k) = none) :
    tryArms s f g k n = some (graphFault s f g Code.launchRange 0) := by
  cases hl : launch? s g.lid with
  | none => simp only [tryArms, hl, Option.bind_none]
  | some l =>
    have hk : tget l.secs k = none := by simpa [hl] using h
    simp only [tryArms, hl, Option.bind_some, hk, Option.map_none]

/-- The attempt at a section of the launch. -/
theorem tryArms_at {l : Launch} {k : Nat} {z : Sect} (hl : launch? s g.lid = some l) (hz : tget l.secs k = some z) (n : Nat) :
    tryArms s f g k n =
      if z.field != f || z.srcs.isEmpty || 2 ^ 24 ≤ n then some (graphFault s f g Code.launchRange 0)
      else if z.armed != z.completed then none
      else some (putGraph (armSect s g.lid l k n z) g.next) := by
  simp only [tryArms, hl, Option.bind_some, hz, Option.map_some]

theorem tryArms_bad {l : Launch} {k n : Nat} {z : Sect} (hl : launch? s g.lid = some l) (hz : tget l.secs k = some z)
    (hb : z.field ≠ f ∨ z.srcs = [] ∨ 2 ^ 24 ≤ n) : tryArms s f g k n = some (graphFault s f g Code.launchRange 0) := by
  rw [tryArms_at hl hz, if_pos]
  simp only [Bool.or_eq_true, bne_iff_ne, List.isEmpty_iff, decide_eq_true_eq]
  tauto

/-- A section with a source in this field, and a count in its range. -/
theorem tryArms_good {l : Launch} {k n : Nat} {z : Sect} (hl : launch? s g.lid = some l) (hz : tget l.secs k = some z) (hf : z.field = f)
    (hs : z.srcs ≠ []) (hn : n < 2 ^ 24) :
    tryArms s f g k n = if z.armed != z.completed then none else some (putGraph (armSect s g.lid l k n z) g.next) := by
  rw [tryArms_at hl hz, if_neg]
  simp only [Bool.or_eq_true, bne_iff_ne, List.isEmpty_iff, decide_eq_true_eq]
  exact fun hb => hb.elim (fun hb => hb.elim (fun e => e hf) hs) (Nat.not_le.mpr hn)

/-! ## WSTAMP (R90) -/

theorem exec_wstamp {va pa : Nat} {cmp : Bool} (h : curGraph s = some (f, g)) (hva : (g.reg w.a).toNat = va) (ha : va % 8 = 0)
    (ht : translate s g.ctx va (true, false) = .ok (pa, cmp)) :
    exec (.wstamp w) s = .next (orWait s g (.wstamp va pa cmp (g.reg w.b)) (tryStamp s f g va pa cmp (g.reg w.b))) := by
  refine congrArg Host.Outcome.next ((seqWord_eq h _).trans ?_)
  simp only [hva, ha, ne_eq, not_true, if_false, ht]

theorem tryStamp_new {va pa : Nat} {cmp : Bool} {v : W64} (hn : farNew s (.seqr f) g.tag (paAway s pa) = true) :
    tryStamp s f g va pa cmp v =
      some (putGraph (farSend s (.seqr f) g.tag g.lid ((paAway s pa).getD 0)) { g with wait := some (.wstamp va pa cmp v) }) :=
  farTry_new hn ..

section Read
variable {u : State} {va pa : Nat} {cmp : Bool} {v : W64} {b : List Byte} (ho : farNew s (.seqr f) g.tag (paAway s pa) = false)
  (hr : pieceRead (farGot s (.seqr f) g.tag (paAway s pa)) g.ctx g.lid pa 8 cmp = .ok (u, b))
include ho hr

theorem tryStamp_met (hle : v.toNat ≤ leNat b) : tryStamp s f g va pa cmp v = some (putGraph u g.next) :=
  farTry_done ho (by simp only [hr, hle, if_true]) _

theorem orWait_tryStamp_below (hlt : leNat b < v.toNat) :
    orWait s g (.wstamp va pa cmp v) (tryStamp s f g va pa cmp v) =
      putGraph (farGot s (.seqr f) g.tag (paAway s pa)) { g with wait := some (.wstamp va pa cmp v) } :=
  orWait_farTry_none ho (by simp only [hr, Nat.not_le.mpr hlt, if_false]) _

end Read

/-! ## FWAIT, CFG and RECFG (R93 to R95) -/

theorem exec_fwait {j : Nat} {sl : Slot} (h : curGraph s = some (f, g)) (hj : w.imm.toNat = j)
    (hsl : (⟨⟨f, bits j 17 13, bits j 12 8⟩, bits j 7 3, bits j 2 0⟩ : Slot) = sl) :
    exec (.fwait w) s = .next (orWait s g (.fwait sl (timeOf (g.reg w.a))) (tryFwait s f g sl (timeOf (g.reg w.a)))) := by
  subst hsl hj
  exact congrArg Host.Outcome.next (seqWord_eq h _)

/-- FWAIT looks at the frontier of its own launch's FRONT node. -/
theorem tryFwait_probe {sl : Slot} {l : Launch} {m : Node} (hl : launch? s g.lid = some l) (hm : node? s sl = some m) (hid : m.lid = g.lid)
    (hop : opOf m.word = 0x75) (t : Time) :
    tryFwait s f g sl t = if passed (frontierRegs l (m.word.toNat % 64)).elems t then some (putGraph s g.next) else none := by
  simp [tryFwait, hl, hm, hid, hop]

theorem passed_eq_true {l : List Time} {t : Time} (h : ∀ u ∈ l, tle u t = false) : passed l t = true := by
  simpa [passed] using h

theorem passed_eq_false {l : List Time} {t : Time} (h : ∃ u ∈ l, tle u t = true) : passed l t = false := by
  simpa [passed] using h

theorem exec_cfg {va : Nat} (h : curGraph s = some (f, g)) (hva : (g.reg w.a).toNat = va) (ha : va % 64 = 0) :
    exec (.cfg w) s = .next (orWait s g (.cfg va) (tryCfg s f g va)) := by
  refine congrArg Host.Outcome.next ((seqWord_eq h _).trans ?_)
  simp only [hva, ha, ne_eq, not_true, if_false]

theorem tryCfg_at {l : Launch} (hl : launch? s g.lid = some l) (va : Nat) :
    tryCfg s f g va = if fieldQuiet l f then
      farTry s f g (farWafer s g.ctx va (true, false)) (.cfg va) fun u => some (cfgApply u f g va) else none := by
  simp only [tryCfg, hl]

theorem exec_recfg {va : Nat} {c : CoreId} (h : curGraph s = some (f, g)) (hva : (g.reg w.a).toNat = va)
    (hc : (⟨f, bits va 9 5, bits va 4 0⟩ : CoreId) = c) (hlt : va < 1024) (hk : isCompute c = true)
    (hn : (s.x.nodes.any fun q => q.1.core == c && q.2.lid == g.lid) = true) :
    exec (.recfg w) s = .next (orWait s g (.recfg c (w.imm.toNat % 256) ((g.reg w.b).extractLsb' 0 32))
      (tryRecfg s f g c (w.imm.toNat % 256) ((g.reg w.b).extractLsb' 0 32))) := by
  refine congrArg Host.Outcome.next ((seqWord_eq h _).trans ?_)
  simp only [hva, hc, hk, hn, Nat.not_le.mpr hlt, decide_false, Bool.not_true, Bool.or_false, Bool.false_eq_true, if_false]

theorem tryRecfg_busy {c : CoreId} {e : Nat} {r : W32}
    (hb : linesEmpty s c (linesOf (tgetD (tgetD s.x.routes c []) e 0) ++ linesOf r) = false) : tryRecfg s f g c e r = none := by
  simp only [tryRecfg, hb, Bool.false_eq_true, if_false]

theorem tryRecfg_free {c : CoreId} {e : Nat} {r : W32}
    (hb : linesEmpty s c (linesOf (tgetD (tgetD s.x.routes c []) e 0) ++ linesOf r) = true) :
    tryRecfg s f g c e r = some (recfgApply s f g c e r) := by
  simp only [tryRecfg, hb, if_true]

theorem recfgApply_ok {c : CoreId} {e : Nat} {r : W32} (hr : recfgBad s g.lid c r (routesOf (withEntry s c e r) c) = none) :
    recfgApply s f g c e r = putGraph (rerouteAll s (withEntry s c e r)) g.next := by simp only [recfgApply, hr]

theorem recfgApply_bad {c : CoreId} {e code : Nat} {r : W32} (hr : recfgBad s g.lid c r (routesOf (withEntry s c e r) c) = some code) :
    recfgApply s f g c e r = graphFault s f g code 0 := by simp only [recfgApply, hr]

end

/-- Settles O38: each word is an attempt or waits, and a resumed graph makes its word's attempt. -/
theorem wordsThatWait : Obligations.WordsThatWait := by
  refine ⟨fun w s f g h => ⟨?arms, ?badArms, ?noSect, ?goes, ?waits, ?stamp, ?fwait, ?cfg, ?recfg⟩,
    fun s f n g v hg hw hm => ⟨?resumed, ?held⟩⟩
  case arms =>
    intro l z hl hz hf hs hn
    have he := exec_arms (w := w) h
    rw [tryArms_good hl hz hf hs hn] at he
    refine ⟨fun hne => he.trans ?_, fun heq h0 => he.trans ?_, fun heq h0 => he.trans ?_⟩
    · rw [if_pos (bne_iff_ne.mpr hne)]; rfl
    · rw [if_neg (by simp [heq]), armSect, if_neg h0]; rfl
    · rw [if_neg (by simp [heq]), armSect, if_pos h0]; rfl
  case badArms =>
    intro l z hl hz hb
    rw [exec_arms h, tryArms_bad hl hz hb]
    rfl
  case noSect =>
    intro hk
    rw [exec_arms h, tryArms_none hk]
    rfl
  case goes =>
    intro hi
    rw [exec_waits h, tryWaits, if_pos hi]
    rfl
  case waits =>
    intro hi
    rw [exec_waits h, tryWaits, if_neg (ne_true_of_eq_false hi)]
    rfl
  case stamp =>
    intro pa cmp ha ht
    rw [exec_wstamp h rfl ha ht]
    refine ⟨fun hn => by rw [tryStamp_new hn]; rfl, fun s1 b => fun ho hr => ⟨fun hle => ?_, fun hlt => ?_⟩⟩
    · rw [tryStamp_met ho hr hle]; rfl
    · rw [orWait_tryStamp_below ho hr hlt]
  case fwait =>
    intro l m j sl hl hm hid hop fr
    have he := exec_fwait (w := w) (sl := sl) h rfl rfl
    rw [tryFwait_probe hl hm hid hop] at he
    refine ⟨fun hp => he.trans ?_, fun hp => he.trans ?_⟩
    · rw [if_pos (passed_eq_true hp)]; rfl
    · rw [if_neg (ne_true_of_eq_false (passed_eq_false hp))]; rfl
  case cfg =>
    intro l ha hl
    have he := exec_cfg (w := w) h rfl ha
    rw [tryCfg_at hl] at he
    refine ⟨fun hq => he.trans ?_, fun hq => ⟨fun hn => he.trans ?_, fun ho => he.trans ?_⟩⟩
    · rw [if_neg (ne_true_of_eq_false hq)]; rfl
    · rw [if_pos hq, farTry_new hn]; rfl
    · rw [if_pos hq, farTry_done (k := fun u => some (cfgApply u f g _)) ho rfl]; rfl
  case recfg =>
    intro c e r old free hlt hk hn
    have he := exec_recfg (w := w) (c := c) h rfl rfl hlt hk hn
    refine ⟨fun hb => he.trans ?_, fun hb hr => he.trans ?_, fun code hb hr => he.trans ?_⟩
    · rw [tryRecfg_busy hb]; rfl
    · rw [tryRecfg_free hb, recfgApply_ok hr]; rfl
    · rw [tryRecfg_free hb, recfgApply_bad hr]; rfl
  case resumed => exact fun u hr => exec_graphResume_goes hg hw hm hr
  case held => exact fun hr => exec_graphResume_waits hg hw hm hr

end Sys2Proof.Machine
end

section
/-! SQPOST, LAUNCH and the flag words (R73, R91, R92, R96, R336): the claim of an index and the post that follows it, the child launch, and the
questions and answers of SFLAGS_ALL. -/

namespace Sys2Proof.Machine

open Sys2Proof Sys2Proof.Safety

section
variable {s : State} {f : Nat} {g : Graph} {w : SW}

/-! ## SQPOST (R73, R91) -/

theorem exec_sqpost {a d : Nat} {q : Nat × Bool} (h : curGraph s = some (f, g)) (hea : (g.reg w.a).toNat = a) (hed : (g.reg w.b).toNat = d)
    (ha : a % 64 = 0) (hd : d % 64 = 0) (ht : translate s g.ctx a (true, false) = .ok q) :
    exec (.sqpost w) s =
      .next (farWord s f g (farWafer s g.ctx d (true, true)) (.sqpost a d none) fun u => claimPost u f g a d) := by
  refine congrArg Host.Outcome.next ((seqWord_eq h _).trans ?_)
  simp only [hea, hed, ha, hd, ne_eq, not_true, if_false, ht]

/-- The claim is one fetch-and-add on WRIDX. -/
theorem postClaim_ok {d pa : Nat} {cmp : Bool} {s1 s2 : State} {b : List Byte} (ht : translate s g.ctx (d + 16) (true, true) = .ok (pa, cmp))
    (hr : pieceRead (walkFix s g.ctx (d + 16)) g.ctx g.lid pa 8 cmp = .ok (s1, b))
    (hw : pieceWrite s1 g.ctx g.lid pa (leBytes 8 (leNat b + 1)) cmp = .ok s2) :
    postClaim s g d = .ok (s2, BitVec.ofNat 64 (leNat b)) := by
  simp only [postClaim, ht, hr, hw]
  rfl

theorem claimPost_ok {u : State} {a d : Nat} {j : W64} (hc : postClaim s g d = .ok (u, j)) :
    claimPost s f g a d = (tryPost u f g a d j).getD (waitFor u g (.sqpost a d (some j))) := by simp only [claimPost, hc]

section Post
variable {u : State} {a d : Nat} {j : W64} {c : List Byte} (hfar : farWafer s g.ctx d (true, true) = none)
  (hr : readAt s g.ctx g.lid d 64 = .ok (u, c))
include hfar hr

/-- A ring without room: its index is n or more ahead of RDIDX, or n is 0 (R73; log 137). -/
theorem tryPost_full (h : leAt c 8 4 / 64 = 0 ∨ leAt c 8 4 / 64 ≤ (j.toNat + 2 ^ 64 - leAt c 24 8) % 2 ^ 64) :
    tryPost s f g a d j = none := by
  have hfull : (leAt c 8 4 / 64 = 0 || leAt c 8 4 / 64 ≤ (j.toNat + 2 ^ 64 - leAt c 24 8) % 2 ^ 64) = true := by
    simp only [Bool.or_eq_true, decide_eq_true_eq]
    exact h
  simp only [tryPost, farTry, farNew, hfar, farGot, hr, hfull, if_true, Bool.false_eq_true, if_false, Option.isSome_none]

/-- The body is written, and last the lap stamp. -/
theorem tryPost_room {s4 s5 s6 : State} {b : List Byte} (h0 : leAt c 8 4 / 64 ≠ 0)
    (hlt : (j.toNat + 2 ^ 64 - leAt c 24 8) % 2 ^ 64 < leAt c 8 4 / 64) (hb : readAt u g.ctx g.lid a 56 = .ok (s4, b))
    (hw : writeAt s4 g.ctx g.lid (leAt c 0 8 + 64 * (j.toNat % (leAt c 8 4 / 64))) b = .ok s5)
    (hs : writeAt s5 g.ctx g.lid (leAt c 0 8 + 64 * (j.toNat % (leAt c 8 4 / 64)) + 56) (leBytes 8 (j.toNat / (leAt c 8 4 / 64) + 1)) =
      .ok s6) :
    tryPost s f g a d j = some (putGraph s6 { g with wait := some .access }) := by
  have hroom : (leAt c 8 4 / 64 = 0 || leAt c 8 4 / 64 ≤ (j.toNat + 2 ^ 64 - leAt c 24 8) % 2 ^ 64) = false := by
    simp only [Bool.or_eq_false_iff, decide_eq_false_iff_not]
    exact ⟨h0, Nat.not_le.mpr hlt⟩
  simp only [tryPost, farTry, farNew, hfar, farGot, hr, hroom, hb, hw, hs, Bool.false_eq_true, if_false]

end Post

/-! ## LAUNCH (R92) -/

theorem exec_launch {a : Nat} (h : curGraph s = some (f, g)) (hea : (g.reg w.a).toNat = a) (ha : a % 64 = 0) :
    exec (.launch w) s =
      .next (farWord s f g (farWafer s g.ctx a (true, false)) (.launch a) fun u => childLaunch u f g a) := by
  refine congrArg Host.Outcome.next ((seqWord_eq h _).trans ?_)
  simp only [hea, ha, ne_eq, not_true, if_false]

/-- A child launch always begins: one that must wait stands in the launch table (log 71). -/
theorem beginLaunch_child (s : State) (l : Launch) (rl : Nat) : ∃ u, beginLaunch s l rl true = some u := by
  simp only [beginLaunch]
  split
  · exact ⟨_, rfl⟩
  · split <;> exact ⟨_, rfl⟩

theorem childLaunch_begun {u v : State} {a : Nat} {b : List Byte} (hr : readAt s g.ctx g.lid a 64 = .ok (u, b)) (h0 : leAt b 0 1 = 1)
    (h1 : leAt b 1 1 < 2) (hok : launchBodyOk b = true)
    (hv : beginLaunch u { Launch.start ((partOfCtx u g.ctx).getD 0) g.ctx f none g.prio 0 (leAt b 8 8) (leAt b 16 8) (leAt b 24 8) with
      root := if g.sup then none else some (rootOf u g.lid) } g.lid true = some v) :
    childLaunch s f g a = putGraph v g.next := by
  have hgood : (leAt b 0 1 != 1 || 2 ≤ leAt b 1 1 || !launchBodyOk b) = false := by
    simp only [h0, bne_self_eq_false, Nat.not_le.mpr h1, decide_false, hok, Bool.not_true, Bool.or_false]
  simp only [childLaunch, hr, hgood, Bool.false_eq_true, if_false, hv, Option.getD_some]

/-! ## SFLAGS_ALL (R96, R310, R336, R337) -/

theorem exec_sflags (h : curGraph s = some (f, g)) :
    exec (.sflags w) s = .next (putGraph s (g.setReg w.d ((tgetD s.x.flagw (g.lid, f) 0).setWidth 64)).next) :=
  congrArg Host.Outcome.next (seqWord_eq h _)

/-- The state in which every field of the launch has been asked whose wafer is not dead. -/
def flagsAsked (s : State) (f : Nat) (g : Graph) : State :=
  ((flagPlaces s g.lid).filter fun q => !s.dead.getLsbD (q / 64)).foldl (askFlag f g s.serial) (fresh s).2

theorem exec_sflagsAll (h : curGraph s = some (f, g)) :
    exec (.sflagsAll w) s =
      .next (putGraph (flagsAsked s f g) { g with wait := some (.flagsAll w.d.toNat s.serial (flagPlaces s g.lid) 0) }) :=
  congrArg Host.Outcome.next (seqWord_eq h _)

/-- A question for a flag word sends a packet, and a timer to another wafer; it touches nothing else. -/
theorem askFlag_frame (s : State) (f : Nat) (g : Graph) (id q : Nat) :
    ∃ serial remotes, askFlag f g id s q = { s with
      net := s.net ++ [newPkt s s.serial (.seqr f) 0 (.seqr (q % 64)) (q / 64) 0 (.flagAsk g.lid g.ctx f q id)]
      serial := serial, remotes := remotes } := by
  unfold askFlag
  dsimp only
  split <;> exact ⟨_, _, rfl⟩

/-- The questions for some places of a launch: what they leave, and a packet for each. -/
theorem askFlag_all (f : Nat) (g : Graph) (id : Nat) (l : List Nat) (s : State) :
    (∃ net serial remotes, l.foldl (askFlag f g id) s = { s with net := net, serial := serial, remotes := remotes }) ∧
    (∀ p ∈ s.net, p ∈ (l.foldl (askFlag f g id) s).net) ∧
    ∀ q ∈ l, ∃ p ∈ (l.foldl (askFlag f g id) s).net,
      p.cls = 0 ∧ p.dstW = q / 64 ∧ p.to_ = .seqr (q % 64) ∧ p.msg = .flagAsk g.lid g.ctx f q id := by
  induction l generalizing s with
  | nil => exact ⟨⟨_, _, _, rfl⟩, fun _ hp => hp, fun _ hq => absurd hq (List.not_mem_nil)⟩
  | cons a l ih =>
    obtain ⟨serial, remotes, ha⟩ := askFlag_frame s f g id a
    obtain ⟨⟨net, serial', remotes', hl⟩, hkeep, hsent⟩ := ih (askFlag f g id s a)
    rw [List.foldl_cons]
    refine ⟨⟨net, serial', remotes', by rw [hl, ha]⟩, fun p hp => hkeep p ?_, fun q hq => ?_⟩
    · rw [ha]; exact List.mem_append_left _ hp
    · rcases List.mem_cons.mp hq with rfl | hq
      · exact ⟨_, hkeep _ (by rw [ha]; exact List.mem_append_right _ (List.mem_singleton_self _)), rfl, rfl, rfl, rfl⟩
      · exact hsent q hq

theorem flagStep_ask {p : Packet} {lid ctx h q id : Nat} (hm : p.msg = .flagAsk lid ctx h q id) (ha : arrived s p = true) :
    flagStep s p = sendPkt (dropPkt s p.id) (.seqr (q % 64)) 0 (.seqr h) p.srcW 0
      (.flagTold lid ctx h q id (tgetD (execOf s ctx).flagw (lid, q % 64) 0)) := by
  simp only [flagStep, hm, ha, if_true]

/-- An answer reaches the graphs of its field, and its timer stops. -/
theorem graphsOf_flagStep_told {p : Packet} {lid ctx h q id : Nat} {v : BitVec 5} (hm : p.msg = .flagTold lid ctx h q id v)
    (ha : arrived s p = true) (hc : InPlace s ctx) : graphsOf (flagStep s p) h = graphsOf (flagIn s h lid q id v) h := by
  have hpl (l : List Remote) : InPlace { dropPkt s p.id with remotes := l } ctx := hc
  simp only [flagStep, hm, ha, if_true]
  rw [onCopy_inPlace (hpl _)]
  simp only [flagIn, graphsOf, tgetD_tset_self]
  rfl

/-- The answer is taken by the word that waits for it. -/
theorem graphsOf_flagIn {h lid q id n : Nat} {v : BitVec 5} {k : Graph} {j : Nat} {left : List Nat} {acc : BitVec 5}
    (hk : (graphsOf s h)[n]? = some k) (hw : k.wait = some (.flagsAll j id left acc)) (hl : k.lid = lid) (hq : q ∈ left) :
    (graphsOf (flagIn s h lid q id v) h)[n]? = some { k with wait := some (.flagsAll j id (left.erase q) (acc ||| v)) } := by
  simp only [flagIn, graphsOf, tgetD_tset_self, List.getElem?_map]
  rw [show (tgetD s.x.graphs h [])[n]? = some k from hk]
  simp [hw, hl, hq]

theorem stepFlags_waits {left : List Nat} (hne : left ≠ []) (hd : ∀ x ∈ left, s.dead.getLsbD (x / 64) = false) (k : Nat) (acc : BitVec 5) :
    stepFlags s f g k left acc = none := by
  have hany : (left.any fun q => s.dead.getLsbD (q / 64)) = false := List.any_eq_false.mpr fun x hx => by rw [hd x hx]; decide
  simp only [stepFlags, List.isEmpty_eq_false_iff.mpr hne, hany, Bool.false_eq_true, if_false]

theorem stepFlags_dead {left : List Nat} (hd : ∃ x ∈ left, s.dead.getLsbD (x / 64) = true) (k : Nat) (acc : BitVec 5) :
    stepFlags s f g k left acc = some (graphFault s f g Code.peerDead 0) := by
  obtain ⟨x, hx, hdead⟩ := hd
  have hany : (left.any fun q => s.dead.getLsbD (q / 64)) = true := List.any_eq_true.mpr ⟨x, hx, hdead⟩
  have hne : left.isEmpty = false := List.isEmpty_eq_false_iff.mpr (List.ne_nil_of_mem hx)
  simp only [stepFlags, hne, hany, if_true, Bool.false_eq_true, if_false]

end

/-- Settles O39: the claim and the post of SQPOST, the child launch, and the questions and answers of SFLAGS_ALL, each by its own lemma. -/
theorem graphsPostAndLaunch : Obligations.GraphsPostAndLaunch := by
  intro w s f g h a d
  refine ⟨?post, ?launch, ?flags, ?ask, ?asked, ?told, ?all, ?left, ?dead⟩
  case post =>
    intro ha hd q ht to_
    rw [exec_sqpost h rfl rfl ha hd ht]
    refine ⟨fun hn => by rw [farWord_new hn], fun ho => by rw [farWord_old ho], ?_⟩
    intro pa cmp s1 b1 s2 s3 c hto htr hr hw hfar hread j n used slot
    have hto : farWafer s g.ctx d (true, true) = none := hto
    have ho : farNew s (.seqr f) g.tag (farWafer s g.ctx d (true, true)) = false := by rw [hto]; rfl
    have hgot : farGot s (.seqr f) g.tag (farWafer s g.ctx d (true, true)) = s := by rw [hto]; rfl
    rw [farWord_old ho, hgot, claimPost_ok (postClaim_ok htr hr hw)]
    refine ⟨fun hfull => ?_, fun s4 b s5 s6 h0 hlt hb hw5 hw6 => ?_⟩
    · rw [tryPost_full hfar hread hfull]; rfl
    · rw [tryPost_room hfar hread h0 hlt hb hw5 hw6]; rfl
  case launch =>
    intro ha to_
    rw [exec_launch h rfl ha]
    refine ⟨fun hn => by rw [farWord_new hn], fun s1 b ho hr h0 h1 hok => ?_⟩
    obtain ⟨u, hu⟩ := beginLaunch_child s1 _ g.lid
    exact ⟨u, hu, by rw [farWord_old ho, childLaunch_begun hr h0 h1 hok hu]; rfl⟩
  case flags => exact exec_onlyGraph h (exec_sflags h)
  case ask =>
    obtain ⟨⟨net, serial, remotes, hframe⟩, -, hsent⟩ :=
      askFlag_all f g s.serial ((flagPlaces s g.lid).filter fun q => !s.dead.getLsbD (q / 64)) (fresh s).2
    have hcur : curGraph (flagsAsked s f g) = some (f, g) := by rw [flagsAsked, hframe]; exact h
    refine ⟨_, exec_sflagsAll h, ?_, curGraph_putGraph hcur _, fun q hq hdead => ?_⟩
    · rw [mem_putGraph, flagsAsked, hframe]; rfl
    · rw [net_putGraph]
      exact hsent q (List.mem_filter.mpr ⟨hq, by rw [hdead]; rfl⟩)
  case asked => exact fun p lid ctx k q id hm ha => flagStep_ask hm ha
  case told =>
    intro p lid ctx k q id v n x j left acc hm ha hc _ hx hw hl hq
    rw [graphsOf_flagStep_told hm ha hc]
    exact graphsOf_flagIn hx hw hl hq
  case all => exact fun k acc => ⟨_, rfl, onlyGraph_putGraph h _⟩
  case left => exact fun k q l acc hd => stepFlags_waits (List.cons_ne_nil q l) hd k acc
  case dead => exact fun k l acc hd => stepFlags_dead hd k acc

end Sys2Proof.Machine
end

section
/-! Queues (R71 to R76, R98, R100, R336; log 9, 12, 73, 76, 77): what QBIND reads, what an acceptance leaves of its queue, and how a head that
waits rises. -/

namespace Sys2Proof.Machine

open Sys2Proof Sys2Proof.Safety

section
variable {s : State} {f : Nat} {g : Graph} {w : SW}

/-! ## Binding and unbinding (R71, R72, R98) -/

section Bind
variable {q a c : Nat} (h : curGraph s = some (f, g)) (hq : w.imm.toNat % 16 = q) (ha : (g.reg w.a).toNat = a) (hc : (g.reg w.b).toNat = c)
include h hq ha hc

theorem exec_qbind_noContext (hlt : 512 ≤ c) :
    exec (.qbind w) s = .next (graphFault (unbindQueue s f q) f g Code.queueFormat a) := by
  refine congrArg Host.Outcome.next ((seqWord_eq h _).trans ?_)
  simp only [hq, ha, hc, hlt, if_true]

variable {to_ : Option Nat} (hlt : c < 512) (hto : farWafer (unbindQueue s f q) c a (true, false) = to_)
include hlt hto

theorem exec_qbind_sent (hn : farNew (unbindQueue s f q) (.seqr f) g.tag to_ = true) :
    exec (.qbind w) s = .next (farSend (unbindQueue s f q) (.seqr f) g.tag g.lid (to_.getD 0)) := by
  refine congrArg Host.Outcome.next ((seqWord_eq h _).trans ?_)
  simp only [hq, ha, hc, Nat.not_le.mpr hlt, if_false, hto, farAccess_new hn]

variable (ho : farNew (unbindQueue s f q) (.seqr f) g.tag to_ = false)
include ho

theorem exec_qbind_bound {u : State} {z : Queue} (hb : bindQueue (farGot (unbindQueue s f q) (.seqr f) g.tag to_) c a = some (u, z)) :
    exec (.qbind w) s = .next (putGraph { u with queues := tset u.queues (f, q) z } g.next) := by
  refine congrArg Host.Outcome.next ((seqWord_eq h _).trans ?_)
  simp only [hq, ha, hc, Nat.not_le.mpr hlt, if_false, hto, farAccess_old ho, hb]

theorem exec_qbind_refused (hb : bindQueue (farGot (unbindQueue s f q) (.seqr f) g.tag to_) c a = none) :
    exec (.qbind w) s = .next (graphFault (farGot (unbindQueue s f q) (.seqr f) g.tag to_) f g Code.queueFormat a) := by
  refine congrArg Host.Outcome.next ((seqWord_eq h _).trans ?_)
  simp only [hq, ha, hc, Nat.not_le.mpr hlt, if_false, hto, farAccess_old ho, hb]

end Bind

theorem exec_qunbind (h : curGraph s = some (f, g)) :
    exec (.qunbind w) s = .next (putGraph (unbindQueue s f (w.imm.toNat % 16)) g.next) := congrArg Host.Outcome.next (seqWord_eq h _)

theorem bindQueue_ok {u : State} {c a : Nat} {b : List Byte} (ha : a % 64 = 0) (hp : hbmPage s c a = true)
    (hr : readAt s c noLid a 64 = .ok (u, b)) (hd : descOk u c b = true) :
    bindQueue s c a = some (u, ⟨a, leAt b 0 8, leAt b 8 4, leAt b 12 1, c, BitVec.ofNat 64 (leAt b 24 8), false, false, 0, none, []⟩) := by
  simp only [bindQueue, ha, hp, hr, hd, ne_eq, not_true, decide_false, Bool.not_true, Bool.or_false, Bool.false_eq_true, if_false, if_true]

/-- QUNBIND frees the queue's own number. -/
theorem tget_unbindQueue (s : State) (f : Nat) {q : Nat} (hq : q < 16) : tget (unbindQueue s f q).queues (f, q) = none := by
  rw [unbindQueue]
  split
  next h => exact h
  next z h =>
    dsimp only
    split
    · exact tget_tdel_self ..
    · refine (tget_tset_ne _ _ fun e => ?_).trans (tget_tdel_self ..)
      have above : _ + 16 = q := congrArg Prod.snd e
      omega

end

/-! ## Acceptance (R73, R74, R76) -/

section
variable {s u v : State} {f q : Nat} {z : Queue} {b : List Byte}

theorem exec_queueAccept_sent (hp : ((readingQueue s f).orElse fun _ => pickQueue s f) = some q) (hz : tget s.queues (f, q) = some z)
    (hn : farNew s (.seqr f) (slotTag q) (slotFar s z) = true) :
    exec (.queueAccept f) s = .next (farSend s (.seqr f) (slotTag q) noLid ((slotFar s z).getD 0)) := by
  change execQueueAccept f s = _
  simp only [execQueueAccept, hp, hz, farAccess_new hn]

theorem exec_queueAccept_read (hp : ((readingQueue s f).orElse fun _ => pickQueue s f) = some q) (hz : tget s.queues (f, q) = some z)
    (ho : farNew s (.seqr f) (slotTag q) (slotFar s z) = false)
    (ha : acceptable (farGot s (.seqr f) (slotTag q) (slotFar s z)) f q z = some (u, b)) :
    exec (.queueAccept f) s = .next (acceptPacket u f q z b) := by
  change execQueueAccept f s = _
  simp only [execQueueAccept, hp, hz, farAccess_old ho, ha]

/-- A record of the sequencer touches neither queues nor memory. -/
theorem queues_recordOnly (s : State) (u : UnitId) (code ctx f lid : Nat) (sl : Option Slot) (addr : Nat) (t : Time) (seq : BitVec 24) :
    (recordOnly s u code ctx f lid sl addr t seq).queues = s.queues :=
  (congrArg State.queues (quiet_reportFault s someSlot _).loc.frame :)

theorem mem_recordOnly (s : State) (u : UnitId) (code ctx f lid : Nat) (sl : Option Slot) (addr : Nat) (t : Time) (seq : BitVec 24) :
    (recordOnly s u code ctx f lid sl addr t seq).mem = s.mem := (quiet_reportFault s someSlot _).mem

/-- A malformed packet halts its queue (R76). -/
theorem acceptPacket_bad (h : packetOk b = false) :
    acceptPacket s f q z b = recordOnly { s with queues := tset s.queues (f, q) { z with halted := true } } (.seqr f) Code.queuePacket z.ctx f
      noLid none (slotOf z) t00 0 := by
  simp only [acceptPacket, h, Bool.not_false, if_true]

/-- A queue after it has accepted the packet at its read index. -/
def Queue.accepted (z : Queue) (b : List Byte) : Queue :=
  { z with i := z.i + 1, boost := 0, since := none, pkts := z.pkts ++ [⟨z.i, b, false, 0⟩] }

theorem acceptPacket_ok (h : packetOk b = true) (hw : writeAt s z.ctx noLid (z.desc + 24) (leBytes 8 (z.i + 1).toNat) = .ok v) :
    acceptPacket s f q z b =
      makeLive { v with queues := tset v.queues (f, q) (z.accepted b), seqrs := tset v.seqrs f { seqrOf v f with lastQ := q } } z.ctx := by
  simp only [acceptPacket, h, Bool.not_true, Bool.false_eq_true, if_false, hw]
  rfl

theorem makeLive_frame (s : State) (c : Nat) : ∃ ctxs, makeLive s c = { s with ctxs := ctxs } := by
  rw [makeLive]
  split
  · exact ⟨_, rfl⟩
  · dsimp only
    split <;> exact ⟨_, rfl⟩

/-! ## Ageing (R100) -/

theorem exec_queueAgeing_queue {n : Nat} {c : W64} (hz : tget s.queues (f, n) = some z) (ha : (acceptable s f n z).isSome = true)
    (hc : z.since = some c) (ht : 4096 ≤ (ctr s (.seqr f) - c).toNat) (he : z.eff < 3) :
    exec (.queueAgeing f (.queue n)) s =
      .next { s with queues := tset s.queues (f, n) { z with boost := z.boost + 1, since := some (ctr s (.seqr f)) } } := by
  change execQueueAgeing f (.queue n) s = _
  simp only [execQueueAgeing, hz, ha, hc, Option.any_some, ht, he, decide_true, Bool.and_self, if_true]

theorem exec_queueAgeing_graph {n : Nat} {g : Graph} (hg : (graphsOf s f)[n]? = some g) (hr : graphReady s f g = true)
    (ht : 4096 ≤ (ctr s (.seqr f) - g.since).toNat) (he : g.eff < 3) :
    exec (.queueAgeing f (.graph n)) s = .next { s with x := { s.x with
      graphs := tset s.x.graphs f (setAt (graphsOf s f) n { g with boost := g.boost + 1, since := ctr s (.seqr f) }) } } := by
  change execQueueAgeing f (.graph n) s = _
  simp only [execQueueAgeing, hg, hr, ht, he, decide_true, Bool.and_self, if_true]

end

/-- Settles O45: binding and acceptance go through one access each to where the descriptor or the packet stands; ageing looks at the head. -/
theorem queuesAccept : Obligations.QueuesAccept := by
  refine ⟨?bind, ?send, ?accept, ?age⟩
  case bind =>
    intro w s f g h q u a c go to_ v
    exact ⟨fun hc => exec_qbind_sent h rfl rfl rfl hc rfl,
      fun s1 b hc ho hal hp hr hd => exec_qbind_bound h rfl rfl rfl hc rfl ho (bindQueue_ok hal hp hr hd),
      exec_qbind_noContext h rfl rfl rfl, fun hc ho => exec_qbind_refused h rfl rfl rfl hc rfl ho, exec_qunbind h,
      tget_unbindQueue s f (Nat.mod_lt _ (by decide))⟩
  case send => exact fun s f q z hp hz hn => exec_queueAccept_sent hp hz hn
  case accept =>
    intro s u f q z b hp hz ho ha
    refine ⟨fun hbad => ⟨_, exec_queueAccept_read hp hz ho ha, ?_⟩, fun v hok hw => ⟨_, exec_queueAccept_read hp hz ho ha, ?_⟩⟩
    · rw [acceptPacket_bad hbad, queues_recordOnly, mem_recordOnly]
      exact ⟨tget_tset_self .., rfl⟩
    · obtain ⟨ctxs, hlive⟩ := makeLive_frame
        { v with queues := tset v.queues (f, q) (z.accepted b), seqrs := tset v.seqrs f { seqrOf v f with lastQ := q } } z.ctx
      rw [acceptPacket_ok hok hw, hlive]
      exact ⟨rfl, by simp [seqrOf], tget_tset_self ..⟩
  case age =>
    intro s f n now
    refine ⟨fun z c hz ha hc ht he => exec_queueAgeing_queue hz ha hc ht he, fun z ha hc => ?_, fun z ha => ?_,
      fun g hg hr ht he => exec_queueAgeing_graph hg hr ht he⟩
    · simp only [noteHead, ha, if_true, hc]
      rfl
    · simp only [noteHead, ha, Option.isSome_none, Bool.false_eq_true, if_false]

end Sys2Proof.Machine
end

section
/-! Packets (R76 to R78, R336, R340, R345; log 9, 73): the packet of a queue that starts next completes, begins a launch, or is handed to a
streamer island. -/

namespace Sys2Proof.Machine

open Sys2Proof Sys2Proof.Safety

/-! ## Accesses to several wafers at once (R336; log 9) -/

/-- What sending an access to each of some wafers leaves: a timer for each, and nothing else. -/
theorem farSend_all (u : UnitId) (tag lid : Nat) (l : List Nat) (s : State) :
    (∃ remotes serial, l.foldl (fun s w => farSend s u tag lid w) s = { s with remotes := remotes, serial := serial }) ∧
    (∀ m ∈ s.remotes, m ∈ (l.foldl (fun s w => farSend s u tag lid w) s).remotes) ∧
    ∀ w ∈ l, ∃ m ∈ (l.foldl (fun s w => farSend s u tag lid w) s).remotes,
      m.unit = u ∧ m.wafer = w ∧ m.what = .access tag lid ∧ m.since = ctr s u := by
  induction l generalizing s with
  | nil => exact ⟨⟨_, _, rfl⟩, fun _ hm => hm, fun _ hw => absurd hw List.not_mem_nil⟩
  | cons a l ih =>
    obtain ⟨⟨remotes, serial, hl⟩, hkeep, hsent⟩ := ih (farSend s u tag lid a)
    rw [List.foldl_cons]
    refine ⟨⟨remotes, serial, hl⟩, fun m hm => hkeep m (List.mem_append_left _ hm), fun w hw => ?_⟩
    rcases List.mem_cons.mp hw with rfl | hw
    · exact ⟨_, hkeep _ (List.mem_append_right _ (List.mem_singleton_self _)), rfl, rfl, rfl, rfl⟩
    · exact hsent w hw

section
variable {s : State} {u : UnitId} {tag lid : Nat} {ws : List Nat} {k : State → State}

theorem farAll_new {w : Nat} (hw : w ∈ ws) (hn : farNew s u tag (some w) = true) :
    farAll s u tag lid ws k = (ws.filter fun w => farNew s u tag (some w)).foldl (fun s w => farSend s u tag lid w) s := by
  have hne : (ws.filter fun w => farNew s u tag (some w)).isEmpty = false :=
    List.isEmpty_eq_false_iff.mpr (List.ne_nil_of_mem (List.mem_filter.mpr ⟨hw, hn⟩))
  simp only [farAll, hne, Bool.false_eq_true, if_false]

theorem farAll_old (ho : ∀ w ∈ ws, farNew s u tag (some w) = false) :
    farAll s u tag lid ws k = k (ws.foldl (fun s w => farGot s u tag (some w)) s) := by
  have hnil : (ws.filter fun w => farNew s u tag (some w)) = [] := List.filter_eq_nil_iff.mpr fun w hw => by rw [ho w hw]; decide
  simp only [farAll, hnil, List.isEmpty_nil, if_true]

end

/-! ## Packets handed to an island (R340, R345) -/

section
variable {s : State} {f q : Nat} {z : Queue} {p : QPkt}

/-- A packet completes: none of its index stands in its queue. -/
theorem idx_ne_of_pktDone {z' : Queue} {x : QPkt} {idx : W64} (h : tget (pktDone s (some (f, q)) idx).queues (f, q) = some z')
    (hx : x ∈ z'.pkts) : x.idx ≠ idx := by
  cases hz : tget s.queues (f, q) with
  | none => simp [pktDone, hz] at h
  | some y =>
    simp only [pktDone, hz] at h
    split at h
    · simp at h
    · rw [tget_tset_self] at h
      cases h
      simpa using (List.mem_filter.mp hx).2

/-- The packet at z of queue q is taken by its island: its accesses to the wafers fars are sent and timed first; then what mk makes of it is the
island's newest stream, or its queue halts, or it completes with a record. -/
def IslandTakes (s : State) (f q : Nat) (z : Queue) (p : QPkt) (i : Instr) (fars : List Nat)
    (mk : State → Except Nat (State × Stream)) : Prop :=
  let isl : UnitId := .si f (q % 4)
  (∀ w ∈ fars, farNew s isl (acceptTag + 1) (some w) = true →
    ∃ t, exec i s = .next t ∧ t = { s with remotes := t.remotes, serial := t.serial } ∧ ∃ m ∈ t.remotes,
      m.unit = isl ∧ m.wafer = w ∧ m.what = .access (acceptTag + 1) noLid ∧ m.since = ctr s isl) ∧
  ((∀ w ∈ fars, farNew s isl (acceptTag + 1) (some w) = false) →
    let v := fars.foldl (fun s w => farGot s isl (acceptTag + 1) (some w)) s
    (∀ u x, mk v = .ok (u, x) → exec i s = .next (markStarted (addStream u f (q % 4) x) f q p.idx)) ∧
    (mk v = .error Code.descFormat → exec i s = .next (haltAt v f q z p)) ∧
    (∀ c, mk v = .error c → c ≠ Code.descFormat →
      exec i s = .next (pktDone (recordOnly v isl c z.ctx f noLid none 0 t00 0) (some (f, q)) p.idx)))

/-- Every kind of packet that is handed to an island is taken so. -/
theorem islandTakes {ty : Nat} {ok : List Byte → Bool} {i : Instr} {fars : List Nat}
    {mk : State → Queue → QPkt → Except Nat (State × Stream)} (he : exec i s = .next (handStream s f q ty ok mk))
    (hready : startable s f q ty = some (z, p)) (hok : ok p.bytes = true) (hroom : queued (siGet s f (q % 4)) < 64)
    (hheld : unitHolds s (.si f (q % 4)) = false)
    (hfars : (if ty = 3 then dlistFar s z.ctx p.bytes (BitVec.ofNat 64 (leAt p.bytes 48 8)) else []) = fars) :
    IslandTakes s f q z p i fars fun v => mk v z p := by
  have hfree : (!ok p.bytes || 64 ≤ queued (siGet s f (q % 4)) || unitHolds s (.si f (q % 4))) = false := by
    simp only [hok, hheld, Nat.not_le.mpr hroom, decide_false, Bool.not_true, Bool.or_false]
  simp only [handStream, hready, hfree, Bool.false_eq_true, if_false, hfars] at he
  refine ⟨fun w hw hn => ⟨_, he, ?_⟩, fun ho => ?_⟩
  · obtain ⟨⟨remotes, serial, hsent⟩, -, htimed⟩ := farSend_all (.si f (q % 4)) (acceptTag + 1) noLid
      (fars.filter fun w => farNew s (.si f (q % 4)) (acceptTag + 1) (some w)) s
    rw [farAll_new hw hn]
    exact ⟨by rw [hsent], htimed w (List.mem_filter.mpr ⟨hw, hn⟩)⟩
  · rw [farAll_old ho] at he
    refine ⟨fun u x hm => he.trans ?_, fun hm => he.trans ?_, fun c hm hc => he.trans ?_⟩
    · simp only [hm]
    · simp only [hm, if_true]
    · simp only [hm, hc, if_false]

/-! ## NOP, LAUNCH and STAMP (R77, R78, R80) -/

theorem exec_nopPacket (hr : startable s f q 0 = some (z, p)) : exec (.nopPacket f q) s = .next (pktDone s (some (f, q)) p.idx) := by
  change execNopPacket f q s = _
  simp only [execNopPacket, hr]

section LaunchPacket
variable {l : Launch} {to_ : Option Nat} (hr : startable s f q 1 = some (z, p))
  (hl : Launch.start ((partOfCtx s z.ctx).getD 0) z.ctx f (some (f, q)) z.prio p.idx (leAt p.bytes 8 8) (leAt p.bytes 16 8)
    (leAt p.bytes 24 8) = l)
  (hto : farWafer s z.ctx l.image (true, false) = to_)
include hr hl hto

theorem exec_launchPacket_sent (hn : farNew s (.seqr f) (packetTag q) to_ = true) :
    exec (.launchPacket f q) s = .next (farSend s (.seqr f) (packetTag q) noLid (to_.getD 0)) := by
  change execLaunchPacket f q s = _
  simp only [execLaunchPacket, hr, hl, hto, farAccess_new hn]

variable (ho : farNew s (.seqr f) (packetTag q) to_ = false)
include ho

theorem exec_launchPacket_begun {u : State} (hb : beginLaunch (farGot s (.seqr f) (packetTag q) to_) l noLid false = some u) :
    exec (.launchPacket f q) s = .next (markStarted u f q p.idx) := by
  change execLaunchPacket f q s = _
  simp only [execLaunchPacket, hr, hl, hto, farAccess_old ho, hb]

theorem exec_launchPacket_waits (hb : beginLaunch (farGot s (.seqr f) (packetTag q) to_) l noLid false = none) :
    exec (.launchPacket f q) s = .next (farGot s (.seqr f) (packetTag q) to_) := by
  change execLaunchPacket f q s = _
  simp only [execLaunchPacket, hr, hl, hto, farAccess_old ho, hb]

end LaunchPacket

section StampPacket
variable {va : Nat} {to_ : Option Nat} (hr : startable s f q 6 = some (z, p)) (hva : leAt p.bytes 8 8 = va)
  (hto : farWafer s z.ctx va (false, true) = to_)
include hr hva hto

theorem exec_stampPacket_sent (hn : farNew s (.seqr f) (packetTag q) to_ = true) :
    exec (.stampPacket f q) s = .next (farSend s (.seqr f) (packetTag q) noLid (to_.getD 0)) := by
  change execStampPacket f q s = _
  simp only [execStampPacket, hr, hva, hto, farAccess_new hn]

variable (ho : farNew s (.seqr f) (packetTag q) to_ = false)
include ho

theorem exec_stampPacket_written {u : State}
    (hw : writeAt (farGot s (.seqr f) (packetTag q) to_) z.ctx noLid va (leBytes 8 (leAt p.bytes 16 8)) = .ok u) :
    exec (.stampPacket f q) s = .next (pktDone u (some (f, q)) p.idx) := by
  change execStampPacket f q s = _
  simp only [execStampPacket, hr, hva, hto, farAccess_old ho, hw]

theorem exec_stampPacket_refused {c : Nat}
    (hw : writeAt (farGot s (.seqr f) (packetTag q) to_) z.ctx noLid va (leBytes 8 (leAt p.bytes 16 8)) = .error c) :
    exec (.stampPacket f q) s =
      .next (pktDone (recordOnly (farGot s (.seqr f) (packetTag q) to_) (.seqr f) c z.ctx f noLid none va t00 0) (some (f, q)) p.idx) := by
  change execStampPacket f q s = _
  simp only [execStampPacket, hr, hva, hto, farAccess_old ho, hw]

end StampPacket

end

/-- Settles O46: NOP, LAUNCH and STAMP each by their own step, the others as packets that an island takes. -/
theorem packetsRun : Obligations.PacketsRun := by
  intro s f q z p done ready isl island sends pk
  refine ⟨exec_nopPacket, fun hr => ?launch, fun hr hroom hheld => ?copy, fun hr => ?mcopy, fun hr hn hroom hheld => ?gbind,
    fun hr hn hroom hheld => ?unbind, fun hr hroom hheld => ?bin, fun hr => ?stamp, fun z' hz x hx => idx_ne_of_pktDone hz hx⟩
  case launch =>
    exact ⟨exec_launchPacket_sent hr rfl rfl, fun ho => ⟨fun u => exec_launchPacket_begun hr rfl rfl ho,
      exec_launchPacket_waits hr rfl rfl ho⟩⟩
  case copy =>
    exact islandTakes (i := .copyPacket f q) (ty := 2) (ok := fun _ => true) rfl hr rfl hroom hheld rfl
  case mcopy =>
    intro mask hroom hheld
    exact islandTakes (i := .mcopyPacket f q) (ty := 3) (ok := fun _ => true) rfl hr rfl hroom hheld rfl
  case gbind =>
    exact islandTakes (i := .gbindPacket f q) (ty := 4) (ok := fun b => leAt b 4 4 != 0) rfl hr (bne_iff_ne.mpr hn) hroom hheld rfl
  case unbind =>
    exact islandTakes (i := .gbindUnbindPacket f q) (ty := 4) (ok := fun b => leAt b 4 4 == 0) rfl hr (beq_iff_eq.mpr hn) hroom hheld rfl
  case bin =>
    exact islandTakes (i := .binPacket f q) (ty := 5) (ok := fun _ => true) rfl hr rfl hroom hheld rfl
  case stamp =>
    exact ⟨exec_stampPacket_sent hr rfl rfl, fun u ho => exec_stampPacket_written hr rfl rfl ho,
      fun c ho => exec_stampPacket_refused hr rfl rfl ho⟩

end Sys2Proof.Machine
end

section
/-! How a set that issues is judged (R122 to R124): an END, a predicate that does not match and a NUL end its firing as special tokens, as
nothing, or with its node parked. -/

namespace Sys2Proof.Machine

open Sys2Proof Sys2Proof.Safety

/-! ## Ends of a firing (R116, R122, R125, R126) -/

section
variable {s : State} {w : CW} {fr : Firing}

theorem commit_fired {e : Emit} (h : hasRoom s fr.sl e = true) : commit s w fr e = fired s w fr e := if_pos h

theorem conclude_fired {e : Emit} (h : hasRoom s fr.sl e = true) (x y : Bool) (a : Nat) :
    conclude s w fr x y a (.ok e) = fired s w fr e := commit_fired h

/-- No output is too full for no token. -/
theorem roomFor_zero (s : State) (g : EdgeId) : roomFor s g 0 = true := by
  unfold roomFor
  split <;> rfl

theorem hasRoom_noEmit (s : State) (sl : Slot) (ex : Bool) : hasRoom s sl (noEmit ex) = true := by
  simp [hasRoom, noEmit, roomFor_zero]

/-- A special token on each of both outputs (R122). -/
theorem both_ok {mk : CW → Firing → Nat → Except Nat Token} {x y : Token} (hx : mk w fr 4 = .ok x) (hy : mk w fr 5 = .ok y) :
    both w fr true true mk = .ok ⟨[x], [y], 0, [], false⟩ := by
  simp only [both, hx, hy]
  rfl

/-- A fault that no catch node receives parks the set (R125, R126). -/
theorem faultFiring_park {code : Nat} (h : catchFor s fr.node.lid fr.sl code = none) (x y : Bool) (addr : Nat) :
    faultFiring s w fr x y code addr = parkSet (popIq s fr.sl) fr.sl fr.node fr.set code addr (.core fr.sl.core) := by
  simp only [faultFiring, h]

theorem catchFor_of_not_catchable {code : Nat} (h : catchable code = false) (s : State) (lid : Nat) (sl : Slot) : catchFor s lid sl code = none := by
  simp [catchFor, h]

end

/-! ## Judging a set that is no memory operator's (R122 to R124) -/

section
variable {w : CW} {ids : Nat → Nat} {o : OpSet}

theorem judge_fin (h : (isEnd o.a || isEnd o.b || isEnd o.c || isEnd o.p) = true) : judge w false ids o = .fin := by
  simp only [judge, Bool.not_false, Bool.true_and, h, if_true]

theorem judge_skip (hend : (isEnd o.a || isEnd o.b || isEnd o.c || isEnd o.p) = false) (hp : pMatches w o.p = false) :
    judge w false ids o = .skip := by
  simp only [judge, Bool.not_false, Bool.true_and, hend, hp, Bool.false_eq_true, if_false, if_true]

/-- A set without an END whose predicate matches and that holds a NUL: NP decides what becomes of it (R124). -/
def nulSet (w : CW) (o : OpSet) : Bool :=
  !(isEnd o.a || isEnd o.b || isEnd o.c || isEnd o.p) && pMatches w o.p && (isNul o.a || isNul o.b || isNul o.c)

variable (h : nulSet w o = true)
include h

theorem judge_nul : judge w false ids o = if w.np = 0 then .absorb else if w.np = 1 then .pass else if w.np = 2 then
    .go { o with a := substId o.a (ids 0), b := substId o.b (ids 1), c := substId o.c (ids 2) } else .fault := by
  simp only [nulSet, Bool.and_eq_true, Bool.not_eq_true'] at h
  obtain ⟨⟨hend, hp⟩, hnul⟩ := h
  simp only [judge, Bool.not_false, Bool.true_and, hend, hp, hnul, Bool.not_true, Bool.false_eq_true, if_false, if_true]

theorem judge_absorb (hnp : w.np = 0) : judge w false ids o = .absorb := by simp only [judge_nul h, hnp, if_true]

theorem judge_pass (hnp : w.np = 1) : judge w false ids o = .pass := by simp [judge_nul h, hnp]

theorem judge_fault (hnp : w.np = 3) : judge w false ids o = .fault := by simp [judge_nul h, hnp]

end

/-! ## A set that issues, by its verdict (R122) -/


section
variable {s : State} {fr : Firing} (h : Issues s fr) {w : CW} {mem x y : Bool} {ids : Nat → Nat} {body : Firing → State}
include h

theorem fireSet_fin (hj : judge w mem ids fr.set = .fin) :
    fireSet s w mem x y ids body = conclude s w fr x y 0 (both w fr x y endTok) := by
  simp only [fireSet, h.1, h.2, hj, Bool.false_eq_true, if_false]

theorem fireSet_skip (hj : judge w mem ids fr.set = .skip ∨ judge w mem ids fr.set = .pass) :
    fireSet s w mem x y ids body = conclude s w fr x y 0 (both w fr x y nulTok) := by
  obtain hj | hj := hj <;> simp only [fireSet, h.1, h.2, hj, Bool.false_eq_true, if_false]

theorem fireSet_absorb (hj : judge w mem ids fr.set = .absorb) : fireSet s w mem x y ids body = fired s w fr (noEmit false) := by
  simp only [fireSet, h.1, h.2, hj, Bool.false_eq_true, if_false, commit_fired (hasRoom_noEmit ..)]

theorem fireSet_fault (hj : judge w mem ids fr.set = .fault) : fireSet s w mem x y ids body =
    parkSet (popIq s fr.sl) fr.sl fr.node fr.set Code.nullOperand 0 (.core fr.sl.core) := by
  simp only [fireSet, h.1, h.2, hj, Bool.false_eq_true, if_false, faultFiring_park (catchFor_of_not_catchable (code := Code.nullOperand) rfl ..)]

theorem fireSet_go {o : OpSet} (hj : judge w mem ids fr.set = .go o) : fireSet s w mem x y ids body = body { fr with set := o } := by
  simp only [fireSet, h.1, h.2, hj, Bool.false_eq_true, if_false]

theorem fireOwn_issues : fireOwn s body = body fr := by simp only [fireOwn, h.1, h.2, Bool.false_eq_true, if_false]

end

/-- An instruction that drives both outputs runs its set under the common rule, C among the judged operands (R122). -/
theorem exec_drivesBoth {i : Instr} {r : Row} {w : CW} (hrow : i.row = some (r, w)) (h : drivesBoth r.op = true) (s : State) :
    ∃ ids body, exec i s = .next (fireSet s w false true true ids body) := by
  cases i with
  | abs | add | and | andn | bfi | bfx | clz | cmp | cvt | div | fabs | fadd | fcls | fcmp | fcvt | fma | fmax | fmin | fms
  | fmul | fneg | fnma | frcp | frnd | frsq | fscl | fsub | lane | mad | max | min | mov | mul | mulh | neg | not | or | popc
  | rem | rot | shl | shr | sra | sub | vins | vsum | xor | sel | dup | const | idnt | null | ends | rekey | valk | dset | negd =>
    cases hrow
    exact ⟨_, _, rfl⟩
  | _ => cases hrow <;> exact absurd h (by decide)

/-- Settles O13: the verdict on a set decides what its firing puts out, whatever the instruction computes. -/
theorem judgedSets : Obligations.JudgedSets := by
  intro i r w s fr tx ty hrow hdrives hiss hx hy o both_ quiet
  obtain ⟨ids, body, hexec⟩ := exec_drivesBoth hrow hdrives s
  rw [hexec]
  have special {mk : CW → Firing → Nat → Except Nat Token} {nul fin : Bool} (h4 : mk w fr 4 = .ok (specTok w.xc o tx nul fin))
      (h5 : mk w fr 5 = .ok (specTok w.yc o ty nul fin)) (hroom : hasRoom s fr.sl (both_ nul fin) = true) :
      conclude s w fr true true 0 (both w fr true true mk) = fired s w fr (both_ nul fin) := by
    rw [both_ok h4 h5]
    exact conclude_fired hroom ..
  refine ⟨fun hend hroom => ?fin, fun hend hp hroom => ?skip, fun hq hnp => ?absorb, fun hq hnp hroom => ?pass, fun hq hnp => ?fault⟩
  case fin => rw [fireSet_fin hiss (judge_fin hend), special (endTok_x hx) (endTok_y hy) hroom]
  case skip => rw [fireSet_skip hiss (.inl (judge_skip hend hp)), special (nulTok_x hx) (nulTok_y hy) hroom]
  case absorb => rw [fireSet_absorb hiss (judge_absorb hq hnp)]
  case pass => rw [fireSet_skip hiss (.inr (judge_pass hq hnp)), special (nulTok_x hx) (nulTok_y hy) hroom]
  case fault => rw [fireSet_fault hiss (judge_fault hq hnp)]

end Sys2Proof.Machine
end

section
/-! What the port makes of the request of a set that executes (R116, R125, R187, R189): its checks refuse it and the set parks, or it leaves, and
what follows it keeps its set out of the queue and its packet in flight. -/

namespace Sys2Proof.Machine

open Sys2Proof Sys2Proof.Safety

/-! ## The request of a set (R187, R230) -/

/-- An instruction sends the request of an operator for a set that its rule lets execute. -/
def Requests (i : Instr) (op : Op) (w : CW) (set o : OpSet) : Prop :=
  (portOp i = some (op, w) ∧ judge w true (fun _ => 0) set = .go o) ∨
  (histOp i = some (op, w) ∧ (isNul set.a || isEnd set.a) = false ∧ o = set)

theorem exec_portOp {i : Instr} {op : Op} {w : CW} (h : portOp i = some (op, w)) (s : State) : exec i s = .next (firePort s op w) := by
  unfold portOp at h
  split at h <;> cases h <;> rfl

theorem exec_histOp {i : Instr} {op : Op} {w : CW} (h : histOp i = some (op, w)) (s : State) : exec i s = .next (fireHist s op w) := by
  unfold histOp at h
  split at h <;> cases h <;> rfl

/-- Only the matrix islands read panes; no instruction does. -/
theorem Requests.op_ne_mread {i : Instr} {op : Op} {w : CW} {set o : OpSet} (h : Requests i op w set o) : op ≠ .mread := by
  obtain ⟨h, -⟩ | ⟨h, -⟩ := h
  · unfold portOp at h
    split at h <;> cases h <;> decide
  · unfold histOp at h
    split at h <;> cases h <;> decide

theorem Requests.exec_eq {i : Instr} {op : Op} {w : CW} {s : State} {fr : Firing} {o : OpSet} (h : Requests i op w fr.set o) (hiss : Issues s fr) :
    exec i s = .next (issueReq s op w { fr with set := o }) := by
  obtain ⟨hop, hgo⟩ | ⟨hop, hlive, rfl⟩ := h
  · rw [exec_portOp hop, firePort, fireSet_go hiss hgo]
  · rw [exec_histOp hop, fireHist, fireOwn_issues hiss]
    simp only [hlive, Bool.false_eq_true, if_false]

section
variable {s : State} {op : Op} {w : CW} {fr : Firing} {l : List Token × List Token}
  (hroom : portRoom s fr.sl op = true) (htoks : ansToks (mkReq s op w fr) ⟨0, false, 0, none, none, none, 0⟩ = .ok l)
include hroom htoks

/-- The code of the check that fails parks the set, where no catch node receives it (R125). -/
theorem issueReq_refused {code : Nat} (hbad : resolve s (mkReq s op w fr) = .bad code) (hcatch : catchFor s fr.node.lid fr.sl code = none) :
    issueReq s op w fr =
      parkSet (popIq s fr.sl) fr.sl fr.node fr.set code (faultAddr (mkReq s op w fr) code) (.core fr.sl.core) := by
  unfold portRoom at hroom
  simp only [issueReq, hroom, htoks, hbad, faultFiring_park hcatch, Bool.not_true, Bool.false_eq_true, if_false]

/-- A request that passes every check leaves its port, unless a write that a release counts is still out. -/
theorem issueReq_leaves {q : PortReq} (hgo : resolve s (mkReq s op w fr) = .go q) (hfree : releaseWaits s q = []) :
    issueReq s op w fr = leavePort (reserveReq s w fr (mkReq s op w fr)) q := by
  unfold portRoom at hroom
  simp only [issueReq, hroom, htoks, hgo, hfree, refusedOf, first?, Option.map_none, Option.any_none, Bool.not_true, Bool.false_eq_true, if_false]

end

/-! ## The checks of an address (R187) -/

theorem resolve_xlat {r : PortReq} (ha : noAddr r.op = false) (h : 2 ^ 56 ≤ r.va) (s : State) : resolve s r = .bad Code.xlat := by
  simp only [resolve, ha, h, Bool.false_eq_true, if_false, if_true]

theorem resolve_align {r : PortReq} (ha : noAddr r.op = false) (h : r.va < 2 ^ 56) (hw : r.va % opWidth r.op r.w.ty.toNat ≠ 0) (s : State) :
    resolve s r = .bad Code.align := by
  simp only [resolve, ha, Nat.not_le.mpr h, bne_iff_ne.mpr hw, Bool.false_eq_true, if_false, if_true]

/-- Settles O32: a failed check is the port's answer, and its code parks the set. -/
theorem portsRefuse : Obligations.PortsRefuse := by
  refine ⟨?refused, fun s r ha => ⟨fun h => resolve_xlat ha h s, fun h hw => resolve_align ha h hw s⟩⟩
  intro i op w s fr o l code hiss hreq fr' hroom htoks hbad hcatch
  rw [Requests.exec_eq hreq hiss, issueReq_refused (fr := fr') hroom htoks hbad hcatch]

/-! ## What the checks leave of a request (R187, R259, R276) -/

/-- The checks add the physical addresses to a request and change nothing else of it. -/
theorem resolve_go_eq {s : State} {r q : PortReq} (h : resolve s r = .go q) : ∃ pa cpg more, q = { r with pa := pa, cpg := cpg, more := more } := by
  have done {r' : PortReq} (hr : PortSt.go r' = .go q) (h' : ∃ pa cpg more, r' = { r with pa := pa, cpg := cpg, more := more }) :
      ∃ pa cpg more, q = { r with pa := pa, cpg := cpg, more := more } := PortSt.go.inj hr ▸ h'
  unfold resolve at h
  split at h
  · exact done h ⟨_, _, _, rfl⟩
  split at h
  · cases h
  split at h
  · cases h
  split at h
  case h_1 => cases h
  case h_2 =>
    split at h
    · exact done h ⟨_, _, _, rfl⟩
    · cases h
  case h_3 =>
    split at h
    · cases h
    dsimp only at h
    split at h
    case isTrue =>
      split at h
      · cases h
      split at h
      · cases h
      split at h
      · cases h
      · cases h
      split at h
      · cases h
      split at h
      · exact done h ⟨_, _, _, rfl⟩
      · cases h
    case isFalse =>
      split at h
      · split at h
        · exact done h ⟨_, _, _, rfl⟩
        · cases h
      · exact done h ⟨_, _, _, rfl⟩

/-! ## What a firing's frame holds of the machine -/

theorem Quiet.node? {sl : Slot} {s t : State} (q : Quiet sl s t) (z : Slot) : node? t z = node? s z := by
  have hnodes : t.x.nodes = s.x.nodes := (congrArg (fun u : State => u.x.nodes) q.loc.frame :)
  rw [Machine.node?, Machine.node?, hnodes]

theorem Quiet.shares {sl : Slot} {s t : State} (q : Quiet sl s t) : t.shares = s.shares := (congrArg State.shares q.loc.frame :)

theorem Quiet.wafno {sl : Slot} {s t : State} (q : Quiet sl s t) : t.wafno = s.wafno := (congrArg State.wafno q.loc.frame :)

/-! ## What comes before and after a request's packet (R52, R116, R212, R409) -/

/-- Edge buffers and count tables aside, the execution state stands as it did, and every packet in flight still is. -/
structure PortKept (s t : State) : Prop where
  x   : ∃ edges ctab, t.x = { s.x with edges := edges, ctab := ctab }
  net : s.net ⊆ t.net

section
variable {s t u : State}

theorem PortKept.of_x (hx : t.x = s.x) (hnet : t.net = s.net) : PortKept s t := ⟨⟨_, _, hx⟩, hnet ▸ List.Subset.refl _⟩

theorem PortKept.refl (s : State) : PortKept s s := .of_x rfl rfl

theorem PortKept.trans (a : PortKept s t) (b : PortKept t u) : PortKept s u := by
  obtain ⟨⟨e, c, ha⟩, na⟩ := a
  obtain ⟨⟨e', c', hb⟩, nb⟩ := b
  exact ⟨⟨e', c', by rw [hb, ha]⟩, List.Subset.trans na nb⟩

theorem PortKept.ite {c : Prop} [Decidable c] (a : PortKept s t) (b : PortKept s u) : PortKept s (if c then t else u) := by
  split
  · exact a
  · exact b

theorem PortKept.iqOf (h : PortKept s t) (c : CoreId) (e : Nat) : iqOf t c e = iqOf s c e := by
  obtain ⟨⟨_, _, hx⟩, -⟩ := h
  rw [Machine.iqOf, hx]
  rfl

theorem PortKept.holdOf (h : PortKept s t) (z : Slot) : holdOf t z = holdOf s z := by
  obtain ⟨⟨_, _, hx⟩, -⟩ := h
  rw [Machine.holdOf, hx]
  rfl

theorem PortKept.outwOf (h : PortKept s t) (c : CoreId) : outwOf t c = outwOf s c := by
  obtain ⟨⟨_, _, hx⟩, -⟩ := h
  rw [Machine.outwOf, hx]
  rfl

variable (s)

theorem portKept_reserve (sl : Slot) (p rid : Nat) (t : Time) (q : BitVec 24) : PortKept s (reserve s sl p rid t q) :=
  .ite (.refl _) ⟨⟨_, _, rfl⟩, List.Subset.refl _⟩

theorem portKept_settle (sl : Slot) (p rid : Nat) (ts : List Token) : PortKept s (settle s sl p rid ts) :=
  .ite (.refl _) ⟨⟨_, _, rfl⟩, List.Subset.refl _⟩

theorem portKept_sendPkt (u : UnitId) (cls : Nat) (to_ : UnitId) (w payload : Nat) (m : Msg) : PortKept s (sendPkt s u cls to_ w payload m) :=
  ⟨⟨_, _, rfl⟩, List.subset_append_left ..⟩

theorem portKept_foldl {α : Type} {f : State → α → State} (hf : ∀ u a, PortKept u (f u a)) (l : List α) : PortKept s (l.foldl f s) :=
  List.foldlRecOn (motive := PortKept s) l f (.refl s) fun u h a _ => h.trans (hf u a)

theorem portKept_setCtab (l : Tbl CoreId (List CEntry)) : PortKept s { s with x := { s.x with ctab := l } } :=
  ⟨⟨_, _, rfl⟩, List.Subset.refl _⟩

theorem portKept_flushCounts (c : CoreId) : PortKept s (flushCounts s c) := by
  unfold flushCounts
  exact (portKept_foldl s (by exact fun u lid => portKept_sendPkt u ..) _).trans (portKept_setCtab ..)

theorem portKept_record (c : CoreId) (lid : Nat) (is : List CountItem) (after : Bool) : PortKept s (record s c lid is after) := by
  unfold record
  have sent (u : State) : PortKept u (flushCounts u c) := portKept_flushCounts u c
  exact ((PortKept.ite (.refl _) (sent _)).trans (portKept_setCtab ..)).trans (.ite (sent _) (.refl _))

theorem portKept_progress (f lid : Nat) : PortKept s (progress s f lid) := by
  unfold progress
  split <;> exact .of_x rfl rfl

theorem portKept_noteIssue (fr : Firing) : PortKept s (noteIssue s fr) := by
  have counted : PortKept s (countIssue s fr.sl.core.f fr.node.lid) := .of_x rfl rfl
  have noted (u : State) : PortKept u (noteFiring u fr.sl.core) := .of_x rfl rfl
  exact (counted.trans (portKept_progress ..)).trans (noted _)

theorem portKept_trace (sl : Slot) (o : OpSet) (v : W64) : PortKept s (trace s sl o v) := by
  refine .of_x (trace_x ..) ?_
  unfold trace
  generalize traceBytes s sl o v = bs
  split
  · rfl
  · dsimp only
    split
    · rfl
    · split <;> rfl

theorem portKept_finishReq (r : PortReq) (n : Node) (xs ys : List Token) (is : List CountItem) : PortKept s (finishReq s r n xs ys is) := by
  unfold finishReq
  exact ((((portKept_settle ..).trans (portKept_settle ..)).trans (portKept_record ..)).trans (portKept_progress ..)).trans
    (.ite (portKept_trace ..) (.refl _))

/-- Buffers are reserved once the set is gone and the hold register is written. -/
theorem portKept_reserveReq (w : CW) (fr : Firing) (r : PortReq) : PortKept (setHold (popIq s fr.sl) w fr) (reserveReq s w fr r) := by
  unfold reserveReq
  refine .trans (.trans (.trans ?_ (.ite (portKept_reserve ..) (.refl _))) (.ite (.refl _) (portKept_reserve ..))) (portKept_noteIssue ..)
  exact .of_x (by simp only [setHold, popIq]; split <;> rfl) (by simp only [setHold]; split <;> rfl)

end

/-! ## A request that leaves (R187, R189, R297, R308, R336) -/

theorem reqDest_congr {s t : State} (h : t.wafno = s.wafno) (r : PortReq) : reqDest t r = reqDest s r := by
  simp only [reqDest, h]

section
variable (s : State) (w : CW) (fr : Firing) (r : PortReq)

theorem iqOf_reserveReq : iqOf (reserveReq s w fr r) fr.sl.core fr.sl.e = (iqOf s fr.sl.core fr.sl.e).tail := by
  have hset : (setHold (popIq s fr.sl) w fr).x.iq = (popIq s fr.sl).x.iq := by
    unfold setHold
    split <;> rfl
  rw [(portKept_reserveReq ..).iqOf, iqOf, hset]
  exact tgetD_tset_self ..

theorem holdOf_reserveReq : holdOf (reserveReq s w fr r) fr.sl = if w.hd = 1 then bitsA w fr else holdOf s fr.sl := by
  rw [(portKept_reserveReq ..).holdOf, holdOf_setHold]
  rfl

theorem outwOf_reserveReq (c : CoreId) : outwOf (reserveReq s w fr r) c = outwOf s c := by
  rw [(portKept_reserveReq ..).outwOf]
  unfold setHold
  split <;> rfl

theorem releaseWaits_reserveReq (q : PortReq) : releaseWaits (reserveReq s w fr r) q = releaseWaits s q := by
  simp only [releaseWaits, outwOf_reserveReq, boundTo, (quiet_reserveReq s w fr r).shares]

theorem sendReq_x : (sendReq s r).x = s.x := by
  unfold sendReq
  dsimp only
  split
  · rfl
  · split <;> rfl

/-- A request's packet goes to its home, or to its core's island. -/
theorem sendReq_packet (hop : r.op ≠ .mread) : ∃ p, p ∈ (sendReq s r).net ∧
    p.msg = .req r r.pa r.cpg ∧ p.cls = opClass r.op ∧ (p.to_, p.dstW) = reqDest s r ∧ p.unit = .core r.sl.core := by
  have hne : (r.op == Op.mread) = false := beq_eq_false_iff_ne.mpr hop
  simp only [sendReq, hne, Bool.false_eq_true, if_false]
  split <;> exact ⟨_, List.mem_append_right _ (List.mem_singleton_self _), rfl, rfl, rfl, rfl⟩

/-- A write that leaves is noted as outstanding first (R297). -/
def writeNoted (s : State) (r : PortReq) : State := if isWrite r.op then noteWrite s r else s

theorem iqOf_writeNoted (c : CoreId) (e : Nat) : iqOf (writeNoted s r) c e = iqOf s c e := by
  unfold writeNoted
  split <;> rfl

theorem holdOf_writeNoted (z : Slot) : holdOf (writeNoted s r) z = holdOf s z := by
  unfold writeNoted
  split <;> rfl

theorem wafno_writeNoted : (writeNoted s r).wafno = s.wafno := by
  unfold writeNoted
  split <;> rfl

variable {s r}

/-- ST's issued token leaves with its request; every other request's packet is the last thing that changes (R189). -/
theorem leavePort_sent {n : Node} {ts : List Token × List Token} (hn : reqNode s r = some n) (hfree : releaseWaits s r = [])
    (htoks : ansToks r ⟨0, false, 0, none, none, none, 0⟩ = .ok ts) : PortKept (sendReq (writeNoted s r) r) (leavePort s r) := by
  have hleave : leavePort s r =
      if r.op == .st then issuedTok (sendReq (writeNoted s r) r) r n else sendReq (writeNoted s r) r := by
    simp only [leavePort, hn, hfree, refusedOf, first?, List.isEmpty_nil, if_true]
    rfl
  rw [hleave]
  refine .ite ?_ (.refl _)
  simp only [issuedTok, htoks]
  exact portKept_finishReq ..

theorem reqNode_of_node {n : Node} (h : node? s r.sl = some n) (hl : n.lid = r.lid) : reqNode s r = some n := by
  simp only [reqNode, h, hl, beq_self_eq_true, if_true]

end

/-- Settles O31: the port passes the request on, its packet joins those in flight, and what follows keeps the queue, the hold register and the
packet as they are. -/
theorem requestsAreSent : Obligations.RequestsAreSent := by
  intro i op w s fr o l q hiss hreq fr' hroom htoks hgo hfree
  have hop := Requests.op_ne_mread hreq
  obtain ⟨pa, cpg, more, rfl⟩ := resolve_go_eq hgo
  obtain ⟨-, hnode, -⟩ := firing_some hiss.1
  let u := reserveReq s w fr' (mkReq s op w fr')
  let q : PortReq := { mkReq s op w fr' with pa := pa, cpg := cpg, more := more }
  have quiet : Quiet fr.sl s u := quiet_reserveReq s w fr' _
  have hleave : PortKept (sendReq (writeNoted u q) q) (leavePort u q) :=
    leavePort_sent (reqNode_of_node ((quiet.node? _).trans hnode) rfl) ((releaseWaits_reserveReq ..).trans hfree) htoks
  obtain ⟨p, hp, hmsg, hcls, hdest, hunit⟩ := sendReq_packet (writeNoted u q) q hop
  have hdest := hdest.trans (reqDest_congr ((wafno_writeNoted ..).trans quiet.wafno) q)
  refine ⟨leavePort u q, ?_, ?queue, ?hold, ⟨p, hleave.net hp, hmsg, hcls, hdest, hunit⟩⟩
  · rw [Requests.exec_eq hreq hiss, issueReq_leaves (fr := fr') hroom htoks hgo hfree]
  case queue =>
    rw [hleave.iqOf, iqOf, sendReq_x]
    exact (iqOf_writeNoted ..).trans (iqOf_reserveReq ..)
  case hold =>
    rw [hleave.holdOf, holdOf, sendReq_x]
    exact (holdOf_writeNoted ..).trans (holdOf_reserveReq ..)

end Sys2Proof.Machine
end

section
/-! Parking and replay (R117, R118, R125, R401, R417; log 19, 51): what a fault's record leaves alone, which sets a parked node's queue gives up,
and where they stand when the set returns. -/

namespace Sys2Proof.Machine

open Sys2Proof Sys2Proof.Safety

/-! ## What a fault's record changes (R401, R405, R408) -/

/-- Records that wait, frozen regions and the next identifier are all that a fault's report changes. -/
structure ReportFrame (s t : State) : Prop where
  eq : t = { s with recQ := t.recQ, frozen := t.frozen, serial := t.serial }

section
variable {s t u : State}

theorem ReportFrame.trans (a : ReportFrame s t) (b : ReportFrame t u) : ReportFrame s u := ⟨by rw [b.eq, a.eq]⟩

theorem ReportFrame.x (h : ReportFrame s t) : t.x = s.x := by rw [h.eq]

theorem ReportFrame.mem (h : ReportFrame s t) : t.mem = s.mem := by rw [h.eq]

theorem ReportFrame.parcnt (h : ReportFrame s t) : t.parcnt = s.parcnt := by rw [h.eq]

theorem ReportFrame.launches (h : ReportFrame s t) : t.launches = s.launches := by rw [h.eq]

theorem ReportFrame.wafno (h : ReportFrame s t) : t.wafno = s.wafno := by rw [h.eq]

variable (s)

theorem report_frame (r : FRec) : ReportFrame s (report s r).2 := by
  simp only [report]
  split <;> exact ⟨rfl⟩

theorem breakAt_frame (u : UnitId) (k tgt f lid ctx n : Nat) (t : Time) (q : BitVec 24) : ReportFrame s (breakAt s u k tgt f lid ctx n t q) := by
  unfold breakAt
  split
  · exact ⟨rfl⟩
  · split
    · exact ReportFrame.trans (t := freeze s f lid true) ⟨rfl⟩ (report_frame ..)
    · exact ⟨rfl⟩

theorem reportFault_frame (r : FRec) : ReportFrame s (reportFault s r).2 := (report_frame ..).trans (breakAt_frame ..)

end

/-! ## Parking (R125) -/

/-- A queued set of a slot's node, which is held while the node is parked; a set that a replay returned is not. -/
def heldWith (sl : Slot) (x : QSet) : Bool := x.set.id.k == sl.k && !x.replay

section
variable (s : State) (sl : Slot)

theorem holdSets_eq : holdSets s sl =
    if ((iqOf s sl.core sl.e).filter (heldWith sl)).isEmpty then s
    else
      let u := setIq s sl.core sl.e ((iqOf s sl.core sl.e).filter fun x => !heldWith sl x)
      { u with x := { u.x with
        heldq := tset u.x.heldq sl (((iqOf s sl.core sl.e).filter (heldWith sl)).map QSet.set ++ tgetD u.x.heldq sl []) } } := rfl

theorem recQ_holdSets : (holdSets s sl).recQ = s.recQ := by
  rw [holdSets_eq]
  split <;> rfl

theorem parkedOf_holdSets (z : Slot) : parkedOf (holdSets s sl) z = parkedOf s z := by
  rw [holdSets_eq]
  split <;> rfl

theorem iqOf_holdSets : iqOf (holdSets s sl) sl.core sl.e = (iqOf s sl.core sl.e).filter fun x => !heldWith sl x := by
  rw [holdSets_eq]
  split
  next h =>
    refine (List.filter_eq_self.mpr fun x hx => ?_).symm
    simpa using List.filter_eq_nil_iff.mp (List.isEmpty_iff.mp h) x hx
  next => exact tgetD_tset_self ..

theorem heldq_holdSets :
    tgetD (holdSets s sl).x.heldq sl [] = ((iqOf s sl.core sl.e).filter (heldWith sl)).map QSet.set ++ tgetD s.x.heldq sl [] := by
  rw [holdSets_eq]
  split
  next h => rw [List.isEmpty_iff.mp h]; rfl
  next => exact tgetD_tset_self ..

end

/-- The record of a fault that parks its set (R401). -/
def setRec (sl : Slot) (n : Node) (o : OpSet) (code addr : Nat) (u : UnitId) : FRec :=
  { recBase u code 0 0 n.ctx sl.core.f n.lid with
    node := nodeWord sl code, addr := addr, time := o.id.time, seq := o.id.seq, act := .node sl }

/-- The state with a set at the end of its slot's park register and its fault's record at its unit. -/
def inRegister (s : State) (sl : Slot) (n : Node) (o : OpSet) (code addr : Nat) (u : UnitId) : State :=
  let t := (reportFault s (setRec sl n o code addr u)).2
  { t with x := { s.x with park := tset s.x.park sl (parkedOf s sl ++ [⟨o, code, s.serial⟩]) } }

theorem parkSet_eq (s : State) (sl : Slot) (n : Node) (o : OpSet) (code addr : Nat) (u : UnitId) :
    parkSet s sl n o code addr u = holdSets (inRegister s sl n o code addr u) sl := by
  have hx := (reportFault_frame s (setRec sl n o code addr u)).x
  have hi := fst_reportFault s (setRec sl n o code addr u)
  simp only [inRegister, ← hx, ← hi, parkedOf]
  rfl

/-- Settles O14: the record is written first, the set joins the park register, and the node's queued sets are held. -/
theorem parkedSets : Obligations.ParkedSets := by
  intro s sl n o code addr p hp t mine
  have ht : t = holdSets (inRegister s sl n o code addr (.core sl.core)) sl := parkSet_eq ..
  rw [ht]
  refine ⟨?park, iqOf_holdSets .., heldq_holdSets .., ?record⟩
  case park =>
    rw [parkedOf_holdSets]
    exact tgetD_tset_self ..
  case record =>
    rw [recQ_holdSets]
    exact ⟨_, mem_recQ_reportFault (r := setRec sl n o code addr (.core sl.core)) hp, rfl, rfl, rfl, rfl, rfl, rfl, rfl, rfl, rfl, rfl, rfl⟩

/-! ## Where a kept set enters a queue (R118) -/

section
variable {x : QSet}

/-- A set that was kept back enters behind this one. -/
theorem enterKept_behind {y : QSet} (h : y.clk ≠ x.clk ∨ y.replay = true ∨ y.set.id.k ≤ x.set.id.k) (l : List QSet) :
    enterKept x (y :: l) = y :: enterKept x l := by
  rw [enterKept, if_neg]
  simp only [Bool.and_eq_true, beq_iff_eq, Bool.not_eq_true', decide_eq_true_eq]
  rintro ⟨⟨hclk, hrep⟩, hk⟩
  obtain h | h | h := h
  · exact h hclk
  · exact Bool.false_ne_true (hrep.symm.trans h)
  · exact Nat.not_lt.mpr h hk

theorem enterKept_append {l : List QSet} (h : ∀ y ∈ l, y.clk ≠ x.clk ∨ y.replay = true ∨ y.set.id.k ≤ x.set.id.k) (m : List QSet) :
    enterKept x (l ++ m) = l ++ enterKept x m := by
  induction l with
  | nil => rfl
  | cons y l ih =>
    obtain ⟨hy, hl⟩ := List.forall_mem_cons.mp h
    rw [List.cons_append, enterKept_behind hy, ih hl, List.cons_append]

theorem enterKept_before {y : QSet} (hclk : y.clk = x.clk) (hrep : y.replay = false) (hk : x.set.id.k < y.set.id.k) (m : List QSet) :
    enterKept x (y :: m) = x :: y :: m := by
  simp only [enterKept, hclk, hrep, hk, beq_self_eq_true, Bool.not_false, decide_true, Bool.and_self, if_true]

end

/-! ## Replay (R125, R417) -/

section
variable (s : State) (sl : Slot)

theorem parkedOf_letHeld (z : Slot) : parkedOf (letHeld s sl) z = parkedOf s z := rfl

theorem iqOf_letHeld : iqOf (letHeld s sl) sl.core sl.e =
    ((tgetD s.x.heldq sl []).take (16 - queuedIn s sl.core sl.e)).foldl (fun q o => enterKept (keptSet s sl.core o) q) (iqOf s sl.core sl.e) :=
  tgetD_tset_self ..

theorem heldq_letHeld : tgetD (letHeld s sl).x.heldq sl [] = (tgetD s.x.heldq sl []).drop (16 - queuedIn s sl.core sl.e) := by
  change tgetD (if 16 - queuedIn s sl.core sl.e < (tgetD s.x.heldq sl []).length then _ else _) sl [] = _
  split
  next => exact tgetD_tset_self ..
  next h => rw [List.drop_of_length_le (Nat.not_lt.mp h), tgetD, tget_tdel_self]; rfl

/-- The state with a parked set out of its register and at the head of its element's queue. -/
def returned (o : OpSet) (rest : List Parked) : State :=
  setIq { s with x := { s.x with park := tset s.x.park sl rest } } sl.core sl.e
    (⟨o, true, false, ctr s (.core sl.core)⟩ :: iqOf s sl.core sl.e)

variable (o : OpSet) (rest : List Parked)

theorem parkedOf_returned : parkedOf (returned s sl o rest) sl = rest := tgetD_tset_self ..

theorem iqOf_returned : iqOf (returned s sl o rest) sl.core sl.e = ⟨o, true, false, ctr s (.core sl.core)⟩ :: iqOf s sl.core sl.e :=
  tgetD_tset_self ..

/-- A replayed set takes no place of the queue. -/
theorem queuedIn_returned : queuedIn (returned s sl o rest) sl.core sl.e = ((iqOf s sl.core sl.e).filter fun q => !q.replay).length := by
  rw [queuedIn, iqOf_returned, List.countP_cons_of_neg (by simp), List.countP_eq_length_filter]

variable {s sl o rest}

theorem replaySet_eq {code rid : Nat} (hp : parkedOf s sl = ⟨o, code, rid⟩ :: rest)
    (ho : (o.a.isSome || o.b.isSome || o.c.isSome || o.p.isSome) = true) :
    replaySet s sl rid = if rest.isEmpty then letHeld (returned s sl o rest) sl else returned s sl o rest := by
  have hbare : (o.a.isNone && o.b.isNone && o.c.isNone && o.p.isNone) = false := by
    rw [← Bool.not_eq_true']
    simpa only [Bool.not_and, Option.not_isNone] using ho
  simp only [replaySet, hp, first?, dropFirst, beq_self_eq_true, if_true, hbare, Bool.false_eq_true, if_false]
  rfl

end

/-- Settles O15: the set returns before any held set follows, and each held set enters behind those it may not pass. -/
theorem replayReturnsTheSet : Obligations.ReplayReturnsTheSet := by
  refine ⟨?replay, fun x l h => ?last, fun x y l m h hclk hrep hk => ?before⟩
  case replay =>
    intro s sl o code rid rest hp ho t now held n
    have ht : t = if rest.isEmpty then letHeld (returned s sl o rest) sl else returned s sl o rest := replaySet_eq hp ho
    have hn : 16 - queuedIn (returned s sl o rest) sl.core sl.e = n := congrArg (16 - ·) (queuedIn_returned ..)
    by_cases hrest : rest = []
    case pos =>
      have ht : t = letHeld (returned s sl o rest) sl := ht.trans (if_pos (List.isEmpty_iff.mpr hrest))
      refine ⟨?_, fun _ => ⟨?_, ?_⟩, fun h => absurd hrest h⟩
      · rw [ht, parkedOf_letHeld, parkedOf_returned]
      · rw [ht, heldq_letHeld, hn]; rfl
      · rw [ht, iqOf_letHeld, hn, iqOf_returned]; rfl
    case neg =>
      have ht : t = returned s sl o rest := ht.trans (if_neg fun h => hrest (List.isEmpty_iff.mp h))
      refine ⟨?_, fun h => absurd h hrest, fun _ => ⟨?_, ?_⟩⟩
      · rw [ht, parkedOf_returned]
      · rw [ht]; rfl
      · rw [ht, iqOf_returned]
  case last =>
    have hend := enterKept_append h []
    rwa [List.append_nil] at hend
  case before => rw [enterKept_append h, enterKept_before hclk hrep hk]

end Sys2Proof.Machine
end

section
/-! Tokens at an input (R103, R113, R115, R117, R119 to R121; log 104): what one offer of a token leads to by what its input answers, what a
refused send notes, and the search of the overflow area. -/

namespace Sys2Proof.Machine

open Sys2Proof Sys2Proof.Safety

/-! ## Frozen regions (R405) -/

theorem isFrozen_freeze_self (s : State) (f lid : Nat) (byUser : Bool) : isFrozen (freeze s f lid byUser) f lid = true := by
  simp [isFrozen]

/-- Freezing a region leaves every frozen region frozen. -/
theorem isFrozen_freeze {s : State} {f lid : Nat} (h : isFrozen s f lid = true) (f' lid' : Nat) (byUser : Bool) :
    isFrozen (freeze s f' lid' byUser) f lid = true := by
  by_cases hsame : f' = f ∧ lid' = lid
  · obtain ⟨rfl, rfl⟩ := hsame
    exact isFrozen_freeze_self ..
  · simp only [isFrozen, List.any_eq_true, Bool.and_eq_true, beq_iff_eq, freeze_frozen] at h ⊢
    obtain ⟨z, hz, ⟨rfl, rfl⟩, hleft⟩ := h
    have hother : (z.f == f' && z.lid == lid') = false := by
      rw [Bool.eq_false_iff]
      simp only [ne_eq, Bool.and_eq_true, beq_iff_eq]
      exact fun h => hsame ⟨h.1.symm, h.2.symm⟩
    exact ⟨z, List.mem_append_left _ (List.mem_filter.mpr ⟨hz, by rw [hother]; rfl⟩), ⟨rfl, rfl⟩, hleft⟩

theorem isFrozen_report {s : State} {f lid : Nat} (h : isFrozen s f lid = true) (r : FRec) : isFrozen (report s r).2 f lid = true := by
  simp only [report]
  split <;> exact h

theorem isFrozen_breakAt {s : State} {f lid : Nat} (h : isFrozen s f lid = true) (u : UnitId) (k tgt c l ctx n : Nat) (t : Time) (q : BitVec 24) :
    isFrozen (breakAt s u k tgt c l ctx n t q) f lid = true := by
  unfold breakAt
  split
  · exact h
  · split
    · exact isFrozen_report (isFrozen_freeze h ..) _
    · exact h

theorem isFrozen_markHurt (s : State) (f lid c l : Nat) (h : Hurt) : isFrozen (markHurt s c l h) f lid = isFrozen s f lid := by
  have kept : ((fun z : Frozen => z.f == f && z.lid == lid && z.left.isNone) ∘
      fun z => if z.f == c && z.lid == l then { z with hurt := some h } else z) = fun z => z.f == f && z.lid == lid && z.left.isNone := by
    funext z
    rw [Function.comp_apply]
    split <;> rfl
  simp only [isFrozen, markHurt, mapIf, List.any_map, kept]

/-- A damaged entry freezes its region (R404, R405). -/
theorem isFrozen_freezeHurt (s : State) (ctx f lid : Nat) (h : Hurt) : isFrozen (freezeHurt s ctx f lid h) f lid = true :=
  isFrozen_breakAt (isFrozen_report ((isFrozen_markHurt ..).trans (isFrozen_freeze_self ..)) _) ..

theorem freezeHurt_frame (s : State) (ctx f lid : Nat) (h : Hurt) : ReportFrame s (freezeHurt s ctx f lid h) :=
  ReportFrame.trans (t := markHurt (freeze s f lid false) f lid h) ⟨rfl⟩ (reportFault_frame ..)

/-! ## A refused send (R121) -/

/-- The state with a parity failure counted at the core of an input. -/
def parityCounted (s : State) (d : InPort) : State := { s with parcnt := tset s.parcnt d.core (satInc (tgetD s.parcnt d.core 0)) }

/-- The state with a number of failures noted at the token that an edge offers to an input. -/
def failsNoted (s : State) (g : EdgeId) (d : InPort) (k : Nat) : State :=
  if g.port == 6 then
    match catchLaunch s g.core g.e with
    | some p => modLaunch s p.1 fun l => { l with catchBad := k }
    | none => s
  else setEdge s g { edgeOf s g with buf := refuseTok.note d k (edgeOf s g).buf }

/-- A refusal is counted and noted, and the eighth in a row freezes the region, once its record has a place. -/
theorem refuseTok_eq {s : State} {g : EdgeId} {d : InPort} (h : failsOf s g d < 7 ∨ unitHolds s (.core d.core) = false) (sl : Slot) (n : Node) :
    ∃ t q, refuseTok s g d sl n =
      let u := failsNoted (parityCounted s d) g d (failsOf s g d + 1)
      if 8 ≤ failsOf s g d + 1 then freezeParity u (.core d.core) n.ctx d.core.f n.lid (some sl) t q else u := by
  have hfree : (decide (8 ≤ failsOf s g d + 1) && unitHolds s (.core d.core)) = false := by
    obtain h | h := h
    · rw [decide_eq_false (by omega), Bool.false_and]
    · rw [h, Bool.and_false]
  rw [refuseTok, if_neg (Bool.eq_false_iff.mp hfree)]
  exact ⟨_, _, rfl⟩

theorem first?_tset {α : Type} {P : Nat × α → Bool} {t : Tbl Nat α} {p : Nat × α} (h : first? P t = some p) (hk : tget t p.1 = some p.2)
    {v : α} (hv : P (p.1, v) = true) : first? P (tset t p.1 v) = some (p.1, v) := by
  induction t with
  | nil => cases h
  | cons q t ih =>
    obtain ⟨a, b⟩ := q
    by_cases ha : a = p.1
    · rw [tset, if_pos ha, first?, ha, if_pos hv]
    · have hq : P (a, b) = false := by
        by_contra hq
        rw [first?, if_pos (by simpa using hq)] at h
        exact ha (congrArg Prod.fst (Option.some.inj h))
      rw [first?, hq] at h
      rw [tget, if_neg ha] at hk
      rw [tset, if_neg ha, first?, hq]
      exact ih h hk

/-- The fault network's launch is found again with the failures of its token noted (R129). -/
theorem catchLaunch_noted {s : State} {c : CoreId} {e : Nat} {p : Nat × Launch} (hp : catchLaunch s c e = some p)
    (hl : launch? s p.1 = some p.2) (k : Nat) :
    catchLaunch (modLaunch s p.1 fun l => { l with catchBad := k }) c e = some (p.1, { p.2 with catchBad := k }) := by
  rw [modLaunch_eq hl]
  unfold catchLaunch at hp ⊢
  have here := first?_some hp
  exact first?_tset hp hl here

/-- The token that an input is offered next is still next with its failures noted. -/
theorem nextFor_noted {l : List BufTok} {w : List Behind} {d : InPort} {b : BufTok} (h : nextFor ⟨l, w⟩ d = some b) (k : Nat) :
    nextFor ⟨refuseTok.note d k l, w⟩ d = some { b with bad := tset b.bad d k } := by
  unfold nextFor at h ⊢
  dsimp only at h ⊢
  induction l with
  | nil => cases h
  | cons x l ih =>
    rw [refuseTok.note]
    split
    next hx =>
      rw [first?, if_pos hx] at h
      rw [first?, if_pos hx, Option.some.inj h]
    next hx =>
      rw [first?, if_neg hx] at h
      rw [first?, if_neg hx]
      exact ih h

/-- The failures noted at a token are those it is found to have. -/
theorem failsOf_failsNoted {s : State} {g : EdgeId} {d : InPort} {t : Token} (ho : offered s g d = some t)
    (hcatch : g.port = 6 → ∀ p, catchLaunch s g.core g.e = some p → launch? s p.1 = some p.2) (k : Nat) :
    failsOf (failsNoted s g d k) g d = k := by
  by_cases hg : (g.port == 6) = true
  case pos =>
    rw [offered, if_pos hg, Option.ite_none_right_eq_some] at ho
    obtain ⟨p, hp, -⟩ := Option.bind_eq_some_iff.mp ho.2
    have hnoted := catchLaunch_noted hp (hcatch (eq_of_beq hg) p hp) k
    have hs : failsNoted s g d k = modLaunch s p.1 fun l => { l with catchBad := k } := by
      rw [failsNoted, if_pos hg, hp]
    rw [hs, failsOf, if_pos hg, hnoted]
    rfl
  case neg =>
    rw [offered, if_neg hg] at ho
    obtain ⟨b, hb, -⟩ := Option.map_eq_some_iff.mp ho
    have hnoted := nextFor_noted (l := (edgeOf s g).buf) (w := (edgeOf s g).wait) hb k
    rw [failsNoted, if_neg hg, failsOf, if_neg hg, edgeOf_setEdge_self, hnoted, Option.map_some, tgetD_tset_self, Option.getD_some]

theorem parcnt_failsNoted (s : State) (g : EdgeId) (d : InPort) (k : Nat) : (failsNoted s g d k).parcnt = s.parcnt := by
  unfold failsNoted modLaunch
  split
  · split
    · split <;> rfl
    · rfl
  · rfl

/-- A token's failures are read from edge buffers and launches. -/
theorem failsOf_congr {s t : State} (hx : t.x = s.x) (hl : t.launches = s.launches) (hw : t.wafno = s.wafno) (g : EdgeId) (d : InPort) :
    failsOf t g d = failsOf s g d := by
  simp only [failsOf, catchLaunch, edgeOf, hx, hl, hw]

/-- What a refused send leaves (R121). -/
theorem refuseTok_leaves {s : State} {g : EdgeId} {d : InPort} {t : Token} (ho : offered s g d = some t)
    (hcatch : g.port = 6 → ∀ p, catchLaunch s g.core g.e = some p → launch? s p.1 = some p.2)
    (h : failsOf s g d < 7 ∨ unitHolds s (.core d.core) = false) (sl : Slot) (n : Node) :
    failsOf (refuseTok s g d sl n) g d = failsOf s g d + 1 ∧
    tgetD (refuseTok s g d sl n).parcnt d.core 0 = satInc (tgetD s.parcnt d.core 0) ∧
    (failsOf s g d = 7 → isFrozen (refuseTok s g d sl n) d.core.f n.lid = true) := by
  obtain ⟨time, seq, hu⟩ := refuseTok_eq h sl n
  have hfails := failsOf_failsNoted (s := parityCounted s d) ho hcatch (failsOf s g d + 1)
  have hparcnt : tgetD (failsNoted (parityCounted s d) g d (failsOf s g d + 1)).parcnt d.core 0 = satInc (tgetD s.parcnt d.core 0) := by
    rw [parcnt_failsNoted]
    exact tgetD_tset_self ..
  rw [hu]
  dsimp only
  split
  next =>
    have frame := freezeHurt_frame (failsNoted (parityCounted s d) g d (failsOf s g d + 1)) n.ctx d.core.f n.lid
      ⟨.core d.core, Code.parityHard, some sl, 0, time, seq, []⟩
    exact ⟨(failsOf_congr frame.x frame.launches frame.wafno g d).trans hfails, (congrArg (tgetD · d.core 0) frame.parcnt).trans hparcnt,
      fun _ => isFrozen_freezeHurt ..⟩
  next h7 => exact ⟨hfails, hparcnt, fun h => absurd (h ▸ Nat.le_refl 8) h7⟩

/-! ## One offer of a token (R113, R115, R119 to R121) -/

/-- A token is offered for the first time or again after it was refused. -/
theorem exec_offer {s : State} {g : EdgeId} {d : InPort} {i : Bool → Instr} (hcut : isCut s g = false)
    (hi : (i = (fun bad => .tokenArrival g d bad) ∧ failsOf s g d = 0) ∨ (i = (fun bad => .tokenResend g d bad) ∧ 0 < failsOf s g d))
    (bad : Bool) : exec (i bad) s = .next (offerTok s g d bad) := by
  obtain ⟨rfl, hf⟩ | ⟨rfl, hf⟩ := hi
  · change execTokenArrival g d bad s = _
    simp only [execTokenArrival, hf, hcut, decide_true, Bool.not_false, Bool.and_self, if_true]
  · change execTokenResend g d bad s = _
    simp only [execTokenResend, hf, hcut, decide_true, Bool.not_false, Bool.and_self, if_true]

section
variable {s u : State} {g : EdgeId} {d : InPort} {t : Token} {n : Node} (ho : offered s g d = some t)
  (hn : node? s ⟨d.core, d.e, t.ctx.toNat⟩ = some n) (hruns : ctxRuns s n.ctx = true) (hlive : isFrozen s d.core.f n.lid = false)
include ho hn hruns hlive

theorem offerTok_bad : offerTok s g d true = refuseTok s g d ⟨d.core, d.e, t.ctx.toNat⟩ n := by
  simp only [offerTok, ho, hn, hruns, hlive, Bool.not_true, Bool.or_self, Bool.false_eq_true, if_false, if_true]

variable (hs : tgetD s.x.osearch d.core [] = [])
include hs

theorem offerTok_no (h : acceptTok s ⟨d.core, d.e, t.ctx.toNat⟩ n d.port t false = .no) : offerTok s g d false = s := by
  simp only [offerTok, ho, hn, hruns, hlive, hs, List.any_nil, h, Bool.not_true, Bool.or_self, Bool.false_eq_true, if_false]

theorem offerTok_overflow (h : acceptTok s ⟨d.core, d.e, t.ctx.toNat⟩ n d.port t false = .overflow) :
    offerTok s g d false = overflowPark s ⟨d.core, d.e, t.ctx.toNat⟩ n (identOf t) := by
  simp only [offerTok, ho, hn, hruns, hlive, hs, List.any_nil, h, Bool.not_true, Bool.or_self, Bool.false_eq_true, if_false]

/-- A search of the overflow area starts under the core's budget of class 3 (R115, R312). -/
theorem offerTok_search (h : acceptTok s ⟨d.core, d.e, t.ctx.toNat⟩ n d.port t false = .search) :
    offerTok s g d false = if underBudget s (.core d.core) 3 = false then s
      else { spend s (.core d.core) 3 (beatsOf 0) with x := { s.x with osearch := tset s.x.osearch d.core [⟨g, d, false⟩] } } := by
  simp only [offerTok, ho, hn, hruns, hlive, hs, List.any_nil, h, Bool.not_true, Bool.or_self, Bool.false_eq_true, if_false, Bool.false_or,
    Bool.not_eq_true', List.nil_append]

/-- A token that its input stores leaves its sender, once there is budget for the record that it moves to the overflow area (R115, R312). -/
theorem offerTok_yes (h : acceptTok s ⟨d.core, d.e, t.ctx.toNat⟩ n d.port t false = .yes u) :
    offerTok s g d false = if spilled s u d.core = true ∧ underBudget s (.core d.core) 3 = false then s
      else takeOffered (if spilled s u d.core then spend u (.core d.core) 3 (beatsOf 128) else u) g d := by
  simp only [offerTok, ho, hn, hruns, hlive, hs, List.any_nil, h, Bool.not_true, Bool.or_self, Bool.false_eq_true, if_false,
    Bool.not_eq_true', Bool.and_eq_true]

end

/-! ## Inputs of nodes that pair nothing (R111, R117, R206) -/

/-- A node of an operation that keeps no state for an identity and holds no token in the store (R176, R177, R184, R185, R220). -/
def keepsNothing (n : Node) : Prop := opOf n.word ∉ [0x58, 0x5A, 0x5B, 0x63, 0x64, 0x75]

section
variable {s : State} {sl : Slot} {n : Node} {o : OpSet} (hop : keepsNothing n)
include hop

theorem stateRef_of_keepsNothing : stateRef n o = none := by
  simp only [keepsNothing, List.mem_cons, List.not_mem_nil, or_false, not_or] at hop
  simp [stateRef, hop]

theorem stateId_of_keepsNothing : stateId n o = none := by
  unfold stateId
  dsimp only
  split
  · rfl
  · exact stateRef_of_keepsNothing hop

theorem foldWaits_of_keepsNothing : foldWaits s sl n o = false := by
  simp only [keepsNothing, List.mem_cons, List.not_mem_nil, or_false, not_or] at hop
  simp [foldWaits, hop]

theorem claimState_of_keepsNothing (searched : Bool) : claimState s sl n o searched = .yes s := by
  have h75 : (opOf n.word == 0x75) = false := by
    simp only [keepsNothing, List.mem_cons, List.not_mem_nil, or_false, not_or] at hop
    simp [hop]
  simp only [claimState, h75, stateId_of_keepsNothing hop, Bool.false_eq_true, if_false]

theorem stateAway_of_keepsNothing (searched : Bool) : stateAway s sl n o searched = false := by
  simp only [stateAway, stateRef_of_keepsNothing hop]

variable (hpark : parkedOf s sl = [])
include hpark

/-- A complete set joins the queue while it has a place (R117). -/
theorem completeSet_of_keepsNothing (searched : Bool) : completeSet s sl n o searched =
    if 16 ≤ queuedIn s sl.core sl.e then .no
    else .yes (setIq (freeOperands s sl o.id) sl.core sl.e (enter (newSet s sl.core o) (iqOf s sl.core sl.e))) := by
  simp only [completeSet, stateAway_of_keepsNothing hop, foldWaits_of_keepsNothing hop, claimState_of_keepsNothing hop, hpark, List.isEmpty_nil,
    Bool.false_eq_true, if_false, if_true]
  split
  · rfl
  next h =>
    have hfree : ¬ 16 ≤ queuedIn (freeOperands s sl o.id) sl.core sl.e := h
    simp only [enqueue, hfree, if_false]
    rfl

/-- A token of a node with one operand port, and one of ENTER, is a set by itself. -/
theorem acceptTok_alone {p : Nat} (hone : operandPorts n.word = [p] ∨ opOf n.word = 0x70)
    (hrange : opOf n.word < 0x60 ∨ (0x64 < opOf n.word ∧ opOf n.word < 0x80) ∨ 0x88 ≤ opOf n.word) (t : Token) :
    acceptTok s sl n p t false = completeSet s sl n (withPort ⟨identOf t, none, none, none, none, p, []⟩ p t) false := by
  have hwalk : (opOf n.word == 0x60 || opOf n.word == 0x61 || opOf n.word == 0x62) = false := by
    simp only [Bool.or_eq_false_iff, beq_eq_false_iff_ne, ne_eq]
    omega
  have hhist : (decide (0x80 ≤ opOf n.word) && decide (opOf n.word < 0x88)) = false := by
    simp only [Bool.and_eq_false_iff, decide_eq_false_iff_not]
    omega
  simp only [acceptTok, hwalk, hhist, Bool.false_and, Bool.false_eq_true, if_false]
  split
  next => simp only [acceptAlone, hpark, List.isEmpty_nil, if_true]
  next hent =>
    obtain hone | hent' := hone
    · simp [acceptPaired, hone, hpark, foldWaits_of_keepsNothing hop]
    · exact absurd (beq_iff_eq.mpr hent') hent

end

theorem withPort_one {p : Nat} (hp : p < 3) (t : Token) : withPort ⟨identOf t, none, none, none, none, p, []⟩ p t =
    ⟨identOf t, if p = 0 then some t else none, if p = 1 then some t else none, if p = 2 then some t else none, none, p, []⟩ := by
  obtain rfl | rfl | rfl : p = 0 ∨ p = 1 ∨ p = 2 := by omega
  · rfl
  · rfl
  · rfl

/-! ## The search of the overflow area (R115, R312, R316) -/

theorem markSearched_append {a : List OvSearch} (ha : ∀ x ∈ a, x.done = true) {o : OvSearch} (ho : o.done = false) (b : List OvSearch) :
    markSearched (a ++ o :: b) = a ++ { o with done := true } :: b := by
  induction a with
  | nil => simp only [List.nil_append, markSearched, ho, Bool.false_eq_true, if_false]
  | cons x a ih =>
    obtain ⟨hx, ha⟩ := List.forall_mem_cons.mp ha
    simp only [List.cons_append, markSearched, hx, if_true, ih ha]

theorem first?_none {α : Type} {p : α → Bool} {l : List α} (h : ∀ a ∈ l, p a = false) : first? p l = none := by
  induction l with
  | nil => rfl
  | cons a l ih =>
    obtain ⟨ha, hl⟩ := List.forall_mem_cons.mp h
    rw [first?, ha]
    exact ih hl

/-- Words without a mark are read as they stand. -/
theorem eccRead_clean {s : State} {l : List Nat} (h : ∀ x ∈ l, tget s.ecc x = none) (u : UnitId) : eccRead s u l = some s := by
  induction l with
  | nil => rfl
  | cons w l ih =>
    obtain ⟨hw, hl⟩ := List.forall_mem_cons.mp h
    simp only [eccRead, hw]
    exact ih hl

/-- An uncorrectable word among them keeps a range from being read. -/
theorem eccRead_double {s : State} {l : List Nat} {x : Nat} (hx : x ∈ l) (h : tget s.ecc x = some .double) (u : UnitId) : eccRead s u l = none := by
  induction l generalizing s with
  | nil => cases hx
  | cons w l ih =>
    rw [eccRead]
    split
    next => rfl
    next hw =>
      have hne : w ≠ x := fun e => by rw [e, h] at hw; cases hw
      exact ih ((List.mem_cons.mp hx).resolve_left hne.symm) ((tget_tdel_ne _ hne).trans h)
    next hw =>
      have hne : w ≠ x := fun e => by rw [e, h] at hw; cases hw
      exact ih ((List.mem_cons.mp hx).resolve_left hne.symm) h

/-- Beats that are counted change budgets alone. -/
theorem spend_budgets (s : State) (u : UnitId) (cls beats : Nat) : spend s u cls beats = { s with budgets := (spend s u cls beats).budgets } := by
  unfold spend
  split <;> rfl

section
variable (s : State) (sl : Slot) (n : Node) (id : Ident) (a : Nat)

/-- The records of a search, read one after the other until one cannot be. -/
def readRecords (l : List Nat) (r : State × Bool) : State × Bool :=
  l.foldl (fun r a => if r.2 then readOvfl r.1 sl n id a else r) r

theorem readOvfl_clean {u : State} (hu : u = { s with budgets := u.budgets }) (h : ∀ x ∈ wordsOf a 128, tget s.ecc x = none) :
    ∃ z, readOvfl u sl n id a = (z, true) ∧ z = { s with budgets := z.budgets } := by
  have hspent := spend_budgets u (homeUnit u a) 3 (beatsOf 128)
  have hclean : ∀ x ∈ wordsOf a 128, tget (spend u (homeUnit u a) 3 (beatsOf 128)).ecc x = none := by
    rw [hspent, hu]
    exact h
  refine ⟨spend u (homeUnit u a) 3 (beatsOf 128), ?_, ?_⟩
  · simp only [readOvfl, eccRead_clean hclean]
  · rw [hspent, hu]

theorem readRecords_clean {l : List Nat} (h : ∀ a ∈ l, ∀ x ∈ wordsOf a 128, tget s.ecc x = none) {u : State}
    (hu : u = { s with budgets := u.budgets }) :
    ∃ z, readRecords sl n id l (u, true) = (z, true) ∧ z = { s with budgets := z.budgets } := by
  induction l generalizing u with
  | nil => exact ⟨u, rfl, hu⟩
  | cons a l ih =>
    obtain ⟨ha, hl⟩ := List.forall_mem_cons.mp h
    obtain ⟨v, hv, hvs⟩ := readOvfl_clean s sl n id a hu ha
    obtain ⟨z, hz, hzs⟩ := ih hl hvs
    refine ⟨z, ?_, hzs⟩
    rw [← hz, readRecords, List.foldl_cons]
    simp only [hv, if_true]
    rfl

/-- An uncorrectable record freezes its region in the field of its word. -/
theorem readOvfl_double {x f : Nat} (hx : x ∈ wordsOf a 128) (h : tget s.ecc x = some .double) (hf : (decodePA s a).map Tgt.field = some f) :
    (readOvfl s sl n id a).2 = false ∧ (readOvfl s sl n id a).1.x = s.x ∧ (readOvfl s sl n id a).1.mem = s.mem ∧
    isFrozen (readOvfl s sl n id a).1 f n.lid = true := by
  have hv := spend_budgets s (homeUnit s a) 3 (beatsOf 128)
  have hnone : eccRead (spend s (homeUnit s a) 3 (beatsOf 128)) (homeUnit s a) (wordsOf a 128) = none :=
    eccRead_double hx (by rw [hv]; exact h) _
  have hfield : ((decodePA (spend s (homeUnit s a) 3 (beatsOf 128)) a).map Tgt.field).getD sl.core.f = f := by
    rw [hv]
    exact congrArg (Option.getD · sl.core.f) hf
  have hx : (spend s (homeUnit s a) 3 (beatsOf 128)).x = s.x := by rw [hv]
  have hmem : (spend s (homeUnit s a) 3 (beatsOf 128)).mem = s.mem := by rw [hv]
  simp only [readOvfl, hnone, hfield]
  split
  next hfrozen => exact ⟨trivial, hx, hmem, hfrozen⟩
  next => exact ⟨trivial, (freezeHurt_frame ..).x.trans hx, (freezeHurt_frame ..).mem.trans hmem, isFrozen_freezeHurt ..⟩

end

/-- The state with a core's oldest waiting search done. -/
def searchDone (s : State) (c : CoreId) : State := { s with x := { s.x with osearch := tmod s.x.osearch c [] markSearched } }

section
variable {s : State} {c : CoreId}

theorem exec_overflowReadDone_none (h : ∀ o ∈ tgetD s.x.osearch c [], o.done = true) : exec (.overflowReadDone c) s = .next s := by
  change execOverflowReadDone c s = _
  rw [execOverflowReadDone, first?_none fun o ho => by rw [h o ho]; rfl]

variable {o : OvSearch} (hfirst : first? (fun o : OvSearch => !o.done) (tgetD s.x.osearch c []) = some o)
include hfirst

/-- A search for a token that is offered no more has nothing to read. -/
theorem exec_overflowReadDone_gone (ho : offered s o.edge o.dst = none) : exec (.overflowReadDone c) s = .next (searchDone s c) := by
  change execOverflowReadDone c s = _
  simp only [execOverflowReadDone, hfirst, ho]
  rfl

variable {t : Token} {n : Node} (ho : offered s o.edge o.dst = some t) (hn : node? s ⟨c, o.dst.e, t.ctx.toNat⟩ = some n)
include ho hn

theorem exec_overflowReadDone_waits
    (h : ∃ a ∈ searchAddrs s c o.dst.e (identOf t), underBudget s (homeUnit s a) 3 = false ∨ unitHolds s (homeUnit s a) = true) :
    exec (.overflowReadDone c) s = .next s := by
  have hwaits : ((searchAddrs s c o.dst.e (identOf t)).any fun a => !underBudget s (homeUnit s a) 3 || unitHolds s (homeUnit s a)) = true := by
    simpa only [List.any_eq_true, Bool.or_eq_true, Bool.not_eq_true'] using h
  change execOverflowReadDone c s = _
  simp only [execOverflowReadDone, hfirst, ho, hn, hwaits, if_true]

/-- The homes of the records have budget and hold no record of a fault: the records are read. -/
theorem exec_overflowReadDone_reads
    (h : ∀ a ∈ searchAddrs s c o.dst.e (identOf t), underBudget s (homeUnit s a) 3 = true ∧ unitHolds s (homeUnit s a) = false) :
    exec (.overflowReadDone c) s =
      let r := readRecords ⟨c, o.dst.e, t.ctx.toNat⟩ n (identOf t) (searchAddrs s c o.dst.e (identOf t)) (s, true)
      .next (if r.2 then searchDone r.1 c else r.1) := by
  have hreads : ((searchAddrs s c o.dst.e (identOf t)).any fun a => !underBudget s (homeUnit s a) 3 || unitHolds s (homeUnit s a)) = false := by
    simpa only [List.any_eq_false, Bool.or_eq_true, not_or, Bool.not_eq_true', Bool.not_eq_true, Bool.not_eq_false] using h
  change execOverflowReadDone c s = _
  simp only [execOverflowReadDone, hfirst, ho, hn, hreads, Bool.false_eq_true, if_false]
  rfl

end

/-! ## A stored token that fails its check (R121; log 104) -/

theorem runUpset_token {s : State} {sl : Slot} {n : Node} (hn : node? s sl = some n) (hruns : ctxRuns s n.ctx = true)
    (hstores : storesToken s sl = true) : runUpset s (.token sl) =
      if isFrozen s sl.core.f n.lid then s else freezeParity s (.core sl.core) n.ctx sl.core.f n.lid (some sl) t00 0 := by
  have hclocks : clocksRun s = true := by
    simp only [ctxRuns, Bool.and_eq_true] at hruns
    exact hruns.1.1
  simp only [runUpset, hclocks, hn, hruns, hstores, Bool.not_true, Bool.false_eq_true, if_false, Bool.true_and, Bool.and_true]
  cases isFrozen s sl.core.f n.lid <;> rfl

/-! ## The obligation -/

/-- Settles O48: an offer goes as its input answers, a refusal is noted at the token, and a record or a token that cannot be read freezes its
region. -/
theorem tokensAreAccepted : Obligations.TokensAreAccepted := by
  refine ⟨?offers, ?alone, ?reads, fun a b o ha ho => markSearched_append ha ho b, ?upset⟩
  case offers =>
    intro s g d t n i sl ho hn hruns hlive hcut hi
    have hexec := exec_offer hcut hi
    refine ⟨fun u hs hacc => ?yes, fun hs hacc => ?no, fun hs hacc => ?search, fun hs hacc => ?overflow, fun hcatch hplace => ?bad⟩
    case yes =>
      rw [hexec, offerTok_yes ho hn hruns hlive hs hacc]
      refine ⟨fun hm => ?_, fun hm hb => ?_, fun hm hb => ?_⟩
      · simp only [hm, Bool.false_eq_true, false_and, if_false]
      · simp only [hm, hb, and_self, if_true]
      · simp only [hm, hb, Bool.true_eq_false, and_false, if_false, if_true]
    case no => rw [hexec, offerTok_no ho hn hruns hlive hs hacc]
    case search =>
      rw [hexec, offerTok_search ho hn hruns hlive hs hacc]
      refine ⟨fun hb => by rw [if_pos hb], fun hb => ⟨_, rfl, ?_⟩⟩
      rw [if_neg (by rw [hb]; decide)]
      exact tgetD_tset_self ..
    case overflow => rw [hexec, offerTok_overflow ho hn hruns hlive hs hacc]
    case bad =>
      rw [hexec, offerTok_bad ho hn hruns hlive]
      exact ⟨_, rfl, refuseTok_leaves ho hcatch hplace sl n⟩
  case alone =>
    intro s sl n t p hone hp hrange hop hpark
    have hkeeps : keepsNothing n := by
      simp only [keepsNothing, List.mem_cons, List.not_mem_nil, or_false, not_or] at hop ⊢
      omega
    rw [acceptTok_alone hkeeps hpark hone hrange, completeSet_of_keepsNothing hkeeps hpark, withPort_one hp]
    exact ⟨fun hfull => if_pos hfull, fun hroom => if_neg (Nat.not_le.mpr hroom)⟩
  case reads =>
    intro s c done
    refine ⟨exec_overflowReadDone_none, fun o hfirst => ⟨exec_overflowReadDone_gone hfirst, ?_⟩⟩
    intro t n ho sl hn l
    refine ⟨exec_overflowReadDone_waits hfirst ho hn, fun hfree => ?_⟩
    rw [exec_overflowReadDone_reads hfirst ho hn hfree]
    refine ⟨fun hclean => ?clean, fun a x f hl hx hdouble hf => ?double⟩
    case clean =>
      obtain ⟨z, hz, hzs⟩ := readRecords_clean s sl n (identOf t) hclean (u := s) rfl
      refine ⟨z, ?_, hzs⟩
      rw [hz]
      rfl
    case double =>
      obtain ⟨hstop, hxs, hmem, hfrozen⟩ := readOvfl_double s sl n (identOf t) a hx hdouble hf
      have hread : readRecords sl n (identOf t) l (s, true) = readOvfl s sl n (identOf t) a := by rw [hl]; rfl
      refine ⟨(readOvfl s sl n (identOf t) a).1, ?_, by rw [hxs], hmem, hfrozen⟩
      rw [hread]
      simp only [hstop, Bool.false_eq_true, if_false]
  case upset =>
    intro s sl n hn hruns hstores
    rw [runUpset_token hn hruns hstores]
    split
    next hfrozen => exact ⟨hfrozen, rfl⟩
    next => exact ⟨isFrozen_freezeHurt .., (freezeHurt_frame ..).mem⟩

end Sys2Proof.Machine
end

section
/-! Arithmetic firings and the integer instructions (R104, R134, R149 to R158; log 121): what an arithmetic set puts out when it executes, and
the value that each integer instruction computes, said over bit vectors. -/

namespace Sys2Proof.Machine

open Sys2Proof Sys2Proof.Safety

/-! ## A set that executes (R104, R122, R149) -/

/-- Judging replaces operands, never the identity of the set (R124). -/
theorem judge_go_id {w : CW} {mem : Bool} {ids : Nat → Nat} {o o' : OpSet} (h : judge w mem ids o = .go o') : o'.id = o.id := by
  unfold judge at h
  split_ifs at h
  all_goals cases h; rfl

section
variable {s : State} {fr : Firing} {w : CW} {ids : Nat → Nat} {o : OpSet} {tx ty : Time} (h : Executes s fr w false ids o tx ty)
include h

/-- The times of both outputs are those of the set that executes. -/
theorem executes_times : act w.xt o.id.time = some tx ∧ act w.yt o.id.time = some ty := by
  rw [judge_go_id h.judged]
  exact ⟨h.xtime, h.ytime⟩

/-- A set that executes and puts one value on X fires with it, and with a NUL on Y. -/
theorem fireSet_value {body : Firing → State} {v : W64} {key : W32} {kv : Bool} {d : Int} {fl : BitVec 5} (hd : FitsDif d)
    (hbody : body { fr with set := o } = conclude s w { fr with set := o } true true 0 (do
      let x ← outTok w { fr with set := o } 4 v key kv d false false
      let y ← nulTok w { fr with set := o } 5
      return ⟨[x], [y], fl, [], true⟩))
    (hroom : hasRoom s fr.sl ⟨[xTok w o tx v key kv d], [specTok w.yc o ty true false], fl, [], true⟩ = true) :
    fireSet s w false true true ids body =
      fired s w { fr with set := o } ⟨[xTok w o tx v key kv d], [specTok w.yc o ty true false], fl, [], true⟩ := by
  obtain ⟨hx, hy⟩ := executes_times h
  rw [fireSet_go h.issues h.judged, hbody, outTok_x (fr := { fr with set := o }) hx hd, nulTok_y (fr := { fr with set := o }) hy]
  exact conclude_fired (fr := { fr with set := o }) hroom ..

end

/-- An arithmetic set that executes puts its value on X and a NUL token on Y, with its flags. -/
theorem fireAlu_executes {s : State} {fr : Firing} {w : CW} {op : Nat} {o : OpSet} {tx ty : Time} {g : Nat → Nat → Nat → W64 × BitVec 5}
    {v : W64 × BitVec 5} (h : Executes s fr w false (identity op w.ty.toNat) o tx ty) (hd : FitsDif (difOut w o))
    (hv : g (valA w { fr with set := o }).toNat (valB w { fr with set := o }).toNat (valC w { fr with set := o }).toNat = v)
    (hroom : hasRoom s fr.sl (aluEmit w o tx ty v.1 v.2) = true) :
    fireAlu s w op g = fired s w { fr with set := o } (aluEmit w o tx ty v.1 v.2) :=
  fireSet_value h hd (by rw [hv]; rfl) hroom

/-! ## Operands and results at a type's width (R134) -/

theorem widthOf_le (ty : Nat) : widthOf ty ≤ 64 := by
  unfold widthOf
  split <;> decide

/-- An operand read as an integer is its low bits again. -/
theorem ofInt_intIn (ty : Nat) (v : W64) : BitVec.ofInt (widthOf ty) (intIn ty v) = v.setWidth (widthOf ty) := by
  rw [intIn]
  split
  · exact BitVec.ofInt_toInt
  · rw [BitVec.ofInt_natCast, BitVec.ofNat_toNat, BitVec.setWidth_eq]

theorem intOut_natCast {ty n : Nat} {v : BitVec (widthOf ty)} (h : n = v.toNat) : intOut ty (n : Int) = bitsOut ty v := by
  rw [h, intOut, BitVec.ofInt_natCast, BitVec.ofNat_toNat, BitVec.setWidth_eq]

theorem intOut_toInt {ty : Nat} (v : BitVec (widthOf ty)) : intOut ty v.toInt = bitsOut ty v := by rw [intOut, BitVec.ofInt_toInt]

theorem intOut_intIn (ty : Nat) (v : W64) : intOut ty (intIn ty v) = bitsOut ty (v.setWidth (widthOf ty)) := by
  rw [intOut, ofInt_intIn]

/-- The range of the signed operands of a type, and of the unsigned ones. -/
theorem intIn_bounds (ty : Nat) (v : W64) : (ty < 4 → -2 ^ (widthOf ty - 1) ≤ intIn ty v ∧ intIn ty v < 2 ^ (widthOf ty - 1)) ∧
    (¬ ty < 4 → 0 ≤ intIn ty v ∧ intIn ty v < 2 ^ widthOf ty) := by
  rw [intIn]
  refine ⟨fun h => ?_, fun h => ?_⟩
  · rw [if_pos h]
    have hlo := (v.setWidth (widthOf ty)).le_toInt
    have hhi := (v.setWidth (widthOf ty)).toInt_lt
    exact ⟨hlo, hhi⟩
  · rw [if_neg h]
    exact ⟨by omega, by exact_mod_cast (v.setWidth (widthOf ty)).isLt⟩

theorem satOut_eq (ty : Nat) (sat : Bool) (x : Int) : satOut ty sat x = if sat && decide (x < tyMin ty) then (intOut ty (tyMin ty), 4#5)
    else if sat && decide (tyMax ty < x) then (intOut ty (tyMax ty), 4#5) else (intOut ty x, 0) := rfl

/-- A type's range spans less than its width's count on either side of 0. -/
theorem tyMin_tyMax_bounds (ty : Nat) : -2 ^ widthOf ty < tyMin ty ∧ tyMin ty ≤ 0 ∧ 0 ≤ tyMax ty ∧ tyMax ty < 2 ^ widthOf ty := by
  have hhalf : (2 : Int) ^ (widthOf ty - 1) * 2 = 2 ^ widthOf ty := by rw [← pow_succ, Nat.sub_add_cancel (widthOf_pos ty)]
  have hpos : (0 : Int) < 2 ^ (widthOf ty - 1) := by positivity
  unfold tyMin tyMax
  split <;> omega

/-- A rotation by k of a w-bit number, as a sum of its two parts. -/
theorem rotate_mod {w k v : Nat} (hk : k ≤ w) (hv : v < 2 ^ w) :
    (v * 2 ^ k + v / 2 ^ (w - k)) % 2 ^ w = v * 2 ^ k % 2 ^ w ||| v / 2 ^ (w - k) := by
  have hw : 2 ^ w = 2 ^ k * 2 ^ (w - k) := by rw [← pow_add, Nat.add_sub_cancel' hk]
  have hu : v / 2 ^ (w - k) < 2 ^ k := Nat.div_lt_of_lt_mul (by rwa [Nat.mul_comm, ← hw])
  have hr : v % 2 ^ (w - k) < 2 ^ (w - k) := Nat.mod_lt _ (Nat.two_pow_pos _)
  have hhigh : v * 2 ^ k % 2 ^ w = 2 ^ k * (v % 2 ^ (w - k)) := by rw [hw, Nat.mul_comm, Nat.mul_mod_mul_left]
  rw [Nat.add_mod, hhigh, ← Nat.two_pow_add_eq_or_of_lt hu, Nat.mod_eq_of_lt (a := v / _) ((Nat.div_le_self ..).trans_lt hv)]
  refine Nat.mod_eq_of_lt ?_
  have hfull := Nat.mul_le_mul_left (2 ^ k) (Nat.succ_le_of_lt hr)
  rw [Nat.mul_succ, ← hw] at hfull
  omega

section
variable {ty : Nat} (h : ty < 8)
include h

/-! ## The integer instructions (R150 to R158) -/

theorem clampInt_satOut (sat : Bool) (x : Int) : (extend ty (clampInt ty sat x).1, (clampInt ty sat x).2) = satOut ty sat x := by
  cases sat with
  | false => simp [clampInt, satOut, extend_eq_intOut h]
  | true =>
    simp only [clampInt, satOut, tyMin, tyMax, Bool.true_and, decide_eq_true_eq, if_true, extend_eq_intOut h]
    split_ifs <;> rfl

/-- ADD, SUB, MUL, MAD, NEG and ABS (R150). -/
theorem intArith_eq (op : Nat) (sat : Bool) (a b c : W64) : intArith op ty sat a.toNat b.toNat c.toNat =
    satOut ty sat (exactInt op (intIn ty a) (intIn ty b) (intIn ty c)) := by
  simp only [intArith, readInt_eq_intIn]
  exact clampInt_satOut h ..

theorem mulhOp_eq (a b : W64) : mulhOp ty a.toNat b.toNat = intOut ty ((intIn ty a * intIn ty b).fdiv (2 ^ widthOf ty)) := by
  rw [mulhOp, readInt_eq_intIn, readInt_eq_intIn, extend_eq_intOut h, Int.fdiv_eq_ediv_of_nonneg _ (by positivity)]

theorem divOp_eq (a b : W64) : divOp ty a.toNat b.toNat =
    if intIn ty b = 0 then (intOut ty (-1), 2#5) else (intOut ty ((intIn ty a).tdiv (intIn ty b)), 0) := by
  simp only [divOp, readInt_eq_intIn, extend_eq_intOut h]
  rfl

theorem remOp_eq (a b : W64) : remOp ty a.toNat b.toNat =
    if intIn ty b = 0 then (bitsOut ty (a.setWidth (widthOf ty)), 2#5) else (intOut ty ((intIn ty a).tmod (intIn ty b)), 0) := by
  simp only [remOp, readInt_eq_intIn, extend_eq_intOut h, intOut_intIn]
  rfl

/-- A count of the type's width or more shifts every bit out, so that the model may stop there (R154). -/
theorem shl_wrapped (a b : W64) : extend ty (intIn ty a * 2 ^ (if b.toNat < widthOf ty then b.toNat else widthOf ty)) =
    bitsOut ty (a.setWidth (widthOf ty) <<< b.toNat) := by
  rw [extend_eq_intOut h, intOut, BitVec.ofInt_mul, ofInt_intIn, BitVec.shiftLeft_eq_mul_twoPow]
  congr 2
  apply BitVec.eq_of_toNat_eq
  rw [BitVec.toNat_twoPow, show (2 : Int) ^ (if b.toNat < widthOf ty then b.toNat else widthOf ty) =
    ((2 ^ (if b.toNat < widthOf ty then b.toNat else widthOf ty) : Nat) : Int) by push_cast; rfl, BitVec.ofInt_natCast, BitVec.toNat_ofNat]
  split
  · rfl
  · rw [Nat.mod_self, Nat.mod_eq_zero_of_dvd (Nat.pow_dvd_pow 2 (by omega))]

omit h in
/-- A count of the type's width or more takes every operand but 0 out of the range (R154). -/
theorem shl_clamped (a b : W64) : satOut ty true (intIn ty a * 2 ^ (if b.toNat < widthOf ty then b.toNat else widthOf ty)) =
    satOut ty true (intIn ty a * 2 ^ b.toNat) := by
  split
  · rfl
  next hb =>
  obtain ⟨hlo, hlo0, hhi0, hhi⟩ := tyMin_tyMax_bounds ty
  have hle : (2 : Int) ^ widthOf ty ≤ 2 ^ b.toNat := pow_le_pow_right₀ (by omega) (by omega)
  simp only [satOut_eq, Bool.true_and, decide_eq_true_eq]
  rcases lt_trichotomy (intIn ty a) 0 with hx | hx | hx
  · rw [if_pos (by nlinarith), if_pos (by nlinarith)]
  · simp only [hx, zero_mul]
  · rw [if_neg (by nlinarith), if_pos (by nlinarith), if_neg (by nlinarith), if_pos (by nlinarith)]

theorem shlOp_eq (sat : Bool) (a b : W64) : shlOp ty sat a.toNat b.toNat =
    if sat then satOut ty true (intIn ty a * 2 ^ b.toNat) else (bitsOut ty (a.setWidth (widthOf ty) <<< b.toNat), 0) := by
  simp only [shlOp, readInt_eq_intIn]
  split
  · rw [clampInt_satOut h, shl_clamped]
  · rw [shl_wrapped h]

theorem shrOp_eq (a b : W64) : shrOp ty a.toNat b.toNat = bitsOut ty (a.setWidth (widthOf ty) >>> b.toNat) := by
  rw [shrOp, extend_eq_intOut h, ← Nat.cast_zero, ← Nat.cast_ite]
  refine intOut_natCast ?_
  rw [BitVec.toNat_ushiftRight, BitVec.toNat_setWidth, Nat.shiftRight_eq_div_pow]
  split
  · rfl
  · refine (Nat.div_eq_of_lt ((Nat.mod_lt _ (Nat.two_pow_pos _)).trans_le (Nat.pow_le_pow_right two_pos (by omega)))).symm

theorem rotOp_eq (a b : W64) : rotOp ty a.toNat b.toNat = bitsOut ty ((a.setWidth (widthOf ty)).rotateLeft b.toNat) := by
  have hk : b.toNat % widthOf ty ≤ widthOf ty := (Nat.mod_lt _ (widthOf_pos ty)).le
  have hv : a.toNat % 2 ^ widthOf ty < 2 ^ widthOf ty := Nat.mod_lt _ (Nat.two_pow_pos _)
  rw [rotOp, extend_eq_intOut h, intOut, BitVec.ofInt_natCast]
  refine congrArg _ (BitVec.eq_of_toNat_eq ?_)
  rw [BitVec.toNat_ofNat, BitVec.toNat_rotateLeft, BitVec.toNat_setWidth, Nat.shiftLeft_eq, Nat.shiftRight_eq_div_pow]
  exact rotate_mod hk hv

end

/-- An arithmetic shift divides, and a count of the width or more leaves the sign alone (R154). -/
theorem sraOp_eq {ty : Nat} (h : ty < 4) (a b : W64) : sraOp ty a.toNat b.toNat = bitsOut ty ((a.setWidth (widthOf ty)).sshiftRight b.toNat) := by
  have hx : (a.setWidth (widthOf ty)).toInt = intIn ty a := by rw [intIn, if_pos h]
  rw [sraOp, readInt_eq_intIn, extend_eq_intOut (by omega), ← intOut_toInt, BitVec.toInt_sshiftRight, Int.shiftRight_eq_div_pow, hx]
  congr 1
  push_cast
  split
  · rfl
  next hb =>
  obtain ⟨hlo, hhi⟩ := (intIn_bounds ty a).1 h
  have h1 : (2 : Int) ^ (widthOf ty - 1) ≤ 2 ^ widthOf ty := pow_le_pow_right₀ (by omega) (by omega)
  have h2 : (2 : Int) ^ widthOf ty ≤ 2 ^ b.toNat := pow_le_pow_right₀ (by omega) (by omega)
  by_cases h0 : intIn ty a < 0
  · rw [Int.ediv_eq_neg_one_of_neg_of_le h0 (by omega), Int.ediv_eq_neg_one_of_neg_of_le h0 (by omega)]
  · rw [Int.ediv_eq_zero_of_lt (by omega) (by omega), Int.ediv_eq_zero_of_lt (by omega) (by omega)]

/-! ## Counts and fields (R155, R156) -/

theorem length_takeWhile_range {n k : Nat} {p : Nat → Bool} (hk : k ≤ n) (hp : ∀ j < k, p j = true) (hn : k < n → p k = false) :
    ((List.range n).takeWhile p).length = k := by
  obtain ⟨d, rfl⟩ := Nat.exists_eq_add_of_le hk
  rw [List.range_add, List.takeWhile_append_of_pos (by simpa using hp), List.length_append, List.length_range]
  cases d with
  | zero => simp
  | succ d => simp [List.range_succ_eq_map, hn (by omega)]

/-- The leading zero bits of a number within w bits. -/
theorem length_leading_zeros {w v : Nat} (hw : w ≤ 64) : ((List.range w).takeWhile fun j => !v.testBit (w - 1 - j)).length =
    w - bitLen 64 (v % 2 ^ w) := by
  have hlt : v % 2 ^ w < 2 ^ w := Nat.mod_lt _ (Nat.two_pow_pos _)
  obtain ⟨hu, hl⟩ := bitLen_spec (hlt.trans_le (Nat.pow_le_pow_right two_pos hw))
  have hbit {i : Nat} (hi : i < w) : v.testBit i = (v % 2 ^ w).testBit i := by simp [hi]
  have h0 : v % 2 ^ w = 0 → bitLen 64 (v % 2 ^ w) = 0 := fun h => by rw [h]; rfl
  generalize v % 2 ^ w = m at *
  generalize bitLen 64 m = L at *
  have hLw : L ≤ w := by
    by_contra hgt
    have h2 : 2 ^ (w + 1) ≤ 2 ^ L := Nat.pow_le_pow_right two_pos (by omega)
    have := hl (fun h => hgt (by rw [h0 h]; omega))
    rw [pow_succ] at h2
    omega
  refine length_takeWhile_range (Nat.sub_le ..) (fun j hj => ?_) (fun hj => ?_)
  · rw [hbit (by omega), Nat.testBit_lt_two_pow (hu.trans_le (Nat.pow_le_pow_right two_pos (by omega)))]
    rfl
  · obtain ⟨t, rfl⟩ : ∃ t, L = t + 1 := ⟨L - 1, by omega⟩
    have htop := hl (fun h => by have := h0 h; omega)
    rw [pow_succ] at htop
    rw [hbit (by omega), show w - 1 - (w - (t + 1)) = t by omega, Nat.testBit_of_two_pow_le_and_two_pow_add_one_gt (by omega) hu]
    rfl

theorem popBits_eq (k v : Nat) : popBits k v = ((List.range k).filter v.testBit).length := by
  induction k generalizing v with
  | zero => rfl
  | succ k ih =>
    have hcomp : v.testBit ∘ Nat.succ = (v / 2).testBit := funext fun i => Nat.testBit_succ ..
    rw [popBits, ih, List.range_succ_eq_map, List.filter_cons, List.filter_map, hcomp, Nat.testBit_zero]
    by_cases h : v % 2 = 1
    · simp [h, Nat.add_comm]
    · simp [h]
      omega

/-- A field of n bits at bit l, replaced. -/
theorem testBit_replaced (v x l n i : Nat) :
    (v - v / 2 ^ l % 2 ^ n * 2 ^ l + x % 2 ^ n * 2 ^ l).testBit i = if l ≤ i ∧ i < l + n then x.testBit (i - l) else v.testBit i := by
  have hlow : v % 2 ^ l < 2 ^ l := Nat.mod_lt _ (Nat.two_pow_pos _)
  have hparts : v - v / 2 ^ l % 2 ^ n * 2 ^ l + x % 2 ^ n * 2 ^ l = 2 ^ l * (2 ^ n * (v / 2 ^ l / 2 ^ n) + x % 2 ^ n) + v % 2 ^ l := by
    have h1 := Nat.div_add_mod v (2 ^ l)
    have h2 := Nat.div_add_mod (v / 2 ^ l) (2 ^ n)
    have h3 : 2 ^ l * (v / 2 ^ l) = 2 ^ l * (2 ^ n * (v / 2 ^ l / 2 ^ n)) + v / 2 ^ l % 2 ^ n * 2 ^ l := by
      rw [Nat.mul_comm (_ % _), ← Nat.mul_add, h2]
    rw [Nat.mul_add, Nat.mul_comm (x % _)]
    omega
  rw [hparts, Nat.testBit_two_pow_mul_add _ hlow]
  split
  · rw [if_neg (by omega), Nat.testBit_mod_two_pow]
    simp [*]
  · rw [Nat.testBit_two_pow_mul_add _ (Nat.mod_lt _ (Nat.two_pow_pos _))]
    split
    · rw [if_pos (by omega), Nat.testBit_mod_two_pow]
      simp [*]
    · rw [if_neg (by omega), Nat.testBit_div_two_pow, Nat.testBit_div_two_pow]
      congr 1
      omega

theorem bfEff_eq (w : Nat) (d : W64) : bfEff w d.toNat = fieldLen w d := by
  simp only [bfEff, fieldLen, bits, min_def]
  rfl

section
variable {ty : Nat} (h : ty < 8)
include h

theorem clzOp_eq (a : W64) : clzOp ty a.toNat =
    intOut ty ((List.range (widthOf ty)).takeWhile fun j => !a.getLsbD (widthOf ty - 1 - j)).length := by
  rw [clzOp, extend_eq_intOut h, ← length_leading_zeros (widthOf_le ty)]
  rfl

theorem popcOp_eq (a : W64) : popcOp ty a.toNat = intOut ty ((List.range (widthOf ty)).filter fun j => a.getLsbD j).length := by
  rw [popcOp, extend_eq_intOut h, popBits_eq]
  rfl

theorem bfxOp_eq (a d : W64) : bfxOp ty a.toNat d.toNat =
    (let f : BitVec (fieldLen (widthOf ty) d) := (a.setWidth (widthOf ty) >>> (d.toNat % 64)).setWidth _
     intOut ty (if ty < 4 then f.toInt else (f.toNat : Int))) := by
  have hf : (a.setWidth (widthOf ty) >>> (d.toNat % 64)).setWidth (fieldLen (widthOf ty) d) =
      BitVec.ofNat _ ((a.toNat % 2 ^ widthOf ty / 2 ^ (d.toNat % 64)) % 2 ^ fieldLen (widthOf ty) d) := by
    apply BitVec.eq_of_toNat_eq
    simp [Nat.shiftRight_eq_div_pow]
  dsimp only
  rw [bfxOp, bfEff_eq, extend_eq_intOut h, hf]
  generalize (a.toNat % 2 ^ widthOf ty / 2 ^ (d.toNat % 64)) = u
  generalize fieldLen (widthOf ty) d = n
  congr 1
  rcases Nat.eq_zero_or_pos n with rfl | hn
  · simp [BitVec.toInt_zero_length]
  · rw [if_neg (by omega), sint_eq_toInt hn, BitVec.toNat_ofNat, Nat.mod_mod]

theorem bfiOp_eq (a b d : W64) : bfiOp ty a.toNat b.toNat d.toNat =
    (let m : BitVec (widthOf ty) := BitVec.ofNat _ (2 ^ fieldLen (widthOf ty) d - 1) <<< (d.toNat % 64)
     bitsOut ty ((a.setWidth (widthOf ty) &&& ~~~m) ||| ((b.setWidth (widthOf ty) <<< (d.toNat % 64)) &&& m))) := by
  have hn : fieldLen (widthOf ty) d ≤ widthOf ty - d.toNat % 64 := min_le_right ..
  dsimp only
  rw [bfiOp, bfEff_eq, extend_eq_intOut h, intOut, BitVec.ofInt_natCast]
  generalize fieldLen (widthOf ty) d = n at *
  generalize d.toNat % 64 = l at *
  refine congrArg _ (BitVec.eq_of_getLsbD_eq fun i hi => ?_)
  have ha : (a.toNat % 2 ^ widthOf ty).testBit i = a.getLsbD i := by simp [hi, BitVec.testBit_toNat]
  simp only [BitVec.getLsbD_ofNat, testBit_replaced, BitVec.getLsbD_or, BitVec.getLsbD_and, BitVec.getLsbD_not, BitVec.getLsbD_shiftLeft,
    BitVec.getLsbD_setWidth, Nat.testBit_two_pow_sub_one, hi, ha, decide_true, Bool.true_and]
  by_cases h1 : i < l
  · simp [h1, Nat.not_le.mpr h1]
  · by_cases h2 : i < l + n
    · have h3 : i - l < n := by omega
      have h4 : i - l < widthOf ty := by omega
      simp [h1, h2, h3, h4, Nat.not_lt.mp h1, BitVec.testBit_toNat]
    · have h3 : ¬ i - l < n := by omega
      simp [h1, h2, h3]

end

/-- CMP's relations, by the order of integers (R158). -/
theorem relation_int (cc : Nat) (x y : Int) : relation cc (x < y) (x = y) = (match cc with
    | 0 => x == y
    | 1 => x != y
    | 2 => decide (x < y)
    | 3 => decide (x ≤ y)
    | 4 => decide (y < x)
    | _ => decide (y ≤ x)) := by
  match cc with
  | 0 | 1 | 2 => rfl
  | 3 =>
    rw [Bool.eq_iff_iff]
    simp [relation, le_iff_lt_or_eq]
  | 4 =>
    rw [Bool.eq_iff_iff]
    simp [relation]
    omega
  | _ + 5 =>
    rw [Bool.eq_iff_iff]
    simp [relation]

theorem cmpOp_eq (cc ty : Nat) (a b : W64) : cmpOp cc ty a.toNat b.toNat =
    if relation cc (intIn ty a < intIn ty b) (intIn ty a = intIn ty b) then 1 else 0 := by
  simp only [cmpOp, readInt_eq_intIn]

/-- A word without its higher bits: MOV, and a value held at a width that fills VAL (R134, R157). -/
theorem extend_toNat_eq (ty : Nat) (v : W64) : extend ty v.toNat =
    if ty < 8 then bitsOut ty (v.setWidth (widthOf ty)) else if ty = 8 then (v.setWidth 32).setWidth 64 else v := by
  have hwrap (k : Nat) : wrap k (v.toNat : Int) = v.toNat % 2 ^ k := by rw [wrap]; norm_cast
  split
  · next h => rw [extend_eq_intOut h, intOut, BitVec.ofInt_natCast, BitVec.ofNat_toNat]
  next h =>
  rw [extend, if_neg (by omega), if_neg h, hwrap, hwrap]
  apply BitVec.eq_of_toNat_eq
  split
  · simp only [BitVec.toNat_ofNat, BitVec.toNat_setWidth]
  · simp only [BitVec.toNat_ofNat]
    omega

/-! ## Each integer instruction, by its rule (R150 to R158) -/

/-- What an arithmetic firing computes is the value and the flags that its rule gives, from the 64 bits of its operands. -/
def Computes (i : Instr) (w : CW) (op : Nat) (f : W64 → W64 → W64 → W64 × BitVec 5) : Prop :=
  ∃ g, (∀ s, exec i s = .next (fireAlu s w op g)) ∧ ∀ a b c : W64, g a.toNat b.toNat c.toNat = f a b c

theorem getLsbD_zero_eq_beq_one {fn : BitVec 4} (h : fn.toNat < 2) : fn.getLsbD 0 = (fn == 1) := by
  revert fn
  decide

/-- The fields of a well-formed word that its row's classes bound (R53, R54). -/
theorem fn_ty_ok {i : Instr} {r : Row} {w : CW} (hwf : i.wf = true) (hrow : i.row = some (r, w)) : r.fn.ok w.fn = true ∧ r.ty.ok w.ty = true := by
  simp only [Instr.wf, hrow, CW.ok, Bool.and_eq_true] at hwf
  tauto

/-- The firing of an instruction that raises no flag computes its value. -/
theorem computes_value {i : Instr} {w : CW} {op : Nat} {g : Nat → Nat → Nat → W64} {f : W64 → W64 → W64 → W64}
    (hexec : ∀ s, exec i s = .next (fireAlu s w op fun a b c => (g a b c, 0)))
    (hvalue : ∀ a b c : W64, g a.toNat b.toNat c.toNat = f a b c) : Computes i w op fun a b c => (f a b c, 0) :=
  ⟨_, hexec, fun a b c => congrArg (·, 0) (hvalue a b c)⟩

theorem intRule_computes {i : Instr} {r : Row} {w : CW} {f : W64 → W64 → W64 → W64 × BitVec 5} (hwf : i.wf = true)
    (hrow : i.row = some (r, w)) (hrule : intRule i = some (w, f)) : Computes i w r.op.toNat f := by
  obtain ⟨hfn, hty⟩ := fn_ty_ok hwf hrow
  cases i with
  | add | sub | mul | mad | neg | abs =>
    cases hrow; cases hrule
    simp only [FnClass.ok, TyClass.ok, decide_eq_true_eq] at hfn hty
    refine ⟨_, fun _ => rfl, fun a b c => ?_⟩
    rw [intArith_eq (by omega), getLsbD_zero_eq_beq_one hfn]
    rfl
  | shl =>
    cases hrow; cases hrule
    simp only [FnClass.ok, TyClass.ok, decide_eq_true_eq] at hfn hty
    refine ⟨_, fun _ => rfl, fun a b c => ?_⟩
    rw [shlOp_eq hty, getLsbD_zero_eq_beq_one hfn]
  | div => cases hrow; cases hrule; exact ⟨_, fun _ => rfl, fun a b _ => divOp_eq (of_decide_eq_true hty) a b⟩
  | rem => cases hrow; cases hrule; exact ⟨_, fun _ => rfl, fun a b _ => remOp_eq (of_decide_eq_true hty) a b⟩
  | mulh => cases hrow; cases hrule; exact computes_value (fun _ => rfl) fun a b _ => mulhOp_eq (of_decide_eq_true hty) a b
  | min => cases hrow; cases hrule; exact computes_value (fun _ => rfl) fun a b _ => intMinMax_eq false (of_decide_eq_true hty) a b
  | max => cases hrow; cases hrule; exact computes_value (fun _ => rfl) fun a b _ => intMinMax_eq true (of_decide_eq_true hty) a b
  | and =>
    cases hrow; cases hrule
    exact computes_value (fun _ => rfl) fun a b _ =>
      bitwiseOp_eq (op := fun x y => x &&& y) (of_decide_eq_true hty) a b (BitVec.setWidth_and ..)
  | andn =>
    cases hrow; cases hrule
    exact computes_value (fun _ => rfl) fun a b _ => bitwiseOp_eq (op := fun x y => x &&& ~~~y) (of_decide_eq_true hty) a b
      ((BitVec.setWidth_and ..).trans (congrArg _ (BitVec.setWidth_not (widthOf_le _))))
  | or =>
    cases hrow; cases hrule
    exact computes_value (fun _ => rfl) fun a b _ =>
      bitwiseOp_eq (op := fun x y => x ||| y) (of_decide_eq_true hty) a b (BitVec.setWidth_or ..)
  | xor =>
    cases hrow; cases hrule
    exact computes_value (fun _ => rfl) fun a b _ =>
      bitwiseOp_eq (op := fun x y => x ^^^ y) (of_decide_eq_true hty) a b (BitVec.setWidth_xor ..)
  | not =>
    cases hrow; cases hrule
    exact computes_value (fun _ => rfl) fun a _ _ =>
      bitwiseOp_eq (op := fun x _ => ~~~x) (of_decide_eq_true hty) a 0 (BitVec.setWidth_not (widthOf_le _))
  | shr => cases hrow; cases hrule; exact computes_value (fun _ => rfl) fun a b _ => shrOp_eq (of_decide_eq_true hty) a b
  | sra => cases hrow; cases hrule; exact computes_value (fun _ => rfl) fun a b _ => sraOp_eq (of_decide_eq_true hty) a b
  | rot => cases hrow; cases hrule; exact computes_value (fun _ => rfl) fun a b _ => rotOp_eq (of_decide_eq_true hty) a b
  | clz => cases hrow; cases hrule; exact computes_value (fun _ => rfl) fun a _ _ => clzOp_eq (of_decide_eq_true hty) a
  | popc => cases hrow; cases hrule; exact computes_value (fun _ => rfl) fun a _ _ => popcOp_eq (of_decide_eq_true hty) a
  | bfx => cases hrow; cases hrule; exact computes_value (fun _ => rfl) fun a b _ => bfxOp_eq (of_decide_eq_true hty) a b
  | bfi => cases hrow; cases hrule; exact computes_value (fun _ => rfl) fun a b c => bfiOp_eq (of_decide_eq_true hty) a b c
  | cmp =>
    cases hrow; cases hrule
    exact computes_value (fun _ => rfl) fun a b _ =>
      (cmpOp_eq ..).trans (congrArg (fun holds : Bool => if holds then (1 : W64) else 0) (relation_int ..))
  | mov => cases hrow; cases hrule; exact computes_value (fun _ => rfl) fun a _ _ => extend_toNat_eq _ a
  | _ => cases hrule

/-- Settles O16: each integer instruction computes its rule's value, and its set fires with it. -/
theorem integerResults : Obligations.IntegerResults := by
  intro i r w f s fr o tx ty hwf hrow hrule hex hd fr' v hroom
  obtain ⟨g, hexec, hg⟩ := intRule_computes hwf hrow hrule
  rw [hexec, fireAlu_executes hex hd (hg ..) hroom]

/-! ## SEL and MOV (R157) -/

/-- A value held at a scalar type's width (R134). -/
theorem extend_bits (v : W64) : extend 0 v.toNat = (v.setWidth 8).signExtend 64 ∧ extend 1 v.toNat = (v.setWidth 16).signExtend 64 ∧
    extend 2 v.toNat = (v.setWidth 32).signExtend 64 ∧ extend 3 v.toNat = v ∧ extend 4 v.toNat = (v.setWidth 8).setWidth 64 ∧
    extend 5 v.toNat = (v.setWidth 16).setWidth 64 ∧ extend 6 v.toNat = (v.setWidth 32).setWidth 64 ∧
    extend 8 v.toNat = (v.setWidth 32).setWidth 64 := by
  refine ⟨extend_toNat_eq 0 v, extend_toNat_eq 1 v, extend_toNat_eq 2 v, (extend_toNat_eq 3 v).trans ?_, extend_toNat_eq 4 v,
    extend_toNat_eq 5 v, extend_toNat_eq 6 v, extend_toNat_eq 8 v⟩
  change (v.setWidth 64).signExtend 64 = v
  rw [BitVec.setWidth_eq, BitVec.signExtend_eq]

/-- Settles O17: both put out one value, SEL under the fields of the operand that it selects. -/
theorem selectAndMove : Obligations.SelectAndMove := by
  refine ⟨?sel, ?mov, fun v => ⟨?whole, fun ty h => ?_⟩, extend_bits⟩
  case sel =>
    intro w s fr o tx ty hex hd fr' src t v e hroom
    refine congrArg _ (fireSet_value hex hd ?_ hroom)
    by_cases hc : valC w fr' = 0 <;>
      simp only [v, src, t, fr', hc, bne_iff_ne, ne_eq, not_true_eq_false, not_false_eq_true, if_true, if_false]
  case mov =>
    intro w s fr o tx ty hex hd fr' e hroom
    exact congrArg _ (fireAlu_executes (g := fun a _ _ => (extend w.ty.toNat a, 0)) hex hd rfl hroom)
  case whole =>
    refine (extend_toNat_eq 7 v).trans ?_
    change (v.setWidth 64).setWidth 64 = v
    rw [BitVec.setWidth_eq, BitVec.setWidth_eq]
  · rw [extend_toNat_eq, if_neg (by omega), if_neg (by omega)]

end Sys2Proof.Machine
end

section
/-! Every format (R136, R139, R140): decoding and the single rounding, for the formats with infinities and NaNs and for E4M3 and E2M1 alike, and
numbers of a format, which rounding leaves as they are. -/

namespace Sys2Proof.Machine

open Sys2Proof Sys2Proof.Safety

/-! ## The formats of the manual (R136) -/

/-- A format with infinities and NaNs, or one of the two without infinities. -/
inductive Known : Fmt → Prop where
  | ieee {f : Fmt} (h : Ieee f) : Known f
  | e4m3 : Known E4M3
  | e2m1 : Known E2M1

theorem known_of_mem {f : Fmt} (h : f ∈ [F64, F32, F16, B16, E5M2, E4M3, E2M1]) : Known f := by
  simp only [List.mem_cons, List.not_mem_nil, or_false] at h
  rcases h with rfl | rfl | rfl | rfl | rfl | rfl | rfl
  · exact .ieee ieee_F64
  · exact .ieee ieee_F32
  · exact .ieee ⟨rfl, by decide, by decide, by decide, by decide, by decide, rfl⟩
  · exact .ieee ⟨rfl, by decide, by decide, by decide, by decide, by decide, rfl⟩
  · exact .ieee ⟨rfl, by decide, by decide, by decide, by decide, by decide, rfl⟩
  · exact .e4m3
  · exact .e2m1

theorem isNaN_E4M3 (p : Nat) : isNaN E4M3 p = (p % 128 == 127) := rfl

/-- A pattern by its sign and its code. -/
theorem signBit_add_code {f : Fmt} {p : Nat} (hw : 0 < f.w) (hp : p < 2 ^ f.w) : signBit f (signOf f p) + p % 2 ^ (f.w - 1) = p := by
  have hdbl := two_pow_double hw
  have hdiv := Nat.div_add_mod p (2 ^ (f.w - 1))
  by_cases h : p < 2 ^ (f.w - 1)
  · simp [signOf, signBit, Nat.div_eq_of_lt h, Nat.mod_eq_of_lt h]
  · have h1 : p / 2 ^ (f.w - 1) = 1 := Nat.div_eq_of_lt_le (by omega) (by omega)
    rw [h1] at hdiv
    simp only [signOf, signBit, h1]
    simpa using hdiv

namespace Known
variable {f : Fmt} {c : Nat} (neg : Bool) (hf : Known f)
include hf

theorem fb_lt : f.fb + 1 ≤ f.w := by
  cases hf with
  | ieee h => exact h.fb_lt
  | e4m3 | e2m1 => decide

theorem w_pos : 0 < f.w := (Nat.succ_pos _).trans_le hf.fb_lt

theorem sizes : f.fb ≤ 52 ∧ f.bias ≤ 1023 := by
  cases hf with
  | ieee h => exact ⟨h.fb_le, h.bias_le⟩
  | e4m3 | e2m1 => decide

theorem expMax_eq : expMax f = 2 * f.bias + 1 := by
  cases hf with
  | ieee h => exact h.expMax_eq
  | e4m3 | e2m1 => rfl

theorem maxFinite_lt : maxFinite f < 2 ^ (f.w - 1) := by
  cases hf with
  | ieee h => exact h.maxFinite_lt
  | e4m3 | e2m1 => decide

theorem minNormal_le : 2 ^ f.fb ≤ maxFinite f := by
  cases hf with
  | ieee h => exact h.minNormal_le
  | e4m3 | e2m1 => decide

theorem maxRat_eq : maxRat f = magOf f (maxFinite f) := by
  cases hf with
  | ieee h => exact h.maxRat_eq
  | e4m3 | e2m1 => norm_num [maxRat, maxFinite, magOf, E4M3, E2M1]

/-- The patterns up to the largest finite one are numbers. -/
theorem isNum_code (hc : c ≤ maxFinite f) : IsNum f (signBit f neg + c) neg (magOf f c) := by
  have hc' := hc.trans_lt hf.maxFinite_lt
  cases hf with
  | ieee h => exact h.isNum_code neg hc
  | e4m3 =>
    refine ⟨rfl, ?_, signOf_code neg hc', ratOf_code neg (by decide) hc'⟩
    change c ≤ 126 at hc
    rw [isNaN_E4M3, beq_eq_false_iff_ne]
    cases neg <;> simp [E4M3, signBit] <;> omega
  | e2m1 => exact ⟨rfl, rfl, signOf_code neg hc', ratOf_code neg (by decide) hc'⟩

/-- A number's code is finite. -/
theorem code_le {p : Nat} (hp : p < 2 ^ f.w) (hinf : isInf f p = false) (hnan : isNaN f p = false) : p % 2 ^ (f.w - 1) ≤ maxFinite f := by
  have hlt : p % 2 ^ (f.w - 1) < 2 ^ (f.w - 1) := Nat.mod_lt _ (Nat.two_pow_pos _)
  have hcode := signBit_add_code hf.w_pos hp
  cases hf with
  | ieee h =>
    have hs : isSpecial f p = false := by
      rw [isNaN, h.spec] at hnan
      rw [isInf] at hinf
      cases hs : isSpecial f p <;> simp_all
    rw [← hcode, h.isSpecial_code _ hlt, decide_eq_false_iff_not] at hs
    have hdiv : p % 2 ^ (f.w - 1) / 2 ^ f.fb < expMax f := by
      have : p % 2 ^ (f.w - 1) / 2 ^ f.fb < expMax f + 1 :=
        Nat.div_lt_of_lt_mul (by rw [Nat.mul_comm, Nat.succ_mul, ← h.two_pow_sign_eq]; exact hlt)
      omega
    have := (Nat.div_lt_iff_lt_mul (Nat.two_pow_pos _)).mp hdiv
    rw [h.maxFinite_eq]
    omega
  | e4m3 =>
    change p % 128 ≤ 126
    rw [isNaN_E4M3, beq_eq_false_iff_ne] at hnan
    omega
  | e2m1 =>
    change p % 8 < 8 at hlt
    change p % 8 ≤ 7
    omega

/-- The decoder by the classes of R136. -/
theorem fdec_eq (p : Nat) : fdec f p = if isNaN f p = true then .nan (signOf f p) (fracOf f p) f.fb (isSNaN f p)
    else if isInf f p = true then .inf (signOf f p)
    else if expOf f p = 0 then .num (signOf f p) (fracOf f p) (1 - (f.bias : Int) - f.fb)
    else .num (signOf f p) (fracOf f p + 2 ^ f.fb) ((expOf f p : Int) - f.bias - f.fb) := by
  cases hf with
  | ieee h => exact h.fdec_eq p
  | e4m3 =>
    rw [isNaN_E4M3, show isInf E4M3 p = false from rfl, show isSNaN E4M3 p = false from rfl]
    simp only [beq_iff_eq, Bool.false_eq_true, if_false]
    rfl
  | e2m1 => rfl

theorem isNaN_fdec (p : Nat) : (fdec f p).isNaN = isNaN f p := by
  rw [hf.fdec_eq]
  split_ifs with h1 h2 h3 <;> simp [FV.isNaN, h1]

theorem isSNaN_fdec (p : Nat) : (fdec f p).isSNaN = isSNaN f p := by
  rw [hf.fdec_eq]
  by_cases h1 : isNaN f p = true
  · rw [if_pos h1, FV.isSNaN]
  · have hs : isSNaN f p = false := by
      rw [isNaN] at h1
      rw [isSNaN]
      simp_all
    rw [if_neg h1]
    split_ifs <;> simp [FV.isSNaN, hs]

theorem first?_isNaN (l : List Nat) : first? FV.isNaN (l.map (fdec f)) = (first? (isNaN f) l).map (fdec f) := by
  rw [first?_map, show FV.isNaN ∘ fdec f = isNaN f from funext hf.isNaN_fdec]

theorem exact_fdec {p : Nat} (h : isNaN f p = false) : (fdec f p).exact = exactOf f p := by
  rw [hf.fdec_eq, if_neg (by simp [h]), exactOf, ratOf]
  split_ifs <;> simp_all [FV.exact, add_comm]

end Known

/-! ## Numbers of a format under the single rounding (R139, R140) -/

/-- A multiple of its binade's step is where it rounds to. -/
theorem nearAt_of_multiple (f : Fmt) (neg : Bool) (mode : Nat) {r : Nat} {q k : Int} (hk : k - f.fb ≤ q) :
    nearAt f neg (r * 2 ^ q) mode k = r * 2 ^ q := by
  rw [nearAt]
  generalize k - (f.fb : Int) = s at *
  have hint : (r : ℚ) * 2 ^ q / 2 ^ s = ((r * 2 ^ (q - s).toNat : Nat) : Int) := by
    rw [Int.cast_natCast, Nat.cast_mul, ← two_zpow_toNat (by omega), zpow_sub₀ two_ne_zero, ← mul_div_assoc]
  rw [hint, roundInt_intCast, ← hint, div_mul_cancel₀ _ (by positivity)]

/-- A format's number rounds to itself, in the steps of its own binade and of the least normal one. -/
theorem nearAt_magOf (f : Fmt) (neg : Bool) (mode : Nat) {c : Nat} {k : Int} (hk : k ≤ 1 - f.bias ∨ (2 : ℚ) ^ k ≤ magOf f c) :
    nearAt f neg (magOf f c) mode k = magOf f c := by
  obtain ⟨j, r, rfl, hr, hj⟩ := exists_scale f c
  rw [magOf_scale f hr.le hj] at hk ⊢
  refine nearAt_of_multiple f neg mode ?_
  rcases hk with hk | hk
  · omega
  · have hlt : (r : ℚ) * 2 ^ ((j : Int) + 1 - f.bias - f.fb) < 2 ^ ((j : Int) + 1 - f.bias + 1) := by
      calc (r : ℚ) * 2 ^ ((j : Int) + 1 - f.bias - f.fb) < ((2 ^ (f.fb + 1) : Nat) : ℚ) * 2 ^ ((j : Int) + 1 - f.bias - f.fb) :=
            mul_lt_mul_of_pos_right (by exact_mod_cast hr) (by positivity)
        _ = 2 ^ ((j : Int) + 1 - f.bias + 1) := by
            rw [natCast_two_pow_mul]
            congr 1
            push_cast
            ring
    have := (zpow_lt_zpow_iff_right₀ (one_lt_two (α := ℚ))).mp (hk.trans_lt hlt)
    omega

theorem lt_two_pow_mono {m k n : Nat} (h : m < 2 ^ k) (hk : k ≤ n) : m < 2 ^ n := h.trans_le (Nat.pow_le_pow_right two_pos hk)

theorem magOf_zero (f : Fmt) : magOf f 0 = 0 := by simp [magOf]

namespace Known
variable {f : Fmt} (hf : Known f) (neg : Bool) {m : Nat} {e : Int} (mode : Nat)
include hf

section
variable {x : ℚ} (hm : m ≠ 0) (hlt : m < 2 ^ 8192) (hx : x = m * 2 ^ e)
include hm hlt hx

/-- The model finds an overflow where the unbounded rounding exceeds the largest finite number. -/
theorem overflow_iff : (1 - (f.bias : Int) ≤ topUp f neg m e mode ∧
    maxFinite f < codeAt f (topOf m e - f.fb) (roundTo neg m e (topOf m e - f.fb) mode).1) ↔ maxRat f < nearAt f neg x mode (topOf m e) := by
  rw [hf.maxRat_eq]
  by_cases h : 1 - (f.bias : Int) ≤ topUp f neg m e mode
  · rw [← magOf_codeAt_top f neg mode hm hlt hx h, (magOf_strictMono f).lt_iff_lt]
    exact and_iff_right h
  · have hlow := (nearAt_top_lt_iff f neg mode hm hlt hx (1 - f.bias)).mpr (by omega)
    rw [← magOf_minNormal] at hlow
    have hmax := (magOf_strictMono f).monotone hf.minNormal_le
    exact iff_of_false (fun hc => h hc.1) (not_lt.mpr (hlow.le.trans hmax))

/-- Without an overflow the delivered code is finite and has the magnitude of the rounding in the format's own steps. -/
theorem magOf_codeAt_finite (ho : ¬ maxRat f < nearAt f neg x mode (topOf m e)) :
    let k := max (topOf m e) (1 - (f.bias : Int))
    let c := codeAt f (k - f.fb) (roundTo neg m e (k - f.fb) mode).1
    c ≤ maxFinite f ∧ magOf f c = nearAt f neg x mode k := by
  intro k c
  by_cases h : 1 - (f.bias : Int) ≤ topOf m e
  · have hk : k = topOf m e := max_eq_left h
    have hup : 1 - (f.bias : Int) ≤ topUp f neg m e mode := by rw [topUp]; split <;> omega
    rw [← hf.overflow_iff neg mode hm hlt hx] at ho
    simp only [c, hk]
    exact ⟨not_lt.mp fun hc => ho ⟨hup, hc⟩, magOf_codeAt_top f neg mode hm hlt hx hup⟩
  · have hk : k = 1 - (f.bias : Int) := max_eq_right (by omega)
    have hr : (roundTo neg m e (k - f.fb) mode).1 ≤ 2 ^ f.fb := roundTo_above f neg mode hm hlt (by omega)
    have hmag : magOf f c = (roundTo neg m e (k - f.fb) mode).1 * 2 ^ (k - f.fb) :=
      magOf_codeAt f (by omega) (hr.trans (Nat.pow_le_pow_right two_pos (Nat.le_succ _))) (.inl (by omega))
    refine ⟨le_trans ?_ hf.minNormal_le, hmag.trans (nearAt_eq_roundTo f neg mode hlt hx k).symm⟩
    rw [← (magOf_strictMono f).le_iff_le, hmag, magOf_minNormal, hk, sub_eq_add_neg, zpow_add₀ two_ne_zero, mul_left_comm]
    refine mul_le_of_le_one_right (by positivity) ?_
    rw [zpow_neg, zpow_natCast, ← div_eq_mul_inv, div_le_one (by positivity)]
    exact_mod_cast hk ▸ hr

end

/-- A number of the format is left as it is, without a flag. -/
theorem rnd_magOf {c : Nat} (sat : Bool) (hlt : m < 2 ^ 8192) (hc : c ≤ maxFinite f) (hx : magOf f c = m * 2 ^ e) :
    rnd f neg m e mode sat = (signBit f neg + c, 0) := by
  by_cases hm : m = 0
  · obtain rfl : c = 0 := (magOf_strictMono f).injective (by rw [hx, hm, magOf_zero]; simp)
    rw [rnd, if_pos hm, Nat.add_zero]
  have htop := (two_zpow_top (e := e) hm hlt).1
  rw [← hx] at htop
  have hnear : nearAt f neg (magOf f c) mode (topOf m e) = magOf f c := nearAt_magOf f neg mode (.inr htop)
  have hnear' : nearAt f neg (magOf f c) mode (max (topOf m e) (1 - (f.bias : Int))) = magOf f c :=
    nearAt_magOf f neg mode ((max_choice ..).elim (fun h => .inr (by rwa [h])) fun h => .inl h.le)
  have ho : ¬ maxRat f < nearAt f neg (magOf f c) mode (topOf m e) := by
    rw [hnear, hf.maxRat_eq, not_lt]
    exact (magOf_strictMono f).monotone hc
  have hcode := (hf.magOf_codeAt_finite neg mode hm hlt hx ho).2
  rw [hnear'] at hcode
  rw [rnd_eq_codes f neg e mode sat hm]
  simp only [hf.overflow_iff neg mode hm hlt hx, if_neg ho]
  rw [(magOf_strictMono f).injective hcode, roundTo_inexact f neg mode hlt hx, hnear']
  simp

/-- A decoded number is its code's magnitude, with its sign. -/
theorem fdec_num {p : Nat} (hp : p < 2 ^ f.w) (h : fdec f p = .num neg m e) :
    signBit f neg + p % 2 ^ (f.w - 1) = p ∧ p % 2 ^ (f.w - 1) ≤ maxFinite f ∧ magOf f (p % 2 ^ (f.w - 1)) = m * 2 ^ e := by
  have hcode := signBit_add_code hf.w_pos hp
  have hlt : p % 2 ^ (f.w - 1) < 2 ^ (f.w - 1) := Nat.mod_lt _ (Nat.two_pow_pos _)
  have hexp := expOf_code (signOf f p) hf.fb_lt hlt
  have hfrac := fracOf_code (c := p % 2 ^ (f.w - 1)) (signOf f p) hf.fb_lt
  rw [hcode] at hexp hfrac
  rw [hf.fdec_eq] at h
  split_ifs at h with hnan hinf h0
  · obtain ⟨rfl, rfl, rfl⟩ := FV.num.inj h
    refine ⟨hcode, hf.code_le hp (by simpa using hinf) (by simpa using hnan), ?_⟩
    rw [magOf, ← hexp, ← hfrac, if_pos h0]
  · obtain ⟨rfl, rfl, rfl⟩ := FV.num.inj h
    refine ⟨hcode, hf.code_le hp (by simpa using hinf) (by simpa using hnan), ?_⟩
    rw [magOf, ← hexp, ← hfrac, if_neg h0, Nat.add_comm]

/-- A decoded number's significand fits the fraction and the bit above it, and its exponent lies in the format's range. -/
theorem fdec_num_range {p : Nat} (h : fdec f p = .num neg m e) :
    m < 2 ^ (f.fb + 1) ∧ 1 - (f.bias : Int) - f.fb ≤ e ∧ e ≤ f.bias + 1 - f.fb := by
  have hexp : expOf f p < 2 ^ (f.w - 1 - f.fb) := Nat.mod_lt _ (Nat.two_pow_pos _)
  have hfrac : fracOf f p < 2 ^ f.fb := Nat.mod_lt _ (Nat.two_pow_pos _)
  rw [← expMax_add_one, hf.expMax_eq] at hexp
  rw [hf.fdec_eq] at h
  split_ifs at h
  all_goals
    obtain ⟨rfl, rfl, rfl⟩ := FV.num.inj h
    rw [pow_succ]
    omega

/-- A decoded number is small enough for every sum and product of a lane. -/
theorem fdec_num_bounds {p : Nat} (h : fdec f p = .num neg m e) : m < 2 ^ 53 ∧ -1074 ≤ e ∧ e ≤ 1024 := by
  obtain ⟨hm, hl, hu⟩ := hf.fdec_num_range neg h
  obtain ⟨hfb, hbias⟩ := hf.sizes
  have hpow : 2 ^ (f.fb + 1) ≤ 2 ^ 53 := Nat.pow_le_pow_right two_pos (by omega)
  omega

end Known

/-- Settles O19: a number of a format has a finite code, and rounding gives that code back. -/
theorem roundingIsExactOnTheFormat : Obligations.RoundingIsExactOnTheFormat := by
  intro f p m mode e neg sat hmem hp hdec
  have hf := known_of_mem hmem
  obtain ⟨hcode, hfin, hmag⟩ := hf.fdec_num neg hp hdec
  rw [hf.rnd_magOf neg mode sat (lt_two_pow_mono (hf.fdec_num_bounds neg hdec).1 (by decide)) hfin hmag, hcode]

end Sys2Proof.Machine
end

section
/-! What a lane computes, in every format (R139 to R141, R159, R160): one rounding of an exact value, a NaN delivered, sums and products, and
extremes, each by its law over the rationals. -/

namespace Sys2Proof.Machine

open Sys2Proof Sys2Proof.Safety

/-! ## Exact results delivered (R140, R141) -/

/-- An overflow's pattern, in every format. -/
theorem overflowPat_toInf (f : Fmt) (neg : Bool) {mode : Nat} (sat : Bool) (hmode : mode < 4) :
    overflowPat f neg mode sat = signBit f neg + if toInf f neg mode sat = true then infPat f else maxFinite f := by
  cases hs : f.spec
  case ieee =>
    match mode with
    | 0 | 1 => cases sat <;> simp [overflowPat, toInf, hs]
    | 2 | 3 => cases sat <;> cases neg <;> simp [overflowPat, toInf, hs]
  case e4m3 | e2m1 => simp [overflowPat, toInf, hs, show (Spec.e4m3 == .ieee) = false from rfl, show (Spec.e2m1 == .ieee) = false from rfl]

/-- A value that the rounding's bit count reaches. -/
def FV.Fits : FV → Prop
  | .num _ m _ => m < 2 ^ 8192
  | _ => True

theorem abs_exact (neg : Bool) (m : Nat) (e : Int) : |(if neg then -1 else 1) * ((m : ℚ) * 2 ^ e)| = m * 2 ^ e := by
  have : (0 : ℚ) ≤ m * 2 ^ e := by positivity
  cases neg <;> simp [abs_of_nonneg this]

namespace Known
variable {f : Fmt} (hf : Known f)
include hf

theorem ieee_of_spec (h : f.spec = .ieee) : Ieee f := by
  cases hf with
  | ieee hf => exact hf
  | e4m3 | e2m1 => cases h

/-- Zero rounds to itself, with the sign it is given. -/
theorem rounds_zero (neg sat : Bool) (mode : Nat) : Rounds f mode sat neg 0 (signBit f neg) 0 := by
  have hnum := hf.isNum_code neg (Nat.zero_le _)
  rw [magOf_zero] at hnum
  refine ⟨fun _ => ⟨hnum, rfl⟩, fun k hk => ?_⟩
  rw [abs_zero] at hk
  exact absurd hk (not_le.mpr (by positivity))

/-- The model's one rounding of a number is R139's and R140's, and gives a pattern of the format. -/
theorem rounds_rnd {neg : Bool} {m : Nat} {e : Int} {x : ℚ} {mode : Nat} (sat : Bool) (hmode : mode < 4) (hlt : m < 2 ^ 8192)
    (hx : |x| = m * 2 ^ e) :
    Rounds f mode sat neg x (rnd f neg m e mode sat).1 (rnd f neg m e mode sat).2 ∧ (rnd f neg m e mode sat).1 < 2 ^ f.w := by
  by_cases hm : m = 0
  · obtain rfl : x = 0 := by simpa [hm] using hx
    rw [rnd, if_pos hm]
    exact ⟨hf.rounds_zero neg sat mode, signBit_add_lt (c := 0) neg hf.w_pos (Nat.two_pow_pos _)⟩
  obtain ⟨hl, hu⟩ := two_zpow_top (e := e) hm hlt
  rw [← hx] at hl hu
  rw [rnd_eq_codes f neg e mode sat hm]
  simp only [hf.overflow_iff neg mode hm hlt hx]
  by_cases ho : maxRat f < nearAt f neg |x| mode (topOf m e)
  · rw [if_pos ho, overflowPat_toInf f neg sat hmode]
    have hieee (h : toInf f neg mode sat = true) : Ieee f := by
      simp only [toInf, Bool.and_eq_true, beq_iff_eq] at h
      exact hf.ieee_of_spec h.1.1
    refine ⟨rounds_at hl hu ?_, signBit_add_lt neg hf.w_pos ?_⟩
    · dsimp only
      rw [if_pos ho]
      refine ⟨?_, rfl⟩
      split
      · next h => exact (hieee h).isInf_infPat neg
      · exact hf.maxRat_eq ▸ hf.isNum_code neg le_rfl
    · split
      · next h => exact (hieee h).infPat_lt
      · exact hf.maxFinite_lt
  · obtain ⟨hle, hmag⟩ := hf.magOf_codeAt_finite neg mode hm hlt hx ho
    rw [if_neg ho]
    refine ⟨rounds_at hl hu ?_, signBit_add_lt neg hf.w_pos (hle.trans_lt hf.maxFinite_lt)⟩
    dsimp only
    rw [if_neg ho]
    refine ⟨hmag ▸ hf.isNum_code neg hle, ?_⟩
    simp only [roundTo_inexact f neg mode hlt hx, ← nearAt_top_lt_iff f neg mode hm hlt hx, decide_eq_true_eq, ne_eq, ite_not]

theorem delivers_inf (mode : Nat) (neg sat : Bool) :
    Delivers f mode sat (.inf neg) (infTo f neg sat).1 (infTo f neg sat).2 ∧ (infTo f neg sat).1 < 2 ^ f.w := by
  rw [Delivers, infTo]
  by_cases h : (f.spec == .ieee && !sat) = true
  · simp only [Bool.and_eq_true, beq_iff_eq, Bool.not_eq_true'] at h
    obtain ⟨hs, rfl⟩ := h
    have hi := hf.ieee_of_spec hs
    simpa [hs] using ⟨hi.isInf_infPat neg, signBit_add_lt neg hf.w_pos hi.infPat_lt⟩
  · have hn : (f.spec != .ieee || sat) = true := by
      rw [bne]
      revert h
      generalize (f.spec == .ieee) = b
      cases b <;> cases sat <;> decide
    rw [if_neg h, if_pos hn]
    exact ⟨⟨hf.maxRat_eq ▸ hf.isNum_code neg le_rfl, rfl⟩, signBit_add_lt neg hf.w_pos hf.maxFinite_lt⟩

theorem fits_fdec (p : Nat) : (fdec f p).Fits := by
  match h : fdec f p with
  | .nan .. | .inf _ => trivial
  | .num _ m _ => exact lt_two_pow_mono (hf.fdec_num_bounds _ h).1 (by decide)

/-- An exact value that is no NaN is delivered by its law. -/
theorem delivers {mode : Nat} (sat : Bool) (hmode : mode < 4) {x : FV} (hx : x.isNaN = false) (hfits : x.Fits) :
    Delivers f mode sat x.exact (deliver f x mode sat).1 (deliver f x mode sat).2 ∧ (deliver f x mode sat).1 < 2 ^ f.w := by
  match x with
  | .inf neg => exact hf.delivers_inf mode neg sat
  | .num neg m e => exact hf.rounds_rnd sat hmode hfits (abs_exact neg m e)

/-! ## NaNs delivered (R141) -/

/-- A NaN of one format delivered in another. -/
theorem nanTo_spec {g : Fmt} {q : Nat} (neg : Bool) (hneg : signOf g q = neg) (n : Nat) (hn : n = g.fb) :
    NaNTo g f q (nanTo f neg (fracOf g q) n).1 ∧ (nanTo f neg (fracOf g q) n).1 < 2 ^ f.w ∧
      (nanTo f neg (fracOf g q) n).2 = if f.spec == .e2m1 then 1#5 else 0 := by
  subst hn
  cases hf with
  | e4m3 =>
    have hlt : 127 < 2 ^ (E4M3.w - 1) := by decide
    refine ⟨⟨?_, (signOf_code neg hlt).trans hneg.symm⟩, signBit_add_lt neg (by decide) hlt, rfl⟩
    change (signBit E4M3 neg + 127) % 128 = 127
    cases neg <;> rfl
  | e2m1 => exact ⟨rfl, Nat.two_pow_pos 4, rfl⟩
  | ieee hf =>
    have hfrac : fracOf g q < 2 ^ g.fb := Nat.mod_lt _ (Nat.two_pow_pos _)
    generalize hu : (if f.fb ≤ g.fb then fracOf g q / 2 ^ (g.fb - f.fb) else fracOf g q * 2 ^ (f.fb - g.fb)) = u
    have hlt : u < 2 ^ f.fb := by
      rw [← hu]
      split
      · next h => exact Nat.div_lt_of_lt_mul (by rwa [← pow_add, Nat.sub_add_cancel h])
      · next h =>
        calc fracOf g q * 2 ^ (f.fb - g.fb) < 2 ^ g.fb * 2 ^ (f.fb - g.fb) := Nat.mul_lt_mul_of_pos_right hfrac (Nat.two_pow_pos _)
          _ = 2 ^ f.fb := by rw [← pow_add, Nat.add_sub_cancel' (by omega)]
    -- the pattern of this sign that holds the delivered fraction, whose own NaN the delivered one is
    have hcode : u < 2 ^ (f.w - 1) := lt_two_pow_mono hlt (by have := hf.width; omega)
    have hsign := signOf_code neg hcode
    have hpay : fracOf f (signBit f neg + u) = u := (fracOf_code neg hf.fb_lt).trans (Nat.mod_eq_of_lt hlt)
    obtain ⟨hto, hlt', hfl⟩ := hf.nanTo_self neg hsign
    have hself : nanTo f neg (fracOf g q) g.fb = nanTo f neg (fracOf f (signBit f neg + u)) f.fb := by
      simp only [nanTo, hf.spec, hpay, hu, le_refl, if_true, Nat.sub_self, pow_zero, Nat.div_one]
    rw [NaNTo, hf.spec] at hto
    obtain ⟨h1, h2, h3⟩ := hto
    rw [hself, hfl, hf.spec]
    refine ⟨?_, hlt', rfl⟩
    rw [NaNTo, hf.spec]
    refine ⟨h1, h2.trans (hsign.trans hneg.symm), h3.trans ?_⟩
    rw [hpay, hu]
    simp

/-- A pattern converted by delivering its value (R145, R166). -/
theorem converts_deliver {g : Fmt} (hg : Known g) {mode : Nat} (sat : Bool) (hmode : mode < 4) (q : Nat) :
    Converts g f mode sat q (deliver f (fdec g q) mode sat).1 (deliver f (fdec g q) mode sat).2 ∧ (deliver f (fdec g q) mode sat).1 < 2 ^ f.w := by
  rw [Converts]
  cases hq : isNaN g q with
  | true =>
    obtain ⟨hto, hlt, hfl⟩ := hf.nanTo_spec (g := g) _ (q := q) rfl g.fb rfl
    rw [hg.fdec_eq, if_pos hq, deliver, if_pos rfl]
    refine ⟨⟨hto, ?_⟩, hlt⟩
    dsimp only
    rw [hfl]
    cases hs : isSNaN g q <;> cases hb : f.spec == .e2m1 <;> simp [nvOf, hs, NV]
  | false =>
    have hdel := hf.delivers sat hmode ((hg.isNaN_fdec q).trans hq) (hg.fits_fdec q)
    rw [hg.exact_fdec hq] at hdel
    rwa [if_neg Bool.false_ne_true]

/-- The first NaN of a list of operands is delivered quiet, with NV where one of them signals (R141). -/
theorem nanOf_some {g : Fmt} (hg : Known g) (hspec : f.spec ≠ .e2m1) {q : Nat} {l : List Nat} (h : first? (isNaN g) l = some q) :
    ∃ p, nanOf f (l.map (fdec g)) = some (p, nvOf g l) ∧ NaNTo g f q p ∧ p < 2 ^ f.w := by
  obtain ⟨hto, hlt, hfl⟩ := hf.nanTo_spec (g := g) _ (q := q) rfl g.fb rfl
  have hany : (l.map (fdec g)).any FV.isSNaN = l.any (isSNaN g) := by
    rw [List.any_map, show FV.isSNaN ∘ fdec g = isSNaN g from funext hg.isSNaN_fdec]
  refine ⟨_, ?_, hto, hlt⟩
  rw [nanOf, hg.first?_isNaN, h, Option.map_some, hg.fdec_eq, if_pos (first?_some h)]
  dsimp only
  rw [hany, hfl, if_neg (show ¬ (f.spec == .e2m1) = true by simpa using hspec), nvOf]
  cases l.any (isSNaN g) <;> rfl

theorem nanOf_none {g : Fmt} {l : List Nat} (h : first? (isNaN f) l = none) : nanOf g (l.map (fdec f)) = none := by
  rw [nanOf, hf.first?_isNaN, h]
  rfl

end Known

/-- Only formats with NaNs have operands that are NaNs. -/
theorem spec_ne_of_isNaN {f : Fmt} {q : Nat} (h : isNaN f q = true) : f.spec ≠ .e2m1 := by
  intro hs
  rw [isNaN, isSpecial, hs] at h
  exact Bool.false_ne_true h

/-! ## Sums and products as exact values (R140, R159) -/

/-- An exact value delivered, or an invalid operation. -/
def finish (f : Fmt) (mode : Nat) : Option FV → Nat × BitVec 5
  | none => invalid f
  | some z => deliver f z mode false

/-- The exact sum of two values that are no NaN, a zero with R140's sign; none for infinities of both signs. -/
def sumFV (mode : Nat) : FV → FV → Option FV
  | .inf a, .inf b => if a = b then some (.inf a) else none
  | .inf a, _ => some (.inf a)
  | _, .inf b => some (.inf b)
  | .num n1 m1 e1, .num n2 m2 e2 =>
    let e0 := min e1 e2
    let v := atExp n1 m1 e1 e0 + atExp n2 m2 e2 e0
    some (.num (if v = 0 then zeroSign n1 n2 (m1 = 0) (m2 = 0) mode else v < 0) v.natAbs e0)
  | _, _ => none

/-- The model's sum delivers the exact sum, rounded once. -/
theorem addFV_eq_finish (f : Fmt) (mode : Nat) {x y : FV} (hx : x.isNaN = false) (hy : y.isNaN = false) :
    addFV f x y mode = finish f mode (sumFV mode x y) := by
  match x, y with
  | .inf a, .inf b =>
    simp only [addFV, sumFV]
    split <;> rfl
  | .inf a, .num .. | .num .., .inf b => rfl
  | .num n1 m1 e1, .num n2 m2 e2 =>
    simp only [addFV, sumFV, finish, deliver, min_def]
    generalize atExp n1 m1 e1 _ + atExp n2 m2 e2 _ = v
    by_cases hv : v = 0
    · simp [hv, rnd]
    · simp [hv]

/-- An integer of units as an exact number; a zero has the sign it is given. -/
theorem exact_ofInt (v e : Int) (z : Bool) : (FV.num (if v = 0 then z else v < 0) v.natAbs e).exact =
    .num (if (v : ℚ) * 2 ^ e = 0 then z else decide ((v : ℚ) * 2 ^ e < 0)) (v * 2 ^ e) := by
  have hpos : (0 : ℚ) < 2 ^ e := by positivity
  have hz : (v : ℚ) * 2 ^ e = 0 ↔ v = 0 := by simp [hpos.ne']
  have hneg : (v : ℚ) * 2 ^ e < 0 ↔ v < 0 := by
    rw [← Int.cast_lt_zero (R := ℚ)]
    exact ⟨fun h => neg_of_mul_neg_left h hpos.le, fun h => mul_neg_of_neg_of_pos h hpos⟩
  simp only [FV.exact, hz, hneg]
  congr 1
  rcases lt_trichotomy v 0 with h | rfl | h
  · have : ((v.natAbs : Int) : ℚ) = -v := by rw [Int.ofNat_natAbs_of_nonpos h.le, Int.cast_neg]
    rw [Int.cast_natCast] at this
    simp [h.ne, h, this]
  · simp
  · have : ((v.natAbs : Int) : ℚ) = v := by rw [Int.natAbs_of_nonneg h.le]
    rw [Int.cast_natCast] at this
    simp [h.ne', h.not_gt, this]

theorem exact_sumNum {n1 n2 : Bool} {m1 m2 : Nat} {e1 e2 : Int} (mode : Nat) :
    (sumFV mode (.num n1 m1 e1) (.num n2 m2 e2)).map FV.exact = (FV.num n1 m1 e1).exact.add mode (FV.num n2 m2 e2).exact := by
  have hx1 := atExp_eq n1 m1 (min_le_left e1 e2)
  have hx2 := atExp_eq n2 m2 (min_le_right e1 e2)
  have hz1 := signed_eq_zero n1 m1 e1
  have hz2 := signed_eq_zero n2 m2 e2
  simp only [sumFV, Option.map_some, exact_ofInt]
  simp only [FV.exact, Exact.add]
  generalize (if n1 then -1 else 1) * ((m1 : ℚ) * 2 ^ e1) = x1 at *
  generalize (if n2 then -1 else 1) * ((m2 : ℚ) * 2 ^ e2) = x2 at *
  have hsum : ((atExp n1 m1 e1 (min e1 e2) + atExp n2 m2 e2 (min e1 e2) : Int) : ℚ) * 2 ^ min e1 e2 = x1 + x2 := by
    rw [← hx1, ← hx2, Int.cast_add, add_mul]
  rw [hsum]
  by_cases h0 : x1 + x2 = 0
  · have hboth : m2 = 0 ↔ m1 = 0 := by
      rw [← hz1, ← hz2]
      constructor <;> intro h <;> linarith
    simp only [h0, if_true, zeroSign, hz1, hboth, Bool.and_assoc, Bool.and_self]
  · simp only [h0, if_false]

/-- The exact sum is R159's. -/
theorem exact_sumFV (mode : Nat) {x y : FV} (hx : x.isNaN = false) (hy : y.isNaN = false) :
    (sumFV mode x y).map FV.exact = x.exact.add mode y.exact := by
  match x, y with
  | .inf a, .inf b =>
    simp only [sumFV, FV.exact, Exact.add]
    split <;> rfl
  | .inf a, .num .. | .num .., .inf b => rfl
  | .num .., .num .. => exact exact_sumNum mode

/-- The exact product is R159's. -/
theorem exact_mulFV {x y : FV} (hx : x.isNaN = false) (hy : y.isNaN = false) : (mulFV x y).map FV.exact = x.exact.mul y.exact := by
  match x, y with
  | .inf a, .inf b => rfl
  | .inf a, .num n m e | .num n m e, .inf a =>
    simp only [mulFV, FV.exact, Exact.mul, signed_eq_zero]
    split <;> rfl
  | .num n1 m1 e1, .num n2 m2 e2 =>
    simp only [mulFV, FV.exact, Exact.mul, Option.map_some, zpow_add₀ (two_ne_zero (α := ℚ))]
    congr 2
    cases n1 <;> cases n2 <;> push_cast <;> simp <;> ring

theorem exact_negate {x : FV} (hx : x.isNaN = false) : x.negate.exact = x.exact.neg := by
  match x with
  | .inf a => rfl
  | .num n m e => cases n <;> simp [FV.negate, FV.exact, Exact.neg]

theorem isNaN_negate (x : FV) : x.negate.isNaN = x.isNaN := by cases x <;> rfl

theorem small_negate {x : FV} (h : x.Small) : x.negate.Small := by cases x <;> exact h

/-- A sum of small values is a number, or an infinity, that the rounding's bit count reaches. -/
theorem sumFV_some {mode : Nat} {x y z : FV} (h : sumFV mode x y = some z) (hx : x.Small) (hy : y.Small) : z.isNaN = false ∧ z.Fits := by
  match x, y with
  | .inf a, .inf b =>
    simp only [sumFV] at h
    split at h <;> cases h
    exact ⟨rfl, trivial⟩
  | .inf a, .num .. | .num .., .inf b | .inf a, .nan .. | .nan .., .inf b =>
    cases h
    exact ⟨rfl, trivial⟩
  | .num n1 m1 e1, .num n2 m2 e2 =>
    obtain ⟨hm1, hl1, hu1⟩ := hx
    obtain ⟨hm2, hl2, hu2⟩ := hy
    cases h
    exact ⟨rfl, natAbs_add_lt (k := 8191) (natAbs_atExp_lt n1 hm1 (by omega)) (natAbs_atExp_lt n2 hm2 (by omega)) (by omega)⟩

/-- A value of the size that a decoded pattern has. -/
def FV.Tiny : FV → Prop
  | .num _ m e => m < 2 ^ 53 ∧ -1074 ≤ e ∧ e ≤ 1024
  | _ => True

theorem FV.Tiny.small {x : FV} (h : x.Tiny) : x.Small := by
  match x with
  | .nan .. | .inf _ => trivial
  | .num _ m e =>
    obtain ⟨hm, hl, hu⟩ := h
    exact ⟨lt_two_pow_mono hm (by decide), by omega, by omega⟩

theorem FV.Small.fits {x : FV} (h : x.Small) : x.Fits := by
  match x with
  | .nan .. | .inf _ => trivial
  | .num _ m e => exact lt_two_pow_mono h.1 (by decide)

theorem mulFV_some {x y z : FV} (h : mulFV x y = some z) (hx : x.Tiny) (hy : y.Tiny) : z.isNaN = false ∧ z.Small := by
  match x, y with
  | .inf a, .inf b =>
    cases h
    exact ⟨rfl, trivial⟩
  | .inf a, .num n m e | .num n m e, .inf a =>
    simp only [mulFV] at h
    split at h <;> cases h
    exact ⟨rfl, trivial⟩
  | .num n1 m1 e1, .num n2 m2 e2 =>
    obtain ⟨hm1, hl1, hu1⟩ := hx
    obtain ⟨hm2, hl2, hu2⟩ := hy
    cases h
    refine ⟨rfl, lt_two_pow_mono (k := 106) ?_ (by decide), by omega, by omega⟩
    exact (Nat.mul_lt_mul'' hm1 hm2).trans_eq (by norm_num)

/-- A sum that is invalid has an infinity on its right. -/
theorem sumFV_none {mode : Nat} {x y : FV} (h : sumFV mode x y = none) (hx : x.isNaN = false) (hy : y.isNaN = false) : ∃ s, y = .inf s := by
  match x, y with
  | _, .inf b => exact ⟨b, rfl⟩
  | .inf a, .num .. | .num .., .num .. => cases h

theorem mulFV_none {x y : FV} (h : mulFV x y = none) (hx : x.isNaN = false) (hy : y.isNaN = false) : ∃ s, x = .inf s ∨ y = .inf s := by
  match x, y with
  | _, .inf b => exact ⟨b, .inr rfl⟩
  | .inf a, _ => exact ⟨a, .inl rfl⟩
  | .num .., .num .. => cases h

/-! ## The floating sums and products of a lane (R159) -/

section
variable {f : Fmt} {op mode a b c : Nat} (hop : 3 ≤ op)
include hop

/-- A fused operation whose product has a NaN looks for the first NaN among all three operands. -/
theorem farith_fused_nan (h : ((fdec f a).isNaN || (fdec f b).isNaN) = true) :
    farith op f mode a b c = (nanOf f ([a, b, c].map (fdec f))).getD (invalid f) := by
  rw [farith, if_neg (by omega), if_neg (by omega), if_pos h]
  rfl

variable (h : ((fdec f a).isNaN || (fdec f b).isNaN) = false)
include h

theorem farith_fused_none (hm : mulFV (fdec f a) (fdec f b) = none) : farith op f mode a b c = invalid f := by
  rw [farith, if_neg (by omega), if_neg (by omega), if_neg (by simp [h]), hm]

theorem farith_fused_some {p : FV} (hm : mulFV (fdec f a) (fdec f b) = some p) :
    farith op f mode a b c = (nanOf f ([c].map (fdec f))).getD
      (addFV f (if op = 5 then p.negate else p) (if op = 4 then (fdec f c).negate else fdec f c) mode) := by
  rw [farith, if_neg (by omega), if_neg (by omega), if_neg (by simp [h]), hm, List.map_singleton]
  cases nanOf f [fdec f c] <;> rfl

end

namespace Known
variable {f : Fmt} (hf : Known f)
include hf

theorem tiny_fdec (p : Nat) : (fdec f p).Tiny := by
  match h : fdec f p with
  | .nan .. | .inf _ => trivial
  | .num .. => exact hf.fdec_num_bounds _ h

/-- Only a format with infinities decodes one. -/
theorem ieee_of_inf {p : Nat} {s : Bool} (h : fdec f p = .inf s) : Ieee f := by
  refine hf.ieee_of_spec ?_
  rw [hf.fdec_eq] at h
  split_ifs at h with h1 h2
  rw [isInf, isSpecial] at h2
  simp_all

/-- An exact result or an invalid operation, delivered. -/
theorem ends_finish {mode : Nat} (hmode : mode < 4) {z : Option FV} (hnone : z = none → Ieee f)
    (hsome : ∀ x, z = some x → x.isNaN = false ∧ x.Fits) : Ends f mode (z.map FV.exact) (finish f mode z) := by
  match z with
  | none => exact (hnone rfl).ends_invalid
  | some x =>
    obtain ⟨hx, hfits⟩ := hsome x rfl
    exact hf.delivers false hmode hx hfits

/-- The first NaN among a lane's own operands. -/
theorem nanOf_operand {q : Nat} {l : List Nat} (h : first? (isNaN f) l = some q) :
    ∃ p, nanOf f (l.map (fdec f)) = some (p, nvOf f l) ∧ NaNTo f f q p ∧ p < 2 ^ f.w :=
  hf.nanOf_some hf (spec_ne_of_isNaN (first?_some h)) h

section
variable {mode : Nat} (hmode : mode < 4)
include hmode

/-- The exact sum of two values of a lane, with the second one as it stands or negated. -/
theorem ends_sum (neg : Bool) {x : FV} (hx : x.isNaN = false) (hsx : x.Small) {b : Nat} (hb : isNaN f b = false) :
    Ends f mode (x.exact.add mode (if neg = true then (exactOf f b).neg else exactOf f b))
      (addFV f x (if neg = true then (fdec f b).negate else fdec f b) mode) := by
  have hy := (hf.isNaN_fdec b).trans hb
  have hinf {s : Bool} (h : (if neg = true then (fdec f b).negate else fdec f b) = .inf s) : Ieee f := by
    cases hdec : fdec f b with
    | inf t => exact hf.ieee_of_inf hdec
    | nan | num =>
      rw [hdec] at h
      cases neg <;> cases h
  have hexact : (if neg = true then (fdec f b).negate else fdec f b).exact = if neg = true then (exactOf f b).neg else exactOf f b := by
    rw [apply_ite FV.exact, exact_negate hy, hf.exact_fdec hb]
  have hy' : (if neg = true then (fdec f b).negate else fdec f b).isNaN = false := by
    rw [apply_ite FV.isNaN, isNaN_negate, ite_self, hy]
  have hsmall : (if neg = true then (fdec f b).negate else fdec f b).Small := by
    split
    · exact small_negate (hf.tiny_fdec b).small
    · exact (hf.tiny_fdec b).small
  rw [addFV_eq_finish f mode hx hy', ← hexact, ← exact_sumFV mode hx hy']
  exact hf.ends_finish hmode (fun h => (sumFV_none h hx hy').elim fun _ => hinf) fun z h => sumFV_some h hsx hsmall

/-- FADD and FSUB of one lane (R159). -/
theorem arith_sum {op : Nat} (hop : op < 2) (a b c c' : Nat) :
    Arith op f mode a b c' (farith op f mode a b c).1 (farith op f mode a b c).2 ∧ (farith op f mode a b c).1 < 2 ^ f.w := by
  have hr : farith op f mode a b c = (nanOf f ([a, b].map (fdec f))).getD
      (addFV f (fdec f a) (if decide (op = 1) = true then (fdec f b).negate else fdec f b) mode) := by
    cases h : nanOf f ([a, b].map (fdec f)) <;> simp_all [farith]
  have hl : (if op < 3 then [a, b] else [a, b, c']) = [a, b] := if_pos (by omega)
  rw [Arith, hl]
  cases ha : isNaN f a with
  | true =>
    obtain ⟨p, hp, hto, hlt⟩ := hf.nanOf_operand (q := a) (l := [a, b]) (by simp [first?, ha])
    rw [hr, hp]
    exact ⟨⟨hto, rfl⟩, hlt⟩
  | false =>
    cases hb : isNaN f b with
    | true =>
      obtain ⟨p, hp, hto, hlt⟩ := hf.nanOf_operand (q := b) (l := [a, b]) (by simp [first?, ha, hb])
      rw [hr, hp]
      exact ⟨⟨hto, rfl⟩, hlt⟩
    | false =>
      have h := hf.ends_sum hmode (decide (op = 1)) ((hf.isNaN_fdec a).trans ha) (hf.tiny_fdec a).small hb
      rw [hf.exact_fdec ha] at h
      rw [hr, hf.nanOf_none (by simp [first?, ha, hb])]
      simp only [Bool.false_eq_true, if_false, if_pos hop]
      simp only [decide_eq_true_eq] at h ⊢
      exact h

omit hmode in
/-- The exact product of two values of a lane. -/
theorem mulFV_fdec {a b : Nat} (ha : isNaN f a = false) (hb : isNaN f b = false) :
    (mulFV (fdec f a) (fdec f b)).map FV.exact = (exactOf f a).mul (exactOf f b) ∧ (mulFV (fdec f a) (fdec f b) = none → Ieee f) ∧
      ∀ z, mulFV (fdec f a) (fdec f b) = some z → z.isNaN = false ∧ z.Small := by
  have hx := (hf.isNaN_fdec a).trans ha
  have hy := (hf.isNaN_fdec b).trans hb
  refine ⟨?_, fun h => ?_, fun z h => mulFV_some h (hf.tiny_fdec a) (hf.tiny_fdec b)⟩
  · rw [exact_mulFV hx hy, hf.exact_fdec ha, hf.exact_fdec hb]
  · obtain ⟨s, hs | hs⟩ := mulFV_none h hx hy
    · exact hf.ieee_of_inf hs
    · exact hf.ieee_of_inf hs

/-- FMUL of one lane (R159). -/
theorem arith_product (a b c c' : Nat) :
    Arith 2 f mode a b c' (farith 2 f mode a b c).1 (farith 2 f mode a b c).2 ∧ (farith 2 f mode a b c).1 < 2 ^ f.w := by
  have hr : farith 2 f mode a b c = (nanOf f ([a, b].map (fdec f))).getD (finish f mode (mulFV (fdec f a) (fdec f b))) := by
    cases h : nanOf f ([a, b].map (fdec f)) <;> cases h' : mulFV (fdec f a) (fdec f b) <;> simp_all [farith, finish]
  rw [Arith]
  cases ha : isNaN f a with
  | true =>
    obtain ⟨p, hp, hto, hlt⟩ := hf.nanOf_operand (q := a) (l := [a, b]) (by simp [first?, ha])
    rw [hr, hp]
    exact ⟨⟨hto, rfl⟩, hlt⟩
  | false =>
    cases hb : isNaN f b with
    | true =>
      obtain ⟨p, hp, hto, hlt⟩ := hf.nanOf_operand (q := b) (l := [a, b]) (by simp [first?, ha, hb])
      rw [hr, hp]
      exact ⟨⟨hto, rfl⟩, hlt⟩
    | false =>
      obtain ⟨hexact, hnone, hsome⟩ := hf.mulFV_fdec ha hb
      have h := hf.ends_finish hmode hnone fun z hz => ⟨(hsome z hz).1, (hsome z hz).2.fits⟩
      rw [hr, hf.nanOf_none (by simp [first?, ha, hb]), ← hexact]
      cases hm : mulFV (fdec f a) (fdec f b) with
      | none =>
        rw [hm] at h
        exact h
      | some z =>
        rw [hm] at h
        exact h

/-- FMA, FMS and FNMA of one lane (R159). -/
theorem arith_fused {op : Nat} (hop : 3 ≤ op) (a b c : Nat) :
    Arith op f mode a b c (farith op f mode a b c).1 (farith op f mode a b c).2 ∧ (farith op f mode a b c).1 < 2 ^ f.w := by
  have h2 : ¬ op < 2 := by omega
  have h3 : ¬ op = 2 := by omega
  have hl : (if op < 3 then [a, b] else [a, b, c]) = [a, b, c] := if_neg (by omega)
  have hx := hf.isNaN_fdec a
  have hy := hf.isNaN_fdec b
  rw [Arith, hl]
  simp only [h2, h3, if_false]
  cases ha : isNaN f a with
  | true =>
    obtain ⟨p, hp, hto, hlt⟩ := hf.nanOf_operand (q := a) (l := [a, b, c]) (by simp [first?, ha])
    rw [farith_fused_nan hop (by simp [hx, ha]), hp]
    exact ⟨⟨hto, rfl⟩, hlt⟩
  | false =>
    cases hb : isNaN f b with
    | true =>
      obtain ⟨p, hp, hto, hlt⟩ := hf.nanOf_operand (q := b) (l := [a, b, c]) (by simp [first?, ha, hb])
      rw [farith_fused_nan hop (by simp [hy, hb]), hp]
      exact ⟨⟨hto, rfl⟩, hlt⟩
    | false =>
      have hn : ((fdec f a).isNaN || (fdec f b).isNaN) = false := by rw [hx, hy, ha, hb]; rfl
      obtain ⟨hexact, hnone, hsome⟩ := hf.mulFV_fdec ha hb
      rw [← hexact]
      cases hm : mulFV (fdec f a) (fdec f b) with
      | none =>
        rw [farith_fused_none hop hn hm]
        exact (hnone hm).ends_invalid (mode := mode)
      | some p =>
        obtain ⟨hp, hsmall⟩ := hsome p hm
        rw [farith_fused_some hop hn hm]
        cases hc : isNaN f c with
        | true =>
          obtain ⟨q, hq, hto, hlt⟩ := hf.nanOf_operand (q := c) (l := [c]) (by simp [first?, hc])
          rw [hq]
          exact ⟨⟨hto, rfl⟩, hlt⟩
        | false =>
          have hp' : (if op = 5 then p.negate else p).isNaN = false := by rw [apply_ite FV.isNaN, isNaN_negate, ite_self, hp]
          have hs' : (if op = 5 then p.negate else p).Small := by
            split
            · exact small_negate hsmall
            · exact hsmall
          have h := hf.ends_sum hmode (decide (op = 4)) hp' hs' hc
          rw [apply_ite FV.exact, exact_negate hp] at h
          simp only [decide_eq_true_eq] at h
          rw [hf.nanOf_none (by simp [first?, hc])]
          exact h

end

end Known

end Sys2Proof.Machine
end

section
/-! Lanes (R134, R137, R160, R166): the lanes of a result put together in VAL, and the operations that a packed type does in each lane by
itself. -/

namespace Sys2Proof.Machine

open Sys2Proof Sys2Proof.Safety

/-! ## The lanes of a word (R137) -/

theorem known_fmtAt (ty : Nat) : Known (fmtAt ty) := by
  unfold fmtAt
  split_ifs
  · exact .ieee ieee_F64
  · exact known_of_mem (f := B16) (by decide)
  · exact known_of_mem (f := F16) (by decide)
  · exact .e4m3
  · exact known_of_mem (f := E5M2) (by decide)
  · exact .e2m1
  · exact .ieee ieee_F32

theorem lanesOf_eq_lanesAt (ty : BitVec 4) : lanesOf ty.toNat = lanesAt ty.toNat := by
  revert ty
  decide

/-- The bits of VAL that a type's lanes fill (R134, R137). -/
def filled (ty : Nat) : Nat := if ty = 8 then 32 else 64

theorem width_mul_lanes {ty : BitVec 4} (h : 8 ≤ ty.toNat) : (fmtAt ty.toNat).w * lanesAt ty.toNat = filled ty.toNat := by
  revert ty
  decide

/-- A result of a type's lanes is held in VAL as it is (R134). -/
theorem extend_toNat_of_lt {ty n : Nat} (h : 8 ≤ ty) (hn : n < 2 ^ filled ty) : (extend ty n).toNat = n := by
  have hwrap (k : Nat) : wrap k (n : Int) = n % 2 ^ k := by rw [wrap]; norm_cast
  rw [extend, if_neg (by omega), if_neg (by omega), hwrap, hwrap]
  by_cases h8 : ty = 8
  · subst h8
    change n < 2 ^ 32 at hn
    simp
    omega
  · rw [filled, if_neg h8] at hn
    rw [if_neg h8]
    simp
    omega

section
variable (w : Nat)

theorem joinLanes_lt (l : List (Nat × BitVec 5)) : (joinLanes w l).1 < 2 ^ (w * l.length) := by
  induction l with
  | nil => exact Nat.one_pos
  | cons r l ih =>
    have hr : r.1 % 2 ^ w < 2 ^ w := Nat.mod_lt _ (Nat.two_pow_pos _)
    have := Nat.mul_le_mul_left (2 ^ w) (Nat.succ_le_of_lt ih)
    rw [Nat.mul_succ] at this
    rw [joinLanes, List.length_cons, Nat.mul_succ, Nat.add_comm (w * _), pow_add]
    dsimp only
    omega

/-- Lane j of joined lanes. -/
theorem joinLanes_lane (l : List (Nat × BitVec 5)) {j : Nat} (hj : j < l.length) : (joinLanes w l).1 / 2 ^ (w * j) % 2 ^ w = l[j].1 % 2 ^ w := by
  induction l generalizing j with
  | nil => exact absurd hj (Nat.not_lt_zero _)
  | cons r l ih =>
    have hr : r.1 % 2 ^ w < 2 ^ w := Nat.mod_lt _ (Nat.two_pow_pos _)
    rw [joinLanes]
    cases j with
    | zero => simp
    | succ j =>
      have hdiv : (r.1 % 2 ^ w + 2 ^ w * (joinLanes w l).1) / 2 ^ w = (joinLanes w l).1 := by
        rw [Nat.add_mul_div_left _ _ (Nat.two_pow_pos _), Nat.div_eq_of_lt hr, Nat.zero_add]
      dsimp only
      rw [Nat.mul_succ, Nat.add_comm (w * j), pow_add, ← Nat.div_div_eq_div_mul, hdiv]
      exact ih (Nat.lt_of_succ_lt_succ hj)

theorem joinLanes_flags (l : List (Nat × BitVec 5)) : (joinLanes w l).2 = (l.map Prod.snd).foldr (· ||| ·) 0 := by
  induction l with
  | nil => rfl
  | cons r l ih => rw [joinLanes, List.map_cons, List.foldr_cons, ← ih]

end

section
variable {ty : BitVec 4} (h : 8 ≤ ty.toNat) {n : Nat} (hn : n ≤ lanesAt ty.toNat) (r : Nat → Nat × BitVec 5)
include h hn

/-- Joined lanes of a type fit VAL, which holds them as they are (R134, R137). -/
theorem extend_join_toNat : (extend ty.toNat (joinLanes (fmtAt ty.toNat).w ((List.range n).map r)).1).toNat =
      (joinLanes (fmtAt ty.toNat).w ((List.range n).map r)).1 ∧
    (joinLanes (fmtAt ty.toNat).w ((List.range n).map r)).1 < 2 ^ ((fmtAt ty.toNat).w * n) := by
  have hlt := joinLanes_lt (fmtAt ty.toNat).w ((List.range n).map r)
  rw [List.length_map, List.length_range] at hlt
  refine ⟨extend_toNat_of_lt h ?_, hlt⟩
  rw [← width_mul_lanes h]
  exact lt_two_pow_mono hlt (Nat.mul_le_mul_left _ hn)

/-- A lane of VAL is the lane that was put there. -/
theorem laneAt_extend_join {j : Nat} (hj : j < n) :
    laneAt (fmtAt ty.toNat) (extend ty.toNat (joinLanes (fmtAt ty.toNat).w ((List.range n).map r)).1) j = (r j).1 % 2 ^ (fmtAt ty.toNat).w := by
  rw [laneAt, (extend_join_toNat h hn r).1, joinLanes_lane _ _ (by simpa using hj), List.getElem_map, List.getElem_range]

/-- The lanes of a result, each by its law, and nothing above them (R134, R137). -/
theorem eachLane_join {law : Nat → Nat → BitVec 5 → Prop} (hr : ∀ j < n, law j (r j).1 (r j).2 ∧ (r j).1 < 2 ^ (fmtAt ty.toNat).w) :
    EachLane (fmtAt ty.toNat) n law (packed ty.toNat (joinLanes (fmtAt ty.toNat).w ((List.range n).map r))).1
      (packed ty.toNat (joinLanes (fmtAt ty.toNat).w ((List.range n).map r))).2 := by
  obtain ⟨hval, hlt⟩ := extend_join_toNat h hn r
  rw [packed]
  refine ⟨fun j => (r j).2, fun j hj => ?_, fun j hj => ?_, ?_⟩
  · obtain ⟨hlaw, hrw⟩ := hr j hj
    rw [laneAt_extend_join h hn r hj, Nat.mod_eq_of_lt hrw]
    exact hlaw
  · refine Nat.testBit_lt_two_pow ?_
    rw [hval]
    exact lt_two_pow_mono hlt hj
  · rw [joinLanes_flags, List.map_map]
    rfl

end

theorem laneOf_eq_laneAt (f : Fmt) (j : Nat) (v : W64) : laneOf f.w j v.toNat = laneAt f v j := rfl

theorem laneAt_lt (f : Fmt) (v : W64) (j : Nat) : laneAt f v j < 2 ^ f.w := Nat.mod_lt _ (Nat.two_pow_pos _)

/-- An operation of a packed type acts in each lane by itself (R159). -/
theorem eachLane_lanewise {ty : BitVec 4} (h : 8 ≤ ty.toNat) {op : Fmt → Nat → Nat → Nat → Nat × BitVec 5} (a b c : Nat)
    {law : Nat → Nat → BitVec 5 → Prop}
    (hop : ∀ j, let f := fmtAt ty.toNat
      let r := op f (laneOf f.w j a) (laneOf f.w j b) (laneOf f.w j c)
      law j r.1 r.2 ∧ r.1 < 2 ^ f.w) :
    EachLane (fmtAt ty.toNat) (lanesAt ty.toNat) law (packed ty.toNat (lanewise ty.toNat op a b c)).1
      (packed ty.toNat (lanewise ty.toNat op a b c)).2 := by
  rw [lanewise, fmtOf_eq_fmtAt, lanesOf_eq_lanesAt]
  exact eachLane_join h le_rfl _ fun j _ => hop j

/-! ## Extremes and signs of a lane (R160) -/

namespace Known
variable {f : Fmt} (hf : Known f)
include hf

/-- FMIN and FMAX of one lane (R160). -/
theorem extreme_fminmax (mx : Bool) {a b : Nat} (ha : a < 2 ^ f.w) (hb : b < 2 ^ f.w) :
    Extreme mx f a b (fminmax mx f a b).1 (fminmax mx f a b).2 ∧ (fminmax mx f a b).1 < 2 ^ f.w := by
  have hfl : (if (isSNaN f a || isSNaN f b) = true then NV else 0) = nvOf f [a, b] := by
    simp only [nvOf, List.any_cons, List.any_nil, Bool.or_false]
    rfl
  rw [fminmax, Extreme]
  simp only [hf.isSNaN_fdec, hf.isNaN_fdec, hfl]
  cases na : isNaN f a with
  | true =>
    cases nb : isNaN f b with
    | true =>
      obtain ⟨p, hp, hto, hlt⟩ := hf.nanOf_operand (q := a) (l := [a]) (by simp [first?, na])
      rw [List.map_singleton] at hp
      rw [hp]
      exact ⟨⟨rfl, hto⟩, hlt⟩
    | false => exact ⟨⟨rfl, rfl⟩, hb⟩
  | false =>
    cases nb : isNaN f b with
    | true => exact ⟨⟨rfl, rfl⟩, ha⟩
    | false =>
      have hx := (hf.isNaN_fdec a).trans na
      have hy := (hf.isNaN_fdec b).trans nb
      simp only [fvLt_exact true hx hy, fvLt_exact true hy hx, hf.exact_fdec na, hf.exact_fdec nb]
      refine ⟨⟨trivial, ?_⟩, ?_⟩
      · cases mx <;> rfl
      · split_ifs <;> assumption

omit hf in
/-- FABS of one lane clears its sign (R160). -/
theorem fabs_eq (a : Nat) : a % 2 ^ (f.w - 1) = a &&& (2 ^ (f.w - 1) - 1) := (Nat.and_two_pow_sub_one_eq_mod ..).symm

/-- FNEG of one lane inverts its sign (R160). -/
theorem fneg_eq {a : Nat} (ha : a < 2 ^ f.w) :
    (if bit a (f.w - 1) = true then a - 2 ^ (f.w - 1) else a + 2 ^ (f.w - 1)) = a ^^^ 2 ^ (f.w - 1) := by
  have hw := hf.w_pos
  have hdbl := two_pow_double hw
  rw [bit_top hw ha]
  generalize f.w - 1 = k at *
  have hxor {r : Nat} (hr : r < 2 ^ k) : r ^^^ 2 ^ k = 2 ^ k + r := by
    rw [show 2 ^ k + r = 2 ^ k ||| r by simpa using Nat.two_pow_add_eq_or_of_lt hr 1]
    refine Nat.eq_of_testBit_eq fun i => ?_
    rw [Nat.testBit_xor, Nat.testBit_or, Nat.testBit_two_pow]
    by_cases hi : k = i
    · simp [← hi, Nat.testBit_lt_two_pow hr]
    · simp [hi]
  by_cases h : a < 2 ^ k
  · simp [h, hxor h, Nat.add_comm]
  · obtain ⟨r, rfl⟩ := Nat.exists_eq_add_of_le (not_lt.mp h)
    rw [if_pos (by simp), ← hxor (by omega), Nat.xor_assoc, Nat.xor_self, Nat.xor_zero, hxor (by omega)]
    omega

theorem fneg_lt {a : Nat} (ha : a < 2 ^ f.w) : (if bit a (f.w - 1) = true then a - 2 ^ (f.w - 1) else a + 2 ^ (f.w - 1)) < 2 ^ f.w := by
  rw [hf.fneg_eq ha]
  exact Nat.xor_lt_two_pow ha (Nat.pow_lt_pow_right one_lt_two (by have := hf.w_pos; omega))

end Known

end Sys2Proof.Machine
end

section
/-! Comparisons, classes, scaling and rounding to an integer (R161 to R164), and the numbers that a format holds exactly (R136). -/

namespace Sys2Proof.Machine

open Sys2Proof Sys2Proof.Safety

/-! ## Patterns by what they stand for (R136) -/

/-- What a pattern decodes to: a NaN, an infinity, or a number with its value. -/
inductive Decoded (f : Fmt) (a : Nat) : Prop where
  | nan (hnan : isNaN f a = true) (hdec : fdec f a = .nan (signOf f a) (fracOf f a) f.fb (isSNaN f a))
  | inf (hnan : isNaN f a = false) (hinf : isInf f a = true) (hdec : fdec f a = .inf (signOf f a))
  | num (hnan : isNaN f a = false) (hinf : isInf f a = false) (m : Nat) (e : Int) (hdec : fdec f a = .num (signOf f a) m e)
      (hrat : ratOf f a = (if signOf f a then -1 else 1) * (m * 2 ^ e))

namespace Known
variable {f : Fmt} (hf : Known f)
include hf

theorem decoded (a : Nat) : Decoded f a := by
  have hdec := hf.fdec_eq a
  cases hnan : isNaN f a with
  | true => exact .nan hnan (by rw [hdec, if_pos hnan])
  | false =>
    rw [if_neg (by simp [hnan])] at hdec
    cases hinf : isInf f a with
    | true => exact .inf hnan hinf (by rw [hdec, if_pos hinf])
    | false =>
      rw [if_neg (by simp [hinf])] at hdec
      have hrat : ratOf f a = (if signOf f a then -1 else 1) * _ := rfl
      split at hdec
      · next h0 =>
        rw [if_pos h0] at hrat
        exact .num hnan hinf _ _ hdec hrat
      · next h0 =>
        rw [if_neg h0, Nat.add_comm] at hrat
        exact .num hnan hinf _ _ hdec hrat

/-- A pattern of the format rounds to itself. -/
theorem rnd_fdec {a : Nat} (ha : a < 2 ^ f.w) {neg : Bool} {m : Nat} {e : Int} (h : fdec f a = .num neg m e) (mode : Nat) (sat : Bool) :
    rnd f neg m e mode sat = (a, 0) := by
  obtain ⟨hcode, hfin, hmag⟩ := hf.fdec_num neg ha h
  rw [hf.rnd_magOf neg mode sat (lt_two_pow_mono (hf.fdec_num_bounds neg h).1 (by decide)) hfin hmag, hcode]

end Known

theorem isNum_abs {f : Fmt} {a : Nat} (hnan : isNaN f a = false) (hinf : isInf f a = false) : IsNum f a (signOf f a) |ratOf f a| := by
  refine ⟨hinf, hnan, rfl, ?_⟩
  have hpos : (0 : ℚ) ≤ if expOf f a = 0 then (fracOf f a : ℚ) * 2 ^ (1 - (f.bias : Int) - f.fb)
      else ((2 ^ f.fb + fracOf f a : Nat) : ℚ) * 2 ^ ((expOf f a : Int) - f.bias - f.fb) := by split <;> positivity
  rw [ratOf]
  generalize (if expOf f a = 0 then _ else _ : ℚ) = y at *
  cases signOf f a <;> simp [abs_of_nonneg hpos]

/-! ## Numbers that a format with infinities holds exactly (R136) -/

/-- A multiple of the least step that fits the fraction and the bit above it is the magnitude of a code. -/
theorem exists_code (f : Fmt) {r : Nat} {q : Int} (hr : r < 2 ^ (f.fb + 1)) (hq : 1 - (f.bias : Int) - f.fb ≤ q) :
    ∃ c, magOf f c = r * 2 ^ q := by
  obtain ⟨n, rfl⟩ := Int.le.dest hq
  induction n generalizing r with
  | zero => exact ⟨_, magOf_codeAt f hq hr.le (.inl (by omega))⟩
  | succ n ih =>
    by_cases hbig : 2 ^ f.fb ≤ r
    · exact ⟨_, magOf_codeAt f hq hr.le (.inr hbig)⟩
    · obtain ⟨c, hc⟩ := ih (r := 2 * r) (by rw [pow_succ]; omega) (by omega)
      refine ⟨c, hc.trans ?_⟩
      rw [Nat.cast_succ, ← add_assoc, zpow_add_one₀ two_ne_zero]
      push_cast
      ring

namespace Ieee
variable {f : Fmt} (hf : Ieee f)
include hf

theorem magOf_infPat : magOf f (infPat f) = 2 ^ ((f.bias : Int) + 1) := by
  have hpos := Nat.two_pow_pos f.fb
  rw [magOf, infPat, Nat.mul_div_cancel _ hpos, Nat.mul_mod_left, if_neg (by rw [hf.expMax_eq]; omega), Nat.add_zero, natCast_two_pow_mul,
    hf.expMax_eq]
  congr 1
  push_cast
  ring

theorem code_le_of_lt {c : Nat} (h : magOf f c < 2 ^ ((f.bias : Int) + 1)) : c ≤ maxFinite f := by
  rw [← hf.magOf_infPat, (magOf_strictMono f).lt_iff_lt, infPat] at h
  rw [hf.maxFinite_eq]
  omega

/-- A number that fits a format's fraction and range is rounded to itself, without a flag. -/
theorem rnd_exact (neg : Bool) {r : Nat} {q : Int} (mode : Nat) (sat : Bool) (hr : r < 2 ^ (f.fb + 1)) (hq : 1 - (f.bias : Int) - f.fb ≤ q)
    (hlt : (r : ℚ) * 2 ^ q < 2 ^ ((f.bias : Int) + 1)) :
    ∃ p, rnd f neg r q mode sat = (p, 0) ∧ IsNum f p neg (r * 2 ^ q) ∧ p < 2 ^ f.w := by
  obtain ⟨c, hc⟩ := exists_code f hr hq
  have hfin := hf.code_le_of_lt (hc.trans_lt hlt)
  have hfb := hf.fb_le
  refine ⟨_, (Known.ieee hf).rnd_magOf neg mode sat (lt_two_pow_mono hr (by omega)) hfin hc, hc ▸ hf.isNum_code neg hfin, ?_⟩
  exact signBit_add_lt neg hf.w_pos (hfin.trans_lt hf.maxFinite_lt)

/-- An infinity's pattern. -/
theorem eq_of_isInf {a : Nat} (ha : a < 2 ^ f.w) (h : isInf f a = true) : signBit f (signOf f a) + infPat f = a := by
  have hlt : a % 2 ^ (f.w - 1) < 2 ^ (f.w - 1) := Nat.mod_lt _ (Nat.two_pow_pos _)
  have hcode := signBit_add_code hf.w_pos ha
  rw [isInf, Bool.and_eq_true, beq_iff_eq, ← hcode, hf.isSpecial_code _ hlt, decide_eq_true_eq, fracOf_code _ hf.fb_lt] at h
  obtain ⟨hexp, hfrac⟩ := h
  have hdiv := Nat.div_add_mod (a % 2 ^ (f.w - 1)) (2 ^ f.fb)
  rw [hexp, hfrac, Nat.add_zero, Nat.mul_comm] at hdiv
  rw [infPat, hdiv, hcode]

/-! ## Scaling, rounding to an integer and classes (R162 to R164) -/

/-- A NaN operand of a scalar instruction is delivered quiet. -/
theorem nanTo_quiet (a : Nat) :
    (NaNTo f f a (nanTo f (signOf f a) (fracOf f a) f.fb).1 ∧ (if isSNaN f a = true then NV else 0) = nvOf f [a]) ∧
      (nanTo f (signOf f a) (fracOf f a) f.fb).1 < 2 ^ f.w := by
  obtain ⟨hto, hlt, -⟩ := hf.nanTo_self (signOf f a) (p := a) rfl
  refine ⟨⟨hto, ?_⟩, hlt⟩
  simp only [nvOf, List.any_cons, List.any_nil, Bool.or_false]
  rfl

/-- FSCL (R164). -/
theorem scales_fscl {mode : Nat} (hmode : mode < 4) {a : Nat} (ha : a < 2 ^ f.w) (n : Int) :
    Scales f mode a n (fsclOp f mode a n).1 (fsclOp f mode a n).2 ∧ (fsclOp f mode a n).1 < 2 ^ f.w := by
  have hk := Known.ieee hf
  rw [Scales, fsclOp]
  cases hk.decoded a with
  | nan hnan hdec =>
    rw [hdec, if_pos hnan]
    exact hf.nanTo_quiet a
  | inf hnan hinf hdec =>
    have hpat : infTo f (signOf f a) false = (a, 0) := by simp [infTo, hf.spec, hf.eq_of_isInf ha hinf]
    rw [hdec, if_neg (by simp [hnan]), if_pos (by simp [hinf])]
    dsimp only
    rw [hpat]
    exact ⟨⟨rfl, rfl⟩, ha⟩
  | num hnan hinf m e hdec hrat =>
    have hlt := (hk.fdec_num_bounds _ hdec).1
    rw [hdec, if_neg (by simp [hnan])]
    dsimp only
    by_cases h0 : ratOf f a = 0
    · have hm : m = 0 := by rwa [hrat, signed_eq_zero] at h0
      have hpat := hk.rnd_fdec ha hdec mode false
      rw [rnd, if_pos hm] at hpat
      rw [if_pos (by simp [h0]), rnd, if_pos hm, hpat]
      exact ⟨⟨rfl, rfl⟩, ha⟩
    · rw [if_neg (by simp [h0, hinf])]
      refine hk.rounds_rnd false hmode (lt_two_pow_mono hlt (by decide)) ?_
      rw [hrat, abs_mul, abs_exact, abs_of_pos (by positivity), zpow_add₀ two_ne_zero, mul_assoc]

/-- FRND (R163): a number at or above 1 unit is integral already, and one below rounds to an integer that the format holds. -/
theorem toIntegral_frnd (hfb : f.fb ≤ f.bias) (mode : Nat) {a : Nat} (ha : a < 2 ^ f.w) :
    ToIntegral f mode a (frndOp f mode a).1 (frndOp f mode a).2 ∧ (frndOp f mode a).1 < 2 ^ f.w := by
  have hk := Known.ieee hf
  rw [ToIntegral, frndOp]
  cases hk.decoded a with
  | nan hnan hdec =>
    rw [hdec, if_pos hnan]
    exact hf.nanTo_quiet a
  | inf hnan hinf hdec =>
    have hpat : infTo f (signOf f a) false = (a, 0) := by simp [infTo, hf.spec, hf.eq_of_isInf ha hinf]
    rw [hdec, if_neg (by simp [hnan]), if_pos hinf]
    dsimp only
    rw [hpat]
    exact ⟨⟨rfl, rfl⟩, ha⟩
  | num hnan hinf m e hdec hrat =>
    have habs : |ratOf f a| = m * 2 ^ e := by rw [hrat, abs_exact]
    have hm := (hk.fdec_num_range _ hdec).1
    rw [hdec, if_neg (by simp [hnan]), if_neg (by simp [hinf])]
    dsimp only
    by_cases hint : (decide (0 ≤ e) || decide (m = 0)) = true
    · obtain ⟨n, hn⟩ : ∃ n : Int, |ratOf f a| = n := by
        rw [habs]
        simp only [Bool.or_eq_true, decide_eq_true_eq] at hint
        rcases hint with he | rfl
        · exact ⟨(m * 2 ^ e.toNat : Nat), by rw [two_zpow_toNat he]; push_cast; rfl⟩
        · exact ⟨0, by simp⟩
      have hnum := isNum_abs hnan hinf
      rw [hn] at hnum
      rw [if_pos hint, hn, roundInt_intCast, if_pos rfl]
      exact ⟨⟨hnum, rfl⟩, ha⟩
    · have he : e < 0 := by
        simp at hint
        exact hint.1
      obtain ⟨hround, hinexact⟩ := roundTo_eq (signOf f a) e 0 mode (lt_two_pow_mono hm (by have := hf.fb_le; omega))
      rw [zpow_zero, div_one, ← habs] at hround hinexact
      have hle : (roundTo (signOf f a) m e 0 mode).1 ≤ 2 ^ f.fb := by
        have hhalf : |ratOf f a| ≤ ((2 ^ f.fb : Nat) : Int) := by
          rw [habs, Int.cast_natCast]
          calc (m : ℚ) * 2 ^ e ≤ ((2 ^ (f.fb + 1) : Nat) : ℚ) * 2 ^ (-1 : Int) :=
                mul_le_mul (by exact_mod_cast hm.le) (zpow_le_zpow_right₀ one_le_two (by omega)) (by positivity) (by positivity)
            _ = (2 ^ f.fb : Nat) := by
                rw [pow_succ, Nat.cast_mul, zpow_neg_one, Nat.cast_two, mul_assoc, mul_inv_cancel₀ two_ne_zero, mul_one]
        exact_mod_cast hround ▸ roundInt_le_of_le hhalf
      have hbias : 2 ^ f.fb < 2 ^ (f.bias + 1) := Nat.pow_lt_pow_right one_lt_two (by omega)
      obtain ⟨p, hp, hnum, hlt⟩ := hf.rnd_exact (signOf f a) (r := (roundTo (signOf f a) m e 0 mode).1) (q := 0) 0 false
        (by rw [pow_succ]; have := Nat.two_pow_pos f.fb; omega) (by have := hf.bias_pos; omega)
        (by rw [zpow_zero, mul_one]; exact_mod_cast hle.trans_lt hbias)
      rw [zpow_zero, mul_one, ← Int.cast_natCast, hround] at hnum
      rw [if_neg hint, hp, hinexact]
      refine ⟨⟨hnum, ?_⟩, hlt⟩
      simp only [ne_eq, decide_not, Bool.not_eq_true', decide_eq_false_iff_not, ite_not]
      rfl

/-- FCLS (R162). -/
theorem fcls_eq (a : Nat) : BitVec.ofNat 64 (fclsOp f a) = 1#64 <<< classOf f a := by
  have hfrac : fracOf f a < 2 ^ f.fb := Nat.mod_lt _ (Nat.two_pow_pos _)
  rw [fclsOp, classOf, hf.fdec_eq]
  cases isNaN f a with
  | true => cases isSNaN f a <;> rfl
  | false =>
    cases isInf f a with
    | true => cases signOf f a <;> rfl
    | false =>
      by_cases hexp : expOf f a = 0
      · by_cases h0 : fracOf f a = 0
        · cases signOf f a <;> simp [hexp, h0]
        · cases signOf f a <;> simp [hexp, h0, hfrac]
      · cases signOf f a <;> simp [hexp]

end Ieee

/-! ## Comparison (R161) -/

theorem Exact.lt_asymm {x y : Exact} (h : x.lt false y = true) : y.lt false x = false := by
  match x, y with
  | .inf s, .inf t => revert h; cases s <;> cases t <;> decide
  | .inf s, .num .. | .num .., .inf s => revert h; cases s <;> simp [Exact.lt]
  | .num s x, .num t y =>
    simp only [Exact.lt, Bool.false_and, Bool.or_false, decide_eq_true_eq, decide_eq_false_iff_not] at h ⊢
    exact h.not_gt

/-- FCMP's relations, by the order of exact values (R158, R161). -/
theorem relation_exact (cc : Nat) {lt gt : Bool} (h : lt = true → gt = false) : relation cc lt (!lt && !gt) = (match cc with
    | 0 => !lt && !gt
    | 1 => lt || gt
    | 2 => lt
    | 3 => !gt
    | 4 => gt
    | _ => !lt) := by
  match cc with
  | 0 | 1 | 2 | 3 | 4 | _ + 5 => cases lt <;> cases gt <;> simp_all [relation]

theorem ofNat_ite (b : Bool) : BitVec.ofNat 64 (if b then 1 else 0) = if b then 1 else 0 := by cases b <;> rfl

/-- FCMP (R161). -/
theorem Known.compares_fcmp {f : Fmt} (hf : Known f) (cc a b : Nat) :
    Compares f cc a b (BitVec.ofNat 64 (fcmpOp cc f a b).1) (fcmpOp cc f a b).2 := by
  rw [Compares, fcmpOp]
  simp only [hf.isNaN_fdec, hf.isSNaN_fdec]
  by_cases hn : (isNaN f a || isNaN f b) = true
  · rw [if_pos hn, if_pos hn]
    have hnv : (if (isSNaN f a || isSNaN f b) = true then NV else 0) = nvOf f [a, b] := by
      simp only [nvOf, List.any_cons, List.any_nil, Bool.or_false]
      rfl
    match cc with
    | 0 | 1 => exact ⟨rfl, hnv⟩
    | cc + 2 =>
      rw [if_neg (by omega), if_neg (by omega), if_neg (by omega)]
      exact ⟨rfl, rfl⟩
  · rw [if_neg hn, if_neg hn]
    simp only [Bool.or_eq_true, not_or, Bool.not_eq_true] at hn
    obtain ⟨ha, hb⟩ := hn
    have hx := (hf.isNaN_fdec a).trans ha
    have hy := (hf.isNaN_fdec b).trans hb
    rw [fvLt_exact false hx hy, fvLt_exact false hy hx, hf.exact_fdec ha, hf.exact_fdec hb]
    refine ⟨?_, rfl⟩
    exact (congrArg (fun holds : Bool => BitVec.ofNat 64 (if holds then 1 else 0)) (relation_exact cc Exact.lt_asymm)).trans
      (ofNat_ite _)

end Sys2Proof.Machine
end

section
/-! The estimates FRSQ and FRCP (R165; log 122): the search for the nearest 12-bit significand, and the scaling of it, which is exact. -/

namespace Sys2Proof.Machine

open Sys2Proof Sys2Proof.Safety

/-! ## The search (R165) -/

/-- The significand n does not overshoot 1 / √m_c by half a unit or more, in the search's terms. -/
def NotAbove (d n : Nat) : Prop := n = 0 ∨ (2 * n - 1) ^ 2 * d ≤ 2 ^ 37

/-- The search ends at a significand that does not overshoot, whose successor does. -/
theorem sqrtSearch_spec {d k n : Nat} (h : NotAbove d n) (hn : ¬ NotAbove d (n + 2 ^ k)) :
    NotAbove d (sqrtSearch d k n) ∧ ¬ NotAbove d (sqrtSearch d k n + 1) := by
  induction k generalizing n with
  | zero => exact ⟨h, hn⟩
  | succ k ih =>
    have hpos := Nat.two_pow_pos k
    rw [sqrtSearch]
    split
    · next hle => exact ih (.inr hle) (by rwa [Nat.add_assoc, ← Nat.two_mul, ← pow_succ'])
    · next hgt => exact ih h fun hc => hc.elim (by omega) hgt

/-- The estimate of 1 / √m_c for a step's middle d / 2^11, with 1 ≤ m_c < 4. -/
theorem sqrtSearch_nearest {d : Nat} (hodd : Odd d) (hl : 2 ^ 11 < d) (hu : d < 2 ^ 13) : ∃ k, sqrtSearch d 13 0 = k + 1 ∧ k + 1 < 2 ^ 12 ∧
    (2 * k + 1) ^ 2 * d < 2 ^ 37 ∧ 2 ^ 37 < (2 * k + 3) ^ 2 * d := by
  obtain ⟨hin, hout⟩ := sqrtSearch_spec (d := d) (k := 13) (n := 0) (.inl rfl) (by simp only [NotAbove]; omega)
  simp only [NotAbove, not_or, not_le] at hin hout
  generalize sqrtSearch d 13 0 = n at *
  obtain ⟨-, hout⟩ := hout
  cases n with
  | zero => omega
  | succ k =>
    rw [show 2 * (k + 1 + 1) - 1 = 2 * k + 3 by omega] at hout
    have hle : (2 * k + 1) ^ 2 * d ≤ 2 ^ 37 := hin.resolve_left (by omega)
    have hne : (2 * k + 1) ^ 2 * d ≠ 2 ^ 37 := fun h => by
      have h2 : Odd ((2 * k + 1) ^ 2 * d) := (Odd.pow ⟨k, rfl⟩).mul hodd
      rw [h] at h2
      revert h2
      decide
    refine ⟨k, rfl, ?_, by omega, hout⟩
    by_contra hbig
    have hsq : 8191 ^ 2 ≤ (2 * k + 1) ^ 2 := Nat.pow_le_pow_left (by omega) 2
    have hmul : 8191 ^ 2 * 2049 ≤ (2 * k + 1) ^ 2 * d := Nat.mul_le_mul hsq (by omega)
    omega

/-- The estimate of 1 / m_c for a step's middle d / 2^11, with 1 ≤ m_c < 2. -/
theorem reciprocal_nearest {d : Nat} (hodd : Odd d) (hl : 2 ^ 11 < d) (hu : d < 2 ^ 12) : ∃ k, (2 ^ 24 + d) / (2 * d) = k + 1 ∧ k + 1 < 2 ^ 12 ∧
    (2 * k + 1) * d < 2 ^ 24 ∧ 2 ^ 24 < (2 * k + 3) * d := by
  have hdiv := Nat.div_add_mod (2 ^ 24 + d) (2 * d)
  have hmod := Nat.mod_lt (2 ^ 24 + d) (show 0 < 2 * d by omega)
  generalize (2 ^ 24 + d) / (2 * d) = n at *
  cases n with
  | zero => omega
  | succ k =>
    have e1 : (2 * k + 1) * d = 2 * d * (k + 1) - d := by
      rw [show 2 * d * (k + 1) = (2 * k + 1) * d + d by ring, Nat.add_sub_cancel]
    have e2 : (2 * k + 3) * d = 2 * d * (k + 1) + d := by ring
    have h1 : (2 * k + 1) * d ≤ 2 ^ 24 := by omega
    have h2 : 2 ^ 24 < (2 * k + 3) * d := by omega
    have hne : (2 * k + 1) * d ≠ 2 ^ 24 := fun h => by
      have h3 : Odd ((2 * k + 1) * d) := Odd.mul ⟨k, rfl⟩ hodd
      rw [h] at h3
      revert h3
      decide
    refine ⟨k, rfl, ?_, by omega, h2⟩
    by_contra hbig
    have hmul : 8191 * 2049 ≤ (2 * k + 1) * d := Nat.mul_le_mul (by omega) (by omega)
    omega

/-! ## Significands (R165) -/

/-- A nonzero magnitude with a significand of 24 bits. -/
theorem norm24_spec {m : Nat} (e : Int) (hm : m ≠ 0) (hlt : m < 2 ^ 24) :
    2 ^ 23 ≤ (norm24 m e).1 ∧ (norm24 m e).1 < 2 ^ 24 ∧ (m : ℚ) * 2 ^ e = (norm24 m e).1 * 2 ^ ((norm24 m e).2 - 23) ∧
      e ≤ (norm24 m e).2 ∧ (norm24 m e).2 ≤ e + 23 := by
  obtain ⟨hu, hl⟩ := bitLen_spec (lt_two_pow_mono hlt (by decide : 24 ≤ 64))
  have hl := hl hm
  simp only [norm24]
  generalize bitLen 64 m = l at *
  have hl24 : l ≤ 24 := by
    by_contra h
    have := Nat.pow_le_pow_right two_pos (show 25 ≤ l by omega)
    omega
  have hl1 : 1 ≤ l := by
    by_contra h
    obtain rfl : l = 0 := by omega
    omega
  have hfull : 2 ^ l * 2 ^ (24 - l) = 2 ^ 24 := by rw [← pow_add, Nat.add_sub_cancel' hl24]
  have h1 := Nat.mul_le_mul_right (2 ^ (24 - l)) hl
  have h2 := Nat.mul_lt_mul_of_pos_right hu (Nat.two_pow_pos (24 - l))
  rw [hfull] at h1 h2
  refine ⟨by rw [Nat.mul_assoc] at h1; omega, h2, ?_, by omega, by omega⟩
  have hexp : e = ((24 - l : Nat) : Int) + (e + l - 1 - 23) := by omega
  rw [Nat.cast_mul, mul_assoc, natCast_two_pow_mul, ← hexp]

/-- The middle of the step that holds a significand. -/
theorem midStep_div (mm : Nat) {k : Nat} (hk : 10 ≤ k) : midStep ((mm : ℚ) / 2 ^ k) = ((2 * (mm / 2 ^ (k - 10)) + 1 : Nat) : ℚ) / 2 ^ 11 := by
  have hstep : (mm : ℚ) / 2 ^ k * 2 ^ 10 = (mm : ℚ) / (2 ^ (k - 10) : Nat) := by
    have hpow : (2 : ℚ) ^ k = 2 ^ (k - 10) * 2 ^ 10 := by rw [← pow_add, Nat.sub_add_cancel hk]
    rw [hpow, Nat.cast_pow, Nat.cast_two]
    field_simp
  have hfloor : ⌊(mm : ℚ) / (2 ^ (k - 10) : Nat)⌋ = ((mm / 2 ^ (k - 10) : Nat) : Int) := by
    rw [Rat.floor_natCast_div_natCast, Int.natCast_div]
  rw [midStep, hstep, hfloor, Int.cast_natCast, Nat.cast_add, Nat.cast_mul]
  norm_num
  ring

/-! ## The two estimates (R165) -/

/-- A scaled estimate is an F32 number. -/
theorem rnd_estimate (neg : Bool) {n : Nat} {q : Int} (hn : n < 2 ^ 12) (hl : -149 ≤ q) (hu : q ≤ 116) :
    ∃ p, rnd F32 neg n q 0 false = (p, 0) ∧ IsNum F32 p neg (n * 2 ^ q) ∧ p < 2 ^ 32 := by
  refine ieee_F32.rnd_exact neg 0 false (lt_two_pow_mono hn (by decide)) hl ?_
  calc (n : ℚ) * 2 ^ q < ((2 ^ 12 : Nat) : ℚ) * 2 ^ q := mul_lt_mul_of_pos_right (by exact_mod_cast hn) (by positivity)
    _ = 2 ^ ((12 : Nat) + q) := natCast_two_pow_mul ..
    _ ≤ 2 ^ ((F32.bias : Int) + 1) := zpow_le_zpow_right₀ one_le_two (by change (12 : Int) + q ≤ 127 + 1; omega)

/-- A count of steps of 2^-10 from a significand, and the middle of its step in units of 2^-11. -/
theorem step_bounds {mm k j : Nat} (hk : 10 ≤ k) (hl : 2 ^ k ≤ mm) (hu : mm < 2 ^ (k + j)) :
    2 ^ 11 < 2 * (mm / 2 ^ (k - 10)) + 1 ∧ 2 * (mm / 2 ^ (k - 10)) + 1 < 2 ^ (11 + j) := by
  have hpos := Nat.two_pow_pos (k - 10)
  have h1 : 2 ^ 10 ≤ mm / 2 ^ (k - 10) := (Nat.le_div_iff_mul_le hpos).mpr (by rwa [← pow_add, Nat.add_sub_cancel' hk])
  have h2 : mm / 2 ^ (k - 10) < 2 ^ (10 + j) :=
    (Nat.div_lt_iff_lt_mul hpos).mpr (by rwa [← pow_add, show 10 + j + (k - 10) = k + j by omega])
  rw [show 11 + j = 10 + j + 1 by omega, pow_succ]
  omega

/-- What R165 says of FRSQ for a positive number, of a pattern p. -/
def IsRoot (x : ℚ) (p : Nat) : Prop :=
  ∃ (m : ℚ) (e : Int) (n : Nat), x = m * 2 ^ (2 * e) ∧ 1 ≤ m ∧ m < 4 ∧
    (2 * n - 1 : ℚ) ^ 2 * midStep m < 2 ^ 26 ∧ 2 ^ 26 < (2 * n + 1 : ℚ) ^ 2 * midStep m ∧ IsNum F32 p false ((n : ℚ) * 2 ^ (-12 - e))

/-- The search and the scaling, for a significand of k fraction bits with an even exponent. -/
theorem isRoot_search {mm k : Nat} {e : Int} (hk : 10 ≤ k) (hl : 2 ^ k ≤ mm) (hu : mm < 2 ^ (k + 2)) (hel : -128 ≤ e) (heu : e ≤ 137) :
    ∃ p, rnd F32 false (sqrtSearch (2 * (mm / 2 ^ (k - 10)) + 1) 13 0) (-12 - e) 0 false = (p, 0) ∧ p < 2 ^ 32 ∧
      IsRoot ((mm : ℚ) / 2 ^ k * 2 ^ (2 * e)) p := by
  obtain ⟨hdl, hdu⟩ := step_bounds hk hl hu
  obtain ⟨n, hn, hn12, hbelow, habove⟩ := sqrtSearch_nearest ⟨_, rfl⟩ hdl hdu
  obtain ⟨p, hp, hnum, hlt⟩ := rnd_estimate false hn12 (show -149 ≤ -12 - e by omega) (by omega)
  have hpos : (0 : ℚ) < 2 ^ k := by positivity
  refine ⟨p, by rw [hn, hp], hlt, (mm : ℚ) / 2 ^ k, e, n + 1, rfl, ?_, ?_, ?_, ?_, hnum⟩
  · rw [one_le_div hpos]
    exact_mod_cast hl
  · rw [div_lt_iff₀ hpos]
    rw [pow_add] at hu
    exact_mod_cast (by omega : mm < 4 * 2 ^ k)
  · have : (((2 * n + 1) ^ 2 * (2 * (mm / 2 ^ (k - 10)) + 1) : Nat) : ℚ) < (2 ^ 37 : Nat) := by exact_mod_cast hbelow
    rw [midStep_div mm hk, ← mul_div_assoc, div_lt_iff₀ (by positivity)]
    push_cast at this ⊢
    linarith
  · have : ((2 ^ 37 : Nat) : ℚ) < (((2 * n + 3) ^ 2 * (2 * (mm / 2 ^ (k - 10)) + 1) : Nat) : ℚ) := by exact_mod_cast habove
    rw [midStep_div mm hk, ← mul_div_assoc, lt_div_iff₀ (by positivity)]
    push_cast at this ⊢
    linarith

/-- The estimate of a nonzero magnitude by its normal form: an odd exponent leaves a significand from 2 to 4. -/
theorem isRoot_norm {m : Nat} {e : Int} (h0 : m ≠ 0) (hm : m < 2 ^ 24) (hel : -149 ≤ e) (heu : e ≤ 105) :
    ∃ p, (let (mm, ee) := norm24 m e
      let odd := ee % 2 ≠ 0
      let t := if odd then mm / 2 ^ 12 else mm / 2 ^ 13
      let e2 := if odd then ee - 1 else ee
      let q := sqrtSearch (2 * t + 1) 13 0
      ((rnd F32 false q (-12 - e2 / 2) 0 false).1, (0 : BitVec 5))) = (p, 0) ∧ p < 2 ^ 32 ∧ IsRoot (m * 2 ^ e) p := by
  obtain ⟨hmm, hmm', hx, hee, hee'⟩ := norm24_spec e h0 hm
  rw [hx]
  generalize norm24 m e = r at *
  obtain ⟨mm, ee⟩ := r
  dsimp only at *
  have hscale (k e' : Int) (he : ee - 23 = e' - k) : (mm : ℚ) * 2 ^ (ee - 23) = mm / 2 ^ k * 2 ^ e' := by
    rw [he, zpow_sub₀ two_ne_zero]
    ring
  by_cases hodd : ee % 2 ≠ 0
  · obtain ⟨p, hp, hlt, hroot⟩ := isRoot_search (mm := mm) (k := 22) (e := (ee - 1) / 2) (by decide) (by omega) (by omega) (by omega) (by omega)
    rw [if_pos hodd, if_pos hodd, hp, hscale 22 (2 * ((ee - 1) / 2)) (by omega)]
    exact ⟨p, rfl, hlt, hroot⟩
  · obtain ⟨p, hp, hlt, hroot⟩ := isRoot_search (mm := mm) (k := 23) (e := ee / 2) (by decide) hmm (by omega) (by omega) (by omega)
    rw [if_neg hodd, if_neg hodd, hp, hscale 23 (2 * (ee / 2)) (by omega)]
    exact ⟨p, rfl, hlt, hroot⟩

/-- A law of a result's pattern and flags. -/
theorem of_eq_pair {P : Nat → BitVec 5 → Prop} {r : Nat × BitVec 5} {p : Nat} {fl : BitVec 5} (hr : r = (p, fl)) (h : P p fl) : P r.1 r.2 := by
  rw [hr]
  exact h

/-- FRSQ (R165). -/
theorem rootEstimate_frsq (a : Nat) : RootEstimate a (frsqOp a).1 (frsqOp a).2 ∧ (frsqOp a).1 < 2 ^ 32 := by
  have hk := Known.ieee ieee_F32
  rw [RootEstimate, frsqOp]
  dsimp only
  rw [show fmtAt 8 = F32 from rfl]
  cases hk.decoded a with
  | nan hnan hdec =>
    rw [hdec, if_pos hnan]
    exact ieee_F32.nanTo_quiet a
  | inf hnan hinf hdec =>
    rw [hdec, if_neg (by simp [hnan]), if_pos hinf]
    cases signOf F32 a with
    | true => exact ⟨⟨rfl, rfl⟩, by decide⟩
    | false =>
      have hzero := hk.isNum_code false (Nat.zero_le _)
      rw [magOf_zero] at hzero
      exact ⟨⟨hzero, rfl⟩, by decide⟩
  | num hnan hinf m e hdec hrat =>
    obtain ⟨hm, hel, heu⟩ := hk.fdec_num_range _ hdec
    have habs : 0 ≤ (m : ℚ) * 2 ^ e := by positivity
    rw [hdec, if_neg (by simp [hnan]), if_neg (by simp [hinf])]
    dsimp only
    by_cases h0 : m = 0
    · rw [if_pos (by rw [hrat, signed_eq_zero, h0]), if_pos h0]
      exact ⟨⟨ieee_F32.isInf_infPat _, rfl⟩, signBit_add_lt _ (by decide) ieee_F32.infPat_lt⟩
    · have hpos : 0 < (m : ℚ) * 2 ^ e := by
        have : (0 : ℚ) < m := by exact_mod_cast Nat.pos_of_ne_zero h0
        positivity
      rw [if_neg (by rwa [hrat, signed_eq_zero]), if_neg h0]
      cases hs : signOf F32 a with
      | true =>
        rw [hs] at hrat
        rw [if_pos (by rw [hrat]; simpa using hpos), if_pos rfl]
        exact ⟨⟨rfl, rfl⟩, by decide⟩
      | false =>
        rw [hs, if_neg Bool.false_ne_true, one_mul] at hrat
        rw [if_neg (by rw [hrat]; exact not_lt.mpr habs), if_neg Bool.false_ne_true, hrat]
        obtain ⟨p, hp, hlt, hroot⟩ := isRoot_norm h0 hm hel heu
        exact of_eq_pair (P := fun p fl => (fl = 0 ∧ IsRoot (m * 2 ^ e) p) ∧ p < 2 ^ 32) hp ⟨⟨rfl, hroot⟩, hlt⟩

/-- What R165 says of FRCP for a nonzero number of a sign, of a pattern p and its flags. -/
def IsReciprocal (neg : Bool) (x : ℚ) (p : Nat) (fl : BitVec 5) : Prop :=
  ∃ (m : ℚ) (e : Int) (n : Nat), x = m * 2 ^ e ∧ 1 ≤ m ∧ m < 2 ∧
    (2 * n - 1 : ℚ) * midStep m < 2 ^ 13 ∧ 2 ^ 13 < (2 * n + 1 : ℚ) * midStep m ∧
    if e ≤ -129 then IsInf F32 p neg ∧ fl = 20#5 else IsNum F32 p neg ((n : ℚ) * 2 ^ (-12 - e)) ∧ fl = 0

/-- The quotient and the scaling of a nonzero magnitude by its normal form; a reciprocal of 2^128 or more overflows (log 122). -/
theorem isReciprocal_norm (neg : Bool) {m : Nat} {e : Int} (h0 : m ≠ 0) (hm : m < 2 ^ 24) (hel : -149 ≤ e) (heu : e ≤ 105) :
    ∃ p fl, (let (mm, ee) := norm24 m e
      let d := 2 * (mm / 2 ^ 13) + 1
      let q := (2 ^ 24 + d) / (2 * d)
      if ee ≤ -129 then (signBit F32 neg + infPat F32, OF ||| NX)
      else ((rnd F32 neg q (-12 - ee) 0 false).1, 0)) = (p, fl) ∧ p < 2 ^ 32 ∧ IsReciprocal neg (m * 2 ^ e) p fl := by
  obtain ⟨hmm, hmm', hx, hee, hee'⟩ := norm24_spec e h0 hm
  rw [hx]
  generalize norm24 m e = r at *
  obtain ⟨mm, ee⟩ := r
  dsimp only at *
  obtain ⟨hdl, hdu⟩ := step_bounds (k := 23) (j := 1) (by decide) hmm hmm'
  obtain ⟨n, hn, hn12, hbelow, habove⟩ := reciprocal_nearest ⟨_, rfl⟩ hdl hdu
  have hpos : (0 : ℚ) < 2 ^ 23 := by positivity
  have hscale : (mm : ℚ) * 2 ^ (ee - 23) = mm / 2 ^ 23 * 2 ^ ee := by
    rw [zpow_sub₀ two_ne_zero]
    norm_num
    ring
  have hsig (p : Nat) (fl : BitVec 5) (h : if ee ≤ -129 then IsInf F32 p neg ∧ fl = 20#5
      else IsNum F32 p neg (((n + 1 : Nat) : ℚ) * 2 ^ (-12 - ee)) ∧ fl = 0) : IsReciprocal neg (mm * 2 ^ (ee - 23)) p fl := by
    refine ⟨(mm : ℚ) / 2 ^ 23, ee, n + 1, hscale, ?_, ?_, ?_, ?_, h⟩
    · rw [one_le_div hpos]
      exact_mod_cast hmm
    · rw [div_lt_iff₀ hpos]
      exact_mod_cast hmm'
    · have : (((2 * n + 1) * (2 * (mm / 2 ^ (23 - 10)) + 1) : Nat) : ℚ) < (2 ^ 24 : Nat) := by exact_mod_cast hbelow
      rw [midStep_div mm (k := 23) (by decide), ← mul_div_assoc, div_lt_iff₀ (by positivity)]
      push_cast at this ⊢
      linarith
    · have : ((2 ^ 24 : Nat) : ℚ) < (((2 * n + 3) * (2 * (mm / 2 ^ (23 - 10)) + 1) : Nat) : ℚ) := by exact_mod_cast habove
      rw [midStep_div mm (k := 23) (by decide), ← mul_div_assoc, lt_div_iff₀ (by positivity)]
      push_cast at this ⊢
      linarith
  by_cases hbig : ee ≤ -129
  · refine ⟨_, _, if_pos hbig, signBit_add_lt neg (by decide) ieee_F32.infPat_lt, hsig _ _ ?_⟩
    rw [if_pos hbig]
    exact ⟨ieee_F32.isInf_infPat neg, rfl⟩
  · obtain ⟨p, hp, hnum, hlt⟩ := rnd_estimate neg hn12 (show -149 ≤ -12 - ee by omega) (by omega)
    refine ⟨p, 0, ?_, hlt, hsig p 0 ?_⟩
    · rw [if_neg hbig, hn, hp]
    · rw [if_neg hbig]
      exact ⟨hnum, rfl⟩

/-- FRCP (R165). -/
theorem reciprocalEstimate_frcp (a : Nat) : ReciprocalEstimate a (frcpOp a).1 (frcpOp a).2 ∧ (frcpOp a).1 < 2 ^ 32 := by
  have hk := Known.ieee ieee_F32
  rw [ReciprocalEstimate, frcpOp]
  dsimp only
  rw [show fmtAt 8 = F32 from rfl]
  cases hk.decoded a with
  | nan hnan hdec =>
    rw [hdec, if_pos hnan]
    exact ieee_F32.nanTo_quiet a
  | inf hnan hinf hdec =>
    have hzero := hk.isNum_code (signOf F32 a) (Nat.zero_le _)
    rw [magOf_zero] at hzero
    rw [hdec, if_neg (by simp [hnan]), if_pos hinf]
    exact ⟨⟨hzero, rfl⟩, signBit_add_lt (c := 0) _ (by decide) (by decide)⟩
  | num hnan hinf m e hdec hrat =>
    obtain ⟨hm, hel, heu⟩ := hk.fdec_num_range _ hdec
    have habs : |ratOf F32 a| = m * 2 ^ e := by rw [hrat, abs_exact]
    rw [hdec, if_neg (by simp [hnan]), if_neg (by simp [hinf])]
    dsimp only
    by_cases h0 : m = 0
    · rw [if_pos (by rw [hrat, signed_eq_zero, h0]), if_pos h0]
      exact ⟨⟨ieee_F32.isInf_infPat _, rfl⟩, signBit_add_lt _ (by decide) ieee_F32.infPat_lt⟩
    · rw [if_neg (by rwa [hrat, signed_eq_zero]), if_neg h0, habs]
      obtain ⟨p, fl, hp, hlt, hrec⟩ := isReciprocal_norm (signOf F32 a) h0 hm hel heu
      exact of_eq_pair (P := fun p fl => IsReciprocal (signOf F32 a) (m * 2 ^ e) p fl ∧ p < 2 ^ 32) hp ⟨hrec, hlt⟩

end Sys2Proof.Machine
end

section
/-! Conversions and lane instructions (R166 to R170), and every floating instruction by its rule. -/

namespace Sys2Proof.Machine

open Sys2Proof Sys2Proof.Safety

/-! ## Conversions (R166, R167) -/

namespace Known
variable {f : Fmt} (hf : Known f)
include hf

/-- A quiet NaN delivered in its own format is itself. -/
theorem nanTo_quiet_self {a : Nat} (ha : a < 2 ^ f.w) (hnan : isNaN f a = true) (hq : isSNaN f a = false) :
    (nanTo f (signOf f a) (fracOf f a) f.fb).1 = a := by
  have hlt : a % 2 ^ (f.w - 1) < 2 ^ (f.w - 1) := Nat.mod_lt _ (Nat.two_pow_pos _)
  have hcode := signBit_add_code hf.w_pos ha
  cases hf with
  | ieee h =>
    rw [isNaN, h.spec] at hnan
    have hs : isSpecial f a = true ∧ fracOf f a ≠ 0 := by simpa using hnan
    obtain ⟨hs, h0⟩ := hs
    have hfrac : fracOf f a < 2 ^ f.fb := Nat.mod_lt _ (Nat.two_pow_pos _)
    have htop : ¬ fracOf f a < 2 ^ (f.fb - 1) := by simpa [isSNaN, hs, h0] using hq
    have hexp : a % 2 ^ (f.w - 1) / 2 ^ f.fb = expMax f := by
      rw [← hcode, h.isSpecial_code _ hlt, decide_eq_true_eq] at hs
      exact hs
    have hmod : a % 2 ^ (f.w - 1) % 2 ^ f.fb = fracOf f a := by
      rw [← fracOf_code (signOf f a) h.fb_lt, hcode]
    have hdiv := Nat.div_add_mod' (a % 2 ^ (f.w - 1)) (2 ^ f.fb)
    rw [hexp, hmod] at hdiv
    rw [nanTo, h.spec]
    simp only [le_refl, if_true, Nat.sub_self, pow_zero, Nat.div_one, bit_top h.fb_pos hfrac, htop, decide_false, Bool.not_false]
    rw [Nat.add_assoc, hdiv, hcode]
  | e4m3 =>
    rw [isNaN_E4M3, beq_iff_eq] at hnan
    change a % 128 = 127 at hnan
    change signBit E4M3 (signOf E4M3 a) + a % 128 = a at hcode
    rw [hnan] at hcode
    exact hcode
  | e2m1 => cases hnan

/-- A conversion within one format delivers the value too: a quiet NaN and a number are their own deliveries. -/
theorem fcvtLane_eq_deliver {g : Fmt} (mode : Nat) (sat : Bool) {a : Nat} (ha : a < 2 ^ g.w) :
    fcvtLane g f mode sat a = deliver f (fdec g a) mode sat := by
  rw [fcvtLane]
  split
  · next heq =>
    subst heq
    cases hf.decoded a with
    | nan hnan hdec =>
      obtain ⟨-, -, hfl⟩ := hf.nanTo_spec (g := g) (q := a) (signOf g a) rfl g.fb rfl
      rw [if_neg (by simpa using spec_ne_of_isNaN hnan)] at hfl
      rw [hdec]
      cases hs : isSNaN g a with
      | true => simp [deliver, hfl]
      | false => simp [deliver, hfl, hf.nanTo_quiet_self ha hnan hs]
    | inf _ _ hdec => rw [hdec]; rfl
    | num _ _ m e hdec hrat =>
      rw [hdec]
      exact (hf.rnd_fdec ha hdec mode sat).symm
  · rfl

end Known

theorem fmtOf_of_lt {ty : Nat} (h : ty < 16) : fmtOf ty = fmtAt ty := by
  simpa [Nat.mod_eq_of_lt h] using fmtOf_eq_fmtAt (BitVec.ofNat 4 ty)

theorem lanesOf_of_lt {ty : Nat} (h : ty < 16) : lanesOf ty = lanesAt ty := by
  simpa [Nat.mod_eq_of_lt h] using lanesOf_eq_lanesAt (BitVec.ofNat 4 ty)

/-- FCVT, and CVT between float types (R166). -/
theorem convertsLanes_fcvt {ty : BitVec 4} (h : 8 ≤ ty.toNat) {src mode : Nat} (hsrc : src < 16) (hmode : mode < 4) (sat : Bool) (a : W64) :
    ConvertsLanes src ty.toNat mode sat a (packed ty.toNat (fcvtOp src ty.toNat mode sat a.toNat)).1
      (packed ty.toNat (fcvtOp src ty.toNat mode sat a.toNat)).2 := by
  rw [ConvertsLanes, fcvtOp, fmtOf_eq_fmtAt, lanesOf_eq_lanesAt, fmtOf_of_lt hsrc, lanesOf_of_lt hsrc, ← min_def]
  refine eachLane_join h (min_le_right ..) _ fun j _ => ?_
  rw [laneOf_eq_laneAt, (known_fmtAt _).fcvtLane_eq_deliver mode sat (laneAt_lt ..)]
  exact (known_fmtAt _).converts_deliver (known_fmtAt _) sat hmode _

/-- A rounded number beyond 2^128 is outside every integer type. -/
theorem le_roundInt_of_top {m : Nat} {e : Int} (hm : m ≠ 0) (hlt : m < 2 ^ 8192) (h : 128 < e + bitLen 8192 m) (neg : Bool) (mode : Nat) :
    2 ^ 128 ≤ roundInt neg (m * 2 ^ e) mode := by
  refine le_roundInt_of_le ?_
  have htop := (two_zpow_top (e := e) hm hlt).1
  rw [topOf] at htop
  refine le_trans ?_ htop
  calc (((2 : Int) ^ 128 : Int) : ℚ) = 2 ^ (128 : Int) := by norm_num
    _ ≤ 2 ^ (e + bitLen 8192 m - 1) := zpow_le_zpow_right₀ one_le_two (by omega)

theorem tyMin_tyMax_small (ty : Nat) : -2 ^ 128 < tyMin ty ∧ tyMax ty < 2 ^ 128 := by
  obtain ⟨h1, -, -, h4⟩ := tyMin_tyMax_bounds ty
  have : (2 : Int) ^ widthOf ty ≤ 2 ^ 64 := pow_le_pow_right₀ (by decide) (widthOf_le ty)
  omega

/-- What an integer type takes of a value that it does not hold (R167). -/
def outOfRange (ty : Nat) (sat neg : Bool) : Int :=
  if sat then (if neg then tyMin ty else tyMax ty) else if ty < 4 then tyMin ty else tyMax ty

/-- A magnitude of a sign rounded to an integer. -/
def roundSigned (neg : Bool) (y : ℚ) (mode : Nat) : Int := if neg then -roundInt true y mode else roundInt false y mode

/-- The model's early answer for a number beyond 2^128 is the one that its rounded value gives. -/
theorem floatToInt_num (ty mode : Nat) (sat neg : Bool) {m : Nat} (e : Int) (hlt : m < 2 ^ 8192) :
    floatToInt ty mode sat (.num neg m e) =
      (let v := roundSigned neg (m * 2 ^ e) mode
       if v < tyMin ty then (outOfRange ty sat true, NV) else if tyMax ty < v then (outOfRange ty sat false, NV)
       else (v, if (v : ℚ) = (if neg then -1 else 1) * (m * 2 ^ e) then 0 else NX)) := by
  obtain ⟨hmin, hmax⟩ := tyMin_tyMax_small ty
  obtain ⟨-, hmin0, hmax0, -⟩ := tyMin_tyMax_bounds ty
  change (if (decide (128 < e + bitLen 8192 m) && m != 0) = true then (outOfRange ty sat neg, NV) else
    let r := roundTo neg m e 0 mode
    let v : Int := if neg then -(r.1 : Int) else r.1
    if v < tyMin ty then (outOfRange ty sat true, NV) else if tyMax ty < v then (outOfRange ty sat false, NV)
    else (v, if r.2 then NX else 0)) = _
  split
  · next hbig =>
    simp only [Bool.and_eq_true, decide_eq_true_eq, bne_iff_ne] at hbig
    have hround := le_roundInt_of_top hbig.2 hlt hbig.1 neg mode
    cases neg with
    | true =>
      simp only [roundSigned, if_true]
      rw [if_pos (by omega)]
    | false =>
      simp only [roundSigned, Bool.false_eq_true, if_false]
      rw [if_neg (by omega), if_pos (by omega)]
  · obtain ⟨hround, hinexact⟩ := roundTo_eq neg e 0 mode hlt
    rw [zpow_zero, div_one] at hround hinexact
    simp only [hround, hinexact]
    cases neg with
    | true => simp [roundSigned]
    | false => simp [roundSigned]

/-- A float rounded to an integer type (R167). -/
theorem toInt_floatToInt {f : Fmt} (hf : Known f) {ty : Nat} (h : ty < 8) (mode : Nat) (sat : Bool) (a : Nat) :
    ToInt f ty mode sat a (extend ty (floatToInt ty mode sat (fdec f a)).1) (floatToInt ty mode sat (fdec f a)).2 := by
  rw [ToInt, extend_eq_intOut h]
  cases hf.decoded a with
  | nan hnan hdec =>
    rw [hdec, if_pos hnan]
    cases sat <;> exact ⟨rfl, rfl⟩
  | inf hnan hinf hdec =>
    rw [hdec, if_neg (by simp [hnan]), if_pos hinf]
    exact ⟨rfl, rfl⟩
  | num hnan hinf m e hdec hrat =>
    have hsigned : (if ratOf f a < 0 then -roundInt true |ratOf f a| mode else roundInt false |ratOf f a| mode) =
        roundSigned (signOf f a) (m * 2 ^ e) mode := by
      have hpos : (0 : ℚ) < 2 ^ e := by positivity
      rw [hrat, abs_exact, roundSigned]
      rcases Nat.eq_zero_or_pos m with rfl | hm
      · cases signOf f a <;> simp [roundInt]
      · have hy : 0 < (m : ℚ) * 2 ^ e := mul_pos (by exact_mod_cast hm) hpos
        cases signOf f a
        · simp [hy.le]
        · simp [hy]
    rw [hdec, floatToInt_num ty mode sat _ e (lt_two_pow_mono (hf.fdec_num_bounds _ hdec).1 (by decide)), if_neg (by simp [hnan]),
      if_neg (by simp [hinf])]
    dsimp only
    rw [hsigned, hrat]
    change if roundSigned (signOf f a) (m * 2 ^ e) mode < tyMin ty then _ else if tyMax ty < roundSigned (signOf f a) (m * 2 ^ e) mode then _ else _
    split
    · exact ⟨rfl, rfl⟩
    · split
      · exact ⟨rfl, rfl⟩
      · exact ⟨rfl, rfl⟩

/-- CVT of an integer to a float type (R167). -/
theorem eachLane_ofInt {ty : Nat} (h : ty = 8 ∨ ty = 9) {mode : Nat} (hmode : mode < 4) (sat : Bool) {x : Int} (hx : x.natAbs < 2 ^ 65) :
    EachLane (fmtAt ty) 1 (fun _ => Rounds (fmtAt ty) mode sat (decide (x < 0)) x)
      (packed ty (rnd (fmtAt ty) (decide (x < 0)) x.natAbs 0 mode sat)).1 (packed ty (rnd (fmtAt ty) (decide (x < 0)) x.natAbs 0 mode sat)).2 := by
  refine eachLane_packed h ((known_fmtAt ty).rounds_rnd sat hmode (lt_two_pow_mono hx (by decide)) ?_)
  rw [zpow_zero, mul_one, Nat.cast_natAbs, Int.cast_abs]

/-! ## Lane instructions (R168 to R170) -/

/-- The fractions and exponents of the packed types' formats are no wider than F32's (R136). -/
theorem fmtAt_sizes {ty : BitVec 4} (h : 10 ≤ ty.toNat) : (fmtAt ty.toNat).fb ≤ 23 ∧ (fmtAt ty.toNat).bias ≤ 127 ∧
    (fmtAt ty.toNat).bias + (fmtAt ty.toNat).fb ≤ 150 := by
  revert ty
  decide

theorem Known.maxRat_lt {f : Fmt} (hf : Known f) (hbias : f.bias ≤ 127) : maxRat f < 2 ^ ((F32.bias : Int) + 1) := by
  cases hf with
  | ieee h =>
    calc maxRat f = magOf f (maxFinite f) := h.maxRat_eq
      _ < magOf f (infPat f) := magOf_strictMono f (by
          rw [h.maxFinite_eq, infPat]
          exact Nat.sub_lt (Nat.mul_pos (by rw [h.expMax_eq]; omega) (Nat.two_pow_pos _)) one_pos)
      _ = 2 ^ ((f.bias : Int) + 1) := h.magOf_infPat
      _ ≤ 2 ^ ((F32.bias : Int) + 1) := zpow_le_zpow_right₀ one_le_two (by change (f.bias : Int) + 1 ≤ 127 + 1; omega)
  | e4m3 | e2m1 => norm_num [maxRat, E4M3, E2M1, F32]

/-- LANE (R168): a lane is widened to F32 exactly. -/
theorem laneOp_eq {ty : BitVec 4} (h : 10 ≤ ty.toNat) (a : W64) (i : Nat) :
    laneOp ty.toNat a.toNat i = deliver F32 (fdec (fmtAt ty.toNat) (laneAt (fmtAt ty.toNat) a (i % lanesAt ty.toNat))) 0 false := by
  have hk := known_fmtAt ty.toNat
  rw [laneOp, fmtOf_eq_fmtAt, lanesOf_eq_lanesAt, laneOf_eq_laneAt]
  generalize hv : laneAt (fmtAt ty.toNat) a (i % lanesAt ty.toNat) = v
  have hvlt : v < 2 ^ (fmtAt ty.toNat).w := hv ▸ laneAt_lt ..
  cases hk.decoded v with
  | nan hnan hdec =>
    rw [hdec]
    obtain ⟨-, -, hfl⟩ := (Known.ieee ieee_F32).nanTo_spec (g := fmtAt ty.toNat) (q := v) (signOf _ v) rfl _ rfl
    rw [if_neg (by decide)] at hfl
    simp only [deliver, hfl]
    cases isSNaN (fmtAt ty.toNat) v <;> rfl
  | inf _ _ hdec =>
    rw [hdec]
    rfl
  | num _ _ m e hdec hrat =>
    obtain ⟨hm, hl, -⟩ := hk.fdec_num_range _ hdec
    obtain ⟨-, hfin, hmag⟩ := hk.fdec_num _ hvlt hdec
    obtain ⟨hfb, hbias, hsum⟩ := fmtAt_sizes h
    have hle : (m : ℚ) * 2 ^ e ≤ maxRat (fmtAt ty.toNat) := by
      rw [← hmag, hk.maxRat_eq]
      exact (magOf_strictMono _).monotone hfin
    obtain ⟨p, hp, -⟩ := ieee_F32.rnd_exact (signOf (fmtAt ty.toNat) v) 0 false (lt_two_pow_mono hm (Nat.succ_le_succ hfb))
      (by change 1 - (127 : Int) - 23 ≤ e; omega) (hle.trans_lt (hk.maxRat_lt hbias))
    rw [hdec]
    change ((rnd F32 (signOf (fmtAt ty.toNat) v) m e 0 false).1, 0) = rnd F32 (signOf (fmtAt ty.toNat) v) m e 0 false
    rw [hp]

/-- LANE (R168). -/
theorem converts_lane {ty : BitVec 4} (h : 10 ≤ ty.toNat) (a : W64) (i : Nat) :
    (packed 8 (laneOp ty.toNat a.toNat i)).1.toNat < 2 ^ 32 ∧
      Converts (fmtAt ty.toNat) F32 0 false (laneAt (fmtAt ty.toNat) a (i % lanesAt ty.toNat))
        (packed 8 (laneOp ty.toNat a.toNat i)).1.toNat (packed 8 (laneOp ty.toNat a.toNat i)).2 := by
  obtain ⟨hconv, hlt⟩ := (Known.ieee ieee_F32).converts_deliver (known_fmtAt ty.toNat) false (mode := 0) (by decide)
    (laneAt (fmtAt ty.toNat) a (i % lanesAt ty.toNat))
  rw [laneOp_eq h]
  have hval := extend_toNat_of_lt (ty := 8) le_rfl hlt
  rw [packed, hval]
  exact ⟨hlt, hconv⟩

/-- VINS (R169): one lane replaced, the others as they were. -/
theorem vins_lanes {ty : BitVec 4} (h : 10 ≤ ty.toNat) (a b : W64) (i : Nat) :
    let f := fmtAt ty.toNat
    let k := i % lanesAt ty.toNat
    let r := packed ty.toNat (vinsOp ty.toNat a.toNat b.toNat i)
    (∀ j < lanesAt ty.toNat, j ≠ k → laneAt f r.1 j = laneAt f a j) ∧
      if ty.toNat = 10 then laneAt f r.1 k = b.toNat % 2 ^ 32 ∧ r.2 = 0 else Converts F32 f 0 false (b.toNat % 2 ^ 32) (laneAt f r.1 k) r.2 := by
  intro f k r
  have h8 : 8 ≤ ty.toNat := by omega
  have hk : k < lanesAt ty.toNat := Nat.mod_lt _ (by revert ty; decide)
  generalize hnew : (if ty.toNat = 10 then (b.toNat % 2 ^ 32, 0) else deliver f (fdec F32 (b.toNat % 2 ^ 32)) 0 false) = new
  have hr : r = (extend ty.toNat (joinLanes f.w ((List.range (lanesAt ty.toNat)).map
      fun j => (if j = k then new.1 else laneOf f.w j a.toNat, (0 : BitVec 5)))).1, new.2) := by
    simp only [r, packed, vinsOp, fmtOf_eq_fmtAt, lanesOf_eq_lanesAt, ← hnew]
    rfl
  rw [hr]
  refine ⟨fun j hj hne => ?_, ?_⟩
  · rw [laneAt_extend_join h8 le_rfl _ hj]
    dsimp only
    rw [if_neg hne, laneOf_eq_laneAt, Nat.mod_eq_of_lt (laneAt_lt ..)]
  · rw [laneAt_extend_join h8 le_rfl _ hk]
    dsimp only
    rw [if_pos rfl]
    split
    · next h10 =>
      rw [if_pos h10] at hnew
      subst hnew
      refine ⟨?_, rfl⟩
      have hw : (fmtAt ty.toNat).w = 32 := by rw [h10]; rfl
      rw [hw, Nat.mod_mod]
    · next h10 =>
      rw [if_neg h10] at hnew
      obtain ⟨hconv, hlt⟩ := (known_fmtAt ty.toNat).converts_deliver (Known.ieee ieee_F32) false (mode := 0) (by decide) (b.toNat % 2 ^ 32)
      rw [hnew] at hconv hlt
      rwa [Nat.mod_eq_of_lt hlt]

/-! ## The sum of lanes (R170) -/

theorem lt_two_pow_of_le {m k n : Nat} (h : m ≤ 2 ^ k) (hk : k < n) : m < 2 ^ n := h.trans_lt (Nat.pow_lt_pow_right one_lt_two hk)

/-- One more number in an exact sum: the unit is the number's or the sum's own. -/
theorem sumNums_cons (n : Bool) (m : Nat) (e : Int) (l : List FV) : ∃ e0, (e0 = e ∨ e0 = (sumNums l).2.1) ∧
    (sumNums (.num n m e :: l)).2 = (e0, (sumNums l).2.2 && n && m == 0) ∧
    ((sumNums (.num n m e :: l)).1 : ℚ) * 2 ^ e0 = (sumNums l).1 * 2 ^ (sumNums l).2.1 + (if n then -1 else 1) * (m * 2 ^ e) := by
  cases l with
  | nil =>
    refine ⟨e, .inl rfl, rfl, ?_⟩
    simp [sumNums, atExp_eq n m (le_refl e)]
  | cons x l =>
    rw [sumNums]
    generalize sumNums (x :: l) = r
    obtain ⟨v, e2, z⟩ := r
    simp only [List.isEmpty_cons, Bool.false_eq_true, if_false, ← min_def]
    refine ⟨min e e2, min_choice .., rfl, ?_⟩
    have hv : ((v * 2 ^ (e2 - min e e2).toNat : Int) : ℚ) * 2 ^ min e e2 = v * 2 ^ e2 := by
      rw [Int.cast_mul, mul_assoc]
      congr 1
      push_cast
      rw [← zpow_natCast, Int.toNat_of_nonneg (by omega), ← zpow_add₀ two_ne_zero, sub_add_cancel]
    rw [Int.cast_add, add_mul, hv, atExp_eq _ _ (min_le_left e e2)]

namespace Known
variable {f : Fmt} (hf : Known f)
include hf

/-- The exact sum of numbers: its value, its unit, its size, and whether every one is a -0. -/
theorem sumNums_spec {l : List Nat} (h : ∀ q ∈ l, isNaN f q = false ∧ isInf f q = false) :
    ((sumNums (l.map (fdec f))).1 : ℚ) * 2 ^ (sumNums (l.map (fdec f))).2.1 = (l.map (ratOf f)).sum ∧ -1074 ≤ (sumNums (l.map (fdec f))).2.1 ∧
      |(l.map (ratOf f)).sum| ≤ l.length * 2 ^ 1077 ∧
      (sumNums (l.map (fdec f))).2.2 = l.all fun q => decide (ratOf f q = 0) && signOf f q := by
  induction l with
  | nil => simp [sumNums]
  | cons q l ih =>
    obtain ⟨hsum, hlo, hsize, hall⟩ := ih fun p hp => h p (.tail _ hp)
    obtain ⟨hnan, hinf⟩ := h q (.head _)
    cases hf.decoded q with
    | nan hn | inf _ hi => simp_all
    | num _ _ m e hdec hrat =>
      obtain ⟨hm, hel, heu⟩ := hf.fdec_num_bounds _ hdec
      obtain ⟨e0, he0, hsnd, hfst⟩ := sumNums_cons (signOf f q) m e (l.map (fdec f))
      rw [List.map_cons, List.map_cons, List.sum_cons, List.all_cons, hdec, hsnd]
      refine ⟨by rw [hfst, hsum, hrat, add_comm], by omega, ?_, ?_⟩
      · have hq : |ratOf f q| ≤ 2 ^ 1077 := by
          rw [hrat, abs_exact]
          calc (m : ℚ) * 2 ^ e ≤ ((2 ^ 53 : Nat) : ℚ) * 2 ^ (1024 : Int) :=
                mul_le_mul (by exact_mod_cast hm.le) (zpow_le_zpow_right₀ one_le_two heu) (by positivity) (by positivity)
            _ = 2 ^ ((53 : Nat) + (1024 : Int)) := natCast_two_pow_mul ..
            _ = 2 ^ 1077 := zpow_natCast 2 1077
        rw [List.length_cons, Nat.cast_succ, add_mul, one_mul, add_comm (_ * _)]
        exact (abs_add_le ..).trans (add_le_add hq hsize)
      · have hzero : decide (ratOf f q = 0) = (m == 0) := by
          rw [hrat, Bool.beq_eq_decide_eq, decide_eq_decide]
          exact signed_eq_zero ..
        rw [hall, hzero, Bool.and_assoc, Bool.and_comm, Bool.and_comm (m == 0)]

/-- A sum of lanes is small enough to be rounded. -/
theorem sumNums_fits {l : List Nat} (h : ∀ q ∈ l, isNaN f q = false ∧ isInf f q = false) (hlen : l.length ≤ 16) :
    (sumNums (l.map (fdec f))).1.natAbs < 2 ^ 8192 := by
  obtain ⟨hsum, hlo, hsize, -⟩ := hf.sumNums_spec h
  generalize (sumNums (l.map (fdec f))).1 = v at *
  generalize (sumNums (l.map (fdec f))).2.1 = e at *
  have hunit : (v.natAbs : ℚ) * 2 ^ (-1074 : Int) ≤ 2 ^ (1081 : Int) := by
    have habs : (v.natAbs : ℚ) * 2 ^ e = |(v : ℚ) * 2 ^ e| := by
      rw [abs_mul, abs_of_pos (show (0 : ℚ) < 2 ^ e by positivity), Nat.cast_natAbs, Int.cast_abs]
    calc (v.natAbs : ℚ) * 2 ^ (-1074 : Int) ≤ v.natAbs * 2 ^ e :=
          mul_le_mul_of_nonneg_left (zpow_le_zpow_right₀ one_le_two hlo) (Nat.cast_nonneg _)
      _ ≤ l.length * 2 ^ 1077 := by rw [habs, hsum]; exact hsize
      _ ≤ ((2 ^ 4 : Nat) : ℚ) * 2 ^ (1077 : Int) :=
          mul_le_mul (by exact_mod_cast hlen) (zpow_natCast (2 : ℚ) 1077).ge (by positivity) (by positivity)
      _ = 2 ^ (1081 : Int) := natCast_two_pow_mul ..
  have hle : (v.natAbs : ℚ) ≤ (2 ^ (2155 : Int).toNat : Nat) := by
    calc (v.natAbs : ℚ) = v.natAbs * 2 ^ (-1074 : Int) * 2 ^ (1074 : Int) := by
          rw [mul_assoc, ← zpow_add₀ two_ne_zero]
          exact (mul_one _).symm
      _ ≤ 2 ^ (1081 : Int) * 2 ^ (1074 : Int) := mul_le_mul_of_nonneg_right hunit (by positivity)
      _ = 2 ^ (2155 : Int) := (zpow_add₀ two_ne_zero ..).symm
      _ = (2 ^ (2155 : Int).toNat : Nat) := two_zpow_toNat (by decide)
  exact lt_two_pow_of_le ((Nat.cast_le (α := ℚ)).mp hle) (by decide)

theorem fdec_beq_inf {q : Nat} (hnan : isNaN f q = false) (s : Bool) :
    (fdec f q == .inf s) = (isInf f q && signOf f q == s) := by
  cases hf.decoded q with
  | nan hn => simp_all
  | inf _ hinf hdec => cases h : signOf f q <;> cases s <;> simp [hdec, hinf, h]
  | num _ hinf m e hdec => simp [hdec, hinf]

end Known

theorem first?_eq_find? {α : Type} (p : α → Bool) (l : List α) : first? p l = l.find? p := by
  induction l with
  | nil => rfl
  | cons a l ih =>
    rw [first?, List.find?_cons, ih]
    cases p a <;> rfl

theorem lanesAt_le : ∀ ty : BitVec 4, lanesAt ty.toNat ≤ 16 := by decide

/-- VSUM (R170): one rounding of the exact sum of every lane. -/
theorem sums_vsumOp (ty : BitVec 4) {mode : Nat} (hmode : mode < 4) (a : W64) :
    Sums (fmtAt ty.toNat) mode ((List.range (lanesAt ty.toNat)).map (laneAt (fmtAt ty.toNat) a)) (vsumOp ty.toNat mode a.toNat).1
      (vsumOp ty.toNat mode a.toNat).2 ∧ (vsumOp ty.toNat mode a.toNat).1 < 2 ^ 32 := by
  have hk := known_fmtAt ty.toNat
  have h32 := Known.ieee ieee_F32
  have hlen : ((List.range (lanesAt ty.toNat)).map (laneAt (fmtAt ty.toNat) a)).length ≤ 16 := by
    rw [List.length_map, List.length_range]
    exact lanesAt_le ty
  have hlanes : (List.range (lanesAt ty.toNat)).map (fun i => fdec (fmtAt ty.toNat) (laneOf (fmtAt ty.toNat).w i a.toNat)) =
      ((List.range (lanesAt ty.toNat)).map (laneAt (fmtAt ty.toNat) a)).map (fdec (fmtAt ty.toNat)) := by
    rw [List.map_map]
    rfl
  rw [Sums, vsumOp]
  simp only [fmtOf_eq_fmtAt, lanesOf_eq_lanesAt, hlanes]
  generalize (List.range (lanesAt ty.toNat)).map (laneAt (fmtAt ty.toNat) a) = l at *
  generalize fmtAt ty.toNat = f at *
  rw [← first?_eq_find?]
  cases hfirst : first? (isNaN f) l with
  | some q =>
    obtain ⟨p, hp, hto, hlt⟩ := h32.nanOf_some hk (by decide) hfirst
    rw [hp]
    exact ⟨⟨hto, rfl⟩, hlt⟩
  | none =>
    have hnan : ∀ q ∈ l, isNaN f q = false := by
      rw [first?_eq_find?, List.find?_eq_none] at hfirst
      simpa using hfirst
    rw [hk.nanOf_none hfirst]
    have hany (s : Bool) : (l.map (fdec f)).any (fun x => x == .inf s) = l.any fun q => isInf f q && signOf f q == s := by
      rw [List.any_map, Bool.eq_iff_iff, List.any_eq_true, List.any_eq_true]
      exact exists_congr fun q => and_congr_right fun hq => by rw [Function.comp_apply, hk.fdec_beq_inf (hnan q hq)]
    dsimp only
    rw [hany, hany]
    cases hpos : l.any fun q => isInf f q && signOf f q == false with
    | true =>
      cases hneg : l.any fun q => isInf f q && signOf f q == true with
      | true => exact ⟨⟨ieee_F32.defaultNaN_eq, rfl⟩, ieee_F32.defaultNaN_lt⟩
      | false => exact ⟨⟨ieee_F32.isInf_infPat false, rfl⟩, signBit_add_lt false (by decide) ieee_F32.infPat_lt⟩
    | false =>
      cases hneg : l.any fun q => isInf f q && signOf f q == true with
      | true => exact ⟨⟨ieee_F32.isInf_infPat true, rfl⟩, signBit_add_lt true (by decide) ieee_F32.infPat_lt⟩
      | false =>
        have hnum : ∀ q ∈ l, isNaN f q = false ∧ isInf f q = false := fun q hq => ⟨hnan q hq, by
          rw [List.any_eq_false] at hpos hneg
          cases hi : isInf f q with
          | false => rfl
          | true =>
            cases hs : signOf f q with
            | false => exact absurd (by rw [hi, hs]; rfl) (hpos q hq)
            | true => exact absurd (by rw [hi, hs]; rfl) (hneg q hq)⟩
        obtain ⟨hsum, -, -, hall⟩ := hk.sumNums_spec hnum
        have hfits := hk.sumNums_fits hnum hlen
        generalize sumNums (l.map (fdec f)) = r at *
        obtain ⟨v, e, z⟩ := r
        dsimp only at *
        have hdel := h32.delivers false hmode (x := .num (if v = 0 then z || mode == 3 else v < 0) v.natAbs e) rfl hfits
        rw [exact_ofInt] at hdel
        have hrnd : (if v = 0 then (signBit F32 (z || mode == 3), 0) else rnd F32 (decide (v < 0)) v.natAbs e mode false) =
            deliver F32 (.num (if v = 0 then z || mode == 3 else v < 0) v.natAbs e) mode false := by
          by_cases hv : v = 0 <;> simp [deliver, hv, rnd]
        rw [← hsum, ← hall, hrnd]
        exact hdel

end Sys2Proof.Machine
end

section
/-! Each floating, conversion and lane instruction, by its rule (R159 to R170). -/

namespace Sys2Proof.Machine

open Sys2Proof Sys2Proof.Safety

/-- What an arithmetic firing computes meets a law, from the 64 bits of its operands. -/
def Meets (i : Instr) (w : CW) (op : Nat) (law : W64 → W64 → W64 → W64 → BitVec 5 → Prop) : Prop :=
  ∃ g, (∀ s, exec i s = .next (fireAlu s w op g)) ∧ ∀ a b c : W64, law a b c (g a.toNat b.toNat c.toNat).1 (g a.toNat b.toNat c.toNat).2

theorem mod_four_lt (n : Nat) : n % 4 < 4 := Nat.mod_lt _ (by decide)

theorem laneAt_zero (f : Fmt) (v : W64) : laneAt f v 0 = v.toNat % 2 ^ f.w := by simp [laneAt]

theorem ty_float {ty : BitVec 4} (h : TyClass.ok .f ty = true) : ty.toNat = 8 ∨ ty.toNat = 9 := by simpa [TyClass.ok] using h

theorem ieee_fmtAt {ty : Nat} (h : ty = 8 ∨ ty = 9) : Ieee (fmtAt ty) := by
  rcases h with rfl | rfl
  · exact ieee_F32
  · exact ieee_F64

/-- A control operand of a well-formed word lies in its row's range (R50). -/
theorem imm_le {i : Instr} {r : Row} {w : CW} {lo hi : Nat} (hwf : i.wf = true) (hrow : i.row = some (r, w)) (hb : r.b = .ctrl lo hi) :
    lo ≤ w.imm.toNat ∧ w.imm.toNat ≤ hi := by
  simp only [Instr.wf, hrow, CW.ok, Bool.and_eq_true, hb, Operand.ok, decide_eq_true_eq] at hwf
  tauto

/-- A float's bits held in the low half of VAL, by a law of theirs. -/
theorem packed_F32 {law : Nat → BitVec 5 → Prop} {r : Nat × BitVec 5} (h : law r.1 r.2 ∧ r.1 < 2 ^ 32) :
    (packed 8 r).1.toNat < 2 ^ 32 ∧ law (packed 8 r).1.toNat (packed 8 r).2 := by
  obtain ⟨hlaw, hlt⟩ := h
  rw [packed, extend_toNat_of_lt (ty := 8) le_rfl hlt]
  exact ⟨hlt, hlaw⟩

theorem div_mod_of_le (v : Nat) {w l n : Nat} (h : l + n ≤ w) : v % 2 ^ w / 2 ^ l % 2 ^ n = v / 2 ^ l % 2 ^ n := by
  obtain ⟨k, rfl⟩ := Nat.exists_eq_add_of_le h
  rw [Nat.add_assoc, pow_add, Nat.mod_mul_right_div_self, Nat.mod_mod_of_dvd _ (pow_dvd_pow 2 (Nat.le_add_right n k))]

/-- Decoding reads the low bits of its format's width alone (R136). -/
theorem fdec_mod {ty : Nat} (h : ty = 8 ∨ ty = 9) (v : Nat) : fdec (fmtAt ty) (v % 2 ^ (fmtAt ty).w) = fdec (fmtAt ty) v := by
  have hfields {f : Fmt} (hfb : f.fb + 2 ≤ f.w) (hspec : f.spec = .ieee) : fdec f (v % 2 ^ f.w) = fdec f v := by
    have hbit : bit (v % 2 ^ f.w) (f.w - 1) = bit v (f.w - 1) := by
      have hmod : v % 2 ^ f.w / 2 ^ (f.w - 1) % 2 ^ 1 = v / 2 ^ (f.w - 1) % 2 ^ 1 := div_mod_of_le v (by omega)
      rw [pow_one] at hmod
      rw [bit, bit, hmod]
    have hbits : bits (v % 2 ^ f.w) (f.w - 2) f.fb = bits v (f.w - 2) f.fb := div_mod_of_le v (by omega)
    have hfrac : v % 2 ^ f.w % 2 ^ f.fb = v % 2 ^ f.fb := Nat.mod_mod_of_dvd v (pow_dvd_pow 2 (by omega))
    rw [fdec, fdec, hspec, hbit, hbits, hfrac]
  rcases h with rfl | rfl
  · exact hfields (by decide) rfl
  · exact hfields (by decide) rfl

/-- Every integer operand has a magnitude below 2^65 (R134). -/
theorem natAbs_intIn_lt (ty : Nat) (v : W64) : (intIn ty v).natAbs < 2 ^ 65 := by
  obtain ⟨hsigned, hunsigned⟩ := intIn_bounds ty v
  have hle {k : Nat} (hk : k ≤ 64) : (2 : Int) ^ k ≤ 2 ^ 64 := pow_le_pow_right₀ one_le_two hk
  have hw := hle (widthOf_le ty)
  have hw' := hle ((Nat.sub_le (widthOf ty) 1).trans (widthOf_le ty))
  by_cases h : ty < 4
  · obtain ⟨hlo, hhi⟩ := hsigned h
    omega
  · obtain ⟨hlo, hhi⟩ := hunsigned h
    omega

/-- CVT (R167), by the kinds of its source and its destination. -/
theorem cvt_meets {w : CW} (hsrc : w.imm.toNat ≤ 9) (hty : w.ty.toNat < 10) {f : W64 → W64 → W64 → W64 → BitVec 5 → Prop}
    (hrule : floatRule (.cvt w) = some (w, f)) (a b c : W64) :
    f a b c (cvtOp w.imm.toNat w.ty.toNat (w.fn.toNat % 4) (w.fn.getLsbD 2) a.toNat).1
      (cvtOp w.imm.toNat w.ty.toNat (w.fn.toNat % 4) (w.fn.getLsbD 2) a.toNat).2 := by
  cases hrule
  by_cases hi : w.imm.toNat < 8
  · by_cases ht : w.ty.toNat < 8
    · simp only [cvtOp, hi, ht, if_true, readInt_eq_intIn]
      exact clampInt_satOut ht ..
    · simp only [cvtOp, hi, ht, if_true, if_false, readInt_eq_intIn, fmtOf_eq_fmtAt]
      exact eachLane_ofInt (by omega) (mod_four_lt _) _ (natAbs_intIn_lt ..)
  · by_cases ht : w.ty.toNat < 8
    · simp only [cvtOp, hi, ht, if_true, if_false, laneAt_zero]
      rw [fmtOf_of_lt (by omega), ← fdec_mod (by omega)]
      exact toInt_floatToInt (known_fmtAt _) ht ..
    · simp only [cvtOp, hi, ht, if_false]
      exact convertsLanes_fcvt (by omega) (by omega) (mod_four_lt _) _ a

/-- A float's lane of VAL in the format that the model names. -/
theorem mod_eq_laneAt (ty : BitVec 4) (v : W64) : v.toNat % 2 ^ (fmtOf ty.toNat).w = laneAt (fmtAt ty.toNat) v 0 := by
  rw [laneAt_zero, fmtOf_eq_fmtAt]

theorem fb_le_bias {ty : Nat} (h : ty = 8 ∨ ty = 9) : (fmtAt ty).fb ≤ (fmtAt ty).bias := by
  rcases h with rfl | rfl <;> decide

theorem floatRule_meets {i : Instr} {r : Row} {w : CW} {law : W64 → W64 → W64 → W64 → BitVec 5 → Prop} (hwf : i.wf = true)
    (hrow : i.row = some (r, w)) (hrule : floatRule i = some (w, law)) : Meets i w r.op.toNat law := by
  obtain ⟨-, hty⟩ := fn_ty_ok hwf hrow
  cases i with
  | fadd | fsub =>
    cases hrow; cases hrule
    exact ⟨_, fun _ => rfl, fun a b c => eachLane_lanewise (of_decide_eq_true hty) _ _ _ fun j =>
      (known_fmtAt _).arith_sum (mod_four_lt _) (by decide) ..⟩
  | fmul =>
    cases hrow; cases hrule
    exact ⟨_, fun _ => rfl, fun a b c => eachLane_lanewise (of_decide_eq_true hty) _ _ _ fun j =>
      (known_fmtAt _).arith_product (mod_four_lt _) ..⟩
  | fma | fms | fnma =>
    cases hrow; cases hrule
    exact ⟨_, fun _ => rfl, fun a b c => eachLane_lanewise (of_decide_eq_true hty) _ _ _ fun j =>
      (known_fmtAt _).arith_fused (mod_four_lt _) (by decide) ..⟩
  | fmin | fmax =>
    cases hrow; cases hrule
    exact ⟨_, fun _ => rfl, fun a b c => eachLane_lanewise (of_decide_eq_true hty) _ _ _ fun j =>
      (known_fmtAt _).extreme_fminmax _ (laneAt_lt ..) (laneAt_lt ..)⟩
  | fabs =>
    cases hrow; cases hrule
    exact ⟨_, fun _ => rfl, fun a b c => eachLane_lanewise (of_decide_eq_true hty) _ _ _ fun j =>
      ⟨⟨Known.fabs_eq _, rfl⟩, (Nat.mod_lt _ (Nat.two_pow_pos _)).trans_le (Nat.pow_le_pow_right two_pos (Nat.sub_le ..))⟩⟩
  | fneg =>
    cases hrow; cases hrule
    exact ⟨_, fun _ => rfl, fun a b c => eachLane_lanewise (of_decide_eq_true hty) _ _ _ fun j =>
      ⟨⟨(known_fmtAt _).fneg_eq (laneAt_lt ..), rfl⟩, (known_fmtAt _).fneg_lt (laneAt_lt ..)⟩⟩
  | fcmp =>
    cases hrow; cases hrule
    refine ⟨_, fun _ => rfl, fun a b _ => ?_⟩
    dsimp only
    rw [mod_eq_laneAt, mod_eq_laneAt, fmtOf_eq_fmtAt]
    exact (known_fmtAt _).compares_fcmp ..
  | frsq => cases hrow; cases hrule; exact ⟨_, fun _ => rfl, fun a _ _ => packed_F32 (rootEstimate_frsq _)⟩
  | frcp => cases hrow; cases hrule; exact ⟨_, fun _ => rfl, fun a _ _ => packed_F32 (reciprocalEstimate_frcp _)⟩
  | fscl =>
    cases hrow; cases hrule
    refine ⟨_, fun _ => rfl, fun a b _ => ?_⟩
    dsimp only
    rw [mod_eq_laneAt, fmtOf_eq_fmtAt, sint_eq_toInt (by decide), BitVec.ofNat_toNat]
    exact eachLane_packed (ty_float hty) ((ieee_fmtAt (ty_float hty)).scales_fscl (mod_four_lt _) (laneAt_lt ..) _)
  | frnd =>
    cases hrow; cases hrule
    refine ⟨_, fun _ => rfl, fun a _ _ => ?_⟩
    dsimp only
    rw [mod_eq_laneAt, fmtOf_eq_fmtAt]
    exact eachLane_packed (ty_float hty) ((ieee_fmtAt (ty_float hty)).toIntegral_frnd (fb_le_bias (ty_float hty)) _ (laneAt_lt ..))
  | fcls =>
    cases hrow; cases hrule
    refine ⟨_, fun _ => rfl, fun a _ _ => ⟨?_, rfl⟩⟩
    dsimp only
    rw [mod_eq_laneAt, fmtOf_eq_fmtAt]
    exact (ieee_fmtAt (ty_float hty)).fcls_eq _
  | fcvt =>
    obtain ⟨-, himm⟩ := imm_le hwf hrow (by cases hrow; rfl)
    cases hrow; cases hrule
    exact ⟨_, fun _ => rfl, fun a _ _ => convertsLanes_fcvt (of_decide_eq_true hty) (Nat.lt_succ_of_le himm) (mod_four_lt _) _ a⟩
  | cvt =>
    obtain ⟨-, himm⟩ := imm_le hwf hrow (by cases hrow; rfl)
    cases hrow
    exact ⟨_, fun _ => rfl, cvt_meets himm (of_decide_eq_true hty) hrule⟩
  | lane =>
    cases hrow; cases hrule
    exact ⟨_, fun _ => rfl, fun a b _ => converts_lane (of_decide_eq_true hty) a _⟩
  | vins =>
    cases hrow; cases hrule
    exact ⟨_, fun _ => rfl, fun a b c => vins_lanes (of_decide_eq_true hty) a b _⟩
  | vsum =>
    cases hrow; cases hrule
    exact ⟨_, fun _ => rfl, fun a b c => packed_F32 (sums_vsumOp _ (mod_four_lt _) a)⟩
  | _ => cases hrule

/-- Settles O18: each floating instruction's result meets its law, and its set fires with it. -/
theorem floatResults : Obligations.FloatResults := by
  intro i r w law s fr o tx ty hwf hrow hrule hex hd fr'
  obtain ⟨g, hexec, hg⟩ := floatRule_meets hwf hrow hrule
  refine ⟨_, _, hg .., fun hroom => ?_⟩
  rw [hexec, fireAlu_executes hex hd rfl hroom]

end Sys2Proof.Machine
end

section
/-! Flow and record instructions, STEER and GATE, and SRC (R171 to R175, R186, R212; log 124): what each puts out for a set that executes, or for
a number of its arming. -/

namespace Sys2Proof.Machine

open Sys2Proof Sys2Proof.Safety

/-! ## Flow and record instructions (R171, R173, R174, R186) -/

/-- A set that executes and puts out one token on X fires with it alone. -/
theorem fireSet_emitX {s : State} {fr : Firing} {w : CW} {ids : Nat → Nat} {o : OpSet} {tx ty : Time} {body : Firing → State} {v : W64}
    {key : W32} {kv nul fin : Bool} {d : Int} (h : Executes s fr w false ids o tx ty) (hd : FitsDif d)
    (hbody : body { fr with set := o } = emitX s w { fr with set := o } (outTok w { fr with set := o } 4 v key kv d nul fin))
    (hroom : hasRoom s fr.sl ⟨[⟨v, key, BitVec.ofInt 32 d, tx, o.id.seq, w.xc, nul, fin, kv⟩], [], 0, [], true⟩ = true) :
    fireSet s w false true true ids body =
      fired s w { fr with set := o } ⟨[⟨v, key, BitVec.ofInt 32 d, tx, o.id.seq, w.xc, nul, fin, kv⟩], [], 0, [], true⟩ := by
  rw [fireSet_go h.issues h.judged, hbody, outTok_x (fr := { fr with set := o }) (executes_times h).1 hd]
  exact conclude_fired (fr := { fr with set := o }) hroom ..

/-- Settles O20: each puts out one token on X, DUP another on Y, and SINK none. -/
theorem flowResults : Obligations.FlowResults := by
  intro i r w s fr o tx ty d e hrow hex hrule hd hroom
  obtain ⟨hx, hy⟩ := executes_times hex
  cases i with
  | idnt | null | ends | rekey | valk | negd => cases hrow; cases hrule; exact congrArg _ (fireSet_emitX hex hd rfl hroom)
  | dset =>
    cases hrow; cases hrule
    refine congrArg _ (fireSet_emitX hex hd ?_ hroom)
    simp only [sint_eq_toInt (show 0 < 32 by decide), BitVec.ofNat_toNat]
  | const =>
    cases hrow
    simp only [flowRule] at hrule
    split at hrule
    next hbare =>
      cases hrule
      exact congrArg _ (fireSet_emitX hex hd (congrArg (emitX s w _) (if_pos hbare)) hroom)
    next hbare =>
      cases hrule
      exact congrArg _ (fireSet_emitX hex hd (congrArg (emitX s w _) (if_neg hbare)) hroom)
  | sink =>
    cases hrow; cases hrule
    exact congrArg _ ((fireSet_go hex.issues hex.judged).trans (commit_fired (fr := { fr with set := o }) hroom))
  | dup =>
    cases hrow; cases hrule
    refine congrArg _ ((fireSet_go hex.issues hex.judged).trans ?_)
    simp only [resTok, outTok_x (fr := { fr with set := o }) hx hd, outTok_y (fr := { fr with set := o }) hy hd]
    exact conclude_fired (fr := { fr with set := o }) hroom ..
  | _ => cases hrule

/-! ## STEER and GATE (R172) -/

section
variable {s : State} {w : CW} {fr : Firing} {p : Token} {tx ty : Time} (hiss : Issues s fr) (hp : fr.set.p = some p)
  (hx : act w.xt fr.set.id.time = some tx) (hy : act w.yt fr.set.id.time = some ty)
include hiss hp

section
include hx hy

/-- An END of A or P ends both outputs. -/
theorem steerGate_end (gate : Bool) (h : (isEnd fr.set.a || p.fin) = true)
    (hroom : hasRoom s fr.sl ⟨[specTok w.xc fr.set tx false true], [specTok w.yc fr.set ty false true], 0, [], false⟩ = true) :
    steerGate s w gate = fired s w fr ⟨[specTok w.xc fr.set tx false true], [specTok w.yc fr.set ty false true], 0, [], false⟩ := by
  have hend : (isEnd fr.set.a || isEnd fr.set.p) = true := by rw [hp]; exact h
  rw [steerGate, fireOwn_issues hiss, if_pos hend, both_ok (endTok_x hx) (endTok_y hy)]
  exact conclude_fired hroom ..

/-- A NUL on P puts a NUL on both outputs. -/
theorem steerGate_nul (gate : Bool) (h : (isEnd fr.set.a || p.fin) = false) (hnul : p.nul = true)
    (hroom : hasRoom s fr.sl ⟨[specTok w.xc fr.set tx true false], [specTok w.yc fr.set ty true false], 0, [], false⟩ = true) :
    steerGate s w gate = fired s w fr ⟨[specTok w.xc fr.set tx true false], [specTok w.yc fr.set ty true false], 0, [], false⟩ := by
  have hend : ¬ (isEnd fr.set.a || isEnd fr.set.p) = true := by rw [hp]; exact ne_true_of_eq_false h
  have hp' : isNul fr.set.p = true := by rw [hp]; exact hnul
  rw [steerGate, fireOwn_issues hiss, if_neg hend, if_pos hp', both_ok (nulTok_x hx) (nulTok_y hy)]
  exact conclude_fired hroom ..

end

/-- What STEER and GATE do where P is a value and A no END: P's value selects the output, or nothing where GATE finds it zero. -/
theorem steerGate_value (gate : Bool) (h : ((isEnd fr.set.a || p.fin) || p.nul) = false) : steerGate s w gate =
    if gate && !(p.val != 0) then commit s w fr (noEmit (!isNul fr.set.a))
    else conclude s w fr true true 0 (do
      let t ← if isNul fr.set.a then nulTok w fr (if p.val != 0 then 4 else 5) else resTok w fr (if p.val != 0 then 4 else 5) (valA w fr)
      return ⟨if p.val != 0 then [t] else [], if p.val != 0 then [] else [t], 0, [], !isNul fr.set.a⟩) := by
  obtain ⟨hend, hnul⟩ := Bool.or_eq_false_iff.mp h
  have hend' : ¬ (isEnd fr.set.a || isEnd fr.set.p) = true := by rw [hp]; exact ne_true_of_eq_false hend
  have hnul' : ¬ isNul fr.set.p = true := by rw [hp]; exact ne_true_of_eq_false hnul
  rw [steerGate, fireOwn_issues hiss, if_neg hend', if_neg hnul', hp]
  rfl

end

/-- What A is steered to X as: a NUL stands for itself. -/
theorem steered_x {w : CW} {fr : Firing} {tx : Time} (hx : act w.xt fr.set.id.time = some tx) (hd : FitsDif (difOut w fr.set)) (ex : Bool) :
    (do
      let t ← if isNul fr.set.a then nulTok w fr 4 else resTok w fr 4 (valA w fr)
      return ⟨[t], [], 0, [], ex⟩ : Except Nat Emit) = .ok ⟨[if isNul fr.set.a then specTok w.xc fr.set tx true false
      else xTok w fr.set tx (valA w fr) (keyA w fr.set) (kvA w fr.set) (difOut w fr.set)], [], 0, [], ex⟩ := by
  split
  · rw [nulTok_x hx]; rfl
  · rw [resTok, outTok_x hx hd]; rfl

theorem steered_y {w : CW} {fr : Firing} {ty : Time} (hy : act w.yt fr.set.id.time = some ty) (hd : FitsDif (difOut w fr.set)) (ex : Bool) :
    (do
      let t ← if isNul fr.set.a then nulTok w fr 5 else resTok w fr 5 (valA w fr)
      return ⟨[], [t], 0, [], ex⟩ : Except Nat Emit) = .ok ⟨[], [if isNul fr.set.a then specTok w.yc fr.set ty true false
      else yTok w fr.set ty (valA w fr) (keyA w fr.set) (kvA w fr.set) (difOut w fr.set)], 0, [], ex⟩ := by
  split
  · rw [nulTok_y hy]; rfl
  · rw [resTok, outTok_y hy hd]; rfl

/-- Settles O21: ENDs and NULs on P go to both outputs; otherwise P's value selects one. -/
theorem steerAndGate : Obligations.SteerAndGate := by
  intro i w s fr tx ty p hi hiss hp hx hy hd o d nul stop all toX toY
  obtain ⟨gate, hexec⟩ : ∃ gate, exec i s = .next (steerGate s w gate) := by
    obtain rfl | rfl := hi
    · exact ⟨false, rfl⟩
    · exact ⟨true, rfl⟩
  have ne_zero {v : W64} (hv : v ≠ 0) : (v != 0) = true := bne_iff_ne.mpr hv
  refine ⟨fun hstop hroom => ?stop, fun hstop hnul hroom => ?nul, fun h hv hroom => ?x, fun h hv hsteer hroom => ?y, fun h hv hgate => ?none⟩
  case stop => rw [hexec, steerGate_end hiss hp hx hy gate hstop hroom]
  case nul => rw [hexec, steerGate_nul hiss hp hx hy gate hstop hnul hroom]
  case x =>
    rw [hexec, steerGate_value hiss hp gate h]
    simp only [bne_iff_ne.mpr hv, Bool.not_true, Bool.and_false, Bool.false_eq_true, if_false, if_true]
    rw [steered_x hx hd]
    exact congrArg _ (conclude_fired hroom ..)
  case y =>
    subst hsteer
    refine congrArg _ ((steerGate_value hiss hp false h).trans ?_)
    simp only [hv, bne_self_eq_false, Bool.false_and, Bool.false_eq_true, if_false]
    rw [steered_y hy hd]
    exact conclude_fired hroom ..
  case none =>
    subst hgate
    refine congrArg _ ((steerGate_value hiss hp true h).trans ?_)
    simp only [hv, bne_self_eq_false, Bool.not_false, Bool.and_self, if_true]
    exact commit_fired (hasRoom_noEmit ..)

/-! ## SRC (R175, R212) -/

/-- Settles O22: the next number of the arming is the token's VAL and SEQ, and the last one's firing records the -1. -/
theorem sourcesEmit : Obligations.SourcesEmit := by
  intro w s fr z n tx hbare hz hn hlt hrun hx k o e u hbreak hroom
  have htok : outTok w { fr with set := o } 4 (extend w.ty.toNat k) 0 false 1 false false = .ok (xTok w o tx (extend w.ty.toNat k) 0 false 1) :=
    outTok_x (fr := { fr with set := o }) hx ⟨by decide, by decide⟩ ..
  have hgo : (decide (k < n) && running s fr.node.lid) = true := by rw [hrun, decide_eq_true hlt]; rfl
  change execSrc w s = .next (apply u w { fr with set := o } e [] (flushAfter w o e))
  simp only [execSrc, hbare, hz, hn]
  rw [if_pos hgo, hbreak, htok]
  simp only [Bool.false_eq_true, if_false]
  rw [if_pos hroom, ← hn]

end Sys2Proof.Machine
end

section
/-! Streams and folds (R176 to R178, R184, R185, R437; log 20): the state entry that a firing opens, writes and frees, what CNT, SCAN and CONSOL
make of a record and of an END, and how TRED and ALL take the tokens of a fold in the order of their SEQ. -/

namespace Sys2Proof.Machine

open Sys2Proof Sys2Proof.Safety

/-! ## Changes of the matching store (R112, R437) -/

/-- The matching stores and their orders of allocation are all that may differ. -/
def StoreOnly (s t : State) : Prop := ∃ m o, t = { s with x := { s.x with mstore := m, mord := o } }

section
variable {s t u : State}

theorem StoreOnly.trans (a : StoreOnly s t) (b : StoreOnly t u) : StoreOnly s u := by
  obtain ⟨_, _, rfl⟩ := a
  obtain ⟨_, _, rfl⟩ := b
  exact ⟨_, _, rfl⟩

theorem storeOnly_setState (s : State) (c : CoreId) (e : Nat) (id : Ident) (r : RunSt) : StoreOnly s (setState s c e id r) := ⟨_, _, rfl⟩

theorem storeOnly_freeState (s : State) (c : CoreId) (e : Nat) (id : Ident) : StoreOnly s (freeState s c e id) := ⟨_, _, rfl⟩

theorem storeOnly_openState {sl : Slot} {id : Ident} {r : RunSt} {new : Bool} (h : openState s sl id = some (r, new, t)) : StoreOnly s t := by
  unfold openState at h
  split at h
  · cases h
    exact ⟨_, _, rfl⟩
  · split at h
    · cases h
      exact ⟨_, _, rfl⟩
    · obtain ⟨u, hu, hnew⟩ := Option.map_eq_some_iff.mp h
      obtain ⟨l, -, rfl⟩ := Option.map_eq_some_iff.mp hu
      cases hnew
      exact ⟨_, _, rfl⟩

/-- The room on an output does not depend on the matching store. -/
theorem StoreOnly.hasRoom (h : StoreOnly s t) (sl : Slot) (e : Emit) : hasRoom t sl e = hasRoom s sl e := by
  obtain ⟨_, _, rfl⟩ := h
  rfl

theorem hasRoom_nothing (s : State) (sl : Slot) (fl : BitVec 5) (its : List CountItem) (ex : Bool) :
    hasRoom s sl ⟨[], [], fl, its, ex⟩ = true := by
  simp only [Machine.hasRoom, List.length_nil, roomFor_zero, Bool.and_self]

/-- A firing that has changed the matching store commits with the change. -/
theorem commitFrom_fired {w : CW} {fr : Firing} {e : Emit} (h : StoreOnly s t) (hroom : Machine.hasRoom s fr.sl e = true) :
    commitFrom s t w fr (.ok e) = fired t w fr e := by
  simp only [commitFrom, hroom, if_true]
  exact commit_fired ((h.hasRoom ..).trans hroom)

end

/-! ## Streams (R176, R184, R185) -/

theorem fitsDif_toInt (d : W32) : FitsDif d.toInt := ⟨d.le_toInt, d.toInt_lt⟩

section
variable {s : State} {w : CW} {fr : Firing} (hiss : Issues s fr) {onEnd onRec : Firing → RunSt → Bool → State → State}
include hiss

theorem streamFire_record {r : RunSt} {new : Bool} {t : State} (h : (isEnd fr.set.a || isEnd fr.set.p || isNul fr.set.a) = false)
    (hp : pMatches w fr.set.p = true) (hopen : openState s fr.sl fr.set.id = some (r, new, t)) :
    streamFire s w onEnd onRec = onRec fr r new t := by
  obtain ⟨hend, hnul⟩ := Bool.or_eq_false_iff.mp h
  simp only [streamFire, fireOwn_issues hiss, hend, hnul, hp, hopen, Bool.not_true, Bool.and_false, Bool.false_eq_true, if_false]

/-- At an END the stream's entry, or an empty one where it has none, is handed on with whether there was one. -/
theorem streamFire_end {r : RunSt} {had : Bool} (h : (isEnd fr.set.a || isEnd fr.set.p) = true)
    (hentry : (had = true ∧ stateEntry s fr.sl.core fr.sl.e fr.set.id = some r) ∨
      (had = false ∧ stateEntry s fr.sl.core fr.sl.e fr.set.id = none ∧ r = RunSt.start)) :
    streamFire s w onEnd onRec = onEnd fr r had s := by
  obtain ⟨rfl, he⟩ | ⟨rfl, he, rfl⟩ := hentry <;>
    simp only [streamFire, fireOwn_issues hiss, h, he, Bool.not_true, Bool.false_and, Bool.false_eq_true, if_false, if_true]

end

section
variable {w : CW} {fr : Firing} {r : RunSt} {tx : Time}

theorem flushRun_none (h : r.run = none) : flushRun w fr r = .ok [] := by simp only [flushRun, h]

theorem flushRun_some {t : Token} (h : r.run = some t) (hx : act w.xt fr.set.id.time = some tx) :
    flushRun w fr r = .ok (if t.dif = 0 then [] else [xTok w fr.set tx t.val t.key t.kv t.dif.toInt]) := by
  simp only [flushRun, h, outTok_x hx (fitsDif_toInt t.dif)]
  split <;> rfl

end

/-- Settles O23: the entry that the record opens takes the count, the sum or the run, and the firing commits with it. -/
theorem streamRecords : Obligations.StreamRecords := by
  intro w s s2 fr r new tx hiss hlive hp hopen hx o items keep
  have kept (q : RunSt) : StoreOnly s (keep q) := (storeOnly_openState hopen).trans (storeOnly_setState ..)
  refine ⟨?cnt, ?scan, fun a ha => ?consol⟩
  case cnt =>
    refine congrArg _ ((streamFire_record hiss hlive hp hopen).trans ?_)
    exact commitFrom_fired (kept _) (hasRoom_nothing ..)
  case scan =>
    intro out e hd hroom
    have hd : FitsDif (difOf w.sa fr.set.a) := hd
    refine congrArg _ ((streamFire_record hiss hlive hp hopen).trans ?_)
    simp only [outTok_x hx hd]
    exact commitFrom_fired (kept _) hroom
  case consol =>
    have ha : fr.set.a = some a := ha
    intro rec_ same
    refine ⟨fun hrun => ?start, fun t hrun hsame hd => ?merge, fun t hrun hsame => ?flush⟩
    case start =>
      refine congrArg _ ((streamFire_record hiss hlive hp hopen).trans ?_)
      simp only [hrun, ha, Option.getD_some]
      exact commitFrom_fired (kept _) (hasRoom_nothing ..)
    case merge =>
      have hsame : (decide (t.key = a.key) &&
        decide (t.val.toNat % 2 ^ valWidth w.ty.toNat = (valA w fr).toNat % 2 ^ valWidth w.ty.toNat)) = true := hsame
      refine congrArg _ ((streamFire_record hiss hlive hp hopen).trans ?_)
      simp only [hrun, ha, Option.getD_some, hsame, inRange_of_fitsDif hd, Bool.false_eq_true, if_true, if_false]
      exact commitFrom_fired (kept _) (hasRoom_nothing ..)
    case flush =>
      intro e hroom
      have hsame : (decide (t.key = a.key) &&
        decide (t.val.toNat % 2 ^ valWidth w.ty.toNat = (valA w fr).toNat % 2 ^ valWidth w.ty.toNat)) = false := hsame
      refine congrArg _ ((streamFire_record hiss hlive hp hopen).trans ?_)
      simp only [hrun, ha, Option.getD_some, hsame, Bool.false_eq_true, if_false, flushRun_some hrun hx]
      exact commitFrom_fired (kept _) hroom

/-- Settles O24: the entry is freed, and what it held goes out ahead of the END. -/
theorem streamEnds : Obligations.StreamEnds := by
  intro w s fr r had tx hiss hend hentry hx o items u fin
  have freed : StoreOnly s u := storeOnly_freeState ..
  have one : FitsDif 1 := ⟨by decide, by decide⟩
  refine ⟨fun hroom => ?cnt, fun hroom => ?scan, fun hroom => ?consol⟩
  case cnt =>
    refine congrArg _ ((streamFire_end hiss hend hentry).trans ?_)
    simp only [outTok_x hx one, endTok_x hx]
    exact commitFrom_fired freed hroom
  case scan =>
    refine congrArg _ ((streamFire_end hiss hend hentry).trans ?_)
    simp only [outTok_x hx one, endTok_x hx]
    refine Eq.trans ?_ (commitFrom_fired freed hroom)
    split <;> rfl
  case consol =>
    refine congrArg _ ((streamFire_end hiss hend hentry).trans ?_)
    refine Eq.trans ?_ (commitFrom_fired freed hroom)
    cases hrun : r.run with
    | none => simp only [flushRun_none hrun, endTok_x hx]; rfl
    | some t => simp only [flushRun_some hrun hx, endTok_x hx]; rfl

/-! ## Folds (R177, R178) -/

/-- The identity of the state entry of a fold: its tokens differ in SEQ alone. -/
def foldId (o : OpSet) : Ident := { o.id with seq := 0 }

/-- A token of a fold brings a value. -/
def foldLive (o : OpSet) : Bool := !isNul o.a && !isEnd o.a

/-- The fold's state after the token of the next SEQ, and the flags that the step raises. -/
def foldStep (w : CW) (all : Bool) (fr : Firing) (r : RunSt) : RunSt × BitVec 5 :=
  let step : W64 × BitVec 5 := if all || !r.any then (valA w fr, 0) else foldOp w.fn.toNat w.ty.toNat r.acc (valA w fr)
  ({ r with
      next := r.next + 1
      acc := if all then valA w fr else if foldLive fr.set then step.1 else r.acc
      any := r.any || foldLive fr.set },
    if foldLive fr.set && !all then step.2 else 0)

/-- The result of a fold, as the token that its last one puts out. -/
def foldResult (w : CW) (all : Bool) (fr : Firing) (r : RunSt) : Except Nat Token :=
  if all then outTok w fr 4 r.acc 0 false 1 false false
  else if r.any then outTok w fr 4 (extend w.ty.toNat r.acc.toNat) 0 false 1 false false
  else nulTok w fr 4

/-- A fold's result alone goes out at its last token. -/
theorem foldResult_emitted {w : CW} {all : Bool} {fr : Firing} {r : RunSt} {x : Token} (h : foldResult w all fr r = .ok x) (fl : BitVec 5)
    (its : List CountItem) (ex : Bool) : (do
      let t ← if all then outTok w fr 4 r.acc 0 false 1 false false
        else if r.any then outTok w fr 4 (extend w.ty.toNat r.acc.toNat) 0 false 1 false false
        else nulTok w fr 4
      return ⟨[t], [], fl, its, ex⟩ : Except Nat Emit) = .ok ⟨[x], [], fl, its, ex⟩ := by
  unfold foldResult at h
  split_ifs at h ⊢ <;> rw [h] <;> rfl

theorem fold_inRange {n q next : Nat} (hlt : q < n) (hle : next ≤ q) : (decide (n ≤ q) || decide (q < next)) = false := by
  simp only [Bool.or_eq_false_iff, decide_eq_false_iff_not, not_le, not_lt]
  exact ⟨hlt, hle⟩

/-- An END counts whatever the predicate, and a token whose predicate matches (log 20). -/
theorem fold_taken {w : CW} {o : OpSet} (h : isEnd o.a = true ∨ pMatches w o.p = true) : (!isEnd o.a && !pMatches w o.p) = false := by
  rcases h with h | h <;> simp [h]

section
variable {s : State} {w : CW} {fr : Firing} {cur : RunSt} (hiss : Issues s fr)
  (hcur : (stateEntry s fr.sl.core fr.sl.e (foldId fr.set)).getD RunSt.start = cur)
include hiss hcur

theorem foldFire_outOfRange (all : Bool) (h : w.imm.toNat ≤ fr.set.id.seq.toNat ∨ fr.set.id.seq.toNat < cur.next) :
    foldFire s w all = parkSet (popIq s fr.sl) fr.sl fr.node fr.set Code.seqRange 0 (.core fr.sl.core) := by
  have hrange : (decide (w.imm.toNat ≤ fr.set.id.seq.toNat) || decide (fr.set.id.seq.toNat < cur.next)) = true := by simpa using h
  rw [foldId] at hcur
  simp only [foldFire, fireOwn_issues hiss, hcur, hrange, if_true]
  exact faultFiring_park (catchFor_of_not_catchable rfl ..) ..

section
variable (hlt : fr.set.id.seq.toNat < w.imm.toNat) (hle : cur.next ≤ fr.set.id.seq.toNat)
include hlt hle

/-- A token whose predicate does not match puts out a NUL and leaves the fold untouched (log 20). -/
theorem foldFire_skips (all : Bool) {tx : Time} (hx : act w.xt fr.set.id.time = some tx)
    (h : ¬ (isEnd fr.set.a = true ∨ pMatches w fr.set.p = true))
    (hroom : hasRoom s fr.sl ⟨[specTok w.xc fr.set tx true false], [], 0, [], false⟩ = true) :
    foldFire s w all = fired s w fr ⟨[specTok w.xc fr.set tx true false], [], 0, [], false⟩ := by
  have hskip : (!isEnd fr.set.a && !pMatches w fr.set.p) = true := by simpa [not_or] using h
  have hboth : both w fr true false nulTok = .ok ⟨[specTok w.xc fr.set tx true false], [], 0, [], false⟩ := by
    simp only [both, nulTok_x hx]
    rfl
  rw [foldId] at hcur
  simp only [foldFire, fireOwn_issues hiss, hcur, fold_inRange hlt hle, hskip, hboth, Bool.false_eq_true, if_false, if_true]
  exact conclude_fired hroom ..

variable (htaken : isEnd fr.set.a = true ∨ pMatches w fr.set.p = true)
include htaken

/-- A token beyond the next SEQ waits among the operands of the store. -/
theorem foldFire_waits (all : Bool) (hahead : cur.next < fr.set.id.seq.toNat) {t : State}
    (halloc : allocEntry s fr.sl.core fr.sl.e fr.set.id .operands fr.set.a none none fr.set.p = some t) :
    foldFire s w all = noteIssue (popIq t fr.sl) fr := by
  rw [foldId] at hcur
  simp only [foldFire, fireOwn_issues hiss, hcur, fold_inRange hlt hle, fold_taken htaken, hahead, halloc, Bool.false_eq_true, if_false, if_true]

end

section
variable (hlt : fr.set.id.seq.toNat < w.imm.toNat) (hnext : fr.set.id.seq.toNat = cur.next)
  (htaken : isEnd fr.set.a = true ∨ pMatches w fr.set.p = true) {r : RunSt} {new : Bool} {t : State}
  (hopen : openState s fr.sl (foldId fr.set) = some (r, new, t))
include hlt hnext htaken hopen

/-- A token of the next SEQ that is not the last: the entry takes the step, and a set that waited for its turn may follow. -/
theorem foldFire_more (all : Bool) (hmore : r.next + 1 < w.imm.toNat) : foldFire s w all =
    promote (fired (setState t fr.sl.core fr.sl.e (foldId fr.set) (foldStep w all fr r).1) w fr
      ⟨[], [], (foldStep w all fr r).2, if new then [stateItem fr 1] else [], foldLive fr.set⟩)
      fr.sl fr.node { fr.set.id with seq := BitVec.ofNat 24 (r.next + 1) } := by
  have hin := fold_inRange hlt hnext.ge
  have hne : ¬ cur.next < fr.set.id.seq.toNat := hnext.le.not_gt
  rw [foldId] at hcur hopen
  simp only [foldFire, fireOwn_issues hiss, hcur, hin, fold_taken htaken, hne, hopen, hmore.ne, Bool.false_eq_true, if_false]
  exact congrArg (promote · _ _ _) (commitFrom_fired ((storeOnly_openState hopen).trans (storeOnly_setState ..)) (hasRoom_nothing ..))

/-- The last token of a fold puts out the result and frees the entry. -/
theorem foldFire_last (all : Bool) (hlast : r.next + 1 = w.imm.toNat) {x : Token}
    (hx : foldResult w all { fr with set := { fr.set with id := foldId fr.set } } (foldStep w all fr r).1 = .ok x)
    (hroom : hasRoom s fr.sl ⟨[x], [], (foldStep w all fr r).2, if new then [] else [stateItem fr (-1)], foldLive fr.set⟩ = true) :
    foldFire s w all = fired (freeState t fr.sl.core fr.sl.e (foldId fr.set)) w fr
      ⟨[x], [], (foldStep w all fr r).2, if new then [] else [stateItem fr (-1)], foldLive fr.set⟩ := by
  have hin := fold_inRange hlt hnext.ge
  have hne : ¬ cur.next < fr.set.id.seq.toNat := hnext.le.not_gt
  refine Eq.trans ?_ (commitFrom_fired ((storeOnly_openState hopen).trans (storeOnly_freeState ..)) hroom)
  rw [← foldResult_emitted hx]
  rw [foldId] at hcur hopen
  simp only [foldFire, fireOwn_issues hiss, hcur, hin, fold_taken htaken, hne, hopen, hlast, Bool.false_eq_true, if_false, if_true]
  rfl

end
end

/-- TRED's class of types are the integers and the two scalar formats (R53). -/
theorem tred_ty {w : CW} (h : (Instr.tred w).wf = true) : w.ty.toNat < 10 := by
  obtain ⟨-, hty⟩ := fn_ty_ok h rfl
  exact of_decide_eq_true hty

/-- What ALL keeps and what TRED folds, of a token of the next SEQ. -/
theorem foldStep_all (w : CW) (fr : Firing) (r : RunSt) :
    foldStep w true fr r = (⟨r.count, r.recs, r.run, r.next + 1, valA w fr, r.any || foldLive fr.set⟩, 0) := by
  simp only [foldStep, Bool.not_true, Bool.and_false, Bool.false_eq_true, if_true, if_false]

theorem foldStep_tred (w : CW) (fr : Firing) (r : RunSt) :
    let v : W64 × BitVec 5 := if !foldLive fr.set then (r.acc, 0)
      else if r.any then foldOp w.fn.toNat w.ty.toNat r.acc (valA w fr) else (valA w fr, 0)
    foldStep w false fr r = (⟨r.count, r.recs, r.run, r.next + 1, v.1, r.any || foldLive fr.set⟩, v.2) := by
  cases hl : foldLive fr.set <;> cases ha : r.any <;> simp [foldStep, hl, ha]

/-- Settles O25: the token of the next SEQ takes the step of its fold, and the last one puts out its result. -/
theorem foldsAndGathers : Obligations.FoldsAndGathers := by
  refine ⟨?fires, fun w acc v hwf => foldRule_foldOp _ (tred_ty hwf) acc v⟩
  intro w s fr tx hiss hx o n q id cur live taken
  have exec_fold {t : State} (h : ∀ all, foldFire s w all = t) : ∀ i, i = .tred w ∨ i = .all w → exec i s = .next t := by
    rintro i (rfl | rfl)
    · exact congrArg Host.Outcome.next (h false)
    · exact congrArg Host.Outcome.next (h true)
  have hlive : live = foldLive fr.set := Bool.not_or ..
  refine ⟨fun h => ?range, fun hlt hle h => ?skips, fun t hlt hahead htaken halloc => ?waits, fun r new t hlt hnext htaken hopen _ => ?folds⟩
  case range => exact exec_fold fun all => foldFire_outOfRange hiss rfl all h
  case skips =>
    intro e hroom
    exact exec_fold fun all => foldFire_skips hiss rfl hlt hle all hx h hroom
  case waits => exact exec_fold fun all => foldFire_waits hiss rfl hlt hahead.le htaken all hahead halloc
  case folds =>
    intro v any
    have one : FitsDif 1 := ⟨by decide, by decide⟩
    have hall : foldStep w true fr r = (⟨r.count, r.recs, r.run, r.next + 1, valA w fr, any⟩, 0) := by rw [foldStep_all, ← hlive]
    have htred : foldStep w false fr r = (⟨r.count, r.recs, r.run, r.next + 1, v.1, any⟩, v.2) := by rw [foldStep_tred, ← hlive]
    have more := foldFire_more hiss rfl hlt hnext htaken hopen
    have last := fun all hlast x hx => foldFire_last hiss rfl hlt hnext htaken hopen (x := x) all hlast hx
    refine ⟨fun hmore => ?allMore, fun hmore => ?tredMore, ?allLast, ?tredLast⟩
    case allMore =>
      refine ⟨_, congrArg Host.Outcome.next (more true hmore), _, rfl, ?_⟩
      rw [hall, ← hlive]
      rfl
    case tredMore =>
      refine ⟨_, congrArg Host.Outcome.next (more false hmore), _, rfl, ?_⟩
      rw [htred, ← hlive]
      rfl
    case allLast =>
      intro e hlast hroom
      have hout : foldResult w true { fr with set := { o with id := id } } ⟨r.count, r.recs, r.run, r.next + 1, valA w fr, any⟩ =
          .ok (xTok w { o with id := id } tx (valA w fr) 0 false 1) :=
        outTok_x (fr := { fr with set := { o with id := id } }) hx one ..
      have hfired := last true hlast _ (by rw [hall]; exact hout)
      rw [hall, ← hlive] at hfired
      exact congrArg _ (hfired hroom)
    case tredLast =>
      intro out e hlast hroom
      have hout : foldResult w false { fr with set := { o with id := id } } ⟨r.count, r.recs, r.run, r.next + 1, v.1, any⟩ = .ok out := by
        simp only [foldResult, out, Bool.false_eq_true, if_false]
        split
        · exact outTok_x (fr := { fr with set := { o with id := id } }) hx one ..
        · exact nulTok_x (fr := { fr with set := { o with id := id } }) hx
      have hfired := last false hlast out (by rw [htred]; exact hout)
      rw [htred, ← hlive] at hfired
      exact congrArg _ (hfired hroom)

end Sys2Proof.Machine
end

section
/-! Memory at its home (R188, R192 to R194, R196, R267, R354, R356, R358; log 127): which request has arrived and in which copy its home serves it,
what a plain access, an atomic and a window's access leave, and which .AON requests of a tile go on. -/

namespace Sys2Proof.Machine

open Sys2Proof Sys2Proof.Safety

/-! ## The copy that a home acts on (R196, R267, R298) -/

section
variable {s : State} {ctx pa : Nat}

/-- A context whose copy is in place is not saved out. -/
theorem ctxAway_inPlace (h : InPlace s ctx) : ctxAway s ctx = false := by
  obtain ⟨live, -⟩ := h
  unfold ctxLive at live
  unfold ctxAway
  split <;> simp_all

theorem atHome_inPlace (h : HomeInPlace s ctx pa) (f : State → State) : atHome s ctx pa f = f s := by
  unfold atHome
  split
  next hk =>
    have hc : InPlace s ctx := h.resolve_left fun ⟨h1, h2⟩ => by simp [h1, h2] at hk
    simp only [ctxAway_inPlace hc, Bool.false_eq_true, if_false, onCopy_inPlace hc]
  next => rfl

/-- Where no other copy holds a request that waits at a home, an effect on those that wait there acts on the state as it stands. -/
theorem eachCopy_alone {u : UnitId} (h : waitingAway s u = []) (f : State → State) : eachCopy s u pa f = f s := by
  unfold eachCopy
  split
  · rfl
  · rw [h]; rfl

end

/-! ## What a write wakes leaves every window where it is (R90, R354, R356) -/

section
variable {s t : State}

theorem decodePA_congr (h : t.wins = s.wins) (pa : Nat) : decodePA t pa = decodePA s pa := by simp only [decodePA, h]

theorem homeUnit_congr (h : t.wins = s.wins) (pa : Nat) : homeUnit t pa = homeUnit s pa := by rw [homeUnit, homeUnit, decodePA_congr h]

theorem onCopy_wins {f : State → State} (hf : ∀ u, (f u).wins = u.wins) (s : State) (ctx : Nat) : (onCopy s ctx f).wins = s.wins := by
  rw [onCopy]
  split
  · exact hf s
  · split
    · exact hf s
    · split
      · exact hf { exchange s _ with swapped := some ctx }
      · split
        · exact hf s
        · split
          · exact hf { s with x := _, mem := _, ecc := _, aon := _, swapped := some ctx }
          · exact hf s

theorem foldl_wins {α : Type} {f : State → α → State} (hf : ∀ u a, (f u a).wins = u.wins) (as : List α) (s : State) :
    (as.foldl f s).wins = s.wins :=
  List.foldlRecOn (motive := fun u : State => u.wins = s.wins) as f rfl fun u h a _ => (hf u a).trans h

theorem eachCopy_wins {f : State → State} (hf : ∀ u, (f u).wins = u.wins) (s : State) (u : UnitId) (pa : Nat) :
    (eachCopy s u pa f).wins = s.wins := by
  unfold eachCopy
  split
  · exact hf s
  · exact (foldl_wins (fun t c => onCopy_wins hf t c) ..).trans (hf s)

theorem sendAns_wins (s : State) (u : UnitId) (r : PortReq) (a : Ans) : (sendAns s u r a).wins = s.wins := by
  rw [sendAns]
  split
  · split <;> rfl
  · rfl

theorem serveStwaits_wins (u : UnitId) (pa n : Nat) (s : State) : (serveStwaits u pa n s).wins = s.wins := by
  refine (foldl_wins (fun t e => ?_) ..).trans rfl
  split
  · exact sendAns_wins ..
  · rfl

theorem latchStamps_wins (s : State) (pa n : Nat) : (latchStamps s pa n).wins = s.wins := by
  rw [latchStamps]
  split <;> split <;> rfl

theorem wakeStwait_wins (s : State) (pa n : Nat) : (wakeStwait s pa n).wins = s.wins := by
  simp only [wakeStwait]
  split
  · exact latchStamps_wins ..
  · exact (eachCopy_wins (serveStwaits_wins _ pa n) ..).trans (latchStamps_wins ..)

theorem homeUnit_wakeStwait (s : State) (pa n q : Nat) : homeUnit (wakeStwait s pa n) q = homeUnit s q := homeUnit_congr (wakeStwait_wins ..) q

end

/-! ## Plain accesses and atomics by operator (R187, R188, R192) -/

/-- A plain access and an atomic are checked against the width of their type. -/
theorem opWidth_access {o : Op} (h : isPlain o = true ∨ isAtomic o = true) (ty : Nat) : opWidth o ty = tyBytes ty := by
  cases o with
  | ld | st | std | atom | cas | fatom => rfl
  | _ => exact absurd h (by decide)

theorem isPlain_store {o : Op} (h : o = .st ∨ o = .std) : isPlain o = true ∧ (o == .ld) = false := by
  obtain rfl | rfl := h <;> exact ⟨rfl, rfl⟩

/-! ## Serving a plain access (R134, R188) -/

section
variable {s : State} {r : PortReq} {pa : Nat} {cmp : Bool}

theorem serveLoad_read {v : State} {b : List Byte} (h : homeRead s (some r.ctx) pa (tyBytes r.w.ty.toNat) cmp = .ok (v, b)) :
    serveLoad s r pa cmp none = sendAns v (homeUnit v pa) r (ansVal (extend r.w.ty.toNat (leNat b))) := by
  simp only [serveLoad, h, ansVal]

theorem serveLoad_refused {c : Nat} (h : homeRead s (some r.ctx) pa (tyBytes r.w.ty.toNat) cmp = .error c) :
    serveLoad s r pa cmp none = refuse s r pa c := by
  simp only [serveLoad, h]

theorem serveStore_written {v : State}
    (h : homeWrite s (some r.ctx) pa (leBytes (tyBytes r.w.ty.toNat) r.val.toNat) cmp = .ok v) :
    serveStore s r pa cmp = sendAns (wakeStwait v pa (tyBytes r.w.ty.toNat)) (homeUnit (wakeStwait v pa (tyBytes r.w.ty.toNat)) pa) r ansDone := by
  simp only [serveStore, h, leBytes_length, homeUnit_wakeStwait]

theorem serveStore_refused {c : Nat} (h : homeWrite s (some r.ctx) pa (leBytes (tyBytes r.w.ty.toNat) r.val.toNat) cmp = .error c) :
    serveStore s r pa cmp = refuse s r pa c := by
  simp only [serveStore, h]

/-! ## All-or-nothing tiles (R193, R194) -/

theorem aonTake_waits {k : Nat} (h : aonHeld (dropPkt s k) (waitlOf (dropPkt s k) (homeUnit s pa)) r pa = true) : aonTake s k r pa cmp =
    setWaitl (dropPkt s k) (homeUnit s pa) (waitlOf (dropPkt s k) (homeUnit s pa) ++ [⟨r, pa, cmp⟩]) := if_pos h

theorem aonTake_serves {k : Nat} (h : aonHeld (dropPkt s k) (waitlOf (dropPkt s k) (homeUnit s pa)) r pa = false) :
    aonTake s k r pa cmp = aonServe (dropPkt s k) r pa cmp := if_neg (ne_true_of_eq_false h)

end

section
variable {s : State} {u : UnitId} {pa : Nat} (halone : waitingAway s u = [])
include halone

theorem aonDrains_none (h : waitlOf s u = []) : aonDrains s u pa = s := by
  rw [aonDrains, eachCopy_alone halone, h]
  rfl

variable {e : WaitE} (hone : waitlOf s u = [e])
include hone

theorem aonDrains_one (haon : isAon e.req = true) (htile : e.pa / 512 = pa / 512) (hfree : aonHeld s [] e.req e.pa = false) :
    aonDrains s u pa = aonServe (setWaitl s u []) e.req e.pa e.cmp := by
  have hnext : aonNext s (pa / 512) [] [e] = some e := by
    simp only [aonNext, haon, htile, hfree, beq_self_eq_true, Bool.not_false, Bool.and_self, if_true]
  have hdrop : dropFirst (fun x => x == e) [e] = [] := by simp only [dropFirst, beq_self_eq_true, if_true]
  rw [aonDrains, eachCopy_alone halone, hone]
  simp only [List.length_singleton, aonDrain, hone, hnext, hdrop]

theorem aonDrains_held (hheld : aonHeld s [] e.req e.pa = true) : aonDrains s u pa = s := by
  have hnext : aonNext s (pa / 512) [] [e] = none := by
    simp only [aonNext, hheld, Bool.not_true, Bool.and_false, Bool.false_eq_true, if_false]
  rw [aonDrains, eachCopy_alone halone, hone]
  simp only [List.length_singleton, aonDrain, hone, hnext]

end

/-! ## Windows (R356, R358) -/

section
variable {s : State} {pa : Nat}

theorem atTarget_window {ctx n st m o : Nat} {w : Win} (hdec : decodePA s pa = some (.win st m o)) (hw : tget s.wins (st, m) = some w)
    (hc : InPlace s w.ctx) (hfree : placeInUse s pa n = false) (f : State → State) : atTarget s ctx pa n f = f s := by
  simp only [atTarget, hdec, hw, atWindow, ctxAway_inPlace hc, Bool.false_and, Bool.false_eq_true, if_false, onCopy_inPlace hc, hfree]

end

section
variable {s v : State} {r : PortReq} {pa st m o : Nat} {w : Win} (hdec : decodePA s pa = some (.win st m o)) (hw : tget s.wins (st, m) = some w)

include hdec hw in
theorem windowServe_load {b : List Byte} (hop : r.op = .ld) (h : windowRead w r.lid s o (tyBytes r.w.ty.toNat) = .ok (v, b)) :
    windowServe s r pa = sendAns v (homeUnit v pa) r (ansVal (extend r.w.ty.toNat (leNat b))) := by
  simp only [windowServe, hop, beq_self_eq_true, if_true, plainRead, hdec, hw, h]

include hdec hw in
theorem windowServe_store (hop : r.op = .st ∨ r.op = .std)
    (h : windowWrite w r.lid s o (leBytes (tyBytes r.w.ty.toNat) r.val.toNat) = .ok v) :
    windowServe s r pa = sendAns v (homeUnit v pa) r ansDone := by
  have hne := (isPlain_store hop).2
  have hst : (r.op == .st || r.op == .std) = true := by simpa using hop
  simp only [windowServe, hne, hst, Bool.false_eq_true, if_false, if_true, plainWrite, hdec, hw, h]

theorem windowServe_atomic (hop : isAtomic r.op = true) : windowServe s r pa = refuse s r pa Code.window := by
  unfold isAtomic at hop
  split at hop <;> simp_all [windowServe]

end

/-! ## The request that has arrived (R188, R349) -/

theorem st_not_held {s : State} {r : PortReq} {pa : Nat} (h : r.op = .st → unitHolds s (homeUnit s pa) = false) :
    (r.op == .st && unitHolds s (homeUnit s pa)) = false := by
  by_cases hop : r.op = .st
  · rw [h hop, Bool.and_false]
  · rw [beq_eq_false_iff_ne.mpr hop, Bool.false_and]

section
variable {s : State} {k : Nat} {r : PortReq} {pa : Nat} {cmp : Bool} (hreq : reqHere s k = some (r, pa, cmp))
include hreq

theorem reqHere_some : ∃ p, pkt? s k = some p ∧ p.msg = .req r pa cmp := by
  unfold reqHere at hreq
  split at hreq
  next p hp =>
    refine ⟨p, hp, ?_⟩
    split at hreq
    next hm =>
      split at hreq
      · cases hreq; exact hm
      · cases hreq
    next => cases hreq
  next => cases hreq

theorem exec_memoryRequest_req : exec (.memoryRequest k) s = .next (plainStep s k) := by
  obtain ⟨p, hp, hm⟩ := reqHere_some hreq
  change execMemoryRequest k s = _
  simp only [execMemoryRequest, hp, Option.map_some, hm]

/-! ## Plain accesses (R188, R251) -/

section
variable (hhome : HomeInPlace s r.ctx pa) (hwin : inAperture pa = false) (haon : isAon r = false) (hbusy : histInUse s pa = false)
  (hop : isPlain r.op = true) (hheld : r.op = .st → unitHolds s (homeUnit s pa) = false)
include hhome hwin haon hbusy hop hheld

theorem plainStep_refused {c : Nat} (hg : plainGuard (dropPkt s k) r pa = .error c) : plainStep s k = refuse (dropPkt s k) r pa c := by
  simp only [plainStep, hreq, hop, haon, hwin, st_not_held hheld, Bool.true_or, Bool.not_false, Bool.and_self, if_true,
    atHome_inPlace hhome, hbusy, Bool.false_eq_true, if_false, hg]

variable (hg : plainGuard (dropPkt s k) r pa = .ok ())
include hg

/-- A plain access that its home does not refuse is a load or a store. -/
theorem plainStep_served : plainStep s k =
    if r.op == .ld then serveLoad (dropPkt s k) r pa cmp none else serveStore (dropPkt s k) r pa cmp := by
  have hne : (r.op == .stwait) = false := beq_eq_false_iff_ne.mpr fun h => by simp [h, isPlain] at hop
  simp only [plainStep, hreq, hop, haon, hwin, st_not_held hheld, Bool.true_or, Bool.not_false, Bool.and_self, if_true,
    atHome_inPlace hhome, hbusy, Bool.false_eq_true, if_false, hg, hne]

end

/-! ## Atomics (R192) -/

section
variable (hhome : HomeInPlace s r.ctx pa) (hwin : inAperture pa = false) (hop : isAtomic r.op = true)
  (hg : homeGuard (dropPkt s k) r pa = .ok ())
include hhome hwin hop hg

theorem exec_atomicRequest_scratchpad (hk : paKind pa = 1) :
    exec (.atomicRequest k) s = .next (refuse (dropPkt s k) r pa Code.atomicTarget) := by
  change execAtomicRequest k s = _
  simp only [execAtomicRequest, hreq, hop, hwin, Bool.not_false, Bool.and_self, if_true, atHome_inPlace hhome, hg, hk, beq_self_eq_true]

/-- The old value comes back, and the new one stands in its place. -/
theorem exec_atomicRequest_done {v v2 : State} {old : Nat} (hk : paKind pa ≠ 1)
    (hread : homeNat (dropPkt s k) (some r.ctx) pa (tyBytes r.w.ty.toNat) cmp = .ok (v, old))
    (hwrite : homeWrite v (some r.ctx) pa (leBytes (tyBytes r.w.ty.toNat) (atomNew r old).1) cmp = .ok v2) :
    exec (.atomicRequest k) s = .next (sendAns (wakeStwait v2 pa (tyBytes r.w.ty.toNat)) (homeUnit (wakeStwait v2 pa (tyBytes r.w.ty.toNat)) pa) r
      ⟨0, false, extend r.w.ty.toNat old, none, none, none, (atomNew r old).2⟩) := by
  change execAtomicRequest k s = _
  simp only [execAtomicRequest, hreq, hop, hwin, Bool.not_false, Bool.and_self, if_true, atHome_inPlace hhome, hg, beq_eq_false_iff_ne.mpr hk,
    Bool.false_eq_true, if_false, hread, hwrite, homeUnit_wakeStwait]

end

/-! ## .AON requests (R193, R194) and windows (R358) -/

/-- An .AON request is taken in the copy that holds its context, and what it lets go on is served. -/
theorem exec_aon (haon : isAon r = true) (hc : InPlace s r.ctx) (hheld : r.op = .st → unitHolds s (homeUnit s pa) = false) :
    exec (if r.op = .ld then .aonLoad k else .aonStore k) s = .next (aonDrains (aonTake s k r pa cmp) (homeUnit s pa) pa) := by
  have step (load : Bool) (h : (r.op == .ld) = load) : aonStep s k load = aonDrains (aonTake s k r pa cmp) (homeUnit s pa) pa := by
    simp only [aonStep, hreq, haon, h, st_not_held hheld, beq_self_eq_true, Bool.not_false, Bool.and_self, if_true,
      atHome_inPlace (.inr hc), onCopy_inPlace hc, ite_self]
  split
  next h => exact congrArg Host.Outcome.next (step true (beq_iff_eq.mpr h))
  next h => exact congrArg Host.Outcome.next (step false (beq_eq_false_iff_ne.mpr h))

section
variable {st m o : Nat} {w : Win} (hdec : decodePA s pa = some (.win st m o)) (hw : tget s.wins (st, m) = some w)
include hdec hw

theorem exec_windowRequest_served (hwin : inAperture pa = true) (haon : isAon r = false) (hc : InPlace s w.ctx)
    (hop : isPlain r.op = true ∨ isAtomic r.op = true) (hheld : r.op = .st → unitHolds s (homeUnit s pa) = false)
    (hfree : placeInUse s pa (tyBytes r.w.ty.toNat) = false) :
    exec (.windowRequest k) s = .next (windowServe (dropPkt s k) r pa) := by
  obtain ⟨p, hp, hm⟩ := reqHere_some hreq
  have hwidth : opWidth r.op r.w.ty.toNat = tyBytes r.w.ty.toNat := opWidth_access hop _
  have hop : (isPlain r.op || isAtomic r.op) = true := (Bool.or_eq_true ..).mpr hop
  change execWindowRequest k s = _
  simp only [execWindowRequest, hp, Option.map_some, hm, hreq, hwin, hop, haon, st_not_held hheld, Bool.true_or, Bool.not_false, Bool.and_self,
    if_true, hwidth, atTarget_window hdec hw hc hfree]

end
end

/-- Settles O50: each kind of request, once its home may serve it, does what its rule says to the state without its packet. -/
theorem homesServeMemory : Obligations.HomesServeMemory := by
  intro s k r pa cmp hreq _ hhome u ty n
  refine ⟨fun hwin haon hbusy hg => ?plain, fun hwin hop hg => ?atomic, fun haon => ?aon, fun st m o w hwin haon hdec hw hc hfree => ?window,
    fun h halone => ?drains, fun c hwin hop haon hbusy hheld hg => ?refused⟩
  case plain =>
    refine ⟨fun hop => ?load, fun hop => ?store⟩
    case load =>
      have hexec : exec (.memoryRequest k) s = .next (serveLoad u r pa cmp none) := by
        rw [exec_memoryRequest_req hreq, plainStep_served hreq hhome hwin haon hbusy (by rw [hop]; rfl) (by simp [hop]) hg, hop]
        rfl
      exact ⟨fun v b hread => hexec.trans (congrArg _ (serveLoad_read hread)),
        fun c hread => hexec.trans (congrArg _ (serveLoad_refused hread))⟩
    case store =>
      have hexec : exec (.memoryRequest k) s = .next (serveStore u r pa cmp) := by
        obtain ⟨hplain, hne⟩ := isPlain_store (hop.imp_left And.left)
        rw [exec_memoryRequest_req hreq, plainStep_served hreq hhome hwin haon hbusy hplain
          (fun h => hop.elim And.right fun h' => by simp [h] at h') hg, hne]
        rfl
      exact ⟨fun v hwrite => hexec.trans (congrArg _ (serveStore_written hwrite)),
        fun c hwrite => hexec.trans (congrArg _ (serveStore_refused hwrite))⟩
  case atomic =>
    exact ⟨exec_atomicRequest_scratchpad hreq hhome hwin hop hg,
      fun v old v2 hk hread hwrite => exec_atomicRequest_done hreq hhome hwin hop hg hk hread hwrite⟩
  case aon =>
    intro h hheld i hc
    have hexec : exec i s = .next (aonDrains (aonTake s k r pa cmp) h pa) := exec_aon hreq haon hc hheld
    exact ⟨fun hwait => by rw [hexec, aonTake_waits hwait], fun hgo => by rw [hexec, aonTake_serves hgo]⟩
  case window =>
    have hserved (hop : isPlain r.op = true ∨ isAtomic r.op = true) (hheld : r.op = .st → unitHolds s (homeUnit s pa) = false) :
        exec (.windowRequest k) s = .next (windowServe u r pa) :=
      exec_windowRequest_served hreq hdec hw hwin haon hc hop hheld hfree
    refine ⟨fun v b hop hread => ?load, fun v hop hwrite => ?store, fun hop => ?atomic⟩
    case load =>
      rw [hserved (.inl (by rw [hop]; rfl)) (by simp [hop])]
      exact congrArg _ (windowServe_load hdec hw hop hread)
    case store =>
      rw [hserved (.inl (isPlain_store (hop.imp_left And.left)).1) fun h => hop.elim And.right fun h' => by simp [h] at h']
      exact congrArg _ (windowServe_store hdec hw (hop.imp_left And.left) hwrite)
    case atomic =>
      rw [hserved (.inr hop) fun h => by simp [h, isAtomic] at hop]
      exact congrArg _ (windowServe_atomic hop)
  case drains =>
    exact ⟨aonDrains_none halone, fun e hone => ⟨aonDrains_one halone hone, aonDrains_held halone hone⟩⟩
  case refused => rw [exec_memoryRequest_req hreq, plainStep_refused hreq hhome hwin haon hbusy hop hheld hg]

end Sys2Proof.Machine
end

section
/-! What comes back (R189, R196, R263, R310, R336, R337, R350, R414; log 21, 126): an answer at its port, an acknowledgement at its engine, and the
translation or the fault of a finished walk. -/

namespace Sys2Proof.Machine

open Sys2Proof Sys2Proof.Safety

/-! ## Answers at their ports (R189, R263, R310) -/

section
variable {s : State} {k : Nat} {p : Packet} {r : PortReq} {a : Ans} (hp : pkt? s k = some p)
include hp

section
variable (hm : p.msg = .ans r a)
include hm

theorem exec_memoryResponse_stale (ha : arrived s p = true) (h : staleAns s r = true) :
    exec (.memoryResponse k) s = .next (dropPkt s p.id) := by
  change execMemoryResponse k s = _
  simp only [execMemoryResponse, hp, hm, answerStep, ha, h, Bool.not_true, Bool.false_eq_true, if_false, if_true]

theorem exec_memoryResponse_ans (ha : arrived s p = true) (hc : InPlace s r.ctx) (h : staleAns s r = false) :
    exec (.memoryResponse k) s = .next (takeAns (dropRemote (dropPkt s p.id) r.rid) (.ans r a)) := by
  change execMemoryResponse k s = _
  simp only [execMemoryResponse, hp, hm, answerStep, ha, h, onCopy_inPlace hc, completes, Bool.not_true, Bool.false_eq_true, if_false, if_true]

end

theorem exec_memoryResponse_hist {port slot : Nat} {t : Token} {first last : Bool} (hm : p.msg = .hist r port slot t first last)
    (ha : arrived s p = true) (hc : InPlace s r.ctx) (h : staleAns s r = false) : exec (.memoryResponse k) s =
      .next (takeAns (if last then dropRemote (dropPkt s p.id) r.rid else dropPkt s p.id) (.hist r port slot t first last)) := by
  change execMemoryResponse k s = _
  simp only [execMemoryResponse, hp, hm, answerStep, ha, h, onCopy_inPlace hc, completes, Bool.not_true, Bool.false_eq_true, if_false]

section
variable {src : ArrSrc} {ctx lid code va n : Nat} (hm : p.msg = .ack src ctx lid code va n) (ha : arrived s p = true)
include hm ha

theorem exec_memoryResponse_staleAck (h : staleAck s p n = true) : exec (.memoryResponse k) s = .next (dropPkt s p.id) := by
  change execMemoryResponse k s = _
  simp only [execMemoryResponse, hp, hm, ackStep, ha, h, Bool.not_true, Bool.false_eq_true, if_false, if_true]

theorem exec_memoryResponse_ack (hc : InPlace s ctx) (h : staleAck s p n = false) : exec (.memoryResponse k) s = .next
    (let u := dropRemote (dropPkt s p.id) n
     if ackWaits u src code then { u with lateAck := u.lateAck ++ [p.msg] }
     else if src.drain then drainAck u src lid code va else streamAck u src code va) := by
  have hc : InPlace (dropRemote (dropPkt s p.id) n) ctx := hc
  change execMemoryResponse k s = _
  simp only [execMemoryResponse, hp, hm, ackStep, ha, h, finishAck, onCopy_inPlace hc, Bool.not_true, Bool.false_eq_true, if_false]

end
end

section
variable {s : State} {r : PortReq} {a : Ans}

theorem takeAns_retry (h : a.again = true) (hc : a.code = 0) : takeAns s (.ans r a) =
    let u : UnitId := if r.op = .mread then miOf r.sl.core else .core r.sl.core
    { s with x := { s.x with retry := tmod s.x.retry u [] fun l => l ++ [⟨r, ctr s u⟩] } } := by
  simp only [takeAns, h, hc, decide_true, Bool.and_self, if_true, beq_iff_eq]

/-- Only a refusal may have to wait at its port. -/
theorem takeAns_done (h : a.again = false) (hc : a.code = 0) : takeAns s (.ans r a) = deliverAns s r a := by
  simp only [takeAns, answerWaits, h, hc, bne_self_eq_false, Bool.and_false, Bool.false_and, Bool.false_eq_true, if_false]

theorem takeAns_refusal (hc : a.code ≠ 0) : takeAns s (.ans r a) =
    if answerWaits s (.ans r a) then { s with x := { s.x with late := s.x.late ++ [.ans r a] } } else deliverAns s r a := by
  simp only [takeAns, hc, decide_false, Bool.and_false, Bool.false_eq_true, if_false]

theorem takeAns_hist {port slot : Nat} {t : Token} {first last : Bool} (h : answerWaits s (.hist r port slot t first last) = false)
    (hl : s.x.late.any (lateBehind r port) = false) : takeAns s (.hist r port slot t first last) = deliverHist s r port slot t first := by
  simp only [takeAns, h, hl, Bool.or_self, Bool.false_eq_true, if_false]

/-! ## What an answer does at its node (R189, R232) -/

variable {n : Node} (hn : reqNode s r = some n) (hcorr : isCorrection r = false) (hst : r.op ≠ .st)
include hn hcorr hst

theorem deliverAns_served (hc : a.code = 0) (hh : isHist r.op = false) {xs ys : List Token} (ht : ansToks r a = .ok (xs, ys)) :
    deliverAns s r a = finishReq (orWord (if isWrite r.op then ackWrite s r 0 else s) r.lid r.sl.core.f a.flags) r n xs ys [] := by
  simp only [deliverAns, hcorr, hn, hc, beq_eq_false_iff_ne.mpr hst, hh, ht, ite_self, bne_self_eq_false, Bool.false_and, Bool.false_eq_true,
    if_false]

variable (hw : isWrite r.op = false)
include hw

theorem deliverAns_readOn (hc : a.code = 0) (hh : isHist r.op = true) : deliverAns s r a = readOn s r.sl := by
  simp only [deliverAns, hcorr, hn, hc, beq_eq_false_iff_ne.mpr hst, hh, hw, bne_self_eq_false, Bool.false_and, Bool.false_eq_true, if_false,
    if_true]

theorem deliverAns_refusal (hagain : a.again = false) (hc : a.code ≠ 0) : deliverAns s r a = failReq s r a.code (faultAddr r a.code) := by
  simp only [deliverAns, hcorr, hn, bne_iff_ne.mpr hc, beq_eq_false_iff_ne.mpr hst, hagain, hw, Bool.and_false, Bool.false_eq_true, if_false,
    if_true]

end

theorem not_write_of_isHist {o : Op} (h : isHist o = true) : isWrite o = false ∧ o ≠ .st := by
  cases o with
  | hnew | happ | hjoin | hred | hseek | hcomp | hmrg | hstat => exact ⟨rfl, by decide⟩
  | _ => cases h

theorem isCorrection_of_not_isHist {r : PortReq} (h : isHist r.op = false) : isCorrection r = false := by
  have hne : (r.op == .hred) = false := beq_eq_false_iff_ne.mpr fun e => by rw [e] at h; cases h
  rw [isCorrection, hne, Bool.false_and]

/-! ## Acknowledgements (R350) -/

/-- An acknowledgement that refuses nothing waits behind those of its engine alone. -/
theorem ackWaits_none {s : State} {src : ArrSrc}
    (h : ∀ m ∈ s.lateAck, ∀ a c l d v n, m = .ack a c l d v n → srcUnit a ≠ srcUnit src) : ackWaits s src 0 = false := by
  simp only [ackWaits, bne_self_eq_false, Bool.false_and, Bool.false_or]
  refine List.any_eq_false.mpr fun m hm => ?_
  split
  next a c l d v n => simpa using h _ hm a c l d v n rfl
  next => exact Bool.false_ne_true

/-! ## Finished walks (R414) -/

section
variable {s : State} {f n ev : Nat} {w : Walk}

theorem spendWalk_frame (s : State) (ctx va : Nat) : ∃ budgets, spendWalk s ctx va = { s with budgets := budgets } := by
  refine List.foldlRecOn (motive := fun u : State => ∃ budgets, u = { s with budgets := budgets }) _ _ ⟨_, rfl⟩ ?_
  rintro _ ⟨budgets, rfl⟩ u -
  rw [spend]
  split <;> exact ⟨_, rfl⟩

/-- The state in which a walk's tables are read: what it injects is counted, and the words that it reads are corrected. -/
def walkRead (s : State) (w : Walk) : State := walkFix (spendWalk s w.req.ctx w.va) w.req.ctx w.va

theorem walkRead_frame (s : State) (w : Walk) : ∃ ecc budgets, walkRead s w = { s with ecc := ecc, budgets := budgets } := by
  obtain ⟨budgets, hs⟩ := spendWalk_frame s w.req.ctx w.va
  obtain ⟨ecc, budgets', hf⟩ := walkFix_frame (spendWalk s w.req.ctx w.va) w.req.ctx w.va
  exact ⟨ecc, budgets', by rw [walkRead, hf, hs]⟩

/-- A walk's translation reaches a core: its cache takes the page, unless it holds it already. -/
def cacheWalk (leaf b ev : Nat) (s : State) (v : Walk) : State :=
  if (tlbFind s v.core v.req.ctx v.va).isSome then s else tlbAdd s v.core ⟨v.req.ctx, v.va / 2 ^ b * 2 ^ b, b, leaf⟩ ev

theorem foldl_cacheWalk_frame (leaf b ev : Nat) (l : List Walk) (s : State) :
    ∃ tlbs, l.foldl (cacheWalk leaf b ev) s = { s with tlbs := tlbs } := by
  refine List.foldlRecOn (motive := fun u : State => ∃ tlbs, u = { s with tlbs := tlbs }) _ _ ⟨_, rfl⟩ ?_
  rintro _ ⟨tlbs, rfl⟩ v -
  rw [cacheWalk]
  split <;> exact ⟨_, rfl⟩

/-- A core with an empty cache holds the page of its walk. -/
theorem cacheWalk_empty (leaf b ev : Nat) (h : tgetD s.tlbs w.core [] = []) :
    tgetD (cacheWalk leaf b ev s w).tlbs w.core [] = [⟨w.req.ctx, w.va / 2 ^ b * 2 ^ b, b, BitVec.ofNat 64 leaf⟩] := by
  have hnone : (tlbFind s w.core w.req.ctx w.va).isSome = false := by rw [tlbFind, h]; rfl
  rw [cacheWalk, hnone, if_neg Bool.false_ne_true, tlbAdd, h]
  exact tgetD_tset_self ..

section
variable (hc : w.code = 0) (hb : ∀ x ∈ walkHomes s w.req.ctx w.va, underBudget s x 2 = true)
include hc hb

theorem walk_proceeds : (w.code != 0 || (walkHomes s w.req.ctx w.va).any fun u => !underBudget s u 2) = false := by
  rw [hc, bne_self_eq_false, Bool.false_or, List.any_eq_false]
  intro x hx
  rw [hb x hx]
  exact Bool.false_ne_true

variable (hw : (tgetD s.twalks f [])[n]? = some w)
include hw

theorem exec_walkComplete_fault {c : Nat} (h : walkTable (walkRead s w) w.req.ctx w.va = .error c) :
    exec (.translationWalkComplete f n ev) s = .next { walkRead s w with
      twalks := tmod (walkRead s w).twalks f [] fun l => l.map fun v => if sameWalk w v 16 then { v with code := c } else v } := by
  rw [walkRead] at h
  change execTranslationWalkComplete f n ev s = _
  simp only [execTranslationWalkComplete, hw, walk_proceeds hc hb, Bool.false_eq_true, if_false, h]
  rfl

/-- A translation that is found leaves the field's walker and reaches the cores of the walks that it serves. -/
theorem exec_walkComplete_found {leaf b : Nat} (h : walkTable (walkRead s w) w.req.ctx w.va = .ok (leaf, b)) :
    exec (.translationWalkComplete f n ev) s = .next (((tgetD (walkRead s w).twalks f []).filter fun v => sameWalk w v b).foldl
      (cacheWalk leaf b ev)
      { walkRead s w with twalks := tmod (walkRead s w).twalks f [] fun l => l.filter fun v => !sameWalk w v b }) := by
  rw [walkRead] at h
  change execTranslationWalkComplete f n ev s = _
  simp only [execTranslationWalkComplete, hw, walk_proceeds hc hb, Bool.false_eq_true, if_false, h]
  rfl

end
end

/-- Settles O54: each answer is taken at its port or its engine, and a finished walk's translation or fault is handed on. -/
theorem answersReturn : Obligations.AnswersReturn := by
  refine ⟨fun s k p hp ha => ?responses, fun s src => ackWaits_none, fun s f n ev w hw hc hb => ?walks⟩
  case responses =>
    refine ⟨?served, ?retry, ?history, ?token, ?refusal, fun r a hm => exec_memoryResponse_stale hp hm ha, ?ack⟩
    case served =>
      intro r a n xs ys hm hc hs hh u hn hagain hcode hst ht v
      rw [exec_memoryResponse_ans hp hm ha hc hs, takeAns_done hagain hcode,
        deliverAns_served hn (isCorrection_of_not_isHist hh) hst hcode hh ht]
    case retry =>
      intro r a hm hc hs hagain hcode u c
      rw [exec_memoryResponse_ans hp hm ha hc hs, takeAns_retry hagain hcode]
      rfl
    case history =>
      intro r a n hm hc hs hh hcorr u hn hagain hcode
      obtain ⟨hw, hst⟩ := not_write_of_isHist hh
      rw [exec_memoryResponse_ans hp hm ha hc hs, takeAns_done hagain hcode, deliverAns_readOn hn hcorr hst hw hcode hh]
    case token =>
      intro r port slot t first last hm hc hs u hwait hlate
      rw [hm] at hwait
      rw [exec_memoryResponse_hist hp hm ha hc hs, takeAns_hist hwait hlate]
    case refusal =>
      intro r a hm hc hs hcode u
      rw [hm, exec_memoryResponse_ans hp hm ha hc hs, takeAns_refusal hcode]
      refine ⟨fun hwait => congrArg _ (if_pos hwait), fun hwait n hcorr hw hst hn hagain => ?_⟩
      rw [if_neg (ne_true_of_eq_false hwait), deliverAns_refusal hn hcorr hst hw hagain hcode]
    case ack =>
      intro src ctx lid code va n hm
      refine ⟨exec_memoryResponse_staleAck hp hm ha, fun hc hs => ?_⟩
      rw [exec_memoryResponse_ack hp hm ha hc hs]
      exact ⟨fun hwait => congrArg _ (if_pos hwait), fun hwait => congrArg _ (if_neg (ne_true_of_eq_false hwait))⟩
  case walks =>
    obtain ⟨ecc, budgets, hframe⟩ := walkRead_frame s w
    have htwalks : (walkRead s w).twalks = s.twalks := by rw [hframe]
    refine ⟨fun c h => exec_walkComplete_fault hc hb hw h, fun leaf b h => ⟨_, exec_walkComplete_found hc hb hw h, ?_⟩⟩
    rw [htwalks]
    generalize hserved : (tgetD s.twalks f []).filter (fun v => sameWalk w v b) = served
    generalize hstart : { walkRead s w with twalks := tmod s.twalks f [] fun l => l.filter fun v => !sameWalk w v b } = start
    obtain ⟨tlbs, hcached⟩ := foldl_cacheWalk_frame leaf b ev served start
    refine ⟨?walker, ?mem, fun hempty hone => ?cached⟩
    case walker => rw [hcached, ← hstart]; exact tgetD_tmod_self ..
    case mem => rw [hcached, ← hstart, hframe]
    case cached =>
      have hstart_empty : tgetD start.tlbs w.core [] = [] := by rw [← hstart, hframe]; exact hempty
      rw [hone]
      exact cacheWalk_empty leaf b ev hstart_empty

end Sys2Proof.Machine
end

section
/-! Times of tokens and capabilities (R203, R206 to R210, R213, R222): what the loop and time instructions put out, and at which time. -/

namespace Sys2Proof.Machine

open Sys2Proof Sys2Proof.Safety

/-! ## Loop and time instructions (R206, R222) -/

theorem fitsDif_one : FitsDif 1 := ⟨by decide, by decide⟩

section
variable {s : State} {w : CW} {fr : Firing} {tx : Time}

/-- ENTER passes the token of A, or where A holds none a token of B that is no NUL. -/
theorem exec_enter_passes (hiss : Issues s fr) (hx : act w.xt fr.set.id.time = some tx) {u : Token} {d : Int}
    (hu : fr.set.a = some u ∨ (fr.set.a = none ∧ fr.set.b = some u ∧ u.nul = false))
    (hdm : (if w.dm = 2 then -u.dif.toInt else if w.dm = 3 then 1 else u.dif.toInt) = d) (hd : FitsDif d)
    (hroom : hasRoom s fr.sl ⟨[⟨u.val, u.key, BitVec.ofInt 32 d, tx, fr.set.id.seq, w.xc, u.nul, u.fin, u.kv⟩], [], 0, [], false⟩ = true) :
    exec (.enter w) s = .next (fired s w fr
      ⟨[⟨u.val, u.key, BitVec.ofInt 32 d, tx, fr.set.id.seq, w.xc, u.nul, u.fin, u.kv⟩], [], 0, [], false⟩) := by
  refine congrArg _ ((fireOwn_issues hiss).trans ?_)
  obtain ha | ⟨ha, hb, hnul⟩ := hu
  · simp only [ha, hdm, outTok_x hx hd]
    exact conclude_fired hroom ..
  · simp only [ha, hb]
    rw [if_neg (ne_true_of_eq_false hnul), hdm, outTok_x hx hd]
    exact conclude_fired hroom ..

/-- ENTER lets a NUL on B end. -/
theorem exec_enter_nul (hiss : Issues s fr) {u : Token} (ha : fr.set.a = none) (hb : fr.set.b = some u) (hnul : u.nul = true) :
    exec (.enter w) s = .next (fired s w fr (noEmit false)) := by
  refine congrArg _ ((fireOwn_issues hiss).trans ?_)
  simp only [ha, hb, hnul, if_true]
  exact commit_fired (hasRoom_noEmit ..)

/-- What goes round a loop or leaves it: an END as an END, a NUL or a set whose predicate does not match as a NUL, or A itself. -/
def loopTok (w : CW) (fr : Firing) (tx : Time) : Token :=
  if isEnd fr.set.a then specTok w.xc fr.set tx false true
  else if !pMatches w fr.set.p || isNul fr.set.a then specTok w.xc fr.set tx true false
  else xTok w fr.set tx (valA w fr) (keyA w fr.set) (kvA w fr.set) (difOut w fr.set)

theorem loopBack_fired (hiss : Issues s fr) (hx : act w.xt fr.set.id.time = some tx) (hd : FitsDif (difOut w fr.set))
    (hroom : hasRoom s fr.sl ⟨[loopTok w fr tx], [], 0, [], false⟩ = true) :
    loopBack s w = fired s w fr ⟨[loopTok w fr tx], [], 0, [], false⟩ := by
  rw [loopBack, fireOwn_issues hiss, endTok_x hx, nulTok_x hx, outTok_x hx hd]
  refine Eq.trans (congrArg (conclude s w fr true false 0) ?_) (conclude_fired hroom ..)
  rw [loopTok]
  cases isEnd fr.set.a with
  | true => rfl
  | false => cases pMatches w fr.set.p <;> cases isNul fr.set.a <;> rfl

end

/-- Settles O27: ENTER passes its token, FEED and LEAVE put A out at the time of the output's action, TIMEV the time of its set. -/
theorem loopTimes : Obligations.LoopTimes := by
  intro w s fr tx hiss hx o
  refine ⟨fun u hu => ?passes, fun u ha hb hnul => exec_enter_nul hiss ha hb hnul, fun i hi hd => ?loop, fun z ty hex hd => ?timev,
    fun t => ⟨fun h => ?feed, fun h => ?leave⟩⟩
  case passes =>
    intro d e hd hroom
    exact exec_enter_passes hiss hx hu rfl hd hroom
  case loop =>
    intro t e hroom
    have hexec : exec i s = .next (loopBack s w) := by obtain rfl | rfl := hi <;> rfl
    rw [hexec]
    exact congrArg _ (loopBack_fired hiss hx hd hroom)
  case timev =>
    intro e hroom
    have htime : o.id.time = z.id.time := congrArg Ident.time (judge_go_id hex.judged).symm
    refine congrArg _ ((fireSet_go hex.issues hex.judged).trans ?_)
    rw [resTok, outTok_x (fr := { fr with set := z }) (executes_times hex).1 hd]
    simp only [e, htime] at hroom ⊢
    exact conclude_fired (fr := { fr with set := z }) hroom ..
  case feed => rw [act, if_pos h]
  case leave => rw [act, h]; rfl

/-! ## Capabilities (R207 to R210) -/

/-- A set whose time no capability allows parks (R209, R210). -/
theorem faultFiring_timeCap (s : State) (w : CW) (fr : Firing) : faultFiring s w fr true false Code.timeCap 0 =
    parkSet (popIq s fr.sl) fr.sl fr.node fr.set Code.timeCap 0 (.core fr.sl.core) :=
  faultFiring_park (catchFor_of_not_catchable (by decide) ..) ..

/-- Settles O28: the token is built at the time in B, where the stage's capability is not later. -/
theorem timesAreSet : Obligations.TimesAreSet := by
  intro w s fr tx hiss hb v t cap o
  have hb' : ¬ (isNul fr.set.b || isEnd fr.set.b) = true := ne_true_of_eq_false hb
  refine ⟨fun c hcap hle ha hp hx hd => ?allowed, fun hcap => ?refused⟩
  case allowed =>
    intro e hroom
    have hcap : capOf s fr.node.lid fr.node.stage = some c := hcap
    have hle : tle c (timeOf (valB w fr)) = true := hle
    obtain ⟨hend, hnul⟩ := Bool.or_eq_false_iff.mp ha
    refine congrArg _ ((fireOwn_issues hiss).trans ?_)
    simp only [if_neg hb', hcap, hle, hend, hp, hnul, outTok_x (fr := atTime fr (timeOf (valB w fr))) hx hd, Bool.not_false, Bool.and_self,
      Bool.false_eq_true, if_false, if_true]
    exact conclude_fired hroom ..
  case refused =>
    refine congrArg _ ((fireOwn_issues hiss).trans ?_)
    obtain hcap | ⟨c, hcap, hle⟩ := hcap
    · have hcap : capOf s fr.node.lid fr.node.stage = none := hcap
      simp only [if_neg hb', hcap, faultFiring_timeCap]
    · have hcap : capOf s fr.node.lid fr.node.stage = some c := hcap
      have hle : tle c (timeOf (valB w fr)) = false := hle
      simp only [if_neg hb', hcap, hle, faultFiring_timeCap, Bool.false_eq_true, if_false]

/-- The changes of the counts that a capability's change makes (R210, R213). -/
def capItems (st : Nat) (old : Time) : Option Time → List CountItem
  | some t => [⟨st, old, -1⟩, ⟨st, t, 1⟩]
  | none => [⟨st, old, -1⟩]

/-- The launch with a stage's capability at a time, or dropped. -/
def setCap (st : Nat) (new : Option Time) (l : Launch) : Launch :=
  match new with
  | some t => { l with caps := tset l.caps st t }
  | none => { l with caps := tdel l.caps st }

/-- The time of a capability's change as a unit token at that time, with the change of the counts. -/
def capEmit (w : CW) (fr : Firing) (old out tx : Time) (new : Option Time) : Emit :=
  ⟨[xTok w (atTime fr out).set tx (timeWord out) 0 false 1], [], 0, capItems fr.node.stage old new, true⟩

theorem capChange_fired {s : State} {w : CW} {fr : Firing} {old out tx : Time} {new : Option Time} (hx : act w.xt out = some tx)
    (hroom : hasRoom s fr.sl (capEmit w fr old out tx new) = true) : capChange s w fr old new out =
      apply (modLaunch (popIq s fr.sl) fr.node.lid (setCap fr.node.stage new)) w fr (capEmit w fr old out tx new) (consumed fr.node fr.set)
        true := by
  have htok := outTok_x (fr := atTime fr out) hx fitsDif_one (timeWord out) 0 false false false
  cases new with
  | none =>
    simp only [capChange, htok]
    exact if_pos hroom
  | some t =>
    simp only [capChange, htok]
    exact if_pos hroom

/-- A count table that is sent is empty. -/
theorem ctabOf_flushCounts (s : State) (c : CoreId) : ctabOf (flushCounts s c) c = [] := by
  unfold flushCounts
  exact tgetD_tset_self ..

/-- The count table is sent after the items that ask for it (R213). -/
theorem ctabOf_record_after (s : State) (c : CoreId) (lid : Nat) (is : List CountItem) : ctabOf (record s c lid is true) c = [] :=
  ctabOf_flushCounts ..

/-- Settles O29: both instructions change the capability with the firing that puts its time out, or change nothing. -/
theorem capabilitiesChange : Obligations.CapabilitiesChange := by
  refine ⟨fun i w s fr hi hiss ha => ?none, ctabOf_record_after, ?change⟩
  case none =>
    obtain rfl | rfl := hi <;> exact congrArg _ ((fireOwn_issues hiss).trans (if_pos ha))
  intro w s fr tx c hiss ha hcap st out done
  have ha := ne_true_of_eq_false ha
  refine ⟨fun hle hx hroom => ?advanced, fun hle => ?refused, fun hx hroom => ?dropped⟩
  case advanced =>
    have hle : tle c (timeOf (valA w fr)) = true := hle
    refine congrArg _ ((fireOwn_issues hiss).trans ?_)
    simp only [if_neg ha, hcap, hle, if_true]
    exact capChange_fired (new := some (timeOf (valA w fr))) hx hroom
  case refused =>
    have hle : tle c (timeOf (valA w fr)) = false := hle
    refine congrArg _ ((fireOwn_issues hiss).trans ?_)
    simp only [if_neg ha, hcap, hle, faultFiring_timeCap, Bool.false_eq_true, if_false]
  case dropped =>
    refine congrArg _ ((fireOwn_issues hiss).trans ?_)
    simp only [if_neg ha, hcap]
    exact capChange_fired (new := none) hx hroom

end Sys2Proof.Machine
end

section
/-! Probes and frontier queries (R220, R221; log 34, 116): a token leaves a probe at once or takes an entry of the matching store, and a query
leaves for the wafer tracker. -/

namespace Sys2Proof.Machine

open Sys2Proof Sys2Proof.Safety

/-! ## Lists changed in one place -/

theorem mem_of_mem_dropFirst {α : Type} {p : α → Bool} {a : α} {l : List α} (h : a ∈ dropFirst p l) : a ∈ l := by
  induction l with
  | nil => cases h
  | cons b l ih =>
    rw [dropFirst] at h
    split at h
    · exact List.mem_cons_of_mem _ h
    · obtain rfl | h := List.mem_cons.mp h
      · exact List.mem_cons_self
      · exact List.mem_cons_of_mem _ (ih h)

/-- The element that is changed is one that the test finds. -/
theorem exists_mem_mapFirst {α : Type} {p : α → Bool} (f : α → α) {l : List α} (h : l.any p = true) :
    ∃ a, p a = true ∧ f a ∈ mapFirst p f l := by
  induction l with
  | nil => cases h
  | cons b l ih =>
    rw [mapFirst]
    split
    next hb => exact ⟨b, hb, List.mem_cons_self⟩
    next hb =>
      obtain ⟨a, ha, hmem⟩ := ih (by simpa [hb] using h)
      exact ⟨a, ha, List.mem_cons_of_mem _ hmem⟩

/-! ## Entries of the matching store (R112, R220; log 116) -/

section
variable (s : State) (sl : Slot) (id : Ident)

theorem mstoreOf_setMstore_self (c : CoreId) (l : List MEntry) : mstoreOf (setMstore s c l) c = l := tgetD_tset_self ..

theorem dropClaim_popIq : dropClaim (popIq s sl) sl id = popIq (dropClaim s sl id) sl :=
  (apply_ite (popIq · sl) ((mstoreOf s sl.core).any (isClaimOf sl.e id) = true)
    (setMstore s sl.core (dropFirst (isClaimOf sl.e id) (mstoreOf s sl.core))) s).symm

theorem mstoreOf_dropClaim_subset : mstoreOf (dropClaim s sl id) sl.core ⊆ mstoreOf s sl.core := by
  unfold dropClaim
  split
  · rw [mstoreOf_setMstore_self]
    exact fun _ => mem_of_mem_dropFirst
  · exact List.Subset.refl _

theorem hasRoom_dropClaim (e : Emit) : hasRoom (dropClaim s sl id) sl e = hasRoom s sl e := by
  unfold dropClaim
  split <;> rfl

variable {s sl id}

theorem dropClaim_unclaimed (h : ∀ x ∈ mstoreOf s sl.core, isClaimOf sl.e id x = false) : dropClaim s sl id = s :=
  if_neg (ne_true_of_eq_false (List.any_eq_false.mpr fun x hx => ne_true_of_eq_false (h x hx)))

/-- Whether claimed before or allocated now, an entry of the set's identity holds its token. -/
theorem holdTok_holds {t : Token} {u : State} (h : holdTok s sl id t = some u) :
    ∃ m ∈ mstoreOf u sl.core, m.kind = .held t ∧ m.e = sl.e ∧ m.id = id := by
  unfold holdTok at h
  split at h
  next hclaim =>
    cases h
    obtain ⟨m, hm, hmem⟩ := exists_mem_mapFirst (fun m : MEntry => { m with kind := .held t }) hclaim
    simp only [isClaimOf, Bool.and_eq_true, beq_iff_eq] at hm
    obtain ⟨⟨he, hid⟩, -⟩ := hm
    refine ⟨{ m with kind := .held t }, ?_, rfl, he, hid⟩
    rw [mstoreOf_setMstore_self]
    exact hmem
  next =>
    obtain ⟨l, -, rfl⟩ := Option.map_eq_some_iff.mp h
    refine ⟨⟨sl.e, id, .held t, none, none, none, none, .way, tgetD s.x.mord (sl.core, sl.e / 8) 0, none, []⟩, ?_, rfl, rfl, rfl⟩
    exact (mstoreOf_setMstore_self s sl.core _).symm ▸ List.mem_append_right _ (List.mem_singleton_self _)

end

/-! ## What an issue notes (R213) -/

theorem Quiet.ctr {sl : Slot} {s t : State} (q : Quiet sl s t) (u : UnitId) : ctr t u = ctr s u := by
  have hctrs : t.ctrs = s.ctrs := (congrArg State.ctrs q.loc.frame :)
  rw [Machine.ctr, Machine.ctr, hctrs]

/-- An issue notes its core's counter as that of the core's last firing. -/
theorem lastF_noteIssue (s : State) (fr : Firing) : tget (noteIssue s fr).lastF fr.sl.core = some (ctr s (.core fr.sl.core)) := by
  rw [← ((quiet_countIssue s fr.sl fr.sl.core.f fr.node.lid).trans (quiet_progress _ fr.sl fr.sl.core.f fr.node.lid)).ctr]
  exact tget_tset_self ..

/-! ## Probes (R220) -/

section
variable {s : State} {w : CW} {fr : Firing} (hiss : Issues s fr) {a : Token} (ha : fr.set.a = some a)
include hiss ha

theorem exec_probe_passes (hheld : heldToks s fr.sl a.time = []) (hp : probePassed s w fr a.time = true)
    (hroom : roomFor s ⟨fr.sl.core, fr.sl.e, 4⟩ 1 = true) : exec (.probe w) s =
      .next (fired (dropClaim s fr.sl fr.set.id) w fr ⟨[{ a with ctx := w.xc }], [], 0, [], true⟩) := by
  refine congrArg _ ((fireOwn_issues hiss).trans ?_)
  simp only [ha, hheld, hp, hroom, List.isEmpty_nil, Bool.and_self, if_true, dropClaim_popIq]
  rfl

theorem exec_probe_holds {t : State} (hwait : heldToks s fr.sl a.time ≠ [] ∨ probePassed s w fr a.time = false)
    (ht : holdTok s fr.sl fr.set.id a = some t) : exec (.probe w) s = .next (noteIssue (popIq t fr.sl) fr) := by
  have hwait : ((heldToks s fr.sl a.time).isEmpty && probePassed s w fr a.time) = false := by
    obtain h | h := hwait
    · rw [List.isEmpty_eq_false_iff.mpr h, Bool.false_and]
    · rw [h, Bool.and_false]
  refine congrArg _ ((fireOwn_issues hiss).trans ?_)
  simp only [ha, hwait, ht, Bool.false_eq_true, if_false]

end

/-! ## Queries (R221) -/

/-- A query's set has left the queue, its answer's buffer is reserved and its issue noted. -/
def askReserved (s : State) (w : CW) (fr : Firing) : State :=
  noteIssue (reserve (fresh (setHold (popIq s fr.sl) w fr)).2 fr.sl 4 s.serial ((act w.xt fr.set.id.time).getD fr.set.id.time) fr.set.id.seq) fr

theorem setHold_frame (s : State) (w : CW) (fr : Firing) : ∃ hold, setHold s w fr = { s with x := { s.x with hold := hold } } := by
  unfold setHold
  split <;> exact ⟨_, rfl⟩

theorem portKept_askReserved (s : State) (w : CW) (fr : Firing) : PortKept (setHold (popIq s fr.sl) w fr) (askReserved s w fr) := by
  refine .trans (.trans ?_ (portKept_reserve ..)) (portKept_noteIssue ..)
  exact .of_x rfl rfl

/-- Edge buffers and count tables aside, a query's reservation leaves the waiting queries and the queue behind its set. -/
theorem askReserved_queues (s : State) (w : CW) (fr : Firing) :
    (askReserved s w fr).x.iq = (popIq s fr.sl).x.iq ∧ (askReserved s w fr).x.frontQ = s.x.frontQ := by
  obtain ⟨⟨edges, ctab, hx⟩, -⟩ := portKept_askReserved s w fr
  obtain ⟨hold, hhold⟩ := setHold_frame (popIq s fr.sl) w fr
  rw [hx, hhold]
  exact ⟨rfl, rfl⟩

/-- The tracker is asked, and the set waits under the request's number. -/
def asked (s : State) (w : CW) (fr : Firing) : State :=
  let u := askReserved s w fr
  sendPkt { u with x := { u.x with frontQ := u.x.frontQ ++ [(fr.sl, { fr.set with port := s.serial })] } } (.core fr.sl.core) 0 .wtrk u.wafno 8
    (.ask fr.sl fr.node.ctx fr.node.lid s.serial (w.imm.toNat % 64))

theorem exec_front_asks {s : State} {w : CW} {fr : Firing} {z : OpSet} (hiss : Issues s fr) (hj : judge w false (fun _ => 0) fr.set = .go z)
    (hroom : roomFor s ⟨fr.sl.core, fr.sl.e, 4⟩ 1 = true) : exec (.front w) s = .next (asked s w { fr with set := z }) := by
  have hserial : (setHold (popIq s fr.sl) w { fr with set := z }).serial = s.serial := by
    obtain ⟨hold, hhold⟩ := setHold_frame (popIq s fr.sl) w { fr with set := z }
    rw [hhold]
    rfl
  refine congrArg _ ((fireSet_go hiss hj).trans ((if_pos hroom).trans ?_))
  rw [asked, askReserved, ← hserial]
  rfl

/-- Settles O30: a token leaves with the claim dropped or is held in an entry, and a query leaves as a packet. -/
theorem probesAndQueries : Obligations.ProbesAndQueries := by
  intro w s fr hiss
  refine ⟨fun a ha hheld hp hroom => exec_probe_passes hiss ha hheld hp hroom, fun a t ha hwait ht => ?held,
    dropClaim_unclaimed, fun x hx h => hx (mstoreOf_dropClaim_subset s fr.sl fr.set.id h), fun z hj hroom => ?asks⟩
  case held =>
    refine ⟨_, exec_probe_holds hiss ha hwait ht, rfl, ?last, ?entry⟩
    case last => rw [lastF_noteIssue, ((quiet_holdTok ht).trans (quiet_popIq ..)).ctr]
    case entry =>
      obtain ⟨m, hm, hentry⟩ := holdTok_holds ht
      refine ⟨m, ?_, hentry⟩
      rw [mstoreOf, noteIssue_x]
      exact hm
  case asks =>
    obtain ⟨hiq, hfrontQ⟩ := askReserved_queues s w { fr with set := z }
    refine ⟨_, exec_front_asks hiss hj hroom, ?queue, ?waits, ⟨_, List.mem_append_right _ (List.mem_singleton_self _), rfl, rfl, rfl⟩⟩
    case queue =>
      have hasked : iqOf (asked s w { fr with set := z }) fr.sl.core fr.sl.e = iqOf (askReserved s w { fr with set := z }) fr.sl.core fr.sl.e := rfl
      rw [hasked, iqOf, hiq]
      exact tgetD_tset_self ..
    case waits => exact congrArg (· ++ _) hfrontQ

end Sys2Proof.Machine
end

section
/-! Counts and frontiers (R212 to R224; log 9, 14, 39): a core's table on its way to the trackers, the frontier at a probe's registers, and a query's
answer. -/

namespace Sys2Proof.Machine

open Sys2Proof Sys2Proof.Safety

/-! ## Count tables (R213) -/

/-- What each step of a fold sends is still in flight after the fold. -/
theorem foldl_sends {α : Type} {f : State → α → State} (kept : ∀ u a, PortKept u (f u a)) {P : α → Packet → Prop}
    (sends : ∀ u a, ∃ p ∈ (f u a).net, P a p) (l : List α) (s : State) : ∀ a ∈ l, ∃ p ∈ (l.foldl f s).net, P a p := by
  induction l generalizing s with
  | nil => intro a ha; cases ha
  | cons b l ih =>
    intro a ha
    obtain rfl | ha := List.mem_cons.mp ha
    · obtain ⟨p, hp, h⟩ := sends s a
      exact ⟨p, (portKept_foldl (f s a) kept l).net hp, h⟩
    · exact ih (f s b) a ha

/-- A message on class 0 carries the items of each launch of the table. -/
theorem flushCounts_sends (s : State) (c : CoreId) :
    ∀ lid ∈ ctLids (ctabOf s c), ∃ p ∈ (flushCounts s c).net, p.msg = .counts lid c (ctItems (ctabOf s c) lid) ∧ p.cls = 0 := by
  unfold flushCounts
  refine foldl_sends (P := fun lid p => p.msg = .counts lid c (ctItems (ctabOf s c) lid) ∧ p.cls = 0) (by exact fun u lid => portKept_sendPkt u ..)
    (fun u lid => ?_) _ s
  exact ⟨_, List.mem_append_right _ (List.mem_singleton_self _), rfl, rfl⟩

theorem exec_countTableIdleFlush {s : State} {c : CoreId} (ht : ctabOf s c ≠ []) (hidle : 256 ≤ (ctr s (.core c) - tgetD s.lastF c 0).toNat) :
    exec (.countTableIdleFlush c) s = .next (flushCounts s c) := by
  change execCountTableIdleFlush c s = _
  simp only [execCountTableIdleFlush, List.isEmpty_eq_false_iff.mpr ht, hidle, Bool.not_false, decide_true, Bool.and_self, if_true]

/-! ## Trackers (R214) -/

theorem exec_countMessage {s : State} {k lid : Nat} {p : Packet} {c : CoreId} {l : List CountItem} (hp : pkt? s k = some p)
    (hm : p.msg = .counts lid c l) (ha : arrived s p = true) : exec (.countMessage k) s =
      .next { dropPkt s k with ftrk := tset s.ftrk (c.f, lid) (addItems (tgetD s.ftrk (c.f, lid) []) l) } := by
  change execCountMessage k s = _
  simp only [execCountMessage, hp, hm, ha, if_true]
  rfl

/-- The launch with items added to its counts. -/
def Launch.counted (l : Launch) (its : List CountItem) : Launch := { l with counts := addItems l.counts its }

theorem exec_trackerPeerChange {s : State} {w lid : Nat} {l : Launch} (h : launch? s lid = some l) (its : List CountItem)
    (hw : l.wafers.contains w = true) (hme : w ≠ s.wafno) (hd : s.dead.getLsbD w = false) :
    exec (.trackerPeerChange w lid its) s = .next { s with launches := tset s.launches lid (l.counted its) } := by
  change execTrackerPeerChange w lid its s = _
  simp only [execTrackerPeerChange, h, hw, bne_iff_ne.mpr hme, hd, modLaunch_eq h, Bool.not_false, Bool.and_self, if_true]
  rfl

section
variable (s : State) (lid : Nat) (its : List CountItem)

/-- A change goes to the tracker of one wafer. -/
def tellTracker (u : State) (w : Nat) : State := sendPkt u .wtrk 0 .wtrk w 0 (.peer u.wafno lid (.change its))

/-- Messages in flight are all that telling other trackers changes. -/
theorem foldl_tellTracker_frame (ws : List Nat) : ∃ net serial, ws.foldl (tellTracker lid its) s = { s with net := net, serial := serial } := by
  refine List.foldlRecOn (motive := fun u : State => ∃ net serial, u = { s with net := net, serial := serial }) ws _ ⟨_, _, rfl⟩ ?_
  rintro _ ⟨net, serial, rfl⟩ w -
  exact ⟨_, _, rfl⟩

theorem foldl_tellTracker_sends (ws : List Nat) :
    ∀ w ∈ ws, ∃ p ∈ (ws.foldl (tellTracker lid its) s).net, p.dstW = w ∧ p.cls = 0 ∧ p.msg = .peer s.wafno lid (.change its) := by
  induction ws generalizing s with
  | nil => intro w hw; cases hw
  | cons v ws ih =>
    intro w hw
    obtain rfl | hw := List.mem_cons.mp hw
    · have kept : PortKept (tellTracker lid its s w) (ws.foldl (tellTracker lid its) (tellTracker lid its s w)) :=
        portKept_foldl _ (fun u v => portKept_sendPkt u ..) ws
      exact ⟨_, kept.net (List.mem_append_right _ (List.mem_singleton_self _)), rfl, rfl, rfl⟩
    · exact ih (tellTracker lid its s v) w hw

theorem tellTrackers_eq {l : Launch} (h : launch? s lid = some l) :
    tellTrackers s lid its = if its.isEmpty then s else l.wafers.foldl (tellTracker lid its) s := by
  simp only [tellTrackers, h]
  rfl

/-- The field tracker's net change, added at the wafer tracker. -/
def forwarded (f : Nat) (l : Launch) : State :=
  { s with ftrk := tdel s.ftrk (f, lid), launches := tset s.launches lid (l.counted (tgetD s.ftrk (f, lid) [])) }

theorem exec_trackerForward {f : Nat} {l : Launch} (h : launch? s lid = some l) :
    let its := tgetD s.ftrk (f, lid) []
    exec (.trackerForward f lid) s =
      .next (if its.isEmpty then forwarded s lid f l else l.wafers.foldl (tellTracker lid its) (forwarded s lid f l)) := by
  intro its
  have hmod : modLaunch { s with ftrk := tdel s.ftrk (f, lid) } lid (·.counted its) = forwarded s lid f l :=
    modLaunch_eq (s := { s with ftrk := tdel s.ftrk (f, lid) }) h _
  have hl : launch? (forwarded s lid f l) lid = some (l.counted its) := tget_tset_self ..
  have hexec : exec (.trackerForward f lid) s =
      .next (tellTrackers (modLaunch { s with ftrk := tdel s.ftrk (f, lid) } lid (·.counted its)) lid its) := rfl
  rw [hexec, hmod, tellTrackers_eq _ _ _ hl]
  rfl

end

/-! ## The registers of a probe (R217, R218, R220) -/

/-- What keeps to a slot leaves every probe's registers. -/
theorem frnOf_local {sl : Slot} {s t : State} (h : Local sl s t) (z : Slot) : frnOf t z = frnOf s z := by
  have hfrn : t.x.frn = s.x.frn := (congrArg (fun u : State => u.x.frn) h.frame :)
  rw [frnOf, frnOf, hfrn]

/-- Held tokens leave as firings of their slot do. -/
theorem local_releaseHeld (s : State) (sl : Slot) (n : Node) (l : List MEntry) : Local sl s (releaseHeld s sl n l) := by
  induction l generalizing s with
  | nil => exact Local.refl ..
  | cons m l ih =>
    rw [releaseHeld]
    split
    · split
      · next t _ _ =>
        refine Local.trans (Local.trans (FiringChange.loc (w := CW.unpack n.word) ?_) (quiet_setMstore ..).loc) (ih _)
        exact change_apply_at (by rfl) ..
      · exact ih _
    · exact ih _

theorem releaseHeld_none {l : List MEntry} (h : ∀ m ∈ l, entryHolds m = false) (s : State) (sl : Slot) (n : Node) : releaseHeld s sl n l = s := by
  induction l with
  | nil => rfl
  | cons m l ih =>
    rw [releaseHeld]
    split
    next t hkind =>
      have hm := h m List.mem_cons_self
      rw [entryHolds, hkind] at hm
      cases hm
    next => exact ih fun x hx => h x (List.mem_cons_of_mem _ hx)

/-- Without a spill block, and with no element beyond the registers, nothing is spilled (R218). -/
theorem spillFrontier_none {s : State} {f : Nat} {l : List Time} (h : tgetD s.fspb f 0 = 0 ∨ l.length ≤ 4) (probe : Nat) :
    spillFrontier s f probe l = s := by
  unfold spillFrontier
  dsimp only
  split
  · rfl
  next hbase =>
    obtain h | h := h
    · rw [h] at hbase
      exact absurd rfl hbase
    · rw [List.drop_eq_nil_iff.mpr h]
      rfl

/-- The state in which a probe's registers have taken the frontier: what goes beyond them is spilled first. -/
def frontierSet (s : State) (sl : Slot) (l : Launch) (r : Frn) : State :=
  let u := spillFrontier s sl.core.f (tgetD l.probes sl 0) r.elems
  { u with x := { u.x with frn := tset u.x.frn sl r } }

/-- A frontier that changes meets the breakpoints on it (R408). -/
def frontierMet (s : State) (sl : Slot) (n : Node) (lid : Nat) (changed : Bool) : State :=
  if changed then breakAt s .wtrk 4 (nodeKey sl) sl.core.f lid n.ctx (nodeKey sl + Code.break_) t00 0 else s

section
variable {s : State} {sl : Slot} {n : Node} (hn : node? s sl = some n)
include hn

theorem frontierTo_other {k : Nat} (hk : k ≠ n.lid) : frontierTo sl s k = s := by
  unfold frontierTo
  split
  next m _ hm =>
    obtain rfl : n = m := Option.some.inj (hn.symm.trans hm)
    exact if_pos (bne_iff_ne.mpr hk.symm)
  next => rfl

theorem frontierTo_eq {l : Launch} (hl : launch? s n.lid = some l) :
    let r := frontierRegs l ((CW.unpack n.word).imm.toNat % 64)
    let u := frontierMet (frontierSet s sl l r) sl n n.lid (frnOf s sl != r)
    frontierTo sl s n.lid =
      if ctxRuns u n.ctx && !isFrozen u sl.core.f n.lid && (parkedOf u sl).isEmpty then releaseHeld u sl n (mstoreOf u sl.core) else u := by
  simp only [frontierTo, hl, hn, bne_self_eq_false, Bool.false_eq_true, if_false]
  rfl

theorem frnOf_frontierTo {l : Launch} (hl : launch? s n.lid = some l) :
    frnOf (frontierTo sl s n.lid) sl = frontierRegs l ((CW.unpack n.word).imm.toNat % 64) := by
  have set (r : Frn) : frnOf (frontierSet s sl l r) sl = r := tgetD_tset_self ..
  have met (u : State) (b : Bool) : Local sl u (frontierMet u sl n n.lid b) := by
    unfold frontierMet
    split
    · exact (quiet_breakAt ..).loc
    · exact Local.refl ..
  rw [frontierTo_eq hn hl]
  split
  · rw [frnOf_local (local_releaseHeld ..), frnOf_local (met _ _), set]
  · rw [frnOf_local (met _ _), set]

/-- Where the frontier stands as it did, no token is held and nothing is spilled, the registers are written and nothing else. -/
theorem frontierTo_unchanged {l : Launch} (hl : launch? s n.lid = some l) {r : Frn} (hr : frontierRegs l ((CW.unpack n.word).imm.toNat % 64) = r)
    (hsame : frnOf s sl = r) (hheld : ∀ m ∈ mstoreOf s sl.core, entryHolds m = false)
    (hspill : tgetD s.fspb sl.core.f 0 = 0 ∨ r.elems.length ≤ 4) :
    frontierTo sl s n.lid = { s with x := { s.x with frn := tset s.x.frn sl r } } := by
  have set : frontierSet s sl l r = { s with x := { s.x with frn := tset s.x.frn sl r } } := by rw [frontierSet, spillFrontier_none hspill]
  have same : (frnOf s sl != r) = false := by rw [hsame, bne_self_eq_false]
  rw [frontierTo_eq hn hl, hr]
  simp only [frontierMet, same, set, Bool.false_eq_true, if_false]
  split
  · exact releaseHeld_none hheld ..
  · rfl

end

/-! ## Queries answered (R221) -/

/-- The tokens of an answer: each element of the frontier under its number, and an END. -/
theorem frontToks_ok {w : CW} {fr : Firing} {tx : Time} (hx : act w.xt fr.set.id.time = some tx) (els : List Time) (i : Nat) :
    frontToks w fr i els = .ok ((els.zipIdx i).map (fun q => xTok w fr.set tx (timeWord q.1) (BitVec.ofNat 32 q.2) true 1) ++
      [specTok w.xc fr.set tx false true]) := by
  induction els generalizing i with
  | nil => rw [frontToks, endTok_x hx]; rfl
  | cons t els ih => rw [frontToks, outTok_x hx fitsDif_one, ih]; rfl

section
variable {s : State} {sl : Slot}

theorem exec_frontAnswer_told {k ctx rid : Nat} {els : List Time} (h : toldHere s sl = some (k, ctx, rid, els)) (hc : InPlace s ctx) :
    exec (.frontAnswer sl) s = .next (frontTold (dropPkt s k) sl rid els) := by
  have hc : InPlace (dropPkt s k) ctx := hc
  change execFrontAnswer sl s = _
  simp only [execFrontAnswer, h, onCopy_inPlace hc]

theorem exec_frontAnswer_ask {p : Packet} {ctx lid rid q : Nat} {l : Launch} (hnone : toldHere s sl = none) (h : askHere s sl = some p)
    (hm : p.msg = .ask sl ctx lid rid q) (hl : launch? s lid = some l) : exec (.frontAnswer sl) s = .next (sendPkt (dropPkt s p.id) .wtrk 0
      (.core sl.core) s.wafno (8 * (frontierRegs l q).elems.length) (.told sl ctx lid rid (frontierRegs l q).elems)) := by
  change execFrontAnswer sl s = _
  simp only [execFrontAnswer, hnone, h, frontAsked, hm, hl, Option.map_some, Option.getD_some]

end

/-- Settles O49: one lemma per step of the counts, from a core's table to the trackers and their peers, and of the frontiers, to a probe's
registers and to a query's node. -/
theorem countsAndFrontiers : Obligations.CountsAndFrontiers := by
  refine ⟨fun s c ht hidle => ?table, fun s k lid p c l hp hm ha => exec_countMessage hp hm ha, fun s f lid l hl => ?trackers,
    fun s sl => ?update, fun s sl n l hn hl => ?registers, fun s sl k ctx rid els => exec_frontAnswer_told,
    fun s sl n o rid els tx => ?told, fun s sl p ctx lid rid q l => exec_frontAnswer_ask⟩
  case table =>
    have quiet : Quiet ⟨c, 0, 0⟩ s (flushCounts s c) := quiet_flushCounts s ⟨c, 0, 0⟩
    exact ⟨_, exec_countTableIdleFlush ht hidle, ctabOf_flushCounts s c, quiet.loc.ctab, quiet.mem, flushCounts_sends s c⟩
  case trackers =>
    intro its
    refine ⟨⟨_, exec_trackerForward s lid hl, ?frame, fun hits => ?peers, fun halone => ?alone⟩, fun w its hw hme hd =>
      exec_trackerPeerChange hl its hw hme hd⟩
    case frame =>
      split
      · rfl
      · obtain ⟨net, serial, h⟩ := foldl_tellTracker_frame (forwarded s lid f l) lid its l.wafers
        rw [h]
        rfl
    case peers =>
      rw [if_neg (ne_true_of_eq_false (List.isEmpty_eq_false_iff.mpr hits))]
      exact foldl_tellTracker_sends (forwarded s lid f l) lid its l.wafers
    case alone =>
      rw [halone, List.foldl_nil, ite_self]
      exact ⟨rfl, rfl⟩
  case update =>
    exact ⟨fun h => congrArg _ (if_pos h), fun h => congrArg _ (if_neg (ne_true_of_eq_false h))⟩
  case registers =>
    intro r t
    exact ⟨frnOf_frontierTo hn hl, fun hsame _ _ _ hheld hspill => frontierTo_unchanged hn hl rfl hsame hheld hspill,
      fun k hk => frontierTo_other hn hk⟩
  case told =>
    intro w hn hq hx u toks t
    have htoks : frontToks w ⟨sl, n, o, false, 0⟩ 0 els = .ok toks := frontToks_ok (fr := ⟨sl, n, o, false, 0⟩) hx els 0
    simp only [frontTold, hq, hn]
    rw [htoks]

end Sys2Proof.Machine
end

section
/-! Times and records of histories (R5, R203, R227): the order of times, the meet that a frontier gives, and a record read back from its bytes. -/

namespace Sys2Proof.Machine

open Sys2Proof

/-! ## Times (R5, R203) -/

theorem timeOf_timeWord (t : Time) : timeOf (timeWord t) = t := by
  have hb : (timeWord t).extractLsb' 32 32 = t.batch := (extract_append_above _ _ 32 32 le_rfl).trans BitVec.extractLsb'_eq_self
  have hr : (timeWord t).extractLsb' 0 32 = t.round := extract_append_low ..
  rw [timeOf, hb, hr]

theorem timeWord_injective : Function.Injective timeWord := Function.LeftInverse.injective timeOf_timeWord

theorem tle_iff {t u : Time} : tle t u = true ↔ t.batch.toNat ≤ u.batch.toNat ∧ t.round.toNat ≤ u.round.toNat := by
  simp [tle]

theorem tle_refl (t : Time) : tle t t = true := tle_iff.mpr ⟨le_rfl, le_rfl⟩

theorem tle_tmeet {u a b : Time} : tle u (tmeet a b) = true ↔ tle u a = true ∧ tle u b = true := by
  simp only [tle_iff, tmeet]
  split_ifs <;> omega

/-- A time is below the meet of some times where it is below each of them. -/
theorem tle_foldl_tmeet {u : Time} (l : List Time) (a : Time) : tle u (l.foldl tmeet a) = true ↔ ∀ x ∈ a :: l, tle u x = true := by
  induction l generalizing a with
  | nil => simp
  | cons b l ih => rw [List.foldl_cons, ih]; simp only [List.forall_mem_cons, tle_tmeet, and_assoc]

theorem compactTime_nil (t : Time) : compactTime [] t = t := rfl

/-- A compacted time is the meet of the time's joins with the frontier (R242). -/
theorem tle_compactTime {F : List Time} (hF : F ≠ []) {t u : Time} :
    tle u (compactTime F t) = true ↔ ∀ f ∈ F, tle u (tjoin t f) = true := by
  obtain ⟨f, F, rfl⟩ := List.exists_cons_of_ne_nil hF
  simpa [compactTime] using tle_foldl_tmeet (u := u) (F.map fun f => tjoin t f) (tjoin t f)

theorem mem_insTime {t x : Time} {l : List Time} : x ∈ insTime t l ↔ x = t ∨ x ∈ l := by
  induction l with
  | nil => simp [insTime]
  | cons a l ih =>
    rw [insTime]
    split
    · simp
    · simp only [List.mem_cons, ih]; tauto

theorem mem_foldl_insTime {x : Time} (l acc : List Time) : x ∈ l.foldl (fun acc u => insTime u acc) acc ↔ x ∈ l ∨ x ∈ acc := by
  induction l generalizing acc with
  | nil => simp
  | cons a l ih => simp only [List.foldl_cons, ih, mem_insTime, List.mem_cons]; tauto

/-! ## Interesting times (R239) -/

/-- The batch's own time, and the times of the history's records of a key. -/
def TimeAt (h : Hist) (t : Time) (k : W32) (u : Time) : Prop := u = t ∨ ∃ q ∈ h.batches.flatMap Prod.snd, q.key = k ∧ q.time = u

theorem mem_timesAt {h : Hist} {t u : Time} {k : W32} :
    u ∈ t :: ((h.batches.flatMap Prod.snd).filter fun r => r.key == k).map HRec.time ↔ TimeAt h t k u := by
  simp only [List.mem_cons, List.mem_map, List.mem_filter, beq_iff_eq, TimeAt, and_assoc]

/-- An interesting time is the join of the batch's time with two times of its key's records, and not pending yet. -/
theorem mem_interesting {h : Hist} {t : Time} {b : List HRec} {p : HRec} : p ∈ interesting h t b ↔
    p.dif = 0 ∧ p.val = 0 ∧ (∃ q ∈ b, q.key = p.key) ∧ (∃ u w, TimeAt h t p.key u ∧ TimeAt h t p.key w ∧ p.time = tjoin t (tjoin u w)) ∧
      ∀ q ∈ h.pend, ¬ (q.key = p.key ∧ q.time = p.time) := by
  have joins (k : W32) (x : Time) :
      (∃ u ∈ t :: ((h.batches.flatMap Prod.snd).filter fun r => r.key == k).map HRec.time,
        ∃ w ∈ t :: ((h.batches.flatMap Prod.snd).filter fun r => r.key == k).map HRec.time, tjoin t (tjoin u w) = x) ↔
      ∃ u w, TimeAt h t k u ∧ TimeAt h t k w ∧ x = tjoin t (tjoin u w) := by
    simp only [mem_timesAt, eq_comm (a := x), exists_and_left]
  have notPending (k : W32) (x : Time) : (!(h.pend.any fun q => q.key == k && q.time == x)) = true ↔ ∀ q ∈ h.pend, ¬ (q.key = k ∧ q.time = x) := by
    simp
  simp only [interesting, List.mem_flatMap, List.mem_map, List.mem_filter, List.mem_eraseDups, mem_foldl_insTime, List.not_mem_nil, or_false,
    notPending, joins]
  constructor
  · rintro ⟨_, ⟨q, hq, rfl⟩, x, ⟨hx, hnew⟩, rfl⟩
    exact ⟨rfl, rfl, ⟨q, hq, rfl⟩, hx, hnew⟩
  · rintro ⟨hd, hv, ⟨q, hq, hk⟩, hx, hnew⟩
    obtain ⟨k, d, v, x⟩ := p
    cases hd; cases hv
    exact ⟨k, ⟨q, hq, hk⟩, x, ⟨hx, hnew⟩, rfl⟩

/-! ## The bytes of a record (R227) -/

theorem recBytes_length (r : HRec) : (recBytes r).length = 24 := by simp [recBytes, leBytes_length]

/-- The bytes of a list's element i stand behind those of the elements before it. -/
theorem drop_flatMap_recBytes {l : List HRec} {i : Nat} {r : HRec} (h : l[i]? = some r) :
    ∃ rest, (l.flatMap recBytes).drop (24 * i) = recBytes r ++ rest := by
  induction l generalizing i with
  | nil => cases h
  | cons a l ih =>
    cases i with
    | zero =>
      cases h
      exact ⟨l.flatMap recBytes, rfl⟩
    | succ i =>
      obtain ⟨rest, hrest⟩ := ih (by simpa using h)
      refine ⟨rest, ?_⟩
      rw [List.flatMap_cons, Nat.mul_succ, Nat.add_comm, ← List.drop_drop, List.drop_left' (recBytes_length a), hrest]

theorem sint_wrap {d : Int} (h : dif32 d = true) : sint 32 (wrap 32 d) = d := by
  simp only [dif32, Bool.and_eq_true, decide_eq_true_eq] at h
  obtain ⟨hl, hu⟩ := h
  rw [sint_eq_toInt (by decide), wrap]
  have e : BitVec.ofNat 32 (d % 2 ^ 32).toNat = BitVec.ofInt 32 d := by
    apply BitVec.eq_of_toNat_eq
    simp only [BitVec.toNat_ofNat, BitVec.toNat_ofInt]
    omega
  rw [e, BitVec.toInt_ofInt, Int.bmod_eq_of_le] <;> omega

section
variable {m n w v : Nat} (b : List Byte)

theorem leAt_drop (j i n : Nat) : leAt (b.drop j) i n = leAt b (j + i) n := by rw [leAt, leAt, List.drop_drop]

theorem leAt_leBytes_head : leAt (leBytes n v ++ b) 0 n = v % 256 ^ n := by
  rw [leAt, List.drop_zero, List.take_left' (leBytes_length n v), leNat_leBytes]

theorem leAt_leBytes_tail (i : Nat) : leAt (leBytes m w ++ b) (m + i) n = leAt b i n := by
  rw [← leAt_drop, List.drop_left' (leBytes_length m w)]

end

/-- A record is read back from a list's bytes (R227). -/
theorem recAt_flatMap_recBytes {l : List HRec} {i : Nat} {r : HRec} (h : l[i]? = some r) (hd : dif32 r.dif = true) :
    recAt (l.flatMap recBytes) i = r := by
  obtain ⟨rest, hrest⟩ := drop_flatMap_recBytes h
  have field (j n : Nat) : leAt (l.flatMap recBytes) (24 * i + j) n = leAt (leBytes 4 r.key.toNat ++ (leBytes 4 (wrap 32 r.dif) ++
      (leBytes 8 r.val.toNat ++ (leBytes 8 (timeWord r.time).toNat ++ rest)))) j n := by
    rw [← leAt_drop, hrest, recBytes]
    simp only [List.append_assoc]
  have key : leAt (l.flatMap recBytes) (24 * i) 4 = r.key.toNat := by
    rw [← Nat.add_zero (24 * i), field, leAt_leBytes_head]
    exact Nat.mod_eq_of_lt r.key.isLt
  have dif : leAt (l.flatMap recBytes) (24 * i + 4) 4 = wrap 32 r.dif := by
    rw [field, leAt_leBytes_tail _ 0, leAt_leBytes_head, Nat.mod_eq_of_lt (by simp only [wrap]; omega)]
  have val : leAt (l.flatMap recBytes) (24 * i + 8) 8 = r.val.toNat := by
    rw [field, leAt_leBytes_tail _ 4, leAt_leBytes_tail _ 0, leAt_leBytes_head]
    exact Nat.mod_eq_of_lt r.val.isLt
  have time : leAt (l.flatMap recBytes) (24 * i + 16) 8 = (timeWord r.time).toNat := by
    rw [field, leAt_leBytes_tail _ 12, leAt_leBytes_tail _ 8, leAt_leBytes_tail _ 0, leAt_leBytes_head]
    exact Nat.mod_eq_of_lt (timeWord r.time).isLt
  rw [recAt, key, dif, val, time, sint_wrap hd]
  simp only [BitVec.ofNat_toNat, BitVec.setWidth_eq, timeOf_timeWord]

end Sys2Proof.Machine
end

section
/-! Sums over records and values (R227, R238): a list whose elements are put in their order, those of one place added up, has the sums of what was
put in. The batches of a history (R232, R233) and the collections of a reduction (R238) are such lists. -/

namespace Sys2Proof.Machine

open Sys2Proof

/-! ## Ordered insertion -/

/-- An element put into its place, or added to the one that stands there. -/
def insBy {α : Type} (place : α → Nat) (add : α → α → α) (r : α) : List α → List α
  | [] => [r]
  | a :: l => if place r < place a then r :: a :: l else if place r = place a then add a r :: l else a :: insBy place add r l

section
variable {α : Type} {place : α → Nat} {add : α → α → α} (hadd : ∀ a r, place (add a r) = place a)

/-- Places rise along a list. -/
def Rising (place : α → Nat) (l : List α) : Prop := l.Pairwise fun a b => place a < place b

include hadd in
theorem place_mem_insBy {r x : α} {l : List α} (h : x ∈ insBy place add r l) : place x = place r ∨ ∃ y ∈ l, place x = place y := by
  induction l with
  | nil => exact .inl (congrArg place (List.mem_singleton.mp h))
  | cons a l ih =>
    rw [insBy] at h
    split_ifs at h with h1 h2
    · obtain rfl | h := List.mem_cons.mp h
      · exact .inl rfl
      · exact .inr ⟨x, h, rfl⟩
    · obtain rfl | h := List.mem_cons.mp h
      · exact .inr ⟨a, List.mem_cons_self, hadd a r⟩
      · exact .inr ⟨x, List.mem_cons_of_mem _ h, rfl⟩
    · obtain rfl | h := List.mem_cons.mp h
      · exact .inr ⟨x, List.mem_cons_self, rfl⟩
      · obtain h | ⟨y, hy, h⟩ := ih h
        · exact .inl h
        · exact .inr ⟨y, List.mem_cons_of_mem _ hy, h⟩

include hadd in
theorem rising_insBy (r : α) {l : List α} (h : Rising place l) : Rising place (insBy place add r l) := by
  induction l with
  | nil => exact List.pairwise_singleton ..
  | cons a l ih =>
    obtain ⟨ha, hl⟩ := List.pairwise_cons.mp h
    rw [insBy]
    split_ifs with h1 h2
    · exact List.pairwise_cons.mpr ⟨List.forall_mem_cons.mpr ⟨h1, fun x hx => h1.trans (ha x hx)⟩, h⟩
    · exact List.pairwise_cons.mpr ⟨fun x hx => (hadd a r).symm ▸ ha x hx, hl⟩
    · refine List.pairwise_cons.mpr ⟨fun x hx => ?_, ih hl⟩
      obtain hx | ⟨y, hy, hx⟩ := place_mem_insBy hadd hx
      · omega
      · exact hx ▸ ha y hy

/-- A weight that adds up where two elements of one place do sums over the list to what was put in. -/
theorem sum_insBy {w : α → Int} (hw : ∀ a r, place r = place a → w (add a r) = w a + w r) (r : α) (l : List α) :
    ((insBy place add r l).map w).sum = w r + (l.map w).sum := by
  induction l with
  | nil => rfl
  | cons a l ih =>
    rw [insBy]
    split_ifs with h1 h2
    · rfl
    · rw [List.map_cons, List.sum_cons, hw a r h2, List.map_cons, List.sum_cons]; ring
    · rw [List.map_cons, List.sum_cons, ih, List.map_cons, List.sum_cons]; ring

include hadd in
theorem rising_foldl_insBy (l acc : List α) (h : Rising place acc) : Rising place (l.foldl (fun acc r => insBy place add r acc) acc) :=
  List.foldlRecOn (motive := Rising place) l _ h fun _ h r _ => rising_insBy hadd r h

theorem sum_foldl_insBy {w : α → Int} (hw : ∀ a r, place r = place a → w (add a r) = w a + w r) (l acc : List α) :
    ((l.foldl (fun acc r => insBy place add r acc) acc).map w).sum = (l.map w).sum + (acc.map w).sum := by
  induction l generalizing acc with
  | nil => simp
  | cons r l ih => rw [List.foldl_cons, ih, sum_insBy hw, List.map_cons, List.sum_cons]; ring

/-- Elements of no weight may be left out. -/
theorem sum_filter {w : α → Int} {p : α → Bool} (hp : ∀ a, p a = false → w a = 0) (l : List α) : ((l.filter p).map w).sum = (l.map w).sum := by
  induction l with
  | nil => rfl
  | cons a l ih =>
    cases h : p a
    · rw [List.filter_cons_of_neg (by simp [h]), ih, List.map_cons, List.sum_cons, hp a h, zero_add]
    · rw [List.filter_cons_of_pos h, List.map_cons, List.sum_cons, ih, List.map_cons, List.sum_cons]

/-- The sum over the elements that a test picks, as a sum over all. -/
theorem sum_picked (p : α → Bool) (f : α → Int) (l : List α) : ((l.filter p).map f).sum = (l.map fun a => if p a then f a else 0).sum := by
  induction l with
  | nil => rfl
  | cons a l ih =>
    cases h : p a
    · rw [List.filter_cons_of_neg (by simp [h]), ih]; simp [h]
    · rw [List.filter_cons_of_pos h]; simp [h, ih]

end

/-! ## Records (R227, R232) -/

/-- What the records of a list sum to at a key, a value and a time. -/
def total (l : List HRec) (k : W32) (v : W64) (t : Time) : Int := ((l.filter fun r => r.key == k && r.val == v && r.time == t).map HRec.dif).sum

/-- What a record adds to a total. -/
def weightAt (k : W32) (v : W64) (t : Time) (r : HRec) : Int := if (r.key == k && r.val == v && r.time == t) = true then r.dif else 0

theorem total_eq_sum (l : List HRec) (k : W32) (v : W64) (t : Time) : total l k v t = (l.map (weightAt k v t)).sum := sum_picked ..

theorem total_append (a b : List HRec) (k : W32) (v : W64) (t : Time) : total (a ++ b) k v t = total a k v t + total b k v t := by
  simp only [total, List.filter_append, List.map_append, List.sum_append]

/-- The order of records names key, value and time. -/
theorem ord_inj {a b : HRec} : a.ord = b.ord ↔ a.key = b.key ∧ a.val = b.val ∧ a.time = b.time := by
  have ha := (timeWord a.time).isLt
  have hb := (timeWord b.time).isLt
  have va := a.val.isLt
  have vb := b.val.isLt
  constructor
  · intro h
    simp only [HRec.ord] at h
    refine ⟨BitVec.eq_of_toNat_eq ?_, BitVec.eq_of_toNat_eq ?_, timeWord_injective (BitVec.eq_of_toNat_eq ?_)⟩ <;> omega
  · rintro ⟨hk, hv, ht⟩
    rw [HRec.ord, HRec.ord, hk, hv, ht]

/-- A record with another's dif added. -/
def addDif (a r : HRec) : HRec := { a with dif := a.dif + r.dif }

theorem insRec_eq_insBy (r : HRec) (l : List HRec) : insRec r l = insBy HRec.ord addDif r l := by
  induction l with
  | nil => rfl
  | cons a l ih => rw [insRec, insBy, ih]; rfl

theorem weightAt_addDif (k : W32) (v : W64) (t : Time) (a r : HRec) (h : r.ord = a.ord) :
    weightAt k v t (addDif a r) = weightAt k v t a + weightAt k v t r := by
  obtain ⟨hk, hv, ht⟩ := ord_inj.mp h
  unfold weightAt addDif
  rw [hk, hv, ht]
  dsimp only
  split_ifs
  · rfl
  · rfl

/-- Merged records stand in order, sum to what was merged, and none is zero or beyond 32 bits (R232, R233). -/
theorem mergeRecs_some {l m : List HRec} (h : mergeRecs l = some m) :
    Rising HRec.ord m ∧ (∀ r ∈ m, r.dif ≠ 0 ∧ dif32 r.dif = true) ∧ ∀ k v t, total m k v t = total l k v t := by
  rw [mergeRecs, Option.ite_none_right_eq_some] at h
  obtain ⟨hall, hm⟩ := h
  have hfold : (fun acc r => insRec r acc) = fun acc r => insBy HRec.ord addDif r acc := funext₂ fun acc r => insRec_eq_insBy r acc
  rw [hfold] at hall hm
  cases hm
  refine ⟨(rising_foldl_insBy (add := addDif) (fun _ _ => rfl) l [] .nil).filter _, fun r hr => ?_, fun k v t => ?_⟩
  · obtain ⟨hr, hne⟩ := List.mem_filter.mp hr
    exact ⟨by simpa using hne, List.all_eq_true.mp hall r hr⟩
  · have zero (r : HRec) (h : (r.dif != 0) = false) : weightAt k v t r = 0 := by
      have hd : r.dif = 0 := by simpa using h
      rw [weightAt, hd, ite_self]
    rw [total_eq_sum, sum_filter zero, sum_foldl_insBy (weightAt_addDif k v t), total_eq_sum, List.map_nil, List.sum_nil, add_zero]

theorem mergeRecs_nil : mergeRecs [] = some [] := rfl

/-- R232's checks of a batch. -/
theorem consolidate_eq (l : List HRec) : (inOrder l = false → consolidate l = .error Code.histOrder) ∧
    (inOrder l = true → mergeRecs l = none → consolidate l = .error Code.difOverflow) ∧
    ∀ m, inOrder l = true → mergeRecs l = some m → consolidate l = .ok m :=
  ⟨fun h => by simp only [consolidate, h, Bool.false_eq_true, if_false], fun h hm => by simp only [consolidate, h, hm, if_true],
    fun m h hm => by simp only [consolidate, h, hm, if_true]⟩

end Sys2Proof.Machine
end

section
/-! Batches (R232, R233, R242, R243): an append leaves what both sides sum to, and merging every side leaves at most one batch of each. -/

namespace Sys2Proof.Machine

open Sys2Proof

/-! ## The records of a side -/

/-- The records of one side of a table of batches. -/
def sideOf (sd : Bool) (bs : List (Bool × List HRec)) : List HRec := (bs.filter fun b => b.1 == sd).flatMap Prod.snd

theorem side_eq (h : Hist) (sd : Bool) : h.side sd = sideOf sd h.batches := rfl

@[simp] theorem sideOf_nil (sd : Bool) : sideOf sd [] = [] := rfl

@[simp] theorem sideOf_append (sd : Bool) (a b : List (Bool × List HRec)) : sideOf sd (a ++ b) = sideOf sd a ++ sideOf sd b := by
  simp only [sideOf, List.filter_append, List.flatMap_append]

@[simp] theorem sideOf_cons_same (sd : Bool) (l : List HRec) (bs : List (Bool × List HRec)) : sideOf sd ((sd, l) :: bs) = l ++ sideOf sd bs := by
  simp [sideOf]

@[simp] theorem sideOf_cons_other (sd : Bool) (l : List HRec) (bs : List (Bool × List HRec)) : sideOf (!sd) ((sd, l) :: bs) = sideOf (!sd) bs := by
  cases sd <;> rfl

/-! ## Merges that an append triggers (R233) -/

/-- An element of a numbered list stands at its number. -/
theorem eq_append_of_zipIdx {α : Type} {l : List α} {a : α} {i : Nat} {x y : List (α × Nat)} (h : l.zipIdx = x ++ (a, i) :: y) :
    l = x.map Prod.fst ++ a :: y.map Prod.fst ∧ i = x.length := by
  constructor
  · rw [← List.zipIdx_map_fst 0 l, h, List.map_append, List.map_cons]
  · have e : l.zipIdx[x.length]? = some (a, i) := by rw [h, List.getElem?_append_right le_rfl, Nat.sub_self]; rfl
    rw [List.getElem?_zipIdx] at e
    obtain ⟨b, -, hb⟩ := Option.map_eq_some_iff.mp e
    simpa using (congrArg Prod.snd hb).symm

/-- Where the last two batches of a side stand. -/
theorem lastTwo_some {h : Hist} {sd : Bool} {i j : Nat} {a b : List HRec} (hl : lastTwo h sd = some (i, a, j, b)) :
    ∃ pre mid post, h.batches = pre ++ (sd, a) :: (mid ++ (sd, b) :: post) ∧ i = pre.length ∧ j = pre.length + (mid.length + 1) := by
  unfold lastTwo at hl
  split at hl
  next q p rest hrev =>
    obtain ⟨⟨qs, qb⟩, qi⟩ := q
    obtain ⟨⟨ps, pb⟩, pi⟩ := p
    obtain ⟨rfl, rfl, rfl, rfl⟩ : pi = i ∧ pb = a ∧ qi = j ∧ qb = b := by simpa using hl
    have hf : h.batches.zipIdx.filter (fun p => p.1.1 == sd) = rest.reverse ++ [((ps, pb), pi), ((qs, qb), qi)] := by
      rw [← List.reverse_reverse (List.filter _ _), hrev]; simp
    obtain ⟨z1, z2, hz, -, h2⟩ := List.filter_eq_append_iff.mp hf
    obtain ⟨x, z3, rfl, -, hp, h3⟩ := List.filter_eq_cons_iff.mp h2
    obtain ⟨y, w, rfl, -, hq, -⟩ := List.filter_eq_cons_iff.mp h3
    obtain rfl : ps = sd := by simpa using hp
    obtain rfl : qs = ps := by simpa using hq
    obtain ⟨hb, hi⟩ := eq_append_of_zipIdx (x := z1 ++ x) (hz.trans (List.append_assoc ..).symm)
    obtain ⟨-, hj⟩ := eq_append_of_zipIdx (x := z1 ++ (x ++ ((qs, pb), pi) :: y)) (a := (qs, qb)) (i := qi) (y := w)
      (by simpa only [List.append_assoc, List.cons_append] using hz)
    refine ⟨(z1 ++ x).map Prod.fst, y.map Prod.fst, w.map Prod.fst, ?_, ?_, ?_⟩
    · rw [hb, List.map_append (l₁ := y), List.map_cons]
    · rw [hi, List.length_map]
    · rw [hj]; simp only [List.length_append, List.length_cons, List.length_map]; omega
  next => cases hl

/-- Only the batches of one side are rearranged, and they sum to what they did. -/
structure MergedOn (sd : Bool) (h g : Hist) : Prop where
  total : ∀ k v t, total (g.side sd) k v t = total (h.side sd) k v t
  other : g.side (!sd) = h.side (!sd)
  rest  : g = { h with batches := g.batches }

theorem MergedOn.refl (sd : Bool) (h : Hist) : MergedOn sd h h := ⟨fun _ _ _ => rfl, rfl, rfl⟩

theorem MergedOn.trans {sd : Bool} {h g f : Hist} (a : MergedOn sd h g) (b : MergedOn sd g f) : MergedOn sd h f :=
  ⟨fun k v t => (b.total k v t).trans (a.total k v t), b.other.trans a.other, by rw [b.rest, a.rest]⟩

/-- The batches at i and j of a table replaced by their merge, or by none where nothing is left of them. -/
def withMerged (h : Hist) (sd : Bool) (i j : Nat) (m : List HRec) : Hist :=
  let bs := h.batches.eraseIdx j
  { h with batches := if m.isEmpty then bs.eraseIdx i else setAt bs i (sd, m) }

theorem mergedOn_mergeRecs {h : Hist} {sd : Bool} {i j : Nat} {a b m : List HRec} (hl : lastTwo h sd = some (i, a, j, b))
    (hm : mergeRecs (a ++ b) = some m) : MergedOn sd h (withMerged h sd i j m) := by
  obtain ⟨pre, mid, post, hb, rfl, rfl⟩ := lastTwo_some hl
  obtain ⟨-, -, htot⟩ := mergeRecs_some hm
  have herase : h.batches.eraseIdx (pre.length + (mid.length + 1)) = pre ++ (sd, a) :: (mid ++ post) := by
    rw [hb, List.eraseIdx_append_of_length_le (Nat.le_add_right ..), Nat.add_sub_cancel_left, List.eraseIdx_cons_succ,
      List.eraseIdx_append_of_length_le le_rfl, Nat.sub_self, List.eraseIdx_cons_zero]
  have herase2 : (pre ++ (sd, a) :: (mid ++ post)).eraseIdx pre.length = pre ++ (mid ++ post) := by
    rw [List.eraseIdx_append_of_length_le le_rfl, Nat.sub_self, List.eraseIdx_cons_zero]
  have hset : setAt (pre ++ (sd, a) :: (mid ++ post)) pre.length (sd, m) = pre ++ (sd, m) :: (mid ++ post) := by
    rw [setAt_eq_set, List.set_append_right _ _ le_rfl, Nat.sub_self, List.set_cons_zero]
  refine ⟨fun k v t => ?_, ?_, rfl⟩
  · have hmt := htot k v t
    rw [total_append] at hmt
    simp only [side_eq, withMerged, herase, herase2, hset]
    rw [hb]
    split
    next he =>
      rw [List.isEmpty_iff.mp he] at hmt
      have zero : total [] k v t = 0 := rfl
      simp only [sideOf_append, sideOf_cons_same, total_append]
      omega
    next =>
      simp only [sideOf_append, sideOf_cons_same, total_append]
      omega
  · simp only [side_eq, withMerged, herase, herase2, hset]
    rw [hb]
    split <;> simp

theorem mergedOn_mergeTail (sd : Bool) (n : Nat) (h : Hist) : MergedOn sd h (mergeTail sd n h) := by
  induction n generalizing h with
  | zero => exact .refl ..
  | succ n ih =>
    rw [mergeTail]
    split
    · exact .refl ..
    next hl =>
      split
      · exact .refl ..
      · split
        · exact .refl ..
        next hm => exact (mergedOn_mergeRecs hl hm).trans (ih _)

theorem appendBatch_nil (h : Hist) (sd : Bool) : appendBatch h sd [] = .ok h := rfl

theorem appendBatch_cons {h : Hist} {sd : Bool} {b : List HRec} (hb : b ≠ []) : appendBatch h sd b =
    if 60 < (mergeTail sd 61 { h with batches := h.batches ++ [(sd, b)] }).batches.length then .error Code.histFull
    else .ok (mergeTail sd 61 { h with batches := h.batches ++ [(sd, b)] }) := by
  simp only [appendBatch, List.isEmpty_eq_false_iff.mpr hb, Bool.false_eq_true, if_false]

/-- What an append leaves (R232, R233). -/
theorem appendBatch_ok {h g : Hist} {sd : Bool} {b : List HRec} (hg : appendBatch h sd b = .ok g) :
    (∀ k v t, total (g.side sd) k v t = total (h.side sd) k v t + total b k v t) ∧ g.side (!sd) = h.side (!sd) ∧
      g.batches.length ≤ max 60 h.batches.length ∧ g = { h with batches := g.batches } := by
  by_cases hb : b = []
  · rw [hb, appendBatch_nil] at hg
    cases hg
    rw [hb]
    exact ⟨fun k v t => (add_zero _).symm, rfl, le_max_right .., rfl⟩
  · rw [appendBatch_cons hb] at hg
    split at hg
    · cases hg
    next hlen =>
      obtain ⟨htot, hother, hrest⟩ := mergedOn_mergeTail sd 61 { h with batches := h.batches ++ [(sd, b)] }
      cases hg
      refine ⟨fun k v t => ?_, ?_, le_max_of_le_left (Nat.le_of_not_lt hlen), hrest⟩
      · rw [htot]
        simp only [side_eq, sideOf_append, sideOf_cons_same, sideOf_nil, List.append_nil, total_append]
      · rw [hother]
        simp only [side_eq, sideOf_append, sideOf_cons_other, sideOf_nil, List.append_nil]

/-- The newest batch of a side is the one that was just appended. -/
theorem lastTwo_appended {h : Hist} {sd : Bool} {b a c : List HRec} {i j : Nat}
    (hl : lastTwo { h with batches := h.batches ++ [(sd, b)] } sd = some (i, a, j, c)) : c = b := by
  unfold lastTwo at hl
  rw [List.zipIdx_append, List.filter_append, List.reverse_append] at hl
  simp only [List.zipIdx_cons, List.zipIdx_nil, List.filter_cons, beq_self_eq_true, if_true, List.filter_nil,
    List.reverse_singleton, List.singleton_append] at hl
  split at hl
  next hrev =>
    cases hl
    exact (congrArg (fun p => p.1.2) (List.cons.inj hrev).1).symm
  next => cases hl

/-- A batch with at most half the records of the one before it stays (R233). -/
theorem appendBatch_small {h : Hist} {sd : Bool} {b a c : List HRec} {i j : Nat} (hb : b ≠ []) (hn : h.batches.length < 60)
    (hl : lastTwo { h with batches := h.batches ++ [(sd, b)] } sd = some (i, a, j, c)) (hle : 2 * b.length ≤ a.length) :
    appendBatch h sd b = .ok { h with batches := h.batches ++ [(sd, b)] } := by
  have stays : mergeTail sd 61 { h with batches := h.batches ++ [(sd, b)] } = { h with batches := h.batches ++ [(sd, b)] } := by
    rw [mergeTail, hl, lastTwo_appended hl]
    simp only [hle, decide_true, Bool.true_or, if_true]
  rw [appendBatch_cons hb, stays, if_neg]
  simp only [List.length_append, List.length_singleton]
  omega

/-! ## Both sides merged (R242, R243) -/

/-- The merged batch of a side stands in the place of the side's oldest, and no other does. -/
theorem filter_go {m0 m1 m : List HRec} {sd : Bool} (hm : (if sd then m1 else m0) = m) (seen : List Bool) (l : List (Bool × List HRec)) :
    (mergeSides.go m0 m1 seen l).filter (fun b => b.1 == sd) =
      if sd ∈ seen ∨ (∀ b ∈ l, b.1 ≠ sd) ∨ m = [] then [] else [(sd, m)] := by
  induction l generalizing seen with
  | nil => simp [mergeSides.go]
  | cons b l ih =>
    obtain ⟨bs, br⟩ := b
    rw [mergeSides.go]
    by_cases hs : bs ∈ seen
    · rw [if_pos (List.contains_iff_mem.mpr hs), ih]
      by_cases hb : bs = sd
      · rw [if_pos (.inl (hb ▸ hs)), if_pos (.inl (hb ▸ hs))]
      · exact if_congr (by simp [hb]) rfl rfl
    · rw [if_neg (mt List.contains_iff_mem.mp hs), List.filter_append]
      by_cases hb : bs = sd
      · subst hb
        dsimp only
        rw [hm, (ih (bs :: seen)).trans (if_pos (.inl List.mem_cons_self)), List.append_nil]
        by_cases he : m = []
        · exact Eq.trans (by simp [he]) (if_pos (.inr (.inr he))).symm
        · exact Eq.trans (by simp [he]) (if_neg (by simp [hs, he])).symm
      · have hf : (if (if bs then m1 else m0).isEmpty = true then [] else [(bs, if bs then m1 else m0)]).filter
            (fun b : Bool × List HRec => b.1 == sd) = [] := by
          split <;> simp [hb]
        rw [hf, ih]
        exact if_congr (by simp [hb, Ne.symm hb]) rfl rfl

theorem side_eq_nil {h : Hist} {sd : Bool} (hn : ∀ b ∈ h.batches, b.1 ≠ sd) : h.side sd = [] := by
  rw [Hist.side, List.filter_eq_nil_iff.mpr (by simpa using hn), List.flatMap_nil]

/-- HCOMP and HMRG leave at most one batch a side, which sums to what the side's changed records did (R242, R243). -/
theorem compactAll_ok {h z : Hist} {g : HRec → HRec} (hz : compactAll h g = .ok z) :
    (∀ sd, (∀ k v t, total (z.side sd) k v t = total ((h.side sd).map g) k v t) ∧ (z.batches.filter fun b => b.1 == sd).length ≤ 1) ∧
      z = { h with batches := z.batches } := by
  unfold compactAll at hz
  split at hz
  · cases hz
  split at hz
  next hmerge =>
    cases hz
    obtain ⟨m0, h0, hmerge⟩ := Option.bind_eq_some_iff.mp hmerge
    obtain ⟨m1, h1, hmerge⟩ := Option.bind_eq_some_iff.mp hmerge
    cases hmerge
    refine ⟨fun sd => ?_, rfl⟩
    obtain ⟨m, hm⟩ : ∃ m, (if sd then m1 else m0) = m := ⟨_, rfl⟩
    have merged : mergeRecs ((h.side sd).map g) = some m := by cases sd <;> simp_all
    obtain ⟨-, -, htot⟩ := mergeRecs_some merged
    have hfilter := filter_go hm [] h.batches
    split at hfilter
    next hnone =>
      have he : m = [] := by
        obtain hn | hn | hn := hnone
        · cases hn
        · rw [side_eq_nil hn, List.map_nil, mergeRecs_nil] at merged; exact (Option.some.inj merged).symm
        · exact hn
      refine ⟨fun k v t => ?_, by rw [hfilter]; exact Nat.zero_le 1⟩
      rw [← htot, side_eq, sideOf, hfilter, he, List.flatMap_nil]
    next =>
      refine ⟨fun k v t => ?_, by rw [hfilter]; exact le_rfl⟩
      rw [← htot, side_eq, sideOf, hfilter, List.flatMap_singleton]
  next => cases hz

theorem compactAll_full {h : Hist} (g : HRec → HRec) (hf : h.free < max (h.side false).length (h.side true).length) :
    compactAll h g = .error Code.histFull := if_pos hf

end Sys2Proof.Machine
end

section
/-! Reductions (R237 to R240): the sums that a key has up to a time, the collection that a function makes of them, and the correction that brings
what was put out to it. -/

namespace Sys2Proof.Machine

open Sys2Proof Sys2Proof.Safety

/-! ## Sums by value -/

/-- What a value sums to. -/
def countAt (l : List (W64 × Int)) (v : W64) : Int := ((l.filter fun p => p.1 == v).map Prod.snd).sum

/-- Values rise. -/
def RisingVals (l : List (W64 × Int)) : Prop := Rising (fun p => p.1.toNat) l

/-- A term added to another of its value. -/
def addCount (a r : W64 × Int) : W64 × Int := (a.1, a.2 + r.2)

/-- What a term adds to a value's sum. -/
def weightOf (v : W64) (p : W64 × Int) : Int := if (p.1 == v) = true then p.2 else 0

theorem countAt_eq_sum (l : List (W64 × Int)) (v : W64) : countAt l v = (l.map (weightOf v)).sum := sum_picked ..

theorem countAt_cons (p : W64 × Int) (l : List (W64 × Int)) (v : W64) : countAt (p :: l) v = (if p.1 = v then p.2 else 0) + countAt l v := by
  rw [countAt_eq_sum, countAt_eq_sum, List.map_cons, List.sum_cons, weightOf]
  simp only [beq_iff_eq]

theorem accVal_eq_insBy (p : W64 × Int) (l : List (W64 × Int)) : accVal p.1 p.2 l = insBy (fun p => p.1.toNat) addCount p l := by
  induction l with
  | nil => rfl
  | cons a l ih => rw [accVal, insBy, ih]; simp only [BitVec.toNat_inj, addCount]

theorem weightOf_addCount (v : W64) (a r : W64 × Int) (h : r.1.toNat = a.1.toNat) :
    weightOf v (addCount a r) = weightOf v a + weightOf v r := by
  unfold weightOf addCount
  rw [BitVec.eq_of_toNat_eq h]
  dsimp only
  split_ifs
  · rfl
  · rfl

theorem foldl_accVal {α : Type} (f : α → W64 × Int) (l : List α) (acc : List (W64 × Int)) :
    l.foldl (fun acc r => accVal (f r).1 (f r).2 acc) acc = (l.map f).foldl (fun acc p => insBy (fun p => p.1.toNat) addCount p acc) acc := by
  rw [List.foldl_map]
  simp only [accVal_eq_insBy]

theorem risingVals_foldl {α : Type} (f : α → W64 × Int) (l : List α) {acc : List (W64 × Int)} (h : RisingVals acc) :
    RisingVals (l.foldl (fun acc r => accVal (f r).1 (f r).2 acc) acc) := by
  rw [foldl_accVal]
  exact rising_foldl_insBy (add := addCount) (fun _ _ => rfl) _ _ h

theorem countAt_foldl {α : Type} (f : α → W64 × Int) (l : List α) (acc : List (W64 × Int)) (v : W64) :
    countAt (l.foldl (fun acc r => accVal (f r).1 (f r).2 acc) acc) v = countAt (l.map f) v + countAt acc v := by
  rw [foldl_accVal, countAt_eq_sum, sum_foldl_insBy (weightOf_addCount v), countAt_eq_sum, countAt_eq_sum]

theorem countAt_filter_ne_zero (l : List (W64 × Int)) (v : W64) : countAt (l.filter fun p => p.2 != 0) v = countAt l v := by
  have zero (p : W64 × Int) (h : (p.2 != 0) = false) : weightOf v p = 0 := by
    have hd : p.2 = 0 := by simpa using h
    rw [weightOf, hd, ite_self]
  rw [countAt_eq_sum, sum_filter zero, countAt_eq_sum]

/-! ## Sums up to a time (R238) -/

theorem risingVals_sumsAt (h : Hist) (sd : Bool) (k : W32) (t : Time) : RisingVals (sumsAt h sd k t) :=
  risingVals_foldl (fun r : HRec => (r.val, r.dif)) _ .nil

theorem countAt_sumsAt (h : Hist) (sd : Bool) (k : W32) (t : Time) (v : W64) : countAt (sumsAt h sd k t) v =
    (((h.side sd).filter fun r => r.key == k && tle r.time t && r.val == v).map HRec.dif).sum := by
  rw [sumsAt, countAt_foldl (fun r : HRec => (r.val, r.dif)), countAt, List.filter_map, List.map_map, List.filter_filter]
  simp only [countAt, List.filter_nil, List.map_nil, List.sum_nil, add_zero]
  congr 2
  exact List.filter_congr fun r _ => Bool.and_comm ..

/-! ## The desired collection (R238) -/

theorem risingVals_desired (fn ty : Nat) {c : List (W64 × Int)} (h : RisingVals c) : RisingVals (desired fn ty c).1 := by
  have one (p : W64 × Int) : RisingVals [p] := List.pairwise_singleton ..
  match fn with
  | 0 => exact List.pairwise_map.mpr (h.filter _)
  | 1 =>
    simp only [desired]
    split
    · exact .nil
    · exact one _
  | 2 =>
    simp only [desired]
    split
    · exact .nil
    · split <;> exact one _
  | _ + 3 =>
    simp only [desired]
    split
    · exact .nil
    · exact one _

theorem countAt_eq_zero {l : List (W64 × Int)} {v : W64} (h : ∀ p ∈ l, p.1 ≠ v) : countAt l v = 0 := by
  rw [countAt, List.filter_eq_nil_iff.mpr (by simpa using h), List.map_nil, List.sum_nil]

/-- .SET: each value of a positive count, once. -/
theorem countAt_desired_set (ty : Nat) {c : List (W64 × Int)} (h : RisingVals c) (v : W64) :
    countAt (desired 0 ty c).1 v = if 0 < countAt c v then 1 else 0 := by
  change countAt ((c.filter fun p => 0 < p.2).map fun p => (p.1, 1)) v = _
  induction c with
  | nil => rfl
  | cons p c ih =>
    obtain ⟨hp, hc⟩ := List.pairwise_cons.mp h
    have hcons : countAt (((p :: c).filter fun p => 0 < p.2).map fun p => (p.1, (1 : Int))) v =
        (if p.1 = v ∧ 0 < p.2 then 1 else 0) + countAt ((c.filter fun p => 0 < p.2).map fun p => (p.1, (1 : Int))) v := by
      by_cases hpos : 0 < p.2
      · rw [List.filter_cons_of_pos (by simpa using hpos), List.map_cons, countAt_cons]; simp [hpos]
      · rw [List.filter_cons_of_neg (by simpa using hpos)]; simp [hpos]
    rw [hcons, ih hc, countAt_cons]
    by_cases hv : p.1 = v
    · have hne : ∀ q ∈ c, q.1 ≠ v := fun q hq e => absurd (congrArg BitVec.toNat (hv.trans e.symm)) (hp q hq).ne
      simp [hv, countAt_eq_zero hne]
    · simp [hv]

/-- .COUNT: one record of the sum of all counts, unless it is zero. -/
theorem desired_count (ty : Nat) (c : List (W64 × Int)) : (desired 1 ty c).1 =
    (let n := wrap (widthOf ty) (c.map Prod.snd).sum; if n = 0 then [] else [(extend ty n, 1)]) := by
  have hsum : ((c.filter fun p => p.2 != 0).map Prod.snd).foldl (· + ·) 0 = (c.map Prod.snd).sum := by
    rw [← List.sum_eq_foldl]
    exact sum_filter (fun p hp => by simpa using hp) c
  simp only [desired, hsum]

/-- .SUM at an integer type: one record of the exact sum, unless every count is zero. -/
theorem desired_sum {ty : Nat} (hty : ty < 8) (c : List (W64 × Int)) : (desired 2 ty c).1 =
    if ∀ p ∈ c, p.2 = 0 then [] else [(extend ty (c.map fun p => readInt ty p.1.toNat * p.2).sum, 1)] := by
  have hsum : ((c.filter fun p => p.2 != 0).map fun p => readInt ty p.1.toNat * p.2).foldl (· + ·) 0 =
      (c.map fun p => readInt ty p.1.toNat * p.2).sum := by
    rw [← List.sum_eq_foldl]
    refine sum_filter (fun p hp => ?_) c
    have hz : p.2 = 0 := by simpa using hp
    rw [hz, mul_zero]
  have hlive : (c.filter fun p => p.2 != 0).isEmpty = true ↔ ∀ p ∈ c, p.2 = 0 := by
    simp [List.filter_eq_nil_iff]
  simp only [desired, hsum, hlive, hty, if_true]
  split <;> rfl

/-! ## .MIN and .MAX (R238) -/

theorem setWidth_bitsOut {ty : Nat} (x : BitVec (widthOf ty)) : (bitsOut ty x).setWidth (widthOf ty) = x := by
  have hw := widthOf_le ty
  rw [bitsOut]
  split
  · refine BitVec.eq_of_getLsbD_eq fun i hi => ?_
    have h64 : i < 64 := hi.trans_le hw
    simp only [BitVec.getLsbD_setWidth, BitVec.getLsbD_signExtend, hi, h64, decide_true, Bool.true_and, if_true]
  · rw [BitVec.setWidth_setWidth_of_le _ hw, BitVec.setWidth_eq]

theorem intIn_intOut_intIn (ty : Nat) (v : W64) : intIn ty (intOut ty (intIn ty v)) = intIn ty v := by
  rw [intOut_intIn, intIn, setWidth_bitsOut, intIn]

/-- At the better end of a comparison: below for .MIN, above for .MAX. -/
def Better (mx : Bool) (x y : Int) : Prop := if mx then y ≤ x else x ≤ y

theorem Better.refl (mx : Bool) (x : Int) : Better mx x x := by cases mx <;> exact le_rfl

theorem Better.trans {mx : Bool} {x y z : Int} (a : Better mx x y) (b : Better mx y z) : Better mx x z := by
  cases mx with
  | false => exact le_trans (α := Int) a b
  | true => exact le_trans (α := Int) b a

/-- A step of .MIN or .MAX keeps one of its operands, the better one. -/
theorem foldOp_extreme (mx : Bool) {ty : Nat} (hty : ty < 8) (a b : W64) : ∃ v, (v = a ∨ v = b) ∧
    (foldOp (if mx then 2 else 1) ty (intOut ty (intIn ty a)) b).1 = intOut ty (intIn ty v) ∧
    Better mx (intIn ty v) (intIn ty a) ∧ Better mx (intIn ty v) (intIn ty b) := by
  have step : (foldOp (if mx then 2 else 1) ty (intOut ty (intIn ty a)) b).1 =
      intOut ty (if mx then max (intIn ty a) (intIn ty b) else min (intIn ty a) (intIn ty b)) := by
    have h := foldRule_int (if mx then 2 else 1) hty (intOut ty (intIn ty a)) b
    simp only [FoldRule, if_pos hty] at h
    cases mx <;> simpa [intIn_intOut_intIn] using congrArg Prod.fst h
  rw [step]
  cases mx with
  | false =>
    rcases le_total (intIn ty a) (intIn ty b) with h | h
    · exact ⟨a, .inl rfl, by simp [h], le_rfl, h⟩
    · exact ⟨b, .inr rfl, by simp [h], h, le_rfl⟩
  | true =>
    rcases le_total (intIn ty a) (intIn ty b) with h | h
    · exact ⟨b, .inr rfl, by simp [h], h, le_rfl⟩
    · exact ⟨a, .inl rfl, by simp [h], le_rfl, h⟩

/-- A step of the fold of values, with its flags. -/
def foldVal (fn ty : Nat) (a : W64 × BitVec 5) (q : W64 × Int) : W64 × BitVec 5 :=
  let x := foldOp fn ty a.1 q.1
  (x.1, a.2 ||| x.2)

/-- The fold of .MIN or .MAX over an integer type gives the value of its best element. -/
theorem foldl_extreme (mx : Bool) {ty : Nat} (hty : ty < 8) (l : List (W64 × Int)) (v : W64) (fl : BitVec 5) :
    ∃ w ∈ v :: l.map Prod.fst, (l.foldl (foldVal (if mx then 2 else 1) ty) (intOut ty (intIn ty v), fl)).1 = intOut ty (intIn ty w) ∧
      ∀ x ∈ v :: l.map Prod.fst, Better mx (intIn ty w) (intIn ty x) := by
  induction l generalizing v fl with
  | nil => exact ⟨v, List.mem_cons_self, rfl, fun x hx => by rw [List.mem_singleton.mp hx]; exact .refl ..⟩
  | cons b l ih =>
    obtain ⟨u, hu, hstep, ha, hb⟩ := foldOp_extreme mx hty v b.1
    obtain ⟨w, hw, hfold, hbest⟩ := ih u (fl ||| (foldOp (if mx then 2 else 1) ty (intOut ty (intIn ty v)) b.1).2)
    refine ⟨w, ?_, ?_, ?_⟩
    · rw [List.map_cons]
      obtain rfl | rfl := hu
      · exact List.mem_cons.mpr ((List.mem_cons.mp hw).imp_right (List.mem_cons_of_mem _))
      · exact List.mem_cons_of_mem _ hw
    · rw [List.foldl_cons, foldVal, hstep, hfold]
    · have hbu := hbest u List.mem_cons_self
      rw [List.map_cons]
      exact List.forall_mem_cons.mpr ⟨hbu.trans ha, List.forall_mem_cons.mpr ⟨hbu.trans hb, fun x hx => hbest x (List.mem_cons_of_mem _ hx)⟩⟩

theorem desired_none {fn ty : Nat} {c : List (W64 × Int)} (hfn : 3 ≤ fn) (hc : (c.filter fun p => 0 < p.2) = []) : (desired fn ty c).1 = [] := by
  obtain ⟨n, rfl⟩ := Nat.exists_eq_add_of_le' hfn
  simp only [desired, hc]

theorem desired_fold {fn ty : Nat} {c : List (W64 × Int)} {p : W64 × Int} {l : List (W64 × Int)} (hfn : 3 ≤ fn)
    (hc : (c.filter fun p => 0 < p.2) = p :: l) :
    (desired fn ty c).1 = [((l.foldl (foldVal (fn - 2) ty) (extend ty (p.1.toNat : Int), 0)).1, 1)] := by
  obtain ⟨n, rfl⟩ := Nat.exists_eq_add_of_le' hfn
  simp only [desired, hc]
  rfl

/-- .MIN and .MAX: nothing where no count is positive, else one record of the best value of a positive count. -/
theorem desired_extreme {fn : Nat} {mx : Bool} (hfn : fn = if mx then 4 else 3) {ty : Nat} (hty : ty < 8) (c : List (W64 × Int)) :
    ((∀ p ∈ c, p.2 ≤ 0) → (desired fn ty c).1 = []) ∧ ((∃ p ∈ c, 0 < p.2) → ∃ p ∈ c, 0 < p.2 ∧
      (desired fn ty c).1 = [(extend ty (readInt ty p.1.toNat), 1)] ∧
      ∀ q ∈ c, 0 < q.2 → Better mx (readInt ty p.1.toNat) (readInt ty q.1.toNat)) := by
  have h3 : 3 ≤ fn := by rw [hfn]; split <;> decide
  have hop : fn - 2 = if mx then 2 else 1 := by rw [hfn]; cases mx <;> rfl
  have pos {p : W64 × Int} : p ∈ (c.filter fun p => 0 < p.2) ↔ p ∈ c ∧ 0 < p.2 := by simp
  constructor
  · intro hneg
    exact desired_none h3 (List.filter_eq_nil_iff.mpr (by simpa using hneg))
  · rintro ⟨q, hq, hqpos⟩
    obtain ⟨p, l, hc⟩ := List.exists_cons_of_ne_nil (List.ne_nil_of_mem (pos.mpr ⟨hq, hqpos⟩))
    have start : extend ty (p.1.toNat : Int) = intOut ty (intIn ty p.1) := by
      rw [extend_eq_intOut hty, intOut_intIn, intOut, BitVec.ofInt_natCast, BitVec.ofNat_toNat]
    obtain ⟨w, hw, hfold, hbest⟩ := foldl_extreme mx hty l p.1 0
    rw [← List.map_cons (f := Prod.fst), ← hc] at hw hbest
    obtain ⟨b, hb, rfl⟩ := List.mem_map.mp hw
    obtain ⟨hbc, hbpos⟩ := pos.mp hb
    refine ⟨b, hbc, hbpos, ?_, fun x hx hxpos => ?_⟩
    · rw [desired_fold h3 hc, hop, start, hfold, readInt_eq_intIn, extend_eq_intOut hty]
    · rw [readInt_eq_intIn, readInt_eq_intIn]
      exact hbest x.1 (List.mem_map_of_mem (pos.mpr ⟨hx, hxpos⟩))

/-! ## Corrections (R238) -/

/-- A correction brings what was put out to the desired collection: in order, without zeros. -/
theorem correction_fst (h : Hist) (fn ty : Nat) (k : W32) (t : Time) :
    RisingVals (correction h fn ty k t).1 ∧ (∀ p ∈ (correction h fn ty k t).1, p.2 ≠ 0) ∧
      ∀ v, countAt (correction h fn ty k t).1 v = countAt (desired fn ty (sumsAt h false k t)).1 v - countAt (sumsAt h true k t) v := by
  have neg (l : List (W64 × Int)) (v : W64) : countAt (l.map fun p => (p.1, -p.2)) v = -countAt l v := by
    induction l with
    | nil => rfl
    | cons p l ih => rw [List.map_cons, countAt_cons, ih, countAt_cons]; split_ifs <;> ring
  refine ⟨List.Pairwise.filter _ (risingVals_foldl (fun p : W64 × Int => (p.1, -p.2)) _ (risingVals_desired fn ty (risingVals_sumsAt ..))),
    fun p hp => by simpa using (List.mem_filter.mp hp).2, fun v => ?_⟩
  rw [correction, countAt_filter_ne_zero, countAt_foldl (fun p : W64 × Int => (p.1, -p.2)), neg]
  ring

end Sys2Proof.Machine
end

section
/-! Operations on a history (R235 to R244), and the processing of pending entries (R240, R242): what each leaves, puts out and counts. -/

namespace Sys2Proof.Machine

open Sys2Proof

/-! ## Pending entries in their order (R240) -/

theorem leastPassed_eq_none {F : List Time} {l : List HRec} : leastPassed F l = none ↔ ∀ p ∈ l, passed F p.time = false := by
  induction l with
  | nil => simp [leastPassed]
  | cons p l ih =>
    rw [List.forall_mem_cons, ← ih, leastPassed]
    cases hl : leastPassed F l with
    | none => simp
    | some q => exact iff_of_false (by dsimp only; split <;> exact Option.some_ne_none _) fun h => Option.some_ne_none _ h.2

/-- The entry that is processed is the least of those that the frontier has passed. -/
theorem leastPassed_some {F : List Time} {l : List HRec} {p : HRec} (h : leastPassed F l = some p) :
    p ∈ l ∧ passed F p.time = true ∧ ∀ q ∈ l, passed F q.time = true → pendOrd p ≤ pendOrd q := by
  induction l generalizing p with
  | nil => cases h
  | cons a l ih =>
    rw [leastPassed] at h
    cases hl : leastPassed F l with
    | none =>
      simp only [hl, Option.ite_none_right_eq_some, Option.some.injEq] at h
      obtain ⟨ha, rfl⟩ := h
      refine ⟨List.mem_cons_self, ha, List.forall_mem_cons.mpr ⟨fun _ => le_rfl, fun q hq hp => ?_⟩⟩
      rw [leastPassed_eq_none.mp hl q hq] at hp
      cases hp
    | some b =>
      obtain ⟨hb, hpass, hmin⟩ := ih hl
      simp only [hl] at h
      split at h
      next hc =>
        obtain ⟨ha, hlt⟩ : passed F a.time = true ∧ pendOrd a < pendOrd b := by simpa using hc
        cases h
        exact ⟨List.mem_cons_self, ha, List.forall_mem_cons.mpr ⟨fun _ => le_rfl, fun q hq hp => hlt.le.trans (hmin q hq hp)⟩⟩
      next hc =>
        cases h
        refine ⟨List.mem_cons_of_mem _ hb, hpass, List.forall_mem_cons.mpr ⟨fun ha => ?_, hmin⟩⟩
        by_contra hlt
        exact hc (by simpa [ha] using hlt)

/-! ## Processing (R240, R242) -/

theorem mem_holdItems {o : PortReq} {n : Int} {ts : List Time} {i : CountItem} :
    i ∈ holdItems o n ts ↔ i.stage ∈ o.xst ∧ i.time ∈ ts ∧ i.n = n := by
  obtain ⟨q, u, m⟩ := i
  simp only [holdItems, holdStages, List.mem_flatMap, List.mem_map, List.mem_eraseDups, CountItem.mk.injEq]
  constructor
  · rintro ⟨t, ht, p, hp, rfl, rfl, rfl⟩
    exact ⟨hp, ht, rfl⟩
  · rintro ⟨hq, hu, rfl⟩
    exact ⟨u, hu, q, hq, rfl, rfl, rfl⟩

section
variable {h : Hist} {o : PortReq} {p : HRec} {x : List Token}

/-- The correction of a pending entry (R238). -/
def correctionAt (h : Hist) (p : HRec) : List (W64 × Int) × BitVec 5 := correction h (bits h.owner 7 4) (bits h.owner 3 0) p.key p.time

variable (hx : (correctionAt h p).1.mapM (fun v => histTok (atPending o p.time) 4 p.time p.key v.1 v.2) = .ok x)
include hx

theorem processEntry_full (hf : h.free < (correctionAt h p).1.length) : processEntry h o p = .error Code.histFull := by
  unfold correctionAt at hx hf
  simp only [processEntry, hx]
  exact if_pos hf

theorem processEntry_ok {g : Hist} (hf : (correctionAt h p).1.length ≤ h.free)
    (hg : appendBatch h true ((correctionAt h p).1.map fun v => ⟨p.key, v.2, v.1, p.time⟩) = .ok g) :
    ∃ i, processEntry h o p = .ok ⟨{ g with pend := g.pend.erase p }, x, i, (correctionAt h p).2⟩ ∧
      ((∃ q ∈ g.pend.erase p, q.time = p.time) → i = []) ∧
      ((∀ q ∈ g.pend.erase p, q.time ≠ p.time) → i = o.xst.eraseDups.map fun q => ⟨q, p.time, -1⟩) := by
  unfold correctionAt at hx hf hg
  refine ⟨holdItems o (-1) (if (g.pend.erase p).any fun q => q.time == p.time then [] else [p.time]), ?_, fun hq => ?_, fun hq => ?_⟩
  · simp only [processEntry, hx]
    refine (if_neg (Nat.not_lt.mpr hf)).trans ?_
    rw [hg]
    rfl
  · rw [if_pos (by simpa using hq)]; rfl
  · rw [if_neg (by simpa using hq)]; simp [holdItems, holdStages]

end

/-- Processing stops where no entry is passed. -/
theorem processAll_none {o : PortReq} {F : List Time} {d : Done} (n : Nat) (h : leastPassed F d.h.pend = none) :
    processAll o F n d = (d, 0, t00) := by
  cases n with
  | zero => rfl
  | succ n => simp only [processAll, h]

section
variable {o : PortReq} {F : List Time} {d : Done} {p : HRec} (n : Nat) (h : leastPassed F d.h.pend = some p)
include h

theorem processAll_error {c : Nat} (hc : processEntry d.h o p = .error c) : processAll o F (n + 1) d = (d, c, p.time) := by
  simp only [processAll, h, hc]

theorem processAll_ok {e : Done} (he : processEntry d.h o p = .ok e) :
    processAll o F (n + 1) d = processAll o F n ⟨e.h, d.x ++ e.x, d.items ++ e.items, d.flags ||| e.flags⟩ := by
  simp only [processAll, h, he]

end

/-! ## Tokens of an operation -/

theorem ok_bind {ε α β : Type} (a : α) (f : α → Except ε β) : (Except.ok a >>= f) = f a := rfl

theorem error_bind {ε α β : Type} (e : ε) (f : α → Except ε β) : (Except.error e >>= f) = .error e := rfl

theorem forall₂_of_mapM {ε α β : Type} {f : α → Except ε β} {l : List α} {m : List β} (h : l.mapM f = .ok m) :
    List.Forall₂ (fun a b => f a = .ok b) l m := by
  induction l generalizing m with
  | nil => cases h; exact .nil
  | cons a l ih =>
    rw [List.mapM_cons] at h
    cases ha : f a with
    | error e => rw [ha, error_bind] at h; cases h
    | ok b =>
      cases hl : l.mapM f with
      | error e => rw [ha, ok_bind, hl, error_bind] at h; cases h
      | ok m' =>
        rw [ha, ok_bind, hl, ok_bind] at h
        cases h
        exact .cons ha (ih hl)

/-- The two tokens of a pair (R236): the value of side 0 on X, that of side 1 on Y. -/
def PairToks (r : PortReq) (p : HRec × HRec) (q : List (Nat × Token)) : Prop :=
  ∃ x y, q = [(4, x), (5, y)] ∧ let u := tjoin p.1.time p.2.time
    histTok r 4 u p.1.key (if handleSide r then p.2.val else p.1.val) (p.1.dif * p.2.dif) = .ok x ∧
    histTok r 5 u p.1.key (if handleSide r then p.1.val else p.2.val) (p.1.dif * p.2.dif) = .ok y

theorem joinPairs_ok {h : Hist} {r : PortReq} {b : List HRec} {ps : List (List (Nat × Token))} (hj : joinPairs h r b = .ok ps) :
    List.Forall₂ (PairToks r) (b.flatMap fun a => ((h.side (!handleSide r)).filter fun c => c.key == a.key).map fun c => (a, c)) ps := by
  refine (forall₂_of_mapM hj).imp fun p q hq => ?_
  dsimp only at hq
  cases hx : histTok r 4 (tjoin p.1.time p.2.time) p.1.key (if handleSide r then p.2.val else p.1.val) (p.1.dif * p.2.dif) with
  | error e => rw [hx] at hq; cases hq
  | ok x =>
    cases hy : histTok r 5 (tjoin p.1.time p.2.time) p.1.key (if handleSide r then p.1.val else p.2.val) (p.1.dif * p.2.dif) with
    | error e => rw [hx, hy] at hq; cases hq
    | ok y =>
      rw [hx, hy] at hq
      cases hq
      exact ⟨x, y, rfl, hx, hy⟩

/-! ## What each operation does (R235 to R244) -/

section
variable {h g : Hist} {r : PortReq} {own : Option PortReq} {F : List Time} {b : List HRec} {x y : Token}

theorem histDo_hnew (hop : r.op = .hnew) (hx : completion r 4 (handleVal r) = .ok x) : ∃ i, histDo h r own F =
    .ok ⟨{ h with batches := [], park := [], pend := [], owner := 0xFFFFFFFF }, [(4, x)], i⟩ ∧ (own = none → i = []) := by
  refine ⟨own.elim [] fun o => holdItems o (-1) (h.pend.map HRec.time).eraseDups, ?_, fun e => by rw [e]; rfl⟩
  simp only [histDo, hop, hx]
  cases own <;> rfl

/-- A batch that R232 refuses ends the operation. -/
theorem histDo_refused {c : Nat} (hop : takesBatch r.op = true) (hb : consolidate (rawBatch r) = .error c) :
    histDo h r own F = .error c := by
  have hop : r.op = .happ ∨ r.op = .hjoin ∨ r.op = .hred := by simpa [takesBatch, or_assoc] using hop
  obtain hop | hop | hop := hop <;> simp only [histDo, hop, hb, error_bind]

section
variable (hb : consolidate (rawBatch r) = .ok b)
include hb

theorem histDo_happ (hop : r.op = .happ) (hg : appendBatch h (handleSide r) b = .ok g) (hx : completion r 4 (handleVal r) = .ok x) :
    histDo h r own F = .ok ⟨g, [(4, x)], []⟩ := by
  simp only [histDo, hop, hb, hg, hx, ok_bind]
  rfl

theorem histDo_hjoin {ps : List (List (Nat × Token))} (hop : r.op = .hjoin) (hg : appendBatch h (handleSide r) b = .ok g)
    (hps : joinPairs h r b = .ok ps) (hx : endTok r.w (reqFiring r) 4 = .ok x) (hy : endTok r.w (reqFiring r) 5 = .ok y) :
    histDo h r own F = .ok ⟨g, ps.flatten ++ [(4, x), (5, y)], []⟩ := by
  simp only [histDo, hop, hb, hg, hps, hx, hy, ok_bind]
  rfl

/-- The pending entries that an HRED adds (R239). -/
def newEntries (g : Hist) (t : Time) (b : List HRec) : List HRec := if b = [] then [] else interesting g t b

theorem histDo_hred (hop : r.op = .hred) (hg : appendBatch h false b = .ok g) (hy : completion r 5 (handleVal r) = .ok y) :
    histDo h r own F = if g.free < (newEntries g r.set.id.time b).length then .error Code.histFull
      else .ok ⟨{ g with pend := g.pend ++ newEntries g r.set.id.time b, owner := ownerWord r, ownerw := r.wafer }, [(5, y)],
        holdItems r 1 ((((newEntries g r.set.id.time b).map HRec.time).eraseDups).filter fun t => !(h.pend.any fun p => p.time == t))⟩ := by
  simp only [histDo, hop, hb, hg, hy, ok_bind, List.isEmpty_iff]
  rfl

end

/-- What an HRED counts (R240): each of the owner's stages at each new time that was not pending before. -/
theorem mem_hredItems {new : List HRec} {q : Nat} {u : Time} :
    (∃ n, (⟨q, u, n⟩ : CountItem) ∈ holdItems r 1 (((new.map HRec.time).eraseDups).filter fun t => !(h.pend.any fun p => p.time == t))) ↔
      q ∈ r.xst ∧ (∃ p ∈ new, p.time = u) ∧ ∀ p ∈ h.pend, p.time ≠ u := by
  simp [mem_holdItems]

theorem histDo_hseek {ls : List (List Token)} (hop : r.op = .hseek) (hls : (rawBatch r).mapM (fun q => seekToks h r q.key) = .ok ls)
    (hx : endTok r.w (reqFiring r) 4 = .ok x) : histDo h r own F = .ok ⟨h, (ls.flatten ++ [x]).map fun t => (4, t), []⟩ := by
  simp only [histDo, hop, hls, hx, ok_bind]
  rfl

/-- How HCOMP and HMRG change each record before they merge (R242, R243). -/
def compacting (op : Op) (F : List Time) : HRec → HRec := if op = .hcomp then fun q => { q with time := compactTime F q.time } else id

theorem histDo_compact_error {c : Nat} (hop : r.op = .hcomp ∨ r.op = .hmrg) (hc : compactAll h (compacting r.op F) = .error c) :
    histDo h r own F = .error c := by
  obtain hop | hop := hop
  · simp only [compacting, hop, if_true] at hc
    simp only [histDo, hop, hc, error_bind]
  · simp only [compacting, hop, reduceCtorEq, if_false] at hc
    simp only [histDo, hop, hc, error_bind]

theorem histDo_compact (hop : r.op = .hcomp ∨ r.op = .hmrg) (hc : compactAll h (compacting r.op F) = .ok g)
    (hx : completion r 4 (handleVal r) = .ok x) : histDo h r own F = .ok ⟨g, [(4, x)], []⟩ := by
  obtain hop | hop := hop
  · simp only [compacting, hop, if_true] at hc
    simp only [histDo, hop, hc, hx, ok_bind]
    rfl
  · simp only [compacting, hop, reduceCtorEq, if_false] at hc
    simp only [histDo, hop, hc, hx, ok_bind]
    rfl

theorem histDo_hstat (hop : r.op = .hstat) (hx : completion r 4 (statWord h) = .ok x) : histDo h r own F = .ok ⟨h, [(4, x)], []⟩ := by
  simp only [histDo, hop, hx, ok_bind]
  rfl

theorem seekToks_ok {k : W32} {ts : List Token} (hs : seekToks h r k = .ok ts) :
    List.Forall₂ (fun p x => histTok r 4 r.set.id.time k p.1 p.2 = .ok x) ((sumsAt h (handleSide r) k r.set.id.time).filter fun p => p.2 != 0) ts :=
  forall₂_of_mapM hs

end

end Sys2Proof.Machine
end

section
/-! The history unit (R226, R232, R234, R240, R246): an operation that arrives, takes its turn, goes on and ends, and the processing of an owner's
pending entries between two operations. -/

namespace Sys2Proof.Machine

open Sys2Proof Sys2Proof.Safety

/-! ## Taking turns (R234, R246) -/

/-- The state with an operation that has arrived at the end of its unit's queue. -/
def queuedAt (s : State) (core : CoreId) (op : HOp) : State :=
  { s with x := { s.x with hq := tset s.x.hq core (tgetD s.x.hq core [] ++ [op]) } }

/-- The state without an operation in its unit's queue. -/
def leftQueue (s : State) (core : CoreId) (op : HOp) : State :=
  { s with x := { s.x with hq := tset s.x.hq core ((tgetD s.x.hq core []).filter fun o => o.id != op.id) } }

section
variable {s : State} {k : Nat} {core : CoreId}

theorem exec_historyOperation_busy {b : HBusy} (h : first? (fun q : CoreId × HBusy => q.2.id == k) s.x.hbusy = some (core, b)) :
    exec (.historyOperation k) s = .next (histGo s core) := by
  change execHistoryOperation k s = _
  simp only [execHistoryOperation, h]

variable (hbusy : first? (fun q : CoreId × HBusy => q.2.id == k) s.x.hbusy = none)
include hbusy

theorem exec_historyOperation_queued {l : List HOp} (h : first? (fun q : CoreId × List HOp => q.2.any fun o => o.id == k) s.x.hq = some (core, l)) :
    exec (.historyOperation k) s = .next (histNext s core) := by
  change execHistoryOperation k s = _
  simp only [execHistoryOperation, hbusy, h]

theorem exec_historyOperation_arrives {r : PortReq} {pa off : Nat} {cmp : Bool}
    (h : first? (fun q : CoreId × List HOp => q.2.any fun o => o.id == k) s.x.hq = none) (hreq : reqHere s k = some (r, pa, cmp))
    (hop : isHist r.op = true) (hpa : decodePA s pa = some (.sram core off)) (hc : InPlace s r.ctx) :
    exec (.historyOperation k) s = .next (if ctxRuns (queuedAt (dropPkt s k) core ⟨k, r, off⟩) r.ctx
      then histNext (queuedAt (dropPkt s k) core ⟨k, r, off⟩) core else queuedAt (dropPkt s k) core ⟨k, r, off⟩) := by
  change execHistoryOperation k s = _
  simp only [execHistoryOperation, hbusy, h, histArrive, hreq, hop, hpa, onCopy_inPlace hc, Bool.not_true, Bool.false_eq_true, if_false]
  rfl

end

section
variable {s : State} {core : CoreId} {op : HOp}
  (hop : first? (fun o : HOp => !isFrozen s core.f o.req.lid) (tgetD s.x.hq core []) = some op)
include hop

/-- The guard and the load stand as variables, so that the kernel evaluates neither. -/
theorem histNext_waits (h : tget s.x.hbusy core ≠ none ∨ unitHolds s (.core core) = true ∨ ctxRuns s op.req.ctx = false) :
    histNext s core = s := by
  have hw : ((tget s.x.hbusy core).isSome || unitHolds s (.core core) || !ctxRuns s op.req.ctx) = true := by
    obtain h | h | h := h
    · rw [Option.isSome_iff_ne_none.mpr h, Bool.true_or, Bool.true_or]
    · rw [h, Bool.or_true, Bool.true_or]
    · rw [h, Bool.not_false, Bool.or_true]
  generalize hf : histNext = f
  delta histNext at hf
  subst hf
  generalize homeGuard = guard
  generalize histLoad = load
  beta_reduce
  rw [hop]
  exact if_pos hw

variable (hbusy : tget s.x.hbusy core = none) (hunit : unitHolds s (.core core) = false) (hruns : ctxRuns s op.req.ctx = true)
  (hguard : homeGuard s op.req (sramPA s.wafno core op.off) = .ok ())
include hbusy hunit hruns hguard

theorem histNext_undeclared (hcount : histCount s op.req.lid core op.off = none) :
    histNext s core = refuse (leftQueue s core op) op.req (sramPA s.wafno core op.off) Code.histHandle := by
  simp only [histNext, hop, hbusy, hunit, hruns, hguard, hcount, Option.isSome_none, Bool.or_self, Bool.not_true, Bool.false_eq_true, if_false]
  rfl

theorem histNext_loaded {n : Nat} {u : State} {h : Hist} (hcount : histCount s op.req.lid core op.off = some n)
    (hpark : tget s.x.hpark (core, op.off) = none) (hload : histLoad s op.req.ctx (sramPA s.wafno core op.off) n = .ok (u, h)) :
    histNext s core = histBegin (leftQueue u core op) core op h := by
  simp only [histNext, hop, hbusy, hunit, hruns, hguard, hcount, hpark, hload, Option.isSome_none, Option.any_none,
    Bool.or_self, Bool.and_false, Bool.not_true, Bool.false_eq_true, if_false]
  rfl

end

/-- With no batch parked, an operation that is its history's owner where it has to be, whose stream has ended and whose batch finds slots, runs. -/
theorem histBegin_runs {s : State} {core : CoreId} {op : HOp} {h : Hist} (hpark : tget s.x.hpark (core, op.off) = none)
    (howner : op.req.op = .hred → ownerOk h op.req = true) (hpart : partBatch op.req = false)
    (hfree : takesBatch op.req.op = true → (rawBatch op.req).length ≤ h.free) : histBegin s core op h = histRun s core op h false := by
  have hOwner : (op.req.op == .hred && !ownerOk h op.req) = false := by
    by_cases he : op.req.op = .hred
    · rw [howner he, Bool.not_true, Bool.and_false]
    · rw [beq_eq_false_iff_ne.mpr he, Bool.false_and]
  have hSlots : (takesBatch op.req.op && decide (h.free < (rawBatch op.req).length)) = false := by
    cases ht : takesBatch op.req.op
    · rfl
    · rw [decide_eq_false (Nat.not_lt.mpr (hfree ht)), Bool.and_false]
  simp only [histBegin, hpark, hpart, hOwner, hSlots, Bool.false_eq_true, if_false]

/-! ## Running (R234, R242) -/

section
variable {s : State} {core : CoreId} {op : HOp} {h : Hist}

/-- What an operation leaves in progress that had nothing to process before it. -/
def runBusy (op : HOp) (o : HOut) : HBusy :=
  ⟨op.id, op.req, op.off, ownToks op.req o.out, if readsOnly op.req.op then [] else o.h.bytes, eaten op.req :: o.items, 0, 0, 0, t00,
    false, false⟩

/-- What an operation comes to that had nothing to process before it. -/
def runAlone (s : State) (core : CoreId) (op : HOp) : Except Nat HOut → State
  | .error code => sendAns s (.core core) op.req (ansCode code)
  | .ok o => histGo (setBusy s core (runBusy op o)) core

theorem corrToks_nothing (own : Option PortReq) : (own.toList.flatMap fun o => corrToks o []) = [] := by cases own <;> rfl

/-- An operation runs alone that is no HCOMP, or an HCOMP with no owner or no entry that the frontier has passed. -/
theorem histRun_alone (hnone : op.req.op ≠ .hcomp ∨ ownerOf s core op.off = none ∨
      leastPassed (stageFront s op.req.lid op.req.stage) h.pend = none) :
    histRun s core op h false = runAlone s core op (histDo h op.req (ownerOf s core op.off) (stageFront s op.req.lid op.req.stage)) := by
  by_cases hop : op.req.op = .hcomp
  · cases hown : ownerOf s core op.off with
    | none =>
      cases hd : histDo h op.req none (stageFront s op.req.lid op.req.stage) <;> simp [histRun, hown, hd, runAlone, runBusy]
    | some w =>
      have hpass : leastPassed (stageFront s op.req.lid op.req.stage) h.pend = none := by simpa [hop, hown] using hnone
      have hproc := processAll_none (o := w) (d := ⟨h, [], [], 0⟩) h.pend.length hpass
      have htok : (some w).toList.flatMap (fun o => corrToks o []) = [] := corrToks_nothing (some w)
      simp only [histRun, hown, hop, hpass, hproc, htok, Option.bind_some, Option.isSome_none, Bool.and_false,
        Bool.false_eq_true, if_false, bne_self_eq_false, if_true, List.nil_append]
      cases histDo h op.req (some w) (stageFront s op.req.lid op.req.stage) with
      | error c => simp only [runAlone, decide_true, Bool.not_false, Bool.and_self, if_true]
      | ok o => simp only [runAlone, runBusy, hop]
  · cases hd : histDo h op.req (ownerOf s core op.off) (stageFront s op.req.lid op.req.stage) <;>
      simp [histRun, hop, hd, runAlone, runBusy, corrToks_nothing, beq_eq_false_iff_ne.mpr hop]

section
variable {w : PortReq} (hop : op.req.op = .hcomp) (hown : ownerOf s core op.off = some w)
include hop hown

/-- An HCOMP on a history whose processing is stopped is refused. -/
theorem histRun_stopped {i c : Nat} (hpass : leastPassed (stageFront s op.req.lid op.req.stage) h.pend ≠ none)
    (hs : tget s.x.hstop (core, op.off) = some (i, c)) (hc : c ≠ 0) :
    histRun s core op h false = sendAns s (.core core) op.req (ansCode c) := by
  simp [histRun, hown, hop, Option.isSome_iff_ne_none.mpr hpass, hs, hc]

variable {z : Done} (hs : tget s.x.hstop (core, op.off) = none)
include hs

/-- An HCOMP that has processed every passed entry compacts, and puts out the corrections before its own token (R242). -/
theorem histRun_processed {t : Time} {o : HOut}
    (hz : processAll w (stageFront s op.req.lid op.req.stage) h.pend.length ⟨h, [], [], 0⟩ = (z, 0, t))
    (hd : histDo z.h op.req (some w) (stageFront s op.req.lid op.req.stage) = .ok o) :
    histRun s core op h false = histGo (setBusy s core ⟨op.id, op.req, op.off, corrToks w z.x ++ ownToks op.req o.out, o.h.bytes,
      eaten op.req :: (z.items ++ o.items), z.flags, 0, 0, t00, false, false⟩) core := by
  simp only [histRun, hown, hop, hs, hz, hd, Option.map_none, Option.getD_none, ite_self, bne_self_eq_false, Bool.false_eq_true, if_false,
    Option.toList_some, List.flatMap_singleton]
  rfl

/-- An entry that cannot be processed ends the HCOMP with its code, and the owner parks for it. -/
theorem histRun_stalled {c : Nat} {t : Time}
    (hz : processAll w (stageFront s op.req.lid op.req.stage) h.pend.length ⟨h, [], [], 0⟩ = (z, c, t)) (hc : c ≠ 0) :
    histRun s core op h false = histGo (setBusy s core ⟨op.id, op.req, op.off, corrToks w z.x, if z.h = h then [] else z.h.bytes, z.items,
      z.flags, c, c, t, false, false⟩) core := by
  simp only [histRun, hown, hop, hs, hz, bne_iff_ne.mpr hc, Option.map_none, Option.getD_none, ite_self, bne_self_eq_false, Bool.false_eq_true,
    if_false, if_true, Option.toList_some, List.flatMap_singleton]

end

end

end Sys2Proof.Machine
end

section
/-! The operation in progress (R226, R234, R240; log 9): what the end of one leaves at its unit and in memory, and how one goes on. A byte written
at its home leaves every unit's operation in progress, in the copy in place and in the shadow (R90, R354). -/

namespace Sys2Proof.Machine

open Sys2Proof Sys2Proof.Safety

/-! ## Operations in progress while bytes are written -/

/-- Every unit has the operation in progress that it had, in either copy. -/
structure BusyKept (s t : State) : Prop where
  here   : ∀ c, tget t.x.hbusy c = tget s.x.hbusy c
  shadow : ∀ c, tget t.sh.hbusy c = tget s.sh.hbusy c

section
variable {s t u : State}

theorem BusyKept.of_eq (hx : t.x.hbusy = s.x.hbusy := by rfl) (hsh : t.sh.hbusy = s.sh.hbusy := by rfl) : BusyKept s t :=
  ⟨fun c => by rw [hx], fun c => by rw [hsh]⟩

theorem BusyKept.trans (a : BusyKept s t) (b : BusyKept t u) : BusyKept s u :=
  ⟨fun c => (b.here c).trans (a.here c), fun c => (b.shadow c).trans (a.shadow c)⟩

theorem BusyKept.ite {c : Prop} [Decidable c] (a : BusyKept s t) (b : BusyKept s u) : BusyKept s (if c then t else u) := by
  split
  · exact a
  · exact b

theorem BusyKept.foldl {α : Type} {f : State → α → State} (hf : ∀ u a, BusyKept u (f u a)) (l : List α) (s : State) : BusyKept s (l.foldl f s) :=
  List.foldlRecOn (motive := BusyKept s) l f .of_eq fun u h a _ => h.trans (hf u a)

theorem hbusy_exchange (s : State) (fs : List Nat) (c : CoreId) :
    tget (exchange s fs).x.hbusy c = if fs.contains c.f then tget s.sh.hbusy c else tget s.x.hbusy c :=
  tget_mixT fs (fun k : CoreId => k.f) _ _ c

theorem shHbusy_exchange (s : State) (fs : List Nat) (c : CoreId) :
    tget (exchange s fs).sh.hbusy c = if fs.contains c.f then tget s.x.hbusy c else tget s.sh.hbusy c :=
  tget_mixT fs (fun k : CoreId => k.f) _ _ c

/-- A change made between two exchanges of the same fields. -/
theorem BusyKept.exchanged {fs : List Nat} (h : BusyKept (exchange s fs) t) : BusyKept s (exchange t fs) where
  here c := by
    rw [hbusy_exchange, h.here, h.shadow, hbusy_exchange, shHbusy_exchange]
    split <;> rfl
  shadow c := by
    rw [shHbusy_exchange, h.here, h.shadow, hbusy_exchange, shHbusy_exchange]
    split <;> rfl

/-- A change made while a saved copy stands in place of some fields, which then return. -/
theorem BusyKept.restored {fs : List Nat} {ctx : Nat} {v : Saved} (h : BusyKept (withSaved s fs ctx v) t)
    (hx : u.x.hbusy = (mixExec fs t.x s.x).hbusy) (hsh : u.sh.hbusy = t.sh.hbusy) : BusyKept s u where
  here c := by
    have hc : tget t.x.hbusy c = tget (mixT fs (fun k : CoreId => k.f) s.x.hbusy v.exec.hbusy) c := h.here c
    rw [hx, mixExec, tget_mixT, hc, tget_mixT]
    split <;> rfl
  shadow c := by rw [hsh]; exact h.shadow c

theorem busyKept_onCopy {f : State → State} (hf : ∀ u, BusyKept u (f u)) (s : State) (ctx : Nat) : BusyKept s (onCopy s ctx f) := by
  unfold onCopy
  split
  · exact hf s
  · split
    · exact hf s
    · dsimp only
      split
      next p _ _ =>
        have he : BusyKept (exchange s (partFields s p)) (f { exchange s (partFields s p) with swapped := some ctx }) :=
          BusyKept.trans .of_eq (hf _)
        exact he.exchanged.trans .of_eq
      · split
        · exact hf s
        · split
          next v _ => exact (hf (withSaved s _ ctx v)).restored rfl rfl
          · exact hf s

theorem busyKept_eachCopy {f : State → State} (hf : ∀ u, BusyKept u (f u)) (s : State) (u : UnitId) (pa : Nat) :
    BusyKept s (eachCopy s u pa f) := by
  unfold eachCopy
  split
  · exact hf s
  · exact (hf s).trans (.foldl (fun t c => busyKept_onCopy hf t c) ..)

theorem busyKept_sendAns (s : State) (u : UnitId) (r : PortReq) (a : Ans) : BusyKept s (sendAns s u r a) := by
  rw [sendAns]
  split
  · split <;> exact .of_eq
  · exact .of_eq

theorem busyKept_serveStwaits (u : UnitId) (pa n : Nat) (s : State) : BusyKept s (serveStwaits u pa n s) := by
  refine BusyKept.trans (t := setWaitl s u _) .of_eq (.foldl (fun t e => ?_) ..)
  split
  · exact busyKept_sendAns ..
  · exact .of_eq

theorem busyKept_wakeStwait (s : State) (pa n : Nat) : BusyKept s (wakeStwait s pa n) := by
  have latched : BusyKept s (latchStamps s pa n) := by
    rw [latchStamps]
    split <;> split <;> exact .of_eq
  simp only [wakeStwait]
  split
  · exact latched
  · exact latched.trans (busyKept_eachCopy (busyKept_serveStwaits _ pa n) ..)

/-! ## Bytes written at their home (R304, R316) -/

theorem busyKept_eccRead {v : UnitId} {l : List Nat} (h : eccRead s v l = some t) : BusyKept s t := by
  induction l generalizing s with
  | nil => cases h; exact .of_eq
  | cons w l ih =>
    rw [eccRead] at h
    split at h
    · cases h
    · exact BusyKept.trans .of_eq (ih h)
    · exact ih h

theorem busyKept_eccWrite {v : UnitId} {pa n : Nat} {l : List Nat} (h : eccWrite s v pa n l = some t) : BusyKept s t := by
  induction l generalizing s with
  | nil => cases h; exact .of_eq
  | cons w l ih =>
    rw [eccWrite] at h
    split at h
    · exact BusyKept.trans .of_eq (ih h)
    · split at h
      next hr => exact (busyKept_eccRead hr).trans (ih h)
      · cases h

theorem busyKept_keyWrite (s : State) (key pa : Nat) (bs : List Byte) : BusyKept s (keyWrite s key pa bs) := by
  refine BusyKept.trans (.foldl (fun u x => ?_) ..) (BusyKept.of_eq (s := List.foldl _ s _))
  unfold rekeySector
  split
  · exact .of_eq
  · split <;> exact .of_eq

theorem busyKept_overHbm (s : State) (pa : Nat) (bs : List Byte) : BusyKept s (overHbm s pa bs) := by
  unfold overHbm
  exact BusyKept.ite .of_eq .of_eq

theorem busyKept_overCarve (s : State) (c : CoreId) (byte : Nat) (bs : List Byte) : BusyKept s (overCarve s c byte bs) := by
  unfold overCarve
  exact BusyKept.ite .of_eq .of_eq

theorem busyKept_homeWrite {ctx : Option Nat} {pa : Nat} {bs : List Byte} (h : homeWrite s ctx pa bs false = .ok t) : BusyKept s t := by
  simp only [homeWrite] at h
  split at h
  · cases h; exact .of_eq
  · split at h
    · cases h
    · split at h
      · cases h
      next he =>
        have hecc : BusyKept s _ := busyKept_eccWrite (by simpa only [eccOut] using he)
        split at h
        · split at h
          · cases h
          · cases h
            exact hecc.trans (BusyKept.trans (busyKept_keyWrite ..) (busyKept_overHbm ..))
        · cases h
          refine hecc.trans (BusyKept.trans ?_ (busyKept_overCarve ..))
          exact .of_eq
        · cases h
          exact hecc.trans .of_eq

theorem busyKept_histPut (s : State) (ctx : Nat) (l : List (Nat × List Byte)) : BusyKept s (histPut s ctx l) := by
  refine .foldl (fun u q => ?_) ..
  unfold extentPut
  split
  next h => exact (busyKept_homeWrite h).trans (busyKept_wakeStwait ..)
  next => exact .of_eq

end

/-! ## The end of an operation (R234, R240) -/

/-- Memory, the operations in progress and the owners of histories stand as they did. -/
structure UnitKept (s t : State) : Prop where
  mem   : t.mem = s.mem
  hbusy : t.x.hbusy = s.x.hbusy
  hown  : t.x.hown = s.x.hown

section
variable {s t u : State}

theorem UnitKept.trans (a : UnitKept s t) (b : UnitKept t u) : UnitKept s u :=
  ⟨b.mem.trans a.mem, b.hbusy.trans a.hbusy, b.hown.trans a.hown⟩

theorem UnitKept.refl (s : State) : UnitKept s s := ⟨rfl, rfl, rfl⟩

theorem UnitKept.of_quiet {sl : Slot} (h : Quiet sl s t) : UnitKept s t where
  mem := h.mem
  hbusy := (congrArg (fun u : State => u.x.hbusy) h.loc.frame :)
  hown := (congrArg (fun u : State => u.x.hown) h.loc.frame :)

theorem unitKept_sendAns (s : State) (u : UnitId) (r : PortReq) (a : Ans) : UnitKept s (sendAns s u r a) := by
  rw [sendAns]
  split
  · split <;> exact ⟨rfl, rfl, rfl⟩
  · exact ⟨rfl, rfl, rfl⟩

theorem unitKept_record (s : State) (c : CoreId) (lid : Nat) (is : List CountItem) (after : Bool) : UnitKept s (record s c lid is after) :=
  .of_quiet (quiet_record s ⟨c, 0, 0⟩ lid is after)

theorem unitKept_ownerFlags (s : State) (core : CoreId) (o : PortReq) (fl : BitVec 5) : UnitKept s (ownerFlags s core o fl) := by
  unfold ownerFlags
  split
  · exact .refl _
  · split
    · unfold orWord
      split <;> exact ⟨rfl, rfl, rfl⟩
    · exact unitKept_sendAns ..

theorem unitKept_stallOwner (s : State) (core : CoreId) (off : Nat) (o : PortReq) (code : Nat) (t : Time) :
    UnitKept s (stallOwner s core off o code t) := by
  unfold stallOwner
  split
  · refine UnitKept.trans ?_ (unitKept_sendAns ..)
    exact ⟨rfl, rfl, rfl⟩
  · have reported (r : FRec) : UnitKept s (reportFault s r).2 := .of_quiet (quiet_reportFault s o.sl r)
    dsimp only
    split
    · exact (reported _).trans ⟨rfl, rfl, rfl⟩
    · refine UnitKept.trans ?_ (.of_quiet (quiet_holdSets _ _))
      exact (reported _).trans ⟨rfl, rfl, rfl⟩

section
variable (s : State) (core : CoreId) (b : HBusy)

theorem setOwner_mem : (setOwner s core b).mem = s.mem := by
  unfold setOwner
  split_ifs <;> rfl

theorem setOwner_hbusy : (setOwner s core b).x.hbusy = s.x.hbusy := by
  unfold setOwner
  split_ifs <;> rfl

variable {b} (hproc : b.proc = false) (hcode : b.code = 0)
include hproc hcode

theorem setOwner_hred (hop : b.req.op = .hred) : tget (setOwner s core b).x.hown (core, b.off) = some b.req := by
  simp only [setOwner, hproc, hcode, hop, bne_self_eq_false, Bool.or_self, Bool.false_eq_true, if_false, beq_self_eq_true, if_true, tget_tset_self]

theorem setOwner_hnew (hop : b.req.op = .hnew) : tget (setOwner s core b).x.hown (core, b.off) = none := by
  have hne : (Op.hnew == Op.hred) = false := rfl
  simp only [setOwner, hproc, hcode, hop, hne, bne_self_eq_false, Bool.or_self, Bool.false_eq_true, if_false, beq_self_eq_true,
    if_true, tget_tdel_self]

end

/-- The state without the operation that a unit has in progress. -/
def notBusy (s : State) (core : CoreId) : State := { s with x := { s.x with hbusy := tdel s.x.hbusy core } }

/-- Beside its bytes and its owner, the end of an operation leaves memory, the operations in progress and the owners as they were. -/
theorem histEnd_kept (s : State) (core : CoreId) (b : HBusy) :
    ∃ t, UnitKept (histPut (notBusy s core) b.req.ctx b.wr) t ∧ UnitKept (setOwner t core b) (histEnd s core b) := by
  let v := record (histPut (notBusy s core) b.req.ctx b.wr) core b.req.lid b.items (!b.proc && !b.req.set.bs.isEmpty)
  have counted : UnitKept (histPut (notBusy s core) b.req.ctx b.wr) v := unitKept_record ..
  let w := match ownerOf v core b.off with
    | some o => if b.stall = 0 then ownerFlags v core o b.flags else stallOwner (ownerFlags v core o b.flags) core b.off o b.stall b.stallT
    | none => v
  have owner : UnitKept v w := by
    dsimp only [w]
    split
    · split
      · exact unitKept_ownerFlags ..
      · exact (unitKept_ownerFlags ..).trans (unitKept_stallOwner ..)
    · exact .refl _
  let y := if b.code = 0 then setOwner w core b else sendAns (setOwner w core b) (.core core) b.req (ansCode b.code)
  have answered : UnitKept (setOwner w core b) y := by
    dsimp only [y]
    split
    · exact .refl _
    · exact unitKept_sendAns ..
  have released : UnitKept y (noteFiring (if b.aside then releaseAside y core b.off else y) core) := by
    split <;> exact ⟨rfl, rfl, rfl⟩
  exact ⟨w, counted.trans owner, answered.trans released⟩

/-- What the end of an operation leaves (R234): none in progress, its bytes in memory, and the owner that an HRED makes or an HNEW drops. -/
theorem histEnd_leaves (s : State) (core : CoreId) (b : HBusy) : tget (histEnd s core b).x.hbusy core = none ∧
    (histEnd s core b).mem = (histPut (notBusy s core) b.req.ctx b.wr).mem ∧
    (b.proc = false → b.code = 0 → (b.req.op = .hred → tget (histEnd s core b).x.hown (core, b.off) = some b.req) ∧
      (b.req.op = .hnew → tget (histEnd s core b).x.hown (core, b.off) = none)) := by
  obtain ⟨t, before, after⟩ := histEnd_kept s core b
  refine ⟨?_, ?_, fun hproc hcode => ⟨fun hop => ?_, fun hop => ?_⟩⟩
  · rw [after.hbusy, setOwner_hbusy, before.hbusy, (busyKept_histPut ..).here]
    exact tget_tdel_self ..
  · rw [after.mem, setOwner_mem, before.mem]
  · rw [after.hown, setOwner_hred t core hproc hcode hop]
  · rw [after.hown, setOwner_hnew t core hproc hcode hop]

end

/-! ## Going on (R234) -/

/-- The state with the tokens sent that found room, and its region's progress noted. -/
def goneOn (s : State) (core : CoreId) (b : HBusy) : State :=
  let q := sendToks core s b.out
  if b.req.wafer = s.wafno then progress q.1 b.req.sl.core.f b.req.lid else q.1

section
variable {s : State} {core : CoreId} {b : HBusy} (hb : tget s.x.hbusy core = some b) (hruns : ctxRuns s b.req.ctx = true)
  (hunit : unitHolds s (.core core) = false) (hfrozen : isFrozen s core.f b.req.lid = false)
include hb hruns hunit hfrozen

theorem histGo_sends : histGo s core = if (sendToks core s b.out).2 = [] then histEnd (goneOn s core b) core b
    else setBusy (goneOn s core b) core { b with out := (sendToks core s b.out).2 } := by
  simp only [histGo, hb, hruns, hunit, hfrozen, Bool.not_true, Bool.or_self, Bool.false_eq_true, if_false, beq_iff_eq, List.isEmpty_iff]
  rfl

end

/-! ## Pending entries between two operations (R240) -/

theorem exec_historyPendingProcess_busy {s : State} {core : CoreId} {b : HBusy} (hb : tget s.x.hbusy core = some b) (hp : b.proc = true) :
    exec (.historyPendingProcess core b.off) s = .next (histGo s core) := by
  change execHistoryPendingProcess core b.off s = _
  simp only [execHistoryPendingProcess, hb, hp, beq_self_eq_true, Bool.and_self, if_true]

section
variable {s u : State} {core : CoreId} {off n : Nat} {o : PortReq} {h : Hist} {p : HRec} (hbusy : tget s.x.hbusy core = none)
  (hown : ownerOf s core off = some o) (hcount : histCount s o.lid core off = some n) (hruns : ctxRuns s o.ctx = true)
  (hunit : unitHolds s (.core core) = false) (hfrozen : isFrozen s core.f o.lid = false) (hstop : tget s.x.hstop (core, off) = none)
  (hload : histLoad s o.ctx (sramPA s.wafno core off) n = .ok (u, h)) (howner : h.owner ≠ 0xFFFFFFFF)
  (hpass : leastPassed (stageFront u o.lid o.stage) h.pend = some p)
include hbusy hown hcount hruns hunit hfrozen hstop hload howner hpass

theorem exec_historyPendingProcess_ok {d : Done} (hd : processEntry h o p = .ok d) :
    exec (.historyPendingProcess core off) s = .next (histGo (setBusy (fresh u).2 core
      ⟨(fresh u).1, o, off, corrToks o d.x, d.h.bytes, d.items, d.flags, 0, 0, t00, false, true⟩) core) := by
  change execHistoryPendingProcess core off s = _
  simp only [execHistoryPendingProcess, hbusy, hown, pendNext, hcount, hruns, hunit, hfrozen, hstop, hload, beq_eq_false_iff_ne.mpr howner, hpass, hd,
    Option.isSome_none, Bool.not_true, Bool.or_self, Bool.false_eq_true, if_false]

theorem exec_historyPendingProcess_error {c : Nat} (hc : processEntry h o p = .error c) :
    exec (.historyPendingProcess core off) s = .next (stallOwner u core off o c p.time) := by
  change execHistoryPendingProcess core off s = _
  simp only [execHistoryPendingProcess, hbusy, hown, pendNext, hcount, hruns, hunit, hfrozen, hstop, hload, beq_eq_false_iff_ne.mpr howner, hpass, hc,
    Option.isSome_none, Bool.not_true, Bool.or_self, Bool.false_eq_true, if_false]

end

end Sys2Proof.Machine
end

section
/-! Histories (R226 to R246): what a history's operations and the processing of its pending entries leave, one group of clauses after the other. -/

namespace Sys2Proof.Machine

open Sys2Proof Sys2Proof.Safety

/-- Settles O53: an operation's way through its unit, one lemma for each turn it can take; what it leaves, by the sums that a merge keeps; and
the reduction, by sums over values. -/
theorem historiesRun : Obligations.HistoriesRun := by
  refine ⟨fun s k r pa cmp core off hreq hop hpa hc hbusy hq => exec_historyOperation_arrives hbusy hq hreq hop hpa hc,
    fun s k core b => exec_historyOperation_busy, fun s k core l hbusy => exec_historyOperation_queued hbusy,
    fun s core op hop => ⟨histNext_waits hop, fun hbusy hunit hruns hguard => ⟨histNext_undeclared hop hbusy hunit hruns hguard, ?turn⟩⟩,
    fun s core op h => ⟨?alone, ?processing⟩, fun h r own F => ?operations, ?batches,
    fun F t => ⟨fun hF => hF ▸ compactTime_nil t, ?compacted⟩,
    fun h t b p => mem_interesting, ?reductions, fun h o p x hx => ⟨processEntry_full hx, fun g => processEntry_ok hx⟩,
    fun o F n d => ⟨processAll_none n, fun p hp => ⟨fun c => processAll_error n hp, fun e => processAll_ok n hp⟩⟩,
    fun F l => ⟨leastPassed_eq_none, fun p => leastPassed_some⟩, fun l i r => recAt_flatMap_recBytes, histEnd_leaves,
    fun s core b hb hruns hunit hfrozen => ?goesOn, ?pending, fun s core b => exec_historyPendingProcess_busy⟩
  case turn =>
    intro n u h hcount hpark hload hpark' howner hpart hfree
    rw [histNext_loaded hop hbusy hunit hruns hguard hcount hpark hload]
    exact histBegin_runs hpark' howner hpart hfree
  case alone =>
    intro hnone
    have hrun := histRun_alone (core := core) hnone
    exact ⟨fun o hd => hrun.trans (congrArg (runAlone s core op) hd), fun c hd => hrun.trans (congrArg (runAlone s core op) hd)⟩
  case processing =>
    intro w hop hown hpass
    refine ⟨fun i c hs hc => histRun_stopped hop hown hpass hs hc, fun hs z =>
      ⟨fun t hz o hd => ?_, fun c t hz hc => histRun_stalled hop hown hs hz hc⟩⟩
    exact histRun_processed hop hown hs hz (by rwa [hown] at hd)
  case operations =>
    refine ⟨fun x hop hx => histDo_hnew hop hx, fun hop => ⟨fun c => histDo_refused (by rw [hop]; rfl), fun b hb g hg x hx => ?_⟩,
      fun hop => ⟨fun c => histDo_refused (by rw [hop]; rfl), fun b hb g hg ps x y hps hx hy => ?_⟩,
      fun hop => ⟨fun c => histDo_refused (by rw [hop]; rfl), fun b hb g hg => fun y hy => ?_⟩,
      fun ls e hop hls he => histDo_hseek hop hls he, fun hop => ⟨fun e => histDo_compact_error hop, fun g x hg hx => histDo_compact hop hg hx⟩,
      fun x hop hx => histDo_hstat hop hx, fun b ps => joinPairs_ok, fun k ts => seekToks_ok⟩
    · rw [hop, if_neg (by decide)] at hg
      exact histDo_happ hb hop hg hx
    · rw [hop, if_neg (by decide)] at hg
      exact histDo_hjoin hb hop hg hps hx hy
    · rw [hop, if_pos rfl] at hg
      have hred := histDo_hred (h := h) (own := own) (F := F) hb hop hg hy
      exact ⟨fun hf => hred.trans (if_pos hf), fun hf => ⟨_, hred.trans (if_neg (Nat.not_lt.mpr hf)), fun q u => mem_hredItems⟩⟩
  case batches =>
    exact ⟨fun l m => mergeRecs_some, consolidate_eq,
      fun h sd b g hg => ⟨fun hb => by rw [hb, appendBatch_nil] at hg; cases hg; rfl, appendBatch_ok hg⟩,
      fun h sd b i a j c => appendBatch_small, fun h g z => compactAll_ok, fun h g => compactAll_full g⟩
  case compacted =>
    intro hF
    exact ⟨(tle_compactTime hF).mp (tle_refl _), fun u => (tle_compactTime hF).mpr⟩
  case reductions =>
    refine ⟨fun h sd k t => ⟨risingVals_sumsAt h sd k t, countAt_sumsAt h sd k t⟩, fun h fn ty k t _ => correction_fst h fn ty k t,
      fun ty c hc => ⟨countAt_desired_set ty hc, desired_count ty c, fun hty => ⟨desired_sum hty c, fun fn hfn => ?_⟩⟩⟩
    obtain rfl | rfl := hfn
    · exact desired_extreme (mx := false) rfl hty c
    · exact desired_extreme (mx := true) rfl hty c
  case goesOn =>
    have hsends := histGo_sends hb hruns hunit hfrozen
    exact ⟨fun hq => hsends.trans (if_pos hq), fun hq => hsends.trans (if_neg hq)⟩
  case pending =>
    intro s u core off n o h p hbusy hown hcount hruns hunit hfrozen hstop hload howner hpass
    exact ⟨fun d => exec_historyPendingProcess_ok hbusy hown hcount hruns hunit hfrozen hstop hload howner hpass,
      fun c => exec_historyPendingProcess_error hbusy hown hcount hruns hunit hfrozen hstop hload howner hpass⟩

end Sys2Proof.Machine
end
